-- ==== Sys2Proof/Word.lean ====
section
/-! DEFINITION. The word types of the FL880 and the index types of its parts. -/

namespace Sys2Proof

/-- A byte of memory. -/
abbrev Byte := BitVec 8
/-- A 32-bit word: a granule of an instruction, an FP32 pattern, a kettle lane. -/
abbrev W32 := BitVec 32
/-- A 64-bit word: a scalar register, an MMIO register. -/
abbrev W64 := BitVec 64
/-- A vector register of 16 rows of 64 bytes (R361). -/
abbrev VWord := BitVec 8192
/-- A mask of 512 bits (R363). -/
abbrev MWord := BitVec 512
/-- A kettle register of 64 lanes of 32 bits (R94). -/
abbrev KWord := BitVec 2048

end Sys2Proof
end

