-- ==== Sys2Proof/Syntax.lean ====
section
/-! DEFINITION. The steps of the FL880 as one inductive type: every instruction of the control core, the
engines and the kettles, and every event of the part (one constructor per row of the opcode table). -/

namespace Sys2Proof

/-- Length of an instruction in granules (Table 9-1, R261). -/
inductive Len where
  | w1 | w2 | w3
deriving DecidableEq, Repr

/-- The unit-dependent control of an instruction (XCTL, Table 9-3, R263): the CC predicate, the guard slot of
a push, the controls of VA, and the tokens of the other engines. -/
inductive Ctl where
  | cc (neg : Bool) (p : BitVec 4)
  | slot (neg : Bool) (g : BitVec 5)
  | va (fz : Bool) (gate : BitVec 4) (sq : Bool) (give take : BitVec 3)
  | en (give take : BitVec 3)
deriving DecidableEq, Repr

/-- What every instruction carries besides its operands. -/
structure Head where
  len : Len
  ctl : Ctl
deriving DecidableEq, Repr

/-- A source operand by its kind tag (Table 9-4): tag 00, tag 01, tag 10, and tag 11 in the 64-bit and in the
96-bit form. -/
inductive Src where
  | r (n : BitVec 6)
  | x (n : BitVec 6)
  | cb (i : BitVec 8)
  | i8 (v : BitVec 8)
  | lit (v : BitVec 32)
deriving DecidableEq, Repr

/-- Scopes (Table 0-3), with the codes of Table 11-1. -/
inductive Scope where
  | ac | quad | die | pkg | fab
deriving DecidableEq, Repr

/-- Rounding modes (Table 7-5). -/
inductive RMode where
  | rne | rtz | rup | rdn | sr
deriving DecidableEq, Repr

/-- Precision and mode of a rounding instruction (R269). -/
structure FOp where
  bf : Bool
  mode : RMode
deriving DecidableEq, Repr

/-- Memory control (Table 11-1): ORD 0 relaxed, 1 acquire, 2 release, 3 release then acquire. -/
structure MCtl where
  wide : Bool
  ord : BitVec 2
  scope : Scope
deriving DecidableEq, Repr

/-- Conditions of CMP (R293). -/
inductive Cond where
  | eq | ne | lt | ge | ltu | geu | le | gt | leu | gtu | tst | ntst
deriving DecidableEq, Repr

/-- Conditions of FCMP, VCMP and KCMP (R297, R373, R117). -/
inductive FCond where
  | eq | ne | lt | le | un
deriving DecidableEq, Repr

/-- Logical functions of PLOG (R294). -/
inductive PFn where
  | and | or | xor | andn | nand | nor | xnor | orn
deriving DecidableEq, Repr

/-- Operations of AMO (R326). -/
inductive AmoOp where
  | add | and | or | xor | swap | min | max | minu | maxu
deriving DecidableEq, Repr

/-- Conditions of EBR (R354). -/
inductive ECond where
  | eq | ne | lt | ge | ltu | geu | last0 | last1 | al
deriving DecidableEq, Repr

/-- Special functions (Table 12-5). -/
inductive SfuFn where
  | exp2 | log2 | rcp | rsqrt | tanh | erf
deriving DecidableEq, Repr

/-- The five engines with the engine codes 1 to 5 (R271). -/
inductive Eid where
  | vl | va | vs | mx | ax
deriving DecidableEq, Repr

/-- What GSET writes (R305). -/
inductive GSrc where
  | val (a : Src)
  | pred (p : BitVec 4)
deriving DecidableEq, Repr

/-- Operators of reductions and scans (Table 12-6, R128). -/
inductive RedOp where
  | sum | max | min | maxsum
deriving DecidableEq, Repr

/-- Directions of reductions, scans and sorts (Table 12-6). -/
inductive Dir where
  | row | col | all
deriving DecidableEq, Repr

/-- Key order of VSORT (R378). -/
inductive KeyOrd where
  | s32 | u32 | f32
deriving DecidableEq, Repr

/-- Operators of VSEGR (R379). -/
inductive SegOp where
  | sumf | maxf | sums
deriving DecidableEq, Repr

/-- Operations of VSTA and of a return-free atomic (R131, R346). -/
inductive RfOp where
  | fadd | sadd | fmax
deriving DecidableEq, Repr

/-- Element widths of the integer instructions (R381). -/
inductive IWid where
  | b4 | b2 | b1
deriving DecidableEq, Repr

/-- Functions of VILOG (Table 12-6). -/
inductive LogF where
  | and | or | xor | andn
deriving DecidableEq, Repr

/-- Functions of VISH (Table 12-6). -/
inductive ShF where
  | shl | shr | sha
deriving DecidableEq, Repr

/-- Element kinds of VIMM (Table 12-6). -/
inductive ImmK where
  | f32 | s32 | bf16 | s16
deriving DecidableEq, Repr

/-- What VBCAST copies (R380). -/
inductive BcK where
  | elem | row | col
deriving DecidableEq, Repr

/-- Forms of VMASK (Table 12-7). -/
inductive VMaskF where
  | logic (f : LogF) (d a b : BitVec 3)
  | not (d a : BitVec 3)
  | first (d : BitVec 3) (a : Src)
  | fromv (d : BitVec 3) (a : BitVec 6)
  | tov (d : BitVec 6) (a : BitVec 3)
deriving DecidableEq, Repr

/-- Tile modes (Table 13-1). -/
inductive TMode where
  | phys | ref | frozen | frozens
deriving DecidableEq, Repr

/-- Forms of APROG (R407). -/
inductive ProgK where
  | s | f | fsym
deriving DecidableEq, Repr

/-- Forms of KLD and KST outside the all-bank forms (Table 4-8). -/
inductive KForm where
  | full | bf16 | half
deriving DecidableEq, Repr

/-- Forms of KAG (R115). -/
inductive KagF where
  | addi (a : BitVec 3) (imm : BitVec 32)
  | addr (a b : BitVec 3)
  | li (imm : BitVec 32)
  | shl (a : BitVec 3) (n : BitVec 6)
  | prm (i : BitVec 3)
  | mul (a : BitVec 3) (imm : BitVec 32)
deriving DecidableEq, Repr

/-- Source b of a kettle lane instruction: a register, or IMM as an FP32 pattern (R116). -/
inductive KSrc where
  | k (n : BitVec 5)
  | imm (v : BitVec 32)
deriving DecidableEq, Repr

/-- Forms of KCVT (R118). -/
inductive KcvtF where
  | f32s32 (a : BitVec 5)
  | s32f32 (a : BitVec 5)
  | s64lo (a : BitVec 5) (b : BitVec 3)
  | s64hi (a : BitVec 5) (b : BitVec 3)
  | f32j (a : BitVec 3)
  | b32j (a : BitVec 3)
deriving DecidableEq, Repr

/-- Forms of KIADD (R120). -/
inductive KiaddF where
  | d | wlo | whi | w
deriving DecidableEq, Repr

/-- Operators of the reduction tree (R128, R129). -/
inductive TreeOp where
  | sum | max | maxsum
deriving DecidableEq, Repr

/-- Count of a KLOOP (R122). -/
inductive KCount where
  | j (a : BitVec 3)
  | imm (v : BitVec 32)
deriving DecidableEq, Repr

/-- Access kinds of Table 1-10, with R41's permissions. -/
inductive AKind where
  | read | write | atomic | fetch | issue
deriving DecidableEq, Repr

/-- What a host request needs beyond a plain one: a feature that the port does not support (R458). -/
inductive HostExt where
  | plain | ats | pasid | tph | cas128
deriving DecidableEq, Repr

/-- What a host's request is for: a BAR by its number, 0, 2 or 4, or the configuration space, 6; and what it needs of the port. -/
structure HostTarget where
  ext : HostExt
  bar : Nat
deriving DecidableEq, Repr

/-- Where an access goes: its physical address, and the virtual one that it was translated from, of which only a master that translates has any. -/
structure Reached where
  pa : Nat
  va : W64
deriving DecidableEq, Repr

/-- A write of a register: its value, and the virtual address that it was made through. -/
structure RegWrite where
  v : W64
  va : W64
deriving DecidableEq, Repr

/-- A host or management-core atomic operation (R461, R167). -/
inductive XAtom where
  | amo (op : AmoOp) (v : W64)
  | cas (cmp v : W64)
deriving DecidableEq, Repr

/-- What a management core or the root core does to memory (R167, Table 5-5). -/
inductive McOp where
  | load
  | store (v : W64)
  | atom (aq rl : Bool) (x : XAtom)
  | lr (aq rl : Bool)
  | sc (aq rl : Bool) (v : W64)
  | fenceRel
  | fenceAcq
  | fenceFull
  | fenceI
deriving DecidableEq, Repr

/-- A pot operation: pour, join, leave, close, retire (R336, R338). -/
inductive PotKind where
  | pour | join | leave | close | retire
deriving DecidableEq, Repr

/-- A pot request that a member of another part has sent through a fabric port (R173): descriptor VA on this part, pour
word (the slot alone for a join or leave), payload, carried checksum, values its hardware saturated, whether it only
tells that the source could not be read (R498), the node it is for (0xFFFF this part; another, and the port forwards it, R473), and of SUMI its
payload bytes before the trailer. -/
structure FarPour where
  port : Nat
  kind : PotKind
  desc : W64
  word : W64
  data : List Byte
  sum : Nat
  sat : Nat
  lost : Bool
  node : Nat
  sumi : Nat
deriving DecidableEq, Repr

/-- One step of the part. Control core, engine and kettle rows carry their decoded operands; event rows carry
the unit they concern: `n` is an AC as 64 × die + index, `d` a die, `q` a kettle as 64 × die + index. -/
inductive Instr where
  -- row 0x0_ and 0x1_: integer instructions of the CC (R289 to R294)
  | add (h : Head) (w : Bool) (d : BitVec 6) (a b : Src)
  | sub (h : Head) (w : Bool) (d : BitVec 6) (a b : Src)
  | mul (h : Head) (w : Bool) (d : BitVec 6) (a b : Src)
  | mulh (h : Head) (d : BitVec 6) (a b : Src)
  | mulhu (h : Head) (d : BitVec 6) (a b : Src)
  | div (h : Head) (w : Bool) (d : BitVec 6) (a b : Src)
  | divu (h : Head) (w : Bool) (d : BitVec 6) (a b : Src)
  | rem (h : Head) (w : Bool) (d : BitVec 6) (a b : Src)
  | remu (h : Head) (w : Bool) (d : BitVec 6) (a b : Src)
  | and (h : Head) (d : BitVec 6) (a b : Src)
  | or (h : Head) (d : BitVec 6) (a b : Src)
  | xor (h : Head) (d : BitVec 6) (a b : Src)
  | andn (h : Head) (d : BitVec 6) (a b : Src)
  | shl (h : Head) (w : Bool) (d : BitVec 6) (a b : Src)
  | shr (h : Head) (w : Bool) (d : BitVec 6) (a b : Src)
  | sha (h : Head) (w : Bool) (d : BitVec 6) (a b : Src)
  | rol (h : Head) (d : BitVec 6) (a b : Src)
  | min (h : Head) (d : BitVec 6) (a b : Src)
  | minu (h : Head) (d : BitVec 6) (a b : Src)
  | max (h : Head) (d : BitVec 6) (a b : Src)
  | maxu (h : Head) (d : BitVec 6) (a b : Src)
  | clz (h : Head) (d : BitVec 6) (a : Src)
  | ctz (h : Head) (d : BitVec 6) (a : Src)
  | popc (h : Head) (d : BitVec 6) (a : Src)
  | bfx (h : Head) (sx : Bool) (d : BitVec 6) (a b : Src)
  | bfi (h : Head) (d : BitVec 6) (a b : Src)
  | sel (h : Head) (d : BitVec 6) (a b : Src) (p : BitVec 4)
  | li (h : Head) (d : BitVec 6) (a : Src)
  | lih (h : Head) (d : BitVec 6) (a : Src)
  | lea (h : Head) (sh : BitVec 2) (d : BitVec 6) (a b : Src)
  | leaPc (h : Head) (d : BitVec 6) (b : Src)
  | cmp (h : Head) (c : Cond) (p : BitVec 4) (a b : Src)
  | plog (h : Head) (f : PFn) (d a b : BitVec 4)
  | pmovToPred (h : Head) (d : BitVec 4) (a : Src)
  | pmovToScalar (h : Head) (d : BitVec 6) (a : BitVec 4)
  | pmovAll (h : Head) (d : BitVec 6)
  | pmovSet (h : Head) (a : Src)
  -- row 0x2_: scalar floating point (R295 to R298)
  | fadd (h : Head) (f : FOp) (d : BitVec 6) (a b : Src)
  | fsub (h : Head) (f : FOp) (d : BitVec 6) (a b : Src)
  | fmul (h : Head) (f : FOp) (d : BitVec 6) (a b : Src)
  | ffma (h : Head) (f : FOp) (d : BitVec 6) (a b c : Src)
  | fdiv (h : Head) (f : FOp) (d : BitVec 6) (a b : Src)
  | fsqrt (h : Head) (f : FOp) (d : BitVec 6) (a : Src)
  | fcmp (h : Head) (bf : Bool) (c : FCond) (p : BitVec 4) (a b : Src)
  | fcvt (h : Head) (m : RMode) (code : BitVec 3) (d : BitVec 6) (a : Src)
  | fminmax (h : Head) (bf mx : Bool) (d : BitVec 6) (a b : Src)
  -- row 0x3_: branches, loops, guards, engines and queues (R299 to R309)
  | br (h : Head) (off : BitVec 22)
  | jmp (h : Head) (off : BitVec 32)
  | jmpr (h : Head) (a b : Src)
  | call (h : Head) (d : BitVec 6) (a : Src)
  | ret (h : Head) (a : BitVec 6)
  | loop (h : Head) (k : Bool) (a : Src) (blen : BitVec 12)
  | gset (h : Head) (g : BitVec 5) (a : GSrc)
  | gclr (h : Head) (g : BitVec 5)
  | fork (h : Head) (a : Src)
  | join (h : Head) (a : Src)
  | pushc (h : Head) (e : Eid) (n : BitVec 3) (blk : BitVec 6) (b : Src)
  | pushk (h : Head) (e : Eid) (n : BitVec 3) (blk : BitVec 6)
  | retq (h : Head) (d : BitVec 6)
  -- row 0x4_: launches, tasks, system registers, traps, events (R310 to R321)
  | launch (h : Head) (d : BitVec 6) (a : Src)
  | next (h : Head)
  | coord (h : Head) (f : BitVec 3) (d : BitVec 6) (a : Src)
  | suspend (h : Head) (a : BitVec 6) (b : Src) (c : BitVec 6)
  | yield (h : Head) (a : BitVec 6) (b : Src) (c : BitVec 6)
  | sysr (h : Head) (d : BitVec 6) (n : BitVec 12)
  | sysw (h : Head) (n : BitVec 12) (a : Src)
  | pcarve (h : Head) (a : Src)
  | trap (h : Head) (a : Src)
  | rft (h : Head)
  | wfe (h : Head)
  | sev (h : Head) (s : Scope)
  | brk (h : Head) (a : Src)
  | halt (h : Head)
  | nop (h : Head)
  -- row 0x5_: memory and timelines (R322 to R331)
  | ld (h : Head) (w : BitVec 3) (d a : BitVec 6) (b : Src)
  | st (h : Head) (w : BitVec 2) (a : BitVec 6) (b : Src) (c : BitVec 6)
  | lds (h : Head) (w : BitVec 3) (m : MCtl) (d a : BitVec 6) (b : Src)
  | sts (h : Head) (w : BitVec 2) (m : MCtl) (a : BitVec 6) (b : Src) (c : BitVec 6)
  | amo (h : Head) (op : AmoOp) (m : MCtl) (d a b : BitVec 6)
  | cas (h : Head) (m : MCtl) (d a b : BitVec 6)
  | phase (h : Head) (m : MCtl)
  | fence (h : Head) (s : Scope)
  | clean (h : Head) (l2 : Bool) (a : BitVec 6) (b : Src)
  | inval (h : Head) (l2 : Bool) (a : BitVec 6) (b : Src)
  | pref (h : Head) (l2 : Bool) (a : BitVec 6) (b : Src)
  | tlwait (h : Head) (s : Scope) (ctx : BitVec 3) (b : Src)
  | tlread (h : Head) (issue : Bool) (d : BitVec 6) (ctx : BitVec 3)
  -- row 0x6_: copies, pots, kettles, ring consumers (R332 to R340, R348, R349)
  | cpy (h : Head) (fab : Bool) (d a : BitVec 6)
  | cpyt (h : Head) (fab : Bool) (d a : BitVec 6)
  | cpyw (h : Head) (fab : Bool) (d a : BitVec 6) (b : Src) (c : BitVec 6)
  | pour (h : Head) (fab : Bool) (d a b : BitVec 6) (c : Src)
  | pwait (h : Head) (fab : Bool) (d a : BitVec 6) (b : Src)
  | pjoin (h : Head) (d a : BitVec 6) (b : Src)
  | pleave (h : Head) (d a : BitVec 6) (b : Src)
  | pclose (h : Head) (d a : BitVec 6)
  | pcloseRetire (h : Head) (d a : BitVec 6)
  | nmrun (h : Head) (d a b : BitVec 6) (c : Src)
  | nmfence (h : Head) (s : Scope)
  | rwait (h : Head) (d a : BitVec 6)
  | rfree (h : Head) (a : BitVec 6)
  -- row 0x7_: matrix engine instructions of the CC (R411 to R420)
  | mxcfg (h : Head) (n : BitVec 6) (a : Src)
  | mxgo (h : Head) (d : BitVec 6) (a : Src)
  | mxfmt (h : Head) (a : Src)
  | mxmode (h : Head) (d : BitVec 6) (a : Src)
  | mxzero (h : Head) (d : BitVec 6) (a : Src)
  | mxdrain (h : Head) (t bf : Bool) (d : BitVec 6) (a : Src)
  | mxsave (h : Head) (a : BitVec 6)
  | mxrest (h : Head) (a : BitVec 6)
  | mxstat (h : Head) (n : BitVec 3) (d : BitVec 6)
  -- row 0x8_: instructions of every engine (R352 to R360)
  | etake (h : Head)
  | ebr (h : Head) (c : ECond) (a b : Src) (off : BitVec 32)
  | eloop (h : Head) (k : Bool) (a : Src) (blen : BitVec 12)
  | eloopAdd (h : Head) (d : BitVec 6) (a b : Src)
  | eend (h : Head)
  | enop (h : Head)
  | etok (h : Head) (n : BitVec 4)
  | gput (h : Head) (g : BitVec 5) (a : Src)
  | eret (h : Head) (a : Src)
  -- row 0x9_: vector loads and stores (R341 to R347)
  | vld (h : Head) (nr : BitVec 4) (v a : BitVec 6) (b : Src)
  | vldg (h : Head) (nr : BitVec 4) (v a : BitVec 6) (b : Src) (c : BitVec 6)
  | vldb (h : Head) (f : FOp) (v a b c : BitVec 6) (fw : BitVec 32)
  | vldm (h : Head) (a b : BitVec 6) (c : Src)
  | vst (h : Head) (nr : BitVec 4) (v a : BitVec 6) (b : Src)
  | vsts (h : Head) (nr : BitVec 4) (v a : BitVec 6) (b : Src) (c : BitVec 6)
  | vsta (h : Head) (op : RfOp) (nr : BitVec 4) (v a b c : BitVec 6) (lanes : BitVec 16)
  | rput (h : Head) (a b c : BitVec 6)
  -- row 0xA_: vector floating point (R372 to R375)
  | vadd (h : Head) (f : FOp) (d : BitVec 6) (a b : Src)
  | vsub (h : Head) (f : FOp) (d : BitVec 6) (a b : Src)
  | vmul (h : Head) (f : FOp) (d : BitVec 6) (a b : Src)
  | vfma (h : Head) (f : FOp) (d : BitVec 6) (a b c : Src)
  | vfms (h : Head) (f : FOp) (d : BitVec 6) (a b c : Src)
  | vmin (h : Head) (bf : Bool) (d : BitVec 6) (a b : Src)
  | vmax (h : Head) (bf : Bool) (d : BitVec 6) (a b : Src)
  | vabs (h : Head) (bf : Bool) (d : BitVec 6) (a : Src)
  | vneg (h : Head) (bf : Bool) (d : BitVec 6) (a : Src)
  | vcmp (h : Head) (bf : Bool) (c : FCond) (m : BitVec 3) (a b : Src)
  | vsel (h : Head) (w16 : Bool) (d : BitVec 6) (a b : Src) (m : BitVec 3)
  | vcvt (h : Head) (md : RMode) (d a : BitVec 6) (src dst : BitVec 8) (part : BitVec 2) (sat : Bool)
  | vsfu (h : Head) (f : FOp) (fn : SfuFn) (d : BitVec 6) (a : Src)
  -- rows 0xB_ and 0xC_: reductions, movement, integers, training formats (R376 to R387, R365, R370)
  | vred (h : Head) (f : FOp) (op : RedOp) (dir : Dir) (d a b : BitVec 6)
  | vscan (h : Head) (f : FOp) (op : RedOp) (dir : Dir) (d a : BitVec 6)
  | vsort (h : Head) (key : KeyOrd) (desc all : Bool) (d a b : BitVec 6)
  | vsegr (h : Head) (md : RMode) (op : SegOp) (all : Bool) (d a b : BitVec 6)
  | vperm (h : Head) (all : Bool) (d a b : BitVec 6)
  | vbcast (h : Head) (k : BcK) (w16 : Bool) (d a : BitVec 6) (b : Src)
  | vmov (h : Head) (d a : BitVec 6)
  | vmovX (h : Head) (d a : BitVec 6) (b : Src)
  | viota (h : Head) (d : BitVec 6) (a b : Src)
  | viadd (h : Head) (w : IWid) (sat : Bool) (d : BitVec 6) (a b : Src)
  | visub (h : Head) (w : IWid) (sat : Bool) (d : BitVec 6) (a b : Src)
  | vimul (h : Head) (w : IWid) (d : BitVec 6) (a b : Src)
  | vilog (h : Head) (f : LogF) (d : BitVec 6) (a b : Src)
  | vish (h : Head) (f : ShF) (w : IWid) (d : BitVec 6) (a b : Src)
  | vimm (h : Head) (k : ImmK) (d : BitVec 6) (a : Src)
  | vmask (h : Head) (f : VMaskF)
  | vshape (h : Head) (a : Src)
  | vrot (h : Head) (a : Src)
  | vloopp (h : Head) (st : BitVec 3) (a : Src) (blen : BitVec 12)
  | vpcode (h : Head) (d a : BitVec 6) (b : Src)
  | vbexp (h : Head) (bf : Bool) (d a : BitVec 6)
  | vqnt (h : Head) (d a b : BitVec 6)
  | vdqnt (h : Head) (md : RMode) (d a b : BitVec 6)
  | vaResultLanding (n : Nat)
  -- row 0xD_: array instructions (R400 to R409)
  | afwd (h : Head) (f32 sc : Bool) (d : BitVec 6) (a : Src) (b c : BitVec 6)
  | abwd (h : Head) (f32 sc : Bool) (d : BitVec 6) (a : Src) (b c : BitVec 6)
  | aupd (h : Head) (d : BitVec 6) (a : Src) (b c : BitVec 6)
  | axfer (h : Head) (d : BitVec 6) (a : Src)
  | ackr (h : Head) (f : Bool) (ln : BitVec 2) (a : Src) (b : BitVec 6)
  | aprog (h : Head) (k : ProgK) (d : BitVec 6) (a : Src) (b c : BitVec 6)
  | acal (h : Head) (a b : Src)
  | asprLd (h : Head) (a : Src) (b : BitVec 6)
  | asprSt (h : Head) (a : Src) (b : BitVec 6)
  | aset (h : Head) (reg : BitVec 3) (a b : Src)
  | amode (h : Head) (m : TMode) (a : Src)
  | astat (h : Head) (reg : BitVec 4) (d : BitVec 6) (a : Src)
  | aref (h : Head) (a : Src) (b : BitVec 6)
  -- array and matrix engine events (R395 to R416, R494)
  | arrayCommandComplete (n : Nat)
  | axGateRead (n : Nat)
  | powerAdmit (d : Nat)
  | mxTileStart (n : Nat)
  | mxRowCommit (n : Nat) (resBad dupBad : Bool)
  | mxTileComplete (n : Nat)
  | mxModeChange (n : Nat)
  | mxZero (n : Nat)
  | mxDrain (n : Nat)
  -- kettle instructions (R112 to R124, R129)
  | knop
  | kld (f : KForm) (pi : Bool) (d : BitVec 5) (a : BitVec 3) (imm : BitVec 32)
  | kst (f : KForm) (pi : Bool) (a : BitVec 3) (b : BitVec 5) (imm : BitVec 32)
  | kldAbSum (pi : Bool) (d : BitVec 5) (a : BitVec 3) (imm : BitVec 32)
  | kldAbMax (pi : Bool) (d : BitVec 5) (a : BitVec 3) (imm : BitVec 32)
  | kstAb (pi : Bool) (a : BitVec 3) (b : BitVec 5) (imm : BitVec 32)
  | kettleBankWave (q : Nat)
  | kag (d : BitVec 3) (f : KagF)
  | katom
  | kflag (pkg : Bool) (a b : BitVec 3) (imm : BitVec 32)
  | kadd (d a : BitVec 5) (b : KSrc)
  | ksub (d a : BitVec 5) (b : KSrc)
  | kmul (d a : BitVec 5) (b : KSrc)
  | kfma (d a : BitVec 5) (b : KSrc) (c : BitVec 5)
  | kmin (d a : BitVec 5) (b : KSrc)
  | kmax (d a : BitVec 5) (b : KSrc)
  | kabs (d a : BitVec 5)
  | kcmp (c : FCond) (d a : BitVec 5) (b : KSrc)
  | ksel (d a b c : BitVec 5)
  | kcvt (d : BitVec 5) (f : KcvtF)
  | kqnt (d a : BitVec 5) (b : BitVec 3)
  | kiadd (f : KiaddF) (d a b : BitVec 5)
  | kclip (d a : BitVec 5)
  | knf (d a : BitVec 5)
  | kred (o : TreeOp) (a : BitVec 5)
  | krcv (o : TreeOp) (d : BitVec 5)
  | kloop (c : KCount)
  | kend
  | khalt
  -- kettle events (R95 to R106, R130, R132)
  | kettleGateRead (n : Nat)
  | kettleSlicePass (n : Nat)
  | kettleDeliver (n : Nat)
  | kettleCommandStart (q : Nat)
  | kettleCommandComplete (n : Nat)
  | kettleTreeResult (session : Nat)
  | atomicArrive (q : Nat)
  -- pot events (R175 to R191, R498)
  | pourArrive (d : Nat) (far : Option FarPour)
  | pourAccept (d : Nat)
  | pourSourceDrop (d : Nat)
  | potDeadline (d : Nat) (desc : Nat)
  | potOutcomeWrite (d : Nat) (desc : Nat)
  | fabricCombine (d : Nat) (i j : Nat)
  | stepGateWrite (d g : Nat) (v : W64)
  -- copy and fabric events (R160, R334, R468 to R471)
  | copyChunkDone (n k : Nat)
  | copyComplete (n k : Nat)
  | fabricNack (k : Nat) (w0 w1 : W64)
  | fabricIngressWrite (port : Nat) (va : W64) (exp : Bool) (rel : Bool) (data : List Byte)
  | fabricRingProbe (port : Nat) (exp : Nat) (off len : Nat)
  | fabricRingFree (port : Nat) (exp : Nat) (off : Nat) (cidx slot : Nat)
  | fabricLinkChange (port : Nat) (up : Bool)
  | nodeRouteInvalid (node : Nat)
  -- waits that end (R91, R92, R153 to R156, R222 to R230, R320, R335 to R340, R436)
  | rputSlotFree (n : Nat)
  | rwaitArrive (n : Nat)
  | timelineComplete (n c : Nat)
  | tlwaitPass (n : Nat)
  | nmfenceDone (n : Nat)
  | pwaitDone (n : Nat)
  | cpywTimeout (n : Nat)
  | cpywDone (n : Nat)
  | wfeWake (n : Nat)
  | joinDone (n : Nat)
  | retqArrive (n : Nat)
  | queuePushGrant (n : Nat)
  | tokenTake (n : Nat) (e : Eid)
  | tokenGive (n : Nat) (e : Eid)
  | guardResolve (n : Nat) (e : Eid)
  | engineEntryStart (n : Nat) (e : Eid)
  -- dispatch events (R225 to R256, R421 to R433)
  | launchQueueAdmit (d : Nat)
  | dependenceRead (d l : Nat)
  | epochStart (d l : Nat)
  | dispatchDecision (n : Nat)
  | continuationReady (d : Nat) (rec : Nat)
  | launchComplete (d l : Nat)
  | launchCancel (d l : Nat)
  | mailboxEntryWrite (d i : Nat) (v : W64)
  | mailboxFire (d i cls : Nat)
  | bindRecordWrite (d a i : Nat) (v : W64)
  -- access, translation and fault-queue events (R44 to R68)
  | accessEntryWrite (d t e : Nat) (v : W64)
  | accessFault (master : Nat) (k : AKind) (x : Reached)
  | tlbicmd (d : Nat) (v : W64)
  | tlbInvalDone (d : Nat)
  | translationWalk (d : Nat) (k : AKind) (va : W64)
  | faultRecordWrite (d : Nat)
  | faultReplay (d : Nat) (token : Nat)
  | faultAbort (d : Nat) (token : Nat)
  -- L1, quads, carves, parking (R72 to R84)
  | qfuseWrite (d : Nat) (v : W64)
  | quadSwitchDrain (d q : Nat)
  | quadSwitchEnd (d q : Nat)
  | carveDrainEnd (n : Nat)
  | cacheWriteback (n : Nat) (line : Nat)
  -- traps, interrupts, pre-emption, integrity (R439 to R457)
  | trapEntry (n : Nat)
  | engineFault (n : Nat) (e : Eid) (cause : BitVec 8) (i0 i1 : W64)
  | timerInterrupt (n : Nat)
  | mint (d : Nat) (v : W64)
  | latchLanding (n : Nat)
  | preemptLaunch (d : Nat) (v : W64)
  | preemptDeadline
  | preemptComplete
  | resumeLaunch (d : Nat)
  | integrityEvent (d src n : Nat) (info : W64)
  -- hosts, root firmware, power, reset, management cores (R458 to R495, R166, R167, R25, R410)
  | hostRead (port : Nat) (x : HostTarget) (off len : Nat)
  | hostWrite (port : Nat) (x : HostTarget) (off : Nat) (data : List Byte)
  | hostAtomic (port : Nat) (x : HostTarget) (off : Nat) (wide : Bool) (op : XAtom)
  | hostOwnStore (port : Nat) (addr : Nat) (data : List Byte)
  | hostLinkTraining (port : Nat) (up cxl : Bool) (speed width : BitVec 4)
  | hintr (port : Nat) (v : W64)
  | rootReport
  | rootCertChain
  | rootExtend
  | bootgo (src : Nat) (w : RegWrite)
  | kettleAbort (q : Nat)
  | thermalWarn (d : Nat) (temp : BitVec 16)
  | thermalShutdown (d : Nat) (temp : BitVec 16)
  | partReset
  | registerWrite (d off : Nat) (v : W64)
  | managementCoreAccess (core : Nat) (op : McOp) (pa size : Nat)
  | fabricAck (n : Nat)
  | hostCompletion (port : Nat)
  | cellDrift (n tile : Nat)
deriving DecidableEq, Repr

end Sys2Proof
end

