-- ==== Sys2Proof/WellFormed.lean ====
section
/-! DEFINITION. Which instructions the encoding admits on which unit (R261 to R273 and each entry's own
limits). Register fields are bit vectors of the file's width where a file fills its field; the checks below
are those that the types do not make. -/

namespace Sys2Proof

/-- The unit that issues an instruction: the control core or an engine. -/
inductive UnitId where
  | cc
  | eng (e : Eid)
deriving DecidableEq, Repr

/-- Engine codes of Table 8-3 and R271. -/
def Eid.code : Eid → Nat
  | .vl => 1 | .va => 2 | .vs => 3 | .mx => 4 | .ax => 5

/-- Bytes of an instruction of this length (Table 9-1). -/
def Len.bytes : Len → Nat
  | .w1 => 4 | .w2 => 8 | .w3 => 12

/-- A token selector names no engine or another engine (R271). -/
def tokOk (e : Eid) (t : BitVec 3) : Bool := decide (t.toNat ≤ 5) && (t.toNat == 0 || t.toNat != e.code)

/-- The head fits the unit: the control's form is the unit's (Table 9-3), token selectors are legal, and the
32-bit form carries only defaults (R262). -/
def headOk : UnitId → Head → Bool
  | .cc, ⟨l, .cc n p⟩ => l != .w1 || (!n && p == 0)
  | .eng .va, ⟨l, .va fz g s gi ta⟩ =>
    tokOk .va gi && tokOk .va ta && (l != .w1 || (!fz && g == 0 && !s && gi == 0 && ta == 0))
  | .eng e, ⟨l, .en gi ta⟩ => e != .va && tokOk e gi && tokOk e ta && (l != .w1 || (gi == 0 && ta == 0))
  | _, _ => false

/-- The head of a push: a predicate, or a guard slot (R270). -/
def pushHeadOk : UnitId → Head → Bool
  | .cc, ⟨l, .slot _ _⟩ => l != .w1
  | u, h => headOk u h

/-- A field of word 1 that is not zero needs a form with word 1 (R262). -/
def fit (h : Head) (zero : Bool) : Bool := h.len != .w1 || zero

/-- Tag 10 or 11 (R265). -/
def Src.wide : Src → Bool
  | .r _ | .x _ => false
  | .cb _ | .i8 _ | .lit _ => true

/-- The source stands in the instruction's form: an IMM8 literal in the 64-bit form, LIT in the 96-bit form,
and any tag but 00 needs word 1 (R262, R265). -/
def Src.formOk (h : Head) : Src → Bool
  | .r _ => true
  | .x n => h.len != .w1 && decide (n.toNat ≤ 21)
  | .cb _ => h.len != .w1
  | .i8 _ => h.len == .w2
  | .lit _ => h.len == .w3

/-- At most one source of an instruction uses tag 10 or 11 (R265). -/
def oneWide (l : List Src) : Bool := decide ((l.filter Src.wide).length ≤ 1)

/-- An s register or a literal (R288). -/
def Src.sl (h : Head) (s : Src) : Bool :=
  s.formOk h && (match s with | .r _ | .i8 _ | .lit _ => true | _ => false)

/-- Any VA source: v, x, cb or literal (Table 9-4). -/
def Src.any (h : Head) (s : Src) : Bool := s.formOk h

/-- A VA scalar source: x, cb or literal. -/
def Src.sc (h : Head) (s : Src) : Bool :=
  s.formOk h && (match s with | .r _ => false | _ => true)

/-- Field limits of the x file (Table 9-5). -/
def xOk (n : BitVec 6) : Bool := decide (n.toNat ≤ 21)

/-- An x operand of row 0x8_, under tag 01 on VA and 00 elsewhere (R352). -/
def Src.x8 (u : UnitId) (h : Head) (s : Src) : Bool :=
  s.formOk h && (match u, s with
    | .eng .va, .x _ => true
    | .eng .va, _ => false
    | _, .r n => xOk n
    | _, _ => false)

/-- An x operand, a literal (R352). -/
def Src.x8l (u : UnitId) (h : Head) (s : Src) : Bool :=
  s.x8 u h || (s.formOk h && (match s with | .i8 _ | .lit _ => true | _ => false))

/-- An x operand, a constant-bank entry or a literal (R352, R400). -/
def Src.x8cl (u : UnitId) (h : Head) (s : Src) : Bool := s.x8 u h || (s.formOk h && s.wide)

/-- An x operand or a constant-bank entry (R400). -/
def Src.x8c (u : UnitId) (h : Head) (s : Src) : Bool :=
  s.x8 u h || (s.formOk h && (match s with | .cb _ => true | _ => false))

/-- A base register of LD, ST and their kin: an s register on the CC, an x register on VL and VS (R323). -/
def memReg : UnitId → BitVec 6 → Bool
  | .cc, _ => true
  | .eng .vl, n => xOk n
  | .eng .vs, n => xOk n
  | _, _ => false

/-- An offset of a memory operand (R323). -/
def Src.off (u : UnitId) (h : Head) (s : Src) : Bool :=
  s.formOk h && (match s with | .r n => memReg u n | .i8 _ | .lit _ => true | _ => false)

/-- The memory-control value is one its opcode accepts (Table 11-2). -/
def MCtl.okFor (ords : List Nat) (wide : Bool) (m : MCtl) : Bool :=
  ords.contains m.ord.toNat && (wide || !m.wide)

/-- A scope that FN 3 or 4 selects stands as a Bool; FN holds the rest (Table 11-2). Copy and pot forms need
no further check. -/
def onCC (u : UnitId) (h : Head) : Bool := headOk u h && u == .cc

def onE (e : Eid) (u : UnitId) (h : Head) : Bool := headOk u h && u == .eng e

/-- An engine instruction of row 0x8_. -/
def onAny (u : UnitId) (h : Head) : Bool := headOk u h && u != .cc

/-- A gate of the training-format instructions: m0 or a stage predicate (R384 to R386). -/
def spGate (h : Head) : Bool :=
  match h.ctl with | .va _ g _ _ _ => g == 0 || decide (8 ≤ g.toNat) | _ => false

/-- No gate (R382). -/
def noGate (h : Head) : Bool := match h.ctl with | .va _ g _ _ _ => g == 0 | _ => false

/-- GATE, S and FZ zero (R370). -/
def plainVa (h : Head) : Bool := match h.ctl with | .va fz g s _ _ => !fz && g == 0 && !s | _ => false

/-- The first of a register pair vD, vD + 1 (Table 12-6). -/
def pairOk (d : BitVec 6) : Bool := d != 31 && d != 63

/-- MCTL of `fence`: relaxed order (Table 11-2) holds no more than its scope. -/
def memUnit (u : UnitId) : Bool :=
  match u with | .cc | .eng .vl | .eng .vs => true | _ => false

/-- Offset of an EBR: IMM8 sign-extended in the 64-bit form, LIT in the 96-bit form, never 0 (R354). -/
def ebrOff (h : Head) (off : BitVec 32) : Bool :=
  off != 0 && (h.len == .w3 || (h.len == .w2 && (off.truncate 8).signExtend 32 == off))

/-- The instruction is one that the encoding admits on this unit (R261 to R273). Kettle instructions and
events are not instructions of these units. -/
def WellFormed (u : UnitId) : Instr → Bool
  | .add h _ _ a b | .sub h _ _ a b | .mul h _ _ a b | .div h _ _ a b | .divu h _ _ a b | .rem h _ _ a b
  | .remu h _ _ a b | .shl h _ _ a b | .shr h _ _ a b | .sha h _ _ a b | .bfx h _ _ a b
  | .lea h _ _ a b => onCC u h && a.sl h && b.sl h && oneWide [a, b]
  | .mulh h _ a b | .mulhu h _ a b | .and h _ a b | .or h _ a b | .xor h _ a b | .andn h _ a b
  | .rol h _ a b | .min h _ a b | .minu h _ a b | .max h _ a b | .maxu h _ a b
  | .bfi h _ a b => onCC u h && a.sl h && b.sl h && oneWide [a, b]
  | .clz h _ a | .ctz h _ a | .popc h _ a | .li h _ a | .lih h _ a => onCC u h && a.sl h
  | .leaPc h _ b => onCC u h && b.sl h
  | .sel h _ a b p => onCC u h && a.sl h && b.sl h && oneWide [a, b] && fit h (p == 0)
  | .cmp h _ _ a b => onCC u h && a.sl h && b.sl h && oneWide [a, b]
  | .plog h _ _ _ _ => onCC u h
  | .pmovToPred h _ a => onCC u h && a.sl h
  | .pmovToScalar h _ _ => onCC u h
  | .pmovAll h _ => onCC u h
  | .pmovSet h a => onCC u h && a.sl h
  | .fadd h _ _ a b | .fsub h _ _ a b | .fmul h _ _ a b
  | .fdiv h _ _ a b => onCC u h && a.sl h && b.sl h && oneWide [a, b]
  | .ffma h _ _ a b c =>
    onCC u h && a.sl h && b.sl h && c.sl h && oneWide [a, b, c]
      && fit h (match c with | .r n => n == 0 | _ => false)
  | .fsqrt h _ _ a => onCC u h && a.sl h
  | .fcmp h _ _ _ a b | .fminmax h _ _ _ a b => onCC u h && a.sl h && b.sl h && oneWide [a, b]
  | .fcvt h _ _ _ a => onCC u h && a.sl h
  | .br h _ => onCC u h
  | .jmp h _ => onCC u h && h.len == .w3
  | .jmpr h a b => onCC u h && a.sl h && b.sl h && oneWide [a, b]
  | .call h _ a => onCC u h && a.sl h
  | .ret h _ => onCC u h
  | .loop h _ a _ => onCC u h && a.sl h
  | .gset h _ (.val a) => onCC u h && a.sl h
  | .gset h _ (.pred _) => onCC u h
  | .gclr h _ => onCC u h
  | .fork h a | .join h a => onCC u h && a.sl h
  | .pushc h _ n k b =>
    u == .cc && pushHeadOk u h && decide (n.toNat ≤ 4) && decide (k.toNat + n.toNat ≤ 64) && (n != 0 || k == 0)
      && b.sl h
  | .pushk h _ n k =>
    u == .cc && pushHeadOk u h && decide (n.toNat ≤ 4) && decide (k.toNat + n.toNat ≤ 64) && (n != 0 || k == 0)
  | .retq h _ => onCC u h
  | .launch h _ a => onCC u h && a.sl h
  | .next h | .rft h | .wfe h | .halt h | .nop h => onCC u h
  | .coord h f _ a => onCC u h && a.sl h && (decide (f.toNat < 4) || a == .r 0)
  | .suspend h _ b c =>
    onCC u h && b.sl h && c != 0 && decide (c.toNat ≤ 60) && h.len != .w1
  | .yield h _ b c => onCC u h && b.sl h && fit h (c == 0)
  | .sysr h _ _ => onCC u h
  | .sysw h n a => onCC u h && a.sl h && n != 0x0C0
  | .pcarve h a => onCC u h && a.sl h
  | .trap h a | .brk h a => onCC u h && a.sl h
  | .sev h s => onCC u h && (s == .ac || s == .quad || s == .die)
  | .ld h w d a b => memUnit u && headOk u h && decide (w.toNat < 7) && memReg u d && memReg u a && b.off u h
  | .st h _ a b c => memUnit u && headOk u h && memReg u a && memReg u c && b.off u h && fit h (c == 0)
  | .lds h w m d a b =>
    memUnit u && headOk u h && decide (w.toNat < 7) && memReg u d && memReg u a && b.off u h
      && m.okFor [0, 1] false && fit h (m.ord == 0 && m.scope == .ac)
  | .sts h _ m a b c =>
    memUnit u && headOk u h && memReg u a && memReg u c && b.off u h && m.okFor [0, 2] false && fit h (c == 0)
  | .amo h _ m d a b =>
    memUnit u && headOk u h && memReg u d && memReg u a && memReg u b && m.okFor [0, 1, 2] true
      && fit h (!m.wide && m.ord == 0 && m.scope == .ac)
  | .cas h m d a b =>
    memUnit u && headOk u h && memReg u d && memReg u a && memReg u b && m.okFor [0, 1, 2] true
      && fit h (!m.wide && m.ord == 0 && m.scope == .ac)
  | .phase h m => headOk u h && m.okFor [1, 2, 3] false
  | .fence h _ => headOk u h
  | .clean h _ a b | .inval h _ a b | .pref h _ a b =>
    (u == .cc || u == .eng .vl) && headOk u h && memReg u a && b.off u h
  | .tlwait h _ _ b => onCC u h && b.sl h
  | .tlread h _ _ _ => onCC u h
  | .cpy h _ _ a => onCC u h && decide (a.toNat ≤ 60)
  | .cpyt h _ _ a => onCC u h && decide (a.toNat ≤ 58)
  | .cpyw h _ _ _ b c => onCC u h && b.sl h && c != 63 && fit h (c == 0)
  | .pour h _ _ _ _ c => onCC u h && c.sl h && fit h (match c with | .r n => n == 0 | _ => false)
  | .pwait h _ _ _ b | .pjoin h _ _ b | .pleave h _ _ b => onCC u h && b.sl h
  | .pclose h _ _ | .pcloseRetire h _ _ => onCC u h
  | .nmrun h _ _ _ c => onCC u h && c.sl h && fit h (match c with | .r n => n == 0 | _ => false)
  | .nmfence h _ => onCC u h
  | .rwait h d _ => onCC u h && d != 63
  | .rfree h _ => onCC u h
  | .mxcfg h n a => onCC u h && a.sl h && (decide (n.toNat ≤ 12) || (decide (16 ≤ n.toNat) && decide (n.toNat ≤ 33)))
  | .mxgo h _ a | .mxmode h _ a | .mxzero h _ a => onCC u h && a.sl h
  | .mxfmt h a => onCC u h && a.sl h
  | .mxdrain h _ _ _ a => onCC u h && a.sl h
  | .mxsave h _ | .mxrest h _ => onCC u h
  | .mxstat h _ _ => onCC u h
  | .etake h | .eend h | .enop h => onAny u h
  | .ebr h c a b off =>
    onAny u h && ebrOff h off &&
      (match c with
       | .last0 | .last1 | .al => a == .r 0 && b == .r 0
       | _ => a.x8 u h && b.x8 u h)
  | .eloop h _ a _ => onAny u h && a.x8l u h
  | .eloopAdd h d a b => onAny u h && xOk d && a.x8 u h && b.x8cl u h
  | .etok h _ =>
    onAny u h && (match h.ctl with | .va _ _ _ gi ta => gi != 0 || ta != 0 | .en gi ta => gi != 0 || ta != 0 | _ => false)
  | .gput h _ a => onAny u h && a.x8cl u h
  | .eret h a => onAny u h && a.x8cl u h
  | .vld h _ _ a b => onE .vl u h && xOk a && b.off u h
  | .vldg h _ _ a b c => onE .vl u h && xOk a && xOk c && b.off u h && fit h (c == 0)
  | .vldb h _ _ a b c _ => onE .vl u h && xOk a && xOk b && xOk c && h.len == .w3
  | .vldm h a b c =>
    onE .vl u h && xOk a && xOk b && c.off u h && fit h (match c with | .r n => n == 0 | _ => false)
  | .vst h _ _ a b => onE .vs u h && xOk a && b.off u h
  | .vsts h _ _ a b c => onE .vs u h && xOk a && xOk c && b.off u h && fit h (c == 0)
  | .vsta h op _ _ a b c lanes =>
    onE .vs u h && xOk a && xOk b && xOk c && fit h (c == 0 && op == .fadd) && (h.len == .w3 || lanes == 0xFFFF)
  | .rput h a b c => onE .vs u h && xOk a && xOk b && xOk c && c != 15 && c != 21 && fit h (c == 0)
  | .vadd h _ _ a b | .vsub h _ _ a b | .vmul h _ _ a b => onE .va u h && a.any h && b.any h && oneWide [a, b]
  | .vfma h _ _ a b c | .vfms h _ _ a b c =>
    onE .va u h && a.any h && b.any h && c.any h && oneWide [a, b, c]
      && fit h (match c with | .r n => n == 0 | _ => false)
  | .vmin h _ _ a b | .vmax h _ _ a b => onE .va u h && a.any h && b.any h && oneWide [a, b]
  | .vabs h _ _ a | .vneg h _ _ a => onE .va u h && a.any h
  | .vcmp h _ _ _ a b => onE .va u h && a.any h && b.any h && oneWide [a, b]
  | .vsel h _ _ a b m => onE .va u h && a.any h && b.any h && oneWide [a, b] && fit h (m == 0)
  | .vcvt h _ _ _ _ _ _ _ => onE .va u h && h.len == .w3
  | .vsfu h _ _ _ a => onE .va u h && a.any h
  | .vred h f op dir d _ b =>
    onE .va u h && fit h (op == .sum && dir == .row) && (op == .maxsum || b == 0) && (op != .maxsum || pairOk d)
      && (f.mode == .rne || op == .sum || op == .maxsum)
  | .vscan h f op dir _ _ => onE .va u h && fit h (op == .sum && dir == .row) && op != .maxsum && (f.mode == .rne || op == .sum)
  | .vsort h _ desc all d _ _ => onE .va u h && fit h (!desc && !all) && pairOk d
  | .vsegr h _ op all d _ _ => onE .va u h && fit h (op == .sumf && !all) && pairOk d
  | .vperm h all _ _ _ => onE .va u h && fit h (!all)
  | .vbcast h _ _ _ _ b => onE .va u h && b.sc h
  | .vmov h _ _ => onE .va u h
  | .vmovX h d _ b => onE .va u h && xOk d && b.sc h
  | .viota h _ a b => onE .va u h && a.any h && b.any h && oneWide [a, b]
  | .viadd h _ _ _ a b | .visub h _ _ _ a b => onE .va u h && a.any h && b.any h && oneWide [a, b]
  | .vimul h _ _ a b | .vilog h _ _ a b => onE .va u h && a.any h && b.any h && oneWide [a, b]
  | .vish h _ _ _ a b => onE .va u h && a.any h && b.any h && oneWide [a, b]
  | .vimm h _ _ a => onE .va u h && a.sc h
  | .vmask h f =>
    onE .va u h && noGate h && (match f with | .first _ a => a.sc h | _ => true)
  | .vshape h a | .vrot h a => onE .va u h && a.sc h
  | .vloopp h _ a blen =>
    onE .va u h && plainVa h && blen != 0 && a.sc h && (match a with | .cb _ => false | _ => true)
  | .vpcode h _ _ b => onE .va u h && b.sc h
  | .vbexp h _ _ _ => onE .va u h && spGate h
  | .vqnt h _ _ _ => onE .va u h && spGate h
  | .vdqnt h _ _ _ _ => onE .va u h && spGate h
  | .afwd h _ _ d a b c | .abwd h _ _ d a b c =>
    onE .ax u h && xOk d && a.x8c u h && xOk b && xOk c && fit h (c == 0)
  | .aupd h d a b c => onE .ax u h && xOk d && a.x8c u h && xOk b && xOk c && fit h (c == 0)
  | .axfer h d a => onE .ax u h && xOk d && a.x8c u h
  | .ackr h _ _ a b => onE .ax u h && a.x8c u h && xOk b
  | .aprog h k d a b c =>
    onE .ax u h && xOk d && a.x8c u h && xOk b && xOk c && fit h (c == 0) && (k != .fsym || b == 0)
  | .acal h a b => onE .ax u h && a.x8c u h && b.x8cl u h && oneWide [a, b]
  | .asprLd h a b | .asprSt h a b | .aref h a b => onE .ax u h && a.x8c u h && xOk b
  | .aset h reg a b => onE .ax u h && decide (reg.toNat ≤ 5) && a.x8c u h && b.x8cl u h && oneWide [a, b]
  | .amode h _ a => onE .ax u h && a.x8c u h
  | .astat h reg d a => onE .ax u h && decide (reg.toNat ≤ 10) && xOk d && a.x8c u h
  | _ => false

/-- A kettle register field names k0 to k23 (R109). -/
def kOk (n : BitVec 5) : Bool := decide (n.toNat < 24)

def KSrc.ok : KSrc → Bool
  | .k n => kOk n
  | .imm _ => true

/-- The kettle instruction passes the load check's field conditions (R110); the pairing of loops is a check on
the whole program. -/
def KWellFormed : Instr → Bool
  | .knop | .katom | .kend | .khalt => true
  | .kld _ _ d _ _ => kOk d
  | .kst _ _ _ b _ => kOk b
  | .kldAbSum _ d _ _ | .kldAbMax _ d _ _ => kOk d
  | .kstAb _ _ b _ => kOk b
  | .kag _ _ => true
  | .kflag _ _ _ _ => true
  | .kadd d a b | .ksub d a b | .kmul d a b | .kmin d a b | .kmax d a b => kOk d && kOk a && b.ok
  | .kfma d a b c => kOk d && kOk a && b.ok && kOk c
  | .kabs d a | .kclip d a | .knf d a => kOk d && kOk a
  | .kcmp _ d a b => kOk d && kOk a && b.ok
  | .ksel d a b c => kOk d && kOk a && kOk b && kOk c
  | .kcvt d f =>
    kOk d && (match f with | .f32s32 a | .s32f32 a | .s64lo a _ | .s64hi a _ => kOk a | _ => true)
  | .kqnt d a _ => kOk d && kOk a
  | .kiadd _ d a b => kOk d && kOk a && kOk b
  | .kred o a => kOk a && (o != .maxsum || a != 23)
  | .krcv o d => kOk d && (o != .maxsum || d != 23)
  | .kloop _ => true
  | _ => false

end Sys2Proof
end

