-- ==== Sys2Proof/Decode.lean ====
section
/-! DEFINITION. Instruction words: the fields of a word (Table 9-2), the checks of Table 9-10 in their order
(R273), the decoder of every unit and of the kettles, and the encoder. -/

namespace Sys2Proof

/-- The fields of an instruction (Table 9-2). -/
structure Fields where
  len : Len
  op : BitVec 8
  dst : BitVec 6
  a : BitVec 6
  b : BitVec 6
  fn : BitVec 4
  imm8 : BitVec 8
  c : BitVec 6
  ka : BitVec 2
  kb : BitVec 2
  kc : BitVec 2
  xctl : BitVec 12
  lit : BitVec 32
deriving DecidableEq, Repr

/-- Code of a length in bits 1:0 (Table 9-1). -/
def Len.code : Len → BitVec 2
  | .w1 => 0 | .w2 => 1 | .w3 => 2

/-- Length from bits 1:0 of a granule; 11 is reserved. -/
def Len.ofCode (c : BitVec 2) : Option Len :=
  if c = 0 then some .w1 else if c = 1 then some .w2 else if c = 2 then some .w3 else none

/-- Word 0 (Table 9-2). -/
def Fields.w0 (f : Fields) : W32 := f.fn ++ f.b ++ f.a ++ f.dst ++ f.op ++ f.len.code

/-- Word 1 (Table 9-2). -/
def Fields.w1 (f : Fields) : W32 := f.xctl ++ f.kc ++ f.kb ++ f.ka ++ f.c ++ f.imm8

/-- The granules of an instruction, first to last (R261). -/
def Fields.pack (f : Fields) : List W32 :=
  match f.len with
  | .w1 => [f.w0]
  | .w2 => [f.w0, f.w1]
  | .w3 => [f.w0, f.w1, f.lit]

/-- The fields of three granules, of which a shorter form reads the missing ones as zero (R262). -/
def Fields.ofWords (len : Len) (w0 w1 w2 : W32) : Fields :=
  { len := len
    op := w0.extractLsb' 2 8
    dst := w0.extractLsb' 10 6
    a := w0.extractLsb' 16 6
    b := w0.extractLsb' 22 6
    fn := w0.extractLsb' 28 4
    imm8 := w1.extractLsb' 0 8
    c := w1.extractLsb' 8 6
    ka := w1.extractLsb' 14 2
    kb := w1.extractLsb' 16 2
    kc := w1.extractLsb' 18 2
    xctl := w1.extractLsb' 20 12
    lit := w2 }

/-- Why a list of granules gives no instruction: an illegal-instruction code of Table 9-10 with the length in
granules that the fault reports, or too few granules. -/
inductive DecodeError where
  | illegal (code : Nat) (len : Nat)
  | short
deriving DecidableEq, Repr

/-- The fields of the first instruction of a list of granules, and the granules after it. -/
def Fields.unpack (ws : List W32) : Except DecodeError (Fields × List W32) :=
  match ws with
  | [] => .error .short
  | w0 :: r =>
    match Len.ofCode (w0.extractLsb' 0 2) with
    | none => .error (.illegal 1 1)
    | some .w1 => .ok (Fields.ofWords .w1 w0 0 0, r)
    | some .w2 =>
      match r with
      | w1 :: r => .ok (Fields.ofWords .w2 w0 w1 0, r)
      | [] => .error .short
    | some .w3 =>
      match r with
      | w1 :: w2 :: r => .ok (Fields.ofWords .w3 w0 w1 w2, r)
      | _ => .error .short

/-- The units an opcode is legal on (Tables 9-8 and 9-9); `none` when it is reserved. -/
def opUnits (op : BitVec 8) : Option (List UnitId) :=
  let n := op.toNat
  let all : List UnitId := [.cc, .eng .vl, .eng .va, .eng .vs, .eng .mx, .eng .ax]
  if n = 0 then none
  else if n ≤ 0x29 then some [.cc]
  else if n < 0x30 then none
  else if n ≤ 0x3C then some [.cc]
  else if n < 0x40 then none
  else if n ≤ 0x4D then some [.cc]
  else if n < 0x50 then none
  else if n ≤ 0x55 then some [.cc, .eng .vl, .eng .vs]
  else if n ≤ 0x57 then some all
  else if n ≤ 0x5A then some [.cc, .eng .vl]
  else if n ≤ 0x5C then some [.cc]
  else if n < 0x60 then none
  else if n ≤ 0x6B then some [.cc]
  else if n < 0x70 then none
  else if n ≤ 0x78 then some [.cc]
  else if n < 0x80 then none
  else if n ≤ 0x87 then some (all.drop 1)
  else if n < 0x90 then none
  else if n ≤ 0x93 then some [.eng .vl]
  else if n ≤ 0x97 then some [.eng .vs]
  else if n < 0xA0 then none
  else if n ≤ 0xAC then some [.eng .va]
  else if n < 0xB0 then none
  else if n ≤ 0xB7 then some [.eng .va]
  else if n < 0xC0 then none
  else if n ≤ 0xCD then some [.eng .va]
  else if n < 0xD0 then none
  else if n ≤ 0xDB then some [.eng .ax]
  else none

/-- What an entry does with a source field (R265): nothing; bits that are no operand at all; a control or a
number under tag 00; a register under tag 00 up to a field value; a source under the tags it accepts, with
the greatest field value under tag 00 (none where tag 00 is illegal). -/
inductive Slot where
  | un
  | raw
  | ctl
  | reg (max : Nat)
  | src (t0 : Option Nat) (t1 t2 t3 : Bool)
deriving DecidableEq, Repr

/-- How an entry uses its fields. -/
structure Shape where
  dst : Option Nat
  a : Slot := .un
  b : Slot := .un
  c : Slot := .un
  imm : Bool := false
  lit : Bool := false
  fns : List Nat := [0]
deriving DecidableEq, Repr

/-- An s register or a literal (R288). -/
def Slot.sl : Slot := .src (some 63) false false true
/-- Any VA source (Table 9-4). -/
def Slot.any : Slot := .src (some 63) true true true
/-- A VA scalar source. -/
def Slot.sc : Slot := .src none true true true
/-- An x operand of this unit, with the further tags allowed (R352). -/
def Slot.x (u : UnitId) (cb lit : Bool) : Slot :=
  if u = .eng .va then .src none true cb lit else .src (some 21) false cb lit
/-- A register of the unit's scalar file under tag 00 (R323). -/
def Slot.mem (u : UnitId) : Slot := .reg (if u = .cc then 63 else 21)
/-- An offset: a register or a literal (R323). -/
def Slot.off (u : UnitId) : Slot := .src (some (if u = .cc then 63 else 21)) false false true

/-- FN values of a rounding instruction with a precision (R269). -/
def fnModes : List Nat := [0, 1, 2, 3, 4, 8, 9, 10, 11, 12]
def fnAll : List Nat := List.range 16

/-- The use of the fields by an opcode on a unit, given FN (and IMM8 bits 1:0 for VRED). For an FN that is not
listed, the fields are held to the form that uses the most of them. -/
def shape (u : UnitId) (op : BitVec 8) (fn : Nat) (imm : Nat) : Shape :=
  let sl := Slot.sl
  let memMax := if u = .cc then 63 else 21
  match op.toNat with
  | 0x01 | 0x02 | 0x03 | 0x06 | 0x07 | 0x08 | 0x09 | 0x0E | 0x0F | 0x10 | 0x19 =>
    { dst := some 63, a := sl, b := sl, fns := [0, 1] }
  | 0x04 | 0x05 | 0x0A | 0x0B | 0x0C | 0x0D | 0x11 | 0x12 | 0x13 | 0x14 | 0x15 | 0x1A =>
    { dst := some 63, a := sl, b := sl }
  | 0x16 | 0x17 | 0x18 => { dst := some 63, a := sl }
  | 0x1B => { dst := some 63, a := sl, b := sl, c := .reg 15 }
  | 0x1C => { dst := some 63, a := sl, fns := [0, 1] }
  | 0x1D => { dst := some 63, a := if fn = 8 then .un else sl, b := sl, fns := [0, 1, 2, 3, 8] }
  | 0x1E => { dst := some 15, a := sl, b := sl, fns := List.range 12 }
  | 0x1F => { dst := some 15, a := .reg 15, b := .reg 15, fns := List.range 8 }
  | 0x20 =>
    match fn with
    | 0 => { dst := some 15, a := sl, fns := [0, 1, 2, 3] }
    | 1 => { dst := some 63, a := .reg 15, fns := [0, 1, 2, 3] }
    | 2 => { dst := some 63, fns := [0, 1, 2, 3] }
    | 3 => { dst := none, a := sl, fns := [0, 1, 2, 3] }
    | _ => { dst := some 63, a := sl, fns := [0, 1, 2, 3] }
  | 0x21 | 0x22 | 0x23 | 0x25 => { dst := some 63, a := sl, b := sl, fns := fnModes }
  | 0x24 => { dst := some 63, a := sl, b := sl, c := sl, fns := fnModes }
  | 0x26 => { dst := some 63, a := sl, fns := fnModes }
  | 0x27 => { dst := some 15, a := sl, b := sl, fns := fnModes }
  | 0x28 => { dst := some 63, a := sl, b := .ctl, fns := List.range 5 }
  | 0x29 => { dst := some 63, a := sl, b := sl, fns := [0, 1, 8, 9] }
  | 0x30 => { dst := some 63, a := .raw, b := .raw, fns := fnAll }
  | 0x31 => { dst := none, lit := true, fns := fnAll }
  | 0x32 => { dst := none, a := sl, b := sl }
  | 0x33 => { dst := some 63, a := sl }
  | 0x34 => { dst := none, a := .reg 63 }
  | 0x35 => { dst := some 63, a := sl, b := .ctl, fns := [0, 1] }
  | 0x36 => { dst := some 31, a := if fn = 1 then .reg 15 else sl, fns := [0, 1] }
  | 0x37 => { dst := some 31 }
  | 0x38 | 0x39 => { dst := none, a := sl }
  | 0x3A => { dst := some 63, a := .reg 63, b := sl, fns := List.range 5 }
  | 0x3B => { dst := some 63, a := .reg 63, fns := List.range 5 }
  | 0x3C => { dst := some 63 }
  | 0x40 => { dst := some 63, a := sl }
  | 0x41 | 0x48 | 0x49 | 0x4C | 0x4D => { dst := none }
  | 0x42 => { dst := some 63, a := if 4 ≤ fn && decide (fn ≤ 7) then .un else sl, fns := List.range 8 }
  | 0x43 | 0x44 => { dst := none, a := .reg 63, b := sl, c := .reg 63 }
  | 0x45 => { dst := some 63, a := .ctl, b := .ctl }
  | 0x46 => { dst := some 63, a := sl, b := .ctl }
  | 0x47 | 0x4B => { dst := none, a := sl }
  | 0x4A => { dst := none, fns := [0, 1, 2] }
  | 0x50 => { dst := some memMax, a := .mem u, b := .off u, fns := List.range 7 }
  | 0x51 => { dst := none, a := .mem u, b := .off u, c := .mem u, fns := List.range 4 }
  | 0x52 => { dst := some memMax, a := .mem u, b := .off u, c := .ctl, fns := List.range 7 }
  | 0x53 => { dst := some 63, a := .mem u, b := .off u, c := .mem u, fns := List.range 4 }
  | 0x54 => { dst := some memMax, a := .mem u, b := .mem u, c := .ctl, fns := List.range 9 }
  | 0x55 => { dst := some memMax, a := .mem u, b := .mem u, c := .ctl }
  | 0x56 | 0x57 => { dst := some 63 }
  | 0x58 | 0x59 | 0x5A => { dst := none, a := .mem u, b := .off u, fns := [0, 1] }
  | 0x5B => { dst := none, a := .ctl, b := sl, fns := List.range 5 }
  | 0x5C => { dst := some 63, a := .ctl, fns := [0, 1] }
  | 0x60 | 0x61 => { dst := some 63, a := .reg 63, fns := [0, 1] }
  | 0x62 => { dst := some 63, a := .reg 63, b := sl, c := .reg 63, fns := [3, 4] }
  | 0x63 => { dst := some 63, a := .reg 63, b := .reg 63, c := sl, fns := [3, 4] }
  | 0x64 => { dst := some 63, a := .reg 63, b := sl, fns := [3, 4] }
  | 0x65 | 0x66 => { dst := some 63, a := .reg 63, b := sl }
  | 0x67 => { dst := some 63, a := .reg 63, fns := [0, 1] }
  | 0x68 => { dst := some 63, a := .reg 63, b := .reg 63, c := sl }
  | 0x69 => { dst := none, fns := List.range 5 }
  | 0x6A => { dst := some 63, a := .reg 63 }
  | 0x6B => { dst := none, a := .reg 63 }
  | 0x70 => { dst := some 63, a := sl }
  | 0x71 | 0x73 | 0x74 => { dst := some 63, a := sl }
  | 0x72 => { dst := none, a := sl }
  | 0x75 => { dst := some 63, a := sl, fns := [0, 1, 2, 3] }
  | 0x76 | 0x77 => { dst := none, a := .reg 63 }
  | 0x78 => { dst := some 63, fns := List.range 8 }
  | 0x80 | 0x83 | 0x84 => { dst := none }
  | 0x81 =>
    if 6 ≤ fn && decide (fn ≤ 8) then { dst := none, imm := true, lit := true, fns := List.range 9 }
    else { dst := none, a := .x u false false, b := .x u false false, imm := true, lit := true, fns := List.range 9 }
  | 0x82 =>
    if fn = 8 then { dst := some 21, a := .x u false false, b := .x u true true, fns := [0, 1, 8] }
    else { dst := some 63, a := .x u false true, b := .ctl, fns := [0, 1, 8] }
  | 0x85 => { dst := none, fns := fnAll }
  | 0x86 => { dst := some 31, a := .x u true true }
  | 0x87 => { dst := none, a := .x u true true }
  | 0x90 | 0x94 => { dst := some 63, a := .reg 21, b := .off u, fns := fnAll }
  | 0x91 | 0x95 => { dst := some 63, a := .reg 21, b := .off u, c := .reg 21, fns := fnAll }
  | 0x92 => { dst := some 63, a := .reg 21, b := .reg 21, c := .reg 21, lit := true, fns := fnModes }
  | 0x93 => { dst := none, a := .reg 21, b := .reg 21, c := .off u }
  | 0x96 => { dst := some 63, a := .reg 21, b := .reg 21, c := .reg 21, imm := true, lit := true, fns := fnAll }
  | 0x97 => { dst := none, a := .reg 21, b := .reg 21, c := .reg 21 }
  | 0xA0 | 0xA1 | 0xA2 => { dst := some 63, a := .any, b := .any, fns := fnModes }
  | 0xA3 | 0xA4 => { dst := some 63, a := .any, b := .any, c := .any, fns := fnModes }
  | 0xA5 | 0xA6 => { dst := some 63, a := .any, b := .any, fns := [0, 8] }
  | 0xA7 | 0xA8 => { dst := some 63, a := .any, fns := [0, 8] }
  | 0xA9 => { dst := some 7, a := .any, b := .any, fns := fnModes }
  | 0xAA => { dst := some 63, a := .any, b := .any, c := .reg 7, fns := [0, 8] }
  | 0xAB => { dst := some 63, a := .reg 63, lit := true, fns := List.range 5 }
  | 0xAC => { dst := some 63, a := .any, b := .ctl, fns := fnModes }
  | 0xB0 => { dst := some 63, a := .reg 63, b := if imm % 4 = 3 then .reg 63 else .un, imm := true, fns := fnModes }
  | 0xB1 => { dst := some 63, a := .reg 63, imm := true, fns := fnModes }
  | 0xB2 => { dst := some 63, a := .reg 63, b := .reg 63, imm := true, fns := [0, 1, 2] }
  | 0xB3 => { dst := some 63, a := .reg 63, b := .reg 63, imm := true, fns := List.range 5 }
  | 0xB4 => { dst := some 63, a := .reg 63, b := .reg 63, imm := true }
  | 0xB5 => { dst := some 63, a := .reg 63, b := .sc, fns := [0, 1, 2, 8, 9, 10] }
  | 0xB6 =>
    if fn = 0 then { dst := some 63, a := .reg 63, fns := [0, 1] }
    else { dst := some (if fn = 1 then 21 else 63), a := .reg 63, b := .sc, fns := [0, 1] }
  | 0xB7 => { dst := some 63, a := .any, b := .any }
  | 0xC0 | 0xC1 => { dst := some 63, a := .any, b := .any, fns := [0, 1, 2, 4, 5, 6] }
  | 0xC2 => { dst := some 63, a := .any, b := .any, fns := [0, 1, 2] }
  | 0xC3 => { dst := some 63, a := .any, b := .any, fns := [0, 1, 2, 3] }
  | 0xC4 => { dst := some 63, a := .any, b := .any, fns := [0, 1, 2, 4, 5, 6, 8, 9, 10] }
  | 0xC5 => { dst := some 63, a := .sc, fns := [0, 1, 8, 9] }
  | 0xC6 =>
    match fn with
    | 0 | 1 | 2 | 3 => { dst := some 7, a := .reg 7, b := .reg 7, fns := List.range 8 }
    | 4 => { dst := some 7, a := .reg 7, fns := List.range 8 }
    | 5 => { dst := some 7, a := .sc, fns := List.range 8 }
    | 6 => { dst := some 7, a := .reg 63, fns := List.range 8 }
    | 7 => { dst := some 63, a := .reg 7, fns := List.range 8 }
    | _ => { dst := some 63, a := .any, b := .reg 63, fns := List.range 8 }
  | 0xC7 | 0xC8 => { dst := none, a := .sc }
  | 0xC9 => { dst := some 63, a := .src none true false true, b := .ctl, fns := List.range 8 }
  | 0xCA => { dst := some 63, a := .reg 63, b := .sc }
  | 0xCB => { dst := some 63, a := .reg 63, fns := [0, 8] }
  | 0xCC => { dst := some 63, a := .reg 63, b := .reg 63 }
  | 0xCD => { dst := some 63, a := .reg 63, b := .reg 63, fns := List.range 5 }
  | 0xD0 | 0xD1 => { dst := some 21, a := .src (some 21) false true false, b := .reg 21, c := .reg 21, fns := [0, 1, 2, 3] }
  | 0xD2 => { dst := some 21, a := .src (some 21) false true false, b := .reg 21, c := .reg 21 }
  | 0xD3 => { dst := some 21, a := .src (some 21) false true false }
  | 0xD4 => { dst := none, a := .src (some 21) false true false, b := .reg 21, fns := List.range 8 }
  | 0xD5 =>
    { dst := some 21, a := .src (some 21) false true false, b := if fn = 2 then .un else .reg 21, c := .reg 21
      fns := [0, 1, 2] }
  | 0xD6 => { dst := none, a := .src (some 21) false true false, b := .src (some 21) false true true }
  | 0xD7 => { dst := none, a := .src (some 21) false true false, b := .reg 21, fns := [0, 1] }
  | 0xD8 => { dst := none, a := .src (some 21) false true false, b := .src (some 21) false true true, fns := List.range 6 }
  | 0xD9 => { dst := none, a := .src (some 21) false true false, fns := List.range 4 }
  | 0xDA => { dst := some 21, a := .src (some 21) false true false, fns := List.range 11 }
  | 0xDB => { dst := none, a := .src (some 21) false true false, b := .reg 21 }
  | _ => { dst := none }

/-- Code 4 for one source field: an unused field holds zero under tag 00 (R265). -/
def Slot.bad4 (s : Slot) (n : BitVec 6) (k : BitVec 2) : Bool :=
  match s with
  | .un => n != 0 || k != 0
  | .raw => k != 0
  | _ => false

/-- Code 5 for one source field: the register lies in its file (R267). -/
def Slot.bad5 (s : Slot) (n : BitVec 6) (k : BitVec 2) : Bool :=
  match s with
  | .reg m => k == 0 && decide (m < n.toNat)
  | .src t0 t1 _ _ =>
    (k == 0 && (match t0 with | some m => decide (m < n.toNat) | none => false))
      || (k == 1 && t1 && decide (21 < n.toNat))
  | _ => false

/-- Code 6 for one source field: the tag is legal, and tags 10 and 11 have a zero field (R265). -/
def Slot.bad6 (s : Slot) (n : BitVec 6) (k : BitVec 2) : Bool :=
  match s with
  | .reg _ | .ctl => k != 0
  | .src t0 t1 t2 t3 =>
    if k = 0 then t0.isNone
    else if k = 1 then !t1
    else if k = 2 then !t2 || n != 0
    else !t3 || n != 0
  | _ => false

/-- The slot is a source that its tag makes a literal. -/
def Slot.isLit (s : Slot) (k : BitVec 2) : Bool :=
  match s with
  | .src _ _ _ _ => k == 3
  | _ => false

/-- The slot is a source that its tag makes a constant-bank entry. -/
def Slot.isCb (s : Slot) (k : BitVec 2) : Bool :=
  match s with
  | .src _ _ _ _ => k == 2
  | _ => false

/-- Reserved bits of XCTL (Table 9-3). -/
def xctlReserved (u : UnitId) (x : BitVec 12) : Bool :=
  match u with
  | .cc => x.extractLsb' 7 5 != 0
  | .eng .va => false
  | .eng _ => x.extractLsb' 6 6 != 0

/-- PG, TAKE and GIVE (R270, R271). -/
def xctlBad5 (u : UnitId) (op : BitVec 8) (x : BitVec 12) : Bool :=
  match u with
  | .cc =>
    if x.getLsbD 5 then op != 0x3A && op != 0x3B
    else x.getLsbD 4
  | .eng e => !tokOk e (x.extractLsb' 0 3) || !tokOk e (x.extractLsb' 3 3)

/-- The memory-control field of an opcode is one that it accepts (Table 11-2). -/
def mctlOk (ords : List Nat) (wide : Bool) (m : BitVec 6) : Bool :=
  ords.contains (m.extractLsb' 3 2).toNat && decide ((m.extractLsb' 0 3).toNat ≤ 4) && (wide || !m.getLsbD 5)

/-- What an entry adds to code 4. -/
def entryBad4 (f : Fields) : Bool :=
  match f.op.toNat with
  | 0x31 => f.fn != 0
  | 0x3A | 0x3B => f.fn == 0 && f.a != 0
  | 0x81 => f.len == .w3 && f.imm8 != 0
  | 0xAB => f.lit.extractLsb' 19 13 != 0
  | 0xC6 => f.xctl.extractLsb' 7 4 != 0
  | 0xC9 => f.xctl.extractLsb' 6 6 != 0
  | _ => false

/-- What an entry adds to code 7. -/
def entryBad7 (f : Fields) : Bool :=
  match f.op.toNat with
  | 0xB0 | 0xB1 =>
    (f.imm8.extractLsb' 0 2 == 1 || f.imm8.extractLsb' 0 2 == 2) && f.fn.extractLsb' 0 3 != 0
  | _ => false

/-- The checks of code 8 that an entry adds. -/
def entryBad8 (f : Fields) : Bool :=
  let dir := (f.imm8.extractLsb' 2 2).toNat
  let opi := (f.imm8.extractLsb' 0 2).toNat
  let hi := f.imm8.extractLsb' 4 4 != 0
  match f.op.toNat with
  | 0x28 => decide (8 ≤ f.b.toNat)
  | 0x31 => f.len != .w3
  | 0x3A | 0x3B =>
    f.dst == 0 || decide (6 ≤ f.dst.toNat) || (f.fn != 0 && decide (64 < f.a.toNat + f.fn.toNat))
  | 0x43 => f.c == 0 || decide (60 < f.c.toNat)
  | 0x52 => !mctlOk [0, 1] false f.c
  | 0x53 => !mctlOk [0, 2] false f.dst
  | 0x54 | 0x55 => !mctlOk [0, 1, 2] true f.c
  | 0x56 => !mctlOk [1, 2, 3] false f.dst
  | 0x57 => !mctlOk [0] false f.dst
  | 0x5B | 0x5C => decide (8 ≤ f.a.toNat)
  | 0x60 => decide (60 < f.a.toNat)
  | 0x61 => decide (58 < f.a.toNat)
  | 0x62 => f.c == 63
  | 0x6A => f.dst == 63
  | 0x70 => !(decide (f.dst.toNat ≤ 12) || (decide (16 ≤ f.dst.toNat) && decide (f.dst.toNat ≤ 33)))
  | 0x81 => (match f.len with | .w1 => true | .w2 => f.imm8 == 0 | .w3 => f.lit == 0)
  | 0x85 => f.xctl.extractLsb' 0 3 == 0 && f.xctl.extractLsb' 3 3 == 0
  | 0x92 => f.len != .w3
  | 0x96 => opi == 3 || f.imm8.extractLsb' 2 6 != 0 || f.lit.extractLsb' 16 16 != 0
  | 0x97 => f.c == 15 || f.c == 21
  | 0xAB => f.len != .w3
  | 0xAC => decide (6 ≤ f.b.toNat)
  | 0xB0 => hi || decide (dir = 3) || (decide (opi = 3) && !pairOk f.dst)
  | 0xB1 => hi || decide (dir = 3) || decide (opi = 3)
  | 0xB2 => hi || decide (dir = 1) || decide (dir = 3) || decide (2 ≤ opi) || !pairOk f.dst
  | 0xB3 => hi || decide (dir = 1) || decide (dir = 3) || decide (opi = 3) || !pairOk f.dst
  | 0xB4 => hi || decide (dir = 1) || decide (dir = 3) || decide (opi ≠ 0)
  | 0xC9 => f.dst == 0 && f.b == 0
  | 0xCB | 0xCC | 0xCD => f.xctl.getLsbD 10 == false && f.xctl.extractLsb' 7 4 != 0
  | _ => false

/-- Checks 2 to 8 of Table 9-10 in order: the code of the first that fails. -/
def checkFields (u : UnitId) (f : Fields) : Option Nat :=
  match opUnits f.op with
  | none => some 2
  | some us =>
    let s := shape u f.op f.fn.toNat f.imm8.toNat
    let anyLit := s.a.isLit f.ka || s.b.isLit f.kb || s.c.isLit f.kc
    let anyCb := s.a.isCb f.ka || s.b.isCb f.kb || s.c.isCb f.kc
    let nWide := ([s.a.isLit f.ka || s.a.isCb f.ka, s.b.isLit f.kb || s.b.isCb f.kb,
      s.c.isLit f.kc || s.c.isCb f.kc].filter id).length
    if !us.contains u then some 3
    else if xctlReserved u f.xctl
        || (f.lit != 0 && !(s.lit || (anyLit && f.len == .w3)))
        || (f.imm8 != 0 && !(s.imm || anyCb || (anyLit && f.len != .w3)))
        || (s.dst.isNone && f.dst != 0)
        || s.a.bad4 f.a f.ka || s.b.bad4 f.b f.kb || s.c.bad4 f.c f.kc || entryBad4 f then some 4
    else if (match s.dst with | some m => decide (m < f.dst.toNat) | none => false)
        || s.a.bad5 f.a f.ka || s.b.bad5 f.b f.kb || s.c.bad5 f.c f.kc || xctlBad5 u f.op f.xctl then some 5
    else if s.a.bad6 f.a f.ka || s.b.bad6 f.b f.kb || s.c.bad6 f.c f.kc || decide (1 < nWide) then some 6
    else if !s.fns.contains f.fn.toNat || entryBad7 f then some 7
    else if entryBad8 f then some 8
    else none

/-- The control of an instruction (Table 9-3). -/
def ctlOf (u : UnitId) (x : BitVec 12) : Ctl :=
  match u with
  | .cc =>
    if x.getLsbD 5 then .slot (x.getLsbD 6) (x.extractLsb' 0 5) else .cc (x.getLsbD 6) (x.extractLsb' 0 4)
  | .eng .va => .va (x.getLsbD 11) (x.extractLsb' 7 4) (x.getLsbD 6) (x.extractLsb' 3 3) (x.extractLsb' 0 3)
  | .eng _ => .en (x.extractLsb' 3 3) (x.extractLsb' 0 3)

/-- XCTL of a control (Table 9-3). -/
def Ctl.bits : Ctl → BitVec 12
  | .cc n p => (0 : BitVec 5) ++ BitVec.ofBool n ++ (0 : BitVec 2) ++ p
  | .slot n g => (0 : BitVec 5) ++ BitVec.ofBool n ++ (1 : BitVec 1) ++ g
  | .va fz g s gi ta => BitVec.ofBool fz ++ g ++ BitVec.ofBool s ++ gi ++ ta
  | .en gi ta => (0 : BitVec 6) ++ gi ++ ta

/-- A source from its field and tag (Table 9-4). -/
def Fields.src (f : Fields) (n : BitVec 6) (k : BitVec 2) : Src :=
  if k = 0 then .r n
  else if k = 1 then .x n
  else if k = 2 then .cb f.imm8
  else if f.len = .w3 then .lit f.lit else .i8 f.imm8

/-- Rounding mode codes (Table 7-5). -/
def RMode.ofCode (n : Nat) : RMode :=
  match n with
  | 0 => .rne | 1 => .rtz | 2 => .rup | 3 => .rdn | _ => .sr
def RMode.code : RMode → Nat
  | .rne => 0 | .rtz => 1 | .rup => 2 | .rdn => 3 | .sr => 4

def FOp.ofFn (fn : BitVec 4) : FOp := ⟨fn.getLsbD 3, RMode.ofCode (fn.extractLsb' 0 3).toNat⟩
def FOp.fn (f : FOp) : BitVec 4 := BitVec.ofBool f.bf ++ BitVec.ofNat 3 f.mode.code

def Scope.ofCode (n : Nat) : Scope :=
  match n with
  | 0 => .ac | 1 => .quad | 2 => .die | 3 => .pkg | _ => .fab
def Scope.code : Scope → Nat
  | .ac => 0 | .quad => 1 | .die => 2 | .pkg => 3 | .fab => 4

def MCtl.ofBits (m : BitVec 6) : MCtl := ⟨m.getLsbD 5, m.extractLsb' 3 2, Scope.ofCode (m.extractLsb' 0 3).toNat⟩
def MCtl.bits (m : MCtl) : BitVec 6 := BitVec.ofBool m.wide ++ m.ord ++ BitVec.ofNat 3 m.scope.code

def Eid.ofCode (n : Nat) : Eid :=
  match n with
  | 1 => .vl | 2 => .va | 3 => .vs | 4 => .mx | _ => .ax

def Cond.ofCode (n : Nat) : Cond :=
  match n with
  | 0 => .eq | 1 => .ne | 2 => .lt | 3 => .ge | 4 => .ltu | 5 => .geu | 6 => .le | 7 => .gt | 8 => .leu
  | 9 => .gtu | 10 => .tst | _ => .ntst
def Cond.code : Cond → Nat
  | .eq => 0 | .ne => 1 | .lt => 2 | .ge => 3 | .ltu => 4 | .geu => 5 | .le => 6 | .gt => 7 | .leu => 8
  | .gtu => 9 | .tst => 10 | .ntst => 11

def FCond.ofCode (n : Nat) : FCond :=
  match n with
  | 0 => .eq | 1 => .ne | 2 => .lt | 3 => .le | _ => .un
def FCond.code : FCond → Nat
  | .eq => 0 | .ne => 1 | .lt => 2 | .le => 3 | .un => 4

def PFn.ofCode (n : Nat) : PFn :=
  match n with
  | 0 => .and | 1 => .or | 2 => .xor | 3 => .andn | 4 => .nand | 5 => .nor | 6 => .xnor | _ => .orn
def PFn.code : PFn → Nat
  | .and => 0 | .or => 1 | .xor => 2 | .andn => 3 | .nand => 4 | .nor => 5 | .xnor => 6 | .orn => 7

def AmoOp.ofCode (n : Nat) : AmoOp :=
  match n with
  | 0 => .add | 1 => .and | 2 => .or | 3 => .xor | 4 => .swap | 5 => .min | 6 => .max | 7 => .minu | _ => .maxu
def AmoOp.code : AmoOp → Nat
  | .add => 0 | .and => 1 | .or => 2 | .xor => 3 | .swap => 4 | .min => 5 | .max => 6 | .minu => 7 | .maxu => 8

def ECond.ofCode (n : Nat) : ECond :=
  match n with
  | 0 => .eq | 1 => .ne | 2 => .lt | 3 => .ge | 4 => .ltu | 5 => .geu | 6 => .last0 | 7 => .last1 | _ => .al
def ECond.code : ECond → Nat
  | .eq => 0 | .ne => 1 | .lt => 2 | .ge => 3 | .ltu => 4 | .geu => 5 | .last0 => 6 | .last1 => 7 | .al => 8

def SfuFn.ofCode (n : Nat) : SfuFn :=
  match n with
  | 0 => .exp2 | 1 => .log2 | 2 => .rcp | 3 => .rsqrt | 4 => .tanh | _ => .erf
def SfuFn.code : SfuFn → Nat
  | .exp2 => 0 | .log2 => 1 | .rcp => 2 | .rsqrt => 3 | .tanh => 4 | .erf => 5

def RedOp.ofCode (n : Nat) : RedOp :=
  match n with
  | 0 => .sum | 1 => .max | 2 => .min | _ => .maxsum
def RedOp.code : RedOp → Nat
  | .sum => 0 | .max => 1 | .min => 2 | .maxsum => 3

def Dir.ofCode (n : Nat) : Dir :=
  match n with
  | 0 => .row | 1 => .col | _ => .all
def Dir.code : Dir → Nat
  | .row => 0 | .col => 1 | .all => 2

def KeyOrd.ofCode (n : Nat) : KeyOrd :=
  match n with
  | 0 => .s32 | 1 => .u32 | _ => .f32
def KeyOrd.code : KeyOrd → Nat
  | .s32 => 0 | .u32 => 1 | .f32 => 2

def SegOp.ofCode (n : Nat) : SegOp :=
  match n with
  | 0 => .sumf | 1 => .maxf | _ => .sums
def SegOp.code : SegOp → Nat
  | .sumf => 0 | .maxf => 1 | .sums => 2

def RfOp.ofCode (n : Nat) : RfOp :=
  match n with
  | 0 => .fadd | 1 => .sadd | _ => .fmax
def RfOp.code : RfOp → Nat
  | .fadd => 0 | .sadd => 1 | .fmax => 2

def IWid.ofCode (n : Nat) : IWid :=
  match n with
  | 0 => .b4 | 1 => .b2 | _ => .b1
def IWid.code : IWid → Nat
  | .b4 => 0 | .b2 => 1 | .b1 => 2

def LogF.ofCode (n : Nat) : LogF :=
  match n with
  | 0 => .and | 1 => .or | 2 => .xor | _ => .andn
def LogF.code : LogF → Nat
  | .and => 0 | .or => 1 | .xor => 2 | .andn => 3

def ShF.ofCode (n : Nat) : ShF :=
  match n with
  | 0 => .shl | 1 => .shr | _ => .sha
def ShF.code : ShF → Nat
  | .shl => 0 | .shr => 1 | .sha => 2

def ImmK.ofCode (n : Nat) : ImmK :=
  match n with
  | 0 => .f32 | 1 => .s32 | 8 => .bf16 | _ => .s16
def ImmK.code : ImmK → Nat
  | .f32 => 0 | .s32 => 1 | .bf16 => 8 | .s16 => 9

def BcK.ofCode (n : Nat) : BcK :=
  match n with
  | 0 => .elem | 1 => .row | _ => .col
def BcK.code : BcK → Nat
  | .elem => 0 | .row => 1 | .col => 2

def TMode.ofCode (n : Nat) : TMode :=
  match n with
  | 0 => .phys | 1 => .ref | 2 => .frozen | _ => .frozens
def TMode.code : TMode → Nat
  | .phys => 0 | .ref => 1 | .frozen => 2 | .frozens => 3

def ProgK.ofCode (n : Nat) : ProgK :=
  match n with
  | 0 => .s | 1 => .f | _ => .fsym
def ProgK.code : ProgK → Nat
  | .s => 0 | .f => 1 | .fsym => 2

/-- The CC instruction of fields that passed the checks (Tables 10-2 to 10-6, 11-2, 13-13). -/
def buildCC (f : Fields) : Option Instr :=
  let h : Head := ⟨f.len, ctlOf .cc f.xctl⟩
  let d := f.dst
  let a := f.src f.a f.ka
  let b := f.src f.b f.kb
  let c := f.src f.c f.kc
  let fn := f.fn.toNat
  let w := f.fn.getLsbD 0
  let d4 := f.dst.extractLsb' 0 4
  let a4 := f.a.extractLsb' 0 4
  let fo := FOp.ofFn f.fn
  let fab := f.fn == 4
  match f.op.toNat with
  | 0x01 => some (.add h w d a b)
  | 0x02 => some (.sub h w d a b)
  | 0x03 => some (.mul h w d a b)
  | 0x04 => some (.mulh h d a b)
  | 0x05 => some (.mulhu h d a b)
  | 0x06 => some (.div h w d a b)
  | 0x07 => some (.divu h w d a b)
  | 0x08 => some (.rem h w d a b)
  | 0x09 => some (.remu h w d a b)
  | 0x0A => some (.and h d a b)
  | 0x0B => some (.or h d a b)
  | 0x0C => some (.xor h d a b)
  | 0x0D => some (.andn h d a b)
  | 0x0E => some (.shl h w d a b)
  | 0x0F => some (.shr h w d a b)
  | 0x10 => some (.sha h w d a b)
  | 0x11 => some (.rol h d a b)
  | 0x12 => some (.min h d a b)
  | 0x13 => some (.minu h d a b)
  | 0x14 => some (.max h d a b)
  | 0x15 => some (.maxu h d a b)
  | 0x16 => some (.clz h d a)
  | 0x17 => some (.ctz h d a)
  | 0x18 => some (.popc h d a)
  | 0x19 => some (.bfx h w d a b)
  | 0x1A => some (.bfi h d a b)
  | 0x1B => some (.sel h d a b (f.c.extractLsb' 0 4))
  | 0x1C => some (if w then .lih h d a else .li h d a)
  | 0x1D => some (if fn = 8 then .leaPc h d b else .lea h (f.fn.extractLsb' 0 2) d a b)
  | 0x1E => some (.cmp h (Cond.ofCode fn) d4 a b)
  | 0x1F => some (.plog h (PFn.ofCode fn) d4 a4 (f.b.extractLsb' 0 4))
  | 0x20 =>
    match fn with
    | 0 => some (.pmovToPred h d4 a)
    | 1 => some (.pmovToScalar h d a4)
    | 2 => some (.pmovAll h d)
    | _ => some (.pmovSet h a)
  | 0x21 => some (.fadd h fo d a b)
  | 0x22 => some (.fsub h fo d a b)
  | 0x23 => some (.fmul h fo d a b)
  | 0x24 => some (.ffma h fo d a b c)
  | 0x25 => some (.fdiv h fo d a b)
  | 0x26 => some (.fsqrt h fo d a)
  | 0x27 => some (.fcmp h fo.bf (FCond.ofCode (f.fn.extractLsb' 0 3).toNat) d4 a b)
  | 0x28 => some (.fcvt h fo.mode (f.b.extractLsb' 0 3) d a)
  | 0x29 => some (.fminmax h fo.bf w d a b)
  | 0x30 => some (.br h (f.fn ++ f.b ++ f.a ++ f.dst))
  | 0x31 => some (.jmp h f.lit)
  | 0x32 => some (.jmpr h a b)
  | 0x33 => some (.call h d a)
  | 0x34 => some (.ret h f.a)
  | 0x35 => some (.loop h w a (f.b ++ f.dst))
  | 0x36 => some (.gset h (f.dst.extractLsb' 0 5) (if w then .pred a4 else .val a))
  | 0x37 => some (.gclr h (f.dst.extractLsb' 0 5))
  | 0x38 => some (.fork h a)
  | 0x39 => some (.join h a)
  | 0x3A => some (.pushc h (Eid.ofCode f.dst.toNat) (f.fn.extractLsb' 0 3) f.a b)
  | 0x3B => some (.pushk h (Eid.ofCode f.dst.toNat) (f.fn.extractLsb' 0 3) f.a)
  | 0x3C => some (.retq h d)
  | 0x40 => some (.launch h d a)
  | 0x41 => some (.next h)
  | 0x42 => some (.coord h (f.fn.extractLsb' 0 3) d a)
  | 0x43 => some (.suspend h f.a b f.c)
  | 0x44 => some (.yield h f.a b f.c)
  | 0x45 => some (.sysr h d (f.b ++ f.a))
  | 0x46 => some (if (f.b ++ f.dst).toNat = 0xC0 then .pcarve h a else .sysw h (f.b ++ f.dst) a)
  | 0x47 => some (.trap h a)
  | 0x48 => some (.rft h)
  | 0x49 => some (.wfe h)
  | 0x4A => some (.sev h (Scope.ofCode fn))
  | 0x4B => some (.brk h a)
  | 0x4C => some (.halt h)
  | 0x4D => some (.nop h)
  | 0x5B => some (.tlwait h (Scope.ofCode fn) (f.a.extractLsb' 0 3) b)
  | 0x5C => some (.tlread h w d (f.a.extractLsb' 0 3))
  | 0x60 => some (.cpy h w d f.a)
  | 0x61 => some (.cpyt h w d f.a)
  | 0x62 => some (.cpyw h fab d f.a b f.c)
  | 0x63 => some (.pour h fab d f.a f.b c)
  | 0x64 => some (.pwait h fab d f.a b)
  | 0x65 => some (.pjoin h d f.a b)
  | 0x66 => some (.pleave h d f.a b)
  | 0x67 => some (if w then .pcloseRetire h d f.a else .pclose h d f.a)
  | 0x68 => some (.nmrun h d f.a f.b c)
  | 0x69 => some (.nmfence h (Scope.ofCode fn))
  | 0x6A => some (.rwait h d f.a)
  | 0x6B => some (.rfree h f.a)
  | 0x70 => some (.mxcfg h d a)
  | 0x71 => some (.mxgo h d a)
  | 0x72 => some (.mxfmt h a)
  | 0x73 => some (.mxmode h d a)
  | 0x74 => some (.mxzero h d a)
  | 0x75 => some (.mxdrain h w (f.fn.getLsbD 1) d a)
  | 0x76 => some (.mxsave h f.a)
  | 0x77 => some (.mxrest h f.a)
  | 0x78 => some (.mxstat h (f.fn.extractLsb' 0 3) d)
  | _ => none

/-- The instruction of row 0x5_ that several units share (Table 11-2). -/
def buildMem (u : UnitId) (f : Fields) : Option Instr :=
  let h : Head := ⟨f.len, ctlOf u f.xctl⟩
  let d := f.dst
  let b := f.src f.b f.kb
  let w := f.fn.getLsbD 0
  match f.op.toNat with
  | 0x50 => some (.ld h (f.fn.extractLsb' 0 3) d f.a b)
  | 0x51 => some (.st h (f.fn.extractLsb' 0 2) f.a b f.c)
  | 0x52 => some (.lds h (f.fn.extractLsb' 0 3) (MCtl.ofBits f.c) d f.a b)
  | 0x53 => some (.sts h (f.fn.extractLsb' 0 2) (MCtl.ofBits f.dst) f.a b f.c)
  | 0x54 => some (.amo h (AmoOp.ofCode f.fn.toNat) (MCtl.ofBits f.c) d f.a f.b)
  | 0x55 => some (.cas h (MCtl.ofBits f.c) d f.a f.b)
  | 0x56 => some (.phase h (MCtl.ofBits f.dst))
  | 0x57 => some (.fence h (MCtl.ofBits f.dst).scope)
  | 0x58 => some (.clean h w f.a b)
  | 0x59 => some (.inval h w f.a b)
  | 0x5A => some (.pref h w f.a b)
  | _ => none

/-- The engine instruction of fields that passed the checks (Tables 11-5, 12-1, 12-4, 12-6, 12-7, 13-5). -/
def buildEng (e : Eid) (f : Fields) : Option Instr :=
  let h : Head := ⟨f.len, ctlOf (.eng e) f.xctl⟩
  let d := f.dst
  let a := f.src f.a f.ka
  let b := f.src f.b f.kb
  let c := f.src f.c f.kc
  let fn := f.fn.toNat
  let w := f.fn.getLsbD 0
  let d3 := f.dst.extractLsb' 0 3
  let a3 := f.a.extractLsb' 0 3
  let fo := FOp.ofFn f.fn
  let opi := (f.imm8.extractLsb' 0 2).toNat
  let dir := Dir.ofCode (f.imm8.extractLsb' 2 2).toNat
  let all := f.imm8.getLsbD 3
  match f.op.toNat with
  | 0x80 => some (.etake h)
  | 0x81 => some (.ebr h (ECond.ofCode fn) a b (if f.len = .w3 then f.lit else f.imm8.signExtend 32))
  | 0x82 => some (if fn = 8 then .eloopAdd h d a b else .eloop h w a (f.b ++ f.dst))
  | 0x83 => some (.eend h)
  | 0x84 => some (.enop h)
  | 0x85 => some (.etok h f.fn)
  | 0x86 => some (.gput h (f.dst.extractLsb' 0 5) a)
  | 0x87 => some (.eret h a)
  | 0x90 => some (.vld h f.fn d f.a b)
  | 0x91 => some (.vldg h f.fn d f.a b f.c)
  | 0x92 => some (.vldb h fo d f.a f.b f.c f.lit)
  | 0x93 => some (.vldm h f.a f.b c)
  | 0x94 => some (.vst h f.fn d f.a b)
  | 0x95 => some (.vsts h f.fn d f.a b f.c)
  | 0x96 =>
    some (.vsta h (RfOp.ofCode opi) f.fn d f.a f.b f.c (if f.len = .w3 then f.lit.extractLsb' 0 16 else 0xFFFF))
  | 0x97 => some (.rput h f.a f.b f.c)
  | 0xA0 => some (.vadd h fo d a b)
  | 0xA1 => some (.vsub h fo d a b)
  | 0xA2 => some (.vmul h fo d a b)
  | 0xA3 => some (.vfma h fo d a b c)
  | 0xA4 => some (.vfms h fo d a b c)
  | 0xA5 => some (.vmin h fo.bf d a b)
  | 0xA6 => some (.vmax h fo.bf d a b)
  | 0xA7 => some (.vabs h fo.bf d a)
  | 0xA8 => some (.vneg h fo.bf d a)
  | 0xA9 => some (.vcmp h fo.bf (FCond.ofCode (f.fn.extractLsb' 0 3).toNat) d3 a b)
  | 0xAA => some (.vsel h fo.bf d a b (f.c.extractLsb' 0 3))
  | 0xAB =>
    some (.vcvt h fo.mode d f.a (f.lit.extractLsb' 0 8) (f.lit.extractLsb' 8 8) (f.lit.extractLsb' 16 2)
      (f.lit.getLsbD 18))
  | 0xAC => some (.vsfu h fo (SfuFn.ofCode f.b.toNat) d a)
  | 0xB0 => some (.vred h fo (RedOp.ofCode opi) dir d f.a f.b)
  | 0xB1 => some (.vscan h fo (RedOp.ofCode opi) dir d f.a)
  | 0xB2 => some (.vsort h (KeyOrd.ofCode fn) (f.imm8.getLsbD 0) all d f.a f.b)
  | 0xB3 => some (.vsegr h fo.mode (SegOp.ofCode opi) all d f.a f.b)
  | 0xB4 => some (.vperm h all d f.a f.b)
  | 0xB5 => some (.vbcast h (BcK.ofCode (f.fn.extractLsb' 0 3).toNat) fo.bf d f.a b)
  | 0xB6 => some (if w then .vmovX h d f.a b else .vmov h d f.a)
  | 0xB7 => some (.viota h d a b)
  | 0xC0 => some (.viadd h (IWid.ofCode (f.fn.extractLsb' 0 2).toNat) (f.fn.getLsbD 2) d a b)
  | 0xC1 => some (.visub h (IWid.ofCode (f.fn.extractLsb' 0 2).toNat) (f.fn.getLsbD 2) d a b)
  | 0xC2 => some (.vimul h (IWid.ofCode fn) d a b)
  | 0xC3 => some (.vilog h (LogF.ofCode fn) d a b)
  | 0xC4 => some (.vish h (ShF.ofCode (f.fn.extractLsb' 0 2).toNat) (IWid.ofCode (f.fn.extractLsb' 2 2).toNat) d a b)
  | 0xC5 => some (.vimm h (ImmK.ofCode fn) d a)
  | 0xC6 =>
    match fn with
    | 4 => some (.vmask h (.not d3 a3))
    | 5 => some (.vmask h (.first d3 a))
    | 6 => some (.vmask h (.fromv d3 f.a))
    | 7 => some (.vmask h (.tov d a3))
    | _ => some (.vmask h (.logic (LogF.ofCode fn) d3 a3 (f.b.extractLsb' 0 3)))
  | 0xC7 => some (.vshape h a)
  | 0xC8 => some (.vrot h a)
  | 0xC9 => some (.vloopp h (f.fn.extractLsb' 0 3) a (f.b ++ f.dst))
  | 0xCA => some (.vpcode h d f.a b)
  | 0xCB => some (.vbexp h fo.bf d f.a)
  | 0xCC => some (.vqnt h d f.a f.b)
  | 0xCD => some (.vdqnt h fo.mode d f.a f.b)
  | 0xD0 => some (.afwd h w (f.fn.getLsbD 1) d a f.b f.c)
  | 0xD1 => some (.abwd h w (f.fn.getLsbD 1) d a f.b f.c)
  | 0xD2 => some (.aupd h d a f.b f.c)
  | 0xD3 => some (.axfer h d a)
  | 0xD4 => some (.ackr h w (f.fn.extractLsb' 1 2) a f.b)
  | 0xD5 => some (.aprog h (ProgK.ofCode fn) d a f.b f.c)
  | 0xD6 => some (.acal h a b)
  | 0xD7 => some (if w then .asprSt h a f.b else .asprLd h a f.b)
  | 0xD8 => some (.aset h (f.fn.extractLsb' 0 3) a b)
  | 0xD9 => some (.amode h (TMode.ofCode fn) a)
  | 0xDA => some (.astat h f.fn d a)
  | 0xDB => some (.aref h a f.b)
  | _ => none

/-- The instruction of fields that passed the checks, on its unit. -/
def build (u : UnitId) (f : Fields) : Option Instr :=
  (buildMem u f).orElse fun _ =>
    match u with
    | .cc => buildCC f
    | .eng e => buildEng e f

/-- Decode fields on a unit: the instruction, or the code of the check that fails (R273). -/
def decodeFields (u : UnitId) (f : Fields) : Except Nat Instr :=
  match checkFields u f with
  | some c => .error c
  | none =>
    match build u f with
    | some i => .ok i
    | none => .error 2

/-- Decode the first instruction of a list of granules on a unit: the instruction, its length and the rest. -/
def decode (u : UnitId) (ws : List W32) : Except DecodeError (Instr × Len × List W32) :=
  match Fields.unpack ws with
  | .error e => .error e
  | .ok (f, r) =>
    match decodeFields u f with
    | .error c => .error (.illegal c (f.len.bytes / 4))
    | .ok i => .ok (i, f.len, r)

/-- Granules the fetch reads for an instruction whose first granule is w: 1 where bits 1:0 are reserved. -/
def granules (w : W32) : Nat :=
  match Len.ofCode (w.extractLsb' 0 2) with
  | some l => l.bytes / 4
  | none => 1

/-! ### Encoder -/

/-- The field and the tag of a source. -/
def Src.field : Src → BitVec 6
  | .r n | .x n => n
  | _ => 0
def Src.tag : Src → BitVec 2
  | .r _ => 0 | .x _ => 1 | .cb _ => 2 | .i8 _ | .lit _ => 3

/-- IMM8 and LIT of a list of sources, at most one of which needs them. -/
def imm8Of (l : List Src) : BitVec 8 :=
  l.foldl (fun acc s => match s with | .cb v | .i8 v => v | _ => acc) 0
def litOf (l : List Src) : BitVec 32 :=
  l.foldl (fun acc s => match s with | .lit v => v | _ => acc) 0

/-- Fields with everything zero but the opcode, length and control. -/
def base (op : Nat) (h : Head) : Fields :=
  { len := h.len, op := BitVec.ofNat 8 op, dst := 0, a := 0, b := 0, fn := 0, imm8 := 0, c := 0, ka := 0, kb := 0,
    kc := 0, xctl := h.ctl.bits, lit := 0 }

/-- An entry with DST and sources a, b, c. -/
def enc3 (op : Nat) (h : Head) (fn : BitVec 4) (d : BitVec 6) (a b c : Src) : Fields :=
  { base op h with
    dst := d, fn := fn, a := a.field, ka := a.tag, b := b.field, kb := b.tag, c := c.field, kc := c.tag
    imm8 := imm8Of [a, b, c], lit := litOf [a, b, c] }

def z0 : Src := .r 0
def fnOf (n : Nat) : BitVec 4 := BitVec.ofNat 4 n
def fnW (w : Bool) : BitVec 4 := fnOf (if w then 1 else 0)
/-- A predicate, mask or slot number in a register field. -/
def r6 {w : Nat} (n : BitVec w) : BitVec 6 := n.setWidth 6

/-- The fields of an instruction; `none` for a kettle instruction or an event. -/
def toFields : Instr → Option Fields
  | .add h w d a b => some (enc3 0x01 h (fnW w) d a b z0)
  | .sub h w d a b => some (enc3 0x02 h (fnW w) d a b z0)
  | .mul h w d a b => some (enc3 0x03 h (fnW w) d a b z0)
  | .mulh h d a b => some (enc3 0x04 h 0 d a b z0)
  | .mulhu h d a b => some (enc3 0x05 h 0 d a b z0)
  | .div h w d a b => some (enc3 0x06 h (fnW w) d a b z0)
  | .divu h w d a b => some (enc3 0x07 h (fnW w) d a b z0)
  | .rem h w d a b => some (enc3 0x08 h (fnW w) d a b z0)
  | .remu h w d a b => some (enc3 0x09 h (fnW w) d a b z0)
  | .and h d a b => some (enc3 0x0A h 0 d a b z0)
  | .or h d a b => some (enc3 0x0B h 0 d a b z0)
  | .xor h d a b => some (enc3 0x0C h 0 d a b z0)
  | .andn h d a b => some (enc3 0x0D h 0 d a b z0)
  | .shl h w d a b => some (enc3 0x0E h (fnW w) d a b z0)
  | .shr h w d a b => some (enc3 0x0F h (fnW w) d a b z0)
  | .sha h w d a b => some (enc3 0x10 h (fnW w) d a b z0)
  | .rol h d a b => some (enc3 0x11 h 0 d a b z0)
  | .min h d a b => some (enc3 0x12 h 0 d a b z0)
  | .minu h d a b => some (enc3 0x13 h 0 d a b z0)
  | .max h d a b => some (enc3 0x14 h 0 d a b z0)
  | .maxu h d a b => some (enc3 0x15 h 0 d a b z0)
  | .clz h d a => some (enc3 0x16 h 0 d a z0 z0)
  | .ctz h d a => some (enc3 0x17 h 0 d a z0 z0)
  | .popc h d a => some (enc3 0x18 h 0 d a z0 z0)
  | .bfx h sx d a b => some (enc3 0x19 h (fnW sx) d a b z0)
  | .bfi h d a b => some (enc3 0x1A h 0 d a b z0)
  | .sel h d a b p => some (enc3 0x1B h 0 d a b (.r (r6 p)))
  | .li h d a => some (enc3 0x1C h 0 d a z0 z0)
  | .lih h d a => some (enc3 0x1C h 1 d a z0 z0)
  | .lea h sh d a b => some (enc3 0x1D h (sh.setWidth 4) d a b z0)
  | .leaPc h d b => some (enc3 0x1D h 8 d z0 b z0)
  | .cmp h c p a b => some (enc3 0x1E h (fnOf c.code) (r6 p) a b z0)
  | .plog h f d a b => some (enc3 0x1F h (fnOf f.code) (r6 d) (.r (r6 a)) (.r (r6 b)) z0)
  | .pmovToPred h d a => some (enc3 0x20 h 0 (r6 d) a z0 z0)
  | .pmovToScalar h d a => some (enc3 0x20 h 1 d (.r (r6 a)) z0 z0)
  | .pmovAll h d => some (enc3 0x20 h 2 d z0 z0 z0)
  | .pmovSet h a => some (enc3 0x20 h 3 0 a z0 z0)
  | .fadd h f d a b => some (enc3 0x21 h f.fn d a b z0)
  | .fsub h f d a b => some (enc3 0x22 h f.fn d a b z0)
  | .fmul h f d a b => some (enc3 0x23 h f.fn d a b z0)
  | .ffma h f d a b c => some (enc3 0x24 h f.fn d a b c)
  | .fdiv h f d a b => some (enc3 0x25 h f.fn d a b z0)
  | .fsqrt h f d a => some (enc3 0x26 h f.fn d a z0 z0)
  | .fcmp h bf c p a b => some (enc3 0x27 h (BitVec.ofBool bf ++ BitVec.ofNat 3 c.code) (r6 p) a b z0)
  | .fcvt h m code d a => some (enc3 0x28 h (fnOf m.code) d a (.r (r6 code)) z0)
  | .fminmax h bf mx d a b => some (enc3 0x29 h (BitVec.ofBool bf ++ (0 : BitVec 2) ++ BitVec.ofBool mx) d a b z0)
  | .br h off =>
    some { base 0x30 h with
      dst := off.extractLsb' 0 6, a := off.extractLsb' 6 6, b := off.extractLsb' 12 6, fn := off.extractLsb' 18 4 }
  | .jmp h off => some { base 0x31 h with lit := off }
  | .jmpr h a b => some (enc3 0x32 h 0 0 a b z0)
  | .call h d a => some (enc3 0x33 h 0 d a z0 z0)
  | .ret h a => some (enc3 0x34 h 0 0 (.r a) z0 z0)
  | .loop h k a bl => some (enc3 0x35 h (fnW k) (bl.extractLsb' 0 6) a (.r (bl.extractLsb' 6 6)) z0)
  | .gset h g (.val a) => some (enc3 0x36 h 0 (r6 g) a z0 z0)
  | .gset h g (.pred p) => some (enc3 0x36 h 1 (r6 g) (.r (r6 p)) z0 z0)
  | .gclr h g => some (enc3 0x37 h 0 (r6 g) z0 z0 z0)
  | .fork h a => some (enc3 0x38 h 0 0 a z0 z0)
  | .join h a => some (enc3 0x39 h 0 0 a z0 z0)
  | .pushc h e n k b => some (enc3 0x3A h (n.setWidth 4) (BitVec.ofNat 6 e.code) (.r k) b z0)
  | .pushk h e n k => some (enc3 0x3B h (n.setWidth 4) (BitVec.ofNat 6 e.code) (.r k) z0 z0)
  | .retq h d => some (enc3 0x3C h 0 d z0 z0 z0)
  | .launch h d a => some (enc3 0x40 h 0 d a z0 z0)
  | .next h => some (base 0x41 h)
  | .coord h f d a => some (enc3 0x42 h (f.setWidth 4) d a z0 z0)
  | .suspend h a b c => some (enc3 0x43 h 0 0 (.r a) b (.r c))
  | .yield h a b c => some (enc3 0x44 h 0 0 (.r a) b (.r c))
  | .sysr h d n => some (enc3 0x45 h 0 d (.r (n.extractLsb' 0 6)) (.r (n.extractLsb' 6 6)) z0)
  | .sysw h n a => some (enc3 0x46 h 0 (n.extractLsb' 0 6) a (.r (n.extractLsb' 6 6)) z0)
  | .pcarve h a => some (enc3 0x46 h 0 0 a (.r 3) z0)
  | .trap h a => some (enc3 0x47 h 0 0 a z0 z0)
  | .rft h => some (base 0x48 h)
  | .wfe h => some (base 0x49 h)
  | .sev h s => some { base 0x4A h with fn := fnOf s.code }
  | .brk h a => some (enc3 0x4B h 0 0 a z0 z0)
  | .halt h => some (base 0x4C h)
  | .nop h => some (base 0x4D h)
  | .ld h w d a b => some (enc3 0x50 h (w.setWidth 4) d (.r a) b z0)
  | .st h w a b c => some (enc3 0x51 h (w.setWidth 4) 0 (.r a) b (.r c))
  | .lds h w m d a b => some (enc3 0x52 h (w.setWidth 4) d (.r a) b (.r m.bits))
  | .sts h w m a b c => some (enc3 0x53 h (w.setWidth 4) m.bits (.r a) b (.r c))
  | .amo h op m d a b => some (enc3 0x54 h (fnOf op.code) d (.r a) (.r b) (.r m.bits))
  | .cas h m d a b => some (enc3 0x55 h 0 d (.r a) (.r b) (.r m.bits))
  | .phase h m => some { base 0x56 h with dst := m.bits }
  | .fence h s => some { base 0x57 h with dst := (MCtl.mk false 0 s).bits }
  | .clean h l2 a b => some (enc3 0x58 h (fnW l2) 0 (.r a) b z0)
  | .inval h l2 a b => some (enc3 0x59 h (fnW l2) 0 (.r a) b z0)
  | .pref h l2 a b => some (enc3 0x5A h (fnW l2) 0 (.r a) b z0)
  | .tlwait h s ctx b => some (enc3 0x5B h (fnOf s.code) 0 (.r (r6 ctx)) b z0)
  | .tlread h iss d ctx => some (enc3 0x5C h (fnW iss) d (.r (r6 ctx)) z0 z0)
  | .cpy h fab d a => some (enc3 0x60 h (fnW fab) d (.r a) z0 z0)
  | .cpyt h fab d a => some (enc3 0x61 h (fnW fab) d (.r a) z0 z0)
  | .cpyw h fab d a b c => some (enc3 0x62 h (fnOf (if fab then 4 else 3)) d (.r a) b (.r c))
  | .pour h fab d a b c => some (enc3 0x63 h (fnOf (if fab then 4 else 3)) d (.r a) (.r b) c)
  | .pwait h fab d a b => some (enc3 0x64 h (fnOf (if fab then 4 else 3)) d (.r a) b z0)
  | .pjoin h d a b => some (enc3 0x65 h 0 d (.r a) b z0)
  | .pleave h d a b => some (enc3 0x66 h 0 d (.r a) b z0)
  | .pclose h d a => some (enc3 0x67 h 0 d (.r a) z0 z0)
  | .pcloseRetire h d a => some (enc3 0x67 h 1 d (.r a) z0 z0)
  | .nmrun h d a b c => some (enc3 0x68 h 0 d (.r a) (.r b) c)
  | .nmfence h s => some { base 0x69 h with fn := fnOf s.code }
  | .rwait h d a => some (enc3 0x6A h 0 d (.r a) z0 z0)
  | .rfree h a => some (enc3 0x6B h 0 0 (.r a) z0 z0)
  | .mxcfg h n a => some (enc3 0x70 h 0 n a z0 z0)
  | .mxgo h d a => some (enc3 0x71 h 0 d a z0 z0)
  | .mxfmt h a => some (enc3 0x72 h 0 0 a z0 z0)
  | .mxmode h d a => some (enc3 0x73 h 0 d a z0 z0)
  | .mxzero h d a => some (enc3 0x74 h 0 d a z0 z0)
  | .mxdrain h t bf d a => some (enc3 0x75 h ((0 : BitVec 2) ++ BitVec.ofBool bf ++ BitVec.ofBool t) d a z0 z0)
  | .mxsave h a => some (enc3 0x76 h 0 0 (.r a) z0 z0)
  | .mxrest h a => some (enc3 0x77 h 0 0 (.r a) z0 z0)
  | .mxstat h n d => some (enc3 0x78 h (n.setWidth 4) d z0 z0 z0)
  | .etake h => some (base 0x80 h)
  | .ebr h c a b off =>
    some { enc3 0x81 h (fnOf c.code) 0 a b z0 with
      imm8 := if h.len = .w3 then 0 else off.extractLsb' 0 8, lit := if h.len = .w3 then off else 0 }
  | .eloop h k a bl => some (enc3 0x82 h (fnW k) (bl.extractLsb' 0 6) a (.r (bl.extractLsb' 6 6)) z0)
  | .eloopAdd h d a b => some (enc3 0x82 h 8 d a b z0)
  | .eend h => some (base 0x83 h)
  | .enop h => some (base 0x84 h)
  | .etok h n => some { base 0x85 h with fn := n }
  | .gput h g a => some (enc3 0x86 h 0 (r6 g) a z0 z0)
  | .eret h a => some (enc3 0x87 h 0 0 a z0 z0)
  | .vld h nr v a b => some (enc3 0x90 h nr v (.r a) b z0)
  | .vldg h nr v a b c => some (enc3 0x91 h nr v (.r a) b (.r c))
  | .vldb h f v a b c fw => some { enc3 0x92 h f.fn v (.r a) (.r b) (.r c) with lit := fw }
  | .vldm h a b c => some (enc3 0x93 h 0 0 (.r a) (.r b) c)
  | .vst h nr v a b => some (enc3 0x94 h nr v (.r a) b z0)
  | .vsts h nr v a b c => some (enc3 0x95 h nr v (.r a) b (.r c))
  | .vsta h op nr v a b c lanes =>
    some { enc3 0x96 h nr v (.r a) (.r b) (.r c) with
      imm8 := BitVec.ofNat 8 op.code, lit := if h.len = .w3 then lanes.setWidth 32 else 0 }
  | .rput h a b c => some (enc3 0x97 h 0 0 (.r a) (.r b) (.r c))
  | .vadd h f d a b => some (enc3 0xA0 h f.fn d a b z0)
  | .vsub h f d a b => some (enc3 0xA1 h f.fn d a b z0)
  | .vmul h f d a b => some (enc3 0xA2 h f.fn d a b z0)
  | .vfma h f d a b c => some (enc3 0xA3 h f.fn d a b c)
  | .vfms h f d a b c => some (enc3 0xA4 h f.fn d a b c)
  | .vmin h bf d a b => some (enc3 0xA5 h (fnOf (if bf then 8 else 0)) d a b z0)
  | .vmax h bf d a b => some (enc3 0xA6 h (fnOf (if bf then 8 else 0)) d a b z0)
  | .vabs h bf d a => some (enc3 0xA7 h (fnOf (if bf then 8 else 0)) d a z0 z0)
  | .vneg h bf d a => some (enc3 0xA8 h (fnOf (if bf then 8 else 0)) d a z0 z0)
  | .vcmp h bf c m a b => some (enc3 0xA9 h (BitVec.ofBool bf ++ BitVec.ofNat 3 c.code) (r6 m) a b z0)
  | .vsel h w16 d a b m => some (enc3 0xAA h (fnOf (if w16 then 8 else 0)) d a b (.r (r6 m)))
  | .vcvt h md d a src dst part sat =>
    some { enc3 0xAB h (fnOf md.code) d (.r a) z0 z0 with
      lit := (0 : BitVec 13) ++ BitVec.ofBool sat ++ part ++ dst ++ src }
  | .vsfu h f fn d a => some (enc3 0xAC h f.fn d a (.r (BitVec.ofNat 6 fn.code)) z0)
  | .vred h f op dir d a b =>
    some { enc3 0xB0 h f.fn d (.r a) (.r b) z0 with imm8 := BitVec.ofNat 8 (op.code + 4 * dir.code) }
  | .vscan h f op dir d a =>
    some { enc3 0xB1 h f.fn d (.r a) z0 z0 with imm8 := BitVec.ofNat 8 (op.code + 4 * dir.code) }
  | .vsort h key desc all d a b =>
    some { enc3 0xB2 h (fnOf key.code) d (.r a) (.r b) z0 with
      imm8 := (0 : BitVec 4) ++ BitVec.ofBool all ++ (0 : BitVec 2) ++ BitVec.ofBool desc }
  | .vsegr h md op all d a b =>
    some { enc3 0xB3 h (fnOf md.code) d (.r a) (.r b) z0 with
      imm8 := (0 : BitVec 4) ++ BitVec.ofBool all ++ (0 : BitVec 1) ++ BitVec.ofNat 2 op.code }
  | .vperm h all d a b =>
    some { enc3 0xB4 h 0 d (.r a) (.r b) z0 with imm8 := (0 : BitVec 4) ++ BitVec.ofBool all ++ (0 : BitVec 3) }
  | .vbcast h k w16 d a b => some (enc3 0xB5 h (BitVec.ofBool w16 ++ BitVec.ofNat 3 k.code) d (.r a) b z0)
  | .vmov h d a => some (enc3 0xB6 h 0 d (.r a) z0 z0)
  | .vmovX h d a b => some (enc3 0xB6 h 1 d (.r a) b z0)
  | .viota h d a b => some (enc3 0xB7 h 0 d a b z0)
  | .viadd h w sat d a b => some (enc3 0xC0 h ((0 : BitVec 1) ++ BitVec.ofBool sat ++ BitVec.ofNat 2 w.code) d a b z0)
  | .visub h w sat d a b => some (enc3 0xC1 h ((0 : BitVec 1) ++ BitVec.ofBool sat ++ BitVec.ofNat 2 w.code) d a b z0)
  | .vimul h w d a b => some (enc3 0xC2 h (fnOf w.code) d a b z0)
  | .vilog h f d a b => some (enc3 0xC3 h (fnOf f.code) d a b z0)
  | .vish h f w d a b => some (enc3 0xC4 h (BitVec.ofNat 2 w.code ++ BitVec.ofNat 2 f.code) d a b z0)
  | .vimm h k d a => some (enc3 0xC5 h (fnOf k.code) d a z0 z0)
  | .vmask h (.logic f d a b) => some (enc3 0xC6 h (fnOf f.code) (r6 d) (.r (r6 a)) (.r (r6 b)) z0)
  | .vmask h (.not d a) => some (enc3 0xC6 h 4 (r6 d) (.r (r6 a)) z0 z0)
  | .vmask h (.first d a) => some (enc3 0xC6 h 5 (r6 d) a z0 z0)
  | .vmask h (.fromv d a) => some (enc3 0xC6 h 6 (r6 d) (.r a) z0 z0)
  | .vmask h (.tov d a) => some (enc3 0xC6 h 7 d (.r (r6 a)) z0 z0)
  | .vshape h a => some (enc3 0xC7 h 0 0 a z0 z0)
  | .vrot h a => some (enc3 0xC8 h 0 0 a z0 z0)
  | .vloopp h st a bl => some (enc3 0xC9 h (st.setWidth 4) (bl.extractLsb' 0 6) a (.r (bl.extractLsb' 6 6)) z0)
  | .vpcode h d a b => some (enc3 0xCA h 0 d (.r a) b z0)
  | .vbexp h bf d a => some (enc3 0xCB h (fnOf (if bf then 8 else 0)) d (.r a) z0 z0)
  | .vqnt h d a b => some (enc3 0xCC h 0 d (.r a) (.r b) z0)
  | .vdqnt h md d a b => some (enc3 0xCD h (fnOf md.code) d (.r a) (.r b) z0)
  | .afwd h f32 sc d a b c => some (enc3 0xD0 h ((0 : BitVec 2) ++ BitVec.ofBool sc ++ BitVec.ofBool f32) d a (.r b) (.r c))
  | .abwd h f32 sc d a b c => some (enc3 0xD1 h ((0 : BitVec 2) ++ BitVec.ofBool sc ++ BitVec.ofBool f32) d a (.r b) (.r c))
  | .aupd h d a b c => some (enc3 0xD2 h 0 d a (.r b) (.r c))
  | .axfer h d a => some (enc3 0xD3 h 0 d a z0 z0)
  | .ackr h f ln a b => some (enc3 0xD4 h ((0 : BitVec 1) ++ ln ++ BitVec.ofBool f) 0 a (.r b) z0)
  | .aprog h k d a b c => some (enc3 0xD5 h (fnOf k.code) d a (.r b) (.r c))
  | .acal h a b => some (enc3 0xD6 h 0 0 a b z0)
  | .asprLd h a b => some (enc3 0xD7 h 0 0 a (.r b) z0)
  | .asprSt h a b => some (enc3 0xD7 h 1 0 a (.r b) z0)
  | .aset h reg a b => some (enc3 0xD8 h (reg.setWidth 4) 0 a b z0)
  | .amode h m a => some (enc3 0xD9 h (fnOf m.code) 0 a z0 z0)
  | .astat h reg d a => some (enc3 0xDA h reg d a z0 z0)
  | .aref h a b => some (enc3 0xDB h 0 0 a (.r b) z0)
  | _ => none

/-- The granules of an instruction of an array cluster. -/
def encode (i : Instr) : List W32 := (toFields i).elim [] Fields.pack

/-- The little-endian bytes of a granule (R9, R261). -/
def granuleBytes (w : W32) : List Byte :=
  [w.extractLsb' 0 8, w.extractLsb' 8 8, w.extractLsb' 16 8, w.extractLsb' 24 8]

/-! ### Kettle instructions (Table 4-6, Table 4-7) -/

/-- The fields of a kettle instruction word (Table 4-6). -/
structure KFields where
  op : BitVec 6
  d : BitVec 5
  a : BitVec 5
  b : BitVec 5
  c : BitVec 5
  fn : BitVec 3
  ab : Bool
  pi : Bool
  lit : Bool
  imm : BitVec 32
deriving DecidableEq, Repr

def KFields.ofWord (w : W64) : KFields :=
  { op := w.extractLsb' 58 6, d := w.extractLsb' 53 5, a := w.extractLsb' 48 5, b := w.extractLsb' 43 5
    c := w.extractLsb' 38 5, fn := w.extractLsb' 35 3, ab := w.getLsbD 34, pi := w.getLsbD 33
    lit := w.getLsbD 32, imm := w.extractLsb' 0 32 }

def KFields.toWord (f : KFields) : W64 :=
  f.op ++ f.d ++ f.a ++ f.b ++ f.c ++ f.fn ++ BitVec.ofBool f.ab ++ BitVec.ofBool f.pi ++ BitVec.ofBool f.lit ++ f.imm

/-- Use of a kettle register field. -/
inductive KUse where
  | un | k | j
deriving DecidableEq, Repr

def KUse.ok (u : KUse) (n : BitVec 5) : Bool :=
  match u with
  | .un => n == 0
  | .k => decide (n.toNat < 24)
  | .j => decide (n.toNat < 8)

/-- The fields satisfy their uses; `im` tells whether the entry uses IMM. -/
def KFields.uses (f : KFields) (d a b c : KUse) (im : Bool) : Bool :=
  d.ok f.d && a.ok f.a && b.ok f.b && c.ok f.c && (im || f.imm == 0)

/-- No AB, PI or LIT. -/
def KFields.plain (f : KFields) : Bool := !f.ab && !f.pi && !f.lit

/-- Source b of a lane instruction. -/
def KFields.srcB (f : KFields) : KSrc := if f.lit then .imm f.imm else .k f.b

def KFields.laneOk (f : KFields) (c : KUse) : Bool :=
  !f.ab && !f.pi && f.uses .k .k (if f.lit then .un else .k) c f.lit

def j3 (n : BitVec 5) : BitVec 3 := n.extractLsb' 0 3

/-- Lane instructions of opcodes 0x08 to 0x0E and 0x10 to 0x16. -/
def kLane (f : KFields) : Option Instr :=
  let fn := f.fn.toNat
  match f.op.toNat with
  | 0x08 => if f.laneOk .un && fn == 0 then some (.kadd f.d f.a f.srcB) else none
  | 0x09 => if f.laneOk .un && fn == 0 then some (.ksub f.d f.a f.srcB) else none
  | 0x0A => if f.laneOk .un && fn == 0 then some (.kmul f.d f.a f.srcB) else none
  | 0x0B => if f.laneOk .k && fn == 0 then some (.kfma f.d f.a f.srcB f.c) else none
  | 0x0C => if f.laneOk .un && fn == 0 then some (.kmin f.d f.a f.srcB) else none
  | 0x0D => if f.laneOk .un && fn == 0 then some (.kmax f.d f.a f.srcB) else none
  | 0x0E => if f.plain && f.uses .k .k .un .un false && fn == 0 then some (.kabs f.d f.a) else none
  | 0x10 => if f.laneOk .un && decide (fn ≤ 4) then some (.kcmp (FCond.ofCode fn) f.d f.a f.srcB) else none
  | 0x11 => if f.plain && f.uses .k .k .k .k false && fn == 0 then some (.ksel f.d f.a f.b f.c) else none
  | 0x12 =>
    if !f.plain then none else
    match fn with
    | 0 => if f.uses .k .k .un .un false then some (.kcvt f.d (.f32s32 f.a)) else none
    | 1 => if f.uses .k .k .un .un false then some (.kcvt f.d (.s32f32 f.a)) else none
    | 2 => if f.uses .k .k .j .un false then some (.kcvt f.d (.s64lo f.a (j3 f.b))) else none
    | 3 => if f.uses .k .k .j .un false then some (.kcvt f.d (.s64hi f.a (j3 f.b))) else none
    | 4 => if f.uses .k .j .un .un false then some (.kcvt f.d (.f32j (j3 f.a))) else none
    | 5 => if f.uses .k .j .un .un false then some (.kcvt f.d (.b32j (j3 f.a))) else none
    | _ => none
  | 0x13 => if f.plain && f.uses .k .k .j .un false && fn == 0 then some (.kqnt f.d f.a (j3 f.b)) else none
  | 0x14 =>
    if f.plain && f.uses .k .k .k .un false && decide (fn ≤ 3) then
      some (.kiadd (match fn with | 0 => .d | 1 => .wlo | 2 => .whi | _ => .w) f.d f.a f.b)
    else none
  | 0x15 => if f.plain && f.uses .k .k .un .un false && fn == 0 then some (.kclip f.d f.a) else none
  | 0x16 => if f.plain && f.uses .k .k .un .un false && fn == 0 then some (.knf f.d f.a) else none
  | _ => none

def treeOpOf (n : Nat) : TreeOp :=
  match n with
  | 0 => .sum | 1 => .max | _ => .maxsum
def TreeOp.code : TreeOp → Nat
  | .sum => 0 | .max => 1 | .maxsum => 2

/-- Opcode, field and FN conditions of the load check (R110) on one word; the pairing of loops is a condition
on the whole program. -/
def kdecode (w : W64) : Option Instr :=
  let f := KFields.ofWord w
  let fn := f.fn.toNat
  let kform : KForm := match fn with | 0 => .full | 1 => .bf16 | _ => .half
  match f.op.toNat with
  | 0x00 => if f.plain && f.uses .un .un .un .un false && fn == 0 then some .knop else none
  | 0x01 =>
    if f.lit || !f.uses .k .j .un .un true then none
    else if f.ab then
      (if fn = 4 then some (.kldAbSum f.pi f.d (j3 f.a) f.imm)
       else if fn = 5 then some (.kldAbMax f.pi f.d (j3 f.a) f.imm) else none)
    else if fn ≤ 2 then some (.kld kform f.pi f.d (j3 f.a) f.imm) else none
  | 0x02 =>
    if f.lit || !f.uses .un .j .k .un true then none
    else if f.ab then (if fn = 4 then some (.kstAb f.pi (j3 f.a) f.b f.imm) else none)
    else if fn ≤ 2 then some (.kst kform f.pi (j3 f.a) f.b f.imm) else none
  | 0x03 =>
    if !f.plain then none else
    match fn with
    | 0 => if f.uses .j .j .un .un true then some (.kag (j3 f.d) (.addi (j3 f.a) f.imm)) else none
    | 1 => if f.uses .j .j .j .un false then some (.kag (j3 f.d) (.addr (j3 f.a) (j3 f.b))) else none
    | 2 => if f.uses .j .un .un .un true then some (.kag (j3 f.d) (.li f.imm)) else none
    | 3 =>
      if f.uses .j .j .un .un true && decide (f.imm.toNat ≤ 63) then
        some (.kag (j3 f.d) (.shl (j3 f.a) (f.imm.extractLsb' 0 6))) else none
    | 4 =>
      if f.uses .j .un .un .un true && decide (f.imm.toNat ≤ 7) then
        some (.kag (j3 f.d) (.prm (f.imm.extractLsb' 0 3))) else none
    | 5 => if f.uses .j .j .un .un true then some (.kag (j3 f.d) (.mul (j3 f.a) f.imm)) else none
    | _ => none
  | 0x04 => if f.plain && f.uses .un .un .un .un false && fn == 0 then some .katom else none
  | 0x05 =>
    if f.plain && f.uses .un .j .j .un true && decide (fn ≤ 1) then some (.kflag (fn == 1) (j3 f.a) (j3 f.b) f.imm)
    else none
  | 0x18 =>
    if f.plain && f.uses .un .k .un .un false && decide (fn ≤ 2) && (fn != 2 || f.a != 23) then
      some (.kred (treeOpOf fn) f.a) else none
  | 0x19 =>
    if f.plain && f.uses .k .un .un .un false && decide (fn ≤ 2) && (fn != 2 || f.d != 23) then
      some (.krcv (treeOpOf fn) f.d) else none
  | 0x1C =>
    if !f.ab && !f.pi && fn == 0 && f.uses .un (if f.lit then .un else .j) .un .un f.lit then
      some (.kloop (if f.lit then .imm f.imm else .j (j3 f.a))) else none
  | 0x1D => if f.plain && f.uses .un .un .un .un false && fn == 0 then some .kend else none
  | 0x1E => if f.plain && f.uses .un .un .un .un false && fn == 0 then some .khalt else none
  | _ => kLane f

/-- Kettle fields with everything zero but the opcode. -/
def kbase (op : Nat) : KFields :=
  { op := BitVec.ofNat 6 op, d := 0, a := 0, b := 0, c := 0, fn := 0, ab := false, pi := false, lit := false, imm := 0 }

def j5 (n : BitVec 3) : BitVec 5 := n.setWidth 5
def kfn (n : Nat) : BitVec 3 := BitVec.ofNat 3 n

/-- A lane instruction with source b. -/
def klane (op : Nat) (fn : Nat) (d a : BitVec 5) (b : KSrc) (c : BitVec 5) : KFields :=
  match b with
  | .k n => { kbase op with d := d, a := a, b := n, c := c, fn := kfn fn }
  | .imm v => { kbase op with d := d, a := a, c := c, fn := kfn fn, lit := true, imm := v }

def KForm.code : KForm → Nat
  | .full => 0 | .bf16 => 1 | .half => 2

/-- The fields of a kettle instruction. -/
def toKFields : Instr → Option KFields
  | .knop => some (kbase 0x00)
  | .kld f pi d a imm => some { kbase 0x01 with d := d, a := j5 a, fn := kfn f.code, pi := pi, imm := imm }
  | .kst f pi a b imm => some { kbase 0x02 with a := j5 a, b := b, fn := kfn f.code, pi := pi, imm := imm }
  | .kldAbSum pi d a imm => some { kbase 0x01 with d := d, a := j5 a, fn := 4, ab := true, pi := pi, imm := imm }
  | .kldAbMax pi d a imm => some { kbase 0x01 with d := d, a := j5 a, fn := 5, ab := true, pi := pi, imm := imm }
  | .kstAb pi a b imm => some { kbase 0x02 with a := j5 a, b := b, fn := 4, ab := true, pi := pi, imm := imm }
  | .kag d (.addi a imm) => some { kbase 0x03 with d := j5 d, a := j5 a, imm := imm }
  | .kag d (.addr a b) => some { kbase 0x03 with d := j5 d, a := j5 a, b := j5 b, fn := 1 }
  | .kag d (.li imm) => some { kbase 0x03 with d := j5 d, fn := 2, imm := imm }
  | .kag d (.shl a n) => some { kbase 0x03 with d := j5 d, a := j5 a, fn := 3, imm := n.setWidth 32 }
  | .kag d (.prm i) => some { kbase 0x03 with d := j5 d, fn := 4, imm := i.setWidth 32 }
  | .kag d (.mul a imm) => some { kbase 0x03 with d := j5 d, a := j5 a, fn := 5, imm := imm }
  | .katom => some (kbase 0x04)
  | .kflag pkg a b imm => some { kbase 0x05 with a := j5 a, b := j5 b, fn := kfn (if pkg then 1 else 0), imm := imm }
  | .kadd d a b => some (klane 0x08 0 d a b 0)
  | .ksub d a b => some (klane 0x09 0 d a b 0)
  | .kmul d a b => some (klane 0x0A 0 d a b 0)
  | .kfma d a b c => some (klane 0x0B 0 d a b c)
  | .kmin d a b => some (klane 0x0C 0 d a b 0)
  | .kmax d a b => some (klane 0x0D 0 d a b 0)
  | .kabs d a => some { kbase 0x0E with d := d, a := a }
  | .kcmp c d a b => some (klane 0x10 c.code d a b 0)
  | .ksel d a b c => some { kbase 0x11 with d := d, a := a, b := b, c := c }
  | .kcvt d (.f32s32 a) => some { kbase 0x12 with d := d, a := a }
  | .kcvt d (.s32f32 a) => some { kbase 0x12 with d := d, a := a, fn := 1 }
  | .kcvt d (.s64lo a b) => some { kbase 0x12 with d := d, a := a, b := j5 b, fn := 2 }
  | .kcvt d (.s64hi a b) => some { kbase 0x12 with d := d, a := a, b := j5 b, fn := 3 }
  | .kcvt d (.f32j a) => some { kbase 0x12 with d := d, a := j5 a, fn := 4 }
  | .kcvt d (.b32j a) => some { kbase 0x12 with d := d, a := j5 a, fn := 5 }
  | .kqnt d a b => some { kbase 0x13 with d := d, a := a, b := j5 b }
  | .kiadd f d a b =>
    some { kbase 0x14 with d := d, a := a, b := b, fn := kfn (match f with | .d => 0 | .wlo => 1 | .whi => 2 | .w => 3) }
  | .kclip d a => some { kbase 0x15 with d := d, a := a }
  | .knf d a => some { kbase 0x16 with d := d, a := a }
  | .kred o a => some { kbase 0x18 with a := a, fn := kfn o.code }
  | .krcv o d => some { kbase 0x19 with d := d, fn := kfn o.code }
  | .kloop (.j a) => some { kbase 0x1C with a := j5 a }
  | .kloop (.imm v) => some { kbase 0x1C with lit := true, imm := v }
  | .kend => some (kbase 0x1D)
  | .khalt => some (kbase 0x1E)
  | _ => none

/-- The 64-bit word of a kettle instruction. -/
def kencode (i : Instr) : W64 := (toKFields i).elim 0 KFields.toWord

/-- Loop pairing of the load check (R110): every KEND closes an open KLOOP, no more than two levels, none left
open, and no KLOOP is followed directly by its KEND. -/
def kloopsOk : List Instr → Nat → Bool
  | [], n => n == 0
  | .kloop _ :: .kend :: _, _ => false
  | .kloop _ :: r, n => decide (n < 2) && kloopsOk r (n + 1)
  | .kend :: r, n => decide (0 < n) && kloopsOk r (n - 1)
  | _ :: r, n => kloopsOk r n

/-- The units in the order in which a word without a unit is tried. -/
def unitsTried : List UnitId := [.cc, .eng .vl, .eng .va, .eng .vs, .eng .mx, .eng .ax]

/-- The instruction that the decoder of an array cluster reads from granules, on the first unit the opcode is
legal on. -/
def decodeAny (ws : List W32) : Option Instr :=
  unitsTried.findSome? fun u =>
    match decode u ws with
    | .ok (i, _, _) => some i
    | .error _ => none

/-- The instruction read from a word of the opcode table: bits of the first granule first (R261), those above
`nbits` zero; a 64-bit word that no unit of an array cluster decodes is read as a kettle word. -/
def decodeTableWord (nbits w : Nat) : Option Instr :=
  let v : BitVec 96 := BitVec.ofNat 96 (w % 2 ^ nbits)
  (decodeAny [v.extractLsb' 0 32, v.extractLsb' 32 32, v.extractLsb' 64 32]).orElse fun _ =>
    if nbits ≤ 64 then kdecode (v.extractLsb' 0 64) else none

end Sys2Proof
end

