-- ==== Sys2Proof/Config.lean ====
section
/-! DEFINITION. The free values of the model: constants without a body, so that no proof can know a value of one.
Each is applied to the operands it may depend on, or to `State.seq`, a counter that a step advances. -/

namespace Sys2Proof.Config

/-- Which of several eligible writes a load returns (R140); log entry 5. -/
opaque loadChoice : Nat → Nat
/-- Whether a write held only in another L1 has been merged at its home when an atomic or strong store is
performed there (R82, R140); log entry 7. -/
opaque merged : Nat → Bool
/-- Whether an access to one line (the first) replaces another in an L1 (R69, R84); log entry 47. -/
opaque replaces : Nat → Nat → Bool
/-- Which of several differing translations that the caches may hold is used (R55, R67, R68); log entry 8. -/
opaque tlbChoice : Nat → Nat
/-- Whether the instruction cache still holds a line that has changed since (R278); log entry 17. -/
opaque icacheKeeps : Nat → Bool
/-- Result of an array read of a physical array: ADC code of one column (R410, Table 13-9); log entry 10. -/
opaque physCode : Nat → Int
/-- Level change of one pulse on a physical cell (R410); log entry 10. -/
opaque physStep : Nat → Int
/-- s_cell of a physical cell of a cluster's tile at row and column, in sixteenths (R388, R410); log entry 10. -/
opaque physSym : Nat → Nat → Nat → Nat → Int
/-- Sample of a checkpoint read of a physical cell (R410); log entry 10. -/
opaque physSample : Nat → Int
/-- Which of a route's live ports a flow leaves by (R468); log entry 94. -/
opaque flowPort : Nat → Nat
/-- The exponent code of a lag whose contributions carry differing codes, given by slot (R185, R186); log entry 95. -/
opaque sharedCode : List Nat → Nat
/-- Byte of a port's PCIe configuration space that the spec does not give (R458); log entry 96. -/
opaque cfgByte : Nat → Nat → Byte
/-- Word 0 of a pot descriptor that the home on another part holds (R173); log entry 41. -/
opaque homeShape : Nat → W64
/-- Bytes of a reduction whose staging area a program has changed (R170); log entry 42. -/
opaque stageByte : Nat → Byte
/-- A physical quantity that the environment sets: temperature, power, energy (R494, R495); log entry 18. -/
opaque sensor : Nat → W64
/-- Whether an image carries the vendor key's signature over the digest of its body, its security version, and its body (R476); log entry
14. -/
opaque imageSigned : List Byte → Bool
opaque imageVersion : List Byte → W64
opaque imageBody : List Byte → List Byte
/-- Base and length in HBM of the root patches that are offered at a boot (R476, R477); log entry 14. -/
opaque patches : Nat → List (Nat × Nat)
/-- Where an accepted policy image starts its cores (Table 18-1); log entry 109. -/
opaque imageEntry : List Byte → W64
/-- PC of a management core or the root core after what it has done (R490); log entry 109. -/
opaque corePc : Nat → W64
/-- Byte of the digest of the ROM (R477); log entry 14. -/
opaque romByte : Nat → Byte
/-- Fused security version (Table 16-5); log entry 14. -/
opaque fusedVersion : W64
/-- Byte of the alias public key, which the part's secret and M0 decide (R479); log entry 14. -/
opaque aliasByte : Nat → Nat → Byte
/-- Length and bytes of the vendor's certificate of the identity key, which the part's secret alone decides (R479); log entry 14. -/
opaque vendorLen : Nat
opaque vendorByte : Nat → Byte
/-- Byte of the alias key's certificate, which the part's secret and M0 decide (R479); log entry 14. -/
opaque aliasCertByte : Nat → Nat → Byte
/-- Byte of a signature of root firmware (R479); log entry 14. -/
opaque signByte : Nat → Nat → Byte
/-- Byte of an answer of root firmware that the spec does not lay out (R478); log entry 14. -/
opaque answerByte : Nat → Nat → Byte
/-- Bytes of the park area that a line parked regardless of the quota overwrites (R83, R492); log entry 47. -/
opaque parkByte : Nat → Byte
/-- Whether the reservation of a management core has lasted until its store-conditional (R167); log entry 15. -/
opaque reserved : Nat → Bool
/-- Whether the host offers FLIT mode at a speed below 64 GT/s (R458); log entry 18. -/
opaque flitOffered : Nat → Bool

end Sys2Proof.Config
end

