-- ==== Sys2Proof/Machine/Num.lean ====
section
/-! DEFINITION. Number formats and rounding (07_number_formats.md): exact values, decoding, one rounding under a
mode, narrowing with saturation and flushing, FP32 and BF16 arithmetic, and conversions. -/

namespace Sys2Proof.Machine

/-- An exact value: NaN, an infinity, or (-1)^neg × m × 2^e. With `st`, the magnitude lies strictly between
m × 2^e and (m + 1) × 2^e (a quotient, root or function value), and m then has enough bits for any rounding. -/
inductive FVal where
  | nan
  | inf (neg : Bool)
  | fin (neg : Bool) (m : Nat) (e : Int) (st : Bool)
deriving DecidableEq, Repr

/-- A zero of a sign. -/
def FVal.zero (neg : Bool) : FVal := .fin neg 0 0 false

/-- An integer as an exact value. -/
def FVal.ofInt (i : Int) : FVal := .fin (decide (i < 0)) i.natAbs 0 false

/-- i × 2^e as an exact value. -/
def FVal.scaled (i : Int) (e : Int) : FVal := .fin (decide (i < 0)) i.natAbs e false

def FVal.isNan : FVal → Bool
  | .nan => true | _ => false
def FVal.isInf : FVal → Bool
  | .inf _ => true | _ => false
/-- NaN or infinite. -/
def FVal.nonFinite : FVal → Bool
  | .fin .. => false | _ => true
def FVal.neg? : FVal → Bool
  | .nan => false | .inf n => n | .fin n _ _ _ => n
def FVal.isZero : FVal → Bool
  | .fin _ m _ st => m == 0 && !st | _ => false

/-- The value with its sign inverted. -/
def FVal.negate : FVal → FVal
  | .nan => .nan | .inf n => .inf (!n) | .fin n m e st => .fin (!n) m e st

/-- The value with its sign cleared. -/
def FVal.abs : FVal → FVal
  | .nan => .nan | .inf _ => .inf false | .fin _ m e st => .fin false m e st

/-- A floating-point format: precision with the implicit bit, exponent bias, signed zeros and negative values,
infinities, greatest finite value maxM × 2^maxE, and bits. -/
structure FFmt where
  p : Nat
  bias : Nat
  bits : Nat
  signed : Bool
  hasInf : Bool
  maxM : Nat
  maxE : Int
deriving DecidableEq, Repr

/-- FP32 (R198). -/
def fp32 : FFmt := ⟨24, 127, 32, true, true, 2 ^ 24 - 1, 104⟩
/-- BF16 (R198). -/
def bf16 : FFmt := ⟨8, 127, 16, true, true, 2 ^ 8 - 1, 120⟩

/-- The formats of Table 7-1. -/
inductive NumFmt where
  | fl (f : FFmt)
  | b8 (p : Nat) (sgn inf : Bool)
  | int (bits : Nat)
  | i24
deriving DecidableEq, Repr

/-- The valid format codes (R31, R196). -/
def NumFmt.ofCode (c : BitVec 8) : Option NumFmt :=
  let fam := (c.extractLsb' 4 4).toNat
  let p := (c.extractLsb' 1 3).toNat
  let i := c.getLsbD 0
  if fam = 6 ∨ fam = 7 then (if p = 0 then none else some (.b8 p (fam == 6) i))
  else if c.extractLsb' 0 4 ≠ 0 then none
  else match fam with
    | 0 => some (.fl fp32)
    | 1 => some (.fl bf16)
    | 2 => some (.int 8)
    | 3 => some (.int 16)
    | 4 => some (.int 32)
    | 5 => some (.int 64)
    | 8 => some .i24
    | _ => none

/-- Bytes of an element (R32). -/
def NumFmt.esize : NumFmt → Nat
  | .fl f => f.bits / 8
  | .b8 .. => 1
  | .int n => n / 8
  | .i24 => 4

/-- Decode an FP32 or BF16 pattern with p - 1 trailing bits (R198). -/
def decodeIeee (p : Nat) (bits : Nat) : FVal :=
  let t := bits % 2 ^ (p - 1)
  let ex := bits / 2 ^ (p - 1) % 256
  let neg := decide (1 ≤ bits / 2 ^ (p + 7) % 2)
  if ex = 255 then (if t = 0 then .inf neg else .nan)
  else if ex = 0 then .fin neg t (-126 - ((p : Int) - 1)) false
  else .fin neg (2 ^ (p - 1) + t) ((ex : Int) - 127 - ((p : Int) - 1)) false

def f32 (w : W32) : FVal := decodeIeee 24 w.toNat
def b16 (w : BitVec 16) : FVal := decodeIeee 8 w.toNat

/-- Exponent width of a binary8 format (R202). -/
def b8w (p : Nat) (sgn : Bool) : Nat := if sgn then 8 - p else 9 - p

/-- Decode of a binary8 code (R202). -/
def decode8 (c p : Nat) (sgn inf : Bool) : FVal :=
  let w := b8w p sgn
  let bias : Int := 2 ^ (w - 1)
  let t := if 2 ≤ p then c % 2 ^ (p - 1) else 0
  let ex := c / 2 ^ (p - 1) % 2 ^ w
  let neg := sgn && decide (128 ≤ c)
  if sgn && c == 0x80 then .nan
  else if sgn && inf && c == 0x7F then .inf false
  else if sgn && inf && c == 0xFF then .inf true
  else if !sgn && c == 0xFF then .nan
  else if !sgn && inf && c == 0xFE then .inf false
  else if ex = 0 then .fin neg t (1 - bias - ((p : Int) - 1)) false
  else .fin neg (2 ^ (p - 1) + t) ((ex : Int) - bias - ((p : Int) - 1)) false

/-- Code of the greatest finite value of a binary8 format (R203). -/
def b8max (sgn inf : Bool) : Nat := if sgn then (if inf then 0x7E else 0x7F) else (if inf then 0xFD else 0xFE)

/-- The floating-point description of a binary8 format. -/
def b8fmt (p : Nat) (sgn inf : Bool) : FFmt :=
  match decode8 (b8max sgn inf) p sgn inf with
  | .fin _ m e _ => ⟨p, 2 ^ (b8w p sgn - 1), 8, sgn, inf, m, e⟩
  | _ => ⟨p, 2 ^ (b8w p sgn - 1), 8, sgn, inf, 0, 0⟩

/-- The value of an element of any format (R198 to R202); an I24 element is read with a block exponent of 0 and
saturated (R200). -/
def decodeElem (f : NumFmt) (bits : Nat) : FVal :=
  match f with
  | .fl g => decodeIeee g.p bits
  | .b8 p s i => decode8 bits p s i
  | .int n =>
    let v : Int := if 2 ^ (n - 1) ≤ bits % 2 ^ n then (bits % 2 ^ n : Nat) - (2 ^ n : Nat) else (bits % 2 ^ n : Nat)
    .ofInt v
  | .i24 => .ofInt (max (-(2 ^ 23 - 1)) (min ((BitVec.ofNat 32 bits).toInt) (2 ^ 23 - 1)))

/-- Bits of a natural number. -/
def bitLen (n : Nat) : Nat := if n = 0 then 0 else Nat.log2 n + 1

/-- Round a magnitude (m, e, st) of sign `neg` to a multiple of 2^q under a mode; `r` is the stochastic hash
(R207, R208). A tie under RNE whose neighbours both have a significand of one bit goes to the even multiple of 2^q, the larger magnitude (DESIGN CHOICE,
log entry 121). -/
def roundAt (md : RMode) (r : W32) (neg : Bool) (m : Nat) (e : Int) (st : Bool) (q : Int) : Nat :=
  if q ≤ e then
    let v := m * 2 ^ (e - q).toNat
    if !st then v
    else match md with
      | .rne | .rtz => v
      | .rup => if neg then v else v + 1
      | .rdn => if neg then v + 1 else v
      | .sr => if neg && decide (2 ^ 32 - 1 ≤ r.toNat) then v + 1 else v
  else
    let d := (q - e).toNat
    let v := m / 2 ^ d
    let rem := m % 2 ^ d
    if rem = 0 && !st then v
    else match md with
      | .rtz => v
      | .rup => if neg then v else v + 1
      | .rdn => if neg then v + 1 else v
      | .rne =>
        let half := 2 ^ (d - 1)
        if half < rem || (rem == half && (st || v % 2 == 1)) then v + 1 else v
      | .sr =>
        if neg then
          (if decide (r.toNat < (2 ^ d - rem - (if st then 1 else 0)) * 2 ^ 32 / 2 ^ d) then v else v + 1)
        else (if decide (r.toNat < rem * 2 ^ 32 / 2 ^ d) then v + 1 else v)

/-- The quantum of a magnitude in a format: exponent of the unit in the last place. -/
def quantum (f : FFmt) (m : Nat) (e : Int) : Int :=
  max (e + bitLen m - f.p) (1 - f.bias - (f.p - 1))

/-- a × 2^x compared with b × 2^y. -/
def cmpMag (a : Nat) (x : Int) (b : Nat) (y : Int) : Ordering :=
  let lo := min x y
  compare (a * 2 ^ (x - lo).toNat) (b * 2 ^ (y - lo).toNat)

/-- The sign bit of a format, in place. -/
def FFmt.sign (f : FFmt) (neg : Bool) : Nat := if neg && f.signed then 2 ^ (f.bits - 1) else 0

/-- Code of the canonical NaN (R198, R211). -/
def FFmt.nan (f : FFmt) : Nat :=
  if f.bits = 32 then 0x7FC00000 else if f.bits = 16 then 0x7FC0 else if f.signed then 0x80 else 0xFF

/-- Code of an infinity. -/
def FFmt.infinity (f : FFmt) (neg : Bool) : Nat :=
  if f.bits = 32 then f.sign neg + 0x7F800000 else if f.bits = 16 then f.sign neg + 0x7F80
  else if f.signed then (if neg then 0xFF else 0x7F) else 0xFE

/-- Code of a zero: binary8 has one zero. -/
def FFmt.zero (f : FFmt) (neg : Bool) : Nat := if f.bits = 8 then 0 else f.sign neg

/-- Code of v × 2^q, a value of the format's grid. -/
def FFmt.code (f : FFmt) (neg : Bool) (v : Nat) (q : Int) : Nat :=
  let (v, q) := if v = 2 ^ f.p then (2 ^ (f.p - 1), q + 1) else (v, q)
  if v = 0 then f.zero neg
  else if v < 2 ^ (f.p - 1) then f.sign neg + v
  else f.sign neg + ((q + (f.p - 1) + f.bias).toNat * 2 ^ (f.p - 1)) + (v - 2 ^ (f.p - 1))

/-- Code of the greatest finite value. -/
def FFmt.maxCode (f : FFmt) (neg : Bool) : Nat :=
  let q := max (f.maxE + bitLen f.maxM - f.p) (1 - f.bias - (f.p - 1))
  f.code neg (f.maxM * 2 ^ (f.maxE - q).toNat) q

/-- Overflow results (Table 7-8). -/
def overRes (f : FFmt) (md : RMode) (sat neg : Bool) : Nat :=
  let infNan := if f.hasInf then f.infinity neg else f.nan
  if sat then f.maxCode neg
  else match md with
    | .rne | .sr => infNan
    | .rtz => f.maxCode neg
    | .rup => if neg then f.maxCode neg else infNan
    | .rdn => if neg then infNan else f.maxCode neg

/-- Narrow(x, f, m, sat, fz) of R211: the code, and whether the result counts as clamped. -/
def narrow (f : FFmt) (md : RMode) (r : W32) (sat fz : Bool) (x : FVal) : Nat × Bool :=
  match x with
  | .nan => (f.nan, false)
  | .inf neg =>
    if !f.signed && neg then (if sat then (0, true) else (f.nan, false))
    else if f.hasInf then (f.infinity neg, false)
    else if sat then (f.maxCode neg, true) else (f.nan, false)
  | .fin neg m e st =>
    if m = 0 && !st then (f.zero (neg && f.signed), false)
    else
      let q := quantum f m e
      let v := roundAt md r neg m e st q
      if !f.signed && neg then
        (if v = 0 then (0, false) else if sat then (0, true) else (f.nan, false))
      else if cmpMag v q f.maxM f.maxE = .gt then (overRes f md sat neg, sat)
      else if fz && decide (v < 2 ^ (f.p - 1)) then (f.zero neg, false)
      else (f.code neg v q, false)

/-- Round to FP32, overflow by the sat = 0 columns (R212, R215). -/
def toF32 (md : RMode) (r : W32) (fz : Bool) (x : FVal) : W32 := BitVec.ofNat 32 (narrow fp32 md r false fz x).1
def toB16 (md : RMode) (r : W32) (fz : Bool) (x : FVal) : BitVec 16 :=
  BitVec.ofNat 16 (narrow bf16 md r false fz x).1

/-- Round(x, FP32, RNE) as an exact value. -/
def r32 (x : FVal) : FVal := f32 (toF32 .rne 0 false x)

/-- Round(x, INT, m) of a finite value; an infinity or NaN is 0 here and treated by the caller. -/
def roundInt (md : RMode) (r : W32) (x : FVal) : Int :=
  match x with
  | .fin neg m e st =>
    let v := roundAt md r neg m e st 0
    if neg then -(v : Int) else v
  | _ => 0

/-- Sat(x, lo, hi) of Table 0-6. -/
def satInt (x lo hi : Int) : Int := if x < lo then lo else if hi < x then hi else x

/-- Conversion to an integer of n bits (R214): value, clamped, non-finite. -/
def toInt (n : Nat) (md : RMode) (r : W32) (x : FVal) : Int × Bool × Bool :=
  let lo : Int := -(2 ^ (n - 1) : Nat)
  let hi : Int := (2 ^ (n - 1) : Nat) - 1
  match x with
  | .nan => (0, false, true)
  | .inf neg => (if neg then lo else hi, true, false)
  | .fin .. =>
    let v := roundInt md r x
    (satInt v lo hi, decide (v < lo ∨ hi < v), false)

/-! ### Exact arithmetic (R215) -/

/-- Signed magnitude at an exponent not above e. -/
def shifted (neg : Bool) (m : Nat) (e lo : Int) : Int :=
  let v : Int := (m * 2 ^ (e - lo).toNat : Nat)
  if neg then -v else v

/-- The sign of an exact zero sum (R207). -/
def zeroSum (md : RMode) (allNeg : Bool) : Bool := allNeg || md == .rdn

/-- Exact sum of a list of values (R215, R216): NaN for a NaN or opposite infinities. A sum of three or more operands that are all -0 is -0, as that of two
is (R207; DESIGN CHOICE, log entry 122). -/
def sumExact (md : RMode) (l : List FVal) : FVal :=
  if l.any FVal.isNan then .nan
  else
    let pinf := l.any fun x => x.isInf && !x.neg?
    let ninf := l.any fun x => x.isInf && x.neg?
    if pinf && ninf then .nan
    else if pinf then .inf false
    else if ninf then .inf true
    else
      let lo := l.foldl (fun a x => match x with | .fin _ m e _ => if m = 0 then a else min a e | _ => a) 0
      let s := l.foldl (fun (a : Int) x => match x with
        | .fin neg m e _ => if m = 0 then a else a + shifted neg m e lo | _ => a) 0
      if s = 0 then .zero (zeroSum md (l.all FVal.neg? && l.all FVal.isZero && !l.isEmpty))
      else .fin (decide (s < 0)) s.natAbs lo false

def addX (md : RMode) (a b : FVal) : FVal := sumExact md [a, b]

/-- Exact product; infinity times zero is NaN. -/
def mulX (a b : FVal) : FVal :=
  match a, b with
  | .nan, _ | _, .nan => .nan
  | .inf s, .inf t => .inf (s != t)
  | .inf s, .fin t m _ _ => if m = 0 then .nan else .inf (s != t)
  | .fin s m _ _, .inf t => if m = 0 then .nan else .inf (s != t)
  | .fin s m e _, .fin t n f _ => .fin (s != t) (m * n) (e + f) false

/-- Exact a × b + c. -/
def fmaX (md : RMode) (a b c : FVal) : FVal := addX md (mulX a b) c

/-- Quotient with 70 bits and the rest kept as `st` (R296). -/
def divX (a b : FVal) : FVal :=
  match a, b with
  | .nan, _ | _, .nan => .nan
  | .inf _, .inf _ => .nan
  | .inf s, .fin t _ _ _ => .inf (s != t)
  | .fin s _ _ _, .inf t => .zero (s != t)
  | .fin s m e _, .fin t n f _ =>
    if n = 0 then (if m = 0 then .nan else .inf (s != t))
    else if m = 0 then .zero (s != t)
    else
      let k := 70 + bitLen n
      let num := m * 2 ^ k
      .fin (s != t) (num / n) (e - f - k) (num % n != 0)

/-- Integer square root, bit by bit from bit k - 1. -/
def isqrtF : Nat → Nat → Nat → Nat
  | 0, _, r => r
  | k + 1, n, r => if (r + 2 ^ k) * (r + 2 ^ k) ≤ n then isqrtF k n (r + 2 ^ k) else isqrtF k n r
def isqrt (n : Nat) : Nat := isqrtF (bitLen n / 2 + 1) n 0

/-- Square root with 70 bits and the rest kept as `st` (R296). -/
def sqrtX (a : FVal) : FVal :=
  match a with
  | .nan => .nan
  | .inf s => if s then .nan else .inf false
  | .fin s m e _ =>
    if m = 0 then .zero s
    else if s then .nan
    else
      let k : Int := if (e % 2 == 0) then 140 else 141
      let v := m * 2 ^ k.toNat
      let r := isqrt v
      .fin false r ((e - k) / 2) (r * r != v)

/-- Order of two values that are not NaN, −0 equal to +0. -/
def cmpX (a b : FVal) : Ordering :=
  match a, b with
  | .inf s, .inf t => if s == t then .eq else if s then .lt else .gt
  | .inf s, _ => if s then .lt else .gt
  | _, .inf t => if t then .gt else .lt
  | .fin s m e _, .fin t n f _ =>
    let lo := min e f
    compare (shifted s m e lo) (shifted t n f lo)
  | _, _ => .eq

/-- Order with −0 below +0 (R215). -/
def cmpZ (a b : FVal) : Ordering :=
  match cmpX a b with
  | .eq => if a.neg? == b.neg? then .eq else if a.neg? then .lt else .gt
  | o => o

/-- The KMAX and KMIN rules (R117, R215): the chosen operand; NaN where either is NaN. -/
def maxX (a b : FVal) : FVal := if a.isNan || b.isNan then .nan else if cmpZ a b = .lt then b else a
def minX (a b : FVal) : FVal := if a.isNan || b.isNan then .nan else if cmpZ a b = .gt then b else a

/-- FCMP, VCMP and KCMP conditions (R297). -/
def fcond (c : FCond) (a b : FVal) : Bool :=
  let un := a.isNan || b.isNan
  match c with
  | .eq => !un && cmpX a b == .eq
  | .ne => un || cmpX a b != .eq
  | .lt => !un && cmpX a b == .lt
  | .le => !un && cmpX a b != .gt
  | .un => un

/-- Stochastic rounding hash (R208). -/
def mix (z : W32) : W32 :=
  let z := z ^^^ (z >>> 16)
  let z := z * 0x7FEB352D
  let z := z ^^^ (z >>> 15)
  let z := z * 0x846CA68B
  z ^^^ (z >>> 16)
def srHash (seed : W32) (ctr : W64) (idx : W32) : W32 :=
  let z := mix (seed ^^^ ctr.extractLsb' 0 32)
  let z := mix (z ^^^ ctr.extractLsb' 32 32)
  mix (z ^^^ idx)

/-- Block exponent code of values (R201). -/
def blockCode (l : List FVal) : Nat :=
  if l.any FVal.nonFinite then 0xFF
  else
    let e? := l.foldl (fun (a : Option Int) x => match x with
      | .fin _ m e _ => if m = 0 then a else
          let t := e + bitLen m
          some (match a with | none => t | some b => max b t)
      | _ => a) none
    match e? with
    | none => 0
    | some e => (satInt (127 + e) 0 254).toNat

/-- I24 quantisation of one element against a code below 0xFF (R119): value, clamped, non-finite. -/
def quantI24 (c : Nat) (x : FVal) : Int × Bool × Bool :=
  let hi : Int := 2 ^ 23 - 1
  match x with
  | .fin neg m e _ =>
    let v := roundInt .rne 0 (.fin neg m (e + 23 - ((c : Int) - 127)) false)
    (satInt v (-hi) hi, decide (hi < v ∨ v < -hi), false)
  | _ => (0, false, true)

/-- I24 element as read (R200): value and whether it counts as clamped. -/
def readI24 (w : W32) : Int × Bool :=
  let hi : Int := 2 ^ 23 - 1
  (satInt w.toInt (-hi) hi, decide (hi < w.toInt ∨ w.toInt < -hi))

/-- A scale byte: positive or zero value, or NaN (R204, R205). -/
def scaleVal (e8 : Bool) (c : Nat) : FVal :=
  if e8 then (if c = 0xFF then .nan else .fin false 1 ((c : Int) - 127) false)
  else if 128 ≤ c then .nan else decode8 c 4 true false

/-- An element times its scale (R206, Table 7-4). -/
def scaledElem (x s : FVal) : FVal :=
  match s with
  | .fin _ m _ _ =>
    if m = 0 then (match x with | .fin neg k _ _ => if k = 0 then .zero false else .zero neg | _ => .nan)
    else mulX x s
  | _ => .nan

end Sys2Proof.Machine
end

