-- ==== Sys2Proof/Machine/SMap.lean ====
section
/-! DEFINITION. Sparse sorted maps: lists of (key, value) pairs with strictly rising keys. Memory, register files
and tables are such lists; what an unlisted key holds is said where the map is read. -/

namespace Sys2Proof

/-- A sparse map from numbers: pairs with strictly rising keys. -/
abbrev SMap (α : Type) := List (Nat × α)

namespace Machine

/-- The entry at a key, if listed. -/
def smFind {α : Type} : SMap α → Nat → Option α
  | [], _ => none
  | (k, v) :: r, n => if n < k then none else if n = k then some v else smFind r n

/-- The entry at a key, or the default of an unlisted key. -/
def smGet {α : Type} (d : α) (m : SMap α) (n : Nat) : α := (smFind m n).getD d

/-- Set the entry at a key. -/
def smSet {α : Type} : SMap α → Nat → α → SMap α
  | [], n, w => [(n, w)]
  | (k, v) :: r, n, w =>
    if n < k then (n, w) :: (k, v) :: r
    else if n = k then (n, w) :: r
    else (k, v) :: smSet r n w

/-- A map without its leading entries up to a key. -/
def smAfter {α : Type} (n : Nat) (m : SMap α) : SMap α := m.dropWhile fun p => decide (p.1 ≤ n)

/-- Remove the entry at a key; no entry that stood behind it out of order comes to light. -/
def smErase {α : Type} : SMap α → Nat → SMap α
  | [], _ => []
  | (k, v) :: r, n => if n < k then (k, v) :: r else if n = k then smAfter n r else (k, v) :: smErase r n

/-- Set the entry at a key in a map whose unlisted keys hold `d`: writing `d` removes the entry. -/
def smPut {α : Type} [DecidableEq α] (d : α) (m : SMap α) (n : Nat) (w : α) : SMap α :=
  if w = d then smErase m n else smSet m n w

/-- Update a run of consecutive keys in one pass: the entry at key n + i becomes `f` of the entry there and of
the i-th item. The first argument bounds the number of steps. -/
def smRunF {α β : Type} (f : Option α → β → Option α) : Nat → SMap α → Nat → List β → SMap α
  | 0, m, _, _ => m
  | _ + 1, m, _, [] => m
  | g + 1, [], n, w :: ws =>
    match f none w with
    | some v => (n, v) :: smRunF f g [] (n + 1) ws
    | none => smRunF f g [] (n + 1) ws
  | g + 1, (k, v) :: r, n, w :: ws =>
    if n < k then
      match f none w with
      | some u => (n, u) :: smRunF f g ((k, v) :: r) (n + 1) ws
      | none => smRunF f g ((k, v) :: r) (n + 1) ws
    else if n = k then
      match f (some v) w with
      | some u => (n, u) :: smRunF f g r (n + 1) ws
      | none => smRunF f g (smAfter n r) (n + 1) ws
    else (k, v) :: smRunF f g r n (w :: ws)

/-- Update a run of consecutive keys. -/
def smRun {α β : Type} (f : Option α → β → Option α) (m : SMap α) (n : Nat) (ws : List β) : SMap α :=
  smRunF f (m.length + ws.length + 1) m n ws

/-- Entries of a run of keys, in one pass; `d` where a key is not listed. -/
def smSlice {α : Type} (d : α) (m : SMap α) (n len : Nat) : List α :=
  go len m n
where
  go : Nat → SMap α → Nat → List α
  | 0, _, _ => []
  | l + 1, m, k =>
    match m.dropWhile fun p => decide (p.1 < k) with
    | [] => d :: go l [] (k + 1)
    | (j, v) :: r => if j = k then v :: go l r (k + 1) else d :: go l ((j, v) :: r) (k + 1)

/-- The entries of a map, each with the value that another map holds at its key; both are in order. -/
def smJoin {α β : Type} (d : β) : SMap α → SMap β → List (Nat × α × β)
  | [], _ => []
  | (k, a) :: r, m =>
    let m := m.dropWhile fun p => decide (p.1 < k)
    (k, a, match m with | (j, b) :: _ => (if j = k then b else d) | [] => d) :: smJoin d r m

/-- Set the entries at rising keys, in one pass. -/
def smPutAll {α : Type} : SMap α → SMap α → SMap α
  | [], m => m
  | (k, a) :: r, m =>
    m.takeWhile (fun p => decide (p.1 < k)) ++
      (k, a) :: smPutAll r ((m.dropWhile fun p => decide (p.1 < k)).dropWhile fun p => p.1 == k)

/-- The keys rise strictly from above `lo`. -/
def smSorted {α : Type} : Nat → SMap α → Bool
  | _, [] => true
  | lo, (k, _) :: r => decide (lo ≤ k) && smSorted (k + 1) r

end Machine
end Sys2Proof
end

