-- ==== Sys2Proof/Machine/State.lean ====
section
/-! DEFINITION. The state of the FL880 as plain data, the reasons a step can stop, and the state after reset. -/

namespace Sys2Proof.Machine

/-- Reasons for a fault of the machine as a whole. The part's own faults are traps and records in `State`. -/
inductive Fault where
  /-- Raised by `step` when the agenda names a unit that the part does not have (R1). Safe: nothing is claimed
  about a unit that does not exist. -/
  | noSuchUnit
deriving DecidableEq, Repr

/-- Reasons for a refusal. -/
inductive Refusal where
  /-- Raised by an arm of `exec` whose instruction has no meaning yet. Safe. -/
  | notModelled (mnemonic : String)
  /-- Raised by a meaning when the acting agent in `State.cur` cannot execute the instruction (R272 makes it
  illegal there, and `step` never reaches it), or is a kettle that runs no command. Safe. -/
  | wrongUnit
deriving DecidableEq, Repr

/-- Agents of the memory model (R7), with the fabric ingress ports and the dispatch hardware, which also access
memory. Units of an array cluster are 0 CC, 1 VL, 2 VA, 3 VS, 4 MX, 5 AX, 6 CP, 7 NM, 8 POT; n is 64 × die +
index. -/
inductive Agent where
  | ac (n : Nat) (u : Nat)
  | pot (d : Nat)
  | kettle (q : Nat)
  | mcore (d : Nat)
  | root
  | host (p : Nat)
  | ingress (port : Nat)
  | disp (d : Nat)
deriving DecidableEq, Repr

/-- What acts in a step: the clock, the background hardware, a control core, an engine, a kettle, or an event of the
opcode table. -/
inductive Actor where
  | tick
  | hw
  | cc (n : Nat)
  | eng (n : Nat) (e : Eid)
  | kettle (q : Nat)
  | event (i : Instr)
deriving DecidableEq, Repr

/-! ### Memory -/

/-- Where a write has been performed (Table 5-2): the home of the line, or the L1 of an array cluster (the slice
of a fused L1), named by the cluster that owns the slice. -/
inductive Place where
  | home
  | l1 (n : Nat)
deriving DecidableEq, Repr

/-- The operation that a write belongs to (R155, R164): cluster, counter of Table 5-4 (8 for none) and number on it, and the
launch whose task it is part of (its instance plus one; 0 for none). -/
structure OpTag where
  ac : Nat
  ctx : Nat
  num : Nat
  launch : Nat
deriving DecidableEq, Repr

/-- One write of a location in its coherence order (R139): its number, its byte, the agent that made it, the places where it
has been performed, each with the number of the newest write at that moment, the releases it has had (R141, R143), whether it is
a strong store or of an atomic (R150), and its operation. -/
structure Version where
  id : Nat
  byte : Byte
  by' : Option Agent
  places : List (Place × Nat)
  rels : List (Agent × Scope)
  strong : Bool
  tag : OpTag
deriving DecidableEq, Repr

/-- One store of an agent that is not released (R15, R145): canonical address, bytes, whether its line may
lie in the L1 of its cluster (ATTR 00, Table 5-2; of a host window only as R463 says), the VA it was translated from (2^55 for
none), and its operation. -/
structure PWrite where
  pa : Nat
  bytes : List Byte
  l1 : Bool
  va : Nat
  tag : OpTag
deriving DecidableEq, Repr

/-- What an agent's program order and view hold of memory: stores not released (oldest first), per location the
newest write in its view (R141, R142) and the newest write an earlier load returned (R140 (d)), and the number of the newest write
at the last instant that none of its later accesses precedes (R142, R150). -/
structure AgentMem where
  pend : List PWrite
  view : SMap Nat
  seen : SMap Nat
  since : Nat
deriving DecidableEq, Repr

/-- The newest write at two instants, which bound how long a performed write may stay unseen by an agent that polls (R168): the cycle of the later
instant, and the number of the newest write at the earlier and at the later. -/
structure Mark where
  since : Nat
  old : Nat
  new : Nat
deriving DecidableEq, Repr

/-- A parked line (R82): die and line of its home, the cluster and unit whose bytes it holds, and its entry of the park area
(R83). -/
structure Parked where
  die : Nat
  line : Nat
  ac : Nat
  unit : Nat
  slot : Nat
deriving DecidableEq, Repr

/-! ### Array clusters -/

/-- An entry of a command queue (Table 8-3) with its timeline number, 0 for an operand entry. -/
structure QEntry where
  kind : Nat
  gen : Bool
  gneg : Bool
  gslot : BitVec 5
  nops : Nat
  offset : BitVec 32
  ops : List W64
  num : Nat
deriving DecidableEq, Repr

/-- A fault or event that reaches the CC from outside its instructions: cause, info words 0 to 2 and 3 (the address of the
instruction). -/
structure Pending where
  src : Nat
  cause : Nat
  i0 : W64
  i1 : W64
  i2 : W64
  i3 : W64
  defer : Bool
deriving DecidableEq, Repr

/-- An engine of an array cluster (R220, R267, R355, Table 15-6). -/
structure Eng where
  /-- Table 8-1 -/
  st : Nat
  upc : W64
  /-- x0 to x15, and lc0, ls0, le0, lc1, ls1, le1 as 16 to 21 -/
  x : SMap W64
  cb : SMap W64
  live0s : W64
  live0e : W64
  live1s : W64
  live1e : W64
  act0 : Bool
  act1 : Bool
  q : List QEntry
  /-- timeline number of the running entry; 0 for a routine started at its entry offset -/
  num : Nat
  /-- tokens the instruction at the micro-PC has taken (ETOKN) -/
  etok : Nat
  giveE : Nat
  giveN : Nat
  fcause : Nat
  finfo : W64
  finfo1 : W64
  deferred : Bool
  fcycle : Nat
  /-- the fault of a stopped engine has not been taken as a trap yet (R441) -/
  untold : Bool
  /-- while a handler runs: number of the entry that ran at trap entry, and of those that stood in the queue; cycle of the fault that
  the frame holds, and whether it is still to be taken (R441, R447) -/
  held : Nat
  heldQ : List Nat
  heldF : Nat
  heldU : Bool
  /-- the first cycle in which the engine may issue, after a FORK or an RFT (R306, R446) -/
  startAt : Nat
  /-- replay token the engine waits on (R58) -/
  xl : Option Nat
  /-- the instruction the engine waits in, if any, and the cycle in which it last found the slot of its ring taken (R91) -/
  wait : Option Instr
  waitAt : Option Nat
deriving DecidableEq, Repr

/-- A wait of the CC: the instruction, its cycle of issue, counts it noted at its issue, and whether it only waits for the ports to
confirm a release that it has made, so that no trap abandons it (R166, R328, R350). -/
structure CCWait where
  instr : Instr
  t0 : Nat
  notes : List Nat
  past : Bool
deriving DecidableEq, Repr

/-- A carve in progress (R79): granules before and after, its end cycle, and the split of a carve that follows
(R81). -/
structure Carve where
  old : Nat
  new : Nat
  stop : Nat
  again : Option Nat
deriving DecidableEq, Repr

/-- A task or resumed continuation (R218): launch instance, die and index of its launch table entry, the record's
words as dispatch read them, linear index, epoch, how it started, and the terms of the decision (Table 14-3). -/
structure Task where
  launch : Nat
  die : Nat
  ent : Nat
  lrec : List W64
  lin : Nat
  epoch : Nat
  resumed : Bool
  prio : Nat
  bindi : Nat
deriving DecidableEq, Repr

/-- The control core and its system registers. -/
structure CC where
  sreg : SMap W64
  /-- p1 to p15; bit 0 is not used -/
  preg : BitVec 16
  /-- guard slots that are not empty -/
  greg : SMap Bool
  pc : W64
  /-- stored system registers by number; unlisted numbers hold their reset values -/
  sys : SMap W64
  h : Bool
  ie : Bool
  evt : Bool
  la0 : Bool
  la1 : Bool
  resumed : Bool
  mint : Option W64
  wait : Option CCWait
  xl : Option Nat
  /-- the wait ended by an abort: the trap it delivers (R62) -/
  xlAbort : Option Pending
  /-- a trap entry that is not complete, with its stop cycle: it waits for AX's commands to fit the power cap (R3, R397), or, once every
  engine has settled, for its save area to translate (R450) -/
  entry : Option (Pending × Nat × Bool)
  carve : Option Carve
  task : Option Task
  /-- saving for pre-emption (Table 14-3, ACST 3) -/
  saving : Bool
  /-- pot faults (R176), integrity traps (R457) and engine UNCORR reports waiting, oldest first -/
  pend : List Pending
  /-- lines held by the instruction cache (R278), by PA / 128 -/
  icache : SMap (BitVec 1024)
deriving DecidableEq, Repr

/-- A push that waits for room (R436): the unit that pushes (0 CC, else an engine code), queue and pool entries. -/
structure PushWait where
  who : Nat
  queue : Nat
  need : Nat
deriving DecidableEq, Repr

/-- Queues between the units of a cluster: token FIFOs by 5 × (producer - 1) + (consumer - 1) (R231), the return
queue (R230), waiting pushes (R436), timeline counters by context (R153) and completed numbers not yet shown. -/
structure Links where
  tok : SMap Nat
  retq : List (Nat × W64)
  pushWait : List PushWait
  tlIssue : SMap Nat
  tlShown : SMap Nat
  tlDone : List (Nat × Nat)
  /-- guard writes of the current cycle: source (engine codes 1 to 5, CC 6), slot, value (R229) -/
  gw : List (Nat × Nat × Option Bool)
  /-- copies on TL.CP whose destination lies across the fabric (Table 5-4) -/
  farCp : List Nat
deriving DecidableEq, Repr

/-- A VA result in flight (R366, Table 15-7): cycle of landing, squashable, kind, destination, second register of
a pair is the destination's successor, engine code of its give, counter amounts, byte-pair mask and data of each register, the
address of its instruction, and an uncorrectable error in its data (source and info, R457). -/
structure Flight where
  land : Nat
  sq : Bool
  kind : Nat
  dest : Nat
  give : Nat
  dnf : Nat
  dcl : Nat
  wmask : BitVec 1024
  data : List VWord
  /-- destination of a KIND 3 result -/
  xval : W64
  pc : W64
  bad : Option (Nat × W64)
deriving DecidableEq, Repr

/-- Vector registers and masks (R361, R363), results in flight and the last cycle VA used (plus one). -/
structure Vec where
  v : SMap VWord
  m : SMap MWord
  flight : List Flight
  issued : Nat
deriving DecidableEq, Repr

/-- An entry of the MX tile queue (R411, Table 13-15): kind 0 tile, 1 zero, 2 drain, 3 mode change, the shadow
registers of its snapshot, accumulator, options, mode code and timeline number. -/
structure TQEntry where
  kind : Nat
  sh : SMap W64
  acc : Nat
  t : Bool
  bf : Bool
  mode : Nat
  num : Nat
deriving DecidableEq, Repr

/-- What the tile command or drain at the head of the tile queue holds once it has begun (R414, R415): its format word, the two
TDT entries it read, MSRCTR at its start, whether it has started (for a drain, whether its writes are performed), whether its
duplicated column has mismatched (R417), and the 64-byte granules of scales that it has read, by address over 64 (R36). -/
structure TileRun where
  fw : W64
  tdtA : List W64
  tdtB : List W64
  ctr : W64
  go : Bool
  dup : Bool
  scales : SMap (List Byte)
deriving DecidableEq, Repr

/-- The matrix engine (R411 to R420). Accumulator element (a, i, j) has key 4096 a + 64 i + j. -/
structure MX where
  acc : SMap W32
  sh : SMap W64
  tq : List TQEntry
  fq : List W64
  run : Option TileRun
  rowprog : Nat
  mode : Nat
  resev : W64
  dupev : W64
  chkrot : BitVec 6
  nfops : BitVec 32
  saved : Bool
  /-- TAKE of the entry at the head already performed -/
  taken : Bool
  /-- replay token that a tile command waits on -/
  xl : Option Nat
  /-- the fault that stopped MX is of a tile-queue entry, not of a routine -/
  tstop : Bool
  /-- addresses of the instructions that pushed the entries, by number (R440) -/
  pcs : SMap W64
  /-- the entries that stood in the tile queue at trap entry hold (Table 15-4) -/
  hold : Bool
deriving DecidableEq, Repr

/-- A tile of the array engine (R388 to R394): registers by number, symmetry-point registers, generators that have
left their seeded value, REF levels and s_cell by 1024 r + c, the levels of the physical cells, and of each the cycle up to which the drift of its fast
and slow level has been taken, at the earliest that of its last pulse or program (R410); the cycle of the command that changes cells; and the cells that
a stopped APROG may still miss by more than a level (R397, R410). -/
structure Tile where
  reg : SMap W64
  spr : SMap Int
  rowGen : SMap W32
  colGen : SMap W32
  lf : SMap Int
  ls : SMap Int
  sc : SMap Int
  plf : SMap Int
  pls : SMap Int
  fastAt : SMap Nat
  slowAt : SMap Nat
  now : Nat
  slack : Nat
deriving DecidableEq, Repr

/-- A row that an APROG has still to program (R407): the row, the targets of its columns, the store of its residual. -/
structure ProgRow where
  row : Nat
  targets : List Int
  resid : PWrite
deriving DecidableEq, Repr

/-- An AX command in flight (R395, R396): its tile, scratch writes still to perform, whether it waits on the power
cap, the engine code of its give, its address, whether it has completed; for an APROG its form, window and rows left; registers 16 to 21 and
the others, live levels and tokens taken of AX at its issue, should it issue again (R397); and the cells that an APROG may still miss by more
than a level (R410). -/
structure AxCmd where
  tile : Nat
  writes : List PWrite
  waiting : Bool
  give : Nat
  addr : W64
  done : Bool
  form : Nat
  win : W64
  rows : List ProgRow
  back : SMap W64 × Bool × Bool × Nat
  slack : Nat
deriving DecidableEq, Repr

/-- A copy of the cluster's context (R333): timeline number, whether it crosses the fabric, the physical pieces (address,
length) of source and destination that the probe found and the virtual ranges it probed (R63, R66): rows of the source, rows of the
destination, and the record; the record's PA,
chunks whose bits are set, whether the next chunk has been written and its bit waits for the ports (R166), the cause that ends it early
with its two words, and the launch it belongs to. -/
structure Copy where
  num : Nat
  fab : Bool
  len : Nat
  src : List (Nat × Nat)
  dst : List (Nat × Nat)
  vas : List (Nat × Nat)
  recPa : Nat
  done : Nat
  wrote : Bool
  cause : Nat
  acc0 : W64
  acc1 : W64
  launch : Nat
deriving DecidableEq, Repr

/-- A kettle command outstanding at its cluster (R339): number, kettles still to end. -/
structure NmCmd where
  num : Nat
  left : List Nat
  launch : Nat
deriving DecidableEq, Repr

/-- What the copy, kettle and pot contexts of a cluster have outstanding. -/
structure IO where
  copies : List Copy
  nm : List NmCmd
  /-- pot operations outstanding: timeline number and launch (R336) -/
  pours : List (Nat × Nat)
  /-- return-free atomics sent (R340) -/
  vsta : Nat
deriving DecidableEq, Repr

/-- Dispatch state of a cluster: claims (launch, next, end) (R242), PASS and VT (R432), and the starvation time of each
record in cycles (R431). -/
structure ACDisp where
  claims : List (Nat × Nat × Nat)
  pass : SMap Nat
  vt : Nat
  starve : SMap Nat
deriving DecidableEq, Repr

/-- A translation that a translation cache holds (R56): first VA page address, log2 of its size, PA,
permissions, ATTR. -/
structure TlbEntry where
  va : Nat
  lg : Nat
  pa : Nat
  r : Bool
  w : Bool
  x : Bool
  attr : BitVec 2
deriving DecidableEq, Repr

/-- An array cluster. -/
structure AC where
  cc : CC
  vl : Eng
  va : Eng
  vs : Eng
  mx : Eng
  ax : Eng
  ln : Links
  vec : Vec
  mxu : MX
  tiles : SMap Tile
  axq : List AxCmd
  io : IO
  disp : ACDisp
  /-- the TLB of the cluster, and the micro-TLBs of its CC (0) and engines (Table 2-5) -/
  tlb : List TlbEntry
  utlb : SMap (List TlbEntry)
deriving DecidableEq, Repr

/-! ### Dies -/

/-- A walk-cache entry (R56): level of the table entry, VA bits it covers, and the entry. -/
structure WcEntry where
  level : Nat
  vaTop : Nat
  ent : W64
deriving DecidableEq, Repr

/-- An access-table entry in force (R40, R46). -/
structure AclEntry where
  sameDie : Bool
  i : Bool
  x : Bool
  w : Bool
  r : Bool
  base : Nat
  limit : Nat
  classes : BitVec 16
deriving DecidableEq, Repr

/-- A fault record (Table 2-8): words 0 to 3. -/
structure FRec where
  w0 : W64
  w1 : W64
  w2 : W64
  w3 : W64
deriving DecidableEq, Repr

/-- Who waits for the answer to a replay token (R62); `tag` tells the operations of one hardware agent apart. -/
structure XWait where
  token : Nat
  tag : Nat
  who : Agent
  va : W64
  kind : AKind
  cause : Nat
  seq : W64
  /-- a REPLAY ended the wait with the ABORTED cause; the context has not taken it up (R62) -/
  aborted : Bool
deriving DecidableEq, Repr

/-- A launch queue entry (R425): record address, instance, mailbox entry plus one (0 for LAUNCH). -/
structure LqEntry where
  lrec : W64
  launch : Nat
  mbox : Nat
deriving DecidableEq, Repr

/-- A launch table entry (Table 14-4) with the record read, progress of its epoch, and marks. -/
structure LEntry where
  st : Nat
  launch : Nat
  lrecVa : W64
  lrec : List W64
  done : Nat
  epoch : Nat
  depseen : W64
  /-- the cycle in which DEPADDR was last read; none where a read is due (R427) -/
  depAt : Option Nat
  /-- tasks taken and tasks ended in the current epoch -/
  epDone : Nat
  placed : Bool
  cancelled : Bool
  paused : Bool
  /-- clusters that ran a task of the current epoch (R239), and of any epoch (R164) -/
  ran : List Nat
  ranAll : List Nat
deriving DecidableEq, Repr

/-- A walker slot in use (Table 8-9). -/
structure Walker where
  launch : Nat
  epoch : Nat
  next : Nat
  stop : Nat
  gran : Nat
  kind : Nat
deriving DecidableEq, Repr

/-- A tracked continuation (R252, R253). -/
structure Cont where
  va : W64
  launch : Nat
  domain : Nat
  origin : Nat
  prio : Nat
  wkind : Nat
  ctx : Nat
  waddr : W64
  wval0 : W64
  wval1 : W64
  ready : Bool
  readyAt : Nat
deriving DecidableEq, Repr

/-- A quad mode switch in progress (R74): end cycle once draining, and whether a second switch follows. -/
structure QSwitch where
  quad : Nat
  stop : Option Nat
  again : Bool
deriving DecidableEq, Repr

/-- One pour, or another request for a pot: issuing cluster (256 and up for a member of another part), number on TL.POT,
launch, address of its instruction, pour word (the slot alone for a join or leave), payload, values saturated, and whether the home found its
checksum wrong. -/
structure PotPart where
  ac : Nat
  num : Nat
  launch : Nat
  pc : W64
  word : W64
  data : List Byte
  sat : Nat
  bad : Bool
deriving DecidableEq, Repr

/-- A request at pot hardware (R174): kind, descriptor VA, its PA once translated, in its home's view and as translated
(none once that translation has been invalidated, R66), source, .fab, node and VA at
the home part when its descriptor is a proxy, with word 0 of the descriptor there (R173), whether the source has been read, whether it only tells that it could not (R498), its parts (two when the fabric combined pours, R187) and the
checksum carried. -/
structure PotReq where
  kind : PotKind
  desc : W64
  pa : Nat
  raw : Option Nat
  src : W64
  fab : Bool
  proxy : Option (Nat × W64 × W64)
  ready : Bool
  lost : Bool
  parts : List PotPart
  sum : Nat
deriving DecidableEq, Repr

/-- A contribution to a round: slot, lag, payload, NF, clamped values, and the pour. -/
structure Contribution where
  slot : Nat
  lag : Nat
  data : List Byte
  nf : Bool
  clamps : Nat
  ac : Nat
  num : Nat
deriving DecidableEq, Repr

/-- The physical pieces (address, length, ATTR) that an access of a pot's outcome has found: its slot, what it is (as in `Closing`), and its VA. -/
structure PotAccess where
  slot : Nat
  kind : Nat
  va : Nat
  pieces : List (Nat × Nat × BitVec 2)
deriving DecidableEq, Repr

/-- A closed round whose outcomes are not written yet (R177, R190): tag, SHORT, CHECKFAIL, contributions, slots with INTEG,
members before the close, slots that the close made valid, the operations it completes; what the write-back holds: ROUND, STALE,
CLOSED and the members after; the writes performed when the round opened; accesses given up (slot, and 0 destination, 1
outcome, 2 member table, 3 descriptor); how far it is (0 nothing has left, 1 the destinations have, 2 the gates and outcomes of other parts have, 3 all is
written); and the physical pieces that its accesses found. -/
structure Closing where
  tag : W32
  short : Bool
  fail : Bool
  contrib : List Contribution
  integ : BitVec 64
  members : List (List W64)
  joined : List Nat
  done : List (Nat × Nat)
  round : W32
  stale : BitVec 64
  closed : W64
  after : List (List W64)
  since : Nat
  skip : List (Nat × Nat)
  stage : Nat
  found : List PotAccess
deriving DecidableEq, Repr

/-- A held pot (R172): descriptor VA, PA in its home's view, the words read, member table, open round, STALE, CLOSED, close count and the slots
it counts (R179), contributions of the open round, its INTEG slots and CHECKFAIL, pours held ahead (R175), joins and leaves
waiting, cycle and write count at its opening, rounds closing, oldest first, and whether it is being retired. -/
structure Pot where
  va : W64
  pa : Nat
  desc : List W64
  members : List (List W64)
  round : W32
  stale : BitVec 64
  closed : W64
  need : Nat
  live : BitVec 64
  contrib : List Contribution
  integ : BitVec 64
  fail : Bool
  ahead : List PotPart
  ops : List (PotKind × Nat × Nat × Nat)
  opened : Nat
  since : Nat
  closing : List Closing
  retire : Bool
deriving DecidableEq, Repr

/-- A power-capped array command waiting for admission (R494): cluster and start. -/
structure PowerWait where
  ac : Nat
  tile : Nat
deriving DecidableEq, Repr

/-- A pre-emption command in progress (R453, R454): operation (1 pre-empt, 3 pre-empt whose context is written, 2 resume),
commanding die, launch, context address, cycle of the 20 µs mark (0 once it has passed), clusters to save and saved. -/
structure Preempt where
  op : Nat
  die : Nat
  launch : Nat
  ctx : Nat
  mark : Nat
  todo : List Nat
  saved : List Nat
deriving DecidableEq, Repr

/-- What the record of a cluster whose task a pre-emption saved does not hold: context address, cluster, timeline numbers of the running and
queued entries by engine (R153, R454), the cycle of each engine's fault and whether it is still to be taken (R441), and whether a tile
command stopped MX (R415). -/
structure PreSaved where
  ctx : Nat
  ac : Nat
  nums : List (Nat × List Nat)
  cycles : List (Nat × Nat × Bool)
  tstop : Bool
deriving DecidableEq, Repr

/-- A die. -/
structure Die where
  /-- MMIO registers by offset; unlisted offsets hold their reset values -/
  regs : SMap W64
  acl : SMap AclEntry
  tlb : List TlbEntry
  wc : List WcEntry
  /-- invalidation in progress: start, log2 size, all, package-wide, walk cache (R65) -/
  tlbi : Option (Nat × Nat × Bool × Bool × Bool)
  frPend : List FRec
  frSeq : Nat
  frTok : Nat
  waits : List XWait
  launchQ : List LqEntry
  lseq : Nat
  ltab : SMap LEntry
  walkers : SMap Walker
  qclaims : List (Nat × Nat × Nat × Nat)
  conts : List Cont
  qsw : List QSwitch
  pots : List Pot
  /-- requests of the die's clusters that have not left it (R496), requests at the home, and the on-time pour it has taken -/
  potQ : List PotReq
  potIn : List PotReq
  potNow : Option PotReq
  pwait : List PowerWait
  pactive : Nat
  /-- cycle in which POWER and ENERGY were last measured (R494) -/
  sensedAt : Nat
deriving DecidableEq, Repr

/-! ### Kettles -/

/-- A kettle command as one kettle holds it (R101): issuing cluster and number, rank in the set, block words, parameter
words, CLIP, program, PA of the status record if it has one, and its tree session (0 for none). -/
structure KCmd where
  ac : Nat
  num : Nat
  rank : Nat
  words : List W64
  param : List W64
  clip : Option W32
  prog : List W64
  statusPa : Option Nat
  session : Nat
  passed : SMap Nat
deriving DecidableEq, Repr

/-- What an entry of a kettle's atomic queue does (R131, R132): a return-free atomic with its lanes, mask, issuing cluster and number among
the cluster's atomics, or a plain store that waits there to be performed at its home: its agent, the number of its write, and the releases
that it has when it is. -/
inductive KEntry where
  | atom (op : RfOp) (lanes : List W32) (mask : BitVec 16) (ac num : Nat)
  | store (by' : Agent) (id : Nat) (rels : List (Agent × Scope))
deriving DecidableEq, Repr

/-- An entry of a kettle's atomic queue (R131 to R133), of one 64-byte word. -/
structure KAtom where
  pa : Nat
  what : KEntry
deriving DecidableEq, Repr

/-- A kettle (R94, R102): loops hold start, end and remaining count, the outer first; `wave` holds the banks done of an
all-bank form and the pieces it has read (R135); `contributed` and `received` count KRED and KRCV of the command (R129). -/
structure Kettle where
  k : SMap KWord
  j : SMap W64
  nfcnt : Nat
  clcnt : Nat
  kpc : Nat
  loops : List (Nat × Nat × Nat)
  progress : W32
  atomq : List KAtom
  run : Option KCmd
  queue : List KCmd
  abort : Bool
  contributed : Nat
  received : Nat
  wave : Option (Nat × List KWord)
deriving DecidableEq, Repr

/-- A status record of a kettle that waits for the ports to confirm what its release covers (R103, R166): the kettle, the record's address and words, and
the cluster and number of its command. -/
structure KStatus where
  kettle : Nat
  pa : Nat
  words : List W64
  ac : Nat
  num : Nat
deriving DecidableEq, Repr

/-- A tree session that the sequencer holds open (R126): its own serial number, SESSION, the words that its commands share,
the dies whose commands have joined, one entry for each command, contributions (reduction, kettle, operator, values), and the kettles whose commands have
ended, one entry for each, with their number of contributions then (R130). -/
structure Session where
  serial : Nat
  id : Nat
  key : List W64
  joined : List Nat
  contrib : List (Nat × Nat × TreeOp × List KWord)
  ended : List (Nat × Nat)
deriving DecidableEq, Repr

/-- A kettle command between NMRUN and its delivery (R101): its parts as KCmd holds them, the kettle mask and die, PA of
each status record by rank and of P[7], and its stage: 0 check and gate, 1 slice pass, 2 delivery. -/
structure KIssue where
  ac : Nat
  num : Nat
  die : Nat
  mask : W64
  words : List W64
  param : List W64
  clip : Option W32
  prog : List W64
  status : List Nat
  p7 : Option Nat
  stage : Nat
  session : Nat
  passed : SMap Nat
deriving DecidableEq, Repr

/-! ### The part -/

/-- What a fabric packet that awaits its acknowledgement carries (R470): a chunk of a copy of a cluster, a pour of a
cluster, a probe or write of a put, the clear of an RFREE, the completion of a launch, a part of the outcome of a pot for a slot (0 its
destination, 1 its outcome record, 2 its step gate), the notice of a pour that was lost (R498). -/
inductive FabItem where
  | copy (n k : Nat)
  | pour (n k : Nat)
  | put (n : Nat)
  | free (n : Nat)
  | done (d l : Nat)
  | outcome (d desc slot part : Nat)
  | notice (d : Nat)
deriving DecidableEq, Repr

/-- What a fabric request asks of its receiver: to write bytes, with release or not (R470); to check a range as a write (R471); to clear
a consumer's bit (R471); a pot request, with its descriptor on this part, whether it only tells that its source is lost, its parts, checksum and,
for SUMI, payload bytes (R173, R188, R498); the value of a step gate of a die (R191). -/
inductive FabWhat where
  | write (data : List Byte) (rel : Bool)
  | probe (len : Nat)
  | clear (bit : Nat)
  | pour (kind : PotKind) (desc : W64) (lost : Bool) (parts : List PotPart) (sum sumi : Nat)
  | gate (die g : Nat) (v : W64)
deriving DecidableEq, Repr

/-- A fabric request (R470): its sender's operation, node, address on the receiving part, what it asks, the port by which it has left (none
while its route has no live port), and whether it has been acknowledged. -/
structure FabSend where
  item : FabItem
  node : Nat
  addr : Nat
  what : FabWhat
  port : Option Nat
  acked : Bool
deriving DecidableEq, Repr

/-- A write that stands at an ingress port, behind a release that waits (R166, R470): the port, its address, in an export or a VA in full, whether it
carries a release, and its bytes. -/
structure IngWrite where
  port : Nat
  va : W64
  exp : Bool
  rel : Bool
  data : List Byte
deriving DecidableEq, Repr

/-- What an ingress port answers to a request (R469, R470): an acknowledgement, a negative acknowledgement with its record, or
that a pot request was dropped with a pot fault (R176). -/
inductive FabAns where
  | ack
  | nack (w0 w1 : W64)
  | fault (cause : Nat)
deriving DecidableEq, Repr

/-- The state of the part. -/
structure State where
  agenda : List Actor
  cur : Agent
  /-- number of free values taken -/
  seq : Nat
  /-- number of writes performed -/
  wid : Nat
  cycle : Nat
  mem : List Host.Cell
  hist : SMap (List Version)
  agm : SMap AgentMem
  /-- bounds of polls at .pkg or narrower, and at .fab (R168) -/
  polls : Mark
  farPolls : Mark
  /-- granules that mailbox entries (0 to 255) and launches in DEP (256 and their launch table entry) watch: canonical address, die,
  number (R255, R427) -/
  watch : List (Nat × Nat × Nat)
  /-- firings not yet taken up: die, number, class of the writer, and LREC at the write (R256) -/
  fires : List (Nat × Nat × Nat × W64)
  parked : List Parked
  /-- write ranges of kettle commands whose lines no home slice allocates: cluster, number, start and bytes (R107) -/
  bypass : List (Nat × Nat × Nat × Nat)
  /-- number of the newest write when a cluster last dropped its lines of host windows (R463) -/
  hostDrop : SMap Nat
  dies : SMap Die
  acs : SMap AC
  kettles : SMap Kettle
  kissue : List KIssue
  /-- status records of kettles that are still to be written (R166) -/
  kstatus : List KStatus
  sessions : List Session
  preempt : Option Preempt
  presaved : List PreSaved
  /-- clusters that ran tasks of the epoch, and of any epoch, of launches that a pre-emption took from their tables -/
  ranOf : SMap (List Nat × List Nat)
  fab : List FabSend
  /-- port of each flow: sender, node, port (R468) -/
  flows : List (Agent × Nat × Nat)
  /-- answers that ingress ports have sent, oldest first: port, number of a pot request, answer (R469) -/
  fabOut : List (Nat × Nat × FabAns)
  /-- writes that wait at ingress ports, oldest first (R166, R470) -/
  ingHeld : List IngWrite
  /-- device writes to host windows not confirmed, by port (R166) -/
  posted : List (Nat × Nat × List Byte)
  /-- value last returned to each external master, by agent code, and how its last request ended: 0 done, 1 Unsupported Request, 2
  Completer Abort (R45, R458, R461) -/
  extIn : SMap (List Byte)
  extEnd : SMap Nat
  /-- access-fault exception last raised at each management core and the root core: RV64 cause and address (R45) -/
  mexc : SMap (Nat × Nat)
  /-- reservation of each management core: address, and the numbers of the writes that its bytes were read from (R167) -/
  lr : SMap (Nat × List Nat)
  /-- PC of each management core and of the root core, which starts at ROM offset 0 (R490) -/
  corePc : SMap W64
  /-- HCACHE of each port as its last link training found it (R460) -/
  hcached : SMap Bool
  meas : SMap (BitVec 512)
  /-- boots so far (R479) -/
  boot : Nat
  /-- root request in progress: address of its block (R478) -/
  att : Option Nat
  /-- MSI-X of a port (R458, R459, R466): vectors sent and not taken by the host, pending bits, table, and function mask -/
  msi : SMap W64
  msiPend : SMap W64
  msiTab : SMap Byte
  msiMask : SMap Bool
  ttrip : Bool
  stopped : Bool
deriving DecidableEq, Repr

/-! ### Reset

Unlisted keys of `acs`, `dies` and `kettles` hold the values below, so the tables of the part start empty. -/

/-- An engine after reset: IDLE, registers zero, queue empty (log entry 4). -/
def Eng.reset : Eng :=
  { st := 0, upc := 0, x := [], cb := [], live0s := 0, live0e := 0, live1s := 0, live1e := 0, act0 := false, act1 := false
    q := [], num := 0, etok := 0, giveE := 0, giveN := 0, fcause := 0, finfo := 0, finfo1 := 0, deferred := false, fcycle := 0
    untold := false, held := 0, heldQ := [], heldF := 0, heldU := false, startAt := 0, xl := none, wait := none, waitAt := none }

/-- A control core after reset: IE = 1, system registers at their reset values, no task (log entry 4). -/
def CC.reset : CC :=
  { sreg := [], preg := 0, greg := [], pc := 0, sys := [], h := false, ie := true, evt := false, la0 := false, la1 := false
    resumed := false, mint := none, wait := none, xl := none, xlAbort := none, entry := none, carve := none, task := none
    saving := false, pend := [], icache := [] }

/-- An array cluster after reset. -/
def AC.reset : AC :=
  { cc := CC.reset, vl := Eng.reset, va := Eng.reset, vs := Eng.reset, mx := Eng.reset, ax := Eng.reset
    ln := { tok := [], retq := [], pushWait := [], tlIssue := [], tlShown := [], tlDone := [], gw := [], farCp := [] }
    vec := { v := [], m := [], flight := [], issued := 0 }
    mxu := { acc := [], sh := [], tq := [], fq := [], run := none, rowprog := 0, mode := 0, resev := 0, dupev := 0, chkrot := 0
             nfops := 0, saved := false, taken := false, xl := none, tstop := false, pcs := [], hold := false }
    tiles := [], axq := []
    io := { copies := [], nm := [], pours := [], vsta := 0 }
    disp := { claims := [], pass := [], vt := 0, starve := [] }
    tlb := [], utlb := [] }

/-- A die after reset. -/
def Die.reset : Die :=
  { regs := [], acl := [], tlb := [], wc := [], tlbi := none, frPend := [], frSeq := 0, frTok := 1, waits := [], launchQ := []
    lseq := 0, ltab := [], walkers := [], qclaims := [], conts := [], qsw := [], pots := [], potQ := [], potIn := [], potNow := none, pwait := []
    pactive := 0, sensedAt := 0 }

/-- A kettle after reset. -/
def Kettle.reset : Kettle :=
  { k := [], j := [], nfcnt := 0, clcnt := 0, kpc := 0, loops := [], progress := 0, atomq := [], run := none, queue := []
    abort := false, contributed := 0, received := 0, wave := none }

/-- The part right after reset (R490): nothing listed in memory, every register at its reset value, no task. -/
def State.reset : State :=
  { agenda := [], cur := .root, seq := 0, wid := 0, cycle := 0, mem := [], hist := [], agm := [], polls := ⟨0, 0, 0⟩, farPolls := ⟨0, 0, 0⟩, watch := [], fires := []
    parked := [], bypass := [], hostDrop := [], dies := [], acs := [], kettles := [], kissue := [], kstatus := [], sessions := [], preempt := none, presaved := [], ranOf := [], fab := [], flows := [], fabOut := [], ingHeld := [], posted := []
    extIn := [], extEnd := [], mexc := [], lr := [], corePc := [], hcached := [], meas := [], boot := 0, att := none, msi := [], msiPend := [], msiTab := [], msiMask := [], ttrip := false, stopped := false }

end Sys2Proof.Machine
end

