-- ==== Sys2Proof/Machine/Mem.lean ====
section
/-! DEFINITION. Physical addresses (01_address_spaces.md) and phase consistency (05_consistency.md): what a write,
a load, a release and an acquire do to memory and to the views of agents. -/

namespace Sys2Proof.Machine

/-! ### The physical map (R19 to R24) -/

/-- What a physical address names. HBM is named by die, pseudo-channel and offset (R20). -/
inductive Region where
  | hbm (die pc off : Nat)
  | scratch (n off : Nat)
  | mmio (die : Nat) (off : Nat)
  | host (port : Nat) (off : Nat)
  | none
deriving DecidableEq, Repr

/-- The pseudo-channel and offset of a die offset in the interleaved view (R22). -/
def hashPc (o : Nat) : Nat × Nat :=
  let g := o / 4096
  let x (a n : Nat) : Nat := g / 2 ^ a % 2 ^ n
  (Nat.xor (Nat.xor (x 0 7) (x 7 7)) (Nat.xor (x 14 7) (x 21 4)), g / 128 * 4096 + o % 4096)

/-- The region of a physical address (Table 1-2); `own` is the issuer's die for the own-die MMIO alias. -/
def region (own : Nat) (pa : Nat) : Region :=
  if pa < 0x8000000000 then
    let d := pa / 0x2000000000
    let o := pa % 0x2000000000
    if o < 0x1800000000 then (let (pc, off) := hashPc o; .hbm d pc off) else .none
  else if pa < 0x10000000000 then .none
  else if pa < 0x18000000000 then
    let o := pa - 0x10000000000
    let d := o / 0x2000000000
    let pc := o % 0x2000000000 / 0x40000000
    let off := o % 0x40000000
    if off < 0x30000000 then .hbm d pc off else .none
  else if pa < 0x20000000000 then .none
  else if pa < 0x20000000000 + 0x40000000 then
    let o := pa - 0x20000000000
    .scratch (64 * (o / 0x10000000) + o % 0x10000000 / 0x400000) (o % 0x400000)
  else if pa < 0x30000000000 then .none
  else if pa < 0x30000000000 + 0x4000000 then
    let o := pa - 0x30000000000
    .mmio (o / 0x1000000) (o % 0x1000000)
  else if pa < 0x3F000000000 then .none
  else if pa < 0x3F000000000 + 0x1000000 then .mmio own (pa - 0x3F000000000)
  else if pa < 0x8000000000000 then .none
  else if pa < 0xC000000000000 then .host 0 (pa - 0x8000000000000)
  else if pa < 0x10000000000000 then .host 1 (pa - 0xC000000000000)
  else .none

/-- Linear-view address of a byte of HBM (R20). -/
def linearPa (d pc off : Nat) : Nat := 0x10000000000 + d * 0x2000000000 + pc * 0x40000000 + off

/-- The key under which memory holds a physical address: HBM by its linear view (R21). -/
def canonPa (own pa : Nat) : Nat :=
  match region own pa with
  | .hbm d pc off => linearPa d pc off
  | _ => pa

/-- The home slice of a byte of HBM (R85). -/
def homeSlice (pc off : Nat) : Nat := Nat.xor (pc % 16) (off / 128 % 16)

/-! ### Agents and scopes (R7, R8, R138) -/

/-- Number of an agent, for keys, and the agent of a number. -/
def Agent.key : Agent → Nat
  | .ac n u => n * 16 + u
  | .pot d => 0x2000 + d
  | .kettle q => 0x3000 + q
  | .mcore d => 0x4000 + d
  | .root => 0x4004
  | .host p => 0x5000 + p
  | .ingress p => 0x6000 + p
  | .disp d => 0x7000 + d

def Agent.ofKey (k : Nat) : Agent :=
  match k / 0x1000 with
  | 0 | 1 => .ac (k / 16) (k % 16)
  | 2 => .pot (k % 0x1000)
  | 3 => .kettle (k % 0x1000)
  | 4 => if k = 0x4004 then .root else .mcore (k % 0x1000)
  | 5 => .host (k % 0x1000)
  | 6 => .ingress (k % 0x1000)
  | _ => .disp (k % 0x1000)

/-- The die of an agent; hosts lie on none. -/
def Agent.die? : Agent → Option Nat
  | .ac n _ => some (n / 64)
  | .pot d => some d
  | .kettle q => some (q / 64)
  | .mcore d => some d
  | .root => some 0
  | .host _ => none
  | .ingress p => some (p / 8)
  | .disp d => some d

/-- The die whose resources an agent uses; D0, where the root core lies, for agents on none: a host's own-die alias (Table 1-2) names D0 at
both ports (DESIGN CHOICE, log entry 89). -/
def Agent.die (a : Agent) : Nat := a.die?.getD 0

/-- Two agents share a scope (R138). -/
def shares (s : Scope) (a b : Agent) : Bool :=
  match s with
  | .ac => (match a, b with | .ac n _, .ac m _ => n == m | _, _ => a == b)
  | .quad => (match a, b with | .ac n _, .ac m _ => n / 4 == m / 4 | _, _ => a == b)
  | .die => (match a.die?, b.die? with | some x, some y => x == y | _, _ => a == b)
  | .pkg | .fab => true

/-- Width order of scopes. -/
def Scope.rank : Scope → Nat
  | .ac => 0 | .quad => 1 | .die => 2 | .pkg => 3 | .fab => 4

/-- The wider of two scopes. -/
def Scope.wider (a b : Scope) : Scope := if Scope.rank a < Scope.rank b then b else a

/-! ### Masters (Table 1-7) -/

/-- Master ID. Contexts of a cluster: 6 is the copy context; the others carry the cluster's ID. -/
def masterId : Agent → Nat
  | .host p => p
  | .mcore d => 0x1000 + d
  | .root => 0x1004
  | .ac n u => if u = 6 then 0x3000 + n else 0x2000 + n
  | .kettle q => 0x4000 + q
  | .ingress p => 0x5000 + p
  | .pot d => 0x6000 + d
  | .disp d => 0x7000 + d

/-- Class bit. -/
def classBit : Agent → Nat
  | .host p => p
  | .mcore _ => 2
  | .root => 3
  | .ac _ u => if u = 6 then 5 else 4
  | .kettle _ => 6
  | .ingress _ => 7
  | .pot _ => 8
  | .disp _ => 9

/-! ### Loads, writes, releases and acquires -/

/-- Bytes of a memory key that nothing has written read as zero (log entry 3). -/
def memByte (s : State) (k : Nat) : Byte := smGet 0 s.mem k

/-- The order of memory bytes is canonical: rising keys, no zero listed. -/
def Memory.wf (m : List Host.Cell) : Bool := smSorted 0 m && m.all fun c => c.2 != 0

/-- Little-endian value of bytes (R9). -/
def leNat : List Byte → Nat
  | [] => 0
  | b :: r => b.toNat + 256 * leNat r

/-- The n low bytes of a value, little-endian (R9). -/
def leBytes : Nat → Nat → List Byte
  | 0, _ => []
  | n + 1, v => BitVec.ofNat 8 v :: leBytes n (v / 256)

/-- What an agent holds of memory. -/
def State.agent (s : State) (a : Agent) : AgentMem := smGet ⟨[], [], [], 0⟩ s.agm a.key
def State.setAgent (s : State) (a : Agent) (m : AgentMem) : State := { s with agm := smSet s.agm a.key m }

/-- No operation: writes of no entry, command or task. -/
def OpTag.none : OpTag := ⟨0, 8, 0, 0⟩

/-- The operation that an agent's stores belong to now (R153, R164): of MX, the tile-queue entry that runs, or else the routine. -/
def State.opTag (s : State) (a : Agent) : OpTag :=
  match a with
  | .ac n u =>
    (match smFind s.acs n with
    | some x =>
      let launch := match x.cc.task with | some t => t.launch + 1 | none => 0
      (match u with
      | 1 => ⟨n, 0, x.vl.num, launch⟩
      | 2 => ⟨n, 1, x.va.num, launch⟩
      | 3 => ⟨n, 2, x.vs.num, launch⟩
      | 4 => ⟨n, 3, match x.mxu.tq with | q :: _ => if x.mxu.run.isSome ∧ x.mx.st = 0 then q.num else x.mx.num | [] => x.mx.num, launch⟩
      | 5 => ⟨n, 4, x.ax.num, launch⟩
      | _ => ⟨n, 8, 0, launch⟩)
    | none => ⟨n, if 1 ≤ u ∧ u ≤ 5 then u - 1 else 8, 0, 0⟩)
  | .kettle q =>
    (match smFind s.kettles q with
    | some k => (match k.run with | some c => ⟨c.ac, 6, c.num, 0⟩ | none => OpTag.none)
    | none => OpTag.none)
  | _ => OpTag.none

/-- The write of a location that lasts as its value before any listed write. -/
def initVersion (b : Byte) : Version := ⟨0, b, none, [(.home, 0)], [], false, OpTag.none⟩

/-- A write has been performed at a place, and had been when the write of a number was the newest. -/
def Version.present (v : Version) (pl : Place) : Bool := v.places.any fun x => x.1 == pl
def Version.presentAt (v : Version) (pl : Place) (t : Nat) : Bool := v.places.any fun x => x.1 == pl && decide (x.2 ≤ t)

/-- A write is performed at one more place. -/
def Version.perform (t : Nat) (pl : Place) (v : Version) : Version :=
  if v.present pl then v else { v with places := (pl, t) :: v.places }

/-- A write is released by an agent at a scope, and performed at a place (R141). -/
def Version.release (t : Nat) (a : Agent) (sc : Scope) (pl : Place) (v : Version) : Version :=
  { v.perform t pl with rels := if v.rels.contains (a, sc) then v.rels else (a, sc) :: v.rels }

/-- The coherence order of a location, newest first (R139). -/
def State.versions (s : State) (k : Nat) : List Version :=
  smGet [initVersion (memByte s k)] s.hist k

/-- The value of a byte that has been released and performed at its home (R278): a write that has no release does not count. -/
def State.homeByte (s : State) (k : Nat) : Byte :=
  match (s.versions k).find? fun v => v.present .home && (!v.rels.isEmpty || v.by'.isNone) with
  | some v => v.byte
  | none => memByte s k

/-- The writes of a location that a load may return: from the newest down to the first that `stop` names. -/
def eligible (stop : Version → Bool) : List Version → List Version
  | [] => []
  | v :: r => if stop v then [v] else v :: eligible stop r

/-- The write is in the agent's view (R141). -/
def inView (m : AgentMem) (k : Nat) (v : Version) : Bool := v.id == smGet 0 m.view k || v.id == 0

/-- The writes that memory holds, each with the number of the write of its location in an agent's view. -/
def State.viewed (s : State) (m : AgentMem) : List (Nat × List Version × Nat) := smJoin 0 s.hist m.view

/-- The newest byte of an agent's own unreleased stores at a key. -/
def pendByte (l : List PWrite) (k : Nat) : Option Byte :=
  l.foldl (fun acc w => if w.pa ≤ k ∧ k < w.pa + w.bytes.length then w.bytes[k - w.pa]? else acc) none

/-- What an agent may read of one byte: its key, the writes a load may return (newest first), its own unreleased
byte, and the numbers of the write in its view and of the write an earlier load returned. -/
structure ByteView where
  key : Nat
  cands : List Version
  pend : Option Byte
  view : Nat
  seen : Nat
deriving DecidableEq, Repr

/-- A write may reach an agent (R140 (a)): it is its own, or has been released. -/
def Version.reaches (v : Version) (a : Agent) : Bool := !v.rels.isEmpty || v.by' == some a || v.by'.isNone

/-- The writes of a byte that a load of an agent may return (R140): those that may reach it, at a place the load reaches, from the newest down to
the first that conditions (b) to (d) bind it to; a load with a point stops at the write that was the last performed there at the
instant given (R148 (c), (e)). -/
def byteCands (a : Agent) (reach : List Place) (pt : Option (Place × Nat)) (view seen : Nat) (l : List Version) : List Version :=
  let pin := fun (v : Version) => v.id == view || v.id == seen || v.id == 0
  eligible (fun v => pin v || pt.any fun x => v.presentAt x.1 x.2) (l.filter fun v => pin v || (v.reaches a && reach.any v.present))

/-- Numbers of the instants at which a unit of several bytes may be read whole (R152): no earlier than any byte's
bound. -/
def snapshots (cs : List (List Version)) : List Nat :=
  let base := cs.foldl (fun a l => match l.getLast? with | some v => max a v.id | none => a) 0
  let ids := cs.foldl (fun a l => l.foldl (fun a v => if base < v.id && !a.contains v.id then v.id :: a else a) a) []
  base :: ids

/-- The write of a location at an instant. -/
def atInstant (t : Nat) (l : List Version) : Version :=
  match l.find? (fun v => v.id ≤ t) with
  | some v => v
  | none => l.getLastD (initVersion 0)

/-- A list cut into pieces of u; the first argument bounds their number. -/
def chunksOf {α : Type} : Nat → Nat → List α → List (List α)
  | 0, _, _ => []
  | f + 1, u, l => if l.isEmpty then [] else l.take u :: chunksOf f u (l.drop u)

/-- Choose the write of every byte of one atomic unit, given the number of free values taken so far. -/
def pickUnit (seq : Nat) (bs : List ByteView) : Nat × List (ByteView × Version) :=
  let sn := snapshots (bs.map (·.cands))
  let t := if sn.length ≤ 1 then sn.headD 0 else sn.getD (Config.loadChoice seq % sn.length) 0
  (if sn.length ≤ 1 then seq else seq + 1, bs.map fun b => (b, atInstant t b.cands))

/-- Choose for every unit of a range in order. -/
def pickUnits : Nat → List (List ByteView) → Nat × List (ByteView × Version)
  | seq, [] => (seq, [])
  | seq, u :: r =>
    let (q, l) := pickUnit seq u
    let (q', l') := pickUnits q r
    (q', l ++ l')

/-- Put a new write into a coherence order, below its n newest. -/
def putVersion (n : Nat) (v : Version) (l : List Version) : List Version := l.take n ++ v :: l.drop n

/-- A word of a mailbox entry (Table 8-11). -/
def State.mboxWord (s : State) (d i w : Nat) : W64 := smGet 0 (smGet Die.reset s.dies d).regs (0x40000 + 64 * i + 8 * w)

/-- The firing that a write of a class to a watched granule is, if any: the class bit is set in CLASSMASK at the write (R256); a launch in
DEP is told of every write (R427). -/
def State.firing (s : State) (cls : Nat) (w : Nat × Nat × Nat) : Option (Nat × Nat × Nat × W64) :=
  if 256 ≤ w.2.2 then some (w.2.1, w.2.2, cls, 0)
  else if (s.mboxWord w.2.1 w.2.2 2).getLsbD cls then some (w.2.1, w.2.2, cls, s.mboxWord w.2.1 w.2.2 1)
  else none

/-- A write of a master of a class has been performed at the home of a range: it fires every mailbox entry whose
granule it touches, once (R256). -/
def fireWrite (cls k n : Nat) (s : State) : State :=
  let hit := (s.watch.filter fun w => decide (w.1 < k + n ∧ k < w.1 + 64)).filterMap (s.firing cls)
  if hit.isEmpty then s else { s with fires := s.fires ++ hit }

/-- A write to a host window leaves as a posted write, which the port confirms later (R166, R462); with CXL.cache active
the port is the coherence point and confirms at once. -/
def post (pl : Place) (k : Nat) (bytes : List Byte) (s : State) : State :=
  match pl, region 0 k with
  | .home, .host p _ =>
    if (smGet 0 (smGet Die.reset s.dies (2 * p)).regs 0x8008).getLsbD 2 then s
    else { s with posted := s.posted ++ [(p, k, bytes)] }
  | _, _ => s

/-- How many of the newest writes of a byte a place has not met, as far as the agent does not see them (R139). -/
def unmetCount (pl : Place) (bound : Version → Bool) (l : List Version) : Nat :=
  (l.takeWhile fun v => !v.present pl && !bound v).length

/-- A new write of an agent in the coherence order of its bytes, below as many of each byte's newest writes as `below` says, and performed at
the places given. It is in the agent's view. -/
def enterWrite (a : Agent) (pls : List Place) (rels : List (Agent × Scope)) (strong : Bool) (tag : OpTag) (below : Nat → List Version → Nat)
    (k : Nat) (bytes : List Byte) (s : State) : State :=
  let m := s.agent a
  let id := s.wid + 1
  let olds := smSlice 0 s.mem k bytes.length
  let f := fun (old : Option (List Version)) (it : Nat × Byte × Byte) =>
    let l := old.getD [initVersion it.2.2]
    some (putVersion (below it.1 l) ⟨id, it.2.1, some a, pls.map (·, id), rels, strong, tag⟩ l)
  let items := (List.range bytes.length).zip (bytes.zip olds) |>.map fun (i, b, o) => (k + i, b, o)
  let hist := smRun f s.hist k items
  let tops := smSlice [] hist k bytes.length |>.map fun l => match l with | v :: _ => v.byte | [] => 0
  let mem := smRun (fun _ b => if b = 0 then none else some b) s.mem k tops
  let view := smRun (fun _ _ => some id) m.view k bytes
  { (s.setAgent a { m with view := view }) with wid := id, hist := hist, mem := mem }

/-- Perform a write of an agent at a place, below as many of each byte's newest writes as `below` says (R139, R143). The
new write is in the agent's view. -/
def performRaw (a : Agent) (pl : Place) (rels : List (Agent × Scope)) (strong : Bool) (tag : OpTag) (below : Nat → List Version → Nat)
    (k : Nat) (bytes : List Byte) (s : State) : State :=
  let s := enterWrite a [pl] rels strong tag below k bytes s
  let s := match a with | .host _ => s | _ => post pl k bytes s
  if pl = .home then fireWrite (classBit a) k bytes.length s else s

/-- A write above all others of its bytes. -/
def onTop : Nat → List Version → Nat := fun _ _ => 0

/-- Whether some byte of a range has newest writes that a point has not met and the agent does not see. -/
def unmet (a : Agent) (pl : Place) (k n : Nat) (s : State) : Bool :=
  let m := s.agent a
  (List.range n).any fun i => unmetCount pl (inView m (k + i)) (s.versions (k + i)) != 0

/-- Where a strong store stands among the writes that its point may not have met: below them or above them, as the part merged
them (R82, R140). -/
def meeting (a : Agent) (pl : Place) (bound : Nat → Version → Bool) (k n : Nat) (s : State) : (Nat → List Version → Nat) × State :=
  if unmet a pl k n s then
    (if Config.merged s.seq then onTop else fun x l => unmetCount pl (bound x) l, { s with seq := s.seq + 1 })
  else (onTop, s)

/-- A write that an earlier load of the agent returned, or one in its view (R140 (c), (d)). -/
def known (m : AgentMem) (x : Nat) (v : Version) : Bool := inView m x v || v.id == smGet 0 m.seen x

/-- How many of the newest writes of a byte, after the first b, may not reach an agent (R140 (a)). -/
def unreached (a : Agent) (m : AgentMem) (x b : Nat) (l : List Version) : Nat :=
  b + ((l.drop b).takeWhile fun v => !(v.reaches a || known m x v)).length

/-- The read and write of an atomic at a place (R149): it reads what is below the writes that `below` skips and below those that may not reach
it, which have never been released, and its write stands right above what it has read. -/
def atomicRaw (a : Agent) (pl : Place) (sc : Scope) (below : Nat → List Version → Nat) (k n : Nat) (f : List Byte → Option (List Byte))
    (s : State) : List Byte × State :=
  let m := s.agent a
  let below := fun x l => unreached a m x (below x l) l
  let read := (List.range n).map fun i =>
    let l := s.versions (k + i)
    (k + i, (l.drop (below (k + i) l)).headD (initVersion 0))
  let old := read.map fun r => r.2.byte
  match f old with
  | some new => (old, performRaw a pl [(a, sc)] true (s.opTag a) below k new s)
  | none =>
    let seen := read.foldl (fun sn (x, v) => if inView m x v then sn else smSet sn x v.id) m.seen
    (old, if seen = m.seen then s else s.setAgent a { m with seen := seen })

/-! ### Return-free atomics (R131 to R134) -/

/-- One lane of a return-free atomic (R133). -/
def rfLane (op : RfOp) (old v : W32) : W32 :=
  match op with
  | .fadd => toF32 .rne 0 false (addX .rne (f32 old) (f32 v))
  | .sadd => old + v
  | .fmax => toF32 .rne 0 false (maxX (f32 old) (f32 v))

/-- The home kettle of a word, 64 × die + index (R131): the kettle of its channel. -/
def homeKettle (k : Nat) : Option Nat := match region 0 k with | .hbm d pc _ => some (64 * d + pc / 2) | _ => none

/-- Physical address of a channel offset on a kettle (64 × die + q). -/
def kettlePa (q o : Nat) : Nat := linearPa (q / 64) (2 * (q % 64) + o / 2 ^ 30 % 2) (o % 2 ^ 30)

/-- Kind, start and bytes of range i of a kettle command (Table 4-3). -/
def rangeOf (words : List W64) (i : Nat) : Nat × Nat × Nat :=
  let w := words.getD (5 + i) 0
  ((w.extractLsb' 62 2).toNat, (w.extractLsb' 0 31).toNat, 64 * (w.extractLsb' 32 24).toNat)

/-- A word of memory lies in a range of the command that a kettle runs (R134). -/
def touchesRun (s : State) (q pa : Nat) : Bool :=
  match (smGet Kettle.reset s.kettles q).run with
  | none => false
  | some c => (List.range 4).any fun i =>
      let (k, st, n) := rangeOf c.words i
      k != 0 && decide (pa < kettlePa q st + n ∧ kettlePa q st < pa + 64)

/-- The number of a plain store that stands in the queue of a kettle for a word. -/
def KAtom.storeId (pa : Nat) (x : KAtom) : Option Nat := match x.what with | .store _ id _ => if x.pa = pa then some id else none | _ => none

/-- A plain store stands in the queue of a kettle, made by an agent that a test selects: it has not been performed at its home, and what releases
it is not complete (R132, R141). -/
def State.queued (s : State) (p : Agent → Bool) : Bool :=
  s.kettles.any fun x => x.2.atomq.any fun y => match y.what with | .store a _ _ => p a | _ => false

/-- What a release at a scope covers has been performed: the ports have confirmed the writes to host windows (R166), and no plain store of the
agents that a test selects waits for atomics (R132, R141). -/
def State.settled (s : State) (sc : Scope) (p : Agent → Bool) : Bool := !(decide (3 ≤ Scope.rank sc) && !s.posted.isEmpty) && !s.queued p

/-- Writes that reach their home now fire mailbox entries, once for each write and entry (R256). -/
def fireMoved (moved : List (Version × Nat)) (s : State) : State :=
  let hits := moved.flatMap fun (v, k) => (s.watch.filter fun w => decide (w.1 ≤ k ∧ k < w.1 + 64)).map fun w => (v.id, v.by', w)
  let once := hits.foldl (fun acc h => if acc.contains h then acc else acc ++ [h]) []
  { s with fires := s.fires ++ once.filterMap fun (_, b, w) => s.firing ((b.map classBit).getD 4) w }

/-- The writes on record are as in `h`, which has the same writes in the same places of the list; those that have reached their home fire. -/
def moveHist (h : SMap (List Version)) (s : State) : State :=
  if s.watch.isEmpty then { s with hist := h }
  else
    fireMoved ((s.hist.zip h).flatMap fun (o, n) => (o.2.zip n.2).filterMap fun (v, w) =>
      if !v.present .home && w.present .home then some (v, o.1) else none) { s with hist := h }

/-- A plain store that has waited in the queue of a kettle is performed at its home, with the releases it is to have (R132, R141). -/
def landStore (pa id : Nat) (rels : List (Agent × Scope)) (s : State) : State :=
  moveHist (s.hist.map fun (k, l) => (k, if k / 64 = pa / 64 then l.map fun v =>
    if v.id = id then { v.perform s.wid .home with rels := v.rels ++ rels.filter fun r => !v.rels.contains r } else v else l)) s

/-- The newest writes of a byte down to the last of a list of writes, which have come after an entry (R133). -/
def laterCount (later : List Nat) (l : List Version) : Nat :=
  match (l.reverse.findIdx? fun v => later.contains v.id) with
  | some i => l.length - i
  | none => 0

/-- A kettle applies an entry to each enabled lane (R133): a write released at .pkg as it is performed, which fires
mailbox entries once. It stands below the plain stores that have come after it. A plain store is performed at its home. -/
def applyAtom (q : Nat) (later : List Nat) (x : KAtom) (s : State) : State :=
  match x.what with
  | .store _ id rels => landStore x.pa id rels s
  | .atom op lanes mask _ _ =>
    let watch := s.watch
    let a := Agent.kettle q
    let s := ((List.range 16).zip lanes).foldl (fun s (i, v) =>
      if mask.getLsbD i then
        let k := x.pa + 4 * i
        let (below, s) := meeting a .home (known (s.agent a)) k 4 s
        (atomicRaw a .home .pkg (fun y l => max (below y l) (laterCount later l)) k 4
          (fun old => some (leBytes 4 (rfLane op (BitVec.ofNat 32 (leNat old)) v).toNat)) s).2
      else s) { s with watch := [] }
    fireWrite (classBit a) x.pa 64 { s with watch := watch }

/-- Apply the entries of a queue that a test selects, in arrival order, over all words too, which have no order among themselves (R133; DESIGN
CHOICE, log entry 111); the others stay. -/
def applyQueue (q : Nat) (p : KAtom → Bool) : List KAtom → State → List KAtom × State
  | [], s => ([], s)
  | x :: r, s =>
    if p x then applyQueue q p r (applyAtom q (r.filterMap (KAtom.storeId x.pa)) x s)
    else (fun y => (x :: y.1, y.2)) (applyQueue q p r s)

/-- Apply the entries of a kettle that a test selects (R133). -/
def State.applyAtoms (s : State) (q : Nat) (p : KAtom → Bool) : State :=
  match smFind s.kettles q with
  | none => s
  | some k =>
    if k.atomq.any p then
      let (rest, s) := applyQueue q p k.atomq s
      { s with kettles := smSet s.kettles q { k with atomq := rest } }
    else s

/-- Atomics hold the line of a location at its home slice, so that a plain store of an agent to it joins the queue of its kettle (R132). -/
def State.heldAt (s : State) (a : Agent) (k : Nat) : Bool :=
  match homeKettle k with
  | some q => a != .kettle q && (match smFind s.kettles q with
    | some x => x.atomq.any fun y => y.pa / 128 == k / 128
    | none => false)
  | none => false

/-- A plain store joins the queue of the kettle of its word; one that stands there already has its releases added. One that finds the queue full
waits at its slice in the same order: the list is then longer than the 1,024 entries of the queue (R132; DESIGN CHOICE, log entry 110). -/
def joinQueue (pa : Nat) (a : Agent) (id : Nat) (rels : List (Agent × Scope)) (s : State) : State :=
  match homeKettle pa with
  | none => s
  | some q =>
    let x := smGet Kettle.reset s.kettles q
    let same := fun (y : KAtom) => match y.what with | .store b i _ => y.pa == pa && b == a && i == id | _ => false
    let add := fun (y : KAtom) => match y.what with
      | .store b i r => if same y then { y with what := .store b i (r ++ rels.filter fun z => !r.contains z) } else y
      | _ => y
    { s with kettles := smSet s.kettles q { x with atomq := if x.atomq.any same then x.atomq.map add else x.atomq ++ [⟨pa, .store a id rels⟩] } }

/-- Bytes at an address cut at the multiples of u, one piece in each; the second argument bounds their number. -/
def piecesOf (u : Nat) : Nat → Nat → List Byte → List (Nat × List Byte)
  | 0, _, _ => []
  | f + 1, k, b =>
    let n := u - k % u
    if b.length ≤ n then [(k, b)] else (k, b.take n) :: piecesOf u f (k + n) (b.drop n)

/-- Perform an ordinary write of an agent at a place, above every other. What of it goes to the home of a line that atomics hold is not performed
yet: it joins the queue of its kettle, word by word (R132, R134). -/
def performAt (a : Agent) (pl : Place) (rels : List (Agent × Scope)) (tag : OpTag) (k : Nat) (bytes : List Byte) (s : State) : State :=
  if pl == .home && (List.range bytes.length).any fun i => s.heldAt a (k + i) then
    (piecesOf 64 (bytes.length / 64 + 2) k bytes).foldl (fun s x =>
      if s.heldAt a x.1 then joinQueue (x.1 / 64 * 64) a (s.wid + 1) rels (enterWrite a [] [] false tag onTop x.1 x.2 s)
      else performRaw a pl rels false tag onTop x.1 x.2 s) s
  else performRaw a pl rels false tag onTop k bytes s

/-! ### Coherence points (Table 5-2) -/

/-- Where a cluster's line lies when it is performed at .ac or .quad (Table 5-2): its own L1, the owning slice of a
fused L1 (R73), or its home when the quad is private (.quad) or the slice has no cache. -/
def l1Place (fused : Nat → Bool) (cacheless : Nat → Bool) (n : Nat) (sc : Scope) (k : Nat) : Place :=
  let owner := if fused (n / 4) then 4 * (n / 4) + k / 128 % 4 else n
  if cacheless owner then .home
  else match sc with
    | .ac => .l1 owner
    | .quad => if fused (n / 4) then .l1 owner else .home
    | _ => .home

/-- Quad q (16 × die + index) runs with a fused L1: FUSE as written, or the other mode until a switch has ended
(R74). -/
def State.fused (s : State) (q : Nat) : Bool :=
  match smFind s.dies (q / 16) with
  | some d =>
    (smGet 0 d.regs 0x0400).getLsbD (q % 16) ^^ (match d.qsw.find? fun w => w.quad == q % 16 with
      | some w => !w.again
      | none => false)
  | none => false

/-- Stored CC system register of a cluster; unlisted registers hold `d`. -/
def State.sysOf (s : State) (n reg : Nat) (d : W64) : W64 :=
  match smFind s.acs n with
  | some a => smGet d a.cc.sys reg
  | none => d

/-- Scratch granules of a cluster (R77). -/
def State.sgran (s : State) (n : Nat) : Nat := (s.sysOf n 0x0C0 0).toNat % 16

/-- A location may lie in an L1: of the host windows, those of a port in MODE 1 with HCACHE = 1 (R462, R463). -/
def State.mayCache (s : State) (k : Nat) : Bool :=
  if k < 0x8000000000000 then true
  else match region 0 k with
    | .host p _ => smGet false s.hcached p && (smGet 0 (smGet Die.reset s.dies (2 * p)).regs 0x8008).getLsbD 2
    | _ => true

/-- No home slice allocates the line of a location: it lies in a write range of a kettle command under way, and is accessed as
under ATTR 10 (R107). -/
def State.bypassed (s : State) (k : Nat) : Bool :=
  s.bypass.any fun (_, _, st, n) => decide (st / 128 ≤ k / 128 ∧ k / 128 ≤ (st + n - 1) / 128)

/-- The coherence point of a location for an agent at a scope (Table 5-2). -/
def State.place (s : State) (a : Agent) (sc : Scope) (l1 : Bool) (k : Nat) : Place :=
  match a with
  | .ac n _ => if l1 && s.mayCache k && !s.bypassed k then l1Place s.fused (fun m => s.sgran m == 8) n sc k else .home
  | _ => .home

/-- The point and instant that bind every load of a cluster from a host window: its last drop of the lines (R463). -/
def State.dropped (s : State) (a : Agent) (k : Nat) : Option (Place × Nat) :=
  match a with
  | .ac n _ => if k < 0x8000000000000 then none else (smFind s.hostDrop n).map fun t => (.home, t)
  | _ => none

/-- What an agent may read of the bytes at keys k to k + n - 1; `pt` as in `byteCands`. -/
def State.byteViews (s : State) (a : Agent) (pt : Option (Place × Nat)) (k n : Nat) : List ByteView :=
  let m := s.agent a
  let hs := smSlice [] s.hist k n
  let ms := smSlice 0 s.mem k n
  let vs := smSlice 0 m.view k n
  let ss := smSlice 0 m.seen k n
  (List.range n).zip (hs.zip (ms.zip (vs.zip ss))) |>.map fun (i, h, b, v, sn) =>
    let l := if h.isEmpty then [initVersion b] else h
    ⟨k + i, byteCands a [.home, s.place a .ac true (k + i)] (pt <|> s.dropped a (k + i)) v sn l, pendByte m.pend (k + i), v, sn⟩

/-- Load a range in atomic units of u bytes (R140, R152). -/
def loadRange (a : Agent) (pt : Option (Place × Nat)) (k n u : Nat) (s : State) : List Byte × State :=
  let (q, l) := pickUnits s.seq (chunksOf (n + 1) u (s.byteViews a pt k n))
  let m := s.agent a
  let seen := smRun (fun old (it : ByteView × Version) =>
    if it.1.pend.isSome || it.2.id == it.1.view || it.2.id == 0 then old else some it.2.id) m.seen k l
  let s := if q = s.seq then s else { s with seq := q }
  (l.map fun (b, v) => b.pend.getD v.byte, if seen = m.seen then s else s.setAgent a { m with seen := seen })

/-! ### Writes that move (R82, R141, R150) -/

/-- A write reaches its home as it goes from one record to the next, and its line there is held by atomics (R132). -/
def State.joins (s : State) (k : Nat) (v w : Version) : Bool :=
  !v.present .home && w.present .home && (match v.by' with | some a => s.heldAt a k | none => false)

/-- The writes on record are to be as in `h`, which has the same writes in the same places of the list. One that reaches its home where atomics
hold the line joins the queue of the kettle, and stays as it was until its entry is applied (R132). -/
def withHist (h : SMap (List Version)) (s : State) : State :=
  if s.kettles.all fun x => x.2.atomq.isEmpty then moveHist h s
  else
    let both := s.hist.zip h
    let kept := both.map fun (o, n) => (o.1, (o.2.zip n.2).map fun (v, w) => if s.joins o.1 v w then v else w)
    let held := both.flatMap fun (o, n) => (o.2.zip n.2).filterMap fun (v, w) =>
      if s.joins o.1 v w then v.by'.map fun a => (o.1 / 64 * 64, a, v.id, w.rels) else none
    held.foldl (fun s x => joinQueue x.1 x.2.1 x.2.2.1 x.2.2.2 s) (moveHist kept s)

/-- A line of an agent's is parked at its home slice (R82). -/
def State.isParked (s : State) (a : Agent) (k : Nat) : Bool :=
  s.parked.any fun p => Agent.ac p.ac p.unit == a && p.line == k / 128

/-- The point of a store or release of an agent at a scope (Table 5-2): bytes of a parked line that are released wider than .ac merge at the
home, where they lie (R82). -/
def State.storePlace (s : State) (a : Agent) (sc : Scope) (l1 : Bool) (k : Nat) : Place :=
  if sc != .ac && s.isParked a k then .home else s.place a sc l1 k

/-- The cluster whose slice of an L1 a line of an agent maps to (R73). -/
def State.l1Owner (s : State) (a : Agent) (k : Nat) : Nat :=
  match a with
  | .ac n _ => if s.fused (n / 4) then 4 * (n / 4) + k / 128 % 4 else n
  | _ => 0

/-- Where a write is performed when it is released or ordered at a scope: its home where it is there already, or on its way there. -/
def State.pointOf (s : State) (a : Agent) (sc : Scope) (k : Nat) (v : Version) : Place :=
  if v.present .home || v.places.isEmpty then .home else s.storePlace a sc true k

/-- Perform one unreleased store at its points for a scope, line by line (R69), with the releases given; bytes of a parked line that are not released
stay parked (R82, R84). -/
def performStore (a : Agent) (sc : Scope) (rels : List (Agent × Scope)) (s : State) (w : PWrite) : State :=
  (if w.l1 then piecesOf 128 (w.bytes.length / 128 + 2) w.pa w.bytes else [(w.pa, w.bytes)]).foldl (fun s x =>
    performAt a (if rels.isEmpty && s.isParked a x.1 then .l1 (s.l1Owner a x.1) else s.storePlace a sc w.l1 x.1) rels w.tag x.1 x.2 s) s

/-- Perform one unreleased store, released at a scope. -/
def performPend (a : Agent) (sc : Scope) (s : State) (w : PWrite) : State := performStore a sc [(a, sc)] s w

/-- A write is an agent's own, and has been performed but not released (R66, R146). -/
def Version.unreleased (v : Version) (a : Agent) : Bool := v.by' == some a && v.rels.isEmpty

/-- Mark the writes that a test selects, by the write of their location in an agent's view, as released by it at a scope, and performed at its point
(R141). -/
def releaseSeen (a : Agent) (sc : Scope) (p : Version → Nat → Bool) (s : State) : State :=
  withHist ((s.viewed (s.agent a)).map fun (k, l, id) =>
    (k, if id = 0 then l else l.map fun v => if p v id then v.release s.wid a sc (s.pointOf a sc k v) else v)) s

/-- Mark the writes in an agent's view, and its own that were performed before, as released by it at a scope, and performed at its point
(R141). -/
def releaseView (a : Agent) (sc : Scope) (s : State) : State := releaseSeen a sc (fun v id => v.id == id || v.unreleased a) s

/-! ### Parked lines (R82) -/

/-- The agents of a cluster (R7). -/
def acAgents (n : Nat) : List Agent := (List.range 9).map fun u => .ac n u

/-- A store touches a line. -/
def PWrite.onLine (line : Nat) (w : PWrite) : Bool := decide (w.pa < 128 * (line + 1) ∧ 128 * line < w.pa + w.bytes.length)

/-- An agent has written bytes of a line that are in an L1 or parked and not at their home: stores not performed, or performed writes that a test
selects. -/
def State.lineAway (s : State) (a : Agent) (line : Nat) (p : Version → Bool) : Bool :=
  (s.agent a).pend.any (fun w => w.l1 && w.onLine line)
    || (smSlice [] s.hist (128 * line) 128).any fun l => l.any fun v => v.by' == some a && !v.places.isEmpty && !v.present .home && p v

/-- An agent holds bytes of a line that it has not released, in an L1 or parked. -/
def State.holdsLine (s : State) (a : Agent) (line : Nat) : Bool := s.lineAway a line fun v => v.rels.isEmpty

/-- Clusters whose accesses may go to the L1 of a cluster (R73). -/
def State.sharers (s : State) (owner : Nat) : List Nat :=
  if s.fused (owner / 4) then (List.range 4).map fun i => owner / 4 * 4 + i else [owner]

/-- Clusters and units that hold unreleased bytes of a line in the L1 of a cluster, and not yet parked (R82). -/
def State.toPark (s : State) (owner line : Nat) : List (Nat × Nat) :=
  (s.sharers owner).flatMap fun m => ((List.range 9).filter fun u =>
    s.place (.ac m u) .ac true (128 * line) == .l1 owner && s.holdsLine (.ac m u) line
      && !s.parked.any fun p => p.ac == m && p.unit == u && p.line == line).map fun u => (m, u)

/-- Die of a line of HBM, or of the port of a host window. -/
def lineDie (line : Nat) : Nat := match region 0 (128 * line) with | .hbm d _ _ => d | .host p _ => 2 * p | _ => 0

/-- Parked lines of a cluster at a die. -/
def State.parkedOf (s : State) (n die : Nat) : Nat := (s.parked.filter fun p => p.ac == n && p.die == die).length

/-- The lowest entry of the park area of a die that no parked line has. -/
def State.parkSlot (s : State) (die : Nat) : Nat :=
  let l := (s.parked.filter fun p => p.die == die).map (·.slot)
  ((List.range (l.length + 1)).find? fun i => !l.contains i).getD 0

/-- Bytes of a line become a parked line of an agent. -/
def parkOne (line : Nat) (s : State) (x : Nat × Nat) : State :=
  { s with parked := s.parked ++ [⟨lineDie line, line, x.1, x.2, s.parkSlot (lineDie line)⟩] }

/-- Released bytes of a line in an L1 merge at its home (R82, R140). -/
def mergeLine (owner line : Nat) (s : State) : State :=
  let moves := fun (v : Version) => v.present (.l1 owner) && !v.present .home && !v.rels.isEmpty
  if s.hist.any fun (k, l) => k / 128 == line && l.any moves then
    withHist (s.hist.map fun (k, l) => (k, if k / 128 = line then l.map fun v => if moves v then v.perform s.wid .home else v else l)) s
  else s

/-- Write back a line of a cluster's L1 (R82): released bytes merge, unreleased bytes become parked lines. -/
def State.writeBack (s : State) (owner line : Nat) : State :=
  let s := mergeLine owner line s
  (s.toPark owner line).foldl (parkOne line) s

/-- Parked lines whose bytes have all merged at their home are gone (R82): a release at .ac leaves them parked. -/
def unpark (s : State) : State :=
  if s.parked.isEmpty then s else { s with parked := s.parked.filter fun p => s.lineAway (.ac p.ac p.unit) p.line fun _ => true }

/-- Lines that a range of bytes touches. -/
def linesOf (pa len : Nat) : List Nat := (List.range ((pa + len - 1) / 128 + 1 - pa / 128)).map fun i => pa / 128 + i

/-- Lines of the L1 of a cluster that hold bytes not yet at their home. -/
def State.l1Lines (s : State) (n : Nat) : List Nat :=
  let done := s.hist.filterMap fun (k, l) => if l.any fun v => v.present (.l1 n) && !v.present .home then some (k / 128) else none
  let held := ((s.sharers n).flatMap fun m => (acAgents m).flatMap fun a =>
    (s.agent a).pend.flatMap fun w => if w.l1 then linesOf w.pa w.bytes.length else []).filter fun line => !(s.toPark n line).isEmpty
  (done ++ held).foldl (fun acc x => if acc.contains x then acc else acc ++ [x]) []

/-! ### Releases and acquires -/

/-- Cut a pending set into what is to be performed and the rest: the stores that `hit` selects, and every older store that one of
them overlaps, so that an agent's writes to a byte stay in program order (R139); each with whether `hit` selects it. -/
def takePend (hit : PWrite → Bool) (l : List PWrite) : List (PWrite × Bool) × List PWrite :=
  l.foldr (fun w (go, stay) =>
    if hit w then ((w, true) :: go, stay)
    else if go.any fun x => decide (w.pa < x.1.pa + x.1.bytes.length ∧ x.1.pa < w.pa + w.bytes.length) then ((w, false) :: go, stay)
    else (go, w :: stay)) ([], [])

/-- Perform the unreleased stores of an agent that `hit` selects, each by `f`; the older ones that they overlap are performed before them and stay
unreleased. -/
def performSome (a : Agent) (f : State → PWrite → State) (hit : PWrite → Bool) (s : State) : State :=
  let m := s.agent a
  if m.pend.any hit then
    let (go, stay) := takePend hit m.pend
    unpark (go.foldl (fun s x => if x.2 then f s x.1 else performStore a .ac [] s x.1) (s.setAgent a { m with pend := stay }))
  else s

/-- Release only the unreleased stores of an agent that `hit` selects. -/
def releaseSome (a : Agent) (sc : Scope) (hit : PWrite → Bool) (s : State) : State := performSome a (performPend a sc) hit s

/-- The stores of an agent that `hit` selects are performed at their targets, and stay unreleased (R66). -/
def performOnly (a : Agent) (hit : PWrite → Bool) (s : State) : State := performSome a (performStore a .ac []) hit s

/-- Release(a, sc) (R141): every unreleased store is performed, in program order, and everything in the view is
released at the scope. -/
def release (a : Agent) (sc : Scope) (s : State) : State :=
  let m := s.agent a
  let s := if m.pend.isEmpty then s else m.pend.foldl (performPend a sc) (s.setAgent a { m with pend := [] })
  unpark (releaseView a sc s)

/-- Numbers of an agent's own writes of a range that have been performed but not released. -/
def State.unreleasedIn (s : State) (a : Agent) (k n : Nat) : List Nat :=
  (smSlice [] s.hist k n).flatMap fun l => (l.filter fun v => v.unreleased a).map (·.id)

/-- Release the unreleased stores that touch a range, whole, performed before or not (R146). -/
def releaseRange (a : Agent) (sc : Scope) (k n : Nat) (s : State) : State :=
  let s := releaseSome a sc (fun w => decide (w.pa < k + n ∧ k < w.pa + w.bytes.length)) s
  let ids := s.unreleasedIn a k n
  if ids.isEmpty then s
  else unpark (withHist (s.hist.map fun (x, l) => (x, l.map fun v =>
    if v.unreleased a && ids.contains v.id then v.release s.wid a sc (s.pointOf a sc x v) else v)) s)

/-- Release, at a scope, the writes that agents have made for operations that a test selects (R155, R164). -/
def releaseOps (agents : List Agent) (sc : Scope) (p : OpTag → Bool) (s : State) : State :=
  let s := agents.foldl (fun s a => releaseSome a sc (fun w => p w.tag) s) s
  unpark (withHist (s.hist.map fun (k, l) => (k, l.map fun v => match v.by' with
    | some b => if agents.contains b && p v.tag then v.release s.wid b sc (s.pointOf b sc k v) else v
    | none => v)) s)

/-- A write has been released at a scope by an agent that shares it with a. -/
def acquirable (a : Agent) (sc : Scope) (v : Version) : Bool :=
  v.rels.any fun (b, t) => decide (Scope.rank sc ≤ Scope.rank t) && shares sc a b

/-- At an acquire at .pkg or .fab by an agent of a cluster, the dirty lines of host windows that the cluster's accesses put into an L1 are written back,
and its clean ones are dropped (R463). -/
def hostLinesBack (a : Agent) (sc : Scope) (s : State) : State :=
  match a with
  | .ac n _ =>
    if decide (3 ≤ Scope.rank sc) && s.hcached.any (·.2) then
      let owners := if s.fused (n / 4) then (List.range 4).map fun i => n / 4 * 4 + i else [n]
      let s := owners.foldl (fun s o =>
        ((s.l1Lines o).filter fun l => decide (0x8000000000000 ≤ 128 * l)).foldl (fun s l => s.writeBack o l) s) s
      { s with hostDrop := smSet s.hostDrop n s.wid }
    else s
  | _ => s

/-- No later access of the agent is performed before this instant (R142, R150). -/
def State.fresh (s : State) (a : Agent) : State :=
  let m := s.agent a
  if m.since = s.wid then s else s.setAgent a { m with since := s.wid }

/-- Acquire(a, sc) (R142): every location's newest write released at the scope enters the view. -/
def acquire (a : Agent) (sc : Scope) (s : State) : State :=
  let s := hostLinesBack a sc s
  let m := s.agent a
  let got := (s.viewed m).filterMap fun (k, l, id) =>
    let held := fun (v : Version) => v.id == id || v.id == 0
    ((eligible held l).find? fun v => acquirable a sc v && !held v).map fun v => (k, v.id)
  (if got.isEmpty then s else s.setAgent a { m with view := smPutAll got m.view }).fresh a

/-- FENCE(a, sc) (R150): the agent's strong stores and atomics are performed at their points for the scope, and no later access comes
before. -/
def fence (a : Agent) (sc : Scope) (s : State) : State :=
  (withHist (s.hist.map fun (k, l) =>
    (k, l.map fun v => if v.strong && v.by' == some a then v.perform s.wid (s.pointOf a sc k v) else v)) s).fresh a

/-! ### Stores and strong accesses -/

/-- An ordinary store joins the pending set (R145). -/
def addStore (a : Agent) (s : State) (w : PWrite) : State :=
  let m := s.agent a
  s.setAgent a { m with pend := m.pend ++ [w] }

/-- An ordinary store of what the agent does now, with the VA it was translated from. -/
def plainStore (a : Agent) (l1 : Bool) (va k : Nat) (bytes : List Byte) (s : State) : State :=
  addStore a s ⟨k, bytes, l1, va, s.opTag a⟩

/-- The VA of a store that went through no translation. -/
def noVa : Nat := 2 ^ 55

/-- A strong store at a scope (R143, R146). -/
def strongStore (a : Agent) (sc : Scope) (l1 : Bool) (k : Nat) (bytes : List Byte) (s : State) : State :=
  let s := releaseRange a sc k bytes.length s
  let pl := s.place a sc l1 k
  let (below, s) := meeting a pl (inView (s.agent a)) k bytes.length s
  performRaw a pl [(a, sc)] true (s.opTag a) below k bytes s

/-- The newest write that every strong load at a scope sees by now (R168). -/
def State.pollBound (s : State) (sc : Scope) : Nat := match sc with | .fab => s.farPolls.old | _ => s.polls.old

/-- A strong load at a scope (R146, R148): it may have been performed at any instant since the agent's last order that the bound of a poll
allows (R168). -/
def strongLoad (a : Agent) (sc : Scope) (l1 : Bool) (k n : Nat) (s : State) : List Byte × State :=
  let s := releaseRange a sc k n s
  loadRange a (some (s.place a sc l1 k, max (s.agent a).since (s.pollBound sc))) k n n s

/-- An atomic read and write at the coherence point with nothing between (R149); `f` gives the bytes to write from
the bytes read, or none for a comparison that fails. -/
def atomic (a : Agent) (sc : Scope) (l1 : Bool) (k n : Nat) (f : List Byte → Option (List Byte)) (s : State) :
    List Byte × State :=
  let s := releaseRange a sc k n s
  let pl := s.place a sc l1 k
  let (below, s) := meeting a pl (known (s.agent a)) k n s
  atomicRaw a pl sc below k n f s

def le64 (l : List Byte) : W64 := BitVec.ofNat 64 (leNat l)
def bytes64 (w : W64) : List Byte := leBytes 8 w.toNat

/-- 64-bit words of a list of bytes. -/
def words64 : List Byte → List W64
  | a :: b :: c :: d :: e :: f :: g :: h :: r => le64 [a, b, c, d, e, f, g, h] :: words64 r
  | _ => []

end Sys2Proof.Machine
end

