-- ==== Sys2Proof/Machine/Xlate.lean ====
section
/-! DEFINITION. The step monad, master identities, access tables (R38 to R47) and translation (02_translation.md). -/

namespace Sys2Proof.Machine

/-- Why an operation of a context ends without its effect. -/
inductive Stop where
  /-- A trap cause of Table 15-2 with TRAPINFO0 and TRAPINFO1. -/
  | trap (cause : Nat) (i0 i1 : W64)
  /-- A translation fault at a die: cause, kind, faulting address, level, EPA and entry of its record (R58). -/
  | xlate (die cause : Nat) (kind : AKind) (va : W64) (level : Nat) (epa ent : W64)
  /-- A denied access: the record of Table 1-10 and the address that was translated (R45). -/
  | access (w0 w1 va : W64)
  /-- An access to a granule that a carve moves (R80): its record, and the address that was translated. -/
  | carve (w0 w1 va : W64)
  /-- The context waits and has changed nothing. -/
  | wait
  /-- The context has made a release and waits for the ports to confirm what it covers (R166). -/
  | posted
deriving DecidableEq, Repr

/-- A step's computation over the state, which may end in a `Stop`. -/
abbrev M (α : Type) := EStateM Stop State α

/-! ### Fault records -/

def State.die (s : State) (d : Nat) : Die := smGet Die.reset s.dies d
def State.setDie (s : State) (d : Nat) (x : Die) : State := { s with dies := smSet s.dies d x }
def State.modDie (s : State) (d : Nat) (f : Die → Die) : State := s.setDie d (f (s.die d))

/-- Code of CTX of a fault record (Table 2-8). -/
def ctxCode : Agent → Nat
  | .ac _ u => if u ≤ 6 then u else if u = 8 then 7 else 9
  | .pot _ => 7
  | .ingress _ => 8
  | .kettle _ => 9
  | .disp _ => 10
  | .mcore _ | .root => 11
  | .host _ => 12

/-- Code of an access kind (Table 1-10). -/
def akCode : AKind → Nat
  | .read => 0 | .write => 1 | .atomic => 2 | .fetch => 3 | .issue => 4

/-! ### Access tables -/

/-- Target of an MMIO offset (Tables 1-3, 1-8): an index, the hardwired blocks, or none. -/
inductive MmioTarget where
  | idx (i : Nat)
  | tables
  | rootBlock
  | none
deriving DecidableEq, Repr

def mmioTarget (die off : Nat) : MmioTarget :=
  if off < 0x10000 then .idx 18
  else if off < 0x20000 then .idx 19
  else if off < 0x40000 then .idx 20
  else if off < 0x44000 then .idx 23
  else if off < 0x80000 then .none
  else if off < 0x90000 then .idx 24
  else if off < 0x100000 then .none
  else if off < 0x140000 then .idx (32 + (off - 0x100000) / 0x1000)
  else if off < 0x200000 then .none
  else if off < 0x300000 then .idx (2 + (off - 0x200000) / 0x10000)
  else if off < 0x400000 then .none
  else if off < 0x440000 then .idx 21
  else if off < 0x600000 then .none
  else if off < 0x640000 then .idx 22
  else if off < 0x800000 then .none
  else if off < 0x830000 then .tables
  else if off < 0xF00000 then .none
  else if die = 0 then .rootBlock
  else .none

/-- Target ID of a region, or none (R39). -/
def targetOf (r : Region) : Option Nat :=
  match r with
  | .hbm d pc _ => some (d * 128 + pc / 64)
  | .scratch n _ => some (n / 64 * 128 + 25)
  | .host p _ => some ((if p = 0 then 0 else 2) * 128 + 26)
  | .mmio d off => (match mmioTarget d off with | .idx i => some (d * 128 + i) | _ => none)
  | .none => none

/-- Access fault record (Table 1-10). -/
def accRecord (a : Agent) (target region : Nat) (k : AKind) (pa : Nat) : W64 × W64 :=
  (BitVec.ofNat 64 (masterId a * 2 ^ 48 + target * 2 ^ 32 + region * 2 ^ 24 + akCode k * 2 ^ 20), BitVec.ofNat 64 (pa % 2 ^ 52))

/-- An entry holds every permission that the access needs (R41). -/
def AclEntry.grants (e : AclEntry) : AKind → Bool
  | .read => e.r | .write => e.w | .atomic => e.r && e.w | .fetch => e.x | .issue => e.i

/-- Entries of a target in force, by number. -/
def State.entries (s : State) (target : Nat) : List (Nat × AclEntry) :=
  let d := s.die (target / 128)
  d.acl.filterMap fun (k, e) => if k / 64 = target % 128 then some (k % 64, e) else none

/-- The granule is permitted by some entry (R42). -/
def permitted (es : List (Nat × AclEntry)) (a : Agent) (targetDie : Nat) (k : AKind) (g : Nat) : Bool :=
  es.any fun (_, e) =>
    e.classes.getLsbD (classBit a) && (!e.sameDie || a.die? == some targetDie) && decide (e.base ≤ g ∧ g ≤ e.limit)
      && e.grants k

/-- Lowest entry in force whose range contains a granule (Table 1-10, REGION): an entry with VALID = 0 does not count (DESIGN CHOICE, log
entry 112). -/
def regionOf (es : List (Nat × AclEntry)) (g : Nat) : Nat :=
  match es.find? fun (_, e) => decide (e.base ≤ g ∧ g ≤ e.limit) with
  | some (i, _) => i
  | none => 0xFF

/-- Current extent of a cluster's scratch in granules, and the granules a carve moves (R23, R80). -/
def State.scratchSize (s : State) (n : Nat) : Nat :=
  match smFind s.acs n with
  | some a => (match a.cc.carve with | some c => max c.old c.new | none => s.sgran n)
  | none => s.sgran n

def State.moving (s : State) (n g : Nat) : Bool :=
  match smFind s.acs n with
  | some a => (match a.cc.carve with | some c => decide (min c.old c.new ≤ g ∧ g < max c.old c.new) | none => false)
  | none => false

/-- Registers that only the root core writes: the host port registers (R460) and the boot registers but BOOTGO
(R491). -/
def rootOnly (d off : Nat) : Bool :=
  ((d == 0 || d == 2) && decide (0x8000 ≤ off ∧ off < 0x9000)) || (d == 0 && decide (0x800 ≤ off ∧ off < 0x818 ∧ off / 8 * 8 ≠ 0x808))

/-- The mailbox table holds slots and no other register (R255). -/
def mailboxSlot (off : Nat) : Bool := decide (0x40000 ≤ off ∧ off < 0x44000)

/-- Offsets of kettle ports that only the issue path writes, and what an issue write reaches: the ABORT register of a port (R104), and the
mailbox slots (R41). -/
def deliveryOnly (off : Nat) : Bool := decide (0x100000 ≤ off ∧ off < 0x140000 ∧ 0x100 ≤ off % 0x1000 ∧ off % 0x1000 < 0x180)
def issueReg (off : Nat) : Bool :=
  decide (0x100000 ≤ off ∧ off < 0x140000 ∧ off % 0x1000 / 8 * 8 = 8) || mailboxSlot off

/-- One access of `len` bytes at a physical address, all in one 4 KiB granule: refused with a record, or permitted
(R17, R19, R23, R25, R42, R43). Where both the access table and the extent of a scratch window deny an access, the refusal is the
table's (DESIGN CHOICE, log entry 88). An MMIO access of a wrong size or alignment is refused for that before the table or the root core's
registers are looked at (DESIGN CHOICE, log entry 113). An atomic to a register that issue writes reach needs R, W and I of one entry (R41, R42). -/
def checkGranule (s : State) (a : Agent) (k : AKind) (pa len : Nat) : Option Stop :=
  let own := a.die
  let deny := fun (t r p : Nat) => let (w0, w1) := accRecord a t r k p; some (Stop.access w0 w1 0)
  if 2 ^ 52 ≤ pa then deny 0xFFFF 0xFF pa
  else
    let r := region own pa
    let table := fun (t : Nat) =>
      if a = .root then none
      else
        let es := s.entries t
        if permitted es a (t / 128) k (pa / 4096) then none else deny t (regionOf es (pa / 4096)) pa
    match r with
    | .none => deny 0xFFFF 0xFF pa
    | .hbm d pc _ => table (d * 128 + pc / 64)
    | .host p _ => table ((if p = 0 then 0 else 2) * 128 + 26)
    | .scratch n off =>
      let t := n / 64 * 128 + 25
      let isOwn := match a with | .ac m u => m == n && u != 6 | _ => false
      match (if isOwn then none else table t) with
      | some x => some x
      | none =>
        let lim := s.scratchSize n * 262144
        if lim < off + len then deny t 0xFE (if off < lim then pa + (lim - off) else pa)
        else
          let g := if s.moving n (off / 262144) then off else (off + len - 1) / 262144 * 262144
          if s.moving n (g / 262144) then
            (let (w0, w1) := accRecord a t 0xFE k (pa - off + g); some (.carve w0 w1 0))
          else none
    | .mmio d off =>
      let sized := decide ((len = 4 ∨ len = 8) ∧ pa % len = 0)
      match mmioTarget d off with
      | .none => deny 0xFFFF 0xFF pa
      | .tables | .rootBlock => if !sized then deny 0xFFFF 0xFE pa else if a = .root then none else deny 0xFFFF 0xFF pa
      | .idx i =>
        let wr := k == .write || k == .atomic
        if !sized then deny (d * 128 + i) 0xFE pa
        else if wr && a != .root && rootOnly d off then deny (d * 128 + i) 0xFF pa
        else if wr && deliveryOnly off then
          (let (w0, w1) := accRecord a (d * 128 + i) 0xFE .issue pa; some (Stop.access w0 w1 0))
        else
          let k' := if k == .write && issueReg off then .issue else k
          if a = .root then none
          else
            let es := (s.entries (d * 128 + i)).filter fun x => x.2.i || !(k == .atomic && issueReg off)
            if permitted es a d k' (pa / 4096) then none
            else
              let (w0, w1) := accRecord a (d * 128 + i) (regionOf (s.entries (d * 128 + i)) (pa / 4096)) k' pa
              some (Stop.access w0 w1 0)

/-- The pieces of a range that lie each in one 4 KiB granule. -/
def granulePieces : Nat → Nat → Nat → List (Nat × Nat)
  | 0, _, _ => []
  | f + 1, pa, len =>
    if len = 0 then []
    else
      let n := min len (4096 - pa % 4096)
      (pa, n) :: granulePieces f (pa + n) (len - n)

/-- Check an access to a physical range (R42): the first refusal of its granules. -/
def checkAccess (s : State) (a : Agent) (k : AKind) (pa len : Nat) : Option Stop :=
  (granulePieces (len / 4096 + 2) pa len).findSome? fun (p, n) => checkGranule s a k p n

/-- A refusal with the address that the master translated. -/
def Stop.withVa (st : Stop) (va : W64) : Stop :=
  match st with
  | .access w0 w1 _ => .access w0 w1 va
  | .carve w0 w1 _ => .carve w0 w1 va
  | x => x

/-! ### Translation -/

/-- Fields of a table entry (Table 2-3). -/
def pteV (w : W64) : Bool := w.getLsbD 0
def pteType (w : W64) : Nat := (w.extractLsb' 1 2).toNat
def pteAddr (w : W64) : Nat := (w.extractLsb' 7 45).toNat * 128
def pteContig (w : W64) : Nat := (w.extractLsb' 58 2).toNat
def pteAttr (w : W64) : BitVec 2 := w.extractLsb' 56 2
def pteR (w : W64) : Bool := w.getLsbD 53
def pteW (w : W64) : Bool := w.getLsbD 54
def pteX (w : W64) : Bool := w.getLsbD 55

/-- Reserved bits zero, ATTR not 11 (Table 2-3). -/
def pteCommonOk (w : W64) : Bool :=
  w.extractLsb' 60 4 == 0 && !w.getLsbD 52 && w.extractLsb' 3 4 == 0 && pteAttr w != 3

/-- CONTIG, ATTR, X, W and R are zero (Table 2-4). -/
def ptePointer (w : W64) : Bool := w.extractLsb' 53 7 == 0

/-- What a valid entry is at a level (3 is the fine level): a table, a fine table, a leaf of a size, or malformed
(R51, R54). -/
inductive PteKind where
  | table (addr : Nat)
  | fine (addr : Nat)
  | leaf (lg : Nat)
  | bad
deriving DecidableEq, Repr

def pteKind (level va : Nat) (w : W64) : PteKind :=
  let addr := pteAddr w
  if !pteCommonOk w then .bad
  else match level, pteType w with
    | 2, 0 | 1, 0 => if ptePointer w && addr % 65536 == 0 then .table addr else .bad
    | 1, 1 => if pteContig w == 0 && addr % 2 ^ 29 == 0 then .leaf 29 else .bad
    | 0, 1 =>
      if addr % 65536 ≠ 0 then .bad
      else match pteContig w with
        | 0 => .leaf 16
        | 1 => if addr / 65536 % 32 = va / 65536 % 32 then .leaf 21 else .bad
        | 2 => if addr / 65536 % 512 = va / 65536 % 512 then .leaf 25 else .bad
        | _ => .bad
    | 0, 2 => if ptePointer w then .fine addr else .bad
    | 3, 1 => if pteContig w == 0 && addr % 4096 == 0 then .leaf 12 else .bad
    | _, _ => .bad

/-- The address lies in HBM, in either view (R50). -/
def inHbm (pa : Nat) : Bool := match region 0 pa with | .hbm .. => true | _ => false

/-- A walk's read of an 8-byte entry: a strong load at .pkg by the die's walker hardware, performed now (R50). A read that the access
table denies is the requesting context's access fault, with the walker's master ID (DESIGN CHOICE, log entry 90). -/
def readEntry (d pa : Nat) : M W64 := fun s =>
  match checkAccess s (.disp d) .read pa 8 with
  | some x => .error x s
  | none =>
    let (b, s) := strongLoad (.disp d) .pkg false (canonPa d pa) 8 (s.fresh (.disp d))
    .ok (le64 b) s

/-- Choose among differing values a translation cache and memory hold (R55, R67, R68). -/
def chooseDiffering {α : Type} [DecidableEq α] (x : α) (l : List α) : M α := fun s =>
  let others := l.foldl (fun acc y => if y = x ∨ acc.contains y then acc else acc ++ [y]) []
  if others.isEmpty then .ok x s
  else
    let all := x :: others
    .ok (all.getD (Config.tlbChoice s.seq % all.length) x) { s with seq := s.seq + 1 }

/-- Result of a walk: physical address of the address, its page's log size, and the leaf. -/
structure Leaf where
  pa : Nat
  lg : Nat
  ent : W64
deriving DecidableEq, Repr

/-- The leaf grants an access kind (R53). -/
def leafOk (r w x : Bool) : AKind → Bool
  | .read => r | .write => w | .atomic => r && w | .fetch => x | .issue => true

/-- Add to what a cache of at most `cap` entries may hold; beyond that one of the others has left it, which one is free (Table 2-5). -/
def hold {α : Type} [DecidableEq α] (cap seq : Nat) (x : α) (l : List α) : List α × Nat :=
  if l.contains x then (l, seq)
  else if l.length < cap then (x :: l, seq)
  else (x :: l.eraseIdx (Config.tlbChoice seq % l.length), seq + 1)

/-- Entries of a walk cache (Table 2-5). -/
def wcCap : Nat := 512

/-- The translation caches (Table 2-5): the micro-TLB of a unit, the TLB of a cluster, the TLB of a die. -/
inductive TlbAt where
  | unit (n u : Nat)
  | ac (n : Nat)
  | die (d : Nat)
deriving DecidableEq, Repr

/-- Entries that a translation cache holds (Table 2-5). -/
def TlbAt.cap : TlbAt → Nat
  | .unit .. => 64 | .ac _ => 1024 | .die _ => 32768

/-- The translation caches that an agent's translations go through, nearest first (Table 2-5). The dispatch hardware of a die uses the die's
(DEDUCED, log entry 114). -/
def tlbsOf (a : Agent) : List TlbAt :=
  match a with
  | .ac n u => if u < 6 then [.unit n u, .ac n, .die (n / 64)] else [.die (n / 64)]
  | a => [.die a.die]

/-- What a translation cache holds. -/
def State.tlbAt (s : State) : TlbAt → List TlbEntry
  | .unit n u => (match smFind s.acs n with | some a => smGet [] a.utlb u | none => [])
  | .ac n => (match smFind s.acs n with | some a => a.tlb | none => [])
  | .die d => (s.die d).tlb

/-- A translation cache holds these entries. -/
def State.setTlb (s : State) (c : TlbAt) (l : List TlbEntry) : State :=
  match c with
  | .unit n u => let a := smGet AC.reset s.acs n; { s with acs := smSet s.acs n { a with utlb := smSet a.utlb u l } }
  | .ac n => let a := smGet AC.reset s.acs n; { s with acs := smSet s.acs n { a with tlb := l } }
  | .die d => s.modDie d fun x => { x with tlb := l }

/-- A translation fills the caches on its way back to an agent, from the one that held it (R56). -/
def tlbFill (e : TlbEntry) : List TlbAt → State → State
  | [], s => s
  | c :: r, s =>
    if (s.tlbAt c).contains e then s
    else
      let (l, q) := hold c.cap s.seq e (s.tlbAt c)
      tlbFill e r { s.setTlb c l with seq := q }

/-- An entry of a table at a level, as memory or the walk cache holds it; a pointer to a table in HBM enters the walk cache (R56). -/
def walkEntry (d level va epa : Nat) : M W64 := do
  let w ← readEntry d epa
  let s ← get
  let held := (s.die d).wc.filter (fun e => e.level == level && e.vaTop == va / 2 ^ (if level = 2 then 42 else 29))
  let w ← chooseDiffering w (held.map (·.ent))
  match level, pteV w, pteKind level va w with
  | 2, true, .table a | 1, true, .table a =>
    modify fun s =>
      let dd := s.die d
      let e : WcEntry := ⟨level, va / 2 ^ (if level = 2 then 42 else 29), w⟩
      if !inHbm a ∨ dd.wc.contains e then s
      else
        let (wc, q) := hold wcCap s.seq e dd.wc
        { s.setDie d { dd with wc := wc } with seq := q }
  | _, _, _ => pure ()
  pure w

/-- Walk from an entry of a level (R48, R50 to R54). The first argument bounds the levels. -/
def walkFrom (d : Nat) (k : AKind) (va : Nat) : Nat → Nat → Nat → M Leaf
  | 0, _, _ => throw .wait
  | f + 1, level, epa => do
    let w ← walkEntry d level va epa
    let failed := fun (cause : Nat) =>
      Stop.xlate d cause k (BitVec.ofNat 64 va) level (BitVec.ofNat 64 epa) w
    if !pteV w then throw (failed 1)
    else match pteKind level va w with
      | .bad => throw (failed 3)
      | .table a =>
        if !inHbm a then throw (failed 3)
        else walkFrom d k va f (level - 1) (a + 8 * (va / 2 ^ (if level = 2 then 29 else 16) % 8192))
      | .fine a => if !inHbm a then throw (failed 3) else walkFrom d k va f 3 (a + 8 * (va / 4096 % 16))
      | .leaf lg =>
        if leafOk (pteR w) (pteW w) (pteX w) k then
          let size := if lg = 29 then 29 else if lg = 12 then 12 else 16
          pure ⟨pteAddr w / 2 ^ size * 2 ^ size + va % 2 ^ size, lg, w⟩
        else throw (failed 2)

/-- A walk of a die from its TTBASE (R49, R50). -/
def walk (d : Nat) (k : AKind) (va : Nat) : M Leaf := do
  let s ← get
  let tt := smGet 0 (s.die d).regs 0x0100
  let base := (tt.extractLsb' 16 36).toNat * 65536
  let epa := base + 8 * (va / 2 ^ 42 % 8192)
  if !tt.getLsbD 63 then throw (.xlate d 4 k (BitVec.ofNat 64 va) 2 0 0)
  else if !inHbm base then throw (.xlate d 3 k (BitVec.ofNat 64 va) 2 (BitVec.ofNat 64 epa) 0)
  else walkFrom d k va 4 2 epa

/-- The cache entry of a walk's result (R54, R56). -/
def Leaf.entry (va : Nat) (l : Leaf) : TlbEntry :=
  let pa0 := l.pa - l.pa % 2 ^ (if l.lg = 29 then 29 else if l.lg = 12 then 12 else 16)
  ⟨va / 2 ^ l.lg * 2 ^ l.lg, l.lg, pa0 / 2 ^ l.lg * 2 ^ l.lg, pteR l.ent, pteW l.ent, pteX l.ent, pteAttr l.ent⟩

/-- Physical address and ATTR that a cache entry gives an address. -/
def TlbEntry.gives (e : TlbEntry) (va : Nat) : Nat × BitVec 2 := (e.pa + va % 2 ^ e.lg, e.attr)

/-- The entries that an agent's caches hold for an access to an address. -/
def State.tlbHits (s : State) (a : Agent) (k : AKind) (va : Nat) : List TlbEntry :=
  (tlbsOf a).flatMap fun c => (s.tlbAt c).filter fun e => e.va == va / 2 ^ e.lg * 2 ^ e.lg && leafOk e.r e.w e.x k

/-- Physical address and ATTR of an address of one page, translated for an agent on its die (R48 to R56): what a walk finds now, or what one of
the agent's translation caches holds. -/
def xlate (a : Agent) (k : AKind) (va : Nat) : M (Nat × BitVec 2) := fun s =>
  let hits := s.tlbHits a k va
  match walk a.die k va s with
  | .ok l s =>
    (match chooseDiffering (l.pa, pteAttr l.ent) (hits.map fun e => e.gives va) s with
    | .ok r s =>
      let used := if r = (l.pa, pteAttr l.ent) then some (l.entry va) else hits.find? fun e => e.gives va == r
      .ok r (match used with | some e => tlbFill e (tlbsOf a) s | none => s)
    | .error e s => .error e s)
  | .error e s =>
    match hits with
    | [] => .error e s
    | h :: _ =>
      if Config.tlbChoice s.seq % 2 = 0 then .ok (h.gives va) (tlbFill h (tlbsOf a) { s with seq := s.seq + 1 })
      else .error e { s with seq := s.seq + 1 }

/-- The pieces of a virtual range, each in one 4 KiB page. -/
def pagePieces (va len : Nat) : List (Nat × Nat) := granulePieces (len / 4096 + 2) va len

/-- Check one page's piece of an access: an access to MMIO lies in one page (R25). -/
def checkPiece (s : State) (a : Agent) (k : AKind) (several : Bool) (pa n : Nat) : Option Stop :=
  match region a.die pa with
  | .mmio .. => checkGranule s a k pa (if several then 0 else n)
  | _ => checkAccess s a k pa n

/-- ATTR 00 lets a line of HBM lie in an L1 (Table 5-2), and one of a host window where R463 allows it. -/
def cacheable (own pa : Nat) (at' : BitVec 2) : Bool :=
  at' == 0 && (match region own pa with | .hbm .. | .host .. => true | _ => false)

/-- Quota of parked lines of a die (Table 3-5). -/
def State.parkQuota (s : State) (d : Nat) : Nat :=
  let q := (smGet 0 (s.die d).regs 0x0418).toNat % 32
  if q = 0 then 0 else 2 ^ (min q 20)

/-- A write-back of a line of an L1 would park more lines of some cluster than the quota leaves (R84). -/
def State.overQuota (s : State) (owner line : Nat) : Bool :=
  let l := s.toPark owner line
  l.any fun x => decide (s.parkQuota (lineDie line) < s.parkedOf x.1 (lineDie line) + (l.filter fun y => y.1 == x.1).length)

/-- The clusters whose slices of an L1 an access of a cluster's CC or engine to a piece goes to, with its lines (R69, R73). -/
def State.slicesOf (s : State) (a : Agent) (pa len : Nat) (at' : BitVec 2) : List (Nat × Nat) :=
  match a with
  | .ac _ u =>
    if u < 6 ∧ cacheable a.die pa at' then
      (linesOf (canonPa a.die pa) len).filterMap fun x => match s.place a .ac true (128 * x) with | .l1 o => some (o, x) | .home => none
    else []
  | _ => []

/-- A carve is in progress on a cluster (R79). -/
def State.carving (s : State) (n : Nat) : Bool := match smFind s.acs n with | some a => a.cc.carve.isSome | none => false

/-- An access of a cluster's CC or engine to a piece stalls while a carve drains: every cache access of the cluster that carves, and in a fused quad
every one that maps to its slice (Table 3-3; that a copy, a kettle, pot hardware and masters of other clusters outside the quad do not stall is a DESIGN
CHOICE, log entry 126). -/
def State.drains (s : State) (a : Agent) (pa len : Nat) (at' : BitVec 2) : Bool :=
  (s.slicesOf a pa len at').any fun x => s.carving x.1 || (match a with | .ac n _ => s.carving n | _ => false)

/-- An access of a cluster's CC or engine to a piece replaces, for a line that the L1 does not hold already, a line whose bytes would park beyond the
quota (R70, R84); which lines an access replaces is free, and is the same when it is tried again. -/
def State.replacesOver (s : State) (a : Agent) (pa len : Nat) (at' : BitVec 2) : Bool :=
  (s.slicesOf a pa len at').any fun x => !(s.l1Lines x.1).contains x.2 && (s.l1Lines x.1).any fun l =>
    !(linesOf (canonPa a.die pa) len).contains l && s.overQuota x.1 l && Config.replaces x.2 l

/-- A byte range as an agent of a die translates it: its pieces' physical addresses, lengths and ATTR, all translated (R62) and then all checked
(R42), with their virtual addresses. A range that goes on beyond the 55 bits of a VA has bytes whose addresses are out of range (R16; DEDUCED, log
entry 115). -/
def reachable (a : Agent) (k : AKind) (va len : Nat) : M (List (Nat × Nat × Nat × BitVec 2)) := do
  if 2 ^ 55 < va + len then throw (.trap 0x03 (BitVec.ofNat 64 va) 0)
  let ps ← (pagePieces va len).mapM fun (v, n) => do
    let (pa, at') ← xlate a k v
    pure (v, pa, n, at')
  let s ← get
  match ps.findSome? fun (v, pa, n, _) => (checkPiece s a k (decide (1 < ps.length)) pa n).map (·.withVa (BitVec.ofNat 64 v)) with
  | some x => throw x
  | none => pure ps

/-- A byte range as an agent reaches it before anything is performed: it translates and may be accessed, no carve stalls it (R79), and
no line that it replaces would park beyond the quota, which is the park-quota fault (R84). -/
def reach (a : Agent) (k : AKind) (va len : Nat) : M (List (Nat × Nat × BitVec 2)) := do
  let ps ← reachable a k va len
  let s ← get
  if ps.any fun (_, pa, n, at') => s.drains a pa n at' then throw .wait
  match ps.find? fun (_, pa, n, at') => s.replacesOver a pa n at' with
  | some (v, _) => throw (.trap 0x0B (BitVec.ofNat 64 v) 0)
  | none => pure (ps.map fun (_, pa, n, at') => (pa, n, at'))

/-- Bits 63:55 of an address are zero (R16). -/
def addrRange (w : W64) : M Unit := if w.toNat < 2 ^ 55 then pure () else throw (.trap 0x03 w 0)

end Sys2Proof.Machine
end

