-- ==== Sys2Proof/Machine/Ops.lean ====
section
/-! DEFINITION. Named operations over the registers and queues of an array cluster, timeline counters, token FIFOs
and the fault queue of a die. -/

namespace Sys2Proof.Machine

/-- What a step answers. -/
abbrev Res := Host.Outcome State Fault Refusal

/-! ### Clusters and engines -/

def State.ac (s : State) (n : Nat) : AC := smGet AC.reset s.acs n
def State.setAc (s : State) (n : Nat) (a : AC) : State := { s with acs := smSet s.acs n a }
def State.modAc (s : State) (n : Nat) (f : AC → AC) : State := s.setAc n (f (s.ac n))
def State.modCC (s : State) (n : Nat) (f : CC → CC) : State := s.modAc n fun a => { a with cc := f a.cc }

def AC.eng (a : AC) : Eid → Eng
  | .vl => a.vl | .va => a.va | .vs => a.vs | .mx => a.mx | .ax => a.ax

def AC.setEng (a : AC) (e : Eid) (x : Eng) : AC :=
  match e with
  | .vl => { a with vl := x } | .va => { a with va := x } | .vs => { a with vs := x }
  | .mx => { a with mx := x } | .ax => { a with ax := x }

def State.modEng (s : State) (n : Nat) (e : Eid) (f : Eng → Eng) : State :=
  s.modAc n fun a => a.setEng e (f (a.eng e))

def allEng : List Eid := [.vl, .va, .vs, .mx, .ax]

/-- Engine codes 1 to 5 (R271), as a number. -/
def eidCode (e : Eid) : Nat := e.code

/-- The engine of a code 1 to 5. -/
def eidOf (c : Nat) : Option Eid :=
  match c with
  | 1 => some .vl | 2 => some .va | 3 => some .vs | 4 => some .mx | 5 => some .ax | _ => none

/-- The memory agent of an engine. -/
def engAgent (n : Nat) (e : Eid) : Agent := .ac n (eidCode e)

/-! ### Registers -/

/-- s0 reads zero (R267). -/
def CC.s (c : CC) (r : BitVec 6) : W64 := if r = 0 then 0 else smGet 0 c.sreg r.toNat

/-- A write to s0 is discarded (R267). -/
def CC.setS (c : CC) (r : BitVec 6) (v : W64) : CC := if r = 0 then c else { c with sreg := smPut 0 c.sreg r.toNat v }

/-- p0 reads true (R267). -/
def CC.p (c : CC) (r : BitVec 4) : Bool := r == 0 || c.preg.getLsbD r.toNat

/-- A write to p0 is discarded (R267). -/
def CC.setP (c : CC) (r : BitVec 4) (v : Bool) : CC :=
  if r = 0 then c
  else { c with preg := if v then c.preg ||| BitVec.twoPow 16 r.toNat else c.preg &&& ~~~ BitVec.twoPow 16 r.toNat }

/-- A guard slot: none is empty (R229). -/
def CC.guard (c : CC) (g : Nat) : Option Bool := smFind c.greg g

/-- Values of CC system registers that no write has changed (reset columns of Tables 12-2 and 14-7). -/
def sysDefault (n : Nat) : W64 :=
  if n = 0x041 then 0x1010
  else if 0x080 ≤ n ∧ n ≤ 0x085 then 32
  else if 0x088 ≤ n ∧ n ≤ 0x08D then 256
  else 0

def CC.sr (c : CC) (n : Nat) : W64 := smGet (sysDefault n) c.sys n
def CC.setSr (c : CC) (n : Nat) (v : W64) : CC := { c with sys := smPut (sysDefault n) c.sys n v }

/-- Registers of an engine: x0 to x15 and the loop registers 16 to 21 (Table 9-5). -/
def Eng.xr (e : Eng) (r : Nat) : W64 := smGet 0 e.x r
def Eng.setX (e : Eng) (r : Nat) (v : W64) : Eng := { e with x := smPut 0 e.x r v }
/-- IDLE, with no token owed by an instruction held at its retirement (R156, R220). -/
def Eng.idle (e : Eng) : Bool := e.st == 0 && e.giveN == 0
def Eng.cbr (e : Eng) (i : Nat) : W64 := smGet 0 e.cb i

/-- A field of a word: `n` bits from bit `lo`. -/
def bits (w : W64) (lo n : Nat) : Nat := w.toNat / 2 ^ lo % 2 ^ n

/-- A word with the field of `n` bits from bit `lo` replaced. -/
def setBits (w : W64) (lo n v : Nat) : W64 :=
  BitVec.ofNat 64 (w.toNat - bits w lo n * 2 ^ lo + v % 2 ^ n * 2 ^ lo)

/-! ### MMIO registers of a die -/

/-- Values of MMIO registers that nothing has written (reset columns), by offset; zero where the column holds 0. -/
def regDefault (off : Nat) : W64 :=
  if off = 0x8000 then 0x6000
  else if off = 0x8010 then 30
  else if off = 0x10000 then 512
  else if off = 0x10008 then 32
  else if off = 0x10020 then 760
  else if off = 0x600140 then 7
  else 0

/-- A stored MMIO register. -/
def Die.reg (d : Die) (off : Nat) : W64 := smGet (regDefault off) d.regs off
def Die.setReg (d : Die) (off : Nat) (v : W64) : Die := { d with regs := smPut (regDefault off) d.regs off v }
def State.reg (s : State) (d off : Nat) : W64 := (s.die d).reg off
def State.setReg (s : State) (d off : Nat) (v : W64) : State := s.modDie d fun x => x.setReg off v

/-- A word from fields: pairs of a field's lowest bit and its value. -/
def pack (l : List (Nat × Nat)) : W64 := BitVec.ofNat 64 (l.foldl (fun a (p, v) => a + v * 2 ^ p) 0)

/-- TEMP ≥ TWARN, both s16 (R494). -/
def Die.hot (d : Die) : Bool := !((d.reg 0x10018).setWidth 16).slt ((d.reg 0x10020).setWidth 16)

/-- The 54:0 field of a register that holds an address (Tables 10-5, 15-1). -/
def addr55 (a : W64) : W64 := BitVec.ofNat 64 (a.toNat % 2 ^ 55)

/-- What a step gate answers (R192). -/
inductive Gate where
  | pending | apply | skip
deriving DecidableEq, Repr

/-- Read the gate of a step tag on a die; an expired tag counts in GATEEXP (R192). STATE 3 is never written
(R191). -/
def State.readGate (s : State) (d : Nat) (step : W32) : Gate × State :=
  let g := s.reg d (0x81000 + 8 * (step.toNat % 256))
  let tag := g.extractLsb' 32 32
  if tag = step then
    (match bits g 0 2 with | 1 => .apply | 2 => .skip | _ => .pending, s)
  else if 1 ≤ (step - tag).toNat ∧ (step - tag).toNat < 2 ^ 31 then (.pending, s)
  else (.skip, s.setReg d 0x80018 (s.reg d 0x80018 + 1))

/-- Add to a saturating count. -/
def satAdd (v : W64) (k : Nat) : W64 := if v.toNat + k < 2 ^ 64 then v + BitVec.ofNat 64 k else BitVec.allOnes 64

/-- An integrity event of a source at a cluster (256 and up where none is concerned): counted on its die, and trapping the cluster where
INTTRAP says so (R456), with the address of the instruction concerned (R440); corrected errors are counted only (R457). -/
def State.integrity (s : State) (d src n : Nat) (info pc : W64) : State :=
  let off := 0x600100 + 8 * src
  let s := s.setReg d off (satAdd (s.reg d off) 1)
  if src ≠ 4 ∧ src ≠ 6 ∧ n < 256 ∧ (s.reg d 0x600140).getLsbD src then
    s.modCC n fun c => { c with pend := c.pend ++ [⟨7, 0x30, BitVec.ofNat 64 src, info, 0, pc, false⟩] }
  else s

/-! ### Event flag, timelines, tokens and the buffer pool -/

/-- Set the event flag of a CC (R320). -/
def State.setEvt (s : State) (n : Nat) : State := s.modCC n fun c => { c with evt := true }

def Links.issueCount (l : Links) (ctx : Nat) : Nat := smGet 0 l.tlIssue ctx
def Links.shown (l : Links) (ctx : Nat) : Nat := smGet 0 l.tlShown ctx

/-- Number an operation on a timeline counter (R153). -/
def State.tlNumber (s : State) (n ctx : Nat) : Nat × State :=
  let k := (s.ac n).ln.issueCount ctx + 1
  (k, s.modAc n fun a => { a with ln := { a.ln with tlIssue := smSet a.ln.tlIssue ctx k } })

/-- An operation has completed; its number is shown once all below it have (R153). Number 0 is no operation. -/
def State.tlComplete (s : State) (n ctx k : Nat) : State :=
  if k = 0 then s
  else s.modAc n fun a =>
    { a with ln := { a.ln with tlDone := if a.ln.tlDone.contains (ctx, k) then a.ln.tlDone else a.ln.tlDone ++ [(ctx, k)] } }

/-- The value a counter may show: the end of the run of completed numbers from the shown value. -/
def Links.ready (l : Links) (ctx : Nat) : Nat :=
  (List.range l.tlDone.length).foldl (fun v _ => if l.tlDone.contains (ctx, v + 1) then v + 1 else v) (l.shown ctx)

/-- A guard write in this cycle: it is seen from the next cycle on (R229). Sources are engine codes 1 to 5, and 6 for
the CC; of writes to one slot in one cycle the last in that order stands. -/
def insGuard (w : Nat × Nat × Option Bool) : List (Nat × Nat × Option Bool) → List (Nat × Nat × Option Bool)
  | [] => [w]
  | x :: r => if w.1 < x.1 then w :: x :: r else x :: insGuard w r
def AC.guardWrite (a : AC) (src slot : Nat) (v : Option Bool) : AC :=
  { a with ln := { a.ln with gw := insGuard (src, slot, v) a.ln.gw } }

/-- The guard writes of the cycle take effect. -/
def AC.applyGuards (a : AC) : AC :=
  if a.ln.gw.isEmpty then a
  else
    let g := a.ln.gw.foldl (fun m w => match w.2.2 with | some v => smSet m w.2.1 v | none => smErase m w.2.1) a.cc.greg
    { a with cc := { a.cc with greg := g }, ln := { a.ln with gw := [] } }

/-- Key of the FIFO from producer to consumer, engine codes 1 to 5 (R231). -/
def fifo (producer consumer : Nat) : Nat := 5 * (producer - 1) + (consumer - 1)

def Links.tokens (l : Links) (producer consumer : Nat) : Nat := smGet 0 l.tok (fifo producer consumer)
def Links.setTokens (l : Links) (producer consumer k : Nat) : Links :=
  { l with tok := smPut 0 l.tok (fifo producer consumer) k }

/-- Pool entries of 32 bytes that a command entry takes (R226). -/
def QEntry.pool (q : QEntry) : Nat := if q.nops = 4 then 2 else 1

/-- Pool entries that queue q of Table 14-7 holds. -/
def AC.used (a : AC) (q : Nat) : Nat :=
  match eidOf (q + 1) with
  | some e => (a.eng e).q.foldl (fun t x => t + x.pool) 0
  | none => a.ln.retq.length

/-- Free pool entries (QFREE, Table 14-7). -/
def AC.qfree (a : AC) : Nat := 512 - (List.range 6).foldl (fun t q => t + a.used q) 0

def AC.qmin (a : AC) (q : Nat) : Nat := bits (a.cc.sr (0x080 + q)) 0 10
def AC.qcap (a : AC) (q : Nat) : Nat := bits (a.cc.sr (0x088 + q)) 0 10

/-- A push of k pool entries into queue q is granted (R436). -/
def AC.hasRoom (a : AC) (q k : Nat) : Bool :=
  let owed := (List.range 6).foldl (fun t p => if p = q then t else t + (a.qmin p - a.used p)) 0
  decide (a.used q + k ≤ a.qcap q ∧ owed + k ≤ a.qfree)

/-- Pushes that wait, up to that of a unit (0 CC, else an engine code). -/
def Links.before (l : Links) (who : Nat) : List PushWait := l.pushWait.takeWhile fun w => w.who != who

/-- A unit's push of k pool entries into queue q may enter now: both conditions of R436 hold, and they hold for no push that waits and is
older. -/
def AC.mayPush (a : AC) (who q k : Nat) : Bool := a.hasRoom q k && (a.ln.before who).all fun w => !a.hasRoom w.queue w.need

/-- A push that is not granted waits behind those that wait (R436). -/
def AC.waitPush (a : AC) (who q k : Nat) : AC :=
  if a.ln.pushWait.contains ⟨who, q, k⟩ then a
  else { a with ln := { a.ln with pushWait := (a.ln.pushWait.filter fun w => w.who != who) ++ [⟨who, q, k⟩] } }

/-- A unit's push has been granted, or is no longer asked for. -/
def AC.endPush (a : AC) (who : Nat) : AC :=
  { a with ln := { a.ln with pushWait := a.ln.pushWait.filter fun w => w.who != who } }

/-! ### Fault records (R58, R59, R60) -/

/-- Put a record in the order of those that wait for the ring; it takes the die's next number (R59). -/
def State.addRecord (s : State) (d : Nat) (r : FRec) : State :=
  s.modDie d fun x => { x with frPend := x.frPend ++ [r], frSeq := x.frSeq + 1 }

/-- Log size of a die's ring, and the records it holds (Table 2-9). -/
def fqLog (s : State) (d : Nat) : Nat := max 4 (bits (s.reg d 0x600008) 0 5)
def fqUsed (s : State) (d : Nat) : Nat :=
  let n := 2 ^ fqLog s d
  (bits (s.reg d 0x600018) 0 32 % n + n - bits (s.reg d 0x600010) 0 32 % n) % n

/-- The die whose queue takes the record of an access fault: the target's, or the master's where there is no target (R45; DESIGN CHOICE, log entry
116). -/
def recordDie (who : Agent) (w0 : W64) : Nat := let t := bits w0 32 16; if t = 0xFFFF then who.die else t / 128

/-- The ring of a die has no room for a further record, behind those that wait for it (R59). -/
def State.ringFull (s : State) (d : Nat) : Bool := decide (2 ^ fqLog s d - 1 ≤ fqUsed s d + (s.die d).frPend.length)

/-- How an access of a context ends: one that is refused while the ring is full waits until FQHEAD moves, and is made again (R59). -/
def State.ringed (s : State) (who : Agent) (st : Stop) : Stop :=
  match st with
  | .access w0 _ _ => if s.ringFull (recordDie who w0) then .wait else st
  | _ => st

/-- Record of an access fault (R45, R59). -/
def State.addAccessRecord (s : State) (who : Agent) (w0 w1 va : W64) : State :=
  let m := bits w0 48 16
  let ctx := if m / 0x1000 = 3 then 6 else ctxCode who
  let h := m * 2 ^ 48 + 0x10 * 2 ^ 40 + ctx * 2 ^ 36 + bits w0 20 4 * 2 ^ 32
  s.addRecord (recordDie who w0) ⟨BitVec.ofNat 64 h, va, w0, w1⟩

/-- Record of an event of dispatch (R60). -/
def State.addDispatchRecord (s : State) (d : Nat) (va : W64) (epa : W64) (entry : Nat) : State :=
  s.addRecord d ⟨BitVec.ofNat 64 (masterId (.disp d) * 2 ^ 48 + 0x30 * 2 ^ 40 + 10 * 2 ^ 36), va, epa, BitVec.ofNat 64 entry⟩

/-- Word 0 of a translation fault record (Table 2-8). -/
def xlateWord (who : Agent) (cause : Nat) (k : AKind) (token : Nat) : W64 :=
  BitVec.ofNat 64 (masterId who * 2 ^ 48 + cause * 2 ^ 40 + ctxCode who * 2 ^ 36 + akCode k * 2 ^ 32 + token)

/-- A translation fault whose context waits for an answer: the token, and the record in order (R58, R59). Token 0
names none (R60); log entry 9. -/
def State.addXlateTag (s : State) (tag : Nat) (who : Agent) (d cause : Nat) (k : AKind) (va : W64) (level : Nat)
    (epa ent : W64) : Nat × State :=
  let x := s.die d
  let tok := x.frTok
  let r : FRec := ⟨xlateWord who cause k tok, va, BitVec.ofNat 64 (level * 2 ^ 62) ||| epa, ent⟩
  let w : XWait := ⟨tok, tag, who, va, k, cause, BitVec.ofNat 64 x.frSeq, false⟩
  (tok, (s.addRecord d r).modDie d fun x => { x with frTok := if tok + 1 < 2 ^ 32 then tok + 1 else 1, waits := x.waits ++ [w] })

/-- The same for a context of a cluster, which has one such wait at a time. -/
def State.addXlateWait (s : State) (who : Agent) (d cause : Nat) (k : AKind) (va : W64) (level : Nat) (epa ent : W64) :
    Nat × State := s.addXlateTag 0 who d cause k va level epa ent

/-- Run an operation of a hardware agent that holds on a translation fault (Table 2-10): while its token is
outstanding nothing happens; an abort, and an access fault, have their own outcomes. `tag` names the operation. -/
def State.runHeld (s : State) (who : Agent) (tag : Nat) (abort denied : State → State) (f : M Unit) : State :=
  let d := who.die
  match (s.die d).waits.find? fun w => w.who == who && w.tag == tag with
  | some w =>
    if w.aborted then abort (s.modDie d fun x => { x with waits := x.waits.filter fun v => !(v.who == who && v.tag == tag) })
    else s
  | none =>
    match f s with
    | .ok _ s => s
    | .error st _ =>
      match s.ringed who st with
      | .xlate td cause k va lv epa ent => (s.addXlateTag tag who td cause k va lv epa ent).2
      | .access w0 w1 va | .carve w0 w1 va => denied (s.addAccessRecord who w0 w1 va)
      | .wait | .posted => s
      | _ => denied s

/-- A translation fault of a master that is not held: the record with token 0 (Table 2-10). -/
def State.addXlateRecord (s : State) (who : Agent) (d cause : Nat) (k : AKind) (va : W64) (level : Nat) (epa ent : W64) :
    State :=
  s.addRecord d ⟨xlateWord who cause k 0, va, BitVec.ofNat 64 (level * 2 ^ 62) ||| epa, ent⟩

/-- The token a context waits on ceases to be outstanding (R64). -/
def State.dropToken (s : State) (d tok : Nat) : State :=
  s.modDie d fun x => { x with waits := x.waits.filter fun w => w.token != tok }

/-- The outstanding wait of a token. -/
def State.waitOf (s : State) (d tok : Nat) : Option XWait := (s.die d).waits.find? fun w => w.token == tok

/-- An engine stops at its micro-PC with a fault (R351, Table 8-1). -/
def engFault (n : Nat) (e : Eid) (cause : Nat) (i0 i1 : W64) (s : State) : State :=
  s.modEng n e fun x => { x with st := 3, fcause := cause, finfo := i0, finfo1 := i1, untold := true, fcycle := s.cycle, wait := none, xl := none }

/-! ### Tasks and launches -/

/-- Fields of the launch record that a task runs under (Table 8-5): CODE, and the entry offset of the CC (0) or of an
engine code. -/
def Task.word (t : Task) (i : Nat) : W64 := t.lrec.getD i 0
def Task.code (t : Task) : W64 := t.word 1
def Task.entry (t : Task) (k : Nat) : Nat := bits (t.word (2 + k / 2)) (32 * (k % 2)) 32

/-- Die of a cluster. -/
def dieOf (n : Nat) : Nat := n / 64

/-- A launch table entry of a die. -/
def State.lent (s : State) (d l : Nat) : LEntry :=
  smGet ⟨0, 0, 0, [], 0, 0, 0, none, 0, false, false, false, [], []⟩ (s.die d).ltab l
def State.modLent (s : State) (d l : Nat) (f : LEntry → LEntry) : State :=
  s.modDie d fun x => { x with ltab := smSet x.ltab l (f (s.lent d l)) }

/-- Clusters of the part, by number (R1). -/
def allAcs : List Nat := List.range 256

/-- Clusters that run a task of a launch instance. -/
def State.running (s : State) (launch : Nat) : List Nat :=
  s.acs.filterMap fun (n, a) => match a.cc.task with
    | some t => if t.launch = launch then some n else none
    | none => none

/-- Tags of the accesses of a die's dispatch hardware: 0 the queue head, 1 and on the launch table entries, 1000 and on continuations. -/
def dispTag (l : Nat) : Nat := 1 + l
def contTag (va : W64) : Nat := 1000 + va.toNat

/-- An operation of a die's dispatch hardware is given up: its token ceases to be outstanding (R64). -/
def Die.dropTag (x : Die) (d tag : Nat) : Die := { x with waits := x.waits.filter fun w => !(w.who == .disp d && w.tag == tag) }

/-- Free the walkers, claims and tracked continuations of a launch on every die (R246, R430). -/
def State.freeRanges (s : State) (launch : Nat) (conts : Bool) : State :=
  let s := (List.range 4).foldl (fun s d => s.modDie d fun x =>
    { x with
      walkers := x.walkers.filter fun w => w.2.launch != launch
      qclaims := x.qclaims.filter fun c => c.2.1 != launch
      conts := if conts then x.conts.filter fun c => c.launch != launch else x.conts
      waits := if conts then x.waits.filter fun w => !(w.who == .disp d && x.conts.any fun c => c.launch == launch && w.tag == contTag c.va)
               else x.waits }) s
  { s with acs := s.acs.map fun (n, a) =>
      (n, { a with disp := { a.disp with claims := a.disp.claims.filter fun c => c.1 != launch } }) }

/-- Cancel a launch held in entry l of die d: its ranges are freed, it goes to DRAIN, and the fault record carries
the code (R246, R430, Table 2-12). A launch cancelled before is left as it is. -/
def State.cancelLaunch (s : State) (d l code : Nat) : State :=
  let e := s.lent d l
  if e.st = 0 ∨ e.cancelled then s
  else ((s.freeRanges e.launch true).modLent d l fun e => { e with st := 3, cancelled := true }).addDispatchRecord d e.lrecVa 0 code

/-- A cluster becomes idle, with its token FIFOs and return queue empty (R218). -/
def State.leave (s : State) (n : Nat) : State :=
  s.modAc n fun a =>
    { a with
      cc := { a.cc with task := none, wait := none, h := false, ie := true, xl := none, xlAbort := none, entry := none }
      ln := { a.ln with tok := [], retq := [], pushWait := [], gw := [] } }

/-! ### Launch records (Tables 8-5 to 8-7) -/

/-- A level descriptor (Table 8-7). -/
structure Level where
  extent : Nat
  start : Int
  step : Int
  gran : Nat
  domain : Nat
  scope : Nat
  barrier : Bool
deriving DecidableEq, Repr

def rw (r : List W64) (i : Nat) : W64 := r.getD i 0
def lrNlev (r : List W64) : Nat := bits (rw r 0) 52 4
def lrPrio (r : List W64) : Nat := bits (rw r 0) 49 3
def lrSgran (r : List W64) : Nat := bits (rw r 0) 45 4
def lrAutofork (r : List W64) : Bool := (rw r 0).getLsbD 44
def lrFused (r : List W64) : Bool := (rw r 0).getLsbD 43
def lrPersist (r : List W64) : Bool := (rw r 0).getLsbD 42
def lrCond (r : List W64) : Bool := (rw r 0).getLsbD 41
def lrMaxac (r : List W64) : Nat := bits (rw r 0) 0 16
def lrLevel (r : List W64) (l : Nat) : Level :=
  let a := rw r (16 + 2 * l)
  let b := rw r (17 + 2 * l)
  ⟨bits a 32 32, (a.setWidth 32).toInt, (b.extractLsb' 32 32).toInt, bits b 16 16, bits b 5 3, bits b 2 3, b.getLsbD 1⟩
def lrLevels (r : List W64) : List Level := (List.range (min 8 (lrNlev r))).map (lrLevel r)

/-- Distributed levels: not barriers, DOMAIN other than TASK (R236). -/
def Level.dist (l : Level) : Bool := !l.barrier && l.domain != 4
def product (l : List Nat) : Nat := l.foldl (· * ·) 1
/-- Tasks of an epoch, and epochs (R236, R239). -/
def lrTasks (r : List W64) : Nat := product (((lrLevels r).filter Level.dist).map (·.extent))
def lrEpochs (r : List W64) : Nat := product (((lrLevels r).filter (·.barrier)).map (·.extent))
/-- GRAN of the innermost distributed level (Table 8-7). -/
def lrGran (r : List W64) : Nat := ((((lrLevels r).filter Level.dist).getLast?).map (·.gran)).getD 1
def lrHas (r : List W64) (domain : Nat) : Bool := (lrLevels r).any fun l => l.dist && l.domain == domain
def scopeOf (n : Nat) : Scope := match n with | 0 => .ac | 1 => .quad | 2 => .die | 3 => .pkg | _ => .fab
/-- SCOPE of the innermost AC level, at which a task releases at its end (R239). -/
def lrEndScope (r : List W64) : Scope :=
  scopeOf ((((lrLevels r).filter fun l => l.dist && l.domain == 3).getLast?).map (·.scope) |>.getD 0)

/-- Every agent of a cluster releases, or acquires. -/
def releaseAll (n : Nat) (sc : Scope) (s : State) : State := (acAgents n).foldl (fun s a => release a sc s) s
def acquireAll (n : Nat) (sc : Scope) (s : State) : State := (acAgents n).foldl (fun s a => acquire a sc s) s

/-- Walkers of a launch that have reached their end are freed, as an epoch of it ends (R242). -/
def State.freeSpent (s : State) (launch : Nat) : State :=
  { s with dies := s.dies.map fun (d, x) => (d, { x with walkers := x.walkers.filter fun w => !(w.2.launch == launch && decide (w.2.stop ≤ w.2.next)) }) }

/-- A task of a launch has ended: it counts in its launch (R425, R250); the last one of an epoch ends the epoch. -/
def State.countDone (s : State) (t : Task) : State :=
  let e := s.lent t.die t.ent
  if e.launch = t.launch ∧ e.st ≠ 0 then
    let s := s.modLent t.die t.ent fun e => { e with done := e.done + 1, epDone := e.epDone + 1 }
    if lrTasks e.lrec ≤ e.epDone + 1 then s.freeSpent t.launch else s
  else s

/-- A task has ended: it counts in its launch, and the cluster becomes idle (R218, R248). -/
def State.taskEnd (s : State) (n : Nat) : State :=
  match (s.ac n).cc.task with
  | none => s
  | some t => (s.leave n).countDone t

end Sys2Proof.Machine
end

