-- ==== Sys2Proof/Machine/Flags.lean ====
section
/-! DEFINITION. Conditions: compares of the CC and the engines, predicate logic, and loop-end tests (R293, R294, R303,
R354). -/

namespace Sys2Proof.Machine

/-- CMP (R293). -/
def cmpCond (c : Cond) (a b : W64) : Bool :=
  match c with
  | .eq => a == b
  | .ne => a != b
  | .lt => a.slt b
  | .ge => !a.slt b
  | .ltu => a.ult b
  | .geu => !a.ult b
  | .le => !b.slt a
  | .gt => b.slt a
  | .leu => !b.ult a
  | .gtu => b.ult a
  | .tst => a &&& b != 0
  | .ntst => a &&& b == 0

/-- PLOG (R294). -/
def predLogic (f : PFn) (a b : Bool) : Bool :=
  match f with
  | .and => a && b
  | .or => a || b
  | .xor => a ^^ b
  | .andn => a && !b
  | .nand => !(a && b)
  | .nor => !(a || b)
  | .xnor => !(a ^^ b)
  | .orn => a || !b

/-- EBR (R354): the last conditions read the engine's loop levels. -/
def engCond (c : ECond) (e : Eng) (a b : W64) : Bool :=
  match c with
  | .eq => a == b
  | .ne => a != b
  | .lt => a.slt b
  | .ge => !a.slt b
  | .ltu => a.ult b
  | .geu => !a.ult b
  | .last0 => e.act0 && decide ((e.xr 16).toNat ≤ 1)
  | .last1 => e.act1 && decide ((e.xr 19).toNat ≤ 1)
  | .al => true

/-- One level of the CC's end-of-body test (R303): the PC when the body runs again. -/
def CC.testLevel (c : CC) (k : Nat) (f : W64) : CC × Option W64 :=
  let (on, cnt, ls, le) := if k = 1 then (c.la1, 0x013, 0x01A, 0x01B) else (c.la0, 0x010, 0x018, 0x019)
  if on && f == c.sr le then
    if 1 < (c.sr cnt).toNat then (c.setSr cnt (c.sr cnt - 1), some (c.sr ls))
    else
      let c := c.setSr cnt 0
      (if k = 1 then { c with la1 := false } else { c with la0 := false }, none)
  else (c, none)

/-- The end-of-body test of the CC with the address just past the instruction (R303): the next PC. -/
def CC.endBody (c : CC) (f : W64) : CC :=
  match c.testLevel 1 f with
  | (c, some t) => { c with pc := t }
  | (c, none) =>
    match c.testLevel 0 f with
    | (c, some t) => { c with pc := t }
    | (c, none) => { c with pc := f }

/-- The end-of-body test of an engine's level: its registers, whether it ran again, and whether it closed (R355). -/
def Eng.testLevel (e : Eng) (k : Nat) (f : W64) : Eng × Option W64 × Bool :=
  let (on, cnt, ls, le) := if k = 1 then (e.act1, 19, e.live1s, e.live1e) else (e.act0, 16, e.live0s, e.live0e)
  if on && f == le then
    if 1 < (e.xr cnt).toNat then (e.setX cnt (e.xr cnt - 1), some ls, false)
    else
      let e := e.setX cnt 0
      (if k = 1 then { e with act1 := false } else { e with act0 := false }, none, true)
  else (e, none, false)

end Sys2Proof.Machine
end

