-- ==== Sys2Proof/Machine/Operands.lean ====
section
/-! DEFINITION. Operand forms (R265, R266, R288, R295, R352, R365): what a source gives an instruction. -/

namespace Sys2Proof.Machine

/-- Integer source of the CC: an s register, or a literal sign-extended to 64 bits (R288). The engine kinds are illegal
there and never reach it. -/
def CC.src (c : CC) : Src → W64
  | .r n => c.s n
  | .i8 v => v.signExtend 64
  | .lit v => v.signExtend 64
  | .x _ | .cb _ => 0

/-- Floating-point literal of a form (R266): IMM8 a signed integer, LIT an FP32 pattern. -/
def fpLit : Src → FVal
  | .i8 v => .ofInt v.toInt
  | .lit v => f32 v
  | _ => .zero false

/-- Floating-point source of the CC in the precision of the instruction (R295, R296). -/
def CC.fsrc (c : CC) (bf : Bool) : Src → FVal
  | .r n => if bf then b16 ((c.s n).setWidth 16) else f32 ((c.s n).setWidth 32)
  | s => fpLit s

/-- An FP32 or BF16 result in an s register: higher bits zero (R295). -/
def fpReg (f : FOp) (r : W32) (x : FVal) : W64 :=
  if f.bf then (toB16 f.mode r false x).setWidth 64 else (toF32 f.mode r false x).setWidth 64

/-- Integer source of an engine: an x or loop register, a constant-bank entry, or a literal sign-extended (R352,
R266). -/
def Eng.src (e : Eng) : Src → W64
  | .r n => e.xr n.toNat
  | .x n => e.xr n.toNat
  | .cb i => e.cbr i.toNat
  | .i8 v => v.signExtend 64
  | .lit v => v.signExtend 64

/-- A broadcast floating-point source of VA: bits 31:0 of an x register or a constant-bank entry, or a literal (R365,
R266). -/
def Eng.fsrc (e : Eng) : Src → FVal
  | .x n => f32 ((e.xr n.toNat).setWidth 32)
  | .cb i => f32 ((e.cbr i.toNat).setWidth 32)
  | s => fpLit s

/-- Draw the stochastic hash of a CC rounding and advance CSRCTR, only under SR (R208, R209, R295). -/
def CC.draw (c : CC) (m : RMode) : W32 × CC :=
  match m with
  | .sr => (srHash ((c.sr 0x0D4).setWidth 32) (c.sr 0x0D5) 0, c.setSr 0x0D5 (c.sr 0x0D5 + 1))
  | _ => (0, c)

/-- Registers sA to sA + k - 1 of a block. -/
def CC.block (c : CC) (a : BitVec 6) (k : Nat) : List W64 := (List.range k).map fun i => c.s (a + BitVec.ofNat 6 i)

/-- Registers of an engine's block of two (RPUT): xC and the one after it. -/
def Eng.pair (e : Eng) (c : BitVec 6) : W64 × W64 := (e.xr c.toNat, e.xr (c.toNat + 1))

end Sys2Proof.Machine
end

