-- ==== Sys2Proof/Machine/Sha3.lean ====
section
/-! DEFINITION. SHA3-512, which R476 and R477 name; the function is that of FIPS 202 (PRESUMED, log entry 19).
The 1,600 bits are held as five planes of 320 bits; plane y holds lane x at bits 64 x to 64 x + 63. -/

namespace Sys2Proof.Machine

/-- Five lanes of 64 bits side by side. -/
abbrev Plane := BitVec 320

/-- Lane x of a plane. -/
def laneOf (p : Plane) (x : Nat) : W64 := p.extractLsb' (64 * x) 64

/-- The plane whose lane x is f x. -/
def planeOf (f : Nat → W64) : Plane := f 4 ++ f 3 ++ f 2 ++ f 1 ++ f 0

/-- The walk from (1, 0) by (x, y) → (y, 2 x + 3 y): the lanes in the order in which their rotations grow. -/
def laneWalk : Nat → Nat → Nat → List (Nat × Nat)
  | 0, _, _ => []
  | n + 1, x, y => (x, y) :: laneWalk n y ((2 * x + 3 * y) % 5)

/-- How far lane (x, y) is rotated: the triangular number of its place on the walk; lane (0, 0) is not on it. -/
def laneTurn (x y : Nat) : Nat :=
  match (laneWalk 24 1 0).idxOf? (x, y) with
  | some t => (t + 1) * (t + 2) / 2 % 64
  | none => 0

/-- Every plane is mixed with the parity of the two columns beside each bit. -/
def mixColumns (s : List Plane) : List Plane :=
  let parity := s.foldl (· ^^^ ·) 0
  let after := parity.rotateRight 64
  s.map (· ^^^ parity.rotateLeft 64 ^^^ planeOf fun x => (laneOf after x).rotateLeft 1)

/-- The rotations of the lanes and their change of place: lane (x, y) of the result was lane (x + 3 y, x). -/
def turnAndPlace (s : List Plane) : List Plane :=
  (List.range 5).map fun y => planeOf fun x =>
    let from' := (x + 3 * y) % 5
    (laneOf (s.getD x 0) from').rotateLeft (laneTurn from' x)

/-- The one step that is not linear, on a whole plane. -/
def bendRows (s : List Plane) : List Plane :=
  s.map fun p => p ^^^ (~~~ p.rotateRight 64 &&& p.rotateRight 128)

/-- The shift register of the round constants, t steps from 1; its low bit is the output. -/
def roundReg : Nat → BitVec 8
  | 0 => 1
  | t + 1 => let r := roundReg t; if r.msb then r <<< 1 ^^^ 0x71 else r <<< 1

/-- The constant of round i: output bit 7 i + j of the register at place 2^j - 1. -/
def roundConst (i : Nat) : Plane :=
  (List.range 7).foldl (fun v j => if (roundReg (7 * i + j)).getLsbD 0 then v ||| BitVec.twoPow 320 (2 ^ j - 1) else v) 0

/-- The permutation of the 1,600 bits: 24 rounds. -/
def permute (s : List Plane) : List Plane :=
  (List.range 24).foldl (fun s i =>
    match bendRows (turnAndPlace (mixColumns s)) with
    | p :: rest => (p ^^^ roundConst i) :: rest
    | [] => []) s

/-- The little-endian number of a block of bytes. -/
def blockNum (m : List Byte) : Nat := m.foldr (fun b v => b.toNat + 256 * v) 0

/-- Take in every block of 72 bytes, the rate of SHA3-512, and permute after each. -/
def absorb (m : List Byte) : List Plane :=
  (List.range (m.length / 72)).foldl (fun s k =>
    let v := blockNum ((m.drop (72 * k)).take 72)
    permute (s.mapIdx fun y p => p ^^^ BitVec.ofNat 320 (v / 2 ^ (320 * y)))) (List.replicate 5 0)

/-- SHA3-512 of bytes, 64 bytes: the message with its two domain bits, a one, zeros and a one up to a whole block. -/
def sha3 (m : List Byte) : List Byte :=
  let room := 72 - m.length % 72
  let tail := 0x06 + 2 ^ (8 * room - 1)
  let s := absorb (m ++ (List.range room).map fun j => BitVec.ofNat 8 (tail / 256 ^ j))
  (List.range 64).map fun j => ((s.getD (j / 40) 0).extractLsb' (8 * (j % 40)) 8)

end Sys2Proof.Machine
end

