-- ==== Sys2Proof/Machine/Mmio.lean ====
section
/-! DEFINITION. The MMIO registers of a die (R25, R26 and the register tables of the chapters): what a read returns
and what a write does. Registers whose write starts an action act here. -/

namespace Sys2Proof.Machine

/-! ### Reads -/

/-- PARTID (Table 0-5). -/
def partId (d : Nat) : W64 := 0x7A3D088001100000 + (if d = 0 then 4 else 0) + BitVec.ofNat 64 d

/-- A word of a launch table entry (Table 14-4). -/
def lentWord (s : State) (d l w : Nat) : W64 :=
  let e := s.lent d l
  if e.st = 0 then 0
  else match w with
    | 0 => pack [(61, e.st), (57, bits (e.lrec.getD 0 0) 49 3), (0, e.launch)]
    | 1 => e.lrecVa
    | 2 => pack [(48, (s.running e.launch).length), (0, e.done % 2 ^ 48)]
    | 3 => BitVec.ofNat 64 e.epoch
    | 4 => e.depseen
    | _ => 0

/-- A word of a walker slot (Table 14-5). -/
def Walker.word (x : Walker) (w : Nat) : W64 :=
  match w with
  | 0 => pack [(32, x.epoch), (0, x.launch)]
  | 1 => pack [(63, 1), (62, x.kind), (0, x.next)]
  | 2 => pack [(48, x.gran), (0, x.stop)]
  | _ => 0

/-- Dispatch status of a cluster (Table 14-3). -/
def dispStatus (s : State) (n w : Nat) : W64 :=
  let c := (s.ac n).cc
  match c.task with
  | none => 0
  | some t =>
    if w = 0 then BitVec.ofNat 64 t.launch
    else pack [(5, t.prio), (2, t.bindi), (0, if c.saving then 3 else if t.resumed then 2 else 1)]

/-- What the slot-table block reads as at an offset from its base (Table 14-1). -/
def slotRead (s : State) (d o : Nat) : W64 :=
  let x := s.die d
  if o < 0x1000 then lentWord s d (o / 64) (o % 64 / 8)
  else if o < 0x2000 then x.reg (0x20000 + o)
  else if o < 0x2400 then (match smFind x.walkers ((o - 0x2000) / 32) with | some w => w.word (o % 32 / 8) | none => 0)
  else if o = 0x3000 then x.reg 0x23000
  else if o = 0x3008 then
    let used := x.ltab.foldl (fun k e => if e.2.st = 0 then k else k + 1) 0
    x.reg 0x23008 ||| pack [(8, used), (0, min 64 x.launchQ.length)]
  else if 0x4000 ≤ o ∧ o < 0x4400 then dispStatus s (64 * d + (o - 0x4000) / 16) (o % 16 / 8)
  else 0

/-- What a register of a die reads as, at an offset that is a multiple of 8; undefined offsets read zero (R26). -/
def regVal (s : State) (d off : Nat) : W64 :=
  let x := s.die d
  if off = 0 then partId d
  else if off = 0x0218 then x.reg off ||| (if x.tlbi.isSome then 1 else 0)
  else if d % 2 = 1 ∧ 0x8000 ≤ off ∧ off < 0x9000 then 0
  else if off = 0x0420 then BitVec.ofNat 64 (s.parked.filter fun p => p.die == d).length
  else if off = 0x0610 then x.reg off ||| (if s.preempt.isSome then 1 else 0)
  else if off = 0xA010 then x.reg off ||| (if d = 0 ∧ s.att.isSome then 1 else 0)
  else if off = 0x10010 then x.reg off ||| pack [(31, x.hot.toNat), (11, x.pwait.length), (0, x.pactive)]
  else if 0x20000 ≤ off ∧ off < 0x40000 then slotRead s d (off - 0x20000)
  else if off = 0x80000 then BitVec.ofNat 64 x.pots.length
  else if 0x100000 ≤ off ∧ off < 0x140000 then
    if off % 0x1000 = 0 then
      let k := smGet Kettle.reset s.kettles (64 * d + (off - 0x100000) / 0x1000)
      pack [(16, min 1024 k.atomq.length), (4, k.queue.length + k.run.isSome.toNat), (0, k.run.isSome.toNat)]
    else 0
  else x.reg off

/-- POWER and ENERGY of a die as they stand now: what the sensors have shown since they last changed is free, and ENERGY, a running total that wraps,
takes it in; they change at most once in a cycle (R494; log entry 18). -/
def sense (d : Nat) (s : State) : State :=
  if (s.die d).sensedAt = s.cycle then s
  else
    let used := s.reg d 0x10030 + Config.sensor (s.seq + 1)
    let s := (s.setReg d 0x10028 ((Config.sensor s.seq).setWidth 32 |>.setWidth 64)).setReg d 0x10030 used
    { s.modDie d fun x => { x with sensedAt := s.cycle } with seq := s.seq + 2 }

/-- A read of a register: power and energy are measured then (R494). -/
def regRead (d off : Nat) (s : State) : W64 × State :=
  let s := if off = 0x10028 ∨ off = 0x10030 then sense d s else s
  (regVal s d off, s)

/-! ### Actions of writes -/

/-- Bits that a write of a register without action sets (RW fields of the register tables); zero where writes are
ignored. -/
def rwMask (d off : Nat) : W64 :=
  let span := fun (hi lo : Nat) => BitVec.ofNat 64 (2 ^ (hi + 1) - 2 ^ lo)
  if off = 0x0100 then span 63 63 ||| span 51 16
  else if off = 0x0200 then span 54 12
  else if off = 0x0208 then span 5 0
  else if off = 0x0410 then span 51 16
  else if off = 0x0418 then span 4 0
  else if off = 0x0608 then span 51 12
  else if off = 0x0700 ∨ off = 0x0708 then span 63 0
  else if d = 0 ∧ off = 0x0800 then span 51 0
  else if (d = 0 ∨ d = 2) ∧ off = 0x8000 then span 15 12 ||| span 3 0
  else if (d = 0 ∨ d = 2) ∧ off = 0x8010 then span 51 30 ||| span 5 0
  else if (d = 0 ∨ d = 2) ∧ off = 0x8018 then span 51 12 ||| span 0 0
  else if d = 0 ∧ off = 0xA000 then span 51 13
  else if off = 0xB000 then span 51 20 ||| span 0 0
  else if 0xC000 ≤ off ∧ off < 0xC100 then (if off % 16 = 0 then span 63 63 ||| span 54 6 else span 31 0)
  else if off = 0x10000 then span 10 0
  else if off = 0x10008 then span 7 0
  else if off = 0x10020 then span 15 0
  else if off = 0x23000 then span 0 0
  else if 0x40000 ≤ off ∧ off < 0x44000 then
    match off % 64 / 8 with
    | 0 => span 63 63 ||| span 51 6
    | 1 => span 54 0
    | 2 => span 15 0
    | _ => 0
  else if 0x81000 ≤ off ∧ off < 0x81800 then span 63 32 ||| span 1 0
  else if off = 0x600000 then span 51 6
  else if off = 0x600008 then span 4 0
  else if off = 0x600010 then span 31 0
  else if off = 0x600140 then span 7 0
  else 0

/-- Bits of a register that writing 1 clears. -/
def w1cMask (d off : Nat) : W64 :=
  if off = 0x0218 ∨ off = 0x0610 ∨ (d = 0 ∧ off = 0xA010) then 2
  else if off = 0x23008 then BitVec.twoPow 64 31
  else if off = 0x600028 then 3
  else 0

/-- HOTSEEN is set once HOT has been set (R494). -/
def seeHot (d : Nat) (s : State) : State :=
  if (s.die d).hot then s.setReg d 0x10010 (s.reg d 0x10010 ||| BitVec.twoPow 64 32) else s

/-- A byte of the MSI-X table of a port (Table 16-1): every vector is masked until its vector control is written, as PCIe has it. -/
def msiEntry (s : State) (port o : Nat) : Byte := (smFind s.msiTab (0x10000 * port + o)).getD (if o % 16 = 12 then 1 else 0)

/-- A vector is masked, by its vector control or for the function. -/
def msiMasked (s : State) (port v : Nat) : Bool := smGet false s.msiMask port || (msiEntry s port (16 * v + 12)).getLsbD 0

/-- Send the messages of pending vectors that are no longer masked: their pending bits clear. -/
def msiFlush (port : Nat) (s : State) : State :=
  let go := BitVec.ofNat 64 ((List.range 64).foldl (fun a v =>
    if (smGet 0 s.msiPend port).getLsbD v && !msiMasked s port v then a + 2 ^ v else a) 0)
  if go = 0 then s
  else { s with msi := smPut 0 s.msi port (smGet 0 s.msi port ||| go), msiPend := smPut 0 s.msiPend port (smGet 0 s.msiPend port &&& ~~~ go) }

/-- Raise an MSI-X vector of a port (R458, R466): its message is sent, or stays pending while the vector is masked. -/
def raiseMsi (port v : Nat) (s : State) : State :=
  msiFlush port { s with msiPend := smPut 0 s.msiPend port (smGet 0 s.msiPend port ||| BitVec.twoPow 64 v) }

/-- A command to invalidate translations (R65): start, log2 of the size, all, package-wide, walk caches. -/
def tlbCommand (d : Nat) (v : W64) (s : State) : State :=
  let x := s.die d
  if x.tlbi.isSome then s.setReg d 0x0218 (x.reg 0x0218 ||| 2)
  else
    let lg := max 12 (min 55 (bits (x.reg 0x0208) 0 6))
    let start := bits (x.reg 0x0200) 0 55 / 2 ^ lg * 2 ^ lg
    s.setDie d { x with tlbi := some (start, lg, v.getLsbD 0, v.getLsbD 1, v.getLsbD 2) }

/-- A write of QFUSE (R74): every quad whose bit changes starts a mode switch, or a second one after the switch in
progress. -/
def qfuse (d : Nat) (v : W64) (s : State) : State :=
  let x := s.die d
  let old := x.reg 0x0400
  let sw := (List.range 16).foldl (fun (l : List QSwitch) q =>
    if old.getLsbD q == v.getLsbD q then l
    else if l.any (·.quad == q) then l.map fun w => if w.quad = q then { w with again := !w.again } else w
    else l ++ [⟨q, none, false⟩]) x.qsw
  let busy := sw.foldl (fun b w => b + 2 ^ w.quad) 0
  (s.setDie d { x with qsw := sw }).setReg d 0x0400 (pack [(32, busy), (0, bits v 0 16)])

/-- Commands completed: DONESEQ of every die counts (R452). -/
def preemptDone (s : State) : State :=
  (List.range 4).foldl (fun s d => s.setReg d 0x0610 (setBits (s.reg d 0x0610) 32 32 (bits (s.reg d 0x0610) 32 32 + 1)))
    { s with preempt := none }

/-- Entries of the launch tables that hold a launch instance: die and index. -/
def State.findLaunch (s : State) (launch : Nat) : Option (Nat × Nat) :=
  (List.range 4).findSome? fun d => (s.die d).ltab.findSome? fun (l, e) => if e.st ≠ 0 ∧ e.launch = launch then some (d, l) else none

/-- A write of PRECMD (R452, R453): a pre-empt of a launch in DEP or RUN stops it from taking part in decisions; one
that names any other launch completes at once; a resume begins. -/
def precmd (d : Nat) (v : W64) (s : State) : State :=
  let op := bits v 62 2
  if s.preempt.isSome then s.setReg d 0x0610 (s.reg d 0x0610 ||| 2)
  else if op = 0 ∨ op = 3 then s
  else
    let ctx := bits (s.reg d 0x0608) 12 40 * 4096
    if op = 2 then { s with preempt := some ⟨2, d, 0, ctx, 0, [], []⟩ }
    else
      let launch := bits v 0 32
      match s.findLaunch launch with
      | some (ld, l) =>
        let e := s.lent ld l
        if (e.st = 1 ∨ e.st = 2) ∧ !e.cancelled then
          let s := s.modLent ld l fun e => { e with paused := true }
          { s with preempt := some ⟨1, d, launch, ctx, s.cycle + 36000, s.running launch, []⟩ }
        else preemptDone s
      | none => preemptDone s

/-- A management interrupt to a cluster (R449). -/
def mintWrite (d : Nat) (v : W64) (s : State) : State :=
  s.modCC (64 * d + bits v 58 6) fun c => { c with mint := some (BitVec.ofNat 64 (bits v 0 58)) }

/-- A write of a bind record (R422, R432): a bad one is ignored and sets BADBIND; a write sets PASS to VT and T to
zero. -/
def bindWrite (d a i : Nat) (v : W64) (s : State) : State :=
  if v.getLsbD 63 ∧ (8 < bits v 40 4 ∨ bits v 44 19 ≠ 0) then s.setReg d 0x23008 (s.reg d 0x23008 ||| BitVec.twoPow 64 31)
  else
    let off := 0x21000 + 64 * a + 8 * i
    (s.setReg d off (v &&& 0x80000FFFFFFFFFFF)).modAc (64 * d + a) fun x =>
      { x with disp := { x.disp with pass := smPut 0 x.disp.pass i x.disp.vt, starve := smErase x.disp.starve i } }

/-- An address of a die's HBM views (R255). -/
def inDieHbm (d pa : Nat) : Bool := match region d pa with | .hbm e _ _ => e == d | _ => false

/-- A write of word 0 of a mailbox entry (R255). -/
def mailboxWord0 (d i : Nat) (v : W64) (s : State) : State :=
  let v := v &&& 0x800FFFFFFFFFFFC0
  let g := bits v 6 46 * 64
  let ok := v.getLsbD 63 && inDieHbm d g
  let s := s.setReg d (0x40000 + 64 * i) (if v.getLsbD 63 && !ok then v &&& 0x7FFFFFFFFFFFFFFF else v)
  let rest := s.watch.filter fun w => !(w.2.1 == d && w.2.2 == i)
  { s with watch := if ok then (canonPa d g, d, i) :: rest else rest }

/-- A write of a step gate (R191). -/
def gateWrite (d g : Nat) (v : W64) (s : State) : State :=
  if bits v 0 2 = 3 then s else s.setReg d (0x81000 + 8 * g) (v &&& 0xFFFFFFFF00000003)

/-- ABORT of a kettle (R104): it takes effect at the running command's next instruction boundary. -/
def kettleAbortWrite (q : Nat) (v : W64) (s : State) : State :=
  let k := smGet Kettle.reset s.kettles q
  if v.getLsbD 0 ∧ k.run.isSome then { s with kettles := smSet s.kettles q { k with abort := true } } else s

/-- Measurement registers (R477). -/
def meas (s : State) (i : Nat) : BitVec 512 := smGet 0 s.meas i

/-- Extend a measurement register with a 64-byte digest (R477); byte 0 of the register is its low byte. -/
def extend (i : Nat) (digest : List Byte) (s : State) : State :=
  { s with meas := smPut 0 s.meas i (BitVec.ofNat 512 (leNat (sha3 (leBytes 64 (meas s i).toNat ++ digest)))) }

/-- Write of word 0 of an access-table entry (R46): the staged entry comes into force, and M2 is extended with the
digest of the target ID, the entry index and the entry (R477; 8 bytes each for ID and index: log entry 19). -/
def entryWord0 (d t e : Nat) (v : W64) (s : State) : State :=
  let v := v &&& 0xC0F0FFFFFFFFF000
  let off := 0x800000 + 0x800 * t + 32 * e
  let s := s.setReg d off v
  let w1 := s.reg d (off + 8)
  let w2 := s.reg d (off + 16)
  let s := s.modDie d fun x =>
    { x with acl :=
        if v.getLsbD 63 then
          smSet x.acl (t * 64 + e) ⟨v.getLsbD 62, v.getLsbD 55, v.getLsbD 54, v.getLsbD 53, v.getLsbD 52, bits v 12 40,
            bits w1 12 40, w2.setWidth 16⟩
        else smErase x.acl (t * 64 + e) }
  extend 2 (sha3 (leBytes 8 (d * 128 + t) ++ leBytes 8 e ++ bytes64 v ++ bytes64 w1 ++ bytes64 w2 ++ bytes64 0)) s

/-- A write in the access-table block: words 1 and 2 are staged, word 3 is reserved. The reserved target indices 27 to 31 hold entries like
the others, which guard nothing, and their writes extend M2 (DESIGN CHOICE, log entry 89). -/
def aclWrite (d o : Nat) (v : W64) (s : State) : State :=
  match o % 32 / 8 with
  | 0 => entryWord0 d (o / 0x800) (o % 0x800 / 32) v s
  | 1 => s.setReg d (0x800000 + o) (v &&& 0x000FFFFFFFFFF000)
  | 2 => s.setReg d (0x800000 + o) (v &&& 0xFFFF)
  | _ => s

/-- A write of a host port register (R460, R477): M3 is extended at 0x8000 to 0x8010. -/
def portWrite (d off : Nat) (v : W64) (s : State) : State :=
  let w := v &&& rwMask d off
  let s := if off = 0x8000 ∧ 2 ≤ bits v 1 2 then s else if rwMask d off = 0 then s else s.setReg d off w
  let s := if off = 0x8000 ∧ bits v 1 2 < 2 ∧ !v.getLsbD 0 then s.setReg d 0x8008 0 else s
  if off ≤ 0x8010 then extend 3 (sha3 (leBytes 8 off ++ bytes64 v)) s else s

/-- Root firmware withdraws host A's grants on the granule of D0 die control that holds BOOTGO (Table 18-1 step 4): in every entry of
target 18 that covers it, host A's class bit is cleared. -/
def withdrawBoot (s : State) : State :=
  (s.entries 18).foldl (fun s (i, e) =>
    if e.classes.getLsbD 0 ∧ e.base ≤ 0x30000000 ∧ 0x30000000 ≤ e.limit then
      let off := 0x800000 + 0x800 * 18 + 32 * i
      entryWord0 0 18 i (s.reg 0 off) (s.setReg 0 (off + 16) (BitVec.ofNat 64 (e.classes.toNat / 2 * 2)))
    else s) s

/-- Bytes that the root core reads at physical addresses of HBM, after an acquire at .pkg. -/
def rootBytes (pa len : Nat) (s : State) : List Byte × State :=
  (granulePieces (len / 4096 + 2) pa len).foldl (fun (b, s) (p, n) =>
    let (c, s) := loadRange .root none (canonPa 0 p) n 8 s
    (b ++ c, s)) ([], acquire .root .pkg s)

/-- The staging range that the boot registers name (Table 18-2), complete in HBM. -/
def stagingOk (base len : Nat) : Bool := len != 0 && (List.range (len / 65536)).all fun i => inHbm (base + 65536 * i) && inHbm (base + 65536 * i + 65535)

/-- An image is accepted (R476): the vendor key has signed the digest of its body, and its security version is at or above the fused
minimum. What the spec does not lay out of an image is free (log entry 14). -/
def imageAccepted (b : List Byte) : Bool := Config.imageSigned b && decide (Config.fusedVersion.toNat ≤ (Config.imageVersion b).toNat)

/-- Step 4 of the boot, which a BOOTGO write starts (R476, R491, Table 18-1): the image in the staging range is accepted, M1 extended with
the digest of its body, host A's grant withdrawn and the management cores released at its entry, or REJECT set. It begins only when step 1 has completed (R490); after either end,
only a reset of the part loads an image. -/
def bootStep4 (s : State) : State :=
  let st := s.reg 0 0x0810
  if !st.getLsbD 0 || st.getLsbD 1 || st.getLsbD 2 then s
  else
    let base := bits (s.reg 0 0x0800) 16 36 * 65536
    let len := bits (s.reg 0 0x0800) 0 16 * 65536
    let reject := fun (s : State) => s.setReg 0 0x0810 (st ||| 4)
    if !stagingOk base len then reject s
    else
      let (b, s) := rootBytes base len s
      if imageAccepted b then
        let s := withdrawBoot (extend 1 (sha3 (Config.imageBody b)) s)
        let at' := (List.range 4).foldl (fun m c => smPut 0 m (Agent.mcore c).key (Config.imageEntry b)) s.corePc
        { s with corePc := at' }.setReg 0 0x0810 (st ||| 2)
      else reject s

/-- A write of ATTGO (R478). -/
def attGo (who : Agent) (s : State) : State :=
  if s.att.isSome then s.setReg 0 0xA010 (s.reg 0 0xA010 ||| 2)
  else { (s.setReg 0 0xA010 (setBits (s.reg 0 0xA010) 48 16 (masterId who))) with att := some (bits (s.reg 0 0xA000) 13 39 * 8192) }

/-- A context stops waiting for an answer (R62): it issues its access again. -/
def State.unwait (s : State) (w : XWait) : State :=
  match w.who with
  | .ac n u =>
    match eidOf u with
    | some e => s.modAc n fun a =>
      let a := if (a.eng e).xl = some w.token then a.setEng e { a.eng e with xl := none, st := if (a.eng e).st = 2 then 1 else (a.eng e).st } else a
      if e = .mx ∧ a.mxu.xl = some w.token then { a with mxu := { a.mxu with xl := none } } else a
    | none => s.modCC n fun c => if c.xl = some w.token then { c with xl := none } else c
  | _ => s

/-- The cause that an abort delivers to the context's unit, with its two words (Table 15-2): a fetch at address `pc`
raises a fetch fault, anything else XLATE_ABORT. -/
def abortCause (w : XWait) (pc : W64) : Nat × W64 × W64 :=
  if w.kind = .fetch then ((if w.va.toNat / 4096 = pc.toNat / 4096 then 0x08 else 0x09), 0x20, w.va) else (0x07, w.va, w.seq)

/-- The ABORTED cause reaches the context (Table 2-10). -/
def State.abortWait (s : State) (d : Nat) (w : XWait) : State :=
  match w.who with
  | .ac n u =>
    match eidOf u with
    | some e =>
      let (c, i0, i1) := abortCause w ((s.ac n).eng e).upc
      let tile := e == .mx && (s.ac n).mxu.xl == some w.token
      (engFault n e c i0 i1 (s.unwait w)).modAc n fun a => if tile then { a with mxu := { a.mxu with tstop := true } } else a
    | none =>
      if u = 0 ∨ u = 6 then
        (s.unwait w).modCC n fun cc =>
          let (c, i0, i1) := abortCause w cc.pc
          { cc with xlAbort := some ⟨0, c, i0, i1, 0, cc.pc, false⟩ }
      else s.modDie d fun x => { x with waits := x.waits ++ [{ w with aborted := true }] }
  | _ => s.modDie d fun x => { x with waits := x.waits ++ [{ w with aborted := true }] }

/-- A write of REPLAY (R62): a token that is not outstanding sets STALE. -/
def replayWrite (d : Nat) (v : W64) (s : State) : State :=
  let action := bits v 0 2
  if 2 ≤ action then s
  else
    let tok := bits v 32 32
    match (s.die d).waits.find? fun w => w.token == tok && !w.aborted with
    | none => s.setReg d 0x600028 (s.reg d 0x600028 ||| 2)
    | some w =>
      let s := s.dropToken d tok
      if action = 0 then s.unwait w else s.abortWait d w

/-- A write of a launch table entry (R430): CANCEL. -/
def cancelWrite (d l : Nat) (v : W64) (s : State) : State := if v.getLsbD 60 then s.cancelLaunch d l 0x102 else s

/-- A write of a register at an offset that is a multiple of 8, by an agent that may write it. -/
def regWrite (who : Agent) (d off : Nat) (v : W64) (s : State) : State :=
  if off = 0x0210 then tlbCommand d v s
  else if off = 0x0400 then qfuse d v s
  else if off = 0x0600 then precmd d v s
  else if off = 0x0710 then mintWrite d v s
  else if d = 0 ∧ off = 0x0808 then bootStep4 s
  else if (d = 0 ∨ d = 2) ∧ 0x8000 ≤ off ∧ off < 0x8028 then portWrite d off v s
  else if (d = 0 ∨ d = 2) ∧ off = 0x9000 then raiseMsi (d / 2) (bits v 0 6) s
  else if d = 0 ∧ off = 0xA008 then attGo who s
  else if 0x20000 ≤ off ∧ off < 0x21000 then (if off % 64 = 0 then cancelWrite d ((off - 0x20000) / 64) v s else s)
  else if 0x21000 ≤ off ∧ off < 0x22000 then bindWrite d ((off - 0x21000) / 64) (off % 64 / 8) v s
  else if 0x40000 ≤ off ∧ off < 0x44000 ∧ off % 64 = 0 then mailboxWord0 d ((off - 0x40000) / 64) v s
  else if 0x81000 ≤ off ∧ off < 0x81800 then gateWrite d ((off - 0x81000) / 8) v s
  else if 0x100000 ≤ off ∧ off < 0x140000 then
    if off % 0x1000 = 8 then kettleAbortWrite (64 * d + (off - 0x100000) / 0x1000) v s else s
  else if off = 0x600020 then replayWrite d v s
  else if 0x800000 ≤ off ∧ off < 0x830000 then aclWrite d (off - 0x800000) v s
  else if w1cMask d off ≠ 0 then s.setReg d off (s.reg d off &&& ~~~ (v &&& w1cMask d off))
  else if rwMask d off = 0 then s
  else
    let m := rwMask d off
    seeHot d (s.setReg d off ((s.reg d off &&& ~~~ m) ||| (v &&& m)))

/-- A 4- or 8-byte load of a die's MMIO (R25). -/
def mmioLoad (d off n : Nat) (s : State) : List Byte × State :=
  let (v, s) := regRead d (off / 8 * 8) s
  (((bytes64 v).drop (off % 8)).take n, s)

/-- A 4- or 8-byte store to a die's MMIO: a 4-byte write acts once, on the value merged with the other half, where
write-one-to-clear fields stand as zero (R25). -/
def mmioStore (who : Agent) (d off : Nat) (b : List Byte) (s : State) : State :=
  let off8 := off / 8 * 8
  if b.length = 8 then regWrite who d off8 (le64 b) s
  else
    let old := bytes64 (regVal s d off8 &&& ~~~ (w1cMask d off8))
    regWrite who d off8 (le64 (old.take (off % 8) ++ b ++ old.drop (off % 8 + b.length))) s

/-- The die and offset of an MMIO address. -/
def mmioOf (own pa : Nat) : Option (Nat × Nat) := match region own pa with | .mmio d off => some (d, off) | _ => none

end Sys2Proof.Machine
end

