-- ==== Sys2Proof/Machine/Access.lean ====
section
/-! DEFINITION. Accesses of agents through translation: ordinary loads and stores of ranges, and the checks of
memory operands (R323, R398). -/

namespace Sys2Proof.Machine

/-- Raise a trap cause. -/
def trapM {α : Type} (cause : Nat) (i0 i1 : W64) : M α := throw (.trap cause i0 i1)

/-- The illegal-operand fault with the operand's value. -/
def illegalOperand {α : Type} (v : W64) : M α := trapM 0x02 v 0

/-- A condition that must hold, or else a trap. -/
def need (b : Bool) (cause : Nat) (i0 i1 : W64) : M Unit := if b then pure () else trapM cause i0 i1

/-- Lift a change of the state. -/
def act (f : State → State) : M Unit := modify f

/-- A release of an agent completes once the writes that it covers have been performed, also those of agents of its quad that its view holds
(R132, R141), and the ports have confirmed those to host windows (R166). -/
def confirmed (a : Agent) (sc : Scope) : M Unit := do
  let s ← get
  if s.settled sc (shares .quad a) then pure () else throw .posted

/-- A release that an instruction waits for (R141, R166). -/
def relM (a : Agent) (sc : Scope) : M Unit := do
  act (release a sc)
  confirmed a sc

/-- Ordinary loads of physical pieces in units of u bytes (R145, R152). -/
def readPieces (a : Agent) (u : Nat) : List (Nat × Nat × BitVec 2) → M (List Byte)
  | [] => pure []
  | (pa, n, _) :: r => do
    let s ← get
    let (b, s) := match mmioOf a.die pa with
      | some (d, off) => mmioLoad d off n s
      | none => loadRange a none (canonPa a.die pa) n u s
    set s
    let rest ← readPieces a u r
    pure (b ++ rest)

/-- Ordinary stores of physical pieces, which translate a VA (R145). -/
def writePieces (a : Agent) (va : Nat) (s : State) : List (Nat × Nat × BitVec 2) → List Byte → State
  | [], _ => s
  | (pa, n, at') :: r, b =>
    let s := match mmioOf a.die pa with
      | some (d, off) => mmioStore a d off (b.take n) s
      | none => plainStore a (cacheable a.die pa at') va (canonPa a.die pa) (b.take n) s
    writePieces a (va + n) s r (b.drop n)

/-- Ordinary load of a virtual range in units of u bytes. -/
def readRange (a : Agent) (va : W64) (n u : Nat) : M (List Byte) := do
  addrRange va
  let ps ← reach a .read va.toNat n
  readPieces a u ps

/-- Ordinary store of a virtual range. -/
def writeRange (a : Agent) (va : W64) (b : List Byte) : M Unit := do
  addrRange va
  let ps ← reach a .write va.toNat b.length
  act fun s => writePieces a va.toNat s ps b

/-- Ordinary store of a virtual range, released at a scope (R442, R165): the agent's other stores stay as they are. -/
def writeReleased (a : Agent) (sc : Scope) (va : W64) (b : List Byte) : M Unit := do
  addrRange va
  let ps ← reach a .write va.toNat b.length
  act fun s => ps.foldl (fun s (pa, n, _) => releaseRange a sc (canonPa a.die pa) n s) (writePieces a va.toNat s ps b)

/-- Acquire, then load a virtual range in units of u bytes; nothing is acquired when the range is refused. -/
def readAcquired (a : Agent) (sc : Scope) (va : W64) (n u : Nat) : M (List Byte) := do
  addrRange va
  let ps ← reach a .read va.toNat n
  act (acquire a sc)
  readPieces a u ps

/-- A range that must translate into the cluster's own scratch (R398): 64-byte aligned, else the illegal-operand
fault; then the checks of an access. -/
def ownScratch (a : Agent) (n : Nat) (k : AKind) (va : W64) (len : Nat) : M (List (Nat × Nat × BitVec 2)) := do
  addrRange va
  need (va.toNat % 64 == 0) 0x02 va 0
  need (decide (va.toNat + len ≤ 2 ^ 55)) 0x03 va 0
  let ps ← (pagePieces va.toNat len).mapM fun (v, m) => do
    let (pa, at') ← xlate a k v
    pure (v, pa, m, at')
  need (ps.all fun (_, pa, _, _) => match region a.die pa with | .scratch j _ => j == n | _ => false) 0x02 va 0
  let s ← get
  match ps.findSome? fun (v, pa, m, _) => (checkAccess s a k pa m).map (·.withVa (BitVec.ofNat 64 v)) with
  | some x => throw x
  | none => pure (ps.map fun (_, pa, m, at') => (pa, m, at'))

/-- Unreleased stores of an operation for physical pieces, which translate a VA. -/
def pieceWrites (own : Nat) (tag : OpTag) (va : Nat) : List (Nat × Nat × BitVec 2) → List Byte → List PWrite
  | [], _ => []
  | (pa, n, at') :: r, b => ⟨canonPa own pa, b.take n, cacheable own pa at', va, tag⟩ :: pieceWrites own tag (va + n) r (b.drop n)

/-- Elements of e bytes of a list, as numbers. -/
def elems (e : Nat) (b : List Byte) : List Nat := (chunksOf (b.length + 1) e b).map leNat

/-- Bytes of numbers as elements of e bytes. -/
def ofElems (e : Nat) (l : List Nat) : List Byte := l.flatMap (leBytes e)

/-- Bytes of integers as elements of e bytes, two's complement. -/
def ofInts (e : Nat) (l : List Int) : List Byte := l.flatMap fun v => leBytes e (BitVec.ofInt (8 * e) v).toNat

/-- Signed value of a number of e bytes. -/
def signedOf (e v : Nat) : Int := (BitVec.ofNat (8 * e) v).toInt

end Sys2Proof.Machine
end

