-- ==== Sys2Proof/Machine/AxOps.lean ====
section
/-! DEFINITION. The array tiles: nominal cell model (R388 to R394), what each array command does to a tile, and the
progress of commands in flight (R395 to R397, R494). -/

namespace Sys2Proof.Machine

/-! ### Tiles -/

/-- Reset values of the tile registers (Table 13-3). -/
def tileDefault (r : Nat) : W64 :=
  match r with
  | 0 => 0x3F80 | 2 => 16 | 3 => 1 | 4 => 0x906 | 5 => 4 | _ => 0

/-- A tile after reset: levels and symmetry points of the REF state zero, generators seeded with 0 (R390, R393). -/
def Tile.reset : Tile :=
  { reg := [], spr := [], rowGen := [], colGen := [], lf := [], ls := [], sc := [], plf := [], pls := [], fastAt := [], slowAt := [], now := 0, slack := 0 }

def AC.tile (a : AC) (t : Nat) : Tile := smGet Tile.reset a.tiles t
def State.setTile (s : State) (n t : Nat) (x : Tile) : State := s.modAc n fun a => { a with tiles := smSet a.tiles t x }
def State.tile (s : State) (n t : Nat) : Tile := (s.ac n).tile t

def Tile.r (t : Tile) (i : Nat) : W64 := smGet (tileDefault i) t.reg i
def Tile.setR (t : Tile) (i : Nat) (v : W64) : Tile := { t with reg := smPut (tileDefault i) t.reg i v }

/-- Mode codes of Table 13-1: 0 PHYS, 1 REF, 2 FROZEN, 3 FROZENS. -/
def Tile.mode (t : Tile) : Nat := bits (t.r 6) 0 2
def Tile.isRef (t : Tile) : Bool := t.mode == 1

/-- The window of a window word (Table 1-4). -/
structure Win where
  tile : Nat
  row0 : Nat
  rows : Nat
  col0 : Nat
  cols : Nat
deriving DecidableEq, Repr

/-- The window of a word, or none where it breaks R28. -/
def winOf (w : W64) : Option Win :=
  let x : Win := ⟨bits w 40 4, bits w 0 10, bits w 10 10 + 1, bits w 20 10, bits w 30 10 + 1⟩
  if bits w 44 20 = 0 ∧ x.row0 + x.rows ≤ 1024 ∧ x.col0 + x.cols ≤ 1024 then some x else none

/-- The window lies in rows and columns 0 to 31 (R390). -/
def Win.inRef (w : Win) : Bool := decide (w.row0 + w.rows ≤ 32 ∧ w.col0 + w.cols ≤ 32)

/-- Key of the weight at a row and column. -/
def cell (r c : Nat) : Nat := 1024 * r + c

/-- Levels that the mode's commands see: the REF state or the physical cells. -/
def Tile.fast (t : Tile) (k : Nat) : Int := smGet 0 (if t.isRef then t.lf else t.plf) k
def Tile.slow (t : Tile) (k : Nat) : Int := smGet 0 (if t.isRef then t.ls else t.pls) k
/-- Set a level; the drift of a physical cell is counted from then on (R410). -/
def Tile.setFast (t : Tile) (k : Nat) (v : Int) : Tile :=
  if t.isRef then { t with lf := smPut 0 t.lf k v } else { t with plf := smPut 0 t.plf k v, fastAt := smPut 0 t.fastAt k t.now }
def Tile.setSlow (t : Tile) (k : Nat) (v : Int) : Tile :=
  if t.isRef then { t with ls := smPut 0 t.ls k v } else { t with pls := smPut 0 t.pls k v, slowAt := smPut 0 t.slowAt k t.now }

/-- Symmetry point of a physical cell: fixed for its life within 16 sixteenths (R410); log entry 10. -/
def cellSym (n ti r c : Nat) : Int := satInt (Config.physSym n ti r c) (-512) 512

/-- Symmetry point of a weight now: the REF state's, or that of the physical cell (R388, R390, Table 13-9), with the count of free values. -/
def Tile.sym (n ti : Nat) (t : Tile) (r c q : Nat) : Int × Nat :=
  if t.isRef then (smGet 0 t.sc (cell r c), q)
  else (satInt (cellSym n ti r c + satInt (Config.physSample q) (-16) 16) (-512) 512, q + 1)

def Tile.sprAt (t : Tile) (c : Nat) : Int := smGet 0 t.spr c

/-- A tile and the count of free values taken (R410; log entry 10). -/
abbrev TileS := Tile × Nat

/-- One fast pulse on a weight (R392); on a physical cell the change is a free value. -/
def fastPulse (n ti : Nat) (up : Bool) (r c : Nat) (x : TileS) : TileS :=
  let (t, q) := x
  let l := t.fast (cell r c)
  if t.isRef then
    let sc := (t.sym n ti r c q).1
    let d : Int := if up then (if 16 * l < sc then 2 else 1) else (if 16 * l > sc then -2 else -1)
    (t.setFast (cell r c) (satInt (l + d) (-255) 255), q)
  else (t.setFast (cell r c) (satInt (l + Config.physStep q) (-255) 255), q + 1)

/-- k slow pulses of one sign on a weight (R392). -/
def slowPulses (pos : Bool) (r c k : Nat) (x : TileS) : TileS :=
  (List.range k).foldl (fun (x : TileS) _ =>
    let l := x.1.slow (cell r c)
    if x.1.isRef then (x.1.setSlow (cell r c) (satInt (l + (if pos then 1 else -1)) (-2047) 2047), x.2)
    else (x.1.setSlow (cell r c) (satInt (l + Config.physStep x.2) (-2047) 2047), x.2 + 1)) x

/-! ### Pulse generators (R393) -/

def genSeed (seed : W32) (k : Nat) : W32 :=
  let z := mix (seed ^^^ BitVec.ofNat 32 k)
  if z = 0 then 0x9E3779B9 else z

def genStep (z : W32) : W32 :=
  let z := z ^^^ (z <<< 13)
  let z := z ^^^ (z >>> 17)
  z ^^^ (z <<< 5)

def Tile.seed (t : Tile) : W32 := (t.r 1).extractLsb' 0 32
def Tile.rowZ (t : Tile) (r : Nat) : W32 := smGet (genSeed t.seed (0x10000 + r)) t.rowGen r
def Tile.colZ (t : Tile) (c : Nat) : W32 := smGet (genSeed t.seed (0x20000 + c)) t.colGen c

/-! ### Reads (R401 to R403, R406) -/

/-- What AFWD and ABWD do with their inputs: no read, or a scale and codes. -/
inductive ReadPlan where
  | nan
  | codes (sc : FVal) (l : List Int)
deriving DecidableEq, Repr

/-- Scale and codes of the inputs (R401), and the FP32 bits of a computed in_scale. -/
def readPlan (xs : List FVal) (supplied : Option FVal) : ReadPlan × W32 :=
  let bad := xs.any FVal.nonFinite
  match supplied with
  | some sc =>
    let ok := match sc with | .fin neg m _ _ => !neg && m != 0 | _ => false
    if !ok || bad then (.nan, 0)
    else (.codes sc (xs.map fun x => satInt (roundInt .rne 0 (divX x sc)) (-127) 127), 0)
  | none =>
    if xs.any FVal.isNan then (.nan, 0x7FC00000)
    else if bad then (.nan, 0x7F800000)
    else
      let mx := xs.foldl (fun a x => if cmpX a x.abs = .lt then x.abs else a) (.zero false)
      let sc := toF32 .rne 0 false (divX mx (.ofInt 127))
      let codes := xs.map fun x =>
        if mx.isZero then 0 else satInt (roundInt .rne 0 (divX (mulX x (.ofInt 127)) mx)) (-127) 127
      (.codes (f32 sc) codes, sc)

/-- An ADC code: nominal in REF mode, free in the others (R401, R410). -/
def adc (ref : Bool) (sh : Nat) (sum : Int) (q : Nat) : Int × Nat :=
  if ref then (satInt (roundInt .rne 0 (.scaled sum (-(sh : Int)))) (-511) 511, q)
  else (satInt (Config.physCode q) (-511) 511, q + 1)

/-- One output of a read (R401): codes of the fast and slow arrays, and the correction in sixteenths. -/
def readOut (t : Tile) (sc : FVal) (aF aS corr : Int) : W32 :=
  let shF := bits (t.r 4) 0 4
  let shS := bits (t.r 4) 8 4
  let u := r32 (.scaled (aF * 2 ^ shF * 16 - corr) (-4))
  let v := r32 (mulX (r32 (mulX (b16 ((t.r 0).setWidth 16)) u)) (.scaled 1 (-8)))
  let w := r32 (.scaled (aS * 2 ^ shS) (-11))
  toF32 .rne 0 false (mulX sc (r32 (addX .rne v w)))

/-- Sum of products of codes with levels. -/
def dot (codes : List Int) (lv : Nat → Int) (base : Nat) : Int :=
  (codes.zip (List.range codes.length)).foldl (fun a (x, i) => a + x * lv (base + i)) 0

/-- The outputs of AFWD (forward) or ABWD over a window (R401, R402). -/
def readOuts (t : Tile) (w : Win) (fwd : Bool) (sc : FVal) (codes : List Int) (q : Nat) : List W32 × Nat :=
  let shF := bits (t.r 4) 0 4
  let shS := bits (t.r 4) 8 4
  let (n, o, b) := if fwd then (w.cols, w.col0, w.row0) else (w.rows, w.row0, w.col0)
  let key := fun (out i : Nat) => if fwd then cell i out else cell out i
  let total := codes.foldl (· + ·) 0
  let bcorr := dot codes t.sprAt b
  (List.range n).foldl (fun (acc : List W32 × Nat) j =>
    let out := o + j
    let (aF, q) := adc t.isRef shF (dot codes (fun i => t.fast (key out i)) b) acc.2
    let (aS, q) := adc t.isRef shS (dot codes (fun i => t.slow (key out i)) b) q
    let corr := if fwd then t.sprAt out * total else bcorr
    (acc.1 ++ [readOut t sc aF aS corr], q)) ([], q)

/-- Sentinel events of a read: sentinels that read more than SBAND from their expected code (R403). -/
def sentinels (t : Tile) (w : Win) (codes : List Int) (q : Nat) : Nat × Nat :=
  if t.isRef then (0, q)
  else
    (List.range 8).foldl (fun (acc : Nat × Nat) k =>
      let sum := dot codes (fun r => if r / 2 ^ k % 2 = 0 then 64 else -64) w.row0
      let (e, _) := adc true (bits (t.r 4) 0 4) sum 0
      let got := satInt (Config.physCode acc.2) (-511) 511
      (if (bits (t.r 5) 0 8 : Int) < (got - e).natAbs then acc.1 + 1 else acc.1, acc.2 + 1)) (0, q)

/-- Bytes that ACKR writes for one column (R406). -/
def checkRead (t : Tile) (w : Win) (fast : Bool) (lgN col : Nat) (q : Nat) : List Byte × Nat :=
  let (vs, q) := (List.range w.rows).foldl (fun (acc : List Int × Nat) i =>
    let k := cell (w.row0 + i) col
    let l := if fast then t.fast k else t.slow k
    let (sum, q) := (List.range (2 ^ lgN)).foldl (fun (x : Int × Nat) _ =>
      if t.isRef then (x.1 + 8 * l, x.2) else (x.1 + Config.physSample x.2, x.2 + 1)) (0, acc.2)
    (acc.1 ++ [roundInt .rne 0 (.scaled sum (-(lgN : Int)))], q)) ([], q)
  if fast then (ofInts 1 (vs.map fun a => satInt (roundInt .rne 0 (.scaled a (-4))) (-127) 127), q)
  else (ofInts 2 vs, q)

/-! ### Commands that change cells -/

/-- Fires of generators from base for a list of probabilities, with the stepped generators (R404). -/
def fires (get : Nat → W32) (base : Nat) (probs : List Nat) (m : SMap W32) : List Bool × SMap W32 :=
  let l := (probs.zip (List.range probs.length)).map fun (p, i) =>
    let z := genStep (get (base + i))
    (p == 65535 || decide (z.toNat / 65536 < p), (base + i, z))
  (l.map (·.1), l.foldl (fun m x => smSet m x.2.1 x.2.2) m)

/-- AUPD: BL slots over a window with row and column codes (R404). -/
def update (n : Nat) (w : Win) (bl : Nat) (neg : Bool) (rc cc : List Nat) (x : TileS) : TileS :=
  let sg := fun (v : Nat) => decide (2 ^ 31 ≤ v)
  (List.range bl).foldl (fun (x : TileS) _ =>
    let t := x.1
    let (fr, rg) := fires t.rowZ w.row0 (rc.map (· % 65536)) t.rowGen
    let (fc, cg) := fires t.colZ w.col0 (cc.map (· % 65536)) t.colGen
    let x : TileS := ({ t with rowGen := rg, colGen := cg }, x.2)
    ((rc.zip fr).zip (List.range rc.length)).foldl (fun (x : TileS) ((r, f), i) =>
      if !f then x
      else ((cc.zip fc).zip (List.range cc.length)).foldl (fun (x : TileS) ((c, g), j) =>
        if g then fastPulse n w.tile ((sg r ^^ sg c) == neg) (w.row0 + i) (w.col0 + j) x else x) x) x) x

/-- AXFER: transfer of a window (R405). -/
def transfer (w : Win) (x : TileS) : TileS :=
  (List.range w.cols).foldl (fun (x : TileS) j =>
    (List.range w.rows).foldl (fun (x : TileS) i =>
      let (t, q) := x
      let (r, c) := (w.row0 + i, w.col0 + j)
      let (v, q) := if t.isRef then (16 * t.fast (cell r c) - t.sprAt c, q)
        else (Config.physSample q - t.sprAt c, q + 1)
      let nx : Int := bits (t.r 3) 0 11
      let k := satInt (Int.tdiv v (bits (t.r 2) 0 16)) (-nx) nx
      slowPulses (decide (0 < k)) r c k.natAbs (t, q)) x) x

/-- Sum of the symmetry points of a column's rows. -/
def symSum (n : Nat) (w : Win) (c : Nat) (t : Tile) (q : Nat) : Int × Nat :=
  (List.range w.rows).foldl (fun (acc : Int × Nat) i =>
    let (v, q) := t.sym n w.tile (w.row0 + i) c acc.2
    (acc.1 + v, q)) (0, q)

/-- ACAL: pulse pairs on a window and the new symmetry-point registers (R408). In modes other than REF the
estimate is a free value, within 24 sixteenths of the column's mean s_cell from 32 pairs on (Table 13-9). -/
def calibrate (n : Nat) (w : Win) (b : Nat) (x : TileS) : TileS :=
  (List.range w.cols).foldl (fun (x : TileS) j =>
    let c := w.col0 + j
    let (x, sum) := (List.range w.rows).foldl (fun (acc : TileS × Int) i =>
      let r := w.row0 + i
      let x := (List.range (b - 1)).foldl (fun x _ => fastPulse n w.tile false r c (fastPulse n w.tile true r c x)) acc.1
      let x := fastPulse n w.tile true r c x
      let lu := x.1.fast (cell r c)
      let x := fastPulse n w.tile false r c x
      (x, acc.2 + lu + x.1.fast (cell r c))) (x, 0)
    let (est, q) := if x.1.isRef then (roundInt .rne 0 (divX (.ofInt (16 * sum)) (.ofInt (2 * w.rows))), x.2)
      else if b < 32 then (Config.physSample x.2, x.2 + 1)
      else
        let (m, q) := symSum n w c x.1 x.2
        let k : Int := w.rows
        (satInt (Config.physSample q) (-((24 * k - m) / k)) ((m + 24 * k) / k), q + 1)
    ({ x.1 with spr := smPut 0 x.1.spr c (satInt est (-32768) 32767) }, q)) x

/-- Program one row of an APROG (R407): the tile and the row's residual. FN 0 slow, 1 fast, 2 fast to the symmetry
point. In modes other than REF the achieved level is a free value within a level of the target, but for as many cells as `slack` still allows
(Table 13-9). -/
def progRow (n : Nat) (w : Win) (form : Nat) (p : ProgRow) (slack : Nat) (x : TileS) : TileS × Nat × Int :=
  let lim : Int := if form = 0 then 2047 else 255
  (List.range w.cols).foldl (fun (acc : TileS × Nat × Int) j =>
    let ((t, q), slack, worst) := acc
    let c := w.col0 + j
    let (goal, q) := if form = 2 then (let (v, q) := t.sym n w.tile p.row c q; (roundInt .rne 0 (.scaled v (-4)), q)) else (p.targets.getD j 0, q)
    let target := satInt goal (-lim) lim
    let (got, q) := if t.isRef then (target, q) else (satInt (Config.physSample q) (-lim) lim, q + 1)
    let near := decide ((got - target).natAbs ≤ 1)
    let got := if near ∨ 0 < slack then got else satInt (satInt got (target - 1) (target + 1)) (-lim) lim
    let slack := if near then slack else slack - 1
    let t := if form = 0 then t.setSlow (cell p.row c) got else t.setFast (cell p.row c) got
    ((t, q), slack, if worst.natAbs < (got - target).natAbs then got - target else worst)) (x, slack, 0)

/-! ### Commands in flight -/

/-- Run a change of a tile that takes free values. -/
def State.onTile (s : State) (n ti : Nat) (f : TileS → TileS) : State :=
  let (t, q) := f ({ s.tile n ti with now := s.cycle }, s.seq)
  { s.setTile n ti t with seq := q }

/-- Effective cap of active tiles (R494): halved while HOT. -/
def actCap (d : Die) : Nat :=
  let m := bits (d.reg 0x10000) 0 11
  let m := if m = 0 then 1 else if 1024 < m then 1024 else m
  if d.hot then max 1 (m / 2) else m

/-- A command that drives cells asks for admission: started, or waiting (R494). -/
def State.powerAsk (s : State) (n ti : Nat) : Bool × State :=
  let d := dieOf n
  let x := s.die d
  if x.pwait.isEmpty && decide (x.pactive < actCap x) then (false, s.setDie d { x with pactive := x.pactive + 1 })
  else (true, s.setDie d { x with pwait := x.pwait ++ [⟨n, ti⟩] })

/-- Scratch writes of a command join the stores of AX (R398). -/
def axWrites (n : Nat) (s : State) (ws : List PWrite) : State :=
  ws.foldl (addStore (.ac n 5)) s

/-- APROG programs its next row: levels, residual, PROGROW; OPEN falls after the last row (R407). -/
def axProgRow (n : Nat) (c : AxCmd) (s : State) : AxCmd × State :=
  match c.rows, winOf c.win with
  | p :: rest, some w =>
    let ((t, q), slack, res) := progRow n w c.form p c.slack ({ s.tile n c.tile with now := s.cycle }, s.seq)
    let t := t.setR 8 (BitVec.ofNat 64 ((p.row + 1) % 1024))
    let s := { s.setTile n c.tile t with seq := q }
    ({ c with rows := rest, slack := slack }, addStore (.ac n 5) s { p.resid with bytes := ofInts 2 [res] })
  | _, _ => (c, s)

/-- One step of a command's progress: an APROG with rows left programs one; any other command completes, performs
its scratch writes and frees its tile's admission. -/
def axAdvance (n : Nat) (c : AxCmd) (s : State) : AxCmd × State :=
  let fin := fun (c : AxCmd) (s : State) =>
    ({ c with done := true, writes := [] }, (axWrites n s c.writes).modDie (dieOf n) fun d => { d with pactive := d.pactive - 1 })
  if c.rows.isEmpty then fin c s
  else
    let (c, s) := axProgRow n c s
    if c.rows.isEmpty then
      fin c (s.setTile n c.tile (let t := s.tile n c.tile; t.setR 7 (setBits (t.r 7) 63 1 0)))
    else (c, s)

/-- A command of AX still waits for the power cap, so that AX has not settled (R3, R397). -/
def AC.powerHeld (a : AC) : Bool := a.axq.any fun c => c.waiting && c.rows.isEmpty

/-- Commands that have completed retire in order and give their tokens while there is room (R396, R156). -/
def axRetire (n : Nat) : Nat → State → State
  | 0, s => s
  | f + 1, s =>
    let a := s.ac n
    match a.axq with
    | c :: rest =>
      if !c.done then s
      else if c.give = 0 then axRetire n f (s.setAc n { a with axq := rest })
      else if a.ln.tokens 5 c.give + 1 ≤ 16 then
        let s := release (.ac n 5) .ac s
        axRetire n f (s.modAc n fun a =>
          { a with axq := rest, ln := a.ln.setTokens 5 c.give (a.ln.tokens 5 c.give + 1) })
      else s
    | [] => s

/-- Update the first command of a queue that satisfies a test. -/
def updFirst {α : Type} (p : α → Bool) (x : α) : List α → List α
  | [] => []
  | c :: r => if p c then x :: r else c :: updFirst p x r

end Sys2Proof.Machine
end

