-- ==== Sys2Proof/Machine/Land.lean ====
section
/-! DEFINITION. Results of VA in flight and their landing (R366, R367, R448). -/

namespace Sys2Proof.Machine

/-- Spread the low n bits of a mask so that each covers 16 bits (WMASK, Table 15-7). -/
def spread16 (m : Nat) (n : Nat) : Nat :=
  (List.range n).foldl (fun acc b => if m.testBit b then acc + 0xFFFF * 2 ^ (16 * b) else acc) 0

/-- Replace the bytes of a register that a mask of byte pairs selects. -/
def mergeV (old new : VWord) (m : Nat) : VWord :=
  let k := BitVec.ofNat 8192 (spread16 (m % 2 ^ 512) 512)
  (old &&& ~~~ k) ||| (new &&& k)

def Vec.vr (v : Vec) (r : Nat) : VWord := smGet 0 v.v r
def Vec.setV (v : Vec) (r : Nat) (x : VWord) : Vec := { v with v := smPut 0 v.v r x }
/-- m0 reads all true (R363). -/
def Vec.mr (v : Vec) (r : Nat) : MWord := if r = 0 then BitVec.allOnes 512 else smGet 0 v.m r
/-- A write to m0 is discarded (R267). -/
def Vec.setM (v : Vec) (r : Nat) (x : MWord) : Vec := if r = 0 then v else { v with m := smPut 0 v.m r x }

/-- Add to a 32-bit saturating count in a system register (Table 12-2). -/
def CC.satCount (c : CC) (reg k : Nat) : CC := c.setSr reg (BitVec.ofNat 64 (min ((c.sr reg).toNat + k) 0xFFFFFFFF))

/-- The second physical register of a pair whose first is p: rotating registers follow in their ring (R268). -/
def pairReg (p : Nat) : Nat := if p = 63 then 32 else p + 1

/-- Write what a result writes. A mask result's WMASK selects bits of the mask, one for each pair of bytes of the
elements that they belong to (R363). -/
def writeFlight (f : Flight) (a : AC) : AC :=
  let m := f.wmask.toNat
  let vec := match f.kind, f.data with
    | 0, d :: _ => a.vec.setV f.dest (mergeV (a.vec.vr f.dest) d m)
    | 1, d :: e :: _ =>
      (a.vec.setV f.dest (mergeV (a.vec.vr f.dest) d m)).setV (pairReg f.dest)
        (mergeV (a.vec.vr (pairReg f.dest)) e (m / 2 ^ 512))
    | 2, d :: _ =>
      let k := BitVec.ofNat 512 m
      a.vec.setM f.dest ((a.vec.mr f.dest &&& ~~~ k) ||| (d.setWidth 512 &&& k))
    | _, _ => a.vec
  let va := if f.kind = 3 then a.va.setX f.dest f.xval else a.va
  { a with vec := vec, va := va, cc := (a.cc.satCount 0x044 f.dnf).satCount 0x045 f.dcl }

/-- A landed result whose give found its FIFO full: it has written, and holds the engine until the token fits
(R156). -/
def Flight.owing (f : Flight) : Flight := { f with kind := 4, dest := 0, dnf := 0, dcl := 0, wmask := 0, data := [], sq := false }

/-- Tokens that a result gives: one, or those of a give alone (kind 4), which all fit at once (R353). -/
def Flight.gives (f : Flight) : Nat := if f.kind = 4 then f.dest + 1 else 1

/-- Insert by landing cycle, after those of the same cycle. -/
def insFlight (f : Flight) : List Flight → List Flight
  | [] => [f]
  | g :: r => if f.land < g.land then f :: g :: r else g :: insFlight f r

/-- A result whose data had an uncorrectable error is not written: VA stops at its instruction (R457). -/
def badFlight (n : Nat) (f : Flight) (src : Nat) (info : W64) (s : State) : State :=
  (engFault n .va 0x1A (BitVec.ofNat 64 src) info s).modEng n .va fun x => { x with upc := f.pc }

/-- Land one result: it writes, and gives its token if there is room; otherwise it stays and owes it. -/
def landOne (n : Nat) (s : State) (f : Flight) : State :=
  let a := writeFlight f (s.ac n)
  match f.bad with
  | some (src, info) => badFlight n f src info s
  | none =>
  if f.give = 0 then s.setAc n a
  else if a.ln.tokens 2 f.give + f.gives ≤ 16 then
    release (.ac n 2) .ac (s.setAc n { a with ln := a.ln.setTokens 2 f.give (a.ln.tokens 2 f.give + f.gives) })
  else s.setAc n { a with vec := { a.vec with flight := insFlight (if f.kind = 4 then f else f.owing) a.vec.flight } }

/-- Results that land by the end of a cycle land in the order of their landing cycles and issue (R367). -/
def landUpTo (n c : Nat) (s : State) : State :=
  let a := s.ac n
  let due := a.vec.flight.filter fun f => decide (f.land ≤ c)
  if due.isEmpty then s
  else due.foldl (landOne n) (s.setAc n { a with vec := { a.vec with flight := a.vec.flight.filter fun f => decide (c < f.land) } })

/-- The last cycle in which VA had its turn: this one once it has issued in it, else the one before (R366, R448). -/
def Vec.lastTurn (v : Vec) (cycle : Nat) : Nat := if v.issued = cycle + 1 then cycle else cycle - 1

/-- A result waits on a full FIFO, which holds VA (R156). -/
def Vec.owes (v : Vec) (c : Nat) : Bool := v.flight.any fun f => decide (f.land < c) || f.kind == 4

/-- Results in flight, latched or owing a token. -/
def Vec.busy (v : Vec) : Bool := !v.flight.isEmpty

end Sys2Proof.Machine
end

