-- ==== Sys2Proof/Machine/Frame.lean ====
section
/-! DEFINITION. The save area of a trap (R444, Tables 15-5 to 15-7): its image, and what an image restores (R445). -/

namespace Sys2Proof.Machine

/-- A list of words made to a length, with zeros. -/
def padTo (n : Nat) (l : List W64) : List W64 := l.take n ++ List.replicate (n - l.length) 0

/-- Words of a bit vector, low first. -/
def wordsOf (k : Nat) (v : Nat) : List W64 := (List.range k).map fun i => BitVec.ofNat 64 (v / 2 ^ (64 * i))

/-- Value of words, low first. -/
def wordsVal : List W64 → Nat
  | [] => 0
  | w :: r => w.toNat + 2 ^ 64 * wordsVal r

/-- Words 0 and 1 to 4 of a command entry (Table 8-3). -/
def QEntry.words (q : QEntry) : List W64 :=
  pack [(62, q.kind), (61, q.gen.toNat), (60, q.gneg.toNat), (55, q.gslot.toNat), (52, q.nops), (0, q.offset.toNat)]
    :: padTo 4 q.ops

/-- CCSTAT (Table 10-8). -/
def CC.stat (c : CC) : W64 :=
  pack [(5, c.resumed.toNat), (4, c.la1.toNat), (3, c.la0.toNat), (2, c.evt.toNat), (1, c.ie.toNat), (0, c.h.toNat)]

/-- ESTOP and EDEF of a cluster whose engines stand as they do (Table 15-1, 0x02A). -/
def AC.estop (a : AC) : W64 :=
  pack (allEng.flatMap fun e =>
    [(eidCode e - 1, if (a.eng e).st = 3 then 1 else 0), (eidCode e + 4, (a.eng e).deferred.toNat)])

/-- Engine block (Table 15-6). -/
def Eng.block (e : Eng) : List W64 :=
  [pack [(62, e.st), (61, e.deferred.toNat), (0, e.upc.toNat % 2 ^ 55)], BitVec.ofNat 64 e.fcause, e.finfo]
    ++ (List.range 22).map e.xr
    ++ [pack [(63, e.act0.toNat), (0, e.live0s.toNat % 2 ^ 55)], e.live0e, pack [(63, e.act1.toNat), (0, e.live1s.toNat % 2 ^ 55)],
        e.live1e, pack [(13, e.giveE), (8, e.giveN), (0, e.etok)], e.finfo1, 0]

/-- Result latch with K remaining cycles (Table 15-7). -/
def Flight.latch (f : Flight) (k : Nat) : List W64 :=
  let data := if f.kind = 3 then [f.xval] else if f.kind = 2 then wordsOf 8 (f.data.headD 0).toNat
    else f.data.flatMap fun d => wordsOf 128 d.toNat
  [pack [(63, 1), (62, f.sq.toNat), (60, if f.kind = 4 then 0 else f.kind), (48, f.give), (40, f.dest), (32, k)],
    pack [(32, min f.dnf 0xFFFFFFFF), (0, min f.dcl 0xFFFFFFFF)]] ++ List.replicate 6 0 ++ wordsOf 16 f.wmask.toNat
    ++ List.replicate 8 0 ++ padTo 256 data

/-- A give that waits for room, as one latch for each token. -/
def Flight.each (f : Flight) : List Flight := if f.kind = 4 then List.replicate f.gives { f with dest := 0 } else [f]

/-- The CC system registers that the frame holds, in its order (Table 15-5, offset 0x300). -/
def frameRegs : List Nat := (List.range 12).map (0x010 + ·) ++ (List.range 6).map (0x0D0 + ·) ++ (List.range 6).map (0x080 + ·)
  ++ (List.range 6).map (0x088 + ·)

/-- Queue image: every queue in the order 0 to 5, oldest first (Table 15-5, offset 0x4000). -/
def AC.queueImage (a : AC) : List W64 :=
  let slots := allEng.flatMap (fun e => (a.eng e).q.map fun q => q.words ++ [BitVec.ofNat 64 (eidCode e - 1), BitVec.ofNat 64 q.num, 0])
  let ret := a.ln.retq.map fun (c, v) => [BitVec.ofNat 64 c, v, 0, 0, 0, 5, 0, 0]
  let l := slots ++ ret
  (l ++ List.replicate (512 - l.length) [0, 0, 0, 0, 0, 7, 0, 0]).flatten

/-- The frame's image without its vector area: 0x1_4000 bytes as words. The first two lists are word block 0x200. -/
def AC.frame (a : AC) (stop : Nat) (head : List W64) : List W64 :=
  let c := a.cc
  (List.range 64).map (fun i => c.s (BitVec.ofNat 6 i))
    ++ padTo 32 head
    ++ padTo 32 (frameRegs.map c.sr)
    ++ allEng.flatMap (fun e => padTo 32 (a.eng e).block)
    ++ padTo 32 ((List.range 5).map fun i => pack ((List.range 5).map fun j => (8 * j, a.ln.tokens (i + 1) (j + 1))))
    ++ padTo 192 ([c.sr 0x040, c.sr 0x041, c.sr 0x042, c.sr 0x043, c.sr 0x044, c.sr 0x045, 0, 0]
        ++ (List.range 7).flatMap fun i => wordsOf 8 (a.vec.mr (i + 1)).toNat)
    ++ allEng.flatMap (fun e => (List.range 256).map (a.eng e).cbr)
    ++ List.replicate 256 0
    ++ a.queueImage
    ++ padTo 3456 (((a.vec.flight.flatMap Flight.each).take 12).flatMap fun f => f.latch (max 1 (f.land - stop)))
    ++ List.replicate 640 0

/-! ### Reading an image back (R445) -/

/-- Every word of a list is zero. -/
def allZero (w : List W64) : Bool := w.all (· == 0)

/-- A code of Table 15-2, or 0 for none (R440). -/
def causeCode (c : Nat) : Bool := decide (c ≤ 0x1B) || c == 0x20 || c == 0x21 || c == 0x30

/-- Words 0 to 31 from 0x200 keep Tables 15-1 and 15-5: reserved bits zero, SRC and CAUSE in use. -/
def headOk (w : List W64) : Bool :=
  let g := fun i => w.getD i 0
  bits (g 0) 55 9 == 0 && bits (g 1) 56 5 == 0 && decide (bits (g 1) 52 4 ≤ 7) && bits (g 1) 8 44 == 0 && causeCode (bits (g 1) 0 8)
    && bits (g 6) 6 58 == 0 && bits (g 7) 16 48 == 0 && bits (g 9) 10 54 == 0 && allZero (w.drop 10)

/-- Token counts of the frame (Table 15-5, offset 0x900): pairs of FIFO key and count. -/
def frameTok (w : List W64) : SMap Nat :=
  (List.range 25).foldl (fun m k => smPut 0 m k (bits (w.getD (k / 5) 0) (8 * (k % 5)) 8)) []

def frameTokOk (w : List W64) : Bool :=
  (List.range 5).all fun i =>
    let x := w.getD i 0
    bits x 40 24 == 0 && (List.range 5).all fun j =>
      let v := bits x (8 * j) 8
      decide (v ≤ 16) && (i != j || v == 0)

/-- Guard slots of word 8: 0 empty, 1 true, 2 false. -/
def frameGuards (w : W64) : SMap Bool :=
  (List.range 32).foldl (fun m i => match bits w (2 * i) 2 with | 1 => smSet m i true | 2 => smSet m i false | _ => m) []

def frameGuardsOk (w : W64) : Bool := (List.range 32).all fun i => bits w (2 * i) 2 != 3

/-- An engine block keeps its table. -/
def blockOk (w : List W64) : Bool :=
  let w0 := w.getD 0 0
  let w29 := w.getD 29 0
  bits w0 55 6 == 0 && bits (w.getD 1 0) 8 56 == 0 && bits w29 16 48 == 0 && bits w29 5 3 == 0
    && decide (bits w29 13 3 ≤ 5) && decide (bits w29 8 5 ≤ 16) && decide (bits w29 0 5 ≤ 16)
    && (bits w0 61 1 == 0 || bits (w.getD 1 0) 0 8 != 0) && causeCode (bits (w.getD 1 0) 0 8)
    && (bits w29 8 5 == 0 || bits w29 13 3 != 0) && w.getD 31 0 == 0

/-- The engine that a block describes; what the frame does not hold stays. -/
def Eng.ofBlock (e : Eng) (w : List W64) (cb : List W64) : Eng :=
  let g := fun i => w.getD i 0
  { e with
    st := bits (g 0) 62 2
    deferred := (g 0).getLsbD 61
    upc := BitVec.ofNat 64 (bits (g 0) 0 55)
    fcause := bits (g 1) 0 8
    finfo := g 2
    x := (List.range 22).foldl (fun m i => smPut 0 m i (g (3 + i))) []
    live0s := BitVec.ofNat 64 (bits (g 25) 0 55)
    act0 := (g 25).getLsbD 63
    live0e := BitVec.ofNat 64 (bits (g 26) 0 55)
    live1s := BitVec.ofNat 64 (bits (g 27) 0 55)
    act1 := (g 27).getLsbD 63
    live1e := BitVec.ofNat 64 (bits (g 28) 0 55)
    giveE := bits (g 29) 13 3
    giveN := bits (g 29) 8 5
    etok := bits (g 29) 0 5
    finfo1 := g 30
    fcycle := e.heldF
    untold := e.heldU
    cb := (cb.zip (List.range 256)).foldl (fun m (v, i) => smPut 0 m i v) []
    num := e.held
    xl := none
    wait := none }

/-- A queue slot: its queue and entry, or none where it breaks Table 8-3. -/
inductive SlotImg where
  | unused
  | entry (q : Nat) (e : QEntry)
  | ret (c : Nat) (v : W64)
  | bad
deriving DecidableEq, Repr

def slotOf (w : List W64) : SlotImg :=
  let g := fun i => w.getD i 0
  let q := bits (g 5) 0 3
  if bits (g 5) 3 61 ≠ 0 then .bad
  else if q = 7 then .unused
  else if q = 5 then (if 1 ≤ (g 0).toNat ∧ (g 0).toNat ≤ 5 ∧ g 6 = 0 then .ret (g 0).toNat (g 1) else .bad)
  else if 5 < q then .bad
  else
    let k := bits (g 0) 62 2
    let n := bits (g 0) 52 3
    let off := bits (g 0) 0 32
    if 1 < k ∨ 4 < n ∨ bits (g 0) 32 20 ≠ 0 ∨ off % 4 ≠ 0 ∨ (k = 1 ∧ (off ≠ 0 ∨ g 6 ≠ 0)) then .bad
    else .entry q ⟨k, (g 0).getLsbD 61, (g 0).getLsbD 60, (g 0).extractLsb' 55 5, n, (g 0).extractLsb' 0 32,
      ((List.range n).map fun i => g (1 + i)), if k = 0 then (g 6).toNat else 0⟩

/-- A result latch of the image, landing at cycle r + K (R448). -/
def latchOk (w : List W64) : Bool :=
  let w0 := w.getD 0 0
  let kind := bits w0 60 2
  let dest := bits w0 40 8
  !w0.getLsbD 63 ||
    (bits w0 53 7 == 0 && bits w0 0 32 == 0 && decide (bits w0 48 5 ≤ 5) && decide (1 ≤ bits w0 32 8 ∧ bits w0 32 8 ≤ 11)
      && allZero ((w.drop 2).take 6) && (match kind with
        | 0 | 1 => decide (dest < 64) | 2 => decide (dest < 8) | _ => decide (dest < 22)))

def latchOf (r : Nat) (w : List W64) : Flight :=
  let w0 := w.getD 0 0
  let kind := bits w0 60 2
  let data := w.drop 32
  { land := r + bits w0 32 8
    sq := w0.getLsbD 62
    kind := kind
    dest := bits w0 40 8
    give := bits w0 48 5
    dnf := bits (w.getD 1 0) 32 32
    dcl := bits (w.getD 1 0) 0 32
    wmask := BitVec.ofNat 1024 (wordsVal ((w.drop 8).take 16))
    data := match kind with
      | 0 => [BitVec.ofNat 8192 (wordsVal (data.take 128))]
      | 1 => [BitVec.ofNat 8192 (wordsVal (data.take 128)), BitVec.ofNat 8192 (wordsVal ((data.drop 128).take 128))]
      | 2 => [BitVec.ofNat 8192 (wordsVal (data.take 8))]
      | _ => []
    xval := data.getD 0 0
    pc := 0
    bad := none }

/-- QMIN and QCAP values keep R435. -/
def poolOk (mins caps : List Nat) : Bool :=
  decide (mins.foldl (· + ·) 0 ≤ 512) && caps.all (fun c => decide (2 ≤ c ∧ c ≤ 512))
    && (mins.zip caps).all fun (m, c) => decide (m ≤ c)

/-- Bits that a CC system register of the frame holds (Tables 7-x, 10-5, 14-7). -/
def frameRegMask (n : Nat) : W64 :=
  if n = 0x010 ∨ n = 0x013 then BitVec.allOnes 64
  else if n < 0x020 then BitVec.ofNat 64 (2 ^ 55 - 1)
  else if n < 0x0D0 then 0x3FF
  else if n = 0x0D0 ∨ n = 0x0D2 ∨ n = 0x0D4 then 0xFFFFFFFF
  else BitVec.allOnes 64

/-- The words of the image from word i, k of them. -/
def sub (w : List W64) (i k : Nat) : List W64 := (w.drop i).take k

/-- Entries of queue q among slots. -/
def entriesOf (q : Nat) (l : List SlotImg) : List QEntry :=
  l.filterMap fun x => match x with | .entry p e => if p = q then some e else none | _ => none

/-- Numbers of entries name outstanding numbers of their counter, each once (R445). -/
def numsOk (a : AC) (q : Nat) (es : List QEntry) : Bool :=
  let ns := es.filterMap fun e => if e.kind = 0 ∧ e.num ≠ 0 then some e.num else none
  ns.Nodup && ns.all fun m =>
    decide (a.ln.shown q < m ∧ m ≤ a.ln.issueCount q) && !a.ln.tlDone.contains (q, m)

/-- The image keeps every rule of R445. -/
def imageOk (a : AC) (w : List W64) : Bool :=
  let regs := (frameRegs.zip (sub w 96 30)).map fun (n, v) => (v &&& frameRegMask n).toNat
  let mins := (regs.drop 18).take 6
  let caps := (regs.drop 24).take 6
  let slots := (List.range 512).map fun i => slotOf (sub w (2048 + 8 * i) 8)
  let used := (List.range 6).map fun q =>
    if q = 5 then (slots.filter fun x => match x with | .ret .. => true | _ => false).length
    else (entriesOf q slots).foldl (fun t e => t + e.pool) 0
  let va := sub w 320 8
  w.getD 0 0 == 0 && headOk (sub w 64 32) && allZero (sub w 1792 256) && allZero (sub w 9600 640) && allZero (sub w 293 27)
    && ((frameRegs.zip (sub w 96 30)).all fun (n, v) => v &&& ~~~ frameRegMask n == 0)
    && frameGuardsOk (w.getD 72 0) && poolOk mins caps
    && (List.range 5).all (fun e => blockOk (sub w (128 + 32 * e) 32))
    && frameTokOk (sub w 288 5)
    && decide ((va.getD 0 0).toNat < 32)
    && va.getD 1 0 &&& ~~~ 0x1F1F == 0 && va.getD 3 0 &&& ~~~ 0xFFF == 0 && decide ((va.getD 4 0).toNat < 2 ^ 32 ∧ (va.getD 5 0).toNat < 2 ^ 32)
    && (let s := va.getD 1 0; decide (1 ≤ bits s 0 5 ∧ bits s 0 5 ≤ 16 ∧ 1 ≤ bits s 8 5 ∧ bits s 8 5 ≤ 16))
    && decide (bits (va.getD 3 0) 8 4 ≤ 8)
    && slots.all (fun x => x != .bad)
    && decide (used.foldl (· + ·) 0 ≤ 512) && (used.zip caps).all (fun (u, c) => decide (u ≤ c))
    && (List.range 5).all (fun q => numsOk a q (entriesOf q slots))
    && (List.range 12).all (fun i => latchOk (sub w (6144 + 288 * i) 288))

/-- Numbers of a queue that stood in it at trap entry and name no entry of the image (R445). -/
def lostNums (a : AC) (q : Nat) (es : List QEntry) : List Nat :=
  match eidOf (q + 1) with
  | some e => (a.eng e).heldQ.filter fun m => m != 0 && !es.any fun x => x.num == m
  | none => []

/-- Restore a cluster from an image in cycle r (R445, R446 step 1). VA issues again from the cycle after it, which is resumption
cycle 0 (R448). -/
def AC.restore (a : AC) (w : List W64) (r : Nat) : AC :=
  let slots := (List.range 512).map fun i => slotOf (sub w (2048 + 8 * i) 8)
  let va := sub w 320 64
  let stat := w.getD 70 0
  let cause := w.getD 65 0
  let c := a.cc
  let c := { c with
    sreg := (List.range 64).foldl (fun m i => if i = 0 then m else smPut 0 m i (w.getD i 0)) []
    preg := BitVec.ofNat 16 (bits (w.getD 71 0) 1 15 * 2)
    greg := frameGuards (w.getD 72 0)
    h := false
    ie := cause.getLsbD 61
    evt := stat.getLsbD 2
    la0 := stat.getLsbD 3
    la1 := stat.getLsbD 4
    resumed := stat.getLsbD 5 }
  let c := (frameRegs.zip (sub w 96 30)).foldl (fun c (n, v) => c.setSr n (v &&& frameRegMask n)) c
  let c := (List.range 5).foldl (fun c i => c.setSr (0x021 + i) (w.getD (65 + i) 0)) c
  let c := c.setSr 0x02A (w.getD 73 0 &&& 0x3FF)
  let c := (((c.setSr 0x040 (va.getD 0 0)).setSr 0x041 (va.getD 1 0 &&& 0x1F1F)).setSr 0x042 (va.getD 2 0)).setSr 0x043
    (va.getD 3 0 &&& 0xFFF)
  let c := (c.setSr 0x044 (va.getD 4 0 &&& 0xFFFFFFFF)).setSr 0x045 (va.getD 5 0 &&& 0xFFFFFFFF)
  let a := { a with cc := c }
  let a := allEng.foldl (fun a e =>
    let i := eidCode e - 1
    a.setEng e { (a.eng e).ofBlock (sub w (128 + 32 * i) 32) (sub w (512 + 256 * i) 256) with q := entriesOf i slots }) a
  { a with
    ln := { a.ln with
      gw := []
      tok := frameTok (sub w 288 5)
      retq := slots.filterMap fun x => match x with | .ret c v => some (c, v) | _ => none }
    vec := { a.vec with
      m := (List.range 7).foldl (fun m i => smPut 0 m (i + 1) (BitVec.ofNat 512 (wordsVal (sub va (8 + 8 * i) 8)))) []
      flight := ((List.range 12).filterMap fun i =>
        let l := sub w (6144 + 288 * i) 288
        if (l.getD 0 0).getLsbD 63 then some (latchOf r l) else none)
      issued := r + 1 } }

/-- Number the routine entries that carry no number, in queue order (R445, R308). -/
def renumber (n : Nat) (s : State) (e : Eid) : State :=
  let a := s.ac n
  let q := eidCode e - 1
  let (k, l) := (a.eng e).q.foldl (fun (acc : Nat × List QEntry) x =>
    if x.kind = 0 ∧ x.num = 0 then (acc.1 + 1, acc.2 ++ [{ x with num := acc.1 + 1 }]) else (acc.1, acc.2 ++ [x]))
    (a.ln.issueCount q, [])
  s.setAc n { (a.setEng e { a.eng e with q := l }) with ln := { a.ln with tlIssue := smSet a.ln.tlIssue q k } }

end Sys2Proof.Machine
end

