-- ==== Sys2Proof/Machine/Trap.lean ====
section
/-! DEFINITION. Taking a trap and returning from one (15_traps_and_preemption.md): settling, the save area, the trap
registers, fatal traps, RFT, and the order of pending events. -/

namespace Sys2Proof.Machine

/-! ### Settling (R442, R443, Table 15-4) -/

/-- VL or VS settles: a wait for replay becomes a deferred fault and its token ceases to be outstanding. -/
def settleMem (n : Nat) (e : Eid) (s : State) : State :=
  let s := { s with fab := s.fab.filter fun x => !(e == Eid.vs && x.item == FabItem.put n && (match x.what with | .probe _ => true | _ => false)) }
  match ((s.ac n).eng e).xl with
  | none => s.modEng n e fun x => { x with wait := none }
  | some tok =>
    let (va, cause) := match s.waitOf (dieOf n) tok with | some w => (w.va, w.cause) | none => (0, 1)
    (s.modEng n e fun x =>
      { x with deferred := true, fcause := 0x1B, finfo := va, finfo1 := BitVec.ofNat 64 cause, xl := none, wait := none }).dropToken
        (dieOf n) tok

/-- VA, MX or AX settles at its next instruction; a fetch that waits for replay is given up (R64). -/
def settlePlain (n : Nat) (e : Eid) (s : State) : State :=
  let x := (s.ac n).eng e
  let s := s.modEng n e fun x => { x with xl := none, wait := none }
  match x.xl with
  | some tok => s.dropToken (dieOf n) tok
  | none => s

/-- An APROG stops before its next row (R397); how many cells it may still miss by more than a level is kept (R410). -/
def stopProg (n : Nat) (c : AxCmd) (s : State) : State :=
  let t := { s.tile n c.tile with slack := c.slack }.setR 7 (pack [(63, 1), (44, c.form), (0, bits c.win 0 44)])
  s.setTile n c.tile (match c.rows with | p :: _ => t.setR 8 (BitVec.ofNat 64 p.row) | [] => t)

/-- A command of AX in flight settles (R397): an APROG completes its current row and stops; any other completes. -/
def settleCmd (n : Nat) (acc : List AxCmd × State) (c : AxCmd) : List AxCmd × State :=
  if c.done then (acc.1 ++ [c], acc.2)
  else if c.waiting then (acc.1 ++ [c], stopProg n c acc.2)
  else
    let (c, s) := axAdvance n c acc.2
    let s := if c.done then s else (stopProg n c s).modDie (dieOf n) fun d => { d with pactive := d.pactive - 1 }
    (acc.1 ++ [c], s)

/-- Commands of AX that have completed retire behind one held by a full FIFO, which counts as retired (R443): a give to the same FIFO is owed
with it, one to another is made while there is room. What is left has not retired. -/
def settleGives (n : Nat) : List AxCmd → State → List AxCmd × State
  | [], s => ([], s)
  | c :: rest, s =>
    let x := (s.ac n).ax
    let k := (s.ac n).ln.tokens 5 c.give
    if !c.done then (c :: rest, s)
    else if c.give = 0 then settleGives n rest s
    else if x.giveN ≠ 0 ∧ x.giveE = c.give ∨ x.giveN = 0 ∧ 16 ≤ k then
      settleGives n rest (s.modEng n .ax fun x => { x with giveE := c.give, giveN := x.giveN + 1, st := if x.st = 1 then 2 else x.st })
    else if k < 16 then
      settleGives n rest ((release (.ac n 5) .ac s).modAc n fun a => { a with ln := a.ln.setTokens 5 c.give (k + 1) })
    else (c :: rest, s)

/-- AX settles (R397): its commands complete and retire in order; a give that finds no room is owed (R443); the
micro-PC is that of the first instruction not retired, and AX stands as it did at that instruction's issue, whose take stands. No command
waits for the power cap then (`AC.powerHeld`), but an APROG that has not begun, which stops; AX was in WAIT for it (Table 8-1). -/
def settleAx (n : Nat) (s : State) : State :=
  let q := (s.ac n).axq
  let (q, s) := q.foldl (settleCmd n) ([], s)
  let s := s.modDie (dieOf n) fun d => { d with pwait := d.pwait.filter fun w => w.ac != n }
  let (left, s) := settleGives n q (s.modAc n fun a => { a with axq := [] })
  match left with
  | [] => s
  | c :: _ => s.modEng n .ax fun x =>
    { x with
      upc := c.addr, x := c.back.1, act0 := c.back.2.1, act1 := c.back.2.2.1, etok := c.back.2.2.2
      st := if c.waiting ∧ x.st = 1 then 2 else x.st }

/-- An unlanded result whose data had an uncorrectable error leaves VA stopped at its instruction, and is not latched (R457). -/
def settleBad (n : Nat) (s : State) : State :=
  let s := match (s.ac n).vec.flight.find? (·.bad.isSome) with
    | some f => (match f.bad with | some (src, info) => badFlight n f src info s | none => s)
    | none => s
  s.modAc n fun a => { a with vec := { a.vec with flight := a.vec.flight.filter (·.bad.isNone) } }

/-- Results that owe a token when the engine stops: the first FIFO's count is recorded as owed, and VA waits in that give (R443). -/
def settleOwed (n : Nat) (s : State) : State :=
  let a := s.ac n
  let owed := a.vec.flight.filter fun f => f.kind == 4
  match owed with
  | [] => s
  | f :: _ =>
    let mine := owed.filter fun g => g.give == f.give
    s.setAc n { a with
      va := { a.va with giveE := f.give, giveN := mine.foldl (fun k g => k + g.gives) a.va.giveN, st := if a.va.st = 1 then 2 else a.va.st }
      vec := { a.vec with flight := a.vec.flight.filter fun g => !(g.kind == 4 && g.give == f.give) } }

/-- Every engine but AX settles after stop cycle `stop`, and AX issues no more (R442 steps 1 and 2). -/
def settleUnits (n stop : Nat) (s : State) : State :=
  let s := settleMem n .vs (settleMem n .vl s)
  let s := settleOwed n (settleBad n (landUpTo n stop s))
  let s := settlePlain n .va (settlePlain n .mx (settlePlain n .ax s))
  let s := match (s.ac n).mxu.xl with | some t => s.dropToken (dieOf n) t | none => s
  s.modAc n fun a =>
    let a := a.applyGuards
    { a with ln := { a.ln with pushWait := [] }, mxu := { a.mxu with xl := none } }

/-- Every engine settles (R442 steps 1 and 2). -/
def settle (n stop : Nat) (s : State) : State := settleAx n (settleUnits n stop s)

/-! ### Entry (R442, R450) -/

/-- A fatal trap: the task ends, its launch is cancelled with the code given, and the engines become IDLE with their
queues empty, those of MX among them; entries that stood there complete as discarded ones (R450, R246). As every task at its end, it
releases at the scope of its innermost AC level (R239). The record is written also where the launch was cancelled before (R450). -/
def endFatal (n code : Nat) (s : State) : State :=
  let s := settleAx n s
  let s := match (s.ac n).cc.task with | some t => releaseAll n (lrEndScope t.lrec) s | none => s
  let a := s.ac n
  let s := allEng.foldl (fun s e =>
    let x := a.eng e
    (x.num :: x.held :: x.heldQ ++ x.q.map (·.num)).foldl (fun s m => s.tlComplete n (eidCode e - 1) m) s) s
  let s := s.modAc n fun a =>
    let a := allEng.foldl (fun a e => a.setEng e { a.eng e with
      st := 0, q := [], num := 0, etok := 0, giveE := 0, giveN := 0, deferred := false, untold := false, held := 0, heldQ := []
      xl := none, wait := none, act0 := false, act1 := false }) a
    { a with vec := { a.vec with flight := [] }, mxu := { a.mxu with tq := [], fq := [], run := none, taken := false, xl := none, tstop := false } }
  let s := a.mxu.tq.foldl (fun s q => s.tlComplete n 3 q.num) s
  let s := s.modDie (dieOf n) fun d => { d with waits := d.waits.filter fun w => match w.who with | .ac m u => !(m == n && decide (u ≤ 6)) | _ => true }
  let s := match a.cc.task with
    | some t =>
      let e := s.lent t.die t.ent
      if e.cancelled ∧ e.st ≠ 0 then s.addDispatchRecord t.die e.lrecVa 0 code else s.cancelLaunch t.die t.ent code
    | none => s
  s.taskEnd n

/-- The engine after trap entry: IDLE, its queue empty, no fault (Table 15-6); what the frame does not hold is kept aside (R442 step 5,
R444). -/
def Eng.stopped (e : Eng) : Eng :=
  { e with
    st := 0, num := 0, held := e.num, heldQ := (e.q.map (·.num)).filter fun m => m != 0, heldF := e.fcycle, heldU := e.untold
    fcause := 0, finfo := 0, finfo1 := 0
    untold := false, q := [], etok := 0, giveE := 0, giveN := 0, deferred := false, act0 := false, act1 := false, xl := none, wait := none }

/-- TRAPCAUSE (Table 15-1). -/
def causeWord (p : Pending) (ie : Bool) : W64 :=
  pack [(63, if p.cause = 0x20 ∨ p.cause = 0x21 then 1 else 0), (62, p.defer.toNat), (61, ie.toNat), (52, p.src), (0, p.cause)]

/-- Bytes of words. -/
def wordBytes (l : List W64) : List Byte := l.flatMap fun w => leBytes 8 w.toNat

/-- The trap registers and engines at trap entry, once the frame is written (R442 steps 4 to 6). -/
def AC.enter (a : AC) (p : Pending) (estop : W64) : AC :=
  let c := a.cc
  let c := ((((((c.setSr 0x020 (addr55 c.pc)).setSr 0x021 (causeWord p c.ie)).setSr 0x022 p.i0).setSr 0x023 p.i1).setSr 0x024 p.i2).setSr
    0x025 p.i3).setSr 0x02A estop
  let c := { c with h := true, ie := false, la0 := false, la1 := false, pc := c.sr 0x026, wait := none, xl := none
                    xlAbort := none, entry := none }
  let a := allEng.foldl (fun a e => a.setEng e (a.eng e).stopped) { a with cc := c }
  { a with ln := { a.ln with tok := [], retq := [] }, vec := { a.vec with flight := [] }, mxu := { a.mxu with hold := !a.mxu.tq.isEmpty } }

/-- The words of the frame's block at 0x200 (Table 15-5). -/
def AC.headWords (a : AC) (p : Pending) (estop : W64) : List W64 :=
  let c := a.cc
  [addr55 c.pc, causeWord p c.ie, p.i0, p.i1, p.i2, p.i3, c.stat, BitVec.ofNat 64 (c.preg.toNat / 2 * 2 + 1),
   pack (c.greg.map fun (g, v) => (2 * g, if v then 1 else 2)), estop]

/-- Enter a trap of a cluster whose engines have settled (R442 steps 3 to 6). `defer` names the engine whose deferred
fault is raised: its block holds DEF = 0 while EDEF keeps its bit, and those of faults raised before whose engines have not resumed (R446). A save area that does not translate waits
for replay, one whose stores a carve stalls waits for the carve (Table 3-3), and one that is refused with the ring full for the ring (R59); one that is refused, or TVEC = 0, is fatal (R450). -/
def enterTrap (n : Nat) (p : Pending) (stop : Nat) (s : State) : State :=
  let a := s.ac n
  let estop := if p.defer then a.estop ||| (a.cc.sr 0x02A &&& 0x3E0) else a.estop
  let a' := if p.defer then match eidOf p.src with | some e => a.setEng e { a.eng e with deferred := false } | none => a else a
  let a' := match eidOf p.src with | some e => a'.setEng e { a'.eng e with untold := false } | none => a'
  if a.cc.sr 0x026 = 0 then endFatal n 0x103 s
  else match writeReleased (.ac n 0) .ac (a.cc.sr 0x027) (wordBytes (a'.frame stop (a.headWords p estop))) s with
    | .ok _ s => s.modAc n fun b => { a'.enter p estop with disp := b.disp, tlb := b.tlb, utlb := b.utlb }
    | .error (.xlate d cause k va lv epa ent) s =>
      let (tok, s) := s.addXlateWait (.ac n 0) d cause k va lv epa ent
      s.modCC n fun c => { c with entry := some (p, stop, true), xl := some tok, wait := none }
    | .error st s =>
      match s.ringed (.ac n 0) st with
      | .wait => s.modCC n fun c => { c with entry := some (p, stop, true), wait := none }
      | .access w0 w1 va => endFatal n 0x103 (s.addAccessRecord (.ac n 0) w0 w1 va)
      | _ => endFatal n 0x103 s

/-- Words that identify an event are taken from the cluster as it is taken (R449): MGMT and TIMER. -/
def consume (p : Pending) (c : CC) : CC :=
  let c := if p.cause = 0x21 ∧ p.src = 0 then { c with mint := none } else c
  let c := if p.cause = 0x20 ∧ p.src = 0 then c.setSr 0x028 0 else c
  { c with pend := c.pend.erase p }

/-- LODC counts the cycles of a stalled RETQ that is abandoned (R230). -/
def countStall (n : Nat) (s : State) : State :=
  match (s.ac n).cc.wait with
  | some ⟨.retq _ _, t0, _, _⟩ => s.modCC n fun c => c.setSr 0x0E0 (c.sr 0x0E0 + BitVec.ofNat 64 (s.cycle - t0))
  | _ => s

/-- A trap ends the CC's waits: their tokens cease to be outstanding (R64). -/
def dropWaits (n : Nat) (s : State) : State :=
  let s := countStall n s
  match (s.ac n).cc.xl with
  | some t => (s.dropToken (dieOf n) t).modCC n fun c => { c with xl := none, wait := none }
  | none => s.modCC n fun c => { c with wait := none }

/-- A trap goes on once no command of AX waits for the power cap: AX settles, and the trap is entered. A synchronous fault of
the CC while a handler runs is fatal (R450). -/
def settledTrap (n : Nat) (p : Pending) (stop : Nat) (s : State) : State :=
  let sync := p.src = 0 ∧ p.cause ≠ 0x20 ∧ p.cause ≠ 0x21
  if sync ∧ (s.ac n).cc.h then endFatal n 0x103 s else enterTrap n p stop (settleAx n s)

/-- Take a trap at this instruction boundary (R441, R442): the one operation for every cause. The stop cycle is the last cycle in
which VA had its turn, so that every landing keeps its distance to VA's issues (R448). A command of AX that waits for the power cap
completes once it fits (R3, R397), and the entry waits for it. -/
def takeTrap (n : Nat) (p : Pending) (s : State) : State :=
  let stop := (s.ac n).vec.lastTurn s.cycle
  let s := settleUnits n stop (dropWaits n (s.modCC n (consume p)))
  if (s.ac n).powerHeld then s.modCC n fun c => { c with entry := some (p, stop, false) } else settledTrap n p stop s

/-- A synchronous fault of the CC's instruction at the PC (R440). -/
def syncTrap (n cause : Nat) (i0 i1 : W64) (s : State) : State :=
  takeTrap n ⟨0, cause, i0, i1, 0, (s.ac n).cc.pc, false⟩ s

/-! ### Pending events (R441, Table 15-3) -/

/-- An engine's fault as a trap (R440). -/
def Eng.asPending (e : Eng) (src : Nat) (defer : Bool) : Pending := ⟨src, e.fcause, e.finfo, e.finfo1, e.upc, e.upc, defer⟩

/-- The same of an engine of a cluster: of a tile-queue entry the instruction concerned is the one that pushed it (R440). -/
def AC.asPending (a : AC) (e : Eid) (defer : Bool) : Pending :=
  let p := (a.eng e).asPending (eidCode e) defer
  match a.mxu.tq with
  | q :: _ => if e = .mx ∧ a.mxu.tstop then { p with i3 := smGet 0 a.mxu.pcs q.num } else p
  | [] => p

/-- Events of rows 2 to 5 of Table 15-3: an UNCORR of an engine first, then engine faults, pot faults, INTEGRITY. -/
def AC.faultEvent (a : AC) : Option Pending :=
  let engs := allEng.filterMap fun e => if (a.eng e).st = 3 ∧ (a.eng e).untold then some (a.asPending e false) else none
  let late := a.cc.pend.filter fun p => decide (1 ≤ p.src ∧ p.src ≤ 5)
  let all := engs ++ late
  match all.find? (·.cause == 0x1A) with
  | some p => some p
  | none =>
    match (List.range 5).findSome? fun i => all.find? (·.src == i + 1) with
    | some p => some p
    | none =>
      match a.cc.pend.find? (·.src == 6) with
      | some p => some p
      | none => a.cc.pend.find? (·.src == 7)

/-- The interrupt of rows 6 and 7: MGMT, then TIMER (R449). -/
def AC.interrupt (a : AC) (cycle : Nat) : Option Pending :=
  match a.cc.mint with
  | some v => some ⟨0, 0x21, v, 0, 0, a.cc.pc, false⟩
  | none =>
    let t := a.cc.sr 0x028
    if t ≠ 0 ∧ t.toNat ≤ cycle then some ⟨0, 0x20, BitVec.ofNat 64 cycle, 0, 0, a.cc.pc, false⟩ else none

/-- The event that the CC takes at this boundary, if any: rows 1 to 5 only while H = 0, rows 6 and 7 only while
IE = 1 (R441). -/
def AC.event (a : AC) (cycle : Nat) : Option Pending :=
  match (if a.cc.h then none else a.faultEvent) with
  | some p => some p
  | none => if a.cc.ie then a.interrupt cycle else none

/-- An instruction of the CC has passed its wait: RFREE's clear is in flight, or it waits for the ports to confirm its release (R328, R350). -/
def State.passed (s : State) (n : Nat) : Bool :=
  s.fab.any (·.item == .free n) || (match (s.ac n).cc.wait with | some w => w.past | none => false)

/-- A trap that may be taken now is taken; also one whose entry waited for AX or for its save area and may go on. -/
def boundaryTrap (n : Nat) (s : State) : Option State :=
  let a := s.ac n
  if a.cc.task.isNone ∨ a.cc.saving then none
  else match a.cc.entry with
    | some (p, stop, false) => if a.powerHeld then some s else some (settledTrap n p stop s)
    | some (p, stop, true) =>
      if a.cc.xl.isSome then some s
      else if a.cc.xlAbort.isSome then some (endFatal n 0x103 s)
      else some (enterTrap n p stop s)
    | none =>
      if s.passed n then none
      else match a.event s.cycle with
        | some p => some (takeTrap n p s)
        | none => none

/-! ### Return (R445, R446) -/

/-- Every engine is IDLE, or stopped by a fault, with its queue empty or its head held on an empty guard slot, and no command of AX waits for the
power cap (R3). -/
def AC.drained (a : AC) : Bool :=
  !a.powerHeld && allEng.all fun e =>
    let x := a.eng e
    x.st == 3 || (x.idle && (match x.q with
      | [] => true
      | h :: _ => h.gen && (a.cc.guard h.gslot.toNat).isNone))

/-- Faults of engines that a handler's routines stopped with are taken after RFT (R441). -/
def keepFaults (a : AC) : List Pending :=
  allEng.filterMap fun e => if (a.eng e).st = 3 then some (a.asPending e false) else none

/-- Entries that remain when RFT runs are discarded and complete (R446 step 1, R228). -/
def discardLeft (n : Nat) (s : State) : State :=
  let a := s.ac n
  allEng.foldl (fun s e =>
    let x := a.eng e
    (x.num :: x.q.map (·.num)).foldl (fun s m => s.tlComplete n (eidCode e - 1) m) s) s

/-- Engines resume in a cycle: those that ran or waited issue again at their micro-PC (R446 step 3), and no fault is left (Table 15-6). A stopped
engine whose fault has not been taken stays stopped (R441). (A fault of a tile-queue entry leaves no routine to resume: the entry goes on, R415.) -/
def Eng.resume (e : Eng) (at' : Nat) : Eng :=
  let e := { e with held := 0, heldQ := [], heldF := 0, heldU := false }
  if e.st = 3 ∧ e.untold then e
  else
    let e := { e with fcause := 0, finfo := 0, finfo1 := 0, deferred := false, startAt := at' }
    if e.st = 0 then e else { e with st := 1 }

/-- The deferred fault to raise first: ascending issue cycle, VL before VS (Table 15-3). -/
def AC.firstDeferred (a : AC) : Option Eid :=
  match allEng.filter fun e => (a.eng e).deferred with
  | [] => none
  | e :: r => some (r.foldl (fun b x => if (a.eng x).fcycle < (a.eng b).fcycle then x else b) e)

/-- Steps 2 and 3 of R446, once the state is restored: the oldest deferred fault is raised, or else the engines resume; an MX
stopped by a tile-queue entry goes on with that entry (R415). -/
def goOn (n : Nat) (s : State) : State :=
  match (s.ac n).firstDeferred with
  | some e => enterTrap n ((s.ac n).asPending e true) s.cycle s
  | none =>
    s.modAc n fun a =>
      let a := { a with cc := a.cc.setSr 0x02A 0 }
      let tile := a.mxu.tstop
      let mx := { a.mxu with tstop := a.mxu.tstop && a.mx.st == 3 && a.mx.untold, hold := false }
      allEng.foldl (fun a e => a.setEng e (if e = .mx ∧ tile ∧ a.mx.st = 3 ∧ !a.mx.untold then { a.mx.resume (s.cycle + 1) with st := 0 }
        else (a.eng e).resume (s.cycle + 1))) { a with mxu := mx }

/-- Restore a cluster from the words of a frame (R445): entries that were outstanding and are not in it complete, and entries
without a number are numbered. -/
def restoreFrame (n : Nat) (w : List W64) (s : State) : State :=
  let a := s.ac n
  let slots := (List.range 512).map fun i => slotOf (sub w (2048 + 8 * i) 8)
  let lost := allEng.flatMap fun e =>
    let q := eidCode e - 1
    let es := entriesOf q slots
    ((if bits (w.getD (128 + 32 * q) 0) 62 2 = 0 ∧ !(es.any fun x => x.num == (a.eng e).held) then [(a.eng e).held] else []) ++ lostNums a q es).map fun m => (q, m)
  let s := s.setAc n ((s.ac n).restore w s.cycle)
  let s := lost.foldl (fun s (q, m) => s.tlComplete n q m) s
  allEng.foldl (renumber n) s

/-- RFT once the engines have drained: read the frame with acquire at .ac, restore it, and raise the oldest deferred
fault or resume (R445, R446). -/
def returnFromTrap (n : Nat) : M Unit := do
  let s ← get
  let a := s.ac n
  let b ← readAcquired (.ac n 0) .ac (a.cc.sr 0x027) 0x14000 8
  let w := words64 b
  need (imageOk a w) 0x02 (a.cc.sr 0x027) 0
  act fun s =>
    let late := keepFaults a
    let s := restoreFrame n w (discardLeft n s)
    let s := s.modCC n fun c => { c with pc := c.sr 0x020, pend := late ++ c.pend }
    goOn n s

end Sys2Proof.Machine
end

