-- ==== Sys2Proof/Machine/Run.lean ====
section
/-! DEFINITION. How an instruction of a control core or an engine runs: predicate, checks, take, effect, retirement,
give, waits and faults (R156, R270, R271, R273, R287, R303, R351). -/

namespace Sys2Proof.Machine

/-! ### Control core -/

/-- Where the CC goes after an instruction. -/
inductive Flow where
  | seq
  | jump (t : W64)
  /-- the instruction has set the PC, or the task has ended -/
  | stay
deriving DecidableEq, Repr

/-- The predicate of a CC instruction (R270); a push under a guard slot always happens. -/
def CC.enabled (c : CC) (h : Head) : Bool :=
  match h.ctl with
  | .cc neg p => c.p p ^^ neg
  | _ => true

/-- Length of an instruction in bytes. -/
def Head.size (h : Head) : W64 := BitVec.ofNat 64 h.len.bytes

/-- An instruction retires (R303): the end-of-body test when it took no branch. -/
def CC.retire (c : CC) (h : Head) (fl : Flow) : CC :=
  let c := { c with wait := none }
  match fl with
  | .seq => c.endBody (c.pc + Head.size h)
  | .jump t => { c with pc := t }
  | .stay => c

/-- Word 0 of an instruction. -/
def word0 (i : Instr) : W64 := ((encode i).headD 0).setWidth 64

/-- The illegal-instruction fault with a check code (R273). -/
def illegal (n code : Nat) (i : Instr) (s : State) : State := syncTrap n 0x01 (BitVec.ofNat 64 code) (word0 i) s

/-- A CC instruction ends without its effect: a precise trap, a wait for replay (R58), or a stall (R59, R287). -/
def ccStop (n : Nat) (i : Instr) (st : Stop) (s : State) : State :=
  match s.ringed (.ac n 0) st with
  | .trap c i0 i1 => syncTrap n c i0 i1 s
  | .access w0 w1 va => syncTrap n 0x06 w0 w1 (s.addAccessRecord (.ac n 0) w0 w1 va)
  | .carve _ _ va => syncTrap n 0x0A va 0 s
  | .xlate d cause k va lv epa ent =>
    let (tok, s) := s.addXlateWait (.ac n 0) d cause k va lv epa ent
    s.modCC n fun c => { c with xl := some tok }
  | .wait | .posted =>
    s.modCC n fun c => match c.wait with
      | some w => { c with wait := some (if w.instr = i then { w with past := decide (st = .posted) } else ⟨i, s.cycle, [], decide (st = .posted)⟩) }
      | none => { c with wait := some ⟨i, s.cycle, [], decide (st = .posted)⟩ }

/-- Run a CC instruction whose effect may fault or wait; `f` gets the number of the cluster. -/
def ccRun (h : Head) (i : Instr) (f : Nat → M Flow) (s : State) : Res :=
  match s.cur with
  | .ac n 0 =>
    if (s.ac n).cc.enabled h then
      match f n s with
      | .ok fl s => .next (s.modCC n fun c => c.retire h fl)
      | .error st s => .next (ccStop n i st s)
    else .next (s.modCC n fun c => c.retire h .seq)
  | _ => .refused .wrongUnit

/-- Run a CC instruction with a check of its own entry that is made before the predicate (R273 code 8). -/
def ccRunChecked (h : Head) (i : Instr) (ok : CC → Bool) (f : Nat → M Flow) (s : State) : Res :=
  match s.cur with
  | .ac n 0 => if ok (s.ac n).cc then ccRun h i f s else .next (illegal n 8 i s)
  | _ => .refused .wrongUnit

/-- A CC instruction that only changes the CC, and neither faults nor waits. -/
def CC.step (c : CC) (h : Head) (g : CC → CC) (fl : CC → Flow) : CC :=
  if c.enabled h then (g c).retire h (fl c) else c.retire h .seq

/-- Run such an instruction. -/
def ccPure (h : Head) (g : CC → CC) (s : State) : Res :=
  match s.cur with
  | .ac n 0 => .next (s.modCC n fun c => c.step h g fun _ => .seq)
  | _ => .refused .wrongUnit

/-- Cycles that the CC has waited in the instruction it waits in (R335). -/
def State.waited (s : State) (n : Nat) (i : Instr) : Nat :=
  match (s.ac n).cc.wait with
  | some w => if w.instr = i then s.cycle - w.t0 else 0
  | none => 0

/-- What the CC noted when its waiting instruction issued. -/
def State.noted (s : State) (n : Nat) (i : Instr) : Option (List Nat) :=
  match (s.ac n).cc.wait with
  | some w => if w.instr = i ∧ w.notes ≠ [] then some w.notes else none
  | none => none

/-- Note counts at the issue of an instruction that may wait. -/
def note (n : Nat) (i : Instr) (l : List Nat) : M Unit := act fun s =>
  s.modCC n fun c => { c with wait := some ⟨i, match c.wait with | some w => if w.instr = i then w.t0 else s.cycle | none => s.cycle, l, false⟩ }

/-! ### Engines -/

/-- Number of the cluster and engine that act. -/
def State.curEng (s : State) : Option (Nat × Eid) :=
  match s.cur with
  | .ac n u => (eidOf u).map fun e => (n, e)
  | _ => none

/-- Tokens that an instruction takes and gives: engine codes. -/
def Head.take (h : Head) : Nat :=
  match h.ctl with | .va _ _ _ _ t => t.toNat | .en _ t => t.toNat | _ => 0
def Head.give (h : Head) : Nat :=
  match h.ctl with | .va _ _ _ g _ => g.toNat | .en g _ => g.toNat | _ => 0

/-- The stage predicate or mask field of a VA instruction. -/
def Head.gate (h : Head) : Nat := match h.ctl with | .va _ g _ _ _ => g.toNat | _ => 0
def Head.squash (h : Head) : Bool := match h.ctl with | .va _ _ sq _ _ => sq | _ => false
def Head.flush (h : Head) : Bool := match h.ctl with | .va fz _ _ _ _ => fz | _ => false

/-- The selected stage predicate is false (R271). -/
def stageOff (h : Head) (a : AC) : Bool := decide (8 ≤ Head.gate h) && !(a.cc.sr 0x043).getLsbD (Head.gate h - 8)

/-- An engine instruction ends without its effect; of one that waits, the cycle of its issue is kept (Table 15-3). -/
def engStop (n : Nat) (e : Eid) (i : Instr) (st : Stop) (s : State) : State :=
  match s.ringed (engAgent n e) st with
  | .trap c i0 i1 => engFault n e c i0 i1 s
  | .access w0 w1 va => engFault n e 0x06 w0 w1 (s.addAccessRecord (engAgent n e) w0 w1 va)
  | .carve _ _ va => engFault n e 0x0A va 0 s
  | .xlate d cause k va lv epa ent =>
    let (tok, s) := s.addXlateWait (engAgent n e) d cause k va lv epa ent
    s.modEng n e fun x => { x with xl := some tok, st := 2, wait := none, waitAt := none, fcycle := s.cycle }
  | .wait | .posted => s.modEng n e fun x =>
      { x with st := 2, wait := some i, waitAt := if x.waitAt = some s.cycle then x.waitAt else none, fcycle := if x.wait = some i then x.fcycle else s.cycle }

/-- Where an engine goes after an instruction. -/
inductive EFlow where
  | seq
  | jump (t : W64)
  | stay
deriving DecidableEq, Repr

/-- The stage predicates of a VLOOPP at an iteration (R370). -/
def stageBits (S i T : Nat) : Nat :=
  (List.range 8).foldl (fun b k => if k < S ∧ k ≤ i ∧ i - k < T then b + 2 ^ k else b) 0

/-- What a VLOOPP does at the end-of-body test of level 0 (R370): RB falls and VPI rises; the next iteration's stage
predicates, or none at the loop's exit. -/
def vloopTest (c : CC) (closed : Bool) : CC :=
  let S := bits (c.sr 0x043) 8 4
  if S = 0 then c
  else
    let c := c.setSr 0x040 (BitVec.ofNat 64 (((c.sr 0x040).toNat + 31) % 32))
    let T := bits (c.sr 0x042) 32 32
    let i := (bits (c.sr 0x042) 0 32 + 1) % 2 ^ 32
    let c := c.setSr 0x042 (pack [(32, T), (0, i)])
    if closed then c.setSr 0x043 0 else c.setSr 0x043 (pack [(8, S), (0, stageBits S i T)])

/-- The end-of-body test of an engine with the address just past the instruction (R355, R303): the next micro-PC. -/
def engEndBody (e : Eid) (f : W64) (a : AC) : AC :=
  let x := a.eng e
  match x.testLevel 1 f with
  | (x, some t, _) => a.setEng e { x with upc := t }
  | (x, none, _) =>
    let ran := x.act0 && f == x.live0e
    let (x, t, closed) := x.testLevel 0 f
    let a := a.setEng e { x with upc := t.getD f }
    if ran && e == .va then { a with cc := vloopTest a.cc closed } else a

/-- Issue of VA in this cycle (R366). -/
def vaIssued (e : Eid) (cycle : Nat) (a : AC) : AC :=
  if e = .va then { a with vec := { a.vec with issued := cycle + 1 } } else a

/-- An engine instruction retires: micro-PC, end-of-body test, tokens taken forgotten (R355, R443). -/
def engRetire (n : Nat) (e : Eid) (h : Head) (fl : EFlow) (s : State) : State :=
  s.modAc n fun a =>
    let a := a.setEng e { a.eng e with etok := 0, wait := none, st := if fl = .stay then (a.eng e).st else 1 }
    let a := vaIssued e s.cycle a
    match fl with
    | .seq => engEndBody e ((a.eng e).upc + Head.size h) a
    | .jump t => a.setEng e { a.eng e with upc := t }
    | .stay => a

/-- A result that only gives k tokens at the end of this cycle, for VA (R366). -/
def giveFlight (c give k : Nat) : Flight := ⟨c, false, 4, k - 1, give, 0, 0, 0, [], 0, 0, none⟩

/-- Give k tokens at retirement (R156): VA at the landing in this cycle, the others at once; a give that finds no room holds the
engine. -/
def engGive (n : Nat) (e : Eid) (g k : Nat) (s : State) : State :=
  if g = 0 ∨ k = 0 then s
  else match e with
    | .va => s.modAc n fun a =>
        { a with vec := { a.vec with flight := insFlight (giveFlight s.cycle g k) a.vec.flight } }
    | _ =>
      let a := s.ac n
      let p := eidCode e
      if a.ln.tokens p g + k ≤ 16 then
        let s := release (engAgent n e) .ac s
        s.modAc n fun a => { a with ln := a.ln.setTokens p g (a.ln.tokens p g + k) }
      else s.modEng n e fun x => { x with giveE := g, giveN := k, st := if x.st = 0 then 0 else 2 }

/-- An engine pays the tokens it owes once they all fit (R443, R156). -/
def payOwed (n : Nat) (e : Eid) (s : State) : State :=
  let a := s.ac n
  let x := a.eng e
  let p := eidCode e
  if x.giveN = 0 then s
  else if a.ln.tokens p x.giveE + x.giveN ≤ 16 then
    let s := release (engAgent n e) .ac s
    s.modAc n fun a =>
      (a.setEng e { a.eng e with giveE := 0, giveN := 0, st := if x.st = 2 then 1 else x.st }) |> fun a =>
        { a with ln := a.ln.setTokens p x.giveE (a.ln.tokens p x.giveE + x.giveN) }
  else s

/-- Take one token, if there is one, and acquire at .ac (R156). -/
def takeOne (n : Nat) (e : Eid) (from' : Nat) (s : State) : Option State :=
  let a := s.ac n
  let k := a.ln.tokens from' (eidCode e)
  if k = 0 then none
  else
    let s := s.modAc n fun a => { a with ln := a.ln.setTokens from' (eidCode e) (k - 1) }
    some (acquire (engAgent n e) .ac (s.modEng n e fun x => { x with etok := x.etok + 1 }))

/-- Take tokens until the instruction has taken k of them (R353, R443); none when it must wait. -/
def takeUpTo (n : Nat) (e : Eid) (from' k : Nat) : Nat → State → State × Bool
  | 0, s => (s, decide (k ≤ ((s.ac n).eng e).etok))
  | f + 1, s =>
    if k ≤ ((s.ac n).eng e).etok then (s, true)
    else match takeOne n e from' s with
      | some s => takeUpTo n e from' k f s
      | none => (s, false)

/-- Run an instruction of an engine (one of AX that gives waits for the commands before it, R396): the checks made at its issue, its take of `tk` tokens, its effect, its give of
`gv` tokens and its retirement. A false stage predicate leaves only the issue and the end-of-body test (R271). -/
def engRunN (h : Head) (i : Instr) (tk gv : Nat) (chk : Nat → Eid → M Unit) (f : Nat → Eid → M EFlow) (s : State) : Res :=
  match s.curEng with
  | none => .refused .wrongUnit
  | some (n, e) =>
    if stageOff h (s.ac n) then .next (engRetire n e h .seq s)
    else if e = .ax ∧ gv ≠ 0 ∧ Head.give h ≠ 0 ∧ !(s.ac n).axq.isEmpty then .next (engStop n e i .wait s)
    else match chk n e s with
      | .error st s => .next (engStop n e i st s)
      | .ok _ s =>
        let (s, got) := if Head.take h = 0 then (s, true) else takeUpTo n e (Head.take h) tk (tk + 1) s
        if !got then .next (engStop n e i .wait s)
        else match f n e s with
          | .ok fl s => .next (engGive n e (Head.give h) gv (engRetire n e h fl s))
          | .error st s => .next (engStop n e i st s)

/-- The common case: one token each way. -/
def engRun (h : Head) (i : Instr) (chk : Nat → Eid → M Unit) (f : Nat → Eid → M EFlow) (s : State) : Res :=
  engRunN h i 1 1 chk f s

/-- No check at issue. -/
def noCheck (_ : Nat) (_ : Eid) : M Unit := pure ()

/-- An AX instruction that retires only after the array commands before it (R396, R328, R358). -/
def axOrder (n : Nat) (e : Eid) : M Unit := do
  let s ← get
  if e == .ax && !(s.ac n).axq.isEmpty then throw .wait else pure ()

end Sys2Proof.Machine
end

