-- ==== Sys2Proof/Machine/CcCtl.lean ====
section
/-! DEFINITION. Branches, loops, guards, engine starts and queues of the control core (R299 to R309). -/

namespace Sys2Proof.Machine

/-! ### Branches and calls -/

/-- A branch to an address computed from the CC. -/
def ccBranch (h : Head) (t : CC → W64) (s : State) : Res :=
  match s.cur with
  | .ac n 0 => .next (s.modCC n fun c => c.step h id fun c => .jump (t c))
  | _ => .refused .wrongUnit

/-- A register target must be a multiple of 4, or the branch is not taken and faults (R277). -/
def aligned (t : W64) : M Unit := need (t.toNat % 4 == 0) 0x05 t 0

/-- BR (R299). -/
def execBr (h : Head) (off : BitVec 22) (s : State) : Res := ccBranch h (fun c => c.pc + (off.signExtend 64) * 4) s

/-- JMP (R299). -/
def execJmp (h : Head) (off : BitVec 32) (s : State) : Res := ccBranch h (fun c => c.pc + (off.signExtend 64) * 4) s

/-- JMPR (R300). -/
def execJmpr (h : Head) (a b : Src) (s : State) : Res :=
  ccRun h (.jmpr h a b) (fun n => do
    let s ← get
    let c := (s.ac n).cc
    let t := c.src a + c.src b
    aligned t
    pure (.jump t)) s

/-- The target of a CALL: relative to its address with a literal, else the register (R300). -/
def callTarget (c : CC) (a : Src) : W64 :=
  match a with
  | .r _ => c.src a
  | _ => c.pc + c.src a * 4

/-- CALL reads its source before it writes the return address (R300). -/
def execCall (h : Head) (d : BitVec 6) (a : Src) (s : State) : Res :=
  ccRun h (.call h d a) (fun n => do
    let s ← get
    let c := (s.ac n).cc
    let t := callTarget c a
    aligned t
    act fun s => s.modCC n fun c => c.setS d (c.pc + Head.size h)
    pure (.jump t)) s

/-- RET (R300). -/
def execRet (h : Head) (a : BitVec 6) (s : State) : Res :=
  ccRun h (.ret h a) (fun n => do
    let s ← get
    let t := (s.ac n).cc.s a
    aligned t
    pure (.jump t)) s

/-! ### Loops -/

/-- LOOP's effect on level k (R302): the body, the count, and where the CC goes on. A LOOP that goes on just past itself takes no branch, and the
end-of-body test follows (R303). -/
def loopOpen (h : Head) (k : Bool) (cnt : W64) (blen : BitVec 12) (c : CC) : CC :=
  let (rc, rs, re, ls, le) := if k then (0x013, 0x014, 0x015, 0x01A, 0x01B) else (0x010, 0x011, 0x012, 0x018, 0x019)
  let c :=
    if blen ≠ 0 then
      let b := addr55 (c.pc + Head.size h)
      let e := addr55 (b + BitVec.ofNat 64 (4 * blen.toNat))
      (((c.setSr rs b).setSr ls b).setSr re e).setSr le e
    else (c.setSr ls (c.sr rs &&& ~~~ 3)).setSr le (c.sr re &&& ~~~ 3)
  let c := c.setSr rc cnt
  let on := cnt != 0
  let c := if k then { c with la1 := on } else { c with la0 := on }
  let t := if on then c.sr ls else c.sr le
  let f := c.pc + Head.size h
  if t = f then c.endBody f else { c with pc := t }

/-- LOOP (R302). -/
def execLoop (h : Head) (k : Bool) (a : Src) (blen : BitVec 12) (s : State) : Res :=
  match s.cur with
  | .ac n 0 => .next (s.modCC n fun c => c.step h (fun c => loopOpen h k (c.src a) blen c) fun _ => .stay)
  | _ => .refused .wrongUnit

/-! ### Guards -/

/-- GSET (R305): seen by the queue heads from the next cycle on (R229). -/
def execGset (h : Head) (g : BitVec 5) (a : GSrc) (s : State) : Res :=
  ccRun h (.gset h g a) (fun n => do
    act fun s => s.modAc n fun x =>
      x.guardWrite 6 g.toNat (some (match a with | .val v => x.cc.src v != 0 | .pred p => x.cc.p p))
    pure .seq) s

/-- GCLR (R305). -/
def execGclr (h : Head) (g : BitVec 5) (s : State) : Res :=
  ccRun h (.gclr h g) (fun n => do
    act fun s => s.modAc n fun x => x.guardWrite 6 g.toNat none
    pure .seq) s

/-! ### Engines and queues -/

/-- Engines that a mask names; a mask with another bit is an illegal operand (R306). -/
def engMask (v : W64) : M (List Eid) := do
  need (decide (v.toNat < 32)) 0x02 v 0
  pure (allEng.filter fun e => v.getLsbD (eidCode e - 1))

/-- FORK (R306, R221): all the engines named start, or none; they begin in the next cycle. -/
def execFork (h : Head) (a : Src) (s : State) : Res :=
  ccRun h (.fork h a) (fun n => do
    let s ← get
    let x := s.ac n
    let v := x.cc.src a
    let es ← engMask v
    let (code, ent) := match x.cc.task with
      | some t => (t.code, fun e => t.entry (eidCode e))
      | none => (0, fun _ => 0xFFFFFFFF)
    need (es.all fun e => (x.eng e).idle && ent e != 0xFFFFFFFF) 0x02 v 0
    act fun s => s.modAc n fun x => es.foldl (fun x e =>
      x.setEng e { x.eng e with st := 1, num := 0, upc := addr55 (code + BitVec.ofNat 64 (ent e)), startAt := s.cycle + 1 }) x
    pure .seq) s

/-- An engine that JOIN need not wait for (R222). -/
def joined (a : AC) (es : List Eid) : Bool := es.all fun e => (a.eng e).idle && (a.eng e).q.isEmpty

/-- JOIN (R306, R222). -/
def execJoin (h : Head) (a : Src) (s : State) : Res :=
  ccRun h (.join h a) (fun n => do
    let s ← get
    let x := s.ac n
    let es ← engMask (x.cc.src a)
    if joined x es then pure .seq else throw .wait) s

/-- Guard fields of a push (R308, R270). -/
def Head.guard (h : Head) : Bool × Bool × BitVec 5 :=
  match h.ctl with
  | .slot neg g => (true, neg, g)
  | _ => (false, false, 0)

/-- Push an entry into an engine's queue (R308): the CC stalls while there is no room (R226, R436); else it releases at
.ac and the entry enters at the tail. -/
def pushEntry (n : Nat) (e : Eid) (x : QEntry) : M Unit := do
  let s ← get
  let q := eidCode e - 1
  if !(s.ac n).mayPush 0 q x.pool then
    act fun s => s.modAc n fun a => a.waitPush 0 q x.pool
    throw .wait
  act fun s => (release (.ac n 0) .ac s).modAc n fun a =>
    (a.endPush 0).setEng e { a.eng e with q := (a.eng e).q ++ [x] }

/-- Values of an operand block. -/
def CC.opnds (c : CC) (blk : BitVec 6) (k : BitVec 3) : List W64 := c.block blk k.toNat

/-- PUSHC (R307, R308). -/
def execPushc (h : Head) (e : Eid) (k : BitVec 3) (blk : BitVec 6) (b : Src) (s : State) : Res :=
  ccRun h (.pushc h e k blk b) (fun n => do
    let s ← get
    let c := (s.ac n).cc
    let off := c.src b
    need (decide (off.toNat < 2 ^ 32) && off.toNat % 4 == 0) 0x02 off 0
    let (g, ng, gs) := Head.guard h
    let x : QEntry := ⟨0, g, ng, gs, k.toNat, off.setWidth 32, c.opnds blk k, (s.ac n).ln.issueCount (eidCode e - 1) + 1⟩
    pushEntry n e x
    act fun s => (s.tlNumber n (eidCode e - 1)).2
    pure .seq) s

/-- PUSHK (R307, R308). -/
def execPushk (h : Head) (e : Eid) (k : BitVec 3) (blk : BitVec 6) (s : State) : Res :=
  ccRun h (.pushk h e k blk) (fun n => do
    let s ← get
    let c := (s.ac n).cc
    let (g, ng, gs) := Head.guard h
    pushEntry n e ⟨1, g, ng, gs, k.toNat, 0, c.opnds blk k, 0⟩
    pure .seq) s

/-- RETQ (R309, R230, R158): LODC counts the cycles of the stall. -/
def execRetq (h : Head) (d : BitVec 6) (s : State) : Res :=
  ccRun h (.retq h d) (fun n => do
    let s ← get
    let a := s.ac n
    match a.ln.retq with
    | [] => throw .wait
    | (c, v) :: r =>
      let stalled := s.waited n (.retq h d)
      act fun s => acquire (.ac n 0) .ac (s.modAc n fun a =>
        let cc := (a.cc.setS d v).setSr 0x0E7 (BitVec.ofNat 64 c)
        { a with cc := cc.setSr 0x0E0 (cc.sr 0x0E0 + BitVec.ofNat 64 stalled), ln := { a.ln with retq := r } })
      pure .seq) s

end Sys2Proof.Machine
end

