-- ==== Sys2Proof/Machine/Launch.lean ====
section
/-! DEFINITION. Launch records, iteration spaces and the dispatch hardware (08_execution_model.md R232 to R254,
14_scheduling.md R421 to R433): checks, walkers, claims, splits, choosing, and starting a task. -/

namespace Sys2Proof.Machine

/-! ### Launches (Tables 8-5 to 8-7) -/

/-- Tasks that share a prefix down to the level of a domain (R237). -/
def lrGroup (r : List W64) (domain : Nat) : Nat :=
  product ((((lrLevels r).filter Level.dist).dropWhile (fun l => l.domain < domain || l.domain == domain)).map (·.extent))

/-- Group of a level in the order of R237. -/
def Level.group (l : Level) : Nat :=
  if l.barrier then (if l.domain = 0 then 1 else 9) else match l.domain with | 0 => 2 | 1 => 3 | 2 => 4 | 3 => 5 | _ => 6

/-- The order of R237. -/
def orderOk (ls : List Level) : Bool :=
  let g := ls.map Level.group
  !g.contains 9 && (g.zip (g.drop 1)).all (fun (a, b) => decide (a ≤ b))
    && decide ((g.filter (· == 3)).length ≤ 1) && decide ((g.filter (· == 4)).length ≤ 1) && g.contains 5

/-- The first reason of Table 8-8 for which a record is rejected, before the checks of binding (R235). -/
def recordReason (r : List W64) : Option Nat :=
  let h := rw r 0
  let ls := lrLevels r
  let ckind := bits (rw r 11) 62 2
  let hi := fun (w : W64) => bits w 55 9 != 0
  let dl := ls.filter Level.dist
  let ents := [bits (rw r 2) 0 32, bits (rw r 2) 32 32, bits (rw r 3) 0 32, bits (rw r 3) 32 32, bits (rw r 4) 0 32, bits (rw r 4) 32 32]
  if bits h 56 8 ≠ 1 ∨ bits h 16 25 ≠ 0 ∨ [1, 5, 6, 7, 9].any (fun i => hi (rw r i)) ∨ bits (rw r 11) 55 7 ≠ 0
      ∨ [13, 14, 15].any (fun i => rw r i != 0)
      ∨ (List.range (min 8 (lrNlev r))).any (fun l => bits (rw r (17 + 2 * l)) 8 8 != 0 || (rw r (17 + 2 * l)).getLsbD 0) then some 1
  else if lrNlev r = 0 ∨ 8 < lrNlev r ∨ (List.range 8).any (fun l => decide (lrNlev r ≤ l) && (rw r (16 + 2 * l) != 0 || rw r (17 + 2 * l) != 0)) then
    some 2
  else if ls.any (fun l => decide (4 < l.domain ∨ 4 < l.scope)) ∨ (ckind = 3 ∧ bits (rw r 11) 52 3 ≠ 0) then some 3
  else if !orderOk ls then some 4
  else if (dl.getLast?.map (·.gran)).getD 0 = 0
      ∨ ((List.range ls.length).zip ls).any (fun (i, l) =>
        l.gran != 0 && !(l.dist && !(ls.drop (i + 1)).any Level.dist)) then some 5
  else if 2 ^ 48 ≤ lrTasks r ∨ 2 ^ 32 ≤ lrEpochs r then some 6
  else if (rw r 1).toNat % 4 ≠ 0 ∨ ents.headD 0 = 0xFFFFFFFF ∨ ents.any (fun e => e != 0xFFFFFFFF && e % 4 != 0) then some 7
  else if 8 < lrSgran r ∨ 256 < lrMaxac r then some 8
  else none

/-- Index of each level of a class for a row-major number, outermost first. -/
def unrank : List Nat → Nat → List Nat
  | [], _ => []
  | _ :: r, n => n / product r :: unrank r (n % product r)

/-- Value of a level for a task (R236, Table 10-6): START for a TASK level. -/
def levelValue (r : List W64) (lin epoch l : Nat) : W64 :=
  let ls := lrLevels r
  let lv := lrLevel r l
  let same := fun (x : Level) => if lv.barrier then x.barrier else x.dist
  if !lv.barrier && lv.domain == 4 then BitVec.ofInt 64 lv.start
  else
    let idx := (unrank ((ls.filter same).map (·.extent)) (if lv.barrier then epoch else lin)).getD (((ls.take l).filter same).length) 0
    BitVec.ofInt 64 (lv.start + idx * lv.step)

/-! ### Bind records and eligibility (R422, R247) -/

/-- Bind record i of a cluster. -/
def State.bind (s : State) (n i : Nat) : W64 := s.reg (dieOf n) (0x21000 + 64 * (n % 64) + 8 * i)

/-- The launch of a usable record: die and index of its entry (R422). A launch that a pre-emption has stopped takes part
in no decision (R453). -/
def State.usable (s : State) (n i : Nat) : Option (Nat × Nat) :=
  let w := s.bind n i
  let launch := bits w 0 32
  if !w.getLsbD 63 ∨ bits w 32 8 = 0 then none
  else if (List.range i).any fun j => (s.bind n j).getLsbD 63 && bits (s.bind n j) 0 32 == launch then none
  else match s.findLaunch launch with
    | some (d, l) =>
      let e := s.lent d l
      if (e.st = 2 ∨ e.st = 3) ∧ !e.cancelled ∧ !e.paused then some (d, l) else none
    | none => none

/-- The quad's L1 mode matches the launch's FUSED flag, and it is not switching (R75). -/
def State.quadFits (s : State) (n : Nat) (fused : Bool) : Bool :=
  let q := s.reg (dieOf n) 0x0400
  q.getLsbD (n % 64 / 4) == fused && !q.getLsbD (32 + n % 64 / 4)

/-- Fewer than MAXAC clusters run tasks of the launch, and the quad mode fits (R247). -/
def State.eligible (s : State) (n : Nat) (e : LEntry) : Bool :=
  s.quadFits n (lrFused e.lrec) && (lrMaxac e.lrec == 0 || decide ((s.running e.launch).length < lrMaxac e.lrec))

/-- Clusters bound to a launch: some record in force names it, whatever its SHARE (Table 14-2). -/
def State.boundAcs (s : State) (launch : Nat) : List Nat :=
  allAcs.filter fun n => (List.range 8).any fun i => (s.bind n i).getLsbD 63 && bits (s.bind n i) 0 32 == launch

/-! ### Walkers and claims (R240 to R245) -/

/-- Walkers of a launch on a die. -/
def State.walkersOf (s : State) (d launch : Nat) : List (Nat × Walker) := (s.die d).walkers.filter fun w => w.2.launch == launch

/-- The claim of a cluster for a launch. -/
def AC.claimOf (a : AC) (launch : Nat) : Option (Nat × Nat × Nat) := a.disp.claims.find? fun c => c.1 == launch && decide (c.2.1 < c.2.2)

/-- The claim of a quad for a launch. -/
def State.qclaimOf (s : State) (n launch : Nat) : Option (Nat × Nat × Nat × Nat) :=
  (s.die (dieOf n)).qclaims.find? fun c => c.1 == n % 64 / 4 && c.2.1 == launch && decide (c.2.2.1 < c.2.2.2)

/-- A walker of the launch on the cluster's die with coordinates left, in the lowest slot. -/
def State.fullWalker (s : State) (d launch : Nat) : Option (Nat × Walker) :=
  (s.walkersOf d launch).find? fun w => decide (w.2.next < w.2.stop)

/-- Room for a quad claim (R242): 8 for each quad. -/
def State.qroom (s : State) (n : Nat) : Bool := decide (((s.die (dieOf n)).qclaims.filter fun c => c.1 == n % 64 / 4).length < 8)

/-- The launch has work for the cluster (R242), without a split. -/
def State.hasWork (s : State) (n : Nat) (e : LEntry) : Bool :=
  (s.ac n).claimOf e.launch |>.isSome |> fun c =>
  if lrPersist e.lrec then c
  else if lrHas e.lrec 2 then c || (s.qclaimOf n e.launch).isSome || (s.qroom n && (s.fullWalker (dieOf n) e.launch).isSome)
  else c || (s.fullWalker (dieOf n) e.launch).isSome

/-- Put a walker's range back; one that has reached its end is freed, unless it is the last of its launch on the die
(R242). -/
def Die.putWalker (x : Die) (slot : Nat) (w : Walker) : Die :=
  if w.next < w.stop ∨ !(x.walkers.any fun v => v.1 != slot && v.2.launch == w.launch) then { x with walkers := smSet x.walkers slot w }
  else { x with walkers := smErase x.walkers slot }

/-- Free slot of a die. -/
def Die.freeSlot (x : Die) : Option Nat := (List.range 32).find? fun i => (smFind x.walkers i).isNone

/-- Place a walker in a slot; exhausted walkers of its launch on the die are freed (R242). -/
def Die.newWalker (x : Die) (slot : Nat) (w : Walker) : Die :=
  { x with walkers := smSet (x.walkers.filter fun v => !(v.2.launch == w.launch && decide (v.2.stop ≤ v.2.next))) slot w }

/-- Some coordinate of the launch's current epoch is in a walker or a claim. -/
def State.coordsLeft (s : State) (launch : Nat) : Bool :=
  (List.range 4).any (fun d =>
    (s.walkersOf d launch).any (fun w => decide (w.2.next < w.2.stop)) ||
    (s.die d).qclaims.any fun c => c.2.1 == launch && decide (c.2.2.1 < c.2.2.2))
    || s.acs.any fun a => (a.2.claimOf launch).isSome

/-- Every coordinate of the last epoch has been taken: RUN becomes DRAIN (Table 14-6). -/
def State.checkDrain (s : State) (d l : Nat) : State :=
  let e := s.lent d l
  if e.st = 2 ∧ e.placed ∧ lrEpochs e.lrec ≤ e.epoch + 1 ∧ !s.coordsLeft e.launch then s.modLent d l fun e => { e with st := 3 } else s

/-- Take a coordinate from a claim, a quad claim or a walker (R242). -/
def State.takeWork (s : State) (n : Nat) (e : LEntry) : Option (Nat × State) :=
  let d := dieOf n
  match (s.ac n).claimOf e.launch with
  | some (_, c, m) =>
    some (c, s.modAc n fun a => { a with disp := { a.disp with claims :=
      (a.disp.claims.filter fun x => x.1 != e.launch) ++ (if c + 1 < m then [(e.launch, c + 1, m)] else []) } })
  | none =>
    if lrPersist e.lrec then none
    else if lrHas e.lrec 2 then
      let q := n % 64 / 4
      let s := match s.qclaimOf n e.launch with
        | some _ => s
        | none =>
          match s.fullWalker d e.launch with
          | some (slot, w) =>
            if s.qroom n then
              let g := max 1 (lrGroup e.lrec 2)
              let m := min w.stop ((w.next / g + 1) * g)
              s.modDie d fun x => { (x.putWalker slot { w with next := m }) with
                qclaims := (x.qclaims.filter fun (c : Nat × Nat × Nat × Nat) => !(c.1 == q && c.2.1 == e.launch)) ++ [(q, e.launch, w.next, m)] }
            else s
          | none => s
      match s.qclaimOf n e.launch with
      | some (_, _, c, m) =>
        some (c, s.modDie d fun x => { x with qclaims :=
          (x.qclaims.filter fun (k : Nat × Nat × Nat × Nat) => !(k.1 == q && k.2.1 == e.launch)) ++ (if c + 1 < m then [(q, e.launch, c + 1, m)] else []) })
      | none => none
    else match s.fullWalker d e.launch with
      | some (slot, w) => some (w.next, s.modDie d fun x => x.putWalker slot { w with next := w.next + 1 })
      | none => none

/-- Ring hops between dies (R87). -/
def hops (a b : Nat) : Nat := let h := if a < b then b - a else a - b; min h (4 - h)

/-- The walker that a split chooses among launches: the largest remainder, then the nearer die, then the lower die
(R243): die, slot, walker. -/
def State.victim (s : State) (n : Nat) (launches : List Nat) : Option (Nat × Nat × Walker) :=
  let cands := (List.range 4).flatMap fun d => (s.die d).walkers.filterMap fun (slot, w) =>
    if launches.contains w.launch ∧ w.next < w.stop then some (d, slot, w) else none
  let better := fun (x y : Nat × Nat × Walker) =>
    let rx := x.2.2.stop - x.2.2.next
    let ry := y.2.2.stop - y.2.2.next
    decide (ry < rx) || (rx == ry && decide (hops (dieOf n) x.1 < hops (dieOf n) y.1))
  match cands with
  | [] => none
  | c :: r => some (r.foldl (fun b x => if better x b then x else b) c)

/-- A cluster holds an AC claim (R242): a range of a launch that is not persistent. -/
def State.hasClaim (s : State) (n : Nat) : Bool :=
  (s.ac n).disp.claims.any fun c => decide (c.2.1 < c.2.2) && !(match s.findLaunch c.1 with
    | some (d, l) => lrPersist (s.lent d l).lrec
    | none => false)

/-- Split(a) over some launches (R243): the launch, the coordinate taken, and the state. A cluster that holds a claim has no room for
another, and stays idle (R242). -/
def State.split (s : State) (n : Nat) (launches : List Nat) : Option (Nat × Nat × State) :=
  match s.victim n launches with
  | none => none
  | some (vd, slot, w) =>
    let g := max 1 w.gran
    let sp := g * ((w.next + w.stop + 2 * g - 1) / (2 * g))
    let d := dieOf n
    let count := fun (s : State) => s.setReg d 0x23008 (setBits (s.reg d 0x23008) 16 8 (bits (s.reg d 0x23008) 16 8 + 1))
    if sp ≤ w.next ∨ w.stop ≤ sp then none
    else match (s.die d).freeSlot with
      | some k =>
        let s := s.modDie vd fun x => { x with walkers := smSet x.walkers slot { w with stop := sp } }
        let nw : Walker := ⟨w.launch, w.epoch, sp, w.stop, w.gran, 1⟩
        let s := s.modDie d fun x => x.newWalker k nw
        some (w.launch, sp, count (s.modDie d fun x => x.putWalker k { nw with next := sp + 1 }))
      | none =>
        let s1 := g * ((w.stop - 1) / g)
        if s1 ≤ w.next ∨ s.hasClaim n then none
        else
          let s := s.modDie vd fun x => { x with walkers := smSet x.walkers slot { w with stop := s1 } }
          some (w.launch, s1, count (s.modAc n fun a => { a with disp := { a.disp with claims :=
            a.disp.claims ++ (if s1 + 1 < w.stop then [(w.launch, s1 + 1, w.stop)] else []) } }))

/-- Launches that a cluster may split: no DIE or QUAD level, not persistent (R243, R257). -/
def splittable (e : LEntry) : Bool := !lrHas e.lrec 1 && !lrHas e.lrec 2 && !lrPersist e.lrec

/-! ### Choosing (R431 to R433) -/

/-- Effective priority of a record (R431): 64 µs are 115,200 cycles (R2). -/
def State.eprio (s : State) (n i : Nat) (e : LEntry) : Nat :=
  let base := if bits (s.bind n i) 40 4 = 8 then lrPrio e.lrec else bits (s.bind n i) 40 4
  min 7 (base + smGet 0 (s.ac n).disp.starve i / 115200)

/-- Effective priority of a ready continuation (R431). -/
def Cont.eprio (c : Cont) (cycle : Nat) : Nat := min 7 (c.prio + (cycle - c.readyAt) / 115200)

/-- The cluster lies in the origin's instance of the continuation's domain (R254). -/
def Cont.inDomain (c : Cont) (n : Nat) : Bool :=
  match c.domain with
  | 0 => true
  | 1 => n / 64 == c.origin / 64
  | 2 => n / 4 == c.origin / 4
  | _ => n == c.origin

/-- The ready continuation of a launch that resumes first (R433): the earliest ready, then the lower record VA. -/
def State.readyCont (s : State) (n launch : Nat) : Option (Nat × Cont) :=
  let l := (List.range 4).flatMap fun d => (s.die d).conts.filterMap fun c =>
    if c.ready ∧ c.launch = launch ∧ c.inDomain n then some (d, c) else none
  match l with
  | [] => none
  | x :: r => some (r.foldl (fun b y =>
      if y.2.readyAt < b.2.readyAt ∨ (y.2.readyAt = b.2.readyAt ∧ y.2.va.toNat < b.2.va.toNat) then y else b) x)

/-- An item of a decision: record, entry, priority, PASS, and the continuation of a CONT item. -/
structure Item where
  i : Nat
  d : Nat
  l : Nat
  prio : Nat
  pass : Nat
  cont : Option (Nat × Cont)
deriving DecidableEq, Repr

/-- The items of a decision of a cluster (R433). -/
def State.items (s : State) (n : Nat) : List Item :=
  (List.range 8).flatMap fun i => match s.usable n i with
    | none => []
    | some (d, l) =>
      let e := s.lent d l
      if !s.eligible n e then []
      else
        let pass := smGet 0 (s.ac n).disp.pass i
        let p := s.eprio n i e
        (match s.readyCont n e.launch with | some c => [⟨i, d, l, max p (c.2.eprio s.cycle), pass, some c⟩] | none => [])
          ++ (if s.hasWork n e then [⟨i, d, l, p, pass, none⟩] else [])

/-- The order of items (R433). -/
def Item.before (x y : Item) : Bool :=
  decide (y.prio < x.prio) || (x.prio == y.prio &&
    ((x.cont.isSome && y.cont.isNone) || (x.cont.isSome == y.cont.isSome &&
      (decide (x.pass < y.pass) || (x.pass == y.pass && decide (x.i < y.i))))))

/-- The first item. -/
def firstItem : List Item → Option Item
  | [] => none
  | x :: r => some (r.foldl (fun b y => if y.before b then y else b) x)

/-- A dispatch through a record (R433): VT, PASS, T, and the PASS of records that did not compete. -/
def State.charge (s : State) (n j prio : Nat) (items : List Item) : State :=
  let ks := (List.range 8).filter fun k => k != j && (s.usable n k).isSome && !items.any fun x => x.i == k && x.prio == prio
  s.modAc n fun a =>
    let dp := a.disp
    let vt := smGet 0 dp.pass j
    let stride := 65536 / max 1 (bits (s.bind n j) 32 8)
    let pass := smPut 0 dp.pass j ((vt + stride) % 2 ^ 32)
    let pass := ks.foldl (fun m k => smPut 0 m k (max (smGet 0 m k) vt)) pass
    { a with disp := { dp with vt := vt, pass := pass, starve := smErase dp.starve j } }

/-! ### Starting a task (R219, R221, R81, R439) -/


/-- Begin a carve to a split in this cycle (R78, R79), or after the one in progress. -/
def CC.startCarve (c : CC) (new cycle : Nat) : CC :=
  let old := (c.sr 0x0C0).toNat % 16
  match c.carve with
  | some k => { c with carve := some { k with again := if k.new = new then none else some new } }
  | none => if old = new then c else { (c.setSr 0x0C0 (pack [(4, old), (0, old)])) with carve := some ⟨old, new, cycle + 4096, none⟩ }

/-- System registers that a task start sets to their reset values: the loop registers and the vector engine state
(R301, R364). -/
def taskRegs : List Nat := (List.range 12).map (0x010 + ·) ++ (List.range 6).map (0x040 + ·)

/-- An engine at task start (R219, R221). -/
def Eng.atStart (code : W64) (ent : Nat) (go : Bool) : Eng :=
  { Eng.reset with
    upc := if ent = 0xFFFFFFFF then 0 else addr55 (code + BitVec.ofNat 64 ent)
    st := if go && ent != 0xFFFFFFFF then 1 else 0 }

/-- The state of R219 for a task: everything but the PC of a resumed one. -/
def State.taskStart (s : State) (n : Nat) (t : Task) : State :=
  let d := dieOf n
  let tvec := s.reg d 0x0700
  let save := s.reg d 0x0708 + BitVec.ofNat 64 (0x24000 * (n % 64))
  let s := s.modAc n fun a =>
    let c := a.cc
    let c := taskRegs.foldl (fun c r => c.setSr r (sysDefault r)) c
    let c := (c.setSr 0x026 (addr55 tvec &&& ~~~ 3)).setSr 0x027 (addr55 save &&& ~~~ 0xFFF)
    let c := { c with
      sreg := [], preg := 0, greg := [], pc := addr55 (t.code + BitVec.ofNat 64 (t.entry 0))
      h := false, ie := true, evt := false, la0 := false, la1 := false, resumed := t.resumed
      wait := none, xl := none, xlAbort := none, entry := none, task := some t, saving := false, icache := []
      pend := c.pend.filter fun p => decide (6 ≤ p.src) }
    let c := ((c.setS 1 (t.word 6)).setS 2 (t.word 5)).startCarve (lrSgran t.lrec) s.cycle
    let go := lrAutofork t.lrec && !t.resumed
    let a := allEng.foldl (fun a e => a.setEng e (Eng.atStart t.code (t.entry (eidCode e)) go)) { a with cc := c }
    { a with
      vec := { a.vec with v := [], m := [], flight := [] }
      mxu := { a.mxu with acc := [], tstop := false, hold := false }
      ln := { a.ln with tok := [], retq := [], pushWait := [], gw := [] } }
  s.modLent t.die t.ent fun e =>
    { e with ran := if e.ran.contains n then e.ran else e.ran ++ [n], ranAll := if e.ranAll.contains n then e.ranAll else e.ranAll ++ [n] }

/-- Start the task of a coordinate on a cluster (R219, R164): every agent acquires at .pkg first. -/
def State.startNew (s : State) (n d l lin i prio : Nat) : State :=
  let e := s.lent d l
  (acquireAll n .pkg (s.taskStart n ⟨e.launch, d, l, e.lrec, lin, e.epoch, false, prio, i⟩)).checkDrain d l

/-- A NEW item: take a coordinate and start its task. -/
def State.dispatchNew (s : State) (n : Nat) (x : Item) (items : List Item) : State :=
  match s.takeWork n (s.lent x.d x.l) with
  | some (lin, s) => (s.charge n x.i x.prio items).startNew n x.d x.l lin x.i x.prio
  | none => s

/-- No item: a split over the usable records for whose launches the cluster is eligible (R433, R243). -/
def State.dispatchSplit (s : State) (n : Nat) : State :=
  let recs := (List.range 8).filterMap fun i => match s.usable n i with
    | some (d, l) => if s.eligible n (s.lent d l) ∧ splittable (s.lent d l) then some (i, d, l) else none
    | none => none
  match s.split n (recs.map fun (_, d, l) => (s.lent d l).launch) with
  | none => s
  | some (launch, lin, s') =>
    match recs.find? fun (_, d, l) => (s.lent d l).launch == launch with
    | some (i, d, l) => let p := s.eprio n i (s.lent d l); (s'.charge n i p []).startNew n d l lin i p
    | none => s

/-- The cluster is idle (R218). -/
def AC.idle (a : AC) : Bool :=
  a.cc.task.isNone && !a.cc.saving && allEng.all fun e => (a.eng e).idle && (a.eng e).q.isEmpty

/-! ### The end of a task (R248, R249) -/

/-- Engines whose queue heads are held on an empty guard slot. -/
def AC.heldHeads (a : AC) : List Eid :=
  allEng.filter fun e => match (a.eng e).q with | h :: _ => h.gen && (a.cc.guard h.gslot.toNat).isNone | [] => false

/-- Steps 1 and 2 of R248: wait until the engines have drained and earlier guard writes are seen; an entry still held is
the queue-state fault. -/
def endSteps (n : Nat) : M Unit := do
  let s ← get
  let a := s.ac n
  if !(allEng.all (fun e => (a.eng e).idle) && a.drained && a.ln.gw.isEmpty) then throw .wait
  match a.heldHeads with
  | e :: _ => trapM 0x0E (BitVec.ofNat 64 (eidCode e)) 0
  | [] => pure ()

/-- The agents release at the scope of R239. -/
def endRelease (n : Nat) : M Unit := do
  let s ← get
  match (s.ac n).cc.task with
  | some t =>
    act (releaseAll n (lrEndScope t.lrec))
    confirmed (.ac n 0) (lrEndScope t.lrec)
  | none => pure ()

end Sys2Proof.Machine
end

