-- ==== Sys2Proof/Machine/CcSys.lean ====
section
/-! DEFINITION. Launches, tasks, system registers, traps and events of the control core (R310 to R321, R77, R78). -/

namespace Sys2Proof.Machine

/-! ### Launches and tasks -/

/-- An instruction that a handler may not issue (R450). -/
def notInHandler (c : CC) : Bool := !c.h

/-- The issue permission on the slot table of a die (R310). -/
def launchAllowed (n : Nat) : M Unit := do
  let s ← get
  match checkGranule s (.ac n 0) .issue (0x30000000000 + dieOf n * 0x1000000 + 0x20000) 8 with
  | some x => throw x
  | none => pure ()

/-- LAUNCH (R310). -/
def execLaunch (h : Head) (d : BitVec 6) (a : Src) (s : State) : Res :=
  ccRunChecked h (.launch h d a) notInHandler (fun n => do
    let s ← get
    let v := (s.ac n).cc.src a
    addrRange v
    need (v.toNat % 256 == 0) 0x02 v 0
    launchAllowed n
    let dd := s.die (dieOf n)
    if 64 ≤ dd.launchQ.length then throw .wait
    let num := dieOf n * 2 ^ 30 + dd.lseq % 2 ^ 30
    relM (.ac n 0) .pkg
    act fun s =>
      let s := s.modDie (dieOf n) fun x => { x with launchQ := x.launchQ ++ [⟨v, num, 0⟩], lseq := x.lseq + 1 }
      s.modCC n fun c => c.setS d (BitVec.ofNat 64 num)
    pure .seq) s

/-- NEXT's choice (R249): a coordinate of the current launch and its effective priority, or none, which acts as HALT, as it does where dispatch is
off (R424). -/
def nextChoice (n : Nat) (t : Task) (s : State) : Option (Nat × Nat × State) :=
  let idle := s.leave n
  if !(s.reg (dieOf n) 0x23000).getLsbD 0 ∨ idle.usable n t.bindi ≠ some (t.die, t.ent) then none
  else
    let e := idle.lent t.die t.ent
    let p := idle.eprio n t.bindi e
    let items := idle.items n
    if items.any (fun x => decide (p < x.prio)) || !idle.eligible n e then none
    else match s.takeWork n e with
      | some (lin, s) => some (lin, p, s.charge n t.bindi p items)
      | none =>
        if splittable e then match s.split n [e.launch] with
          | some (_, lin, s) => some (lin, p, s.charge n t.bindi p items)
          | none => none
        else none

/-- The cluster goes on with a new coordinate (R249), chosen at a priority (Table 14-3): a task starts, with the instruction caches empty (R278). -/
def nextTask (n : Nat) (t : Task) (lin prio : Nat) (s : State) : State :=
  let s := s.countDone t
  let s := s.modAc n fun a =>
    { a with
      cc := { a.cc with task := some { t with lin := lin, epoch := (s.lent t.die t.ent).epoch, resumed := false, prio := prio }, resumed := false, icache := [] }
      ln := { a.ln with tok := [], retq := [], pushWait := [] } }
  (acquireAll n .pkg s).checkDrain t.die t.ent

/-- NEXT (R311, R249). -/
def execNext (h : Head) (s : State) : Res :=
  ccRunChecked h (.next h) notInHandler (fun n => do
    endSteps n
    endRelease n
    let s ← get
    match (s.ac n).cc.task with
    | none => pure .stay
    | some t =>
      match nextChoice n t s with
      | some (lin, p, s) => set (nextTask n t lin p s); pure .seq
      | none => set (s.taskEnd n); pure .stay) s

/-- HALT (R311, R248); in a handler it ends the task and cancels its launch (R450). -/
def execHalt (h : Head) (s : State) : Res :=
  ccRun h (.halt h) (fun n => do
    let s ← get
    endSteps n
    endRelease n
    act fun t => if (s.ac n).cc.h then endFatal n 0x100 t else t.taskEnd n
    pure .stay) s

/-- The value of COORD (R312). -/
def coordVal (t : Task) (f : BitVec 3) (l : Nat) : W64 :=
  let lv := lrLevel t.lrec l
  match f.toNat with
  | 0 => levelValue t.lrec t.lin t.epoch l
  | 1 => BitVec.ofInt 64 lv.start
  | 2 => BitVec.ofNat 64 lv.extent
  | 3 => BitVec.ofInt 64 lv.step
  | 4 => BitVec.ofNat 64 t.lin
  | 5 => BitVec.ofNat 64 t.epoch
  | 6 => BitVec.ofNat 64 t.launch
  | _ => BitVec.ofNat 64 (lrNlev t.lrec)

/-- COORD (R312). -/
def execCoord (h : Head) (f : BitVec 3) (d : BitVec 6) (a : Src) (s : State) : Res :=
  ccRun h (.coord h f d a) (fun n => do
    let s ← get
    let c := (s.ac n).cc
    match c.task with
    | none => pure .stay
    | some t =>
      let v := c.src a
      need (!(c.resumed && (f == 0 || f == 4 || f == 5))) 0x02 v 0
      need (decide (4 ≤ f.toNat) || decide (v.toNat < lrNlev t.lrec)) 0x02 v 0
      act fun s => s.modCC n fun c => c.setS d (coordVal t f v.toNat)
      pure .seq) s

/-- Scope of a domain code (R165). -/
def domainScope (d : Nat) : Scope := match d with | 0 => .pkg | 1 => .die | 2 => .quad | _ => .ac

/-- Register numbers that a mask names, in ascending order. -/
def maskRegs (m : W64) : List Nat := (List.range 64).filter fun i => m.getLsbD i

/-- The words of a continuation record (Table 8-10). -/
def contWords (c : Cont) (state : Nat) (mask pc : W64) (regs : List W64) : List W64 :=
  [pack [(62, state), (60, c.domain), (57, c.prio), (54, c.wkind), (52, c.ctx), (32, c.origin), (0, c.launch)], mask, pc,
    c.waddr, c.wval0, c.wval1, 0, 0] ++ padTo 16 regs ++ List.replicate 8 0

/-- SUSPEND and YIELD with their control word and block (R252, R313, R314). -/
def suspendWith (n : Nat) (h : Head) (va : W64) (dom wkind ctx : Nat) (mask waddr v0 v1 : W64) : M Flow := do
  let s ← get
  let c := (s.ac n).cc
  match c.task with
  | none => pure .stay
  | some t =>
    need ((maskRegs mask).length ≤ 16) 0x02 mask 0
    need (!(lrPersist t.lrec && dom != 3)) 0x02 (BitVec.ofNat 64 dom) 0
    addrRange va
    let _ ← reach (.ac n 0) .write va.toNat 256
    endSteps n
    if 4096 ≤ (s.die (dieOf n)).conts.length then throw .wait
    let k : Cont := ⟨va, t.launch, dom, n, lrPrio t.lrec, wkind, ctx, waddr, v0, v1, decide (wkind = 0), s.cycle⟩
    let regs := (maskRegs mask).map fun i => c.s (BitVec.ofNat 6 i)
    let words := contWords k (if wkind = 0 then 2 else 1) mask (addr55 (c.pc + Head.size h)) regs
    act (releaseAll n (domainScope dom))
    confirmed (.ac n 0) (domainScope dom)
    writeReleased (.ac n 0) .pkg va (wordBytes words)
    act fun s => (s.leave n).modDie (dieOf n) fun x => { x with conts := x.conts ++ [k] }
    pure .stay

/-- SUSPEND (R313). -/
def execSuspend (h : Head) (a : BitVec 6) (b : Src) (c : BitVec 6) (s : State) : Res :=
  ccRunChecked h (.suspend h a b c) notInHandler (fun n => do
    let s ← get
    let x := (s.ac n).cc
    let va := x.s a
    let ctl := x.src b
    need (va.toNat % 256 == 0) 0x02 va 0
    let dom := bits ctl 0 2
    let wkind := bits ctl 2 3
    let ctx := bits ctl 5 2
    need (decide (ctl.toNat < 128) && decide (wkind < 4) && ctx != 3) 0x02 ctl 0
    suspendWith n h va dom wkind ctx (x.s c) (x.s (c + 1)) (x.s (c + 2)) (x.s (c + 3))) s

/-- YIELD (R314). -/
def execYield (h : Head) (a : BitVec 6) (b : Src) (c : BitVec 6) (s : State) : Res :=
  ccRunChecked h (.yield h a b c) notInHandler (fun n => do
    let s ← get
    let x := (s.ac n).cc
    let va := x.s a
    let ctl := x.src b
    need (va.toNat % 256 == 0) 0x02 va 0
    need (decide (ctl.toNat < 4)) 0x02 ctl 0
    suspendWith n h va ctl.toNat 0 0 (x.s c) 0 0 0) s

/-! ### System registers (R315, R316, R317, R209, R225, R364, R434, R439) -/

/-- Numbers that a chapter assigns (Table 10-7). -/
def sysAssigned (n : Nat) : Bool :=
  decide (n ≤ 2) || decide (0x010 ≤ n ∧ n ≤ 0x015) || decide (0x018 ≤ n ∧ n ≤ 0x01B) || decide (0x020 ≤ n ∧ n ≤ 0x02A)
    || decide (0x040 ≤ n ∧ n ≤ 0x045) || decide (0x080 ≤ n ∧ n ≤ 0x085) || decide (0x088 ≤ n ∧ n ≤ 0x08D) || n == 0x090
    || n == 0x0C0 || decide (0x0D0 ≤ n ∧ n ≤ 0x0D5) || decide (0x0E0 ≤ n ∧ n ≤ 0x0E7)

/-- Class H numbers (Table 10-7). -/
def sysClassH (n : Nat) : Bool := (decide (0x020 ≤ n ∧ n ≤ 0x02A) && n != 0x028) || decide (0x080 ≤ n ∧ n ≤ 0x09F)

/-- An engine's queue is empty and its timeline counter shows its issue count (R209). -/
def AC.settled (a : AC) (e : Eid) : Bool := (a.eng e).q.isEmpty && a.ln.shown (eidCode e - 1) == a.ln.issueCount (eidCode e - 1)

/-- VA is IDLE with an empty command queue (R364). -/
def AC.vaIdle (a : AC) : Bool := a.va.idle && a.va.q.isEmpty

/-- A read or write of a register that must wait (R364, R209); `wr` for a write. -/
def sysWaits (a : AC) (n : Nat) (wr : Bool) : Bool :=
  if 0x040 ≤ n ∧ n ≤ 0x045 then !a.vaIdle
  else if n = 0x0D0 then wr && !(a.settled .va && a.settled .vl)
  else if n = 0x0D1 then !a.settled .va
  else if n = 0x0D2 then wr && !a.settled .mx
  else if n = 0x0D3 then !a.settled .mx
  else false

/-- State of an engine (Table 8-1): one that a give into a full FIFO holds waits, also VA with a landed result and AX with a completed command
(R156, R366, R396), and AX behind an APROG that waits for the power cap (R3, R397). -/
def AC.engState (a : AC) (cycle : Nat) (e : Eid) : Nat :=
  let x := a.eng e
  if x.st = 3 then 3
  else if x.giveN != 0 || (e == .va && a.vec.owes cycle) || (e == .ax && (match a.axq with | c :: _ => c.done | [] => false))
    || (e == .ax && x.st == 1 && a.axq.any fun c => c.waiting && !c.rows.isEmpty) then 2 else x.st

/-- What SYSR reads. -/
def sysRead (a : AC) (ac cycle n : Nat) : W64 :=
  let c := a.cc
  if n = 0 then c.stat
  else if n = 1 then BitVec.ofNat 64 ac
  else if n = 2 then BitVec.ofNat 64 cycle
  else if n = 0x029 then
    pack [(1, c.mint.isSome.toNat), (0, if c.sr 0x028 ≠ 0 ∧ (c.sr 0x028).toNat ≤ cycle then 1 else 0)]
  else if n = 0x02A then if c.h then c.sr 0x02A else a.estop
  else if n = 0x090 then BitVec.ofNat 64 a.qfree
  else if n = 0x0C0 then c.sr 0x0C0 ||| pack [(8, c.carve.isSome.toNat)]
  else if 0x0E1 ≤ n ∧ n ≤ 0x0E5 then addr55 (match eidOf (n - 0x0E0) with | some e => (a.eng e).upc | none => 0)
  else if n = 0x0E6 then pack (allEng.map fun e => (2 * (eidCode e - 1), a.engState cycle e))
  else c.sr n

/-- Bits that SYSW sets in a register that it only stores. -/
def sysMask (n : Nat) : W64 :=
  let span := fun (hi lo : Nat) => BitVec.ofNat 64 (2 ^ (hi + 1) - 2 ^ lo)
  if n = 0x010 ∨ n = 0x013 ∨ n = 0x028 ∨ n = 0x0D1 ∨ n = 0x0D3 ∨ n = 0x0D5 then span 63 0
  else if n = 0x011 ∨ n = 0x012 ∨ n = 0x014 ∨ n = 0x015 ∨ n = 0x020 then span 54 0
  else if n = 0x026 then span 54 2
  else if n = 0x027 then span 54 12
  else if n = 0x040 then span 4 0
  else if n = 0x044 ∨ n = 0x045 ∨ n = 0x0D0 ∨ n = 0x0D2 ∨ n = 0x0D4 then span 31 0
  else 0

/-- QMIN and QCAP after a write keep the rules of R435. -/
def poolAfter (c : CC) (n v : Nat) : Bool :=
  let f := fun (r : Nat) => if r = n then v else (c.sr r).toNat
  poolOk ((List.range 6).map fun q => f (0x080 + q)) ((List.range 6).map fun q => f (0x088 + q))

/-- Offset of an address in a cluster's scratch window, if it lies there. -/
def scratchOff (n pa : Nat) : Option Nat := match region (dieOf n) pa with | .scratch m o => if m = n then some o else none | _ => none

/-- SGRAN of a value written to CARVE is at most 8 (R78, R273 code 8). -/
def carveOk (v : W64) : Bool := decide (v.toNat % 16 ≤ 8)

/-- A write to CARVE (R78). -/
def carveWrite (n : Nat) (v : W64) : M Flow := do
  let s ← get
  let a := s.ac n
  let new := v.toNat % 16
  let old := (a.cc.sr 0x0C0).toNat % 16
  if a.cc.carve.isSome then throw .wait
  if new = old then pure .seq
  else
    let lo := min old new * 262144
    let hi := max old new * 262144
    if a.axq.any fun c => (c.writes ++ c.rows.map (·.resid)).any fun w => match scratchOff n w.pa with
        | some o => decide (o < hi ∧ lo < o + w.bytes.length)
        | none => false then throw .wait
    act fun s => s.modCC n fun c => c.startCarve new s.cycle
    pure .seq

/-- SYSR (R315). -/
def execSysr (h : Head) (d : BitVec 6) (n : BitVec 12) (s : State) : Res :=
  ccRunChecked h (.sysr h d n) (fun _ => sysAssigned n.toNat) (fun ac => do
    let s ← get
    let a := s.ac ac
    if sysWaits a n.toNat false then throw .wait
    act fun s => s.modCC ac fun c => c.setS d (sysRead a ac s.cycle n.toNat)
    pure .seq) s

/-- SYSW of every register but CARVE (R315). -/
def sysWrite (ac : Nat) (n : Nat) (v : W64) : M Flow := do
  let s ← get
  let a := s.ac ac
  if sysWaits a n true then throw .wait
  if n = 0 then
    act fun s => s.modCC ac fun c => if c.h then { c with ie := v.getLsbD 1 } else c
    pure .seq
  else if 0x080 ≤ n ∧ n ≤ 0x08D then
    let k := v.toNat % 1024
    need (poolAfter a.cc n k) 0x02 v 0
    act fun s => s.modCC ac fun c => c.setSr n (BitVec.ofNat 64 k)
    pure .seq
  else if sysMask n = 0 then pure .seq
  else
    act fun s => s.modCC ac fun c => c.setSr n (v &&& sysMask n)
    pure .seq

/-- SYSW (R315): class H registers only while a handler runs. -/
def execSysw (h : Head) (n : BitVec 12) (a : Src) (s : State) : Res :=
  ccRunChecked h (.sysw h n a) (fun c => sysAssigned n.toNat && (!sysClassH n.toNat || c.h) && (n != 0x0C0 || carveOk (c.src a))) (fun ac => do
    let s ← get
    let v := (s.ac ac).cc.src a
    if n = 0x0C0 then carveWrite ac v else sysWrite ac n.toNat v) s

/-- PCARVE, the SYSW of CARVE (R77, R78). -/
def execPcarve (h : Head) (a : Src) (s : State) : Res :=
  ccRunChecked h (.pcarve h a) (fun c => carveOk (c.src a)) (fun n => do
    let s ← get
    carveWrite n ((s.ac n).cc.src a)) s

/-! ### Traps, events, no-ops -/

/-- TRAP retires, then the software trap is taken (R318). -/
def execTrap (h : Head) (a : Src) (s : State) : Res :=
  match s.cur with
  | .ac n 0 =>
    let c := (s.ac n).cc
    let s' := s.modCC n fun c => c.retire h .seq
    if c.enabled h then .next (takeTrap n ⟨0, 0x18, c.src a &&& 0xFF, 0, 0, c.pc, false⟩ s') else .next s'
  | _ => .refused .wrongUnit

/-- BRK does not retire (R318). -/
def execBrk (h : Head) (a : Src) (s : State) : Res :=
  ccRun h (.brk h a) (fun n => do
    let s ← get
    trapM 0x19 ((s.ac n).cc.src a &&& 0xFF) 0) s

/-- RFT (R319, R445): it waits until the engines have drained. A fault of it is fatal while H = 1 (R450). -/
def execRft (h : Head) (s : State) : Res :=
  ccRunChecked h (.rft h) (·.h) (fun n => do
    let s ← get
    if !(s.ac n).drained then throw .wait
    returnFromTrap n
    pure .stay) s

/-- WFE (R320). -/
def execWfe (h : Head) (s : State) : Res :=
  ccRun h (.wfe h) (fun n => do
    let s ← get
    if !(s.ac n).cc.evt then throw .wait
    act fun s => s.modCC n fun c => { c with evt := false }
    pure .seq) s

/-- Clusters in the instance of a scope up to .die that holds a cluster. -/
def scopeAcs (n : Nat) (sc : Scope) : List Nat :=
  match sc with
  | .ac => [n]
  | .quad => (List.range 4).map fun i => n / 4 * 4 + i
  | _ => (List.range 64).map fun i => n / 64 * 64 + i

/-- SEV (R320). -/
def execSev (h : Head) (sc : Scope) (s : State) : Res :=
  ccRun h (.sev h sc) (fun n => do
    act fun s => (scopeAcs n sc).foldl (fun s m => s.setEvt m) s
    pure .seq) s

/-- NOP (R321). -/
def execNop (h : Head) (s : State) : Res := ccPure h id s

end Sys2Proof.Machine
end

