-- ==== Sys2Proof/Machine/Fetch.lean ====
section
/-! DEFINITION. Fetching an instruction (R275, R276, R278): the granules at a unit's PC, through translation, the access
check and the instruction cache of the cluster, and the unit's decoder. -/

namespace Sys2Proof.Machine

/-- What a unit's turn comes to: an instruction to execute, or a change without one. -/
inductive Fetched where
  | run (i : Instr) (s : State)
  /-- an IDLE engine looks at the head of its queue -/
  | start (n : Nat) (e : Eid) (s : State)
  | done (s : State)
deriving DecidableEq, Repr

/-- A 128-byte line as its home holds it. -/
def State.homeLine (s : State) (line : Nat) : BitVec 1024 :=
  BitVec.ofNat 1024 (leNat ((List.range 128).map fun i => s.homeByte (128 * line + i)))

/-- The line as the instruction cache of a cluster gives it: a line already held is kept, or has left the cache and
is fetched afresh (R278; log entry 17). -/
def State.codeLine (s : State) (n line : Nat) : BitVec 1024 × State :=
  let now := s.homeLine line
  match smFind (s.ac n).cc.icache line with
  | some old =>
    if old = now then (old, s)
    else if Config.icacheKeeps s.seq then (old, { s with seq := s.seq + 1 })
    else (now, { (s.modCC n fun c => { c with icache := smSet c.icache line now }) with seq := s.seq + 1 })
  | none => (now, s.modCC n fun c => { c with icache := smSet c.icache line now })

/-- One granule of code at an address, for a unit of a cluster. -/
def fetchGranule (n : Nat) (who : Agent) (va : Nat) : M W32 := do
  addrRange (BitVec.ofNat 64 va)
  let (pa, _) ← xlate who .fetch va
  let s ← get
  match checkAccess s who .fetch pa 4 with
  | some x => throw (x.withVa (BitVec.ofNat 64 va))
  | none =>
    match mmioOf (dieOf n) pa with
    | some (d, off) =>
      let (b, s) := mmioLoad d off 4 s
      set s
      pure (BitVec.ofNat 32 (leNat b))
    | none =>
      let k := canonPa (dieOf n) pa
      let (l, s) := s.codeLine n (k / 128)
      set s
      pure (l.extractLsb' (8 * (k % 128)) 32)

/-- The granules of an instruction: how many the first one names (R261). -/
def fetchWords (n : Nat) (who : Agent) (pc : Nat) : M (List W32) := do
  let w0 ← fetchGranule n who pc
  let rest ← (List.range (granules w0 - 1)).mapM fun i => fetchGranule n who (pc + 4 * (i + 1))
  pure (w0 :: rest)

/-- A failed fetch: cause and address for the trap or engine stop (R276). -/
def fetchCause (pc va : W64) : Nat := if pc.toNat / 4 = va.toNat / 4 then 0x08 else 0x09

/-- The instruction at an address, as a unit decodes it: words, and the decoder's answer. -/
def decodeAt (u : UnitId) (ws : List W32) : Except DecodeError Instr :=
  match decode u ws with
  | .ok (i, _, _) => .ok i
  | .error e => .error e

/-- The CC fetches at its PC. -/
def ccFetchInstr (n : Nat) (s : State) : Fetched :=
  let pc := (s.ac n).cc.pc
  match fetchWords n (.ac n 0) pc.toNat s with
  | .ok ws s =>
    (match decodeAt .cc ws with
    | .ok i => .run i { s with cur := .ac n 0 }
    | .error (.illegal c _) => .done (syncTrap n 0x01 (BitVec.ofNat 64 c) ((ws.headD 0).setWidth 64) s)
    | .error .short => .done s)
  | .error (.xlate d cause k va lv epa ent) s =>
    let (tok, s) := s.addXlateWait (.ac n 0) d cause k va lv epa ent
    .done (s.modCC n fun c => { c with xl := some tok })
  | .error (.access w0 w1 va) s =>
    .done (if s.ringFull (recordDie (.ac n 0) w0) then s else syncTrap n (fetchCause pc va) 0x10 va (s.addAccessRecord (.ac n 0) w0 w1 va))
  | .error (.carve _ _ va) s => .done (syncTrap n 0x0A va 0 s)
  | .error (.trap c i0 i1) s => .done (syncTrap n c i0 i1 s)
  | .error .wait s | .error .posted s => .done s

/-- The turn of a CC: a pending event is taken first (R441); an aborted wait is delivered; a CC that waits for a replay
stays; else the instruction at the PC issues, also one that stalled before (R287). -/
def ccTurn (n : Nat) (s : State) : Fetched :=
  match boundaryTrap n s with
  | some s => .done s
  | none =>
    let c := (s.ac n).cc
    if c.task.isNone ∨ c.saving then .done s
    else match c.xlAbort with
      | some p => .done (takeTrap n p (s.modCC n fun c => { c with xlAbort := none }))
      | none => if c.xl.isSome then .done s else ccFetchInstr n s

/-- An engine fetches at its micro-PC. -/
def engFetchInstr (n : Nat) (e : Eid) (s : State) : Fetched :=
  let pc := ((s.ac n).eng e).upc
  match fetchWords n (engAgent n e) pc.toNat s with
  | .ok ws s =>
    (match decodeAt (.eng e) ws with
    | .ok i => .run i { s with cur := engAgent n e }
    | .error (.illegal c _) => .done (engFault n e 0x01 (BitVec.ofNat 64 c) ((ws.headD 0).setWidth 64) s)
    | .error .short => .done s)
  | .error (.access w0 w1 va) s =>
    .done (if s.ringFull (recordDie (engAgent n e) w0) then s else engFault n e (fetchCause pc va) 0x10 va (s.addAccessRecord (engAgent n e) w0 w1 va))
  | .error st s => .done (engStop n e .knop st s)

/-- The turn of an engine: it pays tokens that it owes, starts the entry at its queue's head when IDLE, and else issues
the instruction at its micro-PC; VA issues at most one instruction in a cycle, and none while a landed result waits on
a full FIFO; AX issues nothing while a completed command waits to give, and behind an APROG (R156, R366, R397). -/
def engTurn (n : Nat) (e : Eid) (s : State) : Fetched :=
  let a := s.ac n
  if a.cc.task.isNone ∨ a.cc.entry.isSome ∨ a.cc.saving then .done s
  else
    let s := payOwed n e s
    let s := if e = .ax then axRetire n ((s.ac n).axq.length + 1) s else s
    let a := s.ac n
    let x := a.eng e
    if x.giveN ≠ 0 ∨ x.xl.isSome ∨ x.st = 3 ∨ s.cycle < x.startAt then .done s
    else if x.st = 0 then .start n e s
    else if e == .ax && ((match a.axq with | c :: _ => c.done | [] => false) || a.axq.any fun c => !c.done && !c.rows.isEmpty) then .done s
    else if e = .va ∧ (a.vec.issued = s.cycle + 1 ∨ a.vec.owes s.cycle) then .done s
    else engFetchInstr n e s

end Sys2Proof.Machine
end

