-- ==== Sys2Proof/Machine/MemI.lean ====
section
/-! DEFINITION. Loads, stores, atomics, phases, cache maintenance and timeline waits (R322 to R331), on the units that
Table 9-9 allows. -/

namespace Sys2Proof.Machine

/-! ### Operands of the unit that acts -/

/-- A register of a unit of a cluster: s on the CC (unit 0), x on an engine. -/
def State.ureg (s : State) (n u : Nat) (r : BitVec 6) : W64 :=
  match eidOf u with
  | some e => ((s.ac n).eng e).xr r.toNat
  | none => (s.ac n).cc.s r

/-- A source of a unit. -/
def State.usrc (s : State) (n u : Nat) (x : Src) : W64 :=
  match eidOf u with
  | some e => ((s.ac n).eng e).src x
  | none => (s.ac n).cc.src x

/-- Write a register of a unit. -/
def State.setUreg (s : State) (n u : Nat) (r : BitVec 6) (v : W64) : State :=
  match eidOf u with
  | some e => s.modEng n e fun x => x.setX r.toNat v
  | none => s.modCC n fun c => c.setS r v

/-- Run an instruction of row 0x5_ on the unit that acts: the checks made at issue, then its effect. -/
def memRun (h : Head) (i : Instr) (chk f : Nat → Nat → M Unit) (s : State) : Res :=
  match s.cur with
  | .ac _ 0 => ccRun h i (fun n => do chk n 0; f n 0; pure .seq) s
  | _ => engRun h i (fun n e => chk n (eidCode e)) (fun n e => do f n (eidCode e); pure .seq) s

/-- Steps 1 and 2 of R323: the address range, then the alignment of a strong access. -/
def addrChecks (va : W64) (al : Nat) : M Unit := do
  addrRange va
  need (va.toNat % al == 0) 0x04 va 0

/-- [a + b] (R323). -/
def State.ea (s : State) (n u : Nat) (a : BitVec 6) (b : Src) : W64 := s.ureg n u a + s.usrc n u b

/-- Bytes of a load extended to 64 bits: W bit 2 zero-extends (R324, R325). -/
def extendW (w : BitVec 3) (b : List Byte) : W64 :=
  let v := leNat b
  let n := 8 * b.length
  if w.getLsbD 2 then BitVec.ofNat 64 v else (BitVec.ofNat n v).signExtend 64

/-- Width in bytes (R324). -/
def widthOf (w : Nat) : Nat := 2 ^ (w % 4)

/-! ### Loads and stores -/

/-- LD (R325): an aligned access is one unit, any other is a unit for each byte (R152). -/
def execLd (h : Head) (w : BitVec 3) (d a : BitVec 6) (b : Src) (s : State) : Res :=
  memRun h (.ld h w d a b)
    (fun n u => do let s ← get; addrChecks (s.ea n u a b) 1)
    (fun n u => do
      let s ← get
      let va := s.ea n u a b
      let k := widthOf w.toNat
      let v ← readRange (.ac n u) va k (if va.toNat % k = 0 then k else 1)
      act fun s => s.setUreg n u d (extendW w v)) s

/-- ST (R325). -/
def execSt (h : Head) (w : BitVec 2) (a : BitVec 6) (b : Src) (c : BitVec 6) (s : State) : Res :=
  memRun h (.st h w a b c)
    (fun n u => do let s ← get; addrChecks (s.ea n u a b) 1)
    (fun n u => do
      let s ← get
      writeRange (.ac n u) (s.ea n u a b) (leBytes (widthOf w.toNat) (s.ureg n u c).toNat)) s

/-- The one piece that an aligned access of at most 8 bytes reaches. -/
def reachOne (a : Agent) (k : AKind) (va : W64) (len : Nat) : M (Nat × BitVec 2) := do
  match ← reach a k va.toNat len with
  | (pa, _, at') :: _ => pure (pa, at')
  | [] => pure (0, 0)

/-- A strong load at a scope; MMIO is read as a whole (R25, R147, R148). -/
def strongRead (a : Agent) (sc : Scope) (va : W64) (len : Nat) : M (List Byte) := do
  let (pa, at') ← reachOne a .read va len
  let s ← get
  let (b, s) := match mmioOf a.die pa with
    | some (d, off) => mmioLoad d off len s
    | none => strongLoad a sc (cacheable a.die pa at') (canonPa a.die pa) len s
  set s
  pure b

/-- A strong store at a scope, after the access has passed every check; `before` runs between (R143). -/
def strongWrite (a : Agent) (sc : Scope) (va : W64) (b : List Byte) (before : M Unit) : M Unit := do
  let (pa, at') ← reachOne a .write va b.length
  before
  act fun s =>
    match mmioOf a.die pa with
    | some (d, off) => mmioStore a d off b s
    | none => strongStore a sc (cacheable a.die pa at') (canonPa a.die pa) b s

/-- An atomic at a scope: `f` gives the new bytes from the old (R149); on MMIO the register is read and then written
as one access (R25). -/
def atomicAt (a : Agent) (sc : Scope) (va : W64) (len : Nat) (before : M Unit)
    (f : List Byte → Option (List Byte)) : M (List Byte) := do
  let (pa, at') ← reachOne a .atomic va len
  before
  let s ← get
  let (b, s) := match mmioOf a.die pa with
    | some (d, off) =>
      let (b, s) := mmioLoad d off len s
      (b, match f b with | some x => mmioStore a d off x s | none => s)
    | none => atomic a sc (cacheable a.die pa at') (canonPa a.die pa) len f s
  set s
  pure b

/-- The release of .rel and the acquire of .acq (Table 5-1). -/
def MCtl.pre (m : MCtl) (a : Agent) : M Unit := if m.ord.getLsbD 1 then relM a m.scope else pure ()
def MCtl.post (m : MCtl) (a : Agent) (s : State) : State := if m.ord.getLsbD 0 then acquire a m.scope s else s

/-- LDS (R325, R147). -/
def execLds (h : Head) (w : BitVec 3) (m : MCtl) (d a : BitVec 6) (b : Src) (s : State) : Res :=
  memRun h (.lds h w m d a b)
    (fun n u => do let s ← get; addrChecks (s.ea n u a b) (widthOf w.toNat))
    (fun n u => do
      let s ← get
      let v ← strongRead (.ac n u) m.scope (s.ea n u a b) (widthOf w.toNat)
      act fun s => MCtl.post m (.ac n u) (s.setUreg n u d (extendW w v))) s

/-- STS (R325, R147). -/
def execSts (h : Head) (w : BitVec 2) (m : MCtl) (a : BitVec 6) (b : Src) (c : BitVec 6) (s : State) : Res :=
  memRun h (.sts h w m a b c)
    (fun n u => do let s ← get; addrChecks (s.ea n u a b) (widthOf w.toNat))
    (fun n u => do
      let s ← get
      strongWrite (.ac n u) m.scope (s.ea n u a b) (leBytes (widthOf w.toNat) (s.ureg n u c).toNat) (MCtl.pre m (.ac n u))) s

/-- The new value of AMO (R326). -/
def amoVal {w : Nat} (op : AmoOp) (old b : BitVec w) : BitVec w :=
  match op with
  | .add => old + b
  | .and => old &&& b
  | .or => old ||| b
  | .xor => old ^^^ b
  | .swap => b
  | .min => if b.slt old then b else old
  | .max => if old.slt b then b else old
  | .minu => if b.ult old then b else old
  | .maxu => if old.ult b then b else old

/-- New bytes of an atomic of 4 or 8 bytes. -/
def amoBytes (op : AmoOp) (v : W64) (old : List Byte) : List Byte :=
  if old.length = 8 then bytes64 (amoVal op (le64 old) v)
  else leBytes 4 (amoVal op (BitVec.ofNat 32 (leNat old)) (v.setWidth 32)).toNat

/-- New bytes of a compare and swap, or none where the comparison fails (R327). -/
def casBytes (cmp v : W64) (old : List Byte) : Option (List Byte) :=
  if leNat old = cmp.toNat % 2 ^ (8 * old.length) then some (leBytes old.length v.toNat) else none

/-- Bytes that MCTL names: 4, or 8 with WIDE (Table 11-1). -/
def MCtl.size (m : MCtl) : Nat := if m.wide then 8 else 4

/-- AMO (R326). -/
def execAmo (h : Head) (op : AmoOp) (m : MCtl) (d a b : BitVec 6) (s : State) : Res :=
  memRun h (.amo h op m d a b)
    (fun n u => do let s ← get; addrChecks (s.ureg n u a) (MCtl.size m))
    (fun n u => do
      let s ← get
      let v := s.ureg n u b
      let old ← atomicAt (.ac n u) m.scope (s.ureg n u a) (MCtl.size m) (MCtl.pre m (.ac n u)) fun o => some (amoBytes op v o)
      act fun s => MCtl.post m (.ac n u) (s.setUreg n u d (extendW 0 old))) s

/-- CAS (R327): a release comes before the comparison, also where it fails. -/
def execCas (h : Head) (m : MCtl) (d a b : BitVec 6) (s : State) : Res :=
  memRun h (.cas h m d a b)
    (fun n u => do let s ← get; addrChecks (s.ureg n u a) (MCtl.size m))
    (fun n u => do
      let s ← get
      let v := s.ureg n u b
      let cmp := s.ureg n u d
      let old ← atomicAt (.ac n u) m.scope (s.ureg n u a) (MCtl.size m) (MCtl.pre m (.ac n u)) (casBytes cmp v)
      act fun s => MCtl.post m (.ac n u) (s.setUreg n u d (extendW 0 old))) s

/-! ### Phases and fences -/

/-- On AX the earlier array commands retire first (R328). -/
def orderOf (n u : Nat) : M Unit := match eidOf u with | some e => axOrder n e | none => pure ()

/-- PHASE (R328, R151). -/
def execPhase (h : Head) (m : MCtl) (s : State) : Res :=
  memRun h (.phase h m) (fun _ _ => pure ())
    (fun n u => do
      orderOf n u
      MCtl.pre m (.ac n u)
      act (MCtl.post m (.ac n u))) s

/-- FENCE (R328, R150): after the array commands of AX, the earlier strong stores and atomics are performed at their points for
the scope. -/
def execFence (h : Head) (sc : Scope) (s : State) : Res :=
  memRun h (.fence h sc) (fun _ _ => pure ())
    (fun n u => do
      orderOf n u
      act (fence (.ac n u) sc)) s

/-! ### Cache maintenance (R329, R330, R82, R84) -/

/-- Write back the lines of one page's piece for a unit of a cluster: skipped where the page does not translate or is not HBM (R329); it stalls while a
carve drains (Table 3-3). -/
def cleanPiece (n u : Nat) (va len : Nat) : M Unit := fun s =>
  if 2 ^ 55 ≤ va then .ok () s
  else match xlate (.ac n u) .issue va s with
    | .error _ s => .ok () s
    | .ok (pa, _) s =>
      if !inHbm pa then .ok () s
      else (linesOf (canonPa 0 pa) len).foldl (fun (r : EStateM.Result Stop State Unit) l => match r with
        | .ok _ s =>
          let o := s.l1Owner (.ac n u) (128 * l)
          if s.carving n || s.carving o then .error .wait s
          else if s.overQuota o l then .error (.trap 0x0B (BitVec.ofNat 64 va) 0) s else .ok () (s.writeBack o l)
        | e => e) (.ok () s)

/-- CLEAN and INVAL (R329): no value that a load may return changes with the invalidation. -/
def cleanRange (h : Head) (i : Instr) (a : BitVec 6) (b : Src) (s : State) : Res :=
  memRun h i
    (fun n u => do
      let s ← get
      addrChecks (s.ureg n u a) 1
      need (decide ((s.usrc n u b).toNat < 2 ^ 40)) 0x02 (s.usrc n u b) 0)
    (fun n u => do
      let s ← get
      let _ ← (pagePieces (s.ureg n u a).toNat (s.usrc n u b).toNat).mapM fun (va, len) => cleanPiece n u va len
      pure ()) s

/-- CLEAN (R329). -/
def execClean (h : Head) (l2 : Bool) (a : BitVec 6) (b : Src) (s : State) : Res := cleanRange h (.clean h l2 a b) a b s

/-- INVAL (R329). -/
def execInval (h : Head) (l2 : Bool) (a : BitVec 6) (b : Src) (s : State) : Res := cleanRange h (.inval h l2 a b) a b s

/-- PREF (R330): the part may drop it whole. -/
def execPref (h : Head) (l2 : Bool) (a : BitVec 6) (b : Src) (s : State) : Res :=
  memRun h (.pref h l2 a b) (fun _ _ => pure ()) (fun _ _ => pure ()) s

/-! ### Timelines -/

/-- Completion scope of a counter (Table 5-4): a copy across the fabric completes at .fab. -/
def tlScope (ctx : Nat) : Scope := if ctx < 5 then .ac else if ctx = 7 then .fab else .pkg

/-- Agents that make the writes of a counter's operations. -/
def State.tlAgents (s : State) (n ctx : Nat) : List Agent :=
  if ctx < 5 then [.ac n (ctx + 1)]
  else if ctx = 5 then [.ac n 6]
  else if ctx = 6 then s.kettles.map fun k => .kettle k.1
  else [.pot (dieOf n)]

/-- The promotion of TLWAIT (R155): every write of the operations numbered v or below is released at the scope. -/
def State.promote (s : State) (n ctx v : Nat) (sc : Scope) : State :=
  if Scope.rank (tlScope ctx) < Scope.rank sc then
    releaseOps (s.tlAgents n ctx) sc (fun t => t.ac == n && t.ctx == ctx && decide (1 ≤ t.num ∧ t.num ≤ v)) s
  else s

/-- TLWAIT (R331, R155). -/
def execTlwait (h : Head) (sc : Scope) (ctx : BitVec 3) (b : Src) (s : State) : Res :=
  ccRun h (.tlwait h sc ctx b) (fun n => do
    let s ← get
    let a := s.ac n
    let v := a.cc.src b
    need (decide (v.toNat ≤ a.ln.issueCount ctx.toNat)) 0x02 v 0
    if a.ln.shown ctx.toNat < v.toNat then throw .wait
    act fun s => s.promote n ctx.toNat v.toNat sc
    confirmed (.ac n 0) sc
    act (acquire (.ac n 0) sc)
    pure .seq) s

/-- TLREAD (R331). -/
def execTlread (h : Head) (issue : Bool) (d : BitVec 6) (ctx : BitVec 3) (s : State) : Res :=
  ccRun h (.tlread h issue d ctx) (fun n => do
    let s ← get
    let l := (s.ac n).ln
    act fun s => s.modCC n fun c =>
      c.setS d (BitVec.ofNat 64 (if issue then l.issueCount ctx.toNat else l.shown ctx.toNat))
    pure .seq) s

end Sys2Proof.Machine
end

