-- ==== Sys2Proof/Machine/EngI.lean ====
section
/-! DEFINITION. Instructions of every engine (R352 to R360) and the starting of command entries (R220 to R224, R228). -/

namespace Sys2Proof.Machine

/-! ### Queue heads (R228) -/

/-- What the head of an engine's queue comes to, once entries under a false guard have gone. -/
inductive HeadRes where
  | empty | held
  | entry (q : QEntry)
deriving DecidableEq, Repr

/-- Guard resolution at the head (Table 8-4): entries whose guard is false are discarded, and a routine entry among them
completes on its timeline. The first argument bounds the entries. -/
def resolveHead (n : Nat) (e : Eid) : Nat → State → HeadRes × State
  | 0, s => (.empty, s)
  | f + 1, s =>
    let a := s.ac n
    match (a.eng e).q with
    | [] => (.empty, s)
    | q :: rest =>
      if !q.gen then (.entry q, s)
      else match a.cc.guard q.gslot.toNat with
        | none => (.held, s)
        | some v =>
          if v ^^ q.gneg then (.entry q, s)
          else resolveHead n e f ((s.modEng n e fun x => { x with q := rest }).tlComplete n (eidCode e - 1) (if q.kind = 0 then q.num else 0))

/-- Resolve the head of an engine's queue. -/
def headOf (n : Nat) (e : Eid) (s : State) : HeadRes × State := resolveHead n e (((s.ac n).eng e).q.length + 1) s

/-- Pop the head. -/
def popHead (n : Nat) (e : Eid) (s : State) : State := s.modEng n e fun x => { x with q := x.q.drop 1 }

/-- Operands 0 to NOPS - 1 go to x12 to x15 (R223). -/
def loadOps (x : Eng) (q : QEntry) : Eng :=
  ((q.ops.take q.nops).zip (List.range 4)).foldl (fun x (v, i) => x.setX (12 + i) v) x

/-- An IDLE engine looks at the head of its queue (R223, R224): a routine entry starts, an operand entry is the
queue-state fault. MX starts one only while no tile-queue entry runs (R411). -/
def engineStart (n : Nat) (e : Eid) (s : State) : State :=
  let a := s.ac n
  if a.cc.task.isNone ∨ !(a.eng e).idle ∨ a.cc.entry.isSome ∨ a.cc.saving ∨ (e = .mx ∧ a.mxu.run.isSome) then s
  else match headOf n e s with
    | (.entry q, s) =>
      if q.kind = 0 then
        let code := match (s.ac n).cc.task with | some t => t.code | none => 0
        let s := acquire (engAgent n e) .ac (popHead n e s)
        s.modEng n e fun x => { loadOps x q with st := 1, num := q.num, upc := addr55 (code + q.offset.setWidth 64) }
      else engFault n e 0x0E (BitVec.ofNat 64 (eidCode e)) 0 s
    | (_, s) => s

/-! ### Row 0x8_ -/

/-- A source of an engine of a cluster. -/
def State.esrc (s : State) (n : Nat) (e : Eid) (a : Src) : W64 := ((s.ac n).eng e).src a

/-- ETAKE (R353, R224). -/
def execEtake (h : Head) (s : State) : Res :=
  engRun h (.etake h) noCheck (fun n e => do
    let s ← get
    let (r, s) := headOf n e s
    set s
    match r with
    | .entry q =>
      need (q.kind != 0) 0x0E (BitVec.ofNat 64 (eidCode e)) 0
      act fun s => (popHead n e s).modEng n e fun x => loadOps x q
      pure .seq
    | _ => throw .wait) s

/-- Results of VA with S = 1 that a taken branch kills (R369): those that have not landed by the end of its cycle. -/
def squash (e : Eid) (cycle : Nat) (a : AC) : AC :=
  if e = .va then { a with vec := { a.vec with flight := a.vec.flight.filter fun f => !(f.sq && decide (cycle < f.land)) } } else a

/-- EBR (R354). -/
def execEbr (h : Head) (c : ECond) (a b : Src) (off : BitVec 32) (s : State) : Res :=
  engRun h (.ebr h c a b off) noCheck (fun n e => do
    let s ← get
    let x := (s.ac n).eng e
    if engCond c x (x.src a) (x.src b) then
      act fun s => s.modAc n (squash e s.cycle)
      pure (.jump (x.upc + off.signExtend 64 * 4))
    else pure .seq) s

/-- ELOOP's effect on level k of an engine (R355, R302): the body, the count, and where the engine goes on. -/
def eloopOpen (h : Head) (k : Bool) (cnt : W64) (blen : BitVec 12) (x : Eng) : Eng × W64 :=
  let (rc, rs, re) := if k then (19, 20, 21) else (16, 17, 18)
  let (x, ls, le) :=
    if blen ≠ 0 then
      let b := addr55 (x.upc + Head.size h)
      let e := addr55 (b + BitVec.ofNat 64 (4 * blen.toNat))
      ((x.setX rs b).setX re e, b, e)
    else (x, addr55 (x.xr rs) &&& ~~~ 3, addr55 (x.xr re) &&& ~~~ 3)
  let x := x.setX rc cnt
  let on := cnt != 0
  let x := if k then { x with act1 := on, live1s := ls, live1e := le } else { x with act0 := on, live0s := ls, live0e := le }
  (x, if on then ls else le)

/-- A VLOOPP is active on VA: level 0 is not free for another loop (R371). -/
def vloopActive (e : Eid) (a : AC) : Bool := e == .va && bits (a.cc.sr 0x043) 8 4 != 0

/-- ELOOP (R355, R371); one that goes on just past itself takes no branch (R303). -/
def execEloop (h : Head) (k : Bool) (a : Src) (blen : BitVec 12) (s : State) : Res :=
  engRun h (.eloop h k a blen)
    (fun n e => do
      let s ← get
      need (k || !vloopActive e (s.ac n)) 0x02 (s.esrc n e a) 0)
    (fun n e => do
      let s ← get
      let (x, t) := eloopOpen h k (s.esrc n e a) blen ((s.ac n).eng e)
      act fun s => s.modEng n e fun _ => x
      pure (if t = x.upc + Head.size h then .seq else .jump t)) s

/-- ELOOP.ADD (R357): on VA the write lands with latency 1, at the end of its cycle (R356). -/
def execEloopAdd (h : Head) (d : BitVec 6) (a b : Src) (s : State) : Res :=
  engRun h (.eloopAdd h d a b) noCheck (fun n e => do
    act fun s => s.modEng n e fun x => x.setX d.toNat (x.src a + x.src b)
    pure .seq) s

/-- Close both levels and end the routine (R358): on VA no VLOOPP is active afterwards (R370). -/
def endRoutine (e : Eid) (a : AC) : AC :=
  let a := a.setEng e { a.eng e with act0 := false, act1 := false, st := 0, num := 0 }
  if e = .va then { a with cc := a.cc.setSr 0x043 0 } else a

/-- EEND (R358, R223, Table 5-4): its writes are performed at .ac, and its entry completes. -/
def execEend (h : Head) (s : State) : Res :=
  engRun h (.eend h) noCheck (fun n e => do
    axOrder n e
    let s ← get
    if e == .va && (s.ac n).vec.busy then throw .wait
    act fun s =>
      let s := release (engAgent n e) .ac s
      (s.tlComplete n (eidCode e - 1) ((s.ac n).eng e).num).modAc n (endRoutine e)
    pure .stay) s

/-- ENOP (R353). -/
def execEnop (h : Head) (s : State) : Res := engRun h (.enop h) noCheck (fun _ _ => pure .seq) s

/-- ETOK (R353): N tokens taken, N given. -/
def execEtok (h : Head) (k : BitVec 4) (s : State) : Res :=
  engRunN h (.etok h k) (k.toNat + 1) (k.toNat + 1) noCheck (fun _ _ => pure .seq) s

/-- GPUT (R359, R229). -/
def execGput (h : Head) (g : BitVec 5) (a : Src) (s : State) : Res :=
  engRun h (.gput h g a) noCheck (fun n e => do
    axOrder n e
    act fun s => s.modAc n fun x => x.guardWrite (eidCode e) g.toNat (some ((x.eng e).src a != 0))
    pure .seq) s

/-- ERET (R360, R158, R230): it waits in WAIT while the return queue has no room (R226, R436). -/
def execEret (h : Head) (a : Src) (s : State) : Res :=
  engRun h (.eret h a) noCheck (fun n e => do
    axOrder n e
    let s ← get
    if !(s.ac n).mayPush (eidCode e) 5 1 then
      act fun s => s.modAc n fun x => x.waitPush (eidCode e) 5 1
      throw .wait
    act fun s =>
      let v := s.esrc n e a
      ((release (engAgent n e) .ac s).modAc n fun x =>
        let x := x.endPush (eidCode e)
        { x with ln := { x.ln with retq := x.ln.retq ++ [(eidCode e, v)] } }).setEvt n
    pure .seq) s

/-! ### Events of the queues -/

/-- ENGINE_ENTRY_START: an IDLE engine starts the entry at its queue's head (R223). -/
def execEngineEntryStart (n : Nat) (e : Eid) (s : State) : Res := .next (engineStart n e s)

/-- GUARD_RESOLVE: the guard of the entry at the head of an engine's queue is looked at (R228): a false one discards the
entry, and a true one or none leaves it for the engine to take. -/
def execGuardResolve (n : Nat) (e : Eid) (s : State) : Res := .next (headOf n e s).2

end Sys2Proof.Machine
end

