-- ==== Sys2Proof/Machine/Tdt.lean ====
section
/-! DEFINITION. Tensor descriptor tables and format words (R29 to R37, R279, R280), and the decoding of scaled
elements. -/

namespace Sys2Proof.Machine

/-- A TDT entry (Table 1-5). -/
structure Tdt where
  words : List W64
deriving DecidableEq, Repr

def Tdt.w (t : Tdt) (i : Nat) : W64 := t.words.getD i 0
def Tdt.base (t : Tdt) : W64 := t.w 0
def Tdt.clip (t : Tdt) : W32 := (t.w 1).extractLsb' 32 32
def Tdt.scver (t : Tdt) : Nat := bits (t.w 1) 16 16
def Tdt.nfpol (t : Tdt) : Nat := bits (t.w 1) 13 2
def Tdt.scfmt (t : Tdt) : Nat := bits (t.w 1) 11 2
def Tdt.blksz (t : Tdt) : Nat := bits (t.w 1) 8 3
/-- Elements of a block, or none. -/
def Tdt.block (t : Tdt) : Option Nat := if t.blksz = 0 then none else some (4 * 2 ^ t.blksz)
def Tdt.fmt (t : Tdt) : BitVec 8 := (t.w 1).extractLsb' 0 8
def Tdt.dim (t : Tdt) (i : Nat) : Nat := bits (t.w (3 + i / 2)) (32 * (i % 2)) 32
/-- STRIDE1 to STRIDE3. -/
def Tdt.stride (t : Tdt) (i : Nat) : Nat := bits (t.w (5 + (i - 1) / 2)) (32 * ((i - 1) % 2)) 32

/-- Entry checks of R33. -/
def Tdt.ok (t : Tdt) : Bool :=
  (t.w 1).getLsbD 15 && bits (t.w 0) 55 9 == 0 && bits (t.w 6) 32 32 == 0 && t.nfpol != 3 && t.scfmt != 3 && decide (t.blksz ≤ 5)
    && (match NumFmt.ofCode t.fmt with
      | some f => (List.range 3).all fun i => t.stride (i + 1) % f.esize == 0
      | none => false)
    && (List.range 4).all (fun i => t.dim i != 0)
    && ((t.scfmt == 0) == (t.blksz == 0))
    && bits (t.w 7) 55 9 == 0 && (t.w 7).toNat % 256 == 0

/-- Read entry i with an agent's translation (R29, R34): word 0x08 with acquire at .pkg, then the others. -/
def readTdt (a : Agent) (tdtbase : W64) (i : Nat) : M Tdt := do
  let va := (tdtbase &&& ~~~ 63) + BitVec.ofNat 64 (64 * i)
  addrRange va
  let _ ← reach a .read va.toNat 64
  let b1 ← strongRead a .pkg (va + 8) 8
  act (acquire a .pkg)
  let b ← readRange a va 64 8
  pure ⟨(words64 b).set 1 (le64 b1)⟩

/-- The entry of a command, refused with the descriptor fault (R33). -/
def useTdt (a : Agent) (tdtbase : W64) (i : Nat) : M Tdt := do
  let t ← readTdt a tdtbase i
  need t.ok 0x0C (BitVec.ofNat 64 i) 0
  pure t

/-- An element as a consumer reads it: its address, and the address of its scale (R32). -/
def Tdt.elemVa (t : Tdt) (es i0 i1 i2 i3 : Nat) : W64 :=
  t.base + BitVec.ofNat 64 (i0 * es + i1 * t.stride 1 + i2 * t.stride 2 + i3 * t.stride 3)

def Tdt.scaleVa (t : Tdt) (b i0 i1 i2 i3 : Nat) : W64 :=
  t.w 2 + BitVec.ofNat 64 (((i3 * t.dim 2 + i2) * t.dim 1 + i1) * ((t.dim 0 + b - 1) / b) + i0 / b)

/-- The element lies within the extents. -/
def Tdt.inside (t : Tdt) (i0 i1 i2 i3 : Nat) : Bool :=
  decide (i0 < t.dim 0 ∧ i1 < t.dim 1 ∧ i2 < t.dim 2 ∧ i3 < t.dim 3)

/-- Value of an element with its scale byte, if the entry has scales (R206), and whether NFPOL counts it (R37). -/
def Tdt.value (t : Tdt) (raw : Nat) (scale : Option Nat) : FVal × Bool :=
  let x := match NumFmt.ofCode t.fmt with | some f => decodeElem f raw | none => .nan
  let v := match scale with | some c => scaledElem x (scaleVal (t.scfmt == 1) c) | none => x
  if t.nfpol ≠ 0 ∧ v.nonFinite then (if t.nfpol = 2 then .zero false else v, true) else (v, false)

/-- What a consumer reads for an element, in order: the element, with its size, and its scale byte, which has size 0 and is read with its
granule (R36). -/
def Tdt.addrs (t : Tdt) (i0 i1 i2 i3 : Nat) : List (W64 × Nat) :=
  match NumFmt.ofCode t.fmt with
  | none => []
  | some f =>
    (t.elemVa f.esize i0 i1 i2 i3, f.esize) :: (match t.block with | some b => [(t.scaleVa b i0 i1 i2 i3, 0)] | none => [])

/-- Read translated pieces in order, each as one unit, and the granule of each scale byte as one unit when it is met first; `got` holds the
granules read before, by their address over 64 (R36). -/
def readUnits (a : Agent) : List (List (Nat × Nat × BitVec 2) × Nat) → SMap (List Byte) → M (List (List Byte) × SMap (List Byte))
  | [], got => pure ([], got)
  | (p, n) :: r, got =>
    match n, p with
    | 0, (pa, _, at') :: _ => do
      let g ← match smFind got (pa / 64) with
        | some b => pure b
        | none => readPieces a 64 [(pa / 64 * 64, 64, at')]
      let (rest, got) ← readUnits a r (smSet got (pa / 64) g)
      pure ([g.getD (pa % 64) 0] :: rest, got)
    | _, _ => do
      let b ← readPieces a n p
      let (rest, got) ← readUnits a r got
      pure (b :: rest, got)

/-- Read ranges of an agent, each as one unit, and scale bytes by granule, with the granules that were read before: all are translated and checked before
any is read (R36, R62, R351). -/
def readWith (a : Agent) (l : List (W64 × Nat)) (got : SMap (List Byte)) : M (List (List Byte) × SMap (List Byte)) := do
  let ps ← l.mapM fun (va, n) => do
    addrRange va
    let p ← reach a .read va.toNat (max 1 n)
    pure (p, n)
  readUnits a ps got

/-- The same for a command that has read no granule before. -/
def readMany (a : Agent) (l : List (W64 × Nat)) : M (List (List Byte)) := do
  let (b, _) ← readWith a l []
  pure b

/-! ### Format words (Table 9-11) -/

/-- A format word's reserved bits are zero and its format codes valid; bits 31:0 alone for a short one (R280). -/
def fmtWordOk (w : W64) (two : Bool) : Bool :=
  bits w 0 5 == 0 && (NumFmt.ofCode (w.extractLsb' 8 8)).isSome
    && (!two || (bits w 32 7 == 0 && (NumFmt.ofCode (w.extractLsb' 40 8)).isSome))

/-- Checks of a format word against the entry of an operand (R280, R34). -/
def fmtMatch (w : W64) (lo : Nat) (idx : Nat) (t : Tdt) : M Unit := do
  need (w.extractLsb' (lo + 8) 8 == t.fmt) 0x02 w 0
  need (!w.getLsbD (lo + 7) || bits w (lo + 16) 16 == t.scver) 0x0D (BitVec.ofNat 64 idx) (BitVec.ofNat 64 (bits w (lo + 16) 16))

end Sys2Proof.Machine
end

