-- ==== Sys2Proof/Machine/MxI.lean ====
section
/-! DEFINITION. The matrix engine (R411 to R420): row 0x7_ of the control core, the tile queue, and the save image. -/

namespace Sys2Proof.Machine

def State.modMx (s : State) (n : Nat) (f : MX → MX) : State := s.modAc n fun a => { a with mxu := f a.mxu }

/-! ### Shadow registers and queues -/

def TQEntry.s (q : TQEntry) (i : Nat) : W64 := smGet 0 q.sh i
def TQEntry.mt (q : TQEntry) : Nat := bits (q.s 4) 0 6 + 1
def TQEntry.nt (q : TQEntry) : Nat := bits (q.s 4) 8 6 + 1
def TQEntry.takes (q : TQEntry) : Nat := bits (q.s 10) 0 3
def TQEntry.gives (q : TQEntry) : Nat := bits (q.s 10) 3 3
/-- Counts of the loop levels, the innermost first, and K (R413). -/
def TQEntry.cnt (q : TQEntry) (l : Nat) : Nat := bits (q.s (16 + 3 * l)) 0 32
def TQEntry.k (q : TQEntry) : Nat := (List.range 6).foldl (fun p l => p * q.cnt l) 1

/-- Numbers of Table 13-11. -/
def mxNumber (n : Nat) : Bool := decide (n ≤ 12 ∨ 16 ≤ n ∧ n ≤ 33)

/-- The numbers that a tile command and a drain snapshot (Tables 13-13, 13-15). -/
def tileRegs : List Nat := List.range 11 ++ (List.range 18).map (16 + ·)
def drainRegs : List Nat := [4, 10, 11, 12]

def snapshot (m : MX) (l : List Nat) : SMap W64 := l.foldl (fun x i => smPut 0 x i (smGet 0 m.sh i)) []

/-- Shadow registers 4 and 10 break Table 13-11, or TAKE or GIVE names no other engine (R412, R418). -/
def TQEntry.shapeBad (q : TQEntry) : Bool := bits (q.s 4) 14 50 != 0 || bits (q.s 4) 6 2 != 0
def TQEntry.codesBad (q : TQEntry) : Bool :=
  let code := fun c : Nat => decide (c ≤ 5 ∧ c ≠ 4)
  bits (q.s 10) 6 58 != 0 || !code q.takes || !code q.gives

/-- MXDRAIN's checks of the shadow registers that it reads (R412; the same fault as MXGO's, DEDUCED, log entry 120): the first that breaks them. -/
def drainBad (q : TQEntry) : Option W64 := if q.shapeBad then some (q.s 4) else if q.codesBad then some (q.s 10) else none

/-- MXGO's own checks of the shadow registers (R418): the first register that breaks them. -/
def mxgoBad (q : TQEntry) : Option W64 :=
  if q.shapeBad then some (q.s 4)
  else if bits (q.s 5) 28 36 ≠ 0 ∨ bits (q.s 5) 12 4 ≠ 0 then some (q.s 5)
  else if q.codesBad then some (q.s 10)
  else if 2 ^ 24 < q.k then some (q.s 16)
  else none

/-- Run an instruction of row 0x7_; in a handler it is illegal until MX is saved (R419). -/
def mxRun (h : Head) (i : Instr) (f : Nat → M Unit) (s : State) : Res :=
  ccRun h i (fun n => do
    let s ← get
    need (!(s.ac n).cc.h || (s.ac n).mxu.saved) 0x13 (word0 i) 0
    f n
    pure .seq) s

/-- Push an entry: numbered on TL.MX as it retires, and the number goes to sD (R411); a full queue stalls the CC. The address of the
instruction is kept for the faults of its entry (R440). -/
def mxPush (n : Nat) (d : BitVec 6) (q : TQEntry) : M Unit := do
  let s ← get
  if 8 ≤ (s.ac n).mxu.tq.length then throw .wait
  act fun s =>
    let (k, s) := s.tlNumber n 3
    (s.modMx n fun m => { m with tq := m.tq ++ [{ q with num := k }], pcs := smPut 0 m.pcs k (s.ac n).cc.pc }).modCC n fun c => c.setS d (BitVec.ofNat 64 k)

/-- The accumulator of an operand (R418). -/
def accOf (v : W64) : M Nat := do
  need (decide (v.toNat ≤ 3)) 0x02 v 0
  pure v.toNat

/-- MXCFG (R412, R418). -/
def execMxcfg (h : Head) (k : BitVec 6) (a : Src) (s : State) : Res :=
  match s.cur with
  | .ac n 0 =>
    if mxNumber k.toNat then
      mxRun h (.mxcfg h k a) (fun n =>
        act fun s =>
          let v := (s.ac n).cc.src a
          s.modMx n fun m => { m with sh := smPut 0 m.sh k.toNat v }) s
    else .next (illegal n 8 (.mxcfg h k a) s)
  | _ => .refused .wrongUnit

/-- MXGO (R411, R413, R418). -/
def execMxgo (h : Head) (d : BitVec 6) (a : Src) (s : State) : Res :=
  mxRun h (.mxgo h d a) (fun n => do
    let s ← get
    let acc ← accOf ((s.ac n).cc.src a)
    let q : TQEntry := ⟨0, snapshot (s.ac n).mxu tileRegs, acc, false, false, 0, 0⟩
    match mxgoBad q with
    | some v => illegalOperand v
    | none => mxPush n d q) s

/-- MXFMT (R411): a full format queue stalls the CC. -/
def execMxfmt (h : Head) (a : Src) (s : State) : Res :=
  mxRun h (.mxfmt h a) (fun n => do
    let s ← get
    if 8 ≤ (s.ac n).mxu.fq.length then throw .wait
    act fun s =>
      let v := (s.ac n).cc.src a
      s.modMx n fun m => { m with fq := m.fq ++ [v] }) s

/-- MXMODE (R411, R418). -/
def execMxmode (h : Head) (d : BitVec 6) (a : Src) (s : State) : Res :=
  mxRun h (.mxmode h d a) (fun n => do
    let s ← get
    let v := (s.ac n).cc.src a
    need (decide (v.toNat ≤ 4)) 0x02 v 0
    mxPush n d ⟨3, [], 0, false, false, v.toNat, 0⟩) s

/-- MXZERO (R411, R416). -/
def execMxzero (h : Head) (d : BitVec 6) (a : Src) (s : State) : Res :=
  mxRun h (.mxzero h d a) (fun n => do
    let s ← get
    let acc ← accOf ((s.ac n).cc.src a)
    mxPush n d ⟨1, [], acc, false, false, 0, 0⟩) s

/-- MXDRAIN (R411, R412, R416). -/
def execMxdrain (h : Head) (t bf : Bool) (d : BitVec 6) (a : Src) (s : State) : Res :=
  mxRun h (.mxdrain h t bf d a) (fun n => do
    let s ← get
    let acc ← accOf ((s.ac n).cc.src a)
    let q : TQEntry := ⟨2, snapshot (s.ac n).mxu drainRegs, acc, t, bf, 0, 0⟩
    match drainBad q with
    | some v => illegalOperand v
    | none => mxPush n d q) s

/-- MX status words (Table 13-14). -/
def MX.stat (m : MX) : Nat → W64
  | 0 => BitVec.ofNat 64 (m.rowprog % 128)
  | 1 => BitVec.ofNat 64 m.mode
  | 2 => BitVec.ofNat 64 m.tq.length
  | 3 => BitVec.ofNat 64 m.fq.length
  | 4 => m.resev
  | 5 => m.dupev
  | 6 => m.chkrot.setWidth 64
  | 7 => pack [(32, m.nfops.toNat), (0, m.saved.toNat)]
  | _ => 0

/-- MXSTAT (R418): also in a handler (R419). -/
def execMxstat (h : Head) (k : BitVec 3) (d : BitVec 6) (s : State) : Res :=
  ccRun h (.mxstat h k d) (fun n => do
    act fun s =>
      let v := (s.ac n).mxu.stat k.toNat
      s.modCC n fun c => c.setS d v
    pure .seq) s

/-! ### Running the tile queue -/

/-- MX may run its tile queue: no routine runs or has stopped (R411), the cluster has a task and does not settle, and the queue is not one that
holds since trap entry (Table 15-4). -/
def mxFree (a : AC) : Bool :=
  a.cc.task.isSome && !a.cc.saving && a.cc.entry.isNone && a.mx.idle && a.mxu.xl.isNone && !a.mxu.hold

/-- An entry of the tile queue ends without its effect: MX stops with its fault, or waits for replay (R414, R415, R58). -/
def mxStop (n : Nat) (st : Stop) (s : State) : State :=
  let fault := fun (c : Nat) (i0 i1 : W64) (s : State) => (engFault n .mx c i0 i1 s).modMx n fun m => { m with tstop := true }
  match s.ringed (.ac n 4) st with
  | .trap c i0 i1 => fault c i0 i1 s
  | .access w0 w1 va => fault 0x06 w0 w1 (s.addAccessRecord (.ac n 4) w0 w1 va)
  | .carve _ _ va => fault 0x0A va 0 s
  | .xlate d cause k va lv epa ent =>
    let (tok, s) := s.addXlateWait (.ac n 4) d cause k va lv epa ent
    s.modMx n fun m => { m with xl := some tok }
  | .wait | .posted => s

/-- Run a part of an entry. -/
def mxDo (n : Nat) (f : M Unit) (s : State) : State :=
  match f s with
  | .ok _ s => s
  | .error st s => mxStop n st s

/-- Take the entry's token, once (R414, R156); the entry waits while there is none. -/
def mxTake (n : Nat) (q : TQEntry) : M Unit := do
  let s ← get
  if q.takes ≠ 0 ∧ !(s.ac n).mxu.taken then
    let k := (s.ac n).ln.tokens q.takes 4
    if k = 0 then throw .wait
    act fun s => acquire (.ac n 4) .ac ((s.modAc n fun a => { a with ln := a.ln.setTokens q.takes 4 (k - 1) }).modMx n fun m =>
      { m with taken := true })

/-- The entry at the head has ended: it gives its token once there is room, leaves the queue and completes (R415, R416). -/
def mxEnd (n : Nat) (q : TQEntry) (f : MX → MX) (s : State) : State :=
  let s := release (.ac n 4) .ac s
  let g := q.gives
  let k := (s.ac n).ln.tokens 4 g
  if (q.kind = 0 ∨ q.kind = 2) ∧ g ≠ 0 ∧ 16 ≤ k then s
  else
    let s := if (q.kind = 0 ∨ q.kind = 2) ∧ g ≠ 0 then s.modAc n fun a => { a with ln := a.ln.setTokens 4 g (k + 1) } else s
    (s.modMx n fun m => f { m with tq := m.tq.drop 1, run := none, taken := false, pcs := smErase m.pcs q.num }).tlComplete n 3 q.num

/-- Element bytes for MX: the families that a tile command accepts (R414). -/
def mxSize (f : BitVec 8) : Option Nat :=
  match NumFmt.ofCode f with
  | some (.fl g) => if g.bits = 16 then some 2 else none
  | some (.b8 ..) => some 1
  | _ => none

/-- Bases and strides of one operand (0 A, 1 B) are multiples of its element size (R414). -/
def alignedOperand (q : TQEntry) (o es : Nat) : Bool :=
  ((o :: (2 + o) :: (List.range 6).map fun l => 17 + 3 * l + o).all fun i => (q.s i).toNat % es == 0)

/-- Step 3 of R414: the two TDT entries and the checks of the format word. -/
def mxChecks (n : Nat) (q : TQEntry) (fw : W64) : M (Tdt × Tdt) := do
  let s ← get
  let base := match (s.ac n).cc.task with | some t => t.word 5 | none => 0
  need (fmtWordOk fw true) 0x02 fw 0
  let ia := bits (q.s 5) 0 12
  let ib := bits (q.s 5) 16 12
  let ta ← useTdt (.ac n 4) base ia
  let tb ← useTdt (.ac n 4) base ib
  fmtMatch fw 0 ia ta
  fmtMatch fw 32 ib tb
  match mxSize ta.fmt, mxSize tb.fmt with
  | some ea, some eb =>
    need (alignedOperand q 0 ea) 0x02 (q.s 0) 0
    need (alignedOperand q 1 eb) 0x02 (q.s 1) 0
    pure (ta, tb)
  | _, _ => illegalOperand fw

/-- MX_TILE_START: the start of the tile command at the head (R414). While the format queue is empty, and while there is no
token to take, MX waits. -/
def tileStart (n : Nat) (s : State) : State :=
  let m := (s.ac n).mxu
  match m.tq with
  | q :: _ =>
    if q.kind ≠ 0 then s
    else
      let s := match m.run, m.fq with
        | none, w :: rest => acquire (.ac n 4) .ac (s.modMx n fun m => { m with fq := rest, run := some ⟨w, [], [], 0, false, false, []⟩, rowprog := 0 })
        | _, _ => s
      match (s.ac n).mxu.run with
      | some r =>
        if r.go then s
        else mxDo n (do
          mxTake n q
          let (ta, tb) ← mxChecks n q r.fw
          act fun s =>
            let c := (s.ac n).cc
            let s := if (s.ac n).mxu.mode = 4 then s.modCC n fun c => c.setSr 0x0D3 (c.sr 0x0D3 + 1) else s
            s.modMx n fun m => { m with run := some { r with tdtA := ta.words, tdtB := tb.words, ctr := c.sr 0x0D3, go := true } }) s
      | none => s
  | [] => s

/-- The offset of step t of the loop nest in operand o (R413). -/
def nestAt (q : TQEntry) (o t : Nat) : W64 :=
  ((List.range 6).foldl (fun (p : Nat × W64) l =>
    (p.1 / q.cnt l, p.2 + BitVec.ofNat 64 (p.1 % q.cnt l) * q.s (17 + 3 * l + o))) (t, 0)).2

/-- Element i of operand o at step t, and its scale byte if the entry has scales, as `readMany` takes them (R413). -/
def elemAddrs (q : TQEntry) (td : Tdt) (o i t : Nat) : List (W64 × Nat) :=
  let e := (q.s o + BitVec.ofNat 64 i * q.s (2 + o) + nestAt q o t, (mxSize td.fmt).getD 1)
  match td.block with
  | some b => [e, (q.s (6 + o) + BitVec.ofNat 64 i * q.s (8 + o) + BitVec.ofNat 64 (t / b), 0)]
  | none => [e]

/-- What element i of operand o reads over the stream. -/
def streamAddrs (q : TQEntry) (td : Tdt) (o i : Nat) : List (W64 × Nat) := (List.range q.k).flatMap fun t => elemAddrs q td o i t

/-- Elements of an operand over the stream, as they have been read: their values, and how many NFPOL counts (R37, R206). -/
def streamVals (td : Tdt) (b : List (List Byte)) : List FVal × Nat :=
  let l : List (FVal × Bool) := match td.block with
    | some _ => (chunksOf b.length 2 b).map fun (p : List (List Byte)) => td.value (leNat (p.headD [])) (some (leNat (p.getD 1 [])))
    | none => b.map fun x => td.value (leNat x) none
  (l.map (·.1), l.foldl (fun k x => if x.2 then k + 1 else k) 0)

/-- A stream of products into one accumulator element, in K-groups of 8 with one rounding each (R216). -/
def macStream (md : RMode) (hash : Nat → W32) (acc : W32) (a b : List FVal) : W32 :=
  let ps := (a.zip b).map fun (x, y) => mulX x y
  ((chunksOf ps.length 8 ps).foldl (fun (p : W32 × Nat) g =>
    (toF32 md (hash p.2) false (sumExact md (f32 p.1 :: g)), p.2 + 1)) (acc, 0)).1

/-- The rounding mode of a code (Table 7-5). -/
def modeOf : Nat → RMode
  | 1 => .rtz | 2 => .rup | 3 => .rdn | 4 => .sr | _ => .rne

/-- A row of A and the columns of B of a tile command, and the granules of scales read by then. -/
structure RowOperands where
  a : List FVal × Nat
  cols : List (List FVal × Nat)
  scales : SMap (List Byte)

/-- Read the operands of row i of a tile command, all translated and checked before any is read. A granule of scales is read once in a command, so
that it is wholly old or wholly new (R36). -/
def rowRead (n : Nat) (q : TQEntry) (r : TileRun) (i : Nat) : M RowOperands := do
  let la := streamAddrs q ⟨r.tdtA⟩ 0 i
  let lb := (List.range q.nt).map fun j => streamAddrs q ⟨r.tdtB⟩ 1 j
  let (b, got) ← readWith (.ac n 4) (la ++ lb.flatten) r.scales
  let w := (lb.headD []).length
  pure ⟨streamVals ⟨r.tdtA⟩ (b.take la.length),
    (List.range q.nt).map fun j => streamVals ⟨r.tdtB⟩ ((b.drop (la.length + j * w)).take w), got⟩

/-- The accumulators after a row (R413, R216): each element of the row takes its stream of products. -/
def rowAcc (m : MX) (q : TQEntry) (seed : W32) (ctr : W64) (i : Nat) (x : RowOperands) : SMap W32 :=
  (x.cols.zip (List.range q.nt)).foldl (fun acc (c, j) =>
    let key := 4096 * q.acc + 64 * i + j
    smPut 0 acc key (macStream (modeOf m.mode) (fun g => srHash seed ctr (BitVec.ofNat 32 (4096 * g + 64 * i + j))) (smGet 0 acc key) x.a.1 c.1)) m.acc

/-- The next row of the tile command (R413, R415): all its operands are read first, so a fault leaves the row as it was. An
element of B counts once in a command, with its first row. -/
def rowStep (n : Nat) (q : TQEntry) (r : TileRun) (i : Nat) : M Unit := do
  let x ← rowRead n q r i
  act fun s =>
    let m := (s.ac n).mxu
    let acc := rowAcc m q (((s.ac n).cc.sr 0x0D2).setWidth 32) r.ctr i x
    let nf := x.a.2 + (if i = 0 then x.cols.foldl (fun k c => k + c.2) 0 else 0)
    s.modMx n fun m =>
      { m with acc := acc, rowprog := i + 1, run := some { r with scales := x.scales }, nfops := BitVec.ofNat 32 (min (m.nfops.toNat + nf) 0xFFFFFFFF) }

/-- A mismatch of the residue or of the duplicate-column check (R417, R456, R457) in a tile-queue entry. -/
def mxMismatch (n : Nat) (q : TQEntry) (dup : Bool) (s : State) : State :=
  let s := s.modMx n fun m => if dup then { m with dupev := m.dupev + 1 } else { m with resev := m.resev + 1 }
  s.integrity (dieOf n) (if dup then 2 else 1) n (BitVec.ofNat 64 q.acc) (smGet 0 (s.ac n).mxu.pcs q.num)

/-- K-groups of a row of A and a column of B whose products are all finite, which the residue check covers (R417). -/
def checkedGroups (a b : List FVal) : Nat :=
  let ps := (a.zip b).map fun (x, y) => mulX x y
  ((chunksOf ps.length 8 ps).filter fun g => !g.any FVal.nonFinite).length

/-- How many residue mismatches a row has whose check has found one: any number up to its checked K-groups is possible, and is free (R417; log
entry 10). -/
def mismatches (groups q : Nat) : Nat := if groups = 0 then 0 else 1 + Config.loadChoice q % groups

/-- Checked K-groups of row i of the command: none when its operands cannot be read. -/
def checkedInRow (n : Nat) (q : TQEntry) (r : TileRun) (i : Nat) (s : State) : Nat :=
  match rowRead n q r i s with
  | .ok x _ => (x.cols.map fun c => checkedGroups x.a.1 c.1).foldl (· + ·) 0
  | .error _ _ => 0

/-- The residue mismatches of a row. -/
def residueEvents (n : Nat) (q : TQEntry) (groups : Nat) (s : State) : State :=
  (List.range (mismatches groups s.seq)).foldl (fun s _ => mxMismatch n q false s) { s with seq := s.seq + 1 }

/-- The mismatch of the duplicated column, which a command compares once, where it has that column and products to accumulate (R417). -/
def dupEvent (n : Nat) (q : TQEntry) (s : State) : State :=
  let m := (s.ac n).mxu
  match m.run with
  | some r =>
    if !r.dup ∧ m.chkrot.toNat < q.nt ∧ 0 < q.k then mxMismatch n q true (s.modMx n fun m => { m with run := some { r with dup := true } }) else s
  | none => s

/-- MX_ROW_COMMIT: one row of the running tile command (R415), with what its checks find (R417). -/
def rowCommit (n : Nat) (resBad dupBad : Bool) (s : State) : State :=
  let m := (s.ac n).mxu
  match m.tq, m.run with
  | q :: _, some r =>
    if q.kind = 0 ∧ r.go ∧ m.rowprog < q.mt then
      match rowStep n q r m.rowprog s with
      | .ok _ t =>
        let t := if resBad then residueEvents n q (checkedInRow n q r m.rowprog s) t else t
        if dupBad then dupEvent n q t else t
      | .error st s => mxStop n st s
    else s
  | _, _ => s

/-- MX_TILE_COMPLETE (R415, R417). -/
def tileEnd (n : Nat) (s : State) : State :=
  let m := (s.ac n).mxu
  match m.tq, m.run with
  | q :: _, some r => if q.kind = 0 ∧ r.go ∧ q.mt ≤ m.rowprog then mxEnd n q (fun m => { m with chkrot := m.chkrot + 1 }) s else s
  | _, _ => s

/-- MX_MODE_CHANGE (R416). -/
def modeChange (n : Nat) (s : State) : State :=
  match (s.ac n).mxu.tq with
  | q :: _ => if q.kind = 3 then mxEnd n q (fun m => { m with mode := q.mode }) s else s
  | [] => s

/-- MX_ZERO (R416). -/
def zeroAcc (n : Nat) (s : State) : State :=
  match (s.ac n).mxu.tq with
  | q :: _ => if q.kind = 1 then mxEnd n q (fun m => { m with acc := m.acc.filter fun (k, _) => k / 4096 != q.acc }) s else s
  | [] => s

/-- The elements that a drain writes: addresses and bytes, in ascending rows and columns (Table 13-12). -/
def drainWrites (m : MX) (q : TQEntry) : List (W64 × List Byte) :=
  let e := if q.bf then 2 else 4
  (List.range q.mt).flatMap fun i => (List.range q.nt).map fun j =>
    let v := smGet 0 m.acc (4096 * q.acc + 64 * i + j)
    let b := if q.bf then leBytes 2 (toB16 .rne 0 false (f32 v)).toNat else leBytes 4 v.toNat
    (q.s 11 + (if q.t then BitVec.ofNat 64 j * q.s 12 + BitVec.ofNat 64 (i * e) else BitVec.ofNat 64 i * q.s 12 + BitVec.ofNat 64 (j * e)), b)

/-- MX_DRAIN (R416): after its take, every element is an ordinary write of MX; the elements written before a fault stand. -/
def drain (n : Nat) (s : State) : State :=
  let m := (s.ac n).mxu
  match m.tq with
  | q :: _ =>
    if q.kind ≠ 2 then s
    else
      let s := if m.run.isNone then acquire (.ac n 4) .ac (s.modMx n fun m => { m with run := some ⟨0, [], [], 0, false, false, []⟩ }) else s
      match (s.ac n).mxu.run with
      | some r =>
        let s := if r.go then s
          else mxDo n (do
            mxTake n q
            (drainWrites m q).forM fun (va, b) => writeRange (.ac n 4) va b
            act fun s => s.modMx n fun m => { m with run := some { r with go := true } }) s
        if (match (s.ac n).mxu.run with | some r => r.go | none => false) then mxEnd n q id s else s
      | none => s
  | [] => s

/-- One step of an event at the tile queue: nothing happens where MX may not run it. -/
def mxEvent (n : Nat) (f : State → State) (s : State) : Res := .next (if mxFree (s.ac n) then f s else s)

def execMxTileStart (n : Nat) (s : State) : Res := mxEvent n (tileStart n) s
def execMxRowCommit (n : Nat) (resBad dupBad : Bool) (s : State) : Res := mxEvent n (rowCommit n resBad dupBad) s
def execMxTileComplete (n : Nat) (s : State) : Res := mxEvent n (tileEnd n) s
def execMxModeChange (n : Nat) (s : State) : Res := mxEvent n (modeChange n) s
def execMxZero (n : Nat) (s : State) : Res := mxEvent n (zeroAcc n) s
def execMxDrain (n : Nat) (s : State) : Res := mxEvent n (drain n) s

/-- The tile queue's turn: one of the events above, as its head asks. -/
def mxTurn (n : Nat) (s : State) : State :=
  let a := s.ac n
  if !mxFree a then s
  else match a.mxu.tq with
    | [] => s
    | q :: _ =>
      match q.kind with
      | 0 => (match a.mxu.run with
        | some r => if r.go then (if a.mxu.rowprog < q.mt then rowCommit n false false s else tileEnd n s) else tileStart n s
        | none => tileStart n s)
      | 1 => zeroAcc n s
      | 2 => drain n s
      | _ => modeChange n s

/-! ### The save image (Table 13-15) -/

/-- Words of one tile-queue entry. -/
def TQEntry.words (q : TQEntry) : List W64 :=
  let body := match q.kind with
    | 0 => tileRegs.map q.s ++ [BitVec.ofNat 64 q.acc, BitVec.ofNat 64 q.num]
    | 1 => [BitVec.ofNat 64 q.acc, BitVec.ofNat 64 q.num]
    | 2 => drainRegs.map q.s ++ [pack [(9, q.bf.toNat), (8, q.t.toNat), (0, q.acc)], BitVec.ofNat 64 q.num]
    | _ => QEntry.words ⟨2, false, false, 0, 1, 0, [BitVec.ofNat 64 q.mode], 0⟩ ++ [BitVec.ofNat 64 q.num]
  padTo 31 body ++ [BitVec.ofNat 64 q.kind]

/-- An entry of 32 words, or none for an unused one. -/
def TQEntry.ofWords (w : List W64) : Option TQEntry :=
  let g := fun i => w.getD i 0
  let regs := fun l => (l.zip (List.range 32)).foldl (fun x (i, k) => smPut 0 x i (g k)) []
  match (g 31).toNat with
  | 0 => some ⟨0, regs tileRegs, bits (g 29) 0 2, false, false, 0, (g 30).toNat⟩
  | 1 => some ⟨1, [], bits (g 0) 0 2, false, false, 0, (g 1).toNat⟩
  | 2 => some ⟨2, regs drainRegs, bits (g 4) 0 2, (g 4).getLsbD 8, (g 4).getLsbD 9, 0, (g 5).toNat⟩
  | 3 => some ⟨3, [], 0, false, false, bits (g 1) 0 3, (g 5).toNat⟩
  | _ => none

/-- Numbers of Table 13-11 in the image's order. -/
def shadowRegs : List Nat := List.range 13 ++ (List.range 18).map (16 + ·)

/-- The running command as the area at 0x1_0B00 holds it: the spec leaves that area's layout open (log entry 45). -/
def MX.runWords (m : MX) : List W64 :=
  match m.run with
  | some r => [pack [(3, r.dup.toNat), (2, 1), (1, m.taken.toNat), (0, r.go.toNat)], r.fw, r.ctr] ++ padTo 8 r.tdtA ++ padTo 8 r.tdtB
  | none => []

def MX.runNum (m : MX) : Nat := match m.run, m.tq with | some _, q :: _ => q.num | _, _ => 0

/-- The 69,632 bytes of the image. -/
def MX.image (m : MX) : List Byte :=
  (List.range 16384).flatMap (fun k => leBytes 4 (smGet 0 m.acc k).toNat)
    ++ (padTo 32 (shadowRegs.map fun i => smGet 0 m.sh i)
      ++ padTo 32 ((List.range 8).map m.stat ++ [BitVec.ofNat 64 m.runNum])
      ++ padTo 32 m.fq
      ++ ((m.tq.map TQEntry.words) ++ List.replicate (8 - m.tq.length) (List.replicate 31 0 ++ [7])).flatten
      ++ padTo 160 m.runWords).flatMap fun w => leBytes 8 w.toNat

/-- What an image restores (R420). -/
def MX.ofImage (m : MX) (b : List Byte) : MX :=
  let acc := ((chunksOf 16385 4 (b.take 65536)).zip (List.range 16384)).foldl (fun x (v, k) => smPut 0 x k (BitVec.ofNat 32 (leNat v))) []
  let w := words64 (b.drop 65536)
  let st := fun i => (w.drop 32).getD i 0
  let tq := (List.range 8).filterMap fun i => TQEntry.ofWords ((w.drop (96 + 32 * i)).take 32)
  let r := w.drop 352
  let f := r.getD 0 0
  { m with
    acc := acc
    sh := (shadowRegs.zip (w.take 31)).foldl (fun x (i, v) => smPut 0 x i v) []
    tq := tq
    fq := (w.drop 64).take (min 8 (bits (st 3) 0 4))
    run := if f.getLsbD 2 ∧ st 8 ≠ 0 ∧ !tq.isEmpty then some ⟨r.getD 1 0, (r.drop 3).take 8, (r.drop 11).take 8, r.getD 2 0, f.getLsbD 0, f.getLsbD 3, []⟩ else none
    rowprog := bits (st 0) 0 7
    mode := bits (st 1) 0 3
    resev := st 4
    dupev := st 5
    chkrot := (st 6).setWidth 6
    nfops := (st 7).extractLsb' 32 32
    saved := false
    taken := f.getLsbD 1
    xl := none }

/-- An image keeps Tables 13-14 and 13-15: reserved bits and words zero, and entries that could stand in the queue, the used ones first. -/
def mxImageOk (b : List Byte) : Bool :=
  let w := words64 (b.drop 65536)
  let g := fun i => w.getD i 0
  let ents := (List.range 8).map fun i => (w.drop (96 + 32 * i)).take 32
  let kinds := ents.map fun e => (e.getD 31 0).toNat
  let used := (kinds.filter (· ≠ 7)).length
  let okEnt := fun (e : List W64) =>
    let x := fun i => e.getD i 0
    match (x 31).toNat with
    | 0 => decide ((x 29).toNat ≤ 3) && (match TQEntry.ofWords e with | some q => (mxgoBad q).isNone | none => false)
    | 1 => decide ((x 0).toNat ≤ 3) && allZero ((e.drop 2).take 29)
    | 2 => decide ((x 4).toNat < 1024 ∧ bits (x 4) 2 6 = 0) && allZero ((e.drop 6).take 25)
      && (match TQEntry.ofWords e with | some q => (drainBad q).isNone | none => false)
    | 3 => bits (x 0) 62 2 == 2 && decide ((x 1).toNat ≤ 4) && allZero ((e.drop 6).take 25)
    | 7 => true
    | _ => false
  g 31 == 0 && decide ((g 32).toNat ≤ 64 ∧ (g 33).toNat ≤ 4 ∧ (g 34).toNat = used ∧ (g 35).toNat ≤ 8 ∧ (g 38).toNat < 64)
    && bits (g 39) 1 31 == 0 && allZero ((w.drop 41).take 23) && allZero ((w.drop (64 + (g 35).toNat)).take (32 - (g 35).toNat))
    && ents.all okEnt && (kinds.take used).all (· ≠ 7)

/-- MX stops at a row boundary (R420): every row commits whole, so it stands at one; a wait for replay is given up. -/
def mxHalt (n : Nat) (s : State) : State :=
  match (s.ac n).mxu.xl with
  | some t => (s.dropToken (dieOf n) t).modMx n fun m => { m with xl := none }
  | none => s

/-- The queues after a save (R420). -/
def MX.emptied (m : MX) : MX := { m with tq := [], fq := [], run := none, taken := false, saved := true, hold := false }

/-- MXSAVE (R420): a fault on the image's pages leaves MX as it is. -/
def execMxsave (h : Head) (a : BitVec 6) (s : State) : Res :=
  ccRun h (.mxsave h a) (fun n => do
    let s ← get
    let va := (s.ac n).cc.s a
    need (va.toNat % 256 == 0 && !(s.ac n).mxu.saved) 0x02 va 0
    writeReleased (.ac n 0) .ac va (s.ac n).mxu.image
    act fun s => (mxHalt n s).modMx n MX.emptied
    pure .seq) s

/-- MXREST (R420, R451): in a handler the restored queue holds until RFT. -/
def execMxrest (h : Head) (a : BitVec 6) (s : State) : Res :=
  mxRun h (.mxrest h a) (fun n => do
    let s ← get
    let va := (s.ac n).cc.s a
    need (va.toNat % 256 == 0) 0x02 va 0
    let b ← readAcquired (.ac n 0) .ac va 69632 8
    act fun s => (mxHalt n s).modMx n fun m => { m.ofImage b with hold := (s.ac n).cc.h }) s

/-- An instruction that an engine of a cluster has issued meets a fault: the engine stops (R351, Table 8-1). While the cluster enters a trap, that
of a VL or VS instruction is deferred (R443) in the order of its issue, which was in the stop cycle where the engine had not begun to wait before, and
the other engines have issued nothing. MX that runs a tile command stops with it (R414, R415). -/
def lateFault (n : Nat) (e : Eid) (cause : Nat) (i0 i1 : W64) (s : State) : State :=
  let a := s.ac n
  let x := a.eng e
  if a.cc.task.isNone ∨ a.cc.saving then s
  else if e = .mx ∧ x.st = 0 then (if mxFree a ∧ a.mxu.run.isSome then mxStop n (.trap cause i0 i1) s else s)
  else if x.st ≠ 1 ∧ x.st ≠ 2 then s
  else match a.cc.entry with
    | some (_, stop, settled) =>
      if !settled ∧ (e = .vl ∨ e = .vs) ∧ !x.deferred then
        s.modEng n e fun x => { x with deferred := true, fcause := cause, finfo := i0, finfo1 := i1, fcycle := if x.st = 2 then x.fcycle else stop }
      else s
    | none => engFault n e cause i0 i1 (match x.xl with | some t => s.dropToken (dieOf n) t | none => s)

end Sys2Proof.Machine
end

