-- ==== Sys2Proof/Machine/Fabric.lean ====
section
/-! DEFINITION. Sending over the fabric: routes, ports, requests that wait for an acknowledgement (R468 to R471). -/

namespace Sys2Proof.Machine

/-- Node, export and offset of a fabric address (R469). -/
def fabNode (a : Nat) : Nat := a / 2 ^ 36 % 2 ^ 16
def fabExport (a : Nat) : Nat := a / 2 ^ 32 % 16

/-- Bytes that a home holds, for reads of the part's own tables in HBM. -/
def State.homeBytes (s : State) (k n : Nat) : List Byte := (List.range n).map fun i => s.homeByte (k + i)

/-- Word w of a node's entry in the node table that a die uses (R468). -/
def State.nodeWord (s : State) (d node w : Nat) : W64 :=
  le64 (s.homeBytes (canonPa d (bits (s.reg d 0xB000) 20 32 * 2 ^ 20 + 16 * node + 8 * w)) 8)

/-- The node table of a die holds a valid route to a node; 0xFFFF names the part itself (R468). -/
def State.routeValid (s : State) (d node : Nat) : Bool := node == 0xFFFF || (s.nodeWord d node 0).getLsbD 63

/-- A fabric port is up (Table 16-3). -/
def State.portUp (s : State) (port : Nat) : Bool := (s.reg (port / 8) 0xB008).getLsbD (port % 8)

/-- The live ports of a valid route: those of its PORTMASK that are up (R468, R470). -/
def State.livePorts (s : State) (d node : Nat) : List Nat :=
  if node ≠ 0xFFFF ∧ s.routeValid d node then
    (List.range 32).filter fun p => (s.nodeWord d node 1).getLsbD (32 + p) && s.portUp p
  else []

/-- The agent that sent a request. -/
def sender (x : FabItem) : Agent :=
  match x with
  | .copy n _ => .ac n 6
  | .pour n _ => if n < 256 then .pot (dieOf n) else .ingress (n - 256)
  | .put n => .ac n 3
  | .free n => .ac n 0
  | .done d _ => .disp d
  | .outcome d _ _ _ => .pot d
  | .notice d => .pot d

/-- The port by which a packet of a flow leaves now, if its route has a live one: the flow's port while that is live, and another live
port of the route when it is not (R468; log entry 94). -/
def State.flowPort (s : State) (who : Agent) (node : Nat) : Option Nat × State :=
  match s.livePorts who.die node with
  | [] => (none, s)
  | p :: r =>
    match s.flows.find? fun f => f.1 == who && f.2.1 == node && (p :: r).contains f.2.2 with
    | some f => (some f.2.2, s)
    | none =>
      let q := (p :: r).getD (Config.flowPort s.seq % (p :: r).length) p
      (some q, { s with seq := s.seq + 1, flows := (who, node, q) :: s.flows.filter fun f => !(f.1 == who && f.2.1 == node) })

/-- The record that ends a send whose route is invalid (R469, R470). -/
def routeRecord (who : Agent) (a : Nat) : W64 × W64 := accRecord who 0xFFFF 0xFF .write a

/-- Send to an address of a node: the request leaves by a live port of its route, or waits for one, and stands until its acknowledgement
arrives. -/
def State.sendTo (s : State) (item : FabItem) (node a : Nat) (what : FabWhat) : State :=
  let (p, s) := s.flowPort (sender item) node
  { s with fab := s.fab ++ [⟨item, node, a, what, p, false⟩] }

/-- Send to a fabric address. -/
def State.send (s : State) (item : FabItem) (a : Nat) (what : FabWhat) : State := s.sendTo item (fabNode a) a what

/-- Requests that wait for a live port leave once their route has one. -/
def State.sendWaiting (s : State) : State :=
  (List.range s.fab.length).foldl (fun s i =>
    match s.fab[i]? with
    | some x => if x.port.isSome ∨ x.acked then s
      else
        let (p, s) := s.flowPort (sender x.item) x.node
        if p.isSome then { s with fab := s.fab.set i { x with port := p } } else s
    | none => s) s

/-- Requests of an item are forgotten. -/
def State.dropSends (s : State) (item : FabItem) : State := { s with fab := s.fab.filter fun x => x.item != item }

/-- A request is a probe of a put (R471). -/
def FabSend.isProbe (x : FabSend) : Bool := match x.what with | .probe _ => true | _ => false

/-- An ingress port answers a request. -/
def State.reply (s : State) (port num : Nat) (x : FabAns) : State := { s with fabOut := s.fabOut ++ [(port, num, x)] }

end Sys2Proof.Machine
end

