-- ==== Sys2Proof/Machine/NumSfu.lean ====
section
/-! DEFINITION. The special functions of R375: bounds in fixed point, narrowed until their leading bits agree (log entry 12). -/

namespace Sys2Proof.Machine

/-- Sum over k of x^(2k+1) / (2k+1) in fixed point with `w` fractional bits: terms, power, x², sum. -/
def atanhSum (w : Nat) : Nat → Nat → Nat → Nat → Nat → Nat
  | 0, _, _, _, acc => acc
  | n + 1, k, pw, x2, acc =>
    if pw = 0 then acc else atanhSum w n (k + 2) (pw * x2 / 2 ^ w) x2 (acc + pw / k)

/-- 2 atanh(x), x in [0, 1/2), below the value by less than 2^-(w - 10). -/
def atanh2 (w x : Nat) : Nat := 2 * atanhSum w w 1 x (x * x / 2 ^ w) 0

/-- ln 2 with w fractional bits, from below. -/
def ln2 (w : Nat) : Nat := atanh2 w (2 ^ w / 3)

/-- Sum of the Taylor series of exp from a term, fixed point from below. -/
def expSum (w : Nat) : Nat → Nat → Nat → Nat → Nat → Nat
  | 0, _, _, _, acc => acc
  | n + 1, k, t, y, acc => if t = 0 then acc else expSum w n (k + 1) (t * y / 2 ^ w / k) y (acc + t)

/-- exp(y) of y in [0, 1) from below. -/
def expFix (w y : Nat) : Nat := expSum w w 1 (2 ^ w) y 0

/-- Alternating sum of the erf series: sum over n of (-1)^n x^(2n+1) / (n! (2n+1)). -/
def erfSum (w : Nat) : Nat → Nat → Nat → Nat → Int → Int
  | 0, _, _, _, acc => acc
  | f + 1, n, t, x2, acc =>
    if t = 0 then acc
    else erfSum w f (n + 1) (t * x2 / 2 ^ w / (n + 1)) x2
      (if n % 2 = 0 then acc + (t / (2 * n + 1) : Nat) else acc - (t / (2 * n + 1) : Nat))

/-- Sum of atan(1/k) by its series, from a power. -/
def atanInv (k : Nat) : Nat → Nat → Nat → Int → Int
  | 0, _, _, acc => acc
  | f + 1, n, t, acc =>
    if t = 0 then acc
    else atanInv k f (n + 1) (t / (k * k))
      (if n % 2 = 0 then acc + (t / (2 * n + 1) : Nat) else acc - (t / (2 * n + 1) : Nat))

/-- π with w fractional bits, within 2^-(w - 12) (Machin's formula). -/
def piFix (w : Nat) : Nat :=
  (16 * atanInv 5 w 0 (2 ^ w / 5) 0 - 4 * atanInv 239 w 0 (2 ^ w / 239) 0).toNat

/-- m × 2^e as a fixed-point number with w fractional bits, rounded down. -/
def toFix (w m : Nat) (e : Int) : Nat :=
  let s := e + w
  if 0 ≤ s then m * 2 ^ s.toNat else m / 2 ^ (-s).toNat

/-- What is known of a function value: the value, or bounds of its magnitude, lo and hi in units of 2^(sh - w). -/
inductive Enclosure where
  | exact (v : FVal)
  | between (w : Nat) (neg : Bool) (lo hi : Nat) (sh : Int)
deriving DecidableEq, Repr

/-- The 64 leading bits of the lower bound and a rest: the value to be rounded, where the upper bound has the same bits. -/
def Enclosure.low : Enclosure → FVal
  | .exact v => v
  | .between w neg lo _ sh =>
    let d := bitLen lo - 64
    .fin neg (lo / 2 ^ d) ((d : Int) - w + sh) true

/-- The bounds agree in their 64 leading bits. -/
def Enclosure.decided : Enclosure → Bool
  | .exact _ => true
  | .between _ _ lo hi _ =>
    let d := bitLen lo - 64
    decide (64 ≤ bitLen lo) && lo / 2 ^ d == hi / 2 ^ d

/-- |x| = m × 2^e is at least 2^k. -/
def magAtLeast (m : Nat) (e k : Int) : Bool := decide (k < e + bitLen m)

/-- exp2 of a nonzero finite value. -/
def exp2W (neg : Bool) (m : Nat) (e : Int) (w : Nat) : Enclosure :=
  if magAtLeast m e 11 then
    .exact (if neg then .fin false 1 (-4000) true else .fin false 1 4000 false)
  else
    let ip := toFix 0 m e
    let fr := toFix w m e - ip * 2 ^ w
    let exact := if 0 ≤ e then true else m % 2 ^ (-e).toNat == 0
    if exact then .exact (.fin false 1 (if neg then -(ip : Int) else ip) false)
    else
      -- the fraction f of x as n + f with f in (0, 1)
      let (n, f) : Int × Nat := if neg then (-(ip : Int) - 1, 2 ^ w - fr) else ((ip : Int), fr)
      let lo := expFix w (f * ln2 w / 2 ^ w)
      .between w false lo (lo + 2 ^ 24) n

/-- log2 of a positive finite value. -/
def log2W (m : Nat) (e : Int) (w : Nat) : Enclosure :=
  let k := bitLen m - 1
  if m = 2 ^ k then .exact (FVal.ofInt (e + k))
  else
    let num := m - 2 ^ k
    let den := m + 2 ^ k
    let l := atanh2 w (num * 2 ^ w / den)
    -- log2 of the mantissa, from below and from above
    let lo : Nat := l * 2 ^ w / (ln2 w + 2 ^ 16)
    let hi : Nat := (l + 2 ^ 16) * 2 ^ w / ln2 w + 1
    let ip : Int := e + k
    let a : Int := ip * ((2 ^ w : Nat) : Int) + (lo : Int)
    let b : Int := ip * ((2 ^ w : Nat) : Int) + (hi : Int)
    if 0 ≤ a then .between w false a.toNat b.toNat 0 else .between w true (-b).toNat (-a).toNat 0

/-- tanh of a positive finite value. -/
def tanhW (m : Nat) (e : Int) (w : Nat) : Enclosure :=
  if magAtLeast m e 5 then .exact (.fin false (2 ^ 64 - 1) (-64) true)
  else
    let x := toFix w m e
    let y := 2 * x
    -- exp(2x) by sixteen-fold reduction: y / 64 lies below 1
    let t := expFix w (y / 64)
    let sq := fun (v : Nat) => v * v / 2 ^ w
    let elo := sq (sq (sq (sq (sq (sq t)))))
    let t' := t + 2 ^ 16
    let squ := fun (v : Nat) => v * v / 2 ^ w + 1
    let ehi := squ (squ (squ (squ (squ (squ t')))))
    let one := 2 ^ w
    let lo := (elo - one) * one / (elo + one)
    let hi := (ehi - one) * one / (ehi + one) + 1
    .between w false lo hi 0

/-- erf of a positive finite value. -/
def erfW (m : Nat) (e : Int) (w : Nat) : Enclosure :=
  if magAtLeast m e 3 then .exact (.fin false (2 ^ 64 - 1) (-64) true)
  else
    let x := toFix w m e
    let s := erfSum w w 0 x (x * x / 2 ^ w) 0
    let err : Int := (2 ^ 120 : Nat)
    let rp := isqrt (piFix w * 2 ^ w)
    let lo := 2 * (s - err).toNat * 2 ^ w / (rp + 2 ^ 16)
    let hi := 2 * (s + err).toNat * 2 ^ w / (rp - 2 ^ 16) + 1
    .between w false lo hi 0

/-- The value at the first precision, of w bits and its doubles, whose bounds agree; the lower bound at the last where none does, which no
argument is known to need (log entry 12). -/
def narrowing (f : Nat → Enclosure) : Nat → Nat → FVal
  | 0, w => (f w).low
  | k + 1, w => if (f w).decided then (f w).low else narrowing f k (2 * w)

/-- The exact function value (R375). -/
def sfuExact (fn : SfuFn) (x : FVal) : FVal :=
  let val := fun f => narrowing f 5 384
  match fn, x with
  | _, .nan => .nan
  | .rcp, x => divX (.fin false 1 0 false) x
  | .exp2, .inf n => if n then .zero false else .inf false
  | .exp2, .fin n m e _ => if m = 0 then FVal.ofInt 1 else val (exp2W n m e)
  | .log2, .inf n => if n then .nan else .inf false
  | .log2, .fin n m e _ => if m = 0 then .inf true else if n then .nan else val (log2W m e)
  | .rsqrt, .inf n => if n then .nan else .zero false
  | .rsqrt, .fin n m e _ =>
    if m = 0 then .inf n else if n then .nan
    else
      -- 1/√x = √(2^2k / x): a root of a quotient of 200 bits
      let k : Int := if e % 2 == 0 then 0 else 1
      let num := 2 ^ (400 + k.toNat + 2 * bitLen m)
      let q := num / m
      let r := isqrt q
      .fin false r (-((e + 400 + k + 2 * (bitLen m : Int)) / 2)) (!(r * r * m == num))
  | .tanh, .inf n => FVal.ofInt (if n then -1 else 1)
  | .tanh, .fin n m e _ =>
    if m = 0 then .zero n else (let v := val (tanhW m e); if n then v.negate else v)
  | .erf, .inf n => FVal.ofInt (if n then -1 else 1)
  | .erf, .fin n m e _ =>
    if m = 0 then .zero n else (let v := val (erfW m e); if n then v.negate else v)

/-- VSFU on one element: the function value rounded once. -/
def sfu (fn : SfuFn) (f : FFmt) (md : RMode) (r : W32) (fz : Bool) (x : FVal) : Nat := (narrow f md r false fz (sfuExact fn x)).1

end Sys2Proof.Machine
end

