-- ==== Sys2Proof/Machine/Vec.lean ====
section
/-! DEFINITION. Elements, shape, masks, sources and results of VA (R361 to R367, R209). -/

namespace Sys2Proof.Machine

/-- The physical register that a field names (R268). -/
def CC.phys (c : CC) (r : BitVec 6) : Nat := if r.toNat < 32 then r.toNat else 32 + (r.toNat - 32 + (c.sr 0x040).toNat) % 32

/-- A v register that a field names. -/
def AC.vreg (a : AC) (r : BitVec 6) : VWord := a.vec.vr (a.cc.phys r)

/-- Element `i`, in row-major order, of width w (R361). -/
def vElem (v : VWord) (w i : Nat) : Nat := (v.extractLsb' (8 * w * i) (8 * w)).toNat

/-- ROWS and COLS (R362). -/
def AC.rows (a : AC) : Nat := bits (a.cc.sr 0x041) 0 5
def AC.cols (a : AC) : Nat := bits (a.cc.sr 0x041) 8 5

/-- Element i of width w lies inside the shape (R362). -/
def AC.inShape (a : AC) (w i : Nat) : Bool :=
  decide (i / (64 / w) < a.rows ∧ (i % (64 / w) + 1) * w ≤ 4 * a.cols)

/-- An element's bit of a mask: that of its first byte (R363). -/
def maskAt (m : MWord) (w i : Nat) : Bool := m.getLsbD (w * i / 2)

/-- The gate of an instruction; a stage predicate that is false never comes here (R271). -/
def AC.gateMask (a : AC) (h : Head) : MWord := if Head.gate h < 8 then a.vec.mr (Head.gate h) else BitVec.allOnes 512

/-- An element inside the shape whose gate is true. -/
def AC.live (a : AC) (h : Head) (w i : Nat) : Bool := a.inShape w i && maskAt (a.gateMask h) w i

/-- Indices of the elements of a register. -/
def elemsOf (w : Nat) : List Nat := List.range (1024 / w)

/-- The bytes of a register from its elements; unwritten ones are zero. -/
def vData (w : Nat) (l : List (Option Nat)) : Nat := l.foldr (fun o acc => acc * 2 ^ (8 * w) + o.getD 0 % 2 ^ (8 * w)) 0

/-- The byte pairs of 1-byte elements that are written; the two of a pair are written together. -/
def pairWrites : List (Option Nat) → Nat
  | x :: _ :: r => pairWrites r * 2 + x.isSome.toNat
  | _ => 0

/-- The byte pairs that a list of elements writes. -/
def vWrites (w : Nat) (l : List (Option Nat)) : Nat :=
  match w with
  | 4 => l.foldr (fun o acc => acc * 4 + if o.isSome then 3 else 0) 0
  | 2 => l.foldr (fun o acc => acc * 2 + o.isSome.toNat) 0
  | _ => pairWrites l

/-- What an instruction of VA writes when it lands. -/
structure VRes where
  kind : Nat
  dest : Nat
  data : List Nat
  wmask : Nat
  dnf : Nat
  dcl : Nat
  xval : W64
deriving DecidableEq, Repr

/-- A result in one v register, from its elements. -/
def vOut (p w : Nat) (l : List (Option Nat)) : VRes := ⟨0, p, [vData w l], vWrites w l, 0, 0, 0⟩

/-- A result in a pair of v registers. -/
def vPair (p w : Nat) (l k : List (Option Nat)) : VRes :=
  ⟨1, p, [vData w l, vData w k], vWrites w l + vWrites w k * 2 ^ 512, 0, 0, 0⟩

/-- Elements inside the shape whose gate is true, each from its index. -/
def vMap (a : AC) (h : Head) (d : BitVec 6) (w : Nat) (g : Nat → Nat) : VRes :=
  vOut (a.cc.phys d) w ((elemsOf w).map fun i => if a.live h w i then some (g i) else none)

/-- Format and element width of a precision (R269). -/
def vFmt (bf : Bool) : FFmt := if bf then bf16 else fp32
def vWid (bf : Bool) : Nat := if bf then 2 else 4

/-- A floating-point source: a register's elements in the precision, or a broadcast (R365). -/
def AC.vfsrc (a : AC) (bf : Bool) : Src → Nat → FVal
  | .r n => fun i => decodeIeee (vFmt bf).p (vElem (a.vreg n) (vWid bf) i)
  | s => let v := a.va.fsrc s; fun _ => v

/-- An integer source: a register's elements of width w, or the low w bytes of a broadcast (R365). -/
def AC.visrc (a : AC) (w : Nat) : Src → Nat → Nat
  | .r n => fun i => vElem (a.vreg n) w i
  | s => let v := (a.va.src s).toNat % 2 ^ (8 * w); fun _ => v

/-- The stochastic hash of a destination element under SR (R208, Table 7-6). -/
def AC.vHash (a : AC) (m : RMode) (w i : Nat) : W32 :=
  match m with
  | .sr =>
    let cols := 4 * a.cols / w
    srHash ((a.cc.sr 0x0D0).setWidth 32) (a.cc.sr 0x0D1) (BitVec.ofNat 32 (i / (64 / w) * cols + i % (64 / w)))
  | _ => 0

/-- Round a value into the destination element i (R372, R213). -/
def AC.vRound (a : AC) (h : Head) (bf : Bool) (m : RMode) (i : Nat) (x : FVal) : Nat :=
  (narrow (vFmt bf) m (a.vHash m (vWid bf) i) false (Head.flush h) x).1

/-- Issue a result of latency `lat` in a cycle: it lands at the end of cycle + lat - 1 (R366); VSRCTR advances under SR
(R209). -/
def vaIssue (h : Head) (lat : Nat) (m : RMode) (cycle : Nat) (r : VRes) (a : AC) : AC :=
  let fl : Flight :=
    { land := cycle + lat - 1, sq := Head.squash h, kind := r.kind, dest := r.dest, give := Head.give h, dnf := r.dnf, dcl := r.dcl
      wmask := BitVec.ofNat 1024 r.wmask, data := r.data.map (BitVec.ofNat 8192 ·), xval := r.xval, pc := a.va.upc, bad := none }
  let a := { a with vec := { a.vec with flight := insFlight fl a.vec.flight } }
  match m with
  | .sr => { a with cc := a.cc.setSr 0x0D1 (a.cc.sr 0x0D1 + 1) }
  | _ => a

/-- Run a VA instruction with a result: `chk` names an operand that is illegal (R369). -/
def vaRun (h : Head) (i : Instr) (lat : Nat) (m : RMode) (chk : AC → Option W64) (f : AC → VRes) (s : State) : Res :=
  engRunN h i 1 0
    (fun n _ => do
      let s ← get
      match chk (s.ac n) with
      | some v => throw (.trap 0x02 v 0)
      | none => pure ())
    (fun n _ => do
      act fun s => s.modAc n fun a => vaIssue h lat m s.cycle (f a) a
      pure .seq) s

/-- No operand of the instruction can be illegal. -/
def legal (_ : AC) : Option W64 := none

end Sys2Proof.Machine
end

