-- ==== Sys2Proof/Machine/Vmem.lean ====
section
/-! DEFINITION. Vector loads and stores (R341 to R347) and the ring instructions of VS and the CC (R88 to R93, R347 to
R349). -/

namespace Sys2Proof.Machine

/-! ### Vector registers -/

/-- Row i of a register, as bytes. -/
def rowBytes (v : VWord) (i : Nat) : List Byte := leBytes 64 (v.extractLsb' (512 * i) 512).toNat

/-- A register from its rows; missing rows are zero. -/
def ofRows (rows : List (List Byte)) : VWord := BitVec.ofNat 8192 (leNat (rows.flatMap fun r => r))

/-- NR rows: FN, with 0 for 16 (R341). -/
def rowsOf (nr : BitVec 4) : Nat := if nr = 0 then 16 else nr.toNat

/-- Indices of a list at xC (R342). -/
def indexList (a : Agent) (va : W64) (nr : Nat) : M (List W64) := do
  let b ← readRange a va (4 * nr) 4
  pure ((elems 4 b).map fun v => (BitVec.ofNat 32 v).signExtend 64)

/-- Addresses of rows (R342). -/
def rowAddrs (base b : W64) (idx : List W64) : List W64 := idx.map fun i => base + b * i
def plainIdx (nr : Nat) : List W64 := (List.range nr).map fun i => BitVec.ofNat 64 i

/-- Checks of row addresses: range and alignment, in order (R323). -/
def rowChecks (al : Nat) (l : List W64) : M Unit := l.forM fun va => addrChecks va al

/-! ### Loads -/

/-- Load rows into vD: all pages translate before it is written (R342). -/
def loadRows (n : Nat) (v : BitVec 6) (addrs : List W64) : M Unit := do
  let ps ← addrs.mapM fun va => reach (.ac n 1) .read va.toNat 64
  let rows ← ps.mapM fun p => readPieces (.ac n 1) 4 p
  act fun s => s.modAc n fun a => { a with vec := a.vec.setV (a.cc.phys v) (ofRows rows) }

/-- VLD (R342). -/
def execVld (h : Head) (nr : BitVec 4) (v a : BitVec 6) (b : Src) (s : State) : Res :=
  let addrs := fun (n : Nat) (s : State) => rowAddrs (s.ureg n 1 a) (s.usrc n 1 b) (plainIdx (rowsOf nr))
  engRun h (.vld h nr v a b)
    (fun n _ => do rowChecks 4 (addrs n (← get)))
    (fun n _ => do
      loadRows n v (addrs n (← get))
      pure .seq) s

/-- VLDG (R342). -/
def execVldg (h : Head) (nr : BitVec 4) (v a : BitVec 6) (b : Src) (c : BitVec 6) (s : State) : Res :=
  engRun h (.vldg h nr v a b c)
    (fun n _ => do let s ← get; addrChecks (s.ureg n 1 c) 4)
    (fun n _ => do
      let s ← get
      let idx ← indexList (.ac n 1) (s.ureg n 1 c) (rowsOf nr)
      let addrs := rowAddrs (s.ureg n 1 a) (s.usrc n 1 b) idx
      rowChecks 4 addrs
      loadRows n v addrs
      pure .seq) s

/-- Lanes of VLDB: row and column, coordinates, and the addresses of those within the extents. -/
def vldbLanes (t : Tdt) (lanes i0 i1 i2 i3 : Nat) : List (Nat × Nat × List (W64 × Nat)) :=
  (List.range 16).flatMap fun r => (List.range lanes).map fun c =>
    (r, c, if t.inside (i0 + c) (i1 + r) i2 i3 then t.addrs (i0 + c) (i1 + r) i2 i3 else [])

/-- The result of VLDB's lanes from what they read: bits of the lanes in order, and the elements counted (R343). -/
def vldbOut (t : Tdt) (f : FOp) (fw : BitVec 32) (seed : W32) (i0 i1 i2 i3 : Nat)
    (l : List ((Nat × Nat × List (W64 × Nat)) × List (List Byte))) : List Nat × Nat :=
  l.foldl (fun (acc : List Nat × Nat) (x, raw) =>
    let (r, c, _) := x
    let (v, nf) := match raw with
      | [] => (FVal.zero false, false)
      | e :: sc => t.value (leNat e) (sc.head?.map leNat)
    let rnd := match f.mode with
      | .sr => srHash (seed ^^^ BitVec.ofNat 32 i3) (BitVec.ofNat 64 (i2 * 2 ^ 32 + i1 + r)) (BitVec.ofNat 32 (i0 + c))
      | _ => 0
    (acc.1 ++ [(narrow (if f.bf then bf16 else fp32) f.mode rnd (fw.getLsbD 6) (fw.getLsbD 5) v).1], acc.2 + nf.toNat)) ([], 0)

/-- Give back to each lane what was read for its addresses. -/
def dealReads : List (Nat × Nat × List (W64 × Nat)) → List (List Byte) → List ((Nat × Nat × List (W64 × Nat)) × List (List Byte))
  | [], _ => []
  | x :: r, b => (x, b.take x.2.2.length) :: dealReads r (b.drop x.2.2.length)

/-- VLDB (R343). -/
def execVldb (h : Head) (f : FOp) (v a b c : BitVec 6) (fw : BitVec 32) (s : State) : Res :=
  engRun h (.vldb h f v a b c fw)
    (fun n _ => do
      let s ← get
      let i := s.ureg n 1 a
      need (fmtWordOk (fw.setWidth 64) false) 0x02 (fw.setWidth 64) 0
      need (decide (i.toNat < 4096)) 0x02 i 0)
    (fun n _ => do
      let s ← get
      let i := (s.ureg n 1 a).toNat
      let xb := s.ureg n 1 b
      let xc := s.ureg n 1 c
      let (i0, i1, i2, i3) := (bits xb 0 32, bits xc 0 32, bits xc 32 32, bits xb 32 32)
      let t ← useTdt (.ac n 1) (match (s.ac n).cc.task with | some t => t.word 5 | none => 0) i
      let fam := bits (t.fmt.setWidth 64) 4 4
      need (fam == 0 || fam == 1 || fam == 6 || fam == 7) 0x02 (fw.setWidth 64) 0
      fmtMatch (fw.setWidth 64) 0 i t
      let lanes := vldbLanes t (if f.bf then 32 else 16) i0 i1 i2 i3
      let raw ← readMany (.ac n 1) (lanes.flatMap fun x => x.2.2)
      let (out, nf) := vldbOut t f fw ((s.ac n).cc.sr 0x0D0 |>.setWidth 32) i0 i1 i2 i3 (dealReads lanes raw)
      act fun s => s.modAc n fun a =>
        { a with
          vec := a.vec.setV (a.cc.phys v) (BitVec.ofNat 8192 (leNat (ofElems (if f.bf then 2 else 4) out)))
          cc := a.cc.satCount 0x044 nf }
      pure .seq) s

/-- Pieces of two ranges name common storage (R21). -/
def overlap (d : Nat) (p q : List (Nat × Nat × BitVec 2)) : Bool :=
  p.any fun (x, m, _) => q.any fun (y, n, _) => decide (canonPa d x < canonPa d y + n ∧ canonPa d y < canonPa d x + m)

/-- VLDM (R344). -/
def execVldm (h : Head) (a b : BitVec 6) (c : Src) (s : State) : Res :=
  engRun h (.vldm h a b c)
    (fun n _ => do
      let s ← get
      let len := s.usrc n 1 c
      need (len.toNat % 64 == 0 && decide (64 ≤ len.toNat ∧ len.toNat ≤ 65536)) 0x02 len 0
      let x := s.ureg n 1 a
      let y := s.ureg n 1 b
      need (x.toNat % 64 == 0) 0x02 x 0
      need (y.toNat % 64 == 0) 0x02 y 0
      addrRange x
      addrRange y)
    (fun n _ => do
      let s ← get
      let len := (s.usrc n 1 c).toNat
      let x := s.ureg n 1 a
      let y := s.ureg n 1 b
      let ps ← reach (.ac n 1) .read x.toNat len
      let pd ← ownScratch (.ac n 1) n .write y len
      need (!overlap (dieOf n) ps pd) 0x02 y 0
      let bytes ← readPieces (.ac n 1) 64 ps
      act fun s => writePieces (.ac n 1) y.toNat s pd bytes
      pure .seq) s

/-! ### Stores -/

/-- Store rows: every page translates and every access is checked before the first write (R345, R351). -/
def storeRows (n : Nat) (rows : List (List Byte)) (addrs : List W64) : M Unit := do
  let ps ← addrs.mapM fun va => reach (.ac n 3) .write va.toNat 64
  act fun s => (addrs.zip (ps.zip rows)).foldl (fun s (va, p, b) => writePieces (.ac n 3) va.toNat s p b) s

/-- Rows 0 to k - 1 of a register as VS reads them at issue (R368). -/
def State.vRows (s : State) (n : Nat) (v : BitVec 6) (k : Nat) : List (List Byte) :=
  let a := s.ac n
  (List.range k).map (rowBytes (a.vec.vr (a.cc.phys v)))

/-- VST (R345). -/
def execVst (h : Head) (nr : BitVec 4) (v a : BitVec 6) (b : Src) (s : State) : Res :=
  let addrs := fun (n : Nat) (s : State) => rowAddrs (s.ureg n 3 a) (s.usrc n 3 b) (plainIdx (rowsOf nr))
  engRun h (.vst h nr v a b)
    (fun n _ => do rowChecks 4 (addrs n (← get)))
    (fun n _ => do
      let s ← get
      storeRows n (s.vRows n v (rowsOf nr)) (addrs n s)
      pure .seq) s

/-- VSTS (R345): rows are written in ascending order, so the row of higher i stands. -/
def execVsts (h : Head) (nr : BitVec 4) (v a : BitVec 6) (b : Src) (c : BitVec 6) (s : State) : Res :=
  engRun h (.vsts h nr v a b c)
    (fun n _ => do let s ← get; addrChecks (s.ureg n 3 c) 4)
    (fun n _ => do
      let s ← get
      let idx ← indexList (.ac n 3) (s.ureg n 3 c) (rowsOf nr)
      let addrs := rowAddrs (s.ureg n 3 a) (s.usrc n 3 b) idx
      rowChecks 4 addrs
      storeRows n (s.vRows n v (rowsOf nr)) addrs
      pure .seq) s

/-- Access fault of a return-free atomic at a physical address that is not HBM (R346). -/
def notHbm (a : Agent) (pa : Nat) (va : W64) : Stop :=
  let (w0, w1) := accRecord a ((targetOf (region a.die pa)).getD 0xFFFF) 0xFE .atomic pa
  .access w0 w1 va

/-- The words that a VSTA sends to, all translated, then all of HBM, then all checked (R346). -/
def atomicWords (a : Agent) (addrs : List W64) : M (List Nat) := do
  let ps ← addrs.mapM fun va => do
    let (pa, _) ← xlate a .atomic va.toNat
    pure (va, pa)
  match ps.find? fun p => !inHbm p.2 with
  | some (va, pa) => throw (notHbm a pa va)
  | none =>
    let s ← get
    match ps.findSome? fun (va, pa) => (checkAccess s a .atomic pa 64).map (·.withVa va) with
    | some x => throw x
    | none => pure (ps.map fun p => canonPa a.die p.2)

/-- Send return-free atomics of a cluster to the kettles of their words (R131): an operation and a mask, with the words and their lanes. -/
def sendAtoms (n : Nat) (op : RfOp) (mask : BitVec 16) (l : List (Nat × List W32)) (s : State) : State :=
  l.foldl (fun s (pa, lanes) =>
    match homeKettle pa with
    | none => s
    | some q =>
      let k := smGet Kettle.reset s.kettles q
      let num := (s.ac n).io.vsta + 1
      ({ s with kettles := smSet s.kettles q { k with atomq := k.atomq ++ [KAtom.mk pa (.atom op lanes mask n num)] } }).modAc n fun a =>
        { a with io := { a.io with vsta := num } }) s

/-- The die and the home slice of a line, as one number (R85, R132). -/
def sliceOf (line : Nat) : Option Nat :=
  match region 0 (128 * line) with | .hbm d pc off => some (16 * d + homeSlice pc off) | _ => none

/-- Lines that the atomic line set of a home slice holds (R132). -/
def State.atomLines (s : State) (slice : Option Nat) : List Nat :=
  (s.kettles.flatMap fun k => k.2.atomq.map fun x => x.pa / 128).foldl
    (fun acc l => if acc.contains l ∨ sliceOf l ≠ slice then acc else l :: acc) []

/-- There is room for entries of words, in the queue of 1,024 entries of every kettle and in the set of 1,024 lines of every slice
(R132). -/
def State.atomRoom (s : State) (pas : List Nat) : Bool :=
  pas.all fun pa =>
    (match homeKettle pa with
    | some q => decide ((smGet Kettle.reset s.kettles q).atomq.length + (pas.filter fun x => homeKettle x == some q).length ≤ 1024)
    | none => true)
    && (let sl := sliceOf (pa / 128)
        let held := s.atomLines sl
        let more := (pas.map (· / 128)).foldl (fun acc l => if acc.contains l ∨ held.contains l ∨ sliceOf l ≠ sl then acc else l :: acc) []
        decide (more = [] ∨ held.length + more.length ≤ 1024))

/-- VSTA (R346): it waits while a kettle's queue or a slice's line set has no room (R132). -/
def execVsta (h : Head) (op : RfOp) (nr : BitVec 4) (v a b c : BitVec 6) (lanes : BitVec 16) (s : State) : Res :=
  engRun h (.vsta h op nr v a b c lanes)
    (fun n _ => do let s ← get; addrChecks (s.ureg n 3 c) 4)
    (fun n _ => do
      let s ← get
      let rows := s.vRows n v (rowsOf nr)
      let idx ← indexList (.ac n 3) (s.ureg n 3 c) (rowsOf nr)
      let addrs := rowAddrs (s.ureg n 3 a) (s.ureg n 3 b) idx
      rowChecks 64 addrs
      let pas ← atomicWords (.ac n 3) addrs
      let s ← get
      if !s.atomRoom pas then throw .wait
      act (sendAtoms n op (if h.len = .w3 then lanes else 0xFFFF) ((pas.zip rows).map fun (pa, r) => (pa, (elems 4 r).map (BitVec.ofNat 32 ·))))
      pure .seq) s

/-! ### Rings (R88 to R93) -/

/-- Words of a descriptor in the cluster's own scratch, read with strong loads; another place is the ring-descriptor
fault (R90). -/
def ringWords (a : Agent) (n : Nat) (k : AKind) (va : W64) (len : Nat) : M (Nat × List W64) := do
  let ps ← (pagePieces va.toNat len).mapM fun (v, m) => do
    let (pa, _) ← xlate a k v
    pure (pa, m)
  need (ps.all fun (pa, _) => match region (dieOf n) pa with | .scratch j _ => j == n | _ => false) 0x0F va 0
  let s ← get
  match ps.findSome? fun (pa, m) => (checkAccess s a k pa m).map (·.withVa va) with
  | some x => throw x
  | none =>
    let pa := match ps with | (p, _) :: _ => p | [] => 0
    let s := releaseRange a .ac pa len s
    let (b, s) := loadRange a (some (.home, (s.agent a).since)) pa len 8 s
    set s
    pure (pa, words64 b)

/-- A strong store of words of a descriptor. -/
def ringStore (a : Agent) (sc : Scope) (pa : Nat) (b : List Byte) : M Unit := act (strongStore a sc false pa b)

/-- Producer descriptor checks of R90 and R347, with the header words of the put. -/
def putOk (w : List W64) (h0 h1 : W64) : Bool :=
  let g := fun i => w.getD i 0
  let slotsz := bits (g 0) 32 16
  let nslot := bits (g 0) 16 8
  let ncons := bits (g 0) 0 5
  bits (g 0) 48 16 == 0 && bits (g 0) 24 8 == 0 && bits (g 0) 5 11 == 0 && bits (g 1) 6 26 == 0
    && (List.range 5).all (fun i => g (3 + i) == 0) && (List.range 8).all (fun i => g (24 + i) == 0)
    && (List.range 16).all (fun i => g (48 + i) == 0) && (List.range 16).all (fun j => bits (g (8 + j)) 52 8 == 0)
    && bits h0 32 32 == 0 && bits h0 1 15 == 0
    && decide (1 ≤ ncons ∧ ncons ≤ 16 ∧ 1 ≤ nslot ∧ nslot ≤ 64 ∧ slotsz ≠ 0 ∧ bits h1 0 32 + 32 ≤ slotsz * 128)
    && (List.range ncons).all (fun j => (g (8 + j)).getLsbD 63 && decide (bits (g (8 + j)) 60 3 ≤ 1))

/-- Bytes of a consumer copy's slots (R471). -/
def slotBytes (w : List W64) : Nat := bits (w.getD 0 0) 32 16 * 128

/-- Consumers of a descriptor: over the fabric or not, and the address of slot s of their copy. -/
def consumers (w : List W64) (slot : Nat) : List (Bool × Nat) :=
  let g := fun i => w.getD i 0
  (List.range (bits (g 0) 0 5)).map fun j =>
    (bits (g (8 + j)) 60 3 == 1, (bits (g (8 + j)) 0 52 + 128 + slot * bits (g 0) 32 16 * 128) % 2 ^ 52)

/-- The probes of a put over the fabric (R471), each of the whole slot's range: sent once, and waited for. A route that is not valid ends the
put. -/
def putProbes (n : Nat) (far : List Nat) (len : Nat) : M Unit := do
  let s ← get
  let mine := fun (x : FabSend) => x.item == .put n && x.isProbe
  if far.isEmpty then pure ()
  else if !(s.fab.any mine) then
    match far.find? fun a => !s.routeValid (dieOf n) (fabNode a) with
    | some a => let (w0, w1) := routeRecord (.ac n 3) a; throw (.trap 0x06 w0 w1)
    | none =>
      act fun s => far.foldl (fun s a => s.send (.put n) a (.probe len)) s
      throw .wait
  else if s.fab.any fun x => mine x && !x.acked then throw .wait
  else pure ()

/-- The put goes on, and its probes are forgotten. -/
def dropProbes (n : Nat) (s : State) : State := { s with fab := s.fab.filter fun x => !(x.item == .put n && x.isProbe) }

/-- Cycles since VS last found the slot taken, while it waits in this instruction for that (R91). -/
def ringWaited (n : Nat) (i : Instr) (s : State) : Nat :=
  let x := (s.ac n).vs
  match x.waitAt with
  | some c => if x.wait = some i then s.cycle - c else 0
  | none => 0

/-- RPUT (R347, R91). -/
def execRput (h : Head) (a b c : BitVec 6) (s : State) : Res :=
  let i := Instr.rput h a b c
  engRun h i
    (fun n _ => do
      let s ← get
      let xa := s.ureg n 3 a
      let xb := s.ureg n 3 b
      addrRange xa
      addrRange xb
      need (xa.toNat % 512 == 0) 0x02 xa 0
      need (xb.toNat % 64 == 0) 0x02 xb 0)
    (fun n _ => do
      let s ← get
      let xa := s.ureg n 3 a
      let xb := s.ureg n 3 b
      let (h0, h1) := (s.ac n).vs.pair c
      let (pa, w) ← ringWords (.ac n 3) n .atomic xa 512
      need (putOk w h0 h1) 0x0F xa 0
      let len := bits h1 0 32
      let w1 := w.getD 1 0
      let slot := bits w1 0 6
      let cons := consumers w slot
      let far := (cons.filter (·.1)).map (·.2)
      let near := (cons.filter fun x => !x.1).map (·.2)
      let src ← reach (.ac n 3) .read xb.toNat len
      let s ← get
      match near.findSome? fun p => checkAccess s (.ac n 3) .write p (32 + len) with
      | some x => throw x
      | none => pure ()
      putProbes n far (slotBytes w)
      let stalled := ringWaited n i (← get)
      if stalled ≠ 0 then ringStore (.ac n 3) .ac (pa + 0x10) (bytes64 (w.getD 2 0 + BitVec.ofNat 64 stalled))
      let s ← get
      let (m, s) := strongLoad (.ac n 3) .pkg false (pa + 0x100 + 2 * slot) 2 s
      set s
      if leNat m ≠ 0 then
        act fun s => s.modEng n .vs fun x => { x with waitAt := some s.cycle }
        throw .wait
      let sc : Scope := if far.isEmpty then .pkg else .fab
      relM (.ac n 3) sc
      act (dropProbes n)
      let data ← readPieces (.ac n 3) 64 src
      let hdr := bytes64 (pack [(32, bits w1 32 32), (0, bits h0 0 32)]) ++ bytes64 h1
      act fun s => near.foldl (fun s p =>
        writePieces (.ac n 3) noVa s ((granulePieces (len / 4096 + 2) (p + 32) len).map fun (x, m) => (x, m, 1)) data) s
      act fun s => if len = 0 then s else far.foldl (fun s p => s.send (.put n) (p + 32) (.write data false)) s
      ringStore (.ac n 3) .ac (pa + 0x100 + 2 * slot) (leBytes 2 (2 ^ bits (w.getD 0 0) 0 5 - 1))
      act (release (.ac n 3) sc)
      act fun s => near.foldl (fun s p => strongStore (.ac n 3) sc false (canonPa (dieOf n) p) hdr s) s
      act fun s => far.foldl (fun s p => s.send (.put n) p (.write hdr true)) s
      ringStore (.ac n 3) .ac (pa + 8)
        (bytes64 (pack [(32, (bits w1 32 32 + 1) % 2 ^ 32), (0, (slot + 1) % bits (w.getD 0 0) 16 8)]))
      pure .seq) s

/-- Consumer descriptor checks of R90. -/
def getOk (w : List W64) : Bool :=
  let g := fun i => w.getD i 0
  let nslot := bits (g 2) 16 8
  let slotsz := bits (g 2) 32 16
  bits (g 0) 52 12 == 0 && bits (g 1) 12 20 == 0 && bits (g 1) 6 2 == 0
    && bits (g 2) 48 16 == 0 && bits (g 2) 24 8 == 0 && bits (g 2) 0 16 == 0 && (w.drop 3).all (· == 0)
    && decide (1 ≤ nslot ∧ nslot ≤ 64 ∧ 1 ≤ slotsz ∧ slotsz ≤ 1024 ∧ bits (g 1) 0 6 < nslot)

/-- The consumer copy that RWAIT and RFREE name (R348): its place and words. -/
def consumerCopy (n : Nat) (k : AKind) (va : W64) : M (Nat × List W64) := do
  addrRange va
  need (va.toNat % 128 == 0) 0x02 va 0
  let (pa, w) ← ringWords (.ac n 0) n k va 128
  need (getOk w) 0x0F va 0
  pure (pa, w)

/-- RWAIT (R348, R92). -/
def execRwait (h : Head) (d a : BitVec 6) (s : State) : Res :=
  ccRun h (.rwait h d a) (fun n => do
    let s ← get
    let va := (s.ac n).cc.s a
    let (_, w) ← consumerCopy n .read va
    let w1 := w.getD 1 0
    let hva := va + BitVec.ofNat 64 (128 + bits w1 0 6 * bits (w.getD 2 0) 32 16 * 128)
    addrRange hva
    let b0 ← strongRead (.ac n 0) .ac hva 8
    if bits (le64 b0) 32 32 ≠ bits w1 32 32 then throw .wait
    act fun s => acquire (.ac n 0) .fab (acquire (.ac n 0) .pkg s)
    let b1 ← strongRead (.ac n 0) .ac (hva + 8) 8
    act fun s => s.modCC n fun c => (c.setS d (le64 b0)).setS (d + 1) (le64 b1)
    pure .seq) s

/-- PROD is a scratch-window PA; any other value is a fabric address (R471). -/
def prodFar (d : Nat) (w0 : W64) : Bool :=
  match region d (bits w0 0 52) with | .scratch .. => false | _ => true

/-- The clear of RFREE at a producer of this part (R92, R349): bit CIDX of MASK[GETIDX], or the ring-state fault. PROD is no VA, so a
record of its denial has none (R59). -/
def freeClear (n : Nat) (va : W64) (prod idx cidx : Nat) : M Unit := do
  let pa := prod + 0x100 + 2 * idx
  let s ← get
  match checkAccess s (.ac n 0) .write pa 2 with
  | some x => throw x
  | none =>
    let (old, s) := atomic (.ac n 0) .pkg false (canonPa (dieOf n) pa) 2
      (fun o => if (leNat o).testBit cidx then some (leBytes 2 (leNat o - 2 ^ cidx)) else none) s
    set s
    need ((leNat old).testBit cidx) 0x10 va 0

/-- The clear over the fabric (R471): an atomic at the producer's ingress, acknowledged or refused. -/
def freeFar (n : Nat) (prod idx cidx : Nat) : M Unit := do
  let s ← get
  match s.fab.find? fun x => x.item == .free n with
  | none =>
    if !s.routeValid (dieOf n) (fabNode prod) then
      let (w0, w1) := routeRecord (.ac n 0) prod
      throw (.trap 0x06 w0 w1)
    else
      act fun s => s.send (.free n) (prod + 0x100 + 2 * idx) (.clear cidx)
      throw .wait
  | some x => if x.acked then act fun s => s.dropSends (.free n) else throw .wait

/-- Every engine's timeline shows the counts noted at issue (R349). -/
def shownAll (l : Links) (counts : List Nat) : Bool :=
  ((List.range 5).zip counts).all fun (c, v) => decide (v ≤ l.shown c)

/-- RFREE (R349, R92). -/
def execRfree (h : Head) (a : BitVec 6) (s : State) : Res :=
  ccRun h (.rfree h a) (fun n => do
    let s ← get
    let i := Instr.rfree h a
    let va := (s.ac n).cc.s a
    let (pa, w) ← consumerCopy n .atomic va
    let counts := (s.noted n i).getD ((List.range 5).map (s.ac n).ln.issueCount)
    note n i counts
    if !shownAll (s.ac n).ln counts then throw .wait
    let w1 := w.getD 1 0
    let idx := bits w1 0 6
    let cidx := bits w1 8 4
    let prod := bits (w.getD 0 0) 0 52
    if prodFar (dieOf n) (w.getD 0 0) then freeFar n prod idx cidx else freeClear n va prod idx cidx
    ringStore (.ac n 0) .ac (pa + 8)
      (bytes64 (pack [(32, (bits w1 32 32 + 1) % 2 ^ 32), (8, cidx), (0, (idx + 1) % bits (w.getD 2 0) 16 8)]))
    pure .seq) s

end Sys2Proof.Machine
end

