-- ==== Sys2Proof/Machine/CopyI.lean ====
section
/-! DEFINITION. Copies (R159 to R161, R332 to R335), their events, and the waits for them. -/

namespace Sys2Proof.Machine

/-! ### The probe (R63, R333) -/

/-- Run an operation of a context of the cluster at the CC's instruction: a translation fault holds the CC, with a record
of that context (Table 2-10). -/
def probing {α : Type} (n : Nat) (who : Agent) (m : M α) : M α := fun s =>
  match m s with
  | .error (.xlate d cause k va lv epa ent) s =>
    let (tok, s) := s.addXlateWait who d cause k va lv epa ent
    .error .wait (s.modCC n fun c => { c with xl := some tok })
  | r => r

/-- Ranges translated, then all checked: the physical pieces of each. -/
def probeRanges (a : Agent) (l : List (AKind × Nat × Nat)) : M (List (List (Nat × Nat))) := do
  let ps ← l.mapM fun (k, va, len) => (pagePieces va len).mapM fun (v, n) => do
    let (pa, _) ← xlate a k v
    pure (k, v, pa, n)
  let s ← get
  match ps.findSome? fun r => r.findSome? fun (k, v, pa, n) => (checkAccess s a k pa n).map (·.withVa (BitVec.ofNat 64 v)) with
  | some x => throw x
  | none => pure (ps.map fun r => r.map fun (_, _, pa, n) => (pa, n))

/-- Rows of a copy: count, bytes, and row strides (Table 11-3). -/
structure CopyArgs where
  dst : W64
  src : W64
  recd : W64
  rows : Nat
  rowb : Nat
  dstr : W64
  srcr : W64
deriving DecidableEq, Repr

/-- Address of row j. -/
def rowVa (base stride : W64) (j : Nat) : W64 := base + stride * BitVec.ofNat 64 j

/-- Range checks of rows (R16, R323): none reaches beyond the address space. -/
def rowsInRange (base stride : W64) (rows len : Nat) : M Unit :=
  (List.range rows).forM fun j => do
    let va := rowVa base stride j
    need (decide (va.toNat + len ≤ 2 ^ 55)) 0x03 va 0

/-- Every byte of a copy's source and destination of this part is named once in one of them (R332). -/
def sharesStorage (d : Nat) (p q : List (Nat × Nat)) : Bool :=
  p.any fun (x, m) => q.any fun (y, n) => decide (canonPa d x < canonPa d y + n ∧ canonPa d y < canonPa d x + m)

/-- Steps of a CPY or CPYT from its checked operands (R333): the number of the copy goes to the destination. The copy acquires once, as its instruction
retires, also one that is held behind an earlier copy (R159; DESIGN CHOICE, log entry 124). -/
def issueCopy (n : Nat) (fab : Bool) (d : BitVec 6) (x : CopyArgs) : M Unit := do
  let sc := if fab then Scope.fab else .pkg
  let a := Agent.ac n 6
  addrRange x.src
  addrRange x.recd
  if !fab then addrRange x.dst
  rowsInRange x.src x.srcr x.rows x.rowb
  if !fab then rowsInRange x.dst x.dstr x.rows x.rowb
  let s ← get
  if 16 ≤ (s.ac n).io.copies.length then throw .wait
  relM (.ac n 0) sc
  let js := List.range x.rows
  let srcs := js.map fun j => (rowVa x.src x.srcr j).toNat
  let dsts := js.map fun j => (rowVa x.dst x.dstr j).toNat
  let far := if fab then [] else dsts.map fun v => (AKind.write, v, x.rowb)
  let ps ← probing n a (probeRanges a (srcs.map (fun v => (AKind.read, v, x.rowb)) ++ far ++ [(AKind.write, x.recd.toNat, 64)]))
  let sp := (ps.take x.rows).flatMap id
  let dp := if fab then dsts.map fun v => (v % 2 ^ 52, x.rowb) else ((ps.drop x.rows).take x.rows).flatMap id
  let rp := (ps.getLastD []).headD (0, 64)
  need (fab || !sharesStorage (dieOf n) sp dp) 0x02 x.dst 0
  act fun s =>
    let s := strongStore a sc false (canonPa (dieOf n) rp.1) (List.replicate 64 0) (release a sc s)
    let (k, s) := s.tlNumber n 5
    let vas := srcs.map (fun v => (v, x.rowb)) ++ (if fab then [] else dsts.map fun v => (v, x.rowb)) ++ [(x.recd.toNat, 64)]
    let launch := match (s.ac n).cc.task with | some t => t.launch | none => 0
    let c : Copy := ⟨k, fab, x.rowb * x.rows, sp, dp, vas, canonPa (dieOf n) rp.1, 0, false, 0, 0, 0, launch⟩
    (acquire a sc s).modAc n fun m =>
      { m with
        io := { m.io with copies := m.io.copies ++ [c] }
        ln := { m.ln with farCp := if fab then m.ln.farCp ++ [k] else m.ln.farCp }
        cc := m.cc.setS d (BitVec.ofNat 64 k) }

/-- CPY (R332, R333). -/
def execCpy (h : Head) (fab : Bool) (d a : BitVec 6) (s : State) : Res :=
  ccRun h (.cpy h fab d a) (fun n => do
    let s ← get
    let r := (s.ac n).cc.block a 4
    let g := fun i => r.getD i 0
    [g 0, g 1, g 2].forM fun v => need (v.toNat % 64 == 0) 0x02 v 0
    need ((g 3).toNat % 64 == 0 && decide (64 ≤ (g 3).toNat ∧ (g 3).toNat ≤ 2 ^ 36)) 0x02 (g 3) 0
    issueCopy n fab d ⟨g 0, g 1, g 2, 1, (g 3).toNat, 0, 0⟩
    pure .seq) s

/-- CPYT (R332, R333). -/
def execCpyt (h : Head) (fab : Bool) (d a : BitVec 6) (s : State) : Res :=
  ccRun h (.cpyt h fab d a) (fun n => do
    let s ← get
    let r := (s.ac n).cc.block a 6
    let g := fun i => r.getD i 0
    [g 0, g 1, g 2].forM fun v => need (v.toNat % 64 == 0) 0x02 v 0
    let rows := bits (g 3) 32 32
    let rowb := bits (g 3) 0 32
    need (decide (1 ≤ rows ∧ rows ≤ 2 ^ 20 ∧ rowb % 64 = 0 ∧ 64 ≤ rowb ∧ rowb ≤ 2 ^ 24)) 0x02 (g 3) 0
    need ((g 4).toNat % 64 == 0) 0x02 (g 4) 0
    need ((g 5).toNat % 64 == 0) 0x02 (g 5) 0
    need (decide (rows = 1 ∨ rowb ≤ (g 4).toNat)) 0x02 (g 4) 0
    issueCopy n fab d ⟨g 0, g 1, g 2, rows, rowb, g 4, g 5⟩
    pure .seq) s

/-! ### The copy context (R159 to R161, R334) -/

/-- Bytes of a chunk, and the chunks used (R160). -/
def Copy.chunk (c : Copy) : Nat := 64 * ((c.len + 8191) / 8192)
def Copy.used (c : Copy) : Nat := (c.len + c.chunk - 1) / c.chunk

/-- Bytes lo to hi - 1 of pieces laid end to end. -/
def slicePieces : List (Nat × Nat) → Nat → Nat → List (Nat × Nat)
  | [], _, _ => []
  | (pa, n) :: r, lo, hi =>
    let rest := slicePieces r (lo - n) (hi - n)
    if lo < n ∧ 0 < hi ∧ lo < hi then (pa + lo, min hi n - lo) :: rest else rest

/-- Source and destination of chunk k. -/
def Copy.srcAt (c : Copy) (k : Nat) : List (Nat × Nat) := slicePieces c.src (k * c.chunk) (min c.len ((k + 1) * c.chunk))
def Copy.dstAt (c : Copy) (k : Nat) : List (Nat × Nat) := slicePieces c.dst (k * c.chunk) (min c.len ((k + 1) * c.chunk))

/-- What a copy has still to read, and to write on this part. -/
def Copy.toRead (c : Copy) : List (Nat × Nat) := if c.cause ≠ 0 then [] else slicePieces c.src (c.done * c.chunk) c.len
def Copy.toWrite (c : Copy) : List (Nat × Nat) := if c.cause ≠ 0 ∨ c.fab then [] else slicePieces c.dst (c.done * c.chunk) c.len

/-- The next chunk of a copy is held behind an earlier copy of the queue (R161). -/
def copyHeld (d : Nat) (before : List Copy) (c : Copy) : Bool :=
  let rk := c.srcAt c.done
  let wk := if c.fab then [] else c.dstAt c.done
  before.any fun e => sharesStorage d wk e.toRead || sharesStorage d rk e.toWrite || sharesStorage d wk e.toWrite

/-- Replace the k-th copy. -/
def State.setCopy (s : State) (n k : Nat) (c : Copy) : State :=
  s.modAc n fun a => { a with io := { a.io with copies := a.io.copies.set k c } }

/-- The scope of a copy (Table 5-4), and the operation its writes belong to (R155). -/
def Copy.scope (c : Copy) : Scope := if c.fab then .fab else .pkg
def Copy.tag (n : Nat) (c : Copy) : OpTag := ⟨n, 5, c.num, c.launch⟩

/-- Words of a completion record, written as strong stores released at the copy scope. -/
def recordWord (n : Nat) (c : Copy) (i : Nat) (v : W64) (s : State) : State :=
  strongStore (.ac n 6) c.scope false (c.recPa + 8 * i) (bytes64 v) s

/-- Bits 64 w to 64 w + 63 of the chunk bits of a copy that has moved its first chunks (R160). -/
def chunkWord (done w : Nat) : W64 := BitVec.ofNat 64 (2 ^ (min done (64 * w + 64) - 64 * w) - 1)

/-- Chunk `c.done` has been written: its bit is set with release (R160), once what the release covers has been performed (R132, R166). -/
def chunkSet (n k : Nat) (c : Copy) (s : State) : State :=
  let s := release (.ac n 6) c.scope s
  if !s.settled c.scope (shares .quad (.ac n 6)) then s.setCopy n k { c with wrote := true }
  else
    let c := { c with done := c.done + 1, wrote := false }
    (recordWord n c ((c.done - 1) / 64) (chunkWord c.done ((c.done - 1) / 64)) s).setCopy n k c

/-- The VA of byte `off` of what a copy moves: of its source, or of its destination on this part. -/
def Copy.vaAt (c : Copy) (dst : Bool) (off : Nat) : Nat :=
  let rows := if c.fab then c.vas.length - 1 else (c.vas.length - 1) / 2
  match slicePieces ((if dst then c.vas.drop rows else c.vas).take rows) off (off + 1) with
  | (va, _) :: _ => va
  | [] => 0

/-- Pieces laid end to end, each with its place. -/
def placed : Nat → List (Nat × Nat) → List (Nat × Nat × Nat)
  | _, [] => []
  | off, (pa, n) :: r => (off, pa, n) :: placed (off + n) r

/-- The first refusal of the pieces of a copy's next chunk: its cause, record and VA (Table 11-4, R59). -/
def copyRefused (s : State) (n : Nat) (c : Copy) (dst : Bool) : Option (Nat × W64 × W64 × W64) :=
  let a := Agent.ac n 6
  let k : AKind := if dst then .write else .read
  (placed (c.done * c.chunk) (if dst then c.dstAt c.done else c.srcAt c.done)).findSome? fun (off, pa, m) =>
    let va := BitVec.ofNat 64 (c.vaAt dst off)
    match checkAccess s a k pa m with
    | some (.access w0 w1 _) => some (0x10, w0, w1, va)
    | some (.carve w0 w1 _) => some (0x0A, w0, w1, va)
    | _ => none

/-- A copy ends early (R334), once the ring has room for its record (R59). -/
def copyFails (n k : Nat) (c : Copy) (cause : Nat) (w0 w1 va : W64) (s : State) : State :=
  if s.ringFull (recordDie (.ac n 6) w0) then s
  else (s.addAccessRecord (.ac n 6) w0 w1 va).setCopy n k { c with cause := cause, acc0 := w0, acc1 := w1 }

/-- The receiving part refuses a chunk (R469, R470): the copy ends with the record it returned. -/
def copyNacked (n k : Nat) (c : Copy) (w0 w1 : W64) (s : State) : State :=
  (s.dropSends (.copy n c.num)).setCopy n k { c with cause := 0x10, acc0 := w0, acc1 := w1 }

/-- Read pieces of this part for the copy context. -/
def copyRead (n : Nat) (ps : List (Nat × Nat)) (s : State) : List Byte × State :=
  match readPieces (.ac n 6) 64 (ps.map fun p => (p.1, p.2, 3)) s with
  | .ok b s => (b, s)
  | .error _ s => ([], s)

/-- Send a chunk over the fabric, piece by piece; an invalid route ends the copy (R470). -/
def sendChunk (n k : Nat) (c : Copy) (data : List Byte) (s : State) : State :=
  let ps := c.dstAt c.done
  match ps.find? fun p => !s.routeValid (dieOf n) (fabNode p.1) with
  | some p => let (w0, w1) := routeRecord (.ac n 6) p.1; copyNacked n k c w0 w1 s
  | none => (ps.foldl (fun (x : State × List Byte) p => (x.1.send (.copy n c.num) p.1 (.write (x.2.take p.2) false), x.2.drop p.2)) (s, data)).1

/-- The k-th copy of a cluster moves its next chunk (R159 to R161); a chunk across the fabric is sent, and its bit set once
every packet has been acknowledged. -/
def copyChunk (n k : Nat) (s : State) : State :=
  let l := (s.ac n).io.copies
  match l[k]? with
  | none => s
  | some c =>
    if c.cause ≠ 0 ∨ c.used ≤ c.done ∨ copyHeld (dieOf n) (l.take k) c then s
    else
      let sent := s.fab.filter fun x => x.item == .copy n c.num
      if c.wrote then chunkSet n k c s
      else if !sent.isEmpty then (if sent.all (·.acked) then chunkSet n k c (s.dropSends (.copy n c.num)) else s)
      else match copyRefused s n c false with
        | some (cause, w0, w1, va) => copyFails n k c cause w0 w1 va s
        | none =>
          if c.fab then
            let (b, s) := copyRead n (c.srcAt c.done) s
            sendChunk n k c b s
          else match copyRefused s n c true with
            | some (cause, w0, w1, va) => copyFails n k c cause w0 w1 va s
            | none =>
              let (b, s) := copyRead n (c.srcAt c.done) s
              chunkSet n k c ((pieceWrites (dieOf n) (c.tag n) noVa ((c.dstAt c.done).map fun p => (p.1, p.2, 3)) b).foldl (addStore (.ac n 6)) s)

/-- The k-th copy has moved all its chunks, or ended early: it writes its completion, words 3 and 2 last, and completes on
TL.CP (R334). -/
def copyFinish (n k : Nat) (s : State) : State :=
  match (s.ac n).io.copies[k]? with
  | none => s
  | some c =>
    if c.cause = 0 ∧ c.done < c.used then s
    else if !(release (.ac n 6) c.scope s).settled c.scope (shares .quad (.ac n 6)) then release (.ac n 6) c.scope s
    else
      let s := release (.ac n 6) c.scope s
      let s := if c.cause = 0 then recordWord n c 1 (BitVec.allOnes 64) (recordWord n c 0 (BitVec.allOnes 64) s)
        else recordWord n c 5 c.acc1 (recordWord n c 4 c.acc0 s)
      let s := recordWord n c 3 (BitVec.ofNat 64 c.num) s
      let s := recordWord n c 2 (pack [(60, if c.cause = 0 then 1 else 2), (52, c.cause)]) s
      (s.dropSends (.copy n c.num)).modAc n (fun a => { a with io := { a.io with copies := a.io.copies.eraseIdx k } })
        |>.tlComplete n 5 c.num

/-- COPY_CHUNK_DONE (R160). -/
def execCopyChunkDone (n k : Nat) (s : State) : Res := .next (copyChunk n k s)

/-- COPY_COMPLETE (R334). -/
def execCopyComplete (n k : Nat) (s : State) : Res := .next (copyFinish n k s)

/-- Every copy of a cluster moves a chunk, and those that are done complete. -/
def copyTurn (n : Nat) (s : State) : State :=
  let k := (s.ac n).io.copies.length
  let s := (List.range k).foldl (fun s i => copyChunk n i s) s
  (List.range k).foldl (fun s i => copyFinish n (k - 1 - i) s) s

/-! ### CPYW (R335) -/

/-- CPYW's result from the record, if it is decided: the mask is met, or the copy has faulted. -/
def cpywTest (mask : Nat) (bm : List Byte) (st : List Byte) : Option Nat :=
  if leNat bm &&& mask = mask then some 1 else if leNat st / 2 ^ 60 = 2 then some 2 else none

/-- CPYW (R335). -/
def execCpyw (h : Head) (fab : Bool) (d a : BitVec 6) (b : Src) (c : BitVec 6) (s : State) : Res :=
  ccRun h (.cpyw h fab d a b c) (fun n => do
    let s ← get
    let i := Instr.cpyw h fab d a b c
    let sc := if fab then Scope.fab else .pkg
    let cc := (s.ac n).cc
    let va := cc.s a
    let mask := (cc.s c).toNat + (cc.s (c + 1)).toNat * 2 ^ 64
    let late := decide ((cc.src b).toNat ≤ s.waited n i)
    addrChecks va 16
    let bm ← strongRead (.ac n 0) sc va 16
    let st ← strongRead (.ac n 0) sc (va + 16) 8
    match cpywTest mask bm st with
    | some r =>
      act fun s => (acquire (.ac n 0) sc s).modCC n fun c => c.setS d (BitVec.ofNat 64 r)
      pure .seq
    | none =>
      if late then
        act fun s => s.modCC n fun c => c.setS d 0
        pure .seq
      else throw .wait) s

/-- Run the instruction that a CC waits in again, if a test selects it (Table 2-10, R287); an event that may be taken is taken before it (R441). -/
def rerun (n : Nat) (f : Instr → Option (State → Res)) (s : State) : Res :=
  match (s.ac n).cc.wait with
  | some w => if (s.ac n).cc.xl.isSome ∨ (s.ac n).cc.entry.isSome then .next s
    else match f w.instr with
      | some g => (match boundaryTrap n s with | some s => .next s | none => g { s with cur := .ac n 0 })
      | none => .next s
  | none => .next s

/-- CPYW_DONE: a waiting CPYW looks at its record again (R335). -/
def execCpywDone (n : Nat) (s : State) : Res :=
  rerun n (fun i => match i with | .cpyw h f d a b c => some (execCpyw h f d a b c) | _ => none) s

/-- CPYW_TIMEOUT: a waiting CPYW whose deadline has passed ends (R335); it tests its record first. -/
def execCpywTimeout (n : Nat) (s : State) : Res :=
  rerun n (fun i => match i with | .cpyw h f d a b c => some (execCpyw h f d a b c) | _ => none) s

end Sys2Proof.Machine
end

