-- ==== Sys2Proof/Machine/Tree.lean ====
section
/-! DEFINITION. Operators of reductions and the pairwise tree (R128, R217). -/

namespace Sys2Proof.Machine

/-- 2^d of R128, rounded to FP32: 1 at 0 and 0 at minus infinity. -/
def expE (d : FVal) : FVal :=
  match d with
  | .fin _ m _ _ =>
    if m = 0 then FVal.ofInt 1 else r32 (sfuExact .exp2 d)
  | .inf true => .zero false
  | .inf false => .inf false
  | .nan => .nan

/-- E_i of R128 for a child's maximum and the node's. -/
def weight (mi m : FVal) : FVal := if cmpX mi m = .eq then FVal.ofInt 1 else expE (addX .rne mi m.negate)

/-- Maximum and sum of a node of a max-and-sum tree, exact before rounding (R128). -/
def maxsumX (md : RMode) (l : List (FVal × FVal)) : FVal × FVal :=
  if l.any (fun x => x.1.isNan || x.2.isNan) then (.nan, .nan)
  else
    let m := l.foldl (fun m x => maxX m x.1) (.inf true)
    (m, sumExact md (l.map fun x => mulX x.2 (weight x.1 m)))

/-- One level of the pairwise tree (R217): a node with one present operand passes it unchanged. -/
def treeLevel {α : Type} (f : α → α → α) : List (Option α) → List (Option α)
  | some x :: some y :: r => some (f x y) :: treeLevel f r
  | some x :: none :: r => some x :: treeLevel f r
  | none :: y :: r => y :: treeLevel f r
  | [x] => [x]
  | [] => []

/-- The pairwise tree over leaves, of at most `k` levels (R217). -/
def pairTree {α : Type} (f : α → α → α) : Nat → List (Option α) → Option α
  | 0, l => l.headD none
  | k + 1, l => pairTree f k (treeLevel f l)

/-- Stable insertion: after every entry that does not follow the new one. -/
def insertBy {α : Type} (lt : α → α → Bool) (x : α) : List α → List α
  | [] => [x]
  | y :: r => if lt x y then x :: y :: r else y :: insertBy lt x r

/-- Stable sort by an order. -/
def sortBy {α : Type} (lt : α → α → Bool) (l : List α) : List α := l.foldl (fun acc x => insertBy lt x acc) []

end Sys2Proof.Machine
end

