-- ==== Sys2Proof/Machine/Kettle.lean ====
section
/-! DEFINITION. The kettle machine (R94 to R97, R103, R105, R125, R126 to R130): its registers, its memory, the end of a
command and the reduction tree. -/

namespace Sys2Proof.Machine

/-! ### Registers and lanes -/

def State.kettle (s : State) (q : Nat) : Kettle := smGet Kettle.reset s.kettles q
def State.modKettle (s : State) (q : Nat) (f : Kettle → Kettle) : State := { s with kettles := smSet s.kettles q (f (s.kettle q)) }

def Kettle.kr (k : Kettle) (r : BitVec 5) : KWord := smGet 0 k.k r.toNat
def Kettle.setK (k : Kettle) (r : Nat) (v : KWord) : Kettle := { k with k := smPut 0 k.k r v }
def Kettle.jr (k : Kettle) (r : BitVec 3) : W64 := smGet 0 k.j r.toNat
def Kettle.setJ (k : Kettle) (r : Nat) (v : W64) : Kettle := { k with j := smPut 0 k.j r v }

/-- Lanes of a register, and a register from its lanes (R94). -/
def lanesOf (w : KWord) : List Nat := (List.range 64).map fun i => (w.extractLsb' (32 * i) 32).toNat
def ofLanes (l : List Nat) : KWord := BitVec.ofNat 2048 (l.foldr (fun v a => a * 2 ^ 32 + v % 2 ^ 32) 0)
/-- Pairs of lanes as 64-bit values, and back (R94). -/
def pairsOf (w : KWord) : List Nat := (List.range 32).map fun i => (w.extractLsb' (64 * i) 64).toNat
def ofPairs (l : List Nat) : KWord := BitVec.ofNat 2048 (l.foldr (fun v a => a * 2 ^ 64 + v % 2 ^ 64) 0)

/-- A register of 256 bytes from memory. -/
def ofBytesK (b : List Byte) : KWord := BitVec.ofNat 2048 (leNat b)
def bytesK (w : KWord) : List Byte := leBytes 256 w.toNat

/-- FP32 results of kettles round under RNE (R116, R210). -/
def kf (x : FVal) : Nat := (toF32 .rne 0 false x).toNat
def kv (v : Nat) : FVal := decodeIeee 24 v

/-- A count that saturates at 0xFFFF_FFFF (Table 4-1). -/
def sat32 (v k : Nat) : Nat := min (v + k) 0xFFFFFFFF

/-! ### Channel offsets and ranges (R96, R98, R100) -/

/-- An offset is in range: bits 63:31 zero and bits 29:0 below the PC's size. -/
def offOk (o : Nat) : Bool := decide (o < 2 ^ 31 ∧ o % 2 ^ 30 < 0x30000000)

/-- Bytes of a PC lie within one range of a kind that a test admits (R100). -/
def inRange (words : List W64) (kinds : Nat → Bool) (o len : Nat) : Bool :=
  (List.range 4).any fun i =>
    let (k, st, n) := rangeOf words i
    k != 0 && kinds k && decide (st ≤ o ∧ o + len ≤ st + n)

def canRead (k : Nat) : Bool := k == 1 || k == 3
def canWrite (k : Nat) : Bool := k == 2 || k == 3

/-! ### Status records and the end of a command (R103, R105, R125) -/

/-- Words of a status record (Table 4-4). -/
def statusWords (q state cause kpc : Nat) (progress : W32) (nf cl l0 l1 : Nat) (p7 acc0 acc1 : W64) : List W64 :=
  [pack [(60, state), (52, cause), (45, kpc), (0, progress.toNat)], pack [(32, nf), (0, cl)], pack [(32, l0), (0, l1)], p7, acc0, acc1
   , pack [(56, q / 64), (48, q % 64)], 0]

/-- A kettle has ended its part of a command: its cluster counts it, and the last one ends the bypass of the command's lines (R107). -/
def kettleDone (q ac num : Nat) (s : State) : State :=
  let s := s.modAc ac fun a => { a with io := { a.io with nm := a.io.nm.map fun c => if c.num = num then { c with left := c.left.erase q } else c } }
  if (s.ac ac).io.nm.any fun c => c.num == num && !c.left.isEmpty then s
  else { s with bypass := s.bypass.filter fun x => !(x.1 == ac && x.2.1 == num) }

/-- Participants of a session: kettles whose bits are set in its masks (R126). -/
def Session.parts (x : Session) : List Nat :=
  (List.range 4).flatMap fun d => (List.range 64).filterMap fun q => if (x.key.getD (1 + d) 0).getLsbD q then some (64 * d + q) else none

/-- Contributions of a participant to a session so far. -/
def Session.count (x : Session) (q : Nat) : Nat := (x.contrib.filter fun c => c.2.1 == q).length

/-- Every command of a participant that has joined the session has ended (R126, R130; log entry 91). -/
def Session.over (x : Session) (q : Nat) : Bool :=
  let k := (x.joined.filter fun d => d == q / 64).length
  decide (1 ≤ k ∧ k ≤ (x.ended.filter fun e => e.1 == q).length)

/-- A participant's command has ended; the session closes once all have (R126, R130). -/
def endSession (serial q : Nat) (s : State) : State :=
  if serial = 0 then s
  else
    let l := s.sessions.map fun x => if x.serial = serial then { x with ended := x.ended ++ [(q, x.count q)] } else x
    { s with sessions := l.filter fun x => !(x.serial == serial && x.parts.all x.over) }

/-- A status record is written, and its kettle has ended its part (R103). -/
def KStatus.put (x : KStatus) (s : State) : State :=
  kettleDone x.kettle x.ac x.num (strongStore (.kettle x.kettle) .pkg false x.pa (x.words.flatMap bytes64) s)

/-- What a kettle released has been performed, and confirmed by the ports (R166). -/
def State.kettleSettled (s : State) (q : Nat) : Bool := s.settled .pkg (· == .kettle q)

/-- A kettle ends its part of a command with a status record, if it has one, with release at .pkg (R103): what the kettle sees is released before it,
and confirmed (R166). -/
def writeStatus (q ac num : Nat) (pa : Option Nat) (w : List W64) (s : State) : State :=
  match pa with
  | some pa =>
    let s := release (.kettle q) .pkg s
    let x : KStatus := ⟨q, pa, w, ac, num⟩
    if s.kettleSettled q then x.put s else { s with kstatus := s.kstatus ++ [x] }
  | none => kettleDone q ac num s

/-- Status records that waited are written once they may be (R166). -/
def statusTurn (s : State) : State :=
  s.kstatus.foldl (fun s x => if s.kettleSettled x.kettle then x.put { s with kstatus := s.kstatus.erase x } else s) s

/-- The running command of a kettle ends: pending atomics are applied, the status record written (R103, R125). -/
def kettleEnd (q state cause kpc : Nat) (acc0 acc1 : W64) (s : State) : State :=
  match (s.kettle q).run with
  | none => s
  | some c =>
    let s := s.applyAtoms q fun _ => true
    let k := s.kettle q
    let cnt := fun i => match k.loops[i]? with | some (_, _, n) => n | none => 0
    let w := statusWords q state cause kpc k.progress k.nfcnt k.clcnt (cnt 0) (cnt 1) (c.param.getD 7 0) acc0 acc1
    writeStatus q c.ac c.num c.statusPa w
      ((endSession c.session q s).modKettle q fun k => { k with run := none, abort := false, wave := none })

/-- The writes that the slice pass of a command brought to HBM enter its kettle's view (R108). -/
def seePassed (q : Nat) (passed : SMap Nat) (s : State) : State :=
  let m := s.agent (.kettle q)
  let got := passed.filter fun (k, id) => id != 0 && (eligible (inView m k) (s.versions k)).any fun v => v.id == id
  if got.isEmpty then s else s.setAgent (.kettle q) { m with view := smPutAll got m.view }

/-- A kettle takes the next command of its queue (R95, R108); its reductions go on from those it gave to the session before. -/
def kettleStart (q : Nat) (s : State) : State :=
  let k := s.kettle q
  match k.run, k.queue with
  | none, c :: r =>
    let given := match s.sessions.find? fun x => x.serial == c.session && c.session != 0 with | some x => x.count q | none => 0
    let k : Kettle :=
      { Kettle.reset with
        j := smPut 0 (smPut 0 [] 6 (BitVec.ofNat 64 c.rank)) 7 (BitVec.ofNat 64 (q % 64))
        atomq := k.atomq, run := some c, queue := r, contributed := given, received := given }
    seePassed q c.passed (acquire (.kettle q) .pkg { s with kettles := smSet s.kettles q k })
  | _, _ => s

/-! ### Running instructions -/

/-- Run an instruction of a kettle: where it goes on, or how it stops. -/
def kRun (f : Nat → M Nat) (s : State) : Res :=
  match s.cur with
  | .kettle q =>
    match (s.kettle q).run with
    | none => .refused .wrongUnit
    | some _ =>
      let kpc := (s.kettle q).kpc
      match f q s with
      | .ok pc s => .next (s.modKettle q fun k => { k with kpc := pc })
      | .error st s => .next (match s.ringed (.kettle q) st with
        | .wait | .posted => s
        | .trap c _ _ => kettleEnd q 3 c kpc 0 0 s
        | .access w0 w1 _ => kettleEnd q 3 4 kpc w0 w1 (s.addAccessRecord (.kettle q) w0 w1 0)
        | _ => kettleEnd q 3 4 kpc 0 0 s)
  | _ => .refused .wrongUnit

/-- An instruction that only changes the kettle's registers and goes on to the next. -/
def kPure (f : KCmd → Kettle → Kettle) (s : State) : Res :=
  kRun (fun q => do
    let s ← get
    match (s.kettle q).run with
    | some c => act fun s => s.modKettle q (f c)
    | none => pure ()
    pure ((s.kettle q).kpc + 1)) s

/-- A lane-wise result (R116, R117). -/
def kLanes (d : BitVec 5) (f : Kettle → List Nat) (s : State) : Res := kPure (fun _ k => k.setK d.toNat (ofLanes (f k))) s

/-- Lanes of source b. -/
def Kettle.srcB (k : Kettle) : KSrc → List Nat
  | .k n => lanesOf (k.kr n)
  | .imm v => List.replicate 64 v.toNat

/-! ### The tree (R126 to R130) -/

/-- A node of a tree over one lane (R128): sum or max of present children. -/
def laneNode (o : TreeOp) (l : List Nat) : Nat :=
  match o with
  | .sum => kf (sumExact .rne (l.map kv))
  | _ => kf (l.foldl (fun m v => maxX m (kv v)) (.inf true))

/-- One present child passes; two or more combine, lane by lane (R128). -/
def treeNode (o : TreeOp) (l : List (List KWord)) : Option (List KWord) :=
  match l with
  | [] => none
  | [x] => some x
  | _ =>
    match o with
    | .maxsum =>
      let ls := l.map fun x => ((lanesOf (x.getD 0 0)), lanesOf (x.getD 1 0))
      let out := (List.range 64).map fun i =>
        let (m, s) := maxsumX .rne (ls.map fun x => (kv (x.1.getD i 0), kv (x.2.getD i 0)))
        (kf m, kf s)
      some [ofLanes (out.map (·.1)), ofLanes (out.map (·.2))]
    | _ =>
      let ls := l.map fun x => lanesOf (x.getD 0 0)
      some [ofLanes ((List.range 64).map fun i => laneNode o (ls.map fun x => x.getD i 0))]

/-- A tree over leaves with groups of g, at most k levels (R127). -/
def treeRoot (o : TreeOp) (g : Nat) : Nat → List (Option (List KWord)) → Option (List KWord)
  | 0, l => l.headD none
  | k + 1, l => if l.length ≤ 1 then l.headD none
    else treeRoot o g k ((chunksOf (l.length + 1) g l).map fun c => treeNode o (c.filterMap id))

/-- EXTENT and SHAPE of a session (Table 4-2). -/
def Session.extent (x : Session) : Nat := bits (x.key.getD 0 0) 60 2
def Session.group (x : Session) : Nat := if (x.key.getD 0 0).getLsbD 62 then 4 else 2

/-- The leaf of a kettle (R127), and the number of leaves. -/
def Session.leaf (x : Session) (q : Nat) : Nat := match x.extent with | 0 => q % 32 | 1 => q % 64 | _ => q
def Session.leaves (x : Session) : Nat := match x.extent with | 0 => 32 | 1 => 64 | _ => 256

/-- A participant's contribution to reduction n. -/
def Session.given (x : Session) (n q : Nat) : Option (TreeOp × List KWord) :=
  (x.contrib.find? fun c => c.1 == n && c.2.1 == q).map fun c => c.2.2

/-- Every participant has contributed to reduction n, or ended without (R130). -/
def Session.complete (x : Session) (n : Nat) : Bool :=
  x.parts.all fun p => (x.given n p).isSome || (x.over p && decide (x.count p ≤ n))

/-- The operators given to reduction n agree (R129). -/
def Session.agreed (x : Session) (n : Nat) : Bool :=
  match x.contrib.filter fun c => c.1 == n with
  | [] => true
  | c :: r => r.all fun e => e.2.2.1 == c.2.2.1

/-- Root result of reduction n. -/
def Session.root (x : Session) (o : TreeOp) (n : Nat) : List KWord :=
  let leaf := fun i => (x.contrib.find? fun c => c.1 == n && x.leaf c.2.1 == i).map fun c => c.2.2.2
  (treeRoot o x.group 8 ((List.range x.leaves).map leaf)).getD []

/-- The open session of a serial number. -/
def State.session (s : State) (serial : Nat) : Option Session := s.sessions.find? fun x => x.serial == serial && serial != 0

/-! ### Turns -/

/-- What a kettle does in its turn. -/
def kettleTurn (q : Nat) (s : State) : Fetched :=
  let k := s.kettle q
  match k.run with
  | none => .done (kettleStart q s)
  | some c =>
    if k.abort ∧ k.wave.isNone then .done (kettleEnd q 4 7 k.kpc 0 0 s)
    else match c.prog[k.kpc]? with
      | none => .done (kettleEnd q 1 0 c.prog.length 0 0 s)
      | some w => match kdecode w with
        | some i => .run i { s with cur := .kettle q }
        | none => .done s

end Sys2Proof.Machine
end

