-- ==== Sys2Proof/Machine/Pot.lean ====
section
/-! DEFINITION. Pot hardware (06_pots.md): descriptors, the treatment of pours, rounds, reductions and outcomes. -/

namespace Sys2Proof.Machine

/-! ### Descriptors (Tables 6-1 to 6-4) -/

def Pot.w (p : Pot) (i : Nat) : W64 := p.desc.getD i 0
def Pot.op (p : Pot) : Nat := bits (p.w 0) 61 3
def Pot.flag (p : Pot) (i : Nat) : Bool := (p.w 0).getLsbD i
def Pot.n (p : Pot) : Nat := bits (p.w 0) 40 8
def Pot.k (p : Pot) : Nat := bits (p.w 0) 32 8
/-- Payload of a contribution in bytes, and blocks of 64 elements (Table 6-2). -/
def Pot.plen (p : Pot) : Nat := 64 * bits (p.w 0) 0 24
def Pot.nb (p : Pot) : Nat := bits (p.w 0) 0 24 / 4
/-- w[j], a signed exponent; w[0] is 0. -/
def Pot.weight (p : Pot) (j : Nat) : Int := if j = 0 then 0 else ((p.w 6).extractLsb' (8 * (j - 1)) 8).toInt

/-- Word k of a member's entry, and its fields (Table 6-3). -/
def memWord (m : List (List W64)) (i k : Nat) : W64 := (m.getD i []).getD k 0
def memValid (m : List (List W64)) (i : Nat) : Bool := (memWord m i 0).getLsbD 63
def memNode (m : List (List W64)) (i : Nat) : Nat := bits (memWord m i 0) 32 16
def memDie (m : List (List W64)) (i : Nat) : Nat := bits (memWord m i 0) 48 2
def setMem0 (m : List (List W64)) (i : Nat) (v : W64) : List (List W64) := m.modify i fun l => v :: l.drop 1

/-- Source bytes of a contribution for word 0 of a descriptor (Table 6-2). -/
def sourceBytes (w0 : W64) : Nat :=
  let l := bits w0 0 24
  64 * l + (if bits w0 61 3 = 1 then 64 * ((l / 4 + 63) / 64) else 0)

/-- The descriptor breaks Table 6-1 or R171. -/
def descBad (w : List W64) : Bool :=
  let g := fun i => w.getD i 0
  let w0 := g 0
  let op := bits w0 61 3
  let n := bits w0 40 8
  let k := bits w0 32 8
  let wt := fun j => ((g 6).extractLsb' (8 * j) 8).toInt
  bits w0 48 6 != 0 || bits w0 24 8 != 0 || bits (g 5) 55 9 != 0 || bits (g 6) 56 8 != 0 || bits (g 7) 32 32 != 0
    || bits (g 8) 55 9 != 0 || bits (g 9) 16 48 != 0 || bits (g 10) 55 9 != 0 || (w.drop 12).any (· != 0)
    || decide (4 < op) || decide (1 < bits w0 54 2) || (op != 3 && bits w0 54 2 != 0)
    || decide (n = 0 ∨ 64 < n) || decide (k = 0 ∨ n < k) || (w0.getLsbD 58 && k != n)
    || ((op == 1 || op == 2) && bits w0 0 24 % 4 != 0) || (op == 2 && w0.getLsbD 60)
    || (List.range 7).any (fun j => decide (wt j < -31 ∨ 0 < wt j))
    || (w0.getLsbD 57 && bits (g 7) 0 32 == 0) || ((op == 1 || op == 2) && bits (g 8) 0 55 == 0)

/-- The member table breaks Table 6-3 or R171. -/
def membersBad (w0 : W64) (m : List (List W64)) : Bool :=
  (List.range m.length).any fun i =>
    bits (memWord m i 0) 51 8 != 0 || memWord m i 3 != 0 || (!w0.getLsbD 60 && memValid m i && memNode m i != 0xFFFF)

/-- Slots in use that are not stale (R179). -/
def Pot.liveNow (p : Pot) : BitVec 64 :=
  BitVec.ofNat 64 ((List.range p.n).foldl (fun a i => if memValid p.members i && !p.stale.getLsbD i then a + 2 ^ i else a) 0)

/-- Slots of a mask. -/
def popMask (m : BitVec 64) : Nat := (List.range 64).foldl (fun a i => a + (m.getLsbD i).toNat) 0

/-- Slots filled on time, and those with late contributions (PRESENT, LATE). -/
def slotMask (l : List Contribution) (late : Bool) : BitVec 64 :=
  l.foldl (fun a c => if (c.lag == 0) == late then a else a ||| BitVec.twoPow 64 c.slot) 0

/-- Open the next round, empty (R172, R177, R179). -/
def Pot.openRound (p : Pot) (cycle wid : Nat) : Pot :=
  { p with
    live := p.liveNow
    need := if p.flag 58 then popMask p.liveNow else p.k
    contrib := []
    integ := 0
    fail := false
    opened := cycle
    since := wid }

/-- What naming a pot that is not held finds. -/
inductive Loaded where
  | bad
  | proxy (node : Nat) (va : W64)
  | pot (p : Pot)

/-- Read a descriptor and its member table into an entry (R171 to R173). A descriptor whose translation has been invalidated since is translated again
(R66). -/
def loadPot (d : Nat) (va : W64) (pa : Nat) (found : Option Nat) : M Loaded := do
  let a := Agent.pot d
  let raw ← match found with
    | some x => pure x
    | none => do
      let (x, _) ← xlate a .read va.toNat
      pure x
  let s ← get
  match checkAccess s a .read raw 256 with
  | some x => throw (x.withVa va)
  | none => pure ()
  act (acquire a .pkg)
  let b ← readPieces a 8 [(raw, 256, 3)]
  let w := words64 b
  let g := fun i => w.getD i 0
  if (g 0).getLsbD 56 then pure (.proxy (bits (g 9) 0 16) (addr55 (g 10)))
  else if descBad w then pure .bad
  else
    let mb ← readRange a (g 5) (32 * bits (g 0) 40 8) 8
    let m := chunksOf (mb.length + 1) 4 (words64 mb)
    if membersBad (g 0) m then pure .bad
    else
      let s ← get
      let p : Pot := ⟨va, pa, w, m, (g 1).extractLsb' 32 32, g 4, g 11, 0, 0, [], 0, false, [], [], 0, 0, [], false⟩
      pure (.pot (p.openRound s.cycle s.wid))

/-! ### The entries of a die -/

def State.pot? (s : State) (d pa : Nat) : Option Pot := (s.die d).pots.find? fun p => p.pa == pa
def State.modPot (s : State) (d pa : Nat) (f : Pot → Pot) : State :=
  s.modDie d fun x => { x with pots := x.pots.map fun p => if p.pa = pa then f p else p }

/-- A request's operation completes on TL.POT (R153); a member of another part is told over the fabric. -/
def potDone (ac num : Nat) (s : State) : State :=
  if ac < 256 then
    (s.modAc ac fun a => { a with io := { a.io with pours := a.io.pours.filter fun x => x.1 != num } }).tlComplete ac 7 num
  else s.reply (ac - 256) num .ack

/-- A part of a request is dropped with a pot fault: it completes, and the CC traps at its next boundary (R176); the part of a member of
another part is answered with the fault. -/
def dropPart (cause : Nat) (desc : W64) (x : PotPart) (s : State) : State :=
  if x.ac < 256 then (potDone x.ac x.num s).modCC x.ac fun c => { c with pend := c.pend ++ [⟨6, cause, desc, x.word, 0, x.pc, false⟩] }
  else s.reply (x.ac - 256) x.num (.fault cause)

/-- The same for pours that count in LAGFLT of the home die (Table 6-8). -/
def dropPour (d cause : Nat) (desc : W64) (x : PotPart) (s : State) : State :=
  (dropPart cause desc x s).setReg d 0x80010 (s.reg d 0x80010 + 1)

/-- A whole request is dropped (R171, R174, R176, R336). -/
def dropReq (cause : Nat) (r : PotReq) (s : State) : State := r.parts.foldl (fun s x => dropPart cause r.desc x s) s

/-! ### Payloads (R184, R188) -/

/-- 2^61 - 1. -/
def potM : Nat := 2 ^ 61 - 1

/-- Saturate the values of a SUMI payload (R184): bytes and count. -/
def satPayload (plen : Nat) (b : List Byte) : List Byte × Nat :=
  let vs := (elems 4 (b.take plen)).map fun v => readI24 (BitVec.ofNat 32 v)
  (ofInts 4 (vs.map (·.1)) ++ b.drop plen, (vs.filter (·.2)).length)

/-- Checksum of a payload (R188). -/
def potSum (op plen : Nat) (b : List Byte) : Nat :=
  if op = 1 then (elems 4 (b.take plen)).foldl (fun a v => (a + ((signedOf 4 v) % (potM : Int)).toNat) % potM) 0
  else (words64 b).foldl (fun a w => (a + w.toNat) % potM) 0

/-! ### Rounds (R175 to R180, R193, R194) -/

/-- What Table 6-5 says of a pour. -/
inductive Verdict where
  | drop (cause : Nat) (stale : Bool)
  | fill
  | fold (lag : Nat)
  | ahead
  | waits
deriving DecidableEq, Repr

def PotPart.slot (x : PotPart) : Nat := bits x.word 0 6
def PotPart.tag (x : PotPart) : W32 := x.word.extractLsb' 32 32

/-- Table 6-5, first row that matches. -/
def Pot.verdict (p : Pot) (x : PotPart) : Verdict :=
  let i := x.slot
  let m := memWord p.members i 0
  let after := (x.tag - m.extractLsb' 0 32).toNat
  let d := (p.round - x.tag).toNat
  if p.n ≤ i ∨ !memValid p.members i then .drop 0x15 false
  else if p.stale.getLsbD i then .drop 0x16 false
  else if m.getLsbD 50 ∧ (after = 0 ∨ 2 ^ 31 ≤ after) then .drop 0x17 false
  else if d = 0 then .fill
  else if d ≤ bits m 59 3 then .fold d
  else if d < 2 ^ 31 then .drop 0x16 true
  else if p.ahead.any fun y => y.slot == i then .waits
  else .ahead

/-- Joins and leaves that wait for a close take effect on the members and the stale slots (R193, R194), those of one slot in the order in which they
came (DESIGN CHOICE, log entry 119). -/
def Pot.applyOps (p : Pot) : List (List W64) × BitVec 64 :=
  p.ops.foldl (fun (m, st) (k, i, _, _) =>
    match k with
    | .join =>
      if memValid m i && !st.getLsbD i then (m, st)
      else (setMem0 m i ((memWord m i 0 ||| BitVec.twoPow 64 63) &&& ~~~ (BitVec.twoPow 64 50)), st &&& ~~~ (BitVec.twoPow 64 i))
    | .leave => (setMem0 m i (memWord m i 0 &&& ~~~ (BitVec.twoPow 64 63)), st)
    | _ => (m, st)) (p.members, p.stale)

/-- Close the open round (Table 6-6): the next opens at once, and the closed one waits for its outcomes. -/
def Pot.close (p : Pot) (cycle wid : Nat) : Pot :=
  let (after, st) := p.applyOps
  let c : Closing :=
    { tag := p.round, short := decide (popMask (slotMask p.contrib false) < p.need), fail := p.fail, contrib := p.contrib, integ := p.integ
      members := p.members
      joined := (List.range p.n).filter fun i => memValid after i && !memValid p.members i
      done := p.contrib.map (fun c => (c.ac, c.num)) ++ p.ops.map fun o => (o.2.2.1, o.2.2.2)
      round := p.round + 1, stale := st, closed := p.closed + 1, after := after, since := p.since, skip := [], stage := 0, found := [] }
  { p with members := after, stale := st, round := p.round + 1, closed := p.closed + 1, ops := [], closing := p.closing ++ [c] }
    |>.openRound cycle wid

def State.closeRound (s : State) (d pa : Nat) : State := s.modPot d pa fun p => p.close s.cycle s.wid

/-- A contribution joins the open round (R175, R188). -/
def acceptPart (d : Nat) (p : Pot) (x : PotPart) (lag : Nat) (s : State) : State :=
  let i := x.slot
  let c : Contribution := ⟨i, lag, x.data, x.word.getLsbD 31, bits x.word 16 15 + x.sat, x.ac, x.num⟩
  let m0 := (memWord p.members i 0 &&& 0xFFFFFFFF00000000 ||| (x.tag.setWidth 64)) ||| BitVec.twoPow 64 50
  s.modPot d p.pa fun p => { p with members := setMem0 p.members i m0, contrib := p.contrib ++ [c], fail := p.fail || x.bad }

/-- One pour is treated (Table 6-5, Table 6-6); it may close the round. A pour that must wait changes nothing. -/
def applyPart (d pa : Nat) (x : PotPart) (s : State) : State :=
  match s.pot? d pa with
  | none => s
  | some p =>
    let filled := popMask (slotMask p.contrib false)
    match p.verdict x with
    | .fill =>
      let s := acceptPart d p x 0 s
      if p.need ≤ filled + 1 then s.closeRound d pa else s
    | .fold lag => acceptPart d p x lag s
    | .drop cause st =>
      let s := dropPour d cause p.va x s
      if !st then s
      else
        let b := BitVec.twoPow 64 x.slot
        let s := s.modPot d pa fun p => { p with stale := p.stale ||| b }
        if p.flag 58 ∧ p.live.getLsbD x.slot ∧ !(slotMask p.contrib false).getLsbD x.slot then
          let s := s.modPot d pa fun p => { p with need := p.need - 1, live := p.live &&& ~~~ b }
          if p.need - 1 = filled then s.closeRound d pa else s
        else s
    | .ahead => s.modPot d pa fun p => { p with ahead := p.ahead ++ [x] }
    | .waits => s

/-- Pours held ahead whose round has opened are treated anew (R175); the first argument bounds their number. -/
def settlePot (d pa : Nat) : Nat → State → State
  | 0, s => s
  | f + 1, s =>
    match s.pot? d pa with
    | none => s
    | some p =>
      match p.ahead.find? fun x => decide ((p.round - x.tag).toNat < 2 ^ 31) with
      | none => s
      | some x => settlePot d pa f (applyPart d pa x (s.modPot d pa fun p => { p with ahead := p.ahead.filter (· != x) }))

/-- Treat one pour and what its close lets in. -/
def treat (d pa : Nat) (x : PotPart) (s : State) : State := settlePot d pa 65 (applyPart d pa x s)

/-- Close the open round, for a deadline or a PCLOSE. -/
def closeNow (d pa : Nat) (s : State) : State := settlePot d pa 65 (s.closeRound d pa)

/-- Steps 1 and 2 of retiring a pot (R172): pours held ahead that still wait are dropped, their slots not made stale. -/
def retirePot (d pa : Nat) (s : State) : State :=
  let s := closeNow d pa s
  match s.pot? d pa with
  | none => s
  | some p =>
    (p.ahead.foldl (fun s x => dropPour d 0x16 p.va x s) s).modPot d pa fun p => { p with ahead := [], retire := true }

/-! ### Reductions (R181 to R187) -/

/-- 32-bit lanes of a payload. -/
def lanes32 (b : List Byte) : List Nat := elems 4 b

/-- Non-finite elements among FP32 lanes. -/
def nonFinite (l : List Nat) : Nat := (l.filter fun v => (kv v).nonFinite).length

/-- Columns of equally long rows. -/
def columns {α : Type} (n : Nat) (rows : List (List α)) : List (List α) := (List.range n).map fun j => rows.filterMap (·[j]?)

/-- SUMF's node (R128) and late leaf (R183) of one element. -/
def sumNode (a b : Nat) : Nat := kf (sumExact .rne [kv a, kv b])
def lateLeaf (l : List (Int × Nat)) : Nat := kf (sumExact .rne (l.map fun (w, v) => mulX (kv v) (.scaled 1 w)))

/-- SUMF (R183): leaf 2i is slot i on time, leaf 2i + 1 its late leaf. -/
def sumF (p : Pot) (cs : List Contribution) : List Byte :=
  let rows := (List.range p.n).flatMap fun i =>
    let on := (cs.find? fun c => c.slot == i && c.lag == 0).map fun c => lanes32 c.data
    let late := (cs.filter fun c => c.slot == i && c.lag != 0).map fun c => (p.weight c.lag, lanes32 c.data)
    [on, if late.isEmpty then none
         else some ((List.range (p.plen / 4)).map fun j => lateLeaf (late.map fun (w, l) => (w, l.getD j 0)))]
  ofElems 4 ((List.range (p.plen / 4)).map fun j =>
    (pairTree sumNode 7 (rows.map fun r => r.map fun l => l.getD j 0)).getD 0)

/-- An element of MAX (R182). That of a single contribution passes with its bits, a NaN's too (DESIGN CHOICE, log entry 97). -/
def maxElem (f32 : Bool) (l : List Nat) : Nat :=
  match l with
  | [x] => x
  | l => if f32 then laneNode .max l else l.foldl max 0
/-- MAX and OR (R182). -/
def maxOr (p : Pot) (cs : List Contribution) : List Byte :=
  if p.op = 4 then ofElems 8 ((columns (p.plen / 8) (cs.map fun c => elems 8 c.data)).map fun l => l.foldl Nat.lor 0)
  else if p.flag 54 then ofElems 4 ((columns (p.plen / 4) (cs.map fun c => lanes32 c.data)).map (maxElem true))
  else ofElems 1 ((columns p.plen (cs.map fun c => elems 1 c.data)).map (maxElem false))

/-- Exponent codes of a SUMI contribution, one for each block (R184). -/
def Pot.codes (p : Pot) (c : Contribution) : List Nat := ((c.data.drop p.plen).take p.nb).map (·.toNat)

/-- The exponent code that the contributions of one lag share in a block (R186). Where they differ (R185), the code is free, whatever the
order of arrival (log entry 95). -/
def sharedCode (l : List (Nat × Nat)) : Nat :=
  match l with
  | [] => 0
  | (_, c) :: r =>
    if r.all fun x => x.2 == c then c
    else Config.sharedCode ((List.range 64).flatMap fun i => (l.filter fun x => x.1 == i).map (·.2)) % 255

/-- One block of SUMI (R186): 64 results, and whether it is NaN. -/
def sumBlock (p : Pot) (cs : List Contribution) (b : Nat) : List Nat × Bool :=
  let code := fun c => (p.codes c).getD b 0
  if cs.any fun c => code c == 0xFF then (List.replicate 64 fp32.nan, true)
  else
    let terms := (List.range 8).filterMap fun d =>
      let l := cs.filter fun c => c.lag == d
      match l with
      | [] => none
      | _ => some (p.weight d + (sharedCode (l.map fun c => (c.slot, code c)) : Int) - 127 - 23, l.map fun c => elems 4 ((c.data.drop (256 * b)).take 256))
    ((List.range 64).map fun j => kf (sumExact .rne (terms.map fun (e, rows) =>
      FVal.scaled (rows.foldl (fun a r => a + signedOf 4 (r.getD j 0)) 0) e)), false)

/-- SUMI (R186): destination bytes and values counted as non-finite. -/
def sumI (p : Pot) (cs : List Contribution) : List Byte × Nat :=
  let bs := (List.range p.nb).map (sumBlock p cs)
  (ofElems 4 (bs.flatMap (·.1)), 64 * (bs.filter (·.2)).length)

/-- Codes of contributions of one lag differ (R185). -/
def codesDiffer (p : Pot) (cs : List Contribution) : Bool :=
  p.op == 1 && cs.any fun c => cs.any fun e => c.lag == e.lag && p.codes c != p.codes e

/-- Late payloads that a GATHER keeps: of each slot the one with the smallest lag (R181). -/
def gatherLate (cs : List Contribution) : List Contribution :=
  cs.filter fun c => c.lag != 0 && !cs.any fun e => e.slot == c.slot && e.lag != 0 && decide (e.lag < c.lag)

/-- Pieces of a destination: offset and bytes (R180, R181). -/
def Pot.result (p : Pot) (cs : List Contribution) : List (Nat × List Byte) :=
  if cs.isEmpty then []
  else match p.op with
    | 0 => (cs.filter (·.lag == 0)).map (fun c => (c.slot * p.plen, c.data)) ++ (gatherLate cs).map fun c => ((p.n + c.slot) * p.plen, c.data)
    | 1 => [(0, (sumI p cs).1)]
    | 2 => [(0, sumF p cs)]
    | _ => [(0, maxOr p cs)]

/-- NFCNT of a round (R182, R183, R186). -/
def Pot.nfcnt (p : Pot) (cs : List Contribution) : Nat :=
  let n := match p.op with
    | 1 => (sumI p cs).2
    | 2 => cs.foldl (fun a c => a + nonFinite (lanes32 c.data)) 0
    | 3 => if p.flag 54 then cs.foldl (fun a c => a + nonFinite (lanes32 c.data)) 0 else 0
    | _ => 0
  min n 0xFFFFFFFF

/-- CHECKFAIL, NONFIN and SKIP of a closed round (R185, R188, R192). -/
def Closing.failed (c : Closing) (p : Pot) : Bool := c.fail || codesDiffer p c.contrib
def Closing.nonfin (c : Closing) (p : Pot) : Bool := c.contrib.any (·.nf) || decide (0 < p.nfcnt c.contrib)
def Closing.skips (c : Closing) (p : Pot) : Bool := c.nonfin p || c.short || c.failed p

/-- Step tag of a round. -/
def Closing.step (c : Closing) (p : Pot) : W32 := c.tag + (p.w 1).extractLsb' 0 32

/-- The outcome record (Table 6-7); `integ` is the INTEG bit of the member. -/
def Closing.outcome (c : Closing) (p : Pot) (integ : Bool) : List W64 :=
  let on := slotMask c.contrib false
  let lateN := (c.contrib.filter (·.lag != 0)).length
  let ldrop := if p.op = 0 then lateN - (gatherLate c.contrib).length else 0
  let lags := c.contrib.foldl (fun (a : List Nat) x => a.modify x.slot (max x.lag)) (List.replicate 64 0)
  let lagw := lags.reverse.foldl (fun a v => a * 8 + v) 0
  let clamps := c.contrib.foldl (fun a x => a + x.clamps) 0
  [pack [(32, c.tag.toNat), (31, (c.skips p).toNat), (30, c.short.toNat), (29, (c.failed p).toNat), (28, (c.nonfin p).toNat),
      (27, integ.toNat), (8, min ldrop 255), (0, popMask on)], on, slotMask c.contrib true]
    ++ wordsOf 3 lagw ++ [pack [(32, p.nfcnt c.contrib), (0, min clamps 0xFFFFFFFF)], pack [(32, (c.step p).toNat)]]

/-! ### Writing a closed round (R172, R190, R191) -/

/-- A tag of the outcome's accesses: the pot, a slot and what is accessed (0 destination, 1 outcome, 2 member table, 3 descriptor). -/
def closeTag (pa slot kind : Nat) : Nat := 8 * (pa * 64 + slot) + 4 + kind

/-- Members to which a closed round writes: VALID before the close; outcomes go to those it made valid too. -/
def Closing.toData (c : Closing) (p : Pot) : List Nat := (List.range p.n).filter fun i => memValid c.members i
def Closing.toOut (c : Closing) (p : Pot) : List Nat := (List.range p.n).filter fun i => memValid c.members i || c.joined.contains i

/-- An access of the outcome is given up: its member carries INTEG (R190). -/
def giveUp (d pa slot kind : Nat) (s : State) : State :=
  s.modPot d pa fun p =>
    { p with closing := p.closing.modify 0 fun c =>
        { c with skip := c.skip ++ [(slot, kind)], integ := if 2 ≤ kind then c.integ else c.integ ||| BitVec.twoPow 64 slot } }

/-- An access of an outcome: slot, what it is, and its ranges. -/
abbrev Todo := Nat × Nat × List (W64 × Nat)

/-- Try the translation and checks of one access of the outcome (R62), and keep what they find. -/
def tryAccess (d pa slot kind : Nat) (rs : List (W64 × Nat)) (s : State) : State :=
  s.runHeld (.pot d) (closeTag pa slot kind) (giveUp d pa slot kind) (giveUp d pa slot kind) do
    let ps ← rs.mapM fun (va, len) => do
      let ps ← reach (.pot d) .write va.toNat len
      pure (PotAccess.mk slot kind va.toNat ps)
    act fun s => s.modPot d pa fun p =>
      { p with closing := p.closing.modify 0 fun c => { c with found := (c.found.filter fun f => !(f.slot == slot && f.kind == kind)) ++ ps } }

/-- Try accesses of the oldest closed round of a pot, each a slot, what it is and its ranges, and go on with the round once none of them waits. -/
def tryAll (d pa : Nat) (todo : List Todo) (go : Pot → Closing → State → State) (s : State) : State :=
  let s := todo.foldl (fun s (i, k, rs) => tryAccess d pa i k rs s) s
  if (s.die d).waits.any fun w => w.who == .pot d && todo.any fun (i, k, _) => w.tag == closeTag pa i k then s
  else match s.pot? d pa with
    | some p => (match p.closing with | c :: _ => go p c s | [] => s)
    | none => s

/-- The staging area has been written by another agent since the round opened (R170). -/
def stageTouched (d : Nat) (p : Pot) (c : Closing) (s : State) : Bool :=
  let len := match p.op with | 1 => 4096 * p.nb | 2 => 16 * p.n * p.plen | _ => 0
  len != 0 && (pagePieces (bits (p.w 8) 0 55) len).any fun (v, n) =>
    match xlate (.pot d) .issue v s with
    | .ok (pa, _) _ =>
      let k := canonPa d pa
      s.hist.any fun (x, l) => decide (k ≤ x ∧ x < k + n) && l.any fun v => decide (c.since < v.id)
    | .error _ _ => false

/-- Bytes written to the destinations: what the round's rule gives, or free bytes where the staging area has been changed. -/
def resultBytes (touched : Bool) (seq : Nat) (b : List Byte) : List Byte :=
  if touched then (List.range b.length).map fun i => Config.stageByte (seq + i) else b

/-- Write bytes at a VA of this part, where the access of the slot has found it; one that has been given up is left out. -/
def putVa (d : Nat) (c : Closing) (slot kind : Nat) (va : W64) (b : List Byte) (s : State) : State :=
  if c.skip.contains (slot, kind) then s
  else match c.found.find? fun f => f.slot == slot && f.kind == kind && f.va == va.toNat with
    | some f => writePieces (.pot d) va.toNat s f.pieces b
    | none => s

/-- What a write-back stores (R172): ROUND, PRESENT, LATE, STALE, CLOSED and the members. The close of a round leaves the next one empty; the
last write-back of a pot that retires is of the pot as its held pours have left it. -/
structure BackState where
  round : W32
  present : BitVec 64
  late : BitVec 64
  stale : BitVec 64
  closed : W64
  members : List (List W64)
deriving DecidableEq, Repr

def Pot.back (p : Pot) (c : Closing) : BackState :=
  if p.retire && decide (p.closing.length ≤ 1) then
    ⟨p.round, slotMask p.contrib false, slotMask p.contrib true, p.stale, p.closed, p.members⟩
  else ⟨c.round, 0, 0, c.stale, c.closed, c.after⟩

/-- Word 0 of the members as the write-back stores it: STALE as the pot holds it. -/
def backWord (c : BackState) (i : Nat) : W64 :=
  let w := memWord c.members i 0
  if c.stale.getLsbD i then w ||| BitVec.twoPow 64 62 else w &&& ~~~ (BitVec.twoPow 64 62)

/-- The words of the descriptor that a write-back stores, by offset (Table 6-1). ROUND shares its 8-byte word with STEPOFF, which is stored as the pot
holds it (DESIGN CHOICE, log entry 117). -/
def Pot.backDesc (p : Pot) (b : BackState) : List (Nat × W64) :=
  [(8, pack [(32, b.round.toNat), (0, bits (p.w 1) 0 32)]), (0x10, b.present), (0x18, b.late), (0x20, b.stale), (0x58, b.closed)]

/-- Address of word 0 of a member's entry. -/
def Pot.memVa (p : Pot) (i : Nat) : W64 := p.w 5 + BitVec.ofNat 64 (32 * i)

/-- Write ROUND, PRESENT, LATE, STALE, CLOSED and the members' words back, with release at .pkg (R172). A write is of a whole 8-byte word: LAGLIM, DIE
and NODE of a member are stored as the pot holds them (DESIGN CHOICE, log entry 117). -/
def writeStateBack (d : Nat) (p : Pot) (c : Closing) (s : State) : State :=
  let b := p.back c
  let s := (p.backDesc b).foldl (fun s x => putVa d c 0 3 (p.va + BitVec.ofNat 64 x.1) (bytes64 x.2) s) s
  let s := (List.range p.n).foldl (fun s i => putVa d c 0 2 (p.memVa i) (bytes64 (backWord b i)) s) s
  release (.pot d) .pkg s

/-- Sends of the outcome of a pot. -/
def State.outSends (s : State) (d : Nat) (p : Pot) : List FabSend :=
  s.fab.filter fun x => match x.item with | .outcome e v _ _ => e == d && v == p.va.toNat | _ => false

/-- The outcome's sends to other parts are answered. -/
def State.outAnswered (s : State) (d : Nat) (p : Pot) : Bool := (s.outSends d p).all (·.acked)

/-- Change the oldest closed round of a pot. -/
def State.modClosing (s : State) (d pa : Nat) (f : Closing → Closing) : State :=
  s.modPot d pa fun p => { p with closing := p.closing.modify 0 f }

/-- A part of the outcome is refused on another part (R45, R190, R470): of a destination, the member's outcome carries INTEG, and of an outcome record,
those written to the other members after it do (log entry 118). -/
def refusePart (d pa slot part : Nat) (s : State) : State :=
  if part = 2 then s else giveUp d pa slot part s

/-- One write to a member on another part (R190, R470): it is sent, or refused where its route is not valid. -/
def toFar (d : Nat) (p : Pot) (node slot part : Nat) (addr : Nat) (what : FabWhat) (s : State) : State :=
  if s.routeValid d node then s.sendTo (.outcome d p.va.toNat slot part) node addr what else refusePart d p.pa slot part s

/-- Members on this part, and on others. -/
def Closing.here (c : Closing) (i : Nat) : Bool := memNode c.after i == 0xFFFF

/-- What the destinations of a closed round receive (R177, R180, R181). -/
def State.roundResult (s : State) (d : Nat) (p : Pot) (c : Closing) : List (Nat × List Byte) × State :=
  let touched := stageTouched d p c s
  let res := (p.result c.contrib).map fun (o, b) => (o, resultBytes touched s.seq b)
  (res, if touched then { s with seq := s.seq + res.foldl (fun a x => a + x.2.length) 0 } else s)

/-- The state of the pot and the destinations of a closed round are written (R172, R190): those of other parts leave over the fabric. -/
def writeData (d : Nat) (p : Pot) (c : Closing) (s : State) : State :=
  let (res, s) := (writeStateBack d p c s).roundResult d p c
  let s := (c.toData p).foldl (fun s i => res.foldl (fun s (o, b) =>
    let va := memWord c.members i 1 + BitVec.ofNat 64 o
    if c.here i then putVa d c i 0 va b s else toFar d p (memNode c.after i) i 0 va.toNat (.write b false) s) s) s
  s.modClosing d p.pa fun c => { c with stage := 1 }

/-- The step gate of the members' dies (R191). -/
def Closing.gate (c : Closing) (p : Pot) : Nat × W64 :=
  ((c.step p).toNat % 256, pack [(32, (c.step p).toNat), (0, if c.skips p then 2 else 1)])

/-- The outcome record of a member: INTEG where one of its own accesses was given up, or the outcome record of another member (R190). -/
def Closing.recordOf (c : Closing) (p : Pot) (i : Nat) : List Byte :=
  (c.outcome p (c.integ.getLsbD i || c.skip.any fun x => x.2 == 1 && x.1 != i)).flatMap bytes64

/-- The step gates and outcome records of members on other parts leave (R190, R191). -/
def sendOutcomes (d : Nat) (p : Pot) (c : Closing) (s : State) : State :=
  let (g, v) := c.gate p
  let s := if !p.flag 59 then s
    else (c.toData p).foldl (fun s i => let node := memNode c.members i
      if node = 0xFFFF then s else toFar d p node i 2 0 (.gate (memDie c.members i) g v) s) s
  let far := (c.toOut p).filter fun i => !c.here i
  let s := (far.filter fun i => !s.routeValid d (memNode c.after i)).foldl (fun s i => refusePart d p.pa i 1 s) s
  let c := (((s.pot? d p.pa).map (·.closing)).getD []).headD c
  let s := (far.filter fun i => s.routeValid d (memNode c.after i)).foldl (fun s i =>
    toFar d p (memNode c.after i) i 1 (memWord c.after i 2).toNat (.write (c.recordOf p i) true) s) s
  s.modClosing d p.pa fun c => { c with stage := 2 }

/-- The step gates and outcome records of members on this part are written, with one release at .fab (R190, R191). -/
def writeOutcomes (d : Nat) (p : Pot) (c : Closing) (s : State) : State :=
  let (g, v) := c.gate p
  let s := if !p.flag 59 then s
    else (c.toData p).foldl (fun s i => if memNode c.members i = 0xFFFF then gateWrite (memDie c.members i) g v s else s) s
  let s := (c.toOut p).foldl (fun s i => if c.here i then putVa d c i 1 (memWord c.after i 2) (c.recordOf p i) s else s) s
  release (.pot d) .fab (s.modClosing d p.pa fun c => { c with stage := 3 })

/-- The operations of a closed round complete, and a pot that retires is freed with its last round (R172, R190). Those of pours that filled
or were folded into the round still open then complete with it (DESIGN CHOICE, log entry 98). -/
def finishClose (d : Nat) (p : Pot) (c : Closing) (s : State) : State :=
  let s := c.done.foldl (fun s x => potDone x.1 x.2 s) { s with fab := s.fab.filter fun x => !(s.outSends d p).contains x }
  let s := s.modPot d p.pa fun p => { p with closing := p.closing.drop 1 }
  match s.pot? d p.pa with
  | some q =>
    if q.retire ∧ q.closing.isEmpty then
      let s := q.contrib.foldl (fun s x => potDone x.ac x.num s) s
      s.modDie d fun x => { x with pots := x.pots.filter fun e => e.pa != p.pa }
    else s
  | none => s

/-- The accesses of the outcome that still stand: the state of the pot and the destinations on this part, and the outcome records on this part. -/
def Closing.dataTodo (c : Closing) (p : Pot) : List Todo :=
  let res := p.result c.contrib
  let state : List Todo :=
    [(0, 3, (p.backDesc (p.back c)).map fun x => (p.va + BitVec.ofNat 64 x.1, 8)), (0, 2, (List.range p.n).map fun i => (p.memVa i, 8))]
  let data : List Todo :=
    ((c.toData p).filter c.here).map fun i => (i, 0, res.map fun x => (memWord c.members i 1 + BitVec.ofNat 64 x.1, x.2.length))
  (state ++ data).filter fun x => !c.skip.contains (x.1, x.2.1)
def Closing.outTodo (c : Closing) (p : Pot) : List Todo :=
  ((c.toOut p).filter fun i => c.here i && !c.skip.contains (i, 1)).map fun i => (i, 1, [(memWord c.after i 2, 64)])

/-- The oldest closed round of a pot goes on from a stage, if it stands there and what it has sent is answered. -/
def outcomeStage (d pa k : Nat) (go : Pot → Closing → State → State) (s : State) : State :=
  match s.pot? d pa with
  | some p => (match p.closing with
    | c :: _ => if c.stage = k ∧ s.outAnswered d p then go p c s else s
    | [] => s)
  | none => s

/-- The oldest closed round of a pot (R172, R190): the pot's state and the destinations are written, then the gates and outcomes of members on other
parts leave, then those of this part are written, as far as accesses and answers allow; and it completes once all that has been performed. The
outcome records of this part are tried before those of other parts leave, so that one that is given up is told in all the others. -/
def outcomeStep (d pa : Nat) (s : State) : State :=
  let s := outcomeStage d pa 0 (fun p c s => tryAll d pa (c.dataTodo p) (writeData d) s) s
  let s := outcomeStage d pa 1 (fun p c s => tryAll d pa (c.outTodo p) (sendOutcomes d) s) s
  let s := outcomeStage d pa 2 (fun p c s => tryAll d pa (c.outTodo p) (writeOutcomes d) s) s
  outcomeStage d pa 3 (fun p c s => if s.settled .fab (· == .pot d) then finishClose d p c s else s) s

end Sys2Proof.Machine
end

