-- ==== Sys2Proof/Machine/PotI.lean ====
section
/-! DEFINITION. POUR, PWAIT, PJOIN, PLEAVE and PCLOSE (R336 to R338), the path of a request to its pot (R173, R174, R496, R498), and the
events of pots. -/

namespace Sys2Proof.Machine

/-! ### Instructions -/

/-- Number an operation on TL.POT and queue it at the pot hardware of the cluster's die. -/
def queuePot (n : Nat) (kind : PotKind) (desc src word : W64) (fab : Bool) (d : BitVec 6) (s : State) : State :=
  let (k, s) := s.tlNumber n 7
  let a := s.ac n
  let launch := match a.cc.task with | some t => t.launch | none => 0
  let x : PotPart := ⟨n, k, launch, a.cc.pc, word, [], 0, false⟩
  let r : PotReq := ⟨kind, desc, 0, none, src, fab, none, kind != .pour, false, [x], 0⟩
  let s := s.modAc n fun a =>
    { a with
      io := { a.io with pours := if kind = .pour then a.io.pours ++ [(k, launch)] else a.io.pours }
      cc := a.cc.setS d (BitVec.ofNat 64 k) }
  s.modDie (dieOf n) fun x => { x with potQ := x.potQ ++ [r] }

/-- A descriptor address (R336, R338). -/
def descAddr (v : W64) : M Unit := do
  need (v.toNat % 256 == 0) 0x02 v 0
  addrRange v

/-- POUR (R336). -/
def execPour (h : Head) (fab : Bool) (d a b : BitVec 6) (c : Src) (s : State) : Res :=
  ccRun h (.pour h fab d a b c) (fun n => do
    let s ← get
    let cc := (s.ac n).cc
    descAddr (cc.s a)
    need ((cc.s b).toNat % 64 == 0) 0x02 (cc.s b) 0
    addrRange (cc.s b)
    if 16 ≤ (s.ac n).io.pours.length then throw .wait
    relM (.ac n 0) (if fab then .fab else .pkg)
    act (queuePot n .pour (cc.s a) (cc.s b) (cc.src c) fab d)
    pure .seq) s

/-- The awaited tag has been reached (R337). -/
def tagReached (w : W64) (b : W64) : Bool := decide ((w.extractLsb' 32 32 - b.setWidth 32).toNat < 2 ^ 31)

/-- PWAIT (R337). -/
def execPwait (h : Head) (fab : Bool) (d a : BitVec 6) (b : Src) (s : State) : Res :=
  ccRun h (.pwait h fab d a b) (fun n => do
    let s ← get
    let sc := if fab then Scope.fab else .pkg
    let va := (s.ac n).cc.s a
    let tag := (s.ac n).cc.src b
    need (va.toNat % 64 == 0) 0x02 va 0
    addrRange va
    let w ← strongRead (.ac n 0) sc va 8
    if tagReached (le64 w) tag then
      act fun s => (acquire (.ac n 0) sc s).modCC n fun c => c.setS d (le64 w)
      pure .seq
    else throw .wait) s

/-- PWAIT_DONE: a waiting PWAIT looks at its record again (R337). -/
def execPwaitDone (n : Nat) (s : State) : Res :=
  rerun n (fun i => match i with | .pwait h f d a b => some (execPwait h f d a b) | _ => none) s

/-- PJOIN (R338, R193). -/
def execPjoin (h : Head) (d a : BitVec 6) (b : Src) (s : State) : Res :=
  ccRun h (.pjoin h d a b) (fun n => do
    let s ← get
    let cc := (s.ac n).cc
    descAddr (cc.s a)
    need (decide ((cc.src b).toNat < 64)) 0x02 (cc.src b) 0
    act (queuePot n .join (cc.s a) 0 (cc.src b) false d)
    pure .seq) s

/-- PLEAVE (R338, R194). -/
def execPleave (h : Head) (d a : BitVec 6) (b : Src) (s : State) : Res :=
  ccRun h (.pleave h d a b) (fun n => do
    let s ← get
    let cc := (s.ac n).cc
    descAddr (cc.s a)
    need (decide ((cc.src b).toNat < 64)) 0x02 (cc.src b) 0
    act (queuePot n .leave (cc.s a) 0 (cc.src b) false d)
    pure .seq) s

/-- PCLOSE (R338). -/
def execPclose (h : Head) (d a : BitVec 6) (s : State) : Res :=
  ccRun h (.pclose h d a) (fun n => do
    let s ← get
    let cc := (s.ac n).cc
    descAddr (cc.s a)
    act (queuePot n .close (cc.s a) 0 0 false d)
    pure .seq) s

/-- PCLOSE with the retire option (R338, R172). -/
def execPcloseRetire (h : Head) (d a : BitVec 6) (s : State) : Res :=
  ccRun h (.pcloseRetire h d a) (fun n => do
    let s ← get
    let cc := (s.ac n).cc
    descAddr (cc.s a)
    act (queuePot n .retire (cc.s a) 0 0 false d)
    pure .seq) s

/-! ### The path of a request -/

/-- Cluster and number of a request, which name it. -/
def PotReq.key (r : PotReq) : Nat × Nat := match r.parts with | x :: _ => (x.ac, x.num) | [] => (0, 0)
/-- Tag of an access for a request: 0 its descriptor, 1 its source, 2 the translation of its descriptor. -/
def PotReq.tag (r : PotReq) (k : Nat) : Nat := 8 * (r.key.1 + 1024 * r.key.2) + k

/-- Replace a request at its home, or take it away. -/
def State.modReq (s : State) (d : Nat) (r : PotReq) (f : PotReq → Option PotReq) : State :=
  s.modDie d fun x => { x with potIn := x.potIn.filterMap fun y => if y.key = r.key then f y else some y }
def State.endReq (s : State) (d : Nat) (r : PotReq) : State := s.modReq d r fun _ => none

/-- The pot hardware of a die translates the descriptor of its oldest request, which gives the home die, and is checked for
I on target 24 there (R174, R338); the request then stands at its home. -/
def potAdmit (e : Nat) (s : State) : State :=
  match (s.die e).potQ with
  | [] => s
  | r :: _ =>
    let pop := fun (s : State) => s.modDie e fun x => { x with potQ := x.potQ.drop 1 }
    let bad := fun (s : State) => dropReq 0x14 r (pop s)
    s.runHeld (.pot e) (r.tag 2) bad bad do
      let (pa, _) ← xlate (.pot e) .read r.desc.toNat
      match region e pa with
      | .hbm h _ _ =>
        let s ← get
        match checkAccess s (.pot e) .issue (0x30000000000 + h * 0x1000000 + 0x80000) 8 with
        | some x => throw (x.withVa r.desc)
        | none => act fun s => (pop s).modDie h fun x => { x with potIn := x.potIn ++ [{ r with pa := canonPa e pa, raw := some pa }] }
      | _ => act bad

/-- Tell a home on another part that a pour will not come (R470, R498). The notice waits while its route is not valid (DESIGN CHOICE, log
entry 94). -/
def sendNotice (e node : Nat) (va desc : W64) (parts : List PotPart) (s : State) : State :=
  s.sendTo (.notice e) node va.toNat (.pour .pour desc true (parts.map fun x => { x with data := [] }) 0 0)

/-- The source of a pour cannot be read (R498): the pour completes without a trap, and the home, on this part or another, sets INTEG for
its slot in the open round. -/
def sourceLost (d : Nat) (r : PotReq) (s : State) : State :=
  let s := r.parts.foldl (fun s x => potDone x.ac x.num s) (s.endReq d r)
  match r.proxy with
  | some (node, va, _) => sendNotice (dieOf r.key.1) node va r.desc r.parts s
  | none => r.parts.foldl (fun s x => s.modPot d r.pa fun p => { p with integ := p.integ ||| BitVec.twoPow 64 x.slot }) s

/-- Read a pour's source (R163, R174, R184, R188). -/
def readSource (d e : Nat) (r : PotReq) (w0 : W64) : M Unit := do
  let op := bits w0 61 3
  let plen := 64 * bits w0 0 24
  act (acquire (.pot e) (if r.fab then .fab else .pkg))
  let b ← readRange (.pot e) r.src (sourceBytes w0) 8
  let (b, k) := if op = 1 then satPayload plen b else (b, 0)
  act fun s => s.modReq d r fun y =>
    some { y with ready := true, sum := potSum op plen b, parts := y.parts.map fun x => { x with data := b, sat := k } }

/-- A pour across the fabric whose route is not valid is dropped with INTEG in its outcome, and other requests end (R470). -/
def unrouted (e node : Nat) (va desc : W64) (kind : PotKind) (lost : Bool) (parts : List PotPart) (s : State) : State :=
  let s := parts.foldl (fun s x => potDone x.ac x.num s) s
  if kind = .pour ∧ !lost then sendNotice e node va desc parts s else s

/-- A request whose descriptor is a proxy goes over the fabric to its home part, with its checksum (R173, R188); an invalid route ends
it (R470). -/
def sendReq (d e : Nat) (r : PotReq) (node : Nat) (va w0 : W64) (s : State) : State :=
  let s := s.endReq d r
  if s.routeValid e node then
    s.sendTo (.pour r.key.1 r.key.2) node va.toNat
      (.pour r.kind r.desc false r.parts r.sum (if r.kind = .pour ∧ bits w0 61 3 = 1 then 64 * bits w0 0 24 else 0))
  else unrouted e node va r.desc r.kind false r.parts s

/-- How taking a request went. -/
inductive Take where
  /-- it has been taken, dropped or sent -/
  | done
  /-- it waits, and with it the later requests of its die (R496) -/
  | blocks
deriving DecidableEq, Repr

/-- The request names a pot that is not held: its descriptor is read (R172, R173). -/
def holdPot (d : Nat) (r : PotReq) (s : State) : State :=
  let bad := fun (s : State) => dropReq 0x14 r (s.endReq d r)
  let gone := fun (s : State) => r.parts.foldl (fun s x => potDone x.ac x.num s) (s.endReq d r)
  let proxied := fun (node : Nat) (va : W64) (s : State) =>
    { s.modReq d r fun y => some { y with proxy := some (node, va, Config.homeShape s.seq) } with seq := s.seq + 1 }
  if r.kind = .retire then
    match loadPot d r.desc r.pa r.raw s with
    | .ok (.proxy node va) s => proxied node va s
    | _ => gone s
  else s.runHeld (.pot d) (r.tag 0) bad bad do
    match ← loadPot d r.desc r.pa r.raw with
    | .bad => act bad
    | .proxy node va => act (proxied node va)
    | .pot p => do
      let s ← get
      if 128 ≤ (s.die d).pots.length then throw .wait
      act fun s => s.modDie d fun x => { x with pots := x.pots ++ [p] }

/-- The home treats a request that has been read whole. A second pour ahead of one slot waits at its contributor, and so blocks its die (R175, R496). -/
def judge (d : Nat) (p : Pot) (r : PotReq) (s : State) : State × Take :=
  let out := s.endReq d r
  match r.kind with
  | .pour =>
    if r.lost then (sourceLost d r s, .done)
    else
      let sum := r.parts.foldl (fun a x => (a + potSum p.op p.plen x.data) % potM) 0
      let wrong := decide (sum ≠ r.sum % potM)
      let r := if wrong then { r with sum := sum, parts := r.parts.map fun x => { x with bad := true } } else r
      if r.parts.any fun x => p.verdict x == .waits then (s, .blocks)
      else
        let out := if wrong then (out.setReg d 0x80008 (out.reg d 0x80008 + 1)).integrity d 3 r.key.1 0 ((r.parts.map (·.pc)).headD 0) else out
        match r.parts with
        | [x] =>
          if p.verdict x = .fill then (out.modDie d fun y => { y with potNow := some r }, .done)
          else (treat d r.pa x out, .done)
        | _ => (out.modDie d fun y => { y with potNow := some r }, .done)
  | .join | .leave =>
    match r.parts with
    | x :: _ =>
      if p.n ≤ x.word.toNat then (dropReq 0x15 r out, .done)
      else (out.modPot d r.pa fun p => { p with ops := p.ops ++ [(r.kind, x.word.toNat, x.ac, x.num)] }, .done)
    | [] => (out, .done)
  | .close | .retire =>
    let s := out.modPot d r.pa fun p => { p with ops := p.ops ++ r.parts.map fun x => (.close, 0, x.ac, x.num) }
    (if r.kind = .retire then retirePot d r.pa s else closeNow d r.pa s, .done)

/-- The pour may not be taken: reserved bits of its word, or another scope than the descriptor's (Table 6-4, R336); a proxy's is .fab
(R173). -/
def pourBad (fab : Bool) (r : PotReq) : Bool :=
  r.kind == .pour && ((r.parts.any fun x => bits x.word 6 10 != 0) || r.fab != fab)

/-- Read the source of a pour, if it has still to be read. -/
def fetchSource (d : Nat) (r : PotReq) (w0 : W64) (s : State) : State :=
  if r.ready then s
  else
    let e := dieOf r.key.1
    s.runHeld (.pot e) (r.tag 1) (sourceLost d r) (sourceLost d r) (readSource d e r w0)

/-- The home takes a request (R172 to R178). -/
def takeReq (d : Nat) (r : PotReq) (s : State) : State × Take :=
  let find := fun (s : State) => (s.die d).potIn.find? fun y => y.key == r.key
  let s := if r.proxy.isNone && (s.pot? d r.pa).isNone then holdPot d r s else s
  match find s with
  | none => (s, .done)
  | some r =>
    match r.proxy, s.pot? d r.pa with
    | some (node, va, w0), _ =>
      if pourBad true r then (dropReq 0x14 r (s.endReq d r), .done)
      else
        let s := fetchSource d r w0 s
        (match find s with
        | none => (s, .done)
        | some r => if r.ready then (sendReq d (dieOf r.key.1) r node va w0 s, .done) else (s, .blocks))
    | none, none => (s, .blocks)
    | none, some p =>
      if p.retire then (s, .blocks)
      else if pourBad (p.flag 60) r then (dropReq 0x14 r (s.endReq d r), .done)
      else
        let s := fetchSource d r (p.w 0) s
        match find s with
        | none => (s, .done)
        | some r => if r.ready then judge d p r s else (s, .blocks)

/-- The first request that can be taken; requests of a die behind one that waits are passed over (R496). -/
def potScan (d : Nat) : List PotReq → List Nat → State → State
  | [], _, s => s
  | r :: rest, held, s =>
    if held.contains (dieOf r.key.1) then potScan d rest held s
    else match takeReq d r s with
      | (s, .done) => s
      | (s, .blocks) => potScan d rest (if r.key.1 < 256 then dieOf r.key.1 :: held else held) s

/-- The home of a die takes its next request: none while an on-time pour is being accepted (R175). -/
def potTake (d : Nat) (s : State) : State := if (s.die d).potNow.isSome then s else potScan d (s.die d).potIn [] s

/-- The on-time pour that the home has taken is counted (R178). -/
def potAccept (d : Nat) (s : State) : State :=
  match (s.die d).potNow with
  | none => s
  | some r => r.parts.foldl (fun s x => treat d r.pa x s) (s.modDie d fun x => { x with potNow := none })

/-! ### Events -/

/-- A request that arrives for another part leaves for it (R473); a route that is not valid refuses it. -/
def forwardReq (f : FarPour) (x : PotPart) (s : State) : State :=
  let a := Agent.ingress f.port
  if s.routeValid a.die f.node then
    s.sendTo (.pour x.ac x.num) f.node f.desc.toNat (.pour f.kind f.desc f.lost [x] f.sum f.sumi)
  else
    let (w0, w1) := routeRecord a f.desc.toNat
    s.reply f.port x.num (.nack w0 w1)

/-- A request that has come through an ingress port stands at its home, which the die of the port translates (R18, R173), or is refused
(R469). -/
def homeReq (port : Nat) (r : PotReq) (s : State) : FabAns × State :=
  let a := Agent.ingress port
  let d := a.die
  match xlate a .read r.desc.toNat s with
  | .ok (pa, _) s =>
    (match region d pa with
    | .hbm h _ _ =>
      (match checkAccess s a .issue (0x30000000000 + h * 0x1000000 + 0x80000) 8 with
      | some (.access w0 w1 _) => (.nack w0 w1, s.addAccessRecord a w0 w1 r.desc)
      | _ => (.ack, s.modDie h fun x => { x with potIn := x.potIn ++ [{ r with pa := canonPa d pa, raw := some pa }] }))
    | _ => (.fault 0x14, s))
  | .error (.xlate td cause k va lv epa ent) s => (.nack (xlateWord a cause k 0) va, s.addXlateRecord a td cause k va lv epa ent)
  | .error _ s => (.fault 0x14, s)

/-- A request of a member of another part arrives (R173); it is acknowledged once it completes. -/
def farReq (f : FarPour) (s : State) : State :=
  let x : PotPart := ⟨256 + f.port, s.seq, 0, 0, f.word, f.data, f.sat, false⟩
  let s := { s with seq := s.seq + 1 }
  if f.node ≠ 0xFFFF then forwardReq f x s
  else match homeReq f.port ⟨f.kind, f.desc, 0, none, 0, true, none, true, f.lost, [x], f.sum⟩ s with
    | (.ack, s) => s
    | (r, s) => s.reply f.port x.num r

/-- POUR_ARRIVE (R174, R175): a request of the die's own queue goes to its home, or one arrives from another part; then the
home of the die takes its next request. -/
def execPourArrive (d : Nat) (far : Option FarPour) (s : State) : Res :=
  .next (potTake d (match far with | some f => farReq f s | none => potAdmit d s))

/-- POUR_ACCEPT (R178). -/
def execPourAccept (d : Nat) (s : State) : Res := .next (potAccept d s)

/-- POUR_SOURCE_DROP (R498): the home tries the source of its oldest pour that has not been read. -/
def execPourSourceDrop (d : Nat) (s : State) : Res :=
  match (s.die d).potIn.find? fun r => r.kind == .pour && !r.ready with
  | some r =>
    (match s.pot? d r.pa with
    | some p => .next (fetchSource d r (p.w 0) s)
    | none => .next s)
  | none => .next s

/-- The deadline of a pot's open round has passed: the round closes (R177). -/
def deadline (d pa : Nat) (s : State) : State :=
  match s.pot? d pa with
  | some p => if p.flag 57 ∧ !p.retire ∧ p.opened + bits (p.w 7) 0 32 ≤ s.cycle then closeNow d pa s else s
  | none => s

/-- The pot of a die with a descriptor VA. -/
def State.potAt (s : State) (d desc : Nat) : Nat := match (s.die d).pots.find? fun p => p.va.toNat == desc with | some p => p.pa | none => 0

/-- POT_DEADLINE (R177). -/
def execPotDeadline (d desc : Nat) (s : State) : Res := .next (deadline d (s.potAt d desc) s)

/-- POT_OUTCOME_WRITE (R190, R191). -/
def execPotOutcomeWrite (d desc : Nat) (s : State) : Res := .next (outcomeStep d (s.potAt d desc) s)

/-- SUMI pours of other parts that a fabric device may combine: one round tag, and trailers that are equal (R187). -/
def combinable (plen : Nat) (l : List PotPart) : Bool :=
  let same := fun (x : PotPart) => l.head?.map (fun y => (y.tag, y.data.drop plen)) == some (x.tag, x.data.drop plen)
  l.all fun x => decide (256 ≤ x.ac) && same x

/-- Two requests at a home came as one, combined by a device on their way (R187). -/
def canCombine (p : Pot) (x y : PotReq) : Bool :=
  x.kind == .pour && y.kind == .pour && x.ready && y.ready && !x.lost && !y.lost && p.op == 1 && x.pa == y.pa
    && combinable p.plen (x.parts ++ y.parts)

def combineHome (d i j : Nat) (s : State) : State :=
  let l := (s.die d).potIn
  match l[i]?, l[j]? with
  | some x, some y =>
    (match s.pot? d x.pa with
    | some p =>
      if i ≠ j ∧ canCombine p x y then
        let z := { x with parts := x.parts ++ y.parts, sum := (x.sum + y.sum) % potM }
        s.modDie d fun e => { e with potIn := (l.set i z).eraseIdx j }
      else s
    | none => s)
  | _, _ => s

/-- Two pours that this part forwards to one pot of another become one (R473), where COMB of the die of the port by which they leave
is set. -/
def combineSent (d : Nat) (x y : FabSend) : Option FabSend :=
  match x.what, y.what with
  | .pour .pour desc false l sum n, .pour .pour _ false m sum' n' =>
    if !x.acked ∧ !y.acked ∧ x.node = y.node ∧ x.addr = y.addr ∧ x.port = y.port ∧ x.port.any (fun p => p / 8 == d) ∧ n = n' ∧ n ≠ 0
        ∧ combinable n (l ++ m) then
      some { x with what := .pour .pour desc false (l ++ m) ((sum + sum') % potM) n }
    else none
  | _, _ => none

/-- FABRIC_COMBINE (R187, R473): requests i and j at the home become one, which is treated as both pours; numbers past the home's requests
are those of fabric requests, of pours that ports of the die forward. -/
def execFabricCombine (d i j : Nat) (s : State) : Res :=
  let k := (s.die d).potIn.length
  if i < k then .next (combineHome d i j s)
  else match s.fab[i - k]?, s.fab[j - k]? with
    | some x, some y =>
      (match combineSent d x y with
      | some z => if k ≤ j ∧ i ≠ j ∧ (s.reg d 0xB000).getLsbD 0 then .next { s with fab := (s.fab.set (i - k) z).eraseIdx (j - k) } else .next s
      | none => .next s)
    | _, _ => .next s

/-- STEP_GATE_WRITE (R191): a write of a gate's register by an agent that holds W on target 24, or by a pot's home on another part. -/
def execStepGateWrite (d g : Nat) (v : W64) (s : State) : Res := .next (if g < 256 then gateWrite d g v s else s)

/-- Every die's pot hardware does what it can: requests travel and are taken, deadlines close rounds, outcomes are written. -/
def potTurn (d : Nat) (s : State) : State :=
  let s := potAccept d (potTake d (potAdmit d s))
  let pas := (s.die d).pots.map (·.pa)
  let s := pas.foldl (fun s pa => deadline d pa s) s
  pas.foldl (fun s pa => outcomeStep d pa s) s

end Sys2Proof.Machine
end

