-- ==== Sys2Proof/Machine/FabI.lean ====
section
/-! DEFINITION. Events of the fabric (R468 to R472): what arrives at an ingress port, acknowledgements, refusals, and changes of links
and routes. -/

namespace Sys2Proof.Machine

/-! ### Ingress (R469 to R471) -/

/-- The VA that an access through a port names: EXP in bits 35:32 and OFFSET in bits 31:0 of an export address, or a VA in full; none
where the export refuses it. -/
def ingressVa (s : State) (port : Nat) (va : W64) (exp : Bool) (len : Nat) : Option W64 :=
  if !exp then (if va.toNat + len ≤ 2 ^ 55 then some va else none)
  else
    let e := bits va 32 4
    let w0 := s.reg (port / 8) (0xC000 + 16 * e)
    if w0.getLsbD 63 ∧ bits va 0 32 + len ≤ bits (s.reg (port / 8) (0xC008 + 16 * e)) 0 32 then
      some (BitVec.ofNat 64 (bits w0 0 55 + bits va 0 32))
    else none

/-- An ingress refuses an access: the record stands in a fault queue of this part (R45, R80), and the negative acknowledgement carries it:
for a translation fault, words 0 and 1 of the fault record (log entry 94). -/
def ingressStop (port : Nat) (st : Stop) (s : State) : FabAns × State :=
  let a := Agent.ingress port
  match st with
  | .xlate d cause k va lv epa ent => (.nack (xlateWord a cause k 0) va, s.addXlateRecord a d cause k va lv epa ent)
  | .access w0 w1 va | .carve w0 w1 va => (.nack w0 w1, s.addAccessRecord a w0 w1 va)
  | _ => (.nack 0 0, s)

/-- Run an access of an ingress port to `len` bytes; it is not held on a translation fault (Table 2-10). -/
def ingressRun (port : Nat) (va : W64) (exp : Bool) (len : Nat) (f : W64 → M Unit) (s : State) : FabAns × State :=
  match ingressVa s port va exp len with
  | none =>
    let (w0, w1) := accRecord (.ingress port) 0xFFFF 0xFF .write va.toNat
    ingressStop port (.access w0 w1 0) s
  | some v => match f v s with
    | .ok _ s => (.ack, s)
    | .error st s => ingressStop port st s

/-- The port answers the sender (R470). -/
def answered (port : Nat) (x : FabAns × State) : State := x.2.reply port 0 x.1

/-- Write pieces at their homes, not released (R470). -/
def ingressPieces (a : Agent) (s : State) : List (Nat × Nat × BitVec 2) → List Byte → State
  | [], _ => s
  | (pa, n, _) :: r, b =>
    let s := match mmioOf a.die pa with
      | some (d, off) => mmioStore a d off (b.take n) s
      | none => performAt a .home [] OpTag.none (canonPa a.die pa) (b.take n) s
    ingressPieces a s r (b.drop n)

/-- A write that arrives (R469, R470): one with a release comes after every earlier write of its flow, and is released at .fab with
them (R166: `ingressReady`). -/
def ingressWrite (port : Nat) (va : W64) (exp rel : Bool) (data : List Byte) (s : State) : FabAns × State :=
  let a := Agent.ingress port
  ingressRun port va exp data.length (fun v => do
    let ps ← reach a .write v.toNat data.length
    act fun s =>
      let s := ingressPieces a s ps data
      if rel then release a .fab s else s) s

/-- A probe (R471): the range is translated and checked as a write; nothing changes but what a refusal records. -/
def ingressProbe (port : Nat) (va : W64) (len : Nat) (s : State) : FabAns × State :=
  ingressRun port va true len (fun v => do
    let _ ← reach (.ingress port) .write v.toNat len
    pure ()) s

/-- The clear of a consumer's bit in a producer's MASK, which is checked as an atomic (R92, R471); one already clear is answered with a record of zeros (log entry
44). -/
def ingressClear (port : Nat) (va : W64) (bit : Nat) (s : State) : FabAns × State :=
  let a := Agent.ingress port
  ingressRun port va true 2 (fun v => do
    let ps ← reach a .atomic v.toNat 2
    match ps with
    | (pa, _, _) :: _ =>
      let s ← get
      let (old, s) := atomic a .pkg false (canonPa a.die pa) 2
        (fun o => if (leNat o).testBit bit then some (leBytes 2 (leNat o - 2 ^ bit)) else none) s
      set s
      if (leNat old).testBit bit then pure () else throw .wait
    | [] => pure ()) s

/-- A write with a release is performed once the earlier writes of its port have been, and those to host windows are confirmed (R166, R470). -/
def State.ingressReady (s : State) (port : Nat) (rel : Bool) : Bool := !rel || s.settled .fab (· == .ingress port)

/-- FABRIC_INGRESS_WRITE (R469, R470): writes of a port stand behind one that waits. -/
def execFabricIngressWrite (port : Nat) (va : W64) (exp rel : Bool) (data : List Byte) (s : State) : Res :=
  .next (if s.ingressReady port rel && s.ingHeld.all (·.port != port) then answered port (ingressWrite port va exp rel data s)
    else { s with ingHeld := s.ingHeld ++ [⟨port, va, exp, rel, data⟩] })

/-- The oldest write that waits at an ingress port is performed, if it need not wait longer. -/
def ingressGo (s : State) : State :=
  match s.ingHeld with
  | [] => s
  | x :: r => if s.ingressReady x.port x.rel then answered x.port (ingressWrite x.port x.va x.exp x.rel x.data { s with ingHeld := r }) else s

/-- The address of an offset in an export. -/
def exportVa (exp off : Nat) : W64 := pack [(32, exp % 16), (0, off % 2 ^ 32)]

/-- FABRIC_RING_PROBE (R471). -/
def execFabricRingProbe (port exp off len : Nat) (s : State) : Res := .next (answered port (ingressProbe port (exportVa exp off) len s))

/-- FABRIC_RING_FREE (R92, R471): the clear of a consumer's bit of MASK[slot] in the producer descriptor at an export's offset. -/
def execFabricRingFree (port exp off cidx slot : Nat) (s : State) : Res :=
  .next (answered port (ingressClear port (exportVa exp (off + 0x100 + 2 * slot)) cidx s))

/-! ### Acknowledgements and refusals (R469, R470) -/

/-- A copy of a cluster by its timeline number. -/
def copyIndex (s : State) (n num : Nat) : Option Nat := (s.ac n).io.copies.findIdx? fun c => c.num == num

/-- The CC waits in an RFREE: its address operand's value. -/
def freeWaits (s : State) (n : Nat) : Option W64 :=
  match (s.ac n).cc.wait with
  | some w => (match w.instr with | .rfree _ a => some ((s.ac n).cc.s a) | _ => none)
  | none => none

/-- A pot request that has been taken from the fabric's list is refused: with word 0 zero, its home has dropped it with the pot fault that word 1
names (R176; log entry 94); with the record of an invalid route it is dropped with INTEG (R470); with another, it is dropped with the pot-descriptor
fault (R174). A request that this part forwarded is refused to its sender. -/
def nackPour (x : FabSend) (w0 w1 : W64) (s : State) : State :=
  match x.what with
  | .pour kind desc lost l _ _ =>
    let route := bits w0 32 16 == 0xFFFF && bits w0 24 8 == 0xFF
    let (far, here) := l.partition fun z => decide (256 ≤ z.ac)
    let s := far.foldl (fun s z => s.reply (z.ac - 256) z.num (if w0 = 0 then .fault w1.toNat else .nack w0 w1)) s
    if route then unrouted (sender x.item).die x.node (BitVec.ofNat 64 x.addr) desc kind (lost || here.isEmpty) here s
    else here.foldl (fun s z => dropPart (if w0 = 0 then w1.toNat else 0x14) desc z s) s
  | _ => s

/-- An access of a put on another part is refused (R347, R470, R471): VS stops with an access fault, a deferred one while its cluster enters a trap
(R443). Where VS cannot stop with it, being IDLE or settled, its cluster takes it at its next boundary as a fault of VS, and one that VS has stopped
with already is not told again (DESIGN CHOICE, log entry 108). -/
def putRefused (n : Nat) (w0 w1 : W64) (s : State) : State :=
  let a := s.ac n
  let x := a.vs
  let later := s.modCC n fun c => { c with pend := c.pend ++ [⟨3, 0x06, w0, w1, x.upc, x.upc, false⟩] }
  if a.cc.task.isNone then s
  else if x.st = 3 then (if x.fcause = 0x06 then s else later)
  else if x.st = 0 ∨ a.cc.saving then later
  else match a.cc.entry with
    | some (_, _, settled) => if settled || x.deferred then later else lateFault n .vs 0x06 w0 w1 s
    | none => lateFault n .vs 0x06 w0 w1 s

/-- The k-th request that stands is refused with a record (R470): a copy ends, a pour is dropped, a put stops VS, an RFREE faults, a write of a
pot's outcome is given up (R190), and a launch's completion leaves the record in the fault queue of its die (log entry 94); a record of zeros tells an
RFREE that its bit was already clear (log entry 44). The notice of a lost pour ends without a trap (R498). A refused probe ends the probes of its
put. -/
def nackSend (k : Nat) (x : FabSend) (w0 w1 : W64) (s : State) : State :=
  let gone : State := { s with fab := s.fab.eraseIdx k }
  match x.item with
  | .copy n num => (match copyIndex s n num with
    | some i => (match (s.ac n).io.copies[i]? with | some c => copyNacked n i c w0 w1 gone | none => gone)
    | none => gone)
  | .pour .. => nackPour x w0 w1 gone
  | .notice _ => gone
  | .put n => putRefused n w0 w1 (if x.isProbe then dropProbes n s else gone)
  | .free n => (match freeWaits s n with
    | some va => if w0 = 0 ∧ w1 = 0 then syncTrap n 0x10 va 0 gone else syncTrap n 0x06 w0 w1 gone
    | none => gone)
  | .done d _ => gone.addAccessRecord (.disp d) w0 w1 0
  | .outcome d desc slot part => refusePart d (s.potAt d desc) slot part { s with fab := s.fab.set k { x with acked := true } }

/-- FABRIC_NACK (R469): the k-th request that stands, and has left by a port, ends with the record that the receiver returned. -/
def execFabricNack (k : Nat) (w0 w1 : W64) (s : State) : Res :=
  .next (match s.fab[k]? with | some x => if x.port.isSome ∧ !x.acked then nackSend k x w0 w1 s else s | none => s)

/-- A request has been acknowledged: a pour completes with the notice of its home; what nothing waits for is forgotten. -/
def ackSend (x : FabSend) (k : Nat) (s : State) : State :=
  let gone : State := { s with fab := s.fab.eraseIdx k }
  match x.item with
  | .pour .. => (match x.what with | .pour _ _ _ l _ _ => l.foldl (fun s z => potDone z.ac z.num s) gone | _ => gone)
  | .done .. | .notice _ => gone
  | .put _ => if x.isProbe then { s with fab := s.fab.set k { x with acked := true } } else gone
  | _ => { s with fab := s.fab.set k { x with acked := true } }

/-- FABRIC_ACK (R470): the k-th request that stands, and has left by a port, is acknowledged. -/
def execFabricAck (k : Nat) (s : State) : Res :=
  .next (match s.fab[k]? with | some x => if x.port.isSome ∧ !x.acked then ackSend x k s else s | none => s)

/-- The part's own ingress takes a request to node 0xFFFF (R468), at a port of the sender's die (log entry 94). -/
def selfDeliver (k : Nat) (x : FabSend) (s : State) : State :=
  let port := 8 * (sender x.item).die
  let va := BitVec.ofNat 64 (x.addr % 2 ^ 36)
  let done := fun (r : FabAns × State) => match r.1 with
    | .ack => ackSend x k r.2
    | .nack w0 w1 => nackSend k x w0 w1 r.2
    | .fault c => nackSend k x 0 (BitVec.ofNat 64 c) r.2
  match x.what with
  | .write data rel => if s.ingressReady port rel then done (ingressWrite port va true rel data s) else s
  | .probe len => done (ingressProbe port va len s)
  | .clear bit => done (ingressClear port va bit s)
  | .gate d g v => ackSend x k (gateWrite d g v s)
  | .pour kind _ lost l sum _ =>
    let r : PotReq := ⟨kind, BitVec.ofNat 64 x.addr, 0, none, 0, true, none, true, lost, if lost then l.map fun z => { z with ac := 256 + port } else l, sum⟩
    (match homeReq port r s with
    | (.ack, s) => { s with fab := s.fab.eraseIdx k }
    | (r, s) => done (r, s))

/-- Requests that wait leave, and those to the part itself reach its ingress; a write that waits at an ingress goes on. -/
def fabTurn (s : State) : State :=
  let s := ingressGo s
  let s := if s.fab.any fun x => x.port.isNone && !x.acked then s.sendWaiting else s
  match s.fab.findIdx? fun x => x.node == 0xFFFF && !x.acked with
  | some k => (match s.fab[k]? with | some x => selfDeliver k x s | none => s)
  | none => s

/-- FABRIC_LINK_CHANGE (Table 16-3): LINKUP follows the port. -/
def execFabricLinkChange (port : Nat) (up : Bool) (s : State) : Res :=
  if port < 32 then
    .next (s.setReg (port / 8) 0xB008 (setBits (s.reg (port / 8) 0xB008) (port % 8) 1 up.toNat))
  else .next s

/-- A request waits on its route: it has not been acknowledged, and has not left by a port that is up. -/
def State.waitsRoute (s : State) (x : FabSend) : Bool := !x.acked && !x.port.any s.portUp

/-- NODE_ROUTE_INVALID (R470): every request that waits on a route to the node, which is not valid, ends as if refused; the notice of a
lost pour goes on waiting (log entry 94). -/
def execNodeRouteInvalid (node : Nat) (s : State) : Res :=
  let l := s.fab.filter fun x =>
    s.waitsRoute x && x.node == node && !s.routeValid (sender x.item).die node && (match x.item with | .notice _ => false | _ => true)
  .next (l.foldl (fun s x =>
    match s.fab.findIdx? (· == x) with
    | some k => let (w0, w1) := routeRecord (sender x.item) x.addr; nackSend k x w0 w1 s
    | none => s) s)

end Sys2Proof.Machine
end

