-- ==== Sys2Proof/Machine/WaitI.lean ====
section
/-! DEFINITION. Events that end waits: timelines that show, tokens, queue room, and the instructions that wait for them (R91, R92, R153 to R156,
R222, R230, R320, R436). -/

namespace Sys2Proof.Machine

/-! ### Timelines (R153) -/

/-- A counter of a cluster shows the end of its run of completed numbers, which sets the event flag when it advances (R153, R320). -/
def showTimeline (n c : Nat) (s : State) : State :=
  let l := (s.ac n).ln
  let v := l.ready c
  if l.shown c < v then
    (s.modAc n fun a =>
      { a with ln := { a.ln with
          tlShown := smSet a.ln.tlShown c v
          tlDone := a.ln.tlDone.filter fun x => !(x.1 == c && decide (x.2 ≤ v)) } }).setEvt n
  else s

/-- Every counter of a cluster. -/
def showTimelines (n : Nat) (s : State) : State :=
  if (s.ac n).ln.tlDone.isEmpty then s else (List.range 8).foldl (fun s c => showTimeline n c s) s

/-- TIMELINE_COMPLETE (R153). -/
def execTimelineComplete (n c : Nat) (s : State) : Res := .next (showTimeline n c s)

/-! ### Waits of the CC -/

/-- TLWAIT_PASS (R331, R155). -/
def execTlwaitPass (n : Nat) (s : State) : Res :=
  rerun n (fun i => match i with | .tlwait h sc c b => some (execTlwait h sc c b) | _ => none) s

/-- RWAIT_ARRIVE (R348). -/
def execRwaitArrive (n : Nat) (s : State) : Res :=
  rerun n (fun i => match i with | .rwait h d a => some (execRwait h d a) | _ => none) s

/-- WFE_WAKE (R320). -/
def execWfeWake (n : Nat) (s : State) : Res :=
  rerun n (fun i => match i with | .wfe h => some (execWfe h) | _ => none) s

/-- JOIN_DONE (R306, R222). -/
def execJoinDone (n : Nat) (s : State) : Res :=
  rerun n (fun i => match i with | .join h a => some (execJoin h a) | _ => none) s

/-- RETQ_ARRIVE (R309, R230). -/
def execRetqArrive (n : Nat) (s : State) : Res :=
  rerun n (fun i => match i with | .retq h d => some (execRetq h d) | _ => none) s

/-! ### Waits of engines -/

/-- Run the instruction that an engine waits in again, if a test selects it. -/
def rerunEng (n : Nat) (e : Eid) (f : Instr → Option (State → Res)) (s : State) : Res :=
  let x := (s.ac n).eng e
  if x.xl.isSome ∨ x.giveN ≠ 0 ∨ (s.ac n).cc.entry.isSome then .next s
  else match x.wait with
    | some i => (match f i with | some g => g { s with cur := engAgent n e } | none => .next s)
    | none => .next s

/-- RPUT_SLOT_FREE (R347, R91): VS looks again at the slot that its RPUT waits for. -/
def execRputSlotFree (n : Nat) (s : State) : Res :=
  rerunEng n .vs (fun i => match i with | .rput h a b c => some (execRput h a b c) | _ => none) s

/-- QUEUE_PUSH_GRANT (R436): the oldest push that waits and meets both conditions enters. -/
def execQueuePushGrant (n : Nat) (s : State) : Res :=
  match (s.ac n).ln.pushWait.find? fun w => (s.ac n).hasRoom w.queue w.need with
  | none => .next s
  | some w =>
    match eidOf w.who with
    | some e => rerunEng n e (fun i => match i with | .eret h a => some (execEret h a) | _ => none) s
    | none => rerun n (fun i => match i with
      | .pushc h e k blk b => some (execPushc h e k blk b)
      | .pushk h e k blk => some (execPushk h e k blk)
      | _ => none) s

/-- The head of an instruction that takes tokens, and how many it takes (R353). -/
def tokenNeed (i : Instr) : Nat := match i with | .etok _ k => k.toNat + 1 | _ => 1

/-- The producer that an engine instruction takes from: TAKE, in bits 22:20 of its word 1 (R271, Table 9-3). -/
def takeField (i : Instr) : Nat := (((encode i).getD 1 0).extractLsb' 20 3).toNat

/-- TOKEN_TAKE (R156): a waiting engine takes one of the tokens it waits for. -/
def execTokenTake (n : Nat) (e : Eid) (s : State) : Res :=
  let x := (s.ac n).eng e
  match x.wait with
  | some i =>
    if takeField i ≠ 0 ∧ x.etok < tokenNeed i then
      match takeOne n e (takeField i) s with
      | some s => .next s
      | none => .next s
    else .next s
  | none => .next s

/-- TOKEN_GIVE (R156): an engine gives the tokens that it owes, once they all fit. -/
def execTokenGive (n : Nat) (e : Eid) (s : State) : Res := .next (payOwed n e s)

end Sys2Proof.Machine
end

