-- ==== Sys2Proof/Machine/AxI.lean ====
section
/-! DEFINITION. The array engine (R388 to R410): row 0xD_ and the events of array commands. -/

namespace Sys2Proof.Machine

/-! ### Checks at issue (R395, R398, R399) -/

/-- Run an AX instruction: its checks, its take, its effect. Its give belongs to its retirement (R396). -/
def axRun (h : Head) (i : Instr) (chk f : Nat → M Unit) (s : State) : Res :=
  match s.curEng with
  | some (_, .ax) => engRunN h i 1 0 (fun n _ => chk n) (fun n _ => do f n; pure .seq) s
  | _ => .refused .wrongUnit

/-- An x operand and an x field of AX. -/
def State.axs (s : State) (n : Nat) (a : Src) : W64 := (s.ac n).ax.src a
def State.axx (s : State) (n : Nat) (r : BitVec 6) : W64 := (s.ac n).ax.xr r.toNat

/-- The window of a command (R28), which in REF mode lies within rows and columns 0 to 31 (R390). -/
def axWin (n : Nat) (v : W64) : M Win := do
  let s ← get
  match winOf v with
  | none => trapM 0x11 v 0
  | some w =>
    need (!(s.tile n w.tile).isRef || w.inRef) 0x11 v 0
    pure w

/-- The window of an instruction with no REF-window check of its own (R409). -/
def anyWin (v : W64) : M Win :=
  match winOf v with
  | none => trapM 0x11 v 0
  | some w => pure w

/-- A command that changes the fast or the slow array (R389, R391). -/
def mayChange (n : Nat) (w : Win) (slow : Bool) (v : W64) : M Unit := do
  let s ← get
  let m := (s.tile n w.tile).mode
  need (m != 2 && !(m == 3 && slow)) 0x12 v 0

/-- A memory operand is a multiple of 64 and an address (R398, R16); its translation follows the take. -/
def axOperand (v : W64) : M Unit := do
  addrRange v
  need (v.toNat % 64 == 0) 0x02 v 0

/-- The control word of a gated command (Table 13-4). -/
def ctlOk (v : W64) (upd : Bool) : Bool :=
  bits v 11 21 == 0 && bits v 9 1 == 0
    && (if upd then bits v 0 8 != 0 else bits v 0 9 == 0)

/-- The command waits for the earlier command of its tile, and for an APROG in flight (R395, R397). -/
def axTileFree (n ti : Nat) : M Unit := do
  let s ← get
  if (s.ac n).axq.any fun c => !c.done && (c.tile == ti || !c.rows.isEmpty) then throw .wait

/-- Translate a scratch operand of AX. -/
def axRange (n : Nat) (k : AKind) (va : W64) (len : Nat) : M (List (Nat × Nat × BitVec 2)) := ownScratch (.ac n 5) n k va len

/-- No earlier command in flight has still to write a byte of these ranges (R396). -/
def axClear (n : Nat) (ps : List (Nat × Nat × BitVec 2)) : M Unit := do
  let s ← get
  let hit := (s.ac n).axq.any fun c => !c.done && c.writes.any fun w => ps.any fun (pa, m, _) =>
    let p := canonPa (dieOf n) pa
    decide (w.pa < p + m ∧ p < w.pa + w.bytes.length)
  if hit then throw .wait

/-- Read a scratch operand whose pieces are known, in units of u bytes. -/
def axRead (n u : Nat) (ps : List (Nat × Nat × BitVec 2)) : M (List Byte) := readPieces (.ac n 5) u ps

/-- The step gate of a control word (R399, R192): whether the command is skipped; it holds while the gate is pending. -/
def axGate (n : Nat) (v : W64) : M Bool := do
  if v.getLsbD 10 then pure false
  else
    let s ← get
    let (g, s) := s.readGate (dieOf n) (v.extractLsb' 32 32)
    set (acquire (.ac n 5) .die s)
    match g with
    | .pending => throw .wait
    | .skip => pure true
    | .apply => pure false

/-- A command of a tile enters the list of those in flight; completed ones retire in order (R396). -/
def axPut (n : Nat) (c : AxCmd) : M Unit := act fun s =>
  let s := s.modAc n fun a => { a with axq := a.axq ++ [{ c with addr := a.ax.upc, back := (a.ax.x, a.ax.act0, a.ax.act1, a.ax.etok) }] }
  axRetire n ((s.ac n).axq.length + 1) s

/-- An instruction that has had its whole effect. -/
def axDone (h : Head) (n ti : Nat) : M Unit := axPut n ⟨ti, [], false, Head.give h, 0, true, 0, 0, [], ([], false, false, 0), 0⟩

/-- A command that drives cells starts, or waits for admission (R494), with scratch writes to perform. -/
def axStart (h : Head) (n ti : Nat) (ws : List PWrite) : M Unit := do
  let s ← get
  let (wait, s) := s.powerAsk n ti
  set s
  axPut n ⟨ti, ws, wait, Head.give h, 0, false, 0, 0, [], ([], false, false, 0), 0⟩

/-- A skipped command (R399). -/
def axSkip (h : Head) (n ti : Nat) : M Unit := do
  act fun s => s.setTile n ti (let t := s.tile n ti; t.setR 9 (t.r 9 + 1))
  axDone h n ti

/-! ### Reads -/

/-- k sentinel events of a tile (R403, R456, R457). -/
def sentinelEvents (n ti k : Nat) (s : State) : State :=
  (List.range k).foldl (fun s _ =>
    (s.setTile n ti (let t := s.tile n ti; t.setR 10 (t.r 10 + 1))).integrity (dieOf n) 0 n (BitVec.ofNat 64 ti) (s.ac n).ax.upc) s

/-- AFWD and ABWD (R401, R402, R403). -/
def axReadCmd (h : Head) (i : Instr) (fwd f32' sc : Bool) (d : BitVec 6) (a : Src) (b c : BitVec 6) (s : State) : Res :=
  axRun h i
    (fun n => do
      let s ← get
      let _ ← axWin n (s.axs n a)
      axOperand (s.axx n b)
      axOperand (s.axx n c))
    (fun n => do
      let s ← get
      let w ← axWin n (s.axs n a)
      axTileFree n w.tile
      let (ni, no) := if fwd then (w.rows, w.cols) else (w.cols, w.rows)
      let es := if f32' then 4 else 2
      let src ← axRange n .read (s.axx n b) (2 * ni)
      let dst ← axRange n .write (s.axx n c) (es * no)
      axClear n (src ++ dst)
      let xs ← axRead n 2 src
      act fun s =>
        let t := s.tile n w.tile
        let vals := (elems 2 xs).map fun v => b16 (BitVec.ofNat 16 v)
        let (plan, scBits) := readPlan vals (if sc then some (f32 ((s.axx n d).setWidth 32)) else none)
        let s := if sc then s else s.modEng n .ax fun x => x.setX d.toNat (scBits.setWidth 64)
        let (ys, s) : List W32 × State := match plan with
          | .nan => (List.replicate no 0x7FC00000, s)
          | .codes scv l =>
            let (ys, q) := readOuts t w fwd (r32 scv) l s.seq
            (ys, { s with seq := q })
        let codes := if fwd then (match plan with | .codes _ l => l | .nan => []) else List.replicate w.rows 1
        let (k, q) := match plan with | .nan => (0, s.seq) | .codes .. => sentinels t w codes s.seq
        let s := sentinelEvents n w.tile k { s with seq := q }
        let out := if f32' then ys.flatMap fun y => leBytes 4 y.toNat
          else ys.flatMap fun y => leBytes 2 (toB16 .rne 0 false (f32 y)).toNat
        match axStart h n w.tile (pieceWrites (dieOf n) (s.opTag (.ac n 5)) (s.axx n c).toNat dst out) s with
        | .ok _ s => s
        | .error _ s => s) s

/-- AFWD (R401). -/
def execAfwd (h : Head) (f32' sc : Bool) (d : BitVec 6) (a : Src) (b c : BitVec 6) (s : State) : Res :=
  axReadCmd h (.afwd h f32' sc d a b c) true f32' sc d a b c s

/-- ABWD (R402). -/
def execAbwd (h : Head) (f32' sc : Bool) (d : BitVec 6) (a : Src) (b c : BitVec 6) (s : State) : Res :=
  axReadCmd h (.abwd h f32' sc d a b c) false f32' sc d a b c s

/-- Distance of the columns of an array of elements of es bytes in scratch (R406, R407). -/
def colStride (rows es : Nat) : Nat := 64 * ((rows * es + 63) / 64)

/-- Bytes from the first to the last element of such an array. -/
def colSpan (w : Win) (es : Nat) : Nat := (w.cols - 1) * colStride w.rows es + w.rows * es

/-- A part of a translated range: `len` bytes from offset `off`. -/
def slice (off len : Nat) : List (Nat × Nat × BitVec 2) → List (Nat × Nat × BitVec 2)
  | [] => []
  | (pa, n, at') :: r =>
    if len = 0 then []
    else if n ≤ off then slice (off - n) len r
    else
      let k := min len (n - off)
      (pa + off, k, at') :: slice 0 (len - k) r

/-- ACKR (R406). -/
def execAckr (h : Head) (f : Bool) (ln : BitVec 2) (a : Src) (b : BitVec 6) (s : State) : Res :=
  axRun h (.ackr h f ln a b)
    (fun n => do
      let s ← get
      let _ ← axWin n (s.axs n a)
      axOperand (s.axx n b))
    (fun n => do
      let s ← get
      let w ← axWin n (s.axs n a)
      axTileFree n w.tile
      let es := if f then 1 else 2
      let dst ← axRange n .write (s.axx n b) (colSpan w es)
      axClear n dst
      let (ws, q) := (List.range w.cols).foldl (fun (acc : List PWrite × Nat) j =>
        let (out, q) := checkRead (s.tile n w.tile) w f ln.toNat (w.col0 + j) acc.2
        let at' := j * colStride w.rows es
        (acc.1 ++ pieceWrites (dieOf n) (s.opTag (.ac n 5)) ((s.axx n b).toNat + at') (slice at' (w.rows * es) dst) out, q)) ([], s.seq)
      act fun s => { s with seq := q }
      axStart h n w.tile ws) s

/-! ### Commands that change cells -/

/-- AUPD (R404). -/
def execAupd (h : Head) (d : BitVec 6) (a : Src) (b c : BitVec 6) (s : State) : Res :=
  axRun h (.aupd h d a b c)
    (fun n => do
      let s ← get
      let w ← axWin n (s.axs n a)
      mayChange n w false (s.axs n a)
      need (ctlOk (s.axx n d) true) 0x02 (s.axx n d) 0
      axOperand (s.axx n b)
      axOperand (s.axx n c))
    (fun n => do
      let s ← get
      let w ← axWin n (s.axs n a)
      let ctl := s.axx n d
      axTileFree n w.tile
      let rp ← axRange n .read (s.axx n b) (4 * w.rows)
      let cp ← axRange n .read (s.axx n c) (4 * w.cols)
      axClear n (rp ++ cp)
      if ← axGate n ctl then axSkip h n w.tile
      else
        let rc ← axRead n 4 rp
        let cc ← axRead n 4 cp
        act fun s => s.onTile n w.tile (update n w (bits ctl 0 8) (ctl.getLsbD 8) (elems 4 rc) (elems 4 cc))
        axStart h n w.tile []) s

/-- AXFER (R405). -/
def execAxfer (h : Head) (d : BitVec 6) (a : Src) (s : State) : Res :=
  axRun h (.axfer h d a)
    (fun n => do
      let s ← get
      let w ← axWin n (s.axs n a)
      mayChange n w true (s.axs n a)
      need (ctlOk (s.axx n d) false) 0x02 (s.axx n d) 0)
    (fun n => do
      let s ← get
      let w ← axWin n (s.axs n a)
      axTileFree n w.tile
      if ← axGate n (s.axx n d) then axSkip h n w.tile
      else
        act fun s => s.onTile n w.tile (transfer w)
        axStart h n w.tile []) s

/-- FN of an APROG (Table 13-5). -/
def ProgK.form : ProgK → Nat
  | .s => 0 | .f => 1 | .fsym => 2

/-- Rows that an APROG has to program, from its starting row (R397, R407); `tgt` is the array of targets, `res` the pieces of the residuals. -/
def progRows (n : Nat) (tag : OpTag) (w : Win) (first : Nat) (tgt : List (List Int)) (va : Nat) (res : List (Nat × Nat × BitVec 2)) : List ProgRow :=
  ((List.range w.rows).filter fun i => first ≤ w.row0 + i).map fun i =>
    ⟨w.row0 + i, tgt.map fun col => col.getD i 0,
      (pieceWrites (dieOf n) tag (va + 2 * i) (slice (2 * i) 2 res) [0, 0]).headD ⟨0, [], false, noVa, tag⟩⟩

/-- APROG (R407, R397). Of all its cells, over its stops too, one in a thousand may be missed by more than a level (Table 13-9). -/
def execAprog (h : Head) (k : ProgK) (d : BitVec 6) (a : Src) (b c : BitVec 6) (s : State) : Res :=
  let form := match k with | .s => 0 | .f => 1 | .fsym => 2
  axRun h (.aprog h k d a b c)
    (fun n => do
      let s ← get
      let w ← axWin n (s.axs n a)
      mayChange n w (form == 0) (s.axs n a)
      need (ctlOk (s.axx n d) false) 0x02 (s.axx n d) 0
      if form ≠ 2 then axOperand (s.axx n b)
      axOperand (s.axx n c))
    (fun n => do
      let s ← get
      let w ← axWin n (s.axs n a)
      let win := s.axs n a
      if (s.ac n).axq.any fun c => !c.done then throw .wait
      let tp ← if form = 2 then pure [] else axRange n .read (s.axx n b) (colSpan w 2)
      let rp ← axRange n .write (s.axx n c) (2 * w.rows)
      if ← axGate n (s.axx n d) then axSkip h n w.tile
      else
        let tgt ← if form = 2 then pure []
          else (List.range w.cols).mapM fun j => do
            let bs ← axRead n 2 (slice (j * colStride w.rows 2) (2 * w.rows) tp)
            pure ((elems 2 bs).map fun v => signedOf 2 v)
        let s ← get
        let t := s.tile n w.tile
        let r7 := t.r 7
        let go := r7.getLsbD 63 && bits r7 44 2 == form && bits r7 0 44 == bits win 0 44
        let first := if go then bits (t.r 8) 0 10 else w.row0
        act fun s => if go then s else s.setTile n w.tile (t.setR 7 (setBits r7 63 1 0))
        let s ← get
        let (wait, s) := s.powerAsk n w.tile
        set s
        let rows := progRows n (s.opTag (.ac n 5)) w first tgt (s.axx n c).toNat rp
        let slack := if go then t.slack else rows.length * w.cols / 1000
        axPut n ⟨w.tile, [], wait, Head.give h, 0, false, form, win, rows, ([], false, false, 0), slack⟩) s

/-- ACAL (R408). -/
def execAcal (h : Head) (a b : Src) (s : State) : Res :=
  axRun h (.acal h a b)
    (fun n => do
      let s ← get
      let w ← axWin n (s.axs n a)
      mayChange n w false (s.axs n a)
      need (decide (1 ≤ (s.axs n b).toNat ∧ (s.axs n b).toNat ≤ 255)) 0x02 (s.axs n b) 0)
    (fun n => do
      let s ← get
      let w ← axWin n (s.axs n a)
      axTileFree n w.tile
      act fun s => s.onTile n w.tile (calibrate n w (s.axs n b).toNat)
      axStart h n w.tile []) s

/-! ### Register transfer (R409) -/

/-- ASPR.ld. -/
def execAsprLd (h : Head) (a : Src) (b : BitVec 6) (s : State) : Res :=
  axRun h (.asprLd h a b)
    (fun n => do
      let s ← get
      let _ ← anyWin (s.axs n a)
      axOperand (s.axx n b))
    (fun n => do
      let s ← get
      let w ← anyWin (s.axs n a)
      axTileFree n w.tile
      let ps ← axRange n .read (s.axx n b) (2 * w.cols)
      axClear n ps
      let bs ← axRead n 2 ps
      act fun s =>
        let t := s.tile n w.tile
        s.setTile n w.tile { t with
          spr := ((elems 2 bs).zip (List.range w.cols)).foldl (fun m (v, j) => smPut 0 m (w.col0 + j) (signedOf 2 v)) t.spr }
      axDone h n w.tile) s

/-- ASPR.st. -/
def execAsprSt (h : Head) (a : Src) (b : BitVec 6) (s : State) : Res :=
  axRun h (.asprSt h a b)
    (fun n => do
      let s ← get
      let _ ← anyWin (s.axs n a)
      axOperand (s.axx n b))
    (fun n => do
      let s ← get
      let w ← anyWin (s.axs n a)
      axTileFree n w.tile
      let ps ← axRange n .write (s.axx n b) (2 * w.cols)
      axClear n ps
      act fun s =>
        let t := s.tile n w.tile
        axWrites n s (pieceWrites (dieOf n) (s.opTag (.ac n 5)) (s.axx n b).toNat ps (ofInts 2 ((List.range w.cols).map fun j => t.sprAt (w.col0 + j))))
      axDone h n w.tile) s

/-- Bits of a tile register that ASET may set, and its further limits (R394). -/
def asetOk (reg : Nat) (v : W64) : Bool :=
  match reg with
  | 0 => bits v 16 48 == 0
  | 1 => bits v 32 32 == 0
  | 2 => bits v 16 48 == 0 && v != 0
  | 3 => decide (v.toNat ≤ 2047)
  | 4 => bits v 12 52 == 0 && bits v 4 4 == 0
  | _ => bits v 8 56 == 0

/-- ASET: a write of SEED seeds every generator (R393, R394). -/
def execAset (h : Head) (reg : BitVec 3) (a b : Src) (s : State) : Res :=
  axRun h (.aset h reg a b)
    (fun n => do
      let s ← get
      need (asetOk reg.toNat (s.axs n b)) 0x02 (s.axs n b) 0)
    (fun n => do
      let s ← get
      let ti := bits (s.axs n a) 40 4
      axTileFree n ti
      act fun s =>
        let t := (s.tile n ti).setR reg.toNat (s.axs n b)
        s.setTile n ti (if reg = 1 then { t with rowGen := [], colGen := [] } else t)
      axDone h n ti) s

/-- AMODE (R389, R409). -/
def execAmode (h : Head) (m : TMode) (a : Src) (s : State) : Res :=
  axRun h (.amode h m a) (fun _ => pure ())
    (fun n => do
      let s ← get
      let ti := bits (s.axs n a) 40 4
      axTileFree n ti
      act fun s => s.setTile n ti ((s.tile n ti).setR 6 (match m with | .phys => 0 | .ref => 1 | .frozen => 2 | .frozens => 3))
      axDone h n ti) s

/-- ASTAT (R409). -/
def execAstat (h : Head) (reg : BitVec 4) (d : BitVec 6) (a : Src) (s : State) : Res :=
  axRun h (.astat h reg d a) (fun _ => pure ())
    (fun n => do
      let s ← get
      let ti := bits (s.axs n a) 40 4
      axTileFree n ti
      act fun s => s.modEng n .ax fun x => x.setX d.toNat ((s.tile n ti).r reg.toNat)
      axDone h n ti) s

/-- AREF (R390, R409): s_cell of the REF state, in every mode. -/
def execAref (h : Head) (a : Src) (b : BitVec 6) (s : State) : Res :=
  axRun h (.aref h a b)
    (fun n => do
      let s ← get
      let w ← anyWin (s.axs n a)
      need w.inRef 0x11 (s.axs n a) 0
      axOperand (s.axx n b))
    (fun n => do
      let s ← get
      let w ← anyWin (s.axs n a)
      axTileFree n w.tile
      let ps ← axRange n .read (s.axx n b) (colSpan w 2)
      axClear n ps
      let cols ← (List.range w.cols).mapM fun j => do
        let bs ← axRead n 2 (slice (j * colStride w.rows 2) (2 * w.rows) ps)
        pure (elems 2 bs)
      act fun s =>
        let t := s.tile n w.tile
        let sc := (cols.zip (List.range w.cols)).foldl (fun m (l, j) =>
          (l.zip (List.range w.rows)).foldl (fun m (v, i) => smPut 0 m (cell (w.row0 + i) (w.col0 + j)) (signedOf 2 v)) m) t.sc
        s.setTile n w.tile { t with sc := sc }
      axDone h n w.tile) s

/-! ### Events -/

/-- The oldest started command of a cluster goes on: an APROG by one row, any other to its end; those that have completed
retire in order (R396, R397). -/
def axTurn (n : Nat) (s : State) : State :=
  let a := s.ac n
  let ready := fun (c : AxCmd) => !c.done && !c.waiting
  match a.axq.find? ready with
  | some c =>
    let (c', s) := axAdvance n c s
    let s := s.modAc n fun a => { a with axq := updFirst ready c' a.axq }
    axRetire n ((s.ac n).axq.length + 1) s
  | none => axRetire n (a.axq.length + 1) s

/-- ARRAY_COMMAND_COMPLETE (R396). -/
def execArrayCommandComplete (n : Nat) (s : State) : Res := .next (axTurn n s)

/-- AX_GATE_READ (R399, R192): the command held at its step gate reads it again. -/
def execAxGateRead (n : Nat) (s : State) : Res :=
  rerunEng n .ax (fun i => match i with
    | .aupd h d a b c => some (execAupd h d a b c)
    | .axfer h d a => some (execAxfer h d a)
    | .aprog h k d a b c => some (execAprog h k d a b c)
    | _ => none) s

/-- The oldest array command of a die that waits is admitted while fewer tiles are active than the cap in force (R494). -/
def admitTile (d : Nat) (s : State) : State :=
  let x := s.die d
  match x.pwait with
  | w :: rest =>
    if x.pactive < actCap x then
      let s := s.setDie d { x with pwait := rest, pactive := x.pactive + 1 }
      s.modAc w.ac fun a =>
        let mine := fun (c : AxCmd) => c.waiting && c.tile == w.tile
        match a.axq.find? mine with
        | some c => { a with axq := updFirst mine { c with waiting := false } a.axq }
        | none => a
    else s
  | [] => s

/-- POWER_ADMIT (R494). -/
def execPowerAdmit (d : Nat) (s : State) : Res := .next (admitTile d s)

/-- Cycles of an hour (R2). -/
def hour : Nat := 6480000000000

/-- The fast level of a physical cell after a drift of at most m levels toward its symmetry point sc, in sixteenths (Table 13-9): how far it
goes is free. -/
def driftFast (l sc : Int) (m q : Nat) : Int :=
  let far := min m (((sc - 16 * l).natAbs + 15) / 16)
  let k := min far (Config.physStep q).natAbs
  satInt (if 16 * l < sc then l + k else l - k) (-255) 255

/-- The levels of one physical cell after their drift by a cycle (R410): for each whole hour since the cell was last programmed or drifted the fast
level may go one level toward the symmetry point, and for each twenty hours the slow level one level (Table 13-9); by how much is free (log entry 10). -/
def driftCell (n tile cycle k : Nat) (x : TileS) : TileS :=
  let (t, q) := x
  let f := smGet 0 t.fastAt k
  let g := smGet 0 t.slowAt k
  let mf := (cycle - f) / hour
  let ms := (cycle - g) / (20 * hour)
  if mf = 0 ∧ ms = 0 then x
  else
    ({ t with
      plf := smPut 0 t.plf k (driftFast (smGet 0 t.plf k) (cellSym n tile (k / 1024) (k % 1024)) mf q)
      pls := smPut 0 t.pls k (satInt (smGet 0 t.pls k + satInt (Config.physStep (q + 1)) (-ms) ms) (-2047) 2047)
      fastAt := smPut 0 t.fastAt k (f + mf * hour)
      slowAt := smPut 0 t.slowAt k (g + ms * (20 * hour)) }, q + 2)

/-- CELL_DRIFT (R410): the physical cells of a tile drift. -/
def execCellDrift (n tile : Nat) (s : State) : Res :=
  if s.cycle < hour then .next s
  else .next (s.onTile n tile fun x => (List.range 1048576).foldl (fun x k => driftCell n tile s.cycle k x) x)

end Sys2Proof.Machine
end

