-- ==== Sys2Proof/Machine/CcFp.lean ====
section
/-! DEFINITION. Scalar floating point of the control core (R295 to R298). -/

namespace Sys2Proof.Machine

/-- An arithmetic instruction: exact result, rounded once to the precision and mode of FN; SR draws from CSRSEED and
CSRCTR (R295, R296). -/
def ccFp (h : Head) (f : FOp) (d : BitVec 6) (g : CC → FVal) (s : State) : Res :=
  ccPure h (fun c =>
    let x := g c
    let (r, c) := c.draw f.mode
    c.setS d (fpReg f r x)) s

/-- FADD (R296). -/
def execFadd (h : Head) (f : FOp) (d : BitVec 6) (a b : Src) (s : State) : Res :=
  ccFp h f d (fun c => addX f.mode (c.fsrc f.bf a) (c.fsrc f.bf b)) s
/-- FSUB (R296). -/
def execFsub (h : Head) (f : FOp) (d : BitVec 6) (a b : Src) (s : State) : Res :=
  ccFp h f d (fun c => addX f.mode (c.fsrc f.bf a) (c.fsrc f.bf b).negate) s
/-- FMUL (R296). -/
def execFmul (h : Head) (f : FOp) (d : BitVec 6) (a b : Src) (s : State) : Res :=
  ccFp h f d (fun c => mulX (c.fsrc f.bf a) (c.fsrc f.bf b)) s
/-- FFMA (R296). -/
def execFfma (h : Head) (f : FOp) (d : BitVec 6) (a b c : Src) (s : State) : Res :=
  ccFp h f d (fun x => fmaX f.mode (x.fsrc f.bf a) (x.fsrc f.bf b) (x.fsrc f.bf c)) s
/-- FDIV (R296). -/
def execFdiv (h : Head) (f : FOp) (d : BitVec 6) (a b : Src) (s : State) : Res :=
  ccFp h f d (fun c => divX (c.fsrc f.bf a) (c.fsrc f.bf b)) s
/-- FSQRT (R296). -/
def execFsqrt (h : Head) (f : FOp) (d : BitVec 6) (a : Src) (s : State) : Res :=
  ccFp h f d (fun c => sqrtX (c.fsrc f.bf a)) s
/-- FMINMAX (R296, R215). -/
def execFminmax (h : Head) (bf mx : Bool) (d : BitVec 6) (a b : Src) (s : State) : Res :=
  ccFp h ⟨bf, .rne⟩ d (fun c => (if mx then maxX else minX) (c.fsrc bf a) (c.fsrc bf b)) s
/-- FCMP (R297). -/
def execFcmp (h : Head) (bf : Bool) (c : FCond) (p : BitVec 4) (a b : Src) (s : State) : Res :=
  ccPure h (fun x => x.setP p (fcond c (x.fsrc bf a) (x.fsrc bf b))) s

/-- The result of FCVT for a code of Table 10-4: a literal source is read as the code's source kind (R266). -/
def fcvtVal (code : BitVec 3) (m : RMode) (r : W32) (c : CC) (a : Src) : W64 :=
  let x32 := c.fsrc false a
  let x16 := c.fsrc true a
  let i := c.src a
  match code.toNat with
  | 0 => (toB16 m r false x32).setWidth 64
  | 1 => (toF32 .rne 0 false x16).setWidth 64
  | 2 => BitVec.ofInt 64 (toInt 64 m r x32).1
  | 3 => BitVec.ofInt 64 (toInt 32 m r x32).1
  | 4 => (toF32 m r false (.ofInt i.toInt)).setWidth 64
  | 5 => (toF32 m r false (.ofInt (i.setWidth 32).toInt)).setWidth 64
  | 6 => (toB16 m r false (.ofInt i.toInt)).setWidth 64
  | _ => BitVec.ofInt 64 (toInt 64 m r x16).1

/-- FCVT (R298): under SR every code draws (R209). -/
def execFcvt (h : Head) (m : RMode) (code : BitVec 3) (d : BitVec 6) (a : Src) (s : State) : Res :=
  ccPure h (fun c =>
    let (r, c') := c.draw m
    c'.setS d (fcvtVal code m r c a)) s

end Sys2Proof.Machine
end

