-- ==== Sys2Proof/Machine/CcInt.lean ====
section
/-! DEFINITION. Integer instructions of the control core: arithmetic, bit fields, selection, constants, compares and
predicates (R289 to R294). -/

namespace Sys2Proof.Machine

/-- A result in sD from two sources: the 64-bit form, or the .s32 form on bits 31:0, sign-extended (R289). -/
def ccBin (h : Head) (w : Bool) (d : BitVec 6) (a b : Src) (f64 : W64 → W64 → W64) (f32 : W32 → W32 → W32) (s : State) : Res :=
  ccPure h (fun c =>
    let x := c.src a
    let y := c.src b
    c.setS d (if w then (f32 (x.setWidth 32) (y.setWidth 32)).signExtend 64 else f64 x y)) s

/-- A 64-bit result in sD from two sources. -/
def ccBin64 (h : Head) (d : BitVec 6) (a b : Src) (f : W64 → W64 → W64) (s : State) : Res :=
  ccPure h (fun c => c.setS d (f (c.src a) (c.src b))) s

/-- A 64-bit result in sD from one source. -/
def ccUn (h : Head) (d : BitVec 6) (a : Src) (f : W64 → W64) (s : State) : Res :=
  ccPure h (fun c => c.setS d (f (c.src a))) s

/-- Signed quotient with the borderline results of Table 10-3. -/
def sdivR {w : Nat} (a b : BitVec w) : BitVec w := if b = 0 then BitVec.allOnes w else a.sdiv b
def udivR {w : Nat} (a b : BitVec w) : BitVec w := if b = 0 then BitVec.allOnes w else a / b
def sremR {w : Nat} (a b : BitVec w) : BitVec w := if b = 0 then a else a.srem b
def uremR {w : Nat} (a b : BitVec w) : BitVec w := if b = 0 then a else a % b

/-- High half of a product (R289). -/
def mulHi (a b : Int) : W64 := BitVec.ofInt 64 (a * b / 2 ^ 64)

/-- Leading and trailing zero bits, and set bits (Table 10-2). -/
def clz64 (a : W64) : Nat := ((List.range 64).find? fun i => a.getLsbD (63 - i)).getD 64
def ctz64 (a : W64) : Nat := ((List.range 64).find? fun i => a.getLsbD i).getD 64
def popc64 (a : W64) : Nat := (List.range 64).foldl (fun k i => if a.getLsbD i then k + 1 else k) 0

/-- Position and clipped width of a bit field (R291). -/
def fieldOf (b : W64) : Nat × Nat :=
  let pos := bits b 0 6
  (pos, min (bits b 6 6 + 1) (64 - pos))

/-- BFX (R291). -/
def bfxVal (sx : Bool) (a b : W64) : W64 :=
  let (pos, w) := fieldOf b
  let v := a.toNat / 2 ^ pos % 2 ^ w
  if sx && decide (2 ^ (w - 1) ≤ v) then BitVec.ofInt 64 ((v : Int) - 2 ^ w) else BitVec.ofNat 64 v

/-- BFI (R291). -/
def bfiVal (d a b : W64) : W64 :=
  let (pos, w) := fieldOf b
  setBits d pos w (a.toNat % 2 ^ w)

/-- ADD (R289). -/
def execAdd (h : Head) (w : Bool) (d : BitVec 6) (a b : Src) (s : State) : Res := ccBin h w d a b (· + ·) (· + ·) s
/-- SUB (R289). -/
def execSub (h : Head) (w : Bool) (d : BitVec 6) (a b : Src) (s : State) : Res := ccBin h w d a b (· - ·) (· - ·) s
/-- MUL (R289). -/
def execMul (h : Head) (w : Bool) (d : BitVec 6) (a b : Src) (s : State) : Res := ccBin h w d a b (· * ·) (· * ·) s
/-- MULH (R289). -/
def execMulh (h : Head) (d : BitVec 6) (a b : Src) (s : State) : Res := ccBin64 h d a b (fun x y => mulHi x.toInt y.toInt) s
/-- MULHU (R289). -/
def execMulhu (h : Head) (d : BitVec 6) (a b : Src) (s : State) : Res := ccBin64 h d a b (fun x y => mulHi x.toNat y.toNat) s
/-- DIV (R289, R290). -/
def execDiv (h : Head) (w : Bool) (d : BitVec 6) (a b : Src) (s : State) : Res := ccBin h w d a b sdivR sdivR s
/-- DIVU (R289, R290). -/
def execDivu (h : Head) (w : Bool) (d : BitVec 6) (a b : Src) (s : State) : Res := ccBin h w d a b udivR udivR s
/-- REM (R289, R290). -/
def execRem (h : Head) (w : Bool) (d : BitVec 6) (a b : Src) (s : State) : Res := ccBin h w d a b sremR sremR s
/-- REMU (R289, R290). -/
def execRemu (h : Head) (w : Bool) (d : BitVec 6) (a b : Src) (s : State) : Res := ccBin h w d a b uremR uremR s
/-- AND (R289). -/
def execAnd (h : Head) (d : BitVec 6) (a b : Src) (s : State) : Res := ccBin64 h d a b (· &&& ·) s
/-- OR (R289). -/
def execOr (h : Head) (d : BitVec 6) (a b : Src) (s : State) : Res := ccBin64 h d a b (· ||| ·) s
/-- XOR (R289). -/
def execXor (h : Head) (d : BitVec 6) (a b : Src) (s : State) : Res := ccBin64 h d a b (· ^^^ ·) s
/-- ANDN (R289). -/
def execAndn (h : Head) (d : BitVec 6) (a b : Src) (s : State) : Res := ccBin64 h d a b (fun x y => x &&& ~~~ y) s
/-- SHL (R289). -/
def execShl (h : Head) (w : Bool) (d : BitVec 6) (a b : Src) (s : State) : Res :=
  ccBin h w d a b (fun x y => x <<< (y.toNat % 64)) (fun x y => x <<< (y.toNat % 32)) s
/-- SHR (R289). -/
def execShr (h : Head) (w : Bool) (d : BitVec 6) (a b : Src) (s : State) : Res :=
  ccBin h w d a b (fun x y => x >>> (y.toNat % 64)) (fun x y => x >>> (y.toNat % 32)) s
/-- SHA (R289). -/
def execSha (h : Head) (w : Bool) (d : BitVec 6) (a b : Src) (s : State) : Res :=
  ccBin h w d a b (fun x y => x.sshiftRight (y.toNat % 64)) (fun x y => x.sshiftRight (y.toNat % 32)) s
/-- ROL (R289). -/
def execRol (h : Head) (d : BitVec 6) (a b : Src) (s : State) : Res := ccBin64 h d a b (fun x y => x.rotateLeft (y.toNat % 64)) s
/-- MIN (R289). -/
def execMin (h : Head) (d : BitVec 6) (a b : Src) (s : State) : Res := ccBin64 h d a b (fun x y => if y.slt x then y else x) s
/-- MINU (R289). -/
def execMinu (h : Head) (d : BitVec 6) (a b : Src) (s : State) : Res := ccBin64 h d a b (fun x y => if y.ult x then y else x) s
/-- MAX (R289). -/
def execMax (h : Head) (d : BitVec 6) (a b : Src) (s : State) : Res := ccBin64 h d a b (fun x y => if x.slt y then y else x) s
/-- MAXU (R289). -/
def execMaxu (h : Head) (d : BitVec 6) (a b : Src) (s : State) : Res := ccBin64 h d a b (fun x y => if x.ult y then y else x) s
/-- CLZ (R289). -/
def execClz (h : Head) (d : BitVec 6) (a : Src) (s : State) : Res := ccUn h d a (fun x => BitVec.ofNat 64 (clz64 x)) s
/-- CTZ (R289). -/
def execCtz (h : Head) (d : BitVec 6) (a : Src) (s : State) : Res := ccUn h d a (fun x => BitVec.ofNat 64 (ctz64 x)) s
/-- POPC (R289). -/
def execPopc (h : Head) (d : BitVec 6) (a : Src) (s : State) : Res := ccUn h d a (fun x => BitVec.ofNat 64 (popc64 x)) s
/-- BFX (R291). -/
def execBfx (h : Head) (sx : Bool) (d : BitVec 6) (a b : Src) (s : State) : Res := ccBin64 h d a b (bfxVal sx) s
/-- BFI reads sD as a third source (R291). -/
def execBfi (h : Head) (d : BitVec 6) (a b : Src) (s : State) : Res :=
  ccPure h (fun c => c.setS d (bfiVal (c.s d) (c.src a) (c.src b))) s
/-- SEL (R292). -/
def execSel (h : Head) (d : BitVec 6) (a b : Src) (p : BitVec 4) (s : State) : Res :=
  ccPure h (fun c => c.setS d (if c.p p then c.src a else c.src b)) s
/-- LI (R292). -/
def execLi (h : Head) (d : BitVec 6) (a : Src) (s : State) : Res := ccUn h d a id s
/-- LIH (R292). -/
def execLih (h : Head) (d : BitVec 6) (a : Src) (s : State) : Res :=
  ccPure h (fun c => c.setS d ((c.src a).setWidth 32 ++ (c.s d).setWidth 32)) s
/-- LEA (R292). -/
def execLea (h : Head) (sh : BitVec 2) (d : BitVec 6) (a b : Src) (s : State) : Res :=
  ccBin64 h d a b (fun x y => x + y <<< sh.toNat) s
/-- LEA relative to its own address (R292). -/
def execLeaPc (h : Head) (d : BitVec 6) (b : Src) (s : State) : Res := ccPure h (fun c => c.setS d (c.pc + c.src b)) s
/-- CMP (R293). -/
def execCmp (h : Head) (c : Cond) (p : BitVec 4) (a b : Src) (s : State) : Res :=
  ccPure h (fun x => x.setP p (cmpCond c (x.src a) (x.src b))) s
/-- PLOG (R294). -/
def execPlog (h : Head) (f : PFn) (d a b : BitVec 4) (s : State) : Res :=
  ccPure h (fun c => c.setP d (predLogic f (c.p a) (c.p b))) s
/-- PMOV to a predicate (R294). -/
def execPmovToPred (h : Head) (d : BitVec 4) (a : Src) (s : State) : Res := ccPure h (fun c => c.setP d (c.src a != 0)) s
/-- PMOV of one predicate to a scalar (R294). -/
def execPmovToScalar (h : Head) (d : BitVec 6) (a : BitVec 4) (s : State) : Res :=
  ccPure h (fun c => c.setS d (if c.p a then 1 else 0)) s
/-- PMOV of all predicates to a scalar (R294). -/
def execPmovAll (h : Head) (d : BitVec 6) (s : State) : Res :=
  ccPure h (fun c => c.setS d ((c.preg ||| 1).setWidth 64)) s
/-- PMOV of a scalar to all predicates (R294). -/
def execPmovSet (h : Head) (a : Src) (s : State) : Res :=
  ccPure h (fun c => { c with preg := (c.src a).setWidth 16 &&& 0xFFFE }) s

end Sys2Proof.Machine
end

