-- ==== Sys2Proof/Machine/DispI.lean ====
section
/-! DEFINITION. Events of the dispatch hardware (R235, R239 to R241, R250 to R257, R421 to R433): admission, dependences, conditions, epochs,
decisions, continuations, completion, mailboxes. -/

namespace Sys2Proof.Machine

/-- Run an access of dispatch that holds on a translation fault; `bad` is what an abort or a denial comes to. -/
def dispHeld (d tag : Nat) (bad : State → State) (f : M Unit) (s : State) : State := s.runHeld (.disp d) tag bad bad f

/-! ### The launch table (R425 to R430) -/

/-- The granule that a launch in DEP watches (R427): that of its word in HBM, or none. -/
def watchDep (d l : Nat) (g : Option Nat) (s : State) : State :=
  let rest := s.watch.filter fun w => w.2 != (d, 256 + l)
  { s with watch := match g with | some k => (k / 64 * 64, d, 256 + l) :: rest | none => rest }

/-- The entry becomes FREE: its ranges, its watch and an access that it is held on are gone. -/
def freeEntry (d l : Nat) (s : State) : State :=
  let s := watchDep d l none (s.freeRanges (s.lent d l).launch true)
  s.modDie d fun x => ({ x with ltab := smErase x.ltab l }).dropTag d (dispTag l)

/-- A launch is rejected with a reason: its entry is FREE (R235). -/
def rejectEntry (d l reason : Nat) (s : State) : State := (freeEntry d l s).addDispatchRecord d (s.lent d l).lrecVa 0 reason

/-- Share of a die in an epoch's range (R241), given the dies with a bound cluster. -/
def dieShare (r : List W64) (bound : List Nat) (d : Nat) : Nat × Nat :=
  let L := lrTasks r
  if lrHas r 1 then
    let g := max 1 (lrGroup r 1)
    let G := L / g
    (G * d / 4 * g, G * (d + 1) / 4 * g)
  else
    match bound.findIdx? (· == d) with
    | none => (0, 0)
    | some j =>
      let g := max 1 (lrGran r)
      let C := (L + g - 1) / g
      let m := bound.length
      (min L (C * j / m * g), min L (C * (j + 1) / m * g))

/-- Place the current epoch of a launch (R241), if some die has a bound cluster and every die with a share has a free slot. -/
def placeEpoch (d l : Nat) (s : State) : State :=
  let e := s.lent d l
  let acs := s.boundAcs e.launch
  let bound := (List.range 4).filter fun k => acs.any fun n => dieOf n == k
  let shares := (List.range 4).map fun k => (k, dieShare e.lrec bound k)
  let need := shares.filter fun x => decide (x.2.1 < x.2.2)
  if bound.isEmpty ∨ need.isEmpty ∨ need.any fun x => (s.die x.1).freeSlot.isNone then s
  else
    let s := need.foldl (fun s (k, lo, hi) => s.modDie k fun x =>
      match x.freeSlot with
      | some i => x.newWalker i ⟨e.launch, e.epoch, lo, hi, lrGran e.lrec, 0⟩
      | none => x) s
    s.modLent d l fun e => { e with placed := true }

/-- Place the tasks of a persistent launch, one on each bound cluster in order (R257). -/
def placePersist (d l : Nat) (s : State) : State :=
  let e := s.lent d l
  let acs := s.boundAcs e.launch
  let L := lrTasks e.lrec
  if acs.length < L then rejectEntry d l 9 s
  else
    let s := ((List.range L).zip acs).foldl (fun s (i, n) => s.modAc n fun a =>
      { a with disp := { a.disp with claims := a.disp.claims ++ [(e.launch, i, i + 1)] } }) s
    (s.modLent d l fun e => { e with placed := true }).checkDrain d l

/-- The record can still be read for dispatch; otherwise the launch is cancelled (R429). -/
def recordReadable (d l : Nat) (k : State → State) (s : State) : State :=
  let e := s.lent d l
  dispHeld d (dispTag l) (fun s => s.cancelLaunch d l 0x100) (do
    let _ ← reach (.disp d) .read e.lrecVa.toNat 256
    act k) s

/-- An epoch starts, or the tasks of a persistent launch are placed. -/
def placeTasks (d l : Nat) (s : State) : State :=
  recordReadable d l (if lrPersist (s.lent d l).lrec then placePersist d l else placeEpoch d l) s

/-- A launch enters RUN, or DRAIN with no task (R426, R428). -/
def enterRun (d l : Nat) (matched : Bool) (s : State) : State :=
  let e := s.lent d l
  if !matched ∨ lrTasks e.lrec = 0 ∨ lrEpochs e.lrec = 0 then s.modLent d l fun e => { e with st := 3 }
  else
    placeTasks d l (s.modLent d l fun e => { e with st := 2 })

/-- The condition is applied (R428). -/
def applyCond (d l : Nat) (s : State) : State :=
  let e := s.lent d l
  let s := watchDep d l none s
  if !lrCond e.lrec then enterRun d l true s
  else dispHeld d (dispTag l) (rejectEntry d l 10) (do
    let b ← strongRead (.disp d) .die (rw e.lrec 9) 8
    act (acquire (.disp d) .die)
    act (enterRun d l (le64 b == rw e.lrec 10))) s

/-- The dependence of a launch has been satisfied (R427). -/
def LEntry.depMet (e : LEntry) : Bool := rw e.lrec 7 == 0 || (e.depAt.isSome && decide ((rw e.lrec 8).toNat ≤ e.depseen.toNat))

/-- A launch in DEP reads its dependence counter (R427); once satisfied, its condition is applied. A word in HBM is watched for the next
write of its granule. -/
def readDep (d l : Nat) (s : State) : State :=
  let e := s.lent d l
  let dep := rw e.lrec 7
  if e.st ≠ 1 ∨ e.cancelled ∨ e.paused then s
  else if e.depMet then applyCond d l s
  else dispHeld d (dispTag l) (rejectEntry d l 10) (do
    let ps ← reach (.disp d) .read dep.toNat 8
    let b ← strongRead (.disp d) .pkg dep 8
    act (acquire (.disp d) .pkg)
    act fun s =>
      let s := s.modLent d l fun e => { e with depseen := le64 b, depAt := some s.cycle }
      let s := watchDep d l ((ps.head?.map (·.1)).bind fun pa => if inHbm pa then some (canonPa d pa) else none) s
      if (s.lent d l).depMet then applyCond d l s else s) (s.modLent d l fun e => { e with depAt := none })

/-- The word is read when no read has been made since the last write of its granule; one that is not in HBM, again every 1 µs (R427). -/
def depTurn (d l : Nat) (s : State) : State :=
  let e := s.lent d l
  let due := match e.depAt with
    | none => true
    | some c => e.depMet || (!(s.watch.any fun w => w.2 == (d, 256 + l)) && decide (c + 1800 ≤ s.cycle))
  if due then readDep d l s else s

/-- DEPENDENCE_READ (R427). -/
def execDependenceRead (d l : Nat) (s : State) : Res := .next (readDep d l s)

/-- The launch left the queue: PEND of its mailbox entry falls (R426). -/
def popLaunch (d : Nat) (q : LqEntry) (s : State) : State :=
  let s := s.modDie d fun x => { x with launchQ := x.launchQ.drop 1 }
  if q.mbox = 0 then s
  else
    let off := 0x40000 + 64 * (q.mbox - 1) + 16
    let w := s.reg d off
    s.setReg d off (setBits w 32 16 (bits w 32 16 - 1))

/-- Reason for rejection of a record as it is read, persistence among them (R235, R257). -/
def rejectReason (r : List W64) : Option Nat :=
  match recordReason r with
  | some k => some k
  | none => if lrPersist r ∧ (lrLevels r).any (·.barrier) then some 9 else none

/-- Dispatch reads what a launch hands to its tasks by address, its TDT and its parameter block (R164, R62): the granule at the address, as the
spec gives neither a size; a zero address hands over nothing (DESIGN CHOICE, log entry 100). -/
def readHanded (d : Nat) (va : W64) : M Unit := do
  if va ≠ 0 then
    let _ ← readAcquired (.disp d) .pkg (va &&& ~~~ 63) 64 8
  pure ()

/-- The head of a die's launch queue enters the lowest FREE entry (R425, R426, R164). -/
def admitLaunch (d : Nat) (s : State) : State :=
  match (s.die d).launchQ, (List.range 64).find? fun l => (smFind (s.die d).ltab l).isNone with
  | q :: _, some l =>
    let bad := fun (s : State) => (popLaunch d q s).addDispatchRecord d q.lrec 0 10
    dispHeld d 0 bad (do
      let b ← readAcquired (.disp d) .pkg q.lrec 256 8
      let r := words64 b
      if (rejectReason r).isNone then
        readHanded d (rw r 5)
        readHanded d (rw r 6)
      act fun s =>
        let s := popLaunch d q s
        match rejectReason r with
        | some k => s.addDispatchRecord d q.lrec 0 k
        | none =>
          let e : LEntry := ⟨1, q.launch, q.lrec, r, 0, 0, 0, none, 0, false, false, false, [], []⟩
          let s := s.modDie d fun x => { x with ltab := smSet x.ltab l e }
          if rw r 7 = 0 then applyCond d l s else s) s
  | _, _ => s

/-- LAUNCH_QUEUE_ADMIT (R425). -/
def execLaunchQueueAdmit (d : Nat) (s : State) : Res := .next (admitLaunch d s)

/-! ### Epochs (R239, R241) -/

/-- The widest scope among the barrier levels whose value changes between two epochs (R239). -/
def transitionScope (r : List W64) (epoch : Nat) : Scope :=
  let ls := (lrLevels r).filter (·.barrier)
  let ex := ls.map (·.extent)
  ((ls.zip ((unrank ex epoch).zip (unrank ex (epoch + 1)))).filter fun x => x.2.1 != x.2.2).foldl
    (fun sc x => Scope.wider sc (scopeOf x.1.scope)) .ac

/-- The writes that the tasks of a launch made on clusters are released at a scope (R164, R239). -/
def releaseTasks (acs : List Nat) (launch : Nat) (sc : Scope) (s : State) : State :=
  releaseOps (acs.flatMap acAgents) sc (fun t => t.launch == launch + 1) s

/-- The agents of clusters release at a scope what their tasks of a launch have written, and what their views hold (R141, R239); what a task that a
cluster has begun since has stored stays unreleased. -/
def releaseEpoch (acs : List Nat) (launch : Nat) (sc : Scope) (s : State) : State :=
  (acs.flatMap acAgents).foldl (fun s a => releaseSeen a sc (fun v id => v.id == id && !v.unreleased a) s) (releaseTasks acs launch sc s)

/-- What clusters have released at a scope has been performed (R132, R166). -/
def State.settledAcs (s : State) (sc : Scope) (acs : List Nat) : Bool := s.settled sc fun b => acs.any fun n => shares .quad (.ac n 0) b

/-- The next epoch starts once every task of the current one has ended and its clusters have released (R239); an epoch that found no
slots, or no bound cluster, is tried again. -/
def startEpoch (d l : Nat) (s : State) : State :=
  let e := s.lent d l
  if e.st ≠ 2 ∨ e.cancelled ∨ e.paused then s
  else if !e.placed then placeTasks d l s
  else if lrPersist e.lrec ∨ e.epDone < lrTasks e.lrec ∨ lrEpochs e.lrec ≤ e.epoch + 1 then s
  else
    let sc := transitionScope e.lrec e.epoch
    let s := releaseEpoch e.ran e.launch sc s
    if !s.settledAcs sc e.ran then s
    else placeTasks d l (s.modLent d l fun e => { e with epoch := e.epoch + 1, epDone := 0, placed := false, ran := [] })

/-- EPOCH_START (R239, R241). -/
def execEpochStart (d l : Nat) (s : State) : Res := .next (startEpoch d l s)

/-! ### Continuations (R251 to R254) -/

/-- A continuation record keeps Table 8-10. -/
def contOk (w : List W64) : Bool :=
  let g := fun i => w.getD i 0
  let k := (maskRegs (g 1)).length
  bits (g 0) 40 12 == 0 && decide (bits (g 0) 54 3 < 4) && bits (g 0) 52 2 != 3 && bits (g 0) 62 2 != 0 && !(g 1).getLsbD 0 && decide (k ≤ 16)
    && bits (g 2) 55 9 == 0 && g 6 == 0 && g 7 == 0 && (w.drop (8 + k)).all (· == 0)

/-- Completion scopes of the awaited operation (Table 5-4): for copies, .fab too where one that may be meant went across the fabric. -/
def Cont.doneScopes (c : Cont) (far : List Nat) : List Scope :=
  match c.wkind with
  | 1 => (match c.ctx with
    | 0 => if far.any fun k => decide (k ≤ c.wval0.toNat) then [.pkg, .fab] else [.pkg]
    | 2 => [.fab]
    | _ => [.pkg])
  | 2 => [.fab]
  | 3 => if far.isEmpty then [.pkg] else [.pkg, .fab]
  | _ => []

/-- What a continuation record says of its resume (R251, Table 8-10). -/
def Cont.reread (c : Cont) (w : List W64) : Cont :=
  let h := w.getD 0 0
  { c with domain := bits h 60 2, wkind := bits h 54 3, ctx := bits h 52 2, waddr := w.getD 3 0, wval0 := w.getD 4 0, wval1 := w.getD 5 0 }

/-- Forget a tracked continuation. -/
def State.dropCont (s : State) (d : Nat) (c : Cont) : State := s.modDie d fun x => { x with conts := x.conts.filter (· != c) }

/-- Set STATE in a continuation's record. -/
def contState (d : Nat) (c : Cont) (v : Nat) : M Unit := do
  let b ← strongRead (.disp d) .pkg c.va 8
  strongWrite (.disp d) .pkg c.va (bytes64 (setBits (le64 b) 62 2 v)) (pure ())

/-- The condition of a waiting continuation (R253). -/
def contHolds (d : Nat) (c : Cont) : M Bool := do
  match c.wkind with
  | 1 => do
    let s ← get
    pure (decide (c.wval0.toNat ≤ (s.ac c.origin).ln.shown (5 + c.ctx)))
  | 2 => do
    let b ← strongRead (.disp d) .fab c.waddr 8
    act (acquire (.disp d) .fab)
    pure (tagReached (le64 b) c.wval0)
  | 3 => do
    let _ ← reach (.disp d) .read c.waddr.toNat 16
    let lo ← strongRead (.disp d) .pkg c.waddr 8
    let hi ← strongRead (.disp d) .pkg (c.waddr + 8) 8
    act (acquire (.disp d) .pkg)
    pure (le64 lo &&& c.wval0 == c.wval0 && le64 hi &&& c.wval1 == c.wval1)
  | _ => pure true

/-- A waiting continuation becomes ready when its condition holds (R253); what it waits on, or its record, that cannot be read cancels
the launch. -/
def contReady (d : Nat) (c : Cont) (s : State) : State :=
  if c.ready then s
  else
    let bad := fun (s : State) => match s.findLaunch c.launch with
      | some (ld, l) => s.cancelLaunch ld l 0x100
      | none => s.dropCont d c
    dispHeld d (contTag c.va) bad (do
      if ← contHolds d c then
        contState d c 2
        act fun s => s.modDie d fun x =>
          { x with conts := x.conts.map fun y => if y = c then { y with ready := true, readyAt := s.cycle } else y }
      else pure ()) s

/-- CONTINUATION_READY (R253): the continuation of a die whose record lies at an address. -/
def execContinuationReady (d rec' : Nat) (s : State) : Res :=
  .next (match (s.die d).conts.find? fun c => c.va.toNat == rec' with
    | some c => contReady d c s
    | none => s)

/-- Resume a continuation on a cluster (R254, R251, R429). -/
def resumeCont (n cd : Nat) (c : Cont) (x : Item) (items : List Item) (s : State) : State :=
  let e := s.lent x.d x.l
  let bad := fun (s : State) => s.cancelLaunch x.d x.l 0x100
  dispHeld (dieOf n) (contTag c.va) bad (do
    let _ ← reach (.disp (dieOf n)) .read e.lrecVa.toNat 256
    let b ← readAcquired (.disp (dieOf n)) .pkg c.va 256 8
    let w := words64 b
    if !contOk w then act bad
    else
      contState (dieOf n) c 3
      act fun s =>
        let s := (s.dropCont cd c).charge n x.i x.prio items
        let s := s.taskStart n ⟨e.launch, x.d, x.l, e.lrec, 0, e.epoch, true, x.prio, x.i⟩
        let s := s.modCC n fun cc =>
          let cc := ((maskRegs (w.getD 1 0)).zip (w.drop 8)).foldl (fun cc (i, v) => cc.setS (BitVec.ofNat 6 i) v) cc
          { cc with pc := addr55 (w.getD 2 0) }
        let r := c.reread w
        (domainScope r.domain :: r.doneScopes (s.ac r.origin).ln.farCp).foldl (fun s sc => acquireAll n sc s) s) s

/-! ### Completion (R250, R164, R472) -/

/-- No copy, kettle command or pour of the launch is outstanding (R250). -/
def State.ioIdle (s : State) (launch : Nat) : Bool :=
  s.acs.all fun (_, a) => a.io.copies.all (·.launch != launch) && a.io.nm.all (·.launch != launch) && a.io.pours.all (·.2 != launch)

/-- Every coordinate has executed. -/
def LEntry.allDone (e : LEntry) : Bool := !e.placed || e.done == lrTasks e.lrec * lrEpochs e.lrec

/-- The completion that CKIND names (R250). -/
def completion (d l : Nat) (r : List W64) : M Unit := do
  let w := rw r 11
  let va := addr55 w
  match bits w 62 2 with
  | 1 => do
    let _ ← atomicAt (.disp d) .pkg va 8 (act (release (.disp d) .pkg)) fun o => some (bytes64 (le64 o + rw r 12))
    pure ()
  | 2 => strongWrite (.disp d) .pkg va (bytes64 (rw r 12)) (act (release (.disp d) .pkg))
  | 3 => act fun s =>
    let s := release (.disp d) .fab s
    if s.routeValid d (fabNode (bits w 0 52)) then s.send (.done d l) (bits w 0 52) (.write (bytes64 (rw r 12)) true)
    else let (w0, w1) := routeRecord (.disp d) (bits w 0 52); s.addAccessRecord (.disp d) w0 w1 0
  | _ => pure ()

/-- A launch in DRAIN completes, or a cancelled one is freed (R250, R246, R426). -/
def complete (d l : Nat) (s : State) : State :=
  let e := s.lent d l
  if e.st ≠ 3 ∨ e.paused ∨ !(s.running e.launch).isEmpty then s
  else if e.cancelled then freeEntry d l s
  else if !e.allDone ∨ !s.ioIdle e.launch then s
  else
    let s := releaseTasks e.ranAll e.launch .pkg s
    if !s.settledAcs .pkg e.ranAll then s
    else dispHeld d (dispTag l) (freeEntry d l) (do
      completion d l e.lrec
      act (freeEntry d l)) s

/-- LAUNCH_COMPLETE (R250). -/
def execLaunchComplete (d l : Nat) (s : State) : Res := .next (complete d l s)

/-- LAUNCH_CANCEL: CANCEL is written to an entry (R430). -/
def execLaunchCancel (d l : Nat) (s : State) : Res := .next (s.cancelLaunch d l 0x102)

/-! ### Mailboxes and bind records (R255, R256, R422) -/

/-- A firing is taken up (R256): for a mailbox entry, a launch of the LREC that the entry held at the write; for a launch in DEP, another
read of its word (R427). -/
def takeFiring (d i : Nat) (lrec : W64) (s : State) : State :=
  if 256 ≤ i then
    if (s.lent d (i - 256)).depMet then s else readDep d (i - 256) s
  else
    let off := 0x40000 + 64 * i
    let w2 := s.reg d (off + 16)
    let w3 := s.reg d (off + 24)
    if bits w2 32 16 = 0xFFFF then
      (s.setReg d (off + 24) (setBits w3 32 32 (bits w3 32 32 + 1))).addDispatchRecord d lrec (BitVec.ofNat 64 (bits (s.reg d off) 6 46 * 64)) 0x101
    else
      let s := (s.setReg d (off + 16) (setBits w2 32 16 (bits w2 32 16 + 1))).setReg d (off + 24) (setBits w3 0 32 (bits w3 0 32 + 1))
      let x := s.die d
      s.setDie d { x with launchQ := x.launchQ ++ [⟨lrec, d * 2 ^ 30 + x.lseq % 2 ^ 30, i + 1⟩], lseq := x.lseq + 1 }

/-- MAILBOX_FIRE (R256): the oldest firing of an entry by a write of class `cls` is taken up. -/
def execMailboxFire (d i cls : Nat) (s : State) : Res :=
  .next (match s.fires.find? fun f => f.1 == d && f.2.1 == i && f.2.2.1 == cls with
    | some f => takeFiring d i f.2.2.2 { s with fires := s.fires.erase f }
    | none => s)

/-- MAILBOX_ENTRY_WRITE: word 0 of an entry is written (R255). -/
def execMailboxEntryWrite (d i : Nat) (v : W64) (s : State) : Res := .next (if i < 256 then mailboxWord0 d i v s else s)

/-- BIND_RECORD_WRITE (R422). -/
def execBindRecordWrite (d a i : Nat) (v : W64) (s : State) : Res := .next (if a < 64 ∧ i < 8 then bindWrite d a i v s else s)

end Sys2Proof.Machine
end

