-- ==== Sys2Proof/Machine/PreI.lean ====
section
/-! DEFINITION. Pre-emption and resumption (R452 to R454, Table 15-10), and the decisions of dispatch (R433, R254). -/

namespace Sys2Proof.Machine

/-! ### Records of clusters (Table 15-10) -/

/-- An access to a physical range that its target's table denies (R42): the state with its record, which has no VA (R59). -/
def physDenied (a : Agent) (k : AKind) (pa n : Nat) (s : State) : Option State :=
  match checkAccess s a k pa n with
  | some (.access w0 w1 _) => some (s.addAccessRecord a w0 w1 0)
  | _ => none

/-- Bytes at a physical address that an agent writes with ordinary writes, unless the write is denied (R42; DESIGN CHOICE, log entry 127); a context
lies in HBM (Table 15-9). -/
def writePhys (a : Agent) (pa : Nat) (b : List Byte) (s : State) : State :=
  if inHbm pa then match physDenied a .write pa b.length s with
  | some t => t
  | none =>
    ((granulePieces (b.length / 4096 + 2) pa b.length).foldl (fun (x : State × List Byte) (p, n) =>
      (plainStore a false noVa (canonPa a.die p) (x.2.take n) x.1, x.2.drop n)) (s, b)).1
  else s

/-- Bytes at a physical address that an agent reads with ordinary reads; none where the read is denied (R42). -/
def readPhys (a : Agent) (pa n : Nat) (s : State) : List Byte × State :=
  if inHbm pa then match physDenied a .read pa n s with
  | some t => ([], t)
  | none =>
    (granulePieces (n / 4096 + 2) pa n).foldl (fun (x : List Byte × State) (p, n) =>
      let (b, s) := loadRange a none (canonPa a.die p) n 8 x.2
      (x.1 ++ b, s)) ([], s)
  else (List.replicate n 0, s)

/-- PA of the record of a cluster (R453). -/
def recordPa (ctx n : Nat) : Nat := ctx + 0x8000 + 0x400000 * n

/-- Physical address of a cluster's scratch (R23). -/
def scratchPa (n : Nat) : Nat := 0x20000000000 + n / 64 * 0x10000000 + n % 64 * 0x400000

/-- A cluster may stop for a save: at an instruction boundary with H = 0, no trap entering, no carve moving granules, no command of AX waiting for
the power cap. -/
def mayStop (n : Nat) (s : State) : Bool :=
  let a := s.ac n
  !a.cc.h && a.cc.entry.isNone && a.cc.carve.isNone && !a.cc.saving && !s.passed n && !a.powerHeld

/-- A cluster stops (R453 step 3): its engines settle (Table 15-4) and MX stands at a row boundary. What is left of the latency of a
result in flight is kept in its `land`. -/
def stopCluster (n : Nat) (s : State) : State :=
  let stop := (s.ac n).vec.lastTurn s.cycle
  let s := mxHalt n (settle n stop (dropWaits n s))
  s.modAc n fun a =>
    { a with
      cc := { a.cc with saving := true }
      vec := { a.vec with flight := a.vec.flight.map fun f => { f with land := max 1 (f.land - stop) } } }

/-- The save area of a stopped cluster with its vector area (Table 15-5). -/
def AC.saveArea (a : AC) : List Byte :=
  wordBytes (a.frame 0 (a.headWords ⟨0, 0, 0, 0, 0, a.cc.pc, false⟩ a.estop)
    ++ (List.range 64).flatMap fun i => wordsOf 128 (smGet 0 a.vec.v i).toNat)

/-- The 256-byte header of a record: LAUNCH, linear index, epoch, ORIGIN and SGRAN, a word each (log entry 46). -/
def AC.recordHeader (a : AC) (n : Nat) : List Byte :=
  match a.cc.task with
  | some t => wordBytes (padTo 32 [BitVec.ofNat 64 t.launch, BitVec.ofNat 64 t.lin, BitVec.ofNat 64 t.epoch, BitVec.ofNat 64 n,
      BitVec.ofNat 64 ((a.cc.sr 0x0C0).toNat % 16)])
  | none => []

/-- Timeline numbers of the running entry and of the queued ones, by engine (R153). -/
def AC.entryNums (a : AC) : List (Nat × List Nat) :=
  allEng.map fun e => (eidCode e - 1, (a.eng e).num :: (a.eng e).q.map (·.num))

/-- Cycle of each engine's fault, and whether it is still to be taken (R441). -/
def AC.faultCycles (a : AC) : List (Nat × Nat × Bool) := allEng.map fun e => (eidCode e, (a.eng e).fcycle, (a.eng e).untold)

/-- What a cluster holds once its record is written: no task, engines IDLE, MX empty (R453, R420). -/
def AC.afterSave (a : AC) : AC :=
  let a := allEng.foldl (fun a e => a.setEng e { (a.eng e).stopped with held := 0, heldQ := [], heldF := 0, heldU := false }) a
  { a with cc := { a.cc with saving := false }, vec := { a.vec with flight := [] }, mxu := { a.mxu.emptied with saved := false, tstop := false } }

/-- A stopped cluster writes its record and becomes idle (R453 step 3, R165), once what it released has been performed (R132, R166). -/
def saveCluster (p : Preempt) (n : Nat) (s : State) : State :=
  let s := releaseAll n .pkg s
  if !s.settledAcs .pkg [n] then s else
  let a := s.ac n
  let base := recordPa p.ctx n
  let who := Agent.ac n 0
  let s := acquire who .pkg s
  let k := ((a.cc.sr 0x0C0).toNat % 16) * 262144
  let (sc, s) := loadRange who none (scratchPa n) k 8 s
  let s := writePhys who base a.saveArea s
  let s := writePhys who (base + 0x24000) a.mxu.image s
  let s := writePhys who (base + 0x35000) (a.recordHeader n) s
  let s := writePhys who (base + 0x36000) sc s
  let s := (releaseAll n .pkg s).modAc n AC.afterSave
  { s.leave n with
    presaved := (s.presaved.filter fun x => !(x.ctx == p.ctx && x.ac == n)) ++ [⟨p.ctx, n, a.entryNums, a.faultCycles, a.mxu.tstop⟩]
    preempt := some { p with todo := p.todo.erase n, saved := p.saved ++ [n] } }

/-! ### The pre-empt command (R453) -/

/-- LATE counts a cluster stopped after the mark (Table 15-9); it saturates. The counts of the four dies agree. -/
def countLate (k : Nat) (s : State) : State :=
  (List.range 4).foldl (fun s d => s.setReg d 0x0610 (setBits (s.reg d 0x0610) 16 16 (min 0xFFFF (bits (s.reg d 0x0610) 16 16 + k)))) s

/-- PREEMPT_DEADLINE: at the mark, every cluster that still runs a task of the launch is to stop, and does if it may. -/
def preDeadline (s : State) : State :=
  match s.preempt with
  | some p =>
    if p.op = 1 ∧ p.mark ≠ 0 ∧ p.mark ≤ s.cycle then
      let run := s.running p.launch
      (run.filter fun n => mayStop n s).foldl (fun s n => stopCluster n s) { s with preempt := some { p with mark := 0, todo := run } }
    else s
  | none => s

/-- After the mark: late clusters stop once they may, and LATE counts them, stopped ones write their records, and one whose task has ended is done. -/
def preSaves (s : State) : State :=
  match s.preempt with
  | some p =>
    if p.op = 1 ∧ p.mark = 0 then
      p.todo.foldl (fun s n =>
        match s.preempt with
        | none => s
        | some q =>
          let a := s.ac n
          if !(match a.cc.task with | some t => t.launch == p.launch | none => false) then { s with preempt := some { q with todo := q.todo.erase n } }
          else if a.cc.saving then saveCluster q n s
          else if mayStop n s then countLate 1 (stopCluster n s)
          else s) s
    else s
  | none => s

/-- Step 4: the launch context (Table 15-10). -/
def contextBytes (s : State) (p : Preempt) (d l : Nat) : List Byte :=
  let e := s.lent d l
  let mask := p.saved.foldl (fun m n => m + 2 ^ n) 0
  let ws := (List.range 4).flatMap fun k => (s.walkersOf k p.launch).map fun (_, w) => [w.word 0, w.word 1, w.word 2, BitVec.ofNat 64 k]
  let claim := fun (x : Option (Nat × Nat)) => match x with | some (a, b) => [BitVec.ofNat 64 a, BitVec.ofNat 64 b] | none => [0, 0]
  let qc := (List.range 64).flatMap fun k => padTo 16 (claim (((s.die (k / 16)).qclaims.find? fun c => c.1 == k % 16 && c.2.1 == p.launch).map fun c => c.2.2))
  let ac := (List.range 256).flatMap fun n => claim (((s.ac n).disp.claims.find? fun c => c.1 == p.launch).map fun c => c.2)
  wordBytes ([BitVec.ofNat 64 p.launch, e.lrecVa, lentWord s d l 2, BitVec.ofNat 64 e.epoch] ++ wordsOf 4 mask
    ++ padTo 512 ws.flatten ++ qc ++ ac ++ List.replicate 2040 0)

/-- Step 4: walkers and claims go to the context and are freed, once no cluster is left to save. -/
def preContext (s : State) : State :=
  match s.preempt with
  | some p =>
    if p.op = 1 ∧ (p.mark = 0 ∧ p.todo.isEmpty ∨ (s.running p.launch).isEmpty) then
      match s.findLaunch p.launch with
      | some (d, l) =>
        let who := Agent.disp p.die
        let s := release who .pkg (writePhys who p.ctx (contextBytes s p d l) s)
        { s.freeRanges p.launch false with preempt := some { p with op := 3 } }
      | none => { s with preempt := some { p with op := 3 } }
    else s
  | none => s

/-- Step 5: once every copy, kettle command and pour has completed, the entry becomes FREE with no completion. -/
def preFinish (s : State) : State :=
  match s.preempt with
  | some p =>
    if p.op = 3 ∧ s.ioIdle p.launch then
      let s := match s.findLaunch p.launch with
        | some (d, l) =>
          let e := s.lent d l
          let s := watchDep d l none (s.modDie d fun x => ({ x with ltab := smErase x.ltab l }).dropTag d (dispTag l))
          { s with ranOf := smSet s.ranOf p.launch (e.ran, e.ranAll) }
        | none => s
      preemptDone s
    else s
  | none => s

/-- PREEMPT_COMPLETE (R453 steps 4 and 5). -/
def preComplete (s : State) : State := preFinish (preContext (preSaves s))

/-! ### The resume command (R454) -/

/-- Walkers of a context: die and walker. -/
def contextWalkers (w : List W64) : List (Nat × Walker) :=
  (List.range 128).filterMap fun i =>
    let g := fun k => w.getD (8 + 4 * i + k) 0
    if (g 1).getLsbD 63 then
      some (bits (g 3) 0 2, ⟨bits (g 0) 0 32, bits (g 0) 32 32, bits (g 1) 0 48, bits (g 2) 0 48, bits (g 2) 48 16, bits (g 1) 62 1⟩)
    else none

/-- Put a launch back (R454 steps 1 to 4) from the words of its context and its record. -/
def putBack (p : Preempt) (l : Nat) (w r : List W64) (s : State) : State :=
  let g := fun i => w.getD i 0
  let d := p.die
  let launch := bits (g 0) 0 32
  let walkers := contextWalkers w
  let qcs := (List.range 64).filterMap fun k =>
    let (a, b) := (bits (g (520 + 16 * k)) 0 48, bits (g (521 + 16 * k)) 0 48)
    if a < b then some (k, a, b) else none
  let acs := (List.range 256).filterMap fun n =>
    let (a, b) := (bits (g (1544 + 2 * n)) 0 48, bits (g (1545 + 2 * n)) 0 48)
    if a < b then some (n, a, b) else none
  let recs := (List.range 256).filter fun n => (g (4 + n / 64)).getLsbD (n % 64)
  let epoch := bits (g 3) 0 32
  let done := bits (g 2) 0 48
  let ended := done - epoch * lrTasks r
  let (ran, ranAll) := smGet ([], []) s.ranOf launch
  let placed := !walkers.isEmpty || !qcs.isEmpty || !acs.isEmpty || !recs.isEmpty || decide (0 < ended)
  let e : LEntry := ⟨2, launch, g 1, r, done, epoch, 0, none, ended, placed, false, false, ran, ranAll⟩
  let s := s.modDie d fun x => { x with ltab := smSet x.ltab l e }
  let s := walkers.foldl (fun s (k, x) => s.modDie k fun y => match y.freeSlot with
    | some i => { y with walkers := smSet y.walkers i x }
    | none => y) s
  let s := qcs.foldl (fun s (k, a, b) => s.modDie (k / 16) fun y => { y with qclaims := y.qclaims ++ [(k % 16, launch, a, b)] }) s
  let s := acs.foldl (fun s (n, a, b) => s.modAc n fun y => { y with disp := { y.disp with claims := y.disp.claims ++ [(launch, a, b)] } }) s
  let s := recs.foldl (fun s n => s.modDie (n / 64) fun y =>
    { y with conts := y.conts ++ [⟨BitVec.ofNat 64 (recordPa p.ctx n), launch, 3, n, lrPrio r, 9, 0, 0, 0, 0, true, s.cycle⟩] }) s
  preemptDone (({ s with ranOf := smErase s.ranOf launch }).checkDrain d l)

/-- Every walker of a context finds a free slot on its die (R454 step 2). -/
def slotsFor (s : State) (ws : List (Nat × Walker)) : Bool :=
  (List.range 4).all fun d => decide ((ws.filter fun x => x.1 == d).length ≤ 32 - (s.die d).walkers.length)

/-- RESUME_LAUNCH: the resume command goes on; it waits for a launch table entry and for slots. A context or a launch record that cannot be
read ends the command with the record of a rejected launch (R45). -/
def preResume (s : State) : State :=
  match s.preempt with
  | some p =>
    if p.op ≠ 2 then s
    else
      let d := p.die
      match (List.range 64).find? fun l => (smFind (s.die d).ltab l).isNone with
      | none => s
      | some l =>
        let (b, s') := readPhys (.disp d) p.ctx 0x8000 (acquire (.disp d) .pkg s)
        let w := words64 b
        if b.isEmpty then preemptDone (s'.addDispatchRecord d 0 0 10)
        else if !slotsFor s (contextWalkers w) then s
        else dispHeld d 900 (fun s => preemptDone (s.addDispatchRecord d (w.getD 1 0) 0 10)) (do
          let rb ← readAcquired (.disp d) .pkg (w.getD 1 0) 256 8
          act (putBack p l w (words64 rb))) s'
  | none => s

/-! ### Taking a record (R454 step 5) -/

/-- A cluster whose split differs starts a carve (R81) and takes the record once no granule moves. -/
def readyFor (n sg : Nat) (s : State) : Bool × State :=
  let c := (s.ac n).cc
  if c.carve.isSome then (false, s)
  else if (c.sr 0x0C0).toNat % 16 = sg then (true, s)
  else (false, s.modCC n fun c => c.startCarve sg s.cycle)

/-- Restore a cluster from its record: frame, vector registers, MX, scratch and the numbers of its entries. -/
def restoreCluster (n : Nat) (t : Task) (ctx : Nat) (frame : List W64) (mx sc : List Byte) (s : State) : State :=
  let (nums, cycles, tile) := match s.presaved.find? fun x => x.ctx == ctx && x.ac == n with | some x => (x.nums, x.cycles, x.tstop) | none => ([], [], false)
  let s := (s.taskStart n t).modCC n fun c => { c with carve := none }
  let s := s.modAc n fun a => allEng.foldl (fun a e =>
    match nums.find? fun x => x.1 == eidCode e - 1 with
    | some (_, m :: q) => a.setEng e { a.eng e with held := m, heldQ := q.filter (· != 0) }
    | _ => a) a
  let s := cycles.foldl (fun s (k, f, u) => match eidOf k with | some e => s.modEng n e fun x => { x with heldF := f, heldU := u } | none => s) s
  let s := restoreFrame n frame s
  let s := s.modAc n fun a =>
    { a with
      cc := { a.cc with pc := addr55 (frame.getD 64 0), resumed := (frame.getD 70 0).getLsbD 5 }
      vec := { a.vec with v := (List.range 64).foldl (fun m i =>
        smPut 0 m i (BitVec.ofNat 8192 (wordsVal (sub frame (10240 + 128 * i) 128)))) [] }
      mxu := { a.mxu.ofImage mx with saved := (le64 ((mx.drop 65848).take 8)).getLsbD 0, tstop := tile } }
  let s := plainStore (.ac n 0) false noVa (scratchPa n) sc s
  goOn n { acquireAll n .pkg (release (.ac n 0) .pkg s) with presaved := s.presaved.filter fun x => !(x.ctx == ctx && x.ac == n) }

/-- The cluster resumes a pre-empted task (R454 step 5); a record that breaks its tables or cannot be read cancels the launch. -/
def resumePre (n cd : Nat) (c : Cont) (x : Item) (items : List Item) (s : State) : State :=
  let e := s.lent x.d x.l
  let base := c.va.toNat
  let who := Agent.ac n 0
  let (hb, s1) := readPhys who (base + 0x35000) 256 (acquireAll n .pkg s)
  let h := words64 hb
  let sg := (h.getD 4 0).toNat
  let (fb, s1) := readPhys who base 0x24000 s1
  let w := words64 fb
  let bad := hb.isEmpty || fb.isEmpty || (h.getD 0 0).toNat != e.launch || (h.getD 3 0).toNat != n || decide (8 < sg) || !imageOk (s1.ac n) w
  if bad then (s1.dropCont cd c).cancelLaunch x.d x.l 0x100
  else
    match readyFor n sg s with
    | (false, s) => s
    | (true, _) =>
      let (mx, s1) := readPhys who (base + 0x24000) 69632 s1
      if !mxImageOk mx then (s1.dropCont cd c).cancelLaunch x.d x.l 0x100 else
      let (sc, s1) := readPhys who (base + 0x36000) (sg * 262144) s1
      if sc.isEmpty && sg != 0 then (s1.dropCont cd c).cancelLaunch x.d x.l 0x100 else
      let t : Task := ⟨e.launch, x.d, x.l, e.lrec, bits (h.getD 1 0) 0 48, bits (h.getD 2 0) 0 32, true, x.prio, x.i⟩
      restoreCluster n t (base - 0x8000 - 0x400000 * n) w mx sc ((s1.dropCont cd c).charge n x.i x.prio items)

/-! ### Decisions (R423, R424, R433) -/

/-- DISPATCH_DECISION: an idle cluster of a die with EN = 1 takes the first item, or else tries a split. -/
def decide' (n : Nat) (s : State) : State :=
  if !(s.ac n).idle ∨ !(s.reg (dieOf n) 0x23000).getLsbD 0 then s
  else
    let items := s.items n
    match firstItem items with
    | some x => (match x.cont with
      | some (cd, c) => if c.wkind = 9 then resumePre n cd c x items s else resumeCont n cd c x items s
      | none => s.dispatchNew n x items)
    | none => s.dispatchSplit n

def execDispatchDecision (n : Nat) (s : State) : Res := .next (decide' n s)

/-- PREEMPT_LAUNCH: PRECMD is written on a die (R452, R453). -/
def execPreemptLaunch (d : Nat) (v : W64) (s : State) : Res := .next (precmd d v s)
def execPreemptDeadline (s : State) : Res := .next (preDeadline s)
def execPreemptComplete (s : State) : Res := .next (preComplete s)

/-- RESUME_LAUNCH (R454): the resume command that a die has been given. -/
def execResumeLaunch (d : Nat) (s : State) : Res :=
  .next (match s.preempt with
    | some p => if p.die = d then preResume s else s
    | none => s)

/-- What a pre-emption command in progress does by itself. -/
def preTurn (s : State) : State := preResume (preComplete (preDeadline s))

end Sys2Proof.Machine
end

