-- ==== Sys2Proof/Machine/VaFp.lean ====
section
/-! DEFINITION. Floating-point instructions of VA (R372 to R375, Table 12-4). -/

namespace Sys2Proof.Machine

/-- An arithmetic instruction: an exact function of the sources of an element, rounded once (R372, R215). -/
def vArith (h : Head) (f : FOp) (d : BitVec 6) (g : Nat → FVal) (a : AC) : VRes :=
  vMap a h d (vWid f.bf) fun i => a.vRound h f.bf f.mode i (g i)

/-- VADD (R372). -/
def execVadd (h : Head) (f : FOp) (d : BitVec 6) (a b : Src) (s : State) : Res :=
  vaRun h (.vadd h f d a b) 4 f.mode legal
    (fun x => let p := x.vfsrc f.bf a; let q := x.vfsrc f.bf b; vArith h f d (fun i => addX f.mode (p i) (q i)) x) s

/-- VSUB (R372). -/
def execVsub (h : Head) (f : FOp) (d : BitVec 6) (a b : Src) (s : State) : Res :=
  vaRun h (.vsub h f d a b) 4 f.mode legal
    (fun x => let p := x.vfsrc f.bf a; let q := x.vfsrc f.bf b; vArith h f d (fun i => addX f.mode (p i) (q i).negate) x) s

/-- VMUL (R372). -/
def execVmul (h : Head) (f : FOp) (d : BitVec 6) (a b : Src) (s : State) : Res :=
  vaRun h (.vmul h f d a b) 4 f.mode legal
    (fun x => let p := x.vfsrc f.bf a; let q := x.vfsrc f.bf b; vArith h f d (fun i => mulX (p i) (q i)) x) s

/-- VFMA (R372): a × b + c, rounded once. -/
def execVfma (h : Head) (f : FOp) (d : BitVec 6) (a b c : Src) (s : State) : Res :=
  vaRun h (.vfma h f d a b c) 4 f.mode legal
    (fun x =>
      let p := x.vfsrc f.bf a; let q := x.vfsrc f.bf b; let r := x.vfsrc f.bf c
      vArith h f d (fun i => fmaX f.mode (p i) (q i) (r i)) x) s

/-- VFMS (R372): a × b − c, rounded once. -/
def execVfms (h : Head) (f : FOp) (d : BitVec 6) (a b c : Src) (s : State) : Res :=
  vaRun h (.vfms h f d a b c) 4 f.mode legal
    (fun x =>
      let p := x.vfsrc f.bf a; let q := x.vfsrc f.bf b; let r := x.vfsrc f.bf c
      vArith h f d (fun i => fmaX f.mode (p i) (q i) (r i).negate) x) s

/-- VMIN (R215, R372): the chosen operand, rounded under RNE where a broadcast is not of the format. -/
def execVmin (h : Head) (bf : Bool) (d : BitVec 6) (a b : Src) (s : State) : Res :=
  vaRun h (.vmin h bf d a b) 1 .rne legal
    (fun x => let p := x.vfsrc bf a; let q := x.vfsrc bf b; vArith h ⟨bf, .rne⟩ d (fun i => minX (p i) (q i)) x) s

/-- VMAX (R215, R372). -/
def execVmax (h : Head) (bf : Bool) (d : BitVec 6) (a b : Src) (s : State) : Res :=
  vaRun h (.vmax h bf d a b) 1 .rne legal
    (fun x => let p := x.vfsrc bf a; let q := x.vfsrc bf b; vArith h ⟨bf, .rne⟩ d (fun i => maxX (p i) (q i)) x) s

/-- VABS (R372). -/
def execVabs (h : Head) (bf : Bool) (d : BitVec 6) (a : Src) (s : State) : Res :=
  vaRun h (.vabs h bf d a) 1 .rne legal
    (fun x => let p := x.vfsrc bf a; vArith h ⟨bf, .rne⟩ d (fun i => (p i).abs) x) s

/-- VNEG (R372). -/
def execVneg (h : Head) (bf : Bool) (d : BitVec 6) (a : Src) (s : State) : Res :=
  vaRun h (.vneg h bf d a) 1 .rne legal
    (fun x => let p := x.vfsrc bf a; vArith h ⟨bf, .rne⟩ d (fun i => (p i).negate) x) s

/-- A mask result: every bit of each element in the shape whose gate is true (R373). -/
def vMaskRes (a : AC) (h : Head) (m : BitVec 3) (w : Nat) (g : Nat → Bool) : VRes :=
  let live := (elemsOf w).map fun i => if a.live h w i then some (if g i then 1 else 0) else none
  ⟨2, m.toNat, [vWrites w (live.map fun o => if o = some 1 then o else none)], vWrites w live, 0, 0, 0⟩

/-- VCMP (R373). -/
def execVcmp (h : Head) (bf : Bool) (c : FCond) (m : BitVec 3) (a b : Src) (s : State) : Res :=
  vaRun h (.vcmp h bf c m a b) 1 .rne legal
    (fun x => let p := x.vfsrc bf a; let q := x.vfsrc bf b; vMaskRes x h m (vWid bf) fun i => fcond c (p i) (q i)) s

/-- VSEL (Table 12-4): bits unchanged. -/
def execVsel (h : Head) (w16 : Bool) (d : BitVec 6) (a b : Src) (m : BitVec 3) (s : State) : Res :=
  vaRun h (.vsel h w16 d a b m) 1 .rne legal
    (fun x =>
      let w := vWid w16
      let p := x.visrc w a; let q := x.visrc w b
      let k := x.vec.mr m.toNat
      vMap x h d w fun i => if maskAt k w i then p i else q i) s

/-! ### VCVT -/

/-- A format that VCVT takes (R374). -/
def cvtFmt (c : BitVec 8) : Option NumFmt :=
  match NumFmt.ofCode c with
  | some (.int 64) | some .i24 => none
  | o => o

/-- Widths and PART of a VCVT: the ratio of the widths is above PART. -/
def cvtOk (src dst : BitVec 8) (part : BitVec 2) : Bool :=
  match cvtFmt src, cvtFmt dst with
  | some f, some g => decide (part.toNat < max f.esize g.esize / min f.esize g.esize)
  | _, _ => false

/-- A signed integer of w bytes from its bits. -/
def sInt (w v : Nat) : Int := if 2 ^ (8 * w - 1) ≤ v % 2 ^ (8 * w) then (v % 2 ^ (8 * w) : Nat) - (2 ^ (8 * w) : Nat) else (v % 2 ^ (8 * w) : Nat)
/-- Bits of w bytes of an integer. -/
def wrapInt (w : Nat) (v : Int) : Nat := (v % (2 ^ (8 * w) : Nat)).toNat
/-- Saturate to a signed integer of w bytes. -/
def satW (w : Nat) (v : Int) : Int := satInt v (-(2 ^ (8 * w - 1) : Nat)) ((2 ^ (8 * w - 1) : Nat) - 1)

/-- Conversion of one element (R374, R211, R214). -/
def cvtElem (f g : NumFmt) (m : RMode) (r : W32) (sat fz : Bool) (v : Nat) : Nat :=
  match f, g with
  | .int n, .int k => let x := sInt (n / 8) v; wrapInt (k / 8) (if sat then satW (k / 8) x else x)
  | _, .int k => wrapInt (k / 8) (toInt k m r (decodeElem f v)).1
  | _, .fl o => (narrow o m r sat fz (decodeElem f v)).1
  | _, .b8 p sg inf => (narrow (b8fmt p sg inf) m r sat fz (decodeElem f v)).1
  | _, .i24 => 0

/-- The source element of destination element i (R374): none where the instruction writes nothing. -/
def cvtFrom (ws wd part i : Nat) : Option Nat :=
  let n := 64 / wd
  let r := i / n
  let c := i % n
  if wd < ws then
    (let k := 64 / ws; if part * k ≤ c ∧ c < part * k + k then some (r * k + (c - part * k)) else none)
  else if ws < wd then some (r * (64 / ws) + part * n + c)
  else some i

/-- VCVT (R374). -/
def execVcvt (h : Head) (md : RMode) (d a : BitVec 6) (src dst : BitVec 8) (part : BitVec 2) (sat : Bool) (s : State) : Res :=
  vaRun h (.vcvt h md d a src dst part sat) 2 md
    (fun _ => if cvtOk src dst part then none else some (pack [(18, sat.toNat), (16, part.toNat), (8, dst.toNat), (0, src.toNat)]))
    (fun x =>
      match cvtFmt src, cvtFmt dst with
      | some f, some g =>
        let w := g.esize
        let v := x.vreg a
        vOut (x.cc.phys d) w ((elemsOf w).map fun i =>
          match cvtFrom f.esize w part.toNat i with
          | some j => if x.live h w i then some (cvtElem f g md (x.vHash md w i) sat (Head.flush h) (vElem v f.esize j)) else none
          | none => none)
      | _, _ => vOut (x.cc.phys d) 4 []) s

/-- VSFU (R375). -/
def execVsfu (h : Head) (f : FOp) (fn : SfuFn) (d : BitVec 6) (a : Src) (s : State) : Res :=
  vaRun h (.vsfu h f fn d a) 8 f.mode legal
    (fun x =>
      let p := x.vfsrc f.bf a
      let g := vFmt f.bf
      vMap x h d (vWid f.bf) fun i =>
        sfu fn g f.mode (x.vHash f.mode (vWid f.bf) i) (Head.flush h) (p i)) s

end Sys2Proof.Machine
end

