-- ==== Sys2Proof/Machine/VaRed.lean ====
section
/-! DEFINITION. Reductions, scans, sorts and segmented reductions of VA (R376 to R379). -/

namespace Sys2Proof.Machine

/-- Groups of element indices in order (R376): rows, columns, or all row-major. -/
def vGroups (w : Nat) (d : Dir) : List (List Nat) :=
  let n := 64 / w
  match d with
  | .row => (List.range 16).map fun r => (List.range n).map fun c => r * n + c
  | .col => (List.range n).map fun c => (List.range 16).map fun r => r * n + c
  | .all => [List.range (16 * n)]

/-- Elements of a register from the values chosen for some indices. -/
def vPut (w : Nat) (l : List (Nat × Nat)) : List (Option Nat) :=
  let m := l.foldl (fun (m : SMap Nat) x => smSet m x.1 x.2) []
  (elemsOf w).map (smFind m)

/-- Combine two present operands under sum, max or min, as bits of the format (R128, R217). -/
def redBits (g : FFmt) (op : RedOp) (md : RMode) (rnd : FVal → Nat) (x y : Nat) : Nat :=
  let a := decodeIeee g.p x
  let b := decodeIeee g.p y
  match op with
  | .sum => rnd (addX md a b)
  | .max => rnd (maxX a b)
  | .min => rnd (minX a b)
  | .maxsum => 0

/-- Combine two pairs of max-and-sum. -/
def redPair (g : FFmt) (md : RMode) (rnd : FVal → Nat) (x y : Nat × Nat) : Nat × Nat :=
  let f := fun (p : Nat × Nat) => (decodeIeee g.p p.1, decodeIeee g.p p.2)
  let (m, s) := maxsumX md [f x, f y]
  (rnd m, rnd s)

/-- Result of a reduction with no present source (R217). -/
def redEmpty (g : FFmt) (op : RedOp) : Nat :=
  match op with
  | .sum => 0
  | .max | .maxsum => g.infinity true
  | .min => g.infinity false

/-- VRED's result (R376): every rounding of a group draws with the index of its destination. -/
def vredRes (h : Head) (f : FOp) (op : RedOp) (dir : Dir) (d a b : BitVec 6) (x : AC) : VRes :=
  let w := vWid f.bf
  let g := vFmt f.bf
  let va := x.vreg a
  let vb := x.vreg b
  let p := x.cc.phys d
  let groups := (vGroups w dir).filter fun l => x.inShape w (l.headD 0)
  match op with
  | .maxsum =>
    let res := groups.map fun l =>
      let rnd := x.vRound h f.bf f.mode (l.headD 0)
      let leaves := l.map fun i => if x.live h w i then some (vElem va w i, vElem vb w i) else none
      (l.headD 0, (pairTree (redPair g f.mode rnd) 10 leaves).getD (redEmpty g op, 0))
    vPair p w (vPut w (res.map fun r => (r.1, r.2.1))) (vPut w (res.map fun r => (r.1, r.2.2)))
  | _ =>
    vOut p w (vPut w (groups.map fun l =>
      let rnd := x.vRound h f.bf f.mode (l.headD 0)
      let leaves := l.map fun i => if x.live h w i then some (vElem va w i) else none
      (l.headD 0, (pairTree (redBits g op f.mode rnd) 10 leaves).getD (redEmpty g op))))

/-- VRED (R376). -/
def execVred (h : Head) (f : FOp) (op : RedOp) (dir : Dir) (d a b : BitVec 6) (s : State) : Res :=
  vaRun h (.vred h f op dir d a b) 6 f.mode legal (vredRes h f op dir d a b) s

/-- Inclusive prefixes of the present elements of a group (R377). -/
def scanGroup (comb : Nat → Nat → Nat → Nat) (elem : Nat → Nat) (live : Nat → Bool) (l : List Nat) : List (Nat × Nat) :=
  (l.foldl (fun (acc : List (Nat × Nat) × Option Nat) i =>
    if live i then
      let v := match acc.2 with | some q => comb i q (elem i) | none => elem i
      (acc.1 ++ [(i, v)], some v)
    else acc) ([], none)).1

/-- VSCAN (R377). -/
def execVscan (h : Head) (f : FOp) (op : RedOp) (dir : Dir) (d a : BitVec 6) (s : State) : Res :=
  vaRun h (.vscan h f op dir d a) 6 f.mode legal
    (fun x =>
      let w := vWid f.bf
      let va := x.vreg a
      vOut (x.cc.phys d) w (vPut w ((vGroups w dir).flatMap
        (scanGroup (fun i => redBits (vFmt f.bf) op f.mode (x.vRound h f.bf f.mode i)) (vElem va w) (x.live h w))))) s

/-- A key's place in its order (R378): all NaNs are equal and last. -/
def keyVal (k : KeyOrd) (v : Nat) : Int :=
  match k with
  | .s32 => sInt32 v
  | .u32 => v
  | .f32 => if (decodeIeee 24 v).isNan then 2 ^ 40 else if 2 ^ 31 ≤ v then -(v - 2 ^ 31 : Nat) - 1 else v
where
  sInt32 (v : Nat) : Int := (BitVec.ofNat 32 v).toInt

/-- Groups of 4-byte elements along rows, or all. -/
def rowGroups (all : Bool) : List (List Nat) := vGroups 4 (if all then .all else .row)

/-- VSORT (R378): absent elements follow the present ones in index order. -/
def execVsort (h : Head) (key : KeyOrd) (desc all : Bool) (d a b : BitVec 6) (s : State) : Res :=
  vaRun h (.vsort h key desc all d a b) 12 .rne legal
    (fun x =>
      let va := x.vreg a
      let vb := x.vreg b
      let lt := fun (p q : Int × Nat) => if desc then decide (q.1 < p.1) else decide (p.1 < q.1)
      let out := (rowGroups all).flatMap fun l =>
        let pos := l.filter (x.inShape 4)
        let here := sortBy lt ((pos.filter (x.live h 4)).map fun i => (keyVal key (vElem va 4 i), i))
        pos.zip (here.map (·.2) ++ pos.filter fun i => !x.live h 4 i)
      vPair (x.cc.phys d) 4 (vPut 4 (out.map fun o => (o.1, vElem va 4 o.2))) (vPut 4 (out.map fun o => (o.1, vElem vb 4 o.2)))) s

/-- Runs of equal keys (R379): key and values, in order. -/
def runsOf : List (Nat × Nat) → List (Nat × List Nat)
  | [] => []
  | (k, v) :: r =>
    match runsOf r with
    | (k', vs) :: t => if k = k' then (k, v :: vs) :: t else (k, [v]) :: (k', vs) :: t
    | [] => [(k, [v])]

/-- Reduction of a run's values (R379). -/
def segReduce (op : SegOp) (md : RMode) (rnd : FVal → Nat) (l : List Nat) : Nat :=
  let f := match op with
    | .sumf => redBits fp32 .sum md rnd
    | .maxf => redBits fp32 .max md rnd
    | .sums => fun x y => (x + y) % 2 ^ 32
  (pairTree f 9 (l.map some)).getD 0

/-- VSEGR (R379): run j stands at element j, of the row or of the register (R361), if that lies inside the shape. -/
def execVsegr (h : Head) (md : RMode) (op : SegOp) (all : Bool) (d a b : BitVec 6) (s : State) : Res :=
  vaRun h (.vsegr h md op all d a b) 12 md legal
    (fun x =>
      let va := x.vreg a
      let vb := x.vreg b
      let out := (rowGroups all).flatMap fun l =>
        let runs := runsOf ((l.filter (x.live h 4)).map fun i => (vElem va 4 i, vElem vb 4 i))
        ((l.zip (List.range l.length)).filter fun (i, _) => x.inShape 4 i).map fun (i, j) =>
          match runs[j]? with
          | some (k, vs) => (i, k, segReduce op md (x.vRound h false md i) vs)
          | none => (i, 2 ^ 32 - 1, 0)
      vPair (x.cc.phys d) 4 (vPut 4 (out.map fun o => (o.1, o.2.1))) (vPut 4 (out.map fun o => (o.1, o.2.2)))) s

end Sys2Proof.Machine
end

