-- ==== Sys2Proof/Machine/VaInt.lean ====
section
/-! DEFINITION. Data movement, integers, masks, training formats, shape and pipelined loops of VA (R365, R370, R380 to
R387). -/

namespace Sys2Proof.Machine

/-! ### Data movement (R380) -/

/-- VPERM: an index out of range writes zero bits. -/
def execVperm (h : Head) (all : Bool) (d a b : BitVec 6) (s : State) : Res :=
  vaRun h (.vperm h all d a b) 1 .rne legal
    (fun x =>
      let va := x.vreg a
      let vb := x.vreg b
      vMap x h d 4 fun i =>
        let k := sInt 4 (vElem vb 4 i)
        let n : Nat := if all then 256 else 16
        if 0 ≤ k ∧ k < n then vElem va 4 ((if all then 0 else i / 16 * 16) + k.toNat) else 0) s

/-- VBCAST: a column beyond the width, or b of 512 and above, is illegal. -/
def execVbcast (h : Head) (k : BcK) (w16 : Bool) (d a : BitVec 6) (b : Src) (s : State) : Res :=
  let w := vWid w16
  vaRun h (.vbcast h k w16 d a b) 1 .rne
    (fun x =>
      let v := x.va.src b
      if v.toNat < 512 ∧ (k = .row ∨ v.toNat % 32 < 64 / w) then none else some v)
    (fun x =>
      let va := x.vreg a
      let v := (x.va.src b).toNat
      let n := 64 / w
      vMap x h d w fun i =>
        match k with
        | .elem => vElem va w (v / 32 * n + v % 32)
        | .row => vElem va w (v % 16 * n + i % n)
        | .col => vElem va w (i / n * n + v % 32)) s

/-- VMOV: every pair of bytes inside the shape whose gate is true. -/
def execVmov (h : Head) (d a : BitVec 6) (s : State) : Res :=
  vaRun h (.vmov h d a) 1 .rne legal (fun x => let va := x.vreg a; vMap x h d 2 fun i => vElem va 2 i) s

/-- VMOV.X: a 4-byte element, zero-extended, to an x or loop register. -/
def execVmovX (h : Head) (d a : BitVec 6) (b : Src) (s : State) : Res :=
  vaRun h (.vmovX h d a b) 1 .rne
    (fun x => if (x.va.src b).toNat < 256 then none else some (x.va.src b))
    (fun x => ⟨3, d.toNat, [], 0, 0, 0, BitVec.ofNat 64 (vElem (x.vreg a) 4 (x.va.src b).toNat)⟩) s

/-- VIOTA. -/
def execViota (h : Head) (d : BitVec 6) (a b : Src) (s : State) : Res :=
  vaRun h (.viota h d a b) 1 .rne legal
    (fun x => let p := x.visrc 4 a; let q := x.visrc 4 b; vMap x h d 4 fun i => p i + q i * i) s

/-- VIMM. -/
def execVimm (h : Head) (k : ImmK) (d : BitVec 6) (a : Src) (s : State) : Res :=
  vaRun h (.vimm h k d a) 1 .rne legal
    (fun x =>
      let fl := fun (g : FFmt) => (narrow g .rne 0 false (Head.flush h) (x.va.fsrc a)).1
      let (w, v) := match k with
        | .f32 => (4, fl fp32)
        | .s32 => (4, (x.va.src a).toNat)
        | .bf16 => (2, fl bf16)
        | .s16 => (2, (x.va.src a).toNat)
      vMap x h d w fun _ => v) s

/-! ### Integers (R381) -/

/-- Bytes of an element width. -/
def IWid.bytes : IWid → Nat
  | .b4 => 4 | .b2 => 2 | .b1 => 1

/-- An integer instruction: a function of the signed elements, wrapped or saturated. -/
def vInt (h : Head) (w : IWid) (sat : Bool) (d : BitVec 6) (a b : Src) (g : Int → Int → Int) (x : AC) : VRes :=
  let k := IWid.bytes w
  let p := x.visrc k a
  let q := x.visrc k b
  vMap x h d k fun i =>
    let v := g (sInt k (p i)) (sInt k (q i))
    wrapInt k (if sat then satW k v else v)

/-- VIADD. -/
def execViadd (h : Head) (w : IWid) (sat : Bool) (d : BitVec 6) (a b : Src) (s : State) : Res :=
  vaRun h (.viadd h w sat d a b) 1 .rne legal (vInt h w sat d a b fun p q => p + q) s

/-- VISUB. -/
def execVisub (h : Head) (w : IWid) (sat : Bool) (d : BitVec 6) (a b : Src) (s : State) : Res :=
  vaRun h (.visub h w sat d a b) 1 .rne legal (vInt h w sat d a b fun p q => p - q) s

/-- VIMUL: the low bits. -/
def execVimul (h : Head) (w : IWid) (d : BitVec 6) (a b : Src) (s : State) : Res :=
  vaRun h (.vimul h w d a b) 4 .rne legal (vInt h w false d a b fun p q => p * q) s

/-- A function of VILOG on bits. -/
def logBits (f : LogF) (x y : Nat) : Nat :=
  match f with
  | .and => x &&& y
  | .or => x ||| y
  | .xor => x ^^^ y
  | .andn => x ^^^ (x &&& y)

/-- Element width of VILOG: 4 with a broadcast or a literal; with registers alone it acts on whole bytes, and a mask has one bit for each pair of
them (R363, R381). -/
def vilogWidth : Src → Src → Nat
  | .r _, .r _ => 2
  | _, _ => 4

/-- VILOG acts on bytes. -/
def execVilog (h : Head) (f : LogF) (d : BitVec 6) (a b : Src) (s : State) : Res :=
  let w := vilogWidth a b
  vaRun h (.vilog h f d a b) 1 .rne legal (fun x => vMap x h d w fun i => logBits f (x.visrc w a i) (x.visrc w b i)) s

/-- VISH: shift by b mod 8w. -/
def execVish (h : Head) (f : ShF) (w : IWid) (d : BitVec 6) (a b : Src) (s : State) : Res :=
  vaRun h (.vish h f w d a b) 1 .rne legal
    (fun x =>
      let k := IWid.bytes w
      let p := x.visrc k a
      let q := x.visrc k b
      vMap x h d k fun i =>
        let n := q i % (8 * k)
        match f with
        | .shl => p i * 2 ^ n
        | .shr => p i / 2 ^ n
        | .sha => wrapInt k (sInt k (p i) / (2 ^ n : Nat))) s

/-! ### Masks (R382, Table 12-7) -/

/-- All bits of a mask. -/
def allMask : Nat := 2 ^ 512 - 1

/-- VMASK ignores the shape and has no gate. -/
def execVmask (h : Head) (f : VMaskF) (s : State) : Res :=
  vaRun h (.vmask h f) 1 .rne legal
    (fun x =>
      let m := fun (r : BitVec 3) => (x.vec.mr r.toNat).toNat
      let toM := fun (d : BitVec 3) (v : Nat) => (⟨2, d.toNat, [v], allMask, 0, 0, 0⟩ : VRes)
      match f with
      | .logic g d a b => toM d (logBits g (m a) (m b))
      | .not d a => toM d (allMask ^^^ m a)
      | .first d a => toM d (2 ^ min (x.va.src a).toNat 512 - 1)
      | .fromv d a =>
        let v := x.vreg a
        toM d (vWrites 4 ((elemsOf 4).map fun i => if vElem v 4 i ≠ 0 then some 0 else none))
      | .tov d a =>
        let k := x.vec.mr a.toNat
        vOut (x.cc.phys d) 4 ((elemsOf 4).map fun i => some (if maskAt k 4 i then 2 ^ 32 - 1 else 0))) s

/-! ### Training formats (R384 to R387) -/

/-- Elements of block b, in either precision (R384). -/
def blockElems (b : Nat) : List Nat := (List.range 64).map fun k => 64 * b + k

/-- VBEXP (R384). -/
def execVbexp (h : Head) (bf : Bool) (d a : BitVec 6) (s : State) : Res :=
  vaRun h (.vbexp h bf d a) 6 .rne legal
    (fun x =>
      let v := x.vreg a
      let codes := (List.range (if bf then 8 else 4)).map fun b =>
        blockCode ((blockElems b).map fun i => decodeIeee (vFmt bf).p (vElem v (vWid bf) i))
      vOut (x.cc.phys d) 1 (codes.map some)) s

/-- VQNT (R385, R119): elements with code 0xFF are 0 and count as non-finite. -/
def execVqnt (h : Head) (d a b : BitVec 6) (s : State) : Res :=
  vaRun h (.vqnt h d a b) 2 .rne legal
    (fun x =>
      let va := x.vreg a
      let vb := x.vreg b
      let q := (elemsOf 4).map fun i =>
        let c := vElem vb 1 (i / 64)
        if c = 0xFF then (0, false, true) else quantI24 c (decodeIeee 24 (vElem va 4 i))
      { vOut (x.cc.phys d) 4 (q.map fun r => some (wrapInt 4 r.1)) with
        dnf := (q.filter fun r => r.2.2).length, dcl := (q.filter fun r => r.2.1).length }) s

/-- VDQNT (R386). -/
def execVdqnt (h : Head) (md : RMode) (d a b : BitVec 6) (s : State) : Res :=
  vaRun h (.vdqnt h md d a b) 2 md legal
    (fun x =>
      let va := x.vreg a
      let vb := x.vreg b
      let q := (elemsOf 4).map fun i =>
        let c := vElem vb 1 (i / 64)
        let (v, cl) := readI24 (BitVec.ofNat 32 (vElem va 4 i))
        (if c = 0xFF then fp32.nan else x.vRound h false md i (FVal.scaled v ((c : Int) - 150)), cl)
      { vOut (x.cc.phys d) 4 (q.map fun r => some r.1) with dcl := (q.filter fun r => r.2).length }) s

/-- Pulse probability code of x with scalar C (R387). -/
def pulseCode (x c : FVal) : Nat :=
  let code := match mulX x.abs c with
    | .nan => 0
    | .inf n => if n then 0 else 65535
    | .fin n m e st =>
      if n || m == 0 then 0
      else if cmpMag m e 65535 (-16) != .lt then 65535
      else (roundInt .rne 0 (.fin false m (e + 16) st)).toNat
  code + if !x.isNan && x.neg? then 2 ^ 31 else 0

/-- VPCODE (R387). -/
def execVpcode (h : Head) (d a : BitVec 6) (b : Src) (s : State) : Res :=
  vaRun h (.vpcode h d a b) 2 .rne legal
    (fun x =>
      let v := x.vreg a
      let c := x.va.fsrc b
      vMap x h d 4 fun i => pulseCode (decodeIeee 24 (vElem v 4 i)) c) s

/-! ### Shape, rotation and pipelined loops -/

/-- VSHAPE (R383): seen by the next instruction. -/
def execVshape (h : Head) (a : Src) (s : State) : Res :=
  engRun h (.vshape h a)
    (fun n e => do
      let s ← get
      let v := s.esrc n e a
      let r := bits v 0 5
      let c := bits v 8 5
      need (decide (1 ≤ r ∧ r ≤ 16 ∧ 1 ≤ c ∧ c ≤ 16 ∧ v = pack [(8, c), (0, r)])) 0x02 v 0)
    (fun n e => do
      act fun s => s.modCC n fun c => c.setSr 0x041 (s.esrc n e a)
      pure .seq) s

/-- VROT (R365). -/
def execVrot (h : Head) (a : Src) (s : State) : Res :=
  engRun h (.vrot h a) noCheck
    (fun n e => do
      act fun s => s.modCC n fun c => c.setSr 0x040 (BitVec.ofNat 64 (((c.sr 0x040).toNat + (s.esrc n e a).toNat) % 32))
      pure .seq) s

/-- VLOOPP (R370, R371). -/
def execVloopp (h : Head) (st : BitVec 3) (a : Src) (blen : BitVec 12) (s : State) : Res :=
  engRun h (.vloopp h st a blen)
    (fun n e => do
      let s ← get
      let t := s.esrc n e a
      need (decide (t.toNat < 2 ^ 32)) 0x02 t 0
      need (bits ((s.ac n).cc.sr 0x043) 8 4 == 0) 0x02 t 0)
    (fun n e => do
      let s ← get
      let t := (s.esrc n e a).toNat
      let k := st.toNat + 1
      let x := (s.ac n).eng e
      let b := addr55 (x.upc + Head.size h)
      let f := addr55 (b + BitVec.ofNat 64 (4 * blen.toNat))
      if t = 0 then pure (.jump f)
      else
        act fun s =>
          (s.modCC n fun c => (c.setSr 0x042 (pack [(32, t)])).setSr 0x043 (pack [(8, k), (0, stageBits k 0 t)])).modEng n e fun x =>
            { ((x.setX 16 (BitVec.ofNat 64 (t + k - 1))).setX 17 b).setX 18 f with act0 := true, live0s := b, live0e := f }
        pure .seq) s

/-- VA_RESULT_LANDING: results whose landing cycle has passed, or that land in this cycle after VA has issued in it, are
written (R366, R367). -/
def execVaResultLanding (n : Nat) (s : State) : Res :=
  .next (if (s.ac n).vec.issued = s.cycle + 1 then landUpTo n s.cycle s
    else if s.cycle = 0 then s else landUpTo n (s.cycle - 1) s)

end Sys2Proof.Machine
end

