-- ==== Sys2Proof/Machine/SysI.lean ====
section
/-! DEFINITION. Events of access checks, translation, fault queues, caches, carves, traps and integrity (R38 to R84, R441, R449, R456, R457). -/

namespace Sys2Proof.Machine

/-! ### Delivery of access faults (R44, R45, R465) -/

/-- A record that the die's hardware writes to a ring in memory. Where the ring's base does not name HBM the bytes go nowhere, and the ring's
registers move as ever (DESIGN CHOICE, log entry 99). -/
def hwWrite (d pa : Nat) (b : List Byte) (s : State) : State :=
  if inHbm pa then strongStore (.disp d) .pkg false (canonPa d pa) b s else s

/-- The record of an access fault whose master is a host goes to that host's fault window (R465). -/
def hostFault (p : Nat) (w0 w1 : W64) (s : State) : State :=
  let d := 2 * p
  let w := s.reg d 0x8018
  if w.getLsbD 0 then
    let tail := bits (s.reg d 0x8020) 0 32
    let s := hwWrite d (bits w 12 40 * 4096 + 16 * (tail % 256)) (bytes64 w0 ++ bytes64 w1) s
    raiseMsi p 63 (s.setReg d 0x8020 (BitVec.ofNat 64 ((tail + 1) % 2 ^ 32)))
  else s

/-- The master of an ID (Table 1-7). -/
def masterOf (m : Nat) : Option Agent :=
  let i := m % 0x1000
  match m / 0x1000 with
  | 0 => if i < 2 then some (.host i) else none
  | 1 => if i < 4 then some (.mcore i) else if i = 4 then some .root else none
  | 2 => if i < 256 then some (.ac i 0) else none
  | 3 => if i < 256 then some (.ac i 6) else none
  | 4 => if i < 256 then some (.kettle i) else none
  | 5 => if i < 32 then some (.ingress i) else none
  | 6 => if i < 4 then some (.pot i) else none
  | 7 => if i < 4 then some (.disp i) else none
  | _ => none

/-- The record of a refusal: an access to a granule that a carve moves goes by the same route (R80). -/
def refusalRecord (st : Stop) : Option (W64 × W64) :=
  match st with
  | .access w0 w1 _ | .carve w0 w1 _ => some (w0, w1)
  | _ => none

/-- The CC may take a synchronous fault of what it does now: it is not entering a trap or saving, and nothing of Table 15-3 is pending
(R441). -/
def State.ccOpen (s : State) (n : Nat) : Bool :=
  let a := s.ac n
  a.cc.task.isSome && !a.cc.saving && a.cc.entry.isNone && (a.event s.cycle).isNone

/-- A synchronous fault of what the CC does now. -/
def ccFault (n cause : Nat) (i0 i1 : W64) (s : State) : State := if s.ccOpen n then syncTrap n cause i0 i1 s else s

/-- A request that returns nothing: 1 Unsupported Request, 2 Completer Abort (R45, R458, R461). -/
def State.unanswered (s : State) (a : Agent) (how : Nat) : State :=
  { s with extIn := smSet s.extIn a.key [], extEnd := smPut 0 s.extEnd a.key how }

/-- A master that translates the addresses of its accesses (R17). -/
def Agent.translates (a : Agent) : Bool := match a with | .ac .. | .pot _ | .disp _ | .ingress _ => true | _ => false

/-- A denied access to `va` reaches its master (Table 1-11); every record also goes to the fault queue of the target's die, with the VA where the
master translated it (R59). With the ring full, a cluster's access is made again once FQHEAD has moved (R59). A core takes the RV64 access-fault
exception 1, 5 or 7, of a fetch, a load, and a store or AMO. -/
def deliverRefusal (a : Agent) (k : AKind) (va : W64) (st : Stop) (s : State) : State :=
  match refusalRecord st with
  | none => s
  | some (w0, w1) =>
    let va := if a.translates then va else 0
    let t := s.addAccessRecord a w0 w1 va
    match a with
    | .ac n 0 =>
      (match s.ringed a st with
      | .carve .. => ccFault n 0x0A va 0 s
      | .access .. => if k = .fetch then ccFault n 0x08 0x10 (s.ac n).cc.pc t else ccFault n 0x06 w0 w1 t
      | _ => s)
    | .ac n 6 =>
      let cause := match st with | .carve .. => 0x0A | _ => 0x10
      (match (s.ac n).io.copies with
      | c :: _ => if c.cause = 0 then copyFails n 0 c cause w0 w1 va s else t
      | [] => t)
    | .kettle q => if (s.kettle q).run.isSome then kettleEnd q 3 4 (s.kettle q).kpc w0 w1 t else t
    | .host p => (hostFault p w0 w1 t).unanswered a 2
    | .mcore _ | .root => { t.unanswered a 2 with mexc := smSet t.mexc a.key (match k with | .fetch => 1 | .read => 5 | _ => 7, bits w1 0 52) }
    | .ingress p => t.reply p 0 (.nack w0 w1)
    | _ => t

/-- The length of the access that stands for one at an address: a register is reached whole (R25). -/
def probeLen (own pa : Nat) : Nat := if (mmioOf own pa).isSome then 8 else 1

/-- ACCESS_FAULT: a master's access at a physical address, which it has translated if it translates, is checked (R41 to R44); denied, it is not performed and the master
receives the fault. -/
def execAccessFault (master : Nat) (k : AKind) (x : Reached) (s : State) : Res :=
  .next (match masterOf master with
    | none => s
    | some a => match checkAccess s a k x.pa (probeLen a.die x.pa) with
      | some st => deliverRefusal a k x.va st s
      | none => s)

/-- ACCESS_ENTRY_WRITE (R40, R46): the root core writes word 0 of entry e of target t of die d. -/
def execAccessEntryWrite (d t e : Nat) (v : W64) (s : State) : Res := .next (if t < 96 ∧ e < 64 then entryWord0 d t e v s else s)

/-! ### Translation and its invalidation (R48 to R68) -/

/-- TRANSLATION_WALK (R50, R54, R56): what a walk of a die leaves in its caches. The context that waits for it goes on in a step of its own. -/
def execTranslationWalk (d : Nat) (k : AKind) (va : W64) (s : State) : Res :=
  .next (if va.toNat < 2 ^ 55 then match xlate (.disp d) k va.toNat s with | .ok _ s => s | .error _ s => s else s)

/-- TLBICMD (R65). -/
def execTlbicmd (d : Nat) (v : W64) (s : State) : Res := .next (tlbCommand d v s)

/-- Two ranges of addresses meet. -/
def meet (a n b m : Nat) : Bool := decide (a < b + m ∧ b < a + n)

/-- A die's TLB has translated the descriptor of a request at its home: that of its cluster, or of the port it came by (R174, R469). -/
def PotReq.translatedBy (r : PotReq) (d : Nat) : Bool :=
  match r.parts with
  | x :: _ => if x.ac < 256 then dieOf x.ac == d else (x.ac - 256) / 8 == d
  | [] => false

/-- A die still has accesses that went through its translations: array commands whose scratch writes are to come, kettle commands,
return-free atomics not applied, copies whose probe used the range, and pot requests that are to read a descriptor of the range (R66). -/
def State.invalBusy (s : State) (d lo n : Nat) : Bool :=
  s.acs.any (fun (i, a) => dieOf i == d &&
    (a.axq.any (fun c => !c.done && !(c.writes.isEmpty && c.rows.isEmpty)) || !a.io.nm.isEmpty
      || a.io.copies.any fun c => c.vas.any fun (v, m) => meet v m lo n))
    || s.kettles.any (fun (_, k) => k.atomq.any fun x => match x.what with | .atom _ _ _ ac _ => dieOf ac == d | .store .. => false)
    || s.dies.any fun (h, x) => x.potIn.any fun r =>
      r.translatedBy d && r.raw.isSome && r.proxy.isNone && meet r.desc.toNat 256 lo n && !x.pots.any fun p => p.pa == r.pa && !p.retire

/-- Stores of a die's agents that translated through a range are performed where they went; they stay unreleased (R66, R140 (a)). -/
def State.performThrough (s : State) (d lo n : Nat) : State :=
  s.agm.foldl (fun s (k, _) =>
    let a := Agent.ofKey k
    if a.die? = some d then performOnly a (fun w => meet w.va w.bytes.length lo n) s else s) s

/-- Entries of the TLBs of a cluster whose range meets the range of the invalidation are removed (R66). -/
def AC.dropTlb (a : AC) (lo n : Nat) : AC :=
  let keep := fun (l : List TlbEntry) => l.filter fun e => !meet e.va (2 ^ e.lg) lo n
  { a with tlb := keep a.tlb, utlb := a.utlb.map fun (u, l) => (u, keep l) }

/-- What a die has translated the descriptors of a range to is forgotten for the requests that may still read one: it is translated again then
(R66). -/
def State.forgetPots (s : State) (d lo n : Nat) : State :=
  { s with dies := s.dies.map fun (h, x) =>
      (h, { x with potIn := x.potIn.map fun r => if r.translatedBy d && meet r.desc.toNat 256 lo n then { r with raw := none } else r }) }

/-- What the TLBs of a die's clusters hold of a range is removed (R66). -/
def State.dropAcTlbs (s : State) (d lo n : Nat) : State :=
  { s with acs := s.acs.map fun (i, a) => (i, if dieOf i = d ∧ !(a.tlb.isEmpty && a.utlb.isEmpty) then a.dropTlb lo n else a) }

/-- Entries of a die whose range meets the range of the invalidation are removed (R66). -/
def Die.dropTlb (x : Die) (lo n : Nat) (walkc : Bool) : Die :=
  { x with
    tlb := x.tlb.filter fun e => !meet e.va (2 ^ e.lg) lo n
    wc := if walkc then [] else x.wc.filter fun e =>
      let lg := if e.level = 2 then 42 else 29
      !meet (e.vaTop * 2 ^ lg) (2 ^ lg) lo n }

/-- An invalidation completes once nothing is under way through the entries that it removes (R66, R67). -/
def invalDone (d : Nat) (s : State) : State :=
  match (s.die d).tlbi with
  | none => s
  | some (start, lg, all, pkg, walkc) =>
    let dies := if pkg then [0, 1, 2, 3] else [d]
    let lo := if all then 0 else start
    let n := if all then 2 ^ 55 else 2 ^ lg
    if dies.any fun e => s.invalBusy e lo n then s
    else
      let s := dies.foldl (fun s e => (((s.performThrough e lo n).forgetPots e lo n).dropAcTlbs e lo n).modDie e fun x => x.dropTlb lo n walkc) s
      let s := s.modDie d fun x => { x with tlbi := none }
      s.setReg d 0x0218 (setBits (s.reg d 0x0218) 32 32 (bits (s.reg d 0x0218) 32 32 + 1))

/-- TLB_INVAL_DONE (R66). -/
def execTlbInvalDone (d : Nat) (s : State) : Res := .next (invalDone d s)

/-! ### The fault queue (R59, R62) -/

/-- The oldest record that waits is written at FQTAIL, released at .pkg, FQTAIL advances and FQINT is raised; a full ring holds it
(R59). -/
def writeRecord (d : Nat) (s : State) : State :=
  match (s.die d).frPend with
  | [] => s
  | r :: rest =>
    let n := 2 ^ fqLog s d
    if n - 1 ≤ fqUsed s d then s
    else
      let tail := bits (s.reg d 0x600018) 0 32 % n
      let num := (s.die d).frSeq - (s.die d).frPend.length
      let s := hwWrite d (bits (s.reg d 0x600000) 6 46 * 64 + 64 * tail) (wordBytes [r.w0, r.w1, r.w2, r.w3, BitVec.ofNat 64 num, 0, 0, 0]) s
      let s := (s.modDie d fun x => { x with frPend := rest }).setReg d 0x600018 (BitVec.ofNat 64 ((tail + 1) % n))
      s.setReg d 0x600028 (s.reg d 0x600028 ||| 1)

/-- FAULT_RECORD_WRITE (R59). -/
def execFaultRecordWrite (d : Nat) (s : State) : Res := .next (writeRecord d s)

/-- FAULT_REPLAY and FAULT_ABORT: REPLAY is written with a token (R61, R62). -/
def execFaultReplay (d token : Nat) (s : State) : Res := .next (replayWrite d (pack [(32, token % 2 ^ 32), (0, 0)]) s)
def execFaultAbort (d token : Nat) (s : State) : Res := .next (replayWrite d (pack [(32, token % 2 ^ 32), (0, 1)]) s)

/-! ### Parking regardless of the quota (R82, R83) -/

/-- The park area of a die (R83). -/
def parkBase (s : State) (d : Nat) : Nat :=
  let b := bits (s.reg d 0x0410) 16 36 * 65536
  if inDieHbm d b then b else d * 0x2000000000 + b % 0x2000000000 % 0x1800000000

/-- Entries of the park area of a die (R83). -/
def parkEntries (s : State) (d : Nat) : Nat := 64 * (2 ^ min 20 (bits (s.reg d 0x0418) 0 5) + 16384)

/-- A parked line spills to the entry of the park area that it is to have (log entry 47). -/
def spill (line : Nat) (s : State) : State :=
  let d := lineDie line
  let data := (List.range 256).map fun i => Config.parkByte (256 * s.seq + i)
  hwWrite d (parkBase s d + 256 * (s.parkSlot d % parkEntries s d)) data { s with seq := s.seq + 1 }

/-- Write back lines of an L1, and park what is not released regardless of the quota (R83). -/
def forceBack (n : Nat) (lines : List Nat) (s : State) : State :=
  lines.foldl (fun s l =>
    let s := mergeLine n l s
    (s.toPark n l).foldl (fun s x => parkOne l (spill l s) x) s) s

/-- CACHE_WRITEBACK: a line of a cluster's L1 is replaced (R82). One that would park beyond the quota is not: the access that replaces it
faults (R84), and is not part of this event. -/
def execCacheWriteback (n line : Nat) (s : State) : Res :=
  .next (if !s.mayCache (128 * line) ∨ s.overQuota n line then s else s.writeBack n line)

/-! ### Quad modes (R72 to R74) -/

/-- QFUSE_WRITE (R72, R74). -/
def execQfuseWrite (d : Nat) (v : W64) (s : State) : Res := .next (qfuse d v s)

/-- The clusters of a quad of a die. -/
def quadAcs (d q : Nat) : List Nat := (List.range 4).map fun i => 64 * d + 4 * q + i

/-- The write-back of a switching quad begins once none of its clusters runs a task (R74 step 2). -/
def quadDrain (d q : Nat) (s : State) : State :=
  if (quadAcs d q).any fun n => (s.ac n).cc.task.isSome then s
  else s.modDie d fun x => { x with qsw := x.qsw.map fun w => if w.quad = q ∧ w.stop.isNone then { w with stop := some (s.cycle + 4096) } else w }

/-- QUAD_SWITCH_DRAIN. -/
def execQuadSwitchDrain (d q : Nat) (s : State) : Res := .next (quadDrain d q s)

/-- After 4,096 cycles the quad enters the new mode, or begins its second switch (R74 step 3). -/
def quadEnd (d q : Nat) (s : State) : State :=
  match (s.die d).qsw.find? fun w => w.quad == q with
  | some w =>
    (match w.stop with
    | some c =>
      if c ≤ s.cycle then
        let s := (quadAcs d q).foldl (fun s n => forceBack n (s.l1Lines n) s) s
        let s := s.modDie d fun x => { x with qsw := if w.again then x.qsw.map fun y => if y.quad = q then ⟨q, none, false⟩ else y
                                                    else x.qsw.filter fun y => y.quad != q }
        if w.again then s else s.setReg d 0x0400 (s.reg d 0x0400 &&& ~~~ BitVec.twoPow 64 (32 + q))
      else s
    | none => s)
  | none => s

/-- QUAD_SWITCH_END. -/
def execQuadSwitchEnd (d q : Nat) (s : State) : Res := .next (quadEnd d q s)

/-! ### Carves (R77 to R81) -/

/-- Bytes at a run of keys are gone: they read as zero, and no agent has a store to them (R78). -/
def wipe (k n : Nat) (s : State) : State :=
  let out := fun (x : Nat) => decide (x < k ∨ k + n ≤ x)
  { s with
    mem := s.mem.filter fun c => out c.1
    hist := s.hist.filter fun c => out c.1
    agm := s.agm.map fun (a, m) =>
      (a, { m with pend := m.pend.filter fun w => !meet w.pa w.bytes.length k n, view := m.view.filter fun c => out c.1, seen := m.seen.filter fun c => out c.1 }) }

/-- Lines that a carve's write-back takes from an L1: all when no cache remains, else which of them lie in moving granules is
free. -/
def carveLines (new : Nat) (lines : List Nat) (s : State) : List Nat × State :=
  if new = 8 then (lines, s)
  else (((List.range lines.length).zip lines).filterMap fun (i, l) => if Config.merged (s.seq + i) then some l else none, { s with seq := s.seq + lines.length })

/-- The end of a carve (R79): lines written back, moving granules zeroed or lost, the new split in force. -/
def carveEnd (n : Nat) (s : State) : State :=
  match (s.ac n).cc.carve with
  | none => s
  | some c =>
    if s.cycle < c.stop then s
    else
      let s := if c.old < c.new then
          let (ls, s) := carveLines c.new (s.l1Lines n) s
          forceBack n ls s
        else s
      let lo := min c.old c.new
      let s := wipe (scratchPa n + lo * 262144) ((max c.old c.new - lo) * 262144) s
      s.modCC n fun x =>
        let x := { x.setSr 0x0C0 (pack [(4, c.old), (0, c.new)]) with carve := none }
        match c.again with
        | some k => x.startCarve k s.cycle
        | none => x

/-- CARVE_DRAIN_END. -/
def execCarveDrainEnd (n : Nat) (s : State) : Res := .next (carveEnd n s)

/-! ### Traps and interrupts (R441, R449, R448) -/

/-- TRAP_ENTRY: the pending event of a cluster that comes first is taken at the boundary (R441, R442). -/
def execTrapEntry (n : Nat) (s : State) : Res := .next ((boundaryTrap n s).getD s)

/-- TIMER_INTERRUPT: the timer of a cluster is due, and is the event that comes first (R449). -/
def execTimerInterrupt (n : Nat) (s : State) : Res :=
  .next (match (s.ac n).event s.cycle with
    | some p => if p.cause = 0x20 then (boundaryTrap n s).getD s else s
    | none => s)

/-- MINT: a management interrupt is written on a die (R449). -/
def execMint (d : Nat) (v : W64) (s : State) : Res := .next (mintWrite d v s)

/-- ENGINE_FAULT: an instruction of an engine meets a fault. -/
def execEngineFault (n : Nat) (e : Eid) (cause : BitVec 8) (i0 i1 : W64) (s : State) : Res := .next (lateFault n e cause.toNat i0 i1 s)

/-- LATCH_LANDING: results restored from a frame land as their remaining cycles pass (R448). -/
def execLatchLanding (n : Nat) (s : State) : Res := execVaResultLanding n s

/-! ### Integrity (R456, R457) -/

/-- The cluster and engine that a unit number 0x8000 + 8n + u names (log entry 79). -/
def engineOf (who : Nat) : Option (Nat × Eid) :=
  if 0x8000 ≤ who ∧ who < 0x8800 then (eidOf (who % 8)).map fun e => ((who - 0x8000) / 8, e) else none

/-- The address of the instruction of an engine that an integrity event concerns (R440, R457): on AX its oldest command that has not completed, on MX
that runs its tile queue the instruction that pushed the entry, and else the instruction at the micro-PC. -/
def AC.engInstr (a : AC) (e : Eid) : W64 :=
  match e, (a.axq.find? fun c => !c.done), a.mxu.tq with
  | .ax, some c, _ => c.addr
  | .mx, _, q :: _ => if a.mx.st = 0 ∧ a.mxu.run.isSome then smGet 0 a.mxu.pcs q.num else a.mx.upc
  | _, _, _ => (a.eng e).upc

/-- The cluster that a unit belongs to (256 for none), and the address of the instruction concerned (R440): where a cluster's number stands for the
unit that had issued the command of source 0 to 2, that of AX's command (0), or of MX's (1, 2). -/
def concerned (src who : Nat) (s : State) : Nat × W64 :=
  if who < 256 then
    (who, if src = 0 then (s.ac who).engInstr .ax else if src = 1 ∨ src = 2 then (s.ac who).engInstr .mx else (s.ac who).cc.pc)
  else match engineOf who with
    | some (n, e) => (n, (s.ac n).engInstr e)
    | none => match masterOf who with | some (.ac n _) => (n, 0) | _ => (256, 0)

/-- An engine uses data with an uncorrectable error (R457): its result is not written. VA's is the last of its results in flight to land; with
none, and on another engine, it is that of the instruction at the micro-PC. -/
def engineUncorr (n : Nat) (e : Eid) (src : Nat) (info : W64) (s : State) : State :=
  let a := s.ac n
  match e, a.vec.flight.reverse.find? (fun f => f.kind != 4 && f.bad.isNone && a.cc.entry.isNone) with
  | .va, some f =>
    s.setAc n { a with vec := { a.vec with flight := a.vec.flight.map fun g => if g = f then { g with bad := some (src, info) } else g } }
  | _, _ => lateFault n e 0x1A (BitVec.ofNat 64 src) info s

/-- What an uncorrectable error does to the unit that uses the data (R457), where `may` is whether a CC may take it: a cluster's CC traps, an engine stops, a cluster's oldest copy ends, a
kettle's command ends, and at pot hardware the contribution of slot `info` mod 64 to the pot whose descriptor the rest of `info` names has
INTEG set. -/
def uncorrected (may : Bool) (src who : Nat) (info : W64) (s : State) : State :=
  if who < 256 then (if may then syncTrap who 0x1A (BitVec.ofNat 64 src) info s else s)
  else match engineOf who with
  | some (n, e) => engineUncorr n e src info s
  | none => match masterOf who with
    | some (.ac n 6) =>
      (match (s.ac n).io.copies with
      | c :: _ => if c.cause = 0 then s.setCopy n 0 { c with cause := 0x08 } else s
      | [] => s)
    | some (.kettle q) => if (s.kettle q).run.isSome then kettleEnd q 3 8 (s.kettle q).kpc 0 0 s else s
    | some (.pot d) => s.modDie d fun x => { x with pots := x.pots.map fun p =>
        if p.va.toNat / 64 = info.toNat / 64 then { p with integ := p.integ ||| BitVec.twoPow 64 (info.toNat % 64) } else p }
    | _ => s

/-- INTEGRITY_EVENT of a source of Table 15-8 on a die: the unit concerned is a cluster's number for sources 0 to 3; a cluster's number (its CC),
0x8000 + 8n + u for engine u of cluster n, or a master ID of Table 1-7 for sources 5 and 7. -/
def execIntegrityEvent (d src n : Nat) (info : W64) (s : State) : Res :=
  let (ac, pc) := concerned src n s
  .next (if 8 ≤ src then s
    else if src = 5 ∨ src = 7 then uncorrected (s.ccOpen n) src n info (s.integrity d src ac info pc)
    else s.integrity d src ac info pc)

end Sys2Proof.Machine
end

