-- ==== Sys2Proof/Machine/HostI.lean ====
section
/-! DEFINITION. Events of the hosts, root firmware, power, reset and the management cores (R17, R25, R166, R167, R458 to R467, R474 to R495). -/

namespace Sys2Proof.Machine

/-! ### Accesses of masters that use physical addresses -/

/-- What an external master has got back. -/
def State.answer (s : State) (a : Agent) (b : List Byte) : State :=
  { s with extIn := smSet s.extIn a.key b, extEnd := smPut 0 s.extEnd a.key 0 }

/-- Check an access of a master that does not translate (R17): one to MMIO is 4 or 8 bytes, aligned (R25). -/
def checkPhys (s : State) (a : Agent) (k : AKind) (pa len : Nat) : Option Stop :=
  if (mmioOf a.die pa).isSome then checkGranule s a k pa len else checkAccess s a k pa len

/-- An access to MMIO that R25 does not allow: not 4 or 8 bytes, aligned. -/
def breaksR25 (own pa n : Nat) : Bool := (mmioOf own pa).isSome && !decide ((n = 4 ∨ n = 8) ∧ pa % n = 0)

/-- A refused access of `n` bytes (R45): its record, and no data; a core takes an RV64 access-fault exception (5 of a load, 7 of a store or AMO). -/
def physRefused (a : Agent) (k : AKind) (pa n : Nat) (st : Stop) (s : State) : State :=
  let s := deliverRefusal a k 0 st s
  match a with
  | .host _ => s.unanswered a (if breaksR25 a.die pa n then 1 else 2)
  | _ => { s with mexc := smSet s.mexc a.key (if k = .read then 5 else 7, pa) }

/-- Strong loads at .pkg of pieces in order. -/
def physLoad (a : Agent) : List (Nat × Nat) → State → List Byte × State
  | [], s => ([], s)
  | (pa, n) :: r, s =>
    let (b, s) := match mmioOf a.die pa with
      | some (d, off) => mmioLoad d off n s
      | none => strongLoad a .pkg false (canonPa a.die pa) n s
    let (rest, s) := physLoad a r s
    (b ++ rest, s)

/-- Strong stores at .pkg of pieces in order. -/
def physStore (a : Agent) : List (Nat × Nat) → List Byte → State → State
  | [], _, s => s
  | (pa, n) :: r, b, s =>
    let s := match mmioOf a.die pa with
      | some (d, off) => mmioStore a d off (b.take n) s
      | none => strongStore a .pkg false (canonPa a.die pa) (b.take n) s
    physStore a r (b.drop n) s

/-- An atomic at .pkg; the old bytes are the answer. -/
def physAtomic (a : Agent) (pa n : Nat) (f : List Byte → Option (List Byte)) (s : State) : State :=
  let (b, s) := match mmioOf a.die pa with
    | some (d, off) =>
      let (b, s) := mmioLoad d off n s
      (b, match f b with | some x => mmioStore a d off x s | none => s)
    | none => atomic a .pkg false (canonPa a.die pa) n f s
  s.answer a b

/-- New bytes of an atomic. -/
def XAtom.bytes (x : XAtom) (old : List Byte) : Option (List Byte) :=
  match x with
  | .amo op v => some (amoBytes op v old)
  | .cas c v => casBytes c v old

/-! ### Host requests (R458 to R461, R166) -/

/-- The link of a port is up. -/
def linkUp (s : State) (port : Nat) : Bool := decide (port < 2) && (s.reg (2 * port) 0x8008).getLsbD 0

/-- The PA that a BAR yields (Table 16-1), for BAR0 and BAR2. -/
def barPa (s : State) (port bar off : Nat) : Option Nat :=
  match bar with
  | 0 => if off < 0x4000000 then some (0x30000000000 + off) else none
  | 2 =>
    let w := s.reg (2 * port) 0x8010
    if off < 2 ^ max 30 (min 52 (bits w 0 6)) then some (bits w 30 22 * 2 ^ 30 + off) else none
  | _ => none

/-- Pieces of a request, each in one granule of 64 bytes (R461). -/
def granules64 : Nat → Nat → Nat → List (Nat × Nat)
  | 0, _, _ => []
  | f + 1, pa, len =>
    if len = 0 then []
    else
      let n := min len (64 - pa % 64)
      (pa, n) :: granules64 f (pa + n) (len - n)

def hostPieces (pa len : Nat) : List (Nat × Nat) := granules64 (len / 64 + 2) pa len

/-- A byte of BAR4: the MSI-X table, and the pending bits (Table 16-1). -/
def msiByte (s : State) (port o : Nat) : Byte :=
  if o < 0x400 then msiEntry s port o
  else if 0x8000 ≤ o ∧ o < 0x8008 then (bytes64 (smGet 0 s.msiPend port)).getD (o - 0x8000) 0
  else 0

/-- Write bytes of the MSI-X table; vectors that are no longer masked are sent. -/
def msiWrite (port o : Nat) (b : List Byte) (s : State) : State :=
  msiFlush port (((List.range b.length).zip b).foldl (fun s (i, v) =>
    if o + i < 0x400 then { s with msiTab := smSet s.msiTab (0x10000 * port + o + i) v } else s) s)

/-- Message control of the MSI-X capability: 64 vectors, enabled, and the function mask. -/
def msiControl (s : State) (port : Nat) : Nat := 63 + 2 ^ 15 + (if smGet false s.msiMask port then 2 ^ 14 else 0)

/-- A byte of the port's PCIe configuration space (R458): IDs, class code, the list of capabilities, of which there are two, PCI Express, with a payload
of up to 512 bytes, 64 GT/s on eight lanes and AtomicOps of 32 and 64 bits as completer, without CAS of 128 bits and TPH, and MSI-X; and the list of
extended capabilities, of which AER is the only one, so that there is no SR-IOV, ATS, PASID or TPH. Places and encodings are as PCIe has them (log entry
96); the other bits are free. -/
def cfgByte (s : State) (port o : Nat) : Byte :=
  let field := fun (lo n v : Nat) => if lo ≤ o ∧ o < lo + n then some ((leBytes n v).getD (o - lo) 0) else none
  let some' := fun (at' m v : Nat) =>
    if o = at' then some ((Config.cfgByte port o &&& ~~~ (BitVec.ofNat 8 m)) ||| BitVec.ofNat 8 v) else none
  ((field 0 2 0x7A3D) <|> (field 2 2 0x0880) <|> (some' 6 0x10 0x10) <|> (field 11 1 0x12) <|> (field 0x34 1 0x40)
    <|> (field 0x40 2 0xB010) <|> (some' 0x44 0x07 0x02) <|> (field 0x4C 1 0x86) <|> (some' 0x4D 0x03 0) <|> (some' 0x64 0x80 0x80) <|> (some' 0x65 0x33 0x01)
    <|> (field 0xB0 2 0x0011) <|> (field 0xB2 2 (msiControl s port))
    <|> (field 0xB4 4 4) <|> (field 0xB8 4 0x8004) <|> (field 0x100 4 0x00020001)).getD (Config.cfgByte port o)

/-- Write configuration bytes: only the function mask of MSI-X has an effect the spec gives. -/
def cfgWrite (port o : Nat) (b : List Byte) (s : State) : State :=
  if o ≤ 0xB3 ∧ 0xB3 < o + b.length then
    msiFlush port { s with msiMask := smPut false s.msiMask port ((b.getD (0xB3 - o) 0).getLsbD 6) }
  else s

/-- HOST_READ: a strong load at .pkg, in granules of 64 bytes (R461, R166). A request that no BAR takes, or that needs what the port does
not support, completes with Unsupported Request (R458). -/
def execHostRead (port : Nat) (x : HostTarget) (off len : Nat) (s : State) : Res :=
  let a := Agent.host port
  .next (if !linkUp s port then s
    else if x.ext ≠ .plain then s.unanswered a 1
    else if x.bar = 4 ∧ off + len ≤ 0x10000 then s.answer a ((List.range len).map fun i => msiByte s port (off + i))
    else if x.bar = 6 then s.answer a ((List.range len).map fun i => cfgByte s port (off + i))
    else match barPa s port x.bar off with
      | none => s.unanswered a 1
      | some pa => match checkPhys s a .read pa len with
        | some st => physRefused a .read pa len st s
        | none =>
          let (b, s) := physLoad a (if (mmioOf a.die pa).isSome then [(pa, len)] else hostPieces pa len) (s.fresh a)
          s.answer a b)

/-- HOST_WRITE: strong stores in the order received, each releasing the host's earlier writes (R461, R166). One that needs what the port does not support
is an Unsupported Request (R458). -/
def execHostWrite (port : Nat) (x : HostTarget) (off : Nat) (data : List Byte) (s : State) : Res :=
  let a := Agent.host port
  .next (if !linkUp s port then s
    else if x.ext ≠ .plain then s.unanswered a 1
    else if x.bar = 4 then (if off + data.length ≤ 0x10000 then msiWrite port off data s else s)
    else if x.bar = 6 then cfgWrite port off data s
    else match barPa s port x.bar off with
      | none => s
      | some pa => match checkPhys s a .write pa data.length with
        | some st => deliverRefusal a .write 0 st s
        | none => physStore a (if (mmioOf a.die pa).isSome then [(pa, data.length)] else hostPieces pa data.length) data (release a .pkg s))

/-- An operation that the port completes (R458): FetchAdd, Swap and CAS. -/
def XAtom.offered (x : XAtom) : Bool := match x with | .amo .add _ | .amo .swap _ | .cas .. => true | _ => false

/-- HOST_ATOMIC: an AMO or CAS at .pkg, naturally aligned (R461); any other request is unsupported, and one through BAR0 that breaks R25
leaves its record. -/
def execHostAtomic (port : Nat) (e : HostTarget) (off : Nat) (wide : Bool) (x : XAtom) (s : State) : Res :=
  let a := Agent.host port
  let n := if wide then 8 else 4
  .next (if !linkUp s port then s
    else if e.ext ≠ .plain then s.unanswered a 1
    else match barPa s port e.bar off with
      | none => s.unanswered a 1
      | some pa =>
        if !XAtom.offered x ∨ ((mmioOf a.die pa).isNone ∧ pa % n ≠ 0) then s.unanswered a 1
        else match checkPhys s a .atomic pa n with
          | some st => physRefused a .atomic pa n st s
          | none => physAtomic a pa n (XAtom.bytes x) (release a .pkg s))

/-- HOST_OWN_STORE: a strong store at .pkg to the host's own memory (R464). -/
def execHostOwnStore (port addr : Nat) (data : List Byte) (s : State) : Res :=
  .next (if port < 2 ∧ addr + data.length ≤ 0x4000000000000 then
    strongStore (.host port) .pkg false (0x8000000000000 + port * 0x4000000000000 + addr) data s
  else s)

/-- Top speed of a port (Table 16-2). -/
def maxSpeed (w : W64) : Nat := let m := bits w 12 4; if m = 0 ∨ 6 < m then 6 else m

/-- HOST_LINK_TRAINING (R458, R460, R462): a training ends with the link up, at what was negotiated, or down. -/
def execHostLinkTraining (port : Nat) (up cxl : Bool) (speed width : BitVec 4) (s : State) : Res :=
  .next (if 2 ≤ port then s
    else
      let d := 2 * port
      let w := s.reg d 0x8000
      if !w.getLsbD 0 ∨ !up then s.setReg d 0x8008 0
      else
        let sp := if speed = 0 then maxSpeed w else min speed.toNat (maxSpeed w)
        let wd := if [1, 2, 4, 8].contains width.toNat then width.toNat else 8
        let flit := decide (sp = 6) || Config.flitOffered s.seq
        let s := { s with hcached := smSet s.hcached port (w.getLsbD 3), seq := s.seq + 1 }
        s.setReg d 0x8008 (pack [(12, sp), (8, wd), (2, (cxl && w.getLsbD 1).toNat), (1, flit.toNat), (0, 1)]))

/-- HINTR: the register of a port is written (R466). -/
def execHintr (port : Nat) (v : W64) (s : State) : Res := .next (if port < 2 then raiseMsi port (bits v 0 6) s else s)

/-- HOST_COMPLETION: a port confirms the posted writes that it has sent (R166, R462). -/
def execHostCompletion (port : Nat) (s : State) : Res := .next { s with posted := s.posted.filter fun x => x.1 != port }

/-! ### Root firmware (R474 to R479) -/

/-- A management core or the root core has gone on: its instruction set being another document, its PC is free (R490; log entry 109). -/
def State.coreGoes (s : State) (a : Agent) : State :=
  { s with corePc := smPut 0 s.corePc a.key (Config.corePc s.seq), seq := s.seq + 1 }

/-- The response is written from offset 0x100 with release at .pkg; BUSY clears, and a host that asked gets vector 62 (R478). -/
def rootAnswer (blk : Nat) (b : List Byte) (s : State) : State :=
  let s := { (release .root .pkg (writePhys .root (blk + 0x100) b s)).coreGoes .root with att := none }
  let src := bits (s.reg 0 0xA010) 48 16
  if src < 2 then raiseMsi src 62 s else s

/-- The command and argument of a request block. -/
def rootRequest (blk : Nat) (s : State) : Nat × List Byte × State :=
  let (b, s) := readPhys .root blk 128 s
  (leNat (b.take 8), (b.drop 64).take 64, s)

/-- A report (Table 16-5). -/
def report (arg : List Byte) (s : State) : List Byte :=
  let m0 := (meas s 0).toNat
  bytes64 (pack [(56, 1), (0, 1)]) ++ bytes64 (partId 0) ++ arg ++ (List.range 8).flatMap (fun i => leBytes 64 (meas s i).toNat)
    ++ bytes64 Config.fusedVersion ++ leBytes 8 s.boot ++ (List.range 2592).map (Config.aliasByte m0)
    ++ (List.range 4627).map (Config.signByte s.seq)

/-- A refusal: status 2 (R478). -/
def rootRefuses : List Byte := bytes64 (pack [(56, 1), (0, 2)])

/-- ROOT_REPORT: command 1, and the refusal of unknown commands (R478). -/
def execRootReport (s : State) : Res :=
  .next (match s.att with
    | none => s
    | some blk =>
      let (cmd, arg, t) := rootRequest blk s
      if cmd = 1 then rootAnswer blk (report arg t) { t with seq := t.seq + 1 }
      else if cmd = 2 ∨ cmd = 3 then s
      else rootAnswer blk rootRefuses t)

/-- The certificate chain: the vendor's certificate of the identity key, then the alias key's (R479), in the 7,936 bytes of the response. -/
def certChain (m0 : Nat) : List Byte :=
  (List.range 7936).map fun i => if i < Config.vendorLen then Config.vendorByte i else Config.aliasCertByte m0 (i - Config.vendorLen)

/-- ROOT_CERT_CHAIN: command 2 (R478, R479). -/
def execRootCertChain (s : State) : Res :=
  .next (match s.att with
    | none => s
    | some blk =>
      let (cmd, _, t) := rootRequest blk s
      if cmd = 2 then rootAnswer blk (certChain (meas t 0).toNat) t else s)

/-- A root patch is accepted as an image is (R476): complete in HBM, signed, at or above the fused version; M0 takes its digest then (R477). -/
def bootPatch (base len : Nat) (s : State) : State :=
  if stagingOk base len then
    let (b, s) := rootBytes base len s
    if imageAccepted b then extend 0 (sha3 (Config.imageBody b)) s else s
  else s

/-- Step 1 of the boot (Table 18-1): M0 is extended with the ROM digest and each accepted patch, and ROOTOK is set. -/
def bootStep1 (s : State) : State :=
  let s := extend 0 ((List.range 64).map Config.romByte) s
  let s := (Config.patches s.seq).foldl (fun s x => bootPatch x.1 x.2 s) { s with seq := s.seq + 1 }
  (s.coreGoes .root).setReg 0 0x0810 (s.reg 0 0x0810 ||| 1)

/-- ROOT_EXTEND: command 3, from class bit 2 only (R477, R478); with no request before ROOTOK, the extension of M0 at the boot's first
step. -/
def execRootExtend (s : State) : Res :=
  .next (match s.att with
    | none => if (s.reg 0 0x0810).getLsbD 0 then s else bootStep1 s
    | some blk =>
      let (cmd, arg, t) := rootRequest blk s
      if cmd ≠ 3 then s
      else
        let src := bits (t.reg 0 0xA010) 48 16
        if 0x1000 ≤ src ∧ src < 0x1004 then
          let t := extend (4 + (arg.getD 63 0).toNat % 4) arg t
          rootAnswer blk ((List.range 8).map (Config.answerByte t.seq)) { t with seq := t.seq + 1 }
        else rootAnswer blk rootRefuses t)

/-- BOOTGO: a master writes BOOTGO (R491); one without the grant receives an access fault. -/
def execBootgo (src : Nat) (w : RegWrite) (s : State) : Res :=
  .next (match masterOf src with
    | none => s
    | some a => match checkGranule s a .write 0x30000000808 8 with
      | some st => deliverRefusal a .write w.va st s
      | none => regWrite a 0 0x0808 w.v s)

/-! ### Power and reset (R490, R494, R495) -/

/-- The temperature of a die is measured: HOT and HOTSEEN follow; at 115 °C every clock stops and both host links go down. -/
def measure (d : Nat) (temp : BitVec 16) (s : State) : State :=
  let s := seeHot d (s.setReg d 0x10018 (temp.setWidth 64))
  if (920 : Int) ≤ temp.toInt then { (s.setReg 0 0x8008 0).setReg 2 0x8008 0 with stopped := true, ttrip := true } else s

/-- THERMAL_WARN (R494). -/
def execThermalWarn (d : Nat) (temp : BitVec 16) (s : State) : Res := .next (measure d temp s)

/-- THERMAL_SHUTDOWN (R495). -/
def execThermalShutdown (d : Nat) (temp : BitVec 16) (s : State) : Res := .next (measure d temp s)

/-- What a reset of the part keeps of a cluster: the levels of its physical cells (R490). -/
def AC.keepCells (a : AC) : AC :=
  { AC.reset with tiles := a.tiles.map fun (t, x) => (t, { Tile.reset with plf := x.plf, pls := x.pls }) }

/-- PART_RESET (R490): registers take their reset values; what lies outside the part goes on; TTRIP tells how the last power-on ended. -/
def execPartReset (s : State) : Res :=
  .next (({ State.reset with
    agenda := s.agenda
    cur := s.cur
    seq := s.seq
    boot := s.boot + 1
    acs := s.acs.map fun (n, a) => (n, AC.keepCells a)
    mem := s.mem.filter fun c => decide (0x8000000000000 ≤ c.1) }).setReg 0 0x0810 (if s.ttrip then 8 else 0))

/-! ### Registers and management cores (R25, R167) -/

/-- REGISTER_WRITE: software that may write a register writes it whole (R25, R26): the root core where only it may, else the die's
management core. -/
def execRegisterWrite (d off : Nat) (v : W64) (s : State) : Res :=
  let o := off / 8 * 8
  let who := if rootOnly d o ∨ mmioTarget d o = .tables then Agent.root else .mcore d
  .next (if d < 4 ∧ mmioTarget d o ≠ .none then regWrite who d o v s else s)

/-- Numbers of the writes that an agent's load of a run of keys has just returned (R140 (c), (d)): the newest that it knows. -/
def readIds (a : Agent) (k n : Nat) (s : State) : List Nat :=
  (List.range n).map fun i => match (s.versions (k + i)).find? (known (s.agent a) (k + i)) with | some v => v.id | none => 0

/-- The newest writes of a run of keys are those of the numbers given. -/
def unchangedSince (k n : Nat) (ids : List Nat) (s : State) : Bool :=
  decide (n ≤ ids.length) && (List.range n).all fun i => (((s.versions (k + i)).map (·.id)).headD 0) == ids.getD i 0

/-- A core's release at .pkg, complete: the ports have confirmed the writes to host windows (R166). An event of a core stands for the
completion of what it does (log entry 72). -/
def released (a : Agent) (s : State) : State := { release a .pkg s with posted := [] }

/-- Acquire and release of aq and rl (Table 5-5). -/
def relIf (b : Bool) (a : Agent) (s : State) : State := if b then released a s else s
def acqIf (b : Bool) (a : Agent) (s : State) : State := if b then acquire a .pkg s else s

/-- Access kind of an operation of a core. -/
def McOp.kind : McOp → Option AKind
  | .load | .lr .. => some .read
  | .store _ | .sc .. => some .write
  | .atom .. => some .atomic
  | _ => none

/-- What a management core or the root core does, once its access is permitted (R167, Table 5-5). LR reserves the writes that it has returned; an SC
releases and acquires also when it fails. -/
def coreDoes (a : Agent) (op : McOp) (pa n : Nat) (s : State) : State :=
  let ps := if (mmioOf a.die pa).isSome then [(pa, n)] else granulePieces 4 pa n
  match op with
  | .load => let (b, s) := physLoad a ps s; s.answer a b
  | .store v => physStore a ps (leBytes n v.toNat) s
  | .atom aq rl x => acqIf aq a (physAtomic a pa n (XAtom.bytes x) (relIf rl a s))
  | .lr aq rl =>
    let (b, s) := physLoad a ps (relIf rl a s)
    let k := canonPa a.die pa
    (acqIf aq a { s with lr := smSet s.lr a.key (k, readIds a k n s) }).answer a b
  | .sc aq rl v =>
    let k := canonPa a.die pa
    let held := match smFind s.lr a.key with | some (p, ids) => p == k && unchangedSince k n ids s && Config.reserved s.seq | none => false
    let s := relIf rl a { s with lr := smErase s.lr a.key, seq := s.seq + 1 }
    (acqIf aq a (if held then physStore a ps (leBytes n v.toNat) s else s)).answer a (leBytes 8 (if held then 0 else 1))
  | .fenceRel => released a s
  | .fenceAcq => acquire a .pkg s
  | .fenceFull => acquire a .pkg (released a s)
  | .fenceI => s

/-- A size of the RV64 memory instructions, atomics being 4 or 8 bytes and aligned. A misaligned load or store is performed in pieces, each in one granule
(DESIGN CHOICE, log entry 125). -/
def McOp.sizeOk (op : McOp) (pa n : Nat) : Bool :=
  match op with
  | .load | .store _ => [1, 2, 4, 8].contains n
  | _ => [4, 8].contains n && pa % n == 0

/-- MANAGEMENT_CORE_ACCESS: core 0 to 3 are the management cores, which run once released (R491); core 4 is the root core. -/
def execManagementCoreAccess (core : Nat) (op : McOp) (pa size : Nat) (s : State) : Res :=
  let a := if core = 4 then Agent.root else .mcore core
  .next (if 4 < core ∨ (core < 4 ∧ !(s.reg 0 0x0810).getLsbD 1) then s
    else State.coreGoes (match McOp.kind op with
      | none => coreDoes a op pa size s
      | some k =>
        if !McOp.sizeOk op pa size then s
        else match checkPhys s a k pa size with
          | some st => physRefused a k pa size st s
          | none => coreDoes a op pa size s) a)

end Sys2Proof.Machine
end

