-- ==== Sys2Proof/Machine/KettleX.lean ====
section
/-! DEFINITION. Instructions of the kettles (R112 to R124, R129). -/

namespace Sys2Proof.Machine

/-- Sign extension of IMM. -/
def kImm (v : BitVec 32) : W64 := v.signExtend 64

/-- KNOP (R122). -/
def execKnop (s : State) : Res := kPure (fun _ k => k) s

/-! ### Memory (R113, R114, R123) -/

/-- The command that a kettle runs. -/
def runningCmd (q : Nat) : M KCmd := do
  let s ← get
  match (s.kettle q).run with
  | some c => pure c
  | none => throw .wait

/-- Bytes of memory of an access by its kind, refused as R42 says. -/
def kettleCheck (q : Nat) (k : AKind) (pa len : Nat) : M Unit := do
  let s ← get
  match checkAccess s (.kettle q) k pa len with
  | some x => throw x
  | none => pure ()

/-- The effective address of a KLD, KST or KFLAG, with its range checks (R113, R123). -/
def kettleEa (q : Nat) (a : BitVec 3) (imm : BitVec 32) (al len : Nat) (kinds : Nat → Bool) : M Nat := do
  let c ← runningCmd q
  let s ← get
  let ea := ((s.kettle q).jr a + kImm imm).toNat
  need (ea % al == 0 && offOk ea && decide (ea % 2 ^ 30 + len ≤ 0x30000000) && inRange c.words kinds ea len) 0x03 0 0
  pure ea

/-- The address register after the access (PI). -/
def postInc (q : Nat) (pi : Bool) (a : BitVec 3) (n : Nat) (s : State) : State :=
  if pi then s.modKettle q fun k => k.setJ a.toNat (k.jr a + BitVec.ofNat 64 n) else s

/-- Load bytes at a channel offset, whole per 64-byte granule. -/
def kettleLoad (q o len : Nat) : M (List Byte) := do
  let s ← get
  let (b, s) := loadRange (.kettle q) none (kettlePa q o) len 64 s
  set s
  pure b

/-- A store is performed as a write released at a scope (R113, R123). -/
def kettleStore (q o : Nat) (sc : Scope) (b : List Byte) : M Unit := act (strongStore (.kettle q) sc false (kettlePa q o) b)

/-- Bytes of a form (Table 4-8). -/
def KForm.bytes : KForm → Nat
  | .full => 256
  | _ => 128

/-- A register from the bytes of a form. -/
def kldValue (f : KForm) (b : List Byte) : KWord :=
  match f with
  | .full | .half => ofBytesK b
  | .bf16 => ofLanes ((elems 2 b).map fun v => if (decodeIeee 8 v).isNan then 0x7FC00000 else v * 2 ^ 16)

/-- The bytes of a form from a register. -/
def kstBytes (f : KForm) (w : KWord) : List Byte :=
  match f with
  | .full => bytesK w
  | .half => (bytesK w).take 128
  | .bf16 => ofElems 2 ((lanesOf w).map fun v => (toB16 .rne 0 false (kv v)).toNat)

/-- KLD (R113). -/
def execKld (f : KForm) (pi : Bool) (d : BitVec 5) (a : BitVec 3) (imm : BitVec 32) (s : State) : Res :=
  kRun (fun q => do
    let ea ← kettleEa q a imm 64 (KForm.bytes f) canRead
    kettleCheck q .read (kettlePa q ea) (KForm.bytes f)
    let b ← kettleLoad q ea (KForm.bytes f)
    act fun s => postInc q pi a (KForm.bytes f) (s.modKettle q fun k => k.setK d.toNat (kldValue f b))
    pure ((← get).kettle q).kpc.succ) s

/-- KST (R113). -/
def execKst (f : KForm) (pi : Bool) (a : BitVec 3) (b : BitVec 5) (imm : BitVec 32) (s : State) : Res :=
  kRun (fun q => do
    let ea ← kettleEa q a imm 64 (KForm.bytes f) canWrite
    kettleCheck q .write (kettlePa q ea) (KForm.bytes f)
    let s ← get
    kettleStore q ea .pkg (kstBytes f ((s.kettle q).kr b))
    act (postInc q pi a (KForm.bytes f))
    pure ((← get).kettle q).kpc.succ) s

/-- Channel offset of the piece of bank b of an all-bank form (R114). -/
def bankOff (ea b : Nat) : Nat := ea + 1024 * (b % 64) + b / 64 * 2 ^ 30

/-- Banks of a wave (R135): KBANKMAX, halved while the die is hot. -/
def waveWidth (d : Die) : Nat :=
  let k := bits (d.reg 0x10008) 0 8
  max 1 (min 128 (if d.hot then max 1 (k / 2) else k))

/-- One wave of an all-bank form: its checks when it begins, then the next banks; `f` handles one piece. It answers the
pieces once every bank is done, and until then the form goes on. -/
def allBank (q : Nat) (a : BitVec 3) (imm : BitVec 32) (k : AKind) (kinds : Nat → Bool) (f : Nat → M (List KWord)) :
    M (List KWord) := do
  let c ← runningCmd q
  let s ← get
  let ea := ((s.kettle q).jr a + kImm imm).toNat
  let offs := (List.range 128).map (bankOff ea)
  match (s.kettle q).wave with
  | some _ => pure ()
  | none =>
    need (ea % 64 == 0 && offOk ea && !ea.testBit 30 && ea / 1024 % 64 == 0 && decide (ea % 1024 ≤ 768)
      && offs.all (fun o => inRange c.words kinds o 256)) 0x03 0 0
    offs.forM fun o => kettleCheck q k (kettlePa q o) 256
  let (done, got) := (s.kettle q).wave.getD (0, [])
  let w := waveWidth (s.die (q / 64))
  let now ← (offs.drop done |>.take w).mapM f
  let got := got ++ now.flatMap id
  if done + w < 128 then
    act fun s => s.modKettle q fun k => { k with wave := some (done + w, got) }
    throw .wait
  else
    act fun s => s.modKettle q fun k => { k with wave := none }
    pure got

/-- A load of an all-bank form: `g` combines the values of a lane. -/
def kldAllBank (g : List FVal → FVal) (pi : Bool) (d : BitVec 5) (a : BitVec 3) (imm : BitVec 32) (s : State) : Res :=
  kRun (fun q => do
    let l ← allBank q a imm .read canRead (fun o => do pure [ofBytesK (← kettleLoad q o 256)])
    let ls := l.map lanesOf
    let v := ofLanes ((List.range 64).map fun i => kf (g (ls.map fun x => kv (x.getD i 0))))
    act fun s => postInc q pi a 256 (s.modKettle q fun k => k.setK d.toNat v)
    pure ((← get).kettle q).kpc.succ) s

/-- KLD.ab.sum (R114). -/
def execKldAbSum (pi : Bool) (d : BitVec 5) (a : BitVec 3) (imm : BitVec 32) (s : State) : Res := kldAllBank (sumExact .rne) pi d a imm s

/-- KLD.ab.max (R114). -/
def execKldAbMax (pi : Bool) (d : BitVec 5) (a : BitVec 3) (imm : BitVec 32) (s : State) : Res :=
  kldAllBank (fun l => l.foldl maxX (.inf true)) pi d a imm s

/-- KST.ab (R114). -/
def execKstAb (pi : Bool) (a : BitVec 3) (b : BitVec 5) (imm : BitVec 32) (s : State) : Res :=
  kRun (fun q => do
    let s ← get
    let v := bytesK ((s.kettle q).kr b)
    let _ ← allBank q a imm .write canWrite (fun o => do kettleStore q o .pkg v; pure [])
    act (postInc q pi a 256)
    pure ((← get).kettle q).kpc.succ) s

/-- KFLAG (R123): every earlier access of the kettle has been performed. -/
def execKflag (pkg : Bool) (a b : BitVec 3) (imm : BitVec 32) (s : State) : Res :=
  kRun (fun q => do
    let ea ← kettleEa q a imm 8 8 canWrite
    kettleCheck q .write (kettlePa q ea) 8
    let s ← get
    let v := (s.kettle q).jr b
    act (release (.kettle q) (if pkg then .pkg else .die))
    kettleStore q ea (if pkg then .pkg else .die) (bytes64 v)
    act fun s => s.modKettle q fun k => { k with progress := v.setWidth 32 }
    pure ((← get).kettle q).kpc.succ) s

/-- KATOM (R124): the entries that have arrived are applied. -/
def execKatom (s : State) : Res :=
  kRun (fun q => do
    act fun s => s.applyAtoms q fun _ => true
    pure ((← get).kettle q).kpc.succ) s

/-- KAG (R115). -/
def execKag (d : BitVec 3) (f : KagF) (s : State) : Res :=
  kPure (fun c k => k.setJ d.toNat (match f with
    | .addi a imm => k.jr a + kImm imm
    | .addr a b => k.jr a + k.jr b
    | .li imm => kImm imm
    | .shl a n => k.jr a <<< n.toNat
    | .prm i => c.param.getD i.toNat 0
    | .mul a imm => k.jr a * kImm imm)) s

/-! ### Lanes (R116 to R121) -/

/-- Combine lanes of two sources. -/
def lanes2 (f : FVal → FVal → FVal) (a : BitVec 5) (b : KSrc) (k : Kettle) : List Nat :=
  (lanesOf (k.kr a)).zipWith (fun x y => kf (f (kv x) (kv y))) (k.srcB b)

/-- KADD (R116). -/
def execKadd (d a : BitVec 5) (b : KSrc) (s : State) : Res := kLanes d (lanes2 (addX .rne) a b) s

/-- KSUB (R116). -/
def execKsub (d a : BitVec 5) (b : KSrc) (s : State) : Res := kLanes d (lanes2 (fun x y => addX .rne x y.negate) a b) s

/-- KMUL (R116). -/
def execKmul (d a : BitVec 5) (b : KSrc) (s : State) : Res := kLanes d (lanes2 mulX a b) s

/-- KFMA (R116). -/
def execKfma (d a : BitVec 5) (b : KSrc) (c : BitVec 5) (s : State) : Res :=
  kLanes d (fun k => ((lanesOf (k.kr a)).zip (k.srcB b)).zipWith (fun x z => kf (fmaX .rne (kv x.1) (kv x.2) (kv z))) (lanesOf (k.kr c))) s

/-- KMIN (R117). -/
def execKmin (d a : BitVec 5) (b : KSrc) (s : State) : Res := kLanes d (lanes2 minX a b) s

/-- KMAX (R117). -/
def execKmax (d a : BitVec 5) (b : KSrc) (s : State) : Res := kLanes d (lanes2 maxX a b) s

/-- KABS (R117). -/
def execKabs (d a : BitVec 5) (s : State) : Res := kLanes d (fun k => (lanesOf (k.kr a)).map fun x => kf (kv x).abs) s

/-- All ones where a condition holds. -/
def laneFlag (b : Bool) : Nat := if b then 2 ^ 32 - 1 else 0

/-- KCMP (R117). -/
def execKcmp (c : FCond) (d a : BitVec 5) (b : KSrc) (s : State) : Res :=
  kLanes d (fun k => (lanesOf (k.kr a)).zipWith (fun x y => laneFlag (fcond c (kv x) (kv y))) (k.srcB b)) s

/-- KSEL (R117): bits unchanged. -/
def execKsel (d a b c : BitVec 5) (s : State) : Res :=
  kLanes d (fun k => ((lanesOf (k.kr a)).zip (lanesOf (k.kr b))).zipWith (fun x z => if z ≠ 0 then x.1 else x.2) (lanesOf (k.kr c))) s

/-- Signed value of 32 and of 64 bits. -/
def s32 (v : Nat) : Int := (BitVec.ofNat 32 v).toInt
def s64 (v : Nat) : Int := (BitVec.ofNat 64 v).toInt

/-- Lanes of KCVT from the pairs of a register, scaled by 2^(e - 23) (R118). -/
def pairLanes (k : Kettle) (a : BitVec 5) (b : BitVec 3) : List Nat :=
  let c := bits (k.jr b) 0 8
  (pairsOf (k.kr a)).map fun v => if c = 0xFF then fp32.nan else kf (FVal.scaled (s64 v) ((c : Int) - 150))

/-- KCVT (R118). -/
def kcvtStep (d : BitVec 5) (f : KcvtF) (k : Kettle) : Kettle :=
  match f with
  | .f32s32 a => k.setK d.toNat (ofLanes ((lanesOf (k.kr a)).map fun v => kf (FVal.ofInt (s32 v))))
  | .s32f32 a =>
    let r := (lanesOf (k.kr a)).map fun v => toInt 32 .rne 0 (kv v)
    { k.setK d.toNat (ofLanes (r.map fun x => (BitVec.ofInt 32 x.1).toNat)) with
      nfcnt := sat32 k.nfcnt (r.filter fun x => x.2.2).length, clcnt := sat32 k.clcnt (r.filter fun x => x.2.1).length }
  | .s64lo a b => k.setK d.toNat (ofLanes (pairLanes k a b ++ (lanesOf (k.kr d)).drop 32))
  | .s64hi a b => k.setK d.toNat (ofLanes ((lanesOf (k.kr d)).take 32 ++ pairLanes k a b))
  | .f32j a => k.setK d.toNat (ofLanes (List.replicate 64 (kf (FVal.ofInt (k.jr a).toInt))))
  | .b32j a => k.setK d.toNat (ofLanes (List.replicate 64 ((k.jr a).toNat % 2 ^ 32)))

/-- KCVT (R118). -/
def execKcvt (d : BitVec 5) (f : KcvtF) (s : State) : Res := kPure (fun _ k => kcvtStep d f k) s

/-- KQNT (R119). -/
def kqntStep (d a : BitVec 5) (b : BitVec 3) (k : Kettle) : Kettle :=
  let c := bits (k.jr b) 0 8
  let r := (lanesOf (k.kr a)).map fun v => if c = 0xFF then (0, false, true) else quantI24 c (kv v)
  { k.setK d.toNat (ofLanes (r.map fun x => (BitVec.ofInt 32 x.1).toNat)) with
    nfcnt := sat32 k.nfcnt (r.filter fun x => x.2.2).length, clcnt := sat32 k.clcnt (r.filter fun x => x.2.1).length }

/-- KQNT (R119). -/
def execKqnt (d a : BitVec 5) (b : BitVec 3) (s : State) : Res := kPure (fun _ k => kqntStep d a b k) s

/-- KIADD (R120). -/
def execKiadd (f : KiaddF) (d a b : BitVec 5) (s : State) : Res :=
  kPure (fun _ k =>
    let pa := pairsOf (k.kr a)
    let lb := lanesOf (k.kr b)
    let sx := fun (v : Nat) => (BitVec.ofInt 64 (s32 v)).toNat
    k.setK d.toNat (match f with
      | .d => ofPairs (pa.zipWith (· + ·) (pairsOf (k.kr b)))
      | .wlo => ofPairs (pa.zipWith (fun x y => x + sx y) lb)
      | .whi => ofPairs (pa.zipWith (fun x y => x + sx y) (lb.drop 32))
      | .w => ofLanes ((lanesOf (k.kr a)).zipWith (· + ·) lb))) s

/-- CLIP with the sign of x. -/
def clipTo (clip : W32) (x : Nat) : Nat := clip.toNat % 2 ^ 31 + x / 2 ^ 31 * 2 ^ 31

/-- KCLIP (R121, R33). -/
def execKclip (d a : BitVec 5) (s : State) : Res :=
  kRun (fun q => do
    let c ← runningCmd q
    let s ← get
    let k := s.kettle q
    let lim := kv (c.clip.getD 0).toNat
    need (c.clip.isSome && !lim.isNan && !(lim.neg? && !lim.isZero)) 0x05 0 0
    let r := (lanesOf (k.kr a)).map fun x =>
      if (kv x).isNan then (fp32.nan, false)
      else if cmpX (kv x).abs lim.abs = .gt then (clipTo (c.clip.getD 0) x, true) else (x, false)
    act fun s => s.modKettle q fun k =>
      { k.setK d.toNat (ofLanes (r.map (·.1))) with clcnt := sat32 k.clcnt (r.filter (·.2)).length }
    pure (k.kpc + 1)) s

/-- KNF (R121). -/
def execKnf (d a : BitVec 5) (s : State) : Res :=
  kPure (fun _ k =>
    let r := (lanesOf (k.kr a)).map fun x => (kv x).nonFinite
    { k.setK d.toNat (ofLanes (r.map laneFlag)) with nfcnt := sat32 k.nfcnt (r.filter id).length }) s

/-! ### Tree (R129, R130) -/

/-- Registers of an operator: one, or the pair. -/
def treeRegs (o : TreeOp) (a : BitVec 5) : List Nat := match o with | .maxsum => [a.toNat, a.toNat + 1] | _ => [a.toNat]

/-- KRED (R129). -/
def execKred (o : TreeOp) (a : BitVec 5) (s : State) : Res :=
  kRun (fun q => do
    let c ← runningCmd q
    let s ← get
    let k := s.kettle q
    need ((s.session c.session).isSome && decide (k.contributed < k.received + 2)) 0x06 0 0
    let v := (treeRegs o a).map fun r => smGet 0 k.k r
    let add := fun (x : Session) =>
      if x.serial = c.session then { x with contrib := x.contrib ++ [(k.contributed, q, o, v)] } else x
    act fun s => { s with sessions := s.sessions.map add }
    act fun s => s.modKettle q fun k => { k with contributed := k.contributed + 1 }
    pure (k.kpc + 1)) s

/-- KRCV (R129, R130): it waits until every participant has contributed to the reduction or ended. -/
def execKrcv (o : TreeOp) (d : BitVec 5) (s : State) : Res :=
  kRun (fun q => do
    let c ← runningCmd q
    let s ← get
    let k := s.kettle q
    match s.session c.session with
    | none => throw (.trap 0x06 0 0)
    | some x =>
      need (decide (k.received < k.contributed) && (x.given k.received q).map (·.1) == some o) 0x06 0 0
      if !x.complete k.received then throw .wait
      need (x.agreed k.received) 0x06 0 0
      let r := x.root o k.received
      act fun s => s.modKettle q fun k =>
        { ((treeRegs o d).zip r).foldl (fun k (i, v) => k.setK i v) k with received := k.received + 1 }
      pure (k.kpc + 1)) s

/-! ### Loops and the end (R122) -/

/-- Index of the KEND that closes a KLOOP at i, by opcodes; `depth` loops are open inside. -/
def findEnd : List W64 → Nat → Nat → Nat
  | [], i, _ => i
  | w :: r, i, depth =>
    if bits w 58 6 = 0x1D then (if depth = 0 then i else findEnd r (i + 1) (depth - 1))
    else findEnd r (i + 1) (if bits w 58 6 = 0x1C then depth + 1 else depth)

/-- KLOOP (R122). -/
def execKloop (c : KCount) (s : State) : Res :=
  kRun (fun q => do
    let cmd ← runningCmd q
    let s ← get
    let k := s.kettle q
    let n := match c with | .j a => bits (k.jr a) 0 32 | .imm v => v.toNat
    let e := findEnd (cmd.prog.drop (k.kpc + 1)) (k.kpc + 1) 0
    if n = 0 then pure (e + 1)
    else
      act fun s => s.modKettle q fun k => { k with loops := k.loops ++ [(k.kpc + 1, e, n)] }
      pure (k.kpc + 1)) s

/-- KEND (R122): the innermost open loop runs again, or closes. -/
def execKend (s : State) : Res :=
  kRun (fun q => do
    let s ← get
    let k := s.kettle q
    match k.loops.getLast? with
    | some (b, e, n) =>
      let outer := k.loops.take (k.loops.length - 1)
      if 1 < n then
        act fun s => s.modKettle q fun k => { k with loops := outer ++ [(b, e, n - 1)] }
        pure b
      else
        act fun s => s.modKettle q fun k => { k with loops := outer }
        pure (k.kpc + 1)
    | none => pure (k.kpc + 1)) s

/-- KHALT (R122): the command ends with STATE = done. -/
def execKhalt (s : State) : Res :=
  match s.cur with
  | .kettle q =>
    match (s.kettle q).run with
    | none => .refused .wrongUnit
    | some _ => .next (kettleEnd q 1 0 (s.kettle q).kpc 0 0 s)
  | _ => .refused .wrongUnit

end Sys2Proof.Machine
end

