-- ==== Sys2Proof/Machine/KettleI.lean ====
section
/-! DEFINITION. Kettle commands from NMRUN to their completion (R98 to R106, R339), NMFENCE (R340), and the events of the
kettles. -/

namespace Sys2Proof.Machine

/-! ### The command block (R98, R99) -/

/-- A used range of a block is well-formed; a START with a nonzero bit among 5:0 makes it malformed (DESIGN CHOICE, log entry 92). -/
def rangeOk (words : List W64) (i : Nat) : Bool :=
  let w := words.getD (5 + i) 0
  let (k, st, n) := rangeOf words i
  bits w 56 6 == 0 && !w.getLsbD 31 && (k == 0 || (n != 0 && offOk st && st % 64 == 0 && decide (st % 2 ^ 30 + n ≤ 0x30000000)))

/-- Participants of a tree command fit its EXTENT and its own kettle set (R126). -/
def treeOk (words : List W64) (die : Nat) (mask : W64) : Bool :=
  let m := fun d => words.getD (9 + d) 0
  let used := (List.range 4).filter fun d => m d ≠ 0
  m die == mask && (match bits (words.getD 4 0) 60 2 with
    | 0 => decide (used = [die]) && (bits (m die) 0 32 == 0 || bits (m die) 32 32 == 0)
    | 1 => decide (used = [die])
    | _ => true)

/-- The block is well-formed (R99, R101), apart from its tree session. -/
def blockOk4 (words : List W64) (die : Nat) (mask : W64) : Bool :=
  let w := fun i => words.getD i 0
  let n := bits (w 3) 0 7
  bits (w 0) 55 9 == 0 && bits (w 1) 55 9 == 0 && bits (w 2) 55 9 == 0 && !(w 3).getLsbD 31 && bits (w 3) 7 9 == 0
    && decide (1 ≤ n ∧ n ≤ 96) && bits (w 4) 16 44 == 0 && bits (w 4) 60 2 != 3
    && (List.range 4).all (rangeOk words) && (List.range 3).all (fun i => w (13 + i) == 0)
    && (!(w 3).getLsbD 30 || (w 3).getLsbD 29)
    && (!(w 4).getLsbD 63 || treeOk words die mask)

/-- The words that every command of a session shares (R126). -/
def sessionKey (words : List W64) : List W64 := (words.drop 4).take 1 ++ (words.drop 9).take 4

/-- The load check of a program (R110). -/
def loadOk (prog : List W64) : Bool :=
  let l := prog.map kdecode
  l.all (·.isSome) && kloopsOk (l.filterMap id) 0

/-! ### NMRUN (R339) -/

/-- The kettles of a set on a die, as 64 × die + q. -/
def setOf (die : Nat) (mask : W64) : List Nat := (List.range 64).filterMap fun q => if mask.getLsbD q then some (64 * die + q) else none

/-- The queue of a kettle has room for a command (R102). -/
def State.kettleRoom (s : State) (q : Nat) : Bool := let k := s.kettle q; decide (k.queue.length + k.run.isSome.toNat < 4)

/-- Physical address of a kettle's command port on a die (R104). -/
def portPa (q : Nat) : Nat := 0x30000000000 + q / 64 * 0x1000000 + 0x100000 + q % 64 * 0x1000 + 0x100

/-- Physical address of a range for writes, piece by piece, by the issuing cluster (R101 step 1). -/
def writeTargets (n : Nat) (va : W64) (len : Nat) : M (List (Nat × Nat)) := do
  let ps ← reachable (.ac n 0) .write va.toNat len
  pure (ps.map fun p => (p.2.1, p.2.2.1))

/-- Address of byte `off` of pieces laid end to end. -/
def pieceAt : List (Nat × Nat) → Nat → Option Nat
  | [], _ => none
  | (pa, m) :: r, off => if off < m then some (pa + off) else pieceAt r (off - m)

/-- Reads of step 1 at an address that the block gives. -/
def blockRead (n : Nat) (va : W64) (len : Nat) : M (List W64) := do
  let b ← readRange (.ac n 0) va len 8
  pure (words64 b)

/-- A command of the cluster waits at its delivery for room in the queue of a kettle (R102). -/
def State.deliveryWaits (s : State) (n : Nat) : Bool :=
  s.kissue.any fun e => e.ac == n && e.stage == 2 && (setOf e.die e.mask).any fun q => !s.kettleRoom q

/-- NMRUN (R339): step 1 of R101, the I checks, and the command's number. The addresses are bits 54:0 of their words, whose other bits R99
checks later; no program is read where NINSTR is 0 or above 96 (DESIGN CHOICE, log entry 92). -/
def execNmrun (h : Head) (d a b : BitVec 6) (c : Src) (s : State) : Res :=
  ccRun h (.nmrun h d a b c) (fun n => do
    let s ← get
    let cc := (s.ac n).cc
    let va := cc.s a
    let mask := cc.s b
    let die := cc.src c
    addrRange va
    need (va.toNat % 128 == 0) 0x02 va 0
    need (mask != 0) 0x02 mask 0
    need (decide (die.toNat < 4)) 0x02 die 0
    let die := die.toNat
    if 8 ≤ (s.ac n).io.nm.length ∨ s.deliveryWaits n then throw .wait
    let words := words64 (← readRange (.ac n 0) va 128 8)
    let w := fun i => words.getD i 0
    let at' := fun i => addr55 (w i)
    let len := bits (w 3) 0 7
    let prog ← if 1 ≤ len ∧ len ≤ 96 then blockRead n (at' 0) (8 * len) else pure []
    let param ← blockRead n (at' 1) 64
    let clip ← if (w 3).getLsbD 28 then do
        let t ← useTdt (.ac n 0) (match cc.task with | some t => t.word 5 | none => 0) (bits (w 3) 16 12)
        pure (some t.clip)
      else pure none
    need ((at' 0).toNat % 8 == 0) 0x02 (at' 0) 0
    need ((at' 1).toNat % 64 == 0) 0x02 (at' 1) 0
    need ((at' 2).toNat % 64 == 0) 0x02 (at' 2) 0
    let set := setOf die mask
    let st ← writeTargets n (at' 2) (64 * set.length)
    let p7 ← if (w 3).getLsbD 30 then writeTargets n (at' 1 + 0x38) 8 else pure []
    let s ← get
    match set.findSome? fun q => checkAccess s (.ac n 0) .issue (portPa q) 8 with
    | some x => throw x
    | none => pure ()
    let canon := fun (l : List (Nat × Nat)) (o : Nat) => (pieceAt l o).map (canonPa (dieOf n))
    act fun s =>
      let (k, s) := s.tlNumber n 6
      let launch := match cc.task with | some t => t.launch | none => 0
      let e : KIssue :=
        ⟨n, k, die, mask, words, param, clip, prog, (List.range set.length).filterMap fun i => canon st (64 * i), canon p7 0, 0, 0, []⟩
      let s := { s with kissue := s.kissue ++ [e] }
      s.modAc n fun x =>
        { x with io := { x.io with nm := x.io.nm ++ [(⟨k, set, launch⟩ : NmCmd)] }, cc := x.cc.setS d (BitVec.ofNat 64 k) }
    pure .seq) s

/-! ### The issue path (R101 steps 2 to 6) -/

/-- Replace the i-th command of the issue path. -/
def State.setIssue (s : State) (i : Nat) (e : KIssue) : State := { s with kissue := s.kissue.set i e }

/-- A command completes without running: each kettle of its set gets a status record (R99, R101), with zeros in KPC, PROGRESS and the counts,
and P[7] as it was read (DESIGN CHOICE, log entry 93). -/
def issueEnds (i : Nat) (e : KIssue) (state cause : Nat) (s : State) : State :=
  let set := setOf e.die e.mask
  let s := (set.zip (List.range set.length)).foldl (fun s (q, r) =>
    writeStatus q e.ac e.num e.status[r]? (statusWords q state cause 0 0 0 0 0 0 (e.param.getD 7 0) 0 0) (endSession e.session q s)) s
  { s with kissue := s.kissue.eraseIdx i }

/-- A tree command joins the open session of its number, or opens one (R126); none where its words differ. A die may give a session more than
one command (log entry 91). -/
def joinSession (e : KIssue) (s : State) : Option (Nat × State) :=
  if !(e.words.getD 4 0).getLsbD 63 then some (0, s)
  else
    let key := sessionKey e.words
    let id := bits (e.words.getD 4 0) 0 16
    match s.sessions.find? fun x => x.id == id with
    | some x =>
      if x.key = key then
        some (x.serial, { s with sessions := s.sessions.map fun y => if y.serial = x.serial then { y with joined := y.joined ++ [e.die] } else y })
      else none
    | none =>
      let k := s.sessions.foldl (fun m y => max m y.serial) 0 + 1
      some (k, { s with sessions := s.sessions ++ [⟨k, id, key, [e.die], [], []⟩] })

/-- Steps 2 to 4 of R101 for the i-th command: its checks, the step gate, and the step count. A tree command that its load check refuses never
joins a session; one that the gate skips has joined, and has ended (DESIGN CHOICE, log entry 93). -/
def issueGate (i : Nat) (s : State) : State :=
  match s.kissue[i]? with
  | none => s
  | some e =>
    if e.stage ≠ 0 then s
    else if !blockOk4 e.words e.die e.mask then issueEnds i e 3 2 s
    else if !loadOk e.prog then issueEnds i e 3 1 s
    else match (if e.session = 0 then joinSession e s else some (e.session, s)) with
      | none => issueEnds i e 3 2 s
      | some (k, s) =>
        let e := { e with session := k }
        let w3 := e.words.getD 3 0
        if !w3.getLsbD 29 then s.setIssue i { e with stage := 1 }
        else match s.readGate e.die (w3.extractLsb' 32 32) with
          | (.pending, s) => s.setIssue i e
          | (.skip, s) => issueEnds i e 2 0 s
          | (.apply, s) =>
            if w3.getLsbD 30 then
              let v := e.param.getD 7 0 + 1
              let s := match e.p7 with
                | some pa => strongStore (.ac e.ac 7) .pkg false pa (bytes64 v) s
                | none => s
              s.setIssue i { e with stage := 1, param := e.param.set 7 v }
            else s.setIssue i { e with stage := 1 }

/-- A key of memory lies in a range of a command on one of its kettles. -/
def inRanges (set : List Nat) (words : List W64) (key : Nat) : Bool :=
  (List.range 4).any fun i =>
    let (k, st, n) := rangeOf words i
    k != 0 && set.any fun q => decide (kettlePa q st ≤ key ∧ key < kettlePa q st + n)

/-- Step 5 for the i-th command: the home slices have written back and invalidated the lines of its ranges (R106). The
newest write of each byte that has been released at .die or wider is then at HBM, for the command to see (R108), and the lines of its write
ranges are allocated nowhere (R107). -/
def issuePass (i : Nat) (s : State) : State :=
  match s.kissue[i]? with
  | some e =>
    if e.stage = 1 then
      let set := setOf e.die e.mask
      let passed := s.hist.filterMap fun (k, l) =>
        if inRanges set e.words k then
          (l.find? fun v => v.rels.any fun r => decide (2 ≤ Scope.rank r.2)).map fun v => (k, v.id)
        else none
      let writes := (List.range 4).flatMap fun j =>
        let (k, st, n) := rangeOf e.words j
        if canWrite k then set.map fun q => (e.ac, e.num, kettlePa q st, n) else []
      { s.setIssue i { e with stage := 2, passed := passed } with bypass := s.bypass ++ writes }
    else s
  | none => s

/-- Step 6 for the i-th command: it goes to the queue of every kettle of its set, once each has room, after the earlier
commands of its cluster, for a tree command after the earlier tree commands of the package, and after an earlier command that waits for room at
one of its kettles (R102). A command has its place in that order from NMRUN on: one that waits, for its gate or for room, holds back the later commands
of its cluster, and a tree command every later tree command (DESIGN CHOICE, log entry 123). -/
def issueDeliver (i : Nat) (s : State) : State :=
  match s.kissue[i]? with
  | none => s
  | some e =>
    let set := setOf e.die e.mask
    let tree := (e.words.getD 4 0).getLsbD 63
    let behind := (s.kissue.take i).any fun x => x.ac == e.ac || (tree && (x.words.getD 4 0).getLsbD 63)
      || (x.stage == 2 && x.die == e.die && x.mask &&& e.mask != 0)
    if e.stage ≠ 2 ∨ behind ∨ !set.all s.kettleRoom then s
    else
      let s := (set.zip (List.range set.length)).foldl (fun (s : State) (q, r) =>
        s.modKettle q fun k => { k with queue := k.queue ++ [⟨e.ac, e.num, r, e.words, e.param, e.clip, e.prog, e.status[r]?, e.session, e.passed⟩] }) s
      { s with kissue := s.kissue.eraseIdx i }

/-- KETTLE_GATE_READ: the n-th command of the issue path reads its gate (R101). -/
def execKettleGateRead (n : Nat) (s : State) : Res := .next (issueGate n s)

/-- KETTLE_SLICE_PASS (R106). -/
def execKettleSlicePass (n : Nat) (s : State) : Res := .next (issuePass n s)

/-- KETTLE_DELIVER (R102). -/
def execKettleDeliver (n : Nat) (s : State) : Res := .next (issueDeliver n s)

/-- Apply a step of the issue path to each of its commands, the oldest first: a command that leaves it moves the others up. -/
def issueEach (f : Nat → State → State) : Nat → Nat → State → State
  | 0, _, s => s
  | k + 1, i, s =>
    let t := f i s
    issueEach f k (if t.kissue.length < s.kissue.length then i else i + 1) t

/-- Every command of the issue path goes on, the oldest first. -/
def issueTurn (s : State) : State :=
  let s := issueEach (fun i s => issuePass i (issueGate i s)) s.kissue.length 0 s
  issueEach issueDeliver s.kissue.length 0 s

/-! ### Events of the kettles -/

/-- KETTLE_COMMAND_START (R95). -/
def execKettleCommandStart (q : Nat) (s : State) : Res := .next (kettleStart q s)

/-- Commands of a cluster whose kettles have all written their records complete on TL.NM (R103). -/
def nmComplete (n : Nat) (s : State) : State :=
  let ended := (s.ac n).io.nm.filter fun c => c.left.isEmpty
  if ended.isEmpty then s
  else
    let s := s.modAc n fun a => { a with io := { a.io with nm := a.io.nm.filter fun c => !c.left.isEmpty } }
    ended.foldl (fun s c => s.tlComplete n 6 c.num) s

/-- KETTLE_COMMAND_COMPLETE (R103). -/
def execKettleCommandComplete (n : Nat) (s : State) : Res := .next (nmComplete n s)

/-- The KRCV that a kettle waits in, if it does. -/
def waitingKrcv (s : State) (q : Nat) : Option (TreeOp × BitVec 5) :=
  match (s.kettle q).run with
  | some c =>
    match (c.prog[(s.kettle q).kpc]?).bind kdecode with
    | some (.krcv o d) => some (o, d)
    | _ => none
  | none => none

/-- KETTLE_TREE_RESULT: participants of a session that wait in KRCV look for their root result (R129, R130). -/
def execKettleTreeResult (serial : Nat) (s : State) : Res :=
  match s.session serial with
  | none => .next s
  | some x => .next (x.parts.foldl (fun s q =>
      match (s.kettle q).run, waitingKrcv s q with
      | some c, some (o, d) =>
        if c.session = serial then (match execKrcv o d { s with cur := .kettle q } with | .next t => t | _ => s) else s
      | _, _ => s) s)

/-- ATOMIC_ARRIVE: the first entry of a kettle's queue that no running command holds back is applied (R134). -/
def execAtomicArrive (q : Nat) (s : State) : Res :=
  .next (match (s.kettle q).atomq.find? fun x => !touchesRun s q x.pa with
    | some e => s.applyAtoms q fun x => x == e
    | none => s)

/-- Every entry of a kettle that may be applied is (R134). -/
def atomTurn (q : Nat) (s : State) : State := s.applyAtoms q fun x => !touchesRun s q x.pa

/-- KETTLE_BANK_WAVE: a kettle in an all-bank form processes the next wave (R135). -/
def execKettleBankWave (q : Nat) (s : State) : Res :=
  let k := s.kettle q
  match k.wave, k.run with
  | some _, some c =>
    let s' := { s with cur := .kettle q }
    match (c.prog[k.kpc]?).bind kdecode with
    | some (.kldAbSum pi d a imm) => execKldAbSum pi d a imm s'
    | some (.kldAbMax pi d a imm) => execKldAbMax pi d a imm s'
    | some (.kstAb pi a b imm) => execKstAb pi a b imm s'
    | _ => .next s
  | _, _ => .next s

/-- KETTLE_ABORT: the root core, which every access table admits, writes ABORT of a kettle (R104, R105). -/
def execKettleAbort (q : Nat) (s : State) : Res := .next (kettleAbortWrite q 1 s)

/-! ### NMFENCE (R340) -/

/-- An entry is one of the first `sent` return-free atomics of a cluster. -/
def KAtom.sentBy (n sent : Nat) (x : KAtom) : Bool :=
  match x.what with | .atom _ _ _ ac num => ac == n && decide (num ≤ sent) | .store .. => false

/-- NMFENCE (R340, R162): TL.VS reaches the count at issue, then every atomic sent before that moment is applied, and the
issuer acquires; .fab acts as .pkg. -/
def execNmfence (h : Head) (sc : Scope) (s : State) : Res :=
  ccRun h (.nmfence h sc) (fun n => do
    let s ← get
    let i := Instr.nmfence h sc
    let notes := (s.noted n i).getD [(s.ac n).ln.issueCount 2]
    note n i notes
    if (s.ac n).ln.shown 2 < notes.headD 0 then throw .wait
    let sent := notes.getD 1 (s.ac n).io.vsta
    note n i [notes.headD 0, sent]
    if s.kettles.any fun k => k.2.atomq.any fun x => x.sentBy n sent then throw .wait
    act (acquire (.ac n 0) (match sc with | .fab => .pkg | sc => sc))
    pure .seq) s

/-- NMFENCE_DONE: a waiting NMFENCE looks again (R340). -/
def execNmfenceDone (n : Nat) (s : State) : Res :=
  rerun n (fun i => match i with | .nmfence h sc => some (execNmfence h sc) | _ => none) s

end Sys2Proof.Machine
end

