-- ==== Sys2Proof/Machine/Dispatch.lean ====
section
/-! DEFINITION. The meaning of every instruction: one arm for each constructor. -/

namespace Sys2Proof.Machine

def exec (i : Instr) (s : State) : Host.Outcome State Fault Refusal :=
  match i with
  | .add h w d a b => Sys2Proof.Machine.execAdd h w d a b s
  | .sub h w d a b => Sys2Proof.Machine.execSub h w d a b s
  | .mul h w d a b => Sys2Proof.Machine.execMul h w d a b s
  | .mulh h d a b => Sys2Proof.Machine.execMulh h d a b s
  | .mulhu h d a b => Sys2Proof.Machine.execMulhu h d a b s
  | .div h w d a b => Sys2Proof.Machine.execDiv h w d a b s
  | .divu h w d a b => Sys2Proof.Machine.execDivu h w d a b s
  | .rem h w d a b => Sys2Proof.Machine.execRem h w d a b s
  | .remu h w d a b => Sys2Proof.Machine.execRemu h w d a b s
  | .and h d a b => Sys2Proof.Machine.execAnd h d a b s
  | .or h d a b => Sys2Proof.Machine.execOr h d a b s
  | .xor h d a b => Sys2Proof.Machine.execXor h d a b s
  | .andn h d a b => Sys2Proof.Machine.execAndn h d a b s
  | .shl h w d a b => Sys2Proof.Machine.execShl h w d a b s
  | .shr h w d a b => Sys2Proof.Machine.execShr h w d a b s
  | .sha h w d a b => Sys2Proof.Machine.execSha h w d a b s
  | .rol h d a b => Sys2Proof.Machine.execRol h d a b s
  | .min h d a b => Sys2Proof.Machine.execMin h d a b s
  | .minu h d a b => Sys2Proof.Machine.execMinu h d a b s
  | .max h d a b => Sys2Proof.Machine.execMax h d a b s
  | .maxu h d a b => Sys2Proof.Machine.execMaxu h d a b s
  | .clz h d a => Sys2Proof.Machine.execClz h d a s
  | .ctz h d a => Sys2Proof.Machine.execCtz h d a s
  | .popc h d a => Sys2Proof.Machine.execPopc h d a s
  | .bfx h sx d a b => Sys2Proof.Machine.execBfx h sx d a b s
  | .bfi h d a b => Sys2Proof.Machine.execBfi h d a b s
  | .sel h d a b p => Sys2Proof.Machine.execSel h d a b p s
  | .li h d a => Sys2Proof.Machine.execLi h d a s
  | .lih h d a => Sys2Proof.Machine.execLih h d a s
  | .lea h sh d a b => Sys2Proof.Machine.execLea h sh d a b s
  | .leaPc h d b => Sys2Proof.Machine.execLeaPc h d b s
  | .cmp h c p a b => Sys2Proof.Machine.execCmp h c p a b s
  | .plog h f d a b => Sys2Proof.Machine.execPlog h f d a b s
  | .pmovToPred h d a => Sys2Proof.Machine.execPmovToPred h d a s
  | .pmovToScalar h d a => Sys2Proof.Machine.execPmovToScalar h d a s
  | .pmovAll h d => Sys2Proof.Machine.execPmovAll h d s
  | .pmovSet h a => Sys2Proof.Machine.execPmovSet h a s
  | .fadd h f d a b => Sys2Proof.Machine.execFadd h f d a b s
  | .fsub h f d a b => Sys2Proof.Machine.execFsub h f d a b s
  | .fmul h f d a b => Sys2Proof.Machine.execFmul h f d a b s
  | .ffma h f d a b c => Sys2Proof.Machine.execFfma h f d a b c s
  | .fdiv h f d a b => Sys2Proof.Machine.execFdiv h f d a b s
  | .fsqrt h f d a => Sys2Proof.Machine.execFsqrt h f d a s
  | .fcmp h bf c p a b => Sys2Proof.Machine.execFcmp h bf c p a b s
  | .fcvt h m code d a => Sys2Proof.Machine.execFcvt h m code d a s
  | .fminmax h bf mx d a b => Sys2Proof.Machine.execFminmax h bf mx d a b s
  | .br h off => Sys2Proof.Machine.execBr h off s
  | .jmp h off => Sys2Proof.Machine.execJmp h off s
  | .jmpr h a b => Sys2Proof.Machine.execJmpr h a b s
  | .call h d a => Sys2Proof.Machine.execCall h d a s
  | .ret h a => Sys2Proof.Machine.execRet h a s
  | .loop h k a blen => Sys2Proof.Machine.execLoop h k a blen s
  | .gset h g a => Sys2Proof.Machine.execGset h g a s
  | .gclr h g => Sys2Proof.Machine.execGclr h g s
  | .fork h a => Sys2Proof.Machine.execFork h a s
  | .join h a => Sys2Proof.Machine.execJoin h a s
  | .pushc h e n blk b => Sys2Proof.Machine.execPushc h e n blk b s
  | .pushk h e n blk => Sys2Proof.Machine.execPushk h e n blk s
  | .retq h d => Sys2Proof.Machine.execRetq h d s
  | .launch h d a => Sys2Proof.Machine.execLaunch h d a s
  | .next h => Sys2Proof.Machine.execNext h s
  | .coord h f d a => Sys2Proof.Machine.execCoord h f d a s
  | .suspend h a b c => Sys2Proof.Machine.execSuspend h a b c s
  | .yield h a b c => Sys2Proof.Machine.execYield h a b c s
  | .sysr h d n => Sys2Proof.Machine.execSysr h d n s
  | .sysw h n a => Sys2Proof.Machine.execSysw h n a s
  | .pcarve h a => Sys2Proof.Machine.execPcarve h a s
  | .trap h a => Sys2Proof.Machine.execTrap h a s
  | .rft h => Sys2Proof.Machine.execRft h s
  | .wfe h => Sys2Proof.Machine.execWfe h s
  | .sev h sc => Sys2Proof.Machine.execSev h sc s
  | .brk h a => Sys2Proof.Machine.execBrk h a s
  | .halt h => Sys2Proof.Machine.execHalt h s
  | .nop h => Sys2Proof.Machine.execNop h s
  | .ld h w d a b => Sys2Proof.Machine.execLd h w d a b s
  | .st h w a b c => Sys2Proof.Machine.execSt h w a b c s
  | .lds h w m d a b => Sys2Proof.Machine.execLds h w m d a b s
  | .sts h w m a b c => Sys2Proof.Machine.execSts h w m a b c s
  | .amo h op m d a b => Sys2Proof.Machine.execAmo h op m d a b s
  | .cas h m d a b => Sys2Proof.Machine.execCas h m d a b s
  | .phase h m => Sys2Proof.Machine.execPhase h m s
  | .fence h sc => Sys2Proof.Machine.execFence h sc s
  | .clean h l2 a b => Sys2Proof.Machine.execClean h l2 a b s
  | .inval h l2 a b => Sys2Proof.Machine.execInval h l2 a b s
  | .pref h l2 a b => Sys2Proof.Machine.execPref h l2 a b s
  | .tlwait h sc ctx b => Sys2Proof.Machine.execTlwait h sc ctx b s
  | .tlread h issue d ctx => Sys2Proof.Machine.execTlread h issue d ctx s
  | .cpy h fab d a => Sys2Proof.Machine.execCpy h fab d a s
  | .cpyt h fab d a => Sys2Proof.Machine.execCpyt h fab d a s
  | .cpyw h fab d a b c => Sys2Proof.Machine.execCpyw h fab d a b c s
  | .pour h fab d a b c => Sys2Proof.Machine.execPour h fab d a b c s
  | .pwait h fab d a b => Sys2Proof.Machine.execPwait h fab d a b s
  | .pjoin h d a b => Sys2Proof.Machine.execPjoin h d a b s
  | .pleave h d a b => Sys2Proof.Machine.execPleave h d a b s
  | .pclose h d a => Sys2Proof.Machine.execPclose h d a s
  | .pcloseRetire h d a => Sys2Proof.Machine.execPcloseRetire h d a s
  | .nmrun h d a b c => Sys2Proof.Machine.execNmrun h d a b c s
  | .nmfence h sc => Sys2Proof.Machine.execNmfence h sc s
  | .rwait h d a => Sys2Proof.Machine.execRwait h d a s
  | .rfree h a => Sys2Proof.Machine.execRfree h a s
  | .mxcfg h n a => Sys2Proof.Machine.execMxcfg h n a s
  | .mxgo h d a => Sys2Proof.Machine.execMxgo h d a s
  | .mxfmt h a => Sys2Proof.Machine.execMxfmt h a s
  | .mxmode h d a => Sys2Proof.Machine.execMxmode h d a s
  | .mxzero h d a => Sys2Proof.Machine.execMxzero h d a s
  | .mxdrain h t bf d a => Sys2Proof.Machine.execMxdrain h t bf d a s
  | .mxsave h a => Sys2Proof.Machine.execMxsave h a s
  | .mxrest h a => Sys2Proof.Machine.execMxrest h a s
  | .mxstat h n d => Sys2Proof.Machine.execMxstat h n d s
  | .etake h => Sys2Proof.Machine.execEtake h s
  | .ebr h c a b off => Sys2Proof.Machine.execEbr h c a b off s
  | .eloop h k a blen => Sys2Proof.Machine.execEloop h k a blen s
  | .eloopAdd h d a b => Sys2Proof.Machine.execEloopAdd h d a b s
  | .eend h => Sys2Proof.Machine.execEend h s
  | .enop h => Sys2Proof.Machine.execEnop h s
  | .etok h n => Sys2Proof.Machine.execEtok h n s
  | .gput h g a => Sys2Proof.Machine.execGput h g a s
  | .eret h a => Sys2Proof.Machine.execEret h a s
  | .vld h nr v a b => Sys2Proof.Machine.execVld h nr v a b s
  | .vldg h nr v a b c => Sys2Proof.Machine.execVldg h nr v a b c s
  | .vldb h f v a b c fw => Sys2Proof.Machine.execVldb h f v a b c fw s
  | .vldm h a b c => Sys2Proof.Machine.execVldm h a b c s
  | .vst h nr v a b => Sys2Proof.Machine.execVst h nr v a b s
  | .vsts h nr v a b c => Sys2Proof.Machine.execVsts h nr v a b c s
  | .vsta h op nr v a b c lanes => Sys2Proof.Machine.execVsta h op nr v a b c lanes s
  | .rput h a b c => Sys2Proof.Machine.execRput h a b c s
  | .vadd h f d a b => Sys2Proof.Machine.execVadd h f d a b s
  | .vsub h f d a b => Sys2Proof.Machine.execVsub h f d a b s
  | .vmul h f d a b => Sys2Proof.Machine.execVmul h f d a b s
  | .vfma h f d a b c => Sys2Proof.Machine.execVfma h f d a b c s
  | .vfms h f d a b c => Sys2Proof.Machine.execVfms h f d a b c s
  | .vmin h bf d a b => Sys2Proof.Machine.execVmin h bf d a b s
  | .vmax h bf d a b => Sys2Proof.Machine.execVmax h bf d a b s
  | .vabs h bf d a => Sys2Proof.Machine.execVabs h bf d a s
  | .vneg h bf d a => Sys2Proof.Machine.execVneg h bf d a s
  | .vcmp h bf c m a b => Sys2Proof.Machine.execVcmp h bf c m a b s
  | .vsel h w16 d a b m => Sys2Proof.Machine.execVsel h w16 d a b m s
  | .vcvt h md d a src dst part sat => Sys2Proof.Machine.execVcvt h md d a src dst part sat s
  | .vsfu h f fn d a => Sys2Proof.Machine.execVsfu h f fn d a s
  | .vred h f op dir d a b => Sys2Proof.Machine.execVred h f op dir d a b s
  | .vscan h f op dir d a => Sys2Proof.Machine.execVscan h f op dir d a s
  | .vsort h key desc all d a b => Sys2Proof.Machine.execVsort h key desc all d a b s
  | .vsegr h md op all d a b => Sys2Proof.Machine.execVsegr h md op all d a b s
  | .vperm h all d a b => Sys2Proof.Machine.execVperm h all d a b s
  | .vbcast h k w16 d a b => Sys2Proof.Machine.execVbcast h k w16 d a b s
  | .vmov h d a => Sys2Proof.Machine.execVmov h d a s
  | .vmovX h d a b => Sys2Proof.Machine.execVmovX h d a b s
  | .viota h d a b => Sys2Proof.Machine.execViota h d a b s
  | .viadd h w sat d a b => Sys2Proof.Machine.execViadd h w sat d a b s
  | .visub h w sat d a b => Sys2Proof.Machine.execVisub h w sat d a b s
  | .vimul h w d a b => Sys2Proof.Machine.execVimul h w d a b s
  | .vilog h f d a b => Sys2Proof.Machine.execVilog h f d a b s
  | .vish h f w d a b => Sys2Proof.Machine.execVish h f w d a b s
  | .vimm h k d a => Sys2Proof.Machine.execVimm h k d a s
  | .vmask h f => Sys2Proof.Machine.execVmask h f s
  | .vshape h a => Sys2Proof.Machine.execVshape h a s
  | .vrot h a => Sys2Proof.Machine.execVrot h a s
  | .vloopp h st a blen => Sys2Proof.Machine.execVloopp h st a blen s
  | .vpcode h d a b => Sys2Proof.Machine.execVpcode h d a b s
  | .vbexp h bf d a => Sys2Proof.Machine.execVbexp h bf d a s
  | .vqnt h d a b => Sys2Proof.Machine.execVqnt h d a b s
  | .vdqnt h md d a b => Sys2Proof.Machine.execVdqnt h md d a b s
  | .vaResultLanding n => Sys2Proof.Machine.execVaResultLanding n s
  | .afwd h f32 sc d a b c => Sys2Proof.Machine.execAfwd h f32 sc d a b c s
  | .abwd h f32 sc d a b c => Sys2Proof.Machine.execAbwd h f32 sc d a b c s
  | .aupd h d a b c => Sys2Proof.Machine.execAupd h d a b c s
  | .axfer h d a => Sys2Proof.Machine.execAxfer h d a s
  | .ackr h f ln a b => Sys2Proof.Machine.execAckr h f ln a b s
  | .aprog h k d a b c => Sys2Proof.Machine.execAprog h k d a b c s
  | .acal h a b => Sys2Proof.Machine.execAcal h a b s
  | .asprLd h a b => Sys2Proof.Machine.execAsprLd h a b s
  | .asprSt h a b => Sys2Proof.Machine.execAsprSt h a b s
  | .aset h reg a b => Sys2Proof.Machine.execAset h reg a b s
  | .amode h m a => Sys2Proof.Machine.execAmode h m a s
  | .astat h reg d a => Sys2Proof.Machine.execAstat h reg d a s
  | .aref h a b => Sys2Proof.Machine.execAref h a b s
  | .arrayCommandComplete n => Sys2Proof.Machine.execArrayCommandComplete n s
  | .axGateRead n => Sys2Proof.Machine.execAxGateRead n s
  | .powerAdmit d => Sys2Proof.Machine.execPowerAdmit d s
  | .mxTileStart n => Sys2Proof.Machine.execMxTileStart n s
  | .mxRowCommit n resBad dupBad => Sys2Proof.Machine.execMxRowCommit n resBad dupBad s
  | .mxTileComplete n => Sys2Proof.Machine.execMxTileComplete n s
  | .mxModeChange n => Sys2Proof.Machine.execMxModeChange n s
  | .mxZero n => Sys2Proof.Machine.execMxZero n s
  | .mxDrain n => Sys2Proof.Machine.execMxDrain n s
  | .knop => Sys2Proof.Machine.execKnop s
  | .kld f pi d a imm => Sys2Proof.Machine.execKld f pi d a imm s
  | .kst f pi a b imm => Sys2Proof.Machine.execKst f pi a b imm s
  | .kldAbSum pi d a imm => Sys2Proof.Machine.execKldAbSum pi d a imm s
  | .kldAbMax pi d a imm => Sys2Proof.Machine.execKldAbMax pi d a imm s
  | .kstAb pi a b imm => Sys2Proof.Machine.execKstAb pi a b imm s
  | .kettleBankWave q => Sys2Proof.Machine.execKettleBankWave q s
  | .kag d f => Sys2Proof.Machine.execKag d f s
  | .katom => Sys2Proof.Machine.execKatom s
  | .kflag pkg a b imm => Sys2Proof.Machine.execKflag pkg a b imm s
  | .kadd d a b => Sys2Proof.Machine.execKadd d a b s
  | .ksub d a b => Sys2Proof.Machine.execKsub d a b s
  | .kmul d a b => Sys2Proof.Machine.execKmul d a b s
  | .kfma d a b c => Sys2Proof.Machine.execKfma d a b c s
  | .kmin d a b => Sys2Proof.Machine.execKmin d a b s
  | .kmax d a b => Sys2Proof.Machine.execKmax d a b s
  | .kabs d a => Sys2Proof.Machine.execKabs d a s
  | .kcmp c d a b => Sys2Proof.Machine.execKcmp c d a b s
  | .ksel d a b c => Sys2Proof.Machine.execKsel d a b c s
  | .kcvt d f => Sys2Proof.Machine.execKcvt d f s
  | .kqnt d a b => Sys2Proof.Machine.execKqnt d a b s
  | .kiadd f d a b => Sys2Proof.Machine.execKiadd f d a b s
  | .kclip d a => Sys2Proof.Machine.execKclip d a s
  | .knf d a => Sys2Proof.Machine.execKnf d a s
  | .kred o a => Sys2Proof.Machine.execKred o a s
  | .krcv o d => Sys2Proof.Machine.execKrcv o d s
  | .kloop c => Sys2Proof.Machine.execKloop c s
  | .kend => Sys2Proof.Machine.execKend s
  | .khalt => Sys2Proof.Machine.execKhalt s
  | .kettleGateRead n => Sys2Proof.Machine.execKettleGateRead n s
  | .kettleSlicePass n => Sys2Proof.Machine.execKettleSlicePass n s
  | .kettleDeliver n => Sys2Proof.Machine.execKettleDeliver n s
  | .kettleCommandStart q => Sys2Proof.Machine.execKettleCommandStart q s
  | .kettleCommandComplete n => Sys2Proof.Machine.execKettleCommandComplete n s
  | .kettleTreeResult session => Sys2Proof.Machine.execKettleTreeResult session s
  | .atomicArrive q => Sys2Proof.Machine.execAtomicArrive q s
  | .pourArrive d far => Sys2Proof.Machine.execPourArrive d far s
  | .pourAccept d => Sys2Proof.Machine.execPourAccept d s
  | .pourSourceDrop d => Sys2Proof.Machine.execPourSourceDrop d s
  | .potDeadline d desc => Sys2Proof.Machine.execPotDeadline d desc s
  | .potOutcomeWrite d desc => Sys2Proof.Machine.execPotOutcomeWrite d desc s
  | .fabricCombine d ix j => Sys2Proof.Machine.execFabricCombine d ix j s
  | .stepGateWrite d g v => Sys2Proof.Machine.execStepGateWrite d g v s
  | .copyChunkDone n k => Sys2Proof.Machine.execCopyChunkDone n k s
  | .copyComplete n k => Sys2Proof.Machine.execCopyComplete n k s
  | .fabricNack k w0 w1 => Sys2Proof.Machine.execFabricNack k w0 w1 s
  | .fabricIngressWrite port va exp rel data => Sys2Proof.Machine.execFabricIngressWrite port va exp rel data s
  | .fabricRingProbe port exp off len => Sys2Proof.Machine.execFabricRingProbe port exp off len s
  | .fabricRingFree port exp off cidx slot => Sys2Proof.Machine.execFabricRingFree port exp off cidx slot s
  | .fabricLinkChange port up => Sys2Proof.Machine.execFabricLinkChange port up s
  | .nodeRouteInvalid node => Sys2Proof.Machine.execNodeRouteInvalid node s
  | .rputSlotFree n => Sys2Proof.Machine.execRputSlotFree n s
  | .rwaitArrive n => Sys2Proof.Machine.execRwaitArrive n s
  | .timelineComplete n c => Sys2Proof.Machine.execTimelineComplete n c s
  | .tlwaitPass n => Sys2Proof.Machine.execTlwaitPass n s
  | .nmfenceDone n => Sys2Proof.Machine.execNmfenceDone n s
  | .pwaitDone n => Sys2Proof.Machine.execPwaitDone n s
  | .cpywTimeout n => Sys2Proof.Machine.execCpywTimeout n s
  | .cpywDone n => Sys2Proof.Machine.execCpywDone n s
  | .wfeWake n => Sys2Proof.Machine.execWfeWake n s
  | .joinDone n => Sys2Proof.Machine.execJoinDone n s
  | .retqArrive n => Sys2Proof.Machine.execRetqArrive n s
  | .queuePushGrant n => Sys2Proof.Machine.execQueuePushGrant n s
  | .tokenTake n e => Sys2Proof.Machine.execTokenTake n e s
  | .tokenGive n e => Sys2Proof.Machine.execTokenGive n e s
  | .guardResolve n e => Sys2Proof.Machine.execGuardResolve n e s
  | .engineEntryStart n e => Sys2Proof.Machine.execEngineEntryStart n e s
  | .launchQueueAdmit d => Sys2Proof.Machine.execLaunchQueueAdmit d s
  | .dependenceRead d l => Sys2Proof.Machine.execDependenceRead d l s
  | .epochStart d l => Sys2Proof.Machine.execEpochStart d l s
  | .dispatchDecision n => Sys2Proof.Machine.execDispatchDecision n s
  | .continuationReady d rec => Sys2Proof.Machine.execContinuationReady d rec s
  | .launchComplete d l => Sys2Proof.Machine.execLaunchComplete d l s
  | .launchCancel d l => Sys2Proof.Machine.execLaunchCancel d l s
  | .mailboxEntryWrite d ix v => Sys2Proof.Machine.execMailboxEntryWrite d ix v s
  | .mailboxFire d ix cls => Sys2Proof.Machine.execMailboxFire d ix cls s
  | .bindRecordWrite d a ix v => Sys2Proof.Machine.execBindRecordWrite d a ix v s
  | .accessEntryWrite d t e v => Sys2Proof.Machine.execAccessEntryWrite d t e v s
  | .accessFault master k x => Sys2Proof.Machine.execAccessFault master k x s
  | .tlbicmd d v => Sys2Proof.Machine.execTlbicmd d v s
  | .tlbInvalDone d => Sys2Proof.Machine.execTlbInvalDone d s
  | .translationWalk d k va => Sys2Proof.Machine.execTranslationWalk d k va s
  | .faultRecordWrite d => Sys2Proof.Machine.execFaultRecordWrite d s
  | .faultReplay d token => Sys2Proof.Machine.execFaultReplay d token s
  | .faultAbort d token => Sys2Proof.Machine.execFaultAbort d token s
  | .qfuseWrite d v => Sys2Proof.Machine.execQfuseWrite d v s
  | .quadSwitchDrain d q => Sys2Proof.Machine.execQuadSwitchDrain d q s
  | .quadSwitchEnd d q => Sys2Proof.Machine.execQuadSwitchEnd d q s
  | .carveDrainEnd n => Sys2Proof.Machine.execCarveDrainEnd n s
  | .cacheWriteback n line => Sys2Proof.Machine.execCacheWriteback n line s
  | .trapEntry n => Sys2Proof.Machine.execTrapEntry n s
  | .engineFault n e cause i0 i1 => Sys2Proof.Machine.execEngineFault n e cause i0 i1 s
  | .timerInterrupt n => Sys2Proof.Machine.execTimerInterrupt n s
  | .mint d v => Sys2Proof.Machine.execMint d v s
  | .latchLanding n => Sys2Proof.Machine.execLatchLanding n s
  | .preemptLaunch d v => Sys2Proof.Machine.execPreemptLaunch d v s
  | .preemptDeadline => Sys2Proof.Machine.execPreemptDeadline s
  | .preemptComplete => Sys2Proof.Machine.execPreemptComplete s
  | .resumeLaunch d => Sys2Proof.Machine.execResumeLaunch d s
  | .integrityEvent d src n info => Sys2Proof.Machine.execIntegrityEvent d src n info s
  | .hostRead port x off len => Sys2Proof.Machine.execHostRead port x off len s
  | .hostWrite port x off data => Sys2Proof.Machine.execHostWrite port x off data s
  | .hostAtomic port x off wide op => Sys2Proof.Machine.execHostAtomic port x off wide op s
  | .hostOwnStore port addr data => Sys2Proof.Machine.execHostOwnStore port addr data s
  | .hostLinkTraining port up cxl speed width => Sys2Proof.Machine.execHostLinkTraining port up cxl speed width s
  | .hintr port v => Sys2Proof.Machine.execHintr port v s
  | .rootReport => Sys2Proof.Machine.execRootReport s
  | .rootCertChain => Sys2Proof.Machine.execRootCertChain s
  | .rootExtend => Sys2Proof.Machine.execRootExtend s
  | .bootgo src w => Sys2Proof.Machine.execBootgo src w s
  | .kettleAbort q => Sys2Proof.Machine.execKettleAbort q s
  | .thermalWarn d temp => Sys2Proof.Machine.execThermalWarn d temp s
  | .thermalShutdown d temp => Sys2Proof.Machine.execThermalShutdown d temp s
  | .partReset => Sys2Proof.Machine.execPartReset s
  | .registerWrite d off v => Sys2Proof.Machine.execRegisterWrite d off v s
  | .managementCoreAccess core op pa size => Sys2Proof.Machine.execManagementCoreAccess core op pa size s
  | .fabricAck n => Sys2Proof.Machine.execFabricAck n s
  | .hostCompletion port => Sys2Proof.Machine.execHostCompletion port s
  | .cellDrift n tile => Sys2Proof.Machine.execCellDrift n tile s

end Sys2Proof.Machine
end

