-- ==== Sys2Proof/Machine/Sched.lean ====
section
/-! DEFINITION. What one turn of each actor of the agenda does (log entry 1): the clock, the background hardware, the units that fetch,
and the events; and how a program comes to stand where a unit fetches (log entry 2). -/

namespace Sys2Proof.Machine

/-! ### The clock -/

/-- Starvation times of a cluster's bind records grow by a cycle (R431): a launch has work, or a ready continuation that the cluster could
resume (R254). -/
def starveTick (n : Nat) (s : State) : State :=
  match (s.ac n).cc.task with
  | none => s
  | some t =>
    let is := (List.range 8).filter fun i => i != t.bindi && (match s.usable n i with
      | some (d, l) => let e := s.lent d l; s.hasWork n e || (s.eligible n e && (s.readyCont n e.launch).isSome)
      | none => false)
    if is.isEmpty then s
    else s.modAc n fun a => { a with disp := { a.disp with starve := is.foldl (fun m i => smSet m i (smGet 0 m i + 1)) a.disp.starve } }

/-- A cycle of a cluster ends: results land, guard writes take effect, counters show. Results of a cluster that has stopped for a save
or is entering a trap stay as its record or frame takes them. -/
def acTick (n : Nat) (s : State) : State :=
  let c := (s.ac n).cc
  let s := if c.saving ∨ c.entry.isSome then s else landUpTo n s.cycle s
  let s := s.modAc n AC.applyGuards
  showTimelines n (starveTick n s)

/-- The bound of a poll moves on every p cycles, so that a write is unseen for less than 2 p. -/
def Mark.next (p cycle wid : Nat) (m : Mark) : Mark := if m.since + p ≤ cycle then ⟨cycle, m.new, wid⟩ else m

/-- The bounds of polls: 2 µs, and 20 µs at .fab (R168; log entry 107). -/
def State.markPolls (s : State) : State :=
  { s with polls := s.polls.next 1800 s.cycle s.wid, farPolls := s.farPolls.next 18000 s.cycle s.wid }

/-- The cycle ends: carves and quad switches whose time has come end; the ports have confirmed the posted writes (log entry 1). -/
def tick (s : State) : State :=
  let s := s.acs.foldl (fun s x => acTick x.1 s) s
  let s := { s with cycle := s.cycle + 1, posted := [] }.markPolls
  let s := s.acs.foldl (fun s x => if x.2.cc.carve.isSome then carveEnd x.1 s else s) s
  s.dies.foldl (fun s x => x.2.qsw.foldl (fun s w => quadEnd x.1 w.quad (quadDrain x.1 w.quad s)) s) s

/-! ### The background hardware -/

/-- Copies, array commands, matrix commands and kettle completions of a cluster. -/
def acHw (n : Nat) (s : State) : State := nmComplete n (mxTurn n (axTurn n (copyTurn n s)))

/-- The launches, continuations and mailboxes of a die, its power controller, pots, fault records and invalidation. -/
def dieHw (d : Nat) (s : State) : State :=
  let s := invalDone d (writeRecord d (admitTile d (potTurn d s)))
  let s := (s.die d).ltab.foldl (fun s x => complete d x.1 (startEpoch d x.1 (depTurn d x.1 s))) (admitLaunch d s)
  (s.die d).conts.foldl (fun s c => contReady d c s) s

/-- The oldest firing is taken up. -/
def fireNext (s : State) : State :=
  match s.fires with
  | (d, i, _, lrec) :: r => takeFiring d i lrec { s with fires := r }
  | [] => s

/-- Everything that goes on without an instruction does one step. -/
def hwTurn (s : State) : State :=
  let s := s.fires.foldl (fun s _ => fireNext s) s
  let s := s.acs.foldl (fun s x => acHw x.1 s) s
  let s := s.kettles.foldl (fun s x => atomTurn x.1 s) (issueTurn (statusTurn s))
  let s := s.dies.foldl (fun s x => dieHw x.1 s) s
  let s := preTurn (fabTurn s)
  (s.dies.foldl (fun l x => if (s.reg x.1 0x23000).getLsbD 0 then l ++ (List.range 64).map fun i => 64 * x.1 + i else l) []).foldl
    (fun s n => decide' n s) s

/-! ### Turns -/

/-- A unit's turn: the instruction it fetched is executed; an IDLE engine looks at its queue. -/
def runFetched (ex : Instr → State → Res) (f : Fetched) : Res :=
  match f with
  | .run i s => ex i s
  | .start n e s => .next (engineStart n e s)
  | .done s => .next s

/-- The units that an event names exist (R1). -/
def unitOk (i : Instr) : Bool :=
  match i with
  | .vaResultLanding n | .arrayCommandComplete n | .axGateRead n | .mxTileStart n | .mxRowCommit n _ _ | .mxTileComplete n
  | .mxModeChange n | .mxZero n | .mxDrain n | .kettleCommandComplete n | .copyChunkDone n _ | .copyComplete n _ | .rputSlotFree n
  | .rwaitArrive n | .timelineComplete n _ | .tlwaitPass n | .nmfenceDone n | .pwaitDone n | .cpywTimeout n | .cpywDone n | .wfeWake n
  | .joinDone n | .retqArrive n | .queuePushGrant n | .tokenTake n _ | .tokenGive n _ | .guardResolve n _ | .engineEntryStart n _
  | .dispatchDecision n | .carveDrainEnd n | .cacheWriteback n _ | .trapEntry n | .engineFault n .. | .timerInterrupt n
  | .latchLanding n => decide (n < 256)
  | .powerAdmit d | .pourArrive d _ | .pourAccept d | .pourSourceDrop d | .potDeadline d _ | .potOutcomeWrite d _ | .fabricCombine d _ _
  | .stepGateWrite d _ _ | .launchQueueAdmit d | .dependenceRead d _ | .epochStart d _ | .continuationReady d _ | .launchComplete d _
  | .launchCancel d _ | .mailboxEntryWrite d _ _ | .mailboxFire d _ _ | .bindRecordWrite d _ _ _ | .accessEntryWrite d _ _ _
  | .tlbicmd d _ | .tlbInvalDone d | .translationWalk d _ _ | .faultRecordWrite d | .faultReplay d _ | .faultAbort d _ | .qfuseWrite d _
  | .quadSwitchDrain d _ | .quadSwitchEnd d _ | .mint d _ | .preemptLaunch d _ | .resumeLaunch d | .thermalWarn d _ | .thermalShutdown d _
  | .registerWrite d _ _ => decide (d < 4)
  | .integrityEvent d src n _ => decide (d < 4) && (decide (3 ≤ src) || decide (n < 256))
  | .kettleBankWave q | .kettleCommandStart q | .atomicArrive q | .kettleAbort q => decide (q < 256)
  | .fabricIngressWrite p .. | .fabricRingProbe p .. | .fabricRingFree p .. | .fabricLinkChange p _ => decide (p < 32)
  | .hostRead p .. | .hostWrite p .. | .hostAtomic p .. | .hostOwnStore p .. | .hostLinkTraining p .. | .hintr p _ | .hostCompletion p =>
    decide (p < 2)
  | .managementCoreAccess c .. => decide (c < 5)
  | _ => true

/-- A reset of the part is what ends the stop of a thermal shutdown (R495). -/
def isReset (x : Actor) : Bool := match x with | .event .partReset => true | _ => false

/-- The turn of an actor. An event finds no unit acting. -/
def turn (ex : Instr → State → Res) (x : Actor) (s : State) : Res :=
  if s.stopped && !isReset x then .next s
  else match x with
    | .tick => .next (tick s)
    | .hw => .next (hwTurn s)
    | .cc n => if n < 256 then runFetched ex (ccTurn n s) else .fault .noSuchUnit
    | .eng n e => if n < 256 then runFetched ex (engTurn n e s) else .fault .noSuchUnit
    | .kettle q => if q < 256 then runFetched ex (kettleTurn q s) else .fault .noSuchUnit
    | .event i => if unitOk i then ex i { s with cur := .disp 0 } else .fault .noSuchUnit

/-- A round: every unit that has work takes a turn, then the hardware and the clock. -/
def round (s : State) : List Actor :=
  (s.acs.flatMap fun x => if x.2.cc.task.isSome then Actor.cc x.1 :: allEng.map (Actor.eng x.1) else [])
    ++ (s.kettles.flatMap fun x => if x.2.run.isSome || !x.2.queue.isEmpty then [Actor.kettle x.1] else []) ++ [.hw, .tick]

/-- The actor that acts next, and the state without it in its agenda. -/
def nextActor (s : State) : Actor × State :=
  match s.agenda with
  | x :: r => (x, { s with agenda := r })
  | [] => match round s with
    | x :: r => (x, { s with agenda := r })
    | [] => (.tick, s)

/-! ### A program where a unit fetches it (log entry 2) -/

/-- Bytes put into memory from outside the machine. -/
def loadBytes (k : Nat) (b : List Byte) (s : State) : State :=
  let s := wipe k b.length s
  { s with mem := smRun (fun _ v => if v = 0 then none else some v) s.mem k b }

/-- Page tables on D0 that map the first 512 MiB of addresses to the linear view of its first pseudo-channel, and access-table entries
that let every master reach that HBM (R20, R39, R48). -/
def loadMap (s : State) : State :=
  let s := loadBytes 0x10000000000 (bytes64 (pack [(0, 1 + 0x10000010000)])) s
  let s := loadBytes 0x10000010000 (bytes64 (pack [(0, 3 + 0x10000000000 + 7 * 2 ^ 53)])) s
  let s := s.setReg 0 0x0100 (pack [(63, 1), (0, 0x10000000000)])
  s.modDie 0 fun x => { x with tlb := [], wc := [], acl := smSet x.acl 0 ⟨false, true, true, true, true, 0, 2 ^ 40 - 1, BitVec.allOnes 16⟩ }

/-- The virtual address of the loaded instruction. -/
def loadVa : Nat := 0x20000

/-- Bytes of granules. -/
def granuleBytes (ws : List W32) : List Byte := ws.flatMap fun w => leBytes 4 w.toNat

/-- The task that a loaded program runs as when the cluster has none. -/
def loadTask : Task := ⟨0, 0, 0, [], 0, 0, false, 0, 0⟩

/-- Place code for cluster 0, and make its CC (or an engine) fetch there next. -/
def loadAc (u : UnitId) (ws : List W32) (s : State) : State :=
  let s := loadBytes (0x10000000000 + loadVa) (granuleBytes ws) (loadMap s)
  let s := s.modAc 0 fun a =>
    let c := { a.cc with task := some (a.cc.task.getD loadTask), saving := false, entry := none, xl := none, xlAbort := none, wait := none
                         icache := [] }
    match u with
    | .eng e => ({ a with cc := c, axq := [], vec := { a.vec with issued := 0, flight := [] } }).setEng e { a.eng e with
        st := 1, upc := BitVec.ofNat 64 loadVa, xl := none, wait := none, giveN := 0, startAt := 0 }
    | _ =>
      let a := allEng.foldl (fun a e => a.setEng e { a.eng e with untold := false }) a
      { a with cc := { c.setSr 0x028 0 with pc := BitVec.ofNat 64 loadVa, pend := [], mint := none } }
  { s with stopped := false, agenda := [match u with | .eng e => .eng 0 e | _ => .cc 0] }

/-- Place a kettle's program word as its running command's next instruction. -/
def loadKettle (w : W64) (s : State) : State :=
  let k := s.kettle 0
  let c := k.run.getD ⟨0, 0, 0, [], [], none, [], none, 0, []⟩
  { s.modKettle 0 fun k => { k with run := some { c with prog := [w] }, kpc := 0, abort := false, wave := none } with
    stopped := false, agenda := [.kettle 0] }

/-- The unit whose decoder reads granules: the first that the opcode is legal on. -/
def unitOf (ws : List W32) : Option UnitId :=
  unitsTried.find? fun u => match decode u ws with | .ok _ => true | .error _ => false

/-- Load the instruction of a word of the opcode table. -/
def loadWord (nbits w : Nat) (s : State) : State :=
  let v : BitVec 96 := BitVec.ofNat 96 (w % 2 ^ nbits)
  let ws := [v.extractLsb' 0 32, v.extractLsb' 32 32, v.extractLsb' 64 32]
  match unitOf ws with
  | some u => loadAc u ws s
  | none => if nbits ≤ 64 ∧ (kdecode (v.extractLsb' 0 64)).isSome then loadKettle (v.extractLsb' 0 64) s else loadAc .cc ws s

end Sys2Proof.Machine
end

