-- ==== Sys2Proof/Safety.lean ====
section
/-! DEFINITION. What a safe step and a safe run are, and the properties of states that the statements name. -/

namespace Sys2Proof

open Sys2Proof.Machine

/-- A step goes on: it ends neither in a fault of the machine nor in a refusal. -/
def Completes (r : Res) : Prop := ∃ t, r = .next t

/-- Every one of the next k steps goes on. -/
def SafeFor : Nat → State → Prop
  | 0, _ => True
  | k + 1, s => ∃ t, step s = .next t ∧ SafeFor k t

/-- The memory keeps its one form: keys rising, no byte listed that is zero (log entry 3). -/
def MemoryOk (s : State) : Prop := Memory.wf s.mem = true

/-! ### What an instruction leaves as it was -/

/-- Nothing of the part differs outside the control core of cluster n: no memory, no other cluster, none of its engines,
queues, tiles or vector registers. -/
def OnlyCc (n : Nat) (s t : State) : Prop := t = s.setAc n { s.ac n with cc := (t.ac n).cc }

/-- Nothing of the part differs outside cluster n: no memory, no other cluster, no die, no kettle. -/
def OnlyAc (n : Nat) (s t : State) : Prop := t = s.setAc n (t.ac n)

/-- Every byte of memory reads as before: its newest value, the writes that a load may return, and what every agent
holds. -/
def SameMemory (s t : State) : Prop := t.mem = s.mem ∧ t.hist = s.hist ∧ t.agm = s.agm

/-- s registers other than those of a list. -/
def SRegsBut (l : List (BitVec 6)) (c d : CC) : Prop := ∀ r, r ∉ l → d.s r = c.s r

/-- Predicates other than those of a list. -/
def PredsBut (l : List (BitVec 4)) (c d : CC) : Prop := ∀ p, p ∉ l → d.p p = c.p p

/-- System registers other than those of a list, and CLC0 and CLC1, which an end-of-body test may count down (R303). -/
def SysBut (l : List Nat) (c d : CC) : Prop := ∀ k, k ∉ l → k ≠ 0x010 → k ≠ 0x013 → d.sr k = c.sr k

/-- What no register instruction touches: guard slots, handler and interrupt state, events, the task, and the waits of
hardware. -/
def CcSame (c d : CC) : Prop :=
  d.greg = c.greg ∧ d.h = c.h ∧ d.ie = c.ie ∧ d.evt = c.evt ∧ d.resumed = c.resumed ∧ d.mint = c.mint ∧ d.xl = c.xl
    ∧ d.xlAbort = c.xlAbort ∧ d.entry = c.entry ∧ d.carve = c.carve ∧ d.task = c.task ∧ d.saving = c.saving ∧ d.pend = c.pend
    ∧ d.icache = c.icache

/-- The frame of an instruction of the CC that writes the s registers, predicates and system registers listed; the PC
moves. -/
def CcFrame (n : Nat) (ss : List (BitVec 6)) (ps : List (BitVec 4)) (rs : List Nat) (s t : State) : Prop :=
  OnlyCc n s t ∧ SRegsBut ss (s.ac n).cc (t.ac n).cc ∧ PredsBut ps (s.ac n).cc (t.ac n).cc
    ∧ SysBut rs (s.ac n).cc (t.ac n).cc ∧ CcSame (s.ac n).cc (t.ac n).cc

/-- The control core of cluster n acts, and the predicate of the instruction is true (R270). -/
def CcActs (n : Nat) (h : Head) (s : State) : Prop := s.cur = .ac n 0 ∧ (s.ac n).cc.enabled h = true

/-- Where the PC stands after an instruction at `pc` that takes no branch, when no level of a loop ends there (R303). -/
def NoLoopEnd (c : CC) (f : W64) : Prop := ¬(c.la0 = true ∧ f = c.sr 0x019) ∧ ¬(c.la1 = true ∧ f = c.sr 0x01B)

end Sys2Proof
end

