-- ==== Sys2Proof/Certificates/Slice0/Obligations.lean ====
section
/-! DEFINITION. The statements of this row. -/

open Sys2Proof Sys2Proof.Machine

/-! ### Values that the rules name -/

/-- A 32-bit result, sign-extended (R289). -/
def Sys2Proof.s32 (v : Int) : W64 := (BitVec.ofInt 32 v).signExtend 64

/-- Table 10-2: the result of an integer instruction from the values a and b of its sources, on the numbers that the bits stand for;
`w` is the .s32 form. -/
def Sys2Proof.arith (f : Int → Int → Int) (g : Nat → Nat → Nat) (signed w : Bool) (a b : W64) : W64 :=
  if w then
    let x := a.setWidth 32
    let y := b.setWidth 32
    s32 (if signed then f x.toInt y.toInt else (g x.toNat y.toNat : Nat))
  else if signed then BitVec.ofInt 64 (f a.toInt b.toInt) else BitVec.ofNat 64 (g a.toNat b.toNat)

/-- A quotient rounded toward zero, -1 for a zero divisor (Table 10-3). -/
def Sys2Proof.quotS (a b : Int) : Int := if b = 0 then -1 else Int.tdiv a b
/-- The remainder, a for a zero divisor (Table 10-3). -/
def Sys2Proof.remS (a b : Int) : Int := if b = 0 then a else a - b * Int.tdiv a b

/-- What an integer instruction of the CC puts into sD (Tables 10-2 and 10-3, R291, R292, R294): D and the value. -/
def Sys2Proof.intResult (c : CC) : Instr → Option (Head × BitVec 6 × W64)
  | .add h w d a b => some (h, d, arith (· + ·) (· + ·) true w (c.src a) (c.src b))
  | .sub h w d a b => some (h, d, arith (· - ·) (· - ·) true w (c.src a) (c.src b))
  | .mul h w d a b => some (h, d, arith (· * ·) (· * ·) true w (c.src a) (c.src b))
  | .mulh h d a b => some (h, d, BitVec.ofInt 64 ((c.src a).toInt * (c.src b).toInt / 2 ^ 64))
  | .mulhu h d a b => some (h, d, BitVec.ofNat 64 ((c.src a).toNat * (c.src b).toNat / 2 ^ 64))
  | .div h w d a b => some (h, d, arith quotS (· / ·) true w (c.src a) (c.src b))
  | .divu h w d a b =>
    some (h, d, arith quotS (fun x y => if y = 0 then 2 ^ 64 - 1 else x / y) false w (c.src a) (c.src b))
  | .rem h w d a b => some (h, d, arith remS (· % ·) true w (c.src a) (c.src b))
  | .remu h w d a b => some (h, d, arith remS (fun x y => if y = 0 then x else x - y * (x / y)) false w (c.src a) (c.src b))
  | .and h d a b => some (h, d, BitVec.ofFnLE fun i : Fin 64 => (c.src a).getLsbD i && (c.src b).getLsbD i)
  | .or h d a b => some (h, d, BitVec.ofFnLE fun i : Fin 64 => (c.src a).getLsbD i || (c.src b).getLsbD i)
  | .xor h d a b => some (h, d, BitVec.ofFnLE fun i : Fin 64 => (c.src a).getLsbD i ^^ (c.src b).getLsbD i)
  | .andn h d a b => some (h, d, BitVec.ofFnLE fun i : Fin 64 => (c.src a).getLsbD i && !(c.src b).getLsbD i)
  | .shl h w d a b =>
    some (h, d, arith (fun x _ => x * 2 ^ ((c.src b).toNat % (if w then 32 else 64))) (fun x _ => x) true w (c.src a) (c.src b))
  | .shr h w d a b =>
    some (h, d, arith (fun x _ => x) (fun x _ => x / 2 ^ ((c.src b).toNat % (if w then 32 else 64))) false w (c.src a) (c.src b))
  | .sha h w d a b =>
    some (h, d, arith (fun x _ => x / 2 ^ ((c.src b).toNat % (if w then 32 else 64))) (fun x _ => x) true w (c.src a) (c.src b))
  | .rol h d a b =>
    let k := (c.src b).toNat % 64
    some (h, d, BitVec.ofNat 64 ((c.src a).toNat * 2 ^ k + (c.src a).toNat / 2 ^ (64 - k)))
  | .min h d a b => some (h, d, BitVec.ofInt 64 (Min.min (c.src a).toInt (c.src b).toInt))
  | .minu h d a b => some (h, d, BitVec.ofNat 64 (Min.min (c.src a).toNat (c.src b).toNat))
  | .max h d a b => some (h, d, BitVec.ofInt 64 (Max.max (c.src a).toInt (c.src b).toInt))
  | .maxu h d a b => some (h, d, BitVec.ofNat 64 (Max.max (c.src a).toNat (c.src b).toNat))
  | .sel h d a b p => some (h, d, if c.p p then c.src a else c.src b)
  | .li h d a => some (h, d, c.src a)
  | .lih h d a => some (h, d, BitVec.ofNat 64 ((c.src a).toNat % 2 ^ 32 * 2 ^ 32 + (c.s d).toNat % 2 ^ 32))
  | .lea h sh d a b => some (h, d, BitVec.ofNat 64 ((c.src a).toNat + (c.src b).toNat * 2 ^ sh.toNat))
  | .leaPc h d b => some (h, d, BitVec.ofNat 64 (c.pc.toNat + (c.src b).toNat))
  | .pmovToScalar h d a => some (h, d, if c.p a then 1 else 0)
  | .pmovAll h d =>
    some (h, d, BitVec.ofNat 64 (((List.range 16).map fun i => if c.p (BitVec.ofNat 4 i) then 2 ^ i else 0).sum))
  | _ => none

/-- R289 to R292, R294, R267, R303: an integer instruction whose predicate is true completes with its result in sD, as Tables 10-2 and
10-3 and the rules give it, and goes on at the next instruction; nothing else changes but what the end-of-body test counts. With D = 0
nothing is written. -/
def Obligations.IntegerResult : Prop :=
  ∀ (n : Nat) (s : State) (i : Instr) (h : Head) (d : BitVec 6) (v : W64),
    intResult (s.ac n).cc i = some (h, d, v) → CcActs n h s →
    ∃ t, exec i s = .next t ∧ CcFrame n [d] [] [] s t
      ∧ (t.ac n).cc.s d = (if d = 0 then 0 else v)
      ∧ (NoLoopEnd (s.ac n).cc ((s.ac n).cc.pc + Head.size h) → (t.ac n).cc.pc = (s.ac n).cc.pc + Head.size h)

/-- R289, R291: CLZ, CTZ, POPC, BFX and BFI bit by bit. -/
def Obligations.BitFieldResult : Prop :=
  ∀ (n : Nat) (s : State) (h : Head) (d : BitVec 6) (a b : Src), CcActs n h s →
    let c := (s.ac n).cc
    let x := c.src a
    let pos := (c.src b).toNat % 64
    let w := Min.min ((c.src b).toNat / 64 % 64 + 1) (64 - pos)
    (∃ t, exec (.clz h d a) s = .next t ∧ CcFrame n [d] [] [] s t ∧ (d ≠ 0 →
      ((t.ac n).cc.s d).toNat ≤ 64 ∧ (∀ i, i < ((t.ac n).cc.s d).toNat → x.getLsbD (63 - i) = false)
        ∧ (x ≠ 0 → x.getLsbD (63 - ((t.ac n).cc.s d).toNat) = true) ∧ (x = 0 → (t.ac n).cc.s d = 64)))
    ∧ (∃ t, exec (.ctz h d a) s = .next t ∧ CcFrame n [d] [] [] s t ∧ (d ≠ 0 →
      ((t.ac n).cc.s d).toNat ≤ 64 ∧ (∀ i, i < ((t.ac n).cc.s d).toNat → x.getLsbD i = false)
        ∧ (x ≠ 0 → x.getLsbD ((t.ac n).cc.s d).toNat = true) ∧ (x = 0 → (t.ac n).cc.s d = 64)))
    ∧ (∃ t, exec (.popc h d a) s = .next t ∧ CcFrame n [d] [] [] s t ∧ (d ≠ 0 →
      ((t.ac n).cc.s d).toNat = ((List.range 64).filter fun i => x.getLsbD i).length))
    ∧ (∀ sx, ∃ t, exec (.bfx h sx d a b) s = .next t ∧ CcFrame n [d] [] [] s t ∧ (d ≠ 0 →
      ∀ i, i < 64 → ((t.ac n).cc.s d).getLsbD i
        = if i < w then x.getLsbD (pos + i) else sx && x.getLsbD (pos + w - 1)))
    ∧ (∃ t, exec (.bfi h d a b) s = .next t ∧ CcFrame n [d] [] [] s t ∧ (d ≠ 0 →
      ∀ i, i < 64 → ((t.ac n).cc.s d).getLsbD i
        = if pos ≤ i ∧ i < pos + w then x.getLsbD (i - pos) else (c.s d).getLsbD i))

/-- What a compare or predicate instruction puts into pD (R293, R294, R297). -/
def Sys2Proof.predResult (c : CC) : Instr → Option (Head × BitVec 4 × Bool)
  | .cmp h k p a b =>
    let x := c.src a
    let y := c.src b
    some (h, p, match k with
      | .eq => decide (x.toNat = y.toNat)
      | .ne => decide (x.toNat ≠ y.toNat)
      | .lt => decide (x.toInt < y.toInt)
      | .ge => decide (y.toInt ≤ x.toInt)
      | .ltu => decide (x.toNat < y.toNat)
      | .geu => decide (y.toNat ≤ x.toNat)
      | .le => decide (x.toInt ≤ y.toInt)
      | .gt => decide (y.toInt < x.toInt)
      | .leu => decide (x.toNat ≤ y.toNat)
      | .gtu => decide (y.toNat < x.toNat)
      | .tst => decide (x &&& y ≠ 0)
      | .ntst => decide (x &&& y = 0))
  | .plog h f d a b =>
    let x := c.p a
    let y := c.p b
    some (h, d, match f with
      | .and => x && y
      | .or => x || y
      | .xor => x != y
      | .andn => x && !y
      | .nand => !x || !y
      | .nor => !x && !y
      | .xnor => x == y
      | .orn => x || !y)
  | .pmovToPred h d a => some (h, d, decide ((c.src a).toNat ≠ 0))
  | .fcmp h bf k p a b =>
    let o := cmpX (c.fsrc bf a) (c.fsrc bf b)
    let un := (c.fsrc bf a).isNan || (c.fsrc bf b).isNan
    some (h, p, match k with
      | .eq => !un && o == .eq
      | .ne => un || o != .eq
      | .lt => !un && o == .lt
      | .le => !un && o != .gt
      | .un => un)
  | _ => none

/-- R293, R294, R297, R267, R303: a compare, PLOG, FCMP or PMOV to a predicate completes with its truth value in pD; p0 keeps reading true;
no other register changes. -/
def Sys2Proof.rulePredicateResult : Prop :=
  ∀ (n : Nat) (s : State) (i : Instr) (h : Head) (d : BitVec 4) (v : Bool),
    predResult (s.ac n).cc i = some (h, d, v) → CcActs n h s →
    ∃ t, exec i s = .next t ∧ CcFrame n [] [d] [] s t ∧ (t.ac n).cc.p d = (d == 0 || v)

/-- R294: PMOV.set writes p1 to p15 from bits 15 to 1 of its source, and no s register. -/
def Sys2Proof.rulePredicateSet : Prop :=
  ∀ (n : Nat) (s : State) (h : Head) (a : Src), CcActs n h s →
    ∃ t, exec (.pmovSet h a) s = .next t ∧ OnlyCc n s t ∧ SRegsBut [] (s.ac n).cc (t.ac n).cc
      ∧ SysBut [] (s.ac n).cc (t.ac n).cc ∧ CcSame (s.ac n).cc (t.ac n).cc
      ∧ ∀ p : BitVec 4, (t.ac n).cc.p p = (p == 0 || ((s.ac n).cc.src a).getLsbD p.toNat)

/-- R293, R294, R297, R267, R303: compares, PLOG, FCMP and the PMOV forms that write predicates. -/
def Obligations.PredicateResults : Prop := rulePredicateResult ∧ rulePredicateSet

/-- What a scalar floating-point instruction rounds: its exact result (R296). -/
def Sys2Proof.floatExact (c : CC) : Instr → Option (Head × FOp × BitVec 6 × FVal)
  | .fadd h f d a b => some (h, f, d, addX f.mode (c.fsrc f.bf a) (c.fsrc f.bf b))
  | .fsub h f d a b => some (h, f, d, addX f.mode (c.fsrc f.bf a) (c.fsrc f.bf b).negate)
  | .fmul h f d a b => some (h, f, d, mulX (c.fsrc f.bf a) (c.fsrc f.bf b))
  | .ffma h f d a b e => some (h, f, d, fmaX f.mode (c.fsrc f.bf a) (c.fsrc f.bf b) (c.fsrc f.bf e))
  | .fdiv h f d a b => some (h, f, d, divX (c.fsrc f.bf a) (c.fsrc f.bf b))
  | .fsqrt h f d a => some (h, f, d, sqrtX (c.fsrc f.bf a))
  | .fminmax h bf mx d a b =>
    some (h, ⟨bf, .rne⟩, d, if mx then maxX (c.fsrc bf a) (c.fsrc bf b) else minX (c.fsrc bf a) (c.fsrc bf b))
  | _ => none

/-- R295, R296, R209: a scalar floating-point instruction rounds its exact result once, to the precision and mode of its FN, into the low
bits of sD, with every higher bit zero; under SR it draws from CSRSEED and CSRCTR and CSRCTR rises by one, and under no other mode does
a system register change. -/
def Sys2Proof.ruleFloatResult : Prop :=
  ∀ (n : Nat) (s : State) (i : Instr) (h : Head) (f : FOp) (d : BitVec 6) (x : FVal),
    floatExact (s.ac n).cc i = some (h, f, d, x) → CcActs n h s →
    let c := (s.ac n).cc
    let r := if f.mode = .sr then srHash ((c.sr 0x0D4).setWidth 32) (c.sr 0x0D5) 0 else 0
    ∃ t, exec i s = .next t ∧ CcFrame n [d] [] [0x0D5] s t
      ∧ (d ≠ 0 → (t.ac n).cc.s d
          = if f.bf then (toB16 f.mode r false x).setWidth 64 else (toF32 f.mode r false x).setWidth 64)
      ∧ (t.ac n).cc.sr 0x0D5 = if f.mode = .sr then c.sr 0x0D5 + 1 else c.sr 0x0D5

/-- R298, R214, R209: FCVT writes what Table 10-4 gives for each of its eight codes; integer results are saturated and sign-extended. -/
def Sys2Proof.ruleConvertResult : Prop :=
  ∀ (n : Nat) (s : State) (h : Head) (m : RMode) (code : BitVec 3) (d : BitVec 6) (a : Src), CcActs n h s →
    let c := (s.ac n).cc
    let r := if m = .sr then srHash ((c.sr 0x0D4).setWidth 32) (c.sr 0x0D5) 0 else 0
    ∃ t, exec (.fcvt h m code d a) s = .next t ∧ CcFrame n [d] [] [0x0D5] s t
      ∧ (t.ac n).cc.sr 0x0D5 = (if m = .sr then c.sr 0x0D5 + 1 else c.sr 0x0D5)
      ∧ (d ≠ 0 → (t.ac n).cc.s d = match code.toNat with
          | 0 => (toB16 m r false (c.fsrc false a)).setWidth 64
          | 1 => (toF32 .rne 0 false (c.fsrc true a)).setWidth 64
          | 2 => BitVec.ofInt 64 (toInt 64 m r (c.fsrc false a)).1
          | 3 => BitVec.ofInt 64 (toInt 32 m r (c.fsrc false a)).1
          | 4 => (toF32 m r false (.ofInt (c.src a).toInt)).setWidth 64
          | 5 => (toF32 m r false (.ofInt ((c.src a).setWidth 32).toInt)).setWidth 64
          | 6 => (toB16 m r false (.ofInt (c.src a).toInt)).setWidth 64
          | _ => BitVec.ofInt 64 (toInt 64 m r (c.fsrc true a)).1)

/-- R295, R296, R298, R209, R214: scalar floating point and its conversions. -/
def Obligations.FloatResults : Prop := ruleFloatResult ∧ ruleConvertResult

/-! ### Predication, branches and loops -/

/-- The header of an instruction of the CC that has no check before its predicate. -/
def Sys2Proof.plainHead : Instr → Option Head
  | .add h .. | .sub h .. | .mul h .. | .mulh h .. | .mulhu h .. | .div h .. | .divu h .. | .rem h .. | .remu h .. | .and h ..
  | .or h .. | .xor h .. | .andn h .. | .shl h .. | .shr h .. | .sha h .. | .rol h .. | .min h .. | .minu h .. | .max h ..
  | .maxu h .. | .clz h .. | .ctz h .. | .popc h .. | .bfx h .. | .bfi h .. | .sel h .. | .li h .. | .lih h .. | .lea h ..
  | .leaPc h .. | .cmp h .. | .plog h .. | .pmovToPred h .. | .pmovToScalar h .. | .pmovAll h .. | .pmovSet h ..
  | .fadd h .. | .fsub h .. | .fmul h .. | .ffma h .. | .fdiv h .. | .fsqrt h .. | .fcmp h .. | .fcvt h .. | .fminmax h ..
  | .br h .. | .jmp h .. | .jmpr h .. | .call h .. | .ret h .. | .loop h .. | .gset h .. | .gclr h .. | .fork h .. | .join h ..
  | .pushc h .. | .pushk h .. | .retq h .. | .coord h .. | .pcarve h .. | .trap h .. | .wfe h | .sev h .. | .brk h .. | .halt h
  | .nop h | .ld h .. | .st h .. | .lds h .. | .sts h .. | .amo h .. | .cas h .. | .phase h .. | .fence h .. | .clean h ..
  | .inval h .. | .pref h .. | .tlwait h .. | .tlread h .. | .cpy h .. | .cpyt h .. | .cpyw h .. | .pour h .. | .pwait h ..
  | .pjoin h .. | .pleave h .. | .pclose h .. | .pcloseRetire h .. | .nmrun h .. | .nmfence h .. | .rwait h .. | .rfree h ..
  | .mxcfg h .. | .mxgo h .. | .mxfmt h .. | .mxmode h .. | .mxzero h .. | .mxdrain h .. | .mxstat h .. => some h
  | _ => none

/-- The check of its own that an instruction of `plainHead` makes before its predicate (R273, code 8): SGRAN of PCARVE is at most 8 (R78), and
MXCFG names a configuration register (Table 13-11). -/
def Sys2Proof.ownCheck (c : CC) : Instr → Prop
  | .pcarve _ a => (c.src a).toNat % 16 ≤ 8
  | .mxcfg _ k _ => k.toNat ≤ 12 ∨ (16 ≤ k.toNat ∧ k.toNat ≤ 33)
  | _ => True

/-- R270, R303, R273: an instruction of the CC whose predicate is false retires with no effect: it writes no register, performs no access, pushes
nothing and raises no fault, but for the check of PCARVE and MXCFG that is made whatever the predicate. -/
def Obligations.PredicateFalse : Prop :=
  ∀ (n : Nat) (s : State) (i : Instr) (h : Head), plainHead i = some h → ownCheck (s.ac n).cc i → s.cur = .ac n 0 →
    (s.ac n).cc.enabled h = false →
    ∃ t, exec i s = .next t ∧ CcFrame n [] [] [] s t
      ∧ (NoLoopEnd (s.ac n).cc ((s.ac n).cc.pc + Head.size h) → (t.ac n).cc.pc = (s.ac n).cc.pc + Head.size h)

/-- The target of a branch (R299, R300). -/
def Sys2Proof.branchTarget (c : CC) : Instr → Option (Head × W64)
  | .br h off => some (h, c.pc + BitVec.ofInt 64 (4 * off.toInt))
  | .jmp h off => some (h, c.pc + BitVec.ofInt 64 (4 * off.toInt))
  | .jmpr h a b => some (h, c.src a + c.src b)
  | .call h _ (.r r) => some (h, c.s r)
  | .call h _ a => some (h, c.pc + 4 * c.src a)
  | .ret h r => some (h, c.s r)
  | _ => none

/-- R299, R300, R277: a taken branch goes to its target with no end-of-body test; CALL puts the address after itself into sD, and no other
register changes. A register target that is no multiple of 4 is not taken and raises the fetch-alignment fault at the branch instead. -/
def Sys2Proof.ruleBranchTaken : Prop :=
  ∀ (n : Nat) (s : State) (i : Instr) (h : Head) (v : W64), branchTarget (s.ac n).cc i = some (h, v) → CcActs n h s →
    let ds := match i with | .call _ d _ => [d] | _ => []
    let check := match i with | .br .. | .jmp .. => False | _ => v.toNat % 4 ≠ 0
    (¬check → ∃ t, exec i s = .next t ∧ OnlyCc n s t ∧ (t.ac n).cc.pc = v
      ∧ SRegsBut ds (s.ac n).cc (t.ac n).cc ∧ PredsBut [] (s.ac n).cc (t.ac n).cc
      ∧ (∀ k, (t.ac n).cc.sr k = (s.ac n).cc.sr k) ∧ CcSame (s.ac n).cc (t.ac n).cc
      ∧ (∀ d, d ∈ ds → d ≠ 0 → (t.ac n).cc.s d = (s.ac n).cc.pc + Head.size h))
    ∧ (check → exec i s = .next (syncTrap n 0x05 v 0 s))

/-- R303: the end-of-body test, as its program text gives it, at the address f just past an instruction. -/
def Sys2Proof.endTest (c : CC) (f : W64) : Bool × Bool × W64 × W64 × W64 :=
  if c.la1 = true ∧ f = c.sr 0x01B ∧ 1 < (c.sr 0x013).toNat then (c.la0, true, c.sr 0x010, c.sr 0x013 - 1, c.sr 0x01A)
  else
    let l1 := c.la1 && f != c.sr 0x01B
    let n1 := if c.la1 = true ∧ f = c.sr 0x01B then 0 else c.sr 0x013
    if c.la0 = true ∧ f = c.sr 0x019 then
      (if 1 < (c.sr 0x010).toNat then (true, l1, c.sr 0x010 - 1, n1, c.sr 0x018) else (false, l1, 0, n1, f))
    else (c.la0, l1, c.sr 0x010, n1, f)

/-- R302, R303: LOOP sets the body of its level, its count, and whether the level is active (o), and goes to the body's start or past it. One that
goes on just past itself takes no branch, and the end-of-body test follows. -/
def Sys2Proof.ruleLoopOpens : Prop :=
  ∀ (n : Nat) (s : State) (h : Head) (k : Bool) (a : Src) (blen : BitVec 12), CcActs n h s →
    let c := (s.ac n).cc
    let rc := if k then 0x013 else 0x010
    let rs := if k then 0x014 else 0x011
    let re := if k then 0x015 else 0x012
    let ls := if k then 0x01A else 0x018
    let le := if k then 0x01B else 0x019
    let f := c.pc + Head.size h
    ∃ (t : State) (o : CC), exec (.loop h k a blen) s = .next t ∧ OnlyCc n s t
      ∧ SRegsBut [] c (t.ac n).cc ∧ PredsBut [] c (t.ac n).cc ∧ CcSame c (t.ac n).cc
      ∧ (∀ j, j ∉ [rc, rs, re, ls, le] → o.sr j = c.sr j)
      ∧ o.sr rc = c.src a
      ∧ (blen ≠ 0 → o.sr ls = addr55 f ∧ o.sr rs = o.sr ls
          ∧ o.sr le = addr55 (o.sr ls + BitVec.ofNat 64 (4 * blen.toNat)) ∧ o.sr re = o.sr le)
      ∧ (blen = 0 → o.sr rs = c.sr rs ∧ o.sr re = c.sr re ∧ o.sr ls = c.sr rs &&& ~~~ 3 ∧ o.sr le = c.sr re &&& ~~~ 3)
      ∧ (if k then o.la1 else o.la0) = (c.src a != 0)
      ∧ (if k then o.la0 = c.la0 else o.la1 = c.la1)
      ∧ (∀ j, j ≠ 0x010 → j ≠ 0x013 → (t.ac n).cc.sr j = o.sr j)
      ∧ ((t.ac n).cc.la0, (t.ac n).cc.la1, (t.ac n).cc.sr 0x010, (t.ac n).cc.sr 0x013, (t.ac n).cc.pc)
          = (let go := if c.src a = 0 then o.sr le else o.sr ls
             if go = f then endTest o f else (o.la0, o.la1, o.sr 0x010, o.sr 0x013, go))

/-- R303, R321: what a NOP leaves: the end-of-body test gives the levels that stay active, their counts and the next PC. -/
def Sys2Proof.ruleEndOfBody : Prop :=
  ∀ (n : Nat) (s : State) (h : Head), s.cur = .ac n 0 →
    let c := (s.ac n).cc
    let r := endTest c (c.pc + Head.size h)
    ∃ t, exec (.nop h) s = .next t ∧ CcFrame n [] [] [] s t
      ∧ (t.ac n).cc.la0 = r.1 ∧ (t.ac n).cc.la1 = r.2.1 ∧ (t.ac n).cc.sr 0x010 = r.2.2.1 ∧ (t.ac n).cc.sr 0x013 = r.2.2.2.1
      ∧ (t.ac n).cc.pc = r.2.2.2.2

/-- R299, R300, R302, R303, R277, R321: branches, LOOP, and the end-of-body test. The model's choices in it: log entries 39 and 48. -/
def Obligations.ControlFlow : Prop := ruleBranchTaken ∧ ruleLoopOpens ∧ ruleEndOfBody

/-! ### Guards, engines and queues -/

/-- An instruction of the CC retires and takes no branch (R303). -/
def Sys2Proof.ccDone (n : Nat) (h : Head) (s : State) : State := s.modCC n fun c => c.retire h .seq

/-- An instruction of the CC waits: nothing changes but that the CC stands in it, with its cycle of issue (R287). -/
def Sys2Proof.CcWaits (n : Nat) (i : Instr) (s t : State) : Prop :=
  OnlyCc n s t ∧ (t.ac n).cc = { (s.ac n).cc with wait := (t.ac n).cc.wait } ∧ (t.ac n).cc.wait.map (·.instr) = some i

/-- The CC waits in an instruction, and neither a replay, the entry of a trap nor an event that is taken at this boundary holds it (R441). -/
def Sys2Proof.CcIn (n : Nat) (i : Instr) (s : State) : Prop :=
  (s.ac n).cc.wait.map (·.instr) = some i ∧ (s.ac n).cc.xl = none ∧ (s.ac n).cc.entry = none ∧ boundaryTrap n s = none

/-- An engine waits in an instruction, and neither a replay, a token that it owes nor the entry of a trap holds it. -/
def Sys2Proof.EngIn (n : Nat) (e : Eid) (i : Instr) (s : State) : Prop :=
  ((s.ac n).eng e).wait = some i ∧ ((s.ac n).eng e).xl = none ∧ ((s.ac n).eng e).giveN = 0 ∧ (s.ac n).cc.entry = none

/-- An instruction of the CC, and the event that ends the CC's wait in it, answer a state (R287). -/
def Sys2Proof.CcEnds (n : Nat) (i ev : Instr) (s t : State) : Prop :=
  exec i s = .next t ∧ ∀ s0 : State, CcIn n i s0 → s = { s0 with cur := .ac n 0 } → exec ev s0 = .next t

/-- The same of an instruction of an engine. -/
def Sys2Proof.EngEnds (n : Nat) (e : Eid) (i ev : Instr) (s t : State) : Prop :=
  exec i s = .next t ∧ ∀ s0 : State, EngIn n e i s0 → s = { s0 with cur := engAgent n e } → exec ev s0 = .next t

/-- What GSET writes (R305). -/
def Sys2Proof.guardValue (c : CC) : GSrc → Bool
  | .val v => decide (c.src v ≠ 0)
  | .pred p => c.p p

/-- R305, R229: GSET and GCLR write their guard slot; the write is the last that the queue heads see of this cycle, from the next cycle on;
nothing but the retirement and this write changes. -/
def Sys2Proof.ruleGuardWritten : Prop :=
  ∀ (n : Nat) (s : State) (h : Head) (g : BitVec 5), CcActs n h s →
    let c := (s.ac n).cc
    (∀ a, ∃ t, exec (.gset h g a) s = .next t ∧ OnlyAc n s t
      ∧ t.ac n = { s.ac n with cc := c.retire h .seq, ln := (t.ac n).ln }
      ∧ (t.ac n).ln = { (s.ac n).ln with gw := insGuard (6, g.toNat, some (guardValue c a)) (s.ac n).ln.gw }
      ∧ ((s.ac n).ln.gw = [] → (t.ac n).applyGuards.cc.guard g.toNat = some (guardValue c a)))
    ∧ (∃ t, exec (.gclr h g) s = .next t ∧ OnlyAc n s t
      ∧ t.ac n = { s.ac n with cc := c.retire h .seq, ln := (t.ac n).ln }
      ∧ (t.ac n).ln = { (s.ac n).ln with gw := insGuard (6, g.toNat, none) (s.ac n).ln.gw }
      ∧ ((s.ac n).ln.gw = [] → (t.ac n).applyGuards.cc.guard g.toNat = none))

/-- The engines that a mask names (R306). -/
def Sys2Proof.named (v : W64) (e : Eid) : Prop := v.getLsbD (eidCode e - 1) = true

/-- R306, R221, R222: FORK with a mask below 32 starts every engine it names at CODE plus its entry offset, to issue from the next cycle on, when
all of them are IDLE and have an entry, and starts none otherwise: then it raises the illegal-operand fault with the mask. JOIN passes when every engine named is IDLE
with an empty queue, and the CC waits in it until then. -/
def Obligations.ForkJoin : Prop :=
  ∀ (n : Nat) (s : State) (h : Head) (a : Src) (tk : Task), CcActs n h s → (s.ac n).cc.task = some tk →
    let v := (s.ac n).cc.src a
    let ok := v.toNat < 32 ∧ ∀ e, named v e → ((s.ac n).eng e).idle = true ∧ tk.entry (eidCode e) ≠ 0xFFFFFFFF
    (ok → ∃ t, exec (.fork h a) s = .next t ∧ OnlyAc n s t ∧ (t.ac n).cc = (s.ac n).cc.retire h .seq
      ∧ (∀ e, named v e → (t.ac n).eng e
          = { (s.ac n).eng e with st := 1, num := 0, upc := addr55 (tk.code + BitVec.ofNat 64 (tk.entry (eidCode e))),
                                     startAt := s.cycle + 1 })
      ∧ (∀ e, ¬named v e → (t.ac n).eng e = (s.ac n).eng e)
      ∧ (t.ac n).ln = (s.ac n).ln ∧ (t.ac n).vec = (s.ac n).vec ∧ (t.ac n).tiles = (s.ac n).tiles)
    ∧ (¬ok → exec (.fork h a) s = .next (syncTrap n 0x02 v 0 s))
    ∧ (v.toNat < 32 → (∀ e, named v e → ((s.ac n).eng e).idle = true ∧ ((s.ac n).eng e).q = []) →
        CcEnds n (.join h a) (.joinDone n) s (ccDone n h s))
    ∧ (v.toNat < 32 → (∃ e, named v e ∧ ¬(((s.ac n).eng e).idle = true ∧ ((s.ac n).eng e).q = [])) →
        ∃ t, exec (.join h a) s = .next t ∧ CcWaits n (.join h a) s t)

/-- The entry that a push puts into a queue (Table 8-3, R270): kind, guard, offset, operands and number. -/
def Sys2Proof.pushed (h : Head) (c : CC) (kind : Nat) (k : BitVec 3) (blk : BitVec 6) (off : BitVec 32) (num : Nat) : QEntry :=
  { kind := kind
    gen := match h.ctl with | .slot .. => true | _ => false
    gneg := match h.ctl with | .slot neg _ => neg | _ => false
    gslot := match h.ctl with | .slot _ g => g | _ => 0
    nops := k.toNat, offset := off, ops := (List.range k.toNat).map fun i => c.s (blk + BitVec.ofNat 6 i), num := num }

/-- R436: k pool entries of queue q may be granted: the queue stays within its QCAP, and as many free entries stay as the other queues still need
for their QMIN. -/
def Sys2Proof.QueueRoom (a : AC) (q k : Nat) : Prop :=
  a.used q + k ≤ bits (a.cc.sr (0x088 + q)) 0 10
    ∧ (((List.range 6).filter (· ≠ q)).map fun p => bits (a.cc.sr (0x080 + p)) 0 10 - a.used p).sum + k + ((List.range 6).map a.used).sum ≤ 512

/-- R436: the push of unit u is the one to be granted: there is room for it, and for no push that has waited longer. -/
def Sys2Proof.PushGranted (a : AC) (u q k : Nat) : Prop :=
  QueueRoom a q k ∧ ∀ old w new, a.ln.pushWait = old ++ w :: new → (∀ x ∈ old ++ [w], x.who ≠ u) → ¬QueueRoom a w.queue w.need

/-- R307, R308, R436, R157, R153: with room in the queue, PUSHC and PUSHK release at .ac and put their entry at its tail; a PUSHC is numbered on the
engine's timeline; with none, the CC waits in them. A PUSHC whose offset is no multiple of 4 below 2^32 raises the illegal-operand fault. -/
def Sys2Proof.rulePushEnters : Prop :=
  ∀ (n : Nat) (s : State) (h : Head) (e : Eid) (k : BitVec 3) (blk : BitVec 6) (b : Src), CcActs n h s →
    let c := (s.ac n).cc
    let off := c.src b
    let q := eidCode e - 1
    let need := if k.toNat = 4 then 2 else 1
    let m := (s.ac n).ln.issueCount q + 1
    (off.toNat < 2 ^ 32 ∧ off.toNat % 4 = 0 → PushGranted (s.ac n) 0 q need →
      ∃ t, exec (.pushc h e k blk b) s = .next t ∧ t = (release (.ac n 0) .ac s).setAc n (t.ac n)
        ∧ (t.ac n).cc = c.retire h .seq
        ∧ ((t.ac n).eng e).q = ((s.ac n).eng e).q ++ [pushed h c 0 k blk (off.setWidth 32) m]
        ∧ (∀ x, x ≠ e → (t.ac n).eng x = (s.ac n).eng x) ∧ (t.ac n).ln.issueCount q = m
        ∧ (∀ x, x ≠ q → (t.ac n).ln.issueCount x = (s.ac n).ln.issueCount x) ∧ (t.ac n).vec = (s.ac n).vec)
    ∧ (¬(off.toNat < 2 ^ 32 ∧ off.toNat % 4 = 0) → exec (.pushc h e k blk b) s = .next (syncTrap n 0x02 off 0 s))
    ∧ (PushGranted (s.ac n) 0 q need →
      ∃ t, exec (.pushk h e k blk) s = .next t ∧ t = (release (.ac n 0) .ac s).setAc n (t.ac n)
        ∧ (t.ac n).cc = c.retire h .seq ∧ ((t.ac n).eng e).q = ((s.ac n).eng e).q ++ [pushed h c 1 k blk 0 0]
        ∧ (∀ x, x ≠ e → (t.ac n).eng x = (s.ac n).eng x) ∧ (t.ac n).ln.tlIssue = (s.ac n).ln.tlIssue ∧ (t.ac n).vec = (s.ac n).vec)
    ∧ (¬QueueRoom (s.ac n) q need → ∀ i, (i = .pushk h e k blk ∨ i = .pushc h e k blk b ∧ off.toNat < 2 ^ 32 ∧ off.toNat % 4 = 0) →
      ∃ t, exec i s = .next t ∧ (t.ac n).cc = { (s.ac n).cc with wait := (t.ac n).cc.wait } ∧ (t.ac n).cc.wait.map (·.instr) = some i
        ∧ (∀ x, (t.ac n).eng x = (s.ac n).eng x) ∧ ⟨0, q, need⟩ ∈ (t.ac n).ln.pushWait ∧ SameMemory s t)

/-- R309, R230, R158: RETQ pops the oldest value into sD and its engine code into RETQSRC, after an acquire at .ac, and LODC grows by the cycles
of its stall; the CC waits while the return queue is empty. -/
def Sys2Proof.ruleReturnQueue : Prop :=
  ∀ (n : Nat) (s : State) (h : Head) (d : BitVec 6), CcActs n h s →
    (∀ k v r, (s.ac n).ln.retq = (k, v) :: r →
      ∃ t, CcEnds n (.retq h d) (.retqArrive n) s t ∧ (t.ac n).ln = { (s.ac n).ln with retq := r }
        ∧ SRegsBut [d] (s.ac n).cc (t.ac n).cc ∧ (d ≠ 0 → (t.ac n).cc.s d = v) ∧ PredsBut [] (s.ac n).cc (t.ac n).cc
        ∧ (t.ac n).cc.sr 0x0E7 = BitVec.ofNat 64 k
        ∧ (t.ac n).cc.sr 0x0E0 = (s.ac n).cc.sr 0x0E0 + BitVec.ofNat 64 (s.waited n (.retq h d))
        ∧ SysBut [0x0E0, 0x0E7] (s.ac n).cc (t.ac n).cc ∧ CcSame (s.ac n).cc (t.ac n).cc
        ∧ (∀ e, (t.ac n).eng e = (s.ac n).eng e) ∧ (t.ac n).vec = (s.ac n).vec ∧ (t.ac n).tiles = (s.ac n).tiles
        ∧ t = (acquire (.ac n 0) .ac s).setAc n (t.ac n))
    ∧ ((s.ac n).ln.retq = [] → ∃ t, exec (.retq h d) s = .next t ∧ CcWaits n (.retq h d) s t)

/-- R307 to R309, R436, R153, R157, R158, R230: PUSHC, PUSHK and RETQ. The model's choices in it: log entry 37. -/
def Obligations.QueuesOfTheCluster : Prop := rulePushEnters ∧ ruleReturnQueue

/-! ### System registers -/

/-- R315, R267, R364: SYSR of an assigned register that need not wait puts its value into sD; a number that no chapter assigns raises the
illegal-instruction fault with code 8, whatever the predicate. -/
def Sys2Proof.ruleSystemRead : Prop :=
  ∀ (n : Nat) (s : State) (h : Head) (d : BitVec 6) (k : BitVec 12), s.cur = .ac n 0 →
    (sysAssigned k.toNat = false → exec (.sysr h d k) s = .next (syncTrap n 0x01 8 (word0 (.sysr h d k)) s))
    ∧ (sysAssigned k.toNat = true → (s.ac n).cc.enabled h = true → sysWaits (s.ac n) k.toNat false = false →
      ∃ t, exec (.sysr h d k) s = .next t ∧ CcFrame n [d] [] [] s t
        ∧ (d ≠ 0 → (t.ac n).cc.s d = sysRead (s.ac n) n s.cycle k.toNat))
    ∧ (sysAssigned k.toNat = true → (s.ac n).cc.enabled h = true → sysWaits (s.ac n) k.toNat false = true →
      ∃ t, exec (.sysr h d k) s = .next t ∧ CcWaits n (.sysr h d k) s t)

/-- R315, R316, R435, R209: SYSW of a stored register keeps the bits that the register has and changes no other register; the write of a read-only
register changes none; CCSTAT takes IE from bit 1 while a handler runs, and nothing outside one; class H registers are written only in a
handler, and elsewhere raise the illegal-instruction fault with code 8, as CARVE does for an SGRAN above 8, whatever the predicate. -/
def Sys2Proof.ruleSystemWrite : Prop :=
  ∀ (n : Nat) (s : State) (h : Head) (k : BitVec 12) (a : Src), s.cur = .ac n 0 →
    let c := (s.ac n).cc
    let r := k.toNat
    let v := c.src a
    let may := sysAssigned r = true ∧ (sysClassH r = true → c.h = true) ∧ (r = 0x0C0 → v.toNat % 16 ≤ 8)
    (¬may → exec (.sysw h k a) s = .next (syncTrap n 0x01 8 (word0 (.sysw h k a)) s))
    ∧ (may → c.enabled h = true → r ≠ 0x0C0 → sysWaits (s.ac n) r true = false →
        NoLoopEnd c (c.pc + Head.size h) →
      (sysMask r ≠ 0 → r < 0x080 ∨ 0x08D < r → ∃ t, exec (.sysw h k a) s = .next t ∧ CcFrame n [] [] [r] s t
          ∧ (t.ac n).cc.sr r = v &&& sysMask r)
      ∧ (sysMask r = 0 → r ≠ 0 → r < 0x080 ∨ 0x08D < r → ∃ t, exec (.sysw h k a) s = .next t ∧ CcFrame n [] [] [] s t)
      ∧ (r = 0 → ∃ t, exec (.sysw h k a) s = .next t ∧ OnlyCc n s t
          ∧ (t.ac n).cc.ie = (if c.h then v.getLsbD 1 else c.ie) ∧ SRegsBut [] c (t.ac n).cc ∧ SysBut [] c (t.ac n).cc
          ∧ (t.ac n).cc.h = c.h)
      ∧ (0x080 ≤ r ∧ r ≤ 0x08D → poolAfter c r (v.toNat % 1024) = true →
          ∃ t, exec (.sysw h k a) s = .next t ∧ CcFrame n [] [] [r] s t ∧ (t.ac n).cc.sr r = BitVec.ofNat 64 (v.toNat % 1024))
      ∧ (0x080 ≤ r ∧ r ≤ 0x08D → poolAfter c r (v.toNat % 1024) = false →
          exec (.sysw h k a) s = .next (syncTrap n 0x02 v 0 s)))

/-- R315, R316, R364, R435, R209: reading and writing a system register. The model's choices in it: log entries 9 and 81. -/
def Obligations.SystemRegisters : Prop := ruleSystemRead ∧ ruleSystemWrite

/-- No array command in flight has a scratch write in the granules between two splits (R78). -/
def Sys2Proof.carveClear (n old new : Nat) (a : AC) : Prop :=
  ∀ c ∈ a.axq, ∀ w ∈ c.writes ++ c.rows.map (fun p => p.resid), ∀ o, scratchOff n w.pa = some o →
    ¬(o < Max.max old new * 262144 ∧ Min.min old new * 262144 < o + w.bytes.length)

/-- R77, R78, R79: PCARVE (and SYSW of CARVE) to another split of 0 to 8 granules starts the carve: CARVE shows the old split until its drain
ends 4,096 cycles later; the same split changes nothing, and a value above 8 raises the illegal-instruction fault with code 8, whatever the
predicate. The model's choices in it: log entry 31. -/
def Obligations.CarveStarts : Prop :=
  ∀ (n : Nat) (s : State) (h : Head) (a : Src), s.cur = .ac n 0 →
    let c := (s.ac n).cc
    let new := (c.src a).toNat % 16
    let old := (c.sr 0x0C0).toNat % 16
    ∀ i, (i = .pcarve h a ∨ i = .sysw h 0x0C0 a) →
    (8 < new → exec i s = .next (syncTrap n 0x01 8 (word0 i) s))
    ∧ (new ≤ 8 → c.enabled h = true → c.carve = none → new = old → exec i s = .next (ccDone n h s))
    ∧ (new ≤ 8 → c.enabled h = true → c.carve = none → new ≠ old → carveClear n old new (s.ac n) →
      ∃ t, exec i s = .next t ∧ OnlyCc n s t ∧ (t.ac n).cc.carve = some ⟨old, new, s.cycle + 4096, none⟩
        ∧ (t.ac n).cc.sr 0x0C0 = BitVec.ofNat 64 (old + 16 * old) ∧ SRegsBut [] c (t.ac n).cc ∧ PredsBut [] c (t.ac n).cc
        ∧ SysBut [0x0C0] c (t.ac n).cc)

/-! ### Traps -/

/-- R318, R303: TRAP retires and then takes the software trap with its operand's low byte; BRK takes the breakpoint trap and does not retire. -/
def Sys2Proof.ruleSoftwareTrap : Prop :=
  ∀ (n : Nat) (s : State) (h : Head) (a : Src), CcActs n h s →
    let c := (s.ac n).cc
    let v := c.src a &&& 0xFF
    exec (.trap h a) s = .next (takeTrap n ⟨0, 0x18, v, 0, 0, c.pc, false⟩ (ccDone n h s))
    ∧ exec (.brk h a) s = .next (takeTrap n ⟨0, 0x19, v, 0, 0, c.pc, false⟩ s)

/-- What a trap writes to the save area (Table 15-5): the image of the cluster; a fault that is taken is no longer one that its engine has
still to tell. -/
def Sys2Proof.trapImage (n : Nat) (p : Pending) (stop : Nat) (s : State) : List Byte :=
  let a := match eidOf p.src with
    | some e => (s.ac n).setEng e { (s.ac n).eng e with untold := false }
    | none => s.ac n
  wordBytes (a.frame stop (a.headWords p (s.ac n).estop))

/-- R442, R440: entering a trap, once the engines have settled and the save area can be written: the PC, the cause with PIE, and the four
information words are in the trap registers, H = 1, IE = 0, the PC is TVEC, every engine is IDLE with an empty queue, the token FIFOs and the
return queue are empty, and both loop levels are inactive; s registers, predicates, guard slots and every other system register keep
their values, and outside the cluster nothing changes but what writing the save area changes. -/
def Sys2Proof.ruleTrapEntered : Prop :=
  ∀ (n : Nat) (p : Pending) (stop : Nat) (s s2 : State), p.defer = false → p.cause < 256 → p.src < 8 →
    (s.ac n).cc.sr 0x026 ≠ 0 →
    writeReleased (.ac n 0) .ac ((s.ac n).cc.sr 0x027) (trapImage n p stop s) s = .ok () s2 →
    let t := enterTrap n p stop s
    let c := (s.ac n).cc
    let d := (t.ac n).cc
    d.sr 0x020 = addr55 c.pc ∧ bits (d.sr 0x021) 0 8 = p.cause ∧ bits (d.sr 0x021) 52 3 = p.src
      ∧ (d.sr 0x021).getLsbD 61 = c.ie
      ∧ d.sr 0x022 = p.i0 ∧ d.sr 0x023 = p.i1 ∧ d.sr 0x024 = p.i2 ∧ d.sr 0x025 = p.i3 ∧ d.sr 0x02A = (s.ac n).estop
      ∧ d.h = true ∧ d.ie = false ∧ d.la0 = false ∧ d.la1 = false ∧ d.pc = c.sr 0x026
      ∧ (∀ e, ((t.ac n).eng e).st = 0 ∧ ((t.ac n).eng e).q = []) ∧ (t.ac n).ln.tok = [] ∧ (t.ac n).ln.retq = []
      ∧ SRegsBut [] c d ∧ PredsBut [] c d ∧ d.greg = c.greg
      ∧ (∀ k, k ∉ [0x020, 0x021, 0x022, 0x023, 0x024, 0x025, 0x02A] → d.sr k = c.sr k)
      ∧ t = s2.setAc n (t.ac n)

/-- R442, R450: a trap lets the engines settle and then is entered, unless a command of AX still waits for the power cap, which it lets complete first.
One that cannot be entered ends the task: TVEC = 0, a save area that an access fault refuses, or a fault of the CC in a handler; the launch is
cancelled with ENTRY 0x103. One whose save area does not translate waits for replay, and one that an access fault refuses while the ring is full for
the ring (R59). -/
def Sys2Proof.ruleFatalTrap : Prop :=
  ∀ (n : Nat) (p : Pending) (stop : Nat) (s : State), p.defer = false →
    ((s.ac n).cc.sr 0x026 = 0 → enterTrap n p stop s = endFatal n 0x103 s)
    ∧ (∀ w0 w1 va s2, (s.ac n).cc.sr 0x026 ≠ 0 →
        writeReleased (.ac n 0) .ac ((s.ac n).cc.sr 0x027) (trapImage n p stop s) s = .error (.access w0 w1 va) s2 →
        (s2.ringFull (recordDie (.ac n 0) w0) = false → enterTrap n p stop s = endFatal n 0x103 (s2.addAccessRecord (.ac n 0) w0 w1 va))
        ∧ (s2.ringFull (recordDie (.ac n 0) w0) = true →
            ((enterTrap n p stop s).ac n).cc.entry = some (p, stop, true) ∧ SameMemory s2 (enterTrap n p stop s)))
    ∧ (∀ d k kd va lv epa ent s2, (s.ac n).cc.sr 0x026 ≠ 0 →
        writeReleased (.ac n 0) .ac ((s.ac n).cc.sr 0x027) (trapImage n p stop s) s = .error (.xlate d k kd va lv epa ent) s2 →
        ((enterTrap n p stop s).ac n).cc.entry = some (p, stop, true) ∧ ((enterTrap n p stop s).ac n).cc.xl = some (s2.die d).frTok)
    ∧ (∀ c i0 i1,
        let q : Pending := ⟨0, c, i0, i1, 0, (s.ac n).cc.pc, false⟩
        let st := (s.ac n).vec.lastTurn s.cycle
        let s1 := settleUnits n st (dropWaits n (s.modCC n (consume q)))
        ((s1.ac n).powerHeld = true → ((syncTrap n c i0 i1 s).ac n).cc.entry = some (q, st, false))
        ∧ ((s1.ac n).powerHeld = false → (s1.ac n).cc.h = true → c ≠ 0x20 → c ≠ 0x21 → syncTrap n c i0 i1 s = endFatal n 0x103 s1)
        ∧ ((s1.ac n).powerHeld = false → (s1.ac n).cc.h = false → syncTrap n c i0 i1 s = enterTrap n q st (settleAx n s1)))

/-- R442, R440, R450: taking a trap, and the traps that cannot be entered. The model's choices in it: log entries 9 and 68. -/
def Obligations.TrapEntered : Prop := ruleTrapEntered ∧ ruleFatalTrap

/-- R319, R445, R446: RFT in a handler, with the engines drained and an image that keeps every rule of R445 in the save area: when no
deferred fault is held, the s registers, IE and H are those of the frame (H = 0, IE = PIE), the guard slots are those of word 8, the PC is
TRAPPC as it stands, and the engines take up where their blocks say. Outside a handler RFT is illegal with code 8. -/
def Sys2Proof.ruleTrapReturn : Prop :=
  ∀ (n : Nat) (s : State) (h : Head), s.cur = .ac n 0 →
    ((s.ac n).cc.h = false → exec (.rft h) s = .next (syncTrap n 0x01 8 (word0 (.rft h)) s))
    ∧ ((s.ac n).cc.h = true → (s.ac n).cc.enabled h = true → (s.ac n).drained = true →
      ∀ b s2, readAcquired (.ac n 0) .ac ((s.ac n).cc.sr 0x027) 0x14000 8 s = .ok b s2 → imageOk (s.ac n) (words64 b) = true →
      (∀ e, ((s.ac n).eng e).st ≠ 3) → (∀ e, ((words64 b).getD (128 + 32 * (eidCode e - 1)) 0).getLsbD 61 = false) →
      let w := words64 b
      ∃ t, exec (.rft h) s = .next t
        ∧ (t.ac n).cc.h = false ∧ (t.ac n).cc.ie = (w.getD 65 0).getLsbD 61
        ∧ (t.ac n).cc.pc = (s.ac n).cc.sr 0x020
        ∧ (∀ r : BitVec 6, r ≠ 0 → (t.ac n).cc.s r = w.getD r.toNat 0)
        ∧ (∀ r : BitVec 4, r ≠ 0 → (t.ac n).cc.p r = (w.getD 71 0).getLsbD r.toNat)
        ∧ (t.ac n).cc.greg = frameGuards (w.getD 72 0)
        ∧ (∀ e, (((t.ac n).eng e).upc = BitVec.ofNat 64 (bits (w.getD (128 + 32 * (eidCode e - 1)) 0) 0 55)))
        ∧ t.mem = s2.mem)

/-- R318, R319, R303, R445, R446: TRAP, BRK and RFT. The model's choices in it: log entries 29 and 30. -/
def Obligations.TrapInstructions : Prop := ruleSoftwareTrap ∧ ruleTrapReturn

/-! ### Launches and the end of a task -/

/-- The cluster has drained for the end of its task (R248): every engine is IDLE with an empty queue, no command of AX waits for the power cap, and
no guard write is under way. -/
def Sys2Proof.Drained (n : Nat) (s : State) : Prop :=
  (∀ e, ((s.ac n).eng e).idle = true ∧ ((s.ac n).eng e).q = []) ∧ (s.ac n).powerHeld = false ∧ (s.ac n).ln.gw = []

/-- What a release of agents of a quad's clusters covers has been performed (R141, R166): none of its writes waits for atomics at its home (R132),
and at .pkg or .fab the ports have confirmed what went to the hosts. -/
def Sys2Proof.Settled (n : Nat) (sc : Scope) (s : State) : Prop := s.settled sc (shares .quad (.ac n 0)) = true

/-- A release of every agent of the cluster at a scope, and that it is complete. -/
def Sys2Proof.Released (n : Nat) (sc : Scope) (s s1 : State) : Prop := s1 = releaseAll n sc s ∧ Settled n sc s1

/-- R248, R311, R218: HALT of a drained task releases at the SCOPE of its innermost AC level and ends the task: the cluster has no task,
its token FIFOs and return queue are empty, and the task counts as ended in its launch. In a handler the launch is cancelled with ENTRY 0x100
as well. While an engine is busy the CC waits in it. -/
def Sys2Proof.ruleTaskEnds : Prop :=
  ∀ (n : Nat) (s s1 : State) (h : Head) (tk : Task), CcActs n h s → (s.ac n).cc.task = some tk →
    (Drained n s → Released n (lrEndScope tk.lrec) s s1 →
      ((s.ac n).cc.h = false → ∃ t, exec (.halt h) s = .next t ∧ (t.ac n).cc.task = none ∧ (t.ac n).ln.tok = [] ∧ (t.ac n).ln.retq = []
        ∧ t.mem = s1.mem ∧ t.hist = s1.hist
        ∧ ((s1.lent tk.die tk.ent).launch = tk.launch → (s1.lent tk.die tk.ent).st ≠ 0 →
            (t.lent tk.die tk.ent).done = (s1.lent tk.die tk.ent).done + 1
            ∧ (lrTasks (s1.lent tk.die tk.ent).lrec ≤ (s1.lent tk.die tk.ent).epDone + 1 → ∀ k, ∀ w ∈ (t.die k).walkers, w.2.launch = tk.launch → w.2.next < w.2.stop)))
      ∧ ((s.ac n).cc.h = true → ∃ t, exec (.halt h) s = .next t
        ∧ t = (endFatal n 0x100 s1).modCC n fun c => { c with wait := none }))
    ∧ ((∃ e, ((s.ac n).eng e).idle = false) → ∃ t, exec (.halt h) s = .next t ∧ CcWaits n (.halt h) s t)

/-- R249, R311: NEXT of a drained task releases, and then goes on behind itself with a new coordinate of its launch, its registers kept and its
token FIFOs emptied, where the decision finds one; where it finds none it ends the task. In a handler it is illegal with code 8. -/
def Sys2Proof.ruleNextCoordinate : Prop :=
  ∀ (n : Nat) (s s1 : State) (h : Head) (tk : Task), s.cur = .ac n 0 → (s.ac n).cc.task = some tk →
    ((s.ac n).cc.h = true → exec (.next h) s = .next (syncTrap n 0x01 8 (word0 (.next h)) s))
    ∧ ((s.ac n).cc.h = false → (s.ac n).cc.enabled h = true → Drained n s → Released n (lrEndScope tk.lrec) s s1 →
      (nextChoice n tk s1 = none → exec (.next h) s = .next ((s1.taskEnd n).modCC n fun c => { c with wait := none }))
      ∧ (∀ lin p s2, nextChoice n tk s1 = some (lin, p, s2) → exec (.next h) s = .next (ccDone n h (nextTask n tk lin p s2))))

/-- R248, R249, R311, R218, R242: HALT and NEXT; with the last task of an epoch the exhausted walkers of the launch are freed. The model's choices in it: log entry 68, and that NEXT empties the
token FIFOs is log entry 27's. -/
def Obligations.TaskEnds : Prop := ruleTaskEnds ∧ ruleNextCoordinate

/-- R310, R425: LAUNCH of an aligned record, with the issue permission on the slot table and room in the launch queue, releases at .pkg, queues the
record under the next instance number of the die, and puts that number into sD; a misaligned record is an illegal operand, and in a
handler LAUNCH is illegal with code 8. -/
def Sys2Proof.ruleLaunchQueued : Prop :=
  ∀ (n : Nat) (s s1 : State) (h : Head) (d : BitVec 6) (a : Src), s.cur = .ac n 0 →
    let v := (s.ac n).cc.src a
    let num := dieOf n * 2 ^ 30 + (s.die (dieOf n)).lseq % 2 ^ 30
    ((s.ac n).cc.h = true → exec (.launch h d a) s = .next (syncTrap n 0x01 8 (word0 (.launch h d a)) s))
    ∧ ((s.ac n).cc.h = false → (s.ac n).cc.enabled h = true →
      (v.toNat < 2 ^ 55 → v.toNat % 256 ≠ 0 → exec (.launch h d a) s = .next (syncTrap n 0x02 v 0 s))
      ∧ (v.toNat < 2 ^ 55 → v.toNat % 256 = 0 →
        checkGranule s (.ac n 0) .issue (0x30000000000 + dieOf n * 0x1000000 + 0x20000) 8 = none →
        (s.die (dieOf n)).launchQ.length < 64 → s1 = release (.ac n 0) .pkg s → Settled n .pkg s1 →
        exec (.launch h d a) s = .next (ccDone n h
          ((s1.modDie (dieOf n) fun x => { x with launchQ := x.launchQ ++ [⟨v, num, 0⟩], lseq := x.lseq + 1 }).modCC n fun c =>
            c.setS d (BitVec.ofNat 64 num)))))

/-- R312: COORD puts the field it names of the task's coordinates into sD: the value of a level, its START, EXTENT or STEP, the linear index, the
epoch, the launch instance or the number of levels. A level that the launch does not have is an illegal operand, and so is a coordinate in a
resumed task. -/
def Sys2Proof.ruleCoordinates : Prop :=
  ∀ (n : Nat) (s : State) (h : Head) (f : BitVec 3) (d : BitVec 6) (a : Src) (tk : Task), CcActs n h s →
    (s.ac n).cc.task = some tk →
    let v := (s.ac n).cc.src a
    let bad := ((s.ac n).cc.resumed = true ∧ (f = 0 ∨ f = 4 ∨ f = 5)) ∨ (f.toNat < 4 ∧ lrNlev tk.lrec ≤ v.toNat)
    (bad → exec (.coord h f d a) s = .next (syncTrap n 0x02 v 0 s))
    ∧ (¬bad → ∃ t, exec (.coord h f d a) s = .next t ∧ CcFrame n [d] [] [] s t ∧ (d ≠ 0 → (t.ac n).cc.s d = match f.toNat with
        | 0 => levelValue tk.lrec tk.lin tk.epoch v.toNat
        | 1 => BitVec.ofInt 64 (lrLevel tk.lrec v.toNat).start
        | 2 => BitVec.ofNat 64 (lrLevel tk.lrec v.toNat).extent
        | 3 => BitVec.ofInt 64 (lrLevel tk.lrec v.toNat).step
        | 4 => BitVec.ofNat 64 tk.lin
        | 5 => BitVec.ofNat 64 tk.epoch
        | 6 => BitVec.ofNat 64 tk.launch
        | _ => BitVec.ofNat 64 (lrNlev tk.lrec)))

/-- R310, R312, R425: LAUNCH and COORD. The model's choices in it: log entry 24. -/
def Obligations.LaunchAndCoord : Prop := ruleLaunchQueued ∧ ruleCoordinates

/-- R252, R313, R314: SUSPEND and YIELD of a drained task write the continuation record, with the registers that the mask names, release at the scope
of the domain, and leave the cluster idle with the continuation tracked; YIELD's is ready at once. -/
def Obligations.TaskSuspends : Prop :=
  ∀ (n : Nat) (s s1 s2 s3 : State) (h : Head) (a c : BitVec 6) (b : Src) (tk : Task) (ps : List (Nat × Nat × BitVec 2)),
    CcActs n h s → (s.ac n).cc.h = false → (s.ac n).cc.task = some tk → Drained n s →
    let x := (s.ac n).cc
    let va := x.s a
    let ctl := x.src b
    let mask := x.s c
    va.toNat % 256 = 0 → va.toNat < 2 ^ 55 → (maskRegs mask).length ≤ 16 → (s.die (dieOf n)).conts.length < 4096 →
    (lrPersist tk.lrec = true → bits ctl 0 2 = 3) → reach (.ac n 0) .write va.toNat 256 s = .ok ps s1 →
    (s1.die (dieOf n)).conts = (s.die (dieOf n)).conts → Drained n s1 →
    Released n (domainScope (bits ctl 0 2)) s1 s2 →
    ∀ (yields : Bool),
    let i := if yields then Instr.yield h a b c else .suspend h a b c
    let wk := if yields then 0 else bits ctl 2 3
    let cx := if yields then 0 else bits ctl 5 2
    let k : Cont := ⟨va, tk.launch, bits ctl 0 2, n, lrPrio tk.lrec, wk, cx, if yields then 0 else x.s (c + 1),
      if yields then 0 else x.s (c + 2), if yields then 0 else x.s (c + 3), decide (wk = 0), s.cycle⟩
    (if yields then ctl.toNat < 4 else ctl.toNat < 128 ∧ wk < 4 ∧ cx ≠ 3) →
    writeReleased (.ac n 0) .pkg va (wordBytes (contWords k (if wk = 0 then 2 else 1) mask (addr55 (x.pc + Head.size h))
      ((maskRegs mask).map fun r => x.s (BitVec.ofNat 6 r)))) s2 = .ok () s3 →
    ∃ t, exec i s = .next t ∧ (t.ac n).cc.task = none ∧ (t.ac n).ln.tok = [] ∧ (t.ac n).ln.retq = []
      ∧ (t.die (dieOf n)).conts = (s3.die (dieOf n)).conts ++ [k] ∧ t.mem = s3.mem ∧ t.hist = s3.hist

/-- R320, R303: SEV sets the event flag of every control core in the instance of its scope that holds the cluster, and of no other; WFE clears
the flag when it is set, and the CC waits in it while it is clear. -/
def Sys2Proof.ruleEventFlag : Prop :=
  ∀ (n : Nat) (s : State) (h : Head), CcActs n h s →
    (∀ sc, (sc = .ac ∨ sc = .quad ∨ sc = .die) → ∃ t, exec (.sev h sc) s = .next t
      ∧ (∀ m, (t.ac m).cc.evt = (if (sc = .ac ∧ m = n) ∨ (sc = .quad ∧ m / 4 = n / 4) ∨ (sc = .die ∧ m / 64 = n / 64) then true
          else (s.ac m).cc.evt))
      ∧ (∀ m, m ≠ n → t.ac m = { s.ac m with cc := { (s.ac m).cc with evt := (t.ac m).cc.evt } })
      ∧ t.ac n = { s.ac n with cc := { ((s.ac n).cc.retire h .seq) with evt := true } } ∧ SameMemory s t ∧ t.dies = s.dies)
    ∧ ((s.ac n).cc.evt = true → ∃ t, CcEnds n (.wfe h) (.wfeWake n) s t ∧ OnlyCc n s t
      ∧ (t.ac n).cc = { ((s.ac n).cc.retire h .seq) with evt := false })
    ∧ ((s.ac n).cc.evt = false → ∃ t, exec (.wfe h) s = .next t ∧ CcWaits n (.wfe h) s t)

/-- R305, R320, R229, R303: guard slots, and the event flag. -/
def Obligations.GuardsAndEvents : Prop := ruleGuardWritten ∧ ruleEventFlag

/-! ### Engines: how an instruction issues and retires -/

/-- Engine e of cluster n acts on an instruction whose stage predicate is true and whose k tokens are there: s1 is the state once it has
taken them (R156, R271). -/
def Sys2Proof.EngActs (n : Nat) (e : Eid) (h : Head) (k : Nat) (s s1 : State) : Prop :=
  s.cur = engAgent n e ∧ stageOff h (s.ac n) = false
    ∧ (if Head.take h = 0 then s1 = s else takeUpTo n e (Head.take h) k (k + 1) s = (s1, true))

/-- On AX, an instruction that gives waits for the array commands before it (R396). -/
def Sys2Proof.GiveFree (n : Nat) (e : Eid) (h : Head) (s : State) : Prop :=
  e = .ax → Head.give h ≠ 0 → (s.ac n).axq = []

/-- The state after an engine instruction that takes no branch: it retires and gives k tokens (R355, R156). -/
def Sys2Proof.engDone (n : Nat) (e : Eid) (h : Head) (k : Nat) (s : State) : State :=
  engGive n e (Head.give h) k (engRetire n e h .seq s)

/-- Unit u of cluster n, its CC (0) or an engine by its code, acts: s1 is the state in which its effect begins. -/
def Sys2Proof.UnitActs (n u : Nat) (h : Head) (s s1 : State) : Prop :=
  (u = 0 ∧ CcActs n h s ∧ s1 = s) ∨ ∃ e, u = eidCode e ∧ EngActs n e h 1 s s1 ∧ GiveFree n e h s

/-- The state after an instruction of unit u that takes no branch. -/
def Sys2Proof.unitDone (n u : Nat) (h : Head) (s : State) : State :=
  match eidOf u with
  | some e => engDone n e h 1 s
  | none => ccDone n h s

/-- The fault of unit u at an instruction: the CC traps, an engine stops (R273, R351). -/
def Sys2Proof.unitFault (n u cause : Nat) (i0 i1 : W64) (s : State) : State :=
  match eidOf u with
  | some e => engFault n e cause i0 i1 s
  | none => syncTrap n cause i0 i1 s

/-! ### Loads and stores -/

/-- R324, R325, R323, R152: LD reads its 1, 2, 4 or 8 bytes at [a + b], in one unit when they are aligned, and puts them into its register,
sign-extended or, with W bit 2, zero-extended. A range of which a byte lies at 2^55 or above is the address-range fault. The model's choices in it: log
entries 6, 84 and 115. -/
def Obligations.LoadResult : Prop :=
  ∀ (n u : Nat) (s s1 s2 s3 : State) (h : Head) (w : BitVec 3) (d a : BitVec 6) (b : Src)
    (ps : List (Nat × Nat × BitVec 2)) (bytes : List Byte),
    UnitActs n u h s s1 → s1.ureg n u a + s1.usrc n u b = s.ureg n u a + s.usrc n u b →
    let va := s.ureg n u a + s.usrc n u b
    let k := 2 ^ (w.toNat % 4)
    (va.toNat < 2 ^ 55 → reach (.ac n u) .read va.toNat k s1 = .ok ps s2 →
      readPieces (.ac n u) (if va.toNat % k = 0 then k else 1) ps s2 = .ok bytes s3 → bytes.length = k →
      exec (.ld h w d a b) s = .next (unitDone n u h (s3.setUreg n u d
        (if w.toNat < 4 then BitVec.ofInt 64 (BitVec.ofNat (8 * k) (leNat bytes)).toInt else BitVec.ofNat 64 (leNat bytes)))))
    ∧ (va.toNat < 2 ^ 55 → 2 ^ 55 < va.toNat + k → exec (.ld h w d a b) s = .next (unitFault n u 0x03 va 0 s1))
    ∧ (2 ^ 55 ≤ va.toNat → exec (.ld h w d a b) s = .next (unitFault n u 0x03 va 0 s))

/-- R324, R325, R145, R323: ST makes an ordinary store of the low bytes of its register at [a + b]: once the range has translated and every piece is
permitted, its bytes join the unreleased stores of its agent, piece by piece; memory itself holds what it held. A range of which a byte lies at 2^55 or
above is the address-range fault. The model's choices in it: log entries 84 and 115. -/
def Obligations.StoreJoins : Prop :=
  ∀ (n u : Nat) (s s1 s2 : State) (h : Head) (w : BitVec 2) (a : BitVec 6) (b : Src) (c : BitVec 6)
    (ps : List (Nat × Nat × BitVec 2)),
    UnitActs n u h s s1 → s1.ureg n u a + s1.usrc n u b = s.ureg n u a + s.usrc n u b →
    let va := s.ureg n u a + s.usrc n u b
    let bytes := leBytes (2 ^ w.toNat) (s1.ureg n u c).toNat
    let own := (Agent.ac n u).die
    (va.toNat < 2 ^ 55 → reach (.ac n u) .write va.toNat bytes.length s1 = .ok ps s2 →
      (∀ p ∈ ps, mmioOf own p.1 = none) →
      ∃ t, exec (.st h w a b c) s = .next (unitDone n u h t) ∧ t.mem = s2.mem ∧ t.hist = s2.hist ∧ t.acs = s2.acs ∧ t.dies = s2.dies
        ∧ (t.agent (.ac n u)).pend = (s2.agent (.ac n u)).pend ++ pieceWrites own (s2.opTag (.ac n u)) va.toNat ps bytes
        ∧ ∀ x, x.key ≠ (Agent.ac n u).key → t.agent x = s2.agent x)
    ∧ (va.toNat < 2 ^ 55 → 2 ^ 55 < va.toNat + bytes.length → exec (.st h w a b c) s = .next (unitFault n u 0x03 va 0 s1))
    ∧ (2 ^ 55 ≤ va.toNat → exec (.st h w a b c) s = .next (unitFault n u 0x03 va 0 s))

/-- The release that an ordering suffix asks for before an access (Table 5-1). -/
def Sys2Proof.pre (m : MCtl) (a : Agent) (s : State) : State := if m.ord.getLsbD 1 then release a m.scope s else s

/-- That release is complete (R141). -/
def Sys2Proof.PreDone (m : MCtl) (a : Agent) (s : State) : Prop :=
  m.ord.getLsbD 1 = true → (release a m.scope s).settled m.scope (shares .quad a) = true

/-- The acquire that it asks for after the access. -/
def Sys2Proof.post (m : MCtl) (a : Agent) (s : State) : State := if m.ord.getLsbD 0 then acquire a m.scope s else s

/-- R325, R147, R148, R143: LDS and STS of an aligned location outside MMIO: one access at the coherence point of its scope, with the acquire of .acq
after the load and the release of .rel before the store. A misaligned address is the alignment fault. The model's choices in it: log entries 7, 36 and 84. -/
def Obligations.StrongAccess : Prop :=
  ∀ (n u : Nat) (s s1 s2 : State) (h : Head) (m : MCtl) (d a : BitVec 6) (b : Src) (pa k : Nat) (at' : BitVec 2)
    (r : List (Nat × Nat × BitVec 2)) (kind : AKind),
    UnitActs n u h s s1 → s1.ureg n u a + s1.usrc n u b = s.ureg n u a + s.usrc n u b →
    let va := s.ureg n u a + s.usrc n u b
    let ag := Agent.ac n u
    va.toNat < 2 ^ 55 →
    (∀ w : BitVec 3, va.toNat % 2 ^ (w.toNat % 4) ≠ 0 →
      exec (.lds h w m d a b) s = .next (unitFault n u 0x04 va 0 s))
    ∧ (∀ w : BitVec 2, va.toNat % 2 ^ w.toNat ≠ 0 → exec (.sts h w m a b d) s = .next (unitFault n u 0x04 va 0 s))
    ∧ (reach ag kind va.toNat k s1 = .ok ((pa, k, at') :: r) s2 → mmioOf ag.die pa = none → va.toNat % k = 0 →
      (kind = .read → ∀ w : BitVec 3, k = 2 ^ (w.toNat % 4) →
        ∃ v s3, strongLoad ag m.scope (cacheable ag.die pa at') (canonPa ag.die pa) k s2 = (v, s3)
          ∧ exec (.lds h w m d a b) s = .next (unitDone n u h (post m ag (s3.setUreg n u d (extendW w v)))))
      ∧ (kind = .write → ∀ w : BitVec 2, k = 2 ^ w.toNat →
        PreDone m ag s2 →
        exec (.sts h w m a b d) s = .next (unitDone n u h (strongStore ag m.scope (cacheable ag.die pa at') (canonPa ag.die pa)
          (leBytes k (s1.ureg n u d).toNat) (pre m ag s2)))))

/-- The new value of AMO on w-bit words (R326), on numbers. -/
def Sys2Proof.amoResult {w : Nat} (op : AmoOp) (old v : BitVec w) : BitVec w :=
  match op with
  | .add => BitVec.ofNat w (old.toNat + v.toNat)
  | .and => old &&& v
  | .or => old ||| v
  | .xor => old ^^^ v
  | .swap => v
  | .min => BitVec.ofInt w (Min.min old.toInt v.toInt)
  | .max => BitVec.ofInt w (Max.max old.toInt v.toInt)
  | .minu => BitVec.ofNat w (Min.min old.toNat v.toNat)
  | .maxu => BitVec.ofNat w (Max.max old.toNat v.toNat)

/-- R326, R327, R149: AMO and CAS of 8 aligned bytes outside MMIO read and write them with nothing between; the old value goes to the register, and
a CAS whose comparison fails writes nothing. The model's choices in it: log entries 7 and 84. -/
def Obligations.AtomicResult : Prop :=
  ∀ (n u : Nat) (s s1 s2 : State) (h : Head) (m : MCtl) (d a b : BitVec 6) (pa : Nat) (at' : BitVec 2)
    (r : List (Nat × Nat × BitVec 2)),
    UnitActs n u h s s1 → s1.ureg n u a = s.ureg n u a →
    let va := s.ureg n u a
    let k := if m.wide then 8 else 4
    let ag := Agent.ac n u
    let v := s1.ureg n u b
    let cmp := s1.ureg n u d
    let at1 (f : List Byte → Option (List Byte)) := atomic ag m.scope (cacheable ag.die pa at') (canonPa ag.die pa) k f (pre m ag s2)
    va.toNat < 2 ^ 55 →
    (va.toNat % k ≠ 0 → ∀ op, exec (.amo h op m d a b) s = .next (unitFault n u 0x04 va 0 s)
      ∧ exec (.cas h m d a b) s = .next (unitFault n u 0x04 va 0 s))
    ∧ (va.toNat % k = 0 → reach ag .atomic va.toNat k s1 = .ok ((pa, k, at') :: r) s2 → mmioOf ag.die pa = none →
      PreDone m ag s2 →
      (∀ op old s3, at1 (fun o => some (if m.wide then leBytes 8 (amoResult op (BitVec.ofNat 64 (leNat o)) v).toNat
            else leBytes 4 (amoResult op (BitVec.ofNat 32 (leNat o)) (v.setWidth 32)).toNat)) = (old, s3) →
        old.length = k →
        exec (.amo h op m d a b) s = .next (unitDone n u h (post m ag (s3.setUreg n u d (extendW 0 old)))))
      ∧ (∀ old s3, at1 (fun o => if leNat o = cmp.toNat % 2 ^ (8 * k) then some (leBytes k v.toNat) else none) = (old, s3) →
        old.length = k →
        exec (.cas h m d a b) s = .next (unitDone n u h (post m ag (s3.setUreg n u d (extendW 0 old))))))

/-! ### Phase consistency -/

/-- R140, R152: what an ordinary load of a range may return: each byte is the agent's own newest unreleased byte if there is one, and otherwise the
byte of a write of that location that is in the agent's view, was returned by a load of it before, or may reach it (its own, or released) at a place
that the load reaches, and than which none of those that bind the agent is newer. -/
def Sys2Proof.ruleLoadEligible : Prop :=
  ∀ (a : Agent) (k n u : Nat) (s : State), 0 < u →
    let r := loadRange a none k n u s
    r.1.length = n ∧ ∀ i, i < n →
      (∀ b, pendByte (s.agent a).pend (k + i) = some b → r.1[i]? = some b)
      ∧ (pendByte (s.agent a).pend (k + i) = none →
        let binds := fun (v : Version) => v.id = smGet 0 (s.agent a).view (k + i) ∨ v.id = smGet 0 (s.agent a).seen (k + i) ∨ v.id = 0
        let may := fun (v : Version) => binds v ∨ ((v.rels ≠ [] ∨ v.by' = some a ∨ v.by' = none)
          ∧ (v.present .home = true ∨ v.present (s.place a .ac true (k + i)) = true))
        (∃ v ∈ s.versions (k + i), may v) →
          ∃ newer v older, s.versions (k + i) = newer ++ v :: older ∧ may v ∧ (∀ w ∈ newer, ¬binds w) ∧ r.1[i]? = some v.byte)

/-- R139, R9: a write performed at its point above all others: every byte of its range reads as written, in its agent's view, and every byte
outside the range reads as before, with the same writes in order; the memory keeps its one form. -/
def Sys2Proof.ruleWritePerformed : Prop :=
  ∀ (a : Agent) (pl : Place) (rels : List (Agent × Scope)) (strong : Bool) (tag : OpTag) (k : Nat) (bytes : List Byte) (s : State),
    let t := performRaw a pl rels strong tag onTop k bytes s
    (∀ i (hi : i < bytes.length), memByte t (k + i) = bytes[i] ∧ smGet 0 (t.agent a).view (k + i) = s.wid + 1)
    ∧ (∀ j, j < k ∨ k + bytes.length ≤ j → memByte t j = memByte s j ∧ smFind t.hist j = smFind s.hist j)
    ∧ (MemoryOk s → MemoryOk t)

/-- R139, R140, R152, R9: what a load may return, and what a write that is performed leaves. The model's choices in it: log entries 5 and 6. -/
def Obligations.MemoryViews : Prop := ruleLoadEligible ∧ ruleWritePerformed

/-- What the memory keeps: its one form, the writes of locations in the order of their addresses, and every agent's view in that order. -/
def Sys2Proof.MemoryInv (s : State) : Prop :=
  MemoryOk s ∧ smSorted 0 s.hist = true ∧ ∀ a : Agent, smSorted 0 (s.agent a).view = true

/-- The memory's invariant holds after reset, and every operation that writes, releases or acquires keeps it. The model's choices in it: log entry 3. -/
def Obligations.MemoryKept : Prop :=
  MemoryInv State.reset ∧ ∀ (a : Agent) (sc : Scope) (s : State), MemoryInv s →
    MemoryInv (release a sc s) ∧ MemoryInv (acquire a sc s) ∧ MemoryInv (fence a sc s)
      ∧ (∀ pl rels strong tag below k bytes, MemoryInv (performRaw a pl rels strong tag below k bytes s))
      ∧ (∀ l1 va k bytes, MemoryInv (plainStore a l1 va k bytes s) ∧ MemoryInv (strongStore a sc l1 k bytes s))
      ∧ (∀ l1 k n f, MemoryInv (atomic a sc l1 k n f s).2) ∧ (∀ pt k n u, MemoryInv (loadRange a pt k n u s).2)

/-- R141, R142, R140: message passing, at every scope: a write that an agent has in its view and releases, and that is the newest of its location, is
in the view of every agent that shares the scope with it once that agent has acquired at it; so is the newest of the agent's own stores to a byte that
it had not released. The release is complete: no plain store waits at its home for atomics (R132). The model's choices in it: log entry 7. -/
def Obligations.ReleaseAcquire : Prop :=
  ∀ (a b : Agent) (sc : Scope) (k : Nat) (s : State), MemoryInv s → shares sc a b = true →
    (release a sc s).queued (fun _ => true) = false →
    let t := acquire b sc (release a sc s)
    (∀ v r, pendByte (s.agent a).pend k = none → smFind s.hist k = some (v :: r) → v.id ≠ 0 → smGet 0 (s.agent a).view k = v.id →
      smGet 0 (t.agent b).view k = v.id)
    ∧ (∀ x, pendByte (s.agent a).pend k = some x →
      ∃ v r, smFind t.hist k = some (v :: r) ∧ v.byte = x ∧ smGet 0 (t.agent b).view k = v.id)

/-! ### Phases, fences, cache maintenance and timelines -/

/-- R328, R150, R151, R329, R330, R323, Table 2-10: PHASE acquires and releases at its scope as its ordering names, and on AX it and FENCE wait until
the array commands before them have left; FENCE performs the strong writes of its agent at their points for its scope, which changes no byte and no
unreleased store; PREF changes nothing. CLEAN and INVAL of a range below 2^40 bytes complete and change no byte of memory and nothing that an agent of a
cluster holds, where no line of the quad's L1s holds unreleased bytes and the walker has none; an address of 2^55 or above is the address-range fault, and a longer range an
illegal operand. -/
def Sys2Proof.ruleMaintenance : Prop :=
  ∀ (n u : Nat) (s s1 : State) (h : Head), UnitActs n u h s s1 →
    (∀ m : MCtl, (u = 5 → (s1.ac n).axq = []) →
      PreDone m (.ac n u) s1 →
      exec (.phase h m) s = .next (unitDone n u h (post m (.ac n u) (pre m (.ac n u) s1))))
    ∧ (∀ m, u = 5 → (s1.ac n).axq ≠ [] → exec (.phase h m) s = .next (engStop n .ax (.phase h m) .wait s1))
    ∧ (∀ sc, (u = 5 → (s1.ac n).axq = []) → exec (.fence h sc) s = .next (unitDone n u h (fence (.ac n u) sc s1))
        ∧ (fence (.ac n u) sc s1).mem = s1.mem ∧ (fence (.ac n u) sc s1).acs = s1.acs
        ∧ ∀ x : Agent, ((fence (.ac n u) sc s1).agent x).pend = (s1.agent x).pend ∧ ((fence (.ac n u) sc s1).agent x).view = (s1.agent x).view)
    ∧ (∀ l2 a b, exec (.pref h l2 a b) s = .next (unitDone n u h s1))
    ∧ (∀ (l2 : Bool) (a : BitVec 6) (b : Src), s1.ureg n u a = s.ureg n u a → s1.usrc n u b = s.usrc n u b →
      ∀ i, (i = .clean h l2 a b ∨ i = .inval h l2 a b) →
      ((s.ureg n u a).toNat < 2 ^ 55 → (s.usrc n u b).toNat < 2 ^ 40 → 
        (∀ m v, m / 4 = n / 4 → v < 9 → ∀ w ∈ (s1.agent (.ac m v)).pend, w.l1 = false) → (s1.agent (.disp (dieOf n))).pend = [] → dieOf n < 4 →
        ∃ t, exec i s = .next (unitDone n u h t) ∧ t.mem = s1.mem ∧ t.parked = s1.parked ∧ t.acs = s1.acs
          ∧ ∀ m v, m < 256 → v < 9 → t.agent (.ac m v) = s1.agent (.ac m v))
      ∧ (2 ^ 55 ≤ (s.ureg n u a).toNat → exec i s = .next (unitFault n u 0x03 (s.ureg n u a) 0 s))
      ∧ ((s.ureg n u a).toNat < 2 ^ 55 → 2 ^ 40 ≤ (s.usrc n u b).toNat →
        exec i s = .next (unitFault n u 0x02 (s.usrc n u b) 0 s)))

/-- R331, R153, R155: TLREAD puts a counter's newest number, or with V the newest it shows, into sD. TLWAIT passes once the counter shows its value:
then the writes of the counter's operations numbered up to the value are released at a scope wider than theirs, and the CC acquires at it; it waits until then, and a
value that the counter has not issued is an illegal operand. -/
def Sys2Proof.ruleTimelines : Prop :=
  ∀ (n : Nat) (s : State) (h : Head), CcActs n h s →
    (∀ issue d ctx, ∃ t, exec (.tlread h issue d ctx) s = .next t ∧ CcFrame n [d] [] [] s t ∧ (d ≠ 0 → (t.ac n).cc.s d
      = BitVec.ofNat 64 (if issue then (s.ac n).ln.issueCount ctx.toNat else (s.ac n).ln.shown ctx.toNat)))
    ∧ (∀ (sc : Scope) (ctx : BitVec 3) (b : Src),
      let v := ((s.ac n).cc.src b).toNat
      let p := if Scope.rank (tlScope ctx.toNat) < Scope.rank sc
        then releaseOps (s.tlAgents n ctx.toNat) sc (fun o => o.ac == n && o.ctx == ctx.toNat && decide (1 ≤ o.num ∧ o.num ≤ v)) s else s
      (v ≤ (s.ac n).ln.issueCount ctx.toNat → v ≤ (s.ac n).ln.shown ctx.toNat → Settled n sc p →
        CcEnds n (.tlwait h sc ctx b) (.tlwaitPass n) s (ccDone n h (acquire (.ac n 0) sc p)))
      ∧ (v ≤ (s.ac n).ln.issueCount ctx.toNat → (s.ac n).ln.shown ctx.toNat < v →
        ∃ t, exec (.tlwait h sc ctx b) s = .next t ∧ CcWaits n (.tlwait h sc ctx b) s t)
      ∧ ((s.ac n).ln.issueCount ctx.toNat < v → exec (.tlwait h sc ctx b) s = .next (syncTrap n 0x02 ((s.ac n).cc.src b) 0 s)))

/-- R328 to R331, R150, R151, R153, R155, R323: phases, fences, cache maintenance, TLREAD and TLWAIT. The model's choices in it: log entries 37, 40 and 84. -/
def Obligations.MaintenanceAndTimelines : Prop := ruleMaintenance ∧ ruleTimelines

/-! ### Copies -/

/-- The operands of CPY or CPYT from its block of registers, where they are legal (R332, Table 11-3). -/
def Sys2Proof.copyOperands (c : CC) : Instr → Option (Head × Bool × BitVec 6 × CopyArgs)
  | .cpy h fab d a =>
    let g := fun i => (c.block a 4).getD i 0
    if (g 0).toNat % 64 = 0 ∧ (g 1).toNat % 64 = 0 ∧ (g 2).toNat % 64 = 0 ∧ (g 3).toNat % 64 = 0 ∧ 64 ≤ (g 3).toNat
        ∧ (g 3).toNat ≤ 2 ^ 36
    then some (h, fab, d, ⟨g 0, g 1, g 2, 1, (g 3).toNat, 0, 0⟩) else none
  | .cpyt h fab d a =>
    let g := fun i => (c.block a 6).getD i 0
    let rows := bits (g 3) 32 32
    let rowb := bits (g 3) 0 32
    if (g 0).toNat % 64 = 0 ∧ (g 1).toNat % 64 = 0 ∧ (g 2).toNat % 64 = 0 ∧ (g 4).toNat % 64 = 0 ∧ (g 5).toNat % 64 = 0
        ∧ 1 ≤ rows ∧ rows ≤ 2 ^ 20 ∧ rowb % 64 = 0 ∧ 64 ≤ rowb ∧ rowb ≤ 2 ^ 24 ∧ (rows = 1 ∨ rowb ≤ (g 4).toNat)
    then some (h, fab, d, ⟨g 0, g 1, g 2, rows, rowb, g 4, g 5⟩) else none
  | _ => none

/-- The ranges that the probe of a copy translates and checks (R333): the rows of its source, those of its destination on this part, and its
completion record. -/
def Sys2Proof.copyRanges (fab : Bool) (x : CopyArgs) : List (AKind × Nat × Nat) :=
  (List.range x.rows).map (fun j => (.read, (x.src + x.srcr * BitVec.ofNat 64 j).toNat, x.rowb))
    ++ (if fab then [] else (List.range x.rows).map fun j => (.write, (x.dst + x.dstr * BitVec.ofNat 64 j).toNat, x.rowb))
    ++ [(.write, x.recd.toNat, 64)]

/-- R332, R333, R153: a copy whose operands are legal and whose probe finds every range permitted, with fewer than 16 outstanding, releases at its scope, is
numbered on TL.CP, and its number goes to sD; it is the cluster's last copy, and nothing of it has moved: memory differs by the releases and the zeros
of its completion record alone. The model's choice in it: log entry 124. -/
def Obligations.CopyStarts : Prop :=
  ∀ (n : Nat) (s s2 : State) (i : Instr) (h : Head) (fab : Bool) (d : BitVec 6) (x : CopyArgs) (ps : List (List (Nat × Nat))),
    copyOperands (s.ac n).cc i = some (h, fab, d, x) → CcActs n h s → (s.ac n).io.copies.length < 16 →
    let sc := if fab then Scope.fab else .pkg
    Settled n sc (release (.ac n 0) sc s) →
    x.recd.toNat < 2 ^ 55 → x.src.toNat < 2 ^ 55 → (fab = false → x.dst.toNat < 2 ^ 55) →
    (∀ r ∈ copyRanges fab x, r.2.1 + r.2.2 ≤ 2 ^ 55) →
    probeRanges (.ac n 6) (copyRanges fab x) (release (.ac n 0) sc s) = .ok ps s2 →
    (fab = false → sharesStorage (dieOf n) ((ps.take x.rows).flatMap id) (((ps.drop x.rows).take x.rows).flatMap id) = false) →
    let num := (s2.ac n).ln.issueCount 5 + 1
    ∃ (t : State) (c : Copy), exec i s = .next t ∧ (t.ac n).io.copies = (s2.ac n).io.copies ++ [c]
      ∧ c.num = num ∧ c.fab = fab ∧ c.len = x.rowb * x.rows ∧ c.done = 0 ∧ c.cause = 0 ∧ c.src = (ps.take x.rows).flatMap id
      ∧ (t.ac n).ln.issueCount 5 = num ∧ (d ≠ 0 → (t.ac n).cc.s d = BitVec.ofNat 64 num)
      ∧ SRegsBut [d] (s2.ac n).cc (t.ac n).cc ∧ PredsBut [] (s2.ac n).cc (t.ac n).cc
      ∧ (∀ m, m ≠ n → t.ac m = s2.ac m)
      ∧ let z := strongStore (.ac n 6) sc false (canonPa (dieOf n) ((ps.getLastD []).headD (0, 64)).1) (List.replicate 64 0) (release (.ac n 6) sc s2)
        t.dies = z.dies ∧ t.mem = z.mem

/-- R335: what CPYW answers. -/
def Sys2Proof.ruleCopyWait : Prop :=
  ∀ (n : Nat) (s s1 s2 : State) (h : Head) (fab : Bool) (d a : BitVec 6) (b : Src) (c : BitVec 6) (bm st : List Byte), CcActs n h s →
    let sc := if fab then Scope.fab else .pkg
    let i := Instr.cpyw h fab d a b c
    let va := (s.ac n).cc.s a
    let mask := ((s.ac n).cc.s c).toNat + ((s.ac n).cc.s (c + 1)).toNat * 2 ^ 64
    va.toNat < 2 ^ 55 → va.toNat % 16 = 0 →
    strongRead (.ac n 0) sc va 16 s = .ok bm s1 → strongRead (.ac n 0) sc (va + 16) 8 s1 = .ok st s2 →
    (∀ v : W64, v = (if leNat bm &&& mask = mask then 1 else if leNat st / 2 ^ 60 = 2 then 2 else 0) →
      v ≠ 0 ∨ ((s.ac n).cc.src b).toNat ≤ s.waited n i →
      ∃ t, CcEnds n i (.cpywDone n) s t ∧ CcEnds n i (.cpywTimeout n) s t ∧ (d ≠ 0 → (t.ac n).cc.s d = v) ∧ (v ≠ 0 → t.mem = (acquire (.ac n 0) sc s2).mem)
        ∧ SRegsBut [d] (s2.ac n).cc (t.ac n).cc ∧ PredsBut [] (s2.ac n).cc (t.ac n).cc ∧ SysBut [] (s2.ac n).cc (t.ac n).cc
        ∧ ∀ m, m ≠ n → t.ac m = s2.ac m)
    ∧ (leNat bm &&& mask ≠ mask → leNat st / 2 ^ 60 ≠ 2 → s.waited n i < ((s.ac n).cc.src b).toNat →
      ∃ t, exec i s = .next t ∧ CcWaits n i s2 t)

/-- R160, R161, R166, R334, R153: a copy that has not ended moves its next chunk where no earlier copy of the cluster holds it: the bytes of the chunk go from
its source to its destination, and then its bit is set, once what the copy has written has been performed: the ports have confirmed what it sent to the
hosts (R166), and no store of it waits for atomics (R132). A copy that has moved its last chunk completes on TL.CP and leaves the context. -/
def Obligations.CopyMoves : Prop :=
  ∀ (n k : Nat) (s : State) (c : Copy), (s.ac n).io.copies[k]? = some c →
    (c.cause = 0 → c.fab = false → c.done < c.used → copyHeld (dieOf n) ((s.ac n).io.copies.take k) c = false →
      (s.fab.all fun x => x.item != .copy n c.num) = true →
      c.wrote = false → copyRefused s n c false = none → copyRefused s n c true = none →
      ∀ b s1, copyRead n (c.srcAt c.done) s = (b, s1) →
      let s2 := release (.ac n 6) .pkg
        ((pieceWrites (dieOf n) (c.tag n) noVa ((c.dstAt c.done).map fun p => (p.1, p.2, 3)) b).foldl (addStore (.ac n 6)) s1)
      let w := c.done / 64
      let v := BitVec.ofNat 64 (2 ^ (c.done + 1 - 64 * w) - 1)
      let sent := s2.settled .pkg (shares .quad (.ac n 6))
      (sent = false → exec (.copyChunkDone n k) s = .next (s2.setCopy n k { c with wrote := true }))
      ∧ (sent = true → ∃ t, exec (.copyChunkDone n k) s = .next t
        ∧ t.mem = (strongStore (.ac n 6) .pkg false (c.recPa + 8 * w) (leBytes 8 v.toNat) s2).mem
        ∧ (t.ac n).io.copies = (s2.ac n).io.copies.set k { c with done := c.done + 1 }
        ∧ ∀ m, m ≠ n → t.ac m = s2.ac m))
    ∧ (c.cause ≠ 0 ∨ c.used ≤ c.done → let sc : Scope := if c.fab then .fab else .pkg
      (release (.ac n 6) sc s).settled sc (shares .quad (.ac n 6)) = true →
      ∃ t, exec (.copyComplete n k) s = .next t ∧ (t.ac n).io.copies = (s.ac n).io.copies.eraseIdx k
        ∧ (t.ac n).cc = (s.ac n).cc ∧ (∀ m, m ≠ n → t.ac m = s.ac m)
        ∧ (c.num ≠ 0 → (5, c.num) ∈ (t.ac n).ln.tlDone))

/-! ### Pots -/

/-- The operands of an instruction that queues a request for a pot, where they are legal (R336, R338): kind, whether it crosses the fabric, sD, descriptor,
source and word. -/
def Sys2Proof.potOperands (c : CC) : Instr → Option (Head × PotKind × Bool × BitVec 6 × W64 × W64 × W64)
  | .pour h fab d a b x =>
    if (c.s a).toNat % 256 = 0 ∧ (c.s a).toNat < 2 ^ 55 ∧ (c.s b).toNat % 64 = 0 ∧ (c.s b).toNat < 2 ^ 55
    then some (h, .pour, fab, d, c.s a, c.s b, c.src x) else none
  | .pjoin h d a b =>
    if (c.s a).toNat % 256 = 0 ∧ (c.s a).toNat < 2 ^ 55 ∧ (c.src b).toNat < 64 then some (h, .join, false, d, c.s a, 0, c.src b) else none
  | .pleave h d a b =>
    if (c.s a).toNat % 256 = 0 ∧ (c.s a).toNat < 2 ^ 55 ∧ (c.src b).toNat < 64 then some (h, .leave, false, d, c.s a, 0, c.src b) else none
  | .pclose h d a => if (c.s a).toNat % 256 = 0 ∧ (c.s a).toNat < 2 ^ 55 then some (h, .close, false, d, c.s a, 0, 0) else none
  | .pcloseRetire h d a => if (c.s a).toNat % 256 = 0 ∧ (c.s a).toNat < 2 ^ 55 then some (h, .retire, false, d, c.s a, 0, 0) else none
  | _ => none

/-- R336, R338, R153, R174: POUR, PJOIN, PLEAVE and PCLOSE of legal operands are numbered on TL.POT, their number goes to sD, and the request is the last of
the pot hardware of the die; a POUR releases first, and waits while 16 of the cluster's are outstanding. -/
def Obligations.PotQueued : Prop :=
  ∀ (n : Nat) (s s1 : State) (i : Instr) (h : Head) (kind : PotKind) (fab : Bool) (d : BitVec 6) (desc src word : W64),
    potOperands (s.ac n).cc i = some (h, kind, fab, d, desc, src, word) → CcActs n h s →
    let num := (s1.ac n).ln.issueCount 7 + 1
    let sc : Scope := if fab then .fab else .pkg
    (kind = .pour → 16 ≤ (s.ac n).io.pours.length → ∃ t, exec i s = .next t ∧ CcWaits n i s t)
    ∧ ((kind ≠ .pour ∨ (s.ac n).io.pours.length < 16) →
    s1 = (if kind = .pour then release (.ac n 0) sc s else s) → (kind = .pour → Settled n sc s1) →
    ∃ t r x, exec i s = .next t ∧ (t.die (dieOf n)).potQ = (s1.die (dieOf n)).potQ ++ [r] ∧ r.kind = kind ∧ r.desc = desc ∧ r.src = src
      ∧ r.fab = fab ∧ r.parts = [x] ∧ x.ac = n ∧ x.num = num ∧ x.word = word ∧ x.pc = (s.ac n).cc.pc
      ∧ (t.ac n).ln.issueCount 7 = num ∧ (d ≠ 0 → (t.ac n).cc.s d = BitVec.ofNat 64 num)
      ∧ SRegsBut [d] (s1.ac n).cc (t.ac n).cc ∧ PredsBut [] (s1.ac n).cc (t.ac n).cc ∧ SysBut [] (s1.ac n).cc (t.ac n).cc
      ∧ t.mem = s1.mem ∧ t.hist = s1.hist ∧ (∀ m, m ≠ n → t.ac m = s1.ac m) ∧ (∀ e, e ≠ dieOf n → t.die e = s1.die e))

/-- R337: PWAIT puts the outcome word into sD and acquires once the tag of the record has been reached, and waits before it. -/
def Sys2Proof.rulePotWait : Prop :=
  ∀ (n : Nat) (s s1 : State) (h : Head) (fab : Bool) (d a : BitVec 6) (b : Src) (w : List Byte), CcActs n h s →
    let sc := if fab then Scope.fab else .pkg
    let va := (s.ac n).cc.s a
    let i := Instr.pwait h fab d a b
    (va.toNat % 64 ≠ 0 → exec i s = .next (syncTrap n 0x02 va 0 s))
    ∧ (va.toNat % 64 = 0 → va.toNat < 2 ^ 55 → strongRead (.ac n 0) sc va 8 s = .ok w s1 →
      let x := BitVec.ofNat 64 (leNat w)
      let reached := ((x.toNat / 2 ^ 32 : Int) - (((s.ac n).cc.src b).toNat % 2 ^ 32 : Int)) % 2 ^ 32 < 2 ^ 31
      (reached → CcEnds n i (.pwaitDone n) s (ccDone n h ((acquire (.ac n 0) sc s1).modCC n fun c => c.setS d x)))
      ∧ (¬reached → ∃ t, exec i s = .next t ∧ CcWaits n i s1 t))

/-- R335, R337: the waits of the CC on the record of a copy and of a pot. -/
def Obligations.RecordWaits : Prop := ruleCopyWait ∧ rulePotWait

/-- R173 to R178, R187, R191, R193, R498: what the events of pots do. POUR_ARRIVE takes the oldest request of a die to the home of its descriptor, on
another die or its own, where the home then takes its next request: a join joins those that wait for the close, and a pour whose source has been read is
taken for its round. So it does with one of another part that came in by a port, or hands it on to the node it is for. POUR_ACCEPT counts the
on-time pour that the home has taken, and the pour that fills the round closes it. POT_DEADLINE closes a round whose deadline has passed.
POT_OUTCOME_WRITE completes a closed round whose writes have left. POUR_SOURCE_DROP ends a pour whose source is refused. FABRIC_COMBINE makes two SUMI
pours one. STEP_GATE_WRITE writes a gate, but for STATE 3. The model's choices in it: log entries 43, 57, 58 and 116. -/
def Obligations.PotEvents : Prop :=
  ∀ (d : Nat) (s : State),
    (∀ r q s1 pa at' home pc off, (s.die d).potQ = r :: q → (∀ w ∈ (s.die d).waits, w.who ≠ .pot d) →
      xlate (.pot d) .read r.desc.toNat s = .ok (pa, at') s1 → region d pa = .hbm home pc off →
      checkAccess s1 (.pot d) .issue (0x30000000000 + home * 0x1000000 + 0x80000) 8 = none →
      let r' := { r with pa := canonPa d pa, raw := some pa }
      let u := (s1.modDie d fun x => { x with potQ := x.potQ.drop 1 }).modDie home fun x => { x with potIn := x.potIn ++ [r'] }
      ((s1.die d).potNow ≠ none ∨ home ≠ d ∧ (s1.die d).potIn = [] → exec (.pourArrive d none) s = .next u)
      ∧ (home = d → (s1.die d).potIn = [] → (s1.die d).potNow = none → (∀ w ∈ (u.die d).waits, w.who ≠ .pot d) → r.proxy = none →
        ∀ p x, s1.pot? d (canonPa d pa) = some p → p.retire = false → r.parts = [x] → dieOf x.ac = d →
        (r.kind = .join → r.ready = true → x.word.toNat < p.n →
          ∃ t q, exec (.pourArrive d none) s = .next t ∧ (t.die d).potIn = [] ∧ t.pot? d (canonPa d pa) = some q
            ∧ q.ops = p.ops ++ [(.join, x.word.toNat, x.ac, x.num)] ∧ t.acs = s1.acs ∧ t.mem = s1.mem)
        ∧ (r.kind = .pour → r.ready = false → r.lost = false → bits x.word 6 10 = 0 → r.fab = p.flag 60 →
          ∀ u2 y z, readSource d d r' (p.w 0) u = .ok () u2 → (u2.die d).potIn = [y] → y.key = r.key → y.kind = .pour → y.ready = true →
          y.lost = false → y.parts = [z] → y.proxy = none → y.pa = r'.pa → potSum p.op p.plen z.data % potM = y.sum % potM →
          p.verdict z = .fill →
          ∃ t, exec (.pourArrive d none) s = .next t ∧ (t.die d).potIn = [] ∧ (t.die d).potNow = some y ∧ t.acs = u2.acs ∧ t.mem = u2.mem)))
    ∧ (∀ (f : FarPour) pa at' home pc off s1, let e := (Agent.ingress f.port).die
      f.node = 0xFFFF → xlate (.ingress f.port) .read f.desc.toNat { s with seq := s.seq + 1 } = .ok (pa, at') s1 → region e pa = .hbm home pc off →
      checkAccess s1 (.ingress f.port) .issue (0x30000000000 + home * 0x1000000 + 0x80000) 8 = none → (s1.die d).potNow ≠ none →
      ∃ t r x, exec (.pourArrive d (some f)) s = .next t ∧ (t.die home).potIn = (s1.die home).potIn ++ [r] ∧ r.kind = f.kind ∧ r.desc = f.desc
        ∧ r.pa = canonPa e pa ∧ r.raw = some pa ∧ r.fab = true ∧ r.ready = true ∧ r.lost = f.lost ∧ r.sum = f.sum ∧ r.parts = [x] ∧ 256 ≤ x.ac
        ∧ x.word = f.word ∧ x.data = f.data ∧ x.sat = f.sat ∧ t.acs = s1.acs ∧ t.mem = s1.mem)
    ∧ (∀ f : FarPour, f.node ≠ 0xFFFF → s.routeValid (Agent.ingress f.port).die f.node = true → (s.die d).potNow ≠ none →
      ∃ t y x, exec (.pourArrive d (some f)) s = .next t ∧ t.fab = s.fab ++ [y] ∧ y.node = f.node ∧ y.addr = f.desc.toNat
        ∧ y.what = .pour f.kind f.desc f.lost [x] f.sum f.sumi ∧ x.word = f.word ∧ x.data = f.data ∧ y.acked = false ∧ t.acs = s.acs ∧ t.mem = s.mem)
    ∧ (∀ r x p, (s.die d).potNow = some r → r.parts = [x] → s.pot? d r.pa = some p → p.verdict x = .fill → p.ahead = [] →
      let filled := popMask (slotMask p.contrib false) + 1
      ∃ t q, exec (.pourAccept d) s = .next t ∧ (t.die d).potNow = none ∧ t.pot? d r.pa = some q
        ∧ (filled < p.need → q.round = p.round ∧ q.closing = p.closing
          ∧ q.contrib = p.contrib ++ [⟨x.slot, 0, x.data, x.word.getLsbD 31, bits x.word 16 15 + x.sat, x.ac, x.num⟩])
        ∧ (p.need ≤ filled → q.round = p.round + 1 ∧ q.closed = p.closed + 1 ∧ q.contrib = []
          ∧ q.closing.length = p.closing.length + 1))
    ∧ (∀ desc p, ((s.die d).pots.find? fun p => p.va.toNat == desc) = some p → s.pot? d p.pa = some p → p.flag 57 = true →
      p.retire = false → p.ahead = [] →
      (p.opened + bits (p.w 7) 0 32 ≤ s.cycle → ∃ t q c, exec (.potDeadline d desc) s = .next t ∧ t.pot? d p.pa = some q
        ∧ q.round = p.round + 1 ∧ q.closed = p.closed + 1 ∧ q.contrib = [] ∧ q.closing = p.closing ++ [c]
        ∧ c.tag = p.round ∧ c.contrib = p.contrib ∧ c.short = decide (popMask (slotMask p.contrib false) < p.need)
        ∧ t.acs = s.acs ∧ t.mem = s.mem)
      ∧ (s.cycle < p.opened + bits (p.w 7) 0 32 → exec (.potDeadline d desc) s = .next s))
    ∧ (∀ desc p c rest, ((s.die d).pots.find? fun p => p.va.toNat == desc) = some p → s.pot? d p.pa = some p →
      p.closing = c :: rest → c.stage = 3 → s.fab = [] → s.settled .fab (· == .pot d) = true →
      ∃ t, exec (.potOutcomeWrite d desc) s = .next t ∧ t.mem = s.mem
        ∧ (p.retire = false → ∃ q, t.pot? d p.pa = some q ∧ q.closing = rest ∧ q.contrib = p.contrib)
        ∧ (p.retire = true → rest = [] → t.pot? d p.pa = none)
        ∧ (∀ m k, (m, k) ∈ c.done → m < 256 → k ≠ 0 → (7, k) ∈ (t.ac m).ln.tlDone))
    ∧ (∀ r p w0 w1 va s1, ((s.die d).potIn.find? fun r => r.kind == .pour && !r.ready) = some r → s.pot? d r.pa = some p →
      let e := dieOf r.key.1
      (∀ w ∈ (s.die e).waits, w.who ≠ .pot e) → readSource d e r (p.w 0) s = .error (.access w0 w1 va) s1 →
      (s.ringFull (recordDie (.pot e) w0) = false → exec (.pourSourceDrop d) s = .next (sourceLost d r (s.addAccessRecord (.pot e) w0 w1 va)))
      ∧ (s.ringFull (recordDie (.pot e) w0) = true → exec (.pourSourceDrop d) s = .next s))
    ∧ (∀ x y p, (s.die d).potIn = [x, y] → s.pot? d x.pa = some p → canCombine p x y = true →
      ∃ t, exec (.fabricCombine d 0 1) s = .next t
        ∧ (t.die d).potIn = [{ x with parts := x.parts ++ y.parts, sum := (x.sum + y.sum) % (2 ^ 61 - 1) }] ∧ t.acs = s.acs ∧ t.mem = s.mem)
    ∧ (∀ g v, g < 256 → ∃ t, exec (.stepGateWrite d g v) s = .next t ∧ t.mem = s.mem ∧ t.acs = s.acs
      ∧ t.reg d (0x81000 + 8 * g) = (if bits v 0 2 = 3 then s.reg d (0x81000 + 8 * g) else v &&& 0xFFFFFFFF00000003)
      ∧ ∀ e off, (e ≠ d ∨ off ≠ 0x81000 + 8 * g) → t.reg e off = s.reg e off)

/-! ### Vector loads and stores -/

/-- The take of tokens changes no register of the cluster. -/
def Sys2Proof.SameRegs (n : Nat) (s s1 : State) : Prop :=
  (s1.ac n).cc = (s.ac n).cc ∧ (s1.ac n).vec = (s.ac n).vec ∧ (s1.ac n).tiles = (s.ac n).tiles ∧ (s1.ac n).axq = (s.ac n).axq
    ∧ ∀ e, ((s1.ac n).eng e).x = ((s.ac n).eng e).x ∧ ((s1.ac n).eng e).cb = ((s.ac n).eng e).cb

/-- Row i of a list of addresses (R342). -/
def Sys2Proof.rowAt (base step : W64) (idx : List W64) : List W64 := idx.map fun i => base + step * i

/-- The rows' indices of the plain forms, 0 to NR - 1; FN 0 is 16 rows (R341). -/
def Sys2Proof.firstRows (nr : BitVec 4) : List W64 := (List.range (if nr = 0 then 16 else nr.toNat)).map fun i => BitVec.ofNat 64 i

/-- Signed 4-byte indices from the bytes of an index list (R342). -/
def Sys2Proof.indices (b : List Byte) : List W64 := (elems 4 b).map fun v => (BitVec.ofNat 32 v).signExtend 64

/-- A v register holds its rows, one after another, with zeros above them (R342). -/
def Sys2Proof.putV (n : Nat) (v : BitVec 6) (rows : List (List Byte)) (s : State) : State :=
  s.modAc n fun a => { a with vec := a.vec.setV (a.cc.phys v) (BitVec.ofNat 8192 (leNat (rows.flatMap fun r => r))) }

/-- R341, R342, R344, R323, R268: VLD and VLDG load NR rows of 64 bytes into vD, once every row has translated; VLDM copies LEN bytes into the cluster's own scratch. Addresses out
of range or misaligned stop VL in the order of the rows. -/
def Sys2Proof.ruleVectorLoads : Prop :=
  ∀ (n : Nat) (s s1 : State) (h : Head), EngActs n .vl h 1 s s1 → SameRegs n s s1 →
    (∀ nr v a b, let addrs := rowAt (s.ureg n 1 a) (s.usrc n 1 b) (firstRows nr)
      ((∀ va ∈ addrs, va.toNat < 2 ^ 55 ∧ va.toNat % 4 = 0) →
        ∀ ps rows s2 s3, addrs.mapM (fun va => reach (.ac n 1) .read va.toNat 64) s1 = .ok ps s2 →
        ps.mapM (readPieces (.ac n 1) 4) s2 = .ok rows s3 →
        exec (.vld h nr v a b) s = .next (engDone n .vl h 1 (putV n v rows s3)))
      ∧ (∀ front va rest, addrs = front ++ va :: rest → (∀ x ∈ front, x.toNat < 2 ^ 55 ∧ x.toNat % 4 = 0) →
        (2 ^ 55 ≤ va.toNat → exec (.vld h nr v a b) s = .next (engFault n .vl 0x03 va 0 s))
        ∧ (va.toNat < 2 ^ 55 → va.toNat % 4 ≠ 0 → exec (.vld h nr v a b) s = .next (engFault n .vl 0x04 va 0 s))))
    ∧ (∀ nr v a b c bytes s2, let xc := s.ureg n 1 c
      xc.toNat < 2 ^ 55 → xc.toNat % 4 = 0 →
      readRange (.ac n 1) xc (4 * (firstRows nr).length) 4 s1 = .ok bytes s2 →
      let addrs := rowAt (s2.ureg n 1 a) (s2.usrc n 1 b) (indices bytes)
      (∀ va ∈ addrs, va.toNat < 2 ^ 55 ∧ va.toNat % 4 = 0) →
      ∀ ps rows s3 s4, addrs.mapM (fun va => reach (.ac n 1) .read va.toNat 64) s2 = .ok ps s3 →
      ps.mapM (readPieces (.ac n 1) 4) s3 = .ok rows s4 →
      SameRegs n s1 s2 → exec (.vldg h nr v a b c) s = .next (engDone n .vl h 1 (putV n v rows s4)))
    ∧ (∀ a b c ps pd bytes s2 s3 s4, let x := s.ureg n 1 a
      let y := s.ureg n 1 b
      let len := (s.usrc n 1 c).toNat
      len % 64 = 0 → 64 ≤ len → len ≤ 65536 → x.toNat % 64 = 0 → y.toNat % 64 = 0 → x.toNat < 2 ^ 55 → y.toNat < 2 ^ 55 →
      reach (.ac n 1) .read x.toNat len s1 = .ok ps s2 → ownScratch (.ac n 1) n .write y len s2 = .ok pd s3 →
      overlap (dieOf n) ps pd = false → readPieces (.ac n 1) 64 ps s3 = .ok bytes s4 →
      exec (.vldm h a b c) s = .next (engDone n .vl h 1 (writePieces (.ac n 1) y.toNat s4 pd bytes)))

/-- R343, R29, R32 to R37, R206, R211, R280: VLDB of a format word that is legal reads the elements of the descriptor's tensor at its lanes, converts them, puts
them into vD, zero for a lane beyond the extents, and counts the non-finite ones. -/
def Sys2Proof.ruleTensorLoad : Prop :=
  ∀ (n : Nat) (s s1 s2 s3 : State) (h : Head) (f : FOp) (v a b c : BitVec 6) (fw : BitVec 32) (t : Tdt) (raw : List (List Byte)),
    EngActs n .vl h 1 s s1 → SameRegs n s s1 →
    let i := (s.ureg n 1 a).toNat
    let xb := s.ureg n 1 b
    let xc := s.ureg n 1 c
    let base := match (s1.ac n).cc.task with | some t => t.word 5 | none => 0
    let lanes := vldbLanes t (if f.bf then 32 else 16) (bits xb 0 32) (bits xc 0 32) (bits xc 32 32) (bits xb 32 32)
    fmtWordOk (fw.setWidth 64) false = true → i < 4096 → useTdt (.ac n 1) base i s1 = .ok t s2 →
    (bits (t.fmt.setWidth 64) 4 4 = 0 ∨ bits (t.fmt.setWidth 64) 4 4 = 1 ∨ bits (t.fmt.setWidth 64) 4 4 = 6 ∨ bits (t.fmt.setWidth 64) 4 4 = 7) →
    fmtMatch (fw.setWidth 64) 0 i t s2 = .ok () s2 → readMany (.ac n 1) (lanes.flatMap fun x => x.2.2) s2 = .ok raw s3 →
    let r := vldbOut t f fw (((s3.ac n).cc.sr 0x0D0).setWidth 32) (bits xb 0 32) (bits xc 0 32) (bits xc 32 32) (bits xb 32 32)
      (dealReads lanes raw)
    ∃ u, exec (.vldb h f v a b c fw) s = .next (engDone n .vl h 1 u)
      ∧ (u.ac n).vec = (s3.ac n).vec.setV ((s3.ac n).cc.phys v) (BitVec.ofNat 8192 (leNat (ofElems (if f.bf then 2 else 4) r.1)))
      ∧ ((u.ac n).cc.sr 0x044).toNat = Min.min 0xFFFFFFFF (((s3.ac n).cc.sr 0x044).toNat + r.2) ∧ u.mem = s3.mem ∧ u.dies = s3.dies

/-- R341 to R343: the loads of v and m registers, and the load through a tensor descriptor. The model's choices in it: log entries 6 and 84. -/
def Obligations.VectorLoads : Prop := ruleVectorLoads ∧ ruleTensorLoad

/-- The v register's rows that a store writes (R345). -/
def Sys2Proof.storedRows (n : Nat) (v : BitVec 6) (k : Nat) (s : State) : List (List Byte) :=
  (List.range k).map fun i => leBytes 64 (((s.ac n).vreg v).toNat / 2 ^ (512 * i))

/-- The rows of a vector store have joined the unreleased stores of VS, in order; memory holds what it held (R345, R145). -/
def Sys2Proof.RowsJoin (n : Nat) (vas : List W64) (ps : List (List (Nat × Nat × BitVec 2))) (rows : List (List Byte)) (s t : State) : Prop :=
  t.mem = s.mem ∧ t.hist = s.hist ∧ t.acs = s.acs ∧ t.dies = s.dies
    ∧ (t.agent (.ac n 3)).pend = (s.agent (.ac n 3)).pend ++ ((vas.zip (ps.zip rows)).flatMap fun x =>
        pieceWrites (dieOf n) (s.opTag (.ac n 3)) x.1.toNat x.2.1 x.2.2)
    ∧ ∀ x, x.key ≠ (Agent.ac n 3).key → t.agent x = s.agent x

/-- R345, R346, R368, R131, R132: VST and VSTS store NR rows of vV, as ordinary stores, once every row has translated and is permitted. VSTA sends one return-free atomic for
each row to the kettle of its word, all or none of them, and waits while the queue of one of the kettles has no room for them. -/
def Obligations.VectorStores : Prop :=
  ∀ (n : Nat) (s s1 : State) (h : Head), EngActs n .vs h 1 s s1 → SameRegs n s s1 →
    (∀ nr v a b, let addrs := rowAt (s.ureg n 3 a) (s.usrc n 3 b) (firstRows nr)
      (∀ va ∈ addrs, va.toNat < 2 ^ 55 ∧ va.toNat % 4 = 0) →
      ∀ ps s2, addrs.mapM (fun va => reach (.ac n 3) .write va.toNat 64) s1 = .ok ps s2 →
      (∀ p ∈ ps, ∀ q ∈ p, mmioOf (dieOf n) q.1 = none) →
      ∃ t, exec (.vst h nr v a b) s = .next (engDone n .vs h 1 t)
        ∧ RowsJoin n addrs ps (storedRows n v (firstRows nr).length s1) s2 t)
    ∧ (∀ nr v a b c bytes s2, let xc := s.ureg n 3 c
      xc.toNat < 2 ^ 55 → xc.toNat % 4 = 0 →
      readRange (.ac n 3) xc (4 * (firstRows nr).length) 4 s1 = .ok bytes s2 → SameRegs n s1 s2 →
      let addrs := rowAt (s.ureg n 3 a) (s.usrc n 3 b) (indices bytes)
      (∀ va ∈ addrs, va.toNat < 2 ^ 55 ∧ va.toNat % 4 = 0) →
      ∀ ps s3, addrs.mapM (fun va => reach (.ac n 3) .write va.toNat 64) s2 = .ok ps s3 →
      (∀ p ∈ ps, ∀ q ∈ p, mmioOf (dieOf n) q.1 = none) →
      ∃ t, exec (.vsts h nr v a b c) s = .next (engDone n .vs h 1 t)
        ∧ RowsJoin n addrs ps (storedRows n v (firstRows nr).length s2) s3 t)
    ∧ (∀ op nr v a b c lanes bytes s2, let xc := s.ureg n 3 c
      xc.toNat < 2 ^ 55 → xc.toNat % 4 = 0 →
      readRange (.ac n 3) xc (4 * (firstRows nr).length) 4 s1 = .ok bytes s2 → SameRegs n s1 s2 →
      let addrs := rowAt (s.ureg n 3 a) (s.ureg n 3 b) (indices bytes)
      (∀ va ∈ addrs, va.toNat < 2 ^ 55 ∧ va.toNat % 64 = 0) →
      ∀ pas s3, atomicWords (.ac n 3) addrs s2 = .ok pas s3 →
      let queue := fun (s : State) (q : Nat) => (smGet Kettle.reset s.kettles q).atomq
      (∀ q, (∃ x ∈ pas, homeKettle x = some q) →
        (queue s3 q).length + (pas.filter fun x => homeKettle x == some q).length ≤ 1024) →
      (∀ (sl : Option Nat) (ls : List Nat), ls.Nodup →
        (∀ l ∈ ls, sliceOf l = sl ∧ (l ∈ pas.map (· / 128) ∨ ∃ k ∈ s3.kettles, ∃ y ∈ k.2.atomq, y.pa / 128 = l)) → ls.length ≤ 1024) →
      let entry := fun (x : KAtom) => match x.what with | .atom op l m ac _ => some (x.pa, op, l, m, ac) | .store .. => none
      ∃ t, exec (.vsta h op nr v a b c lanes) s = .next (engDone n .vs h 1 t) ∧ t.mem = s3.mem ∧ t.hist = s3.hist
        ∧ ∀ q, (queue t q).map entry = (queue s3 q).map entry
          ++ ((pas.zip (storedRows n v (firstRows nr).length s1)).filter fun x => homeKettle x.1 == some q).map fun x =>
            some (x.1, op, (elems 4 x.2).map (BitVec.ofNat 32 ·), if h.len = .w3 then lanes else 0xFFFF, n))
    ∧ (∀ op nr v a b c lanes bytes s2, let xc := s.ureg n 3 c
      xc.toNat < 2 ^ 55 → xc.toNat % 4 = 0 →
      readRange (.ac n 3) xc (4 * (firstRows nr).length) 4 s1 = .ok bytes s2 → SameRegs n s1 s2 →
      let addrs := rowAt (s.ureg n 3 a) (s.ureg n 3 b) (indices bytes)
      (∀ va ∈ addrs, va.toNat < 2 ^ 55 ∧ va.toNat % 64 = 0) →
      ∀ pas s3, atomicWords (.ac n 3) addrs s2 = .ok pas s3 →
      (∃ q, ∃ x ∈ pas, homeKettle x = some q
        ∧ 1024 < (smGet Kettle.reset s3.kettles q).atomq.length + (pas.filter fun x => homeKettle x == some q).length) →
      let i := Instr.vsta h op nr v a b c lanes
      exec i s = .next (engStop n .vs i .wait s3))

/-! ### Rings and the fabric -/

/-- R90 to R92, R166, R347 to R349, R471: RPUT of legal descriptors, with the slot's MASK zero, its probes answered and its release complete, writes the data and the header of the slot to every consumer, sets MASK, and moves PUTIDX
and SEQ on; with MASK not zero it waits, and STALLS counts the cycles of that wait. RWAIT puts the header of the next slot into sD and sD+1 once its SEQ is there, and acquires; it waits before that. RFREE clears the consumer's bit
at the producer and moves GETIDX and SEQ on, once the engines' entries before it have completed. A descriptor that breaks its rules is the ring-descriptor fault. The model's choices in it: log entries 34, 44 and 49. -/
def Obligations.Rings : Prop :=
  ∀ (n : Nat) (s s1 : State) (h : Head) (a : BitVec 6),
    (∀ b c pa w s2 s3 s4 src, EngActs n .vs h 1 s s1 → SameRegs n s s1 →
      let i := Instr.rput h a b c
      let xa := s.ureg n 3 a
      let xb := s.ureg n 3 b
      let h0 := (s.ac n).vs.xr c.toNat
      let h1 := (s.ac n).vs.xr (c.toNat + 1)
      let len := bits h1 0 32
      let w1 := w.getD 1 0
      let slot := bits w1 0 6
      let near := ((consumers w slot).filter fun x => !x.1).map (·.2)
      let far := ((consumers w slot).filter (·.1)).map (·.2)
      let sc : Scope := if far.isEmpty then .pkg else .fab
      let hdr := bytes64 (pack [(32, bits w1 32 32), (0, bits h0 0 32)]) ++ bytes64 h1
      let ag := Agent.ac n 3
      xa.toNat < 2 ^ 55 → xb.toNat < 2 ^ 55 → xa.toNat % 512 = 0 → xb.toNat % 64 = 0 →
      ringWords ag n .atomic xa 512 s1 = .ok (pa, w) s2 →
      (putOk w h0 h1 = false → exec i s = .next (engFault n .vs 0x0F xa 0 s2))
      ∧ (putOk w h0 h1 = true → reach ag .read xb.toNat len s2 = .ok src s3 →
        (near.findSome? fun p => checkAccess s3 ag .write p (32 + len)) = none → putProbes n far (bits (w.getD 0 0) 32 16 * 128) s3 = .ok () s4 →
        let stalled := ringWaited n i s4
        let s6 := if stalled = 0 then s4 else strongStore ag .ac false (pa + 0x10) (bytes64 (w.getD 2 0 + BitVec.ofNat 64 stalled)) s4
        ∀ mask s7, strongLoad ag .pkg false (pa + 0x100 + 2 * slot) 2 s6 = (mask, s7) →
        (leNat mask ≠ 0 → exec i s = .next (engStop n .vs i .wait (s7.modEng n .vs fun x => { x with waitAt := some s7.cycle })))
        ∧ (leNat mask = 0 → (release ag sc s7).settled sc (shares .quad ag) = false → exec i s = .next (engStop n .vs i .posted (release ag sc s7)))
        ∧ (leNat mask = 0 → (release ag sc s7).settled sc (shares .quad ag) = true → ∀ data s8, readPieces ag 64 src (dropProbes n (release ag sc s7)) = .ok data s8 →
          let s9 := near.foldl (fun s p =>
            writePieces ag noVa s ((granulePieces (len / 4096 + 2) (p + 32) len).map fun (x, m) => (x, m, 1)) data) s8
          let s10 := if len = 0 then s9 else far.foldl (fun s p => s.send (.put n) (p + 32) (.write data false)) s9
          let s11 := release ag sc (strongStore ag .ac false (pa + 0x100 + 2 * slot) (leBytes 2 (2 ^ bits (w.getD 0 0) 0 5 - 1)) s10)
          let s12 := far.foldl (fun s p => s.send (.put n) p (.write hdr true))
            (near.foldl (fun s p => strongStore ag sc false (canonPa (dieOf n) p) hdr s) s11)
          EngEnds n .vs i (.rputSlotFree n) s (engDone n .vs h 1 (strongStore ag .ac false (pa + 8)
            (bytes64 (pack [(32, (bits w1 32 32 + 1) % 2 ^ 32), (0, (slot + 1) % bits (w.getD 0 0) 16 8)])) s12)))))
    ∧ (∀ d pa w s1 b0 s2, CcActs n h s → consumerCopy n .read ((s.ac n).cc.s a) s = .ok (pa, w) s1 →
      let w1 := w.getD 1 0
      let hva := (s.ac n).cc.s a + BitVec.ofNat 64 (128 + bits w1 0 6 * bits (w.getD 2 0) 32 16 * 128)
      let i := Instr.rwait h d a
      hva.toNat < 2 ^ 55 → strongRead (.ac n 0) .ac hva 8 s1 = .ok b0 s2 →
      (bits (le64 b0) 32 32 ≠ bits w1 32 32 → ∃ t, exec i s = .next t ∧ CcWaits n i s2 t)
      ∧ (bits (le64 b0) 32 32 = bits w1 32 32 → ∀ b1 s3, strongRead (.ac n 0) .ac (hva + 8) 8 s2 = .ok b1 s3 →
        CcEnds n i (.rwaitArrive n) s (ccDone n h ((acquire (.ac n 0) .fab (acquire (.ac n 0) .pkg s3)).modCC n fun c =>
          (c.setS d (le64 b0)).setS (d + 1) (le64 b1)))))
    ∧ (∀ pa w s1, CcActs n h s → consumerCopy n .atomic ((s.ac n).cc.s a) s = .ok (pa, w) s1 →
      let i := Instr.rfree h a
      let counts := (s.noted n i).getD ((List.range 5).map (s.ac n).ln.issueCount)
      let w1 := w.getD 1 0
      let prod := bits (w.getD 0 0) 0 52
      (((List.range 5).zip counts).all (fun x => decide (x.2 ≤ (s.ac n).ln.shown x.1)) = true → ∀ s2 s3, note n i counts s1 = .ok () s2 →
        (if prodFar (dieOf n) (w.getD 0 0) then freeFar n prod (bits w1 0 6) (bits w1 8 4)
          else freeClear n ((s.ac n).cc.s a) prod (bits w1 0 6) (bits w1 8 4)) s2 = .ok () s3 →
        exec i s = .next (ccDone n h (strongStore (.ac n 0) .ac false (pa + 8) (bytes64 (pack [(32, (bits w1 32 32 + 1) % 2 ^ 32),
          (8, bits w1 8 4), (0, (bits w1 0 6 + 1) % bits (w.getD 2 0) 16 8)])) s3)))
      ∧ (((List.range 5).zip counts).any (fun x => decide ((s.ac n).ln.shown x.1 < x.2)) = true →
        ∃ t, exec i s = .next t ∧ CcWaits n i s1 t))

/-- R468 to R471, R166, R190, R498, Table 16-3: what the events of the fabric do. A write that a port accepts is performed at its home and acknowledged, one with a
release once the writes before it have been performed, and behind any write of its port that waits; one that an export refuses leaves only a record, which its refusal carries. A probe
changes nothing but what its translation does. A ring free clears the consumer's bit. An acknowledgement of a request that has left by a port marks it; a refusal ends that request and
no other: a copy with cause 0x10, a put with a fault of VS, a pour with its completion, a write of a pot's outcome with INTEG for its slot and no completion of the others, and the notice of a lost pour
with nothing more. LINKUP follows its port. A request that waits on a route that is not valid ends as if refused. The model's choices in it: log entries 44, 53, 94, 108 and 118. -/
def Obligations.FabricEvents : Prop :=
  ∀ (s : State),
    (∀ port va exp data v pa at' s1, let a := Agent.ingress port
      ingressVa s port va exp data.length = some v → reach a .write v.toNat data.length s = .ok [(pa, data.length, at')] s1 →
      mmioOf a.die pa = none → (∀ x ∈ s.ingHeld, x.port ≠ port) →
      ∃ t : State, exec (.fabricIngressWrite port va exp false data) s = .next (t.reply port 0 .ack) ∧ t.acs = s1.acs
        ∧ (∀ i (hi : i < data.length), memByte t (canonPa a.die pa + i) = data[i])
        ∧ (s.settled .fab (· == a) = true →
          exec (.fabricIngressWrite port va exp true data) s = .next ((release a .fab t).reply port 0 .ack)))
    ∧ (∀ port va exp rel data, (∃ x ∈ s.ingHeld, x.port = port) ∨ rel = true ∧ s.settled .fab (· == Agent.ingress port) = false →
      exec (.fabricIngressWrite port va exp rel data) s = .next { s with ingHeld := s.ingHeld ++ [⟨port, va, exp, rel, data⟩] })
    ∧ (∀ port va exp rel data, ingressVa s port va exp data.length = none → (∀ x ∈ s.ingHeld, x.port ≠ port) →
      (rel = true → s.settled .fab (· == Agent.ingress port) = true) →
      ∃ t w0 w1, exec (.fabricIngressWrite port va exp rel data) s = .next t ∧ SameMemory s t ∧ t.acs = s.acs
        ∧ t.fabOut = s.fabOut ++ [(port, 0, .nack w0 w1)])
    ∧ (∀ port exp off len v ps s1, ingressVa s port (pack [(32, exp % 16), (0, off % 2 ^ 32)]) true len = some v →
      reach (.ingress port) .write v.toNat len s = .ok ps s1 → exec (.fabricRingProbe port exp off len) s = .next (s1.reply port 0 .ack))
    ∧ (∀ port exp off cidx slot v pa at' r s1, let a := Agent.ingress port
      ingressVa s port (pack [(32, exp % 16), (0, (off + 0x100 + 2 * slot) % 2 ^ 32)]) true 2 = some v →
      reach a .atomic v.toNat 2 s = .ok ((pa, 2, at') :: r) s1 →
      let x := atomic a .pkg false (canonPa a.die pa) 2
        (fun o => if (leNat o).testBit cidx then some (leBytes 2 (leNat o - 2 ^ cidx)) else none) s1
      exec (.fabricRingFree port exp off cidx slot) s = .next (x.2.reply port 0 (if (leNat x.1).testBit cidx then .ack else .nack 0 0)))
    ∧ (∀ k x, s.fab[k]? = some x → x.port ≠ none → x.acked = false → ∃ t, exec (.fabricAck k) s = .next t ∧ t.mem = s.mem ∧ t.dies = s.dies
      ∧ (∀ n num, x.item = .copy n num → t.acs = s.acs ∧ t.fab = s.fab.set k { x with acked := true })
      ∧ (∀ n num kind desc lost l sum sumi, x.item = .pour n num → x.what = .pour kind desc lost l sum sumi →
        t.fab = s.fab.eraseIdx k ∧ ∀ z ∈ l, z.ac < 256 → z.num ≠ 0 → (7, z.num) ∈ (t.ac z.ac).ln.tlDone))
    ∧ (∀ k x w0 w1, s.fab[k]? = some x → x.port ≠ none → x.acked = false →
      let gone : State := { s with fab := s.fab.eraseIdx k }
      (∀ n, x.item = .put n → (s.ac n).cc.task ≠ none → (s.ac n).cc.saving = false → (s.ac n).cc.entry = none →
        ((s.ac n).vs.st = 1 ∨ (s.ac n).vs.st = 2) → (s.ac n).vs.xl = none →
        exec (.fabricNack k w0 w1) s = .next (engFault n .vs 0x06 w0 w1 (if x.isProbe then dropProbes n s else gone)))
      ∧ (∀ n num i c, x.item = .copy n num → ((s.ac n).io.copies.findIdx? fun c => c.num == num) = some i →
        (s.ac n).io.copies[i]? = some c → ∃ t, exec (.fabricNack k w0 w1) s = .next t ∧ t.mem = s.mem ∧ t.dies = s.dies
          ∧ (t.ac n).io.copies = (s.ac n).io.copies.set i { c with cause := 0x10, acc0 := w0, acc1 := w1 })
      ∧ (∀ n num kind desc lost l sum sumi, x.item = .pour n num → x.what = .pour kind desc lost l sum sumi →
        ∃ t, exec (.fabricNack k w0 w1) s = .next t ∧ (∀ y ∈ t.fab, y ∈ gone.fab ∨ ∃ d, y.item = .notice d)
        ∧ ∀ z ∈ l, z.ac < 256 → z.num ≠ 0 → (7, z.num) ∈ (t.ac z.ac).ln.tlDone)
      ∧ (∀ d desc slot part, x.item = .outcome d desc slot part →
        ∃ t, exec (.fabricNack k w0 w1) s = .next t ∧ t.fab = s.fab.set k { x with acked := true } ∧ t.mem = s.mem ∧ t.acs = s.acs
          ∧ (part < 2 → slot < 64 → ∀ p c r, s.pot? d (s.potAt d desc) = some p → p.closing = c :: r →
            ∃ q b, t.pot? d (s.potAt d desc) = some q ∧ q.closing = b :: r ∧ (slot, part) ∈ b.skip ∧ b.integ.getLsbD slot = true))
      ∧ (∀ d, x.item = .notice d → exec (.fabricNack k w0 w1) s = .next gone))
    ∧ (∀ port up, port < 32 → ∃ t, exec (.fabricLinkChange port up) s = .next t ∧ t.mem = s.mem ∧ t.acs = s.acs
      ∧ (t.reg (port / 8) 0xB008).getLsbD (port % 8) = up
      ∧ ∀ i, i ≠ port % 8 → (t.reg (port / 8) 0xB008).getLsbD i = (s.reg (port / 8) 0xB008).getLsbD i)
    ∧ (∀ node n x, s.fab = [x] → x.item = .put n → x.acked = false → x.port = none → x.node = node → s.routeValid (dieOf n) node = false →
      (s.ac n).cc.task ≠ none → (s.ac n).cc.saving = false → (s.ac n).cc.entry = none → ((s.ac n).vs.st = 1 ∨ (s.ac n).vs.st = 2) → (s.ac n).vs.xl = none →
      let r := accRecord (.ac n 3) 0xFFFF 0xFF .write x.addr
      exec (.nodeRouteInvalid node) s = .next (engFault n .vs 0x06 r.1 r.2 { s with fab := [] }))

/-! ### Kettles -/

/-- Kettle q acts, and runs the command c (R95). -/
def Sys2Proof.KettleActs (q : Nat) (c : KCmd) (s : State) : Prop := s.cur = .kettle q ∧ (s.kettle q).run = some c

/-- Lane i of a register of 64 lanes, as bits (R94). -/
def Sys2Proof.lane (w : KWord) (i : Nat) : Nat := w.toNat / 2 ^ (32 * i) % 2 ^ 32

/-- Lane i of source b (R109). -/
def Sys2Proof.laneB (k : Kettle) (b : KSrc) (i : Nat) : Nat := match b with | .k n => lane (k.kr n) i | .imm v => v.toNat

/-- The pair of lanes 2 i and 2 i + 1, as a number of 64 bits (R94). -/
def Sys2Proof.lanePair (w : KWord) (i : Nat) : Nat := w.toNat / 2 ^ (64 * i) % 2 ^ 64

/-- The FP32 value of a lane, and the lane that holds a result rounded under RNE (R116). -/
def Sys2Proof.laneVal (v : Nat) : FVal := decodeIeee 24 v
def Sys2Proof.laneOf (x : FVal) : Nat := (toF32 .rne 0 false x).toNat

/-- What a lane-wise instruction of a kettle writes: kD, the value of each lane, and how many lanes count in NFCNT and in CLCNT, where it counts there (R116 to R121). -/
def Sys2Proof.laneResult (c : KCmd) (k : Kettle) : Instr → Option (BitVec 5 × (Nat → Nat) × Option Nat × Option Nat)
  | .kadd d a b => some (d, fun i => laneOf (addX .rne (laneVal (lane (k.kr a) i)) (laneVal (laneB k b i))), none, none)
  | .ksub d a b => some (d, fun i => laneOf (addX .rne (laneVal (lane (k.kr a) i)) (laneVal (laneB k b i)).negate), none, none)
  | .kmul d a b => some (d, fun i => laneOf (mulX (laneVal (lane (k.kr a) i)) (laneVal (laneB k b i))), none, none)
  | .kfma d a b e =>
    some (d, fun i => laneOf (fmaX .rne (laneVal (lane (k.kr a) i)) (laneVal (laneB k b i)) (laneVal (lane (k.kr e) i))), none, none)
  | .kmin d a b => some (d, fun i => laneOf (minX (laneVal (lane (k.kr a) i)) (laneVal (laneB k b i))), none, none)
  | .kmax d a b => some (d, fun i => laneOf (maxX (laneVal (lane (k.kr a) i)) (laneVal (laneB k b i))), none, none)
  | .kabs d a => some (d, fun i => laneOf (laneVal (lane (k.kr a) i)).abs, none, none)
  | .kcmp x d a b =>
    some (d, fun i => if fcond x (laneVal (lane (k.kr a) i)) (laneVal (laneB k b i)) then 0xFFFFFFFF else 0, none, none)
  | .ksel d a b e => some (d, fun i => if lane (k.kr e) i ≠ 0 then lane (k.kr a) i else lane (k.kr b) i, none, none)
  | .kcvt d f =>
    let scaled := fun (a : BitVec 5) (b : BitVec 3) (i : Nat) =>
      let e := bits (k.jr b) 0 8
      if e = 0xFF then fp32.nan else laneOf (FVal.scaled (BitVec.ofNat 64 (lanePair (k.kr a) i)).toInt ((e : Int) - 150))
    match f with
    | .f32s32 a => some (d, fun i => laneOf (FVal.ofInt (BitVec.ofNat 32 (lane (k.kr a) i)).toInt), none, none)
    | .s32f32 a =>
      let r := fun i => toInt 32 .rne 0 (laneVal (lane (k.kr a) i))
      some (d, fun i => (BitVec.ofInt 32 (r i).1).toNat, some ((List.range 64).filter fun i => (r i).2.2).length,
        some ((List.range 64).filter fun i => (r i).2.1).length)
    | .s64lo a b => some (d, fun i => if i < 32 then scaled a b i else lane (k.kr d) i, none, none)
    | .s64hi a b => some (d, fun i => if i < 32 then lane (k.kr d) i else scaled a b (i - 32), none, none)
    | .f32j a => some (d, fun _ => laneOf (FVal.ofInt (k.jr a).toInt), none, none)
    | .b32j a => some (d, fun _ => (k.jr a).toNat % 2 ^ 32, none, none)
  | .kqnt d a b =>
    let e := bits (k.jr b) 0 8
    let r := fun i => if e = 0xFF then (0, false, true) else quantI24 e (laneVal (lane (k.kr a) i))
    some (d, fun i => (BitVec.ofInt 32 (r i).1).toNat, some ((List.range 64).filter fun i => (r i).2.2).length,
      some ((List.range 64).filter fun i => (r i).2.1).length)
  | .kiadd f d a b =>
    let sx := fun (v : Nat) => (BitVec.ofNat 32 v).toInt
    let half := fun (v : Int) (i : Nat) => ((v % 2 ^ 64).toNat / 2 ^ (32 * (i % 2))) % 2 ^ 32
    match f with
    | .d => some (d, fun i => half ((lanePair (k.kr a) (i / 2) + lanePair (k.kr b) (i / 2) : Nat) : Int) i, none, none)
    | .wlo => some (d, fun i => half ((lanePair (k.kr a) (i / 2) : Int) + sx (lane (k.kr b) (i / 2))) i, none, none)
    | .whi => some (d, fun i => half ((lanePair (k.kr a) (i / 2) : Int) + sx (lane (k.kr b) (32 + i / 2))) i, none, none)
    | .w => some (d, fun i => (lane (k.kr a) i + lane (k.kr b) i) % 2 ^ 32, none, none)
  | .kclip d a =>
    match c.clip with
    | some m =>
      let lim := laneVal m.toNat
      let past := fun i => !(laneVal (lane (k.kr a) i)).isNan && decide (cmpX (laneVal (lane (k.kr a) i)).abs lim.abs = .gt)
      if lim.isNan = true ∨ (lim.neg? = true ∧ lim.isZero = false) then none
      else some (d, fun i =>
        if (laneVal (lane (k.kr a) i)).isNan then fp32.nan
        else if past i then m.toNat % 2 ^ 31 + lane (k.kr a) i / 2 ^ 31 * 2 ^ 31 else lane (k.kr a) i, none,
        some ((List.range 64).filter past).length)
    | none => none
  | .knf d a =>
    let nf := fun i => (laneVal (lane (k.kr a) i)).nonFinite
    some (d, fun i => if nf i then 0xFFFFFFFF else 0, some ((List.range 64).filter nf).length, none)
  | _ => none

/-- Nothing but kettle q differs. -/
def Sys2Proof.OnlyKettle (q : Nat) (s t : State) : Prop := t = { s with kettles := t.kettles } ∧ ∀ p, p ≠ q → t.kettle p = s.kettle p

/-- R116 to R121, R110: a lane-wise instruction of a kettle writes every lane of kD and counts in NFCNT and CLCNT, which saturate, where it counts at all; no other register
changes, and no other counter, and the kettle goes on at its next instruction. KCLIP of a command without a usable CLIP ends it with cause 5. -/
def Obligations.KettleLanes : Prop :=
  ∀ (q : Nat) (s : State) (c : KCmd), KettleActs q c s →
    (∀ i d f nf cl, laneResult c (s.kettle q) i = some (d, f, nf, cl) →
      ∃ t, exec i s = .next t ∧ OnlyKettle q s t
        ∧ (∀ j, j < 64 → lane ((t.kettle q).kr d) j = f j)
        ∧ (∀ r, r ≠ d → (t.kettle q).kr r = (s.kettle q).kr r) ∧ (∀ r, (t.kettle q).jr r = (s.kettle q).jr r)
        ∧ (t.kettle q).kpc = (s.kettle q).kpc + 1
        ∧ (t.kettle q).nfcnt = (match nf with | some x => Min.min ((s.kettle q).nfcnt + x) 0xFFFFFFFF | none => (s.kettle q).nfcnt)
        ∧ (t.kettle q).clcnt = (match cl with | some x => Min.min ((s.kettle q).clcnt + x) 0xFFFFFFFF | none => (s.kettle q).clcnt)
        ∧ (t.kettle q).run = some c ∧ (t.kettle q).loops = (s.kettle q).loops ∧ (t.kettle q).queue = (s.kettle q).queue)
    ∧ (∀ d a, laneResult c (s.kettle q) (.kclip d a) = none →
      exec (.kclip d a) s = .next (kettleEnd q 3 5 (s.kettle q).kpc 0 0 s))

/-- The memory that an access of a kettle may reach: its effective address is aligned and in range, one range of the command of a kind holds it, and the access
table admits it (R113, R100, R42). -/
def Sys2Proof.KettleReaches (q : Nat) (c : KCmd) (s : State) (a : BitVec 3) (imm : BitVec 32) (al len : Nat) (kinds : Nat → Bool) (k : AKind) : Prop :=
  let ea := ((s.kettle q).jr a + imm.signExtend 64).toNat
  ea % al = 0 ∧ offOk ea = true ∧ ea % 2 ^ 30 + len ≤ 0x30000000 ∧ inRange c.words kinds ea len = true
    ∧ checkAccess s (.kettle q) k (kettlePa q ea) len = none

/-- A kettle after an access with PI: its address register has moved on by the bytes of the access (R113). -/
def Sys2Proof.moved (pi : Bool) (a : BitVec 3) (n : Nat) (k : Kettle) : Kettle := if pi then k.setJ a.toNat (k.jr a + BitVec.ofNat 64 n) else k

/-- R113, R114, R123, R124, R135: the memory instructions of kettles. A load, a store or a KFLAG that is misaligned or outside the command's ranges ends the command with cause 3. An all-bank form goes on in
waves, and completes when every bank is done. -/
def Sys2Proof.ruleKettleMemory : Prop :=
  ∀ (q : Nat) (s : State) (c : KCmd), KettleActs q c s →
    (∀ f pi d a imm b s1, KettleReaches q c s a imm 64 (KForm.bytes f) canRead .read →
      loadRange (.kettle q) none (kettlePa q ((s.kettle q).jr a + imm.signExtend 64).toNat) (KForm.bytes f) 64 s = (b, s1) →
      exec (.kld f pi d a imm) s = .next (s1.modKettle q fun k =>
        { moved pi a (KForm.bytes f) (k.setK d.toNat (kldValue f b)) with kpc := k.kpc + 1 }))
    ∧ (∀ f pi a b imm, KettleReaches q c s a imm 64 (KForm.bytes f) canWrite .write →
      exec (.kst f pi a b imm) s = .next ((strongStore (.kettle q) .pkg false (kettlePa q ((s.kettle q).jr a + imm.signExtend 64).toNat)
        (kstBytes f ((s.kettle q).kr b)) s).modKettle q fun k => { moved pi a (KForm.bytes f) k with kpc := k.kpc + 1 }))
    ∧ (∀ f pi (r : BitVec 5) a imm, let ea := ((s.kettle q).jr a + imm.signExtend 64).toNat
      let ok := fun (al len : Nat) (kinds : Nat → Bool) =>
        ea % al = 0 ∧ offOk ea = true ∧ ea % 2 ^ 30 + len ≤ 0x30000000 ∧ inRange c.words kinds ea len = true
      (¬ok 64 (KForm.bytes f) canRead → exec (.kld f pi r a imm) s = .next (kettleEnd q 3 3 (s.kettle q).kpc 0 0 s))
      ∧ (¬ok 64 (KForm.bytes f) canWrite → exec (.kst f pi a r imm) s = .next (kettleEnd q 3 3 (s.kettle q).kpc 0 0 s))
      ∧ (¬ok 8 8 canWrite → ∀ pkg b, exec (.kflag pkg a b imm) s = .next (kettleEnd q 3 3 (s.kettle q).kpc 0 0 s)))
    ∧ (∀ (big : Bool) pi d a imm, let i := if big then Instr.kldAbMax pi d a imm else .kldAbSum pi d a imm
      let g := fun (l : List FVal) => if big then l.foldl maxX (.inf true) else sumExact .rne l
      (∀ l s1, allBank q a imm .read canRead (fun o => do pure [BitVec.ofNat 2048 (leNat (← kettleLoad q o 256))]) s = .ok l s1 →
        ∃ t, exec i s = .next t ∧ (∀ j, j < 64 → lane ((t.kettle q).kr d) j = laneOf (g (l.map fun w => laneVal (lane w j))))
          ∧ (∀ r, r ≠ d → (t.kettle q).kr r = (s1.kettle q).kr r) ∧ (t.kettle q).kpc = (s1.kettle q).kpc + 1
          ∧ (t.kettle q).jr a = (if pi then (s1.kettle q).jr a + 256 else (s1.kettle q).jr a) ∧ t.mem = s1.mem)
      ∧ (∀ s1, allBank q a imm .read canRead (fun o => do pure [BitVec.ofNat 2048 (leNat (← kettleLoad q o 256))]) s = .error .wait s1 →
        exec i s = .next s1 ∧ ((s.kettle q).wave ≠ none → ∀ p, (c.prog[(s.kettle q).kpc]?).bind kdecode = some p → p = i →
          exec (.kettleBankWave q) s = .next s1)))
    ∧ (∀ pi a b imm s1,
      (∀ l, allBank q a imm .write canWrite (fun o => do kettleStore q o .pkg (leBytes 256 ((s.kettle q).kr b).toNat); pure []) s = .ok l s1 →
        exec (.kstAb pi a b imm) s = .next (s1.modKettle q fun k => { moved pi a 256 k with kpc := k.kpc + 1 }))
      ∧ (allBank q a imm .write canWrite (fun o => do kettleStore q o .pkg (leBytes 256 ((s.kettle q).kr b).toNat); pure []) s = .error .wait s1 →
        exec (.kstAb pi a b imm) s = .next s1))
    ∧ (∀ (pkg : Bool) a b imm, KettleReaches q c s a imm 8 8 canWrite .write →
      let sc : Scope := if pkg then .pkg else .die
      exec (.kflag pkg a b imm) s = .next ((strongStore (.kettle q) sc false (kettlePa q ((s.kettle q).jr a + imm.signExtend 64).toNat)
        (leBytes 8 ((s.kettle q).jr b).toNat) (release (.kettle q) sc s)).modKettle q fun k =>
          { k with progress := ((s.kettle q).jr b).setWidth 32, kpc := k.kpc + 1 }))
    ∧ (∃ t, exec .katom s = .next t ∧ (t.kettle q).atomq = [] ∧ (t.kettle q).kpc = (s.kettle q).kpc + 1)

/-- R115, R122, R129, R130: KNOP, KAG, the loops, the end of a command, and the reduction tree. -/
def Sys2Proof.ruleKettleControl : Prop :=
  ∀ (q : Nat) (s : State) (c : KCmd), KettleActs q c s →
    let k := s.kettle q
    let goes := fun (t : State) (pc : Nat) => OnlyKettle q s t ∧ (t.kettle q).kpc = pc ∧ (t.kettle q).k = k.k ∧ (t.kettle q).run = some c
    (∃ t, exec .knop s = .next t ∧ goes t (k.kpc + 1) ∧ (t.kettle q).j = k.j ∧ (t.kettle q).loops = k.loops)
    ∧ (∀ d f, ∃ t, exec (.kag d f) s = .next t ∧ goes t (k.kpc + 1) ∧ (∀ r, r ≠ d → (t.kettle q).jr r = k.jr r)
      ∧ (t.kettle q).jr d = match f with
        | .addi a imm => k.jr a + imm.signExtend 64
        | .addr a b => k.jr a + k.jr b
        | .li imm => imm.signExtend 64
        | .shl a n => BitVec.ofNat 64 ((k.jr a).toNat * 2 ^ n.toNat)
        | .prm i => c.param.getD i.toNat 0
        | .mul a imm => BitVec.ofInt 64 ((k.jr a).toInt * imm.toInt))
    ∧ (∀ x, let n := match x with | .j a => (k.jr a).toNat % 2 ^ 32 | .imm v => v.toNat
      let e := findEnd (c.prog.drop (k.kpc + 1)) (k.kpc + 1) 0
      ∃ t, exec (.kloop x) s = .next t ∧ goes t (if n = 0 then e + 1 else k.kpc + 1) ∧ (t.kettle q).j = k.j
        ∧ (t.kettle q).loops = if n = 0 then k.loops else k.loops ++ [(k.kpc + 1, e, n)])
    ∧ (∀ outer b e n, k.loops = outer ++ [(b, e, n)] →
      ∃ t, exec .kend s = .next t ∧ goes t (if 1 < n then b else k.kpc + 1) ∧ (t.kettle q).j = k.j
        ∧ (t.kettle q).loops = if 1 < n then outer ++ [(b, e, n - 1)] else outer)
    ∧ (∃ t, exec .khalt s = .next t ∧ (t.kettle q).run = none ∧ (t.kettle q).atomq = [])
    ∧ (∀ (o : TreeOp) (a : BitVec 5) x, s.session c.session = some x → k.contributed < k.received + 2 →
      let v := (if o = .maxsum then [a.toNat, a.toNat + 1] else [a.toNat]).map fun r => smGet 0 k.k r
      ∃ t, exec (.kred o a) s = .next t ∧ (t.kettle q).contributed = k.contributed + 1 ∧ (t.kettle q).kpc = k.kpc + 1
        ∧ t.session c.session = some { x with contrib := x.contrib ++ [(k.contributed, q, o, v)] }
        ∧ (t.kettle q).k = k.k ∧ t.mem = s.mem)
    ∧ (∀ (o : TreeOp) (d : BitVec 5) x, s.session c.session = some x → k.received < k.contributed →
      (x.given k.received q).map (·.1) = some o →
      (x.complete k.received = false → exec (.krcv o d) s = .next s)
      ∧ (x.complete k.received = true → x.agreed k.received = true → ∀ r rest, x.root o k.received = r :: rest →
        ∃ t, exec (.krcv o d) s = .next t ∧ (t.kettle q).received = k.received + 1 ∧ (t.kettle q).kpc = k.kpc + 1
          ∧ (o ≠ .maxsum → (t.kettle q).kr d = r ∧ ∀ e, e ≠ d → (t.kettle q).kr e = k.kr e) ∧ t.mem = s.mem))

/-- R97 to R131: loads, stores, atomics and control of a kettle program. The model's choices in it: log entries 56 and 70. -/
def Obligations.KettleMemory : Prop := ruleKettleMemory ∧ ruleKettleControl

/-- R98 to R107, R134, R339, R340, R162: what NMRUN and NMFENCE do, and the events of the kettles. NMRUN of legal operands, once it has read the block and may use every port of its set, is numbered on
TL.NM, puts its number into sD, and stands last in the issue path; it waits at 8 outstanding. NMFENCE passes once TL.VS shows the count at its issue and no kettle holds an atomic that the cluster sent before.
A malformed block completes with STATE 3; a step gate that applies lets the command on, with P[7] counted up where the block asks for it, one that skips ends it, and a pending one holds it; its pass, from which
its write ranges bypass the slices, and its delivery follow; a kettle starts the oldest command of its queue with its registers
cleared, and a command whose kettles have all ended completes. The model's choices in it: log entries 54, 69, 92 and 93. -/
def Obligations.NearMemory : Prop :=
  ∀ (s : State),
    (∀ (n : Nat) (h : Head) (d a b : BitVec 6) (c : Src), CcActs n h s →
      let cc := (s.ac n).cc
      let va := cc.s a
      let mask := cc.s b
      let die := (cc.src c).toNat
      let i := Instr.nmrun h d a b c
      (va.toNat < 2 ^ 55 → va.toNat % 128 ≠ 0 → exec i s = .next (syncTrap n 0x02 va 0 s))
      ∧ (va.toNat < 2 ^ 55 → va.toNat % 128 = 0 → mask = 0 → exec i s = .next (syncTrap n 0x02 mask 0 s))
      ∧ (va.toNat < 2 ^ 55 → va.toNat % 128 = 0 → mask ≠ 0 → die < 4 → 8 ≤ (s.ac n).io.nm.length → ∃ t : State, exec i s = .next t ∧ CcWaits n i s t)
      ∧ (va.toNat < 2 ^ 55 → va.toNat % 128 = 0 → mask ≠ 0 → die < 4 → (s.ac n).io.nm.length < 8 →
        (∀ e ∈ s.kissue, e.ac = n → e.stage = 2 → ∀ q ∈ setOf e.die e.mask, (s.kettle q).queue.length + (s.kettle q).run.isSome.toNat < 4) →
        ∀ (bytes : List Byte) (prog param : List W64) (clip : Option W32) (st p7 : List (Nat × Nat)) (s1 s2 s3 s4 s5 s6 : State),
        readRange (.ac n 0) va 128 8 s = .ok bytes s1 →
        let w := fun (k : Nat) => (words64 bytes).getD k 0
        let va' := fun (k : Nat) => addr55 (w k)
        let len := bits (w 3) 0 7
        (if 1 ≤ len ∧ len ≤ 96 then blockRead n (va' 0) (8 * len) s1 = .ok prog s2 else prog = [] ∧ s2 = s1) →
        blockRead n (va' 1) 64 s2 = .ok param s3 →
        (if (w 3).getLsbD 28 then ∃ td, useTdt (.ac n 0) (match cc.task with | some tk => tk.word 5 | none => 0) (bits (w 3) 16 12) s3 = .ok td s4
            ∧ clip = some td.clip
          else clip = none ∧ s4 = s3) →
        (va' 0).toNat % 8 = 0 → (va' 1).toNat % 64 = 0 → (va' 2).toNat % 64 = 0 →
        writeTargets n (va' 2) (64 * (setOf die mask).length) s4 = .ok st s5 →
        (if (w 3).getLsbD 30 then writeTargets n (va' 1 + 0x38) 8 s5 = .ok p7 s6 else p7 = [] ∧ s6 = s5) →
        ((setOf die mask).findSome? fun q => checkAccess s6 (.ac n 0) .issue (portPa q) 8) = none →
        let num := (s6.ac n).ln.issueCount 6 + 1
        ∃ (t : State) (e : KIssue), exec i s = .next t ∧ t.kissue = s6.kissue ++ [e] ∧ e.ac = n ∧ e.num = num ∧ e.die = die ∧ e.mask = mask ∧ e.words = words64 bytes
          ∧ e.prog = prog ∧ e.param = param ∧ e.clip = clip ∧ e.stage = 0 ∧ (t.ac n).ln.issueCount 6 = num
          ∧ (d ≠ 0 → (t.ac n).cc.s d = BitVec.ofNat 64 num) ∧ SRegsBut [d] (s6.ac n).cc (t.ac n).cc ∧ t.mem = s6.mem ∧ t.kettles = s6.kettles))
    ∧ (∀ (n : Nat) (h : Head) (sc : Scope), CcActs n h s →
      let notes := (s.noted n (.nmfence h sc)).getD [(s.ac n).ln.issueCount 2]
      let sent := notes.getD 1 (s.ac n).io.vsta
      let held := s.kettles.any fun k => k.2.atomq.any fun x => match x.what with
        | .atom _ _ _ ac num => ac == n && decide (num ≤ sent)
        | .store .. => false
      let wide := match sc with | .fab => Scope.pkg | sc => sc
      (notes.headD 0 ≤ (s.ac n).ln.shown 2 → held = false → ∃ (t u : State), CcEnds n (.nmfence h sc) (.nmfenceDone n) s t
        ∧ OnlyCc n s u ∧ (u.ac n).cc = { (s.ac n).cc with wait := (u.ac n).cc.wait } ∧ t = ccDone n h (acquire (.ac n 0) wide u))
      ∧ ((s.ac n).ln.shown 2 < notes.headD 0 → ∃ t : State, exec (.nmfence h sc) s = .next t ∧ CcWaits n (.nmfence h sc) s t)
      ∧ (held = true → ∃ t : State, exec (.nmfence h sc) s = .next t ∧ CcWaits n (.nmfence h sc) s t))
    ∧ (∀ (j : Nat) (e : KIssue), s.kissue[j]? = some e →
      (e.stage = 0 → blockOk4 e.words e.die e.mask = false →
        exec (.kettleGateRead j) s = .next (issueEnds j e 3 2 s) ∧ (issueEnds j e 3 2 s).kissue = s.kissue.eraseIdx j)
      ∧ (e.stage = 0 → blockOk4 e.words e.die e.mask = true → loadOk e.prog = true → (e.words.getD 4 0).getLsbD 63 = false → e.session = 0 →
        let step := bits (e.words.getD 3 0) 32 32
        let gate := s.reg e.die (0x81000 + 8 * (step % 256))
        ((e.words.getD 3 0).getLsbD 29 = false → exec (.kettleGateRead j) s = .next { s with kissue := s.kissue.set j { e with stage := 1 } })
        ∧ ((e.words.getD 3 0).getLsbD 29 = true → bits gate 32 32 = step →
          (bits gate 0 2 = 2 → exec (.kettleGateRead j) s = .next (issueEnds j e 2 0 s))
          ∧ (bits gate 0 2 = 0 → exec (.kettleGateRead j) s = .next s)
          ∧ (bits gate 0 2 = 1 → (e.words.getD 3 0).getLsbD 30 = false →
            exec (.kettleGateRead j) s = .next { s with kissue := s.kissue.set j { e with stage := 1 } })
          ∧ (bits gate 0 2 = 1 → (e.words.getD 3 0).getLsbD 30 = true → ∀ pa, e.p7 = some pa →
            let v := e.param.getD 7 0 + 1
            ∃ t : State, exec (.kettleGateRead j) s = .next t ∧ t.mem = (strongStore (.ac e.ac 7) .pkg false pa (leBytes 8 v.toNat) s).mem
              ∧ t.kissue = s.kissue.set j { e with stage := 1, param := e.param.set 7 v } ∧ t.acs = s.acs)))
      ∧ (e.stage = 1 → ∃ (t : State) (e' : KIssue), exec (.kettleSlicePass j) s = .next t
        ∧ t = { s with kissue := s.kissue.set j e', bypass := t.bypass } ∧ e' = { e with stage := 2, passed := e'.passed }
        ∧ (∀ x ∈ s.bypass, x ∈ t.bypass)
        ∧ (∀ r q, r < 4 → q ∈ setOf e.die e.mask → 2 ≤ bits (e.words.getD (5 + r) 0) 62 2 →
          (e.ac, e.num, kettlePa q (bits (e.words.getD (5 + r) 0) 0 31), 64 * bits (e.words.getD (5 + r) 0) 32 24) ∈ t.bypass)
        ∧ ∀ (k id : Nat), (k, id) ∈ e'.passed → ∃ (l : List Version) (v : Version), (k, l) ∈ s.hist ∧ v ∈ l ∧ v.id = id ∧ ∃ r ∈ v.rels, 2 ≤ Scope.rank r.2)
      ∧ (e.stage = 2 → j = 0 → (∀ q ∈ setOf e.die e.mask, (s.kettle q).queue.length + (s.kettle q).run.isSome.toNat < 4) →
        ∃ t : State, exec (.kettleDeliver j) s = .next t ∧ t.kissue = s.kissue.eraseIdx j ∧ t.mem = s.mem ∧ t.acs = s.acs
          ∧ (∀ q, q ∉ setOf e.die e.mask → t.kettle q = s.kettle q)
          ∧ ∀ q ∈ setOf e.die e.mask, ∃ c : KCmd, t.kettle q = { s.kettle q with queue := (s.kettle q).queue ++ [c] } ∧ c.ac = e.ac ∧ c.num = e.num
            ∧ c.words = e.words ∧ c.prog = e.prog ∧ c.param = e.param))
    ∧ (∀ (q : Nat) (c : KCmd) (r : List KCmd), (s.kettle q).run = none → (s.kettle q).queue = c :: r → ∃ t : State, exec (.kettleCommandStart q) s = .next t
      ∧ (t.kettle q).run = some c ∧ (t.kettle q).queue = r ∧ (t.kettle q).k = [] ∧ (t.kettle q).kpc = 0 ∧ (t.kettle q).loops = []
      ∧ (t.kettle q).nfcnt = 0 ∧ (t.kettle q).clcnt = 0 ∧ (t.kettle q).atomq = (s.kettle q).atomq
      ∧ (t.kettle q).jr 6 = BitVec.ofNat 64 c.rank ∧ (t.kettle q).jr 7 = BitVec.ofNat 64 (q % 64) ∧ t.mem = s.mem ∧ t.acs = s.acs)
    ∧ (∀ n : Nat, ∃ t : State, exec (.kettleCommandComplete n) s = .next t ∧ t.mem = s.mem ∧ t.kettles = s.kettles
      ∧ (t.ac n).io.nm = (s.ac n).io.nm.filter (fun c => !c.left.isEmpty)
      ∧ ∀ c ∈ (s.ac n).io.nm, c.left = [] → c.num ≠ 0 → (6, c.num) ∈ (t.ac n).ln.tlDone)
    ∧ (∀ (q : Nat) (x : KAtom), (s.kettle q).atomq = [x] → touchesRun s q x.pa = false →
      ∃ t : State, exec (.atomicArrive q) s = .next t ∧ (t.kettle q).atomq = [] ∧ t.acs = s.acs)
    ∧ (∀ (q : Nat) (c : KCmd), (s.kettle q).run = some c → ∃ t : State, exec (.kettleAbort q) s = .next t ∧ OnlyKettle q s t
      ∧ t.kettle q = { s.kettle q with abort := true })
    ∧ (∀ (q : Nat) (c : KCmd) (o : TreeOp) (d : BitVec 5) (x : Session) (serial : Nat), s.session serial = some x → x.parts = [q] → (s.kettle q).run = some c → c.session = serial →
      (c.prog[(s.kettle q).kpc]?).bind kdecode = some (.krcv o d) →
      ∃ t : State, exec (.kettleTreeResult serial) s = .next t ∧ exec (.krcv o d) { s with cur := .kettle q } = .next t)

/-! ### Engines: control instructions -/

/-- Word 1's fields of an instruction that a stage predicate of VA may stop (R271): its header. -/
def Sys2Proof.stagedHead : Instr → Option Head
  | .etake h | .ebr h .. | .eloop h .. | .eloopAdd h .. | .eend h | .enop h | .etok h .. | .gput h .. | .eret h ..
  | .vadd h .. | .vsub h .. | .vmul h .. | .vfma h .. | .vfms h .. | .vmin h .. | .vmax h .. | .vabs h .. | .vneg h .. | .vcmp h ..
  | .vsel h .. | .vcvt h .. | .vsfu h .. | .vred h .. | .vscan h .. | .vsort h .. | .vsegr h .. | .vperm h .. | .vbcast h .. | .vmov h ..
  | .vmovX h .. | .viota h .. | .viadd h .. | .visub h .. | .vimul h .. | .vilog h .. | .vish h .. | .vimm h .. | .vmask h .. | .vshape h ..
  | .vrot h .. | .vloopp h .. | .vpcode h .. | .vbexp h .. | .vqnt h .. | .vdqnt h .. | .ld h .. | .st h .. | .lds h .. | .sts h ..
  | .amo h .. | .cas h .. | .phase h .. | .fence h .. => some h
  | _ => none

/-- R271: an instruction of VA whose stage predicate is false takes and gives no token, writes nothing and raises no fault: it goes on at the next
instruction, with the end-of-body test. -/
def Sys2Proof.ruleStageFalse : Prop :=
  ∀ (n : Nat) (s : State) (i : Instr) (h : Head), stagedHead i = some h → s.cur = engAgent n .va → stageOff h (s.ac n) = true →
    exec i s = .next (engRetire n .va h .seq s)

/-- What the condition of an EBR holds of its operands (R354). -/
def Sys2Proof.ebrHolds (c : ECond) (x : Eng) (u v : W64) : Bool :=
  match c with
  | .eq => u.toNat == v.toNat
  | .ne => u.toNat != v.toNat
  | .lt => decide (u.toInt < v.toInt)
  | .ge => decide (v.toInt ≤ u.toInt)
  | .ltu => decide (u.toNat < v.toNat)
  | .geu => decide (v.toNat ≤ u.toNat)
  | .last0 => x.act0 && decide ((x.xr 16).toNat ≤ 1)
  | .last1 => x.act1 && decide ((x.xr 19).toNat ≤ 1)
  | .al => true

/-- R353 to R360, R156, R228 to R230: the control instructions of engines. ENOP only retires; ETOK takes and gives N tokens; EBR goes to its target when its condition holds, and on VA
kills the results that its taken branch squashes; ELOOP opens a level as LOOP does; ETAKE loads the operands of the entry at the head; GPUT writes a guard slot; ERET puts a value into the
return queue; EEND ends the routine, and its entry completes. -/
def Sys2Proof.ruleEngineControl : Prop :=
  ∀ (n : Nat) (e : Eid) (s s1 : State) (h : Head), GiveFree n e h s → SameRegs n s s1 →
    (∀ k : BitVec 4, EngActs n e h (k.toNat + 1) s s1 → exec (.etok h k) s = .next (engDone n e h (k.toNat + 1) s1))
    ∧ (EngActs n e h 1 s s1 →
      let x := (s1.ac n).eng e
      exec (.enop h) s = .next (engDone n e h 1 s1)
      ∧ (∀ c a b off, exec (.ebr h c a b off) s = .next (if ebrHolds c x (x.src a) (x.src b)
          then engGive n e (Head.give h) 1 (engRetire n e h (.jump (x.upc + BitVec.ofInt 64 (4 * off.toInt))) (s1.modAc n (squash e s1.cycle)))
          else engDone n e h 1 s1))
      ∧ (∀ d a b, exec (.eloopAdd h d a b) s = .next (engDone n e h 1 (s1.modEng n e fun x => x.setX d.toNat (x.src a + x.src b))))
      ∧ (∀ k a blen,
        let busy := k = false ∧ e = .va ∧ bits ((s.ac n).cc.sr 0x043) 8 4 ≠ 0
        let cnt := x.src a
        (busy → exec (.eloop h k a blen) s = .next (engFault n e 0x02 cnt 0 s))
        ∧ (¬busy → ∃ y t, y.xr (if k then 19 else 16) = cnt
          ∧ (if k then y.act1 else y.act0) = (cnt != 0)
          ∧ (blen ≠ 0 → (if k then y.live1s else y.live0s) = addr55 (x.upc + Head.size h)
            ∧ (if k then y.live1e else y.live0e) = addr55 (addr55 (x.upc + Head.size h) + BitVec.ofNat 64 (4 * blen.toNat)))
          ∧ (blen = 0 → (if k then y.live1s else y.live0s) = addr55 (x.xr (if k then 20 else 17)) &&& ~~~ 3
            ∧ (if k then y.live1e else y.live0e) = addr55 (x.xr (if k then 21 else 18)) &&& ~~~ 3)
          ∧ t = (if cnt = 0 then (if k then y.live1e else y.live0e) else if k then y.live1s else y.live0s)
          ∧ y.q = x.q ∧ y.st = x.st ∧ (∀ r, r < 16 → y.xr r = x.xr r)
          ∧ exec (.eloop h k a blen) s = .next (engGive n e (Head.give h) 1 (engRetire n e h (if t = x.upc + Head.size h then .seq else .jump t)
            (s1.modEng n e fun _ => y)))))
      ∧ (∀ q s2, headOf n e s1 = (.entry q, s2) →
        (q.kind = 0 → exec (.etake h) s = .next (engFault n e 0x0E (BitVec.ofNat 64 (eidCode e)) 0 s2))
        ∧ (q.kind ≠ 0 → exec (.etake h) s = .next (engDone n e h 1 (s2.modEng n e fun x => loadOps { x with q := x.q.drop 1 } q))))
      ∧ (∀ r s2, headOf n e s1 = (r, s2) → (∀ q, r ≠ .entry q) → exec (.etake h) s = .next (engStop n e (.etake h) .wait s2))
      ∧ ((e = .ax → (s1.ac n).axq = []) →
        (∀ g a, exec (.gput h g a) s = .next (engDone n e h 1 (s1.modAc n fun y => y.guardWrite (eidCode e) g.toNat (some (x.src a != 0)))))
        ∧ (∀ a, (PushGranted (s1.ac n) (eidCode e) 5 1 → ∃ t u, exec (.eret h a) s = .next t ∧ t = engDone n e h 1 u
            ∧ (u.ac n).ln.retq = (s1.ac n).ln.retq ++ [(eidCode e, x.src a)] ∧ (u.ac n).cc.evt = true ∧ u.mem = (release (engAgent n e) .ac s1).mem)
          ∧ (¬QueueRoom (s1.ac n) 5 1 → ∃ u, exec (.eret h a) s = .next (engStop n e (.eret h a) .wait u)
            ∧ ⟨eidCode e, 5, 1⟩ ∈ (u.ac n).ln.pushWait ∧ (u.ac n).ln.retq = (s1.ac n).ln.retq ∧ SameMemory s1 u))
        ∧ ((e = .va → (s1.ac n).vec.flight = []) → ∃ t, exec (.eend h) s = .next t
          ∧ ((t.ac n).eng e).st = 0 ∧ ((t.ac n).eng e).num = 0 ∧ ((t.ac n).eng e).act0 = false ∧ ((t.ac n).eng e).act1 = false
          ∧ (e = .va → bits ((t.ac n).cc.sr 0x043) 8 4 = 0) ∧ (x.num ≠ 0 → (eidCode e - 1, x.num) ∈ (t.ac n).ln.tlDone)
          ∧ (Head.give h = 0 → t.mem = (release (engAgent n e) .ac s1).mem))))

/-- R271, R352 to R360: instructions of every engine, and the stage predicate that is false. The model's choices in it: log entry 84. -/
def Obligations.EngineControl : Prop := ruleStageFalse ∧ ruleEngineControl

/-! ### The vector engine -/

/-- Element i of width w of a v register, as bits (R361). -/
def Sys2Proof.elemAt (v : VWord) (w i : Nat) : Nat := v.toNat / 2 ^ (8 * w * i) % 2 ^ (8 * w)

/-- An element inside the shape whose gate is true (R362, R363, R365). -/
def Sys2Proof.written (x : AC) (h : Head) (w i : Nat) : Bool :=
  decide (i / (64 / w) < bits (x.cc.sr 0x041) 0 5 ∧ (i % (64 / w) + 1) * w ≤ 4 * bits (x.cc.sr 0x041) 8 5)
    && (if Head.gate h < 8 then x.vec.mr (Head.gate h) else BitVec.allOnes 512).getLsbD (w * i / 2)

/-- The k-th register of a result writes element i of width w to the value that f gives, and no other bytes; a gate is read for each pair of bytes. -/
def Sys2Proof.Writes (r : VRes) (k w : Nat) (f : Nat → Option Nat) : Prop :=
  ∀ i, i < 1024 / w →
    (∀ b, b < (w + 1) / 2 → r.wmask.testBit (512 * k + w * i / 2 + b) = (f (if w = 1 then 2 * (i / 2) else i)).isSome)
      ∧ ∀ v, f i = some v → (r.data.getD k 0) / 2 ^ (8 * w * i) % 2 ^ (8 * w) = v % 2 ^ (8 * w)

/-- An instruction of VA issues a result of latency lat, which lands by R366, and retires: what it writes is r. -/
def Sys2Proof.Issues (n : Nat) (h : Head) (i : Instr) (lat : Nat) (m : RMode) (s s1 : State) (good : VRes → Prop) : Prop :=
  ∃ r, good r ∧ exec i s = .next (engRetire n .va h .seq (s1.modAc n fun a => vaIssue h lat m s1.cycle r a))

/-- A result in the register that d names, with the elements f, and no counts. -/
def Sys2Proof.OneReg (x : AC) (d : BitVec 6) (w : Nat) (f : Nat → Option Nat) (r : VRes) : Prop :=
  r.kind = 0 ∧ r.dest = x.cc.phys d ∧ r.dnf = 0 ∧ r.dcl = 0 ∧ Writes r 0 w f

/-- The same in the pair that begins with d. -/
def Sys2Proof.TwoRegs (x : AC) (d : BitVec 6) (w : Nat) (f g : Nat → Option Nat) (r : VRes) : Prop :=
  r.kind = 1 ∧ r.dest = x.cc.phys d ∧ r.dnf = 0 ∧ r.dcl = 0 ∧ Writes r 0 w f ∧ Writes r 1 w g

/-- Elements where they are written. -/
def Sys2Proof.where' (x : AC) (h : Head) (w : Nat) (f : Nat → Nat) (i : Nat) : Option Nat := if written x h w i then some (f i) else none

/-- A value rounded into element i of the precision of an instruction (R372, R208, R213). -/
def Sys2Proof.rounded (x : AC) (h : Head) (bf : Bool) (m : RMode) (i : Nat) (v : FVal) : Nat :=
  (narrow (if bf then bf16 else fp32) m (x.vHash m (if bf then 2 else 4) i) false (Head.flush h) v).1

/-- The exact element of a floating-point instruction (R372, R215): precision, mode, latency, destination and value. -/
def Sys2Proof.vectorExact (x : AC) : Instr → Option (Head × Bool × RMode × Nat × BitVec 6 × (Nat → FVal))
  | .vadd h f d a b => some (h, f.bf, f.mode, 4, d, fun i => addX f.mode (x.vfsrc f.bf a i) (x.vfsrc f.bf b i))
  | .vsub h f d a b => some (h, f.bf, f.mode, 4, d, fun i => addX f.mode (x.vfsrc f.bf a i) (x.vfsrc f.bf b i).negate)
  | .vmul h f d a b => some (h, f.bf, f.mode, 4, d, fun i => mulX (x.vfsrc f.bf a i) (x.vfsrc f.bf b i))
  | .vfma h f d a b c => some (h, f.bf, f.mode, 4, d, fun i => fmaX f.mode (x.vfsrc f.bf a i) (x.vfsrc f.bf b i) (x.vfsrc f.bf c i))
  | .vfms h f d a b c => some (h, f.bf, f.mode, 4, d, fun i => fmaX f.mode (x.vfsrc f.bf a i) (x.vfsrc f.bf b i) (x.vfsrc f.bf c i).negate)
  | .vmin h bf d a b => some (h, bf, .rne, 1, d, fun i => minX (x.vfsrc bf a i) (x.vfsrc bf b i))
  | .vmax h bf d a b => some (h, bf, .rne, 1, d, fun i => maxX (x.vfsrc bf a i) (x.vfsrc bf b i))
  | .vabs h bf d a => some (h, bf, .rne, 1, d, fun i => (x.vfsrc bf a i).abs)
  | .vneg h bf d a => some (h, bf, .rne, 1, d, fun i => (x.vfsrc bf a i).negate)
  | _ => none

/-- R372 to R375, R361 to R367, R208: the floating-point instructions of VA round the exact value of every element that they write once; VCMP sets the bits of the elements of a mask;
VSEL chooses elements; VCVT converts them, and VSFU writes its function of them. The model's choices in it: log entry 12. -/
def Obligations.VectorFloat : Prop :=
  ∀ (n : Nat) (s s1 : State) (h : Head), EngActs n .va h 1 s s1 → SameRegs n s s1 →
    let x := s1.ac n
    (∀ i bf m lat d f, vectorExact x i = some (h, bf, m, lat, d, f) →
      let w := if bf then 2 else 4
      Issues n h i lat m s s1 (OneReg x d w (where' x h w fun j => rounded x h bf m j (f j))))
    ∧ (∀ bf c m a b, let w := if bf then 2 else 4
      Issues n h (.vcmp h bf c m a b) 1 .rne s s1 fun r => r.kind = 2 ∧ r.dest = m.toNat ∧ r.dnf = 0 ∧ r.dcl = 0
        ∧ ∀ i, i < 1024 / w → ∀ k, k < w / 2 → r.wmask.testBit (w * i / 2 + k) = written x h w i
          ∧ (written x h w i = true → (r.data.getD 0 0).testBit (w * i / 2 + k) = fcond c (x.vfsrc bf a i) (x.vfsrc bf b i)))
    ∧ (∀ (w16 : Bool) d a b (m : BitVec 3), let w := if w16 then 2 else 4
      Issues n h (.vsel h w16 d a b m) 1 .rne s s1 (OneReg x d w (where' x h w fun i =>
        if (x.vec.mr m.toNat).getLsbD (w * i / 2) then x.visrc w a i else x.visrc w b i)))
    ∧ (∀ md d a src dst part sat f g, cvtFmt src = some f → cvtFmt dst = some g →
      let ws := f.esize
      let wd := g.esize
      part.toNat < Max.max ws wd / Min.min ws wd →
      Issues n h (.vcvt h md d a src dst part sat) 2 md s s1 (OneReg x d wd fun i =>
        let row := i / (64 / wd)
        let col := i % (64 / wd)
        let from' : Option Nat :=
          if wd < ws then (if part.toNat * (64 / ws) ≤ col ∧ col < (part.toNat + 1) * (64 / ws)
            then some (row * (64 / ws) + (col - part.toNat * (64 / ws))) else none)
          else some (row * (64 / ws) + part.toNat * (64 / wd) + col)
        match from' with
        | some j => if written x h wd i then some (cvtElem f g md (x.vHash md wd i) sat (Head.flush h) (elemAt (x.vreg a) ws j)) else none
        | none => none))
    ∧ (∀ f fn d a, let w := if f.bf then 2 else 4
      let g := if f.bf then bf16 else fp32
      Issues n h (.vsfu h f fn d a) 8 f.mode s s1 (OneReg x d w (where' x h w fun i =>
        sfu fn g f.mode (x.vHash f.mode w i) (Head.flush h) (x.vfsrc f.bf a i))))

/-- Element i of an integer source of width w, signed (R365). -/
def Sys2Proof.signedAt (x : AC) (w : Nat) (a : Src) (i : Nat) : Int := (BitVec.ofNat (8 * w) (x.visrc w a i)).toInt

/-- A value saturated to a signed integer of w bytes. -/
def Sys2Proof.clamp (w : Nat) (v : Int) : Int := Max.max (-(2 ^ (8 * w - 1))) (Min.min (2 ^ (8 * w - 1) - 1) v)

/-- The bits of w bytes of an integer. -/
def Sys2Proof.low (w : Nat) (v : Int) : Nat := (v % 2 ^ (8 * w)).toNat

/-- R380, R381, R365: data movement and integers of VA, element by element. The model's choices in it: log entries 51, 52 and 84. -/
def Obligations.VectorInteger : Prop :=
  ∀ (n : Nat) (s s1 : State) (h : Head), EngActs n .va h 1 s s1 → SameRegs n s s1 →
    let x := s1.ac n
    let one := fun (i : Instr) (lat : Nat) (d : BitVec 6) (w : Nat) (f : Nat → Nat) => Issues n h i lat .rne s s1 (OneReg x d w (where' x h w f))
    (∀ (all : Bool) d a b, one (.vperm h all d a b) 1 d 4 fun i =>
      let k := (BitVec.ofNat 32 (elemAt (x.vreg b) 4 i)).toInt
      if 0 ≤ k ∧ k < (if all then 256 else 16) then elemAt (x.vreg a) 4 ((if all then 0 else i / 16 * 16) + k.toNat) else 0)
    ∧ (∀ (k : BcK) (w16 : Bool) d a b, let w := if w16 then 2 else 4
      let v := (x.va.src b).toNat
      (v < 512 → (k = .row ∨ v % 32 < 64 / w) → one (.vbcast h k w16 d a b) 1 d w fun i =>
        elemAt (x.vreg a) w (match k with
          | .elem => v / 32 * (64 / w) + v % 32
          | .row => v % 16 * (64 / w) + i % (64 / w)
          | .col => i / (64 / w) * (64 / w) + v % 32))
      ∧ (512 ≤ v → exec (.vbcast h k w16 d a b) s = .next (engFault n .va 0x02 (x.va.src b) 0 s)))
    ∧ (∀ d a, one (.vmov h d a) 1 d 2 fun i => elemAt (x.vreg a) 2 i)
    ∧ (∀ d a b, let v := (x.va.src b).toNat
      (v < 256 → Issues n h (.vmovX h d a b) 1 .rne s s1 fun r => r.kind = 3 ∧ r.dest = d.toNat ∧ r.dnf = 0 ∧ r.dcl = 0
        ∧ r.xval = BitVec.ofNat 64 (elemAt (x.vreg a) 4 v))
      ∧ (256 ≤ v → exec (.vmovX h d a b) s = .next (engFault n .va 0x02 (x.va.src b) 0 s)))
    ∧ (∀ d a b, one (.viota h d a b) 1 d 4 fun i => x.visrc 4 a i + x.visrc 4 b i * i)
    ∧ (∀ d a, one (.vimm h .f32 d a) 1 d 4 (fun _ => (narrow fp32 .rne 0 false (Head.flush h) (x.va.fsrc a)).1)
      ∧ one (.vimm h .bf16 d a) 1 d 2 (fun _ => (narrow bf16 .rne 0 false (Head.flush h) (x.va.fsrc a)).1)
      ∧ one (.vimm h .s32 d a) 1 d 4 (fun _ => (x.va.src a).toNat) ∧ one (.vimm h .s16 d a) 1 d 2 (fun _ => (x.va.src a).toNat))
    ∧ (∀ (wd : IWid) d a b, let w := match wd with | .b4 => 4 | .b2 => 2 | .b1 => 1
      (∀ sat : Bool, one (.viadd h wd sat d a b) 1 d w (fun i => let v := signedAt x w a i + signedAt x w b i
          low w (if sat then clamp w v else v))
        ∧ one (.visub h wd sat d a b) 1 d w (fun i => let v := signedAt x w a i - signedAt x w b i
          low w (if sat then clamp w v else v)))
      ∧ one (.vimul h wd d a b) 4 d w (fun i => low w (signedAt x w a i * signedAt x w b i))
      ∧ one (.vish h .shl wd d a b) 1 d w (fun i => x.visrc w a i * 2 ^ (x.visrc w b i % (8 * w)))
      ∧ one (.vish h .shr wd d a b) 1 d w (fun i => x.visrc w a i / 2 ^ (x.visrc w b i % (8 * w)))
      ∧ one (.vish h .sha wd d a b) 1 d w (fun i => low w (signedAt x w a i / 2 ^ (x.visrc w b i % (8 * w)))))
    ∧ (∀ (f : LogF) d a b, let w := match a, b with | .r _, .r _ => 2 | _, _ => 4
      one (.vilog h f d a b) 1 d w fun i =>
      let p := BitVec.ofNat (8 * w) (x.visrc w a i)
      let q := BitVec.ofNat (8 * w) (x.visrc w b i)
      (match f with | .and => p &&& q | .or => p ||| q | .xor => p ^^^ q | .andn => p &&& ~~~ q).toNat)

/-- The elements that a group of a reduction holds, in its order (R376). -/
def Sys2Proof.groupsOf (w : Nat) (d : Dir) : List (List Nat) :=
  match d with
  | .row => (List.range 16).map fun r => (List.range (64 / w)).map fun c => r * (64 / w) + c
  | .col => (List.range (64 / w)).map fun c => (List.range 16).map fun r => r * (64 / w) + c
  | .all => [List.range (16 * (64 / w))]

/-- R376 to R379, R382, R384 to R387, R128, R217: reductions, scans, sorts and segmented reductions of VA; its masks; and its training formats. -/
def Sys2Proof.ruleVectorReduce : Prop :=
  ∀ (n : Nat) (s s1 : State) (h : Head), EngActs n .va h 1 s s1 → SameRegs n s s1 →
    let x := s1.ac n
    (∀ f dir d a b op, op ≠ .maxsum → let w := if f.bf then 2 else 4
      let g := if f.bf then bf16 else fp32
      Issues n h (.vred h f op dir d a b) 6 f.mode s s1 (OneReg x d w fun i =>
        (((groupsOf w dir).filter fun l => x.inShape w (l.headD 0)).find? fun l => l.headD 0 == i).map fun l =>
          (pairTree (redBits g op f.mode (rounded x h f.bf f.mode i)) 10
            (l.map fun j => if written x h w j then some (elemAt (x.vreg a) w j) else none)).getD (redEmpty g op)))
    ∧ (∀ f dir d a b, let w := if f.bf then 2 else 4
      let g := if f.bf then bf16 else fp32
      let pairOf := fun i => (((groupsOf w dir).filter fun l => x.inShape w (l.headD 0)).find? fun l => l.headD 0 == i).map fun l =>
        (pairTree (redPair g f.mode (rounded x h f.bf f.mode i)) 10
          (l.map fun j => if written x h w j then some (elemAt (x.vreg a) w j, elemAt (x.vreg b) w j) else none)).getD (g.infinity true, 0)
      Issues n h (.vred h f .maxsum dir d a b) 6 f.mode s s1 (TwoRegs x d w (fun i => (pairOf i).map (·.1)) (fun i => (pairOf i).map (·.2))))
    ∧ (∀ f dir d a op, let w := if f.bf then 2 else 4
      ∃ p, Issues n h (.vscan h f op dir d a) 6 f.mode s s1 (OneReg x d w p) ∧ (∀ i, i < 1024 / w → (p i).isSome = written x h w i)
        ∧ ∀ l ∈ groupsOf w dir, ∀ i, (∀ rest, l.filter (written x h w) = i :: rest → p i = some (elemAt (x.vreg a) w i))
          ∧ ∀ front j back, l.filter (written x h w) = front ++ j :: i :: back → ∃ v, p j = some v
            ∧ p i = some (redBits (if f.bf then bf16 else fp32) op f.mode (rounded x h f.bf f.mode i) v (elemAt (x.vreg a) w i)))
    ∧ (∀ key desc all d a b, ∃ perm : Nat → Nat, let dir := if all then Dir.all else .row
      Issues n h (.vsort h key desc all d a b) 12 .rne s s1 (TwoRegs x d 4
          (fun i => if x.inShape 4 i then some (elemAt (x.vreg a) 4 (perm i)) else none)
          (fun i => if x.inShape 4 i then some (elemAt (x.vreg b) 4 (perm i)) else none))
        ∧ ∀ l ∈ groupsOf 4 dir, ((l.filter (x.inShape 4)).map perm).Perm (l.filter (x.inShape 4))
          ∧ ∀ i j front back, l.filter (x.inShape 4) = front ++ i :: j :: back →
            let p := keyVal key (elemAt (x.vreg a) 4 (perm i))
            let q := keyVal key (elemAt (x.vreg a) 4 (perm j))
            (written x h 4 (perm j) = true → written x h 4 (perm i) = true ∧ (if desc then q ≤ p else p ≤ q) ∧ (p = q → perm i < perm j))
              ∧ (written x h 4 (perm j) = false → written x h 4 (perm i) = true ∨ perm i < perm j))
    ∧ (∀ md op all d a b, let dir := if all then Dir.all else .row
      ∃ p q, Issues n h (.vsegr h md op all d a b) 12 md s s1 (TwoRegs x d 4 p q)
        ∧ ∀ l ∈ groupsOf 4 dir, ∀ (i j : Nat), l[j]? = some i →
          let runs : List (Nat × List Nat) := runsOf ((l.filter (written x h 4)).map fun k => (elemAt (x.vreg a) 4 k, elemAt (x.vreg b) 4 k))
          (p i, q i) = if x.inShape 4 i then (match runs[j]? with
            | some (k, vs) => (some k, some (segReduce op md (rounded x h false md i) vs))
            | none => (some 0xFFFFFFFF, some 0)) else (none, none))
    ∧ (∀ f : VMaskF, Issues n h (.vmask h f) 1 .rne s s1 fun r => r.dnf = 0 ∧ r.dcl = 0 ∧ match f with
        | .logic g d a b => r.kind = 2 ∧ r.dest = d.toNat ∧ ∀ k, k < 512 → r.wmask.testBit k = true ∧ (r.data.getD 0 0).testBit k =
            (let p := (x.vec.mr a.toNat).getLsbD k
             let q := (x.vec.mr b.toNat).getLsbD k
             match g with | .and => p && q | .or => p || q | .xor => p != q | .andn => p && !q)
        | .not d a => r.kind = 2 ∧ r.dest = d.toNat ∧ ∀ k, k < 512 → r.wmask.testBit k = true ∧ (r.data.getD 0 0).testBit k = !(x.vec.mr a.toNat).getLsbD k
        | .first d a => r.kind = 2 ∧ r.dest = d.toNat ∧ ∀ k, k < 512 → r.wmask.testBit k = true ∧ (r.data.getD 0 0).testBit k = decide (k < (x.va.src a).toNat)
        | .fromv d a => r.kind = 2 ∧ r.dest = d.toNat ∧ ∀ k, k < 512 → r.wmask.testBit k = true
            ∧ (r.data.getD 0 0).testBit k = decide (elemAt (x.vreg a) 4 (k / 2) ≠ 0)
        | .tov d a => r.kind = 0 ∧ r.dest = x.cc.phys d ∧ Writes r 0 4 fun i => some (if (x.vec.mr a.toNat).getLsbD (2 * i) then 0xFFFFFFFF else 0))
    ∧ (∀ (bf : Bool) d a, let w := if bf then 2 else 4
      Issues n h (.vbexp h bf d a) 6 .rne s s1 (OneReg x d 1 fun i => if i < (if bf then 8 else 4)
        then some (blockCode ((List.range 64).map fun k => decodeIeee (if bf then bf16 else fp32).p (elemAt (x.vreg a) w (64 * i + k)))) else none))
    ∧ (∀ d a b, let q := fun i => let e := elemAt (x.vreg b) 1 (i / 64)
          if e = 0xFF then (0, false, true) else quantI24 e (decodeIeee 24 (elemAt (x.vreg a) 4 i))
      Issues n h (.vqnt h d a b) 2 .rne s s1 fun r => r.kind = 0 ∧ r.dest = x.cc.phys d ∧ Writes r 0 4 (fun i => some (low 4 (q i).1))
        ∧ r.dnf = ((List.range 256).filter fun i => (q i).2.2).length ∧ r.dcl = ((List.range 256).filter fun i => (q i).2.1).length)
    ∧ (∀ md d a b, let e := fun i => elemAt (x.vreg b) 1 (i / 64)
      let v := fun i => readI24 (BitVec.ofNat 32 (elemAt (x.vreg a) 4 i))
      Issues n h (.vdqnt h md d a b) 2 md s s1 fun r => r.kind = 0 ∧ r.dest = x.cc.phys d ∧ r.dnf = 0
        ∧ Writes r 0 4 (fun i => some (if e i = 0xFF then fp32.nan else rounded x h false md i (FVal.scaled (v i).1 ((e i : Int) - 150))))
        ∧ r.dcl = ((List.range 256).filter fun i => (v i).2).length)
    ∧ (∀ d a b, Issues n h (.vpcode h d a b) 2 .rne s s1 (OneReg x d 4 (where' x h 4 fun i =>
        pulseCode (decodeIeee 24 (elemAt (x.vreg a) 4 i)) (x.va.fsrc b))))

/-- R365, R366, R367, R370, R371, R383: VSHAPE, VROT and VLOOPP write the registers of VA's shape, rotation and pipelined loop; a shape out of range, and a VLOOPP while one is active or of
2^32 iterations or more, are illegal operands. Of two results in flight, those land whose cycle has come, in the order of their cycles. -/
def Sys2Proof.ruleVectorLoops : Prop :=
  ∀ (n : Nat) (s : State),
    (∀ (h : Head) (s1 : State), EngActs n .va h 1 s s1 → GiveFree n .va h s → SameRegs n s s1 →
      let x := s1.ac n
      (∀ a : Src, let v := x.va.src a
        (v.toNat % 256 ≤ 16 ∧ 1 ≤ v.toNat % 256 ∧ v.toNat / 256 ≤ 16 ∧ 1 ≤ v.toNat / 256 →
          exec (.vshape h a) s = .next (engDone n .va h 1 (s1.modCC n fun c => c.setSr 0x041 v)))
        ∧ (¬(v.toNat % 256 ≤ 16 ∧ 1 ≤ v.toNat % 256 ∧ v.toNat / 256 ≤ 16 ∧ 1 ≤ v.toNat / 256) →
          exec (.vshape h a) s = .next (engFault n .va 0x02 v 0 s))
        ∧ exec (.vrot h a) s = .next (engDone n .va h 1 (s1.modCC n fun c =>
          c.setSr 0x040 (BitVec.ofNat 64 (((x.cc.sr 0x040).toNat + v.toNat) % 32)))))
      ∧ (∀ (st : BitVec 3) (a : Src) (blen : BitVec 12),
        let t := (x.va.src a).toNat
        let k := st.toNat + 1
        let b := addr55 (x.va.upc + Head.size h)
        let f := addr55 (b + BitVec.ofNat 64 (4 * blen.toNat))
        let i := Instr.vloopp h st a blen
        (2 ^ 32 ≤ t ∨ bits (x.cc.sr 0x043) 8 4 ≠ 0 → exec i s = .next (engFault n .va 0x02 (x.va.src a) 0 s))
        ∧ (t < 2 ^ 32 → bits (x.cc.sr 0x043) 8 4 = 0 →
          (t = 0 → exec i s = .next (engGive n .va (Head.give h) 1 (engRetire n .va h (.jump f) s1)))
          ∧ (t ≠ 0 → ∃ u : State, exec i s = .next (engDone n .va h 1 u) ∧ u = s1.setAc n (u.ac n)
            ∧ (u.ac n).va.xr 16 = BitVec.ofNat 64 (t + k - 1) ∧ (u.ac n).va.xr 17 = b ∧ (u.ac n).va.xr 18 = f ∧ (u.ac n).va.act0 = true
            ∧ (u.ac n).va.live0s = b ∧ (u.ac n).va.live0e = f ∧ (u.ac n).va.upc = x.va.upc
            ∧ bits ((u.ac n).cc.sr 0x042) 32 32 = t ∧ bits ((u.ac n).cc.sr 0x042) 0 32 = 0
            ∧ bits ((u.ac n).cc.sr 0x043) 8 4 = k ∧ bits ((u.ac n).cc.sr 0x043) 0 8 = 1
            ∧ (u.ac n).tiles = x.tiles ∧ (u.ac n).vec = x.vec ∧ (u.ac n).ln = x.ln))))
    ∧ (∀ f g : Flight, (s.ac n).vec.flight = [f, g] → f.give = 0 → f.bad = none → g.give = 0 → g.bad = none → (s.ac n).vec.issued = s.cycle + 1 → f.land ≤ g.land →
      let now := fun (l : List Flight) => { s.ac n with vec := { (s.ac n).vec with flight := l } }
      ∃ t : State, exec (.vaResultLanding n) s = .next t ∧ exec (.latchLanding n) s = .next t ∧ OnlyAc n s t
        ∧ (g.land ≤ s.cycle → t.ac n = writeFlight g (writeFlight f (now [])))
        ∧ (f.land ≤ s.cycle → s.cycle < g.land → t.ac n = writeFlight f (now [g]))
        ∧ (s.cycle < f.land → t.ac n = s.ac n))
    ∧ (∀ f : Flight, (s.ac n).vec.flight = [f] → f.give = 0 → f.bad = none → (s.ac n).vec.issued = s.cycle + 1 → f.land ≤ s.cycle →
      ∃ t : State, exec (.vaResultLanding n) s = .next t ∧ exec (.latchLanding n) s = .next t ∧ OnlyAc n s t ∧ t.ac n = writeFlight f { s.ac n with vec := { (s.ac n).vec with flight := [] } }
        ∧ (f.kind = 0 → ∀ d : VWord, f.data = [d] → ∀ i, i < 512 →
          elemAt ((t.ac n).vec.vr f.dest) 2 i = if f.wmask.getLsbD i then elemAt d 2 i else elemAt ((s.ac n).vec.vr f.dest) 2 i))

/-- R370 to R387: reductions, scans and permutations of VA, its loops and registers, and the landing of results. The model's choices in it: log entries 21, 50 and 84. -/
def Obligations.VectorReduce : Prop := ruleVectorReduce ∧ ruleVectorLoops

/-! ### The array engine -/

/-- No command in flight holds a tile, and no APROG is in flight (R395, R397). -/
def Sys2Proof.TileFree (n ti : Nat) (s : State) : Prop := ∀ c ∈ (s.ac n).axq, c.done = true ∨ (c.tile ≠ ti ∧ c.rows = [])

/-- Every tile of the cluster but one is as it was. -/
def Sys2Proof.TilesBut (n ti : Nat) (s t : State) : Prop := ∀ j, j ≠ ti → t.tile n j = s.tile n j

/-- A command of a tile has started, or waits for the power cap: it stands last in AX's queue, with the scratch writes that it has still to perform (R396, R494). -/
def Sys2Proof.InFlight (n ti : Nat) (ws : List PWrite) (t : State) : Prop :=
  ∃ (front : List AxCmd) (c : AxCmd), (t.ac n).axq = front ++ [c] ∧ c.tile = ti ∧ c.done = false ∧ c.writes = ws ∧ c.rows = []

/-- R389 to R394, R398, R406, R409: the register transfers of AX, with their checks. The model's choice in it: log entry 84. -/
def Obligations.ArrayRegisters : Prop :=
  ∀ (n : Nat) (s s1 : State) (h : Head), EngActs n .ax h 1 s s1 → SameRegs n s s1 →
    let x := (s1.ac n).ax
    let x0 := (s1.ac n).axq
    (∀ (reg : BitVec 3) (a b : Src), let ti := bits (x.src a) 40 4
      (asetOk reg.toNat (x.src b) = false → exec (.aset h reg a b) s = .next (engFault n .ax 0x02 (x.src b) 0 s))
      ∧ (asetOk reg.toNat (x.src b) = true → TileFree n ti s1 → ∃ t : State, exec (.aset h reg a b) s = .next t ∧ TilesBut n ti s1 t
        ∧ (t.tile n ti).r reg.toNat = x.src b ∧ (∀ k, k ≠ reg.toNat → (t.tile n ti).r k = (s1.tile n ti).r k)
        ∧ (reg = 1 → (t.tile n ti).rowGen = [] ∧ (t.tile n ti).colGen = [])
        ∧ (t.tile n ti).lf = (s1.tile n ti).lf ∧ (t.tile n ti).plf = (s1.tile n ti).plf ∧ (t.tile n ti).spr = (s1.tile n ti).spr
        ∧ (Head.give h = 0 → x0 = [] → SameMemory s1 t)))
    ∧ (∀ (m : TMode) (a : Src), let ti := bits (x.src a) 40 4
      TileFree n ti s1 → ∃ t : State, exec (.amode h m a) s = .next t ∧ TilesBut n ti s1 t
        ∧ (t.tile n ti).r 6 = (match m with | .phys => 0 | .ref => 1 | .frozen => 2 | .frozens => 3)
        ∧ (∀ k, k ≠ 6 → (t.tile n ti).r k = (s1.tile n ti).r k) ∧ (t.tile n ti).lf = (s1.tile n ti).lf ∧ (t.tile n ti).plf = (s1.tile n ti).plf
        ∧ (Head.give h = 0 → x0 = [] → SameMemory s1 t))
    ∧ (∀ (reg : BitVec 4) (d : BitVec 6) (a : Src), let ti := bits (x.src a) 40 4
      TileFree n ti s1 → ∃ t : State, exec (.astat h reg d a) s = .next t ∧ (t.ac n).tiles = (s1.ac n).tiles
        ∧ (t.ac n).ax.xr d.toNat = (s1.tile n ti).r reg.toNat ∧ (Head.give h = 0 → x0 = [] → SameMemory s1 t))
    ∧ (∀ (a : Src) (b : BitVec 6) (w : Win), winOf (x.src a) = some w → TileFree n w.tile s1 →
      let va := x.xr b.toNat
      va.toNat < 2 ^ 55 → va.toNat % 64 = 0 →
      (∀ (ps : List (Nat × Nat × BitVec 2)) (bytes : List Byte) (s2 s3 : State), ownScratch (.ac n 5) n .read va (2 * w.cols) s1 = .ok ps s2 →
        axClear n ps s2 = .ok () s2 → readPieces (.ac n 5) 2 ps s2 = .ok bytes s3 → bytes.length = 2 * w.cols →
        ∃ t : State, exec (.asprLd h a b) s = .next t ∧ TilesBut n w.tile s3 t
          ∧ (∀ j, j < w.cols → (t.tile n w.tile).sprAt (w.col0 + j) = (BitVec.ofNat 16 (leNat ((bytes.drop (2 * j)).take 2))).toInt)
          ∧ (∀ j, j < w.col0 ∨ w.col0 + w.cols ≤ j → (t.tile n w.tile).sprAt j = (s3.tile n w.tile).sprAt j)
          ∧ (t.tile n w.tile).reg = (s3.tile n w.tile).reg)
      ∧ (∀ (ps : List (Nat × Nat × BitVec 2)) (s2 : State), ownScratch (.ac n 5) n .write va (2 * w.cols) s1 = .ok ps s2 →
        axClear n ps s2 = .ok () s2 → Head.give h = 0 → x0 = [] →
        ∃ t : State, exec (.asprSt h a b) s = .next t ∧ (t.ac n).tiles = (s2.ac n).tiles ∧ t.mem = s2.mem
          ∧ (t.agent (.ac n 5)).pend = (s2.agent (.ac n 5)).pend
            ++ pieceWrites (dieOf n) (s2.opTag (.ac n 5)) va.toNat ps (ofInts 2 ((List.range w.cols).map fun j => (s2.tile n w.tile).sprAt (w.col0 + j))))
      ∧ (∀ (ps : List (Nat × Nat × BitVec 2)) (s2 : State), w.inRef = true →
        ownScratch (.ac n 5) n .read va (colSpan w 2) s1 = .ok ps s2 → axClear n ps s2 = .ok () s2 →
        ∀ (cols : List (List Nat)) (s3 : State), ((List.range w.cols).mapM fun j => do
          let bs ← readPieces (.ac n 5) 2 (slice (j * colStride w.rows 2) (2 * w.rows) ps)
          pure (elems 2 bs)) s2 = .ok cols s3 →
        ∃ t : State, exec (.aref h a b) s = .next t ∧ TilesBut n w.tile s3 t
          ∧ (∀ i j, i < w.rows → j < w.cols → i < (cols.getD j []).length →
            smGet 0 (t.tile n w.tile).sc (1024 * (w.row0 + i) + (w.col0 + j)) = (BitVec.ofNat 16 ((cols.getD j []).getD i 0)).toInt)
          ∧ (t.tile n w.tile).lf = (s3.tile n w.tile).lf ∧ (t.tile n w.tile).ls = (s3.tile n w.tile).ls ∧ (t.tile n w.tile).reg = (s3.tile n w.tile).reg)
      ∧ (w.inRef = false → exec (.aref h a b) s = .next (engFault n .ax 0x11 (x.src a) 0 s)))

/-- R395 to R408, R192, R399, R494: the commands of AX on a window that is legal in the tile's mode, when their tile is free and their operands can be read. A read puts what it will write into
its command, and its computed scale into xD; an update, a transfer and a calibration change the tile; a program command stands with the rows it has to program. A step gate that skips leaves the cells. The model's choices in it: log entries 10, 33 and 84. -/
def Obligations.ArrayCommands : Prop :=
  ∀ (n : Nat) (s s1 : State) (h : Head) (a : Src) (w : Win), EngActs n .ax h 1 s s1 → SameRegs n s s1 →
    let x := (s1.ac n).ax
    let t0 := s1.tile n w.tile
    winOf (x.src a) = some w → (t0.isRef = true → w.inRef = true) → TileFree n w.tile s1 →
    (∀ (fwd f32' sc : Bool) (d b c : BitVec 6), let i := if fwd then Instr.afwd h f32' sc d a b c else .abwd h f32' sc d a b c
      let vb := x.xr b.toNat
      let vc := x.xr c.toNat
      let inN := if fwd then w.rows else w.cols
      let outN := if fwd then w.cols else w.rows
      vb.toNat < 2 ^ 55 → vb.toNat % 64 = 0 → vc.toNat < 2 ^ 55 → vc.toNat % 64 = 0 →
      ∀ (src dst : List (Nat × Nat × BitVec 2)) (bytes : List Byte) (s2 s3 s4 : State),
      ownScratch (.ac n 5) n .read vb (2 * inN) s1 = .ok src s2 → ownScratch (.ac n 5) n .write vc ((if f32' then 4 else 2) * outN) s2 = .ok dst s3 →
      axClear n (src ++ dst) s3 = .ok () s3 → readPieces (.ac n 5) 2 src s3 = .ok bytes s4 →
      let p := readPlan ((elems 2 bytes).map fun v => b16 (BitVec.ofNat 16 v)) (if sc then some (f32 ((x.xr d.toNat).setWidth 32)) else none)
      let ys : List W32 := match p.1 with
        | .nan => List.replicate outN 0x7FC00000
        | .codes v l => (readOuts (s4.tile n w.tile) w fwd (r32 v) l s4.seq).1
      let out := if f32' then ys.flatMap fun y => leBytes 4 y.toNat else ys.flatMap fun y => leBytes 2 (toB16 .rne 0 false (f32 y)).toNat
      ∃ t : State, exec i s = .next t ∧ InFlight n w.tile (pieceWrites (dieOf n) (s4.opTag (.ac n 5)) vc.toNat dst out) t ∧ TilesBut n w.tile s4 t
        ∧ (sc = false → (t.ac n).ax.xr d.toNat = p.2.setWidth 64) ∧ (t.tile n w.tile).lf = (s4.tile n w.tile).lf
        ∧ (t.tile n w.tile).plf = (s4.tile n w.tile).plf)
    ∧ (∀ (f : Bool) (ln : BitVec 2) (b : BitVec 6), let vb := x.xr b.toNat
      vb.toNat < 2 ^ 55 → vb.toNat % 64 = 0 → ∀ (dst : List (Nat × Nat × BitVec 2)) (s2 : State),
      ownScratch (.ac n 5) n .write vb (colSpan w (if f then 1 else 2)) s1 = .ok dst s2 → axClear n dst s2 = .ok () s2 →
      ∃ (t : State) (ws : List PWrite), exec (.ackr h f ln a b) s = .next t ∧ InFlight n w.tile ws t ∧ (t.ac n).tiles = (s2.ac n).tiles
        ∧ (t0.isRef = true → w.cols = 1 → ws = pieceWrites (dieOf n) (s1.opTag (.ac n 5)) vb.toNat (slice 0 (w.rows * (if f then 1 else 2)) dst)
          ((List.range w.rows).flatMap fun i => if f
            then leBytes 1 (BitVec.ofInt 8 (satInt (roundInt .rne 0 (.scaled (8 * t0.fast (1024 * (w.row0 + i) + w.col0)) (-4))) (-127) 127)).toNat
            else leBytes 2 (BitVec.ofInt 16 (8 * t0.slow (1024 * (w.row0 + i) + w.col0))).toNat)))
    ∧ (t0.mode ≠ 2 → ∀ (d b c : BitVec 6), let ctl := x.xr d.toNat
      let vb := x.xr b.toNat
      let vc := x.xr c.toNat
      ctlOk ctl true = true → vb.toNat < 2 ^ 55 → vb.toNat % 64 = 0 → vc.toNat < 2 ^ 55 → vc.toNat % 64 = 0 →
      ∀ (rp cp : List (Nat × Nat × BitVec 2)) (s2 s3 : State), ownScratch (.ac n 5) n .read vb (4 * w.rows) s1 = .ok rp s2 →
      ownScratch (.ac n 5) n .read vc (4 * w.cols) s2 = .ok cp s3 → axClear n (rp ++ cp) s3 = .ok () s3 →
      (∀ s4 : State, axGate n ctl s3 = .ok true s4 → ∃ t : State, EngEnds n .ax (.aupd h d a b c) (.axGateRead n) s t ∧ TilesBut n w.tile s4 t
        ∧ (t.tile n w.tile).lf = (s4.tile n w.tile).lf ∧ (t.tile n w.tile).plf = (s4.tile n w.tile).plf
        ∧ (t.tile n w.tile).r 9 = (s4.tile n w.tile).r 9 + 1)
      ∧ (∀ (rc cc : List Byte) (s4 s5 s6 : State), axGate n ctl s3 = .ok false s4 → readPieces (.ac n 5) 4 rp s4 = .ok rc s5 →
        readPieces (.ac n 5) 4 cp s5 = .ok cc s6 → ∃ t : State, EngEnds n .ax (.aupd h d a b c) (.axGateRead n) s t ∧ InFlight n w.tile [] t ∧ TilesBut n w.tile s6 t
          ∧ t.tile n w.tile = (update n w (bits ctl 0 8) (ctl.getLsbD 8) (elems 4 rc) (elems 4 cc) ({ s6.tile n w.tile with now := s6.cycle }, s6.seq)).1))
    ∧ (t0.mode ≠ 2 → t0.mode ≠ 3 → ∀ (d : BitVec 6), let ctl := x.xr d.toNat
      ctlOk ctl false = true →
      (∀ s2 : State, axGate n ctl s1 = .ok true s2 → ∃ t : State, EngEnds n .ax (.axfer h d a) (.axGateRead n) s t ∧ (t.tile n w.tile).r 9 = (s2.tile n w.tile).r 9 + 1
        ∧ (t.tile n w.tile).ls = (s2.tile n w.tile).ls ∧ (t.tile n w.tile).pls = (s2.tile n w.tile).pls)
      ∧ (∀ s2 : State, axGate n ctl s1 = .ok false s2 → ∃ t : State, EngEnds n .ax (.axfer h d a) (.axGateRead n) s t ∧ InFlight n w.tile [] t ∧ TilesBut n w.tile s2 t
        ∧ t.tile n w.tile = (transfer w ({ s2.tile n w.tile with now := s2.cycle }, s2.seq)).1))
    ∧ (t0.mode ≠ 2 → ∀ (b : Src), let k := (x.src b).toNat
      (1 ≤ k → k ≤ 255 → ∃ t : State, exec (.acal h a b) s = .next t ∧ InFlight n w.tile [] t ∧ TilesBut n w.tile s1 t
        ∧ t.tile n w.tile = (calibrate n w k ({ s1.tile n w.tile with now := s1.cycle }, s1.seq)).1)
      ∧ (k = 0 ∨ 255 < k → exec (.acal h a b) s = .next (engFault n .ax 0x02 (x.src b) 0 s)))
    ∧ (t0.mode ≠ 2 → (∀ c ∈ (s1.ac n).axq, c.done = true) → ∀ (d b c : BitVec 6), let ctl := x.xr d.toNat
      let vc := x.xr c.toNat
      ctlOk ctl false = true → vc.toNat < 2 ^ 55 → vc.toNat % 64 = 0 → ∀ (rp : List (Nat × Nat × BitVec 2)) (s2 s3 : State),
      ownScratch (.ac n 5) n .write vc (2 * w.rows) s1 = .ok rp s2 → axGate n ctl s2 = .ok false s3 → (t0.r 7).getLsbD 63 = false →
      ∃ (t : State) (front : List AxCmd) (e : AxCmd), EngEnds n .ax (.aprog h .fsym d a b c) (.axGateRead n) s t ∧ (t.ac n).axq = front ++ [e] ∧ e.tile = w.tile
        ∧ e.done = false ∧ e.form = 2 ∧ e.win = x.src a ∧ e.rows.map (·.row) = (List.range w.rows).map (w.row0 + ·)
        ∧ TilesBut n w.tile s3 t ∧ (t.tile n w.tile).lf = (s3.tile n w.tile).lf ∧ (t.tile n w.tile).plf = (s3.tile n w.tile).plf)
    ∧ (t0.mode = 2 → ∀ (d : BitVec 6) (b : Src), exec (.acal h a b) s = .next (engFault n .ax 0x12 (x.src a) 0 s)
      ∧ exec (.axfer h d a) s = .next (engFault n .ax 0x12 (x.src a) 0 s))

/-! ### The matrix engine -/

/-- An entry has been pushed onto the tile queue: its number on TL.MX is in sD, and nothing else of MX has changed (R411). -/
def Sys2Proof.TilePushed (n : Nat) (d : BitVec 6) (q : TQEntry) (s t : State) : Prop :=
  let k := (s.ac n).ln.issueCount 3 + 1
  (t.ac n).mxu = { (s.ac n).mxu with tq := (s.ac n).mxu.tq ++ [{ q with num := k }], pcs := (t.ac n).mxu.pcs }
    ∧ smGet 0 (t.ac n).mxu.pcs k = (s.ac n).cc.pc ∧ (t.ac n).ln.issueCount 3 = k
    ∧ (d ≠ 0 → (t.ac n).cc.s d = BitVec.ofNat 64 k) ∧ SRegsBut [d] (s.ac n).cc (t.ac n).cc ∧ PredsBut [] (s.ac n).cc (t.ac n).cc
    ∧ SysBut [] (s.ac n).cc (t.ac n).cc ∧ CcSame (s.ac n).cc (t.ac n).cc ∧ OnlyAc n s t

/-- R411, R412, R416, R418 to R420: what the instructions of row 0x7_ do outside a handler. MXCFG writes a shadow register, MXFMT queues a format word, and the others push an entry that holds a snapshot; a push waits while
its queue is full. MXSTAT reads MX. MXSAVE writes the image and empties the queues, and MXREST restores what an image holds. In a handler they are illegal until MX has been saved. The model's choices in it: log entries 45 and 120 (MXDRAIN's faults). -/
def Obligations.MatrixControl : Prop :=
  ∀ (n : Nat) (s : State) (h : Head), CcActs n h s →
    let m := (s.ac n).mxu
    let may := (s.ac n).cc.h = false ∨ m.saved = true
    let v := fun (a : Src) => (s.ac n).cc.src a
    (∀ (k : BitVec 6) (a : Src), (k.toNat ≤ 12 ∨ (16 ≤ k.toNat ∧ k.toNat ≤ 33)) → may →
      ∃ t : State, exec (.mxcfg h k a) s = .next t ∧ OnlyAc n s t ∧ (t.ac n).cc = (s.ac n).cc.retire h .seq
        ∧ smGet 0 (t.ac n).mxu.sh k.toNat = v a ∧ (∀ j, j ≠ k.toNat → smGet 0 (t.ac n).mxu.sh j = smGet 0 m.sh j)
        ∧ (t.ac n).mxu = { m with sh := (t.ac n).mxu.sh })
    ∧ (∀ (k : BitVec 6) (a : Src), ¬(k.toNat ≤ 12 ∨ (16 ≤ k.toNat ∧ k.toNat ≤ 33)) →
      exec (.mxcfg h k a) s = .next (syncTrap n 0x01 8 (word0 (.mxcfg h k a)) s))
    ∧ (∀ a : Src, may → (m.fq.length < 8 → ∃ t : State, exec (.mxfmt h a) s = .next t ∧ OnlyAc n s t
        ∧ (t.ac n).cc = (s.ac n).cc.retire h .seq ∧ (t.ac n).mxu = { m with fq := m.fq ++ [v a] })
      ∧ (8 ≤ m.fq.length → ∃ t : State, exec (.mxfmt h a) s = .next t ∧ CcWaits n (.mxfmt h a) s t))
    ∧ (∀ (d : BitVec 6) (a : Src), may → m.tq.length < 8 →
      ((v a).toNat ≤ 3 → ∃ t : State, exec (.mxzero h d a) s = .next t ∧ TilePushed n d ⟨1, [], (v a).toNat, false, false, 0, 0⟩ s t)
      ∧ ((v a).toNat ≤ 4 → ∃ t : State, exec (.mxmode h d a) s = .next t ∧ TilePushed n d ⟨3, [], 0, false, false, (v a).toNat, 0⟩ s t)
      ∧ ((v a).toNat ≤ 3 → ∀ (tr bf : Bool) (q : TQEntry), q.kind = 2 → q.acc = (v a).toNat → q.t = tr → q.bf = bf → q.mode = 0 → q.num = 0 →
        q.sh = snapshot m drainRegs →
        (drainBad q = none → ∃ t : State, exec (.mxdrain h tr bf d a) s = .next t ∧ TilePushed n d q s t ∧ ∀ j ∈ [4, 10, 11, 12], q.s j = smGet 0 m.sh j)
        ∧ (∀ b, drainBad q = some b → (b = smGet 0 m.sh 4 ∨ b = smGet 0 m.sh 10) ∧ exec (.mxdrain h tr bf d a) s = .next (syncTrap n 0x02 b 0 s)))
      ∧ ((v a).toNat ≤ 3 → ∀ q : TQEntry, q.kind = 0 → q.acc = (v a).toNat → q.t = false → q.bf = false → q.mode = 0 → q.num = 0 →
        q.sh = snapshot m tileRegs →
        (mxgoBad q = none → ∃ t : State, exec (.mxgo h d a) s = .next t ∧ TilePushed n d q s t ∧ ∀ j ∈ tileRegs, q.s j = smGet 0 m.sh j)
        ∧ (∀ b, mxgoBad q = some b → exec (.mxgo h d a) s = .next (syncTrap n 0x02 b 0 s)))
      ∧ (3 < (v a).toNat → exec (.mxgo h d a) s = .next (syncTrap n 0x02 (v a) 0 s) ∧ exec (.mxzero h d a) s = .next (syncTrap n 0x02 (v a) 0 s)))
    ∧ (∀ (d : BitVec 6) (a : Src), may → m.tq.length = 8 → (v a).toNat ≤ 3 →
      ∃ t : State, exec (.mxzero h d a) s = .next t ∧ CcWaits n (.mxzero h d a) s t)
    ∧ (∀ (k : BitVec 3) (d : BitVec 6), ∃ t : State, exec (.mxstat h k d) s = .next t ∧ CcFrame n [d] [] [] s t
      ∧ (d ≠ 0 → (t.ac n).cc.s d = match k.toNat with
        | 0 => BitVec.ofNat 64 (m.rowprog % 128)
        | 1 => BitVec.ofNat 64 m.mode
        | 2 => BitVec.ofNat 64 m.tq.length
        | 3 => BitVec.ofNat 64 m.fq.length
        | 4 => m.resev
        | 5 => m.dupev
        | 6 => m.chkrot.setWidth 64
        | _ => BitVec.ofNat 64 (m.nfops.toNat * 2 ^ 32 + m.saved.toNat)))
    ∧ (∀ (a : BitVec 6) (s1 : State), let va := (s.ac n).cc.s a
      va.toNat % 256 = 0 → m.saved = false → writeReleased (.ac n 0) .ac va m.image s = .ok () s1 →
      ∃ t : State, exec (.mxsave h a) s = .next t ∧ t.mem = s1.mem ∧ t.hist = s1.hist ∧ (t.ac n).mxu.tq = [] ∧ (t.ac n).mxu.fq = []
        ∧ (t.ac n).mxu.run = none ∧ (t.ac n).mxu.saved = true ∧ (t.ac n).mxu.acc = (s1.ac n).mxu.acc ∧ (t.ac n).mxu.sh = (s1.ac n).mxu.sh)
    ∧ (∀ (a : BitVec 6) (b : List Byte) (s1 : State), let va := (s.ac n).cc.s a
      may → va.toNat % 256 = 0 → readAcquired (.ac n 0) .ac va 69632 8 s = .ok b s1 → b.length = 69632 →
      ∃ t : State, exec (.mxrest h a) s = .next t ∧ t.mem = s1.mem ∧ (t.ac n).mxu.saved = false
        ∧ (∀ k, k < 16384 → smGet 0 (t.ac n).mxu.acc k = BitVec.ofNat 32 (leNat ((b.drop (4 * k)).take 4)))
        ∧ ((t.ac n).mxu.mode = leNat ((b.drop (65536 + 256 + 8)).take 8) % 8))
    ∧ ((s.ac n).cc.h = true → m.saved = false → ∀ (d : BitVec 6) (a : Src),
      exec (.mxgo h d a) s = .next (syncTrap n 0x13 (word0 (.mxgo h d a)) 0 s) ∧ exec (.mxfmt h a) s = .next (syncTrap n 0x13 (word0 (.mxfmt h a)) 0 s))

/-- R413, R216: a stream of products into an accumulator element, K-group after K-group of 8 products: each group is summed exactly with the element, and
rounded once in MX's mode, with the random number of its group. -/
def Sys2Proof.MacSum (md : RMode) (rand : Nat → W32) (ps : List (FVal × FVal)) (before after : W32) : Prop :=
  ∃ acc : Nat → W32, acc 0 = before ∧ acc ((ps.length + 7) / 8) = after
    ∧ ∀ g, 8 * g < ps.length →
      acc (g + 1) = toF32 md (rand g) false (sumExact md (f32 (acc g) :: ((ps.drop (8 * g)).take 8).map fun p => mulX p.1 p.2))

/-- The array and matrix events find what they complete: the tile commands, drains and mode changes at the head of the tile queue (R413 to R417, R156), the array commands in flight (R396, R397, R407), admission
under the power cap (R494), and the drift of physical cells (R410). A row takes its stream of products into each of its accumulator elements, and a fault leaves it as it was. The model's choices in it: log entries 10, 33, 63, 64 and 122. -/
def Obligations.ArrayMatrixEvents : Prop :=
  ∀ (n : Nat) (s : State),
    (∀ c : AxCmd, (s.ac n).axq = [c] → c.done = false → c.waiting = false → c.give = 0 → c.rows = [] →
      ∃ t : State, exec (.arrayCommandComplete n) s = .next t ∧ (t.ac n).axq = [] ∧ t.mem = s.mem ∧ (t.ac n).tiles = (s.ac n).tiles
        ∧ (t.agent (.ac n 5)).pend = (s.agent (.ac n 5)).pend ++ c.writes ∧ (t.die (dieOf n)).pactive = (s.die (dieOf n)).pactive - 1)
    ∧ (∀ (c : AxCmd) (p : ProgRow) (rest : List ProgRow) (w : Win), (s.ac n).axq = [c] → c.done = false → c.waiting = false →
      c.rows = p :: rest → rest ≠ [] → winOf c.win = some w →
      ∃ t : State, exec (.arrayCommandComplete n) s = .next t ∧ (t.ac n).axq = [{ c with rows := rest, slack := (((t.ac n).axq.map (·.slack))[0]?).getD 0 }]
        ∧ t.mem = s.mem ∧ TilesBut n c.tile s t
        ∧ (t.tile n c.tile).r 8 = BitVec.ofNat 64 ((p.row + 1) % 1024)
        ∧ ((s.tile n c.tile).isRef = true → c.form = 1 → ∀ j, j < w.cols →
          (t.tile n c.tile).fast (1024 * p.row + (w.col0 + j)) = Max.max (-255) (Min.min 255 (p.targets.getD j 0))))
    ∧ (∀ i : Instr, (s.ac n).ax.wait = some i → (s.ac n).ax.xl = none → (s.ac n).ax.giveN = 0 → (s.ac n).cc.entry = none →
      ((∃ h d a b c, i = .aupd h d a b c) ∨ (∃ h d a, i = .axfer h d a) ∨ ∃ h k d a b c, i = .aprog h k d a b c) →
      ∃ t : State, exec (.axGateRead n) s = .next t ∧ exec i { s with cur := engAgent n .ax } = .next t)
    ∧ (∀ (d : Nat) (w : PowerWait) (rest : List PowerWait) (c : AxCmd), (s.die d).pwait = w :: rest → (s.die d).pactive < actCap (s.die d) →
      ((s.ac w.ac).axq.find? fun c => c.waiting && c.tile == w.tile) = some c →
      ∃ t : State, exec (.powerAdmit d) s = .next t ∧ (t.die d).pwait = rest ∧ (t.die d).pactive = (s.die d).pactive + 1 ∧ t.mem = s.mem
        ∧ ({ c with waiting := false } : AxCmd) ∈ (t.ac w.ac).axq ∧ (t.ac w.ac).axq.length = (s.ac w.ac).axq.length)
    ∧ (∀ tile : Nat, ∃ t : State, exec (.cellDrift n tile) s = .next t ∧ TilesBut n tile s t ∧ t.mem = s.mem ∧ t.dies = s.dies
      ∧ (t.tile n tile).lf = (s.tile n tile).lf ∧ (t.tile n tile).ls = (s.tile n tile).ls ∧ (t.tile n tile).sc = (s.tile n tile).sc
      ∧ (t.tile n tile).spr = (s.tile n tile).spr ∧ (t.tile n tile).reg = (s.tile n tile).reg)
    ∧ (∀ (q : TQEntry) (rest : List TQEntry), mxFree (s.ac n) = true → (s.ac n).mxu.tq = q :: rest →
      let m := (s.ac n).mxu
      (q.kind = 3 → ∃ t : State, exec (.mxModeChange n) s = .next t
        ∧ (t.ac n).mxu = { m with mode := q.mode, tq := rest, run := none, taken := false, pcs := smErase m.pcs q.num } ∧ (q.num ≠ 0 → (3, q.num) ∈ (t.ac n).ln.tlDone))
      ∧ (q.kind = 1 → ∃ t : State, exec (.mxZero n) s = .next t ∧ (t.ac n).mxu.tq = rest ∧ (q.num ≠ 0 → (3, q.num) ∈ (t.ac n).ln.tlDone)
        ∧ ∀ b i j, i < 64 → j < 64 → (smSorted 0 m.acc = true) →
          smGet 0 (t.ac n).mxu.acc (4096 * b + 64 * i + j) = if b = q.acc then 0 else smGet 0 m.acc (4096 * b + 64 * i + j))
      ∧ (∀ (w : W64) (fr : List W64) (ta tb : Tdt) (s2 : State), q.kind = 0 → q.takes = 0 → m.run = none → m.fq = w :: fr →
        let r : TileRun := ⟨w, [], [], 0, false, false, []⟩
        let s1 := acquire (.ac n 4) .ac (s.modMx n fun m => { m with fq := fr, run := some r, rowprog := 0 })
        mxChecks n q w s1 = .ok (ta, tb) s2 → ∃ t : State, exec (.mxTileStart n) s = .next t
          ∧ (t.ac n).mxu.run = some { r with tdtA := ta.words, tdtB := tb.words, ctr := (s2.ac n).cc.sr 0x0D3, go := true }
          ∧ (t.ac n).mxu.fq = fr ∧ (t.ac n).mxu.rowprog = 0 ∧ (t.ac n).mxu.tq = q :: rest
          ∧ (t.ac n).cc.sr 0x0D3 = (if (s2.ac n).mxu.mode = 4 then (s2.ac n).cc.sr 0x0D3 + 1 else (s2.ac n).cc.sr 0x0D3) ∧ t.mem = s2.mem)
      ∧ (∀ r : TileRun, q.kind = 0 → m.run = some r → r.go = true →
        (m.rowprog < q.mt → smSorted 0 m.acc = true → ∀ (x : RowOperands) (s1 : State), rowRead n q r m.rowprog s = .ok x s1 →
          ∃ t : State, exec (.mxRowCommit n false false) s = .next t ∧ (t.ac n).mxu.rowprog = m.rowprog + 1 ∧ t.mem = s1.mem
            ∧ (t.ac n).mxu.run = some { r with scales := x.scales }
            ∧ (∀ j c, x.cols[j]? = some c → MacSum (modeOf m.mode)
                (fun g => srHash (((s.ac n).cc.sr 0x0D2).setWidth 32) r.ctr (BitVec.ofNat 32 (4096 * g + 64 * m.rowprog + j))) (x.a.1.zip c.1)
                (smGet 0 m.acc (4096 * q.acc + 64 * m.rowprog + j)) (smGet 0 (t.ac n).mxu.acc (4096 * q.acc + 64 * m.rowprog + j)))
            ∧ ∀ key, (∀ j, j < q.nt → key ≠ 4096 * q.acc + 64 * m.rowprog + j) → smGet 0 (t.ac n).mxu.acc key = smGet 0 m.acc key)
        ∧ (m.rowprog < q.mt → ∀ (c : Nat) (i0 i1 : W64) (s1 : State), rowRead n q r m.rowprog s = .error (.trap c i0 i1) s1 →
          exec (.mxRowCommit n false false) s = .next ((engFault n .mx c i0 i1 s1).modMx n fun m => { m with tstop := true }))
        ∧ (m.rowprog < q.mt → ∀ s1 : State, rowStep n q r m.rowprog s = .ok () s1 →
          exec (.mxRowCommit n false false) s = .next s1 ∧ (s1.ac n).mxu.rowprog = m.rowprog + 1 ∧ (s1.ac n).mxu.tq = m.tq
          ∧ ∃ (t : State) (k : Nat), exec (.mxRowCommit n true true) s = .next t ∧ (t.ac n).mxu.acc = (s1.ac n).mxu.acc
            ∧ (t.ac n).mxu.resev = (s1.ac n).mxu.resev + BitVec.ofNat 64 k
            ∧ (let g := checkedInRow n q r m.rowprog s
              if g = 0 then k = 0 else 1 ≤ k ∧ k ≤ g)
            ∧ (t.ac n).mxu.dupev = (s1.ac n).mxu.dupev + (if r.dup = false ∧ m.chkrot.toNat < q.nt ∧ 0 < q.k then 1 else 0))
        ∧ (q.mt ≤ m.rowprog → q.gives = 0 → ∃ t : State, exec (.mxTileComplete n) s = .next t ∧ (t.ac n).mxu.tq = rest ∧ (t.ac n).mxu.run = none
          ∧ (t.ac n).mxu.chkrot = m.chkrot + 1 ∧ (q.num ≠ 0 → (3, q.num) ∈ (t.ac n).ln.tlDone) ∧ (t.ac n).mxu.acc = m.acc))
      ∧ (∀ r : TileRun, q.kind = 2 → m.run = some r → r.go = false → q.takes = 0 → q.gives = 0 → ∀ s1 : State,
        ((drainWrites m q).forM fun (x : W64 × List Byte) => writeRange (.ac n 4) x.1 x.2) s = .ok () s1 →
        ∃ t : State, exec (.mxDrain n) s = .next t ∧ t.mem = (release (.ac n 4) .ac s1).mem ∧ (t.ac n).mxu.tq = rest
          ∧ (t.ac n).mxu.acc = (s1.ac n).mxu.acc ∧ (q.num ≠ 0 → (3, q.num) ∈ (t.ac n).ln.tlDone)))

/-! ### Ends of waits -/

/-- The events that end the wait of an instruction of the CC (Table 2-10, R287). -/
def Sys2Proof.EndsWait (n : Nat) (i ev : Instr) : Prop :=
  ((∃ h f d a b, i = .pwait h f d a b) ∧ ev = .pwaitDone n)
  ∨ ((∃ h f d a b c, i = .cpyw h f d a b c) ∧ (ev = .cpywDone n ∨ ev = .cpywTimeout n))
  ∨ ((∃ h sc c b, i = .tlwait h sc c b) ∧ ev = .tlwaitPass n)
  ∨ ((∃ h sc, i = .nmfence h sc) ∧ ev = .nmfenceDone n)
  ∨ ((∃ h d a, i = .rwait h d a) ∧ ev = .rwaitArrive n)
  ∨ ((∃ h, i = .wfe h) ∧ ev = .wfeWake n)
  ∨ ((∃ h a, i = .join h a) ∧ ev = .joinDone n)
  ∨ ((∃ h d, i = .retq h d) ∧ ev = .retqArrive n)

/-- R287, R153, R156, R223, R228, R320, R436, Table 8-4: an event that ends a wait runs the waiting instruction's own test and effect. A timeline
counter shows the run of completed numbers and sets the event flag. An engine takes a token it waits for, and gives those it owes once they all fit.
The guard at a queue's head is resolved, and an IDLE engine starts the routine entry there. The model's choices in it: log entry 37. -/
def Obligations.WaitEvents : Prop :=
  ∀ (n : Nat) (s : State),
    (∀ i ev : Instr, EndsWait n i ev → CcIn n i s →
      ∃ t : State, exec ev s = .next t ∧ exec i { s with cur := .ac n 0 } = .next t)
    ∧ (∀ (w : PushWait) (old new : List PushWait), (s.ac n).ln.pushWait = old ++ w :: new → QueueRoom (s.ac n) w.queue w.need →
      (∀ x ∈ old, ¬QueueRoom (s.ac n) x.queue x.need) →
      (∀ i : Instr, w.who = 0 → CcIn n i s → ((∃ h e k blk b, i = .pushc h e k blk b) ∨ ∃ h e k blk, i = .pushk h e k blk) →
        ∃ t : State, exec (.queuePushGrant n) s = .next t ∧ exec i { s with cur := .ac n 0 } = .next t)
      ∧ (∀ (h : Head) (e : Eid) (k : BitVec 3) (blk : BitVec 6), w = ⟨0, eidCode e - 1, if k.toNat = 4 then 2 else 1⟩ → CcIn n (.pushk h e k blk) s →
        CcActs n h { s with cur := .ac n 0 } → ∃ t : State, exec (.queuePushGrant n) s = .next t ∧ (t.ac n).cc = (s.ac n).cc.retire h .seq
          ∧ ((t.ac n).eng e).q = ((s.ac n).eng e).q ++ [pushed h (s.ac n).cc 1 k blk 0 0])
      ∧ ∀ (e : Eid) (h : Head) (a : Src), w.who = eidCode e → EngIn n e (.eret h a) s →
        ∃ t : State, exec (.queuePushGrant n) s = .next t ∧ exec (.eret h a) { s with cur := engAgent n e } = .next t)
    ∧ ((∀ w ∈ (s.ac n).ln.pushWait, ¬QueueRoom (s.ac n) w.queue w.need) → exec (.queuePushGrant n) s = .next s)
    ∧ (∀ (h : Head) (a b c : BitVec 6), EngIn n .vs (.rput h a b c) s →
      ∃ t : State, exec (.rputSlotFree n) s = .next t ∧ exec (.rput h a b c) { s with cur := engAgent n .vs } = .next t)
    ∧ (∀ k : Nat,
      ((s.ac n).ln.shown k < (s.ac n).ln.ready k → ∃ t : State, exec (.timelineComplete n k) s = .next t ∧ OnlyAc n s t
        ∧ (t.ac n).ln.shown k = (s.ac n).ln.ready k ∧ (t.ac n).cc = { (s.ac n).cc with evt := true }
        ∧ ∀ j, j ≠ k → (t.ac n).ln.shown j = (s.ac n).ln.shown j)
      ∧ (¬(s.ac n).ln.shown k < (s.ac n).ln.ready k → exec (.timelineComplete n k) s = .next s))
    ∧ (∀ (e : Eid) (i : Instr) (m : Nat), ((s.ac n).eng e).wait = some i → takeField i ≠ 0 → ((s.ac n).eng e).etok < tokenNeed i →
      (s.ac n).ln.tokens (takeField i) (eidCode e) = m + 1 →
      ∃ t : State, exec (.tokenTake n e) s = .next t ∧ (t.ac n).ln.tokens (takeField i) (eidCode e) = m
        ∧ ((t.ac n).eng e).etok = ((s.ac n).eng e).etok + 1 ∧ (t.ac n).cc = (s.ac n).cc ∧ t.mem = s.mem ∧ ∀ j, j ≠ n → t.ac j = s.ac j)
    ∧ (∀ (e : Eid) (g k : Nat), ((s.ac n).eng e).giveE = g → ((s.ac n).eng e).giveN = k → k ≠ 0 →
      ((s.ac n).ln.tokens (eidCode e) g + k ≤ 16 → ∃ t : State, exec (.tokenGive n e) s = .next t
        ∧ (t.ac n).ln.tokens (eidCode e) g = (s.ac n).ln.tokens (eidCode e) g + k ∧ ((t.ac n).eng e).giveN = 0)
      ∧ (16 < (s.ac n).ln.tokens (eidCode e) g + k → exec (.tokenGive n e) s = .next s))
    ∧ (∀ (e : Eid) (q : QEntry) (rest : List QEntry), ((s.ac n).eng e).q = q :: rest →
      (∀ v : Bool, q.gen = true → (s.ac n).cc.guard q.gslot.toNat = some v → (v ^^ q.gneg) = false →
        (∀ q2 r2, rest = q2 :: r2 → q2.gen = false) → ∃ t : State, exec (.guardResolve n e) s = .next t
          ∧ ((t.ac n).eng e).q = rest ∧ (q.kind = 0 → q.num ≠ 0 → (eidCode e - 1, q.num) ∈ (t.ac n).ln.tlDone) ∧ (t.ac n).cc = (s.ac n).cc)
      ∧ (q.gen = false ∨ (s.ac n).cc.guard q.gslot.toNat = none ∨ (s.ac n).cc.guard q.gslot.toNat = some (!q.gneg) →
        exec (.guardResolve n e) s = .next s))
    ∧ (∀ (e : Eid) (q : QEntry) (rest : List QEntry) (tk : Task), ((s.ac n).eng e).q = q :: rest → q.gen = false → ((s.ac n).eng e).idle = true →
      (s.ac n).cc.task = some tk → (s.ac n).cc.entry = none → (s.ac n).cc.saving = false → (e = .mx → (s.ac n).mxu.run = none) →
      (q.kind = 0 → ∃ t : State, exec (.engineEntryStart n e) s = .next t ∧ ((t.ac n).eng e).st = 1 ∧ ((t.ac n).eng e).q = rest
        ∧ ((t.ac n).eng e).upc = addr55 (tk.code + q.offset.setWidth 64) ∧ ((t.ac n).eng e).num = q.num
        ∧ (∀ j, j < 4 → j < q.nops → j < q.ops.length → ((t.ac n).eng e).xr (12 + j) = q.ops.getD j 0)
        ∧ (t.ac n).cc = (s.ac n).cc ∧ t.mem = s.mem)
      ∧ (q.kind ≠ 0 → exec (.engineEntryStart n e) s = .next (engFault n e 0x0E (BitVec.ofNat 64 (eidCode e)) 0 s)))

/-! ### Dispatch -/

/-- No access of the dispatch hardware of a die is held for a replay. -/
def Sys2Proof.DispFree (d : Nat) (s : State) : Prop := ∀ w ∈ (s.die d).waits, w.who ≠ .disp d

/-- R253: the condition of a continuation holds: its counter shows the count, or what stands at WADDR, read with an acquire, has the tag or every bit of the
mask; s1 is the state after that read. -/
def Sys2Proof.ContHolds (d : Nat) (c : Cont) (s s1 : State) : Prop :=
  (c.wkind = 1 ∧ c.wval0.toNat ≤ (s.ac c.origin).ln.shown (5 + c.ctx) ∧ s1 = s)
  ∨ (c.wkind = 2 ∧ ∃ (b : List Byte) (u : State), strongRead (.disp d) .fab c.waddr 8 s = .ok b u
      ∧ (((le64 b).toNat / 2 ^ 32 : Int) - (c.wval0.toNat % 2 ^ 32 : Int)) % 2 ^ 32 < 2 ^ 31 ∧ s1 = acquire (.disp d) .fab u)
  ∨ (c.wkind = 3 ∧ ∃ (ps : List (Nat × Nat × BitVec 2)) (lo hi : List Byte) (u v w : State), reach (.disp d) .read c.waddr.toNat 16 s = .ok ps u
      ∧ strongRead (.disp d) .pkg c.waddr 8 u = .ok lo v ∧ strongRead (.disp d) .pkg (c.waddr + 8) 8 v = .ok hi w
      ∧ le64 lo &&& c.wval0 = c.wval0 ∧ le64 hi &&& c.wval1 = c.wval1 ∧ s1 = acquire (.disp d) .pkg w)

/-- R239, R241, R253, R425 to R430, R250: the launch table. The head of the launch queue enters the lowest free entry once its record can be read, unless the record breaks
a rule. A launch in DEP reads its counter, and runs once the counter has reached its count. The next epoch starts once every task of the current one
has ended and what its clusters released has been performed. A waiting continuation becomes ready when its condition holds. A launch in DRAIN with nothing outstanding completes and leaves its entry. A cancelled one is in DRAIN with no
coordinates left. The model's choices in it: log entries 59, 60, 61 and 100. -/
def Obligations.LaunchEvents : Prop :=
  ∀ (d : Nat) (s : State), DispFree d s →
    (∀ (q : LqEntry) (rest : List LqEntry) (l : Nat) (b : List Byte) (s1 : State), (s.die d).launchQ = q :: rest →
      ((List.range 64).find? fun l => (smFind (s.die d).ltab l).isNone) = some l → readAcquired (.disp d) .pkg q.lrec 256 8 s = .ok b s1 →
      let r := words64 b
      (∀ s2 s3 : State, rejectReason r = none → rw r 7 ≠ 0 → readHanded d (rw r 5) s1 = .ok () s2 → readHanded d (rw r 6) s2 = .ok () s3 →
        ∃ t : State, exec (.launchQueueAdmit d) s = .next t ∧ (t.die d).launchQ = (s3.die d).launchQ.drop 1
        ∧ (t.lent d l).st = 1 ∧ (t.lent d l).launch = q.launch ∧ (t.lent d l).lrecVa = q.lrec ∧ (t.lent d l).lrec = r ∧ t.mem = s3.mem ∧ t.acs = s3.acs)
      ∧ (∀ k : Nat, rejectReason r = some k → ∃ t : State, exec (.launchQueueAdmit d) s = .next t
        ∧ (t.die d).launchQ = (s1.die d).launchQ.drop 1 ∧ (t.die d).ltab = (s1.die d).ltab ∧ (t.die d).frSeq = (s1.die d).frSeq + 1
        ∧ t.mem = s1.mem))
    ∧ (∀ (l : Nat) (ps : List (Nat × Nat × BitVec 2)) (b : List Byte) (s0 s1 : State), let e := s.lent d l
      e.st = 1 → e.cancelled = false → e.paused = false → rw e.lrec 7 ≠ 0 → (e.depAt = none ∨ e.depseen.toNat < (rw e.lrec 8).toNat) →
      reach (.disp d) .read (rw e.lrec 7).toNat 8 (s.modLent d l fun e => { e with depAt := none }) = .ok ps s0 →
      strongRead (.disp d) .pkg (rw e.lrec 7) 8 s0 = .ok b s1 → s1.lent d l = { e with depAt := none } →
      let u := (acquire (.disp d) .pkg s1).modLent d l fun e => { e with depseen := le64 b, depAt := some s1.cycle }
      ((le64 b).toNat < (rw e.lrec 8).toNat → ∃ t : State, exec (.dependenceRead d l) s = .next t
        ∧ t.lent d l = { e with depseen := le64 b, depAt := some s1.cycle } ∧ t.mem = u.mem
        ∧ ∀ x ∈ ps.head?, inHbm x.1 = true → (canonPa d x.1 / 64 * 64, d, 256 + l) ∈ t.watch)
      ∧ ((rw e.lrec 8).toNat ≤ (le64 b).toNat → lrCond e.lrec = false → lrPersist e.lrec = false → lrEpochs e.lrec ≠ 0 → lrTasks e.lrec ≠ 0 →
        ∀ (v s2 : State) (qs : List (Nat × Nat × BitVec 2)),
        v = { u with watch := u.watch.filter fun w => w.2 != (d, 256 + l) }.modLent d l (fun e => { e with st := 2 }) → DispFree d v →
        reach (.disp d) .read e.lrecVa.toNat 256 v = .ok qs s2 → s2.lent d l = v.lent d l →
        ∃ t : State, exec (.dependenceRead d l) s = .next t ∧ (t.lent d l).st = 2 ∧ (t.lent d l).depseen = le64 b)
      ∧ ((rw e.lrec 8).toNat ≤ (le64 b).toNat → lrCond e.lrec = false → lrEpochs e.lrec = 0 ∨ lrTasks e.lrec = 0 →
        ∃ t : State, exec (.dependenceRead d l) s = .next t ∧ (t.lent d l).st = 3))
    ∧ (∀ l : Nat, let e := s.lent d l
      e.st = 2 → e.cancelled = false → e.paused = false → e.placed = true → lrPersist e.lrec = false →
      (e.epDone < lrTasks e.lrec ∨ lrEpochs e.lrec ≤ e.epoch + 1 → exec (.epochStart d l) s = .next s)
      ∧ (lrTasks e.lrec ≤ e.epDone → e.epoch + 1 < lrEpochs e.lrec → ∀ u : State, u = releaseEpoch e.ran e.launch (transitionScope e.lrec e.epoch) s →
        u.settledAcs (transitionScope e.lrec e.epoch) e.ran = false → exec (.epochStart d l) s = .next u)
      ∧ (lrTasks e.lrec ≤ e.epDone → e.epoch + 1 < lrEpochs e.lrec → ∀ (u s1 : State) (ps : List (Nat × Nat × BitVec 2)),
        u = releaseEpoch e.ran e.launch (transitionScope e.lrec e.epoch) s → DispFree d u →
        u.settledAcs (transitionScope e.lrec e.epoch) e.ran = true →
        reach (.disp d) .read e.lrecVa.toNat 256 (u.modLent d l fun e => { e with epoch := e.epoch + 1, epDone := 0, placed := false, ran := [] })
          = .ok ps s1 → s1.lent d l = { u.lent d l with epoch := e.epoch + 1, epDone := 0, placed := false, ran := [] } →
        u.lent d l = e →
        ∃ t : State, exec (.epochStart d l) s = .next t ∧ (t.lent d l).epoch = e.epoch + 1 ∧ (t.lent d l).epDone = 0 ∧ t.mem = s1.mem))
    ∧ (∀ (rec' : Nat) (c : Cont), ((s.die d).conts.find? fun c => c.va.toNat == rec') = some c → c.ready = false →
      (c.wkind = 1 → (s.ac c.origin).ln.shown (5 + c.ctx) < c.wval0.toNat → exec (.continuationReady d rec') s = .next s)
      ∧ (∀ s1 s2 : State, ContHolds d c s s1 → contState d c 2 s1 = .ok () s2 → c ∈ (s2.die d).conts →
        ∃ t : State, exec (.continuationReady d rec') s = .next t ∧ { c with ready := true, readyAt := s2.cycle } ∈ (t.die d).conts ∧ t.mem = s2.mem))
    ∧ (∀ l : Nat, let e := s.lent d l
      e.st = 3 → e.paused = false → s.running e.launch = [] →
      (e.cancelled = true → ∃ t : State, exec (.launchComplete d l) s = .next t ∧ smFind (t.die d).ltab l = none ∧ t.mem = s.mem)
      ∧ (e.cancelled = false → e.allDone = true → s.ioIdle e.launch = true → ∀ u : State,
        u = releaseTasks e.ranAll e.launch .pkg s → (u.settledAcs .pkg e.ranAll = false → exec (.launchComplete d l) s = .next u) ∧ (u.settledAcs .pkg e.ranAll = true → DispFree d u →
        (∀ s1 : State, completion d l e.lrec u = .ok () s1 → ∃ t : State, exec (.launchComplete d l) s = .next t ∧ smFind (t.die d).ltab l = none
          ∧ t.mem = s1.mem)
        ∧ (bits (rw e.lrec 11) 62 2 = 0 → ∃ t : State, exec (.launchComplete d l) s = .next t ∧ smFind (t.die d).ltab l = none ∧ t.mem = u.mem)
        ∧ (∀ s1 : State, bits (rw e.lrec 11) 62 2 = 2 → strongWrite (.disp d) .pkg (addr55 (rw e.lrec 11)) (bytes64 (rw e.lrec 12))
            (act (release (.disp d) .pkg)) u = .ok () s1 →
          ∃ t : State, exec (.launchComplete d l) s = .next t ∧ smFind (t.die d).ltab l = none ∧ t.mem = s1.mem))))
    ∧ (∀ l : Nat, let e := s.lent d l
      e.st ≠ 0 → e.cancelled = false → ∃ t : State, exec (.launchCancel d l) s = .next t ∧ (t.lent d l).st = 3 ∧ (t.lent d l).cancelled = true
        ∧ (∀ k, k < 4 → (∀ w ∈ (t.die k).walkers, w.2.launch ≠ e.launch) ∧ ∀ c ∈ (t.die k).conts, c.launch ≠ e.launch)
        ∧ t.mem = s.mem ∧ ∀ n, (t.ac n).cc = (s.ac n).cc)

/-- R219, R221, R423, R433, R164: an idle cluster of a die whose dispatch is enabled takes the coordinate of the first item, and its task starts: the PC at its entry, H = 0, IE = 1, s1 and s2 from
the record, and every other s register, predicate and token count zero. A cluster that is not idle, or whose die does not dispatch, decides nothing. -/
def Sys2Proof.ruleNewTask : Prop :=
  ∀ (n : Nat) (s : State),
    ((s.ac n).idle = false ∨ (s.reg (dieOf n) 0x23000).getLsbD 0 = false → exec (.dispatchDecision n) s = .next s)
    ∧ (∀ (x : Item) (s2 : State) (lin : Nat), (s.ac n).idle = true →
      (s.reg (dieOf n) 0x23000).getLsbD 0 = true → firstItem (s.items n) = some x → x.cont = none →
      s.takeWork n (s.lent x.d x.l) = some (lin, s2) →
      ∃ (t : State) (tk : Task), exec (.dispatchDecision n) s = .next t ∧ (t.ac n).cc.task = some tk
        ∧ tk.lin = lin ∧ tk.die = x.d ∧ tk.ent = x.l ∧ tk.launch = (s2.lent x.d x.l).launch ∧ tk.lrec = (s2.lent x.d x.l).lrec
        ∧ tk.epoch = (s2.lent x.d x.l).epoch
        ∧ (t.ac n).cc.pc = addr55 (tk.code + BitVec.ofNat 64 (tk.entry 0)) ∧ (t.ac n).cc.h = false ∧ (t.ac n).cc.ie = true
        ∧ (t.ac n).cc.evt = false ∧ (t.ac n).cc.resumed = false ∧ (t.ac n).cc.la0 = false ∧ (t.ac n).cc.la1 = false
        ∧ (t.ac n).cc.s 1 = tk.word 6 ∧ (t.ac n).cc.s 2 = tk.word 5 ∧ (∀ r : BitVec 6, r ≠ 1 → r ≠ 2 → (t.ac n).cc.s r = 0)
        ∧ (∀ p : BitVec 4, (t.ac n).cc.p p = (p == 0)) ∧ (∀ g, (t.ac n).cc.guard g = none)
        ∧ (∀ e, ((t.ac n).eng e).q = [] ∧ ((t.ac n).eng e).st
          = if lrAutofork tk.lrec = true ∧ tk.entry (eidCode e) ≠ 0xFFFFFFFF then 1 else 0)
        ∧ (t.ac n).ln.tok = [] ∧ (t.ac n).ln.retq = [] ∧ t.mem = s2.mem)

/-- R254, R251, R219, R429: the first item of a decision is a ready continuation: its record is read with an acquire at .pkg and marked as taken, and the task goes on at the PC
of the record with the registers that it holds, its engines idle. A record that breaks Table 8-10 cancels the launch. -/
def Sys2Proof.ruleContinuationResume : Prop :=
  ∀ (n : Nat) (s s1 s2 : State) (x : Item) (cd : Nat) (c : Cont) (ps : List (Nat × Nat × BitVec 2)) (b : List Byte),
    (s.ac n).idle = true → (s.reg (dieOf n) 0x23000).getLsbD 0 = true → DispFree (dieOf n) s →
    firstItem (s.items n) = some x → x.cont = some (cd, c) → c.wkind ≠ 9 → cd < 4 → b.length = 256 →
    reach (.disp (dieOf n)) .read (s.lent x.d x.l).lrecVa.toNat 256 s = .ok ps s1 → readAcquired (.disp (dieOf n)) .pkg c.va 256 8 s1 = .ok b s2 →
    let e := s.lent x.d x.l
    let w := fun i : Nat => (words64 b).getD i 0
    let regs := maskRegs (w 1)
    (contOk (words64 b) = false → exec (.dispatchDecision n) s = .next (s2.cancelLaunch x.d x.l 0x100))
    ∧ (contOk (words64 b) = true → ∀ s3 : State, contState (dieOf n) c 3 s2 = .ok () s3 →
      ∃ (t : State) (tk : Task), exec (.dispatchDecision n) s = .next t ∧ (t.ac n).cc.task = some tk
        ∧ tk = ⟨e.launch, x.d, x.l, e.lrec, 0, e.epoch, true, x.prio, x.i⟩ ∧ (t.ac n).cc.resumed = true
        ∧ (t.ac n).cc.pc = addr55 (w 2) ∧ (t.ac n).cc.h = false ∧ (t.ac n).cc.ie = true
        ∧ (∀ k i, regs[k]? = some i → (t.ac n).cc.s (BitVec.ofNat 6 i) = w (8 + k))
        ∧ (∀ r : BitVec 6, r.toNat ∉ regs → (t.ac n).cc.s r = if r = 1 then tk.word 6 else if r = 2 then tk.word 5 else 0)
        ∧ (∀ p : BitVec 4, (t.ac n).cc.p p = (p == 0)) ∧ (∀ en, ((t.ac n).eng en).q = [] ∧ ((t.ac n).eng en).st = 0)
        ∧ c ∉ (t.die cd).conts ∧ (∀ c' ∈ (s3.die cd).conts, c' ≠ c → c' ∈ (t.die cd).conts) ∧ t.mem = s3.mem)

/-- The walker that a split of a launch by a cluster chooses: the one with the most coordinates left, of those the one on the nearer die, of those the one on
the lower die (R243). -/
def Sys2Proof.SplitsFrom (n launch vd slot : Nat) (w : Walker) (s : State) : Prop :=
  vd < 4 ∧ smFind (s.die vd).walkers slot = some w ∧ w.launch = launch ∧ w.next < w.stop
    ∧ ∀ d k v, d < 4 → (k, v) ∈ (s.die d).walkers → v.launch = launch → (d, k, v) ≠ (vd, slot, w) →
      v.stop - v.next < w.stop - w.next
      ∨ (v.stop - v.next = w.stop - w.next ∧ (hops (dieOf n) vd < hops (dieOf n) d ∨ (hops (dieOf n) vd = hops (dieOf n) d ∧ vd < d)))

/-- R243, R242, R433: a cluster that finds no item splits the walker of its one bound launch: the upper half, from a granule on, becomes a walker on its own die from which it takes the first
coordinate; with no free slot it takes the last granule as its claim; it stays idle where there is no whole granule to take, or where it holds a claim already. -/
def Sys2Proof.ruleSplit : Prop :=
  ∀ (n : Nat) (s : State) (i d l vd slot : Nat) (w : Walker), (s.ac n).idle = true → (s.reg (dieOf n) 0x23000).getLsbD 0 = true →
    firstItem (s.items n) = none → i < 8 → s.usable n i = some (d, l) → (∀ j, j < 8 → j ≠ i → s.usable n j = none) →
    s.eligible n (s.lent d l) = true → splittable (s.lent d l) = true → SplitsFrom n (s.lent d l).launch vd slot w s →
    let e := s.lent d l
    let g := Max.max 1 w.gran
    let sp := g * ((w.next + w.stop + 2 * g - 1) / (2 * g))
    let low := g * ((w.stop - 1) / g)
    let starts := fun (lin : Nat) (t : State) => exec (.dispatchDecision n) s = .next t
      ∧ (t.ac n).cc.task = some ⟨e.launch, d, l, e.lrec, lin, e.epoch, false, s.eprio n i e, i⟩ ∧ t.mem = s.mem
      ∧ ∀ m, m ≠ n → t.ac m = s.ac m
    (sp ≤ w.next ∨ w.stop ≤ sp → exec (.dispatchDecision n) s = .next s)
    ∧ (w.next < sp → sp < w.stop →
      (∀ k, (s.die (dieOf n)).freeSlot = some k → ∃ t : State, starts sp t
        ∧ smFind (t.die vd).walkers slot = some { w with stop := sp }
        ∧ (sp + 1 < w.stop → smFind (t.die (dieOf n)).walkers k = some ⟨w.launch, w.epoch, sp + 1, w.stop, w.gran, 1⟩))
      ∧ ((s.die (dieOf n)).freeSlot = none →
        (low ≤ w.next ∨ s.hasClaim n = true → exec (.dispatchDecision n) s = .next s)
        ∧ (w.next < low → s.hasClaim n = false → ∃ t : State, starts low t
          ∧ smFind (t.die vd).walkers slot = some { w with stop := low }
          ∧ (t.ac n).claimOf e.launch = if low + 1 < w.stop then some (e.launch, low + 1, w.stop) else none)))

/-- R219, R221, R243, R251, R254, R423, R433: what a dispatch decision of a cluster starts: a new task, a continuation, or a task of a split. -/
def Obligations.TaskStarts : Prop := ruleNewTask ∧ ruleContinuationResume ∧ ruleSplit

/-- R255, R256, R422: a write of an entry's word 0 keeps VALID only where WATCH lies in the HBM of the die, and a valid entry watches its granule. A firing of a valid entry by a write of
a class that it names queues its record and counts in PEND and FIRED, or, with PEND full, counts in DROPS alone. A bind record that breaks its table is dropped and
sets BADBIND. The model's choices in it: log entries 23 and 62. -/
def Obligations.MailboxEvents : Prop :=
  ∀ (d i : Nat) (s : State),
    (∀ v : W64, i < 256 → let x := v &&& 0x800FFFFFFFFFFFC0
      let g := bits v 6 46 * 64
      let ok := v.getLsbD 63 && inDieHbm d g
      ∃ t : State, exec (.mailboxEntryWrite d i v) s = .next t ∧ t.mem = s.mem ∧ t.acs = s.acs
        ∧ t.reg d (0x40000 + 64 * i) = (if ok = true ∨ v.getLsbD 63 = false then x else x &&& 0x7FFFFFFFFFFFFFFF)
        ∧ ((canonPa d g, d, i) ∈ t.watch ↔ ok = true) ∧ (∀ w ∈ s.watch, (w.2.1 ≠ d ∨ w.2.2 ≠ i) → w ∈ t.watch)
        ∧ ∀ e o, (e ≠ d ∨ o ≠ 0x40000 + 64 * i) → t.reg e o = s.reg e o)
    ∧ (∀ (cls : Nat) (lrec : W64), i < 256 → (s.fires.find? fun f => f.1 == d && f.2.1 == i && f.2.2.1 == cls) = some (d, i, cls, lrec) →
      let o := 0x40000 + 64 * i
      (bits (s.reg d (o + 16)) 32 16 ≠ 0xFFFF → ∃ t : State, exec (.mailboxFire d i cls) s = .next t
        ∧ (t.die d).launchQ = (s.die d).launchQ ++ [⟨lrec, d * 2 ^ 30 + (s.die d).lseq % 2 ^ 30, i + 1⟩]
        ∧ (t.die d).lseq = (s.die d).lseq + 1 ∧ bits (t.reg d (o + 16)) 32 16 = bits (s.reg d (o + 16)) 32 16 + 1
        ∧ bits (t.reg d (o + 24)) 0 32 = (bits (s.reg d (o + 24)) 0 32 + 1) % 2 ^ 32
        ∧ bits (t.reg d (o + 24)) 32 32 = bits (s.reg d (o + 24)) 32 32 ∧ t.fires = s.fires.erase (d, i, cls, lrec) ∧ t.mem = s.mem ∧ t.acs = s.acs)
      ∧ (bits (s.reg d (o + 16)) 32 16 = 0xFFFF → ∃ t : State, exec (.mailboxFire d i cls) s = .next t ∧ (t.die d).launchQ = (s.die d).launchQ
        ∧ bits (t.reg d (o + 24)) 32 32 = (bits (s.reg d (o + 24)) 32 32 + 1) % 2 ^ 32 ∧ t.reg d (o + 16) = s.reg d (o + 16)
        ∧ (t.die d).frSeq = (s.die d).frSeq + 1 ∧ t.mem = s.mem))
    ∧ (∀ (a : Nat) (v : W64), a < 64 → i < 8 →
      let bad := v.getLsbD 63 = true ∧ (8 < bits v 40 4 ∨ bits v 44 19 ≠ 0)
      (bad → ∃ t : State, exec (.bindRecordWrite d a i v) s = .next t ∧ (t.reg d 0x23008).getLsbD 31 = true ∧ t.acs = s.acs ∧ t.mem = s.mem
        ∧ ∀ e o, (e ≠ d ∨ o ≠ 0x23008) → t.reg e o = s.reg e o)
      ∧ (¬bad → ∃ t : State, exec (.bindRecordWrite d a i v) s = .next t ∧ t.reg d (0x21000 + 64 * a + 8 * i) = v &&& 0x80000FFFFFFFFFFF
        ∧ smGet 0 (t.ac (64 * d + a)).disp.pass i = (s.ac (64 * d + a)).disp.vt ∧ t.mem = s.mem
        ∧ (∀ n, (t.ac n).cc = (s.ac n).cc) ∧ ∀ e o, (e ≠ d ∨ o ≠ 0x21000 + 64 * a + 8 * i) → t.reg e o = s.reg e o))

/-! ### Access, translation, caches and carves -/

/-- R40, R41 to R46, R59 to R62, R65, R66, R54: a write of word 0 puts an entry into the access table, or takes it out. A permitted access of a master leaves the machine as it is, and a refused one is recorded and told to its
master. A command of TLBICMD takes its range from its registers, and is lost while one is outstanding; once nothing uses the entries of its range they are gone, and it is counted. A walk leaves its translation
in the cache. The oldest fault record goes to the ring. An answer ends the wait of its token: replay lets the unit issue again, and abort raises XLATE_ABORT; a token that is not outstanding sets STALE. The model's choices in it: log entries 8, 9, 67, 80 and 116, and that the
reserved target indices 27 to 31 hold entries is log entry 89's. -/
def Obligations.AccessEvents : Prop :=
  ∀ (d : Nat) (s : State),
    (∀ (t e : Nat) (v : W64), t < 96 → e < 64 → let o := 0x800000 + 0x800 * t + 32 * e
      let x := v &&& 0xC0F0FFFFFFFFF000
      ∃ u : State, exec (.accessEntryWrite d t e v) s = .next u ∧ u.reg d o = x ∧ u.mem = s.mem ∧ u.acs = s.acs
        ∧ (v.getLsbD 63 = true → smFind (u.die d).acl (t * 64 + e) = some ⟨v.getLsbD 62, v.getLsbD 55, v.getLsbD 54, v.getLsbD 53, v.getLsbD 52,
            bits v 12 40, bits (s.reg d (o + 8)) 12 40, (s.reg d (o + 16)).setWidth 16⟩)
        ∧ (v.getLsbD 63 = false → smFind (u.die d).acl (t * 64 + e) = none)
        ∧ (∀ k, k ≠ t * 64 + e → smFind (u.die d).acl k = smFind (s.die d).acl k) ∧ ∀ f p, (f ≠ d ∨ p ≠ o) → u.reg f p = s.reg f p)
    ∧ (∀ (master : Nat) (k : AKind) (pa : Nat) (va : W64) (a : Agent), masterOf master = some a →
      let n := if (mmioOf a.die pa).isSome then 8 else 1
      (checkAccess s a k pa n = none → exec (.accessFault master k ⟨pa, va⟩) s = .next s)
      ∧ (∀ w0 w1 v : W64, checkAccess s a k pa n = some (.access w0 w1 v) →
        let t := s.addAccessRecord a w0 w1 (if a.translates = true then va else 0)
        ((∃ p, a = .pot p) ∨ (∃ p, a = .disp p) → exec (.accessFault master k ⟨pa, va⟩) s = .next t)
        ∧ (∀ p : Nat, a = .ingress p → exec (.accessFault master k ⟨pa, va⟩) s = .next (t.reply p 0 (.nack w0 w1)))
        ∧ ((∃ c, a = .mcore c) ∨ a = .root → ∃ u : State, exec (.accessFault master k ⟨pa, va⟩) s = .next u ∧ u.dies = t.dies ∧ u.mem = s.mem ∧ u.acs = s.acs
          ∧ smFind u.mexc a.key = some (match k with | .fetch => 1 | .read => 5 | _ => 7, bits w1 0 52))
        ∧ (∀ p : Nat, a = .host p → ∃ u : State, exec (.accessFault master k ⟨pa, va⟩) s = .next u ∧ smGet 0 u.extEnd a.key = 2 ∧ u.acs = s.acs)
        ∧ (∀ q : Nat, a = .kettle q → exec (.accessFault master k ⟨pa, va⟩) s
          = .next (if (s.kettle q).run.isSome = true then kettleEnd q 3 4 (s.kettle q).kpc w0 w1 t else t))
        ∧ (∀ m : Nat, a = .ac m 0 →
          let takes := (s.ac m).cc.task.isSome = true ∧ (s.ac m).cc.saving = false ∧ (s.ac m).cc.entry = none ∧ (s.ac m).event s.cycle = none
          (s.ringFull (recordDie a w0) = true → exec (.accessFault master k ⟨pa, va⟩) s = .next s)
          ∧ (s.ringFull (recordDie a w0) = false →
            (takes → exec (.accessFault master k ⟨pa, va⟩) s
              = .next (if k = .fetch then syncTrap m 0x08 0x10 (s.ac m).cc.pc t else syncTrap m 0x06 w0 w1 t))
            ∧ (¬takes → exec (.accessFault master k ⟨pa, va⟩) s = .next t)))))
    ∧ (∀ v : W64, ((s.die d).tlbi = none → ∃ (t : State) (lg : Nat), exec (.tlbicmd d v) s = .next t
          ∧ (lg = Max.max 12 (Min.min 55 (bits (s.reg d 0x0208) 0 6)))
          ∧ (t.die d).tlbi = some (bits (s.reg d 0x0200) 0 55 / 2 ^ lg * 2 ^ lg, lg, v.getLsbD 0, v.getLsbD 1, v.getLsbD 2) ∧ t.mem = s.mem
          ∧ (∀ e o, t.reg e o = s.reg e o) ∧ (t.die d).tlb = (s.die d).tlb)
      ∧ (∀ x, (s.die d).tlbi = some x → ∃ t : State, exec (.tlbicmd d v) s = .next t ∧ (t.die d).tlbi = some x ∧ (t.reg d 0x0218).getLsbD 1 = true))
    ∧ (∀ (start lg : Nat) (all pkg wc : Bool), (s.die d).tlbi = some (start, lg, all, pkg, wc) →
      let lo := if all then 0 else start
      let n := if all then 2 ^ 55 else 2 ^ lg
      let on := fun (e : Nat) => e = d ∨ (pkg = true ∧ e < 4)
      ((∃ e, on e ∧ (pkg = true → e < 4) ∧ s.invalBusy e lo n = true) → exec (.tlbInvalDone d) s = .next s)
      ∧ (d < 4 → (∀ e, on e → s.invalBusy e lo n = false) → ∃ t : State, exec (.tlbInvalDone d) s = .next t ∧ (t.die d).tlbi = none
        ∧ ((∀ x ∈ s.agm, ∀ w ∈ x.2.pend, meet w.va w.bytes.length lo n = false) → t.mem = s.mem ∧ t.hist = s.hist)
        ∧ (let gone := fun (x : TlbEntry) => x.va < lo + n ∧ lo < x.va + 2 ^ x.lg
          (∀ e, on e → ∀ x, x ∈ (t.die e).tlb ↔ x ∈ (s.die e).tlb ∧ ¬gone x)
          ∧ (∀ m, t.ac m = { s.ac m with tlb := (t.ac m).tlb, utlb := (t.ac m).utlb })
          ∧ (∀ m, on (dieOf m) → (∀ x, x ∈ (t.ac m).tlb ↔ x ∈ (s.ac m).tlb ∧ ¬gone x)
            ∧ ∀ u x, x ∈ smGet [] (t.ac m).utlb u ↔ x ∈ smGet [] (s.ac m).utlb u ∧ ¬gone x)
          ∧ (∀ m, ¬on (dieOf m) → t.ac m = s.ac m))
        ∧ (∀ e, ¬on e → t.die e = { s.die e with potIn := (t.die e).potIn }) ∧ bits (t.reg d 0x0218) 32 32 = (bits (s.reg d 0x0218) 32 32 + 1) % 2 ^ 32))
    ∧ (∀ (k : AKind) (va : W64) (l : Leaf) (s1 : State), va.toNat < 2 ^ 55 → (s.die d).tlb = [] → walk d k va.toNat s = .ok l s1 →
      (s1.die d).tlb = [] → ∃ (t : State) (e : TlbEntry), exec (.translationWalk d k va) s = .next t ∧ (t.die d).tlb = [e] ∧ e.lg = l.lg
        ∧ e.va = va.toNat / 2 ^ l.lg * 2 ^ l.lg ∧ e.r = l.ent.getLsbD 53 ∧ e.w = l.ent.getLsbD 54 ∧ e.x = l.ent.getLsbD 55 ∧ t.mem = s1.mem)
    ∧ (∀ (r : FRec) (rest : List FRec), (s.die d).frPend = r :: rest →
      let n := 2 ^ Max.max 4 (bits (s.reg d 0x600008) 0 5)
      let head := bits (s.reg d 0x600010) 0 32 % n
      let tail := bits (s.reg d 0x600018) 0 32 % n
      let pa := bits (s.reg d 0x600000) 6 46 * 64 + 64 * tail
      ((tail + 1) % n = head → exec (.faultRecordWrite d) s = .next s)
      ∧ ((tail + 1) % n ≠ head → inHbm pa = true → ∃ t : State, exec (.faultRecordWrite d) s = .next t ∧ (t.die d).frPend = rest
        ∧ t.reg d 0x600018 = BitVec.ofNat 64 ((tail + 1) % n) ∧ (t.reg d 0x600028).getLsbD 0 = true
        ∧ t.mem = (strongStore (.disp d) .pkg false (canonPa d pa)
          (wordBytes [r.w0, r.w1, r.w2, r.w3, BitVec.ofNat 64 ((s.die d).frSeq - (s.die d).frPend.length), 0, 0, 0]) s).mem))
    ∧ (∀ token : Nat, token < 2 ^ 32 → let out := (s.die d).waits.find? fun w => w.token == token && !w.aborted
      (out = none → (∃ t : State, exec (.faultReplay d token) s = .next t ∧ (t.reg d 0x600028).getLsbD 1 = true ∧ t.acs = s.acs)
        ∧ ∃ t : State, exec (.faultAbort d token) s = .next t ∧ (t.reg d 0x600028).getLsbD 1 = true ∧ t.acs = s.acs)
      ∧ (∀ w : XWait, out = some w → (∀ n : Nat, w.who = .ac n 0 → (s.ac n).cc.xl = some w.token →
          (∃ t : State, exec (.faultReplay d token) s = .next t ∧ (t.ac n).cc = { (s.ac n).cc with xl := none } ∧ t.mem = s.mem
            ∧ ∀ x ∈ (t.die d).waits, x.token ≠ token)
          ∧ (w.kind ≠ .fetch → ∃ t : State, exec (.faultAbort d token) s = .next t
            ∧ (t.ac n).cc = { (s.ac n).cc with xl := none, xlAbort := some ⟨0, 0x07, w.va, w.seq, 0, (s.ac n).cc.pc, false⟩ }
            ∧ ∀ x ∈ (t.die d).waits, x.token ≠ token))
        ∧ (∀ (n : Nat) (e : Eid), w.who = engAgent n e → ((s.ac n).eng e).xl = some w.token →
          (∃ t : State, exec (.faultReplay d token) s = .next t ∧ ((t.ac n).eng e).xl = none ∧ (((s.ac n).eng e).st = 2 → ((t.ac n).eng e).st = 1)
            ∧ ((t.ac n).eng e).upc = ((s.ac n).eng e).upc ∧ t.mem = s.mem)
          ∧ (w.kind ≠ .fetch → ∃ t : State, exec (.faultAbort d token) s = .next t ∧ ((t.ac n).eng e).st = 3 ∧ ((t.ac n).eng e).fcause = 0x07
            ∧ ((t.ac n).eng e).finfo = w.va ∧ ((t.ac n).eng e).finfo1 = w.seq ∧ ((t.ac n).eng e).upc = ((s.ac n).eng e).upc))))

/-- R72 to R74, R77 to R79, R82, R84: a write of QFUSE starts the switch of every quad whose mode changes; the switch drains for 4,096 cycles once no cluster of the quad runs a task, and
then its bit of BUSY falls. A carve whose time has come is over: the split in force is the new one, and the granules that moved read as zero. A write-back leaves no released byte of its line in the L1, and parks the line if
unreleased bytes are left; memory holds what it held. The model's choices in it: log entries 13 and 85. -/
def Obligations.CacheEvents : Prop :=
  ∀ (d : Nat) (s : State),
    (∀ v : W64, (s.die d).qsw = [] → ∃ t : State, exec (.qfuseWrite d v) s = .next t ∧ t.mem = s.mem ∧ t.acs = s.acs
      ∧ ∀ q, q < 16 → (t.reg d 0x0400).getLsbD q = v.getLsbD q
        ∧ (t.reg d 0x0400).getLsbD (32 + q) = ((s.reg d 0x0400).getLsbD q != v.getLsbD q)
        ∧ ((∃ w ∈ (t.die d).qsw, w.quad = q) ↔ (s.reg d 0x0400).getLsbD q ≠ v.getLsbD q))
    ∧ (∀ q : Nat, ((∃ n ∈ quadAcs d q, (s.ac n).cc.task.isSome = true) → exec (.quadSwitchDrain d q) s = .next s)
      ∧ ((∀ n ∈ quadAcs d q, (s.ac n).cc.task = none) → ∀ w : QSwitch, (s.die d).qsw = [w] → w.quad = q → w.stop = none →
        ∃ t : State, exec (.quadSwitchDrain d q) s = .next t ∧ (t.die d).qsw = [{ w with stop := some (s.cycle + 4096) }] ∧ t.mem = s.mem ∧ t.acs = s.acs)
      ∧ (∀ (w : QSwitch) (c : Nat), (s.die d).qsw = [w] → w.quad = q → w.stop = some c →
        (s.cycle < c → exec (.quadSwitchEnd d q) s = .next s)
        ∧ (c ≤ s.cycle → w.again = false → q < 16 → ∃ t : State, exec (.quadSwitchEnd d q) s = .next t ∧ (t.die d).qsw = []
          ∧ (t.reg d 0x0400).getLsbD (32 + q) = false)))
    ∧ (∀ (n : Nat) (c : Carve), (s.ac n).cc.carve = some c →
      (s.cycle < c.stop → exec (.carveDrainEnd n) s = .next s)
      ∧ (c.stop ≤ s.cycle → c.again = none → ∃ t : State, exec (.carveDrainEnd n) s = .next t ∧ (t.ac n).cc.carve = none
        ∧ (t.ac n).cc.sr 0x0C0 = pack [(4, c.old), (0, c.new)]
        ∧ (∀ k, scratchPa n + Min.min c.old c.new * 262144 ≤ k → k < scratchPa n + Max.max c.old c.new * 262144 → memByte t k = 0)
        ∧ (t.ac n).cc.sreg = (s.ac n).cc.sreg ∧ (t.ac n).cc.pc = (s.ac n).cc.pc))
    ∧ (∀ n line : Nat, (s.mayCache (128 * line) = false ∨ s.overQuota n line = true → exec (.cacheWriteback n line) s = .next s)
      ∧ (s.mayCache (128 * line) = true → s.overQuota n line = false → ∃ t : State, exec (.cacheWriteback n line) s = .next t
        ∧ (∀ p ∈ t.hist, p.1 / 128 = line → ∀ v ∈ p.2, v.present (.l1 n) = true → v.present .home = true) ∧ SameMemory s { t with hist := s.hist }
        ∧ (∀ p ∈ s.parked, p ∈ t.parked)
        ∧ (∀ m u : Nat, m ∈ s.sharers n → u < 9 → s.place (.ac m u) .ac true (128 * line) = .l1 n → s.holdsLine (.ac m u) line = true →
          ∃ p ∈ t.parked, p.ac = m ∧ p.unit = u ∧ p.line = line)))

/-! ### Traps, pre-emption and integrity as events -/

/-- The CC of a cluster may take an event: it runs a task, is not being saved, no trap is being entered, and no instruction of it has passed its
wait. -/
def Sys2Proof.AtBoundary (n : Nat) (s : State) : Prop :=
  (s.ac n).cc.task.isSome = true ∧ (s.ac n).cc.saving = false ∧ (s.ac n).cc.entry = none ∧ s.passed n = false

/-- R351, R441, R448, R449, R456, R457: the first pending event of Table 15-3 is taken at the boundary; a timer that is due is taken when it comes first; MINT is noted. An engine that runs stops with its fault. An integrity event is counted, and where INTTRAP says so or data was lost
it is told to the cluster, with the address of the instruction concerned: of source 0 that of AX's command, of 1 and 2 that of MX's, else the CC's. The model's choices in it: log entries 16, 78 and 79. -/
def Obligations.EventTraps : Prop :=
  ∀ (n : Nat) (s : State),
    (AtBoundary n s → (∀ p : Pending, (s.ac n).event s.cycle = some p → exec (.trapEntry n) s = .next (takeTrap n p s))
      ∧ ((s.ac n).event s.cycle = none → exec (.trapEntry n) s = .next s))
    ∧ (∀ (p : Pending) (stop : Nat), (s.ac n).cc.task.isSome = true → (s.ac n).cc.saving = false →
      ((s.ac n).cc.entry = some (p, stop, true) → (s.ac n).cc.xl = none → (s.ac n).cc.xlAbort = none →
        exec (.trapEntry n) s = .next (enterTrap n p stop s))
      ∧ ((s.ac n).cc.entry = some (p, stop, false) →
        ((s.ac n).powerHeld = true → exec (.trapEntry n) s = .next s)
        ∧ ((s.ac n).powerHeld = false → exec (.trapEntry n) s = .next (settledTrap n p stop s))))
    ∧ (AtBoundary n s → (s.ac n).cc.ie = true → (s.ac n).cc.mint = none → ((s.ac n).cc.h = true ∨ (s.ac n).faultEvent = none) →
      let w := (s.ac n).cc.sr 0x028
      (w ≠ 0 → w.toNat ≤ s.cycle → exec (.timerInterrupt n) s
        = .next (takeTrap n ⟨0, 0x20, BitVec.ofNat 64 s.cycle, 0, 0, (s.ac n).cc.pc, false⟩ s))
      ∧ (w = 0 ∨ s.cycle < w.toNat → exec (.timerInterrupt n) s = .next s))
    ∧ (∀ (d : Nat) (v : W64), let m := 64 * d + bits v 58 6
      ∃ t : State, exec (.mint d v) s = .next t ∧ t = s.setAc m { s.ac m with cc := { (s.ac m).cc with mint := some (v &&& 0x3FFFFFFFFFFFFFF) } })
    ∧ (∀ (e : Eid) (c : BitVec 8) (i0 i1 : W64), let x := (s.ac n).eng e
      (x.xl = none → (s.ac n).cc.task.isSome = true → (s.ac n).cc.saving = false → (s.ac n).cc.entry = none → (x.st = 1 ∨ x.st = 2) → ∃ t : State, exec (.engineFault n e c i0 i1) s = .next t ∧ OnlyAc n s t
        ∧ (t.ac n).eng e = { x with st := 3, fcause := c.toNat, finfo := i0, finfo1 := i1, untold := true, fcycle := s.cycle, wait := none, xl := none }
        ∧ (∀ f, f ≠ e → (t.ac n).eng f = (s.ac n).eng f) ∧ (t.ac n).cc = (s.ac n).cc)
      ∧ (∀ (p : Pending) (stop : Nat), (s.ac n).cc.task.isSome = true → (s.ac n).cc.saving = false → (s.ac n).cc.entry = some (p, stop, false) →
        (x.st = 1 ∨ x.st = 2) → (e = .vl ∨ e = .vs) → x.deferred = false →
        exec (.engineFault n e c i0 i1) s = .next (s.modEng n e fun x =>
          { x with deferred := true, fcause := c.toNat, finfo := i0, finfo1 := i1, fcycle := if x.st = 2 then x.fcycle else stop }))
      ∧ (x.st = 3 ∨ x.st = 0 ∧ e ≠ .mx → exec (.engineFault n e c i0 i1) s = .next s))
    ∧ (∃ t : State, exec (.latchLanding n) s = .next t ∧ exec (.vaResultLanding n) s = .next t)
    ∧ (∀ (d src : Nat) (info : W64), let o := 0x600100 + 8 * src
      let x := if (s.reg d o).toNat + 1 < 2 ^ 64 then s.reg d o + 1 else s.reg d o
      let c := (s.ac n).cc
      let pc := if src = 0 then (s.ac n).engInstr .ax else if src = 1 ∨ src = 2 then (s.ac n).engInstr .mx else c.pc
      let told := if src ≠ 4 ∧ src ≠ 6 ∧ (s.reg d 0x600140).getLsbD src = true then c.pend ++ [⟨7, 0x30, BitVec.ofNat 64 src, info, 0, pc, false⟩] else c.pend
      (src < 5 ∨ src = 6 → n < 256 → ∃ t : State, exec (.integrityEvent d src n info) s = .next t ∧ t.reg d o = x ∧ t.mem = s.mem
        ∧ (∀ e p, (e ≠ d ∨ p ≠ o) → t.reg e p = s.reg e p) ∧ (t.ac n).cc = { c with pend := told })
      ∧ (src = 5 ∨ src = 7 → n < 256 → ∃ u : State, u.reg d o = x ∧ u.mem = s.mem ∧ (u.ac n).cc = { c with pend := told }
        ∧ (c.task.isSome = true → c.saving = false → c.entry = none → (s.ac n).event s.cycle = none →
          exec (.integrityEvent d src n info) s = .next (syncTrap n 0x1A (BitVec.ofNat 64 src) info u))
        ∧ (c.task = none ∨ c.saving = true ∨ c.entry ≠ none ∨ (s.ac n).event s.cycle ≠ none → exec (.integrityEvent d src n info) s = .next u))
      ∧ (8 ≤ src → exec (.integrityEvent d src n info) s = .next s))

/-- R452 to R454: a pre-empt of a launch in DEP or RUN pauses it and sets the mark 36,000 cycles later; one that names no launch of the table, or one in DRAIN, completes at once and changes nothing else, and a command while one is outstanding is lost. At the mark the clusters
that run the launch stop where they may, and one that may only afterwards stops then and is counted late. With no cluster left, before the mark too, the launch's ranges go to its context and are freed; with no operation outstanding its entry is freed and the command is
done. A resume puts the launch into a free entry with the epoch of its context; one whose context cannot be read ends. The model's choices in it: log entries 25, 32, 46, 82 (the 36,000 cycles of the mark) and 127. -/
def Obligations.PreemptEvents : Prop :=
  ∀ (d : Nat) (s : State),
    (∀ v : W64, bits v 62 2 = 1 → s.preempt = none → let launch := bits v 0 32
      (∀ ld l : Nat, s.findLaunch launch = some (ld, l) → ((s.lent ld l).st = 1 ∨ (s.lent ld l).st = 2) → (s.lent ld l).cancelled = false →
        ∃ t : State, exec (.preemptLaunch d v) s = .next t ∧ t.lent ld l = { s.lent ld l with paused := true } ∧ t.mem = s.mem ∧ t.acs = s.acs
          ∧ t.preempt = some ⟨1, d, launch, bits (s.reg d 0x0608) 12 40 * 4096, s.cycle + 36000, s.running launch, []⟩)
      ∧ (s.findLaunch launch = none ∨ (∃ ld l, s.findLaunch launch = some (ld, l) ∧ (s.lent ld l).st = 3) → ∃ t : State, exec (.preemptLaunch d v) s = .next t ∧ t.preempt = none ∧ t.mem = s.mem ∧ t.acs = s.acs
          ∧ (∀ e, (t.die e).ltab = (s.die e).ltab) ∧ ∀ e, e < 4 → bits (t.reg e 0x0610) 32 32 = (bits (s.reg e 0x0610) 32 32 + 1) % 2 ^ 32))
    ∧ (∀ (v : W64) (p : Preempt), s.preempt = some p →
      ∃ t : State, exec (.preemptLaunch d v) s = .next t ∧ t.preempt = some p ∧ (t.reg d 0x0610).getLsbD 1 = true)
    ∧ (∀ p : Preempt, s.preempt = some p → p.op = 1 → p.mark ≠ 0 →
      (s.cycle < p.mark → exec .preemptDeadline s = .next s)
      ∧ (p.mark ≤ s.cycle → ∃ t : State, exec .preemptDeadline s = .next t ∧ t.preempt = some { p with mark := 0, todo := s.running p.launch }
        ∧ (∀ n ∈ s.running p.launch, (t.ac n).cc.saving = (mayStop n s || (s.ac n).cc.saving))
        ∧ ∀ e, e < 4 → bits (t.reg e 0x0610) 16 16 = bits (s.reg e 0x0610) 16 16))
    ∧ (∀ (p : Preempt) (n : Nat) (tk : Task), s.preempt = some p → p.op = 1 → p.mark = 0 → p.todo = [n] → (s.ac n).cc.task = some tk →
      tk.launch = p.launch → n ∈ s.running p.launch → (s.ac n).cc.saving = false →
      (mayStop n s = true → ∃ t : State, exec .preemptComplete s = .next t ∧ t.preempt = some p ∧ (t.ac n).cc.saving = true
        ∧ ∀ e, e < 4 → bits (t.reg e 0x0610) 16 16 = Min.min 0xFFFF (bits (s.reg e 0x0610) 16 16 + 1))
      ∧ (mayStop n s = false → exec .preemptComplete s = .next s))
    ∧ (∀ (p : Preempt) (e l : Nat), s.preempt = some p → s.findLaunch p.launch = some (e, l) →
      (p.op = 1 → (p.mark = 0 ∧ p.todo = []) ∨ (p.mark ≠ 0 ∧ s.running p.launch = []) → s.ioIdle p.launch = false → ∃ t : State, exec .preemptComplete s = .next t
        ∧ t.preempt = some { p with op := 3 }
        ∧ t.mem = (release (.disp p.die) .pkg (writePhys (.disp p.die) p.ctx (contextBytes s p e l) s)).mem
        ∧ (∀ k, k < 4 → ∀ w ∈ (t.die k).walkers, w.2.launch ≠ p.launch))
      ∧ (p.op = 3 → s.ioIdle p.launch = true → ∃ t : State, exec .preemptComplete s = .next t ∧ t.preempt = none ∧ smFind (t.die e).ltab l = none
        ∧ t.mem = s.mem ∧ ∀ k, k < 4 → bits (t.reg k 0x0610) 32 32 = (bits (s.reg k 0x0610) 32 32 + 1) % 2 ^ 32))
    ∧ (∀ (p : Preempt) (l : Nat) (b rb : List Byte) (s1 s2 : State), s.preempt = some p → p.op = 2 → p.die = d →
      ((List.range 64).find? fun l => (smFind (s.die d).ltab l).isNone) = some l →
      readPhys (.disp d) p.ctx 0x8000 (acquire (.disp d) .pkg s) = (b, s1) → b ≠ [] → slotsFor s (contextWalkers (words64 b)) = true → DispFree d s1 →
      readAcquired (.disp d) .pkg ((words64 b).getD 1 0) 256 8 s1 = .ok rb s2 →
      ∃ t : State, exec (.resumeLaunch d) s = .next t ∧ t.preempt = none ∧ t.mem = s2.mem ∧ (t.lent d l).launch = bits ((words64 b).getD 0 0) 0 32
        ∧ (t.lent d l).lrec = words64 rb ∧ (t.lent d l).epoch = bits ((words64 b).getD 3 0) 0 32 ∧ (t.lent d l).done = bits ((words64 b).getD 2 0) 0 48
        ∧ ((t.lent d l).st = 2 ∨ (t.lent d l).st = 3) ∧ (t.lent d l).cancelled = false ∧ (t.lent d l).paused = false)
    ∧ (∀ (p : Preempt) (l : Nat) (s1 : State), s.preempt = some p → p.op = 2 → p.die = d →
      ((List.range 64).find? fun l => (smFind (s.die d).ltab l).isNone) = some l →
      readPhys (.disp d) p.ctx 0x8000 (acquire (.disp d) .pkg s) = ([], s1) →
      ∃ t : State, exec (.resumeLaunch d) s = .next t ∧ t.preempt = none ∧ (t.die d).ltab = (s1.die d).ltab ∧ t.mem = s1.mem)

/-! ### Hosts, the root of trust, power and reset -/

/-- The port of a host, and where a request of it arrives: link up, in BAR0 or BAR2, at a physical address outside MMIO that the host may reach so (Table 16-1, R461). -/
def Sys2Proof.HostAt (port bar off : Nat) (k : AKind) (pa len : Nat) (s : State) : Prop :=
  linkUp s port = true ∧ bar ≠ 4 ∧ barPa s port bar off = some pa ∧ mmioOf (Agent.host port).die pa = none ∧ checkPhys s (.host port) k pa len = none

/-- R458 to R466, R166: a host's read answers what a strong load at .pkg of each granule of 64 bytes gives; its write of bytes of one granule releases its earlier writes and is a strong store; its FetchAdd, Swap and CAS are one atomic; its own store reaches its window.
Without a link nothing is done, and a request that needs ATS, PASID, TPH or a CAS of 128 bits is an Unsupported Request. A training leaves the link down, or up with what was negotiated. HINTR raises its vector. A port confirms what it has sent. The model's choices in it: log entries 18, 22, 72, 74 and 75. -/
def Obligations.HostEvents : Prop :=
  ∀ (port bar off pa : Nat) (s : State),
    (linkUp s port = false → ∀ e : HostExt, (∀ len, exec (.hostRead port ⟨e, bar⟩ off len) s = .next s) ∧ (∀ b, exec (.hostWrite port ⟨e, bar⟩ off b) s = .next s)
      ∧ ∀ w x, exec (.hostAtomic port ⟨e, bar⟩ off w x) s = .next s)
    ∧ (linkUp s port = true → ∀ e : HostExt, e ≠ .plain → ∃ t : State, smGet 0 t.extEnd (Agent.host port).key = 1
      ∧ t = { s with extIn := t.extIn, extEnd := t.extEnd } ∧ (∀ len, exec (.hostRead port ⟨e, bar⟩ off len) s = .next t)
      ∧ (∀ b, exec (.hostWrite port ⟨e, bar⟩ off b) s = .next t) ∧ ∀ w x, exec (.hostAtomic port ⟨e, bar⟩ off w x) s = .next t)
    ∧ (∀ (len : Nat) (b : List Byte) (s1 : State), HostAt port bar off .read pa len s → physLoad (.host port) (hostPieces pa len) (s.fresh (.host port)) = (b, s1) →
      ∃ t : State, exec (.hostRead port ⟨.plain, bar⟩ off len) s = .next t ∧ smGet 0 t.extEnd (Agent.host port).key = 0 ∧ smFind t.extIn (Agent.host port).key = some b ∧ t.mem = s1.mem ∧ t.acs = s1.acs)
    ∧ (∀ b : List Byte, b ≠ [] → pa % 64 + b.length ≤ 64 → HostAt port bar off .write pa b.length s →
      exec (.hostWrite port ⟨.plain, bar⟩ off b) s
        = .next (strongStore (.host port) .pkg false (canonPa (Agent.host port).die pa) b (release (.host port) .pkg s)))
    ∧ (∀ (wide : Bool) (x : XAtom) (old : List Byte) (s1 : State), let n := if wide then 8 else 4
      HostAt port bar off .atomic pa n s → pa % n = 0 → ((∃ v, x = .amo .add v) ∨ (∃ v, x = .amo .swap v) ∨ ∃ c v, x = .cas c v) →
      atomic (.host port) .pkg false (canonPa (Agent.host port).die pa) n
        (fun o => match x with | .amo op v => some (amoBytes op v o) | .cas c v => casBytes c v o) (release (.host port) .pkg s) = (old, s1) →
      ∃ t : State, exec (.hostAtomic port ⟨.plain, bar⟩ off wide x) s = .next t ∧ smFind t.extIn (Agent.host port).key = some old ∧ t.mem = s1.mem)
    ∧ (∀ (a : Nat) (b : List Byte), (port < 2 → a + b.length ≤ 0x4000000000000 → exec (.hostOwnStore port a b) s
        = .next (strongStore (.host port) .pkg false (0x8000000000000 + port * 0x4000000000000 + a) b s))
      ∧ (2 ≤ port → exec (.hostOwnStore port a b) s = .next s))
    ∧ (port < 2 → ∀ (up cxl : Bool) (speed width : BitVec 4), let w := s.reg (2 * port) 0x8000
      ∃ t : State, exec (.hostLinkTraining port up cxl speed width) s = .next t ∧ t.mem = s.mem ∧ t.acs = s.acs
        ∧ (up = false ∨ w.getLsbD 0 = false → t.reg (2 * port) 0x8008 = 0)
        ∧ (up = true → w.getLsbD 0 = true → let r := t.reg (2 * port) 0x8008
          r.getLsbD 0 = true ∧ r.getLsbD 2 = (cxl && w.getLsbD 1) ∧ 1 ≤ bits r 12 4 ∧ bits r 12 4 ≤ 6
            ∧ (1 ≤ bits w 12 4 → bits w 12 4 ≤ 6 → bits r 12 4 ≤ bits w 12 4) ∧ (bits r 12 4 = 6 → r.getLsbD 1 = true)
            ∧ (bits r 8 4 = 1 ∨ bits r 8 4 = 2 ∨ bits r 8 4 = 4 ∨ bits r 8 4 = 8)))
    ∧ (port < 2 → ∀ v : W64, let k := bits v 0 6
      ∃ t : State, exec (.hintr port v) s = .next t ∧ t.mem = s.mem ∧ t.acs = s.acs
      ∧ (msiMasked s port k = false → (smGet 0 t.msi port).getLsbD k = true ∧ (smGet 0 t.msiPend port).getLsbD k = false)
      ∧ (msiMasked s port k = true → (smGet 0 t.msi port).getLsbD k = (smGet 0 s.msi port).getLsbD k ∧ (smGet 0 t.msiPend port).getLsbD k = true)
      ∧ ∀ i, i ≠ k → i < 64 → ((smGet 0 s.msiPend port).getLsbD i = false ∨ msiMasked s port i = true) →
        (smGet 0 t.msi port).getLsbD i = (smGet 0 s.msi port).getLsbD i ∧ (smGet 0 t.msiPend port).getLsbD i = (smGet 0 s.msiPend port).getLsbD i)
    ∧ (∃ t : State, exec (.hostCompletion port) s = .next t ∧ t = { s with posted := t.posted } ∧ ∀ x, x ∈ t.posted ↔ x ∈ s.posted ∧ x.1 ≠ port)

/-- R167, R25, R474 to R479, R491: an access of a core: a load, a store and the fences; a management core does nothing before its release. A write of a register with no action keeps its fields and no other register. Root firmware answers the request that is
outstanding: a report, the certificate chain, an extension of M4 to M7 for a management core. BOOTGO by a master that may write it, once step 1 of the boot has completed, releases the management cores, or sets REJECT. The model's choices in it: log entries 14, 15, 26, 72 and 109, and that the measurements are SHA3-512 over little-endian
bytes is log entry 19's. -/
def Obligations.RootEvents : Prop :=
  ∀ s : State,
    (∀ (core pa n : Nat), let a := if core = 4 then Agent.root else .mcore core
      let goes := fun (u : State) => { u with corePc := smPut 0 u.corePc a.key (Config.corePc u.seq), seq := u.seq + 1 }
      (core < 4 → (s.reg 0 0x0810).getLsbD 1 = false → ∀ op, exec (.managementCoreAccess core op pa n) s = .next s)
      ∧ (core = 4 ∨ core < 4 ∧ (s.reg 0 0x0810).getLsbD 1 = true →
        (∀ (b : List Byte) (s1 : State), n ∈ [1, 2, 4, 8] → checkPhys s a .read pa n = none → mmioOf a.die pa = none →
          physLoad a (granulePieces 4 pa n) s = (b, s1) →
          ∃ t : State, exec (.managementCoreAccess core .load pa n) s = .next t ∧ smFind t.extIn a.key = some b ∧ t.mem = s1.mem)
        ∧ (∀ v : W64, n ∈ [1, 2, 4, 8] → pa % n = 0 → checkPhys s a .write pa n = none → mmioOf a.die pa = none →
          exec (.managementCoreAccess core (.store v) pa n) s = .next (goes (strongStore a .pkg false (canonPa a.die pa) (leBytes n v.toNat) s)))
        ∧ exec (.managementCoreAccess core .fenceRel pa n) s = .next (goes { release a .pkg s with posted := [] })
        ∧ exec (.managementCoreAccess core .fenceFull pa n) s = .next (goes (acquire a .pkg { release a .pkg s with posted := [] }))
        ∧ exec (.managementCoreAccess core .fenceAcq pa n) s = .next (goes (acquire a .pkg s))))
    ∧ (∀ (d off : Nat) (m v : W64), d < 4 → (off, m) ∈ [(0x0100, 0x800FFFFFFFFF0000), (0x0200, 0x7FFFFFFFFFF000), (0x0208, 0x3F),
        (0x0410, 0xFFFFFFFFF0000), (0x0418, 0x1F), (0x0608, 0xFFFFFFFFFF000), (0x0700, 0xFFFFFFFFFFFFFFFF), (0x0708, 0xFFFFFFFFFFFFFFFF), (0x23000, 1)] →
      ∃ t : State, exec (.registerWrite d off v) s = .next t ∧ t.reg d off = (s.reg d off &&& ~~~ m) ||| (v &&& m) ∧ t.mem = s.mem ∧ t.acs = s.acs
        ∧ ∀ e o, (e ≠ d ∨ o ≠ off ∧ o ≠ 0x10010) → t.reg e o = s.reg e o)
    ∧ (∀ (blk cmd : Nat) (arg : List Byte) (s1 : State), s.att = some blk → rootRequest blk s = (cmd, arg, s1) →
      let answer := fun (b : List Byte) (u : State) => release .root .pkg (writePhys .root (blk + 0x100) b u)
      (cmd = 1 → ∃ t : State, exec .rootReport s = .next t ∧ t.att = none ∧ t.mem = (answer (report arg s1) { s1 with seq := s1.seq + 1 }).mem
        ∧ t.meas = s1.meas)
      ∧ (cmd = 2 → ∃ t : State, exec .rootCertChain s = .next t ∧ t.att = none ∧ t.meas = s1.meas
        ∧ t.mem = (answer (certChain (meas s1 0).toNat) s1).mem)
      ∧ (cmd = 3 → let src := bits (s1.reg 0 0xA010) 48 16
        let i := 4 + (arg.getD 63 0).toNat % 4
        (0x1000 ≤ src → src < 0x1004 → ∃ t : State, exec .rootExtend s = .next t ∧ t.att = none
          ∧ meas t i = BitVec.ofNat 512 (leNat (sha3 (leBytes 64 (meas s1 i).toNat ++ arg))) ∧ ∀ j, j ≠ i → meas t j = meas s1 j)
        ∧ (¬(0x1000 ≤ src ∧ src < 0x1004) → ∃ t : State, exec .rootExtend s = .next t ∧ t.att = none ∧ t.meas = s1.meas)))
    ∧ (s.att = none → (s.reg 0 0x0810).getLsbD 0 = false → ∃ t : State, exec .rootExtend s = .next t ∧ (t.reg 0 0x0810).getLsbD 0 = true ∧ t.mem = s.mem)
    ∧ (∀ (src : Nat) (v va : W64) (a : Agent), masterOf src = some a →
      (checkGranule s a .write 0x30000000808 8 = none →
        let base := bits (s.reg 0 0x0800) 16 36 * 65536
        let len := bits (s.reg 0 0x0800) 0 16 * 65536
        let image := (rootBytes base len s).1
        ((s.reg 0 0x0810).getLsbD 0 = false ∨ (s.reg 0 0x0810).getLsbD 1 = true ∨ (s.reg 0 0x0810).getLsbD 2 = true → exec (.bootgo src ⟨v, va⟩) s = .next s)
        ∧ ((s.reg 0 0x0810).getLsbD 0 = true → (s.reg 0 0x0810).getLsbD 1 = false → (s.reg 0 0x0810).getLsbD 2 = false → ∃ t : State, exec (.bootgo src ⟨v, va⟩) s = .next t ∧ t.mem = s.mem
          ∧ (stagingOk base len = true → imageAccepted image = true → (t.reg 0 0x0810).getLsbD 1 = true ∧ (t.reg 0 0x0810).getLsbD 2 = false
            ∧ meas t 1 = BitVec.ofNat 512 (leNat (sha3 (leBytes 64 (meas s 1).toNat ++ sha3 (Config.imageBody image)))))
          ∧ (stagingOk base len = false ∨ imageAccepted image = false → (t.reg 0 0x0810).getLsbD 2 = true ∧ (t.reg 0 0x0810).getLsbD 1 = false
            ∧ meas t 1 = meas s 1)))
      ∧ (∀ st, checkGranule s a .write 0x30000000808 8 = some st → exec (.bootgo src ⟨v, va⟩) s = .next (deliverRefusal a .write va st s)))

/-- R490, R494, R495: a measured temperature stands in TEMP; at TWARN or above HOTSEEN is set; at 115 degrees the clocks stop and both host links are down. A reset of the part gives every register of the clusters, the kettles and the dies its reset
value, but for TTRIP; it empties the part's memory, and keeps what lies outside the part and the levels of physical cells. The model's choices in it: log entries 11, 66 and 76; that memory then reads as zero, and that the registers for which
R490 gives no value hold the model's, is log entries 3 and 4. -/
def Obligations.PowerEvents : Prop :=
  ∀ s : State,
    (∀ (d : Nat) (temp : BitVec 16), ∃ t : State, exec (.thermalWarn d temp) s = .next t ∧ exec (.thermalShutdown d temp) s = .next t
      ∧ t.reg d 0x10018 = temp.setWidth 64 ∧ t.mem = s.mem ∧ t.acs = s.acs
      ∧ (((s.reg d 0x10020).setWidth 16).toInt ≤ temp.toInt → (t.reg d 0x10010).getLsbD 32 = true)
      ∧ (temp.toInt < ((s.reg d 0x10020).setWidth 16).toInt → t.reg d 0x10010 = s.reg d 0x10010)
      ∧ (920 ≤ temp.toInt → t.stopped = true ∧ t.ttrip = true ∧ t.reg 0 0x8008 = 0 ∧ t.reg 2 0x8008 = 0)
      ∧ (temp.toInt < 920 → t.stopped = s.stopped ∧ t.ttrip = s.ttrip ∧ ∀ e, t.reg e 0x8008 = s.reg e 0x8008))
    ∧ (∃ t : State, exec .partReset s = .next t ∧ t.stopped = false ∧ t.kettles = State.reset.kettles ∧ t.hist = State.reset.hist
      ∧ t.agm = State.reset.agm ∧ t.meas = State.reset.meas
      ∧ (∀ n, (t.ac n).cc = AC.reset.cc ∧ (t.ac n).vec = AC.reset.vec ∧ (t.ac n).mxu = AC.reset.mxu ∧ (t.ac n).ln = AC.reset.ln
        ∧ (∀ e, (t.ac n).eng e = AC.reset.eng e)
        ∧ ∀ i, (t.tile n i).lf = Tile.reset.lf ∧ (t.tile n i).reg = Tile.reset.reg ∧ (t.tile n i).plf = (s.tile n i).plf ∧ (t.tile n i).pls = (s.tile n i).pls)
      ∧ t.reg 0 0x0810 = (if s.ttrip then 8 else 0) ∧ (∀ d o, (d ≠ 0 ∨ o ≠ 0x0810) → t.reg d o = State.reset.reg d o)
      ∧ (∀ d, (t.die d).ltab = [] ∧ (t.die d).acl = [] ∧ (t.die d).tlb = [] ∧ (t.die d).pots = [])
      ∧ (∀ k, k < 0x8000000000000 → memByte t k = 0) ∧ (MemoryOk s → ∀ k, 0x8000000000000 ≤ k → memByte t k = memByte s k))

/-! ### The whole part -/

/-- R490, R43, R59, R364, R394, R435, R460, R494, Tables 12-2 and 14-7: what reset leaves, where the spec gives the value: no cluster has a task, every engine is IDLE, IE is 1, no launch, translation or access entry stands, and the registers of the tables
hold their reset values. (Reset memory reads as zero by the model's choice, log entry 3; nothing here says so.) -/
def Obligations.ResetState : Prop :=
  let s := State.reset
  (∀ n, (s.ac n).cc.task = none ∧ (s.ac n).cc.h = false ∧ (s.ac n).cc.ie = true ∧ (∀ e, ((s.ac n).eng e).idle = true ∧ ((s.ac n).eng e).q = [])
    ∧ (s.ac n).cc.sr 0x041 = 0x1010 ∧ (∀ q, q < 6 → (s.ac n).cc.sr (0x080 + q) = 32 ∧ (s.ac n).cc.sr (0x088 + q) = 256)
    ∧ (s.ac n).cc.sr 0x028 = 0 ∧ (s.ac n).cc.sr 0x0C0 = 0
    ∧ ∀ i, (s.tile n i).mode = 0 ∧ (s.tile n i).r 0 = 0x3F80 ∧ (s.tile n i).r 1 = 0 ∧ (s.tile n i).r 2 = 16 ∧ (s.tile n i).r 3 = 1)
  ∧ (∀ d, s.reg d 0x0100 = 0 ∧ s.reg d 0x0400 = 0 ∧ (d = 0 ∨ d = 2 → s.reg d 0x8000 = 0x6000 ∧ s.reg d 0x8010 = 30) ∧ s.reg d 0x8008 = 0 ∧ s.reg d 0x10000 = 512
    ∧ s.reg d 0x10008 = 32 ∧ s.reg d 0x10020 = 760 ∧ s.reg d 0x23000 = 0 ∧ s.reg d 0x600010 = 0 ∧ s.reg d 0x600018 = 0 ∧ s.reg d 0x600140 = 7
    ∧ (s.die d).acl = [] ∧ (s.die d).ltab = [] ∧ (s.die d).launchQ = [] ∧ (s.die d).pots = [])
  ∧ s.stopped = false ∧ s.preempt = none ∧ s.att = none ∧ ∀ i, meas s i = 0

/-- R275, R276, R278, R285, R109: a step runs the instruction that its unit decodes. When the CC of a cluster, an engine or a kettle is next, and nothing is taken or held before, the step is the meaning of the instruction whose words stand at its PC; an event of a unit
that exists is its meaning. A granule is fetched as its home holds it when its line is not in the instruction cache. The model's choices in it: log entries 1 and 17. -/
def Obligations.StepRunsDecoded : Prop :=
  ∀ (s : State) (x : Actor) (rest : List Actor), s.agenda = x :: rest → s.stopped = false → let s0 := { s with agenda := rest }
    (∀ (n : Nat) (i : Instr) (ws : List W32) (s1 : State), x = .cc n → n < 256 → boundaryTrap n s0 = none → (s.ac n).cc.task.isSome = true →
      (s.ac n).cc.saving = false → (s.ac n).cc.xlAbort = none → (s.ac n).cc.xl = none →
      fetchWords n (.ac n 0) (s.ac n).cc.pc.toNat s0 = .ok ws s1 → (∃ l r, decode .cc ws = .ok (i, l, r)) →
      step s = exec i { s1 with cur := .ac n 0 })
    ∧ (∀ (n : Nat) (e : Eid) (i : Instr) (ws : List W32) (s1 : State), x = .eng n e → n < 256 → (s.ac n).cc.task.isSome = true →
      (s.ac n).cc.saving = false → (s.ac n).cc.entry = none → ((s.ac n).eng e).giveN = 0 → ((s.ac n).eng e).xl = none →
      ((s.ac n).eng e).st = 1 ∨ ((s.ac n).eng e).st = 2 → ((s.ac n).eng e).startAt ≤ s.cycle →
      (e = .ax → ∀ c ∈ (s.ac n).axq, c.done = false ∧ c.rows = []) →
      (e = .va → (s.ac n).vec.issued ≠ s.cycle + 1 ∧ (s.ac n).vec.owes s.cycle = false) →
      fetchWords n (engAgent n e) ((s.ac n).eng e).upc.toNat s0 = .ok ws s1 → (∃ l r, decode (.eng e) ws = .ok (i, l, r)) →
      step s = exec i { s1 with cur := engAgent n e })
    ∧ (∀ (q : Nat) (c : KCmd) (w : W64) (i : Instr), x = .kettle q → q < 256 → (s.kettle q).run = some c → (s.kettle q).abort = false →
      c.prog[(s.kettle q).kpc]? = some w → kdecode w = some i → step s = exec i { s0 with cur := .kettle q })
    ∧ (∀ i : Instr, x = .event i → unitOk i = true → step s = exec i { s0 with cur := .disp 0 })
    ∧ (∀ (n va pa : Nat) (u : Nat) (at' : BitVec 2) (s1 : State), va < 2 ^ 55 → xlate (.ac n u) .fetch va s = .ok (pa, at') s1 →
      checkAccess s1 (.ac n u) .fetch pa 4 = none → mmioOf (dieOf n) pa = none →
      let k := canonPa (dieOf n) pa
      smFind (s1.ac n).cc.icache (k / 128) = none → k % 4 = 0 →
      ∃ (t : State) (w : W32), fetchGranule n (.ac n u) va s = .ok w t
        ∧ w.toNat = leNat ((List.range 4).map fun i => s1.homeByte (k + i)) ∧ t.mem = s1.mem ∧ t.hist = s1.hist)

/-- R261 to R273, R109: words written out from the encoding tables decode to the instructions that they stand for. -/
def Obligations.DecodeWords : Prop :=
  decode .cc [0x00000134] = .ok (.nop ⟨.w1, .cc false 0⟩, .w1, [])
  ∧ decode .cc [0x00810C04] = .ok (.add ⟨.w1, .cc false 0⟩ false 3 (.r 1) (.r 2), .w1, [])
  ∧ decode .cc [0x100EC099, 0x00500000] = .ok (.fsqrt ⟨.w2, .cc false 5⟩ ⟨false, .rtz⟩ 48 (.r 14), .w2, [])
  ∧ decode .cc [0x30015141, 0x00030000] = .ok (.ld ⟨.w2, .cc false 0⟩ 3 20 1 (.i8 0), .w2, [])
  ∧ decode .cc [0x00142180] = .ok (.cpy ⟨.w1, .cc false 0⟩ false 8 20, .w1, [])
  ∧ decode .cc [0x32562989, 0x00001800] = .ok (.cpyw ⟨.w2, .cc false 0⟩ false 10 22 (.r 9) 24, .w2, [])
  ∧ decode .cc [0x3205016C] = .ok (.tlwait ⟨.w1, .cc false 0⟩ .pkg 5 (.r 8), .w1, [])
  ∧ decode (.eng .va) [0x00000316, 0x0000C000, 0x3F000000] = .ok (.vimm ⟨.w3, .va false 0 false 0 0⟩ .f32 0 (.lit 0x3F000000), .w3, [])
  ∧ decode (.eng .va) [0x00028281, 0x40030001] = .ok (.vadd ⟨.w2, .va false 8 false 0 0⟩ ⟨false, .rne⟩ 32 (.r 2) (.i8 1), .w2, [])
  ∧ decode (.eng .va) [0x20001B25, 0x0000C002] = .ok (.vloopp ⟨.w2, .va false 0 false 0 0⟩ 2 (.i8 2) 6, .w2, [])
  ∧ decode (.eng .vs) [0x0000020C] = .ok (.eend ⟨.w1, .en 0 0⟩, .w1, [])
  ∧ decode (.eng .ax) [0x21851341, 0x00000700] = .ok (.afwd ⟨.w2, .en 0 0⟩ false true 4 (.r 5) 6 7, .w2, [])
  ∧ decode (.eng .ax) [0x00080F4C] = .ok (.axfer ⟨.w1, .en 0 0⟩ 3 (.r 8), .w1, [])
  ∧ decode .cc [0x00000000] = .error (.illegal 2 1)
  ∧ kdecode 0x2C40A04000000000 = some (.kfma 2 0 (.k 20) 1)
  ∧ kdecode 0x0801100200000000 = some (.kst .full true 1 2 0)

/-- R261 to R273, R288, R352, R109, R110: no bit of an encoding is dropped: decoding the words of any well-formed instruction of the control core or of an engine gives that instruction, its length, and what stands behind it; and so for every well-formed kettle instruction and its word. -/
def Obligations.EncodeRoundTrip : Prop :=
  (∀ (u : UnitId) (i : Instr) (r : List W32), WellFormed u i = true → ∃ l : Len, decode u (encode i ++ r) = .ok (i, l, r) ∧ 4 * (encode i).length = l.bytes)
  ∧ ∀ i : Instr, KWellFormed i = true → kdecode (kencode i) = some i

/-- R9, R139 (and log entry 3): whatever the next actor does, a step keeps the one form of the memory: addresses rise strictly, and no byte is listed that holds what an unlisted one reads as. -/
def Obligations.StepKeepsMemory : Prop := ∀ s t : State, MemoryOk s → step s = .next t → MemoryOk t
end

