-- ==== Sys2Proof/Laws/SMap.lean ====
section
/-! SUPPORT. Reading a sparse map after each of its updates. The laws hold of every list, sorted or not. -/

namespace Sys2Proof.Machine

variable {α β : Type}

@[simp] theorem smFind_nil (n : Nat) : smFind ([] : SMap α) n = none := rfl

theorem smFind_cons (k n : Nat) (v : α) (r : SMap α) :
    smFind ((k, v) :: r) n = if n < k then none else if n = k then some v else smFind r n := rfl

/-- A key that is set reads as set; every other key reads as before. -/
theorem smFind_smSet (m : SMap α) (n k : Nat) (w : α) :
    smFind (smSet m n w) k = if k = n then some w else smFind m k := by
  induction m with
  | nil => simp only [smSet, smFind_cons, smFind_nil]; grind
  | cons p r ih => obtain ⟨j, v⟩ := p; simp only [smSet]; grind [smFind_cons]

/-- The entries after a key are the ones found above it. -/
theorem smFind_smAfter (m : SMap α) (n k : Nat) :
    smFind (smAfter n m) k = if k ≤ n then none else smFind m k := by
  induction m with
  | nil => simp [smAfter]
  | cons p r ih => obtain ⟨j, v⟩ := p; simp only [smAfter, List.dropWhile_cons] at ih ⊢; grind [smFind_cons]

/-- A key that is erased is not listed; every other key reads as before. -/
theorem smFind_smErase (m : SMap α) (n k : Nat) :
    smFind (smErase m n) k = if k = n then none else smFind m k := by
  induction m with
  | nil => simp [smErase]
  | cons p r ih => obtain ⟨j, v⟩ := p; simp only [smErase]; grind [smFind_cons, smFind_smAfter]

@[simp] theorem smGet_smSet (d : α) (m : SMap α) (n k : Nat) (w : α) :
    smGet d (smSet m n w) k = if k = n then w else smGet d m k := by
  simp only [smGet, smFind_smSet]; split <;> rfl

/-- Writing the value of an unlisted key removes the entry, and reads the same. -/
@[simp] theorem smGet_smPut [DecidableEq α] (d : α) (m : SMap α) (n k : Nat) (w : α) :
    smGet d (smPut d m n w) k = if k = n then w else smGet d m k := by
  unfold smPut
  split
  · next h => subst h; simp only [smGet, smFind_smErase]; split <;> rfl
  · exact smGet_smSet d m n k w

theorem smFind_dropWhile_lt (m : SMap α) (n k : Nat) (h : n ≤ k) :
    smFind (m.dropWhile fun p => decide (p.1 < n)) k = smFind m k := by
  induction m with
  | nil => rfl
  | cons p r ih => obtain ⟨j, v⟩ := p; simp only [List.dropWhile_cons]; grind [smFind_cons]

theorem smSlice_go_getElem? (d : α) (len : Nat) : ∀ (m : SMap α) (n i : Nat), i < len →
    (smSlice.go d len m n)[i]? = some (smGet d m (n + i)) := by
  induction len with
  | zero => intro m n i h; omega
  | succ l ih =>
    intro m n i h
    have hd := smFind_dropWhile_lt m n
    simp only [smSlice.go]
    cases hm : m.dropWhile (fun p => decide (p.1 < n)) with
    | nil =>
      have hn : ∀ k, n ≤ k → smFind m k = none := fun k hk => by rw [← hd k hk, hm]; rfl
      cases i with
      | zero => simp [smGet, hn]
      | succ i =>
        rw [List.getElem?_cons_succ, ih [] (n + 1) i (by omega)]
        simp [smGet, hn (n + (i + 1)) (by omega)]
    | cons p r =>
      obtain ⟨j, v⟩ := p
      have hj : ¬ j < n := by
        have := List.head_dropWhile_not (l := m) (fun p : Nat × α => decide (p.1 < n)) (by simp [hm])
        simpa [hm] using this
      have hk : ∀ k, n ≤ k → smFind m k = smFind ((j, v) :: r) k := fun k hk => by rw [← hd k hk, hm]
      cases i with
      | zero => simp only [smGet, hk n (Nat.le_refl n), Nat.add_zero, smFind_cons]; split <;> grind
      | succ i =>
        have e : n + 1 + i = n + (i + 1) := by omega
        simp only
        split
        · next hjn =>
          rw [List.getElem?_cons_succ, ih r (n + 1) i (by omega), e]
          simp only [smGet, hk (n + (i + 1)) (by omega), smFind_cons]; grind
        · rw [List.getElem?_cons_succ, ih _ (n + 1) i (by omega), e]
          simp only [smGet, hk (n + (i + 1)) (by omega)]

/-- A slice lists what each of its keys reads as. -/
theorem smSlice_getElem? (d : α) (m : SMap α) (n len i : Nat) (h : i < len) :
    (smSlice d m n len)[i]? = some (smGet d m (n + i)) := smSlice_go_getElem? d len m n i h

theorem smAfter_length_le (n : Nat) (m : SMap α) : (smAfter n m).length ≤ m.length :=
  (List.dropWhile_sublist _).length_le

theorem smRunF_find (f : Option α → β → Option α) (g : Nat) : ∀ (m : SMap α) (n : Nat) (ws : List β) (k : Nat),
    m.length + ws.length < g →
    smFind (smRunF f g m n ws) k
      = if n ≤ k then (match ws[k - n]? with | some w => f (smFind m k) w | none => smFind m k) else smFind m k := by
  induction g with
  | zero => intro m n ws k h; omega
  | succ g ih =>
    intro m n ws k h
    cases ws with
    | nil => cases m <;> simp [smRunF]
    | cons w ws =>
      have e : n + 1 ≤ k → (w :: ws)[k - n]? = ws[k - (n + 1)]? := fun hk => by
        rw [show k - n = (k - (n + 1)) + 1 by omega, List.getElem?_cons_succ]
      have e0 : n = k → (w :: ws)[k - n]? = some w := fun hk => by simp [hk]
      simp only [List.length_cons] at h
      have sh : ∀ m' : SMap α, m'.length ≤ m.length → smFind (smRunF f g m' (n + 1) ws) k
          = if n + 1 ≤ k then (match ws[k - (n + 1)]? with | some w => f (smFind m' k) w | none => smFind m' k) else smFind m' k :=
        fun m' hm => ih m' (n + 1) ws k (by omega)
      rcases Nat.lt_trichotomy k n with hk | hk | hk
      · have a1 : ¬ n ≤ k := by omega
        have a2 : ¬ n + 1 ≤ k := by omega
        simp only [a1, a2, if_false] at sh ⊢
        cases m with
        | nil =>
          simp only [smRunF]
          split <;> simp [smFind_cons, hk, sh]
        | cons p r =>
          obtain ⟨j, v⟩ := p
          have s2 := sh r (by simp)
          have s3 := sh (smAfter n r) (Nat.le_succ_of_le (smAfter_length_le n r))
          have s4 := ih r n (w :: ws) k (by simp at h ⊢; omega)
          simp only [a1, if_false] at s4
          simp only [smRunF]
          split
          · split
            · simp [smFind_cons, hk, show k < j by omega]
            · exact sh _ (Nat.le_refl _)
          · split
            · next hnj =>
              subst hnj
              split
              · simp [smFind_cons, hk]
              · rw [s3, smFind_smAfter]; simp [smFind_cons, hk, Nat.le_of_lt hk]
            · simp only [smFind_cons, s4]
      · subst hk
        have a2 : ¬ k + 1 ≤ k := by omega
        simp only [a2, if_false] at sh
        simp only [Nat.le_refl, if_true, e0]
        cases m with
        | nil =>
          simp only [smRunF]
          split
          · next hf => simp [smFind_cons, ← hf]
          · next hf => simp [sh, hf]
        | cons p r =>
          obtain ⟨j, v⟩ := p
          have s3 := sh (smAfter k r) (Nat.le_succ_of_le (smAfter_length_le k r))
          have s4 := ih r k (w :: ws) k (by simp at h ⊢; omega)
          simp only [Nat.le_refl, if_true, e0] at s4
          simp only [smRunF]
          split
          · next hj =>
            split
            · next hf => simp [smFind_cons, hj, ← hf]
            · next hf => rw [sh _ (Nat.le_refl _)]; simp [smFind_cons, hj, hf]
          · split
            · next hj =>
              subst hj
              split
              · next hf => simp [smFind_cons, ← hf]
              · next hf => rw [s3, smFind_smAfter]; simp [smFind_cons, hf]
            · next h1 h2 => simp only [smFind_cons, s4, h1, h2, if_false]
      · have a1 : n ≤ k := by omega
        have a2 : n + 1 ≤ k := by omega
        have a3 : ¬ k < n := by omega
        have a4 : ¬ k = n := by omega
        simp only [a2, if_true] at sh
        simp only [a1, if_true, e a2]
        cases m with
        | nil =>
          simp only [smRunF]
          split
          · rw [smFind_cons, if_neg a3, if_neg a4]; exact sh _ (Nat.le_refl _)
          · exact sh _ (Nat.le_refl _)
        | cons p r =>
          obtain ⟨j, v⟩ := p
          have s2 := sh r (by simp)
          have s3 := sh (smAfter n r) (Nat.le_succ_of_le (smAfter_length_le n r))
          have s4 := ih r n (w :: ws) k (by simp at h ⊢; omega)
          simp only [a1, if_true, e a2] at s4
          simp only [smRunF]
          split
          · split
            · rw [smFind_cons, if_neg a3, if_neg a4]; exact sh _ (Nat.le_refl _)
            · exact sh _ (Nat.le_refl _)
          · split
            · next hj =>
              subst hj
              split
              · simp only [smFind_cons, if_neg a3, if_neg a4, s2]
              · rw [s3, smFind_smAfter]; simp only [smFind_cons, if_neg a3, if_neg a4, show ¬ k ≤ n by omega, if_false]
            · next h1 h2 =>
              simp only [smFind_cons, s4, show ¬ k < j by omega, show ¬ k = j by omega, if_false]

/-- A run updates the keys of its items, and every other key reads as before. -/
theorem smFind_smRun (f : Option α → β → Option α) (m : SMap α) (n : Nat) (ws : List β) (k : Nat) :
    smFind (smRun f m n ws) k
      = if n ≤ k then (match ws[k - n]? with | some w => f (smFind m k) w | none => smFind m k) else smFind m k :=
  smRunF_find f _ m n ws k (by omega)

/-- Outside its keys a run changes nothing. -/
theorem smFind_smRun_of_not_mem (f : Option α → β → Option α) (m : SMap α) (n : Nat) (ws : List β) (k : Nat)
    (h : k < n ∨ n + ws.length ≤ k) : smFind (smRun f m n ws) k = smFind m k := by
  rw [smFind_smRun]
  split
  · have : ws.length ≤ k - n := by omega
    simp [List.getElem?_eq_none this]
  · rfl

end Sys2Proof.Machine
end

