-- ==== Sys2Proof/Laws/Load.lean ====
section
/-! SUPPORT. Ordinary loads and stores of ranges: when they succeed, how long their answers are, and what a load answers where no write
is on record. -/

namespace Sys2Proof.Machine

theorem smSlice_length (d : α) (m : SMap α) (n len : Nat) : (smSlice d m n len).length = len := by
  have : ∀ (l : Nat) (m : SMap α) (k : Nat), (smSlice.go d l m k).length = l := by
    intro l
    induction l with
    | zero => intro m k; rfl
    | succ l ih =>
      intro m k
      simp only [smSlice.go]
      split
      · simp [ih]
      · split <;> simp [ih]
  exact this len m n

/-- A slice is the list of what its keys read as. -/
theorem smSlice_eq (d : α) (m : SMap α) (n len : Nat) : smSlice d m n len = (List.range len).map fun i => smGet d m (n + i) := by
  apply List.ext_getElem?
  intro i
  by_cases h : i < len
  · rw [smSlice_getElem? d m n len i h]; simp [h]
  · simp [smSlice_length, Nat.le_of_not_lt h]

theorem chunksOf_flatten (u : Nat) (hu : 0 < u) : ∀ (f : Nat) (l : List α), l.length < f → (chunksOf f u l).flatten = l := by
  intro f
  induction f with
  | zero => intro l h; omega
  | succ f ih =>
    intro l h
    simp only [chunksOf]
    split
    · next he => simp [List.isEmpty_iff.mp he]
    · next he =>
      have hl : 0 < l.length := by
        cases l with
        | nil => simp at he
        | cons => simp
      rw [List.flatten_cons, ih (l.drop u) (by simp; omega), List.take_append_drop]

theorem smRun_keep (f : Option α → β → Option α) (n : Nat) (ws : List β) (h : ∀ w ∈ ws, f none w = none) :
    smRun f ([] : SMap α) n ws = [] := by
  have : ∀ (g n : Nat) (ws : List β), (∀ w ∈ ws, f none w = none) → smRunF f g ([] : SMap α) n ws = [] := by
    intro g
    induction g with
    | zero => intro n ws _; rfl
    | succ g ih =>
      intro n ws h
      cases ws with
      | nil => rfl
      | cons w r =>
        simp only [smRunF, h w (by simp)]
        exact ih _ _ fun x hx => h x (by simp [hx])
  exact this _ n ws h

/-- What an agent with an empty view sees of a byte with no write on record. -/
def plainView (s : State) (k : Nat) : ByteView := ⟨k, [initVersion (memByte s k)], none, 0, 0⟩

theorem byteViews_plain (a : Agent) (pt : Option (Place × Nat)) (z k n : Nat) (s : State) (hh : s.hist = []) (ha : s.agent a = ⟨[], [], [], z⟩) :
    s.byteViews a pt k n = (List.range n).map fun i => plainView s (k + i) := by
  have z : ∀ {β γ : Type} (f : Nat → β) (g : Nat → γ), ((List.range n).map f).zip ((List.range n).map g) = (List.range n).map fun i => (f i, g i) := by
    intro β γ f g; rw [List.zip_map']
  have z0 : ∀ {β : Type} (f : Nat → β), (List.range n).zip ((List.range n).map f) = (List.range n).map fun i => (i, f i) := by
    intro β f
    conv => lhs; arg 1; rw [← List.map_id (List.range n)]
    rw [List.zip_map']; rfl
  simp only [State.byteViews, hh, ha, smSlice_eq, z, z0, List.map_map]
  apply List.map_congr_left
  intro i _
  simp [smGet, plainView, byteCands, eligible, initVersion, pendByte, memByte]

theorem foldl_keep (f : β → α → β) (z : β) : ∀ l : List α, (∀ x ∈ l, f z x = z) → l.foldl f z = z := by
  intro l
  induction l with
  | nil => intro _; rfl
  | cons x r ih => intro h; rw [List.foldl_cons, h x (by simp)]; exact ih fun y hy => h y (by simp [hy])

theorem pickUnit_plain (q : Nat) (s : State) (l : List Nat) :
    pickUnit q (l.map (plainView s)) = (q, l.map fun k => (plainView s k, initVersion (memByte s k))) := by
  have hs : snapshots ((l.map (plainView s)).map (·.cands)) = [0] := by
    have e : (l.map (plainView s)).map (·.cands) = l.map fun k => [initVersion (memByte s k)] := by simp [plainView, Function.comp_def]
    rw [e]
    unfold snapshots
    simp only []
    rw [foldl_keep _ 0 _ (by simp [initVersion]), foldl_keep _ [] _ (by simp [initVersion])]
  unfold pickUnit
  simp only [hs]
  simp [plainView, atInstant, initVersion]

theorem pickUnits_plain (q : Nat) (s : State) (ll : List (List Nat)) :
    pickUnits q (ll.map fun l => l.map (plainView s)) = (q, ll.flatten.map fun k => (plainView s k, initVersion (memByte s k))) := by
  induction ll with
  | nil => rfl
  | cons l r ih => simp [pickUnits, pickUnit_plain, ih]

theorem chunksOf_map (g : α → β) (u : Nat) : ∀ (f : Nat) (l : List α), chunksOf f u (l.map g) = (chunksOf f u l).map fun x => x.map g := by
  intro f
  induction f with
  | zero => intro l; rfl
  | succ f ih => intro l; simp only [chunksOf, List.isEmpty_map, ← List.map_take, ← List.map_drop, ih]; split <;> simp

/-- Where no write is on record and the agent has none of its own, a load answers the bytes of memory and changes nothing. -/
theorem loadRange_plain (a : Agent) (pt : Option (Place × Nat)) (z k n u : Nat) (s : State) (hu : 0 < u) (hh : s.hist = []) (ha : s.agent a = ⟨[], [], [], z⟩) :
    loadRange a pt k n u s = ((List.range n).map fun i => memByte s (k + i), s) := by
  have e : (fun i => plainView s (k + i)) = plainView s ∘ fun i => k + i := rfl
  have hp : pickUnits s.seq (chunksOf (n + 1) u (s.byteViews a pt k n))
      = (s.seq, (List.range n).map fun i => (plainView s (k + i), initVersion (memByte s (k + i)))) := by
    rw [byteViews_plain a pt z k n s hh ha, e, ← List.map_map, chunksOf_map, pickUnits_plain, chunksOf_flatten u hu _ _ (by simp)]
    simp
  unfold loadRange
  simp only [hp, ha, if_true]
  rw [smRun_keep _ _ _ (by simp [plainView, initVersion])]
  simp [plainView, initVersion, Function.comp_def]

/-- An operation after one that succeeded. -/
theorem bindM_ok {x : M α} {f : α → M β} {s t : State} {a : α} (h : x s = .ok a t) : (x >>= f) s = f a t := by
  simp only [bind, EStateM.bind, h]

/-- Ordinary loads of pieces always answer. -/
theorem readPieces_ok (a : Agent) (u : Nat) : ∀ (ps : List (Nat × Nat × BitVec 2)) (s : State), ∃ b t, readPieces a u ps s = .ok b t := by
  intro ps
  induction ps with
  | nil => intro s; exact ⟨[], s, rfl⟩
  | cons p r ih =>
    intro s
    obtain ⟨pa, n, at'⟩ := p
    let x := match mmioOf a.die pa with
      | some (d, off) => mmioLoad d off n s
      | none => loadRange a none (canonPa a.die pa) n u s
    obtain ⟨b, t, h⟩ := ih x.2
    exact ⟨x.1 ++ b, t, bindM_ok h⟩

/-- The bytes of memory behind pieces, in order. -/
def pieceBytes (a : Agent) (s : State) (ps : List (Nat × Nat × BitVec 2)) : List Byte :=
  ps.flatMap fun p => (List.range p.2.1).map fun i => memByte s (canonPa a.die p.1 + i)

theorem readPieces_plain (a : Agent) (z u : Nat) (s : State) (hu : 0 < u) (hh : s.hist = []) (ha : s.agent a = ⟨[], [], [], z⟩) :
    ∀ ps : List (Nat × Nat × BitVec 2), (∀ p ∈ ps, mmioOf a.die p.1 = none) → readPieces a u ps s = .ok (pieceBytes a s ps) s := by
  intro ps
  induction ps with
  | nil => intro _; rfl
  | cons p r ih =>
    intro h
    obtain ⟨pa, n, at'⟩ := p
    have hm : mmioOf a.die pa = none := h (pa, n, at') (by simp)
    simp only [readPieces, bind, EStateM.bind, get, getThe, MonadStateOf.get, EStateM.get, set, EStateM.set, MonadStateOf.set, pure, EStateM.pure, hm,
      loadRange_plain a none z _ n u s hu hh ha, ih fun p hp => h p (by simp [hp])]
    simp [pieceBytes]

/-- A released store of a range that the agent reaches succeeds. -/
theorem writeReleased_ok (a : Agent) (sc : Scope) (va : W64) (b : List Byte) (s t : State) (ps : List (Nat × Nat × BitVec 2))
    (hv : va.toNat < 2 ^ 55) (hr : reach a .write va.toNat b.length s = .ok ps t) : ∃ u, writeReleased a sc va b s = .ok () u := by
  refine ⟨ps.foldl (fun s (pa, n, _) => releaseRange a sc (canonPa a.die pa) n s) (writePieces a va.toNat t ps b), ?_⟩
  simp only [writeReleased, addrRange, hv, if_true, bind, EStateM.bind, pure, EStateM.pure, hr]
  rfl

/-- An acquiring load of a range that the agent reaches succeeds. -/
theorem readAcquired_ok (a : Agent) (sc : Scope) (va : W64) (n u : Nat) (s t : State) (ps : List (Nat × Nat × BitVec 2))
    (hv : va.toNat < 2 ^ 55) (hr : reach a .read va.toNat n s = .ok ps t) : ∃ b v, readAcquired a sc va n u s = .ok b v := by
  obtain ⟨b, v, h⟩ := readPieces_ok a u ps (acquire a sc t)
  refine ⟨b, v, ?_⟩
  simp only [readAcquired, addrRange, hv, if_true, bind, EStateM.bind, pure, EStateM.pure, hr]
  exact h

/-- What an acquiring load answers where no write is on record. -/
theorem readAcquired_plain (a : Agent) (sc : Scope) (va : W64) (z n u : Nat) (s t : State) (ps : List (Nat × Nat × BitVec 2)) (hu : 0 < u)
    (hv : va.toNat < 2 ^ 55) (hr : reach a .read va.toNat n s = .ok ps t) (ht : (acquire a sc t).hist = []) (ha : (acquire a sc t).agent a = ⟨[], [], [], z⟩)
    (hm : ∀ p ∈ ps, mmioOf a.die p.1 = none) :
    readAcquired a sc va n u s = .ok (pieceBytes a (acquire a sc t) ps) (acquire a sc t) := by
  simp only [readAcquired, addrRange, hv, if_true, bind, EStateM.bind, pure, EStateM.pure, hr]
  exact readPieces_plain a z u _ hu ht ha ps hm

end Sys2Proof.Machine
end

