-- ==== Sys2Proof/Laws/Memory.lean ====
section
/-! SUPPORT. Every operation that writes memory keeps its one form: rising keys, no zero listed. -/

namespace Sys2Proof.Machine

variable {α β : Type}

/-- A map that rises from a bound rises from every lower one. -/
theorem smSorted_mono {lo hi : Nat} (h : lo ≤ hi) (m : SMap α) (s : smSorted hi m = true) : smSorted lo m = true := by
  cases m with
  | nil => rfl
  | cons p r => simp only [smSorted, Bool.and_eq_true, decide_eq_true_eq] at s ⊢; exact ⟨by omega, s.2⟩

/-- Taking entries out keeps the order. -/
theorem smSorted_filter (p : Nat × α → Bool) (m : SMap α) : ∀ lo, smSorted lo m = true → smSorted lo (m.filter p) = true := by
  induction m with
  | nil => intro lo _; rfl
  | cons x r ih =>
    intro lo h
    simp only [smSorted, Bool.and_eq_true, decide_eq_true_eq] at h
    simp only [List.filter_cons]
    split
    · simp only [smSorted, Bool.and_eq_true, decide_eq_true_eq]; exact ⟨h.1, ih _ h.2⟩
    · exact smSorted_mono (by omega) _ (ih _ h.2)

/-- The entries behind a key keep the order. -/
theorem smSorted_smAfter (n : Nat) (m : SMap α) : ∀ lo, smSorted lo m = true → smSorted lo (smAfter n m) = true := by
  induction m with
  | nil => intro lo _; rfl
  | cons x r ih =>
    intro lo h
    simp only [smAfter, List.dropWhile_cons] at ih ⊢
    split
    · simp only [smSorted, Bool.and_eq_true, decide_eq_true_eq] at h
      exact smSorted_mono (by omega) _ (ih _ h.2)
    · exact h

/-- A run of updates keeps the order. -/
theorem smSorted_smRunF (f : Option α → β → Option α) (g : Nat) : ∀ (m : SMap α) (n lo : Nat) (ws : List β),
    lo ≤ n → smSorted lo m = true → smSorted lo (smRunF f g m n ws) = true := by
  induction g with
  | zero => intro m n lo ws _ h; simpa only [smRunF] using h
  | succ g ih =>
    intro m n lo ws hn h
    cases ws with
    | nil => cases m <;> simpa only [smRunF] using h
    | cons w ws =>
      cases m with
      | nil =>
        simp only [smRunF]
        split
        · simp only [smSorted, Bool.and_eq_true, decide_eq_true_eq]; exact ⟨hn, ih _ _ _ _ (Nat.le_refl _) rfl⟩
        · exact ih _ _ _ _ (by omega) rfl
      | cons p r =>
        obtain ⟨k, v⟩ := p
        have h' := h
        simp only [smSorted, Bool.and_eq_true, decide_eq_true_eq] at h'
        simp only [smRunF]
        split
        · next lt =>
          split
          · simp only [smSorted, Bool.and_eq_true, decide_eq_true_eq]
            refine ⟨hn, ih _ _ _ _ (Nat.le_refl _) ?_⟩
            simp only [smSorted, Bool.and_eq_true, decide_eq_true_eq]; exact ⟨lt, h'.2⟩
          · exact ih _ _ _ _ (by omega) h
        · split
          · next eq =>
            subst eq
            split
            · simp only [smSorted, Bool.and_eq_true, decide_eq_true_eq]; exact ⟨hn, ih _ _ _ _ (Nat.le_refl _) h'.2⟩
            · exact ih _ _ _ _ (by omega) (smSorted_smAfter _ _ _ (smSorted_mono (by omega) _ h'.2))
          · simp only [smSorted, Bool.and_eq_true, decide_eq_true_eq]; exact ⟨h'.1, ih _ _ _ _ (by omega) h'.2⟩

/-- What holds of every value of a map and of every value that a run puts in holds of every value after it. -/
theorem smRunF_all (P : α → Prop) (f : Option α → β → Option α) (hf : ∀ o w v, f o w = some v → P v) (g : Nat) :
    ∀ (m : SMap α) (n : Nat) (ws : List β), (∀ x ∈ m, P x.2) → ∀ x ∈ smRunF f g m n ws, P x.2 := by
  induction g with
  | zero => intro m n ws h; simpa only [smRunF] using h
  | succ g ih =>
    intro m n ws h
    have tail : ∀ (k : Nat) (v : α) (l : SMap α), P v → (∀ x ∈ l, P x.2) → ∀ x ∈ (k, v) :: l, P x.2 := by
      intro k v l hv hl x hx
      rcases List.mem_cons.1 hx with rfl | hx
      · exact hv
      · exact hl x hx
    cases ws with
    | nil => cases m <;> simpa only [smRunF] using h
    | cons w ws =>
      cases m with
      | nil =>
        simp only [smRunF]
        split
        · next v e => exact tail _ _ _ (hf _ _ _ e) (ih _ _ _ h)
        · exact ih _ _ _ h
      | cons p r =>
        obtain ⟨k, v⟩ := p
        have hr : ∀ x ∈ r, P x.2 := fun x hx => h x (List.mem_cons_of_mem _ hx)
        simp only [smRunF]
        split
        · split
          · next v e => exact tail _ _ _ (hf _ _ _ e) (ih _ _ _ h)
          · exact ih _ _ _ h
        · split
          · split
            · next v e => exact tail _ _ _ (hf _ _ _ e) (ih _ _ _ hr)
            · exact ih _ _ _ fun x hx => hr x ((List.dropWhile_sublist _).subset hx)
          · exact tail _ _ _ (h (k, v) (List.mem_cons_self ..)) (ih _ _ _ hr)

/-- Memory has its form exactly when its keys rise and no zero is listed. -/
theorem Memory.wf_iff (m : List Host.Cell) : Memory.wf m = true ↔ smSorted 0 m = true ∧ ∀ x ∈ m, x.2 ≠ 0 := by
  simp [Memory.wf]

/-- Taking bytes out of memory keeps its form. -/
theorem Memory.wf_filter (p : Host.Cell → Bool) (m : List Host.Cell) (h : Memory.wf m = true) : Memory.wf (m.filter p) = true := by
  rw [Memory.wf_iff] at h ⊢
  exact ⟨smSorted_filter p m 0 h.1, fun x hx => h.2 x (List.mem_of_mem_filter hx)⟩

/-- Writing a run of bytes keeps the form of memory: a zero takes the entry out. -/
theorem Memory.wf_write (m : List Host.Cell) (k : Nat) (b : List Byte) (h : Memory.wf m = true) :
    Memory.wf (smRun (fun _ v => if v = 0 then none else some v) m k b) = true := by
  rw [Memory.wf_iff] at h ⊢
  refine ⟨smSorted_smRunF _ _ _ _ _ _ (Nat.zero_le _) h.1, smRunF_all (· ≠ 0) _ ?_ _ _ _ _ h.2⟩
  intro o w v e
  split at e
  · cases e
  · next hw => cases e; exact hw

/-- Memory after reset has its form. -/
theorem Memory.wf_reset : Memory.wf State.reset.mem = true := rfl

/-- A posted write is told to its port and changes no byte. -/
@[simp] theorem post_mem (pl : Place) (k : Nat) (b : List Byte) (s : State) : (post pl k b s).mem = s.mem := by
  unfold post; split <;> (try split) <;> rfl

/-- A mailbox that fires changes no byte. -/
@[simp] theorem fireWrite_mem (c k n : Nat) (s : State) : (fireWrite c k n s).mem = s.mem := by
  unfold fireWrite; simp only; split <;> rfl

/-- A write that is performed keeps the form of memory. -/
theorem performRaw_wf (a : Agent) (pl : Place) (rels : List (Agent × Scope)) (strong : Bool) (tag : OpTag) (below : Nat → List Version → Nat)
    (k : Nat) (b : List Byte) (s : State) (h : Memory.wf s.mem = true) :
    Memory.wf (performRaw a pl rels strong tag below k b s).mem = true := by
  unfold performRaw
  simp only
  split <;> (try rw [fireWrite_mem]) <;> split <;> (try rw [post_mem]) <;> exact Memory.wf_write _ _ _ h

/-- Bytes that are lost leave memory in its form (R78). -/
theorem wipe_wf (k n : Nat) (s : State) (h : Memory.wf s.mem = true) : Memory.wf (wipe k n s).mem = true :=
  Memory.wf_filter _ _ h

/-- Bytes loaded from outside leave memory in its form (log entry 2). -/
theorem loadBytes_wf (k : Nat) (b : List Byte) (s : State) (h : Memory.wf s.mem = true) : Memory.wf (loadBytes k b s).mem = true :=
  Memory.wf_write _ _ _ (wipe_wf k b.length s h)

/-- A reset of the part leaves memory in its form (R490). -/
theorem partReset_wf (s t : State) (h : Memory.wf s.mem = true) (e : execPartReset s = .next t) : Memory.wf t.mem = true := by
  unfold execPartReset at e
  cases e
  exact Memory.wf_filter _ _ h

end Sys2Proof.Machine
end

