-- ==== Sys2Proof/Laws/Run.lean ====
section
/-! SUPPORT. Everything that the operations which run an instruction can do, said once: later proofs cite these and unfold none of
them. -/

namespace Sys2Proof.Machine

/-- What an instruction of the CC leaves (R270, R273, R287, R303): off, done or stopped. -/
theorem ccRun_next (h : Head) (i : Instr) (f : Nat → M Flow) (s t : State) (e : ccRun h i f s = .next t) :
    ∃ n, s.cur = .ac n 0 ∧
      (((s.ac n).cc.enabled h = false ∧ t = s.modCC n fun c => c.retire h .seq) ∨
        ((s.ac n).cc.enabled h = true ∧
          ((∃ fl u, f n s = .ok fl u ∧ t = u.modCC n fun c => c.retire h fl) ∨
            ∃ st u, f n s = .error st u ∧ t = ccStop n i st u))) := by
  unfold ccRun at e
  split at e
  · next n hc =>
    refine ⟨n, hc, ?_⟩
    split at e
    · next hen =>
      refine .inr ⟨hen, ?_⟩
      split at e
      · next fl u hf => cases e; exact .inl ⟨fl, u, hf, rfl⟩
      · next st u hf => cases e; exact .inr ⟨st, u, hf, rfl⟩
    · next hen => cases e; exact .inl ⟨by simpa using hen, rfl⟩
  · cases e

/-- An instruction of the CC whose predicate is false (R270). -/
theorem ccRun_off (h : Head) (i : Instr) (f : Nat → M Flow) (n : Nat) (s : State) (hc : s.cur = .ac n 0)
    (he : (s.ac n).cc.enabled h = false) : ccRun h i f s = .next (s.modCC n fun c => c.retire h .seq) := by
  simp [ccRun, hc, he]

/-- An instruction of the CC whose effect succeeds. -/
theorem ccRun_ok (h : Head) (i : Instr) (f : Nat → M Flow) (n : Nat) (s u : State) (fl : Flow) (hc : s.cur = .ac n 0)
    (he : (s.ac n).cc.enabled h = true) (hf : f n s = .ok fl u) : ccRun h i f s = .next (u.modCC n fun c => c.retire h fl) := by
  simp [ccRun, hc, he, hf]

/-- An instruction of the CC whose effect faults or waits. -/
theorem ccRun_stop (h : Head) (i : Instr) (f : Nat → M Flow) (n : Nat) (s u : State) (st : Stop) (hc : s.cur = .ac n 0)
    (he : (s.ac n).cc.enabled h = true) (hf : f n s = .error st u) : ccRun h i f s = .next (ccStop n i st u) := by
  simp [ccRun, hc, he, hf]

/-- A check of the instruction's own entry comes before its predicate (R273). -/
theorem ccRunChecked_next (h : Head) (i : Instr) (ok : CC → Bool) (f : Nat → M Flow) (s t : State)
    (e : ccRunChecked h i ok f s = .next t) :
    ∃ n, s.cur = .ac n 0 ∧ ((ok (s.ac n).cc = false ∧ t = illegal n 8 i s) ∨ (ok (s.ac n).cc = true ∧ ccRun h i f s = .next t)) := by
  unfold ccRunChecked at e
  split at e
  · next n hc =>
    refine ⟨n, hc, ?_⟩
    split at e
    · next hk => exact .inr ⟨hk, e⟩
    · next hk => exact .inl ⟨by simpa using hk, (Host.Outcome.next.inj e).symm⟩
  · cases e

/-- An instruction that only changes the CC always completes. -/
theorem ccPure_eq (h : Head) (g : CC → CC) (n : Nat) (s : State) (hc : s.cur = .ac n 0) :
    ccPure h g s = .next (s.modCC n fun c => c.step h g fun _ => .seq) := by
  simp [ccPure, hc]

/-- What such an instruction leaves. -/
theorem ccPure_next (h : Head) (g : CC → CC) (s t : State) (e : ccPure h g s = .next t) :
    ∃ n, s.cur = .ac n 0 ∧ t = s.modCC n fun c => c.step h g fun _ => .seq := by
  unfold ccPure at e
  split at e
  · next n hc => cases e; exact ⟨n, hc, rfl⟩
  · cases e

/-- What an instruction of an engine leaves (R156, R271, R351, R355, R396): off, held behind array commands, stopped by a check, short of
tokens, done, or stopped. -/
theorem engRunN_next (h : Head) (i : Instr) (tk gv : Nat) (chk : Nat → Eid → M Unit) (f : Nat → Eid → M EFlow) (s t : State)
    (e : engRunN h i tk gv chk f s = .next t) :
    ∃ n x, s.curEng = some (n, x) ∧
      ((stageOff h (s.ac n) = true ∧ t = engRetire n x h .seq s) ∨
        (stageOff h (s.ac n) = false ∧
          (((x = .ax ∧ gv ≠ 0 ∧ Head.give h ≠ 0 ∧ (s.ac n).axq ≠ []) ∧ t = engStop n x i .wait s) ∨
            (∃ st u, chk n x s = .error st u ∧ t = engStop n x i st u) ∨
            ∃ u u', chk n x s = .ok () u ∧
              ((u', true) = (if Head.take h = 0 then (u, true) else takeUpTo n x (Head.take h) tk (tk + 1) u) ∧
                  ((∃ fl v, f n x u' = .ok fl v ∧ t = engGive n x (Head.give h) gv (engRetire n x h fl v)) ∨
                    ∃ st v, f n x u' = .error st v ∧ t = engStop n x i st v) ∨
                (u', false) = (if Head.take h = 0 then (u, true) else takeUpTo n x (Head.take h) tk (tk + 1) u) ∧
                  t = engStop n x i .wait u')))) := by
  unfold engRunN at e
  split at e
  · cases e
  · next n x hc =>
    refine ⟨n, x, hc, ?_⟩
    split at e
    · next hs => cases e; exact .inl ⟨hs, rfl⟩
    · next hs =>
      refine .inr ⟨by simpa using hs, ?_⟩
      split at e
      · next hx => cases e; exact .inl ⟨by simpa using hx, rfl⟩
      · split at e
        · next st u hk => cases e; exact .inr (.inl ⟨st, u, hk, rfl⟩)
        · next u hk =>
          refine .inr (.inr ?_)
          generalize hp : (if Head.take h = 0 then (u, true) else takeUpTo n x (Head.take h) tk (tk + 1) u) = p at e
          obtain ⟨u', got⟩ := p
          refine ⟨u, u', hk, ?_⟩
          cases got with
          | false => simp only [Bool.not_false, if_true] at e; cases e; exact .inr ⟨hp.symm, rfl⟩
          | true =>
            simp only [Bool.not_true, Bool.false_eq_true, if_false] at e
            refine .inl ⟨hp.symm, ?_⟩
            split at e
            · next fl v hf => cases e; exact .inl ⟨fl, v, hf, rfl⟩
            · next st v hf => cases e; exact .inr ⟨st, v, hf, rfl⟩

/-- A computation after another that succeeds has both succeed. -/
theorem bind_ok_inv {α β : Type} {x : M α} {f : α → M β} {s t : State} {b : β} (e : (x >>= f) s = .ok b t) :
    ∃ a u, x s = .ok a u ∧ f a u = .ok b t := by
  simp only [bind, EStateM.bind] at e
  split at e
  · next a u hx => exact ⟨a, u, hx, e⟩
  · cases e

/-- One that stops has the first stop, or the second after the first. -/
theorem bind_error_inv {α β : Type} {x : M α} {f : α → M β} {s t : State} {st : Stop} (e : (x >>= f) s = .error st t) :
    x s = .error st t ∨ ∃ a u, x s = .ok a u ∧ f a u = .error st t := by
  simp only [bind, EStateM.bind] at e
  split at e
  · next a u hx => exact .inr ⟨a, u, hx, e⟩
  · next hx => cases e; exact .inl hx

/-- How a refused access ends: as it stopped, or in a wait, and then it was refused by the table with the ring full (R59). -/
theorem ringed_cases (s : State) (who : Agent) (st : Stop) :
    s.ringed who st = st ∨
      (s.ringed who st = .wait ∧ ∃ w0 w1 v, st = .access w0 w1 v ∧ s.ringFull (recordDie who w0) = true) := by
  cases st <;> simp only [State.ringed, true_or]
  split
  · next h => exact .inr ⟨rfl, _, _, _, rfl, h⟩
  · exact .inl rfl

/-- A core that goes on changes its PC and the count of free values alone (log entry 109). -/
theorem coreGoes_rest (s : State) (a : Agent) :
    s.coreGoes a = { s with corePc := (s.coreGoes a).corePc, seq := s.seq + 1 } := rfl

/-- A measurement of a die's power changes that die's record, POWER and ENERGY among it, and the count of free values alone (R494). -/
theorem sense_rest (d : Nat) (s : State) :
    (sense d s).mem = s.mem ∧ (sense d s).acs = s.acs ∧ (sense d s).cycle = s.cycle ∧ s.seq ≤ (sense d s).seq := by
  unfold sense
  split
  · exact ⟨rfl, rfl, rfl, Nat.le_refl _⟩
  · exact ⟨rfl, rfl, rfl, Nat.le_add_right s.seq 2⟩

end Sys2Proof.Machine
end

