-- ==== Sys2Proof/Laws/State.lean ====
section
/-! SUPPORT. What each named update of the state leaves: one lemma for each field that it does not write, and one for what it does
write, so that no later proof unfolds a record update. -/

namespace Sys2Proof.Machine

/-! ### Reading what an update wrote -/

@[simp] theorem State.setAc_ac (s : State) (n m : Nat) (a : AC) : (s.setAc n a).ac m = if m = n then a else s.ac m :=
  smGet_smSet _ _ _ _ _

@[simp] theorem State.modAc_ac (s : State) (n m : Nat) (f : AC → AC) : (s.modAc n f).ac m = if m = n then f (s.ac n) else s.ac m :=
  smGet_smSet _ _ _ _ _

@[simp] theorem State.modCC_ac (s : State) (n m : Nat) (f : CC → CC) :
    (s.modCC n f).ac m = if m = n then { s.ac n with cc := f (s.ac n).cc } else s.ac m :=
  smGet_smSet _ _ _ _ _

@[simp] theorem State.modEng_ac (s : State) (n m : Nat) (e : Eid) (f : Eng → Eng) :
    (s.modEng n e f).ac m = if m = n then (s.ac n).setEng e (f ((s.ac n).eng e)) else s.ac m :=
  smGet_smSet _ _ _ _ _

@[simp] theorem State.setDie_die (s : State) (d e : Nat) (x : Die) : (s.setDie d x).die e = if e = d then x else s.die e :=
  smGet_smSet _ _ _ _ _

@[simp] theorem State.modDie_die (s : State) (d e : Nat) (f : Die → Die) : (s.modDie d f).die e = if e = d then f (s.die d) else s.die e :=
  smGet_smSet _ _ _ _ _

@[simp] theorem State.modKettle_kettle (s : State) (q r : Nat) (f : Kettle → Kettle) :
    (s.modKettle q f).kettle r = if r = q then f (s.kettle q) else s.kettle r :=
  smGet_smSet _ _ _ _ _

@[simp] theorem State.setAgent_agent (s : State) (a b : Agent) (m : AgentMem) :
    (s.setAgent a m).agent b = if b.key = a.key then m else s.agent b :=
  smGet_smSet _ _ _ _ _

@[simp] theorem Die.setReg_reg (d : Die) (o p : Nat) (v : W64) : (d.setReg o v).reg p = if p = o then v else d.reg p := by
  unfold Die.setReg Die.reg
  by_cases h : p = o
  · subst h; simp
  · simp only [smGet, smPut, h, if_false]
    split
    · simp [smFind_smErase, h]
    · simp [smFind_smSet, h]

@[simp] theorem CC.setSr_sr (c : CC) (o p : Nat) (v : W64) : (c.setSr o v).sr p = if p = o then v else c.sr p := by
  unfold CC.setSr CC.sr
  by_cases h : p = o
  · subst h; simp
  · simp only [smGet, smPut, h, if_false]
    split
    · simp [smFind_smErase, h]
    · simp [smFind_smSet, h]

/-- A write of s0 is discarded, and it reads zero (R267). -/
@[simp] theorem CC.setS_s (c : CC) (r q : BitVec 6) (v : W64) :
    (c.setS r v).s q = if q = r then (if r = 0 then 0 else v) else c.s q := by
  unfold CC.setS CC.s
  by_cases hr : r = 0
  · rw [if_pos hr]
    by_cases hq : q = 0
    · rw [if_pos hq, if_pos hr]; split <;> rfl
    · rw [if_neg hq, if_neg fun h => hq (h.trans hr)]
  · rw [if_neg hr]
    by_cases hq : q = 0
    · rw [if_pos hq, if_neg fun h => hr (h.symm.trans hq), if_pos hq]
    · have e : q.toNat = r.toNat ↔ q = r := (BitVec.toNat_eq ..).symm
      rw [if_neg hq, if_neg hq, smGet_smPut, if_neg hr]
      simp only [e]

@[simp] theorem Eng.setX_xr (e : Eng) (r q : Nat) (v : W64) : (e.setX r v).xr q = if q = r then v else e.xr q :=
  smGet_smPut _ _ _ _ _

@[simp] theorem Kettle.setK_kr (k : Kettle) (r : Nat) (q : BitVec 5) (v : KWord) : (k.setK r v).kr q = if q.toNat = r then v else k.kr q :=
  smGet_smPut _ _ _ _ _

@[simp] theorem Kettle.setJ_jr (k : Kettle) (r : Nat) (q : BitVec 3) (v : W64) : (k.setJ r v).jr q = if q.toNat = r then v else k.jr q :=
  smGet_smPut _ _ _ _ _

@[simp] theorem AC.setEng_eng (a : AC) (e f : Eid) (x : Eng) : (a.setEng e x).eng f = if f = e then x else a.eng f := by
  cases e <;> cases f <;> rfl

/-! ### What setAc leaves -/

@[simp] theorem State.setAc_agenda (s : State) (n : Nat) (a : AC) : (s.setAc n a).agenda = s.agenda := rfl
@[simp] theorem State.setAc_cur (s : State) (n : Nat) (a : AC) : (s.setAc n a).cur = s.cur := rfl
@[simp] theorem State.setAc_seq (s : State) (n : Nat) (a : AC) : (s.setAc n a).seq = s.seq := rfl
@[simp] theorem State.setAc_wid (s : State) (n : Nat) (a : AC) : (s.setAc n a).wid = s.wid := rfl
@[simp] theorem State.setAc_cycle (s : State) (n : Nat) (a : AC) : (s.setAc n a).cycle = s.cycle := rfl
@[simp] theorem State.setAc_mem (s : State) (n : Nat) (a : AC) : (s.setAc n a).mem = s.mem := rfl
@[simp] theorem State.setAc_hist (s : State) (n : Nat) (a : AC) : (s.setAc n a).hist = s.hist := rfl
@[simp] theorem State.setAc_agm (s : State) (n : Nat) (a : AC) : (s.setAc n a).agm = s.agm := rfl
@[simp] theorem State.setAc_polls (s : State) (n : Nat) (a : AC) : (s.setAc n a).polls = s.polls := rfl
@[simp] theorem State.setAc_farPolls (s : State) (n : Nat) (a : AC) : (s.setAc n a).farPolls = s.farPolls := rfl
@[simp] theorem State.setAc_watch (s : State) (n : Nat) (a : AC) : (s.setAc n a).watch = s.watch := rfl
@[simp] theorem State.setAc_fires (s : State) (n : Nat) (a : AC) : (s.setAc n a).fires = s.fires := rfl
@[simp] theorem State.setAc_parked (s : State) (n : Nat) (a : AC) : (s.setAc n a).parked = s.parked := rfl
@[simp] theorem State.setAc_bypass (s : State) (n : Nat) (a : AC) : (s.setAc n a).bypass = s.bypass := rfl
@[simp] theorem State.setAc_hostDrop (s : State) (n : Nat) (a : AC) : (s.setAc n a).hostDrop = s.hostDrop := rfl
@[simp] theorem State.setAc_dies (s : State) (n : Nat) (a : AC) : (s.setAc n a).dies = s.dies := rfl
@[simp] theorem State.setAc_kettles (s : State) (n : Nat) (a : AC) : (s.setAc n a).kettles = s.kettles := rfl
@[simp] theorem State.setAc_kissue (s : State) (n : Nat) (a : AC) : (s.setAc n a).kissue = s.kissue := rfl
@[simp] theorem State.setAc_kstatus (s : State) (n : Nat) (a : AC) : (s.setAc n a).kstatus = s.kstatus := rfl
@[simp] theorem State.setAc_sessions (s : State) (n : Nat) (a : AC) : (s.setAc n a).sessions = s.sessions := rfl
@[simp] theorem State.setAc_preempt (s : State) (n : Nat) (a : AC) : (s.setAc n a).preempt = s.preempt := rfl
@[simp] theorem State.setAc_presaved (s : State) (n : Nat) (a : AC) : (s.setAc n a).presaved = s.presaved := rfl
@[simp] theorem State.setAc_ranOf (s : State) (n : Nat) (a : AC) : (s.setAc n a).ranOf = s.ranOf := rfl
@[simp] theorem State.setAc_fab (s : State) (n : Nat) (a : AC) : (s.setAc n a).fab = s.fab := rfl
@[simp] theorem State.setAc_flows (s : State) (n : Nat) (a : AC) : (s.setAc n a).flows = s.flows := rfl
@[simp] theorem State.setAc_fabOut (s : State) (n : Nat) (a : AC) : (s.setAc n a).fabOut = s.fabOut := rfl
@[simp] theorem State.setAc_ingHeld (s : State) (n : Nat) (a : AC) : (s.setAc n a).ingHeld = s.ingHeld := rfl
@[simp] theorem State.setAc_posted (s : State) (n : Nat) (a : AC) : (s.setAc n a).posted = s.posted := rfl
@[simp] theorem State.setAc_extIn (s : State) (n : Nat) (a : AC) : (s.setAc n a).extIn = s.extIn := rfl
@[simp] theorem State.setAc_extEnd (s : State) (n : Nat) (a : AC) : (s.setAc n a).extEnd = s.extEnd := rfl
@[simp] theorem State.setAc_mexc (s : State) (n : Nat) (a : AC) : (s.setAc n a).mexc = s.mexc := rfl
@[simp] theorem State.setAc_lr (s : State) (n : Nat) (a : AC) : (s.setAc n a).lr = s.lr := rfl
@[simp] theorem State.setAc_corePc (s : State) (n : Nat) (a : AC) : (s.setAc n a).corePc = s.corePc := rfl
@[simp] theorem State.setAc_hcached (s : State) (n : Nat) (a : AC) : (s.setAc n a).hcached = s.hcached := rfl
@[simp] theorem State.setAc_meas (s : State) (n : Nat) (a : AC) : (s.setAc n a).meas = s.meas := rfl
@[simp] theorem State.setAc_boot (s : State) (n : Nat) (a : AC) : (s.setAc n a).boot = s.boot := rfl
@[simp] theorem State.setAc_att (s : State) (n : Nat) (a : AC) : (s.setAc n a).att = s.att := rfl
@[simp] theorem State.setAc_msi (s : State) (n : Nat) (a : AC) : (s.setAc n a).msi = s.msi := rfl
@[simp] theorem State.setAc_msiPend (s : State) (n : Nat) (a : AC) : (s.setAc n a).msiPend = s.msiPend := rfl
@[simp] theorem State.setAc_msiTab (s : State) (n : Nat) (a : AC) : (s.setAc n a).msiTab = s.msiTab := rfl
@[simp] theorem State.setAc_msiMask (s : State) (n : Nat) (a : AC) : (s.setAc n a).msiMask = s.msiMask := rfl
@[simp] theorem State.setAc_ttrip (s : State) (n : Nat) (a : AC) : (s.setAc n a).ttrip = s.ttrip := rfl
@[simp] theorem State.setAc_stopped (s : State) (n : Nat) (a : AC) : (s.setAc n a).stopped = s.stopped := rfl

/-! ### What modAc leaves -/

@[simp] theorem State.modAc_agenda (s : State) (n : Nat) (f : AC → AC) : (s.modAc n f).agenda = s.agenda := rfl
@[simp] theorem State.modAc_cur (s : State) (n : Nat) (f : AC → AC) : (s.modAc n f).cur = s.cur := rfl
@[simp] theorem State.modAc_seq (s : State) (n : Nat) (f : AC → AC) : (s.modAc n f).seq = s.seq := rfl
@[simp] theorem State.modAc_wid (s : State) (n : Nat) (f : AC → AC) : (s.modAc n f).wid = s.wid := rfl
@[simp] theorem State.modAc_cycle (s : State) (n : Nat) (f : AC → AC) : (s.modAc n f).cycle = s.cycle := rfl
@[simp] theorem State.modAc_mem (s : State) (n : Nat) (f : AC → AC) : (s.modAc n f).mem = s.mem := rfl
@[simp] theorem State.modAc_hist (s : State) (n : Nat) (f : AC → AC) : (s.modAc n f).hist = s.hist := rfl
@[simp] theorem State.modAc_agm (s : State) (n : Nat) (f : AC → AC) : (s.modAc n f).agm = s.agm := rfl
@[simp] theorem State.modAc_polls (s : State) (n : Nat) (f : AC → AC) : (s.modAc n f).polls = s.polls := rfl
@[simp] theorem State.modAc_farPolls (s : State) (n : Nat) (f : AC → AC) : (s.modAc n f).farPolls = s.farPolls := rfl
@[simp] theorem State.modAc_watch (s : State) (n : Nat) (f : AC → AC) : (s.modAc n f).watch = s.watch := rfl
@[simp] theorem State.modAc_fires (s : State) (n : Nat) (f : AC → AC) : (s.modAc n f).fires = s.fires := rfl
@[simp] theorem State.modAc_parked (s : State) (n : Nat) (f : AC → AC) : (s.modAc n f).parked = s.parked := rfl
@[simp] theorem State.modAc_bypass (s : State) (n : Nat) (f : AC → AC) : (s.modAc n f).bypass = s.bypass := rfl
@[simp] theorem State.modAc_hostDrop (s : State) (n : Nat) (f : AC → AC) : (s.modAc n f).hostDrop = s.hostDrop := rfl
@[simp] theorem State.modAc_dies (s : State) (n : Nat) (f : AC → AC) : (s.modAc n f).dies = s.dies := rfl
@[simp] theorem State.modAc_kettles (s : State) (n : Nat) (f : AC → AC) : (s.modAc n f).kettles = s.kettles := rfl
@[simp] theorem State.modAc_kissue (s : State) (n : Nat) (f : AC → AC) : (s.modAc n f).kissue = s.kissue := rfl
@[simp] theorem State.modAc_kstatus (s : State) (n : Nat) (f : AC → AC) : (s.modAc n f).kstatus = s.kstatus := rfl
@[simp] theorem State.modAc_sessions (s : State) (n : Nat) (f : AC → AC) : (s.modAc n f).sessions = s.sessions := rfl
@[simp] theorem State.modAc_preempt (s : State) (n : Nat) (f : AC → AC) : (s.modAc n f).preempt = s.preempt := rfl
@[simp] theorem State.modAc_presaved (s : State) (n : Nat) (f : AC → AC) : (s.modAc n f).presaved = s.presaved := rfl
@[simp] theorem State.modAc_ranOf (s : State) (n : Nat) (f : AC → AC) : (s.modAc n f).ranOf = s.ranOf := rfl
@[simp] theorem State.modAc_fab (s : State) (n : Nat) (f : AC → AC) : (s.modAc n f).fab = s.fab := rfl
@[simp] theorem State.modAc_flows (s : State) (n : Nat) (f : AC → AC) : (s.modAc n f).flows = s.flows := rfl
@[simp] theorem State.modAc_fabOut (s : State) (n : Nat) (f : AC → AC) : (s.modAc n f).fabOut = s.fabOut := rfl
@[simp] theorem State.modAc_ingHeld (s : State) (n : Nat) (f : AC → AC) : (s.modAc n f).ingHeld = s.ingHeld := rfl
@[simp] theorem State.modAc_posted (s : State) (n : Nat) (f : AC → AC) : (s.modAc n f).posted = s.posted := rfl
@[simp] theorem State.modAc_extIn (s : State) (n : Nat) (f : AC → AC) : (s.modAc n f).extIn = s.extIn := rfl
@[simp] theorem State.modAc_extEnd (s : State) (n : Nat) (f : AC → AC) : (s.modAc n f).extEnd = s.extEnd := rfl
@[simp] theorem State.modAc_mexc (s : State) (n : Nat) (f : AC → AC) : (s.modAc n f).mexc = s.mexc := rfl
@[simp] theorem State.modAc_lr (s : State) (n : Nat) (f : AC → AC) : (s.modAc n f).lr = s.lr := rfl
@[simp] theorem State.modAc_corePc (s : State) (n : Nat) (f : AC → AC) : (s.modAc n f).corePc = s.corePc := rfl
@[simp] theorem State.modAc_hcached (s : State) (n : Nat) (f : AC → AC) : (s.modAc n f).hcached = s.hcached := rfl
@[simp] theorem State.modAc_meas (s : State) (n : Nat) (f : AC → AC) : (s.modAc n f).meas = s.meas := rfl
@[simp] theorem State.modAc_boot (s : State) (n : Nat) (f : AC → AC) : (s.modAc n f).boot = s.boot := rfl
@[simp] theorem State.modAc_att (s : State) (n : Nat) (f : AC → AC) : (s.modAc n f).att = s.att := rfl
@[simp] theorem State.modAc_msi (s : State) (n : Nat) (f : AC → AC) : (s.modAc n f).msi = s.msi := rfl
@[simp] theorem State.modAc_msiPend (s : State) (n : Nat) (f : AC → AC) : (s.modAc n f).msiPend = s.msiPend := rfl
@[simp] theorem State.modAc_msiTab (s : State) (n : Nat) (f : AC → AC) : (s.modAc n f).msiTab = s.msiTab := rfl
@[simp] theorem State.modAc_msiMask (s : State) (n : Nat) (f : AC → AC) : (s.modAc n f).msiMask = s.msiMask := rfl
@[simp] theorem State.modAc_ttrip (s : State) (n : Nat) (f : AC → AC) : (s.modAc n f).ttrip = s.ttrip := rfl
@[simp] theorem State.modAc_stopped (s : State) (n : Nat) (f : AC → AC) : (s.modAc n f).stopped = s.stopped := rfl

/-! ### What modCC leaves -/

@[simp] theorem State.modCC_agenda (s : State) (n : Nat) (f : CC → CC) : (s.modCC n f).agenda = s.agenda := rfl
@[simp] theorem State.modCC_cur (s : State) (n : Nat) (f : CC → CC) : (s.modCC n f).cur = s.cur := rfl
@[simp] theorem State.modCC_seq (s : State) (n : Nat) (f : CC → CC) : (s.modCC n f).seq = s.seq := rfl
@[simp] theorem State.modCC_wid (s : State) (n : Nat) (f : CC → CC) : (s.modCC n f).wid = s.wid := rfl
@[simp] theorem State.modCC_cycle (s : State) (n : Nat) (f : CC → CC) : (s.modCC n f).cycle = s.cycle := rfl
@[simp] theorem State.modCC_mem (s : State) (n : Nat) (f : CC → CC) : (s.modCC n f).mem = s.mem := rfl
@[simp] theorem State.modCC_hist (s : State) (n : Nat) (f : CC → CC) : (s.modCC n f).hist = s.hist := rfl
@[simp] theorem State.modCC_agm (s : State) (n : Nat) (f : CC → CC) : (s.modCC n f).agm = s.agm := rfl
@[simp] theorem State.modCC_polls (s : State) (n : Nat) (f : CC → CC) : (s.modCC n f).polls = s.polls := rfl
@[simp] theorem State.modCC_farPolls (s : State) (n : Nat) (f : CC → CC) : (s.modCC n f).farPolls = s.farPolls := rfl
@[simp] theorem State.modCC_watch (s : State) (n : Nat) (f : CC → CC) : (s.modCC n f).watch = s.watch := rfl
@[simp] theorem State.modCC_fires (s : State) (n : Nat) (f : CC → CC) : (s.modCC n f).fires = s.fires := rfl
@[simp] theorem State.modCC_parked (s : State) (n : Nat) (f : CC → CC) : (s.modCC n f).parked = s.parked := rfl
@[simp] theorem State.modCC_bypass (s : State) (n : Nat) (f : CC → CC) : (s.modCC n f).bypass = s.bypass := rfl
@[simp] theorem State.modCC_hostDrop (s : State) (n : Nat) (f : CC → CC) : (s.modCC n f).hostDrop = s.hostDrop := rfl
@[simp] theorem State.modCC_dies (s : State) (n : Nat) (f : CC → CC) : (s.modCC n f).dies = s.dies := rfl
@[simp] theorem State.modCC_kettles (s : State) (n : Nat) (f : CC → CC) : (s.modCC n f).kettles = s.kettles := rfl
@[simp] theorem State.modCC_kissue (s : State) (n : Nat) (f : CC → CC) : (s.modCC n f).kissue = s.kissue := rfl
@[simp] theorem State.modCC_kstatus (s : State) (n : Nat) (f : CC → CC) : (s.modCC n f).kstatus = s.kstatus := rfl
@[simp] theorem State.modCC_sessions (s : State) (n : Nat) (f : CC → CC) : (s.modCC n f).sessions = s.sessions := rfl
@[simp] theorem State.modCC_preempt (s : State) (n : Nat) (f : CC → CC) : (s.modCC n f).preempt = s.preempt := rfl
@[simp] theorem State.modCC_presaved (s : State) (n : Nat) (f : CC → CC) : (s.modCC n f).presaved = s.presaved := rfl
@[simp] theorem State.modCC_ranOf (s : State) (n : Nat) (f : CC → CC) : (s.modCC n f).ranOf = s.ranOf := rfl
@[simp] theorem State.modCC_fab (s : State) (n : Nat) (f : CC → CC) : (s.modCC n f).fab = s.fab := rfl
@[simp] theorem State.modCC_flows (s : State) (n : Nat) (f : CC → CC) : (s.modCC n f).flows = s.flows := rfl
@[simp] theorem State.modCC_fabOut (s : State) (n : Nat) (f : CC → CC) : (s.modCC n f).fabOut = s.fabOut := rfl
@[simp] theorem State.modCC_ingHeld (s : State) (n : Nat) (f : CC → CC) : (s.modCC n f).ingHeld = s.ingHeld := rfl
@[simp] theorem State.modCC_posted (s : State) (n : Nat) (f : CC → CC) : (s.modCC n f).posted = s.posted := rfl
@[simp] theorem State.modCC_extIn (s : State) (n : Nat) (f : CC → CC) : (s.modCC n f).extIn = s.extIn := rfl
@[simp] theorem State.modCC_extEnd (s : State) (n : Nat) (f : CC → CC) : (s.modCC n f).extEnd = s.extEnd := rfl
@[simp] theorem State.modCC_mexc (s : State) (n : Nat) (f : CC → CC) : (s.modCC n f).mexc = s.mexc := rfl
@[simp] theorem State.modCC_lr (s : State) (n : Nat) (f : CC → CC) : (s.modCC n f).lr = s.lr := rfl
@[simp] theorem State.modCC_corePc (s : State) (n : Nat) (f : CC → CC) : (s.modCC n f).corePc = s.corePc := rfl
@[simp] theorem State.modCC_hcached (s : State) (n : Nat) (f : CC → CC) : (s.modCC n f).hcached = s.hcached := rfl
@[simp] theorem State.modCC_meas (s : State) (n : Nat) (f : CC → CC) : (s.modCC n f).meas = s.meas := rfl
@[simp] theorem State.modCC_boot (s : State) (n : Nat) (f : CC → CC) : (s.modCC n f).boot = s.boot := rfl
@[simp] theorem State.modCC_att (s : State) (n : Nat) (f : CC → CC) : (s.modCC n f).att = s.att := rfl
@[simp] theorem State.modCC_msi (s : State) (n : Nat) (f : CC → CC) : (s.modCC n f).msi = s.msi := rfl
@[simp] theorem State.modCC_msiPend (s : State) (n : Nat) (f : CC → CC) : (s.modCC n f).msiPend = s.msiPend := rfl
@[simp] theorem State.modCC_msiTab (s : State) (n : Nat) (f : CC → CC) : (s.modCC n f).msiTab = s.msiTab := rfl
@[simp] theorem State.modCC_msiMask (s : State) (n : Nat) (f : CC → CC) : (s.modCC n f).msiMask = s.msiMask := rfl
@[simp] theorem State.modCC_ttrip (s : State) (n : Nat) (f : CC → CC) : (s.modCC n f).ttrip = s.ttrip := rfl
@[simp] theorem State.modCC_stopped (s : State) (n : Nat) (f : CC → CC) : (s.modCC n f).stopped = s.stopped := rfl

/-! ### What modEng leaves -/

@[simp] theorem State.modEng_agenda (s : State) (n : Nat) (e : Eid) (f : Eng → Eng) : (s.modEng n e f).agenda = s.agenda := rfl
@[simp] theorem State.modEng_cur (s : State) (n : Nat) (e : Eid) (f : Eng → Eng) : (s.modEng n e f).cur = s.cur := rfl
@[simp] theorem State.modEng_seq (s : State) (n : Nat) (e : Eid) (f : Eng → Eng) : (s.modEng n e f).seq = s.seq := rfl
@[simp] theorem State.modEng_wid (s : State) (n : Nat) (e : Eid) (f : Eng → Eng) : (s.modEng n e f).wid = s.wid := rfl
@[simp] theorem State.modEng_cycle (s : State) (n : Nat) (e : Eid) (f : Eng → Eng) : (s.modEng n e f).cycle = s.cycle := rfl
@[simp] theorem State.modEng_mem (s : State) (n : Nat) (e : Eid) (f : Eng → Eng) : (s.modEng n e f).mem = s.mem := rfl
@[simp] theorem State.modEng_hist (s : State) (n : Nat) (e : Eid) (f : Eng → Eng) : (s.modEng n e f).hist = s.hist := rfl
@[simp] theorem State.modEng_agm (s : State) (n : Nat) (e : Eid) (f : Eng → Eng) : (s.modEng n e f).agm = s.agm := rfl
@[simp] theorem State.modEng_polls (s : State) (n : Nat) (e : Eid) (f : Eng → Eng) : (s.modEng n e f).polls = s.polls := rfl
@[simp] theorem State.modEng_farPolls (s : State) (n : Nat) (e : Eid) (f : Eng → Eng) : (s.modEng n e f).farPolls = s.farPolls := rfl
@[simp] theorem State.modEng_watch (s : State) (n : Nat) (e : Eid) (f : Eng → Eng) : (s.modEng n e f).watch = s.watch := rfl
@[simp] theorem State.modEng_fires (s : State) (n : Nat) (e : Eid) (f : Eng → Eng) : (s.modEng n e f).fires = s.fires := rfl
@[simp] theorem State.modEng_parked (s : State) (n : Nat) (e : Eid) (f : Eng → Eng) : (s.modEng n e f).parked = s.parked := rfl
@[simp] theorem State.modEng_bypass (s : State) (n : Nat) (e : Eid) (f : Eng → Eng) : (s.modEng n e f).bypass = s.bypass := rfl
@[simp] theorem State.modEng_hostDrop (s : State) (n : Nat) (e : Eid) (f : Eng → Eng) : (s.modEng n e f).hostDrop = s.hostDrop := rfl
@[simp] theorem State.modEng_dies (s : State) (n : Nat) (e : Eid) (f : Eng → Eng) : (s.modEng n e f).dies = s.dies := rfl
@[simp] theorem State.modEng_kettles (s : State) (n : Nat) (e : Eid) (f : Eng → Eng) : (s.modEng n e f).kettles = s.kettles := rfl
@[simp] theorem State.modEng_kissue (s : State) (n : Nat) (e : Eid) (f : Eng → Eng) : (s.modEng n e f).kissue = s.kissue := rfl
@[simp] theorem State.modEng_kstatus (s : State) (n : Nat) (e : Eid) (f : Eng → Eng) : (s.modEng n e f).kstatus = s.kstatus := rfl
@[simp] theorem State.modEng_sessions (s : State) (n : Nat) (e : Eid) (f : Eng → Eng) : (s.modEng n e f).sessions = s.sessions := rfl
@[simp] theorem State.modEng_preempt (s : State) (n : Nat) (e : Eid) (f : Eng → Eng) : (s.modEng n e f).preempt = s.preempt := rfl
@[simp] theorem State.modEng_presaved (s : State) (n : Nat) (e : Eid) (f : Eng → Eng) : (s.modEng n e f).presaved = s.presaved := rfl
@[simp] theorem State.modEng_ranOf (s : State) (n : Nat) (e : Eid) (f : Eng → Eng) : (s.modEng n e f).ranOf = s.ranOf := rfl
@[simp] theorem State.modEng_fab (s : State) (n : Nat) (e : Eid) (f : Eng → Eng) : (s.modEng n e f).fab = s.fab := rfl
@[simp] theorem State.modEng_flows (s : State) (n : Nat) (e : Eid) (f : Eng → Eng) : (s.modEng n e f).flows = s.flows := rfl
@[simp] theorem State.modEng_fabOut (s : State) (n : Nat) (e : Eid) (f : Eng → Eng) : (s.modEng n e f).fabOut = s.fabOut := rfl
@[simp] theorem State.modEng_ingHeld (s : State) (n : Nat) (e : Eid) (f : Eng → Eng) : (s.modEng n e f).ingHeld = s.ingHeld := rfl
@[simp] theorem State.modEng_posted (s : State) (n : Nat) (e : Eid) (f : Eng → Eng) : (s.modEng n e f).posted = s.posted := rfl
@[simp] theorem State.modEng_extIn (s : State) (n : Nat) (e : Eid) (f : Eng → Eng) : (s.modEng n e f).extIn = s.extIn := rfl
@[simp] theorem State.modEng_extEnd (s : State) (n : Nat) (e : Eid) (f : Eng → Eng) : (s.modEng n e f).extEnd = s.extEnd := rfl
@[simp] theorem State.modEng_mexc (s : State) (n : Nat) (e : Eid) (f : Eng → Eng) : (s.modEng n e f).mexc = s.mexc := rfl
@[simp] theorem State.modEng_lr (s : State) (n : Nat) (e : Eid) (f : Eng → Eng) : (s.modEng n e f).lr = s.lr := rfl
@[simp] theorem State.modEng_corePc (s : State) (n : Nat) (e : Eid) (f : Eng → Eng) : (s.modEng n e f).corePc = s.corePc := rfl
@[simp] theorem State.modEng_hcached (s : State) (n : Nat) (e : Eid) (f : Eng → Eng) : (s.modEng n e f).hcached = s.hcached := rfl
@[simp] theorem State.modEng_meas (s : State) (n : Nat) (e : Eid) (f : Eng → Eng) : (s.modEng n e f).meas = s.meas := rfl
@[simp] theorem State.modEng_boot (s : State) (n : Nat) (e : Eid) (f : Eng → Eng) : (s.modEng n e f).boot = s.boot := rfl
@[simp] theorem State.modEng_att (s : State) (n : Nat) (e : Eid) (f : Eng → Eng) : (s.modEng n e f).att = s.att := rfl
@[simp] theorem State.modEng_msi (s : State) (n : Nat) (e : Eid) (f : Eng → Eng) : (s.modEng n e f).msi = s.msi := rfl
@[simp] theorem State.modEng_msiPend (s : State) (n : Nat) (e : Eid) (f : Eng → Eng) : (s.modEng n e f).msiPend = s.msiPend := rfl
@[simp] theorem State.modEng_msiTab (s : State) (n : Nat) (e : Eid) (f : Eng → Eng) : (s.modEng n e f).msiTab = s.msiTab := rfl
@[simp] theorem State.modEng_msiMask (s : State) (n : Nat) (e : Eid) (f : Eng → Eng) : (s.modEng n e f).msiMask = s.msiMask := rfl
@[simp] theorem State.modEng_ttrip (s : State) (n : Nat) (e : Eid) (f : Eng → Eng) : (s.modEng n e f).ttrip = s.ttrip := rfl
@[simp] theorem State.modEng_stopped (s : State) (n : Nat) (e : Eid) (f : Eng → Eng) : (s.modEng n e f).stopped = s.stopped := rfl

/-! ### What setDie leaves -/

@[simp] theorem State.setDie_agenda (s : State) (d : Nat) (x : Die) : (s.setDie d x).agenda = s.agenda := rfl
@[simp] theorem State.setDie_cur (s : State) (d : Nat) (x : Die) : (s.setDie d x).cur = s.cur := rfl
@[simp] theorem State.setDie_seq (s : State) (d : Nat) (x : Die) : (s.setDie d x).seq = s.seq := rfl
@[simp] theorem State.setDie_wid (s : State) (d : Nat) (x : Die) : (s.setDie d x).wid = s.wid := rfl
@[simp] theorem State.setDie_cycle (s : State) (d : Nat) (x : Die) : (s.setDie d x).cycle = s.cycle := rfl
@[simp] theorem State.setDie_mem (s : State) (d : Nat) (x : Die) : (s.setDie d x).mem = s.mem := rfl
@[simp] theorem State.setDie_hist (s : State) (d : Nat) (x : Die) : (s.setDie d x).hist = s.hist := rfl
@[simp] theorem State.setDie_agm (s : State) (d : Nat) (x : Die) : (s.setDie d x).agm = s.agm := rfl
@[simp] theorem State.setDie_polls (s : State) (d : Nat) (x : Die) : (s.setDie d x).polls = s.polls := rfl
@[simp] theorem State.setDie_farPolls (s : State) (d : Nat) (x : Die) : (s.setDie d x).farPolls = s.farPolls := rfl
@[simp] theorem State.setDie_watch (s : State) (d : Nat) (x : Die) : (s.setDie d x).watch = s.watch := rfl
@[simp] theorem State.setDie_fires (s : State) (d : Nat) (x : Die) : (s.setDie d x).fires = s.fires := rfl
@[simp] theorem State.setDie_parked (s : State) (d : Nat) (x : Die) : (s.setDie d x).parked = s.parked := rfl
@[simp] theorem State.setDie_bypass (s : State) (d : Nat) (x : Die) : (s.setDie d x).bypass = s.bypass := rfl
@[simp] theorem State.setDie_hostDrop (s : State) (d : Nat) (x : Die) : (s.setDie d x).hostDrop = s.hostDrop := rfl
@[simp] theorem State.setDie_acs (s : State) (d : Nat) (x : Die) : (s.setDie d x).acs = s.acs := rfl
@[simp] theorem State.setDie_kettles (s : State) (d : Nat) (x : Die) : (s.setDie d x).kettles = s.kettles := rfl
@[simp] theorem State.setDie_kissue (s : State) (d : Nat) (x : Die) : (s.setDie d x).kissue = s.kissue := rfl
@[simp] theorem State.setDie_kstatus (s : State) (d : Nat) (x : Die) : (s.setDie d x).kstatus = s.kstatus := rfl
@[simp] theorem State.setDie_sessions (s : State) (d : Nat) (x : Die) : (s.setDie d x).sessions = s.sessions := rfl
@[simp] theorem State.setDie_preempt (s : State) (d : Nat) (x : Die) : (s.setDie d x).preempt = s.preempt := rfl
@[simp] theorem State.setDie_presaved (s : State) (d : Nat) (x : Die) : (s.setDie d x).presaved = s.presaved := rfl
@[simp] theorem State.setDie_ranOf (s : State) (d : Nat) (x : Die) : (s.setDie d x).ranOf = s.ranOf := rfl
@[simp] theorem State.setDie_fab (s : State) (d : Nat) (x : Die) : (s.setDie d x).fab = s.fab := rfl
@[simp] theorem State.setDie_flows (s : State) (d : Nat) (x : Die) : (s.setDie d x).flows = s.flows := rfl
@[simp] theorem State.setDie_fabOut (s : State) (d : Nat) (x : Die) : (s.setDie d x).fabOut = s.fabOut := rfl
@[simp] theorem State.setDie_ingHeld (s : State) (d : Nat) (x : Die) : (s.setDie d x).ingHeld = s.ingHeld := rfl
@[simp] theorem State.setDie_posted (s : State) (d : Nat) (x : Die) : (s.setDie d x).posted = s.posted := rfl
@[simp] theorem State.setDie_extIn (s : State) (d : Nat) (x : Die) : (s.setDie d x).extIn = s.extIn := rfl
@[simp] theorem State.setDie_extEnd (s : State) (d : Nat) (x : Die) : (s.setDie d x).extEnd = s.extEnd := rfl
@[simp] theorem State.setDie_mexc (s : State) (d : Nat) (x : Die) : (s.setDie d x).mexc = s.mexc := rfl
@[simp] theorem State.setDie_lr (s : State) (d : Nat) (x : Die) : (s.setDie d x).lr = s.lr := rfl
@[simp] theorem State.setDie_corePc (s : State) (d : Nat) (x : Die) : (s.setDie d x).corePc = s.corePc := rfl
@[simp] theorem State.setDie_hcached (s : State) (d : Nat) (x : Die) : (s.setDie d x).hcached = s.hcached := rfl
@[simp] theorem State.setDie_meas (s : State) (d : Nat) (x : Die) : (s.setDie d x).meas = s.meas := rfl
@[simp] theorem State.setDie_boot (s : State) (d : Nat) (x : Die) : (s.setDie d x).boot = s.boot := rfl
@[simp] theorem State.setDie_att (s : State) (d : Nat) (x : Die) : (s.setDie d x).att = s.att := rfl
@[simp] theorem State.setDie_msi (s : State) (d : Nat) (x : Die) : (s.setDie d x).msi = s.msi := rfl
@[simp] theorem State.setDie_msiPend (s : State) (d : Nat) (x : Die) : (s.setDie d x).msiPend = s.msiPend := rfl
@[simp] theorem State.setDie_msiTab (s : State) (d : Nat) (x : Die) : (s.setDie d x).msiTab = s.msiTab := rfl
@[simp] theorem State.setDie_msiMask (s : State) (d : Nat) (x : Die) : (s.setDie d x).msiMask = s.msiMask := rfl
@[simp] theorem State.setDie_ttrip (s : State) (d : Nat) (x : Die) : (s.setDie d x).ttrip = s.ttrip := rfl
@[simp] theorem State.setDie_stopped (s : State) (d : Nat) (x : Die) : (s.setDie d x).stopped = s.stopped := rfl

/-! ### What modDie leaves -/

@[simp] theorem State.modDie_agenda (s : State) (d : Nat) (f : Die → Die) : (s.modDie d f).agenda = s.agenda := rfl
@[simp] theorem State.modDie_cur (s : State) (d : Nat) (f : Die → Die) : (s.modDie d f).cur = s.cur := rfl
@[simp] theorem State.modDie_seq (s : State) (d : Nat) (f : Die → Die) : (s.modDie d f).seq = s.seq := rfl
@[simp] theorem State.modDie_wid (s : State) (d : Nat) (f : Die → Die) : (s.modDie d f).wid = s.wid := rfl
@[simp] theorem State.modDie_cycle (s : State) (d : Nat) (f : Die → Die) : (s.modDie d f).cycle = s.cycle := rfl
@[simp] theorem State.modDie_mem (s : State) (d : Nat) (f : Die → Die) : (s.modDie d f).mem = s.mem := rfl
@[simp] theorem State.modDie_hist (s : State) (d : Nat) (f : Die → Die) : (s.modDie d f).hist = s.hist := rfl
@[simp] theorem State.modDie_agm (s : State) (d : Nat) (f : Die → Die) : (s.modDie d f).agm = s.agm := rfl
@[simp] theorem State.modDie_polls (s : State) (d : Nat) (f : Die → Die) : (s.modDie d f).polls = s.polls := rfl
@[simp] theorem State.modDie_farPolls (s : State) (d : Nat) (f : Die → Die) : (s.modDie d f).farPolls = s.farPolls := rfl
@[simp] theorem State.modDie_watch (s : State) (d : Nat) (f : Die → Die) : (s.modDie d f).watch = s.watch := rfl
@[simp] theorem State.modDie_fires (s : State) (d : Nat) (f : Die → Die) : (s.modDie d f).fires = s.fires := rfl
@[simp] theorem State.modDie_parked (s : State) (d : Nat) (f : Die → Die) : (s.modDie d f).parked = s.parked := rfl
@[simp] theorem State.modDie_bypass (s : State) (d : Nat) (f : Die → Die) : (s.modDie d f).bypass = s.bypass := rfl
@[simp] theorem State.modDie_hostDrop (s : State) (d : Nat) (f : Die → Die) : (s.modDie d f).hostDrop = s.hostDrop := rfl
@[simp] theorem State.modDie_acs (s : State) (d : Nat) (f : Die → Die) : (s.modDie d f).acs = s.acs := rfl
@[simp] theorem State.modDie_kettles (s : State) (d : Nat) (f : Die → Die) : (s.modDie d f).kettles = s.kettles := rfl
@[simp] theorem State.modDie_kissue (s : State) (d : Nat) (f : Die → Die) : (s.modDie d f).kissue = s.kissue := rfl
@[simp] theorem State.modDie_kstatus (s : State) (d : Nat) (f : Die → Die) : (s.modDie d f).kstatus = s.kstatus := rfl
@[simp] theorem State.modDie_sessions (s : State) (d : Nat) (f : Die → Die) : (s.modDie d f).sessions = s.sessions := rfl
@[simp] theorem State.modDie_preempt (s : State) (d : Nat) (f : Die → Die) : (s.modDie d f).preempt = s.preempt := rfl
@[simp] theorem State.modDie_presaved (s : State) (d : Nat) (f : Die → Die) : (s.modDie d f).presaved = s.presaved := rfl
@[simp] theorem State.modDie_ranOf (s : State) (d : Nat) (f : Die → Die) : (s.modDie d f).ranOf = s.ranOf := rfl
@[simp] theorem State.modDie_fab (s : State) (d : Nat) (f : Die → Die) : (s.modDie d f).fab = s.fab := rfl
@[simp] theorem State.modDie_flows (s : State) (d : Nat) (f : Die → Die) : (s.modDie d f).flows = s.flows := rfl
@[simp] theorem State.modDie_fabOut (s : State) (d : Nat) (f : Die → Die) : (s.modDie d f).fabOut = s.fabOut := rfl
@[simp] theorem State.modDie_ingHeld (s : State) (d : Nat) (f : Die → Die) : (s.modDie d f).ingHeld = s.ingHeld := rfl
@[simp] theorem State.modDie_posted (s : State) (d : Nat) (f : Die → Die) : (s.modDie d f).posted = s.posted := rfl
@[simp] theorem State.modDie_extIn (s : State) (d : Nat) (f : Die → Die) : (s.modDie d f).extIn = s.extIn := rfl
@[simp] theorem State.modDie_extEnd (s : State) (d : Nat) (f : Die → Die) : (s.modDie d f).extEnd = s.extEnd := rfl
@[simp] theorem State.modDie_mexc (s : State) (d : Nat) (f : Die → Die) : (s.modDie d f).mexc = s.mexc := rfl
@[simp] theorem State.modDie_lr (s : State) (d : Nat) (f : Die → Die) : (s.modDie d f).lr = s.lr := rfl
@[simp] theorem State.modDie_corePc (s : State) (d : Nat) (f : Die → Die) : (s.modDie d f).corePc = s.corePc := rfl
@[simp] theorem State.modDie_hcached (s : State) (d : Nat) (f : Die → Die) : (s.modDie d f).hcached = s.hcached := rfl
@[simp] theorem State.modDie_meas (s : State) (d : Nat) (f : Die → Die) : (s.modDie d f).meas = s.meas := rfl
@[simp] theorem State.modDie_boot (s : State) (d : Nat) (f : Die → Die) : (s.modDie d f).boot = s.boot := rfl
@[simp] theorem State.modDie_att (s : State) (d : Nat) (f : Die → Die) : (s.modDie d f).att = s.att := rfl
@[simp] theorem State.modDie_msi (s : State) (d : Nat) (f : Die → Die) : (s.modDie d f).msi = s.msi := rfl
@[simp] theorem State.modDie_msiPend (s : State) (d : Nat) (f : Die → Die) : (s.modDie d f).msiPend = s.msiPend := rfl
@[simp] theorem State.modDie_msiTab (s : State) (d : Nat) (f : Die → Die) : (s.modDie d f).msiTab = s.msiTab := rfl
@[simp] theorem State.modDie_msiMask (s : State) (d : Nat) (f : Die → Die) : (s.modDie d f).msiMask = s.msiMask := rfl
@[simp] theorem State.modDie_ttrip (s : State) (d : Nat) (f : Die → Die) : (s.modDie d f).ttrip = s.ttrip := rfl
@[simp] theorem State.modDie_stopped (s : State) (d : Nat) (f : Die → Die) : (s.modDie d f).stopped = s.stopped := rfl

/-! ### What setReg leaves -/

@[simp] theorem State.setReg_agenda (s : State) (d o : Nat) (v : W64) : (s.setReg d o v).agenda = s.agenda := rfl
@[simp] theorem State.setReg_cur (s : State) (d o : Nat) (v : W64) : (s.setReg d o v).cur = s.cur := rfl
@[simp] theorem State.setReg_seq (s : State) (d o : Nat) (v : W64) : (s.setReg d o v).seq = s.seq := rfl
@[simp] theorem State.setReg_wid (s : State) (d o : Nat) (v : W64) : (s.setReg d o v).wid = s.wid := rfl
@[simp] theorem State.setReg_cycle (s : State) (d o : Nat) (v : W64) : (s.setReg d o v).cycle = s.cycle := rfl
@[simp] theorem State.setReg_mem (s : State) (d o : Nat) (v : W64) : (s.setReg d o v).mem = s.mem := rfl
@[simp] theorem State.setReg_hist (s : State) (d o : Nat) (v : W64) : (s.setReg d o v).hist = s.hist := rfl
@[simp] theorem State.setReg_agm (s : State) (d o : Nat) (v : W64) : (s.setReg d o v).agm = s.agm := rfl
@[simp] theorem State.setReg_polls (s : State) (d o : Nat) (v : W64) : (s.setReg d o v).polls = s.polls := rfl
@[simp] theorem State.setReg_farPolls (s : State) (d o : Nat) (v : W64) : (s.setReg d o v).farPolls = s.farPolls := rfl
@[simp] theorem State.setReg_watch (s : State) (d o : Nat) (v : W64) : (s.setReg d o v).watch = s.watch := rfl
@[simp] theorem State.setReg_fires (s : State) (d o : Nat) (v : W64) : (s.setReg d o v).fires = s.fires := rfl
@[simp] theorem State.setReg_parked (s : State) (d o : Nat) (v : W64) : (s.setReg d o v).parked = s.parked := rfl
@[simp] theorem State.setReg_bypass (s : State) (d o : Nat) (v : W64) : (s.setReg d o v).bypass = s.bypass := rfl
@[simp] theorem State.setReg_hostDrop (s : State) (d o : Nat) (v : W64) : (s.setReg d o v).hostDrop = s.hostDrop := rfl
@[simp] theorem State.setReg_acs (s : State) (d o : Nat) (v : W64) : (s.setReg d o v).acs = s.acs := rfl
@[simp] theorem State.setReg_kettles (s : State) (d o : Nat) (v : W64) : (s.setReg d o v).kettles = s.kettles := rfl
@[simp] theorem State.setReg_kissue (s : State) (d o : Nat) (v : W64) : (s.setReg d o v).kissue = s.kissue := rfl
@[simp] theorem State.setReg_kstatus (s : State) (d o : Nat) (v : W64) : (s.setReg d o v).kstatus = s.kstatus := rfl
@[simp] theorem State.setReg_sessions (s : State) (d o : Nat) (v : W64) : (s.setReg d o v).sessions = s.sessions := rfl
@[simp] theorem State.setReg_preempt (s : State) (d o : Nat) (v : W64) : (s.setReg d o v).preempt = s.preempt := rfl
@[simp] theorem State.setReg_presaved (s : State) (d o : Nat) (v : W64) : (s.setReg d o v).presaved = s.presaved := rfl
@[simp] theorem State.setReg_ranOf (s : State) (d o : Nat) (v : W64) : (s.setReg d o v).ranOf = s.ranOf := rfl
@[simp] theorem State.setReg_fab (s : State) (d o : Nat) (v : W64) : (s.setReg d o v).fab = s.fab := rfl
@[simp] theorem State.setReg_flows (s : State) (d o : Nat) (v : W64) : (s.setReg d o v).flows = s.flows := rfl
@[simp] theorem State.setReg_fabOut (s : State) (d o : Nat) (v : W64) : (s.setReg d o v).fabOut = s.fabOut := rfl
@[simp] theorem State.setReg_ingHeld (s : State) (d o : Nat) (v : W64) : (s.setReg d o v).ingHeld = s.ingHeld := rfl
@[simp] theorem State.setReg_posted (s : State) (d o : Nat) (v : W64) : (s.setReg d o v).posted = s.posted := rfl
@[simp] theorem State.setReg_extIn (s : State) (d o : Nat) (v : W64) : (s.setReg d o v).extIn = s.extIn := rfl
@[simp] theorem State.setReg_extEnd (s : State) (d o : Nat) (v : W64) : (s.setReg d o v).extEnd = s.extEnd := rfl
@[simp] theorem State.setReg_mexc (s : State) (d o : Nat) (v : W64) : (s.setReg d o v).mexc = s.mexc := rfl
@[simp] theorem State.setReg_lr (s : State) (d o : Nat) (v : W64) : (s.setReg d o v).lr = s.lr := rfl
@[simp] theorem State.setReg_corePc (s : State) (d o : Nat) (v : W64) : (s.setReg d o v).corePc = s.corePc := rfl
@[simp] theorem State.setReg_hcached (s : State) (d o : Nat) (v : W64) : (s.setReg d o v).hcached = s.hcached := rfl
@[simp] theorem State.setReg_meas (s : State) (d o : Nat) (v : W64) : (s.setReg d o v).meas = s.meas := rfl
@[simp] theorem State.setReg_boot (s : State) (d o : Nat) (v : W64) : (s.setReg d o v).boot = s.boot := rfl
@[simp] theorem State.setReg_att (s : State) (d o : Nat) (v : W64) : (s.setReg d o v).att = s.att := rfl
@[simp] theorem State.setReg_msi (s : State) (d o : Nat) (v : W64) : (s.setReg d o v).msi = s.msi := rfl
@[simp] theorem State.setReg_msiPend (s : State) (d o : Nat) (v : W64) : (s.setReg d o v).msiPend = s.msiPend := rfl
@[simp] theorem State.setReg_msiTab (s : State) (d o : Nat) (v : W64) : (s.setReg d o v).msiTab = s.msiTab := rfl
@[simp] theorem State.setReg_msiMask (s : State) (d o : Nat) (v : W64) : (s.setReg d o v).msiMask = s.msiMask := rfl
@[simp] theorem State.setReg_ttrip (s : State) (d o : Nat) (v : W64) : (s.setReg d o v).ttrip = s.ttrip := rfl
@[simp] theorem State.setReg_stopped (s : State) (d o : Nat) (v : W64) : (s.setReg d o v).stopped = s.stopped := rfl

/-! ### What setAgent leaves -/

@[simp] theorem State.setAgent_agenda (s : State) (a : Agent) (m : AgentMem) : (s.setAgent a m).agenda = s.agenda := rfl
@[simp] theorem State.setAgent_cur (s : State) (a : Agent) (m : AgentMem) : (s.setAgent a m).cur = s.cur := rfl
@[simp] theorem State.setAgent_seq (s : State) (a : Agent) (m : AgentMem) : (s.setAgent a m).seq = s.seq := rfl
@[simp] theorem State.setAgent_wid (s : State) (a : Agent) (m : AgentMem) : (s.setAgent a m).wid = s.wid := rfl
@[simp] theorem State.setAgent_cycle (s : State) (a : Agent) (m : AgentMem) : (s.setAgent a m).cycle = s.cycle := rfl
@[simp] theorem State.setAgent_mem (s : State) (a : Agent) (m : AgentMem) : (s.setAgent a m).mem = s.mem := rfl
@[simp] theorem State.setAgent_hist (s : State) (a : Agent) (m : AgentMem) : (s.setAgent a m).hist = s.hist := rfl
@[simp] theorem State.setAgent_polls (s : State) (a : Agent) (m : AgentMem) : (s.setAgent a m).polls = s.polls := rfl
@[simp] theorem State.setAgent_farPolls (s : State) (a : Agent) (m : AgentMem) : (s.setAgent a m).farPolls = s.farPolls := rfl
@[simp] theorem State.setAgent_watch (s : State) (a : Agent) (m : AgentMem) : (s.setAgent a m).watch = s.watch := rfl
@[simp] theorem State.setAgent_fires (s : State) (a : Agent) (m : AgentMem) : (s.setAgent a m).fires = s.fires := rfl
@[simp] theorem State.setAgent_parked (s : State) (a : Agent) (m : AgentMem) : (s.setAgent a m).parked = s.parked := rfl
@[simp] theorem State.setAgent_bypass (s : State) (a : Agent) (m : AgentMem) : (s.setAgent a m).bypass = s.bypass := rfl
@[simp] theorem State.setAgent_hostDrop (s : State) (a : Agent) (m : AgentMem) : (s.setAgent a m).hostDrop = s.hostDrop := rfl
@[simp] theorem State.setAgent_dies (s : State) (a : Agent) (m : AgentMem) : (s.setAgent a m).dies = s.dies := rfl
@[simp] theorem State.setAgent_acs (s : State) (a : Agent) (m : AgentMem) : (s.setAgent a m).acs = s.acs := rfl
@[simp] theorem State.setAgent_kettles (s : State) (a : Agent) (m : AgentMem) : (s.setAgent a m).kettles = s.kettles := rfl
@[simp] theorem State.setAgent_kissue (s : State) (a : Agent) (m : AgentMem) : (s.setAgent a m).kissue = s.kissue := rfl
@[simp] theorem State.setAgent_kstatus (s : State) (a : Agent) (m : AgentMem) : (s.setAgent a m).kstatus = s.kstatus := rfl
@[simp] theorem State.setAgent_sessions (s : State) (a : Agent) (m : AgentMem) : (s.setAgent a m).sessions = s.sessions := rfl
@[simp] theorem State.setAgent_preempt (s : State) (a : Agent) (m : AgentMem) : (s.setAgent a m).preempt = s.preempt := rfl
@[simp] theorem State.setAgent_presaved (s : State) (a : Agent) (m : AgentMem) : (s.setAgent a m).presaved = s.presaved := rfl
@[simp] theorem State.setAgent_ranOf (s : State) (a : Agent) (m : AgentMem) : (s.setAgent a m).ranOf = s.ranOf := rfl
@[simp] theorem State.setAgent_fab (s : State) (a : Agent) (m : AgentMem) : (s.setAgent a m).fab = s.fab := rfl
@[simp] theorem State.setAgent_flows (s : State) (a : Agent) (m : AgentMem) : (s.setAgent a m).flows = s.flows := rfl
@[simp] theorem State.setAgent_fabOut (s : State) (a : Agent) (m : AgentMem) : (s.setAgent a m).fabOut = s.fabOut := rfl
@[simp] theorem State.setAgent_ingHeld (s : State) (a : Agent) (m : AgentMem) : (s.setAgent a m).ingHeld = s.ingHeld := rfl
@[simp] theorem State.setAgent_posted (s : State) (a : Agent) (m : AgentMem) : (s.setAgent a m).posted = s.posted := rfl
@[simp] theorem State.setAgent_extIn (s : State) (a : Agent) (m : AgentMem) : (s.setAgent a m).extIn = s.extIn := rfl
@[simp] theorem State.setAgent_extEnd (s : State) (a : Agent) (m : AgentMem) : (s.setAgent a m).extEnd = s.extEnd := rfl
@[simp] theorem State.setAgent_mexc (s : State) (a : Agent) (m : AgentMem) : (s.setAgent a m).mexc = s.mexc := rfl
@[simp] theorem State.setAgent_lr (s : State) (a : Agent) (m : AgentMem) : (s.setAgent a m).lr = s.lr := rfl
@[simp] theorem State.setAgent_corePc (s : State) (a : Agent) (m : AgentMem) : (s.setAgent a m).corePc = s.corePc := rfl
@[simp] theorem State.setAgent_hcached (s : State) (a : Agent) (m : AgentMem) : (s.setAgent a m).hcached = s.hcached := rfl
@[simp] theorem State.setAgent_meas (s : State) (a : Agent) (m : AgentMem) : (s.setAgent a m).meas = s.meas := rfl
@[simp] theorem State.setAgent_boot (s : State) (a : Agent) (m : AgentMem) : (s.setAgent a m).boot = s.boot := rfl
@[simp] theorem State.setAgent_att (s : State) (a : Agent) (m : AgentMem) : (s.setAgent a m).att = s.att := rfl
@[simp] theorem State.setAgent_msi (s : State) (a : Agent) (m : AgentMem) : (s.setAgent a m).msi = s.msi := rfl
@[simp] theorem State.setAgent_msiPend (s : State) (a : Agent) (m : AgentMem) : (s.setAgent a m).msiPend = s.msiPend := rfl
@[simp] theorem State.setAgent_msiTab (s : State) (a : Agent) (m : AgentMem) : (s.setAgent a m).msiTab = s.msiTab := rfl
@[simp] theorem State.setAgent_msiMask (s : State) (a : Agent) (m : AgentMem) : (s.setAgent a m).msiMask = s.msiMask := rfl
@[simp] theorem State.setAgent_ttrip (s : State) (a : Agent) (m : AgentMem) : (s.setAgent a m).ttrip = s.ttrip := rfl
@[simp] theorem State.setAgent_stopped (s : State) (a : Agent) (m : AgentMem) : (s.setAgent a m).stopped = s.stopped := rfl

/-! ### What modKettle leaves -/

@[simp] theorem State.modKettle_agenda (s : State) (q : Nat) (f : Kettle → Kettle) : (s.modKettle q f).agenda = s.agenda := rfl
@[simp] theorem State.modKettle_cur (s : State) (q : Nat) (f : Kettle → Kettle) : (s.modKettle q f).cur = s.cur := rfl
@[simp] theorem State.modKettle_seq (s : State) (q : Nat) (f : Kettle → Kettle) : (s.modKettle q f).seq = s.seq := rfl
@[simp] theorem State.modKettle_wid (s : State) (q : Nat) (f : Kettle → Kettle) : (s.modKettle q f).wid = s.wid := rfl
@[simp] theorem State.modKettle_cycle (s : State) (q : Nat) (f : Kettle → Kettle) : (s.modKettle q f).cycle = s.cycle := rfl
@[simp] theorem State.modKettle_mem (s : State) (q : Nat) (f : Kettle → Kettle) : (s.modKettle q f).mem = s.mem := rfl
@[simp] theorem State.modKettle_hist (s : State) (q : Nat) (f : Kettle → Kettle) : (s.modKettle q f).hist = s.hist := rfl
@[simp] theorem State.modKettle_agm (s : State) (q : Nat) (f : Kettle → Kettle) : (s.modKettle q f).agm = s.agm := rfl
@[simp] theorem State.modKettle_polls (s : State) (q : Nat) (f : Kettle → Kettle) : (s.modKettle q f).polls = s.polls := rfl
@[simp] theorem State.modKettle_farPolls (s : State) (q : Nat) (f : Kettle → Kettle) : (s.modKettle q f).farPolls = s.farPolls := rfl
@[simp] theorem State.modKettle_watch (s : State) (q : Nat) (f : Kettle → Kettle) : (s.modKettle q f).watch = s.watch := rfl
@[simp] theorem State.modKettle_fires (s : State) (q : Nat) (f : Kettle → Kettle) : (s.modKettle q f).fires = s.fires := rfl
@[simp] theorem State.modKettle_parked (s : State) (q : Nat) (f : Kettle → Kettle) : (s.modKettle q f).parked = s.parked := rfl
@[simp] theorem State.modKettle_bypass (s : State) (q : Nat) (f : Kettle → Kettle) : (s.modKettle q f).bypass = s.bypass := rfl
@[simp] theorem State.modKettle_hostDrop (s : State) (q : Nat) (f : Kettle → Kettle) : (s.modKettle q f).hostDrop = s.hostDrop := rfl
@[simp] theorem State.modKettle_dies (s : State) (q : Nat) (f : Kettle → Kettle) : (s.modKettle q f).dies = s.dies := rfl
@[simp] theorem State.modKettle_acs (s : State) (q : Nat) (f : Kettle → Kettle) : (s.modKettle q f).acs = s.acs := rfl
@[simp] theorem State.modKettle_kissue (s : State) (q : Nat) (f : Kettle → Kettle) : (s.modKettle q f).kissue = s.kissue := rfl
@[simp] theorem State.modKettle_kstatus (s : State) (q : Nat) (f : Kettle → Kettle) : (s.modKettle q f).kstatus = s.kstatus := rfl
@[simp] theorem State.modKettle_sessions (s : State) (q : Nat) (f : Kettle → Kettle) : (s.modKettle q f).sessions = s.sessions := rfl
@[simp] theorem State.modKettle_preempt (s : State) (q : Nat) (f : Kettle → Kettle) : (s.modKettle q f).preempt = s.preempt := rfl
@[simp] theorem State.modKettle_presaved (s : State) (q : Nat) (f : Kettle → Kettle) : (s.modKettle q f).presaved = s.presaved := rfl
@[simp] theorem State.modKettle_ranOf (s : State) (q : Nat) (f : Kettle → Kettle) : (s.modKettle q f).ranOf = s.ranOf := rfl
@[simp] theorem State.modKettle_fab (s : State) (q : Nat) (f : Kettle → Kettle) : (s.modKettle q f).fab = s.fab := rfl
@[simp] theorem State.modKettle_flows (s : State) (q : Nat) (f : Kettle → Kettle) : (s.modKettle q f).flows = s.flows := rfl
@[simp] theorem State.modKettle_fabOut (s : State) (q : Nat) (f : Kettle → Kettle) : (s.modKettle q f).fabOut = s.fabOut := rfl
@[simp] theorem State.modKettle_ingHeld (s : State) (q : Nat) (f : Kettle → Kettle) : (s.modKettle q f).ingHeld = s.ingHeld := rfl
@[simp] theorem State.modKettle_posted (s : State) (q : Nat) (f : Kettle → Kettle) : (s.modKettle q f).posted = s.posted := rfl
@[simp] theorem State.modKettle_extIn (s : State) (q : Nat) (f : Kettle → Kettle) : (s.modKettle q f).extIn = s.extIn := rfl
@[simp] theorem State.modKettle_extEnd (s : State) (q : Nat) (f : Kettle → Kettle) : (s.modKettle q f).extEnd = s.extEnd := rfl
@[simp] theorem State.modKettle_mexc (s : State) (q : Nat) (f : Kettle → Kettle) : (s.modKettle q f).mexc = s.mexc := rfl
@[simp] theorem State.modKettle_lr (s : State) (q : Nat) (f : Kettle → Kettle) : (s.modKettle q f).lr = s.lr := rfl
@[simp] theorem State.modKettle_corePc (s : State) (q : Nat) (f : Kettle → Kettle) : (s.modKettle q f).corePc = s.corePc := rfl
@[simp] theorem State.modKettle_hcached (s : State) (q : Nat) (f : Kettle → Kettle) : (s.modKettle q f).hcached = s.hcached := rfl
@[simp] theorem State.modKettle_meas (s : State) (q : Nat) (f : Kettle → Kettle) : (s.modKettle q f).meas = s.meas := rfl
@[simp] theorem State.modKettle_boot (s : State) (q : Nat) (f : Kettle → Kettle) : (s.modKettle q f).boot = s.boot := rfl
@[simp] theorem State.modKettle_att (s : State) (q : Nat) (f : Kettle → Kettle) : (s.modKettle q f).att = s.att := rfl
@[simp] theorem State.modKettle_msi (s : State) (q : Nat) (f : Kettle → Kettle) : (s.modKettle q f).msi = s.msi := rfl
@[simp] theorem State.modKettle_msiPend (s : State) (q : Nat) (f : Kettle → Kettle) : (s.modKettle q f).msiPend = s.msiPend := rfl
@[simp] theorem State.modKettle_msiTab (s : State) (q : Nat) (f : Kettle → Kettle) : (s.modKettle q f).msiTab = s.msiTab := rfl
@[simp] theorem State.modKettle_msiMask (s : State) (q : Nat) (f : Kettle → Kettle) : (s.modKettle q f).msiMask = s.msiMask := rfl
@[simp] theorem State.modKettle_ttrip (s : State) (q : Nat) (f : Kettle → Kettle) : (s.modKettle q f).ttrip = s.ttrip := rfl
@[simp] theorem State.modKettle_stopped (s : State) (q : Nat) (f : Kettle → Kettle) : (s.modKettle q f).stopped = s.stopped := rfl

/-! ### What setEng leaves of a cluster -/

@[simp] theorem AC.setEng_cc (a : AC) (e : Eid) (x : Eng) : (a.setEng e x).cc = a.cc := by cases e <;> rfl
@[simp] theorem AC.setEng_ln (a : AC) (e : Eid) (x : Eng) : (a.setEng e x).ln = a.ln := by cases e <;> rfl
@[simp] theorem AC.setEng_vec (a : AC) (e : Eid) (x : Eng) : (a.setEng e x).vec = a.vec := by cases e <;> rfl
@[simp] theorem AC.setEng_mxu (a : AC) (e : Eid) (x : Eng) : (a.setEng e x).mxu = a.mxu := by cases e <;> rfl
@[simp] theorem AC.setEng_tiles (a : AC) (e : Eid) (x : Eng) : (a.setEng e x).tiles = a.tiles := by cases e <;> rfl
@[simp] theorem AC.setEng_axq (a : AC) (e : Eid) (x : Eng) : (a.setEng e x).axq = a.axq := by cases e <;> rfl
@[simp] theorem AC.setEng_io (a : AC) (e : Eid) (x : Eng) : (a.setEng e x).io = a.io := by cases e <;> rfl
@[simp] theorem AC.setEng_disp (a : AC) (e : Eid) (x : Eng) : (a.setEng e x).disp = a.disp := by cases e <;> rfl
@[simp] theorem AC.setEng_tlb (a : AC) (e : Eid) (x : Eng) : (a.setEng e x).tlb = a.tlb := by cases e <;> rfl
@[simp] theorem AC.setEng_utlb (a : AC) (e : Eid) (x : Eng) : (a.setEng e x).utlb = a.utlb := by cases e <;> rfl

/-! ### What setS leaves of a control core -/

@[simp] theorem CC.setS_preg (c : CC) (r : BitVec 6) (v : W64) : (c.setS r v).preg = c.preg := by unfold CC.setS; split <;> rfl
@[simp] theorem CC.setS_greg (c : CC) (r : BitVec 6) (v : W64) : (c.setS r v).greg = c.greg := by unfold CC.setS; split <;> rfl
@[simp] theorem CC.setS_pc (c : CC) (r : BitVec 6) (v : W64) : (c.setS r v).pc = c.pc := by unfold CC.setS; split <;> rfl
@[simp] theorem CC.setS_sys (c : CC) (r : BitVec 6) (v : W64) : (c.setS r v).sys = c.sys := by unfold CC.setS; split <;> rfl
@[simp] theorem CC.setS_h (c : CC) (r : BitVec 6) (v : W64) : (c.setS r v).h = c.h := by unfold CC.setS; split <;> rfl
@[simp] theorem CC.setS_ie (c : CC) (r : BitVec 6) (v : W64) : (c.setS r v).ie = c.ie := by unfold CC.setS; split <;> rfl
@[simp] theorem CC.setS_evt (c : CC) (r : BitVec 6) (v : W64) : (c.setS r v).evt = c.evt := by unfold CC.setS; split <;> rfl
@[simp] theorem CC.setS_la0 (c : CC) (r : BitVec 6) (v : W64) : (c.setS r v).la0 = c.la0 := by unfold CC.setS; split <;> rfl
@[simp] theorem CC.setS_la1 (c : CC) (r : BitVec 6) (v : W64) : (c.setS r v).la1 = c.la1 := by unfold CC.setS; split <;> rfl
@[simp] theorem CC.setS_resumed (c : CC) (r : BitVec 6) (v : W64) : (c.setS r v).resumed = c.resumed := by unfold CC.setS; split <;> rfl
@[simp] theorem CC.setS_mint (c : CC) (r : BitVec 6) (v : W64) : (c.setS r v).mint = c.mint := by unfold CC.setS; split <;> rfl
@[simp] theorem CC.setS_wait (c : CC) (r : BitVec 6) (v : W64) : (c.setS r v).wait = c.wait := by unfold CC.setS; split <;> rfl
@[simp] theorem CC.setS_xl (c : CC) (r : BitVec 6) (v : W64) : (c.setS r v).xl = c.xl := by unfold CC.setS; split <;> rfl
@[simp] theorem CC.setS_xlAbort (c : CC) (r : BitVec 6) (v : W64) : (c.setS r v).xlAbort = c.xlAbort := by unfold CC.setS; split <;> rfl
@[simp] theorem CC.setS_entry (c : CC) (r : BitVec 6) (v : W64) : (c.setS r v).entry = c.entry := by unfold CC.setS; split <;> rfl
@[simp] theorem CC.setS_carve (c : CC) (r : BitVec 6) (v : W64) : (c.setS r v).carve = c.carve := by unfold CC.setS; split <;> rfl
@[simp] theorem CC.setS_task (c : CC) (r : BitVec 6) (v : W64) : (c.setS r v).task = c.task := by unfold CC.setS; split <;> rfl
@[simp] theorem CC.setS_saving (c : CC) (r : BitVec 6) (v : W64) : (c.setS r v).saving = c.saving := by unfold CC.setS; split <;> rfl
@[simp] theorem CC.setS_pend (c : CC) (r : BitVec 6) (v : W64) : (c.setS r v).pend = c.pend := by unfold CC.setS; split <;> rfl
@[simp] theorem CC.setS_icache (c : CC) (r : BitVec 6) (v : W64) : (c.setS r v).icache = c.icache := by unfold CC.setS; split <;> rfl

/-! ### What setP leaves of a control core -/

@[simp] theorem CC.setP_sreg (c : CC) (r : BitVec 4) (v : Bool) : (c.setP r v).sreg = c.sreg := by unfold CC.setP; split <;> rfl
@[simp] theorem CC.setP_greg (c : CC) (r : BitVec 4) (v : Bool) : (c.setP r v).greg = c.greg := by unfold CC.setP; split <;> rfl
@[simp] theorem CC.setP_pc (c : CC) (r : BitVec 4) (v : Bool) : (c.setP r v).pc = c.pc := by unfold CC.setP; split <;> rfl
@[simp] theorem CC.setP_sys (c : CC) (r : BitVec 4) (v : Bool) : (c.setP r v).sys = c.sys := by unfold CC.setP; split <;> rfl
@[simp] theorem CC.setP_h (c : CC) (r : BitVec 4) (v : Bool) : (c.setP r v).h = c.h := by unfold CC.setP; split <;> rfl
@[simp] theorem CC.setP_ie (c : CC) (r : BitVec 4) (v : Bool) : (c.setP r v).ie = c.ie := by unfold CC.setP; split <;> rfl
@[simp] theorem CC.setP_evt (c : CC) (r : BitVec 4) (v : Bool) : (c.setP r v).evt = c.evt := by unfold CC.setP; split <;> rfl
@[simp] theorem CC.setP_la0 (c : CC) (r : BitVec 4) (v : Bool) : (c.setP r v).la0 = c.la0 := by unfold CC.setP; split <;> rfl
@[simp] theorem CC.setP_la1 (c : CC) (r : BitVec 4) (v : Bool) : (c.setP r v).la1 = c.la1 := by unfold CC.setP; split <;> rfl
@[simp] theorem CC.setP_resumed (c : CC) (r : BitVec 4) (v : Bool) : (c.setP r v).resumed = c.resumed := by unfold CC.setP; split <;> rfl
@[simp] theorem CC.setP_mint (c : CC) (r : BitVec 4) (v : Bool) : (c.setP r v).mint = c.mint := by unfold CC.setP; split <;> rfl
@[simp] theorem CC.setP_wait (c : CC) (r : BitVec 4) (v : Bool) : (c.setP r v).wait = c.wait := by unfold CC.setP; split <;> rfl
@[simp] theorem CC.setP_xl (c : CC) (r : BitVec 4) (v : Bool) : (c.setP r v).xl = c.xl := by unfold CC.setP; split <;> rfl
@[simp] theorem CC.setP_xlAbort (c : CC) (r : BitVec 4) (v : Bool) : (c.setP r v).xlAbort = c.xlAbort := by unfold CC.setP; split <;> rfl
@[simp] theorem CC.setP_entry (c : CC) (r : BitVec 4) (v : Bool) : (c.setP r v).entry = c.entry := by unfold CC.setP; split <;> rfl
@[simp] theorem CC.setP_carve (c : CC) (r : BitVec 4) (v : Bool) : (c.setP r v).carve = c.carve := by unfold CC.setP; split <;> rfl
@[simp] theorem CC.setP_task (c : CC) (r : BitVec 4) (v : Bool) : (c.setP r v).task = c.task := by unfold CC.setP; split <;> rfl
@[simp] theorem CC.setP_saving (c : CC) (r : BitVec 4) (v : Bool) : (c.setP r v).saving = c.saving := by unfold CC.setP; split <;> rfl
@[simp] theorem CC.setP_pend (c : CC) (r : BitVec 4) (v : Bool) : (c.setP r v).pend = c.pend := by unfold CC.setP; split <;> rfl
@[simp] theorem CC.setP_icache (c : CC) (r : BitVec 4) (v : Bool) : (c.setP r v).icache = c.icache := by unfold CC.setP; split <;> rfl

/-! ### What setSr leaves of a control core -/

@[simp] theorem CC.setSr_sreg (c : CC) (k : Nat) (v : W64) : (c.setSr k v).sreg = c.sreg := rfl
@[simp] theorem CC.setSr_preg (c : CC) (k : Nat) (v : W64) : (c.setSr k v).preg = c.preg := rfl
@[simp] theorem CC.setSr_greg (c : CC) (k : Nat) (v : W64) : (c.setSr k v).greg = c.greg := rfl
@[simp] theorem CC.setSr_pc (c : CC) (k : Nat) (v : W64) : (c.setSr k v).pc = c.pc := rfl
@[simp] theorem CC.setSr_h (c : CC) (k : Nat) (v : W64) : (c.setSr k v).h = c.h := rfl
@[simp] theorem CC.setSr_ie (c : CC) (k : Nat) (v : W64) : (c.setSr k v).ie = c.ie := rfl
@[simp] theorem CC.setSr_evt (c : CC) (k : Nat) (v : W64) : (c.setSr k v).evt = c.evt := rfl
@[simp] theorem CC.setSr_la0 (c : CC) (k : Nat) (v : W64) : (c.setSr k v).la0 = c.la0 := rfl
@[simp] theorem CC.setSr_la1 (c : CC) (k : Nat) (v : W64) : (c.setSr k v).la1 = c.la1 := rfl
@[simp] theorem CC.setSr_resumed (c : CC) (k : Nat) (v : W64) : (c.setSr k v).resumed = c.resumed := rfl
@[simp] theorem CC.setSr_mint (c : CC) (k : Nat) (v : W64) : (c.setSr k v).mint = c.mint := rfl
@[simp] theorem CC.setSr_wait (c : CC) (k : Nat) (v : W64) : (c.setSr k v).wait = c.wait := rfl
@[simp] theorem CC.setSr_xl (c : CC) (k : Nat) (v : W64) : (c.setSr k v).xl = c.xl := rfl
@[simp] theorem CC.setSr_xlAbort (c : CC) (k : Nat) (v : W64) : (c.setSr k v).xlAbort = c.xlAbort := rfl
@[simp] theorem CC.setSr_entry (c : CC) (k : Nat) (v : W64) : (c.setSr k v).entry = c.entry := rfl
@[simp] theorem CC.setSr_carve (c : CC) (k : Nat) (v : W64) : (c.setSr k v).carve = c.carve := rfl
@[simp] theorem CC.setSr_task (c : CC) (k : Nat) (v : W64) : (c.setSr k v).task = c.task := rfl
@[simp] theorem CC.setSr_saving (c : CC) (k : Nat) (v : W64) : (c.setSr k v).saving = c.saving := rfl
@[simp] theorem CC.setSr_pend (c : CC) (k : Nat) (v : W64) : (c.setSr k v).pend = c.pend := rfl
@[simp] theorem CC.setSr_icache (c : CC) (k : Nat) (v : W64) : (c.setSr k v).icache = c.icache := rfl

/-! ### What setX leaves of an engine -/

@[simp] theorem Eng.setX_st (e : Eng) (r : Nat) (v : W64) : (e.setX r v).st = e.st := rfl
@[simp] theorem Eng.setX_upc (e : Eng) (r : Nat) (v : W64) : (e.setX r v).upc = e.upc := rfl
@[simp] theorem Eng.setX_cb (e : Eng) (r : Nat) (v : W64) : (e.setX r v).cb = e.cb := rfl
@[simp] theorem Eng.setX_live0s (e : Eng) (r : Nat) (v : W64) : (e.setX r v).live0s = e.live0s := rfl
@[simp] theorem Eng.setX_live0e (e : Eng) (r : Nat) (v : W64) : (e.setX r v).live0e = e.live0e := rfl
@[simp] theorem Eng.setX_live1s (e : Eng) (r : Nat) (v : W64) : (e.setX r v).live1s = e.live1s := rfl
@[simp] theorem Eng.setX_live1e (e : Eng) (r : Nat) (v : W64) : (e.setX r v).live1e = e.live1e := rfl
@[simp] theorem Eng.setX_act0 (e : Eng) (r : Nat) (v : W64) : (e.setX r v).act0 = e.act0 := rfl
@[simp] theorem Eng.setX_act1 (e : Eng) (r : Nat) (v : W64) : (e.setX r v).act1 = e.act1 := rfl
@[simp] theorem Eng.setX_q (e : Eng) (r : Nat) (v : W64) : (e.setX r v).q = e.q := rfl
@[simp] theorem Eng.setX_num (e : Eng) (r : Nat) (v : W64) : (e.setX r v).num = e.num := rfl
@[simp] theorem Eng.setX_etok (e : Eng) (r : Nat) (v : W64) : (e.setX r v).etok = e.etok := rfl
@[simp] theorem Eng.setX_giveE (e : Eng) (r : Nat) (v : W64) : (e.setX r v).giveE = e.giveE := rfl
@[simp] theorem Eng.setX_giveN (e : Eng) (r : Nat) (v : W64) : (e.setX r v).giveN = e.giveN := rfl
@[simp] theorem Eng.setX_fcause (e : Eng) (r : Nat) (v : W64) : (e.setX r v).fcause = e.fcause := rfl
@[simp] theorem Eng.setX_finfo (e : Eng) (r : Nat) (v : W64) : (e.setX r v).finfo = e.finfo := rfl
@[simp] theorem Eng.setX_finfo1 (e : Eng) (r : Nat) (v : W64) : (e.setX r v).finfo1 = e.finfo1 := rfl
@[simp] theorem Eng.setX_deferred (e : Eng) (r : Nat) (v : W64) : (e.setX r v).deferred = e.deferred := rfl
@[simp] theorem Eng.setX_fcycle (e : Eng) (r : Nat) (v : W64) : (e.setX r v).fcycle = e.fcycle := rfl
@[simp] theorem Eng.setX_untold (e : Eng) (r : Nat) (v : W64) : (e.setX r v).untold = e.untold := rfl
@[simp] theorem Eng.setX_held (e : Eng) (r : Nat) (v : W64) : (e.setX r v).held = e.held := rfl
@[simp] theorem Eng.setX_heldQ (e : Eng) (r : Nat) (v : W64) : (e.setX r v).heldQ = e.heldQ := rfl
@[simp] theorem Eng.setX_heldF (e : Eng) (r : Nat) (v : W64) : (e.setX r v).heldF = e.heldF := rfl
@[simp] theorem Eng.setX_heldU (e : Eng) (r : Nat) (v : W64) : (e.setX r v).heldU = e.heldU := rfl
@[simp] theorem Eng.setX_startAt (e : Eng) (r : Nat) (v : W64) : (e.setX r v).startAt = e.startAt := rfl
@[simp] theorem Eng.setX_xl (e : Eng) (r : Nat) (v : W64) : (e.setX r v).xl = e.xl := rfl
@[simp] theorem Eng.setX_wait (e : Eng) (r : Nat) (v : W64) : (e.setX r v).wait = e.wait := rfl
@[simp] theorem Eng.setX_waitAt (e : Eng) (r : Nat) (v : W64) : (e.setX r v).waitAt = e.waitAt := rfl

/-! ### What setReg leaves of a die -/

@[simp] theorem Die.setReg_acl (d : Die) (o : Nat) (v : W64) : (d.setReg o v).acl = d.acl := rfl
@[simp] theorem Die.setReg_tlb (d : Die) (o : Nat) (v : W64) : (d.setReg o v).tlb = d.tlb := rfl
@[simp] theorem Die.setReg_wc (d : Die) (o : Nat) (v : W64) : (d.setReg o v).wc = d.wc := rfl
@[simp] theorem Die.setReg_tlbi (d : Die) (o : Nat) (v : W64) : (d.setReg o v).tlbi = d.tlbi := rfl
@[simp] theorem Die.setReg_frPend (d : Die) (o : Nat) (v : W64) : (d.setReg o v).frPend = d.frPend := rfl
@[simp] theorem Die.setReg_frSeq (d : Die) (o : Nat) (v : W64) : (d.setReg o v).frSeq = d.frSeq := rfl
@[simp] theorem Die.setReg_frTok (d : Die) (o : Nat) (v : W64) : (d.setReg o v).frTok = d.frTok := rfl
@[simp] theorem Die.setReg_waits (d : Die) (o : Nat) (v : W64) : (d.setReg o v).waits = d.waits := rfl
@[simp] theorem Die.setReg_launchQ (d : Die) (o : Nat) (v : W64) : (d.setReg o v).launchQ = d.launchQ := rfl
@[simp] theorem Die.setReg_lseq (d : Die) (o : Nat) (v : W64) : (d.setReg o v).lseq = d.lseq := rfl
@[simp] theorem Die.setReg_ltab (d : Die) (o : Nat) (v : W64) : (d.setReg o v).ltab = d.ltab := rfl
@[simp] theorem Die.setReg_walkers (d : Die) (o : Nat) (v : W64) : (d.setReg o v).walkers = d.walkers := rfl
@[simp] theorem Die.setReg_qclaims (d : Die) (o : Nat) (v : W64) : (d.setReg o v).qclaims = d.qclaims := rfl
@[simp] theorem Die.setReg_conts (d : Die) (o : Nat) (v : W64) : (d.setReg o v).conts = d.conts := rfl
@[simp] theorem Die.setReg_qsw (d : Die) (o : Nat) (v : W64) : (d.setReg o v).qsw = d.qsw := rfl
@[simp] theorem Die.setReg_pots (d : Die) (o : Nat) (v : W64) : (d.setReg o v).pots = d.pots := rfl
@[simp] theorem Die.setReg_potQ (d : Die) (o : Nat) (v : W64) : (d.setReg o v).potQ = d.potQ := rfl
@[simp] theorem Die.setReg_potIn (d : Die) (o : Nat) (v : W64) : (d.setReg o v).potIn = d.potIn := rfl
@[simp] theorem Die.setReg_potNow (d : Die) (o : Nat) (v : W64) : (d.setReg o v).potNow = d.potNow := rfl
@[simp] theorem Die.setReg_pwait (d : Die) (o : Nat) (v : W64) : (d.setReg o v).pwait = d.pwait := rfl
@[simp] theorem Die.setReg_pactive (d : Die) (o : Nat) (v : W64) : (d.setReg o v).pactive = d.pactive := rfl
@[simp] theorem Die.setReg_sensedAt (d : Die) (o : Nat) (v : W64) : (d.setReg o v).sensedAt = d.sensedAt := rfl

/-! ### What setK and setJ leave of a kettle -/

@[simp] theorem Kettle.setK_j (k : Kettle) (r : Nat) (v : KWord) : (k.setK r v).j = k.j := rfl
@[simp] theorem Kettle.setK_nfcnt (k : Kettle) (r : Nat) (v : KWord) : (k.setK r v).nfcnt = k.nfcnt := rfl
@[simp] theorem Kettle.setK_clcnt (k : Kettle) (r : Nat) (v : KWord) : (k.setK r v).clcnt = k.clcnt := rfl
@[simp] theorem Kettle.setK_kpc (k : Kettle) (r : Nat) (v : KWord) : (k.setK r v).kpc = k.kpc := rfl
@[simp] theorem Kettle.setK_loops (k : Kettle) (r : Nat) (v : KWord) : (k.setK r v).loops = k.loops := rfl
@[simp] theorem Kettle.setK_progress (k : Kettle) (r : Nat) (v : KWord) : (k.setK r v).progress = k.progress := rfl
@[simp] theorem Kettle.setK_atomq (k : Kettle) (r : Nat) (v : KWord) : (k.setK r v).atomq = k.atomq := rfl
@[simp] theorem Kettle.setK_run (k : Kettle) (r : Nat) (v : KWord) : (k.setK r v).run = k.run := rfl
@[simp] theorem Kettle.setK_queue (k : Kettle) (r : Nat) (v : KWord) : (k.setK r v).queue = k.queue := rfl
@[simp] theorem Kettle.setK_abort (k : Kettle) (r : Nat) (v : KWord) : (k.setK r v).abort = k.abort := rfl
@[simp] theorem Kettle.setK_contributed (k : Kettle) (r : Nat) (v : KWord) : (k.setK r v).contributed = k.contributed := rfl
@[simp] theorem Kettle.setK_received (k : Kettle) (r : Nat) (v : KWord) : (k.setK r v).received = k.received := rfl
@[simp] theorem Kettle.setK_wave (k : Kettle) (r : Nat) (v : KWord) : (k.setK r v).wave = k.wave := rfl

/-! ### What setJ leaves of a kettle -/

@[simp] theorem Kettle.setJ_k (k : Kettle) (r : Nat) (v : W64) : (k.setJ r v).k = k.k := rfl
@[simp] theorem Kettle.setJ_nfcnt (k : Kettle) (r : Nat) (v : W64) : (k.setJ r v).nfcnt = k.nfcnt := rfl
@[simp] theorem Kettle.setJ_clcnt (k : Kettle) (r : Nat) (v : W64) : (k.setJ r v).clcnt = k.clcnt := rfl
@[simp] theorem Kettle.setJ_kpc (k : Kettle) (r : Nat) (v : W64) : (k.setJ r v).kpc = k.kpc := rfl
@[simp] theorem Kettle.setJ_loops (k : Kettle) (r : Nat) (v : W64) : (k.setJ r v).loops = k.loops := rfl
@[simp] theorem Kettle.setJ_progress (k : Kettle) (r : Nat) (v : W64) : (k.setJ r v).progress = k.progress := rfl
@[simp] theorem Kettle.setJ_atomq (k : Kettle) (r : Nat) (v : W64) : (k.setJ r v).atomq = k.atomq := rfl
@[simp] theorem Kettle.setJ_run (k : Kettle) (r : Nat) (v : W64) : (k.setJ r v).run = k.run := rfl
@[simp] theorem Kettle.setJ_queue (k : Kettle) (r : Nat) (v : W64) : (k.setJ r v).queue = k.queue := rfl
@[simp] theorem Kettle.setJ_abort (k : Kettle) (r : Nat) (v : W64) : (k.setJ r v).abort = k.abort := rfl
@[simp] theorem Kettle.setJ_contributed (k : Kettle) (r : Nat) (v : W64) : (k.setJ r v).contributed = k.contributed := rfl
@[simp] theorem Kettle.setJ_received (k : Kettle) (r : Nat) (v : W64) : (k.setJ r v).received = k.received := rfl
@[simp] theorem Kettle.setJ_wave (k : Kettle) (r : Nat) (v : W64) : (k.setJ r v).wave = k.wave := rfl

end Sys2Proof.Machine
end

