-- ==== Sys2Proof/Tests/Slice0.lean ====
section
/-! SUPPORT. Tests: words written out from the encoding tables, terms that the checks refuse, and for each statement states that meet its
hypotheses, with what a few steps leave, worked out by hand from the rules. -/

namespace Sys2Proof.Tests

open Sys2Proof.Machine

set_option Elab.async false

/-- The instruction that a unit reads from a list of granules with nothing behind it. -/
def reads (u : UnitId) (ws : List W32) : Option Instr :=
  match decode u ws with
  | .ok (i, _, []) => some i
  | _ => none

/-- Row 0x0_ and 0x1_, arithmetic (Table 10-3), written out from Table 9-2. -/
theorem test_words_int_1 :
    reads .cc [0x00810C04] = some (.add ⟨.w1, .cc false 0⟩ false 3 (.r 1) (.r 2))
    ∧ reads .cc [0x103EFC09, 0x04530080] = some (.sub ⟨.w2, .cc true 5⟩ true 63 (.r 62) (.i8 0x80))
    ∧ reads .cc [0x1140100E, 0x0000C000, 0x12345678] = some (.mul ⟨.w3, .cc false 0⟩ true 4 (.lit 0x12345678) (.r 5))
    ∧ reads .cc [0x02481C10] = some (.mulh ⟨.w1, .cc false 0⟩ 7 (.r 8) (.r 9))
    ∧ reads .cc [0x02481C14] = some (.mulhu ⟨.w1, .cc false 0⟩ 7 (.r 8) (.r 9))
    ∧ reads .cc [0x130B2818] = some (.div ⟨.w1, .cc false 0⟩ true 10 (.r 11) (.r 12))
    ∧ reads .cc [0x030B281C] = some (.divu ⟨.w1, .cc false 0⟩ false 10 (.r 11) (.r 12))
    ∧ reads .cc [0x030B2820] = some (.rem ⟨.w1, .cc false 0⟩ false 10 (.r 11) (.r 12)) := by decide +kernel

/-- Row 0x0_ and 0x1_, arithmetic (Table 10-3), written out from Table 9-2. -/
theorem test_words_int_2 :
    reads .cc [0x130B2824] = some (.remu ⟨.w1, .cc false 0⟩ true 10 (.r 11) (.r 12))
    ∧ reads .cc [0x00020429, 0x045300F0] = some (.and ⟨.w2, .cc true 5⟩ 1 (.r 2) (.i8 0xF0))
    ∧ reads .cc [0x00C2042C] = some (.or ⟨.w1, .cc false 0⟩ 1 (.r 2) (.r 3))
    ∧ reads .cc [0x00C20430] = some (.xor ⟨.w1, .cc false 0⟩ 1 (.r 2) (.r 3))
    ∧ reads .cc [0x00C20434] = some (.andn ⟨.w1, .cc false 0⟩ 1 (.r 2) (.r 3))
    ∧ reads .cc [0x05955038] = some (.shl ⟨.w1, .cc false 0⟩ false 20 (.r 21) (.r 22))
    ∧ reads .cc [0x1595503C] = some (.shr ⟨.w1, .cc false 0⟩ true 20 (.r 21) (.r 22)) := by decide +kernel

/-- Row 0x1_, bit fields, selection and literals, written out from Table 9-2. -/
theorem test_words_bit_1 :
    reads .cc [0x05955040] = some (.sha ⟨.w1, .cc false 0⟩ false 20 (.r 21) (.r 22))
    ∧ reads .cc [0x05955044] = some (.rol ⟨.w1, .cc false 0⟩ 20 (.r 21) (.r 22))
    ∧ reads .cc [0x00C20448] = some (.min ⟨.w1, .cc false 0⟩ 1 (.r 2) (.r 3))
    ∧ reads .cc [0x00C2044C] = some (.minu ⟨.w1, .cc false 0⟩ 1 (.r 2) (.r 3))
    ∧ reads .cc [0x00C20450] = some (.max ⟨.w1, .cc false 0⟩ 1 (.r 2) (.r 3))
    ∧ reads .cc [0x00C20454] = some (.maxu ⟨.w1, .cc false 0⟩ 1 (.r 2) (.r 3))
    ∧ reads .cc [0x0029A058] = some (.clz ⟨.w1, .cc false 0⟩ 40 (.r 41))
    ∧ reads .cc [0x0029A05C] = some (.ctz ⟨.w1, .cc false 0⟩ 40 (.r 41)) := by decide +kernel

/-- Row 0x1_, bit fields, selection and literals, written out from Table 9-2. -/
theorem test_words_bit_2 :
    reads .cc [0x0029A060] = some (.popc ⟨.w1, .cc false 0⟩ 40 (.r 41))
    ∧ reads .cc [0x10C20464] = some (.bfx ⟨.w1, .cc false 0⟩ true 1 (.r 2) (.r 3))
    ∧ reads .cc [0x00C20468] = some (.bfi ⟨.w1, .cc false 0⟩ 1 (.r 2) (.r 3))
    ∧ reads .cc [0x00C2046D, 0x04500900] = some (.sel ⟨.w2, .cc true 5⟩ 1 (.r 2) (.r 3) 9)
    ∧ reads .cc [0x00002472, 0x0000C000, 0xDEADBEEF] = some (.li ⟨.w3, .cc false 0⟩ 9 (.lit 0xDEADBEEF))
    ∧ reads .cc [0x10002472, 0x0000C000, 0x80000000] = some (.lih ⟨.w3, .cc false 0⟩ 9 (.lit 0x80000000))
    ∧ reads .cc [0x30C20474] = some (.lea ⟨.w1, .cc false 0⟩ 3 1 (.r 2) (.r 3))
    ∧ reads .cc [0x80000475, 0x04530004] = some (.leaPc ⟨.w2, .cc true 5⟩ 1 (.i8 4)) := by decide +kernel

/-- Conditions and predicates, written out from Table 9-2. -/
theorem test_words_pred :
    reads .cc [0xB0C23C78] = some (.cmp ⟨.w1, .cc false 0⟩ .ntst 15 (.r 2) (.r 3))
    ∧ reads .cc [0x40C23C78] = some (.cmp ⟨.w1, .cc false 0⟩ .ltu 15 (.r 2) (.r 3))
    ∧ reads .cc [0x70C2047C] = some (.plog ⟨.w1, .cc false 0⟩ .orn 1 2 3)
    ∧ reads .cc [0x00051080] = some (.pmovToPred ⟨.w1, .cc false 0⟩ 4 (.r 5))
    ∧ reads .cc [0x1006C880] = some (.pmovToScalar ⟨.w1, .cc false 0⟩ 50 6)
    ∧ reads .cc [0x2000C880] = some (.pmovAll ⟨.w1, .cc false 0⟩ 50)
    ∧ reads .cc [0x30330080] = some (.pmovSet ⟨.w1, .cc false 0⟩ (.r 51)) := by decide +kernel

/-- Row 0x2_, scalar floating point, written out from Table 9-2. -/
theorem test_words_float_1 :
    reads .cc [0x90C20484] = some (.fadd ⟨.w1, .cc false 0⟩ ⟨true, .rtz⟩ 1 (.r 2) (.r 3))
    ∧ reads .cc [0x40C20488] = some (.fsub ⟨.w1, .cc false 0⟩ ⟨false, .sr⟩ 1 (.r 2) (.r 3))
    ∧ reads .cc [0x20C2048C] = some (.fmul ⟨.w1, .cc false 0⟩ ⟨false, .rup⟩ 1 (.r 2) (.r 3))
    ∧ reads .cc [0x30C20491, 0x04500400] = some (.ffma ⟨.w2, .cc true 5⟩ ⟨false, .rdn⟩ 1 (.r 2) (.r 3) (.r 4))
    ∧ reads .cc [0x00C20494] = some (.fdiv ⟨.w1, .cc false 0⟩ ⟨false, .rne⟩ 1 (.r 2) (.r 3))
    ∧ reads .cc [0x80020498] = some (.fsqrt ⟨.w1, .cc false 0⟩ ⟨true, .rne⟩ 1 (.r 2))
    ∧ reads .cc [0xC0C21C9C] = some (.fcmp ⟨.w1, .cc false 0⟩ true .un 7 (.r 2) (.r 3))
    ∧ reads .cc [0x114204A0] = some (.fcvt ⟨.w1, .cc false 0⟩ .rtz 5 1 (.r 2)) := by decide +kernel

/-- Row 0x2_, scalar floating point, written out from Table 9-2. -/
theorem test_words_float_2 :
    reads .cc [0x90C204A4] = some (.fminmax ⟨.w1, .cc false 0⟩ true true 1 (.r 2) (.r 3)) := by decide +kernel

/-- Row 0x3_, written out from Table 9-2. -/
theorem test_words_branch_1 :
    reads .cc [0xFFFFECC0] = some (.br ⟨.w1, .cc false 0⟩ 0x3FFFFB)
    ∧ reads .cc [0x000000C6, 0x00000000, 0x00010000] = some (.jmp ⟨.w3, .cc false 0⟩ 0x00010000)
    ∧ reads .cc [0x00C200C8] = some (.jmpr ⟨.w1, .cc false 0⟩ (.r 2) (.r 3))
    ∧ reads .cc [0x00027CCC] = some (.call ⟨.w1, .cc false 0⟩ 31 (.r 2))
    ∧ reads .cc [0x001F00D0] = some (.ret ⟨.w1, .cc false 0⟩ 31)
    ∧ reads .cc [0x17C004D5, 0x0450C008] = some (.loop ⟨.w2, .cc true 5⟩ true (.i8 8) 0x7C1)
    ∧ reads .cc [0x000478D8] = some (.gset ⟨.w1, .cc false 0⟩ 30 (.val (.r 4)))
    ∧ reads .cc [0x100478D8] = some (.gset ⟨.w1, .cc false 0⟩ 30 (.pred 4)) := by decide +kernel

/-- Row 0x3_, written out from Table 9-2. -/
theorem test_words_branch_2 :
    reads .cc [0x000078DC] = some (.gclr ⟨.w1, .cc false 0⟩ 30)
    ∧ reads .cc [0x000400E0] = some (.fork ⟨.w1, .cc false 0⟩ (.r 4))
    ∧ reads .cc [0x000400E4] = some (.join ⟨.w1, .cc false 0⟩ (.r 4))
    ∧ reads .cc [0x31FC14E9, 0x07100000] = some (.pushc ⟨.w2, .slot true 17⟩ .ax 3 60 (.r 7))
    ∧ reads .cc [0x400A04EC] = some (.pushk ⟨.w1, .cc false 0⟩ .vl 4 10)
    ∧ reads .cc [0x000030F0] = some (.retq ⟨.w1, .cc false 0⟩ 12) := by decide +kernel

/-- Row 0x4_, written out from Table 9-2. -/
theorem test_words_task_1 :
    reads .cc [0x00020500] = some (.launch ⟨.w1, .cc false 0⟩ 1 (.r 2))
    ∧ reads .cc [0x00000104] = some (.next ⟨.w1, .cc false 0⟩)
    ∧ reads .cc [0x30020508] = some (.coord ⟨.w1, .cc false 0⟩ 3 1 (.r 2))
    ∧ reads .cc [0x0081010D, 0x04500300] = some (.suspend ⟨.w2, .cc true 5⟩ 1 (.r 2) 3)
    ∧ reads .cc [0x00810110] = some (.yield ⟨.w1, .cc false 0⟩ 1 (.r 2) 0)
    ∧ reads .cc [0x00E71914] = some (.sysr ⟨.w1, .cc false 0⟩ 6 0x0E7)
    ∧ reads .cc [0x00C95518] = some (.sysw ⟨.w1, .cc false 0⟩ 0x0D5 (.r 9))
    ∧ reads .cc [0x00C90118] = some (.pcarve ⟨.w1, .cc false 0⟩ (.r 9)) := by decide +kernel

/-- Row 0x4_, written out from Table 9-2. -/
theorem test_words_task_2 :
    reads .cc [0x0000011D, 0x0450C021] = some (.trap ⟨.w2, .cc true 5⟩ (.i8 0x21))
    ∧ reads .cc [0x00000120] = some (.rft ⟨.w1, .cc false 0⟩)
    ∧ reads .cc [0x00000124] = some (.wfe ⟨.w1, .cc false 0⟩)
    ∧ reads .cc [0x20000128] = some (.sev ⟨.w1, .cc false 0⟩ .die)
    ∧ reads .cc [0x0001012C] = some (.brk ⟨.w1, .cc false 0⟩ (.r 1))
    ∧ reads .cc [0x00000130] = some (.halt ⟨.w1, .cc false 0⟩)
    ∧ reads .cc [0x00000134] = some (.nop ⟨.w1, .cc false 0⟩)
    ∧ reads .cc [0x00000130] = some (.halt ⟨.w1, .cc false 0⟩) := by decide +kernel

/-- Row 0x6_ (Table 11-2; cpy and cpyw as Table 11-6), written out from Table 9-2. -/
theorem test_words_copy_1 :
    reads .cc [0x10080580] = some (.cpy ⟨.w1, .cc false 0⟩ true 1 8)
    ∧ reads .cc [0x00080584] = some (.cpyt ⟨.w1, .cc false 0⟩ false 1 8)
    ∧ reads .cc [0x40C20589, 0x04500400] = some (.cpyw ⟨.w2, .cc true 5⟩ true 1 2 (.r 3) 4)
    ∧ reads .cc [0x30C2058D, 0x04500400] = some (.pour ⟨.w2, .cc true 5⟩ false 1 2 3 (.r 4))
    ∧ reads .cc [0x40C20590] = some (.pwait ⟨.w1, .cc false 0⟩ true 1 2 (.r 3))
    ∧ reads .cc [0x00C20594] = some (.pjoin ⟨.w1, .cc false 0⟩ 1 2 (.r 3))
    ∧ reads .cc [0x00C20598] = some (.pleave ⟨.w1, .cc false 0⟩ 1 2 (.r 3))
    ∧ reads .cc [0x0002059C] = some (.pclose ⟨.w1, .cc false 0⟩ 1 2) := by decide +kernel

/-- Row 0x6_ (Table 11-2; cpy and cpyw as Table 11-6), written out from Table 9-2. -/
theorem test_words_copy_2 :
    reads .cc [0x1002059C] = some (.pcloseRetire ⟨.w1, .cc false 0⟩ 1 2)
    ∧ reads .cc [0x00C205A1, 0x04500400] = some (.nmrun ⟨.w2, .cc true 5⟩ 1 2 3 (.r 4))
    ∧ reads .cc [0x300001A4] = some (.nmfence ⟨.w1, .cc false 0⟩ .pkg)
    ∧ reads .cc [0x000205A8] = some (.rwait ⟨.w1, .cc false 0⟩ 1 2)
    ∧ reads .cc [0x000201AC] = some (.rfree ⟨.w1, .cc false 0⟩ 2)
    ∧ reads .cc [0x00142180] = some (.cpy ⟨.w1, .cc false 0⟩ false 8 20)
    ∧ reads .cc [0x32562989, 0x00001800] = some (.cpyw ⟨.w2, .cc false 0⟩ false 10 22 (.r 9) 24) := by decide +kernel

/-- Row 0x7_ (Table 13-13), written out from Table 9-2. -/
theorem test_words_mx_1 :
    reads .cc [0x000485C0] = some (.mxcfg ⟨.w1, .cc false 0⟩ 33 (.r 4))
    ∧ reads .cc [0x000205C4] = some (.mxgo ⟨.w1, .cc false 0⟩ 1 (.r 2))
    ∧ reads .cc [0x000201C8] = some (.mxfmt ⟨.w1, .cc false 0⟩ (.r 2))
    ∧ reads .cc [0x000205CC] = some (.mxmode ⟨.w1, .cc false 0⟩ 1 (.r 2))
    ∧ reads .cc [0x000205D0] = some (.mxzero ⟨.w1, .cc false 0⟩ 1 (.r 2))
    ∧ reads .cc [0x100205D4] = some (.mxdrain ⟨.w1, .cc false 0⟩ true false 1 (.r 2))
    ∧ reads .cc [0x200205D4] = some (.mxdrain ⟨.w1, .cc false 0⟩ false true 1 (.r 2))
    ∧ reads .cc [0x000201D8] = some (.mxsave ⟨.w1, .cc false 0⟩ 2) := by decide +kernel

/-- Row 0x7_ (Table 13-13), written out from Table 9-2. -/
theorem test_words_mx_2 :
    reads .cc [0x000201DC] = some (.mxrest ⟨.w1, .cc false 0⟩ 2)
    ∧ reads .cc [0x600005E0] = some (.mxstat ⟨.w1, .cc false 0⟩ 6 1) := by decide +kernel

/-- Row 0x5_ (Table 11-2; ld and tlwait as Table 11-6 writes them out), written out from Table 9-2. -/
theorem test_words_memory_1 :
    reads .cc [0x60C20540] = some (.ld ⟨.w1, .cc false 0⟩ 6 1 2 (.r 3))
    ∧ reads .cc [0x30020145, 0x045304F8] = some (.st ⟨.w2, .cc true 5⟩ 3 2 (.i8 0xF8) 4)
    ∧ reads .cc [0x20C20549, 0x04500A00] = some (.lds ⟨.w2, .cc true 5⟩ 2 ⟨false, 1, .die⟩ 1 2 (.r 3))
    ∧ reads .cc [0x10C24D4D, 0x04500400] = some (.sts ⟨.w2, .cc true 5⟩ 1 ⟨false, 2, .pkg⟩ 2 (.r 3) 4)
    ∧ reads .cc [0x80C20551, 0x04502C00] = some (.amo ⟨.w2, .cc true 5⟩ .maxu ⟨true, 1, .fab⟩ 1 2 3)
    ∧ reads .cc [0x00C20555, 0x04503100] = some (.cas ⟨.w2, .cc true 5⟩ ⟨true, 2, .quad⟩ 1 2 3)
    ∧ reads .cc [0x00006D58] = some (.phase ⟨.w1, .cc false 0⟩ ⟨false, 3, .pkg⟩)
    ∧ reads .cc [0x0000095C] = some (.fence ⟨.w1, .cc false 0⟩ .die) := by decide +kernel

/-- Row 0x5_ (Table 11-2; ld and tlwait as Table 11-6 writes them out), written out from Table 9-2. -/
theorem test_words_memory_2 :
    reads .cc [0x10C20160] = some (.clean ⟨.w1, .cc false 0⟩ true 2 (.r 3))
    ∧ reads .cc [0x00C20164] = some (.inval ⟨.w1, .cc false 0⟩ false 2 (.r 3))
    ∧ reads .cc [0x10C20168] = some (.pref ⟨.w1, .cc false 0⟩ true 2 (.r 3))
    ∧ reads .cc [0x3205016C] = some (.tlwait ⟨.w1, .cc false 0⟩ .pkg 5 (.r 8))
    ∧ reads .cc [0x10072570] = some (.tlread ⟨.w1, .cc false 0⟩ true 9 7)
    ∧ reads .cc [0x30015141, 0x00030000] = some (.ld ⟨.w2, .cc false 0⟩ 3 20 1 (.i8 0)) := by decide +kernel

/-- Row 0x8_ (Table 12-1; eend as Table 12-8), written out from Table 9-2. -/
theorem test_words_engine_1 :
    reads (.eng .vl) [0x00000201, 0x01D00000] = some (.etake ⟨.w2, .en 3 5⟩)
    ∧ reads (.eng .vs) [0x55430205, 0x000000FC] = some (.ebr ⟨.w2, .en 0 0⟩ .geu (.r 3) (.r 21) 0xFFFFFFFC)
    ∧ reads (.eng .va) [0x01030206, 0x00014000, 0x00000100] = some (.ebr ⟨.w3, .va false 0 false 0 0⟩ .eq (.x 3) (.x 4) 0x100)
    ∧ reads (.eng .mx) [0x17C00609, 0x0000C003] = some (.eloop ⟨.w2, .en 0 0⟩ true (.i8 3) 0x7C1)
    ∧ reads (.eng .vl) [0x81034208] = some (.eloopAdd ⟨.w1, .en 0 0⟩ 16 (.r 3) (.r 4))
    ∧ reads (.eng .va) [0x0000020C] = some (.eend ⟨.w1, .va false 0 false 0 0⟩)
    ∧ reads (.eng .ax) [0x00000211, 0x00A00000] = some (.enop ⟨.w2, .en 1 2⟩)
    ∧ reads (.eng .vl) [0xF0000215, 0x00200000] = some (.etok ⟨.w2, .en 0 2⟩ 15) := by decide +kernel

/-- Row 0x8_ (Table 12-1; eend as Table 12-8), written out from Table 9-2. -/
theorem test_words_engine_2 :
    reads (.eng .mx) [0x00047E18] = some (.gput ⟨.w1, .en 0 0⟩ 31 (.r 4))
    ∧ reads (.eng .vs) [0x0000021D, 0x000080C8] = some (.eret ⟨.w2, .en 0 0⟩ (.cb 200)) := by decide +kernel

/-- Row 0x9_ (Table 11-5), written out from Table 9-2. -/
theorem test_words_vmem :
    reads (.eng .vl) [0x4185FE40] = some (.vld ⟨.w1, .en 0 0⟩ 4 63 5 (.r 6))
    ∧ reads (.eng .vl) [0x0185FE45, 0x00000700] = some (.vldg ⟨.w2, .en 0 0⟩ 0 63 5 (.r 6) 7)
    ∧ reads (.eng .vl) [0xC185FE4A, 0x00000700, 0x00000055] = some (.vldb ⟨.w3, .en 0 0⟩ ⟨true, .sr⟩ 63 5 6 7 0x55)
    ∧ reads (.eng .vl) [0x0185024D, 0x00000700] = some (.vldm ⟨.w2, .en 0 0⟩ 5 6 (.r 7))
    ∧ reads (.eng .vs) [0x20052651, 0x00030040] = some (.vst ⟨.w2, .en 0 0⟩ 2 9 5 (.i8 64))
    ∧ reads (.eng .vs) [0x21852655, 0x00000700] = some (.vsts ⟨.w2, .en 0 0⟩ 2 9 5 (.r 6) 7)
    ∧ reads (.eng .vs) [0x2185265A, 0x00000702, 0x00008001] = some (.vsta ⟨.w3, .en 0 0⟩ .fmax 2 9 5 6 7 0x8001)
    ∧ reads (.eng .vs) [0x0185025D, 0x00001400] = some (.rput ⟨.w2, .en 0 0⟩ 5 6 20) := by decide +kernel

/-- Row 0xA_ (Table 12-4; vadd and vsub as Table 12-8, whose word for vmul differs from Table 9-2: log entry 20), written out from Table 9-2. -/
theorem test_words_vfloat_1 :
    reads (.eng .va) [0xC081FE81, 0xEE100000] = some (.vadd ⟨.w2, .va true 13 true 4 1⟩ ⟨true, .sr⟩ 63 (.r 1) (.r 2))
    ∧ reads (.eng .va) [0x00028281, 0x40030001] = some (.vadd ⟨.w2, .va false 8 false 0 0⟩ ⟨false, .rne⟩ 32 (.r 2) (.i8 1))
    ∧ reads (.eng .va) [0x00218A89, 0x48030002] = some (.vmul ⟨.w2, .va false 9 false 0 0⟩ ⟨false, .rne⟩ 34 (.r 33) (.i8 2))
    ∧ reads (.eng .va) [0x00239285, 0x50000000] = some (.vsub ⟨.w2, .va false 10 false 0 0⟩ ⟨false, .rne⟩ 36 (.r 35) (.r 0))
    ∧ reads (.eng .va) [0x20010E8D, 0x00024407] = some (.vfma ⟨.w2, .va false 0 false 0 0⟩ ⟨false, .rup⟩ 3 (.x 1) (.cb 7) (.r 4))
    ∧ reads (.eng .va) [0x30810E91, 0x000C00FF] = some (.vfms ⟨.w2, .va false 0 false 0 0⟩ ⟨false, .rdn⟩ 3 (.r 1) (.r 2) (.i8 0xFF))
    ∧ reads (.eng .va) [0x80810E94] = some (.vmin ⟨.w1, .va false 0 false 0 0⟩ true 3 (.r 1) (.r 2))
    ∧ reads (.eng .va) [0x00810E98] = some (.vmax ⟨.w1, .va false 0 false 0 0⟩ false 3 (.r 1) (.r 2)) := by decide +kernel

/-- Row 0xA_ (Table 12-4; vadd and vsub as Table 12-8, whose word for vmul differs from Table 9-2: log entry 20), written out from Table 9-2. -/
theorem test_words_vfloat_2 :
    reads (.eng .va) [0x00010E9C] = some (.vabs ⟨.w1, .va false 0 false 0 0⟩ false 3 (.r 1))
    ∧ reads (.eng .va) [0x80010EA0] = some (.vneg ⟨.w1, .va false 0 false 0 0⟩ true 3 (.r 1))
    ∧ reads (.eng .va) [0xC0811EA4] = some (.vcmp ⟨.w1, .va false 0 false 0 0⟩ true .un 7 (.r 1) (.r 2))
    ∧ reads (.eng .va) [0x80810EA9, 0x00000500] = some (.vsel ⟨.w2, .va false 0 false 0 0⟩ true 3 (.r 1) (.r 2) 5)
    ∧ reads (.eng .va) [0x10010EAE, 0x00000000, 0x00060105] = some (.vcvt ⟨.w3, .va false 0 false 0 0⟩ .rtz 3 1 5 1 2 true)
    ∧ reads (.eng .va) [0x01410EB0] = some (.vsfu ⟨.w1, .va false 0 false 0 0⟩ ⟨false, .rne⟩ .erf 3 (.r 1)) := by decide +kernel

/-- Row 0xB_ (Table 12-6), written out from Table 9-2. -/
theorem test_words_vmove_1 :
    reads (.eng .va) [0x80810EC1, 0x0000000B] = some (.vred ⟨.w2, .va false 0 false 0 0⟩ ⟨true, .rne⟩ .maxsum .all 3 1 2)
    ∧ reads (.eng .va) [0x10010EC5, 0x00000004] = some (.vscan ⟨.w2, .va false 0 false 0 0⟩ ⟨false, .rtz⟩ .sum .col 3 1)
    ∧ reads (.eng .va) [0x20810EC9, 0x00000009] = some (.vsort ⟨.w2, .va false 0 false 0 0⟩ .f32 true true 3 1 2)
    ∧ reads (.eng .va) [0x00810ECD, 0x0000000A] = some (.vsegr ⟨.w2, .va false 0 false 0 0⟩ .rne .sums true 3 1 2)
    ∧ reads (.eng .va) [0x00810ED1, 0x00000008] = some (.vperm ⟨.w2, .va false 0 false 0 0⟩ true 3 1 2)
    ∧ reads (.eng .va) [0xA0810ED5, 0x00010000] = some (.vbcast ⟨.w2, .va false 0 false 0 0⟩ .col true 3 1 (.x 2))
    ∧ reads (.eng .va) [0x00010ED8] = some (.vmov ⟨.w1, .va false 0 false 0 0⟩ 3 1)
    ∧ reads (.eng .va) [0x10813ED9, 0x00010000] = some (.vmovX ⟨.w2, .va false 0 false 0 0⟩ 15 1 (.x 2)) := by decide +kernel

/-- Row 0xB_ (Table 12-6), written out from Table 9-2. -/
theorem test_words_vmove_2 :
    reads (.eng .va) [0x00010EDD, 0x00034002] = some (.viota ⟨.w2, .va false 0 false 0 0⟩ 3 (.x 1) (.i8 2)) := by decide +kernel

/-- Row 0xC_ (Tables 12-6 and 12-7; vimm and vloopp as Table 12-8), written out from Table 9-2. -/
theorem test_words_vint_1 :
    reads (.eng .va) [0x50810F00] = some (.viadd ⟨.w1, .va false 0 false 0 0⟩ .b2 true 3 (.r 1) (.r 2))
    ∧ reads (.eng .va) [0x20810F04] = some (.visub ⟨.w1, .va false 0 false 0 0⟩ .b1 false 3 (.r 1) (.r 2))
    ∧ reads (.eng .va) [0x00810F08] = some (.vimul ⟨.w1, .va false 0 false 0 0⟩ .b4 3 (.r 1) (.r 2))
    ∧ reads (.eng .va) [0x30810F0C] = some (.vilog ⟨.w1, .va false 0 false 0 0⟩ .andn 3 (.r 1) (.r 2))
    ∧ reads (.eng .va) [0x60810F10] = some (.vish ⟨.w1, .va false 0 false 0 0⟩ .sha .b2 3 (.r 1) (.r 2))
    ∧ reads (.eng .va) [0x00000B15, 0x0000C003] = some (.vimm ⟨.w2, .va false 0 false 0 0⟩ .f32 2 (.i8 3))
    ∧ reads (.eng .va) [0x00000316, 0x0000C000, 0x3F000000] = some (.vimm ⟨.w3, .va false 0 false 0 0⟩ .f32 0 (.lit 0x3F000000))
    ∧ reads (.eng .va) [0x20C20718] = some (.vmask ⟨.w1, .va false 0 false 0 0⟩ (.logic .xor 1 2 3)) := by decide +kernel

/-- Row 0xC_ (Tables 12-6 and 12-7; vimm and vloopp as Table 12-8), written out from Table 9-2. -/
theorem test_words_vint_2 :
    reads (.eng .va) [0x40020718] = some (.vmask ⟨.w1, .va false 0 false 0 0⟩ (.not 1 2))
    ∧ reads (.eng .va) [0x50000719, 0x0000C009] = some (.vmask ⟨.w2, .va false 0 false 0 0⟩ (.first 1 (.i8 9)))
    ∧ reads (.eng .va) [0x603F0718] = some (.vmask ⟨.w1, .va false 0 false 0 0⟩ (.fromv 1 63))
    ∧ reads (.eng .va) [0x7007FB18] = some (.vmask ⟨.w1, .va false 0 false 0 0⟩ (.tov 62 7))
    ∧ reads (.eng .va) [0x0000031E, 0x0000C000, 0x00001010] = some (.vshape ⟨.w3, .va false 0 false 0 0⟩ (.lit 0x1010))
    ∧ reads (.eng .va) [0x00000321, 0x0000C01F] = some (.vrot ⟨.w2, .va false 0 false 0 0⟩ (.i8 31))
    ∧ reads (.eng .va) [0x20001B25, 0x0000C002] = some (.vloopp ⟨.w2, .va false 0 false 0 0⟩ 2 (.i8 2) 6)
    ∧ reads (.eng .va) [0x00010F29, 0x00020004] = some (.vpcode ⟨.w2, .va false 0 false 0 0⟩ 3 1 (.cb 4)) := by decide +kernel

/-- Row 0xC_ (Tables 12-6 and 12-7; vimm and vloopp as Table 12-8), written out from Table 9-2. -/
theorem test_words_vint_3 :
    reads (.eng .va) [0x80010F2C] = some (.vbexp ⟨.w1, .va false 0 false 0 0⟩ true 3 1)
    ∧ reads (.eng .va) [0x00810F30] = some (.vqnt ⟨.w1, .va false 0 false 0 0⟩ 3 1 2)
    ∧ reads (.eng .va) [0x30810F34] = some (.vdqnt ⟨.w1, .va false 0 false 0 0⟩ .rdn 3 1 2) := by decide +kernel

/-- Row 0xD_ (Table 13-5; afwd and axfer as the worked encodings of R400), written out from Table 9-2. -/
theorem test_words_array_1 :
    reads (.eng .ax) [0x21851341, 0x00000700] = some (.afwd ⟨.w2, .en 0 0⟩ false true 4 (.r 5) 6 7)
    ∧ reads (.eng .ax) [0x11801345, 0x00008705] = some (.abwd ⟨.w2, .en 0 0⟩ true false 4 (.cb 5) 6 7)
    ∧ reads (.eng .ax) [0x01851349, 0x00000700] = some (.aupd ⟨.w2, .en 0 0⟩ 4 (.r 5) 6 7)
    ∧ reads (.eng .ax) [0x00080F4C] = some (.axfer ⟨.w1, .en 0 0⟩ 3 (.r 8))
    ∧ reads (.eng .ax) [0x71850350] = some (.ackr ⟨.w1, .en 0 0⟩ true 3 (.r 5) 6)
    ∧ reads (.eng .ax) [0x11851355, 0x00000700] = some (.aprog ⟨.w2, .en 0 0⟩ .f 4 (.r 5) 6 7)
    ∧ reads (.eng .ax) [0x00050359, 0x00030040] = some (.acal ⟨.w2, .en 0 0⟩ (.r 5) (.i8 64))
    ∧ reads (.eng .ax) [0x0185035C] = some (.asprLd ⟨.w1, .en 0 0⟩ (.r 5) 6) := by decide +kernel

/-- Row 0xD_ (Table 13-5; afwd and axfer as the worked encodings of R400), written out from Table 9-2. -/
theorem test_words_array_2 :
    reads (.eng .ax) [0x1185035C] = some (.asprSt ⟨.w1, .en 0 0⟩ (.r 5) 6)
    ∧ reads (.eng .ax) [0x51850360] = some (.aset ⟨.w1, .en 0 0⟩ 5 (.r 5) (.r 6))
    ∧ reads (.eng .ax) [0x30050364] = some (.amode ⟨.w1, .en 0 0⟩ .frozens (.r 5))
    ∧ reads (.eng .ax) [0xA0051368] = some (.astat ⟨.w1, .en 0 0⟩ 10 4 (.r 5))
    ∧ reads (.eng .ax) [0x0185036C] = some (.aref ⟨.w1, .en 0 0⟩ (.r 5) 6) := by decide +kernel

/-- Kettle words, written out from Tables 4-6 and 4-7; several as Table 4-10 writes them. -/
theorem test_words_kettle_1 :
    kdecode 0x0000000000000000 = some (.knop)
    ∧ kdecode 0x0400000200000000 = some (.kld .full true 0 0 0)
    ∧ kdecode 0x0421000000000000 = some (.kld .full false 1 1 0)
    ∧ kdecode 0x06E70008FFFFFFC0 = some (.kld .bf16 false 23 7 0xFFFFFFC0)
    ∧ kdecode 0x0801100200000000 = some (.kst .full true 1 2 0)
    ∧ kdecode 0x0801101000000040 = some (.kst .half false 1 2 64)
    ∧ kdecode 0x04A1002600000300 = some (.kldAbSum true 5 1 0x300)
    ∧ kdecode 0x04A1002C00000000 = some (.kldAbMax false 5 1 0)
    ∧ kdecode 0x0801282400000000 = some (.kstAb false 1 5 0)
    ∧ kdecode 0x0C60002000000003 = some (.kag 3 (.prm 3)) := by decide +kernel

/-- Kettle words, written out from Tables 4-6 and 4-7; several as Table 4-10 writes them. -/
theorem test_words_kettle_2 :
    kdecode 0x0C64280800000000 = some (.kag 3 (.addr 4 5))
    ∧ kdecode 0x0C64002800000009 = some (.kag 3 (.mul 4 9))
    ∧ kdecode 0x0C6400180000003F = some (.kag 3 (.shl 4 63))
    ∧ kdecode 0x0C60001000000007 = some (.kag 3 (.li 7))
    ∧ kdecode 0x0C64000000000007 = some (.kag 3 (.addi 4 7))
    ∧ kdecode 0x1000000000000000 = some (.katom)
    ∧ kdecode 0x1404100800000000 = some (.kflag true 4 2 0)
    ∧ kdecode 0x2022180000000000 = some (.kadd 1 2 (.k 3))
    ∧ kdecode 0x242200013F800000 = some (.ksub 1 2 (.imm 0x3F800000))
    ∧ kdecode 0x2822180000000000 = some (.kmul 1 2 (.k 3)) := by decide +kernel

/-- Kettle words, written out from Tables 4-6 and 4-7; several as Table 4-10 writes them. -/
theorem test_words_kettle_3 :
    kdecode 0x2C40A04000000000 = some (.kfma 2 0 (.k 20) 1)
    ∧ kdecode 0x3022180000000000 = some (.kmin 1 2 (.k 3))
    ∧ kdecode 0x3422180000000000 = some (.kmax 1 2 (.k 3))
    ∧ kdecode 0x3822000000000000 = some (.kabs 1 2)
    ∧ kdecode 0x4022182000000000 = some (.kcmp .un 1 2 (.k 3))
    ∧ kdecode 0x4422190000000000 = some (.ksel 1 2 3 4)
    ∧ kdecode 0x4A83002800000000 = some (.kcvt 20 (.b32j 3))
    ∧ kdecode 0x4822181800000000 = some (.kcvt 1 (.s64hi 2 3))
    ∧ kdecode 0x4822000000000000 = some (.kcvt 1 (.f32s32 2))
    ∧ kdecode 0x4822000800000000 = some (.kcvt 1 (.s32f32 2)) := by decide +kernel

/-- Kettle words, written out from Tables 4-6 and 4-7; several as Table 4-10 writes them. -/
theorem test_words_kettle_4 :
    kdecode 0x4822181000000000 = some (.kcvt 1 (.s64lo 2 3))
    ∧ kdecode 0x4822002000000000 = some (.kcvt 1 (.f32j 2))
    ∧ kdecode 0x4C22180000000000 = some (.kqnt 1 2 3)
    ∧ kdecode 0x5044301000000000 = some (.kiadd .whi 2 4 6)
    ∧ kdecode 0x5442000000000000 = some (.kclip 2 2)
    ∧ kdecode 0x5822000000000000 = some (.knf 1 2)
    ∧ kdecode 0x6002000800000000 = some (.kred .max 2)
    ∧ kdecode 0x6440001000000000 = some (.krcv .maxsum 2)
    ∧ kdecode 0x7002000000000000 = some (.kloop (.j 2))
    ∧ kdecode 0x7000000100000005 = some (.kloop (.imm 5)) := by decide +kernel

/-- Kettle words, written out from Tables 4-6 and 4-7; several as Table 4-10 writes them. -/
theorem test_words_kettle_5 :
    kdecode 0x7400000000000000 = some (.kend)
    ∧ kdecode 0x7800000000000000 = some (.khalt) := by decide +kernel
/-! ### Terms that the encoding does not admit (R261 to R273, Tables 9-3 to 9-10 and 11-2) -/

def hc : Head := ⟨.w1, .cc false 0⟩
def hc2 : Head := ⟨.w2, .cc false 0⟩
def hc3 : Head := ⟨.w3, .cc false 0⟩
def hn : Head := ⟨.w1, .en 0 0⟩
def hn2 : Head := ⟨.w2, .en 0 0⟩
def hv : Head := ⟨.w1, .va false 0 false 0 0⟩
def hv2 : Head := ⟨.w2, .va false 0 false 0 0⟩
def hv3 : Head := ⟨.w3, .va false 0 false 0 0⟩

/-- Whether the check refuses every term of a list. -/
def refuses (l : List (UnitId × Instr)) : Bool := l.all fun x => !WellFormed x.1 x.2

/-- The head: a predicate in the 32-bit form, the control of another unit, tokens 6 and 7, an engine's own token, a guard on an
instruction that is no push, an instruction on a unit that has not its opcode (R262, R263, R270 to R272). -/
theorem test_refused_heads : refuses [
    (.cc, .nop ⟨.w1, .cc false 1⟩), (.cc, .nop ⟨.w1, .cc true 0⟩), (.cc, .nop ⟨.w2, .en 0 0⟩), (.cc, .nop ⟨.w2, .slot false 1⟩),
    (.cc, .pushk ⟨.w1, .slot false 0⟩ .vl 0 0), (.eng .vl, .enop ⟨.w2, .en 6 0⟩), (.eng .vl, .enop ⟨.w2, .en 0 7⟩),
    (.eng .vl, .enop ⟨.w2, .en 1 0⟩), (.eng .va, .enop ⟨.w2, .va false 0 false 0 2⟩), (.eng .va, .enop ⟨.w1, .va true 0 false 0 0⟩),
    (.eng .va, .enop ⟨.w1, .va false 0 false 1 0⟩), (.eng .ax, .enop ⟨.w1, .en 1 0⟩), (.eng .va, .enop hn2), (.eng .vl, .enop hv2),
    (.eng .vl, .nop hn), (.cc, .enop hc), (.eng .vs, .vld hn 0 0 0 (.r 0)), (.eng .vl, .vst hn 0 0 0 (.r 0)),
    (.eng .mx, .axfer hn 0 (.r 0)), (.eng .mx, .ld hn 0 1 2 (.r 3)), (.cc, .knop), (.cc, .bootgo 0 ⟨0, 0⟩)] = true := by decide +kernel

/-- Sources: a literal in a form that has no room for it, tag 01 and 10 on the CC, two sources of tags 10 and 11, a v register where only a
scalar may stand, an x field above 21 (R264 to R267, R288, R352). -/
theorem test_refused_sources : refuses [
    (.cc, .add hc false 1 (.r 1) (.i8 1)), (.cc, .add hc3 false 1 (.r 1) (.i8 1)), (.cc, .add hc2 false 1 (.r 1) (.lit 1)),
    (.cc, .add hc2 false 1 (.x 1) (.r 1)), (.cc, .add hc2 false 1 (.cb 1) (.r 1)), (.cc, .add hc2 false 1 (.i8 1) (.i8 2)),
    (.cc, .mulh hc2 1 (.i8 1) (.i8 2)), (.cc, .cmp hc2 .eq 1 (.i8 1) (.i8 2)), (.cc, .fadd hc2 ⟨false, .rne⟩ 1 (.i8 1) (.i8 2)),
    (.cc, .ffma hc2 ⟨false, .rne⟩ 1 (.i8 1) (.r 2) (.i8 3)), (.cc, .jmpr hc2 (.i8 1) (.i8 2)), (.cc, .clz hc2 1 (.x 1)),
    (.eng .va, .vadd hv2 ⟨false, .rne⟩ 1 (.i8 1) (.cb 2)), (.eng .va, .vadd hv ⟨false, .rne⟩ 1 (.x 1) (.r 2)),
    (.eng .va, .vadd hv2 ⟨false, .rne⟩ 1 (.x 22) (.r 2)), (.eng .va, .vbcast hv2 .elem false 1 2 (.r 3)),
    (.eng .va, .vimm hv2 .f32 1 (.r 3)), (.eng .va, .vshape hv2 (.r 3)), (.eng .va, .vrot hv2 (.r 3)), (.eng .va, .vmask hv2 (.first 1 (.r 2))),
    (.eng .vl, .eret hn (.r 22)), (.eng .va, .eret hv2 (.r 2)), (.eng .vl, .eloop hn2 false (.cb 2) 1), (.eng .ax, .acal hn2 (.cb 1) (.i8 2)),
    (.eng .ax, .aset hn2 0 (.cb 1) (.i8 2)), (.eng .ax, .amode hn2 .ref (.i8 2)), (.eng .vl, .vld hn2 0 0 1 (.cb 2)),
    (.eng .va, .vsel hv2 false 1 (.i8 1) (.i8 2) 0), (.eng .va, .viota hv2 1 (.cb 1) (.i8 2))] = true := by decide +kernel

/-- Fields of word 1 in the 32-bit form, which has none (R262). -/
theorem test_refused_short_forms : refuses [
    (.cc, .sel hc 1 (.r 2) (.r 3) 1), (.cc, .ffma hc ⟨false, .rne⟩ 1 (.r 2) (.r 3) (.r 4)), (.cc, .suspend hc 1 (.r 2) 3),
    (.cc, .yield hc 1 (.r 2) 3), (.cc, .st hc 0 1 (.r 2) 3), (.cc, .sts hc 0 ⟨false, 0, .ac⟩ 1 (.r 2) 3),
    (.cc, .lds hc 0 ⟨false, 1, .ac⟩ 1 2 (.r 3)), (.cc, .lds hc 0 ⟨false, 0, .pkg⟩ 1 2 (.r 3)), (.cc, .amo hc .add ⟨true, 0, .ac⟩ 1 2 3),
    (.cc, .cas hc ⟨false, 2, .ac⟩ 1 2 3), (.cc, .cpyw hc false 1 2 (.r 3) 4), (.cc, .pour hc false 1 2 3 (.r 4)), (.cc, .nmrun hc 1 2 3 (.r 4)),
    (.eng .vl, .vldg hn 0 1 2 (.r 3) 4), (.eng .vl, .vldm hn 1 2 (.r 3)), (.eng .vs, .vsts hn 0 1 2 (.r 3) 4),
    (.eng .vs, .vsta hn .sadd 0 1 2 3 0 0xFFFF), (.eng .vs, .vsta hn .fadd 0 1 2 3 4 0xFFFF), (.eng .vs, .rput hn 1 2 3),
    (.eng .va, .vfma hv ⟨false, .rne⟩ 1 (.r 2) (.r 3) (.r 4)), (.eng .va, .vfms hv ⟨false, .rne⟩ 1 (.r 2) (.r 3) (.r 4)),
    (.eng .va, .vsel hv false 1 (.r 2) (.r 3) 1), (.eng .va, .vred hv ⟨false, .rne⟩ .max .row 1 2 0),
    (.eng .va, .vscan hv ⟨false, .rne⟩ .sum .col 1 2), (.eng .va, .vsort hv .s32 true false 1 2 3), (.eng .va, .vsegr hv .rne .sums false 1 2 3),
    (.eng .va, .vperm hv true 1 2 3), (.eng .ax, .afwd hn false false 1 (.r 2) 3 4), (.eng .ax, .abwd hn false false 1 (.r 2) 3 4),
    (.eng .ax, .aupd hn 1 (.r 2) 3 4), (.eng .ax, .aprog hn .s 1 (.r 2) 3 4)] = true := by decide +kernel

/-- Values that an entry does not admit (the codes 5, 7 and 8 of the entries of chapters 10 to 13). -/
theorem test_refused_values : refuses [
    (.cc, .jmp hc2 1), (.cc, .pushc hc .vl 5 0 (.r 1)), (.cc, .pushc hc .vl 2 63 (.r 1)), (.cc, .pushk hc .vl 2 63),
    (.cc, .pushk hc .vl 0 1), (.cc, .coord hc 4 1 (.r 1)), (.cc, .suspend hc2 1 (.r 2) 0), (.cc, .suspend hc2 1 (.r 2) 61),
    (.cc, .sysw hc 0x0C0 (.r 1)), (.cc, .sev hc .pkg), (.cc, .ld hc 7 1 2 (.r 3)), (.cc, .lds hc2 7 ⟨false, 0, .ac⟩ 1 2 (.r 3)),
    (.cc, .lds hc2 0 ⟨false, 2, .ac⟩ 1 2 (.r 3)), (.cc, .lds hc2 0 ⟨true, 0, .ac⟩ 1 2 (.r 3)), (.cc, .sts hc2 0 ⟨false, 1, .ac⟩ 1 (.r 2) 3),
    (.cc, .amo hc2 .add ⟨true, 3, .ac⟩ 1 2 3), (.cc, .cas hc2 ⟨true, 3, .ac⟩ 1 2 3), (.cc, .phase hc ⟨false, 0, .ac⟩),
    (.cc, .phase hc ⟨true, 1, .ac⟩), (.eng .vs, .clean hn false 1 (.r 2)), (.eng .vl, .clean hn false 22 (.r 2)), (.eng .vl, .ld hn 0 22 2 (.r 3)),
    (.eng .vl, .st hn2 0 2 (.r 3) 22), (.cc, .cpy hc false 1 61), (.cc, .cpyt hc false 1 59), (.cc, .cpyw hc2 false 1 2 (.r 3) 63),
    (.cc, .rwait hc 63 1), (.cc, .mxcfg hc 13 (.r 1)), (.cc, .mxcfg hc 15 (.r 1)), (.cc, .mxcfg hc 34 (.r 1)),
    (.eng .vl, .ebr hn2 .al (.r 0) (.r 0) 0), (.eng .vl, .ebr hn .al (.r 0) (.r 0) 1), (.eng .vl, .ebr hn2 .al (.r 0) (.r 0) 128),
    (.eng .vl, .ebr hn2 .last0 (.r 1) (.r 0) 1), (.eng .vl, .eloopAdd hn 22 (.r 1) (.r 2)), (.eng .vl, .etok hn2 3), (.eng .va, .etok hv2 3),
    (.eng .vl, .vldb hn2 ⟨false, .rne⟩ 1 2 3 4 0), (.eng .vl, .vld hn 0 1 22 (.r 2)), (.eng .vs, .vsta hn2 .fadd 0 1 2 3 4 0x7FFF),
    (.eng .vs, .rput hn2 1 2 15), (.eng .vs, .rput hn2 1 2 21), (.eng .va, .vcvt hv2 .rne 1 2 0 0 0 false),
    (.eng .va, .vred hv2 ⟨false, .rne⟩ .sum .row 1 2 3), (.eng .va, .vred hv2 ⟨false, .rne⟩ .maxsum .row 31 2 3),
    (.eng .va, .vred hv2 ⟨false, .rtz⟩ .max .row 1 2 0), (.eng .va, .vscan hv2 ⟨false, .rne⟩ .maxsum .row 1 2),
    (.eng .va, .vscan hv2 ⟨false, .rtz⟩ .min .row 1 2), (.eng .va, .vsort hv2 .s32 true false 63 2 3), (.eng .va, .vsegr hv2 .rne .sumf true 31 2 3),
    (.eng .va, .vmovX hv2 22 1 (.x 1)), (.eng .va, .vmask ⟨.w2, .va false 8 false 0 0⟩ (.not 1 2)), (.eng .va, .vloopp hv2 0 (.x 1) 0),
    (.eng .va, .vloopp hv2 0 (.cb 1) 1), (.eng .va, .vloopp ⟨.w2, .va true 0 false 0 0⟩ 0 (.x 1) 1), (.eng .va, .vloopp ⟨.w2, .va false 0 true 0 0⟩ 0 (.x 1) 1),
    (.eng .va, .vbexp ⟨.w2, .va false 1 false 0 0⟩ false 1 2), (.eng .va, .vqnt ⟨.w2, .va false 7 false 0 0⟩ 1 2 3),
    (.eng .va, .vdqnt ⟨.w2, .va false 1 false 0 0⟩ .rne 1 2 3), (.eng .ax, .aprog hn2 .fsym 1 (.r 2) 3 4), (.eng .ax, .aset hn 6 (.r 1) (.r 2)),
    (.eng .ax, .astat hn 11 1 (.r 2)), (.eng .ax, .axfer hn 22 (.r 1)), (.eng .ax, .ackr hn false 0 (.r 1) 22)] = true := by decide +kernel

/-- Kettle words: register fields above 23, pairs that begin at k23, unlisted functions, fields of no use, opcodes of no instruction (R109 to R112). -/
theorem test_refused_kettle_words :
    (![KWellFormed (.kadd 24 0 (.k 0)), KWellFormed (.kadd 0 0 (.k 24)), KWellFormed (.kfma 0 0 (.k 0) 24), KWellFormed (.kred .maxsum 23),
      KWellFormed (.krcv .maxsum 23), KWellFormed (.kld .full false 24 0 0), KWellFormed (.kst .full false 0 24 0), KWellFormed (.kcvt 0 (.s64lo 24 0)),
      KWellFormed (.nop hc)] : Fin 9 → Bool) = (fun _ => false)
    ∧ kdecode 0x1C00000000000000 = none ∧ kdecode 0x0000000000000001 = none ∧ kdecode 0x0460000000000000 = some (.kld .full false 3 0 0)
    ∧ kdecode 0x2318000000000000 = none ∧ kdecode 0x0400001800000000 = none ∧ kdecode 0x0400002000000000 = none
    ∧ kdecode 0x0408000000000000 = none ∧ kdecode 0x0C00001800000040 = none ∧ kdecode 0x6017001000000000 = none ∧ kdecode 0x3800000100000000 = none := by
  decide +kernel

/-- Code of Table 9-10 and length with which a unit refuses granules. -/
def codeOf (u : UnitId) (ws : List W32) : Option (Nat × Nat) :=
  match decode u ws with
  | .error (.illegal c l) => some (c, l)
  | _ => none

/-- Granules that are no instruction, with the code of Table 9-10: LEN 11, OP 0, an opcode of another unit, a reserved bit of XCTL, p above 15, a tag
that the unit has not, an unlisted FN, a guard on an instruction that is no push, an unlisted operation in IMM8. -/
theorem test_illegal_codes :
    codeOf .cc [0x00000137] = some (1, 1) ∧ codeOf .cc [0x00000000] = some (2, 1) ∧ codeOf .cc [0x00000210] = some (3, 1)
    ∧ codeOf .cc [0x00000135, 0x80000000] = some (4, 2) ∧ codeOf .cc [0x00000135, 0x01000000] = some (5, 2)
    ∧ codeOf .cc [0x00810C05, 0x00004000] = some (6, 2) ∧ codeOf .cc [0x20810C04] = some (7, 1)
    ∧ codeOf .cc [0x00000135, 0x02000000] = some (5, 2) ∧ codeOf (.eng .vs) [0x00000259, 0x00000003] = some (8, 2) := by decide +kernel
/-! ### States for the tests -/

/-- An access entry that lets every master do everything. -/
def openAcl : AclEntry := ⟨false, true, true, true, true, 0, 2 ^ 40 - 1, BitVec.allOnes 16⟩

/-- Cluster 0 runs a task, and its control core acts. Virtual addresses below 2^29 are HBM of D0, and the next 2^29 its scratch windows. -/
def base : State :=
  let s := loadBytes 0x10000010008 (bytes64 (pack [(0, 3 + 0x20000000000 + 7 * 2 ^ 53)])) (loadMap State.reset)
  let s := s.modDie 0 fun x => { x with acl := (List.range 128).map fun t => (64 * t, openAcl) }
  { s.modCC 0 (fun c => { c with task := some loadTask, pc := 0x40000 }) with cur := .ac 0 0, cycle := 100 }

/-- With values in s registers. -/
def withS (l : List (BitVec 6 × W64)) (s : State) : State := s.modCC 0 fun c => l.foldl (fun c x => c.setS x.1 x.2) c

/-- An engine acts, with values in its x registers. -/
def withE (e : Eid) (l : List (Nat × W64)) (s : State) : State :=
  { s.modEng 0 e (fun x => l.foldl (fun x y => x.setX y.1 y.2) { x with st := 1, upc := 0x50000 }) with cur := engAgent 0 e }

/-- The next state of a step that completes has a property. -/
def ends (r : Res) (p : State → Bool) : Bool := match r with | .next t => p t | _ => false

/-- An operation succeeds, and its answer and what it leaves have a property. -/
def okay {α : Type} (m : EStateM.Result Stop State α) (p : α → State → Bool) : Bool := match m with | .ok x s => p x s | _ => false
/-! ### Integer, predicate and floating-point instructions: the operands that the statements speak of, with results worked out by hand -/

/-- The control core acts on an instruction whose predicate is true. -/
theorem wit_CcActs : CcActs 0 hc base ∧ CcActs 0 hc2 base ∧ CcActs 255 hc { base with cur := .ac 255 0 } :=
  ⟨⟨rfl, by decide +kernel⟩, ⟨rfl, by decide +kernel⟩, rfl, by decide +kernel⟩

/-- s1 = 7, s2 = -2, s3 = 2^63, s4 = -1, s5 = 2^31. -/
def ints : State := withS [(1, 7), (2, -2), (3, 0x8000000000000000), (4, -1), (5, 0x80000000)] base

/-- The instruction puts a value into s9, and goes on at the next. -/
def gives (s : State) (i : Instr) (v : W64) : Bool := ends (exec i s) fun t => (t.ac 0).cc.s 9 == v && (t.ac 0).cc.pc == 0x40004

/-- R290 to R292, Tables 10-2 and 10-3: sums that wrap, .s32 forms, products, quotients and their corners. -/
theorem wit_IntegerResult :
    gives ints (.add hc false 9 (.r 1) (.r 2)) 5 ∧ gives ints (.add hc true 9 (.r 5) (.r 5)) 0 ∧ gives ints (.add hc true 9 (.r 5) (.r 1)) 0xFFFFFFFF80000007
    ∧ gives ints (.sub hc false 9 (.r 2) (.r 1)) (-9) ∧ gives ints (.mul hc false 9 (.r 1) (.r 2)) (-14)
    ∧ gives ints (.mulh hc 9 (.r 3) (.r 3)) 0x4000000000000000 ∧ gives ints (.mulhu hc 9 (.r 4) (.r 4)) (-2)
    ∧ gives ints (.div hc false 9 (.r 2) (.r 1)) 0 ∧ gives ints (.div hc false 9 (.r 1) (.r 2)) (-3) ∧ gives ints (.div hc false 9 (.r 3) (.r 4)) 0x8000000000000000
    ∧ gives ints (.div hc false 9 (.r 1) (.r 0)) (-1) ∧ gives ints (.rem hc false 9 (.r 1) (.r 2)) 1 ∧ gives ints (.rem hc false 9 (.r 1) (.r 0)) 7
    ∧ gives ints (.divu hc false 9 (.r 4) (.r 1)) 0x2492492492492492 ∧ gives ints (.divu hc true 9 (.r 1) (.r 0)) (-1)
    ∧ gives ints (.remu hc false 9 (.r 4) (.r 1)) 1 ∧ gives ints (.remu hc true 9 (.r 5) (.r 0)) 0xFFFFFFFF80000000 := by decide +kernel

theorem wit_IntegerResult_logic :
    gives ints (.and hc 9 (.r 1) (.r 2)) 6 ∧ gives ints (.or hc 9 (.r 1) (.r 5)) 0x80000007 ∧ gives ints (.xor hc 9 (.r 4) (.r 1)) 0xFFFFFFFFFFFFFFF8
    ∧ gives ints (.andn hc 9 (.r 1) (.r 2)) 1 ∧ gives ints (.shl hc false 9 (.r 1) (.r 4)) 0x8000000000000000 ∧ gives ints (.shl hc true 9 (.r 1) (.r 4)) 0xFFFFFFFF80000000
    ∧ gives ints (.shr hc false 9 (.r 4) (.r 1)) 0x01FFFFFFFFFFFFFF ∧ gives ints (.sha hc false 9 (.r 3) (.r 1)) 0xFF00000000000000
    ∧ gives ints (.rol hc 9 (.r 3) (.r 1)) 0x40 ∧ gives ints (.rol hc 9 (.r 3) (.r 0)) 0x8000000000000000 ∧ gives ints (.min hc 9 (.r 1) (.r 2)) (-2)
    ∧ gives ints (.minu hc 9 (.r 1) (.r 2)) 7 ∧ gives ints (.max hc 9 (.r 1) (.r 2)) 7 ∧ gives ints (.maxu hc 9 (.r 1) (.r 2)) (-2)
    ∧ gives ints (.sel hc 9 (.r 1) (.r 2) 0) 7 ∧ gives ints (.li hc 9 (.r 2)) (-2) ∧ gives ints (.lih hc 9 (.r 1)) 0x700000000
    ∧ gives ints (.lea hc 3 9 (.r 1) (.r 1)) 63 ∧ gives ints (.leaPc hc 9 (.r 1)) 0x40007 ∧ gives ints (.pmovToScalar hc 9 0) 1 ∧ gives ints (.pmovAll hc 9) 1 := by
  decide +kernel

/-- R289, R291: counts of zero and of all ones, a field that ends at bit 63, and one that would pass it. -/
theorem wit_BitFieldResult :
    gives ints (.clz hc 9 (.r 0)) 64 ∧ gives ints (.clz hc 9 (.r 1)) 61 ∧ gives ints (.ctz hc 9 (.r 3)) 63 ∧ gives ints (.popc hc 9 (.r 4)) 64
    ∧ gives ints (.bfx hc false 9 (.r 1) (.r 1)) 0 ∧ gives (withS [(6, 0x7F)] ints) (.bfx hc true 9 (.r 3) (.r 6)) (-1)
    ∧ gives (withS [(6, 0x101), (9, -1)] ints) (.bfi hc 9 (.r 0) (.r 6)) 0xFFFFFFFFFFFFFFC1 := by decide +kernel

/-- Truth value that an instruction puts into p3. -/
def truth (s : State) (i : Instr) (v : Bool) : Bool := ends (exec i s) fun t => (t.ac 0).cc.p 3 == v

/-- R293, R294, R297: signed and unsigned compares, tests, logic of predicates, NaN, and PMOV. -/
theorem wit_PredicateResults :
    truth ints (.cmp hc .lt 3 (.r 2) (.r 1)) true ∧ truth ints (.cmp hc .ltu 3 (.r 2) (.r 1)) false ∧ truth ints (.cmp hc .eq 3 (.r 1) (.r 1)) true
    ∧ truth ints (.cmp hc .ne 3 (.r 1) (.r 1)) false ∧ truth ints (.cmp hc .ge 3 (.r 1) (.r 1)) true ∧ truth ints (.cmp hc .geu 3 (.r 2) (.r 1)) true
    ∧ truth ints (.cmp hc .le 3 (.r 3) (.r 4)) true ∧ truth ints (.cmp hc .gt 3 (.r 3) (.r 4)) false ∧ truth ints (.cmp hc .leu 3 (.r 3) (.r 4)) true
    ∧ truth ints (.cmp hc .gtu 3 (.r 3) (.r 4)) false ∧ truth ints (.cmp hc .tst 3 (.r 1) (.r 2)) true ∧ truth ints (.cmp hc .ntst 3 (.r 1) (.r 3)) true
    ∧ truth ints (.plog hc .nand 3 0 1) true ∧ truth ints (.plog hc .nor 3 0 1) false ∧ truth ints (.plog hc .orn 3 1 0) false
    ∧ truth ints (.pmovToPred hc 3 (.r 3)) true ∧ truth ints (.pmovSet hc (.r 1)) false ∧ truth ints (.pmovSet hc (.r 2)) true
    ∧ truth (withS [(6, 0x7FC00000)] ints) (.fcmp hc false .un 3 (.r 6) (.r 0)) true ∧ truth ints (.fcmp hc false .eq 3 (.r 5) (.r 0)) true
    ∧ ends (exec (.cmp hc .ne 0 (.r 1) (.r 1)) ints) (fun t => (t.ac 0).cc.p 0) := by decide +kernel

/-- 1.0, 3.0, the largest FP32 and -0 in s1 to s4. -/
def floats : State := withS [(1, 0x3F800000), (2, 0x40400000), (3, 0x7F7FFFFF), (4, 0x80000000)] base

/-- R295 to R298, R212, R214: 1 + 3 = 4, 1 / 3 under two modes, overflow to infinity, -0, a square root, conversions that saturate. -/
theorem wit_FloatResults :
    gives floats (.fadd hc ⟨false, .rne⟩ 9 (.r 1) (.r 2)) 0x40800000 ∧ gives floats (.fsub hc ⟨false, .rne⟩ 9 (.r 1) (.r 2)) 0xC0000000
    ∧ gives floats (.fmul hc ⟨false, .rne⟩ 9 (.r 3) (.r 2)) 0x7F800000 ∧ gives floats (.ffma hc ⟨false, .rne⟩ 9 (.r 2) (.r 2) (.r 1)) 0x41200000
    ∧ gives floats (.fdiv hc ⟨false, .rne⟩ 9 (.r 1) (.r 2)) 0x3EAAAAAB ∧ gives floats (.fdiv hc ⟨false, .rtz⟩ 9 (.r 1) (.r 2)) 0x3EAAAAAA
    ∧ gives floats (.fsqrt hc ⟨false, .rne⟩ 9 (.r 4)) 0x80000000 ∧ gives floats (.fminmax hc false true 9 (.r 1) (.r 2)) 0x40400000
    ∧ gives floats (.fcvt hc .rne 0 9 (.r 2)) 0x4040 ∧ gives floats (.fcvt hc .rne 2 9 (.r 3)) 0x7FFFFFFFFFFFFFFF ∧ gives floats (.fcvt hc .rne 3 9 (.r 2)) 3
    ∧ gives floats (.fcvt hc .rne 4 9 (.r 1)) 0x4E7E0000 := by decide +kernel

/-- R270: a false predicate; R303: the instruction stands at no end of a body. -/
theorem wit_PredicateFalse :
    (base.ac 0).cc.enabled ⟨.w2, .cc false 1⟩ = false ∧ (base.ac 0).cc.enabled ⟨.w2, .cc true 0⟩ = false
    ∧ ends (exec (.jmp ⟨.w3, .cc true 0⟩ 64) base) (fun t => (t.ac 0).cc.pc == 0x4000C) ∧ NoLoopEnd (base.ac 0).cc 0x4000C :=
  ⟨by decide +kernel, by decide +kernel, by decide +kernel, by simp [NoLoopEnd, base]; decide +kernel⟩

/-- R299, R300, R277: a branch backward, CALL, and a target that is no multiple of 4. -/
theorem wit_ControlFlow :
    ends (exec (.br hc 0x3FFFFF) base) (fun t => (t.ac 0).cc.pc == 0x3FFFC)
    ∧ ends (exec (.jmpr hc (.r 1) (.r 0)) (withS [(1, 0x123450)] base)) (fun t => (t.ac 0).cc.pc == 0x123450)
    ∧ ends (exec (.call hc2 31 (.i8 2)) base) (fun t => (t.ac 0).cc.pc == 0x40008 && (t.ac 0).cc.s 31 == 0x40008)
    ∧ ends (exec (.ret hc 1) (withS [(1, 0x123452)] base)) (fun t => (t.ac 0).cc.task == none)
    ∧ ends (exec (.loop hc false (.r 1) 4) (withS [(1, 3)] base)) (fun t => (t.ac 0).cc.la0 && (t.ac 0).cc.sr 0x019 == 0x40014 && (t.ac 0).cc.sr 0x010 == 3)
    ∧ ends (exec (.loop hc true (.r 0) 4) base) (fun t => !(t.ac 0).cc.la1 && (t.ac 0).cc.pc == 0x40014)
    ∧ ends (exec (.nop hc) (base.modCC 0 fun c => ({ c with la0 := true }.setSr 0x019 0x40004).setSr 0x010 2 |>.setSr 0x018 0x40000))
      (fun t => (t.ac 0).cc.pc == 0x40000 && (t.ac 0).cc.sr 0x010 == 1) := by decide +kernel
/-! ### Control of the cluster -/

/-- R305, R306, R307, R309, R320: a guard, a fork of two engines, a mask with an engine that runs, pushes with and without a guard slot, RETQ with a value and without. -/
theorem wit_GuardsAndEvents :
    ends (exec (.gset hc 31 (.val (.r 1))) base) (fun t => (t.ac 0).applyGuards.cc.guard 31 == some false)
    ∧ ends (exec (.gset hc 0 (.pred 0)) base) (fun t => (t.ac 0).applyGuards.cc.guard 0 == some true)
    ∧ ends (exec (.gclr hc 31) base) (fun t => (t.ac 0).applyGuards.cc.guard 31 == none) ∧ (base.ac 0).ln.gw = []
    ∧ ends (exec (.sev hc .quad) base) (fun t => (t.ac 0).cc.evt && (t.ac 3).cc.evt && !(t.ac 4).cc.evt)
    ∧ ends (exec (.sev hc .die) base) (fun t => (t.ac 63).cc.evt && !(t.ac 64).cc.evt)
    ∧ ends (exec (.wfe hc) (base.modCC 0 fun c => { c with evt := true })) (fun t => !(t.ac 0).cc.evt && (t.ac 0).cc.wait == none)
    ∧ ends (exec (.wfe hc) base) (fun t => (t.ac 0).cc.wait.isSome) := by decide +kernel

theorem wit_ForkJoin :
    (base.ac 0).cc.task = some loadTask ∧ loadTask.entry 1 ≠ 0xFFFFFFFF
    ∧ ends (exec (.fork hc (.r 1)) (withS [(1, 31)] base)) (fun t => (t.ac 0).vl.st == 1 && (t.ac 0).ax.st == 1 && (t.ac 0).cc.pc == 0x40004)
    ∧ ends (exec (.fork hc (.r 1)) (withS [(1, 32)] base)) (fun t => (t.ac 0).cc.task == none)
    ∧ ends (exec (.join hc2 (.i8 31)) base) (fun t => (t.ac 0).cc.pc == 0x40008)
    ∧ ends (exec (.join hc2 (.i8 1)) ((withE .vl [] base).modCC 0 id |> fun s => { s with cur := .ac 0 0 })) (fun t => (t.ac 0).cc.wait.isSome) := by decide +kernel

/-- A return queue with one value. -/
def withRet : State := base.modAc 0 fun a => { a with ln := { a.ln with retq := [(2, 77)] } }

theorem wit_QueuesOfTheCluster :
    (base.ac 0).mayPush 0 0 1 ∧ (base.ac 0).mayPush 0 4 2 ∧ (base.ac 0).ln.pushWait = []
    ∧ ends (exec (.pushc hc .vl 4 60 (.r 1)) (withS [(1, 0xFFFFFFFC), (63, 9)] base)) (fun t => (t.ac 0).vl.q.map (fun q => (q.offset.toNat, q.ops, q.num)) == [(0xFFFFFFFC, [0, 0, 0, 9], 1)])
    ∧ ends (exec (.pushc hc .vl 0 0 (.r 1)) (withS [(1, 2)] base)) (fun t => (t.ac 0).cc.task == none)
    ∧ ends (exec (.pushk ⟨.w2, .slot true 31⟩ .ax 0 0) base) (fun t => (t.ac 0).ax.q.map (fun q => (q.kind, q.gen, q.gneg, q.gslot.toNat)) == [(1, true, true, 31)])
    ∧ ends (exec (.retq hc 9) withRet) (fun t => (t.ac 0).cc.s 9 == 77 && (t.ac 0).cc.sr 0x0E7 == 2 && (t.ac 0).ln.retq == [])
    ∧ ends (exec (.retq hc 9) base) (fun t => (t.ac 0).cc.wait.isSome) := by decide +kernel

/-- R315, R316, R435: a read, a number that no chapter assigns, a register that waits for VA, a write that keeps its bits, IE in and outside a handler, a class H register outside one,
and a pool that would be too full. -/
theorem wit_SystemRegisters :
    sysAssigned 0x041 ∧ sysAssigned 0xFFF = false ∧ sysWaits (base.ac 0) 0x041 false = false ∧ sysWaits ((withE .va [] base).ac 0) 0x041 false
    ∧ gives base (.sysr hc 9 0x041) 0x1010 ∧ ends (exec (.sysr hc 9 0xFFF) base) (fun t => (t.ac 0).cc.task == none)
    ∧ sysMask 0x0D4 ≠ 0 ∧ sysMask 0x001 = 0 ∧ ends (exec (.sysw hc 0x0D4 (.r 1)) (withS [(1, -1)] base)) (fun t => (t.ac 0).cc.sr 0x0D4 == 0xFFFFFFFF)
    ∧ sysClassH 0x020 ∧ ends (exec (.sysw hc 0x020 (.r 1)) base) (fun t => (t.ac 0).cc.task == none)
    ∧ ends (exec (.sysw hc 0x000 (.r 0)) (base.modCC 0 fun c => { c with h := true })) (fun t => !(t.ac 0).cc.ie)
    ∧ ends (exec (.sysw hc 0x000 (.r 0)) base) (fun t => (t.ac 0).cc.ie)
    ∧ poolAfter (base.ac 0).cc 0x080 256 ∧ poolAfter (base.ac 0).cc 0x080 512 = false
    ∧ ends (exec (.sysw hc 0x080 (.r 1)) ((withS [(1, 256)] base).modCC 0 fun c => { c with h := true })) (fun t => (t.ac 0).cc.sr 0x080 == 256) := by decide +kernel

/-- R77 to R79: a carve to 8 granules, to the same split, to 9. -/
theorem wit_CarveStarts :
    ends (exec (.pcarve hc (.r 1)) (withS [(1, 8)] base)) (fun t => (t.ac 0).cc.carve == some ⟨0, 8, 4196, none⟩)
    ∧ ends (exec (.pcarve hc (.r 0)) base) (fun t => (t.ac 0).cc.carve == none && (t.ac 0).cc.pc == 0x40004)
    ∧ ends (exec (.pcarve hc (.r 1)) (withS [(1, 9)] base)) (fun t => (t.ac 0).cc.task == none) ∧ (base.ac 0).axq = [] := by decide +kernel

/-- A handler at 0x60000 with its save area at 0x100000. -/
def withTvec (s : State) : State := s.modCC 0 fun c => (c.setSr 0x026 0x60000).setSr 0x027 0x100000

/-- R442, R450: a save area that does not translate, one that no scratch holds, and TVEC = 0. -/
theorem wit_TrapEntered_fatal :
    ends (exec (.brk hc (.r 0)) ((withTvec base).modCC 0 fun c => c.setSr 0x027 0x60000000)) (fun t => (t.ac 0).cc.entry.isSome && (t.ac 0).cc.xl.isSome)
    ∧ ends (exec (.brk hc (.r 0)) ((withTvec base).modCC 0 fun c => c.setSr 0x027 0x20000000)) (fun t => (t.ac 0).cc.task == none)
    ∧ ends (exec (.brk hc (.r 0)) base) (fun t => (t.ac 0).cc.task == none) := by decide +kernel

/-- R248, R249, R311: HALT of a drained task; with an engine busy; in a handler; NEXT that finds no coordinate. -/
theorem wit_TaskEnds :
    (base.ac 0).vl.idle ∧ (base.ac 0).vl.q = [] ∧ (base.ac 0).ln.gw = [] ∧ (releaseAll 0 (lrEndScope loadTask.lrec) base).posted = []
    ∧ ends (exec (.halt hc) base) (fun t => (t.ac 0).cc.task == none)
    ∧ ends (exec (.halt hc) { withE .vs [] base with cur := .ac 0 0 }) (fun t => (t.ac 0).cc.wait.isSome)
    ∧ ends (exec (.halt hc) (base.modCC 0 fun c => { c with h := true })) (fun t => (t.ac 0).cc.task == none)
    ∧ ends (exec (.next hc) base) (fun t => (t.ac 0).cc.task == none)
    ∧ ends (exec (.next hc) (base.modCC 0 fun c => { c with h := true })) (fun t => (t.ac 0).cc.task == none) := by decide +kernel
/-! ### Tasks, memory, timelines -/

/-- The task of a launch record with two levels: 3 by 5 coordinates, starts 10 and -1, steps 2 and 7. -/
def twoLevels : Task := { loadTask with lrec := (List.range 32).map fun i => (if i = 0 then pack [(0, 2)] else 0 : W64) }

/-- R310, R312, R425: a record that is aligned and one that is not; room in the queue; the issue permission; coordinates. -/
theorem wit_LaunchAndCoord :
    checkGranule base (.ac 0 0) .issue 0x30000020000 8 = none ∧ (release (.ac 0 0) .pkg base).posted = []
    ∧ ends (exec (.launch hc 9 (.r 1)) (withS [(1, 0x8100)] base)) (fun t => (t.die 0).launchQ == [⟨0x8100, 0, 0⟩] && (t.ac 0).cc.s 9 == 0 && (t.die 0).lseq == 1)
    ∧ ends (exec (.launch hc 9 (.r 1)) (withS [(1, 0x8080)] base)) (fun t => (t.ac 0).cc.task == none)
    ∧ gives base (.coord hc 6 9 (.r 0)) 0 ∧ gives base (.coord hc 4 9 (.r 0)) 0
    ∧ lrNlev loadTask.lrec = 0 ∧ ends (exec (.coord hc 3 9 (.r 0)) base) (fun t => (t.ac 0).cc.task == none)
    ∧ ends (exec (.coord hc 4 9 (.r 0)) (base.modCC 0 fun c => { c with resumed := true })) (fun t => (t.ac 0).cc.task == none) := by decide +kernel

/-- R252, R313, R314: the record can be written, and the task is suspended on a counter (kind 1) or yields. -/
theorem wit_TaskSuspends :
    okay (reach (.ac 0 0) .write 0x2000 256 base) (fun _ s => (s.die 0).conts.isEmpty && (releaseAll 0 (domainScope 1) s).posted.isEmpty)
    ∧ ends (exec (.suspend hc2 1 (.r 2) 3) (withS [(1, 0x2000), (2, 5), (3, 0x20), (4, 9)] base))
      (fun t => (t.ac 0).cc.task == none && (t.die 0).conts.map (fun c => (c.va.toNat, c.wkind, c.wval0.toNat)) == [(0x2000, 1, 0)])
    ∧ ends (exec (.yield hc 1 (.r 2) 0) (withS [(1, 0x2000), (2, 3)] base)) (fun t => (t.ac 0).cc.task == none && (t.die 0).conts.all (·.ready)) := by decide +kernel

/-- A unit acts: the control core, and VL with a token that it takes from VA. -/
theorem wit_UnitActs : UnitActs 0 0 hc base base ∧ ∃ s1, UnitActs 0 1 ⟨.w2, .en 0 2⟩ ((withE .vl [] base).modAc 0 fun a => { a with ln := a.ln.setTokens 2 1 1 }) s1 :=
  ⟨.inl ⟨rfl, ⟨rfl, by decide +kernel⟩, rfl⟩,
    (takeUpTo 0 .vl 2 1 2 ((withE .vl [] base).modAc 0 fun a => { a with ln := a.ln.setTokens 2 1 1 })).1,
    .inr ⟨.vl, rfl, ⟨rfl, by decide +kernel, Prod.ext rfl (by decide +kernel)⟩, fun h => nomatch h⟩⟩

/-- Bytes 1 to 8 at virtual address 0x1000. -/
def inMem : State := loadBytes 0x10000001000 [1, 2, 3, 4, 5, 6, 7, 0xF8] base

/-- R324, R325: loads of each width, across an 8-byte boundary, and past the address range; a store; a misaligned strong access; AMO and CAS that succeeds and fails. -/
theorem wit_LoadResult :
    gives (withS [(1, 0x1000)] inMem) (.ld hc 3 9 1 (.r 0)) 0xF807060504030201 ∧ gives (withS [(1, 0x1007)] inMem) (.ld hc 0 9 1 (.r 0)) (-8)
    ∧ gives (withS [(1, 0x1006)] inMem) (.ld hc 5 9 1 (.r 0)) 0xF807 ∧ gives (withS [(1, 0x1004)] inMem) (.ld hc 3 9 1 (.r 0)) 0xF8070605
    ∧ ends (exec (.ld hc 3 9 1 (.r 0)) (withS [(1, 0x80000000000000)] inMem)) (fun t => (t.ac 0).cc.task == none) := by decide +kernel

theorem wit_StoreJoins :
    okay (reach (.ac 0 0) .write 0x1FFC 8 base) (fun ps _ => ps.all fun p => (mmioOf 0 p.1).isNone)
    ∧ ends (exec (.st hc2 3 1 (.r 0) 2) (withS [(1, 0x1FFC), (2, 0x0102030405060708)] base))
      (fun t => pendByte (t.agent (.ac 0 0)).pend 0x10000001FFC == some 8 && pendByte (t.agent (.ac 0 0)).pend 0x10000002003 == some 1 && t.mem == base.mem) := by decide +kernel

theorem wit_StrongAccess :
    okay (reach (.ac 0 0) .read 0x1000 8 inMem) (fun ps _ => ps.map (fun p => (p.1, p.2.1)) == [(0x10000001000, 8)])
    ∧ gives (withS [(1, 0x1000)] inMem) (.lds hc2 3 ⟨false, 1, .pkg⟩ 9 1 (.r 0)) 0xF807060504030201 = false
    ∧ ends (exec (.lds hc2 3 ⟨false, 1, .pkg⟩ 9 1 (.r 0)) (withS [(1, 0x1000)] inMem)) (fun t => (t.ac 0).cc.s 9 == 0xF807060504030201)
    ∧ ends (exec (.sts hc2 2 ⟨false, 2, .die⟩ 1 (.r 0) 2) (withS [(1, 0x1004), (2, 0x11223344)] inMem)) (fun t => memByte t 0x10000001004 == 0x44 && memByte t 0x10000001007 == 0x11)
    ∧ ends (exec (.lds hc2 3 ⟨false, 0, .ac⟩ 9 1 (.r 0)) (withS [(1, 0x1004)] inMem)) (fun t => (t.ac 0).cc.task == none) := by decide +kernel

theorem wit_AtomicResult :
    ends (exec (.amo hc2 .add ⟨true, 0, .pkg⟩ 9 1 2) (withS [(1, 0x1000), (2, 1)] inMem)) (fun t => (t.ac 0).cc.s 9 == 0xF807060504030201 && memByte t 0x10000001000 == 2)
    ∧ ends (exec (.amo hc2 .max ⟨false, 0, .ac⟩ 9 1 2) (withS [(1, 0x1004), (2, 1)] inMem)) (fun t => (t.ac 0).cc.s 9 == 0xFFFFFFFFF8070605 && memByte t 0x10000001004 == 1)
    ∧ ends (exec (.cas hc2 ⟨true, 0, .pkg⟩ 9 1 2) (withS [(1, 0x1000), (9, 0xF807060504030201)] inMem)) (fun t => memByte t 0x10000001000 == 0)
    ∧ ends (exec (.cas hc2 ⟨true, 0, .pkg⟩ 9 1 2) (withS [(1, 0x1000)] inMem)) (fun t => memByte t 0x10000001000 == 1 && (t.ac 0).cc.s 9 == 0xF807060504030201)
    ∧ ends (exec (.cas hc2 ⟨true, 0, .pkg⟩ 9 1 2) (withS [(1, 0x1004)] inMem)) (fun t => (t.ac 0).cc.task == none) := by decide +kernel

/-- R140, R141: an agent with a byte that it has not released, and one that has released a write: the newest of its location, in its view, with another in its history. -/
def written : State := strongStore (.ac 0 0) .ac false 0x10000001000 [9] inMem

theorem wit_MemoryViews :
    pendByte ((plainStore (.ac 0 0) false 0 0x10000001000 [7] inMem).agent (.ac 0 0)).pend 0x10000001000 = some 7
    ∧ (inMem.agent (.ac 0 0)).pend = [] ∧ (inMem.versions 0x10000001000).any (fun v => v.present .home || v.id == 0) ∧ Memory.wf inMem.mem := by decide +kernel

theorem wit_ReleaseAcquire :
    Memory.wf written.mem ∧ smSorted 0 written.hist ∧ smSorted 0 (written.agent (.ac 0 0)).view ∧ shares .die (.ac 0 0) (.ac 63 1) ∧ (written.agent (.ac 0 0)).pend = []
    ∧ written.watch = [] ∧ (smFind written.hist 0x10000001000).any (fun l => match l with
      | v :: r => v.id != 0 && r.all (fun w => w.id != v.id) && smGet 0 (written.agent (.ac 0 0)).view 0x10000001000 == v.id
      | [] => false) := by decide +kernel

/-- R328 to R331: a phase, a fence and maintenance of a range that holds nothing; a length of 2^40; TLREAD; TLWAIT that passes, waits, and asks too much. -/
theorem wit_MaintenanceAndTimelines :
    ends (exec (.phase hc ⟨false, 3, .pkg⟩) base) (fun t => (t.ac 0).cc.pc == 0x40004) ∧ ends (exec (.fence hc .fab) base) (fun t => (t.ac 0).cc.pc == 0x40004)
    ∧ ends (exec (.pref hc true 1 (.r 2)) base) (fun t => (t.ac 0).cc.pc == 0x40004)
    ∧ ends (exec (.clean hc false 1 (.r 2)) (withS [(1, 0x1000), (2, 256)] inMem)) (fun t => t.mem == inMem.mem)
    ∧ ends (exec (.inval hc true 1 (.r 2)) (withS [(1, 0x1000), (2, 1)] inMem)) (fun t => t.mem == inMem.mem)
    ∧ ends (exec (.inval hc true 1 (.r 2)) (withS [(2, 0x10000000000)] base)) (fun t => (t.ac 0).cc.task == none) ∧ (∀ l < 4, base.holdsLine (.ac 0 0) l = false)
    ∧ gives base (.tlread hc true 9 7) 0 ∧ ends (exec (.tlwait hc .fab 5 (.r 0)) base) (fun t => (t.ac 0).cc.pc == 0x40004)
    ∧ ends (exec (.tlwait hc .ac 0 (.r 1)) (withS [(1, 1)] (base.modAc 0 fun a => { a with ln := { a.ln with tlIssue := [(0, 1)] } }))) (fun t => (t.ac 0).cc.wait.isSome)
    ∧ ends (exec (.tlwait hc .ac 0 (.r 1)) (withS [(1, 1)] base)) (fun t => (t.ac 0).cc.task == none) := by decide +kernel
/-! ### Copies and pots -/

/-- Source 0x4000, destination 0x3000, record 0x2000, 64 bytes: the block of a CPY in s8 to s11, and of a CPYT of one row in s8 to s13. -/
def copyState : State :=
  withS [(8, 0x3000), (9, 0x4000), (10, 0x2000), (11, 64)] (loadBytes 0x10000004000 [1, 2, 3, 4, 5, 6, 7, 8] base)

/-- R332, R333: a copy of one chunk and a copy of 2 rows start; a length that is no multiple of 64 is illegal. -/
theorem wit_CopyStarts :
    (match copyOperands (copyState.ac 0).cc (.cpy hc false 20 8) with
      | some (_, fab, d, x) => !fab && d == 20 && okay (probeRanges (.ac 0 6) (copyRanges fab x) (release (.ac 0 0) .pkg copyState))
        (fun ps _ => !sharesStorage 0 ((ps.take x.rows).flatMap id) (((ps.drop x.rows).take x.rows).flatMap id))
      | none => false) = true
    ∧ (release (.ac 0 0) .pkg copyState).posted = []
    ∧ ends (exec (.cpy hc false 20 8) copyState) (fun t => (t.ac 0).cc.s 20 == 1 && (t.ac 0).io.copies.length == 1 && memByte t 0x10000003000 == 0)
    ∧ ends (exec (.cpyt hc false 20 8) (withS [(11, 0x200000040), (12, 128), (13, 256)] copyState)) (fun t => (t.ac 0).io.copies.map (·.len) == [128])
    ∧ ends (exec (.cpy hc true 20 8) copyState) (fun t => (t.ac 0).io.copies.map (fun c => (c.fab, c.num, c.len)) == [(true, 1, 64)])
    ∧ ends (exec (.cpy hc false 20 8) (withS [(11, 65)] copyState)) (fun t => (t.ac 0).cc.task == none) := by decide +kernel

/-- A copy that has started, and one that has moved its only chunk. -/
def copying : State := (match exec (.cpy hc false 20 8) copyState with | .next t => t | _ => copyState)

/-- R334: the chunk moves, its bit is set, and the copy completes on its timeline. -/
theorem wit_CopyMoves :
    (match (copying.ac 0).io.copies[0]? with
      | some c => c.cause == 0 && !c.fab && decide (c.done < c.used) && !copyHeld 0 [] c && (copying.fab.all fun x => x.item != .copy 0 c.num)
        && !c.wrote && (copyRefused copying 0 c false).isNone && (copyRefused copying 0 c true).isNone
      | none => false) = true
    ∧ ends (exec (.copyChunkDone 0 0) copying) (fun t => memByte t 0x10000003000 == 1 && memByte t 0x10000003007 == 8 && memByte t 0x10000002000 == 1
      && ends (exec (.copyComplete 0 0) t) (fun u => (u.ac 0).io.copies.isEmpty && (u.ac 0).ln.tlDone == [(5, 1)])) := by decide +kernel

/-- R336, R338: the five requests are queued; the 17th pour waits. -/
theorem wit_PotQueued :
    (let s := withS [(1, 0x3000), (2, 0x4000), (3, 5)] base
     ends (exec (.pour hc2 false 9 1 2 (.r 3)) s) (fun t => (t.die 0).potQ.map (fun r => (r.kind, r.desc.toNat, r.src.toNat)) == [(.pour, 0x3000, 0x4000)]
       && (t.ac 0).cc.s 9 == 1 && (t.ac 0).ln.issueCount 7 == 1)
     && ends (exec (.pjoin hc 9 1 (.r 3)) s) (fun t => (t.die 0).potQ.map (·.kind) == [.join])
     && ends (exec (.pleave hc 9 1 (.r 3)) s) (fun t => (t.die 0).potQ.map (·.kind) == [.leave])
     && ends (exec (.pclose hc 9 1) s) (fun t => (t.die 0).potQ.map (·.kind) == [.close])
     && ends (exec (.pcloseRetire hc 9 1) s) (fun t => (t.die 0).potQ.map (·.kind) == [.retire])
     && ends (exec (.pour hc2 false 9 1 2 (.r 3)) (s.modAc 0 fun a => { a with io := { a.io with pours := List.replicate 16 1 } })) (fun t => (t.ac 0).cc.wait.isSome)) = true := by decide +kernel

/-- R335, R337: the record's bit, an error, no bit yet, and a time that has passed; a tag reached and one not reached. -/
theorem wit_RecordWaits :
    (let s := withS [(1, 0x2000), (2, 10), (3, 1), (4, 0)] base
     ends (exec (.cpyw hc2 false 9 1 (.r 2) 3) (loadBytes 0x10000002000 [1] s)) (fun t => (t.ac 0).cc.s 9 == 1)
     && ends (exec (.cpyw hc2 false 9 1 (.r 2) 3) (loadBytes 0x10000002017 [0x20] s)) (fun t => (t.ac 0).cc.s 9 == 2)
     && ends (exec (.cpyw hc2 false 9 1 (.r 2) 3) s) (fun t => (t.ac 0).cc.wait.isSome)
     && ends (exec (.cpyw hc2 false 9 1 (.r 4) 3) s) (fun t => (t.ac 0).cc.s 9 == 0 && (t.ac 0).cc.pc == 0x40008)
     && ends (exec (.pwait hc false 9 1 (.r 3)) (loadBytes 0x10000002000 [7, 0, 0, 0, 1] s)) (fun t => (t.ac 0).cc.s 9 == 0x100000007)
     && ends (exec (.pwait hc false 9 1 (.r 3)) s) (fun t => (t.ac 0).cc.wait.isSome)
     && ends (exec (.pwait hc false 9 3 (.r 3)) s) (fun t => (t.ac 0).cc.task == none)) = true := by decide +kernel
/-- A SUMF pot of two members at virtual address 0x3000 of die 0, with a deadline of 50 cycles; word 7 is word. -/
def aPot (need : Nat) : Pot :=
  ⟨0x3000, 0x10000003000, [pack [(61, 2), (57, 1), (40, 2), (32, 2), (0, 4)], 0, 0, 0, 0, 0, 0, 50],
    [[2 ^ 63], [2 ^ 63]], 0, 0, 0, need, 3, [], 0, false, [], [], 0, 0, [], false⟩

/-- A pour of slot 0 into round 0. -/
def aPour (ready : Bool) (ac : Nat) : PotReq :=
  ⟨.pour, 0x3000, 0x10000003000, some 0x10000003000, 0x4000, false, none, ready, false, [⟨ac, 1, 0, 0, 0, [], 0, false⟩], 5⟩

/-- R173 to R178, R191, R498. -/
theorem wit_PotEvents :
    (let s := base.modDie 0 fun x => { x with pots := [aPot 2] }
     let moved := loadBytes 0x10000010000 (bytes64 (pack [(0, 3 + 0x12000000000 + 7 * 2 ^ 53)])) base
     let held := s.modDie 0 fun x => { x with potNow := some (aPour true 0) }
     (match region 0 0x12000003000 with | .hbm home _ _ => home == 1 | _ => false)
     && ends (exec (.pourArrive 0 none) ((moved.modDie 0 fun x => { x with potQ := [aPour false 0] }).modDie 1 fun x => { x with acl := (base.die 0).acl }))
        (fun t => (t.die 0).potQ.isEmpty && (t.die 1).potIn.map (·.pa) == [0x12000003000])
     && (aPot 2).verdict ⟨0, 1, 0, 0, 0, [], 0, false⟩ == .fill
     && ends (exec (.pourAccept 0) held) (fun t => (t.pot? 0 0x10000003000).any fun q => q.round == 0 && q.contrib.length == 1)
     && ends (exec (.pourAccept 0) (held.modDie 0 fun x => { x with pots := [aPot 1] })) (fun t => (t.pot? 0 0x10000003000).any fun q => q.round == 1 && q.closed == 1 && q.contrib.isEmpty && q.closing.length == 1)
     && ends (exec (.potDeadline 0 0x3000) s) (fun t => (t.pot? 0 0x10000003000).any fun q => q.round == 1 && q.closing.map (fun c => (c.tag, c.short)) == [(0, true)])
     && ends (exec (.potDeadline 0 0x3000) { s with cycle := 49 }) (fun t => (t.pot? 0 0x10000003000).any fun q => q.round == 0)
     && ends (exec (.potOutcomeWrite 0 0x3000) (s.modDie 0 fun x => { x with pots := [{ aPot 2 with
          closing := [⟨0, false, false, [], 0, [], [], [(0, 4)], 1, 0, 1, [], 0, [], 3, []⟩] }] })) (fun t => (t.pot? 0 0x10000003000).any (fun q => q.closing.isEmpty) && (t.ac 0).ln.tlDone == [(7, 4)])
     && ends (exec (.pourSourceDrop 0) (s.modDie 0 fun x => { x with potIn := [aPour false 0], acl := [] })) (fun t => (t.die 0).potIn.isEmpty && (t.pot? 0 0x10000003000).any fun q => q.integ == 1)
     && ends (exec (.fabricCombine 0 0 1) (s.modDie 0 fun x => { x with potIn := [aPour true 256, aPour true 257], pots := [{ aPot 2 with desc := [pack [(61, 1), (40, 2), (32, 2), (0, 4)]] }] })) (fun t => (t.die 0).potIn.map (fun r => (r.sum, r.parts.length)) == [(10, 2)])
     && ends (exec (.stepGateWrite 0 3 2) s) (fun t => t.reg 0 0x81018 == 2) && ends (exec (.stepGateWrite 0 3 7) s) (fun t => t.reg 0 0x81018 == 0)) = true := by decide +kernel
/-! ### Vector loads and stores, rings and the fabric -/

/-- A value that VL puts into v32. -/
def loads (s : State) (i : Instr) (v : VWord) : Bool := ends (exec i s) fun t => (t.ac 0).vreg 32 == v && (t.ac 0).vl.st == 1
/-- An engine stops with a cause. -/
def stops (e : Eid) (s : State) (i : Instr) (cause : Nat) : Bool := ends (exec i s) fun t => ((t.ac 0).eng e).st == 3 && ((t.ac 0).eng e).fcause == cause

/-- An FP32 tensor of one element, 1.5 at 0x1000, described by entry 256 of the table at 0; an index 1 at 0x1100; scratch of 64 KiB. -/
def tensors : State :=
  let s := loadBytes 0x10000001000 [0, 0, 0xC0, 0x3F] base
  let s := loadBytes 0x10000001100 [1, 0, 0, 0] s
  let s := loadBytes 0x10000004000 (bytes64 0x1000 ++ bytes64 0x8000 ++ bytes64 0 ++ bytes64 0x100000001 ++ bytes64 0x100000001 ++ bytes64 0 ++ bytes64 0 ++ bytes64 0) s
  s.modCC 0 fun c => c.setSr 0x0C0 (c.sr 0x0C0 + 1)

/-- R341 to R344: one row, a row through an index, rows past the range and misaligned, a copy into scratch, an element of a tensor. -/
theorem wit_VectorLoads :
    loads (withE .vl [(1, 0x1000)] tensors) (.vld hn2 1 32 1 (.x 0)) 0x3FC00000
    ∧ loads (withE .vl [(1, 0xFC0), (2, 64), (3, 0x1100)] tensors) (.vldg hn2 1 32 1 (.x 2) 3) 0x3FC00000
    ∧ stops .vl (withE .vl [(1, 0x80000000000000)] tensors) (.vld hn2 1 32 1 (.x 0)) 3
    ∧ stops .vl (withE .vl [(1, 0x1002)] tensors) (.vld hn2 1 32 1 (.x 0)) 4
    ∧ ends (exec (.vldm hn2 1 2 (.x 3)) (withE .vl [(1, 0x1000), (2, 0x20000000), (3, 64)] tensors)) (fun t => (t.ac 0).vl.st == 1 && pendByte (t.agent (.ac 0 1)).pend 0x20000000002 == some 0xC0)
    ∧ loads (withE .vl [(1, 256)] tensors) (.vldb ⟨.w3, .en 0 0⟩ ⟨false, .rne⟩ 32 1 2 3 0) 0x3FC00000 := by decide +kernel

/-- R345, R346, R368: v32 holds 7; a row is stored plainly and through an index, and added atomically at its kettle. -/
theorem wit_VectorStores :
    (let s := (withE .vs [(1, 0x1000), (2, 64), (3, 0x1100)] tensors).modAc 0 fun a => { a with vec := a.vec.setV (a.cc.phys 32) 7 }
     ends (exec (.vst hn2 1 32 1 (.x 0)) s) (fun t => (t.ac 0).vs.st == 1 && pendByte (t.agent (.ac 0 3)).pend 0x10000001000 == some 7)
     && ends (exec (.vsts hn2 1 32 1 (.x 2) 3) s) (fun t => pendByte (t.agent (.ac 0 3)).pend 0x10000001040 == some 7)
     && ends (exec (.vsta hn2 .sadd 1 32 1 2 3 0) s) (fun t => (t.ac 0).vs.st == 1 && t.kettles.map (fun k => k.2.atomq.map (·.pa)) == [[0x10000001040]])
     && stops .vs (withE .vs [(1, 0x1020), (3, 0x1100)] tensors) (.vsta hn2 .sadd 1 32 1 2 3 0) 4) = true := by decide +kernel

/-- A producer's descriptor at 0x20000000 with one slot of 128 bytes and one consumer, whose copy is at 0x20004000; mask is its MASK. -/
def ring (mask : Nat) : State :=
  let s := loadBytes 0x20000000000 (bytes64 (pack [(32, 1), (16, 1), (0, 1)]) ++ bytes64 (pack [(32, 3)])) tensors
  let s := loadBytes 0x20000000040 (bytes64 (pack [(63, 1), (0, 0x20000004000)])) s
  let s := loadBytes 0x20000000100 (leBytes 2 mask) s
  loadBytes 0x20000004000 (bytes64 (pack [(0, 0x20000000000)]) ++ bytes64 (pack [(32, 3)]) ++ bytes64 (pack [(32, 1), (16, 1)])) s

/-- R347: a put of no data lands with its header; it waits while MASK is set; a descriptor with a reserved bit is refused. -/
theorem wit_Rings_put :
    ends (exec (.rput hn2 1 2 4) (withE .vs [(1, 0x20000000), (2, 0x1000), (4, 0x550001), (5, 0)] (ring 0)))
      (fun t => memByte t 0x20000004082 == 0x55 && memByte t 0x20000004084 == 3 && memByte t 0x20000000100 == 1 && memByte t 0x2000000000C == 4)
    ∧ ends (exec (.rput hn2 1 2 4) (withE .vs [(1, 0x20000000), (2, 0x1000), (5, 4)] (ring 1))) (fun t => (t.ac 0).vs.wait.isSome)
    ∧ stops .vs (withE .vs [(1, 0x20000000), (2, 0x1000), (5, 4)] (loadBytes 0x20000000007 [1] (ring 0))) (.rput hn2 1 2 4) 0x0F := by decide +kernel

/-- R348, R349: a get waits for the header, takes it once it is there, and frees the slot. -/
theorem wit_Rings_get :
    (let s := withS [(1, 0x20004000)] (ring 1)
     ends (exec (.rwait hc 8 1) s) (fun t => (t.ac 0).cc.wait.isSome)
     && ends (exec (.rwait hc 8 1) (loadBytes 0x20000004080 [0x55, 0, 0, 0, 3, 0, 0, 0, 4] s)) (fun t => (t.ac 0).cc.s 8 == 0x300000055 && (t.ac 0).cc.s 9 == 4)
     && ends (exec (.rfree hc 1) s) (fun t => memByte t 0x20000000100 == 0 && memByte t 0x2000000400C == 4)
     && ends (exec (.rfree hc 1) (s.modAc 0 fun a => { a with ln := { a.ln with tlIssue := [(0, 1)] } })) (fun t => (t.ac 0).cc.wait.isSome && memByte t 0x20000000100 == 1)) = true := by decide +kernel

/-- R468 to R471, Table 16-3: a put, a probe, a free and a refusal through the exports of port 0; an acknowledgement and refusals of what this part sent; a port's state; a route that is gone. -/
theorem wit_FabricEvents :
    (let s := (inMem.setReg 0 0xC010 (pack [(63, 1), (0, 0x1000)])).setReg 0 0xC018 0x1000
     let sent := fun (i : FabItem) => { s with fab := [⟨i, 1, 0x1000000000000, match i with | .pour n num => .pour .pour 0x3000 false [⟨n, num, 0, 0, 0, [], 0, false⟩] 0 0 | _ => .write [] false, some 0, false⟩] }
     let cp : Copy := ⟨4, true, 64, [], [], [], 0, 0, false, 0, 0, 0, 0⟩
     ingressVa s 0 0x100000010 true 2 == some 0x1010 && ingressVa s 0 0x200000010 true 2 == none && ingressVa s 0 0x100000FFF true 2 == none
     && ends (exec (.fabricIngressWrite 0 0x100000010 true false [5, 6]) s) (fun t => memByte t 0x10000001010 == 5 && memByte t 0x10000001011 == 6)
     && ends (exec (.fabricIngressWrite 0 0x200000010 true true [5, 6]) s) (fun t => t.mem == s.mem && t.hist == s.hist)
     && ends (exec (.fabricRingProbe 0 1 0 64) s) (fun t => t.mem == s.mem)
     && ends (exec (.fabricRingFree 0 1 0 2 0) (loadBytes 0x10000001100 [0x14] s)) (fun t => memByte t 0x10000001100 == 0x10)
     && ends (exec (.fabricAck 0) (sent (.copy 0 4))) (fun t => t.fab.map (·.acked) == [true])
     && ends (exec (.fabricAck 0) (sent (.pour 0 4))) (fun t => t.fab.isEmpty && (t.ac 0).ln.tlDone == [(7, 4)])
     && ends (exec (.fabricNack 0 1 2) ((sent (.put 0)).modEng 0 .vs fun x => { x with st := 1 })) (fun t => (t.ac 0).vs.st == 3 && (t.ac 0).vs.fcause == 6 && t.fab.isEmpty)
     && ends (exec (.fabricNack 0 1 2) ((sent (.copy 0 4)).modAc 0 fun a => { a with io := { a.io with copies := [cp] } })) (fun t => (t.ac 0).io.copies.map (fun c => (c.cause, c.acc0, c.acc1)) == [(0x10, 1, 2)])
     && ends (exec (.fabricNack 0 1 2) (sent (.pour 0 4))) (fun t => t.fab.isEmpty && (t.ac 0).ln.tlDone == [(7, 4)])
     && ends (exec (.fabricLinkChange 31 true) s) (fun t => (t.reg 3 0xB008).getLsbD 7) && ends (exec (.fabricLinkChange 0 false) s) (fun t => !(t.reg 0 0xB008).getLsbD 0)
     && !s.routeValid 0 1 && ends (exec (.nodeRouteInvalid 1) ((sent (.put 0)).modEng 0 .vs fun x => { x with st := 1 })) (fun t => (t.ac 0).vs.fcause == 6 && t.fab.isEmpty)) = true := by decide +kernel
/-! ### Kettles -/

/-- A command of cluster 0 whose program is prog: range 0 holds 4 KiB from offset 0 for reading and writing; CLIP is 2.0. -/
def kcmd (prog : List W64) : KCmd :=
  ⟨0, 4, 0, [0, 0, 0, 0, 0, pack [(62, 3), (32, 64)]], [9, 8], some 0x40000000, prog, none, 0, []⟩

/-- Kettle 0 acts: lane 0 of k1 is 3.0, lane 0 of k2 is -5.0 and lane 1 is infinite, and j1 is o. -/
def kettle (o : W64) (prog : List W64) : State :=
  { (inMem.modKettle 0 fun k => ((({ k with run := some (kcmd prog) }).setK 1 0x40400000).setK 2 0x7F800000C0A00000).setJ 1 o) with cur := .kettle 0 }

/-- The lanes 0 and 1 that an instruction puts into k3, and the counters. -/
def lanes2 (i : Instr) (a b nf cl : Nat) : Bool := ends (exec i (kettle 127 [])) fun t =>
  let k := t.kettle 0
  lane (k.kr 3) 0 == a && lane (k.kr 3) 1 == b && k.nfcnt == nf && k.clcnt == cl && k.kpc == 1 && k.kr 1 == 0x40400000

/-- R116 to R121: every lane-wise instruction. -/
theorem wit_KettleLanes :
    (lanes2 (.kadd 3 1 (.k 2)) 0xC0000000 0x7F800000 0 0 && lanes2 (.ksub 3 1 (.k 2)) 0x41000000 0xFF800000 0 0 && lanes2 (.kmul 3 1 (.imm 0x40000000)) 0x40C00000 0 0 0
      && lanes2 (.kfma 3 1 (.k 1) 2) 0x40800000 0x7F800000 0 0 && lanes2 (.kmin 3 1 (.k 2)) 0xC0A00000 0 0 0 && lanes2 (.kmax 3 1 (.k 2)) 0x40400000 0x7F800000 0 0
      && lanes2 (.kabs 3 2) 0x40A00000 0x7F800000 0 0 && lanes2 (.kcmp .lt 3 1 (.k 2)) 0 0xFFFFFFFF 0 0 && lanes2 (.ksel 3 1 2 1) 0x40400000 0x7F800000 0 0
      && lanes2 (.kcvt 3 (.s32f32 2)) 0xFFFFFFFB 0x7FFFFFFF 0 1 && lanes2 (.kcvt 3 (.b32j 1)) 127 127 0 0 && lanes2 (.kqnt 3 2 1) 0xFF800001 0 1 1
      && lanes2 (.kiadd .w 3 1 2) 0x00E00000 0x7F800000 0 0 && lanes2 (.knf 3 2) 0 0xFFFFFFFF 1 0) = true := by decide +kernel

/-- R120: KCLIP past the limit, and without one. -/
theorem wit_KettleLanes_clip :
    lanes2 (.kclip 3 2) 0xC0000000 0x40000000 0 2 ∧ ends (exec (.kclip 3 2) ((kettle 0 []).modKettle 0 fun k => { k with run := some { kcmd [] with clip := none } }))
      (fun t => (t.kettle 0).run.isNone) := by decide +kernel

/-- What an instruction of kettle 0 leaves, when the kettle goes on at pc. -/
def kgoes (s : State) (i : Instr) (pc : Nat) (p : Kettle → Bool) : Bool := ends (exec i s) fun t => (t.kettle 0).kpc == pc && (t.kettle 0).run.isSome && p (t.kettle 0)

/-- R113, R114: the memory instructions. Offset 0x1000 lies past the range, and 0x20 is misaligned. -/
theorem wit_KettleMemory :
    (let s := (kettle 0x200 []).modKettle 0 fun k => { k with run := some { kcmd [] with words := [0, 0, 0, 0, 0, pack [(62, 3), (32, 0x200)]] } }
     kgoes s (.kld .bf16 true 3 1 0xE00) 1 (fun k => lane (k.kr 3) 0 == 0x02010000 && k.jr 1 == 0x280)
     && ends (exec (.kst .bf16 false 1 1 0xE00) s) (fun t => memByte t 0x10000001000 == 0x40 && memByte t 0x10000001001 == 0x40 && (t.kettle 0).kpc == 1)
     && ends (exec (.kld .bf16 false 3 1 0xE20) s) (fun t => (t.kettle 0).run.isNone) && ends (exec (.kst .full false 1 1 0x7E00) s) (fun t => (t.kettle 0).run.isNone)
     && ends (exec (.kflag true 1 1 0xE08) s) (fun t => memByte t 0x10000001009 == 2 && (t.kettle 0).progress == 0x200)
     && kgoes s .katom 1 (fun k => k.atomq.isEmpty)) = true := by decide +kernel

/-- R114, R135: the first wave of an all-bank form, of one bank; an address whose bank bits are not zero. -/
theorem wit_KettleMemory_banks :
    (let s := (kettle 0 []).modKettle 0 fun k => { k with run := some { kcmd [] with words := [0, 0, 0, 0, 0, pack [(62, 3), (32, 0xFFFFFF)], pack [(62, 3), (32, 0xFFFFFF), (0, 0x40000000)]] } }
     kgoes (s.setReg 0 0x10008 1) (.kldAbSum false 3 1 0) 0 (fun k => k.wave.isSome) && ends (exec (.kstAb false 1 1 0x400) s) (fun t => (t.kettle 0).run.isNone)) = true := by decide +kernel

/-- R115, R122, R127 to R130: addresses, loops, the end of a command, the tree. -/
theorem wit_KettleControl :
    (let prog := [kencode (.kloop (.imm 2)), kencode .knop, kencode .kend, kencode .khalt]
     let s := kettle 5 prog
     let tree := { s.modKettle 0 (fun k => { k with run := some { kcmd prog with session := 3 } }) with sessions := [⟨3, 1, [], [0], [], []⟩] }
     kgoes s .knop 1 (fun _ => true) && kgoes s (.kag 2 (.mul 1 0xFFFFFFFF)) 1 (fun k => k.jr 2 == -5) && kgoes s (.kag 2 (.shl 1 3)) 1 (fun k => k.jr 2 == 40) && kgoes s (.kag 2 (.prm 1)) 1 (fun k => k.jr 2 == 8)
     && kgoes s (.kloop (.imm 2)) 1 (fun k => k.loops == [(1, 2, 2)]) && kgoes s (.kloop (.imm 0)) 3 (fun k => k.loops.isEmpty)
     && kgoes (s.modKettle 0 fun k => { k with loops := [(1, 2, 2)], kpc := 2 }) .kend 1 (fun k => k.loops == [(1, 2, 1)]) && kgoes (s.modKettle 0 fun k => { k with loops := [(1, 2, 1)], kpc := 2 }) .kend 3 (fun k => k.loops.isEmpty)
     && ends (exec .khalt s) (fun t => (t.kettle 0).run.isNone)
     && ends (exec (.kred .sum 1) tree) (fun t => (t.kettle 0).contributed == 1 && (t.sessions.map fun x => x.contrib.length) == [1])) = true := by decide +kernel

/-- A block at 0x1000 for the program HALT at 0x2000, with its parameters at 0x3000 and its status records at 0x4000. -/
def nmBlock : List W64 := [0x2000, 0x3000, 0x4000, 1, 0, pack [(62, 3), (32, 64)], 0, 0, 0, 0, 0, 0, 0, 0, 0, 0]
def nmState : State := withS [(1, 0x1000), (2, 1)] (loadBytes 0x10000002000 (bytes64 (kencode .khalt)) (loadBytes 0x10000001000 (nmBlock.flatMap bytes64) base))

/-- R339, R340, R101: an NMRUN of kettle 0; a misaligned block, an empty set; a fence with nothing outstanding, one behind a store, and one behind an atomic. -/
theorem wit_NearMemory_issue :
    ends (exec (.nmrun hc2 9 1 2 (.r 0)) nmState) (fun t => (t.ac 0).cc.s 9 == 1 && t.kissue.map (fun e => (e.num, e.die, e.stage, e.prog.length)) == [(1, 0, 0, 1)])
    ∧ ends (exec (.nmrun hc2 9 1 2 (.r 0)) (withS [(1, 0x1040)] nmState)) (fun t => (t.ac 0).cc.task == none) ∧ ends (exec (.nmrun hc2 9 1 2 (.r 0)) (withS [(2, 0)] nmState)) (fun t => (t.ac 0).cc.task == none)
    ∧ ends (exec (.nmfence hc .pkg) base) (fun t => (t.ac 0).cc.pc == 0x40004)
    ∧ ends (exec (.nmfence hc .pkg) (base.modAc 0 fun a => { a with ln := { a.ln with tlIssue := [(2, 1)] } })) (fun t => (t.ac 0).cc.wait.isSome)
    ∧ ends (exec (.nmfence hc .pkg) ((base.modAc 0 fun a => { a with io := { a.io with vsta := 1 } }).modKettle 0 fun k => { k with atomq := [⟨0x10000001000, .atom .sadd [] 1 0 1⟩] })) (fun t => (t.ac 0).cc.wait.isSome) := by decide +kernel

/-- A command of kettle 0 in the issue path. -/
def issued (stage : Nat) (words : List W64) : State := { inMem with kissue := [⟨0, 4, 0, 1, words, [], none, [kencode .khalt], [], none, stage, 0, []⟩] }

/-- R98 to R106, R134: a malformed block, a sound one, its pass and its delivery; its start and its end; an atomic that arrives; an abort; a result of the tree. -/
theorem wit_NearMemory_events :
    (let run := fun (c : KCmd) => (inMem.modKettle 0 fun k => { k with run := some c })
     ends (exec (.kettleGateRead 0) (issued 0 [])) (fun t => t.kissue.isEmpty) && ends (exec (.kettleGateRead 0) (issued 0 nmBlock)) (fun t => t.kissue.map (·.stage) == [1])
     && ends (exec (.kettleSlicePass 0) (issued 1 nmBlock)) (fun t => t.kissue.map (·.stage) == [2])
     && ends (exec (.kettleDeliver 0) (issued 2 nmBlock)) (fun t => t.kissue.isEmpty && (t.kettle 0).queue.map (·.num) == [4])
     && ends (exec (.kettleCommandStart 0) (inMem.modKettle 0 fun k => { k with queue := [kcmd []], kpc := 7, nfcnt := 3 })) (fun t => (t.kettle 0).run.isSome && (t.kettle 0).kpc == 0 && (t.kettle 0).nfcnt == 0)
     && ends (exec (.kettleCommandComplete 0) (inMem.modAc 0 fun a => { a with io := { a.io with nm := [⟨4, [], 0⟩, ⟨5, [1], 0⟩] } })) (fun t => (t.ac 0).ln.tlDone == [(6, 4)] && (t.ac 0).io.nm.map (·.num) == [5])
     && ends (exec (.atomicArrive 0) (inMem.modKettle 0 fun k => { k with atomq := [⟨0x10000001000, .atom .sadd [1] 1 0 1⟩] })) (fun t => (t.kettle 0).atomq.isEmpty && memByte t 0x10000001000 == 2)
     && ends (exec (.kettleAbort 0) (run (kcmd []))) (fun t => (t.kettle 0).abort)
     && ends (exec (.kettleTreeResult 3) { run { kcmd [kencode (.krcv .sum 1)] with session := 3 } with sessions := [⟨3, 1, [], [0], [], []⟩] }) (fun t => (t.kettle 0).kpc == 0)) = true := by decide +kernel
/-! ### Engines -/

/-- An engine of cluster 0 after an instruction: running, at an address, with a property. -/
def egoes (e : Eid) (s : State) (i : Instr) (pc : W64) (p : AC → Bool) : Bool := ends (exec i s) fun t =>
  ((t.ac 0).eng e).st == 1 && ((t.ac 0).eng e).upc == pc && p (t.ac 0)

/-- R271, R353 to R360, R156: a stage predicate that is false; tokens; a branch; loops of 0 and 2 iterations; a take, an empty queue, a routine entry; the guard, the return queue and the end. -/
theorem wit_EngineControl :
    stageOff ⟨.w2, .va false 9 false 0 0⟩ (base.ac 0) = true
    ∧ egoes .va (withE .va [] base) (.vmov ⟨.w2, .va false 9 false 0 0⟩ 32 33) 0x50008 (fun a => a.vec.flight.isEmpty)
    ∧ egoes .vl ((withE .vl [] base).modAc 0 fun a => { a with ln := a.ln.setTokens 2 1 3 }) (.etok ⟨.w2, .en 0 2⟩ 1) 0x50008 (fun a => a.ln.tokens 2 1 == 1)
    ∧ egoes .vl (withE .vl [] base) (.etok ⟨.w2, .en 3 0⟩ 1) 0x50008 (fun a => a.ln.tokens 1 3 == 2)
    ∧ egoes .vl (withE .vl [(1, 5)] base) (.ebr hn2 .ltu (.x 1) (.i8 6) 4) 0x50010 (fun _ => true) ∧ egoes .vl (withE .vl [(1, 6)] base) (.ebr hn2 .ltu (.x 1) (.i8 6) 4) 0x50008 (fun _ => true)
    ∧ egoes .vl (withE .vl [(1, 2)] base) (.eloop hn true (.x 1) 3) 0x50004 (fun a => a.vl.xr 19 == 2 && a.vl.act1) ∧ egoes .vl (withE .vl [] base) (.eloop hn false (.x 1) 3) 0x50010 (fun a => !a.vl.act0)
    ∧ stops .va ((withE .va [] base).modCC 0 fun c => c.setSr 0x043 0x101) (.eloop hv false (.x 1) 3) 2 ∧ egoes .vl (withE .vl [(1, 2)] base) (.eloopAdd hn 5 (.x 1) (.x 1)) 0x50004 (fun a => a.vl.xr 5 == 4) := by decide +kernel

theorem wit_EngineControl_queues :
    egoes .vl ((withE .vl [] base).modEng 0 .vl fun x => { x with q := [⟨1, false, false, 0, 1, 0, [77], 3⟩] }) (.etake hn) 0x50004 (fun a => a.vl.q.isEmpty)
    ∧ stops .vl ((withE .vl [] base).modEng 0 .vl fun x => { x with q := [⟨0, false, false, 0, 1, 0, [77], 3⟩] }) (.etake hn) 0x0E
    ∧ ends (exec (.etake hn) (withE .vl [] base)) (fun t => (t.ac 0).vl.wait.isSome)
    ∧ egoes .vs (withE .vs [(1, 2)] base) (.gput hn 7 (.x 1)) 0x50004 (fun _ => true)
    ∧ egoes .vs (withE .vs [(1, 2)] base) (.eret hn (.x 1)) 0x50004 (fun a => a.ln.retq == [(3, 2)] && a.cc.evt)
    ∧ ends (exec (.eend hn) ((withE .vs [] base).modEng 0 .vs fun x => { x with num := 4 })) (fun t => (t.ac 0).vs.st == 0 && (t.ac 0).ln.tlDone == [(2, 4)])
    ∧ ends (exec (.eend hv) (withE .va [] base)) (fun t => (t.ac 0).va.st == 0) := by decide +kernel

/-- VA acts: v32 holds 1.0 in element 0 and 2.0 in element 17, and v33 holds 3.0 in element 0; x1 is 17. -/
def va : State := (withE .va [(1, 17), (2, 0x202)] base).modAc 0 fun a =>
  { a with vec := (a.vec.setV (a.cc.phys 32) (BitVec.ofNat 8192 (0x3F800000 + 2 ^ (32 * 17) * 0x40000000))).setV (a.cc.phys 33) 0x40400000 }

/-- An instruction issues a result of one register, with latency lat, whose 4-byte elements 0 and 17 are a and b. -/
def issues (i : Instr) (lat a b : Nat) : Bool := egoes .va va i 0x50008 fun x =>
  x.vec.flight.map (fun f => (f.land, f.data.map fun d => (elemAt d 4 0, elemAt d 4 17))) == [(99 + lat, [(a, b)])]

/-- R372 to R375: one result of each instruction. -/
theorem wit_VectorFloat :
    (issues (.vadd hv2 ⟨false, .rne⟩ 34 (.r 32) (.r 33)) 4 0x40800000 0x40000000 && issues (.vsub hv2 ⟨false, .rne⟩ 34 (.r 32) (.r 33)) 4 0xC0000000 0x40000000
      && issues (.vmul hv2 ⟨false, .rne⟩ 34 (.r 32) (.r 33)) 4 0x40400000 0 && issues (.vfma hv2 ⟨false, .rne⟩ 34 (.r 32) (.r 33) (.r 33)) 4 0x40C00000 0
      && issues (.vfms hv2 ⟨false, .rne⟩ 34 (.r 32) (.r 33) (.r 33)) 4 0 0 && issues (.vmin hv2 false 34 (.r 32) (.r 33)) 1 0x3F800000 0 && issues (.vmax hv2 false 34 (.r 32) (.r 33)) 1 0x40400000 0x40000000
      && issues (.vabs hv2 false 34 (.r 32)) 1 0x3F800000 0x40000000 && issues (.vneg hv2 false 34 (.r 32)) 1 0xBF800000 0xC0000000
      && issues (.vsel hv2 false 34 (.r 32) (.r 33) 0) 1 0x3F800000 0x40000000) = true := by decide +kernel

/-- R374, R375: a mask of elements, a conversion to 2 bytes, a function; a result lands. -/
theorem wit_VectorFloat_more :
    egoes .va va (.vcmp hv2 false .lt 3 (.r 32) (.r 33)) 0x50008 (fun x => x.vec.flight.map (fun f => (f.kind, f.dest, f.data.map fun d => d.toNat % 4)) == [(2, 3, [3])])
    ∧ egoes .va va (.vcvt hv2 .rne 34 32 0 0x10 0 false) 0x50008 (fun x => x.vec.flight.map (fun f => f.data.map fun d => elemAt d 2 0) == [[0x3F80]])
    ∧ issues (.vsfu hv2 ⟨false, .rne⟩ .rcp 34 (.r 32)) 8 0x3F800000 0x3F000000
    ∧ ends (exec (.vaResultLanding 0) (va.modAc 0 fun a => { a with vec := { a.vec with issued := 101, flight := [⟨100, false, 0, 40, 0, 0, 0, 1, [0x1234ABCD], 0, 0, none⟩] } }))
      (fun t => (t.ac 0).vec.vr 40 == 0xABCD && (t.ac 0).vec.flight.isEmpty) := by decide +kernel

/-- R380, R381: one result of each instruction; x1 = 17 and x2 = 0x202 as scalars; operands out of range. -/
theorem wit_VectorInteger :
    (issues (.vperm hv2 true 34 32 33) 1 0 0x3F800000 && issues (.vbcast hv2 .row false 34 32 (.x 1)) 1 0 0x40000000 && issues (.vmov hv2 34 32) 1 0x3F800000 0x40000000 && issues (.viota hv2 34 (.x 1) (.i8 2)) 1 17 51
      && issues (.viadd hv2 .b4 true 34 (.r 32) (.r 33)) 1 0x7FC00000 0x40000000
      && issues (.visub hv2 .b4 false 34 (.r 32) (.r 33)) 1 0xFF400000 0x40000000 && issues (.vimul hv2 .b4 34 (.r 32) (.i8 2)) 4 0x7F000000 0x80000000
      && issues (.vish hv2 .shr .b4 34 (.r 32) (.i8 4)) 1 0x03F80000 0x04000000 && issues (.vilog hv2 .xor 34 (.r 32) (.r 33)) 1 0x7FC00000 0x40000000
      && egoes .va va (.vmovX hv2 5 32 (.x 1)) 0x50008 (fun x => x.vec.flight.map (fun f => (f.kind, f.dest, f.xval)) == [(3, 5, 0x40000000)])
      && stops .va va (.vmovX hv2 5 32 (.x 2)) 2 && stops .va va (.vbcast hv2 .row false 34 32 (.x 2)) 2) = true := by decide +kernel

/-- R376 to R387, R367, R371: reductions, training formats, masks; the shape, the rotation and the pipelined loop. -/
theorem wit_VectorReduce :
    issues (.vred hv2 ⟨false, .rne⟩ .max .all 34 32 0) 6 0x40000000 0 ∧ issues (.vpcode hv2 34 32 (.x 3)) 2 0 0
    ∧ egoes .va va (.vmask hv2 (.not 3 4)) 0x50008 (fun x => x.vec.flight.map (·.kind) == [2])
    ∧ issues (.vqnt hv2 34 32 33) 2 0x7FFFFF 0x7FFFFF ∧ issues (.vdqnt hv2 .rne 34 32 33) 2 0x400000 0x400000 := by decide +kernel

theorem wit_VectorLoops :
    stops .va va (.vshape hv2 (.i8 0x10)) 2
    ∧ egoes .va va (.vshape hv2 (.x 2)) 0x50008 (fun x => x.cc.sr 0x041 == 0x202)
    ∧ egoes .va va (.vrot hv2 (.x 1)) 0x50008 (fun x => x.cc.sr 0x040 == 17)
    ∧ egoes .va va (.vloopp hv2 2 (.x 1) 6) 0x50008 (fun x => x.va.xr 16 == 19 && bits (x.cc.sr 0x043) 8 4 == 3 && bits (x.cc.sr 0x042) 32 32 == 17)
    ∧ egoes .va va (.vloopp hv2 2 (.i8 0) 6) 0x50020 (fun x => !x.va.act0)
    ∧ stops .va (va.modCC 0 fun c => c.setSr 0x043 0x301) (.vloopp hv2 2 (.x 1) 6) 2 := by decide +kernel
/-! ### The array and matrix engines -/

/-- Tile 0 of cluster 0 with other contents. -/
def withTile (s : State) (f : Tile → Tile) : State := s.setTile 0 0 (f (s.tile 0 0))

/-- AX acts on tile 0, which models a reference cell of 16 levels at row and column 0; x1 is that window, x2 and x3 point into the scratch, where the BF16 value 1.0 stands at x2; x4 is a control word without a gate. -/
def ax : State :=
  let s := loadBytes 0x20000000001 [0x3F] (loadBytes 0x20000000000 [0x80] tensors)
  let s := withE .ax [(1, 0), (2, 0x20000000), (3, 0x20000040), (4, 0x402)] s
  withTile s fun t => { t with reg := smSet t.reg 6 1, lf := [(0, 16)], ls := [(0, 3)] }

/-- R389 to R394, R398, R406, R409. -/
theorem wit_ArrayRegisters :
    (winOf 0).any (fun w => w.inRef && w.rows == 1 && w.cols == 1) = true
    ∧ egoes .ax ax (.aset hn2 2 (.x 1) (.i8 8)) 0x50008 (fun a => (a.tiles.map fun t => t.2.r 2) == [8]) ∧ stops .ax ax (.aset hn2 2 (.x 1) (.i8 0)) 2
    ∧ egoes .ax ax (.amode hn .frozen (.x 1)) 0x50004 (fun a => (a.tiles.map fun t => t.2.mode) == [2])
    ∧ egoes .ax ax (.astat hn 2 5 (.x 1)) 0x50004 (fun a => a.ax.xr 5 == 16)
    ∧ egoes .ax ax (.asprLd hn (.x 1) 2) 0x50004 (fun a => (a.tiles.map fun t => t.2.sprAt 0) == [0x3F80])
    ∧ egoes .ax ax (.asprSt hn (.x 1) 3) 0x50004 (fun _ => true) ∧ egoes .ax ax (.aref hn (.x 1) 2) 0x50004 (fun a => (a.tiles.map fun t => smGet 0 t.2.sc 0) == [0x3F80])
    ∧ stops .ax (withE .ax [(1, 32)] ax) (.aref hn (.x 1) 2) 0x11 := by decide +kernel

/-- R395 to R408: a read, which leaves its computed scale; a check read; an update, a transfer, a calibration and a program command; what a frozen tile refuses. -/
theorem wit_ArrayCommands :
    egoes .ax ax (.afwd hn2 false false 5 (.x 1) 2 3) 0x50008 (fun a => a.axq.map (fun c => (c.tile, c.done, c.writes.length)) == [(0, false, 1)] && a.ax.xr 5 != 0)
    ∧ egoes .ax ax (.abwd hn2 true false 5 (.x 1) 2 3) 0x50008 (fun a => a.axq.map (fun c => c.writes.map fun w => w.bytes.length) == [[4]])
    ∧ egoes .ax ax (.ackr hn2 false 0 (.x 1) 3) 0x50008 (fun a => a.axq.map (fun c => c.writes.map fun w => w.bytes) == [[leBytes 2 24]])
    ∧ egoes .ax ax (.aupd hn2 4 (.x 1) 2 3) 0x50008 (fun a => a.axq.length == 1)
    ∧ egoes .ax (withE .ax [(4, 0x400)] ax) (.axfer hn 4 (.x 1)) 0x50004 (fun a => a.axq.length == 1)
    ∧ egoes .ax ax (.acal hn2 (.x 1) (.i8 1)) 0x50008 (fun a => a.axq.length == 1) ∧ stops .ax ax (.acal hn2 (.x 1) (.i8 0)) 2
    ∧ egoes .ax (withE .ax [(4, 0x400)] ax) (.aprog hn2 .fsym 4 (.x 1) 2 3) 0x50008 (fun a => a.axq.map (fun c => (c.form, c.rows.map (·.row))) == [(2, [0])])
    ∧ stops .ax (withTile ax fun t => { t with reg := smSet t.reg 6 2 }) (.acal hn2 (.x 1) (.i8 1)) 0x12 := by decide +kernel

/-- R411, R412, R416, R418 to R420: a shadow register, a reserved one, a format word, the pushes, a full queue, the status, a handler. -/
theorem wit_MatrixControl :
    (let tq := fun (k : Nat) => base.modMx 0 fun m => { m with tq := List.replicate k ⟨1, [], 0, false, false, 0, 9⟩ }
     let pushes := fun (s : State) (i : Instr) (kind : Nat) => ends (exec i s) fun t => (t.ac 0).mxu.tq.map (fun q => (q.kind, q.num)) == [(kind, 1)] && (t.ac 0).cc.s 9 == 1
     ends (exec (.mxcfg hc 33 (.r 1)) (withS [(1, 7)] base)) (fun t => smGet 0 (t.ac 0).mxu.sh 33 == 7) && ends (exec (.mxcfg hc 13 (.r 1)) base) (fun t => (t.ac 0).cc.task == none)
     && ends (exec (.mxfmt hc (.r 1)) (withS [(1, 7)] base)) (fun t => (t.ac 0).mxu.fq == [7]) && ends (exec (.mxfmt hc (.r 1)) (base.modMx 0 fun m => { m with fq := List.replicate 8 0 })) (fun t => (t.ac 0).cc.wait.isSome)
     && pushes base (.mxgo hc 9 (.r 0)) 0 && pushes base (.mxzero hc 9 (.r 0)) 1 && pushes base (.mxdrain hc true true 9 (.r 0)) 2 && pushes (withS [(1, 4)] base) (.mxmode hc 9 (.r 1)) 3
     && ends (exec (.mxgo hc 9 (.r 0)) (base.modMx 0 fun m => { m with sh := [(10, 64)] })) (fun t => (t.ac 0).cc.task == none)
     && ends (exec (.mxzero hc 9 (.r 1)) (withS [(1, 4)] base)) (fun t => (t.ac 0).cc.task == none)
     && ends (exec (.mxzero hc 9 (.r 0)) (tq 7)) (fun t => (t.ac 0).mxu.tq.length == 8) && ends (exec (.mxzero hc 9 (.r 0)) (tq 8)) (fun t => (t.ac 0).cc.wait.isSome)
     && gives (tq 3) (.mxstat hc 2 9) 3 && ends (exec (.mxgo hc 9 (.r 0)) (base.modCC 0 fun c => { c with h := true })) (fun t => (t.ac 0).cc.task == none)) = true := by decide +kernel

/-- A tile command of one row, one column and one step, over the BF16 tensor of entry 256, whose element is 1.5. -/
def bf16s : State := loadBytes 0x10000001000 [0xC0, 0x3F, 0, 0] (loadBytes 0x10000004008 [0x10] tensors)
def tile (mode : Nat) : TQEntry := ⟨0, [(0, 0x1000), (1, 0x1000), (5, 0x1000100)] ++ (List.range 6).map fun l => (16 + 3 * l, 1), 2, false, false, mode, 9⟩
def tiles (q : TQEntry) (r : Option TileRun) (row : Nat) : State := bf16s.modMx 0 fun m => { m with tq := [q], run := r, rowprog := row, fq := [0x100000001000], acc := [(8192, 0x40000000)] }
def tdt256 : List W64 := [0x1000, 0x8010, 0, 0x100000001, 0x100000001, 0, 0, 0]

/-- R413 to R417, R156: a mode, a zero command, the start, a row, the end and a drain of the tile queue. -/
theorem wit_ArrayMatrixEvents_mx :
    mxFree (bf16s.ac 0) = true ∧ ends (exec (.mxModeChange 0) (tiles { tile 4 with kind := 3 } none 0)) (fun t => (t.ac 0).mxu.mode == 4 && (t.ac 0).ln.tlDone == [(3, 9)])
    ∧ ends (exec (.mxZero 0) (tiles { tile 0 with kind := 1 } none 0)) (fun t => (t.ac 0).mxu.acc.isEmpty && (t.ac 0).mxu.tq.isEmpty)
    ∧ ends (exec (.mxTileStart 0) (tiles (tile 0) none 3)) (fun t => (t.ac 0).mxu.run == some ⟨0x100000001000, tdt256, tdt256, 0, true, false, []⟩ && (t.ac 0).mxu.rowprog == 0)
    ∧ ends (exec (.mxRowCommit 0 false true) (tiles (tile 0) (some ⟨0x100000001000, tdt256, tdt256, 0, true, false, []⟩) 0)) (fun t => smGet 0 (t.ac 0).mxu.acc 8192 == 0x40880000 && (t.ac 0).mxu.rowprog == 1 && (t.ac 0).mxu.dupev == 1 && (t.ac 0).mxu.resev == 0)
    ∧ ends (exec (.mxTileComplete 0) (tiles (tile 0) (some ⟨0x100000001000, tdt256, tdt256, 0, true, false, []⟩) 1)) (fun t => (t.ac 0).mxu.tq.isEmpty && (t.ac 0).mxu.chkrot == 1 && (t.ac 0).ln.tlDone == [(3, 9)])
    ∧ ends (exec (.mxDrain 0) (tiles { tile 0 with kind := 2, sh := [(11, 0x1000)] } (some ⟨0, [], [], 0, false, false, []⟩) 0)) (fun t => (t.ac 0).mxu.tq.isEmpty && memByte t 0x10000001003 == 0x40) := by decide +kernel

/-- R396, R397, R407, R410, R494: the end of a read and of a programmed row, a gate that opens, the power cap. -/
theorem wit_ArrayMatrixEvents_ax :
    (let resid : PWrite := ⟨0x20000000080, [0, 0], false, 0, ⟨0, 8, 0, 0⟩⟩
     let q := fun (c : AxCmd) => ax.modAc 0 fun a => { a with axq := [c] }
     ends (exec (.arrayCommandComplete 0) (q ⟨0, [⟨0x20000000040, [5], false, 0, ⟨0, 8, 0, 0⟩⟩], false, 0, 0, false, 0, 0, [], ([], false, false, 0), 0⟩)) (fun t => (t.ac 0).axq.isEmpty && pendByte (t.agent (.ac 0 5)).pend 0x20000000040 == some 5)
     && ends (exec (.arrayCommandComplete 0) (q ⟨0, [], false, 0, 0, false, 1, 0x400, [⟨0, [300], resid⟩, ⟨1, [0], resid⟩], ([], false, false, 0), 0⟩)) (fun t => (t.ac 0).axq.map (fun c => c.rows.length) == [1] && (t.tile 0 0).fast 0 == 255 && (t.tile 0 0).r 8 == 1)
     && ends (exec (.axGateRead 0) ((withE .ax [(4, 0x400)] ax).modEng 0 .ax fun x => { x with wait := some (.axfer hn 4 (.x 1)) })) (fun t => (t.ac 0).axq.length == 1)
     && ends (exec (.powerAdmit 0) ((q ⟨0, [], true, 0, 0, false, 0, 0, [], ([], false, false, 0), 0⟩).modDie 0 fun d => { d with pwait := [⟨0, 0⟩] })) (fun t => (t.ac 0).axq.map (·.waiting) == [false] && (t.die 0).pwait.isEmpty)) = true := by decide +kernel
/-! ### Events -/

/-- A cluster whose CC waits in an instruction. -/
def waitsIn (i : Instr) (s : State) : State := s.modCC 0 fun c => { c with wait := some ⟨i, 90, [], false⟩ }

/-- R287, R153, R156, R223, R228, R436: an event that ends a wait, a push that is granted, a put whose slot is free, a counter, tokens, a guard, the start of an entry. -/
theorem wit_WaitEvents :
    ends (exec (.wfeWake 0) (waitsIn (.wfe hc) (base.modCC 0 fun c => { c with evt := true }))) (fun t => (t.ac 0).cc.pc == 0x40004 && !(t.ac 0).cc.evt)
    ∧ ends (exec (.queuePushGrant 0) (waitsIn (.pushk hc .vl 1 0) (base.modAc 0 fun a => { a with ln := { a.ln with pushWait := [⟨0, 0, 1⟩] } }))) (fun t => (t.ac 0).vl.q.length == 1)
    ∧ ends (exec (.queuePushGrant 0) ((withE .vs [(1, 2)] base).modAc 0 fun a => { a with ln := { a.ln with pushWait := [⟨3, 5, 1⟩] }, vs := { a.vs with wait := some (.eret hn (.x 1)) } })) (fun t => (t.ac 0).ln.retq == [(3, 2)])
    ∧ ends (exec (.timelineComplete 0 2) (base.modAc 0 fun a => { a with ln := { a.ln with tlDone := [(2, 1), (2, 2), (2, 4)] } })) (fun t => (t.ac 0).ln.shown 2 == 2 && (t.ac 0).cc.evt)
    ∧ ends (exec (.timelineComplete 0 2) base) (fun t => (t.ac 0).ln.shown 2 == 0)
    ∧ ends (exec (.tokenTake 0 .vl) ((withE .vl [] base).modAc 0 fun a => { a with ln := a.ln.setTokens 2 1 1, vl := { a.vl with wait := some (.etok ⟨.w2, .en 0 2⟩ 1) } })) (fun t => (t.ac 0).vl.etok == 1 && (t.ac 0).ln.tokens 2 1 == 0)
    ∧ ends (exec (.tokenGive 0 .vl) ((withE .vl [] base).modEng 0 .vl fun x => { x with giveE := 3, giveN := 2 })) (fun t => (t.ac 0).ln.tokens 1 3 == 2 && (t.ac 0).vl.giveN == 0)
    ∧ ends (exec (.tokenGive 0 .vl) ((withE .vl [] base).modAc 0 fun a => { a with ln := a.ln.setTokens 1 3 15, vl := { a.vl with giveE := 3, giveN := 2 } })) (fun t => (t.ac 0).ln.tokens 1 3 == 15) := by decide +kernel

theorem wit_WaitEvents_queues :
    (let q := fun (k : Nat) (gen : Bool) => (base.modEng 0 .vl fun x => { x with q := [⟨k, gen, false, 2, 1, 64, [77], 3⟩] }).modCC 0 fun c => { c with greg := [(2, false)] }
     (match ((q 0 true).ac 0).cc.guard 2 with | some v => !v | none => false)
     && ends (exec (.guardResolve 0 .vl) (q 0 true)) (fun t => (t.ac 0).vl.q.isEmpty && (t.ac 0).ln.tlDone == [(0, 3)]) && ends (exec (.guardResolve 0 .vl) (q 0 false)) (fun t => (t.ac 0).vl.q.length == 1)
     && ends (exec (.engineEntryStart 0 .vl) (q 0 false)) (fun t => (t.ac 0).vl.st == 1 && (t.ac 0).vl.upc == 64 && (t.ac 0).vl.xr 12 == 77 && (t.ac 0).vl.num == 3)
     && ends (exec (.engineEntryStart 0 .vl) (q 1 false)) (fun t => (t.ac 0).vl.st == 3 && (t.ac 0).vl.fcause == 0x0E)) = true := by decide +kernel

/-- The record of a launch: two epochs of two tasks each; word 7 is the dependence counter's address and word 8 the count it waits for. -/
def launchRec (dep count : W64) : List W64 := (List.range 32).map fun i =>
  if i = 0 then pack [(56, 1), (52, 2), (0, 4)] else if i = 1 then 0x30000 else if i = 7 then dep else if i = 8 then count
  else if i = 16 then pack [(32, 2)] else if i = 17 then pack [(32, 1), (1, 1)] else if i = 18 then pack [(32, 2)] else if i = 19 then pack [(32, 1), (16, 1), (5, 3)] else 0

/-- Entry 3 of die 0 holds a launch in a state, whose record is at 0x8000. -/
def launched (l : List W64) (f : LEntry → LEntry) : State :=
  loadBytes 0x10000001000 [3] ((base.modCC 0 fun c => { c with task := none }).modDie 0 fun x => { x with ltab := smSet x.ltab 3 (f ⟨1, 5, 0x8000, l, 0, 0, 0, none, 0, false, false, false, [], []⟩) })

/-- R239, R241, R253, R425 to R430, R250: an admission and a rejection, a dependence that is not reached and one that is, an epoch that goes on and one that is over, a continuation, a completion, a cancelled launch, a cancellation. -/
theorem wit_LaunchEvents :
    (let l := launchRec 0x1000 4
     let st := fun (s : State) => s.lent 0 3
     rejectReason l == none && rejectReason (launchRec 0x1000 4 |>.set 0 0) == some 1
     && ends (exec (.launchQueueAdmit 0) ((loadBytes 0x10000008000 (wordBytes l) base).modDie 0 fun x => { x with launchQ := [⟨0x8000, 5, 0⟩] })) (fun t => (t.lent 0 0).st == 1 && (t.lent 0 0).lrec == l && (t.die 0).launchQ.isEmpty)
     && ends (exec (.launchQueueAdmit 0) (base.modDie 0 fun x => { x with launchQ := [⟨0x8000, 5, 0⟩] })) (fun t => (t.die 0).ltab.isEmpty && (t.die 0).frSeq == 1)
     && ends (exec (.dependenceRead 0 3) (launched l id)) (fun t => (st t).st == 1 && (st t).depseen == 3) && ends (exec (.dependenceRead 0 3) (launched (launchRec 0x1000 3) id)) (fun t => (st t).st == 2)
     && ends (exec (.epochStart 0 3) (launched l fun e => { e with st := 2, placed := true, epDone := 1 })) (fun t => (st t).epoch == 0)
     && ends (exec (.epochStart 0 3) (launched l fun e => { e with st := 2, placed := true, epDone := 2, ran := [0] })) (fun t => (st t).epoch == 1 && (st t).epDone == 0)
     && ends (exec (.launchComplete 0 3) (launched l fun e => { e with st := 3, epoch := 1, placed := true, epDone := 2, done := 4, ranAll := [0] })) (fun t => (t.die 0).ltab.isEmpty)
     && ends (exec (.launchComplete 0 3) (launched l fun e => { e with st := 3, cancelled := true })) (fun t => (t.die 0).ltab.isEmpty)
     && ends (exec (.launchCancel 0 3) (launched l id)) (fun t => (st t).st == 3 && (st t).cancelled)) = true := by decide +kernel

/-- R252, R428: a continuation that waits for a count of TL.CP, which comes. -/
theorem wit_LaunchEvents_conts :
    (let s := fun (v : W64) => base.modDie 0 fun x => { x with conts := [⟨0x2000, 5, 3, 0, 0, 1, 0, 0, v, 0, false, 0⟩] }
     ends (exec (.continuationReady 0 0x2000) (s 1)) (fun t => (t.die 0).conts.map (·.ready) == [false])
     && ends (exec (.continuationReady 0 0x2000) (s 0)) (fun t => (t.die 0).conts.map (·.ready) == [true])) = true := by decide +kernel

/-- R219, R423, R433: a bound cluster takes the first coordinate of a placed epoch; one whose die does not dispatch takes none. -/
theorem wit_TaskStarts :
    (let l := launchRec 0 0
     let s := (((launched l fun e => { e with st := 2, placed := true }).setReg 0 0x21000 (pack [(63, 1), (32, 1), (0, 5)])).modDie 0 fun x => { x with walkers := [(0, ⟨5, 0, 0, 2, 1, 0⟩)] })
     let on := s.setReg 0 0x23000 1
     (on.ac 0).idle && (firstItem (on.items 0)).isSome
     && ends (exec (.dispatchDecision 0) on) (fun t => (t.ac 0).cc.task.any (fun k => k.launch == 5 && k.lin == 0 && k.ent == 3) && (t.ac 0).cc.pc == 0x30000)
     && ends (exec (.dispatchDecision 0) s) (fun t => (t.ac 0).cc.task == none)) = true := by decide +kernel

/-- R255, R256, R422: entry 255 of the mailbox table with a granule in HBM, one that does not count, firings, and bind records. -/
theorem wit_MailboxEvents :
    (let o := 0x40000 + 64 * 255
     let s := fun (pend : Nat) => { ((base.setReg 0 o (pack [(63, 1), (0, 0x10000001000)])).setReg 0 (o + 8) 0x8000).setReg 0 (o + 16) (pack [(32, pend), (0, 2)]) with fires := [(0, 255, 1, 0x8000)] }
     ends (exec (.mailboxEntryWrite 0 255 (pack [(63, 1), (0, 0x10000001040)])) base) (fun t => t.reg 0 o == pack [(63, 1), (0, 0x10000001040)] && t.watch == [(0x10000001040, 0, 255)])
     && ends (exec (.mailboxEntryWrite 0 255 (pack [(63, 1), (0, 0x40)])) base) (fun t => t.watch.length == 1) && ends (exec (.mailboxEntryWrite 0 255 (pack [(63, 1), (0, 0x20000000000)])) base) (fun t => t.watch.isEmpty && !(t.reg 0 o).getLsbD 63)
     && ends (exec (.mailboxFire 0 255 1) (s 0xFFFE)) (fun t => (t.die 0).launchQ == [⟨0x8000, 0, 256⟩] && bits (t.reg 0 (o + 16)) 32 16 == 0xFFFF && bits (t.reg 0 (o + 24)) 0 32 == 1)
     && ends (exec (.mailboxFire 0 255 1) (s 0xFFFF)) (fun t => (t.die 0).launchQ.isEmpty && bits (t.reg 0 (o + 24)) 32 32 == 1)
     && ends (exec (.bindRecordWrite 0 63 7 (pack [(63, 1), (40, 8)])) base) (fun t => t.reg 0 (0x21000 + 64 * 63 + 56) == pack [(63, 1), (40, 8)])
     && ends (exec (.bindRecordWrite 0 63 7 (pack [(63, 1), (40, 9)])) base) (fun t => (t.reg 0 0x23008).getLsbD 31)) = true := by decide +kernel

/-- R40 to R46, R54, R59 to R62, R65, R66: the last entry of the access table, written and taken out; a permitted and a refused access; a command of TLBICMD; an invalidation; a walk; a fault record; a replay, an abort, a token that stands for nothing. -/
theorem wit_AccessEvents :
    (
     let held := fun (x : Option Nat) => (base.modCC 0 fun c => { c with xl := x }).modDie 0 fun d => { d with waits := [⟨7, 0, .ac 0 0, 0x5000, .read, 0, 9, false⟩] }
     ends (exec (.accessEntryWrite 0 95 63 (pack [(63, 1), (55, 1), (12, 5)])) base) (fun t => smFind (t.die 0).acl (95 * 64 + 63) == some ⟨false, true, false, false, false, 5, 0, 0⟩)
     && ends (exec (.accessEntryWrite 0 0 0 0) base) (fun t => (smFind (t.die 0).acl 0).isNone)
     && masterOf 0x2000 == some (.ac 0 0) && masterOf 0x1000 == some (.mcore 0) && (checkAccess base (.ac 0 0) .read 0x10000001000 1).isNone && (checkAccess (base.modDie 0 fun d => { d with acl := [] }) (.ac 0 0) .read 0x10000001000 1).isSome
     && ends (exec (.accessFault 0x2000 .read ⟨0x10000001000, 0x1000⟩) (base.modDie 0 fun d => { d with acl := [] })) (fun t => (t.ac 0).cc.task == none && (t.die 0).frPend.length == 1)
     && ends (exec (.accessFault 0x1000 .read ⟨0x10000001000, 0⟩) (base.modDie 0 fun d => { d with acl := [] })) (fun t => (t.die 0).frPend.length == 1) && ends (exec (.accessFault 0x2000 .read ⟨0x10000001000, 0x1000⟩) base) (fun t => t == base)
     && ends (exec (.tlbicmd 0 3) base) (fun t => (t.die 0).tlbi == some (0, 12, true, true, false)) && ends (exec (.tlbicmd 0 3) (base.modDie 0 fun d => { d with tlbi := some (0, 12, false, false, false) })) (fun t => (t.reg 0 0x0218).getLsbD 1)
     && ends (exec (.tlbInvalDone 0) (base.modDie 0 fun d => { d with tlbi := some (0, 12, false, false, false), tlb := [⟨0, 21, 0x10000000000, true, true, false, 0⟩, ⟨0x200000, 21, 0x10000200000, true, true, false, 0⟩] })) (fun t => (t.die 0).tlbi.isNone && (t.die 0).tlb.map (·.va) == [0x200000])
     && ends (exec (.translationWalk 0 .read 0x1234) base) (fun t => (t.die 0).tlb.map (fun e => (e.lg, e.va, e.r)) == [(29, 0, true)])
     && ends (exec (.faultReplay 0 7) (held (some 7))) (fun t => (t.ac 0).cc.xl.isNone && (t.die 0).waits.isEmpty) && ends (exec (.faultAbort 0 7) (held (some 7))) (fun t => (t.ac 0).cc.xlAbort.isSome)
     && ends (exec (.faultRecordWrite 0) ((base.setReg 0 0x600000 0x10000009000).modDie 0 fun d => { d with frPend := [⟨1, 2, 3, 4⟩], frSeq := 1 })) (fun t => (t.die 0).frPend.isEmpty && t.reg 0 0x600018 == 1 && memByte t 0x10000009000 == 1)
     && ends (exec (.faultReplay 0 8) (held none)) (fun t => (t.reg 0 0x600028).getLsbD 1)) = true := by decide +kernel

/-- R72 to R74, R77 to R79, R82, R84: the switch of a quad starts, drains and ends; a carve ends; a write-back of a line. -/
theorem wit_CacheEvents :
    (let s := base.modCC 0 fun c => { c with task := none }
     let sw := fun (c : Option Nat) => s.modDie 0 fun d => { d with qsw := [⟨0, c, false⟩] }
     ends (exec (.qfuseWrite 0 0x8001) s) (fun t => t.reg 0 0x0400 == 0x800100008001 && (t.die 0).qsw.map (·.quad) == [0, 15])
     && ends (exec (.quadSwitchDrain 0 0) (base.modDie 0 fun d => { d with qsw := [⟨0, none, false⟩] })) (fun t => (t.die 0).qsw == [⟨0, none, false⟩])
     && ends (exec (.quadSwitchDrain 0 0) (sw none)) (fun t => (t.die 0).qsw == [⟨0, some 4196, false⟩])
     && ends (exec (.quadSwitchEnd 0 0) (sw (some 101))) (fun t => (t.die 0).qsw.length == 1) && ends (exec (.quadSwitchEnd 0 0) (sw (some 100))) (fun t => (t.die 0).qsw.isEmpty)
     && (let c := fun (stop : Nat) => inMem.modCC 0 fun c => { c with carve := some ⟨0, 1, stop, none⟩ }
       ends (exec (.carveDrainEnd 0) (c 101)) (fun t => (t.ac 0).cc.carve.isSome) && ends (exec (.carveDrainEnd 0) (c 100)) (fun t => (t.ac 0).cc.carve.isNone && (t.ac 0).cc.sr 0x0C0 == 1))
     && base.mayCache 0x10000001000 && !base.overQuota 0 (0x10000001000 / 128) && !base.mayCache 0x8000000000000
     && ends (exec (.cacheWriteback 0 (0x10000001000 / 128)) inMem) (fun t => t.mem == inMem.mem)) = true := by decide +kernel

/-- R351, R441, R448, R449, R456, R457: a timer that is due and one that is not, a MINT that is noted and taken, a fault of an engine, an integrity event. The traps end the task, since TVEC is 0. -/
theorem wit_EventTraps :
    (let due := fun (c : W64) => base.modCC 0 fun x => x.setSr 0x028 c
     ends (exec (.timerInterrupt 0) (due 100)) (fun t => (t.ac 0).cc.task == none) && ends (exec (.timerInterrupt 0) (due 101)) (fun t => t == due 101) && (base.ac 0).faultEvent == none
     && ends (exec (.mint 0 7) base) (fun t => (t.ac 0).cc.mint == some 7)
     && ((base.modCC 0 fun x => { x with mint := some 7 }).ac 0 |>.event 100).isSome && ends (exec (.trapEntry 0) (base.modCC 0 fun x => { x with mint := some 7 })) (fun t => (t.ac 0).cc.task == none)
     && ends (exec (.trapEntry 0) base) (fun t => t == base)
     && ends (exec (.trapEntry 0) (base.modCC 0 fun x => { x with entry := some (⟨0, 0x20, 0, 0, 0, 0, false⟩, 90, true) })) (fun t => (t.ac 0).cc.task == none)
     && ends (exec (.engineFault 0 .vl 5 1 2) (withE .vl [] base)) (fun t => (t.ac 0).vl.st == 3 && (t.ac 0).vl.fcause == 5) && ends (exec (.engineFault 0 .vl 5 1 2) base) (fun t => t == base)
     && ends (exec (.integrityEvent 0 2 0 9) base) (fun t => t.reg 0 0x600110 == 1 && (t.ac 0).cc.pend.length == 1) && ends (exec (.integrityEvent 0 5 0 9) base) (fun t => (t.ac 0).cc.task == none)
     && ends (exec (.integrityEvent 0 8 0 9) base) (fun t => t == base)) = true := by decide +kernel

/-- R452 to R454: a pre-empt of a running launch and of none, a command while one is outstanding, the mark before and after it has come, and the two ends of a pre-emption. -/
theorem wit_PreemptEvents :
    (let s := fun (st : Nat) (p : Option Preempt) => { launched (launchRec 0 0) (fun e => { e with st := st, placed := true }) with preempt := p }
     let cmd := pack [(62, 1), (0, 5)]
     ends (exec (.preemptLaunch 0 cmd) ((s 2 none).setReg 0 0x0608 0x10000009000)) (fun t => t.preempt == some ⟨1, 0, 5, 0x10000009000, 36100, [], []⟩ && (t.lent 0 3).paused)
     && ends (exec (.preemptLaunch 0 (pack [(62, 1), (0, 6)])) (s 2 none)) (fun t => t.preempt.isNone && bits (t.reg 3 0x0610) 32 32 == 1)
     && ends (exec (.preemptLaunch 0 cmd) (s 2 (some ⟨1, 0, 5, 0, 36100, [], []⟩))) (fun t => (t.reg 0 0x0610).getLsbD 1)
     && ends (exec .preemptDeadline (s 2 (some ⟨1, 0, 5, 0, 101, [], []⟩))) (fun t => t.preempt.any (fun p => p.mark == 101)) && ends (exec .preemptDeadline (s 2 (some ⟨1, 0, 5, 0, 100, [], []⟩))) (fun t => t.preempt.any (fun p => p.mark == 0))
     && (s 2 none).findLaunch 5 == some (0, 3) && (s 2 none).ioIdle 5 && !((s 2 none).modAc 0 fun a => { a with io := { a.io with pours := [(1, 5)] } }).ioIdle 5
     && ends (exec .preemptComplete (s 2 (some ⟨3, 0, 5, 0, 0, [], []⟩))) (fun t => t.preempt.isNone && (t.die 0).ltab.isEmpty)) = true := by decide +kernel

/-- Both host links are up, BAR0 of port 0 is at the first byte of HBM of D0. -/
def linked : State := inMem.setReg 0 0x8008 1

/-- R458 to R466, R166: requests of a host, without a link and with one, inside a granule; its own store; a training, a vector, a confirmation. -/
theorem wit_HostEvents :
    (let at' := fun (k : AKind) (n : Nat) => (barPa linked 0 2 0x1000).any fun pa => pa == 0x1000 && (mmioOf 0 pa).isNone && (checkPhys linked (.host 0) k pa n).isNone
     let k := canonPa 0 0x1000
     !linkUp inMem 0 && linkUp linked 0 && at' .read 4 && at' .write 2 && at' .atomic 8 && (barPa linked 0 0 0x1000).isSome
     && ends (exec (.hostRead 0 ⟨.plain, 2⟩ 0x1000 4) inMem) (fun t => t == inMem)
     && ends (exec (.hostRead 0 ⟨.plain, 2⟩ 0x1000 4) linked) (fun t => smFind t.extIn (Agent.host 0).key == some [0, 0, 0, 0])
     && ends (exec (.hostWrite 0 ⟨.plain, 2⟩ 0x1000 [9, 8]) linked) (fun t => memByte t k == 9 && memByte t (k + 1) == 8)
     && ends (exec (.hostAtomic 0 ⟨.plain, 2⟩ 0x1000 true (.amo .add 5)) linked) (fun t => memByte t k == 5 && smFind t.extIn (Agent.host 0).key == some [0, 0, 0, 0, 0, 0, 0, 0])
     && ends (exec (.hostOwnStore 1 0x40 [7]) base) (fun t => memByte t 0xC000000000040 == 7) && ends (exec (.hostOwnStore 2 0x40 [7]) base) (fun t => t == base)
     && ends (exec (.hostLinkTraining 1 true true 6 4) (base.setReg 2 0x8000 0x6003)) (fun t => bits (t.reg 2 0x8008) 8 8 == 0x64 && (t.reg 2 0x8008).getLsbD 0 && (t.reg 2 0x8008).getLsbD 2)
     && ends (exec (.hostLinkTraining 0 true false 2 4) (base.setReg 0 0x8000 0x6000)) (fun t => t.reg 0 0x8008 == 0)
     && msiMasked base 1 62 && ends (exec (.hintr 1 62) base) (fun t => !(smGet 0 t.msi 1).getLsbD 62 && (smGet 0 t.msiPend 1).getLsbD 62) && ends (exec (.hostCompletion 1) { base with posted := [(0, 5, [1]), (1, 6, [2])] }) (fun t => t.posted == [(0, 5, [1])])) = true := by decide +kernel

/-- A request of command c of the management core of D1, with its argument's last byte 6, at the first page of HBM. -/
def asked (c : Byte) : State := { (loadBytes 0x1000000103F [] (loadBytes 0x1000000107F [6] (loadBytes 0x10000001000 [c] base))).setReg 0 0xA010 (pack [(48, 0x1001)]) with att := some 0x10000001000 }

/-- R167, R25, R474 to R479, R491: the root core's load, store and fences, a management core before its release, register writes, requests of the root block, the boot's first step and BOOTGO. -/
theorem wit_RootEvents :
    (let k := 0x10000001000
     ends (exec (.managementCoreAccess 2 .load k 8) inMem) (fun t => t == inMem) && (checkPhys inMem .root .read k 8).isNone && (checkPhys inMem .root .write k 8).isNone && (mmioOf 0 k).isNone
     && ends (exec (.managementCoreAccess 4 .load k 8) inMem) (fun t => smFind t.extIn Agent.root.key == some [1, 2, 3, 4, 5, 6, 7, 0xF8])
     && ends (exec (.managementCoreAccess 4 (.store 0x1234) k 2) inMem) (fun t => memByte t k == 0x34 && memByte t (k + 1) == 0x12)
     && (checkPhys (inMem.setReg 0 0x0810 2) (.mcore 1) .read k 8).isNone && ends (exec (.managementCoreAccess 1 .load k 4) (inMem.setReg 0 0x0810 2)) (fun t => smFind t.extIn (Agent.mcore 1).key == some [1, 2, 3, 4])
     && ends (exec (.managementCoreAccess 4 .fenceRel k 8) inMem) (fun _ => true) && ends (exec (.managementCoreAccess 4 .fenceAcq k 8) inMem) (fun _ => true)
     && ends (exec (.registerWrite 3 0x0410 (-1)) base) (fun t => t.reg 3 0x0410 == 0xFFFFFFFFF0000) && ends (exec (.registerWrite 0 0x23000 7) base) (fun t => t.reg 0 0x23000 == 1)
     && (rootRequest k (asked 1)).1 == 1 && (rootRequest k (asked 2)).1 == 2 && (rootRequest k (asked 3)).1 == 3
     && ends (exec .rootExtend ((asked 3).setReg 0 0xA010 (pack [(48, 0x0001)]))) (fun t => t.att.isNone && t.meas == base.meas)
     && bits ((asked 3).reg 0 0xA010) 48 16 == 0x1001
     && base.att.isNone && !(base.reg 0 0x0810).getLsbD 0
     && masterOf 0x1004 == some .root && (checkGranule base .root .write 0x30000000808 8).isNone && masterOf 0x2000 == some (.ac 0 0)
     && (checkGranule (base.modDie 0 fun d => { d with acl := [] }) (.ac 0 0) .write 0x30000000808 8).isSome) = true := by decide +kernel

/-- R477: M6 extended with the argument: its new value is the digest of the old one and the argument. -/
theorem wit_RootEvents_extend : ends (exec .rootExtend (asked 3)) (fun t => t.att.isNone && meas t 6 != 0 && meas t 5 == 0) = true := by decide +kernel

/-- R490, R494, R495: a temperature below and above the thresholds, 115 degrees, and a reset. -/
theorem wit_PowerEvents :
    (let s := linked.setTile 0 3 { linked.tile 0 3 with plf := [(7, 5)] }
     ends (exec (.thermalWarn 2 759) s) (fun t => t.reg 2 0x10018 == 759 && !(t.reg 2 0x10010).getLsbD 32 && !t.stopped)
     && ends (exec (.thermalWarn 2 760) s) (fun t => (t.reg 2 0x10010).getLsbD 32 && !t.stopped) && ends (exec (.thermalShutdown 2 919) s) (fun t => !t.stopped && t.reg 0 0x8008 == 1)
     && ends (exec (.thermalShutdown 2 920) s) (fun t => t.stopped && t.ttrip && t.reg 0 0x8008 == 0)
     && ends (exec .partReset { s with ttrip := true, stopped := true }) (fun t => !t.stopped && t.reg 0 0x0810 == 8 && (t.ac 0).cc.task.isNone && memByte t 0x10000001000 == 0 && (t.tile 0 3).plf == [(7, 5)])) = true := by decide +kernel

/-- R9, R139: the state of the tests keeps the memory's invariant. -/
theorem wit_MemoryKept : MemoryInv inMem := by
  have h : inMem.agm = [] := by decide +kernel
  refine ⟨(by decide +kernel : Memory.wf inMem.mem = true), by decide +kernel, fun a => ?_⟩
  simp only [State.agent, h]
  rfl

/-- A NOP at 0x40000 for the control core, an ENOP at 0x50000 for VL, and a KHALT for a kettle. -/
def coded : State := loadBytes 0x10000050000 [0x10, 2, 0, 0] (loadBytes 0x10000040000 [0x34, 1, 0, 0] base)

/-- R275, R276, R278, R285, R109: for each kind of unit, a state in which it is next and its instruction is there. -/
theorem wit_StepRunsDecoded :
    (let c := { coded with agenda := [.cc 0] }
     let e := { (withE .vl [] coded) with agenda := [.eng 0 .vl] }
     okay (fetchWords 0 (.ac 0 0) 0x40000 coded) (fun ws _ => reads .cc ws == some (.nop hc)) && (boundaryTrap 0 coded).isNone
     && (coded.ac 0).cc.xl.isNone && (coded.ac 0).cc.xlAbort.isNone && !(coded.ac 0).cc.saving && (coded.ac 0).cc.task.isSome && (coded.ac 0).cc.entry.isNone
     && ends (step c) (fun t => (t.ac 0).cc.pc == 0x40004 && t.agenda.isEmpty)
     && ((withE .vl [] coded).ac 0).vl.st == 1 && ((withE .vl [] coded).ac 0).vl.xl.isNone && ((withE .vl [] coded).ac 0).vl.giveN == 0
     && okay (fetchWords 0 (engAgent 0 .vl) 0x50000 (withE .vl [] coded)) (fun ws _ => reads (.eng .vl) ws == some (.enop hn))
     && ends (step e) (fun t => (t.ac 0).vl.upc == 0x50004)
     && (kdecode (kencode .khalt)).isSome && ends (step { (kettle 127 [kencode .khalt]) with agenda := [.kettle 0] }) (fun t => (t.kettle 0).run.isNone || (t.kettle 0).kpc == 0)
     && unitOk (.hintr 1 62) && ends (step { coded with agenda := [.event (.hintr 1 62)] }) (fun t => (smGet 0 t.msiPend 1).getLsbD 62)
     && okay (xlate (.ac 0 0) .fetch 0x40000 coded) (fun p t => p.1 == 0x10000040000 && (checkAccess t (.ac 0 0) .fetch p.1 4).isNone && (mmioOf 0 p.1).isNone && (smFind (t.ac 0).cc.icache (p.1 / 128)).isNone)) = true := by decide +kernel

/-- R261 to R273, R109: instructions that the checks take, of each unit, in each length. -/
theorem wit_EncodeRoundTrip :
    (WellFormed .cc (.ld hc2 3 20 1 (.i8 0)) && WellFormed .cc (.li hc3 9 (.lit 0xDEADBEEF)) && WellFormed (.eng .vl) (.enop hn) && WellFormed (.eng .va) (.vadd hv2 ⟨false, .rne⟩ 32 (.r 2) (.i8 1))
     && WellFormed (.eng .ax) (.afwd hn2 false true 4 (.r 5) 6 7) && KWellFormed (.kfma 2 0 (.k 20) 1)) = true := by decide +kernel

/-- R9, R139: a step that stores. -/
theorem wit_StepKeepsMemory : MemoryOk coded ∧ ∃ t, step { coded with agenda := [.event (.hostOwnStore 1 0x40 [7])] } = .next t :=
  ⟨(by decide +kernel : Memory.wf coded.mem = true), _, rfl⟩
/-! ### What the statements of this round ask besides -/

/-- R287: the events that end the waits of the CC, and of RPUT, run the waiting instruction's effect. -/
theorem wit_WaitsEnd :
    (let s := withS [(1, 0x2000), (2, 10), (3, 1), (4, 0)] base
     let past := fun (t : State) => (t.ac 0).cc.wait.isNone && (t.ac 0).cc.task.isSome
     ends (exec (.joinDone 0) (waitsIn (.join hc2 (.i8 31)) base)) (fun t => (t.ac 0).cc.pc == 0x40008 && past t)
     && ends (exec (.retqArrive 0) (waitsIn (.retq hc 9) withRet)) (fun t => (t.ac 0).cc.s 9 == 77 && past t)
     && ends (exec (.tlwaitPass 0) (waitsIn (.tlwait hc .fab 5 (.r 0)) base)) past
     && ends (exec (.cpywDone 0) (waitsIn (.cpyw hc2 false 9 1 (.r 2) 3) (loadBytes 0x10000002000 [1] s))) (fun t => (t.ac 0).cc.s 9 == 1 && past t)
     && ends (exec (.cpywTimeout 0) (waitsIn (.cpyw hc2 false 9 1 (.r 2) 3) s)) (fun t => (t.ac 0).cc.s 9 == 0 && past t)
     && ends (exec (.pwaitDone 0) (waitsIn (.pwait hc false 9 1 (.r 3)) (loadBytes 0x10000002000 [7, 0, 0, 0, 1] s))) (fun t => (t.ac 0).cc.s 9 == 0x100000007 && past t)
     && ends (exec (.nmfenceDone 0) (waitsIn (.nmfence hc .pkg) base)) past
     && ends (exec (.rwaitArrive 0) (waitsIn (.rwait hc 8 1) (loadBytes 0x20000004080 [0x55, 0, 0, 0, 3, 0, 0, 0, 4] (withS [(1, 0x20004000)] (ring 1))))) (fun t => (t.ac 0).cc.s 8 == 0x300000055 && past t)
     && ends (exec (.rputSlotFree 0) ((withE .vs [(1, 0x20000000), (2, 0x1000), (4, 0x550001), (5, 0)] (ring 0)).modEng 0 .vs fun x => { x with wait := some (.rput hn2 1 2 4) }))
       (fun t => memByte t 0x20000004082 == 0x55 && (t.ac 0).vs.wait.isNone)) = true := by decide +kernel

/-- The pushes of queue q find no room: its QCAP is 0. -/
def noRoom (q : Nat) : State := base.modCC 0 fun c => c.setSr (0x088 + q) 0

/-- R436: a push that is granted, one that finds no room, and one that is granted although an older push to another queue waits. -/
theorem wit_PushGranted : PushGranted (base.ac 0) 0 0 1 ∧ PushGranted (base.ac 0) 3 5 1 ∧ ¬QueueRoom ((noRoom 0).ac 0) 0 1 ∧ ¬QueueRoom ((noRoom 5).ac 0) 5 1
    ∧ ends (exec (.pushk hc .vl 1 0) (noRoom 0)) (fun t => (t.ac 0).cc.wait.isSome && (t.ac 0).ln.pushWait == [⟨0, 0, 1⟩])
    ∧ ends (exec (.eret hn (.x 1)) { withE .vs [] (noRoom 5) with cur := engAgent 0 .vs }) (fun t => (t.ac 0).vs.wait.isSome && (t.ac 0).ln.pushWait == [⟨3, 5, 1⟩])
    ∧ ends (exec (.queuePushGrant 0) (waitsIn (.pushk hc .vl 1 0) ((noRoom 5).modAc 0 fun a => { a with ln := { a.ln with pushWait := [⟨3, 5, 1⟩, ⟨0, 0, 1⟩] } })))
      (fun t => (t.ac 0).vl.q.length == 1 && (t.ac 0).ln.pushWait == [⟨3, 5, 1⟩]) := by
  have hq : (base.ac 0).ln.pushWait = [] := by decide +kernel
  have none : ∀ u q k, QueueRoom (base.ac 0) q k → PushGranted (base.ac 0) u q k := fun u q k h => ⟨h, fun o w r e => by simp [hq] at e⟩
  refine ⟨none _ _ _ (by unfold QueueRoom; decide +kernel), none _ _ _ (by unfold QueueRoom; decide +kernel), by unfold QueueRoom; decide +kernel,
    by unfold QueueRoom; decide +kernel, by decide +kernel, by decide +kernel, by decide +kernel⟩

/-- R101: a block that asks for a CLIP and for the count in P[7], and one whose program is not read. -/
theorem wit_NearMemory_forms :
    (let block := fun (w3 : W64) => withS [(1, 0x1000), (2, 1)] (loadBytes 0x10000001000 ((nmBlock.set 3 w3).flatMap bytes64) tensors)
     ends (exec (.nmrun hc2 9 1 2 (.r 0)) (block (pack [(30, 1), (28, 1), (16, 256), (0, 1)]))) (fun t => t.kissue.map (fun e => (e.p7, e.clip.isSome)) == [(some 0x10000003038, true)])
     && ends (exec (.nmrun hc2 9 1 2 (.r 0)) (block 0)) (fun t => t.kissue.map (fun e => (e.prog, e.stage)) == [([], 0)])
     && ends (exec (.nmrun hc2 9 1 2 (.r 0)) (nmState.modAc 0 fun a => { a with io := { a.io with nm := List.replicate 8 ⟨1, [0], 0⟩ } })) (fun t => (t.ac 0).cc.wait.isSome)) = true := by decide +kernel

/-- R166: a chunk whose bytes go to a host window sets its bit once the port has confirmed them. -/
theorem wit_CopyMoves_host :
    (let s := copying.modAc 0 fun a => { a with io := { a.io with copies := a.io.copies.map fun c => { c with dst := [(0x8000000000000, 64)] } } }
     ends (exec (.copyChunkDone 0 0) s) (fun t => !t.posted.isEmpty && memByte t 0x10000002000 == 0 && (t.ac 0).io.copies.map (·.wrote) == [true]
       && ends (exec (.copyChunkDone 0 0) t) (fun u => (u.ac 0).io.copies.map (·.done) == [0])
       && ends (exec (.copyChunkDone 0 0) { t with posted := [] }) (fun u => memByte u 0x10000002000 == 1 && (u.ac 0).io.copies.map (·.done) == [1]))) = true := by decide +kernel

/-- R131, R132: a queue of 1,024 entries has no room. -/
theorem wit_VectorStores_full :
    (let s := (withE .vs [(1, 0x1000), (2, 64), (3, 0x1100)] tensors).modKettle 0 fun k => { k with atomq := List.replicate 1024 ⟨0x10000001040, .store (.ac 0 3) 0 []⟩ }
     ends (exec (.vsta hn2 .sadd 1 32 1 2 3 0) s) (fun t => (t.ac 0).vs.wait.isSome && t.kettles.map (fun k => k.2.atomq.length) == [1024])) = true := by decide +kernel

/-- R469, R470: what a port answers, and a request that has not left by a port because its route is not valid. -/
theorem wit_FabricEvents_answers :
    (let s := (inMem.setReg 0 0xC010 (pack [(63, 1), (0, 0x1000)])).setReg 0 0xC018 0x1000
     ends (exec (.fabricIngressWrite 0 0x100000010 true false [5, 6]) s) (fun t => t.fabOut == [(0, 0, .ack)])
     && ends (exec (.fabricIngressWrite 0 0x200000010 true true [5, 6]) s) (fun t => t.fabOut.any fun x => match x.2.2 with | .nack .. => true | _ => false)
     && ends (exec (.fabricRingFree 0 1 0 3 0) (loadBytes 0x10000001100 [0x14] s)) (fun t => memByte t 0x10000001100 == 0x14 && t.fabOut == [(0, 0, .nack 0 0)])
     && ends (exec (.nodeRouteInvalid 1) ({ s with fab := [⟨.put 0, 1, 0x1000000000000, .write [] false, none, false⟩] }.modEng 0 .vs fun x => { x with st := 1 }))
       (fun t => (t.ac 0).vs.fcause == 6 && t.fab.isEmpty)) = true := by decide +kernel

/-- R164, R250: the completion of a launch by each kind of word 11, and what dispatch reads of what a launch hands over. -/
theorem wit_LaunchEvents_completion :
    (let l := fun (k : Nat) => (launchRec 0 0).set 11 (pack [(62, k), (0, 0x2000)])
     let s := fun (k : Nat) => launched (l k) fun e => { e with st := 3, epoch := 1, placed := true, epDone := 2, done := 4, ranAll := [0] }
     okay (completion 0 3 (l 1) (s 1)) (fun _ _ => true) && okay (completion 0 3 (l 2) (s 2)) (fun _ _ => true)
     && ends (exec (.launchComplete 0 3) (s 1)) (fun t => (t.die 0).ltab.isEmpty) && ends (exec (.launchComplete 0 3) (s 2)) (fun t => (t.die 0).ltab.isEmpty)
     && okay (readHanded 0 0x1000 base) (fun _ _ => true)) = true := by decide +kernel

/-- R173, R473: a pour that comes in by port 0, for this part and for node 1, while the home has an on-time pour in hand. -/
theorem wit_PotEvents_far :
    (let busy := base.modDie 0 fun x => { x with pots := [aPot 2], potNow := some (aPour true 0) }
     let valid := { busy with mem := (loadBytes 0x10000000017 [0x80] busy).mem }.setReg 0 0xB000 (pack [(20, 0x100000)])
     ends (exec (.pourArrive 0 (some ⟨0, .pour, 0x3000, 7, [1], 1, 0, false, 0xFFFF, 0⟩)) busy) (fun t => (t.die 0).potIn.map (fun r => (r.raw, r.ready, r.sum)) == [(some 0x10000003000, true, 1)])
     && valid.routeValid 0 1 && ends (exec (.pourArrive 0 (some ⟨0, .pour, 0x3000, 7, [1], 1, 0, false, 1, 0⟩)) valid) (fun t => t.fab.map (fun x => (x.node, x.addr)) == [(1, 0x3000)])) = true := by decide +kernel

/-- R253: a continuation that waits for a tag, and one that waits for bits. -/
theorem wit_LaunchEvents_waits :
    (let s := fun (k : Nat) (v : W64) => (loadBytes 0x10000003000 [3, 0, 0, 0, 5] base).modDie 0 fun x => { x with conts := [⟨0x2000, 5, 3, 0, 0, k, 0, 0x3000, v, 0, false, 0⟩] }
     let ready := fun (k : Nat) (v : W64) => ends (exec (.continuationReady 0 0x2000) (s k v)) fun t => (t.die 0).conts.map (·.ready) == [true]
     ready 2 5 && !ready 2 6 && ready 3 3 && !ready 3 4) = true := by decide +kernel

/-- R82: bytes that the cluster has not released are parked with their line. -/
theorem wit_CacheEvents_parked :
    (let s := plainStore (.ac 0 0) true 0x1000 0x10000001000 [7] (inMem.setReg 0 0x0418 4)
     s.holdsLine (.ac 0 0) (0x10000001000 / 128) && s.place (.ac 0 0) .ac true 0x10000001000 == .l1 0 && !s.overQuota 0 (0x10000001000 / 128)
     && ends (exec (.cacheWriteback 0 (0x10000001000 / 128)) s) (fun t => t.parked.map (fun p => (p.ac, p.unit, p.line)) == [(0, 0, 0x10000001000 / 128)])) = true := by decide +kernel

/-- R397, R441, R443, R457: an entry that waits for AX and one that goes on, a fault of VL at a trap, and lost data while another event is pending. -/
theorem wit_EventTraps_more :
    (let p : Pending := ⟨0, 0x20, 0, 0, 0, 0, false⟩
     let s := base.modCC 0 fun c => { c with entry := some (p, 90, false) }
     let held := s.modAc 0 fun a => { a with axq := [⟨0, [], true, 0, 0, false, 0, 0, [], ([], false, false, 0), 0⟩] }
     (held.ac 0).powerHeld && ends (exec (.trapEntry 0) held) (fun t => t == held)
     && !(s.ac 0).powerHeld && ends (exec (.trapEntry 0) s) (fun t => (t.ac 0).cc.task == none)
     && ends (exec (.engineFault 0 .vl 5 1 2) (s.modEng 0 .vl fun x => { x with st := 1 })) (fun t => (t.ac 0).vl.st == 1 && (t.ac 0).vl.deferred && (t.ac 0).vl.fcause == 5)
     && ends (exec (.integrityEvent 0 7 0 9) (base.modCC 0 fun x => { x with mint := some 7 })) (fun t => (t.ac 0).cc.task.isSome && t.reg 0 0x600138 == 1)) = true := by decide +kernel

/-- R453: a cluster that may stop at the mark, one that may stop only after it, and one that is in a handler then. -/
theorem wit_PreemptEvents_stops :
    (let run := fun (h : Bool) => (launched (launchRec 0 0) (fun e => { e with st := 2, placed := true })).modCC 0 fun c => { c with task := some { loadTask with launch := 5, ent := 3 }, h := h }
     let s := fun (h : Bool) (mark : Nat) (todo : List Nat) => { run h with preempt := some ⟨1, 0, 5, 0x10000200000, mark, todo, []⟩ }
     (run false).running 5 == [0] && mayStop 0 (s false 0 [0]) && !mayStop 0 (s true 0 [0])
     && ends (exec .preemptDeadline (s false 100 [0])) (fun t => (t.ac 0).cc.saving) && ends (exec .preemptDeadline (s true 100 [0])) (fun t => !(t.ac 0).cc.saving && bits (t.reg 0 0x0610) 16 16 == 0)
     && ends (exec .preemptComplete (s false 0 [0])) (fun t => (t.ac 0).cc.saving && bits (t.reg 0 0x0610) 16 16 == 1) && ends (exec .preemptComplete (s true 0 [0])) (fun t => t == s true 0 [0])) = true := by decide +kernel

/-- R458, R459, R476: a vector that is not masked is sent; BOOTGO starts nothing before ROOTOK, and with no staging range is rejected. -/
theorem wit_HostEvents_more :
    (let s := { base with msiTab := [(0x10000 + 16 * 62 + 12, 0)] }
     !msiMasked s 1 62 && ends (exec (.hintr 1 62) s) (fun t => (smGet 0 t.msi 1).getLsbD 62 && !(smGet 0 t.msiPend 1).getLsbD 62)
     && ends (exec (.bootgo 0x1004 ⟨1, 0⟩) base) (fun t => t == base)
     && !stagingOk 0 0 && ends (exec (.bootgo 0x1004 ⟨1, 0⟩) (base.setReg 0 0x0810 1)) (fun t => (t.reg 0 0x0810).getLsbD 2 && !(t.reg 0 0x0810).getLsbD 1)) = true := by decide +kernel

/-- R273, R78: PCARVE to 8 granules and MXCFG of register 33 under a false predicate; PCARVE to 9 is checked all the same. -/
theorem wit_PredicateFalse_checks :
    (let h : Head := ⟨.w1, .cc true 0⟩
     let past := fun (t : State) => (t.ac 0).cc.pc == 0x40004 && (t.ac 0).cc.task.isSome
     ownCheck (withS [(1, 8)] base |>.ac 0).cc (.pcarve h (.r 1)) ∧ ownCheck (base.ac 0).cc (.mxcfg h 33 (.r 1))
     ∧ ends (exec (.pcarve h (.r 1)) (withS [(1, 8)] base)) past = true ∧ ends (exec (.mxcfg h 33 (.r 1)) (withS [(1, 7)] base)) (fun t => past t && (t.ac 0).mxu.sh == []) = true
     ∧ ends (exec (.pcarve h (.r 1)) (withS [(1, 9)] base)) (fun t => (t.ac 0).cc.task == none) = true) := by
  refine ⟨?_, ?_, ?_, ?_, ?_⟩ <;> first | (simp only [ownCheck]; decide +kernel) | decide +kernel

/-- R16: ranges that go on beyond 2^55. -/
theorem wit_Ranges_end :
    ends (exec (.ld hc 3 9 1 (.r 0)) (withS [(1, 0x7FFFFFFFFFFFFC)] inMem)) (fun t => (t.ac 0).cc.task == none)
    ∧ ends (exec (.st hc2 3 1 (.r 0) 2) (withS [(1, 0x7FFFFFFFFFFFFC)] inMem)) (fun t => (t.ac 0).cc.task == none && t.mem == inMem.mem)
    ∧ stops .vl (withE .vl [(1, 0x7FFFFFFFFFFFFC)] inMem) (.ld hn 3 9 1 (.r 0)) 3 := by decide +kernel

/-- R287: nothing of higher rank is taken at the boundary where the waits of the tests end. -/
theorem wit_WaitsEnd_boundary : boundaryTrap 0 (waitsIn (.wfe hc) base) = none ∧ boundaryTrap 0 (waitsIn (.retq hc 9) withRet) = none := by decide +kernel

/-- R141, R166: releases that are complete at each scope, one that is not, and the pending store that a release takes. -/
theorem wit_ReleaseAcquire_queued :
    (release (.ac 0 0) .fab written).queued (fun _ => true) = false ∧ (release (.ac 0 0) .die written).queued (fun _ => true) = false
    ∧ (let s := plainStore (.ac 0 0) false 0x1000 0x10000001000 [7] inMem
       pendByte (s.agent (.ac 0 0)).pend 0x10000001000 = some 7 ∧ (release (.ac 0 0) .pkg s).queued (fun _ => true) = false
       ∧ (release (.ac 0 0) .pkg (s.modKettle 32 fun k => { k with atomq := [⟨0x10000001000, .atom .sadd [1] 1 0 0⟩] })).settled .pkg (fun _ => true) = true) := by decide +kernel

/-- A result of VA for v40 that lands in a cycle. -/
def result (land : Nat) (v : VWord) : Flight := ⟨land, false, 0, 40, 0, 0, 0, 3, [v], 0, 0, none⟩

/-- R366: of two results whose cycle has come the later one is written last; one of them; none. -/
theorem wit_VectorLoops_two :
    (let s := fun (f g : Nat) => base.modAc 0 fun a => { a with vec := { a.vec with flight := [result f 5, result g 9], issued := 101 } }
     let lands := fun (f g n v : Nat) => ends (exec (.vaResultLanding 0) (s f g)) fun t => (t.ac 0).vec.flight.length == n && (t.ac 0).vec.vr 40 == BitVec.ofNat 8192 v
     lands 99 100 0 9 && lands 100 101 1 5 && lands 101 101 2 0) = true := by decide +kernel

/-- R413, R418, R412: a row that is read, one whose operand has an address out of range, and drains whose registers 4 and 10 have a reserved bit. -/
theorem wit_Matrix_rows :
    (let r : TileRun := ⟨0x100000001000, tdt256, tdt256, 0, true, false, []⟩
     okay (rowRead 0 (tile 0) r 0 (tiles (tile 0) (some r) 0)) (fun x _ => x.cols.length == 1 && x.scales == []) && smSorted 0 ((tiles (tile 0) (some r) 0).ac 0).mxu.acc
     && (match rowRead 0 { tile 0 with sh := (0, 0x80000000000000) :: (tile 0).sh.drop 1 } r 0 (tiles (tile 0) (some r) 0) with | .error (.trap ..) _ => true | _ => false)
     && drainBad ⟨2, [(10, 64)], 0, false, false, 0, 0⟩ == some 64 && ends (exec (.mxdrain hc true true 9 (.r 0)) (base.modMx 0 fun m => { m with sh := [(10, 64)] })) (fun t => (t.ac 0).cc.task == none)
     && drainBad ⟨2, [(4, 64)], 0, false, false, 0, 0⟩ == some 64 && drainBad ⟨2, [], 0, false, false, 0, 0⟩ == none) = true := by decide +kernel

/-- R242: the last task of an epoch frees the walkers that are spent. -/
theorem wit_TaskEnds_walkers :
    (let s := ((launched (launchRec 0 0) fun e => { e with st := 2, placed := true, epDone := 1 }).modDie 0 fun x => { x with walkers := [(4, ⟨5, 0, 2, 2, 1, 0⟩)] }).modCC 0
       fun c => { c with task := some { loadTask with launch := 5, ent := 3, lrec := launchRec 0 0 } }
     ends (exec (.halt hc) s) (fun t => (t.ac 0).cc.task.isNone && (t.die 0).walkers.isEmpty && (t.lent 0 3).epDone == 2)) = true := by decide +kernel

/-- R239, R166: the next epoch waits for the confirmation of what its clusters wrote to the hosts. -/
theorem wit_LaunchEvents_settled :
    (let l := (launchRec 0 0)
     let s := fun (p : List (Nat × Nat × List Byte)) => { launched l (fun e => { e with st := 2, placed := true, epDone := 2, ran := [0] }) with posted := p }
     let sc := transitionScope l 0
     (s []).settledAcs sc [0] && (decide (3 ≤ Scope.rank sc) == !(s [(0, 5, [1])]).settledAcs sc [0])
     && (s []).settledAcs .pkg [0] && !(s [(0, 5, [1])]).settledAcs .pkg [0]
     && ends (exec (.launchComplete 0 3) ((s [(0, 5, [1])]).modLent 0 3 fun e => { e with st := 3, epoch := 1, done := 4, ranAll := [0] })) (fun t => (t.die 0).ltab.length == 1)) = true := by decide +kernel

/-- A continuation of launch 5 that is ready, its record at 0x2000: mask of s8, PC 0x48000, and s8 = 7; word 6 is w. -/
def continued (w : W64) : State :=
  let rec' := (wordBytes [pack [(62, 1), (52, 1)], 0x100, 0x48000, 0, 0, 0, w, 0, 7])
  (((loadBytes 0x10000002000 rec' (launched (launchRec 0 0) fun e => { e with st := 2, placed := true })).setReg 0 0x21000 (pack [(63, 1), (32, 1), (0, 5)])).setReg 0 0x23000 1).modDie 0
    fun x => { x with conts := [⟨0x2000, 5, 0, 0, 0, 0, 0, 0, 0, 0, true, 0⟩] }

/-- R254, R251: the continuation is resumed; one whose record breaks its table cancels the launch. -/
theorem wit_TaskStarts_resume :
    (let s := continued 0
     (firstItem (s.items 0)).any (fun x => x.cont.isSome) && (s.ac 0).idle && (s.die 0).waits.isEmpty
     && ends (exec (.dispatchDecision 0) s) (fun t => (t.ac 0).cc.task.any (·.launch == 5) && (t.ac 0).cc.pc == 0x48000 && (t.ac 0).cc.s 8 == 7 && (t.ac 0).cc.resumed && (t.die 0).conts.isEmpty)
     && ends (exec (.dispatchDecision 0) (continued 1)) (fun t => (t.ac 0).cc.task.isNone && (t.lent 0 3).cancelled)) = true := by decide +kernel

/-- Launch 5 has a walker on die 1 alone, of coordinates next to 8; k slots of die 0 are taken by another launch. -/
def splits (next gran k : Nat) : State :=
  (((launched (launchRec 0 0) fun e => { e with st := 2, placed := true }).setReg 0 0x21000 (pack [(63, 1), (32, 1), (0, 5)])).setReg 0 0x23000 1).modDie 0
    (fun x => { x with walkers := (List.range k).map fun i => (i, ⟨6, 0, 0, 2, 1, 0⟩) }) |>.modDie 1 fun x => { x with walkers := [(2, ⟨5, 0, next, 8, gran, 0⟩)] }

/-- R243, R242: a split with a free slot and with none, and one that leaves no whole granule. -/
theorem wit_TaskStarts_split :
    (let s := splits 0 1 0
     (firstItem (s.items 0)).isNone && s.usable 0 0 == some (0, 3) && ((List.range 8).all fun j => j == 0 || (s.usable 0 j).isNone) && s.eligible 0 (s.lent 0 3) && splittable (s.lent 0 3)
     && ends (exec (.dispatchDecision 0) s) (fun t => (t.ac 0).cc.task.map (·.lin) == some 4 && (t.die 1).walkers == [(2, ⟨5, 0, 0, 4, 1, 0⟩)] && (t.die 0).walkers == [(0, ⟨5, 0, 5, 8, 1, 1⟩)])
     && ((splits 0 2 32).die 0).freeSlot.isNone && ends (exec (.dispatchDecision 0) (splits 0 2 32)) (fun t => (t.ac 0).cc.task.map (·.lin) == some 6 && (t.die 1).walkers == [(2, ⟨5, 0, 0, 6, 2, 0⟩)] && (t.ac 0).claimOf 5 == some (5, 7, 8))
     && ends (exec (.dispatchDecision 0) (splits 7 1 0)) (fun t => (t.ac 0).cc.task.isNone)
     && ends (exec (.dispatchDecision 0) (splits 0 8 32)) (fun t => (t.ac 0).cc.task.isNone)) = true := by decide +kernel

/-- R45, R59: refusals of other masters: an ingress port, a management core, a host, a kettle that runs a command and dispatch; a refusal while the ring is full is made again later. -/
theorem wit_AccessEvents_masters :
    (let s := base.modDie 0 fun d => { d with acl := [] }
     let refused := fun (m : Nat) (p : State → Bool) => ends (exec (.accessFault m .read ⟨0x10000001000, 0x1000⟩) s) p
     refused 0x5000 (fun t => t.fabOut.any fun x => match x.2.2 with | .nack .. => true | _ => false)
     && refused 0x1000 (fun t => smFind t.mexc (Agent.mcore 0).key == some (5, 0x10000001000)) && (smFind s.mexc (Agent.mcore 0).key).isNone
     && ends (exec (.accessFault 0x0000 .read ⟨0x1000, 0⟩) s) (fun t => smGet 0 t.extEnd (Agent.host 0).key == 2)
     && ends (exec (.accessFault 0x4000 .read ⟨0x10000001000, 0⟩) ((kettle 127 [kencode .khalt]).modDie 0 fun d => { d with acl := [] })) (fun t => (t.kettle 0).run.isNone)
     && ends (exec (.accessFault 0x7000 .read ⟨0x10000001000, 0⟩) s) (fun t => (t.die 0).frPend.length == 1 && t.fabOut == [])
     && (let full := s.modDie 0 fun d => { d with frPend := List.replicate 15 ⟨0, 0, 0, 0⟩ }
         full.ringFull 0 && ends (exec (.accessFault 0x2000 .read ⟨0x10000001000, 0x1000⟩) full) (fun t => t == full))) = true := by decide +kernel

/-- R66: an invalidation takes its entries out of every cache of the die, and waits for a request of a pot in its range. -/
theorem wit_AccessEvents_caches :
    (let e := fun (va : Nat) => (⟨va, 21, 0x10000000000, true, true, false, 0⟩ : TlbEntry)
     let s := (base.modDie 0 fun d => { d with tlbi := some (0, 12, false, false, false), tlb := [e 0, e 0x200000] }).modAc 0 fun a => { a with tlb := [e 0x200000, e 0], utlb := [(1, [e 0])] }
     ends (exec (.tlbInvalDone 0) s) (fun t => (t.die 0).tlb == [e 0x200000] && (t.ac 0).tlb == [e 0x200000] && smGet [] (t.ac 0).utlb 1 == [])
     && (let busy := (base.modDie 0 fun d => { d with tlbi := some (0x3000, 12, false, false, false), potIn := [aPour false 0] })
         busy.invalBusy 0 0x3000 4096 && ends (exec (.tlbInvalDone 0) busy) (fun t => t == busy))) = true := by decide +kernel

/-- R441, R443, R457, R440: a fault of VS that waits while its cluster enters a trap keeps the cycle of its own wait; an event of source 0 names the address of AX's command. -/
theorem wit_EventTraps_deferred :
    (let p : Pending := ⟨0, 0x20, 0, 0, 0, 0, false⟩
     let s := (base.modCC 0 fun c => { c with entry := some (p, 90, false) }).modEng 0 .vs fun x => { x with st := 2, fcycle := 77 }
     ends (exec (.engineFault 0 .vs 5 1 2) s) (fun t => (t.ac 0).vs.deferred && (t.ac 0).vs.fcycle == 77)
     && (let ax := base.modAc 0 fun a => { a with axq := [⟨0, [], false, 0, 0x52000, false, 0, 0, [], ([], false, false, 0), 0⟩] }
         (ax.ac 0).engInstr .ax == 0x52000
         && ends (exec (.integrityEvent 0 0 0 9) (ax.setReg 0 0x600140 1)) (fun t => (t.ac 0).cc.pend.map (·.i3) == [0x52000]))) = true := by decide +kernel

/-- R452, R453: a pre-empt of a launch in DRAIN completes at once; with no cluster that runs the launch the command goes on before the mark. -/
theorem wit_PreemptEvents_drain :
    (let s := fun (st : Nat) (p : Option Preempt) => { launched (launchRec 0 0) (fun e => { e with st := st, placed := true }) with preempt := p }
     ends (exec (.preemptLaunch 0 (pack [(62, 1), (0, 5)])) (s 3 none)) (fun t => t.preempt.isNone && (t.die 0).ltab.length == 1 && bits (t.reg 2 0x0610) 32 32 == 1)
     && (s 2 none).running 5 == []
     && ends (exec .preemptComplete ({ s 2 (some ⟨1, 0, 5, 0x10000200000, 9000, [], []⟩) with }.modAc 0 fun a => { a with io := { a.io with pours := [(1, 5)] } }))
       (fun t => t.preempt.any fun p => p.op == 3)) = true := by decide +kernel

/-- R458: a request of a host that needs ATS, PASID, TPH or a CAS of 128 bits ends with Unsupported Request. -/
theorem wit_HostEvents_unsupported :
    ends (exec (.hostRead 0 ⟨.ats, 2⟩ 0x1000 4) linked) (fun t => smGet 0 t.extEnd (Agent.host 0).key == 1 && t.mem == linked.mem)
    ∧ ends (exec (.hostWrite 0 ⟨.pasid, 2⟩ 0x1000 [9]) linked) (fun t => t.mem == linked.mem)
    ∧ ends (exec (.hostAtomic 0 ⟨.cas128, 2⟩ 0x1000 true (.amo .add 5)) linked) (fun t => smGet 0 t.extEnd (Agent.host 0).key == 1 && t.mem == linked.mem) := by decide +kernel

/-- R167: a fence of a management core, which its release lets run; its PC goes on. -/
theorem wit_RootEvents_cores :
    (let s := inMem.setReg 0 0x0810 2
     ends (exec (.managementCoreAccess 1 .fenceFull 0 8) s) (fun t => t.mem == s.mem) && ends (exec (.managementCoreAccess 1 (.sc false false 5) 0x10000001000 8) s) (fun t => t.mem == s.mem && smFind t.extIn (Agent.mcore 1).key == some [1, 0, 0, 0, 0, 0, 0, 0])) = true := by decide +kernel

/-- R173 to R175, R193: the pot is on the die of the cluster: a join is queued at it, and a pour is taken for its round once its source has been read. -/
theorem wit_PotEvents_home :
    (let s := fun (r : PotReq) => base.modDie 0 fun x => { x with pots := [aPot 2], potQ := [r] }
     let join : PotReq := { aPour true 0 with kind := .join }
     (checkAccess base (.pot 0) .issue 0x30000080000 8).isNone && (base.die 0).waits.isEmpty && bits (0 : W64) 6 10 == 0 && (aPot 2).flag 60 == false && (aPot 2).retire == false
     && ends (exec (.pourArrive 0 none) (s join)) (fun t => (t.die 0).potIn.isEmpty && (t.pot? 0 0x10000003000).any fun q => q.ops == [(.join, 0, 0, 1)])
     && okay (readSource 0 0 (aPour false 0) ((aPot 2).w 0) (base.modDie 0 fun x => { x with pots := [aPot 2], potIn := [aPour false 0] }))
        (fun _ u => match (u.die 0).potIn with | [y] => y.ready && y.kind == .pour && y.parts.length == 1 && y.proxy.isNone
          && (match y.parts with | [z] => potSum (aPot 2).op (aPot 2).plen z.data % potM == y.sum % potM && (aPot 2).verdict z == .fill | _ => false) | _ => false)
     && ends (exec (.pourArrive 0 none) (s (aPour false 0))) (fun t => (t.die 0).potIn.isEmpty && (t.die 0).potNow.any fun y => y.ready && y.pa == 0x10000003000)) = true := by decide +kernel

/-- R166, R470: a write with a release waits for the confirmation of an earlier one, and a later write of its port stands behind it. -/
theorem wit_FabricEvents_held :
    (let s := (inMem.setReg 0 0xC010 (pack [(63, 1), (0, 0x1000)])).setReg 0 0xC018 0x1000
     let p := { s with posted := [(0, 5, [1])] }
     s.settled .fab (· == .ingress 0) && !p.settled .fab (· == .ingress 0)
     && ends (exec (.fabricIngressWrite 0 0x100000010 true true [5, 6]) s) (fun t => memByte t 0x10000001010 == 5)
     && ends (exec (.fabricIngressWrite 0 0x100000010 true true [5, 6]) p) (fun t => memByte t 0x10000001010 == 0 && t.ingHeld.length == 1
       && ends (exec (.fabricIngressWrite 0 0x100000020 true false [7]) t) (fun u => memByte u 0x10000001020 == 0 && u.ingHeld.length == 2))) = true := by decide +kernel

/-- R190, R498, R470: a refused write of a pot's outcome leaves INTEG for its slot and the other sends as they are; a refused notice is forgotten. -/
theorem wit_FabricEvents_outcome :
    (let c : Closing := ⟨0, false, false, [], 0, [], [], [(0, 4)], 1, 0, 1, [], 0, [], 1, []⟩
     let out := fun (slot : Nat) => (⟨.outcome 0 0x3000 slot 0, 1, 0x1000, .write [] false, some 0, false⟩ : FabSend)
     let s := { base.modDie 0 (fun x => { x with pots := [{ aPot 2 with closing := [c] }] }) with fab := [out 0, out 1, ⟨.notice 0, 1, 0x3000, .write [] false, some 0, false⟩] }
     s.potAt 0 0x3000 == 0x10000003000
     && ends (exec (.fabricNack 0 1 2) s) (fun t => t.fab.map (·.acked) == [true, false, false]
       && (t.pot? 0 0x10000003000).any fun q => q.closing.map (fun b => (b.skip, b.integ)) == [([(0, 0)], 1)])
     && ends (exec (.fabricNack 2 1 2) s) (fun t => t.fab == [out 0, out 1])) = true := by decide +kernel

/-- R443, R347: a refused put while the cluster enters a trap is a deferred fault of VS. -/
theorem wit_FabricEvents_deferred :
    (let s := { base with fab := [⟨.put 0, 1, 0x1000000000000, .write [] false, some 0, false⟩] }
     let p : Pending := ⟨0, 0x20, 0, 0, 0, 0, false⟩
     ends (exec (.fabricNack 0 1 2) ((s.modCC 0 fun c => { c with entry := some (p, 90, false) }).modEng 0 .vs fun x => { x with st := 1 })) (fun t => (t.ac 0).vs.deferred && (t.ac 0).vs.fcause == 6)
     && ends (exec (.fabricNack 0 1 2) s) (fun t => (t.ac 0).cc.pend.map (fun x => (x.src, x.cause)) == [(3, 6)])) = true := by decide +kernel

/-- R79: a load of the cluster waits while its carve drains. -/
theorem wit_CacheEvents_stall :
    ends (exec (.ld hc 3 9 1 (.r 0)) ((withS [(1, 0x1000)] inMem).modCC 0 fun c => { c with carve := some ⟨0, 1, 200, none⟩ })) (fun t => (t.ac 0).cc.wait.isSome && (t.ac 0).cc.pc == 0x40000) = true := by decide +kernel

/-- R132, R133: a plain store to a word that an atomic holds is performed when its entry is applied, after the older one. -/
theorem wit_StoreQueued :
    (let k := 0x10000001000
     let s := inMem.modKettle ((homeKettle k).getD 0) fun x => { x with atomq := [⟨k, .atom .sadd (List.replicate 16 1) 0xFFFF 0 0⟩] }
     let t := performAt (.ac 0 0) .home [(.ac 0 0, .pkg)] OpTag.none (k + 1) [9] s
     !(t.versions (k + 1)).any (fun v => v.present .home && v.byte == 9) && (t.kettle ((homeKettle k).getD 0)).atomq.length == 2 && t.queued (fun _ => true)) = true := by decide +kernel

/-! ### Traps, pre-emption and images: the statements whose hypotheses speak of long ranges -/

theorem padTo_length (n : Nat) (l : List W64) : (padTo n l).length = n := by simp [padTo]; omega

theorem leBytes_length (n v : Nat) : (leBytes n v).length = n := by
  induction n generalizing v with
  | zero => rfl
  | succ n ih => simp [leBytes, ih]

theorem wordBytes_length (l : List W64) : (wordBytes l).length = 8 * l.length := by
  induction l with
  | nil => rfl
  | cons w r ih => simp only [wordBytes, List.flatMap_cons, List.length_append, leBytes_length, List.length_cons] at *; omega

theorem frame_length (a : AC) (stop : Nat) (head : List W64) (h : a.queueImage.length = 4096) : (a.frame stop head).length = 10240 := by
  simp only [AC.frame, List.length_append, padTo_length, List.length_map, List.length_range, List.length_replicate, h, allEng, List.flatMap_cons, List.flatMap_nil, List.length_nil]

/-- An operation that succeeds has an answer. -/
theorem okay_ok {α : Type} {m : EStateM.Result Stop State α} (h : okay m (fun _ _ => true) = true) : ∃ x t, m = .ok x t := by
  cases m with
  | ok x t => exact ⟨x, t, rfl⟩
  | error e t => simp [okay] at h

/-- A software trap that the task's first instruction has raised, one that its second would raise. -/
def aTrap : Pending := ⟨0, 0x18, 0x21, 0, 0, 0x40000, false⟩

/-- R442, R440: a software trap meets what the statement asks of an entry. -/
theorem wit_TrapEntered : let s := withTvec base
    aTrap.defer = false ∧ aTrap.cause < 256 ∧ aTrap.src < 8 ∧ (s.ac 0).cc.sr 0x026 ≠ 0
    ∧ ∃ s2, writeReleased (.ac 0 0) .ac ((s.ac 0).cc.sr 0x027) (trapImage 0 aTrap 99 s) s = .ok () s2 := by
  refine ⟨rfl, by decide, by decide, by decide +kernel, ?_⟩
  have hl : (trapImage 0 aTrap 99 (withTvec base)).length = 81920 := by
    rw [trapImage, wordBytes_length, frame_length _ _ _ (by decide +kernel)]
  have hr : okay (reach (.ac 0 0) .write (((withTvec base).ac 0).cc.sr 0x027).toNat 81920 (withTvec base)) (fun _ _ => true) = true := by decide +kernel
  obtain ⟨ps, t, h⟩ := okay_ok hr
  exact writeReleased_ok _ _ _ _ _ t ps (by decide +kernel) (by rw [hl]; exact h)

theorem okay_and {α : Type} {m : EStateM.Result Stop State α} {p : α → State → Bool} (h : okay m p = true) : ∃ x t, m = .ok x t ∧ p x t = true := by
  cases m with
  | ok x t => exact ⟨x, t, rfl, h⟩
  | error e t => simp [okay] at h

theorem flatMap_range_map {α : Type} (f : Nat → α) (m k : Nat) :
    ((List.range m).flatMap fun i => (List.range k).map fun j => f (k * i + j)) = (List.range (k * m)).map f := by
  induction m with
  | zero => simp
  | succ m ih => rw [List.range_succ, List.flatMap_append, ih, Nat.mul_succ, List.range_add]; simp [Function.comp_def]

theorem words64_range' (f : Nat → Byte) (n : Nat) : ∀ a : Nat, words64 ((List.range' a (8 * n)).map f)
    = (List.range n).map fun i => le64 [f (a + 8 * i), f (a + 8 * i + 1), f (a + 8 * i + 2), f (a + 8 * i + 3), f (a + 8 * i + 4),
        f (a + 8 * i + 5), f (a + 8 * i + 6), f (a + 8 * i + 7)] := by
  induction n with
  | zero => intro a; rfl
  | succ n ih =>
    intro a
    rw [List.range_succ_eq_map, Nat.mul_succ]
    simp only [List.range'_succ, List.map_cons, words64, ih, List.map_map]
    simp only [Nat.mul_zero, Nat.add_zero, Function.comp_def, Nat.add_assoc, Nat.reduceAdd]
    refine congrArg (List.cons _) ?_
    apply List.map_congr_left
    intro i _
    simp only [Nat.succ_eq_add_one, Nat.mul_add, Nat.mul_one, Nat.add_left_comm 8, Nat.reduceAdd, Nat.add_assoc]
    simp only [Nat.add_comm _ (8 * i)]

/-- The word of memory at a key. -/
def memWord (s : State) (k : Nat) : W64 := le64 ((List.range 8).map fun j => memByte s (k + j))

theorem words64_mem (s : State) (k n : Nat) : words64 ((List.range (8 * n)).map fun i => memByte s (k + i)) = (List.range n).map fun i => memWord s (k + 8 * i) := by
  rw [List.range_eq_range', words64_range' (fun i => memByte s (k + i))]
  simp [memWord, List.range_succ, Nat.add_assoc]

/-- Control core 0 runs a handler whose save area holds an image: capacities of 512, 2, 2, 2, 2 and 2, a shape of 1 by 1, 512 empty entries of the queue of VL, and zeros. -/
def handler : State :=
  let put := fun (o v : Nat) (s : State) => loadBytes (0x10000100000 + o) [BitVec.ofNat 8 v] s
  put 961 2 <| put 968 2 <| put 976 2 <| put 984 2 <| put 992 2 <| put 1000 2 <| put 2568 1 <| put 2569 1 <| (withTvec base).modCC 0 fun c => { c with h := true }

/-- The pieces of the save area. -/
def saved : List (Nat × Nat × BitVec 2) := (List.range 20).map fun i => (0x10000100000 + 4096 * i, 4096, 0)

/-- The words of the save area. -/
def savedWords : List W64 := (List.range 2048).map (fun i => memWord handler (0x10000100000 + 8 * i)) ++ List.replicate 8192 0

theorem memWord_zero (s : State) (k : Nat) (h : ∀ c ∈ s.mem, c.1 < k) : memWord s k = 0 := by
  have hf : ∀ (m : List Host.Cell) (j : Nat), (∀ c ∈ m, c.1 < j) → smGet 0 m j = 0 := by
    intro m j
    induction m with
    | nil => intro _; rfl
    | cons c r ih =>
      obtain ⟨ck, cv⟩ := c
      intro h
      have h1 : ck < j := h (ck, cv) (by simp)
      have h2 := ih fun x hx => h x (by simp [hx])
      simp only [smGet, smFind_cons] at *
      split
      · rfl
      · split
        · omega
        · exact h2
  have : ∀ j : Nat, memByte s (k + j) = 0 := fun j => hf _ _ fun c hc => Nat.lt_of_lt_of_le (h c hc) (Nat.le_add_right _ _)
  simp only [memWord, this]
  rfl

/-- R445, R319: RFT in a handler whose save area holds an image that keeps every rule. -/
theorem wit_TrapInstructions : (handler.ac 0).cc.h = true ∧ (handler.ac 0).cc.enabled hc = true ∧ (handler.ac 0).drained = true
    ∧ ∃ b s2, readAcquired (.ac 0 0) .ac ((handler.ac 0).cc.sr 0x027) 0x14000 8 handler = .ok b s2 ∧ imageOk (handler.ac 0) (words64 b) = true
      ∧ (∀ e, ((handler.ac 0).eng e).st ≠ 3) ∧ ∀ e, ((words64 b).getD (128 + 32 * (eidCode e - 1)) 0).getLsbD 61 = false := by
  refine ⟨by decide +kernel, by decide +kernel, by decide +kernel, ?_⟩
  have hr : okay (reach (.ac 0 0) .read ((handler.ac 0).cc.sr 0x027).toNat 0x14000 handler) (fun ps t =>
      let t := acquire (.ac 0 0) .ac t
      ps == saved && t.hist == [] && t.agent (.ac 0 0) == ⟨[], [], [], 0⟩ && t.mem == handler.mem) = true := by decide +kernel
  obtain ⟨ps, t, h, hp⟩ := okay_and hr
  simp only [Bool.and_eq_true, beq_iff_eq] at hp
  obtain ⟨⟨⟨rfl, h1⟩, h2⟩, h3⟩ := hp
  have hb := readAcquired_plain (.ac 0 0) .ac _ 0 0x14000 8 handler t saved (by decide) (by decide +kernel) h h1 h2 (by decide +kernel)
  have hc : ∀ i : Nat, i < 20 → canonPa (Agent.ac 0 0).die (0x10000100000 + 4096 * i) = 0x10000100000 + 4096 * i := by decide +kernel
  have hm : ∀ k, memByte (acquire (.ac 0 0) .ac t) k = memByte handler k := fun k => by simp [memByte, h3]
  have hw : words64 (pieceBytes (.ac 0 0) (acquire (.ac 0 0) .ac t) saved) = savedWords := by
    have e : pieceBytes (.ac 0 0) (acquire (.ac 0 0) .ac t) saved = (List.range (8 * 10240)).map fun i => memByte handler (0x10000100000 + i) := by
      rw [← flatMap_range_map _ 20 4096, pieceBytes, saved, List.flatMap_map]
      apply List.flatMap_congr
      intro i hi
      simp only [hc i (List.mem_range.mp hi), hm, Nat.add_assoc]
    have h10 := @List.range_add 2048 8192
    simp only [Nat.reduceAdd] at h10
    rw [e, words64_mem, h10, List.map_append, savedWords]
    refine congrArg (List.append _) ?_
    rw [List.eq_replicate_iff]
    refine ⟨by simp, fun w hw => ?_⟩
    simp only [List.mem_map, List.map_map, List.mem_range, Function.comp_apply] at hw
    obtain ⟨i, _, rfl⟩ := hw
    apply memWord_zero
    have : (handler.mem.all fun c => decide (c.1 < 0x10000100000 + 8 * 2048)) = true := by decide +kernel
    intro c hc
    have := of_decide_eq_true (List.all_eq_true.mp this c hc)
    omega
  refine ⟨_, _, hb, ?_, fun e => by cases e <;> decide +kernel, fun e => ?_⟩
  · rw [hw]
    have hl : ((List.range 2048).map (fun i => memWord handler (0x10000100000 + 8 * i))).length = 2048 := by simp
    have hsub : ∀ i k : Nat, 2048 ≤ i → i + k ≤ 10240 → sub savedWords i k = List.replicate k 0 := by
      intro i k h1 h2
      simp only [sub, savedWords, List.drop_append, List.drop_of_length_le (Nat.le_trans (Nat.le_of_eq hl) h1), hl, List.nil_append, List.drop_replicate,
        List.take_replicate]
      rw [show min k (8192 - (i - 2048)) = k by omega]
    have hs : (List.range 512).map (fun i => slotOf (sub savedWords (2048 + 8 * i) 8)) = List.replicate 512 (.entry 0 ⟨0, false, false, 0, 0, 0, [], 0⟩) := by
      rw [List.eq_replicate_iff]
      refine ⟨by simp, fun x hx => ?_⟩
      simp only [List.mem_map, List.mem_range] at hx
      obtain ⟨i, hi, rfl⟩ := hx
      rw [hsub _ _ (by omega) (by omega)]
      decide
    have hf : (List.range 12).all (fun i => latchOk (sub savedWords (6144 + 288 * i) 288)) = true := by
      rw [List.all_eq_true]
      intro i hi
      rw [hsub _ _ (by omega) (by have := List.mem_range.mp hi; omega)]
      decide
    unfold imageOk
    simp only [hs, hf]
    decide +kernel
  · rw [hw]; cases e <;> decide +kernel

theorem flatMap_length_const {α β : Type} (f : α → List β) (k : Nat) (h : ∀ x, (f x).length = k) (l : List α) : (l.flatMap f).length = k * l.length := by
  induction l with
  | nil => rfl
  | cons x r ih => simp only [List.flatMap_cons, List.length_append, List.length_cons, ih, h]; grind

/-- R420: MXSAVE finds a place for its image, and MXREST reads one of its length. -/
theorem wit_MatrixControl_images : let s := withS [(1, 0x100000)] base
    ((s.ac 0).cc.s 1).toNat % 256 = 0 ∧ (s.ac 0).mxu.saved = false ∧ (s.ac 0).cc.h = false
    ∧ (∃ t, writeReleased (.ac 0 0) .ac ((s.ac 0).cc.s 1) (s.ac 0).mxu.image s = .ok () t)
    ∧ ∃ b t, readAcquired (.ac 0 0) .ac ((s.ac 0).cc.s 1) 69632 8 s = .ok b t ∧ b.length = 69632 := by
  refine ⟨by decide +kernel, by decide +kernel, by decide +kernel, ?_, ?_⟩
  · have hl : (MX.image ((withS [(1, 0x100000)] base).ac 0).mxu).length = 69632 := by
      rw [show ((withS [(1, 0x100000)] base).ac 0).mxu = AC.reset.mxu from by decide +kernel]
      simp only [MX.image, List.length_append, flatMap_length_const _ 4 (fun _ => leBytes_length 4 _), flatMap_length_const _ 8 (fun _ => leBytes_length 8 _),
        padTo_length, List.length_range]
      decide +kernel
    have hr : okay (reach (.ac 0 0) .write ((((withS [(1, 0x100000)] base).ac 0).cc.s 1)).toNat 69632 (withS [(1, 0x100000)] base)) (fun _ _ => true) = true := by decide +kernel
    obtain ⟨ps, t, h⟩ := okay_ok hr
    exact writeReleased_ok _ _ _ _ _ t ps (by decide +kernel) (by rw [hl]; exact h)
  · have hr : okay (reach (.ac 0 0) .read ((((withS [(1, 0x100000)] base).ac 0).cc.s 1)).toNat 69632 (withS [(1, 0x100000)] base)) (fun ps t =>
        let t := acquire (.ac 0 0) .ac t
        ps == (List.range 17).map (fun i => (0x10000100000 + 4096 * i, 4096, 0)) && t.hist == [] && t.agent (.ac 0 0) == ⟨[], [], [], 0⟩) = true := by decide +kernel
    obtain ⟨ps, t, h, hp⟩ := okay_and hr
    simp only [Bool.and_eq_true, beq_iff_eq] at hp
    obtain ⟨⟨rfl, h1⟩, h2⟩ := hp
    refine ⟨_, _, readAcquired_plain (.ac 0 0) .ac _ 0 69632 8 _ t _ (by decide) (by decide +kernel) h h1 h2 (by decide +kernel), ?_⟩
    rw [pieceBytes, List.flatMap_map, flatMap_length_const _ 4096 (fun _ => by simp)]
    simp

theorem readPhys_plain (a : Agent) (pa n : Nat) (s : State) (hp : inHbm pa = true) (hd : physDenied a .read pa n s = none) (hh : s.hist = []) (ha : s.agent a = ⟨[], [], [], 0⟩) :
    readPhys a pa n s = ((granulePieces (n / 4096 + 2) pa n).flatMap fun p => (List.range p.2).map fun i => memByte s (canonPa a.die p.1 + i), s) := by
  have : ∀ (ps : List (Nat × Nat)) (acc : List Byte), ps.foldl (fun (x : List Byte × State) (p, n) =>
      let (b, s) := loadRange a none (canonPa a.die p) n 8 x.2
      (x.1 ++ b, s)) (acc, s) = (acc ++ ps.flatMap fun p => (List.range p.2).map fun i => memByte s (canonPa a.die p.1 + i), s) := by
    intro ps
    induction ps with
    | nil => intro acc; simp
    | cons p r ih =>
      intro acc
      rw [List.foldl_cons]
      simp only [loadRange_plain a none 0 _ p.2 8 s (by decide) hh ha]
      rw [ih]
      simp
  simp only [readPhys, hp, hd, if_true, this, List.nil_append]

/-- A resume of the launch whose context is at 2 MiB of HBM, all zeros. -/
def resuming : State := { base with preempt := some ⟨2, 0, 5, 0x10000200000, 0, [], []⟩ }

/-- R42, R454: a resume whose context is denied ends with nothing entered. -/
theorem wit_PreemptEvents_denied :
    (let s := resuming.modDie 0 fun d => { d with acl := [] }
     (readPhys (.disp 0) 0x10000200000 0x8000 (acquire (.disp 0) .pkg s)).1 == [] && ends (exec (.resumeLaunch 0) s) (fun t => t.preempt.isNone && (t.die 0).ltab.isEmpty)) = true := by decide +kernel

/-- R454: a resume finds an entry, its context and its record. -/
theorem wit_PreemptEvents_resume :
    ((List.range 64).find? fun l => (smFind (resuming.die 0).ltab l).isNone) = some 0
    ∧ ∃ b rb s1 s2, readPhys (.disp 0) 0x10000200000 0x8000 (acquire (.disp 0) .pkg resuming) = (b, s1) ∧ b ≠ [] ∧ slotsFor resuming (contextWalkers (words64 b)) = true
      ∧ DispFree 0 s1 ∧ readAcquired (.disp 0) .pkg ((words64 b).getD 1 0) 256 8 s1 = .ok rb s2 := by
  refine ⟨by decide +kernel, ?_⟩
  have hacq : (acquire (.disp 0) .pkg resuming).hist = [] ∧ (acquire (.disp 0) .pkg resuming).agent (.disp 0) = ⟨[], [], [], 0⟩
      ∧ (acquire (.disp 0) .pkg resuming).mem = resuming.mem := by decide +kernel
  have hg : granulePieces (0x8000 / 4096 + 2) 0x10000200000 0x8000 = (List.range 8).map fun i => (0x10000200000 + 4096 * i, 4096) := by decide +kernel
  have hc : ∀ i : Nat, i < 8 → canonPa (Agent.disp 0).die (0x10000200000 + 4096 * i) = 0x10000200000 + 4096 * i := by decide +kernel
  have hb := readPhys_plain (.disp 0) 0x10000200000 0x8000 _ (by decide +kernel) (by decide +kernel) hacq.1 hacq.2.1
  have hw : words64 ((granulePieces (0x8000 / 4096 + 2) 0x10000200000 0x8000).flatMap fun p => (List.range p.2).map fun i =>
      memByte (acquire (.disp 0) .pkg resuming) (canonPa (Agent.disp 0).die p.1 + i)) = List.replicate 4096 0 := by
    have e : ((granulePieces (0x8000 / 4096 + 2) 0x10000200000 0x8000).flatMap fun p => (List.range p.2).map fun i =>
        memByte (acquire (.disp 0) .pkg resuming) (canonPa (Agent.disp 0).die p.1 + i)) = (List.range (8 * 4096)).map fun i => memByte resuming (0x10000200000 + i) := by
      rw [← flatMap_range_map _ 8 4096, hg, List.flatMap_map]
      apply List.flatMap_congr
      intro i hi
      simp only [hc i (List.mem_range.mp hi), memByte, hacq.2.2, Nat.add_assoc]
    rw [e, words64_mem, List.eq_replicate_iff]
    refine ⟨by simp, fun w hw => ?_⟩
    simp only [List.mem_map, List.mem_range] at hw
    obtain ⟨i, _, rfl⟩ := hw
    apply memWord_zero
    have : (resuming.mem.all fun c => decide (c.1 < 0x10000200000)) = true := by decide +kernel
    intro c hc
    have := of_decide_eq_true (List.all_eq_true.mp this c hc)
    omega
  have hr : okay (reach (.disp 0) .read 0 256 (acquire (.disp 0) .pkg resuming)) (fun _ _ => true) = true := by decide +kernel
  obtain ⟨ps, t, h⟩ := okay_ok hr
  obtain ⟨rb, s2, h2⟩ := readAcquired_ok (.disp 0) .pkg 0 256 8 _ t ps (by decide) h
  have hd : ((acquire (.disp 0) .pkg resuming).die 0).waits = [] := by decide +kernel
  refine ⟨_, rb, _, s2, hb, fun h0 => ?_, ?_, fun w hw => by simp [hd] at hw, ?_⟩
  · rw [h0] at hw
    have h4 := congrArg List.length hw
    rw [List.length_replicate] at h4
    exact absurd h4 (by decide)
  · rw [hw]; decide +kernel
  · rw [hw]; exact h2

end Sys2Proof.Tests
end

/-! # The lane-wise instructions of kettles (R94, R116 to R121) -/

namespace Sys2Proof

open Machine

/-! ### Lanes of a register (R94) -/

/-- Digit i of a number written from its digits to the base 2 ^ w, the lowest first. -/
theorem foldr_digit (w : Nat) (l : List Nat) : ∀ i : Nat,
    l.foldr (fun v a => a * 2 ^ w + v % 2 ^ w) 0 / 2 ^ (w * i) % 2 ^ w = l.getD i 0 % 2 ^ w := by
  induction l with
  | nil => simp
  | cons v l ih =>
    have hw : 0 < 2 ^ w := Nat.two_pow_pos w
    rintro (_ | i)
    · simp
    · have hdiv (a : Nat) : (a * 2 ^ w + v % 2 ^ w) / 2 ^ w = a := by
        rw [Nat.add_comm, Nat.add_mul_div_right _ _ hw, Nat.div_eq_of_lt (Nat.mod_lt v hw), Nat.zero_add]
      simp only [List.foldr_cons, List.getD_cons_succ, ← ih]
      rw [Nat.mul_succ, Nat.add_comm (w * i), Nat.pow_add, ← Nat.div_div_eq_div_mul, hdiv]

/-- The digits of a word are those of the number that it is made from, as far as they lie within its width. -/
theorem ofNat_digit {n w i : Nat} (x : Nat) (h : w * i + w ≤ n) :
    (BitVec.ofNat n x).toNat / 2 ^ (w * i) % 2 ^ w = x / 2 ^ (w * i) % 2 ^ w := by
  obtain ⟨r, rfl⟩ := Nat.exists_eq_add_of_le h
  rw [BitVec.toNat_ofNat, Nat.add_assoc, Nat.pow_add, Nat.mod_mul_right_div_self, Nat.pow_add, Nat.mod_mul_right_mod]

theorem lane_ofLanes {l : List Nat} {j v : Nat} (hj : j < 64) (hl : l[j]? = some v) : lane (ofLanes l) j = v % 2 ^ 32 := by
  rw [lane, ofLanes, ofNat_digit _ (by omega), foldr_digit, List.getD_eq_getElem?_getD, hl, Option.getD_some]

theorem lane_ofLanes_of_lt {l : List Nat} {j v : Nat} (hj : j < 64) (hl : l[j]? = some v) (hv : v < 2 ^ 32) :
    lane (ofLanes l) j = v :=
  (lane_ofLanes hj hl).trans (Nat.mod_eq_of_lt hv)

/-- Lane j of a register made of pairs is the low or the high half of pair j / 2. -/
theorem lane_ofPairs {l : List Nat} {j v : Nat} (hj : j < 64) (hl : l[j / 2]? = some v) :
    lane (ofPairs l) j = v % 2 ^ 64 / 2 ^ (32 * (j % 2)) % 2 ^ 32 := by
  have hpair : (ofPairs l).toNat / 2 ^ (64 * (j / 2)) % 2 ^ 64 = v % 2 ^ 64 := by
    rw [ofPairs, ofNat_digit _ (by omega), foldr_digit, List.getD_eq_getElem?_getD, hl, Option.getD_some]
  rw [← hpair, lane, show 32 * j = 64 * (j / 2) + 32 * (j % 2) by omega, Nat.pow_add, ← Nat.div_div_eq_div_mul]
  rcases Nat.mod_two_eq_zero_or_one j with h | h <;> rw [h] <;> omega

theorem lanesOf_eq (w : KWord) : lanesOf w = (List.range 64).map (lane w) := by
  simp [lanesOf, lane, Nat.shiftRight_eq_div_pow]

theorem lanesOf_getElem? (w : KWord) {j : Nat} (hj : j < 64) : (lanesOf w)[j]? = some (lane w j) := by
  simp [lanesOf_eq, hj]

theorem pairsOf_getElem? (w : KWord) {j : Nat} (hj : j < 32) : (pairsOf w)[j]? = some (lanePair w j) := by
  simp [pairsOf, lanePair, Nat.shiftRight_eq_div_pow, hj]

theorem srcB_getElem? (k : Kettle) (b : KSrc) {j : Nat} (hj : j < 64) : (k.srcB b)[j]? = some (laneB k b j) := by
  cases b with
  | k n => exact lanesOf_getElem? _ hj
  | imm v => exact List.getElem?_replicate_of_lt hj

/-- How many lanes meet a condition on what is computed from each. -/
theorem length_filter_map_lanesOf {α : Type} (w : KWord) (g : Nat → α) (p : α → Bool) :
    (((lanesOf w).map g).filter p).length = ((List.range 64).filter fun i => p (g (lane w i))).length := by
  rw [lanesOf_eq, List.map_map, List.filter_map, List.length_map]
  rfl

/-! ### Values of lanes -/

theorem kf_eq_laneOf : kf = laneOf := rfl

theorem kv_eq_laneVal : kv = laneVal := rfl

theorem lane_lt (w : KWord) (i : Nat) : lane w i < 2 ^ 32 := Nat.mod_lt _ (by decide)

theorem laneOf_lt (x : FVal) : laneOf x < 2 ^ 32 := BitVec.isLt _

theorem nan_lt : fp32.nan < 2 ^ 32 := by decide

theorem ite_lt {p : Prop} [Decidable p] {x y n : Nat} (hx : x < n) (hy : y < n) : (if p then x else y) < n := by
  split <;> assumption

/-- Adding numbers of 64 bits wraps as adding the integers that they stand for does. -/
theorem add_toNat_mod (x : Nat) (y : Int) : (x + (BitVec.ofInt 64 y).toNat) % 2 ^ 64 = (((x : Int) + y) % 2 ^ 64).toNat := by
  rw [BitVec.toNat_ofInt]
  omega

/-- The lanes of KCVT from the pairs of a register (R118). -/
theorem pairLanes_getElem? (k : Kettle) (a : BitVec 5) (b : BitVec 3) {j : Nat} (hj : j < 32) :
    (pairLanes k a b)[j]? = some (if bits (k.jr b) 0 8 = 0xFF then fp32.nan
      else laneOf (FVal.scaled (BitVec.ofNat 64 (lanePair (k.kr a) j)).toInt ((bits (k.jr b) 0 8 : Int) - 150))) := by
  simp only [pairLanes, List.getElem?_map, pairsOf_getElem? _ hj, Option.map_some, s64, kf_eq_laneOf]

theorem pairLanes_length (k : Kettle) (a : BitVec 5) (b : BitVec 3) : (pairLanes k a b).length = 32 := by
  simp [pairLanes, pairsOf]

/-! ### Running an instruction of a kettle -/

section
variable {q : Nat} {c : KCmd} {s t : State}

theorem kRun_ok {pc : Nat} {f : Nat → M Nat} (h : KettleActs q c s) (hf : f q s = .ok pc t) :
    kRun f s = .next (t.modKettle q fun k => { k with kpc := pc }) := by
  obtain ⟨hcur, hrun⟩ := h
  simp only [kRun, hcur, hrun, hf]

/-- A trap of an instruction ends the command of its kettle (R125). -/
theorem kRun_trap {cause : Nat} {i0 i1 : W64} {f : Nat → M Nat} (h : KettleActs q c s)
    (hf : f q s = .error (.trap cause i0 i1) s) :
    kRun f s = .next (kettleEnd q 3 cause (s.kettle q).kpc 0 0 s) := by
  obtain ⟨hcur, hrun⟩ := h
  simp only [kRun, hcur, hrun, hf, State.ringed]

/-- A register instruction changes the acting kettle alone, and goes on at the next. -/
theorem kPure_body (f : KCmd → Kettle → Kettle) (h : KettleActs q c s) :
    ∃ g, kPure f s = kRun g s ∧ g q s = .ok ((s.kettle q).kpc + 1) (s.modKettle q (f c)) := by
  refine ⟨_, rfl, (bindM_ok (x := get) (s := s) rfl).trans ?_⟩
  rw [h.2]
  rfl

theorem runningCmd_ok (h : KettleActs q c s) : runningCmd q s = .ok c s := by
  refine (bindM_ok (x := get) (s := s) rfl).trans ?_
  rw [h.2]
  rfl

end

/-! ### Writing the lanes of a register, and counting -/

/-- A counter after a lane-wise instruction: as before, or more by a number of lanes, and saturated (R118 to R121). -/
def counted (n : Nat) : Option Nat → Nat
  | some x => sat32 n x
  | none => n

/-- A kettle after the value of a lane-wise instruction is written to kD and its lanes are counted. -/
def laneWrite (d : BitVec 5) (w : KWord) (nf cl : Option Nat) (k : Kettle) : Kettle :=
  { k.setK d.toNat w with nfcnt := counted k.nfcnt nf, clcnt := counted k.clcnt cl }

/-! The equations of laneWrite hold of every word w. To check one at a word that an instruction computes, the kernel would evaluate that word. -/

theorem laneWrite_none (d : BitVec 5) (w : KWord) (k : Kettle) : laneWrite d w none none k = k.setK d.toNat w := rfl

theorem laneWrite_nf (d : BitVec 5) (w : KWord) (n : Nat) (k : Kettle) :
    laneWrite d w (some n) none k = { k.setK d.toNat w with nfcnt := sat32 k.nfcnt n } := rfl

theorem laneWrite_cl (d : BitVec 5) (w : KWord) (n : Nat) (k : Kettle) :
    laneWrite d w none (some n) k = { k.setK d.toNat w with clcnt := sat32 k.clcnt n } := rfl

theorem laneWrite_nf_cl (d : BitVec 5) (w : KWord) (n m : Nat) (k : Kettle) :
    laneWrite d w (some n) (some m) k = { k.setK d.toNat w with nfcnt := sat32 k.nfcnt n, clcnt := sat32 k.clcnt m } := rfl

/-- The state after a lane-wise instruction of kettle q, which goes on at its next instruction. -/
def laneStep (q : Nat) (d : BitVec 5) (w : KWord) (nf cl : Option Nat) (s : State) : State :=
  (s.modKettle q (laneWrite d w nf cl)).modKettle q fun k => { k with kpc := (s.kettle q).kpc + 1 }

theorem laneStep_kettle (q : Nat) (d : BitVec 5) (w : KWord) (nf cl : Option Nat) (s : State) :
    (laneStep q d w nf cl s).kettle q = { laneWrite d w nf cl (s.kettle q) with kpc := (s.kettle q).kpc + 1 } := by
  simp only [laneStep, State.modKettle_kettle, if_true]

theorem laneStep_kr (q : Nat) (d r : BitVec 5) (w : KWord) (nf cl : Option Nat) (s : State) :
    ((laneStep q d w nf cl s).kettle q).kr r = if r = d then w else (s.kettle q).kr r := by
  simp only [laneStep_kettle, show r = d ↔ r.toNat = d.toNat from BitVec.toNat_eq]
  exact Kettle.setK_kr _ _ _ _

theorem laneStep_onlyKettle (q : Nat) (d : BitVec 5) (w : KWord) (nf cl : Option Nat) (s : State) :
    OnlyKettle q s (laneStep q d w nf cl s) :=
  ⟨rfl, fun p hp => by simp only [laneStep, State.modKettle_kettle, if_neg hp]⟩

/-- An instruction of kettle q writes the lanes f to kD, counts, and goes on. -/
def WritesLanes (q : Nat) (s : State) (i : Instr) (d : BitVec 5) (f : Nat → Nat) (nf cl : Option Nat) : Prop :=
  ∃ w : KWord, (∀ j, j < 64 → lane w j = f j) ∧ exec i s = .next (laneStep q d w nf cl s)

section
variable {q : Nat} {c : KCmd} {s : State} {i : Instr} {d : BitVec 5} {f : Nat → Nat} {nf cl : Option Nat}

/-- An instruction writes lanes when what it makes of the acting kettle is a write of them. -/
theorem writesLanes_of_kRun {g : Nat → M Nat} {m : Kettle → Kettle} (w : KWord) (h : KettleActs q c s) (hx : exec i s = kRun g s)
    (hg : g q s = .ok ((s.kettle q).kpc + 1) (s.modKettle q m)) (hm : m (s.kettle q) = laneWrite d w nf cl (s.kettle q))
    (hw : ∀ j, j < 64 → lane w j = f j) : WritesLanes q s i d f nf cl :=
  ⟨w, hw, by rw [hx, kRun_ok h hg]; simp only [laneStep, State.modKettle, hm]⟩

theorem writesLanes_of_kPure {g : KCmd → Kettle → Kettle} (w : KWord) (h : KettleActs q c s) (hx : exec i s = kPure g s)
    (hg : g c (s.kettle q) = laneWrite d w nf cl (s.kettle q)) (hw : ∀ j, j < 64 → lane w j = f j) : WritesLanes q s i d f nf cl :=
  let ⟨_, hrun, hbody⟩ := kPure_body g h
  writesLanes_of_kRun w h (hx.trans hrun) hbody hg hw

/-- A register instruction that only writes kD. -/
theorem writesLanes_of_setK {g : KCmd → Kettle → Kettle} (w : KWord) (h : KettleActs q c s) (hx : exec i s = kPure g s)
    (hg : g c (s.kettle q) = (s.kettle q).setK d.toNat w) (hw : ∀ j, j < 64 → lane w j = f j) : WritesLanes q s i d f none none :=
  writesLanes_of_kPure w h hx (hg.trans (laneWrite_none d w _).symm) hw

/-- A lane-wise instruction that counts nothing writes the lanes of its list. -/
theorem writesLanes_of_kLanes {g : Kettle → List Nat} (h : KettleActs q c s) (hx : exec i s = kLanes d g s)
    (hg : ∀ j, j < 64 → (g (s.kettle q))[j]? = some (f j)) (hf : ∀ j, f j < 2 ^ 32) : WritesLanes q s i d f none none :=
  writesLanes_of_setK _ h hx rfl fun j hj => lane_ofLanes_of_lt hj (hg j hj) (hf j)

/-- An instruction that combines lane j of kA with lane j of source b (R116, R117). -/
theorem writesLanes_of_lanes2 {a : BitVec 5} {b : KSrc} (g : FVal → FVal → FVal) (h : KettleActs q c s)
    (hx : exec i s = kLanes d (lanes2 g a b) s) :
    WritesLanes q s i d (fun j => laneOf (g (laneVal (lane ((s.kettle q).kr a) j)) (laneVal (laneB (s.kettle q) b j)))) none none := by
  refine writesLanes_of_kLanes h hx (fun j hj => ?_) fun _ => laneOf_lt _
  simp [lanes2, List.getElem?_zipWith, lanesOf_getElem? _ hj, srcB_getElem? _ _ hj, kf_eq_laneOf, kv_eq_laneVal]

/-- An instruction that converts each lane of kA to an integer, and counts what does not fit (R118, R119). -/
theorem writesLanes_of_toInt {a : BitVec 5} (g : Nat → Int × Bool × Bool) {m : KCmd → Kettle → Kettle} (h : KettleActs q c s)
    (hx : exec i s = kPure m s)
    (hm : let k := s.kettle q
      let r := (lanesOf (k.kr a)).map g
      m c k = { k.setK d.toNat (ofLanes (r.map fun x => (BitVec.ofInt 32 x.1).toNat)) with
        nfcnt := sat32 k.nfcnt (r.filter fun x => x.2.2).length, clcnt := sat32 k.clcnt (r.filter fun x => x.2.1).length }) :
    let r := fun j => g (lane ((s.kettle q).kr a) j)
    WritesLanes q s i d (fun j => (BitVec.ofInt 32 (r j).1).toNat) (some ((List.range 64).filter fun j => (r j).2.2).length)
      (some ((List.range 64).filter fun j => (r j).2.1).length) := by
  refine writesLanes_of_kPure (ofLanes (((lanesOf ((s.kettle q).kr a)).map g).map fun x => (BitVec.ofInt 32 x.1).toNat)) h hx
    (hm.trans ?_) fun j hj => lane_ofLanes_of_lt hj ?_ (BitVec.isLt _)
  · simp only [laneWrite_nf_cl, length_filter_map_lanesOf]
  · simp [lanesOf_getElem? _ hj]

end

/-! ### KFMA, KABS, KCMP, KSEL (R116, R117) -/

section
variable {q : Nat} {c : KCmd} {s : State} {d : BitVec 5} {f : Nat → Nat} {nf cl : Option Nat}

theorem kfma_writesLanes {r a e : BitVec 5} {b : KSrc} (h : KettleActs q c s)
    (hr : laneResult c (s.kettle q) (.kfma r a b e) = some (d, f, nf, cl)) : WritesLanes q s (.kfma r a b e) d f nf cl := by
  cases hr
  refine writesLanes_of_kLanes h rfl (fun j hj => ?_) fun _ => laneOf_lt _
  simp [List.getElem?_zipWith, List.zip, lanesOf_getElem? _ hj, srcB_getElem? _ _ hj, kf_eq_laneOf, kv_eq_laneVal]

theorem kabs_writesLanes {r a : BitVec 5} (h : KettleActs q c s)
    (hr : laneResult c (s.kettle q) (.kabs r a) = some (d, f, nf, cl)) : WritesLanes q s (.kabs r a) d f nf cl := by
  cases hr
  refine writesLanes_of_kLanes h rfl (fun j hj => ?_) fun _ => laneOf_lt _
  simp [lanesOf_getElem? _ hj, kf_eq_laneOf, kv_eq_laneVal]

theorem kcmp_writesLanes {x : FCond} {r a : BitVec 5} {b : KSrc} (h : KettleActs q c s)
    (hr : laneResult c (s.kettle q) (.kcmp x r a b) = some (d, f, nf, cl)) : WritesLanes q s (.kcmp x r a b) d f nf cl := by
  cases hr
  refine writesLanes_of_kLanes h rfl (fun j hj => ?_) fun _ => ite_lt (by decide) (by decide)
  simp [List.getElem?_zipWith, lanesOf_getElem? _ hj, srcB_getElem? _ _ hj, kv_eq_laneVal]
  rfl

theorem ksel_writesLanes {r a b e : BitVec 5} (h : KettleActs q c s)
    (hr : laneResult c (s.kettle q) (.ksel r a b e) = some (d, f, nf, cl)) : WritesLanes q s (.ksel r a b e) d f nf cl := by
  cases hr
  refine writesLanes_of_kLanes h rfl (fun j hj => ?_) fun _ => ite_lt (lane_lt _ _) (lane_lt _ _)
  simp [List.getElem?_zipWith, List.zip, lanesOf_getElem? _ hj]

/-! ### KCVT, KQNT, KIADD, KNF (R118 to R121) -/

theorem kcvt_writesLanes {r : BitVec 5} {x : KcvtF} (h : KettleActs q c s)
    (hr : laneResult c (s.kettle q) (.kcvt r x) = some (d, f, nf, cl)) : WritesLanes q s (.kcvt r x) d f nf cl := by
  cases x with
  | f32s32 a =>
    cases hr
    refine writesLanes_of_setK _ h rfl rfl fun j hj => lane_ofLanes_of_lt hj ?_ (laneOf_lt _)
    simp [lanesOf_getElem? _ hj, Machine.s32, kf_eq_laneOf]
  | s32f32 a =>
    cases hr
    exact writesLanes_of_toInt (fun v => toInt 32 .rne 0 (kv v)) h rfl rfl
  | s64lo a b =>
    cases hr
    refine writesLanes_of_setK _ h rfl rfl fun j hj =>
      lane_ofLanes_of_lt hj ?_ (ite_lt (ite_lt nan_lt (laneOf_lt _)) (lane_lt _ _))
    rw [List.getElem?_append, pairLanes_length]
    split
    · next hlo => exact pairLanes_getElem? _ _ _ hlo
    · next hhi =>
      rw [List.getElem?_drop, Nat.add_sub_cancel' (Nat.le_of_not_lt hhi)]
      exact lanesOf_getElem? _ hj
  | s64hi a b =>
    cases hr
    refine writesLanes_of_setK _ h rfl rfl fun j hj =>
      lane_ofLanes_of_lt hj ?_ (ite_lt (lane_lt _ _) (ite_lt nan_lt (laneOf_lt _)))
    have hlen : ((lanesOf ((s.kettle q).kr d)).take 32).length = 32 := by simp [lanesOf]
    rw [List.getElem?_append, hlen]
    split
    · next hlo =>
      rw [List.getElem?_take_of_lt hlo]
      exact lanesOf_getElem? _ hj
    · next hhi => exact pairLanes_getElem? _ _ _ (by omega)
  | f32j a =>
    cases hr
    exact writesLanes_of_setK _ h rfl rfl fun j hj =>
      lane_ofLanes_of_lt hj (List.getElem?_replicate_of_lt hj) (laneOf_lt _)
  | b32j a =>
    cases hr
    exact writesLanes_of_setK _ h rfl rfl fun j hj =>
      lane_ofLanes_of_lt hj (List.getElem?_replicate_of_lt hj) (Nat.mod_lt _ (by decide))

theorem kqnt_writesLanes {r a : BitVec 5} {b : BitVec 3} (h : KettleActs q c s)
    (hr : laneResult c (s.kettle q) (.kqnt r a b) = some (d, f, nf, cl)) : WritesLanes q s (.kqnt r a b) d f nf cl := by
  cases hr
  let e := bits ((s.kettle q).jr b) 0 8
  exact writesLanes_of_toInt (fun v => if e = 0xFF then (0, false, true) else quantI24 e (kv v)) h rfl rfl

theorem kiadd_writesLanes {x : KiaddF} {r a b : BitVec 5} (h : KettleActs q c s)
    (hr : laneResult c (s.kettle q) (.kiadd x r a b) = some (d, f, nf, cl)) : WritesLanes q s (.kiadd x r a b) d f nf cl := by
  cases x with
  | d =>
    cases hr
    refine writesLanes_of_setK _ h rfl rfl fun j hj => ?_
    have hpair : j / 2 < 32 := by omega
    refine lane_ofPairs (v := lanePair ((s.kettle q).kr a) (j / 2) + lanePair ((s.kettle q).kr b) (j / 2)) hj ?_
    simp [List.getElem?_zipWith, pairsOf_getElem? _ hpair]
  | wlo =>
    cases hr
    refine writesLanes_of_setK _ h rfl rfl fun j hj => ?_
    have hpair : j / 2 < 32 := by omega
    have hlane : j / 2 < 64 := by omega
    dsimp only
    rw [← add_toNat_mod]
    refine lane_ofPairs hj ?_
    simp [List.getElem?_zipWith, pairsOf_getElem? _ hpair, lanesOf_getElem? _ hlane, Machine.s32]
  | whi =>
    cases hr
    refine writesLanes_of_setK _ h rfl rfl fun j hj => ?_
    have hpair : j / 2 < 32 := by omega
    have hlane : 32 + j / 2 < 64 := by omega
    dsimp only
    rw [← add_toNat_mod]
    refine lane_ofPairs hj ?_
    simp [List.getElem?_zipWith, pairsOf_getElem? _ hpair, lanesOf_getElem? _ hlane, Machine.s32]
  | w =>
    cases hr
    refine writesLanes_of_setK _ h rfl rfl fun j hj => lane_ofLanes hj ?_
    simp [List.getElem?_zipWith, lanesOf_getElem? _ hj]

theorem knf_writesLanes {r a : BitVec 5} (h : KettleActs q c s)
    (hr : laneResult c (s.kettle q) (.knf r a) = some (d, f, nf, cl)) : WritesLanes q s (.knf r a) d f nf cl := by
  cases hr
  refine writesLanes_of_kPure (ofLanes (((lanesOf ((s.kettle q).kr a)).map fun x => (kv x).nonFinite).map laneFlag)) h rfl ?_
    fun j hj => lane_ofLanes_of_lt hj ?_ (ite_lt (by decide) (by decide))
  · simp only [laneWrite_nf, length_filter_map_lanesOf, kv_eq_laneVal, id]
  · simp [lanesOf_getElem? _ hj, kv_eq_laneVal, laneFlag]

/-! ### KCLIP (R33, R121) -/

/-- The lane of KCLIP against a limit, and whether it counts. -/
def clipLane (m : W32) (x : Nat) : Nat × Bool :=
  if (laneVal x).isNan then (fp32.nan, false)
  else if cmpX (laneVal x).abs (laneVal m.toNat).abs = .gt then (clipTo m x, true) else (x, false)

/-- The limit of the command is one that KCLIP may use: a number, not below zero. -/
def clipUsable (c : KCmd) : Bool :=
  let lim := laneVal (c.clip.getD 0).toNat
  c.clip.isSome && !lim.isNan && !(lim.neg? && !lim.isZero)

theorem clipLane_lt (m : W32) {x : Nat} (h : x < 2 ^ 32) : (clipLane m x).1 < 2 ^ 32 := by
  have hto : clipTo m x < 2 ^ 32 := by rw [clipTo]; omega
  simp only [clipLane, apply_ite Prod.fst]
  exact ite_lt nan_lt (ite_lt hto h)

theorem clipLane_snd (m : W32) (x : Nat) :
    (clipLane m x).2 = (!(laneVal x).isNan && decide (cmpX (laneVal x).abs (laneVal m.toNat).abs = .gt)) := by
  simp only [clipLane, apply_ite Prod.snd]
  cases (laneVal x).isNan <;> simp

theorem clipLane_fst (m : W32) (x : Nat) :
    (clipLane m x).1 = if (laneVal x).isNan then fp32.nan else if (clipLane m x).2 then clipTo m x else x := by
  rw [clipLane]
  split
  · rfl
  · split <;> rfl

theorem laneResult_kclip (c : KCmd) (k : Kettle) (d a : BitVec 5) :
    laneResult c k (.kclip d a) = if clipUsable c then
      some (d, fun i => (clipLane (c.clip.getD 0) (lane (k.kr a) i)).1, none,
        some ((List.range 64).filter fun i => (clipLane (c.clip.getD 0) (lane (k.kr a) i)).2).length)
      else none := by
  rw [laneResult]
  cases hm : c.clip with
  | none => simp [clipUsable, hm]
  | some m =>
    have hu : clipUsable c = true ↔
        ¬((laneVal m.toNat).isNan = true ∨ ((laneVal m.toNat).neg? = true ∧ (laneVal m.toNat).isZero = false)) := by
      simp [clipUsable, hm, imp_iff_not_or]
    simp only [hu, ite_not, clipLane_fst, clipLane_snd, clipTo, Option.getD_some]

/-- KCLIP tests the limit, then writes and counts the lanes. -/
theorem kclip_body {d a : BitVec 5} (h : KettleActs q c s) :
    let r := (lanesOf ((s.kettle q).kr a)).map (clipLane (c.clip.getD 0))
    ∃ g, exec (.kclip d a) s = kRun g s ∧ g q s = if clipUsable c then
        .ok ((s.kettle q).kpc + 1) (s.modKettle q fun k =>
          { k.setK d.toNat (ofLanes (r.map (·.1))) with clcnt := sat32 k.clcnt (r.filter (·.2)).length })
      else .error (.trap 5 0 0) s := by
  refine ⟨_, rfl, (bindM_ok (runningCmd_ok h)).trans ((bindM_ok (x := get) (s := s) rfl).trans ?_)⟩
  change (need (clipUsable c) 5 0 0 >>= _) s = _
  cases clipUsable c <;> rfl

theorem kclip_writesLanes {r a : BitVec 5} (h : KettleActs q c s)
    (hr : laneResult c (s.kettle q) (.kclip r a) = some (d, f, nf, cl)) : WritesLanes q s (.kclip r a) d f nf cl := by
  rw [laneResult_kclip] at hr
  split at hr
  · next hu =>
    cases hr
    obtain ⟨g, hx, hg⟩ := kclip_body (d := d) (a := a) h
    rw [if_pos hu] at hg
    refine writesLanes_of_kRun (ofLanes (((lanesOf ((s.kettle q).kr a)).map (clipLane (c.clip.getD 0))).map (·.1))) h hx hg ?_
      fun j hj => lane_ofLanes_of_lt hj ?_ (clipLane_lt _ (lane_lt _ _))
    · simp only [laneWrite_cl, length_filter_map_lanesOf]
    · simp [lanesOf_getElem? _ hj]
  · cases hr

theorem kclip_ends_of_laneResult_none {d a : BitVec 5} (h : KettleActs q c s) (hr : laneResult c (s.kettle q) (.kclip d a) = none) :
    exec (.kclip d a) s = .next (kettleEnd q 3 5 (s.kettle q).kpc 0 0 s) := by
  have hu : clipUsable c = false := by simpa [laneResult_kclip] using hr
  obtain ⟨g, hx, hg⟩ := kclip_body (d := d) (a := a) h
  rw [hu] at hg
  rw [hx]
  exact kRun_trap h hg

/-! ### Every lane-wise instruction -/

/-- The cases are the arms of laneResult, in its order. -/
theorem writesLanes_of_laneResult {i : Instr} (h : KettleActs q c s) (hr : laneResult c (s.kettle q) i = some (d, f, nf, cl)) :
    WritesLanes q s i d f nf cl := by
  unfold laneResult at hr
  split at hr
  · cases hr; exact writesLanes_of_lanes2 (addX .rne) h rfl
  · cases hr; exact writesLanes_of_lanes2 (fun x y => addX .rne x y.negate) h rfl
  · cases hr; exact writesLanes_of_lanes2 mulX h rfl
  · exact kfma_writesLanes h hr
  · cases hr; exact writesLanes_of_lanes2 minX h rfl
  · cases hr; exact writesLanes_of_lanes2 maxX h rfl
  · exact kabs_writesLanes h hr
  · exact kcmp_writesLanes h hr
  · exact ksel_writesLanes h hr
  · exact kcvt_writesLanes h hr
  · exact kqnt_writesLanes h hr
  · exact kiadd_writesLanes h hr
  · exact kclip_writesLanes h hr
  · exact knf_writesLanes h hr
  · cases hr

end

/-- Settles O34: every instruction that laneResult gives lanes makes one laneStep, whose frame is that of laneWrite; a KCLIP that it gives none
fails its test of the limit. -/
theorem kettleLanes : Obligations.KettleLanes := by
  intro q s c h
  refine ⟨fun i d f nf cl hr => ?_, fun d a hr => kclip_ends_of_laneResult_none h hr⟩
  obtain ⟨w, hw, hx⟩ := writesLanes_of_laneResult h hr
  refine ⟨_, hx, laneStep_onlyKettle .., fun j hj => ?_, fun r hne => ?_, fun r => ?_, ?_⟩
  · rw [laneStep_kr, if_pos rfl, hw j hj]
  · rw [laneStep_kr, if_neg hne]
  · simp only [laneStep_kettle, Kettle.jr, laneWrite, Kettle.setK_j]
  · simp only [laneStep_kettle, laneWrite, Kettle.setK_run, Kettle.setK_loops, Kettle.setK_queue, h.2]
    refine ⟨trivial, ?_, ?_, trivial, trivial, trivial⟩
    · cases nf <;> rfl
    · cases cl <;> rfl

end Sys2Proof

/-! # FORK and JOIN (R221, R222, R306) -/

namespace Sys2Proof

open Machine

/-! ### Writing a cluster twice -/

theorem smSet_smSet {α : Type} (m : SMap α) (n : Nat) (v w : α) : smSet (smSet m n v) n w = smSet m n w := by
  induction m with
  | nil => simp [smSet]
  | cons p r ih =>
    obtain ⟨k, x⟩ := p
    rcases Nat.lt_trichotomy n k with hlt | rfl | hgt
    · simp [smSet, hlt]
    · simp [smSet]
    · have hne : ¬ n < k ∧ n ≠ k := by omega
      simp [smSet, hne, ih]

theorem setAc_setAc (s : State) (n : Nat) (a b : AC) : (s.setAc n a).setAc n b = s.setAc n b := by
  simp only [State.setAc, smSet_smSet]

theorem onlyAc_setAc (n : Nat) (s : State) (a : AC) : OnlyAc n s (s.setAc n a) := by
  simp [OnlyAc]

theorem onlyCc_modCC (n : Nat) (s : State) (f : CC → CC) : OnlyCc n s (s.modCC n f) := by
  simp only [OnlyCc, State.modCC_ac, if_true]
  rfl

/-! ### How an instruction of the CC ends -/

theorem need_true {b : Bool} {cause : Nat} {i0 i1 : W64} {s : State} (hb : b = true) : need b cause i0 i1 s = .ok () s := by
  rw [hb]; rfl

theorem need_false {b : Bool} {cause : Nat} {i0 i1 : W64} {s : State} (hb : b = false) :
    need b cause i0 i1 s = .error (.trap cause i0 i1) s := by
  rw [hb]; rfl

theorem bindM_error {α β : Type} {x : M α} {f : α → M β} {s t : State} {st : Stop} (h : x s = .error st t) :
    (x >>= f) s = .error st t := by
  simp only [bind, EStateM.bind, h]

section
variable {n : Nat} {h : Head} {s : State} {i : Instr} {f : Nat → M Flow}

/-- A fault that needs no record is a precise trap (R440). -/
theorem ccRun_trap {cause : Nat} {i0 i1 : W64} (ha : CcActs n h s) (hf : f n s = .error (.trap cause i0 i1) s) :
    ccRun h i f s = .next (syncTrap n cause i0 i1 s) := by
  rw [ccRun_stop h i f n s s _ ha.1 ha.2 hf]
  simp only [ccStop, State.ringed]

/-- A stall leaves the CC standing in the instruction, issued now or when it stood in it before (R287). -/
theorem ccRun_waits (ha : CcActs n h s) (hf : f n s = .error .wait s) : ∃ t, ccRun h i f s = .next t ∧ CcWaits n i s t := by
  refine ⟨_, ccRun_stop h i f n s s _ ha.1 ha.2 hf, ?_⟩
  simp only [ccStop, State.ringed]
  refine ⟨onlyCc_modCC .., ?_⟩
  simp only [State.modCC_ac, if_true]
  split
  · next w _ =>
    refine ⟨rfl, ?_⟩
    by_cases hw : w.instr = i <;> simp [hw]
  · exact ⟨rfl, rfl⟩

/-- Neither a replay, nor the entry of a trap, nor an event keeps a rerun from its instruction. -/
theorem rerun_of_ccIn {g : Instr → Option (State → Res)} {x : State → Res} (hin : CcIn n i s) (hg : g i = some x) :
    rerun n g s = x { s with cur := .ac n 0 } := by
  obtain ⟨hwait, hxl, hentry, hb⟩ := hin
  obtain ⟨w, hw, rfl⟩ := Option.map_eq_some_iff.mp hwait
  simp [rerun, hw, hxl, hentry, hg, hb]

/-- An event that reruns an instruction ends the wait in it as the instruction ends. -/
theorem ccEnds_of_rerun {ev : Instr} {t : State} (hev : ∃ g, (∀ s0, exec ev s0 = rerun n g s0) ∧ g i = some (exec i))
    (hx : exec i s = .next t) : CcEnds n i ev s t := by
  obtain ⟨g, hev, hg⟩ := hev
  refine ⟨hx, fun s0 hin hs => ?_⟩
  rw [hev, rerun_of_ccIn hin hg, ← hs, hx]

end

/-! ### Engines that a mask names (R306) -/

/-- The engines that a mask names, in the order of their codes. -/
def namedEngines (v : W64) : List Eid := allEng.filter fun e => v.getLsbD (eidCode e - 1)

theorem mem_namedEngines {v : W64} {e : Eid} : e ∈ namedEngines v ↔ named v e := by
  have he : e ∈ allEng := by cases e <;> decide
  simp [namedEngines, named, he]

theorem nodup_namedEngines (v : W64) : (namedEngines v).Nodup :=
  List.Nodup.filter _ (by decide)

theorem namedEngines_all {v : W64} {p : Eid → Bool} : (namedEngines v).all p = true ↔ ∀ e, named v e → p e = true := by
  simp only [List.all_eq_true, mem_namedEngines]

theorem engMask_ok {v : W64} (hv : v.toNat < 32) (s : State) : engMask v s = .ok (namedEngines v) s :=
  bindM_ok (need_true (decide_eq_true hv))

theorem engMask_trap {v : W64} (hv : ¬v.toNat < 32) (s : State) : engMask v s = .error (.trap 0x02 v 0) s :=
  bindM_error (need_false (decide_eq_false hv))

/-! ### Changing several engines of a cluster -/

/-- Engines of a list, each changed by f. -/
def changeEngines (f : Eid → Eng → Eng) (l : List Eid) (a : AC) : AC := l.foldl (fun a e => a.setEng e (f e (a.eng e))) a

theorem changeEngines_eng (f : Eid → Eng → Eng) {l : List Eid} (hl : l.Nodup) (a : AC) (e : Eid) :
    (changeEngines f l a).eng e = if e ∈ l then f e (a.eng e) else a.eng e := by
  induction l generalizing a with
  | nil => simp [changeEngines]
  | cons x l ih =>
    obtain ⟨hx, hl⟩ := List.nodup_cons.mp hl
    rw [show changeEngines f (x :: l) a = changeEngines f l (a.setEng x (f x (a.eng x))) from rfl, ih hl, AC.setEng_eng]
    by_cases he : e = x
    · subst he; simp [hx]
    · simp [he]

/-- What a write of an engine leaves, a change of several leaves. -/
theorem changeEngines_keep {β : Type} (p : AC → β) (hp : ∀ a e x, p (a.setEng e x) = p a) (f : Eid → Eng → Eng) (l : List Eid)
    (a : AC) : p (changeEngines f l a) = p a := by
  induction l generalizing a with
  | nil => rfl
  | cons x l ih => exact (ih _).trans (hp ..)

/-! ### FORK (R221) -/

/-- An engine that starts at its entry of a task, to issue from the cycle after this one. -/
def startedAt (tk : Task) (cycle : Nat) (e : Eid) (x : Eng) : Eng :=
  { x with st := 1, num := 0, upc := addr55 (tk.code + BitVec.ofNat 64 (tk.entry (eidCode e))), startAt := cycle + 1 }

/-- FORK's test of an engine: it is IDLE and the task has an entry for it. -/
def mayStart (tk : Task) (a : AC) (e : Eid) : Bool := (a.eng e).idle && tk.entry (eidCode e) != 0xFFFFFFFF

theorem mayStart_iff {tk : Task} {a : AC} {e : Eid} : mayStart tk a e = true ↔ (a.eng e).idle = true ∧ tk.entry (eidCode e) ≠ 0xFFFFFFFF := by
  simp [mayStart]

section
variable {n : Nat} {s : State} {h : Head} {a : Src} {tk : Task}

/-- FORK in a task: the check of the mask, that of the engines, and the start of them all. -/
theorem exec_fork_eq_ccRun (htk : (s.ac n).cc.task = some tk) : ∃ f, exec (.fork h a) s = ccRun h (.fork h a) f s
    ∧ f n s = (do
        let es ← engMask ((s.ac n).cc.src a)
        need (es.all (mayStart tk (s.ac n))) 0x02 ((s.ac n).cc.src a) 0
        act fun u => u.modAc n (changeEngines (startedAt tk u.cycle) es)
        pure .seq : M Flow) s := by
  refine ⟨_, rfl, (bindM_ok (x := get) (s := s) rfl).trans ?_⟩
  simp only [htk]
  rfl

theorem exec_fork_starts (ha : CcActs n h s) (htk : (s.ac n).cc.task = some tk) (hv : ((s.ac n).cc.src a).toNat < 32)
    (hstart : ∀ e, named ((s.ac n).cc.src a) e → mayStart tk (s.ac n) e = true) :
    exec (.fork h a) s
      = .next ((s.modAc n (changeEngines (startedAt tk s.cycle) (namedEngines ((s.ac n).cc.src a)))).modCC n fun c => c.retire h .seq) := by
  obtain ⟨f, hx, hf⟩ := exec_fork_eq_ccRun (h := h) (a := a) htk
  rw [hx]
  refine ccRun_ok h _ f n s _ .seq ha.1 ha.2 (hf.trans ?_)
  rw [bindM_ok (engMask_ok hv s), bindM_ok (need_true (namedEngines_all.mpr hstart))]
  rfl

theorem exec_fork_traps (ha : CcActs n h s) (htk : (s.ac n).cc.task = some tk)
    (hbad : ¬(((s.ac n).cc.src a).toNat < 32 ∧ ∀ e, named ((s.ac n).cc.src a) e → mayStart tk (s.ac n) e = true)) :
    exec (.fork h a) s = .next (syncTrap n 0x02 ((s.ac n).cc.src a) 0 s) := by
  obtain ⟨f, hx, hf⟩ := exec_fork_eq_ccRun (h := h) (a := a) htk
  rw [hx]
  refine ccRun_trap ha (hf.trans ?_)
  by_cases hv : ((s.ac n).cc.src a).toNat < 32
  · have hall : (namedEngines ((s.ac n).cc.src a)).all (mayStart tk (s.ac n)) = false :=
      Bool.eq_false_iff.mpr fun hall => hbad ⟨hv, namedEngines_all.mp hall⟩
    rw [bindM_ok (engMask_ok hv s), bindM_error (need_false hall)]
  · exact bindM_error (engMask_trap hv s)

/-! ### JOIN (R222) -/

theorem joined_namedEngines {v : W64} {x : AC} :
    joined x (namedEngines v) = true ↔ ∀ e, named v e → (x.eng e).idle = true ∧ (x.eng e).q = [] := by
  simp [joined, mem_namedEngines]

theorem joinDone_reruns_join (n : Nat) (h : Head) (a : Src) :
    ∃ g, (∀ s0, exec (.joinDone n) s0 = rerun n g s0) ∧ g (.join h a) = some (exec (.join h a)) :=
  ⟨_, fun s0 => (show exec (.joinDone n) s0 = execJoinDone n s0 from rfl).trans rfl, rfl⟩

/-- JOIN with a mask of engines alone tests them, and waits or retires. -/
theorem exec_join_eq_ccRun (hv : ((s.ac n).cc.src a).toNat < 32) : ∃ f, exec (.join h a) s = ccRun h (.join h a) f s
    ∧ f n s = (if joined (s.ac n) (namedEngines ((s.ac n).cc.src a)) then pure .seq else throw .wait : M Flow) s :=
  ⟨_, rfl, (bindM_ok (x := get) (s := s) rfl).trans (bindM_ok (engMask_ok hv s))⟩

theorem exec_join_passes (ha : CcActs n h s) (hv : ((s.ac n).cc.src a).toNat < 32)
    (hj : joined (s.ac n) (namedEngines ((s.ac n).cc.src a)) = true) : exec (.join h a) s = .next (ccDone n h s) := by
  obtain ⟨f, hx, hf⟩ := exec_join_eq_ccRun (h := h) hv
  rw [hx]
  exact ccRun_ok h _ f n s s .seq ha.1 ha.2 (by rw [hf, if_pos hj]; rfl)

theorem exec_join_waits (ha : CcActs n h s) (hv : ((s.ac n).cc.src a).toNat < 32)
    (hj : ¬joined (s.ac n) (namedEngines ((s.ac n).cc.src a)) = true) :
    ∃ t, exec (.join h a) s = .next t ∧ CcWaits n (.join h a) s t := by
  obtain ⟨f, hx, hf⟩ := exec_join_eq_ccRun (h := h) hv
  rw [hx]
  exact ccRun_waits ha (by rw [hf, if_neg hj]; rfl)

end

/-- Settles O7: FORK starts the engines of its mask in one change of the cluster, after both of its checks; JOIN and the event that ends its wait make
the same test. -/
theorem forkJoin : Obligations.ForkJoin := by
  intro n s h a tk ha htk v ok
  have hok : ok ↔ v.toNat < 32 ∧ ∀ e, named v e → mayStart tk (s.ac n) e = true := by
    simp only [ok, mayStart_iff]
  refine ⟨fun hs => ?_, fun hbad => ?_, fun hv hidle => ?_, fun hv ⟨e, hnamed, hbusy⟩ => ?_⟩
  · obtain ⟨hv, hstart⟩ := hok.mp hs
    refine ⟨_, exec_fork_starts ha htk hv hstart, ?_, ?_, fun e he => ?_, fun e he => ?_, ?_, ?_, ?_⟩
    · simp only [State.modCC, State.modAc, setAc_setAc]
      exact onlyAc_setAc ..
    all_goals simp only [State.modCC_ac, State.modAc_ac, if_true]
    · rw [changeEngines_keep AC.cc AC.setEng_cc]
    · exact (changeEngines_eng _ (nodup_namedEngines v) _ e).trans (if_pos (mem_namedEngines.mpr he))
    · exact (changeEngines_eng _ (nodup_namedEngines v) _ e).trans (if_neg (mem_namedEngines.not.mpr he))
    · exact changeEngines_keep AC.ln AC.setEng_ln ..
    · exact changeEngines_keep AC.vec AC.setEng_vec ..
    · exact changeEngines_keep AC.tiles AC.setEng_tiles ..
  · exact exec_fork_traps ha htk (hok.not.mp hbad)
  · exact ccEnds_of_rerun (joinDone_reruns_join n h a) (exec_join_passes ha hv (joined_namedEngines.mpr hidle))
  · exact exec_join_waits ha hv fun hj => hbusy (joined_namedEngines.mp hj e hnamed)

end Sys2Proof

/-! # Instructions that change registers of the CC alone (R289 to R298, R303) -/

namespace Sys2Proof

open Machine

/-! ### What an instruction of the CC may write -/

/-- The frame of CcFrame between two states of a control core. -/
structure RegsBut (ss : List (BitVec 6)) (ps : List (BitVec 4)) (rs : List Nat) (c d : CC) : Prop where
  sregs : SRegsBut ss c d
  preds : PredsBut ps c d
  sys : SysBut rs c d
  same : CcSame c d

theorem regsBut_refl (ss : List (BitVec 6)) (ps : List (BitVec 4)) (rs : List Nat) (c : CC) : RegsBut ss ps rs c c :=
  ⟨fun _ _ => rfl, fun _ _ => rfl, fun _ _ _ _ => rfl, by simp [CcSame]⟩

section
variable {ss : List (BitVec 6)} {ps : List (BitVec 4)} {rs : List Nat} {c d e : CC}

theorem RegsBut.trans (h : RegsBut ss ps rs c d) (h' : RegsBut ss ps rs d e) : RegsBut ss ps rs c e := by
  obtain ⟨hs, hp, hr, hc⟩ := h
  obtain ⟨hs', hp', hr', hc'⟩ := h'
  refine ⟨fun r hm => (hs' r hm).trans (hs r hm), fun r hm => (hp' r hm).trans (hp r hm),
    fun k hm h0 h1 => (hr' k hm h0 h1).trans (hr k hm h0 h1), ?_⟩
  simp only [CcSame] at hc hc' ⊢
  simp only [hc, hc', and_self]

theorem RegsBut.mono {ss' : List (BitVec 6)} {ps' : List (BitVec 4)} {rs' : List Nat} (h : RegsBut ss ps rs c d) (hs : ss ⊆ ss')
    (hp : ps ⊆ ps') (hr : rs ⊆ rs') : RegsBut ss' ps' rs' c d :=
  ⟨fun r hm => h.sregs r fun hr => hm (hs hr), fun p hm => h.preds p fun hp' => hm (hp hp'), fun k hm => h.sys k fun hk => hm (hr hk),
    h.same⟩

/-- What no register escapes, any list allows. -/
theorem RegsBut.of_nil (h : RegsBut [] [] [] c d) : RegsBut ss ps rs c d :=
  h.mono (List.nil_subset _) (List.nil_subset _) (List.nil_subset _)

theorem RegsBut.s_eq (h : RegsBut [] ps rs c d) (r : BitVec 6) : d.s r = c.s r := h.sregs r List.not_mem_nil

theorem RegsBut.sr_eq (h : RegsBut ss ps [] c d) {k : Nat} (h0 : k ≠ 0x010) (h1 : k ≠ 0x013) : d.sr k = c.sr k :=
  h.sys k List.not_mem_nil h0 h1

theorem RegsBut.p_eq (h : RegsBut ss [] rs c d) (p : BitVec 4) : d.p p = c.p p := h.preds p List.not_mem_nil

end

theorem regsBut_setS (c : CC) (r : BitVec 6) (v : W64) : RegsBut [r] [] [] c (c.setS r v) :=
  ⟨fun q hq => by rw [CC.setS_s, if_neg (by simpa using hq)], fun _ _ => by simp [CC.p], fun _ _ _ _ => by simp [CC.sr],
    by simp [CcSame]⟩

/-! ### The end-of-body test (R303) -/

/-- Levels count in registers 0x010 and 0x013, which every SysBut leaves free. -/
theorem regsBut_setSr_count (c : CC) {k : Nat} (hk : k = 0x010 ∨ k = 0x013) (v : W64) : RegsBut [] [] [] c (c.setSr k v) :=
  ⟨fun _ _ => rfl, fun _ _ => rfl, fun m _ h0 h1 => by rw [CC.setSr_sr, if_neg (by omega)], by simp [CcSame]⟩

/-- No frame speaks of the flags of the levels, nor of the PC. -/
theorem regsBut_levels (c : CC) (l0 l1 : Bool) : RegsBut [] [] [] c { c with la0 := l0, la1 := l1 } :=
  ⟨fun _ _ => rfl, fun _ _ => rfl, fun _ _ _ _ => rfl, by simp [CcSame]⟩

theorem regsBut_pc (c : CC) (pc : W64) : RegsBut [] [] [] c { c with pc := pc } :=
  ⟨fun _ _ => rfl, fun _ _ => rfl, fun _ _ _ _ => rfl, by simp [CcSame]⟩

theorem testLevel_regsBut (c : CC) {k : Nat} (hk : k = 1 ∨ k = 0) (f : W64) : RegsBut [] [] [] c (c.testLevel k f).1 := by
  rcases hk with rfl | rfl
  · have hcount := regsBut_setSr_count c (.inr rfl)
    simp only [CC.testLevel, if_true]
    split
    · split
      · exact hcount _
      · exact (hcount 0).trans (regsBut_levels ..)
    · exact regsBut_refl ..
  · have hcount := regsBut_setSr_count c (.inl rfl)
    simp only [CC.testLevel, zero_ne_one, if_false]
    split
    · split
      · exact hcount _
      · exact (hcount 0).trans (regsBut_levels ..)
    · exact regsBut_refl ..

theorem endBody_regsBut (c : CC) (f : W64) : RegsBut [] [] [] c (c.endBody f) := by
  have h1 := testLevel_regsBut c (.inl rfl) f
  have h0 := testLevel_regsBut (c.testLevel 1 f).1 (.inr rfl) f
  unfold CC.endBody
  split
  · next d t he => rw [he] at h1; exact h1.trans (regsBut_pc ..)
  · next d he =>
    rw [he] at h1 h0
    split
    · next e t he' => rw [he'] at h0; exact (h1.trans h0).trans (regsBut_pc ..)
    · next e he' => rw [he'] at h0; exact (h1.trans h0).trans (regsBut_pc ..)

theorem endBody_pc {c : CC} {f : W64} (h : NoLoopEnd c f) : (c.endBody f).pc = f := by
  obtain ⟨h0, h1⟩ := h
  have ht1 : c.testLevel 1 f = (c, none) := by simpa [CC.testLevel] using fun a b => absurd ⟨a, b⟩ h1
  have ht0 : c.testLevel 0 f = (c, none) := by simpa [CC.testLevel] using fun a b => absurd ⟨a, b⟩ h0
  simp [CC.endBody, ht1, ht0]

theorem retire_regsBut (c : CC) (h : Head) : RegsBut [] [] [] c (c.retire h .seq) :=
  have hwait : RegsBut [] [] [] c { c with wait := none } :=
    ⟨fun _ _ => rfl, fun _ _ => rfl, fun _ _ _ _ => rfl, by simp [CcSame]⟩
  hwait.trans (endBody_regsBut ..)

theorem retire_pc {c : CC} {h : Head} (hl : NoLoopEnd c (c.pc + Head.size h)) : (c.retire h .seq).pc = c.pc + Head.size h :=
  endBody_pc (c := { c with wait := none }) hl

/-! ### Running such an instruction -/

section
variable {n : Nat} {h : Head} {s : State} {i : Instr} {g : CC → CC}

theorem exec_of_ccPure (ha : CcActs n h s) (hx : exec i s = ccPure h g s) :
    exec i s = .next (s.modCC n fun c => (g c).retire h .seq) := by
  obtain ⟨hcur, hen⟩ := ha
  rw [hx, ccPure_eq h g n s hcur]
  simp only [State.modCC, State.modAc, CC.step, hen, if_true]

/-- A change g of the registers listed: what g leaves is what the instruction leaves, but for the PC and the loops. -/
theorem ccPure_frame {ss : List (BitVec 6)} {ps : List (BitVec 4)} {rs : List Nat} (ha : CcActs n h s)
    (hx : exec i s = ccPure h g s) (hg : RegsBut ss ps rs (s.ac n).cc (g (s.ac n).cc)) :
    ∃ t, exec i s = .next t ∧ CcFrame n ss ps rs s t ∧ (t.ac n).cc = (g (s.ac n).cc).retire h .seq := by
  have ht : ((s.modCC n fun c => (g c).retire h .seq).ac n).cc = (g (s.ac n).cc).retire h .seq := by
    simp only [State.modCC_ac, if_true]
  obtain ⟨hs, hp, hr, hsame⟩ := hg.trans (retire_regsBut _ h).of_nil
  rw [← ht] at hs hp hr hsame
  exact ⟨_, exec_of_ccPure ha hx, ⟨onlyCc_modCC .., hs, hp, hr, hsame⟩, ht⟩

theorem noLoopEnd_setS {c : CC} {r : BitVec 6} {v f : W64} : NoLoopEnd (c.setS r v) f ↔ NoLoopEnd c f := by
  simp [NoLoopEnd, CC.sr]

/-- A result in sD (R267). -/
theorem ccPure_setS {d : BitVec 6} {v : W64} (ha : CcActs n h s) (hx : exec i s = ccPure h g s)
    (hg : g (s.ac n).cc = (s.ac n).cc.setS d v) : ∃ t, exec i s = .next t ∧ CcFrame n [d] [] [] s t
      ∧ (t.ac n).cc.s d = (if d = 0 then 0 else v)
      ∧ (NoLoopEnd (s.ac n).cc ((s.ac n).cc.pc + Head.size h) → (t.ac n).cc.pc = (s.ac n).cc.pc + Head.size h) := by
  obtain ⟨t, hx, hf, ht⟩ := ccPure_frame ha hx (hg ▸ regsBut_setS ..)
  refine ⟨t, hx, hf, ?_, fun hl => ?_⟩
  · rw [ht, (retire_regsBut ..).s_eq, hg, CC.setS_s, if_pos rfl]
  · rw [ht, hg, retire_pc (by rwa [noLoopEnd_setS, CC.setS_pc]), CC.setS_pc]

end

/-! ### Values of the integer instructions, at every width (Tables 10-2 and 10-3) -/

section
variable {k : Nat} (x y : BitVec k)

theorem add_eq_ofInt : x + y = BitVec.ofInt k (x.toInt + y.toInt) := by
  rw [BitVec.ofInt_add, BitVec.ofInt_toInt, BitVec.ofInt_toInt]

theorem sub_eq_ofInt : x - y = BitVec.ofInt k (x.toInt - y.toInt) :=
  BitVec.eq_of_toInt_eq (by rw [BitVec.toInt_sub, BitVec.toInt_ofInt])

theorem mul_eq_ofInt : x * y = BitVec.ofInt k (x.toInt * y.toInt) := by
  rw [BitVec.ofInt_mul, BitVec.ofInt_toInt, BitVec.ofInt_toInt]

theorem sdivR_eq_ofInt : sdivR x y = BitVec.ofInt k (quotS x.toInt y.toInt) := by
  by_cases hy : y = 0
  · simp [sdivR, quotS, hy, ← BitVec.neg_one_eq_allOnes, BitVec.ofInt_neg]
  · have hy' : y.toInt ≠ 0 := fun h => hy (BitVec.eq_of_toInt_eq (by simpa using h))
    exact BitVec.eq_of_toInt_eq (by rw [sdivR, if_neg hy, quotS, if_neg hy', BitVec.toInt_sdiv, BitVec.toInt_ofInt])

theorem sremR_eq_ofInt : sremR x y = BitVec.ofInt k (remS x.toInt y.toInt) := by
  by_cases hy : y = 0
  · simp [sremR, remS, hy]
  · have hy' : y.toInt ≠ 0 := fun h => hy (BitVec.eq_of_toInt_eq (by simpa using h))
    rw [sremR, if_neg hy, remS, if_neg hy', ← Int.tmod_def, ← BitVec.toInt_srem, BitVec.ofInt_toInt]

theorem udivR_eq_ofNat (hk : k ≤ 64) : udivR x y = BitVec.ofNat k (if y.toNat = 0 then 2 ^ 64 - 1 else x.toNat / y.toNat) := by
  by_cases hy : y = 0
  · refine BitVec.eq_of_getLsbD_eq fun i hi => ?_
    have hi' : i < 64 := hi.trans_le hk
    rw [udivR, if_pos hy, if_pos (by simp [hy]), BitVec.getLsbD_ofNat, Nat.testBit_two_pow_sub_one]
    simp [hi, hi']
  · have hy' : y.toNat ≠ 0 := fun h => hy (BitVec.eq_of_toNat_eq (by simpa using h))
    rw [udivR, if_neg hy, if_neg hy', ← BitVec.toNat_udiv, BitVec.ofNat_toNat, BitVec.setWidth_eq]

theorem uremR_eq_ofNat :
    uremR x y = BitVec.ofNat k (if y.toNat = 0 then x.toNat else x.toNat - y.toNat * (x.toNat / y.toNat)) := by
  by_cases hy : y = 0
  · rw [uremR, if_pos hy, if_pos (by simp [hy]), BitVec.ofNat_toNat, BitVec.setWidth_eq]
  · have hy' : y.toNat ≠ 0 := fun h => hy (BitVec.eq_of_toNat_eq (by simpa using h))
    rw [uremR, if_neg hy, if_neg hy', ← Nat.mod_def, ← BitVec.toNat_umod, BitVec.ofNat_toNat, BitVec.setWidth_eq]

theorem shiftLeft_eq_ofNat (m : Nat) : x <<< m = BitVec.ofNat k (x.toNat * 2 ^ m) :=
  BitVec.eq_of_toNat_eq (by rw [BitVec.toNat_shiftLeft, Nat.shiftLeft_eq, BitVec.toNat_ofNat])

theorem shiftLeft_eq_ofInt (m : Nat) : x <<< m = BitVec.ofInt k (x.toInt * 2 ^ m) := by
  rw [shiftLeft_eq_ofNat, ← BitVec.ofInt_natCast, Nat.cast_mul, BitVec.ofInt_mul, BitVec.ofInt_mul, BitVec.ofInt_toInt,
    BitVec.ofInt_natCast, BitVec.ofNat_toNat, BitVec.setWidth_eq, Nat.cast_pow, Nat.cast_ofNat]

theorem ushiftRight_eq_ofNat (m : Nat) : x >>> m = BitVec.ofNat k (x.toNat / 2 ^ m) :=
  BitVec.eq_of_toNat_eq (by
    rw [BitVec.toNat_ushiftRight, Nat.shiftRight_eq_div_pow, BitVec.toNat_ofNat,
      Nat.mod_eq_of_lt ((Nat.div_le_self ..).trans_lt x.isLt)])

theorem sshiftRight_eq_ofInt (m : Nat) : x.sshiftRight m = BitVec.ofInt k (x.toInt / 2 ^ m) := by
  rw [BitVec.sshiftRight, Int.shiftRight_eq_div_pow, Nat.cast_pow, Nat.cast_ofNat]

theorem rotateLeft_eq_ofNat {m : Nat} (hm : m < k) :
    x.rotateLeft m = BitVec.ofNat k (x.toNat * 2 ^ m + x.toNat / 2 ^ (k - m)) := by
  have hdisjoint : x <<< m &&& x >>> (k - m) = 0#k := by
    refine BitVec.eq_of_getLsbD_eq fun i hi => ?_
    by_cases him : i < m
    · simp [him]
    · simp [BitVec.getLsbD_of_ge x (k - m + i) (by omega)]
  rw [BitVec.rotateLeft_def, Nat.mod_eq_of_lt hm, ← BitVec.add_eq_or_of_and_eq_zero _ _ hdisjoint, BitVec.ofNat_add,
    ← shiftLeft_eq_ofNat, ← ushiftRight_eq_ofNat]

end

/-! ### Instructions that put a value into sD -/

/-- From c, an instruction puts v into sD and does nothing else (R267). -/
def PutsS (c : CC) (i : Instr) (h : Head) (d : BitVec 6) (v : W64) : Prop :=
  ∃ g, (∀ s, exec i s = ccPure h g s) ∧ g c = c.setS d v

section
variable {c : CC} {i : Instr} {h : Head} {d : BitVec 6} {a b : Src}

theorem putsS_of_ccPure (e : State → Res) {g : CC → CC} {v w : W64} (hx : ∀ s, exec i s = e s) (he : ∀ s, e s = ccPure h g s)
    (hg : g c = c.setS d w) (hv : w = v) : PutsS c i h d v :=
  ⟨g, fun s => (hx s).trans (he s), hv ▸ hg⟩

theorem putsS_of_ccBin64 (e : State → Res) {f : W64 → W64 → W64} {v : W64} (hx : ∀ s, exec i s = e s)
    (he : ∀ s, e s = ccBin64 h d a b f s) (hv : f (c.src a) (c.src b) = v) : PutsS c i h d v :=
  putsS_of_ccPure e hx he rfl hv

/-- A form with a .s32 variant, on signed numbers (R289). -/
theorem putsS_of_ccBin_signed (e : State → Res) {w : Bool} {f64 : W64 → W64 → W64} {f32 : W32 → W32 → W32} {f : Int → Int → Int}
    {g : Nat → Nat → Nat}
    (hx : ∀ s, exec i s = e s) (he : ∀ s, e s = ccBin h w d a b f64 f32 s)
    (h64 : w = false → f64 (c.src a) (c.src b) = BitVec.ofInt 64 (f (c.src a).toInt (c.src b).toInt))
    (h32 : w = true → f32 ((c.src a).setWidth 32) ((c.src b).setWidth 32)
      = BitVec.ofInt 32 (f ((c.src a).setWidth 32).toInt ((c.src b).setWidth 32).toInt)) :
    PutsS c i h d (arith f g true w (c.src a) (c.src b)) := by
  refine putsS_of_ccPure e hx he rfl ?_
  cases w with
  | false => simp [arith, h64]
  | true => simp [arith, s32, h32]

/-- A form with a .s32 variant, on unsigned numbers (R289). -/
theorem putsS_of_ccBin_unsigned (e : State → Res) {w : Bool} {f64 : W64 → W64 → W64} {f32 : W32 → W32 → W32} {f : Int → Int → Int}
    {g : Nat → Nat → Nat}
    (hx : ∀ s, exec i s = e s) (he : ∀ s, e s = ccBin h w d a b f64 f32 s)
    (h64 : w = false → f64 (c.src a) (c.src b) = BitVec.ofNat 64 (g (c.src a).toNat (c.src b).toNat))
    (h32 : w = true → f32 ((c.src a).setWidth 32) ((c.src b).setWidth 32)
      = BitVec.ofNat 32 (g ((c.src a).setWidth 32).toNat ((c.src b).setWidth 32).toNat)) :
    PutsS c i h d (arith f g false w (c.src a) (c.src b)) := by
  refine putsS_of_ccPure e hx he rfl ?_
  cases w with
  | false => simp [arith, h64]
  | true => simp only [arith, s32, h32, if_true, Bool.false_eq_true, if_false, BitVec.ofInt_natCast]

end

/-! ### Values of the 64-bit forms -/

section
variable (x y : W64)

theorem mulHi_toNat_eq_ofNat : mulHi x.toNat y.toNat = BitVec.ofNat 64 (x.toNat * y.toNat / 2 ^ 64) := by
  rw [mulHi, ← BitVec.ofInt_natCast]
  norm_cast

theorem eq_ofFnLE {v : W64} {f : Fin 64 → Bool} (h : ∀ i : Fin 64, v.getLsbD i = f i) : v = BitVec.ofFnLE f :=
  BitVec.eq_of_getLsbD_eq fun i hi => by rw [BitVec.getLsbD_ofFnLE, dif_pos hi, ← h]

theorem smin_eq_ofInt : (if y.slt x then y else x) = BitVec.ofInt 64 (Min.min x.toInt y.toInt) := by
  rw [min_comm, min_def_lt, apply_ite (BitVec.ofInt 64), BitVec.ofInt_toInt, BitVec.ofInt_toInt]
  simp only [BitVec.slt_iff_toInt_lt]

theorem smax_eq_ofInt : (if x.slt y then y else x) = BitVec.ofInt 64 (Max.max x.toInt y.toInt) := by
  rw [max_def_lt, apply_ite (BitVec.ofInt 64), BitVec.ofInt_toInt, BitVec.ofInt_toInt]
  simp only [BitVec.slt_iff_toInt_lt]

theorem umin_eq_ofNat : (if y.ult x then y else x) = BitVec.ofNat 64 (Min.min x.toNat y.toNat) := by
  rw [min_comm, min_def_lt, apply_ite (BitVec.ofNat 64), BitVec.ofNat_toNat, BitVec.setWidth_eq, BitVec.ofNat_toNat, BitVec.setWidth_eq]
  simp only [BitVec.ult_iff_toNat_lt]

theorem umax_eq_ofNat : (if x.ult y then y else x) = BitVec.ofNat 64 (Max.max x.toNat y.toNat) := by
  rw [max_def_lt, apply_ite (BitVec.ofNat 64), BitVec.ofNat_toNat, BitVec.setWidth_eq, BitVec.ofNat_toNat, BitVec.setWidth_eq]
  simp only [BitVec.ult_iff_toNat_lt]

theorem append_low_eq_ofNat :
    x.setWidth 32 ++ y.setWidth 32 = BitVec.ofNat 64 (x.toNat % 2 ^ 32 * 2 ^ 32 + y.toNat % 2 ^ 32) :=
  BitVec.eq_of_toNat_eq (by
    rw [BitVec.toNat_append, BitVec.toNat_setWidth, BitVec.toNat_setWidth, ← Nat.shiftLeft_add_eq_or_of_lt (Nat.mod_lt _ (by norm_num)),
      Nat.shiftLeft_eq, BitVec.toNat_ofNat]
    omega)

theorem add_eq_ofNat : x + y = BitVec.ofNat 64 (x.toNat + y.toNat) := by
  rw [BitVec.ofNat_add, BitVec.ofNat_toNat, BitVec.ofNat_toNat, BitVec.setWidth_eq, BitVec.setWidth_eq]

theorem add_shiftLeft_eq_ofNat (m : Nat) : x + y <<< m = BitVec.ofNat 64 (x.toNat + y.toNat * 2 ^ m) := by
  rw [BitVec.ofNat_add, ← shiftLeft_eq_ofNat, BitVec.ofNat_toNat, BitVec.setWidth_eq]

end

/-- The low bits of a number are the sum of their powers of two. -/
theorem sum_testBit (x n : Nat) : ((List.range n).map fun i => if x.testBit i then 2 ^ i else 0).sum = x % 2 ^ n := by
  induction n with
  | zero => simp [Nat.mod_one]
  | succ n ih =>
    rw [List.range_succ, List.map_append, List.sum_append, ih, Nat.mod_pow_succ, List.map_singleton, List.sum_singleton,
      ← Nat.toNat_testBit]
    cases x.testBit n <;> simp

/-- All predicates, p0 reading true, as bits (R294). -/
theorem preds_eq_ofNat (c : CC) : (c.preg ||| 1).setWidth 64
    = BitVec.ofNat 64 (((List.range 16).map fun i => if c.p (BitVec.ofNat 4 i) then 2 ^ i else 0).sum) := by
  have hbit (i : Nat) (hi : i < 16) : c.p (BitVec.ofNat 4 i) = (c.preg ||| 1).toNat.testBit i := by
    rw [BitVec.testBit_toNat, BitVec.getLsbD_or, CC.p, Bool.or_comm]
    interval_cases i <;> simp
  rw [List.map_congr_left fun i hi => by rw [hbit i (List.mem_range.mp hi)], sum_testBit, Nat.mod_eq_of_lt (BitVec.isLt _),
    BitVec.ofNat_toNat]

theorem setWidth32_mod (y : W64) : (y.setWidth 32).toNat % 32 = y.toNat % 32 := by
  rw [BitVec.toNat_setWidth]
  omega

/-- The cases are the arms of intResult, in its order. -/
theorem putsS_of_intResult {c : CC} {i : Instr} {h : Head} {d : BitVec 6} {v : W64} (hr : intResult c i = some (h, d, v)) :
    PutsS c i h d v := by
  unfold intResult at hr
  split at hr
  · next h w d a b =>
    cases hr
    exact putsS_of_ccBin_signed (execAdd h w d a b) (fun _ => rfl) (fun _ => rfl)
      (fun _ => add_eq_ofInt ..) fun _ => add_eq_ofInt ..
  · next h w d a b =>
    cases hr
    exact putsS_of_ccBin_signed (execSub h w d a b) (fun _ => rfl) (fun _ => rfl)
      (fun _ => sub_eq_ofInt ..) fun _ => sub_eq_ofInt ..
  · next h w d a b =>
    cases hr
    exact putsS_of_ccBin_signed (execMul h w d a b) (fun _ => rfl) (fun _ => rfl)
      (fun _ => mul_eq_ofInt ..) fun _ => mul_eq_ofInt ..
  · next h d a b =>
    cases hr
    exact putsS_of_ccBin64 (execMulh h d a b) (fun _ => rfl) (fun _ => rfl) (by rw [mulHi])
  · next h d a b =>
    cases hr
    exact putsS_of_ccBin64 (execMulhu h d a b) (fun _ => rfl) (fun _ => rfl) (mulHi_toNat_eq_ofNat ..)
  · next h w d a b =>
    cases hr
    exact putsS_of_ccBin_signed (execDiv h w d a b) (fun _ => rfl) (fun _ => rfl)
      (fun _ => sdivR_eq_ofInt ..) fun _ => sdivR_eq_ofInt ..
  · next h w d a b =>
    cases hr
    exact putsS_of_ccBin_unsigned (execDivu h w d a b) (fun _ => rfl) (fun _ => rfl)
      (fun _ => udivR_eq_ofNat _ _ (by norm_num)) fun _ => udivR_eq_ofNat _ _ (by norm_num)
  · next h w d a b =>
    cases hr
    exact putsS_of_ccBin_signed (execRem h w d a b) (fun _ => rfl) (fun _ => rfl)
      (fun _ => sremR_eq_ofInt ..) fun _ => sremR_eq_ofInt ..
  · next h w d a b =>
    cases hr
    exact putsS_of_ccBin_unsigned (execRemu h w d a b) (fun _ => rfl) (fun _ => rfl)
      (fun _ => uremR_eq_ofNat ..) fun _ => uremR_eq_ofNat ..
  · next h d a b =>
    cases hr
    exact putsS_of_ccBin64 (execAnd h d a b) (fun _ => rfl) (fun _ => rfl) (eq_ofFnLE fun i => BitVec.getLsbD_and ..)
  · next h d a b =>
    cases hr
    exact putsS_of_ccBin64 (execOr h d a b) (fun _ => rfl) (fun _ => rfl) (eq_ofFnLE fun i => BitVec.getLsbD_or ..)
  · next h d a b =>
    cases hr
    exact putsS_of_ccBin64 (execXor h d a b) (fun _ => rfl) (fun _ => rfl) (eq_ofFnLE fun i => BitVec.getLsbD_xor ..)
  · next h d a b =>
    cases hr
    exact putsS_of_ccBin64 (execAndn h d a b) (fun _ => rfl) (fun _ => rfl) (eq_ofFnLE fun i => by simp)
  · next h w d a b =>
    cases hr
    refine putsS_of_ccBin_signed (execShl h w d a b) (fun _ => rfl) (fun _ => rfl) (fun hw => ?_) fun hw => ?_
    · simp only [hw, Bool.false_eq_true, if_false]
      exact shiftLeft_eq_ofInt ..
    · simp only [hw, if_true, setWidth32_mod]
      exact shiftLeft_eq_ofInt ..
  · next h w d a b =>
    cases hr
    refine putsS_of_ccBin_unsigned (execShr h w d a b) (fun _ => rfl) (fun _ => rfl) (fun hw => ?_) fun hw => ?_
    · simp only [hw, Bool.false_eq_true, if_false]
      exact ushiftRight_eq_ofNat ..
    · simp only [hw, if_true, setWidth32_mod]
      exact ushiftRight_eq_ofNat ..
  · next h w d a b =>
    cases hr
    refine putsS_of_ccBin_signed (execSha h w d a b) (fun _ => rfl) (fun _ => rfl) (fun hw => ?_) fun hw => ?_
    · simp only [hw, Bool.false_eq_true, if_false]
      exact sshiftRight_eq_ofInt ..
    · simp only [hw, if_true, setWidth32_mod]
      exact sshiftRight_eq_ofInt ..
  · next h d a b =>
    cases hr
    exact putsS_of_ccBin64 (execRol h d a b) (fun _ => rfl) (fun _ => rfl) (rotateLeft_eq_ofNat _ (Nat.mod_lt _ (by norm_num)))
  · next h d a b =>
    cases hr
    exact putsS_of_ccBin64 (execMin h d a b) (fun _ => rfl) (fun _ => rfl) (smin_eq_ofInt ..)
  · next h d a b =>
    cases hr
    exact putsS_of_ccBin64 (execMinu h d a b) (fun _ => rfl) (fun _ => rfl) (umin_eq_ofNat ..)
  · next h d a b =>
    cases hr
    exact putsS_of_ccBin64 (execMax h d a b) (fun _ => rfl) (fun _ => rfl) (smax_eq_ofInt ..)
  · next h d a b =>
    cases hr
    exact putsS_of_ccBin64 (execMaxu h d a b) (fun _ => rfl) (fun _ => rfl) (umax_eq_ofNat ..)
  · next h d a b p =>
    cases hr
    exact putsS_of_ccPure (execSel h d a b p) (fun _ => rfl) (fun _ => rfl) rfl rfl
  · next h d a =>
    cases hr
    exact putsS_of_ccPure (execLi h d a) (fun _ => rfl) (fun _ => rfl) rfl rfl
  · next h d a =>
    cases hr
    exact putsS_of_ccPure (execLih h d a) (fun _ => rfl) (fun _ => rfl) rfl (append_low_eq_ofNat ..)
  · next h sh d a b =>
    cases hr
    exact putsS_of_ccBin64 (execLea h sh d a b) (fun _ => rfl) (fun _ => rfl) (add_shiftLeft_eq_ofNat ..)
  · next h d b =>
    cases hr
    exact putsS_of_ccPure (execLeaPc h d b) (fun _ => rfl) (fun _ => rfl) rfl (add_eq_ofNat ..)
  · next h d a =>
    cases hr
    exact putsS_of_ccPure (execPmovToScalar h d a) (fun _ => rfl) (fun _ => rfl) rfl rfl
  · next h d =>
    cases hr
    exact putsS_of_ccPure (execPmovAll h d) (fun _ => rfl) (fun _ => rfl) rfl (preds_eq_ofNat c)
  · cases hr

/-- Settles O1: an integer instruction only puts its value into sD. -/
theorem integerResult : Obligations.IntegerResult := by
  intro n s i h d v hr ha
  obtain ⟨g, hx, hg⟩ := putsS_of_intResult hr
  exact ccPure_setS ha (hx s) hg

end Sys2Proof

/-! # Bit fields (R289, R291) -/

namespace Sys2Proof

open Machine

/-! ### CLZ and CTZ -/

/-- The first place below n where p holds, or n. -/
theorem findRange_getD (n : Nat) (p : Nat → Bool) : let r := ((List.range n).find? p).getD n
    r ≤ n ∧ (∀ i, i < r → p i = false) ∧ (r < n → p r = true) := by
  cases hf : (List.range n).find? p with
  | none =>
    have hnone := List.find?_range_eq_none.mp hf
    exact ⟨le_rfl, fun i hi => by simpa using hnone i hi, fun h => absurd h (lt_irrefl n)⟩
  | some r =>
    obtain ⟨hr, hmem, hbefore⟩ := List.find?_range_eq_some.mp hf
    exact ⟨(List.mem_range.mp hmem).le, fun i hi => by simpa using hbefore i hi, fun _ => hr⟩

/-- CLZ and CTZ: the count before the first set bit, when e numbers the bits in the order of the search. -/
theorem countBefore_spec (x : W64) (e : Nat → Nat) (he : ∀ i, i < 64 → e (e i) = i ∧ e i < 64) :
    let r := BitVec.ofNat 64 (((List.range 64).find? fun i => x.getLsbD (e i)).getD 64)
    r.toNat ≤ 64 ∧ (∀ i, i < r.toNat → x.getLsbD (e i) = false) ∧ (x ≠ 0 → x.getLsbD (e r.toNat) = true) ∧ (x = 0 → r = 64) := by
  obtain ⟨hle, hbefore, hat⟩ := findRange_getD 64 fun i => x.getLsbD (e i)
  generalize ((List.range 64).find? fun i => x.getLsbD (e i)).getD 64 = r at hle hbefore hat
  have hr : (BitVec.ofNat 64 r).toNat = r := Nat.mod_eq_of_lt (by omega)
  simp only [hr]
  refine ⟨hle, hbefore, fun hx => hat (lt_of_le_of_ne hle fun h64 => hx ?_), fun hx => ?_⟩
  · refine BitVec.eq_of_getLsbD_eq fun i hi => ?_
    obtain ⟨hee, hei⟩ := he i hi
    rw [← hee, hbefore (e i) (h64 ▸ hei)]
    exact (BitVec.getLsbD_zero ..).symm
  · have h64 : ¬r < 64 := fun hlt => by simpa [hx] using hat hlt
    rw [show r = 64 by omega]
    rfl

/-! ### POPC -/

theorem foldl_count {α : Type} (p : α → Bool) (l : List α) (k : Nat) :
    l.foldl (fun k i => if p i then k + 1 else k) k = k + (l.filter p).length := by
  induction l generalizing k with
  | nil => rfl
  | cons a l ih =>
    rw [List.foldl_cons, ih, List.filter_cons]
    cases p a
    · rfl
    · simp only [if_true, List.length_cons]; omega

theorem popc64_toNat (x : W64) : (BitVec.ofNat 64 (popc64 x)).toNat = ((List.range 64).filter fun i => x.getLsbD i).length := by
  have hle : ((List.range 64).filter fun i => x.getLsbD i).length ≤ 64 := (List.length_filter_le ..).trans_eq List.length_range
  rw [popc64, foldl_count, zero_add, BitVec.toNat_ofNat, Nat.mod_eq_of_lt (hle.trans_lt (by norm_num))]

/-! ### BFX and BFI -/

theorem ofInt_sub_two_pow (v : Nat) {w : Nat} (hw : w ≤ 64) :
    BitVec.ofInt 64 ((v : Int) - 2 ^ w) = BitVec.ofNat 64 (2 ^ w * (2 ^ (64 - w) - 1) + v) := by
  have hle : 2 ^ w ≤ 2 ^ 64 := Nat.pow_le_pow_right (by norm_num) hw
  have hhigh : 2 ^ w * (2 ^ (64 - w) - 1) = 2 ^ 64 - 2 ^ w := by
    rw [Nat.mul_sub, ← pow_add, Nat.add_sub_cancel' hw, mul_one]
  refine BitVec.eq_of_toNat_eq ?_
  rw [BitVec.toNat_ofInt, BitVec.toNat_ofNat, hhigh, ← Nat.cast_ofNat (n := 2), ← Nat.cast_pow]
  generalize 2 ^ w = p at hle
  omega

/-- A field of w bits, of which the highest is set, extended by its sign. -/
theorem getLsbD_ofInt_sub_two_pow {v w i : Nat} (hv : v < 2 ^ w) (hw : w ≤ 64) (hi : i < 64) :
    (BitVec.ofInt 64 ((v : Int) - 2 ^ w)).getLsbD i = if i < w then v.testBit i else true := by
  rw [ofInt_sub_two_pow v hw, BitVec.getLsbD_ofNat, decide_eq_true hi, Bool.true_and, Nat.testBit_two_pow_mul_add _ hv,
    Nat.testBit_two_pow_sub_one]
  split
  · rfl
  · exact decide_eq_true (by omega)

/-- The highest bit of a field of w bits. -/
theorem testBit_top {v w : Nat} (hw : 0 < w) (hv : v < 2 ^ w) : v.testBit (w - 1) = decide (2 ^ (w - 1) ≤ v) := by
  by_cases h : 2 ^ (w - 1) ≤ v
  · rw [decide_eq_true h]
    exact Nat.testBit_of_two_pow_le_and_two_pow_add_one_gt h (by rwa [Nat.sub_add_cancel hw])
  · rw [decide_eq_false h, Nat.testBit_lt_two_pow (not_le.mp h)]

theorem fieldOf_eq (b : W64) : fieldOf b = (b.toNat % 64, Min.min (b.toNat / 64 % 64 + 1) (64 - b.toNat % 64)) := by
  simp [fieldOf, bits]

theorem getLsbD_bfxVal (sx : Bool) (x b : W64) {pos w i : Nat} (hf : fieldOf b = (pos, w)) (hw : 0 < w) (hw' : w ≤ 64) (hi : i < 64) :
    (bfxVal sx x b).getLsbD i = if i < w then x.getLsbD (pos + i) else sx && x.getLsbD (pos + w - 1) := by
  have hv : x.toNat / 2 ^ pos % 2 ^ w < 2 ^ w := Nat.mod_lt _ (by positivity)
  have hbit (j : Nat) : (x.toNat / 2 ^ pos % 2 ^ w).testBit j = (decide (j < w) && x.getLsbD (pos + j)) := by
    rw [Nat.testBit_mod_two_pow, Nat.testBit_div_two_pow, add_comm]
    rfl
  have htop := testBit_top hw hv
  rw [hbit, decide_eq_true (by omega), Bool.true_and, ← Nat.add_sub_assoc hw] at htop
  simp only [bfxVal, hf, ← htop]
  split
  · next hneg =>
    rw [hneg, getLsbD_ofInt_sub_two_pow hv hw' hi, hbit]
    split <;> simp [*]
  · next hneg =>
    rw [Bool.not_eq_true] at hneg
    rw [hneg, BitVec.getLsbD_ofNat, hbit]
    split <;> simp [*]

/-- A word with a field replaced, as what stands above the field, the field, and what stands below it. -/
theorem setBits_eq (y : W64) (pos w v : Nat) : setBits y pos w v
    = BitVec.ofNat 64 (2 ^ pos * (2 ^ w * (y.toNat / 2 ^ pos / 2 ^ w) + v % 2 ^ w) + y.toNat % 2 ^ pos) := by
  have hy : 2 ^ pos * (2 ^ w * (y.toNat / 2 ^ pos / 2 ^ w) + bits y pos w) + y.toNat % 2 ^ pos = y.toNat := by
    rw [bits, Nat.div_add_mod, Nat.div_add_mod]
  rw [Nat.mul_add] at hy ⊢
  rw [setBits, mul_comm (bits ..), mul_comm (v % _)]
  congr 1
  omega

theorem getLsbD_bfiVal (y x b : W64) {pos w i : Nat} (hf : fieldOf b = (pos, w)) (hi : i < 64) :
    (bfiVal y x b).getLsbD i = if pos ≤ i ∧ i < pos + w then x.getLsbD (i - pos) else y.getLsbD i := by
  simp only [bfiVal, hf, setBits_eq, Nat.mod_mod]
  rw [BitVec.getLsbD_ofNat, decide_eq_true hi, Bool.true_and, Nat.testBit_two_pow_mul_add _ (Nat.mod_lt _ (by positivity)),
    Nat.testBit_two_pow_mul_add _ (Nat.mod_lt _ (by positivity)), Nat.testBit_mod_two_pow, Nat.testBit_mod_two_pow,
    Nat.testBit_div_two_pow, Nat.testBit_div_two_pow, BitVec.testBit_toNat, BitVec.testBit_toNat, BitVec.testBit_toNat]
  by_cases hlow : i < pos
  · rw [if_pos hlow, if_neg (by omega), decide_eq_true hlow, Bool.true_and]
  · by_cases hin : i - pos < w
    · rw [if_neg hlow, if_pos hin, if_pos (by omega), decide_eq_true hin, Bool.true_and]
    · rw [if_neg hlow, if_neg hin, if_neg (by omega), show i - pos - w + w + pos = i by omega]

/-! ### Putting them into sD -/

theorem PutsS.next {n : Nat} {h : Head} {s : State} {i : Instr} {d : BitVec 6} {v : W64} (hp : PutsS (s.ac n).cc i h d v)
    (ha : CcActs n h s) : ∃ t, exec i s = .next t ∧ CcFrame n [d] [] [] s t ∧ (d ≠ 0 → (t.ac n).cc.s d = v) := by
  obtain ⟨g, hx, hg⟩ := hp
  obtain ⟨t, hx, hf, hd, -⟩ := ccPure_setS ha (hx s) hg
  exact ⟨t, hx, hf, fun hne => by rw [hd, if_neg hne]⟩

section
variable (c : CC) (h : Head) (d : BitVec 6) (a b : Src)

theorem putsS_clz : PutsS c (.clz h d a) h d (BitVec.ofNat 64 (clz64 (c.src a))) :=
  putsS_of_ccPure (execClz h d a) (fun _ => rfl) (fun _ => rfl) rfl rfl

theorem putsS_ctz : PutsS c (.ctz h d a) h d (BitVec.ofNat 64 (ctz64 (c.src a))) :=
  putsS_of_ccPure (execCtz h d a) (fun _ => rfl) (fun _ => rfl) rfl rfl

theorem putsS_popc : PutsS c (.popc h d a) h d (BitVec.ofNat 64 (popc64 (c.src a))) :=
  putsS_of_ccPure (execPopc h d a) (fun _ => rfl) (fun _ => rfl) rfl rfl

theorem putsS_bfx (sx : Bool) : PutsS c (.bfx h sx d a b) h d (bfxVal sx (c.src a) (c.src b)) :=
  putsS_of_ccBin64 (execBfx h sx d a b) (fun _ => rfl) (fun _ => rfl) rfl

theorem putsS_bfi : PutsS c (.bfi h d a b) h d (bfiVal (c.s d) (c.src a) (c.src b)) :=
  putsS_of_ccPure (execBfi h d a b) (fun _ => rfl) (fun _ => rfl) rfl rfl

end

/-- Settles O2: each of the five puts one value into sD, whose bits its own lemma gives. -/
theorem bitFieldResult : Obligations.BitFieldResult := by
  intro n s h d a b ha c x pos w
  have hf : fieldOf (c.src b) = (pos, w) := fieldOf_eq _
  have hpos : pos < 64 := Nat.mod_lt _ (by norm_num)
  obtain ⟨hw0, hw64⟩ : 0 < w ∧ w ≤ 64 := by omega
  refine ⟨?_, ?_, ?_, fun sx => ?_, ?_⟩
  · obtain ⟨t, hx, hframe, hd⟩ := (putsS_clz c h d a).next ha
    exact ⟨t, hx, hframe, fun hne => hd hne ▸ countBefore_spec x (fun i => 63 - i) fun i hi => by omega⟩
  · obtain ⟨t, hx, hframe, hd⟩ := (putsS_ctz c h d a).next ha
    exact ⟨t, hx, hframe, fun hne => hd hne ▸ countBefore_spec x (fun i => i) fun i hi => ⟨rfl, hi⟩⟩
  · obtain ⟨t, hx, hframe, hd⟩ := (putsS_popc c h d a).next ha
    exact ⟨t, hx, hframe, fun hne => hd hne ▸ popc64_toNat x⟩
  · obtain ⟨t, hx, hframe, hd⟩ := (putsS_bfx c h d a b sx).next ha
    exact ⟨t, hx, hframe, fun hne i hi => hd hne ▸ getLsbD_bfxVal sx x (c.src b) hf hw0 hw64 hi⟩
  · obtain ⟨t, hx, hframe, hd⟩ := (putsS_bfi c h d a b).next ha
    exact ⟨t, hx, hframe, fun hne i hi => hd hne ▸ getLsbD_bfiVal (c.s d) x (c.src b) hf hi⟩

end Sys2Proof

/-! # Instructions that write predicates (R293, R294, R297) -/

namespace Sys2Proof

open Machine

/-! ### Writing a predicate (R267) -/

theorem setP_preg {r : BitVec 4} (hr : r ≠ 0) (c : CC) (v : Bool) :
    (c.setP r v).preg = if v then c.preg ||| BitVec.twoPow 16 r.toNat else c.preg &&& ~~~ BitVec.twoPow 16 r.toNat := by
  rw [CC.setP, if_neg hr]

/-- A write of p0 is discarded, and it reads true (R267). -/
@[simp] theorem setP_p (c : CC) (r q : BitVec 4) (v : Bool) : (c.setP r v).p q = if q = r then r == 0 || v else c.p q := by
  by_cases hr : r = 0
  · rw [CC.setP, if_pos hr]
    split
    · next h => simp [CC.p, h, hr]
    · rfl
  · have hq16 : q.toNat < 16 := q.isLt
    rw [CC.p, setP_preg hr, CC.p]
    by_cases hq : q = r
    · subst hq
      cases v <;> simp [BitVec.getElem_twoPow, hq16]
    · have hne : q.toNat ≠ r.toNat := (BitVec.toNat_eq ..).not.mp hq
      cases v <;> simp [BitVec.getElem_twoPow, hq16, hq, hne]

theorem regsBut_setP (c : CC) (r : BitVec 4) (v : Bool) : RegsBut [] [r] [] c (c.setP r v) :=
  ⟨fun _ _ => by simp [CC.s], fun q hq => by rw [setP_p, if_neg (by simpa using hq)], fun _ _ _ _ => by simp [CC.sr],
    by simp [CcSame]⟩

/-- From c, an instruction puts v into pD and does nothing else. -/
def PutsP (c : CC) (i : Instr) (h : Head) (d : BitVec 4) (v : Bool) : Prop :=
  ∃ g, (∀ s, exec i s = ccPure h g s) ∧ g c = c.setP d v

section
variable {c : CC} {i : Instr} {h : Head} {d : BitVec 4} {v : Bool}

theorem putsP_of_ccPure (e : State → Res) {g : CC → CC} {w : Bool} (hx : ∀ s, exec i s = e s) (he : ∀ s, e s = ccPure h g s)
    (hg : g c = c.setP d w) (hv : w = v) : PutsP c i h d v :=
  ⟨g, fun s => (hx s).trans (he s), hv ▸ hg⟩

theorem PutsP.next {n : Nat} {s : State} (hp : PutsP (s.ac n).cc i h d v) (ha : CcActs n h s) :
    ∃ t, exec i s = .next t ∧ CcFrame n [] [d] [] s t ∧ (t.ac n).cc.p d = (d == 0 || v) := by
  obtain ⟨g, hx, hg⟩ := hp
  obtain ⟨t, hx, hf, ht⟩ := ccPure_frame ha (hx s) (hg ▸ regsBut_setP ..)
  exact ⟨t, hx, hf, by rw [ht, (retire_regsBut ..).p_eq, hg, setP_p, if_pos rfl]⟩

end

theorem ne_zero_eq_decide_toNat (x : W64) : (x != 0) = decide (x.toNat ≠ 0) := by
  simp [bne, BitVec.toNat_eq, Bool.beq_eq_decide_eq]

/-- The cases are the arms of predResult, in its order. -/
theorem putsP_of_predResult {c : CC} {i : Instr} {h : Head} {d : BitVec 4} {v : Bool} (hr : predResult c i = some (h, d, v)) :
    PutsP c i h d v := by
  unfold predResult at hr
  split at hr
  · next h k d a b =>
    cases hr
    refine putsP_of_ccPure (execCmp h k d a b) (fun _ => rfl) (fun _ => rfl) rfl ?_
    rw [Bool.eq_iff_iff]
    cases k <;> simp [cmpCond, BitVec.slt_eq_decide, BitVec.ult_eq_decide, BitVec.toNat_eq]
  · next h f d a b =>
    cases hr
    refine putsP_of_ccPure (execPlog h f d a b) (fun _ => rfl) (fun _ => rfl) rfl ?_
    cases f <;> cases c.p a <;> cases c.p b <;> rfl
  · next h d a =>
    cases hr
    exact putsP_of_ccPure (execPmovToPred h d a) (fun _ => rfl) (fun _ => rfl) rfl (ne_zero_eq_decide_toNat _)
  · next h bf k d a b =>
    cases hr
    refine putsP_of_ccPure (execFcmp h bf k d a b) (fun _ => rfl) (fun _ => rfl) rfl ?_
    cases k <;> rfl
  · cases hr

/-! ### PMOV to all predicates (R294) -/

def allPreds : List (BitVec 4) := (List.finRange 16).map BitVec.ofFin

theorem mem_allPreds (p : BitVec 4) : p ∈ allPreds :=
  List.mem_map.mpr ⟨p.toFin, List.mem_finRange _, rfl⟩

theorem setPreds_regsBut (c : CC) (v : BitVec 16) : RegsBut [] allPreds [] c { c with preg := v } :=
  ⟨fun _ _ => rfl, fun p hp => absurd (mem_allPreds p) hp, fun _ _ _ _ => rfl, by simp [CcSame]⟩

theorem setPreds_p (c : CC) (x : W64) (p : BitVec 4) :
    CC.p { c with preg := x.setWidth 16 &&& 0xFFFE } p = (p == 0 || x.getLsbD p.toNat) := by
  have hmask : ∀ p : BitVec 4, (0xFFFE : BitVec 16).getLsbD p.toNat = !(p == 0) := by decide
  rw [CC.p, BitVec.getLsbD_and, BitVec.getLsbD_setWidth, decide_eq_true p.isLt, hmask]
  cases p == 0 <;> simp

/-- Settles O3: a compare or PLOG only writes its truth value into pD, and PMOV.set writes all predicates at once. -/
theorem predicateResults : Obligations.PredicateResults := by
  refine ⟨fun n s i h d v hr ha => (putsP_of_predResult hr).next ha, fun n s h a ha => ?_⟩
  obtain ⟨t, hx, ⟨hcc, hs, -, hsys, hsame⟩, ht⟩ :=
    ccPure_frame ha (show exec (.pmovSet h a) s = ccPure h (fun c => { c with preg := (c.src a).setWidth 16 &&& 0xFFFE }) s from rfl)
      (setPreds_regsBut ..)
  exact ⟨t, hx, hcc, hs, hsys, hsame, fun p => by rw [ht, (retire_regsBut ..).p_eq, setPreds_p]⟩

end Sys2Proof

/-! # Scalar floating point (R208, R209, R295 to R298) -/

namespace Sys2Proof

open Machine

/-! ### Drawing the hash of stochastic rounding (R209) -/

section
variable (c : CC) (m : RMode)

theorem draw_fst : (c.draw m).1 = if m = .sr then srHash ((c.sr 0x0D4).setWidth 32) (c.sr 0x0D5) 0 else 0 := by
  cases m <;> rfl

theorem draw_snd : (c.draw m).2 = if m = .sr then c.setSr 0x0D5 (c.sr 0x0D5 + 1) else c := by
  cases m <;> rfl

theorem draw_ctr : (c.draw m).2.sr 0x0D5 = if m = .sr then c.sr 0x0D5 + 1 else c.sr 0x0D5 := by
  rw [draw_snd]
  split
  · rw [CC.setSr_sr, if_pos rfl]
  · rfl

theorem draw_regsBut : RegsBut [] [] [0x0D5] c (c.draw m).2 := by
  rw [draw_snd]
  split
  · exact ⟨fun _ _ => rfl, fun _ _ => rfl, fun k hk _ _ => by rw [CC.setSr_sr, if_neg (by simpa using hk)], by simp [CcSame]⟩
  · exact regsBut_refl ..

end

/-! ### Instructions that round into sD -/

/-- From c, an instruction draws under the mode m, puts v into sD and does nothing else. -/
def DrawsPutsS (c : CC) (i : Instr) (h : Head) (m : RMode) (d : BitVec 6) (v : W64) : Prop :=
  ∃ g, (∀ s, exec i s = ccPure h g s) ∧ g c = (c.draw m).2.setS d v

section
variable {c : CC} {i : Instr} {h : Head} {m : RMode} {d : BitVec 6} {v : W64}

theorem DrawsPutsS.next {n : Nat} {s : State} (hp : DrawsPutsS (s.ac n).cc i h m d v) (ha : CcActs n h s) :
    ∃ t, exec i s = .next t ∧ CcFrame n [d] [] [0x0D5] s t ∧ (d ≠ 0 → (t.ac n).cc.s d = v)
      ∧ (t.ac n).cc.sr 0x0D5 = if m = .sr then (s.ac n).cc.sr 0x0D5 + 1 else (s.ac n).cc.sr 0x0D5 := by
  obtain ⟨g, hx, hg⟩ := hp
  have hdraw : RegsBut [d] [] [0x0D5] (s.ac n).cc ((s.ac n).cc.draw m).2 :=
    (draw_regsBut ..).mono (List.nil_subset _) (List.Subset.refl _) (List.Subset.refl _)
  have hput : RegsBut [d] [] [0x0D5] ((s.ac n).cc.draw m).2 (g (s.ac n).cc) :=
    hg ▸ (regsBut_setS ..).mono (List.Subset.refl _) (List.Subset.refl _) (List.nil_subset _)
  obtain ⟨t, hx, hf, ht⟩ := ccPure_frame ha (hx s) (hdraw.trans hput)
  refine ⟨t, hx, hf, fun hd => ?_, ?_⟩
  · rw [ht, (retire_regsBut ..).s_eq, hg, CC.setS_s, if_pos rfl, if_neg hd]
  · rw [ht, (retire_regsBut ..).sr_eq (by decide) (by decide), hg, (regsBut_setS ..).sr_eq (by decide) (by decide), draw_ctr]

/-- The arithmetic instructions round the exact result that g gives (R296). -/
theorem drawsPutsS_of_ccFp (e : State → Res) {f : FOp} {g : CC → FVal} {x : FVal} (hx : ∀ s, exec i s = e s)
    (he : ∀ s, e s = ccFp h f d g s) (hv : g c = x) : DrawsPutsS c i h f.mode d (fpReg f (c.draw f.mode).1 x) :=
  ⟨_, fun s => (hx s).trans (he s), hv ▸ rfl⟩

end

/-- The cases are the arms of floatExact, in its order. -/
theorem drawsPutsS_of_floatExact {c : CC} {i : Instr} {h : Head} {f : FOp} {d : BitVec 6} {x : FVal}
    (hr : floatExact c i = some (h, f, d, x)) : DrawsPutsS c i h f.mode d (fpReg f (c.draw f.mode).1 x) := by
  unfold floatExact at hr
  split at hr
  · next h f d a b =>
    cases hr
    exact drawsPutsS_of_ccFp (execFadd h f d a b) (fun _ => rfl) (fun _ => rfl) rfl
  · next h f d a b =>
    cases hr
    exact drawsPutsS_of_ccFp (execFsub h f d a b) (fun _ => rfl) (fun _ => rfl) rfl
  · next h f d a b =>
    cases hr
    exact drawsPutsS_of_ccFp (execFmul h f d a b) (fun _ => rfl) (fun _ => rfl) rfl
  · next h f d a b e =>
    cases hr
    exact drawsPutsS_of_ccFp (execFfma h f d a b e) (fun _ => rfl) (fun _ => rfl) rfl
  · next h f d a b =>
    cases hr
    exact drawsPutsS_of_ccFp (execFdiv h f d a b) (fun _ => rfl) (fun _ => rfl) rfl
  · next h f d a =>
    cases hr
    exact drawsPutsS_of_ccFp (execFsqrt h f d a) (fun _ => rfl) (fun _ => rfl) rfl
  · next h bf mx d a b =>
    cases hr
    exact drawsPutsS_of_ccFp (execFminmax h bf mx d a b) (fun _ => rfl) (fun _ => rfl) (by cases mx <;> rfl)
  · cases hr

theorem drawsPutsS_fcvt (c : CC) (h : Head) (m : RMode) (code : BitVec 3) (d : BitVec 6) (a : Src) :
    DrawsPutsS c (.fcvt h m code d a) h m d (fcvtVal code m (c.draw m).1 c a) :=
  ⟨_, fun s => (show exec (.fcvt h m code d a) s = execFcvt h m code d a s from rfl).trans rfl, rfl⟩

/-- Settles O4: each instruction draws, rounds its exact result or converts, and puts what that gives into sD. -/
theorem floatResults : Obligations.FloatResults := by
  refine ⟨fun n s i h f d x hr ha => ?_, fun n s h m code d a ha => ?_⟩
  · obtain ⟨t, hx, hf, hd, hctr⟩ := (drawsPutsS_of_floatExact hr).next ha
    exact ⟨t, hx, hf, fun hne => by rw [hd hne, draw_fst, fpReg], hctr⟩
  · obtain ⟨t, hx, hf, hd, hctr⟩ := (drawsPutsS_fcvt (s.ac n).cc h m code d a).next ha
    exact ⟨t, hx, hf, hctr, fun hne => (hd hne).trans (congrArg (fcvtVal code m · (s.ac n).cc a) (draw_fst ..))⟩

end Sys2Proof

/-! # Words, fields and sources of an encoding (R261, R262, R265, R267) -/

namespace Sys2Proof

/- Declarations are checked one after another: side by side they would hold a thread each. -/
set_option Elab.async false

/-- Fields whose parts beyond their length are zero, as a shorter form reads them (R262). -/
def Fields.Canon (f : Fields) : Prop :=
  match f.len with
  | .w1 => f.imm8 = 0 ∧ f.c = 0 ∧ f.ka = 0 ∧ f.kb = 0 ∧ f.kc = 0 ∧ f.xctl = 0 ∧ f.lit = 0
  | .w2 => f.lit = 0
  | .w3 => True

theorem Len.ofCode_code (l : Len) : Len.ofCode l.code = some l := by cases l <;> rfl

/-- Every field of the two first words is read back from them. -/
theorem Fields.ofWords_words (f : Fields) (l : Len) (x : W32) : Fields.ofWords l f.w0 f.w1 x = { f with len := l, lit := x } := by
  simp only [Fields.ofWords, Fields.w0, Fields.w1, Fields.mk.injEq, true_and, and_true]
  refine ⟨?_, ?_, ?_, ?_, ?_, ?_, ?_, ?_, ?_, ?_, ?_⟩ <;> (ext i hi; simp; grind)

theorem Fields.w0_len (f : Fields) : f.w0.extractLsb' 0 2 = f.len.code := by
  ext i hi
  simp [Fields.w0]
  grind

theorem Fields.w1_eq_zero {f : Fields} (hi : f.imm8 = 0) (hc : f.c = 0) (ha : f.ka = 0) (hb : f.kb = 0) (hk : f.kc = 0)
    (hx : f.xctl = 0) : f.w1 = 0 := by
  simp [Fields.w1, hi, hc, ha, hb, hk, hx]

/-- The granules of an instruction give its fields back, and leave what stands behind them (R261, R262). -/
theorem Fields.unpack_pack {f : Fields} (hc : f.Canon) (r : List W32) : Fields.unpack (f.pack ++ r) = .ok (f, r) := by
  have hl := f.w0_len
  cases hlen : f.len with
  | w1 =>
    rw [Fields.Canon, hlen] at hc
    obtain ⟨hi, hcc, ha, hb, hk, hx, hlit⟩ := hc
    have hw := f.ofWords_words .w1 0
    rw [Fields.w1_eq_zero hi hcc ha hb hk hx] at hw
    simp only [Fields.pack, hlen, List.cons_append, List.nil_append, Fields.unpack, hl, Len.ofCode_code, hw]
    rw [← hlen, ← hlit]
  | w2 =>
    rw [Fields.Canon, hlen] at hc
    simp only [Fields.pack, hlen, List.cons_append, List.nil_append, Fields.unpack, hl, Len.ofCode_code, f.ofWords_words .w2 0]
    rw [← hlen, ← hc]
  | w3 =>
    simp only [Fields.pack, hlen, List.cons_append, List.nil_append, Fields.unpack, hl, Len.ofCode_code, f.ofWords_words .w3 f.lit]
    rw [← hlen]

theorem Fields.pack_length (f : Fields) : 4 * f.pack.length = f.len.bytes := by
  unfold Fields.pack
  split <;> simp_all [Len.bytes]

/-! ### Sources and their slots -/

/-- A source stands in a slot of an entry (R262, R265, R267). -/
structure Fits (h : Head) (t : Slot) (s : Src) : Prop where
  form : s.formOk h = true
  ok4 : t.bad4 s.field s.tag = false
  ok5 : t.bad5 s.field s.tag = false
  ok6 : t.bad6 s.field s.tag = false
  lit : t.isLit s.tag = (s.tag == 3)
  cb : t.isCb s.tag = (s.tag == 2)

section
variable {h : Head} {s : Src} {u : UnitId}

theorem toNat_le_63 (n : BitVec 6) : n.toNat ≤ 63 := Nat.le_of_lt_succ n.isLt

theorem fits_un : Fits h .un z0 := ⟨rfl, rfl, rfl, rfl, rfl, rfl⟩

theorem fits_ctl (n : BitVec 6) : Fits h .ctl (.r n) := ⟨rfl, rfl, rfl, rfl, rfl, rfl⟩

theorem fits_raw (n : BitVec 6) : Fits h .raw (.r n) := ⟨rfl, rfl, rfl, rfl, rfl, rfl⟩

theorem fits_reg {n : BitVec 6} {m : Nat} (hn : n.toNat ≤ m) : Fits h (.reg m) (.r n) :=
  ⟨rfl, rfl, decide_eq_false (Nat.not_lt.2 hn), rfl, rfl, rfl⟩

/-- What a source slot admits: a register up to the field's limit, and the other kinds that it lists. -/
theorem fits_src {t0 : Option Nat} {t1 t2 t3 : Bool} (hf : s.formOk h = true)
    (hs : match s with
      | .r n => ∃ m, t0 = some m ∧ n.toNat ≤ m
      | .x _ => t1 = true
      | .cb _ => t2 = true
      | .i8 _ | .lit _ => t3 = true) : Fits h (.src t0 t1 t2 t3) s := by
  cases s with
  | r n =>
    obtain ⟨m, rfl, hm⟩ := hs
    exact ⟨hf, rfl, by simp [Slot.bad5, Src.field, Src.tag]; exact decide_eq_false (Nat.not_lt.2 hm), rfl, rfl, rfl⟩
  | x n =>
    subst hs
    have hn : h.len ≠ .w1 ∧ n.toNat ≤ 21 := by simpa [Src.formOk] using hf
    exact ⟨hf, rfl, by simp [Slot.bad5, Src.field, Src.tag]; exact decide_eq_false (Nat.not_lt.2 hn.2), rfl, rfl, rfl⟩
  | cb v => subst hs; exact ⟨hf, rfl, by simp [Slot.bad5, Src.field, Src.tag], rfl, rfl, rfl⟩
  | i8 v => subst hs; exact ⟨hf, rfl, by simp [Slot.bad5, Src.field, Src.tag], rfl, rfl, rfl⟩
  | lit v => subst hs; exact ⟨hf, rfl, by simp [Slot.bad5, Src.field, Src.tag], rfl, rfl, rfl⟩

theorem fits_sl (hs : s.sl h = true) : Fits h .sl s := by
  simp only [Src.sl, Bool.and_eq_true] at hs
  exact fits_src hs.1 (by cases s <;> simp_all [toNat_le_63])

theorem fits_any (hs : s.any h = true) : Fits h .any s :=
  fits_src hs (by cases s <;> simp [toNat_le_63])

theorem fits_sc (hs : s.sc h = true) : Fits h .sc s := by
  simp only [Src.sc, Bool.and_eq_true] at hs
  exact fits_src hs.1 (by cases s <;> simp at hs ⊢)

theorem fits_off (hu : memUnit u = true) (hs : s.off u h = true) : Fits h (.off u) s := by
  simp only [Src.off, Bool.and_eq_true] at hs
  refine fits_src hs.1 ?_
  cases s with
  | r n => revert hu hs; cases u with
    | cc => simp [toNat_le_63]
    | eng e => cases e <;> simp [memUnit, memReg, xOk]
  | _ => simp_all

theorem fits_mem {n : BitVec 6} (hn : memReg u n = true) : Fits h (.mem u) (.r n) := by
  refine fits_reg ?_
  cases u with
  | cc => exact toNat_le_63 n
  | eng e => cases e <;> simp_all [memReg, xOk]

/-- The x operands of row 0x8_ and of the array (R352, R400), by what they add to an x register. -/
theorem fits_x8 {cb lit : Bool} (hs : s.x8 u h = true) : Fits h (.x u cb lit) s := by
  simp only [Src.x8, Bool.and_eq_true] at hs
  obtain ⟨hf, hs⟩ := hs
  unfold Slot.x
  split at hs
  · exact fits_src hf (by simp)
  · cases hs
  · next hu => exact (if_neg hu) ▸ fits_src hf (by simpa [xOk] using hs)
  · cases hs

/-- The further kinds that a slot of row 0x8_ admits. -/
theorem fits_x_wide {cb lit : Bool} (hf : s.formOk h = true) (hs : match s with | .cb _ => cb = true | .i8 _ | .lit _ => lit = true | _ => False) :
    Fits h (.x u cb lit) s := by
  unfold Slot.x
  split <;> exact fits_src hf (by cases s <;> simp_all)

theorem fits_x8l {cb : Bool} (hs : s.x8l u h = true) : Fits h (.x u cb true) s := by
  simp only [Src.x8l, Bool.or_eq_true, Bool.and_eq_true] at hs
  rcases hs with hs | hs
  · exact fits_x8 hs
  · exact fits_x_wide hs.1 (by cases s <;> simp at hs ⊢)

theorem fits_x8cl (hs : s.x8cl u h = true) : Fits h (.x u true true) s := by
  simp only [Src.x8cl, Bool.or_eq_true, Bool.and_eq_true] at hs
  rcases hs with hs | hs
  · exact fits_x8 hs
  · exact fits_x_wide hs.1 (by cases s <;> simp [Src.wide] at hs ⊢)

theorem fits_x8c {lit : Bool} (hs : s.x8c u h = true) : Fits h (.x u true lit) s := by
  simp only [Src.x8c, Bool.or_eq_true, Bool.and_eq_true] at hs
  rcases hs with hs | hs
  · exact fits_x8 hs
  · exact fits_x_wide hs.1 (by cases s <;> simp at hs ⊢)

theorem Fits.wide {t : Slot} (hs : Fits h t s) : (t.isLit s.tag || t.isCb s.tag) = s.wide := by
  rw [hs.lit, hs.cb]; cases s <;> rfl

end

/-! ### IMM8 and LIT (R265) -/

/-- The value of IMM8 that a source brings. -/
def Src.imm8 : Src → Option (BitVec 8)
  | .cb v | .i8 v => some v
  | _ => none

/-- The value of LIT that a source brings. -/
def Src.litVal : Src → Option (BitVec 32)
  | .lit v => some v
  | _ => none

theorem imm8Of_eq (l : List Src) : imm8Of l = l.foldl (fun acc s => s.imm8.getD acc) 0 := by
  unfold imm8Of
  congr 1
  funext acc s
  cases s <;> rfl

theorem litOf_eq (l : List Src) : litOf l = l.foldl (fun acc s => s.litVal.getD acc) 0 := by
  unfold litOf
  congr 1
  funext acc s
  cases s <;> rfl

section
variable {α : Type} {g : Src → Option α} {l : List Src} {s : Src} {v : α}

/-- A value that a list brings comes from one of its sources, or is the one before. -/
theorem foldl_getD_cases (g : Src → Option α) (l : List Src) : ∀ z : α,
    l.foldl (fun acc s => (g s).getD acc) z = z ∨ ∃ s ∈ l, g s = some (l.foldl (fun acc s => (g s).getD acc) z) := by
  induction l with
  | nil => intro z; exact .inl rfl
  | cons s l ih =>
    intro z
    rcases ih ((g s).getD z) with h | ⟨x, hx, h⟩
    · cases hs : g s with
      | none => rw [List.foldl_cons, h, hs]; exact .inl rfl
      | some v =>
        refine .inr ⟨s, List.mem_cons_self, ?_⟩
        rw [List.foldl_cons, h, hs, Option.getD_some]
    · exact .inr ⟨x, List.mem_cons_of_mem _ hx, h⟩

/-- Of at most one wide source, the value is the list's. -/
theorem foldl_getD_of_mem (hg : ∀ s v, g s = some v → s.wide = true) (ho : oneWide l = true) (hs : s ∈ l) (hv : g s = some v) (z : α) :
    l.foldl (fun acc s => (g s).getD acc) z = v := by
  obtain ⟨p, q, rfl⟩ := List.append_of_mem hs
  have hn : ∀ x ∈ p ++ q, g x = none := by
    intro x hx
    by_contra hne
    obtain ⟨w, hw⟩ := Option.ne_none_iff_exists'.1 hne
    have hpos : 0 < ((p ++ q).filter Src.wide).length := List.length_pos_of_mem (List.mem_filter.2 ⟨hx, hg x w hw⟩)
    simp only [oneWide, List.filter_append, List.filter_cons, hg s v hv, if_true, List.length_append, List.length_cons, decide_eq_true_eq] at ho hpos
    omega
  rw [List.foldl_append, List.foldl_cons, hv, Option.getD_some]
  exact Machine.foldl_keep _ _ _ fun x hx => by rw [hn x (List.mem_append_right _ hx)]; rfl

end

/-! ### The checks of an entry -/

/-- An entry with DST and sources a, b, c, and IMM8 and LIT as they stand. -/
def entryFields (op : Nat) (h : Head) (fn : BitVec 4) (d : BitVec 6) (a b c : Src) (im : BitVec 8) (lt : BitVec 32) : Fields :=
  { enc3 op h fn d a b c with imm8 := im, lit := lt }

theorem enc3_eq (op : Nat) (h : Head) (fn : BitVec 4) (d : BitVec 6) (a b c : Src) :
    enc3 op h fn d a b c = entryFields op h fn d a b c (imm8Of [a, b, c]) (litOf [a, b, c]) := rfl

section
variable (op : Nat) (h : Head) (fn : BitVec 4) (d : BitVec 6) (a b c : Src) (im : BitVec 8) (lt : BitVec 32)

@[simp] theorem entryFields_op : (entryFields op h fn d a b c im lt).op = BitVec.ofNat 8 op := rfl
@[simp] theorem entryFields_len : (entryFields op h fn d a b c im lt).len = h.len := rfl
@[simp] theorem entryFields_fn : (entryFields op h fn d a b c im lt).fn = fn := rfl
@[simp] theorem entryFields_dst : (entryFields op h fn d a b c im lt).dst = d := rfl
@[simp] theorem entryFields_a : (entryFields op h fn d a b c im lt).a = a.field := rfl
@[simp] theorem entryFields_ka : (entryFields op h fn d a b c im lt).ka = a.tag := rfl
@[simp] theorem entryFields_b : (entryFields op h fn d a b c im lt).b = b.field := rfl
@[simp] theorem entryFields_kb : (entryFields op h fn d a b c im lt).kb = b.tag := rfl
@[simp] theorem entryFields_c : (entryFields op h fn d a b c im lt).c = c.field := rfl
@[simp] theorem entryFields_kc : (entryFields op h fn d a b c im lt).kc = c.tag := rfl
@[simp] theorem entryFields_imm8 : (entryFields op h fn d a b c im lt).imm8 = im := rfl
@[simp] theorem entryFields_lit : (entryFields op h fn d a b c im lt).lit = lt := rfl
@[simp] theorem entryFields_xctl : (entryFields op h fn d a b c im lt).xctl = h.ctl.bits := rfl

end

/-- The control of a head that fits the unit is read back, and passes the checks of XCTL (Table 9-3, R262, R270, R271). -/
structure CtlFits (u : UnitId) (op : Nat) (h : Head) : Prop where
  back : ctlOf u h.ctl.bits = h.ctl
  res : xctlReserved u h.ctl.bits = false
  ok5 : xctlBad5 u (BitVec.ofNat 8 op) h.ctl.bits = false
  short : h.len = .w1 → h.ctl.bits = 0

/-- IMM8 and LIT as the sources bring them, or as an entry that has a use for them fills them (R262, R265). -/
structure ImmFits (h : Head) (sh : Shape) (a b c : Src) (im : BitVec 8) (lt : BitVec 32) : Prop where
  imm : im = imm8Of [a, b, c] ∨ sh.imm = true ∧ (h.len = .w1 → im = 0) ∧ [a, b, c].filter Src.wide = []
  lit : lt = litOf [a, b, c] ∨ sh.lit = true ∧ (h.len ≠ .w3 → lt = 0) ∧ [a, b, c].filter Src.wide = []

section
variable {h : Head} {u : UnitId} {op : Nat} {fn : BitVec 4} {d : BitVec 6} {a b c : Src} {im : BitVec 8} {lt : BitVec 32} {sh : Shape}

theorem imm8_wide {s : Src} {v : BitVec 8} (hs : s.imm8 = some v) : s.wide = true := by cases s <;> simp_all [Src.imm8, Src.wide]

theorem litVal_wide {s : Src} {v : BitVec 32} (hs : s.litVal = some v) : s.wide = true := by cases s <;> simp_all [Src.litVal, Src.wide]

theorem tag_of_imm8 {s : Src} {v : BitVec 8} (hs : s.imm8 = some v) (hf : s.formOk h = true) : s.tag = 2 ∨ s.tag = 3 ∧ h.len = .w2 := by
  cases s <;> simp_all [Src.imm8, Src.tag, Src.formOk]

theorem tag_of_litVal {s : Src} {v : BitVec 32} (hs : s.litVal = some v) (hf : s.formOk h = true) : s.tag = 3 ∧ h.len = .w3 := by
  cases s <;> simp_all [Src.litVal, Src.tag, Src.formOk]

/-- A source is read back from its field, its tag, IMM8 and LIT. -/
theorem src_field (ho : oneWide [a, b, c] = true) (hi : ImmFits h sh a b c im lt) {s : Src} (hs : s ∈ [a, b, c]) (hf : s.formOk h = true) :
    (entryFields op h fn d a b c im lt).src s.field s.tag = s := by
  have hnone : [a, b, c].filter Src.wide = [] → s.wide = false := fun he => by
    simpa using List.filter_eq_nil_iff.1 he s hs
  have himm : ∀ v, s.imm8 = some v → im = v := by
    intro v hv
    rcases hi.imm with rfl | ⟨-, -, he⟩
    · rw [imm8Of_eq]; exact foldl_getD_of_mem (fun _ _ => imm8_wide) ho hs hv 0
    · exact absurd (imm8_wide hv) (by simp [hnone he])
  have hlit : ∀ v, s.litVal = some v → lt = v := by
    intro v hv
    rcases hi.lit with rfl | ⟨-, -, he⟩
    · rw [litOf_eq]; exact foldl_getD_of_mem (fun _ _ => litVal_wide) ho hs hv 0
    · exact absurd (litVal_wide hv) (by simp [hnone he])
  cases s with
  | r n => rfl
  | x n => rfl
  | cb v => exact congrArg Src.cb (himm v rfl)
  | i8 v =>
    have hl : h.len = .w2 := by simpa [Src.formOk] using hf
    rw [← himm v rfl]
    simp [Fields.src, Src.tag, entryFields, enc3, base, hl]
  | lit v =>
    have hl : h.len = .w3 := by simpa [Src.formOk] using hf
    rw [← hlit v rfl]
    simp [Fields.src, Src.tag, entryFields, enc3, base, hl]

/-- What the checks of Table 9-10 ask of an entry besides its control. -/
structure EntryFits (u : UnitId) (op : Nat) (h : Head) (fn : BitVec 4) (d : BitVec 6) (a b c : Src) (im : BitVec 8) (lt : BitVec 32) (sh : Shape) : Prop where
  shape : shape u (BitVec.ofNat 8 op) fn.toNat im.toNat = sh
  dst : match sh.dst with | some m => d.toNat ≤ m | none => d = 0
  fa : Fits h sh.a a
  fb : Fits h sh.b b
  fc : Fits h sh.c c
  one : oneWide [a, b, c] = true
  imm : ImmFits h sh a b c im lt
  fns : sh.fns.contains fn.toNat = true
  ok4 : entryBad4 (entryFields op h fn d a b c im lt) = false
  ok7 : entryBad7 (entryFields op h fn d a b c im lt) = false
  ok8 : entryBad8 (entryFields op h fn d a b c im lt) = false
  short : h.len = .w1 → c.field = 0

theorem EntryFits.formOk (he : EntryFits u op h fn d a b c im lt sh) {s : Src} (hs : s ∈ [a, b, c]) : s.formOk h = true := by
  simp only [List.mem_cons, List.not_mem_nil, or_false] at hs
  rcases hs with rfl | rfl | rfl
  · exact he.fa.form
  · exact he.fb.form
  · exact he.fc.form

/-- LIT holds something only where the entry uses it, or a literal of the 96-bit form (code 4). -/
theorem EntryFits.lit_used (he : EntryFits u op h fn d a b c im lt sh) (hne : lt ≠ 0) :
    sh.lit = true ∨ (∃ s ∈ [a, b, c], s.tag = 3) ∧ h.len = .w3 := by
  rcases he.imm.lit with rfl | ⟨hl, -, -⟩
  · rw [litOf_eq] at hne
    rcases foldl_getD_cases Src.litVal [a, b, c] 0 with h0 | ⟨s, hs, hv⟩
    · exact absurd h0 hne
    · obtain ⟨ht, hlen⟩ := tag_of_litVal hv (he.formOk hs)
      exact .inr ⟨⟨s, hs, ht⟩, hlen⟩
  · exact .inl hl

/-- IMM8 holds something only where the entry uses it, a constant-bank entry, or a literal of the 64-bit form (code 4). -/
theorem EntryFits.imm_used (he : EntryFits u op h fn d a b c im lt sh) (hne : im ≠ 0) :
    sh.imm = true ∨ (∃ s ∈ [a, b, c], s.tag = 2) ∨ (∃ s ∈ [a, b, c], s.tag = 3) ∧ h.len ≠ .w3 := by
  rcases he.imm.imm with rfl | ⟨hl, -, -⟩
  · rw [imm8Of_eq] at hne
    rcases foldl_getD_cases Src.imm8 [a, b, c] 0 with h0 | ⟨s, hs, hv⟩
    · exact absurd h0 hne
    · rcases tag_of_imm8 hv (he.formOk hs) with ht | ⟨ht, hlen⟩
      · exact .inr (.inl ⟨s, hs, ht⟩)
      · exact .inr (.inr ⟨⟨s, hs, ht⟩, by simp [hlen]⟩)
  · exact .inl hl

/-- Fields that fit their entry pass every check of Table 9-10 (R273). -/
theorem EntryFits.checkFields (he : EntryFits u op h fn d a b c im lt sh) (hu : (opUnits (BitVec.ofNat 8 op)).any (·.contains u) = true)
    (hx : CtlFits u op h) : checkFields u (entryFields op h fn d a b c im lt) = none := by
  obtain ⟨us, hus, hmem⟩ := (Option.any_eq_true ..).1 hu
  have hlit : (lt != 0 && !(sh.lit || (sh.a.isLit a.tag || sh.b.isLit b.tag || sh.c.isLit c.tag) && h.len == .w3)) = false := by
    have := he.lit_used
    simp only [he.fa.lit, he.fb.lit, he.fc.lit]
    simp at this ⊢
    grind
  have himm : (im != 0 && !(sh.imm || (sh.a.isCb a.tag || sh.b.isCb b.tag || sh.c.isCb c.tag)
      || (sh.a.isLit a.tag || sh.b.isLit b.tag || sh.c.isLit c.tag) && h.len != .w3)) = false := by
    have := he.imm_used
    simp only [he.fa.lit, he.fb.lit, he.fc.lit, he.fa.cb, he.fb.cb, he.fc.cb]
    simp at this ⊢
    grind
  have hone : ¬1 < ([sh.a.isLit a.tag || sh.a.isCb a.tag, sh.b.isLit b.tag || sh.b.isCb b.tag,
      sh.c.isLit c.tag || sh.c.isCb c.tag].filter id).length := by
    have hmap : [a.wide, b.wide, c.wide].filter id = ([a, b, c].filter Src.wide).map Src.wide :=
      List.filter_map (f := Src.wide) (p := id) (l := [a, b, c])
    rw [he.fa.wide, he.fb.wide, he.fc.wide, hmap, List.length_map]
    exact Nat.not_lt.2 (of_decide_eq_true he.one)
  have hdst4 : (sh.dst.isNone && d != 0) = false := by
    have := he.dst
    cases hd : sh.dst <;> simp_all
  have hfns := he.fns
  have h4 := he.ok4
  have h7 := he.ok7
  have h8 := he.ok8
  unfold Sys2Proof.checkFields
  simp only [entryFields_op, entryFields_fn, entryFields_imm8, entryFields_lit, entryFields_len, entryFields_dst, entryFields_xctl,
    entryFields_a, entryFields_ka, entryFields_b, entryFields_kb, entryFields_c, entryFields_kc, hus, he.shape, hmem, hx.res, hx.ok5, hlit,
    himm, hdst4, he.fa.ok4, he.fb.ok4, he.fc.ok4, he.fa.ok5, he.fb.ok5, he.fc.ok5, he.fa.ok6, he.fb.ok6, he.fc.ok6, hone, hfns, h4, h7,
    h8, decide_false, Bool.or_self, Bool.not_true, Bool.false_eq_true, if_false]
  have hdst := he.dst
  cases hd : sh.dst with
  | none => rfl
  | some m =>
    rw [hd] at hdst
    simp only [Bool.or_false]
    exact if_neg fun h => Nat.not_lt.2 hdst (of_decide_eq_true h)

/-- Fields that fit their entry say nothing beyond their length (R262). -/
theorem EntryFits.canon (he : EntryFits u op h fn d a b c im lt sh) (hx : CtlFits u op h) : (entryFields op h fn d a b c im lt).Canon := by
  have hno : h.len ≠ .w3 → lt = 0 := by
    intro hl
    rcases he.imm.lit with rfl | ⟨-, h0, -⟩
    · by_contra hne
      rw [litOf_eq] at hne
      rcases foldl_getD_cases Src.litVal [a, b, c] 0 with h0 | ⟨s, hs, hv⟩
      · exact hne h0
      · exact hl (tag_of_litVal hv (he.formOk hs)).2
    · exact h0 hl
  unfold Fields.Canon
  rw [entryFields_len]
  cases hl : h.len with
  | w1 =>
    have htag : ∀ s ∈ [a, b, c], s.tag = 0 := fun s hs => by
      have := he.formOk hs
      cases s <;> simp_all [Src.formOk, Src.tag]
    have him : im = 0 := by
      rcases he.imm.imm with rfl | ⟨-, h0, -⟩
      · by_contra hne
        rw [imm8Of_eq] at hne
        rcases foldl_getD_cases Src.imm8 [a, b, c] 0 with h0 | ⟨s, hs, hv⟩
        · exact hne h0
        · have h0 := htag s hs
          rcases tag_of_imm8 hv (he.formOk hs) with ht | ⟨ht, -⟩ <;> simp [h0] at ht
      · exact h0 hl
    exact ⟨him, he.short hl, htag a (by simp), htag b (by simp), htag c (by simp), hx.short hl, hno (by simp [hl])⟩
  | w2 => exact hno (by simp [hl])
  | w3 => trivial

/-- What the statement says of one instruction on one unit. -/
def DecodesBack (u : UnitId) (i : Instr) : Prop :=
  ∀ r : List W32, ∃ l : Len, decode u (encode i ++ r) = .ok (i, l, r) ∧ 4 * (encode i).length = l.bytes

/-- An instruction whose fields fit their entry decodes back from its granules. -/
theorem EntryFits.decodesBack {i : Instr} (he : EntryFits u op h fn d a b c im lt sh) (hf : toFields i = some (entryFields op h fn d a b c im lt))
    (hu : (opUnits (BitVec.ofNat 8 op)).any (·.contains u) = true) (hx : CtlFits u op h)
    (hb : build u (entryFields op h fn d a b c im lt) = some i) : DecodesBack u i := by
  have henc : encode i = (entryFields op h fn d a b c im lt).pack := by rw [encode, hf]; rfl
  refine fun r => ⟨h.len, ?_, by rw [henc, Fields.pack_length]; rfl⟩
  rw [henc, decode, Fields.unpack_pack (he.canon hx)]
  simp only [decodeFields, he.checkFields hu hx, hb]
  rfl

end
end Sys2Proof

/-! # Controls and codes read back (R263, R269, R270, R271) -/

namespace Sys2Proof

/-! ### Controls -/

theorem bits_cc : ∀ (n : Bool) (p : BitVec 4), ctlOf .cc (Ctl.cc n p).bits = .cc n p ∧ (Ctl.cc n p).bits.extractLsb' 7 5 = 0
    ∧ (Ctl.cc n p).bits.getLsbD 5 = false ∧ (Ctl.cc n p).bits.getLsbD 4 = false := by decide

theorem bits_slot : ∀ (n : Bool) (g : BitVec 5), ctlOf .cc (Ctl.slot n g).bits = .slot n g
    ∧ (Ctl.slot n g).bits.extractLsb' 7 5 = 0 ∧ (Ctl.slot n g).bits.getLsbD 5 = true := by decide

theorem bits_en : ∀ gi ta : BitVec 3, (Ctl.en gi ta).bits.extractLsb' 3 3 = gi ∧ (Ctl.en gi ta).bits.extractLsb' 0 3 = ta
    ∧ (Ctl.en gi ta).bits.extractLsb' 6 6 = 0 := by decide

theorem bits_va (fz : Bool) (g : BitVec 4) (sq : Bool) (gi ta : BitVec 3) :
    (Ctl.va fz g sq gi ta).bits.getLsbD 11 = fz ∧ (Ctl.va fz g sq gi ta).bits.extractLsb' 7 4 = g
      ∧ (Ctl.va fz g sq gi ta).bits.getLsbD 6 = sq ∧ (Ctl.va fz g sq gi ta).bits.extractLsb' 3 3 = gi
      ∧ (Ctl.va fz g sq gi ta).bits.extractLsb' 0 3 = ta := by
  refine ⟨?_, ?_, ?_, ?_, ?_⟩
  · rw [Ctl.bits, BitVec.getLsbD_append, BitVec.getLsbD_append, BitVec.getLsbD_append, BitVec.getLsbD_append]
    cases fz <;> rfl
  · ext i hi; simp [Ctl.bits]; grind
  · rw [Ctl.bits, BitVec.getLsbD_append, BitVec.getLsbD_append, BitVec.getLsbD_append]
    cases sq <;> rfl
  · ext i hi; simp [Ctl.bits]; grind
  · ext i hi; simp [Ctl.bits]; grind

section
variable {u : UnitId} {h : Head} {op : Nat}

theorem ctlFits_cc {n : Bool} {p : BitVec 4} {l : Len} (hs : l = .w1 → n = false ∧ p = 0) : CtlFits .cc op ⟨l, .cc n p⟩ := by
  obtain ⟨hb, h7, h5, h4⟩ := bits_cc n p
  refine ⟨hb, by simp [xctlReserved, h7], by simp [xctlBad5, -BitVec.getLsbD_eq_getElem, h5, h4], fun hl => ?_⟩
  obtain ⟨rfl, rfl⟩ := hs hl
  rfl

theorem ctlFits_slot {n : Bool} {g : BitVec 5} {l : Len} (hl : l ≠ .w1) (ho : op = 0x3A ∨ op = 0x3B) : CtlFits .cc op ⟨l, .slot n g⟩ := by
  obtain ⟨hb, h7, h5⟩ := bits_slot n g
  refine ⟨hb, by simp [xctlReserved, h7], ?_, fun h => absurd h hl⟩
  rcases ho with rfl | rfl <;> simp [xctlBad5, -BitVec.getLsbD_eq_getElem, h5]

theorem ctlFits_en {e : Eid} {gi ta : BitVec 3} {l : Len} (he : e ≠ .va) (hgi : tokOk e gi = true) (hta : tokOk e ta = true)
    (hs : l = .w1 → gi = 0 ∧ ta = 0) : CtlFits (.eng e) op ⟨l, .en gi ta⟩ := by
  obtain ⟨h3, h0, h6⟩ := bits_en gi ta
  refine ⟨?_, ?_, by simp [xctlBad5, h3, h0, hgi, hta], fun hl => ?_⟩
  · cases e <;> simp [ctlOf, h3, h0] at he ⊢
  · cases e <;> simp [xctlReserved, h6] at he ⊢
  · obtain ⟨rfl, rfl⟩ := hs hl
    rfl

theorem ctlFits_va {fz : Bool} {g : BitVec 4} {sq : Bool} {gi ta : BitVec 3} {l : Len} (hgi : tokOk .va gi = true) (hta : tokOk .va ta = true)
    (hs : l = .w1 → fz = false ∧ g = 0 ∧ sq = false ∧ gi = 0 ∧ ta = 0) : CtlFits (.eng .va) op ⟨l, .va fz g sq gi ta⟩ := by
  obtain ⟨h11, h7, h6, h3, h0⟩ := bits_va fz g sq gi ta
  refine ⟨?_, rfl, by simp [xctlBad5, h3, h0, hgi, hta], fun hl => ?_⟩
  · simp [ctlOf, -BitVec.getLsbD_eq_getElem, h11, h7, h6, h3, h0]
  · obtain ⟨rfl, rfl, rfl, rfl, rfl⟩ := hs hl
    rfl

/-- The control of a head that fits its unit (Table 9-3, R262). -/
theorem ctlFits_of_headOk (hh : headOk u h = true) : CtlFits u op h := by
  unfold headOk at hh
  split at hh
  · exact ctlFits_cc fun hl => by simpa [hl] using hh
  · simp only [Bool.and_eq_true] at hh
    exact ctlFits_va hh.1.1 hh.1.2 fun hl => by simpa [hl, and_assoc] using hh.2
  · simp only [Bool.and_eq_true] at hh
    exact ctlFits_en (by simpa using hh.1.1.1) hh.1.1.2 hh.1.2 fun hl => by simpa [hl] using hh.2
  · cases hh

theorem ctlFits_of_pushHeadOk (hh : pushHeadOk .cc h = true) (ho : op = 0x3A ∨ op = 0x3B) : CtlFits .cc op h := by
  unfold pushHeadOk at hh
  split at hh
  · exact ctlFits_slot (by simpa using hh) ho
  · exact ctlFits_of_headOk hh

end

/-! ### Codes of operands read back -/

section
variable {n : Nat}

@[simp] theorem fnW_bit (w : Bool) : (fnW w)[0] = w := by cases w <;> rfl
@[simp] theorem Cond.ofCode_fnOf (c : Cond) : Cond.ofCode (fnOf c.code).toNat = c := by cases c <;> rfl
@[simp] theorem PFn.ofCode_fnOf (c : PFn) : PFn.ofCode (fnOf c.code).toNat = c := by cases c <;> rfl
@[simp] theorem FOp.ofFn_fn (f : FOp) : FOp.ofFn f.fn = f := by obtain ⟨b, m⟩ := f; cases b <;> cases m <;> rfl
end
end Sys2Proof

/-! # Entries that decode back (R261 to R273) -/

namespace Sys2Proof

/-! ### Operands read back -/

@[simp] theorem Scope.ofCode_fnOf (c : Scope) : Scope.ofCode (fnOf c.code).toNat = c := by cases c <;> rfl
@[simp] theorem field_r (n : BitVec 6) : (Src.r n).field = n := rfl
@[simp] theorem wide_r (n : BitVec 6) : (Src.r n).wide = false := rfl
@[simp] theorem field_z0 : z0.field = 0 := rfl

theorem r6_le {w : Nat} (n : BitVec w) : (r6 n).toNat ≤ 2 ^ w - 1 := by
  have h1 := n.isLt
  have h2 : (r6 n).toNat ≤ n.toNat := (BitVec.toNat_setWidth ..).trans_le (Nat.mod_le _ _)
  omega

theorem extract_setWidth {w m : Nat} (n : BitVec w) (h : w ≤ m) : (n.setWidth m).extractLsb' 0 w = n := by
  ext i hi
  simp [Nat.lt_of_lt_of_le hi h, BitVec.getLsbD_eq_getElem hi]

@[simp] theorem extract_r6_3 (n : BitVec 3) : (r6 n).extractLsb' 0 3 = n := extract_setWidth n (by decide)
@[simp] theorem extract_r6_4 (n : BitVec 4) : (r6 n).extractLsb' 0 4 = n := extract_setWidth n (by decide)
@[simp] theorem extract_r6_5 (n : BitVec 5) : (r6 n).extractLsb' 0 5 = n := extract_setWidth n (by decide)
@[simp] theorem extract_fn_3 (n : BitVec 3) : (n.setWidth 4).extractLsb' 0 3 = n := extract_setWidth n (by decide)
@[simp] theorem extract_fn_2 (n : BitVec 2) : (n.setWidth 4).extractLsb' 0 2 = n := extract_setWidth n (by decide)

/-- A number in two register fields (R302, R315, R354). -/
@[simp] theorem append_extract_12 (n : BitVec 12) : n.extractLsb' 6 6 ++ n.extractLsb' 0 6 = n := by
  revert n; decide

theorem contains_range {n k : Nat} (h : n < k) : (List.range k).contains n = true := by simpa using h

theorem contains_fnModes (f : FOp) : fnModes.contains f.fn.toNat = true := by
  obtain ⟨b, m⟩ := f; cases b <;> cases m <;> rfl

theorem toNat_setWidth_lt {w : Nat} (n : BitVec w) (h : 2 ^ w ≤ k) : (n.setWidth 4).toNat < k := by
  have h1 := n.isLt
  have h2 : (n.setWidth 4).toNat ≤ n.toNat := (BitVec.toNat_setWidth ..).trans_le (Nat.mod_le _ _)
  omega

section
variable {u : UnitId} {i : Instr} {op : Nat} {h : Head} {fn : BitVec 4} {d : BitVec 6} {a b c : Src} {im : BitVec 8} {lt : BitVec 32}

theorem oneWide_ab (a b : Src) (x : BitVec 6) : oneWide [a, b, .r x] = oneWide [a, b] := by
  simp [oneWide, List.filter_cons]

theorem oneWide_a (a : Src) (x y : BitVec 6) : oneWide [a, .r x, .r y] = true := by cases a <;> rfl
theorem oneWide_b (b : Src) (x y : BitVec 6) : oneWide [.r x, b, .r y] = true := by cases b <;> rfl
theorem oneWide_c (c : Src) (x y : BitVec 6) : oneWide [.r x, .r y, c] = true := by cases c <;> rfl

/-- What the decoder builds from fields that pass the checks: an instruction that is `i` once the control and the sources are read
back. -/
structure BuildsBack (u : UnitId) (i : Instr) (h : Head) (a b c : Src) (f : Fields) : Prop where
  ok4 : entryBad4 f = false
  ok7 : entryBad7 f = false
  ok8 : entryBad8 f = false
  unit : (opUnits f.op).any (·.contains u) = true
  back : ∃ j, build u f = some j ∧ (ctlOf u h.ctl.bits = h.ctl → f.src a.field a.tag = a → f.src b.field b.tag = b →
      f.src c.field c.tag = c → j = i)

/-- An entry decodes back when its sources fit its slots, and its IMM8 and LIT their use. -/
theorem decodesBack_entry (hx : CtlFits u op h) (hf : toFields i = some (entryFields op h fn d a b c im lt))
    (hb : BuildsBack u i h a b c (entryFields op h fn d a b c im lt))
    (fa : Fits h (shape u (BitVec.ofNat 8 op) fn.toNat im.toNat).a a)
    (fb : Fits h (shape u (BitVec.ofNat 8 op) fn.toNat im.toNat).b b)
    (fc : Fits h (shape u (BitVec.ofNat 8 op) fn.toNat im.toNat).c c) (ho : oneWide [a, b, c] = true)
    (hm : ImmFits h (shape u (BitVec.ofNat 8 op) fn.toNat im.toNat) a b c im lt)
    (hfn : (shape u (BitVec.ofNat 8 op) fn.toNat im.toNat).fns.contains fn.toNat = true)
    (hd : match (shape u (BitVec.ofNat 8 op) fn.toNat im.toNat).dst with | some m => d.toNat ≤ m | none => d = 0)
    (hs : h.len = .w1 → c.field = 0) : DecodesBack u i := by
  have he : EntryFits u op h fn d a b c im lt _ := ⟨rfl, hd, fa, fb, fc, ho, hm, hfn, hb.ok4, hb.ok7, hb.ok8, hs⟩
  obtain ⟨j, hj, hi⟩ := hb.back
  refine he.decodesBack hf hb.unit hx (hj.trans (congrArg some (hi hx.back ?_ ?_ ?_)))
  · exact src_field ho hm (by simp) fa.form
  · exact src_field ho hm (by simp) fb.form
  · exact src_field ho hm (by simp) fc.form

/-- An entry whose sources bring IMM8 and LIT decodes back when they fit its slots. -/
theorem decodesBack_enc3 (hx : CtlFits u op h) (hf : toFields i = some (enc3 op h fn d a b c)) (hb : BuildsBack u i h a b c (enc3 op h fn d a b c))
    (fa : Fits h (shape u (BitVec.ofNat 8 op) fn.toNat (imm8Of [a, b, c]).toNat).a a)
    (fb : Fits h (shape u (BitVec.ofNat 8 op) fn.toNat (imm8Of [a, b, c]).toNat).b b)
    (fc : Fits h (shape u (BitVec.ofNat 8 op) fn.toNat (imm8Of [a, b, c]).toNat).c c) (ho : oneWide [a, b, c] = true)
    (hfn : (shape u (BitVec.ofNat 8 op) fn.toNat (imm8Of [a, b, c]).toNat).fns.contains fn.toNat = true)
    (hd : match (shape u (BitVec.ofNat 8 op) fn.toNat (imm8Of [a, b, c]).toNat).dst with | some m => d.toNat ≤ m | none => d = 0)
    (hs : h.len = .w1 → c.field = 0) : DecodesBack u i :=
  decodesBack_entry hx hf hb fa fb fc ho ⟨.inl rfl, .inl rfl⟩ hfn hd hs

/-- Registers and numbers alone. -/
theorem decodesBack_regs {x y z : BitVec 6} (hh : headOk u h = true)
    (hf : toFields i = some (enc3 op h fn d (.r x) (.r y) (.r z))) (hb : BuildsBack u i h (.r x) (.r y) (.r z) (enc3 op h fn d (.r x) (.r y) (.r z)))
    (fa : Fits h (shape u (BitVec.ofNat 8 op) fn.toNat 0).a (.r x)) (fb : Fits h (shape u (BitVec.ofNat 8 op) fn.toNat 0).b (.r y))
    (fc : Fits h (shape u (BitVec.ofNat 8 op) fn.toNat 0).c (.r z))
    (hfn : (shape u (BitVec.ofNat 8 op) fn.toNat 0).fns.contains fn.toNat = true)
    (hd : match (shape u (BitVec.ofNat 8 op) fn.toNat 0).dst with | some m => d.toNat ≤ m | none => d = 0)
    (hs : h.len = .w1 → z = 0) : DecodesBack u i :=
  decodesBack_enc3 (ctlFits_of_headOk hh) hf hb fa fb fc rfl hfn hd hs

/-- An entry that uses no field but FN and the control. -/
theorem decodesBack_base (hh : headOk u h = true) (hf : toFields i = some { base op h with fn := fn })
    (hb : BuildsBack u i h z0 z0 z0 (enc3 op h fn 0 z0 z0 z0))
    (hsh : (shape u (BitVec.ofNat 8 op) fn.toNat 0).a = .un ∧ (shape u (BitVec.ofNat 8 op) fn.toNat 0).b = .un
      ∧ (shape u (BitVec.ofNat 8 op) fn.toNat 0).c = .un ∧ (shape u (BitVec.ofNat 8 op) fn.toNat 0).dst = none)
    (hfn : (shape u (BitVec.ofNat 8 op) fn.toNat 0).fns.contains fn.toNat = true) : DecodesBack u i := by
  obtain ⟨sa, sb, sc, sd⟩ := hsh
  exact decodesBack_enc3 (d := 0) (a := z0) (b := z0) (c := z0) (ctlFits_of_headOk hh) hf hb (sa ▸ fits_un) (sb ▸ fits_un) (sc ▸ fits_un) rfl hfn (sd ▸ rfl) (fun _ => rfl)

theorem onCC_iff : onCC u h = true ↔ u = .cc ∧ headOk .cc h = true := by
  simp only [onCC, Bool.and_eq_true, beq_iff_eq]
  constructor
  · rintro ⟨h, rfl⟩; exact ⟨rfl, h⟩
  · rintro ⟨rfl, h⟩; exact ⟨h, rfl⟩

theorem fit_iff {z : Bool} : fit h z = true ↔ (h.len = .w1 → z = true) := by
  unfold fit
  cases h.len <;> simp

/-- Two sources that are s registers or literals (R288). -/
theorem decodesBack_sl2 (hw : (onCC u h && a.sl h && b.sl h && oneWide [a, b]) = true)
    (hf : toFields i = some (enc3 op h fn d a b z0)) (hb : BuildsBack .cc i h a b z0 (enc3 op h fn d a b z0))
    (hfn : (shape .cc (BitVec.ofNat 8 op) fn.toNat (imm8Of [a, b, z0]).toNat).fns.contains fn.toNat = true)
    (hd : match (shape .cc (BitVec.ofNat 8 op) fn.toNat (imm8Of [a, b, z0]).toNat).dst with | some m => d.toNat ≤ m | none => d = 0)
    (hsh : (shape .cc (BitVec.ofNat 8 op) fn.toNat (imm8Of [a, b, z0]).toNat).a = .sl
      ∧ (shape .cc (BitVec.ofNat 8 op) fn.toNat (imm8Of [a, b, z0]).toNat).b = .sl
      ∧ (shape .cc (BitVec.ofNat 8 op) fn.toNat (imm8Of [a, b, z0]).toNat).c = .un) : DecodesBack u i := by
  simp only [Bool.and_eq_true, onCC_iff] at hw
  obtain ⟨⟨⟨⟨rfl, hh⟩, ha⟩, hb'⟩, ho⟩ := hw
  obtain ⟨sa, sb, sc⟩ := hsh
  exact decodesBack_enc3 (ctlFits_of_headOk hh) hf hb (sa ▸ fits_sl ha) (sb ▸ fits_sl hb') (sc ▸ fits_un) ((oneWide_ab a b 0).trans ho) hfn hd (fun _ => rfl)

/-- One source that is an s register or a literal, in field a. -/
theorem decodesBack_sl1 {x : BitVec 6} (hw : (onCC u h && a.sl h) = true)
    (hf : toFields i = some (enc3 op h fn d a (.r x) z0)) (hb : BuildsBack .cc i h a (.r x) z0 (enc3 op h fn d a (.r x) z0))
    (hfn : (shape .cc (BitVec.ofNat 8 op) fn.toNat (imm8Of [a, .r x, z0]).toNat).fns.contains fn.toNat = true)
    (hd : match (shape .cc (BitVec.ofNat 8 op) fn.toNat (imm8Of [a, .r x, z0]).toNat).dst with | some m => d.toNat ≤ m | none => d = 0)
    (fb : Fits h (shape .cc (BitVec.ofNat 8 op) fn.toNat (imm8Of [a, .r x, z0]).toNat).b (.r x))
    (hsh : (shape .cc (BitVec.ofNat 8 op) fn.toNat (imm8Of [a, .r x, z0]).toNat).a = .sl
      ∧ (shape .cc (BitVec.ofNat 8 op) fn.toNat (imm8Of [a, .r x, z0]).toNat).c = .un) : DecodesBack u i := by
  simp only [Bool.and_eq_true, onCC_iff] at hw
  obtain ⟨⟨rfl, hh⟩, ha⟩ := hw
  obtain ⟨sa, sc⟩ := hsh
  exact decodesBack_enc3 (ctlFits_of_headOk hh) hf hb (sa ▸ fits_sl ha) fb (sc ▸ fits_un) (oneWide_a a x 0) hfn hd (fun _ => rfl)

/-- A register or number in field a, and a source that is an s register or a literal in field b. -/
theorem decodesBack_slb {x : BitVec 6} (hw : (onCC u h && b.sl h) = true)
    (hf : toFields i = some (enc3 op h fn d (.r x) b z0)) (hb : BuildsBack .cc i h (.r x) b z0 (enc3 op h fn d (.r x) b z0))
    (fa : Fits h (shape .cc (BitVec.ofNat 8 op) fn.toNat (imm8Of [.r x, b, z0]).toNat).a (.r x))
    (hfn : (shape .cc (BitVec.ofNat 8 op) fn.toNat (imm8Of [.r x, b, z0]).toNat).fns.contains fn.toNat = true)
    (hd : match (shape .cc (BitVec.ofNat 8 op) fn.toNat (imm8Of [.r x, b, z0]).toNat).dst with | some m => d.toNat ≤ m | none => d = 0)
    (hsh : (shape .cc (BitVec.ofNat 8 op) fn.toNat (imm8Of [.r x, b, z0]).toNat).b = .sl
      ∧ (shape .cc (BitVec.ofNat 8 op) fn.toNat (imm8Of [.r x, b, z0]).toNat).c = .un) : DecodesBack u i := by
  simp only [Bool.and_eq_true, onCC_iff] at hw
  obtain ⟨⟨rfl, hh⟩, hb'⟩ := hw
  obtain ⟨sb, sc⟩ := hsh
  exact decodesBack_enc3 (ctlFits_of_headOk hh) hf hb fa (sb ▸ fits_sl hb') (sc ▸ fits_un) (oneWide_b b x 0) hfn hd (fun _ => rfl)

end
end Sys2Proof

/-! # Encodings of the control core (rows 0x0_ to 0x4_, 0x6_, 0x7_) -/

namespace Sys2Proof

/-! ### The entries of the control core that more than one rule concerns -/

@[simp] theorem RMode.ofCode_fnOf (c : RMode) : (FOp.ofFn (fnOf c.code)).mode = c := by cases c <;> rfl
@[simp] theorem Eid.ofCode_code (e : Eid) : Eid.ofCode (e.code % 64) = e := by cases e <;> rfl
@[simp] theorem MCtl.ofBits_bits (m : MCtl) : MCtl.ofBits m.bits = m := by
  obtain ⟨w, o, s⟩ := m; revert w o; cases s <;> decide
@[simp] theorem AmoOp.ofCode_fnOf (c : AmoOp) : AmoOp.ofCode (fnOf c.code).toNat = c := by cases c <;> rfl
@[simp] theorem fab_fnOf (b : Bool) : (fnOf (if b then 4 else 3) == 4#4) = b := by cases b <;> rfl
@[simp] theorem FCond.ofCode_append (bf : Bool) (c : FCond) :
    FCond.ofCode ((BitVec.ofBool bf ++ BitVec.ofNat 3 c.code).toNat % 8) = c := by cases bf <;> cases c <;> rfl
@[simp] theorem bf_append (bf : Bool) (c : FCond) : (FOp.ofFn (BitVec.ofBool bf ++ BitVec.ofNat 3 c.code)).bf = bf := by
  cases bf <;> cases c <;> rfl
@[simp] theorem bf_minmax (bf mx : Bool) : (FOp.ofFn (BitVec.ofBool bf ++ 0#2 ++ BitVec.ofBool mx)).bf = bf := by
  cases bf <;> cases mx <;> rfl
@[simp] theorem bit_append (x y : Bool) (n : BitVec 2) : (BitVec.ofBool x ++ n ++ BitVec.ofBool y)[0] = y := by
  revert x y n; decide
@[simp] theorem bit0_append (x y : Bool) : (0#2 ++ BitVec.ofBool x ++ BitVec.ofBool y)[0] = y := by revert x y; decide
@[simp] theorem bit1_append (x y : Bool) : (0#2 ++ BitVec.ofBool x ++ BitVec.ofBool y)[1] = x := by revert x y; decide

/-- The offset of a branch in its four fields (R299). -/
@[simp] theorem append_extract_22 (n : BitVec 22) :
    n.extractLsb' 18 4 ++ n.extractLsb' 12 6 ++ n.extractLsb' 6 6 ++ n.extractLsb' 0 6 = n := by
  ext i hi
  simp
  grind

theorem bv2_cases : ∀ x : BitVec 2, x = 0 ∨ x = 1 ∨ x = 2 ∨ x = 3 := by decide
theorem bv3_cases : ∀ x : BitVec 3, x = 0 ∨ x = 1 ∨ x = 2 ∨ x = 3 ∨ x = 4 ∨ x = 5 ∨ x = 6 ∨ x = 7 := by decide

/-- The source names register 0. -/
def Src.isZero : Src → Bool
  | .r n => n == 0
  | _ => false

theorem Src.field_of_isZero {s : Src} (hs : s.isZero = true) : s.field = 0 := by
  cases s <;> simp_all [Src.isZero]

section
variable {u : UnitId} {h : Head} {d : BitVec 6} {a b c : Src}

theorem decodesBack_lea {sh : BitVec 2} (hw : (onCC u h && a.sl h && b.sl h && oneWide [a, b]) = true) : DecodesBack u (.lea h sh d a b) := by
  rcases bv2_cases sh with rfl | rfl | rfl | rfl <;> exact decodesBack_sl2 hw rfl ⟨rfl, rfl, rfl, rfl, _, rfl, by clear * -; intros; simp_all [enc3_eq]⟩ rfl (toNat_le_63 d) ⟨rfl, rfl, rfl⟩

theorem decodesBack_sel {p : BitVec 4} (hw : (onCC u h && a.sl h && b.sl h && oneWide [a, b] && fit h (p == 0)) = true) :
    DecodesBack u (.sel h d a b p) := by
  simp only [Bool.and_eq_true, onCC_iff, fit_iff] at hw
  obtain ⟨⟨⟨⟨⟨rfl, hh⟩, ha⟩, hb⟩, ho⟩, hp⟩ := hw
  exact decodesBack_enc3 (ctlFits_of_headOk hh) rfl ⟨rfl, rfl, rfl, rfl, _, rfl, by clear * -; intros; simp_all [enc3_eq]⟩ (fits_sl ha) (fits_sl hb) (fits_reg (r6_le p)) ((oneWide_ab a b _).trans ho) rfl
    (toNat_le_63 d) fun hl => by simp_all [r6]

theorem decodesBack_ffma {f : FOp} (hw : (onCC u h && a.sl h && b.sl h && c.sl h && oneWide [a, b, c] && fit h c.isZero) = true) :
    DecodesBack u (.ffma h f d a b c) := by
  simp only [Bool.and_eq_true, onCC_iff, fit_iff] at hw
  obtain ⟨⟨⟨⟨⟨⟨rfl, hh⟩, ha⟩, hb⟩, hc⟩, ho⟩, hz⟩ := hw
  exact decodesBack_enc3 (ctlFits_of_headOk hh) rfl ⟨rfl, rfl, rfl, rfl, _, rfl, by clear * -; intros; simp_all [enc3_eq]⟩ (fits_sl ha) (fits_sl hb) (fits_sl hc) ho (contains_fnModes f) (toNat_le_63 d)
    fun hl => Src.field_of_isZero (hz hl)

theorem decodesBack_fcvt {m : RMode} {k : BitVec 3} (hw : (onCC u h && a.sl h) = true) : DecodesBack u (.fcvt h m k d a) :=
  decodesBack_sl1 hw rfl ⟨rfl, rfl, decide_eq_false (Nat.not_le.2 (Nat.lt_succ_of_le (r6_le k))), rfl, _, rfl, by clear * -; intros; simp_all [enc3_eq]⟩ (by cases m <;> rfl) (toNat_le_63 d)
    (fits_ctl _) ⟨rfl, rfl⟩

theorem decodesBack_jmp {off : BitVec 32} (hw : (onCC u h && h.len == .w3) = true) : DecodesBack u (.jmp h off) := by
  simp only [Bool.and_eq_true, onCC_iff, beq_iff_eq] at hw
  obtain ⟨⟨rfl, hh⟩, hl⟩ := hw
  exact decodesBack_entry (op := 0x31) (fn := 0) (d := 0) (a := z0) (b := z0) (c := z0) (im := 0) (ctlFits_of_headOk hh) rfl
    ⟨rfl, rfl, by simp [entryBad8, hl], rfl, _, rfl, by clear * -; intros; simp_all⟩ fits_un fits_un fits_un rfl ⟨.inl rfl, .inr ⟨rfl, fun h => absurd hl h, rfl⟩⟩ rfl rfl (fun _ => rfl)

/-- Engine, operand count and block of a push (R307, R308). -/
theorem push_ok (e : Eid) {n : BitVec 3} {k : BitVec 6} (hn : k.toNat + n.toNat ≤ 64) (hk : (n != 0 || k == 0) = true) :
    (n.setWidth 4 == 0 && k != 0) = false ∧ (BitVec.ofNat 6 e.code == 0 || decide (6 ≤ (BitVec.ofNat 6 e.code).toNat)
      || (n.setWidth 4 != 0 && decide (64 < k.toNat + (n.setWidth 4).toNat))) = false := by
  have h4 : (n.setWidth 4).toNat = n.toNat := by simp; omega
  have he : (BitVec.ofNat 6 e.code == 0 || decide (6 ≤ (BitVec.ofNat 6 e.code).toNat)) = false := by cases e <;> rfl
  refine ⟨?_, by rw [he, h4, decide_eq_false (Nat.not_lt.2 hn)]; simp⟩
  rcases bv3_cases n with rfl | rfl | rfl | rfl | rfl | rfl | rfl | rfl <;> simp_all

theorem decodesBack_pushc {e : Eid} {n : BitVec 3} {k : BitVec 6}
    (hw : (u == .cc && pushHeadOk u h && decide (n.toNat ≤ 4) && decide (k.toNat + n.toNat ≤ 64) && (n != 0 || k == 0) && b.sl h) = true) :
    DecodesBack u (.pushc h e n k b) := by
  simp only [Bool.and_eq_true, beq_iff_eq, decide_eq_true_eq] at hw
  obtain ⟨⟨⟨⟨⟨rfl, hh⟩, h4⟩, hn⟩, hk⟩, hb⟩ := hw
  obtain ⟨ok4, ok8⟩ := push_ok e hn hk
  exact decodesBack_enc3 (ctlFits_of_pushHeadOk hh (.inl rfl)) rfl ⟨ok4, rfl, ok8, rfl, _, rfl, by clear * -; intros; simp_all [enc3_eq]⟩ (fits_reg (toNat_le_63 k)) (fits_sl hb) fits_un
    (oneWide_b ..) (contains_range (by simp; omega)) (toNat_le_63 _) (fun _ => rfl)

theorem decodesBack_pushk {e : Eid} {n : BitVec 3} {k : BitVec 6}
    (hw : (u == .cc && pushHeadOk u h && decide (n.toNat ≤ 4) && decide (k.toNat + n.toNat ≤ 64) && (n != 0 || k == 0)) = true) :
    DecodesBack u (.pushk h e n k) := by
  simp only [Bool.and_eq_true, beq_iff_eq, decide_eq_true_eq] at hw
  obtain ⟨⟨⟨⟨rfl, hh⟩, h4⟩, hn⟩, hk⟩ := hw
  obtain ⟨ok4, ok8⟩ := push_ok e hn hk
  exact decodesBack_enc3 (ctlFits_of_pushHeadOk hh (.inr rfl)) rfl ⟨ok4, rfl, ok8, rfl, _, rfl, by clear * -; intros; simp_all [enc3_eq]⟩ (fits_reg (toNat_le_63 k)) fits_un fits_un
    rfl (contains_range (by simp; omega)) (toNat_le_63 _) (fun _ => rfl)

theorem decodesBack_coord {f : BitVec 3} (hw : (onCC u h && a.sl h && (decide (f.toNat < 4) || a == .r 0)) = true) :
    DecodesBack u (.coord h f d a) := by
  simp only [Bool.and_eq_true, onCC_iff, Bool.or_eq_true, decide_eq_true_eq, beq_iff_eq] at hw
  obtain ⟨⟨⟨rfl, hh⟩, ha⟩, hf⟩ := hw
  have h4 : (f.setWidth 4).toNat = f.toNat := by simp; omega
  have fa : Fits h (if 4 ≤ (f.setWidth 4).toNat && decide ((f.setWidth 4).toNat ≤ 7) then .un else .sl) a := by
    split
    · next h47 =>
      rcases hf with hf | rfl
      · simp at h47; omega
      · exact fits_un
    · exact fits_sl ha
  exact decodesBack_enc3 (ctlFits_of_headOk hh) rfl ⟨rfl, rfl, rfl, rfl, _, rfl, by clear * -; intros; simp_all [enc3_eq]⟩ fa fits_un fits_un (oneWide_a ..) (contains_range (by omega)) (toNat_le_63 d) (fun _ => rfl)

theorem decodesBack_suspend {x y : BitVec 6} (hw : (onCC u h && b.sl h && y != 0 && decide (y.toNat ≤ 60) && h.len != .w1) = true) :
    DecodesBack u (.suspend h x b y) := by
  simp only [Bool.and_eq_true, onCC_iff, bne_iff_ne, decide_eq_true_eq] at hw
  obtain ⟨⟨⟨⟨⟨rfl, hh⟩, hb⟩, hy⟩, hy60⟩, hl⟩ := hw
  exact decodesBack_enc3 (ctlFits_of_headOk hh) rfl ⟨rfl, rfl, Bool.or_eq_false_iff.2 ⟨beq_false_of_ne hy, decide_eq_false (Nat.not_lt.2 hy60)⟩, rfl, _, rfl, by clear * -; intros; simp_all [enc3_eq]⟩
    (fits_reg (toNat_le_63 x)) (fits_sl hb) (fits_reg (toNat_le_63 y)) (oneWide_b ..) rfl rfl fun h1 => absurd h1 hl

theorem decodesBack_yield {x y : BitVec 6} (hw : (onCC u h && b.sl h && fit h (y == 0)) = true) : DecodesBack u (.yield h x b y) := by
  simp only [Bool.and_eq_true, onCC_iff, fit_iff, beq_iff_eq] at hw
  obtain ⟨⟨⟨rfl, hh⟩, hb⟩, hl⟩ := hw
  exact decodesBack_enc3 (ctlFits_of_headOk hh) rfl ⟨rfl, rfl, rfl, rfl, _, rfl, by clear * -; intros; simp_all [enc3_eq]⟩ (fits_reg (toNat_le_63 x)) (fits_sl hb) (fits_reg (toNat_le_63 y)) (oneWide_b ..) rfl rfl hl

theorem decodesBack_sysw {n : BitVec 12} (hw : (onCC u h && a.sl h && n != 0x0C0) = true) : DecodesBack u (.sysw h n a) := by
  simp only [Bool.and_eq_true, onCC_iff, bne_iff_ne] at hw
  obtain ⟨⟨⟨rfl, hh⟩, ha⟩, hn⟩ := hw
  have hn' : n.toNat ≠ 0xC0 := fun h => hn (BitVec.eq_of_toNat_eq h)
  refine decodesBack_enc3 (ctlFits_of_headOk hh) rfl ⟨rfl, rfl, rfl, rfl, ⟨_, rfl, fun hk ha hb hc => ?_⟩⟩ (fits_sl ha) (fits_ctl _) fits_un (oneWide_a ..) rfl
    (toNat_le_63 _) (fun _ => rfl)
  simp_all [enc3_eq]

theorem decodesBack_sev {x : Scope} (hw : (onCC u h && (x == .ac || x == .quad || x == .die)) = true) : DecodesBack u (.sev h x) := by
  simp only [Bool.and_eq_true, onCC_iff] at hw
  obtain ⟨⟨rfl, hh⟩, hx⟩ := hw
  exact decodesBack_base (fn := fnOf x.code) hh rfl ⟨rfl, rfl, rfl, rfl, _, rfl, by clear * -; intros; simp_all [enc3_eq]⟩ (hfn := by revert hx; cases x <;> decide) ⟨rfl, rfl, rfl, rfl⟩

theorem decodesBack_cpy {f : Bool} {x : BitVec 6} (hw : (onCC u h && decide (x.toNat ≤ 60)) = true) : DecodesBack u (.cpy h f d x) := by
  simp only [Bool.and_eq_true, onCC_iff, decide_eq_true_eq] at hw
  obtain ⟨⟨rfl, hh⟩, hx⟩ := hw
  exact decodesBack_regs hh rfl ⟨rfl, rfl, decide_eq_false (Nat.not_lt.2 hx), rfl, _, rfl, by clear * -; intros; simp_all [enc3_eq]⟩ (fits_reg (toNat_le_63 x)) fits_un fits_un (by cases f <;> rfl) (toNat_le_63 d) (fun _ => rfl)

theorem decodesBack_cpyt {f : Bool} {x : BitVec 6} (hw : (onCC u h && decide (x.toNat ≤ 58)) = true) : DecodesBack u (.cpyt h f d x) := by
  simp only [Bool.and_eq_true, onCC_iff, decide_eq_true_eq] at hw
  obtain ⟨⟨rfl, hh⟩, hx⟩ := hw
  exact decodesBack_regs hh rfl ⟨rfl, rfl, decide_eq_false (Nat.not_lt.2 hx), rfl, _, rfl, by clear * -; intros; simp_all [enc3_eq]⟩ (fits_reg (toNat_le_63 x)) fits_un fits_un (by cases f <;> rfl) (toNat_le_63 d) (fun _ => rfl)

theorem decodesBack_cpyw {f : Bool} {x y : BitVec 6} (hw : (onCC u h && b.sl h && y != 63 && fit h (y == 0)) = true) : DecodesBack u (.cpyw h f d x b y) := by
  simp only [Bool.and_eq_true, onCC_iff, bne_iff_ne, fit_iff, beq_iff_eq] at hw
  obtain ⟨⟨⟨⟨rfl, hh⟩, hb⟩, hy⟩, hl⟩ := hw
  exact decodesBack_enc3 (ctlFits_of_headOk hh) rfl ⟨rfl, rfl, beq_false_of_ne hy, rfl, _, rfl, by clear * -; intros; simp_all [enc3_eq]⟩ (fits_reg (toNat_le_63 x)) (fits_sl hb) (fits_reg (toNat_le_63 y))
    (oneWide_b ..) (by cases f <;> rfl) (toNat_le_63 d) hl

theorem decodesBack_pour {f : Bool} {x y : BitVec 6} (hw : (onCC u h && c.sl h && fit h c.isZero) = true) : DecodesBack u (.pour h f d x y c) := by
  simp only [Bool.and_eq_true, onCC_iff, fit_iff] at hw
  obtain ⟨⟨⟨rfl, hh⟩, hc⟩, hl⟩ := hw
  exact decodesBack_enc3 (ctlFits_of_headOk hh) rfl ⟨rfl, rfl, rfl, rfl, _, rfl, by clear * -; intros; simp_all [enc3_eq]⟩ (fits_reg (toNat_le_63 x)) (fits_reg (toNat_le_63 y)) (fits_sl hc) (oneWide_c ..)
    (by cases f <;> rfl) (toNat_le_63 d) fun h1 => Src.field_of_isZero (hl h1)

theorem decodesBack_nmrun {x y : BitVec 6} (hw : (onCC u h && c.sl h && fit h c.isZero) = true) : DecodesBack u (.nmrun h d x y c) := by
  simp only [Bool.and_eq_true, onCC_iff, fit_iff] at hw
  obtain ⟨⟨⟨rfl, hh⟩, hc⟩, hl⟩ := hw
  exact decodesBack_enc3 (ctlFits_of_headOk hh) rfl ⟨rfl, rfl, rfl, rfl, _, rfl, by clear * -; intros; simp_all [enc3_eq]⟩ (fits_reg (toNat_le_63 x)) (fits_reg (toNat_le_63 y)) (fits_sl hc) (oneWide_c ..)
    rfl (toNat_le_63 d) fun h1 => Src.field_of_isZero (hl h1)

theorem decodesBack_rwait {x : BitVec 6} (hw : (onCC u h && d != 63) = true) : DecodesBack u (.rwait h d x) := by
  simp only [Bool.and_eq_true, onCC_iff, bne_iff_ne] at hw
  obtain ⟨⟨rfl, hh⟩, hd⟩ := hw
  exact decodesBack_regs hh rfl ⟨rfl, rfl, beq_false_of_ne hd, rfl, _, rfl, by clear * -; intros; simp_all [enc3_eq]⟩ (fits_reg (toNat_le_63 x)) fits_un fits_un rfl (toNat_le_63 d) (fun _ => rfl)

theorem decodesBack_mxcfg (hw : (onCC u h && a.sl h && (decide (d.toNat ≤ 12) || (decide (16 ≤ d.toNat) && decide (d.toNat ≤ 33)))) = true) :
    DecodesBack u (.mxcfg h d a) := by
  rw [Bool.and_eq_true] at hw
  exact decodesBack_sl1 hw.1 rfl ⟨rfl, rfl, congrArg (!·) hw.2, rfl, _, rfl, by clear * -; intros; simp_all [enc3_eq]⟩ rfl (toNat_le_63 d) fits_un ⟨rfl, rfl⟩

end
end Sys2Proof

/-! # Encodings of the memory rows and of the engines' control (rows 0x5_, 0x8_) -/

namespace Sys2Proof

/-! ### Memory and timelines (row 0x5_) -/

section
variable {u : UnitId} {h : Head} {d : BitVec 6} {a b c : Src}

theorem memUnit_contains (hu : memUnit u = true) : [UnitId.cc, .eng .vl, .eng .vs].contains u = true := by
  cases u with
  | cc => rfl
  | eng e => revert hu; cases e <;> decide

theorem memReg_le {n : BitVec 6} (hn : memReg u n = true) : n.toNat ≤ if u = .cc then 63 else 21 := by
  cases u with
  | cc => exact toNat_le_63 n
  | eng e => cases e <;> simp_all [memReg, xOk]

theorem mctl_bits : ∀ (w : Bool) (o : BitVec 2) (s : Scope), let m := (MCtl.mk w o s).bits
    m.extractLsb' 3 2 = o ∧ (m.extractLsb' 0 3).toNat ≤ 4 ∧ m.getLsbD 5 = w := by
  intro w o s
  revert w o
  cases s <;> decide

/-- Memory control that its opcode accepts passes its check (Table 11-2). -/
theorem mctlOk_bits {ords : List Nat} {w : Bool} {m : MCtl} (hm : m.okFor ords w = true) : (!mctlOk ords w m.bits) = false := by
  obtain ⟨h3, h0, h5⟩ := mctl_bits m.wide m.ord m.scope
  simp only [MCtl.okFor, Bool.and_eq_true] at hm
  simp only [mctlOk, h3, h5, decide_eq_true h0, hm.1, hm.2]
  rfl

theorem decodesBack_ld {w : BitVec 3} {x : BitVec 6}
    (hw : (memUnit u && headOk u h && decide (w.toNat < 7) && memReg u d && memReg u x && b.off u h) = true) : DecodesBack u (.ld h w d x b) := by
  simp only [Bool.and_eq_true, decide_eq_true_eq] at hw
  obtain ⟨⟨⟨⟨⟨hu, hh⟩, h7⟩, hd⟩, hx⟩, hb⟩ := hw
  exact decodesBack_enc3 (ctlFits_of_headOk hh) rfl ⟨rfl, rfl, rfl, memUnit_contains hu, _, rfl, by clear * -; intros; simp_all [enc3_eq]⟩ (fits_mem hx) (fits_off hu hb) fits_un (oneWide_b ..)
    (contains_range (by simp; omega)) (memReg_le hd) (fun _ => rfl)

theorem decodesBack_st {w : BitVec 2} {x y : BitVec 6}
    (hw : (memUnit u && headOk u h && memReg u x && memReg u y && b.off u h && fit h (y == 0)) = true) : DecodesBack u (.st h w x b y) := by
  simp only [Bool.and_eq_true, fit_iff, beq_iff_eq] at hw
  obtain ⟨⟨⟨⟨⟨hu, hh⟩, hx⟩, hy⟩, hb⟩, hl⟩ := hw
  exact decodesBack_enc3 (ctlFits_of_headOk hh) rfl ⟨rfl, rfl, rfl, memUnit_contains hu, _, rfl, by clear * -; intros; simp_all [enc3_eq]⟩ (fits_mem hx) (fits_off hu hb) (fits_mem hy) (oneWide_b ..)
    (contains_range (by simp; omega)) rfl hl

theorem mctl_zero {m : MCtl} (h0 : (m.ord == 0 && m.scope == .ac) = true) (hm : m.wide = false) : m.bits = 0 := by
  obtain ⟨w, o, s⟩ := m
  simp only [Bool.and_eq_true, beq_iff_eq] at h0 hm
  obtain ⟨rfl, rfl⟩ := h0
  subst hm
  rfl

theorem decodesBack_lds {w : BitVec 3} {m : MCtl} {x : BitVec 6}
    (hw : (memUnit u && headOk u h && decide (w.toNat < 7) && memReg u d && memReg u x && b.off u h && m.okFor [0, 1] false
      && fit h (m.ord == 0 && m.scope == .ac)) = true) : DecodesBack u (.lds h w m d x b) := by
  simp only [Bool.and_eq_true, decide_eq_true_eq] at hw
  obtain ⟨⟨⟨⟨⟨⟨⟨hu, hh⟩, h7⟩, hd⟩, hx⟩, hb⟩, hm⟩, hl⟩ := hw
  have hwide : m.wide = false := by
    simp only [MCtl.okFor, Bool.and_eq_true, Bool.false_or, Bool.not_eq_true'] at hm
    exact hm.2
  exact decodesBack_enc3 (ctlFits_of_headOk hh) rfl ⟨rfl, rfl, mctlOk_bits hm, memUnit_contains hu, _, rfl, by clear * -; intros; simp_all [enc3_eq]⟩ (fits_mem hx) (fits_off hu hb)
    (fits_ctl _) (oneWide_b ..) (contains_range (by simp; omega)) (memReg_le hd) fun h1 => mctl_zero (fit_iff.1 hl h1) hwide

theorem decodesBack_sts {w : BitVec 2} {m : MCtl} {x y : BitVec 6}
    (hw : (memUnit u && headOk u h && memReg u x && memReg u y && b.off u h && m.okFor [0, 2] false && fit h (y == 0)) = true) :
    DecodesBack u (.sts h w m x b y) := by
  simp only [Bool.and_eq_true, fit_iff, beq_iff_eq] at hw
  obtain ⟨⟨⟨⟨⟨⟨hu, hh⟩, hx⟩, hy⟩, hb⟩, hm⟩, hl⟩ := hw
  exact decodesBack_enc3 (ctlFits_of_headOk hh) rfl ⟨rfl, rfl, mctlOk_bits hm, memUnit_contains hu, _, rfl, by clear * -; intros; simp_all [enc3_eq]⟩ (fits_mem hx) (fits_off hu hb)
    (fits_mem hy) (oneWide_b ..) (contains_range (by simp; omega)) (toNat_le_63 _) hl

theorem decodesBack_amo {op : AmoOp} {m : MCtl} {x y : BitVec 6}
    (hw : (memUnit u && headOk u h && memReg u d && memReg u x && memReg u y && m.okFor [0, 1, 2] true
      && fit h (!m.wide && m.ord == 0 && m.scope == .ac)) = true) : DecodesBack u (.amo h op m d x y) := by
  simp only [Bool.and_eq_true] at hw
  obtain ⟨⟨⟨⟨⟨⟨hu, hh⟩, hd⟩, hx⟩, hy⟩, hm⟩, hl⟩ := hw
  exact decodesBack_regs hh rfl ⟨rfl, rfl, mctlOk_bits hm, memUnit_contains hu, _, rfl, by clear * -; intros; simp_all [enc3_eq]⟩ (fits_mem hx) (fits_mem hy) (fits_ctl _)
    (by cases op <;> rfl) (memReg_le hd) fun h1 => by
      have hz := fit_iff.1 hl h1
      exact mctl_zero (by simp_all) (by simp_all)

theorem decodesBack_cas {m : MCtl} {x y : BitVec 6}
    (hw : (memUnit u && headOk u h && memReg u d && memReg u x && memReg u y && m.okFor [0, 1, 2] true
      && fit h (!m.wide && m.ord == 0 && m.scope == .ac)) = true) : DecodesBack u (.cas h m d x y) := by
  simp only [Bool.and_eq_true] at hw
  obtain ⟨⟨⟨⟨⟨⟨hu, hh⟩, hd⟩, hx⟩, hy⟩, hm⟩, hl⟩ := hw
  exact decodesBack_regs hh rfl ⟨rfl, rfl, mctlOk_bits hm, memUnit_contains hu, _, rfl, by clear * -; intros; simp_all [enc3_eq]⟩ (fits_mem hx) (fits_mem hy) (fits_ctl _)
    rfl (memReg_le hd) fun h1 => by
      have hz := fit_iff.1 hl h1
      exact mctl_zero (by simp_all) (by simp_all)

theorem decodesBack_phase {m : MCtl} (hw : (headOk u h && m.okFor [1, 2, 3] false) = true) : DecodesBack u (.phase h m) := by
  simp only [Bool.and_eq_true] at hw
  exact decodesBack_regs (op := 0x56) (fn := 0) (d := m.bits) (x := 0) (y := 0) (z := 0) hw.1 rfl
    ⟨rfl, rfl, mctlOk_bits hw.2, by cases u with | cc => rfl | eng e => cases e <;> rfl, _, rfl, by clear * -; intros; simp_all [enc3_eq]⟩ fits_un fits_un fits_un rfl (toNat_le_63 _) (fun _ => rfl)

theorem decodesBack_fence {x : Scope} (hw : headOk u h = true) : DecodesBack u (.fence h x) :=
  decodesBack_regs (op := 0x57) (fn := 0) (d := (MCtl.mk false 0 x).bits) (x := 0) (y := 0) (z := 0) hw rfl
    ⟨rfl, rfl, mctlOk_bits (m := ⟨false, 0, x⟩) rfl, by cases u with | cc => rfl | eng e => cases e <;> rfl, _, rfl, by clear * -; intros; simp_all [enc3_eq]⟩ fits_un fits_un fits_un rfl (toNat_le_63 _) (fun _ => rfl)

/-- CLEAN, INVAL and PREF share their form (R329 to R331). -/
theorem decodesBack_line {i : Instr} {op : Nat} {l2 : Bool} {x : BitVec 6}
    (hw : ((u == .cc || u == .eng .vl) && headOk u h && memReg u x && b.off u h) = true)
    (hf : toFields i = some (enc3 op h (fnW l2) 0 (.r x) b z0)) (hop : op = 0x58 ∨ op = 0x59 ∨ op = 0x5A)
    (hi : ∃ j, build u (enc3 op h (fnW l2) 0 (.r x) b z0) = some j ∧ (ctlOf u h.ctl.bits = h.ctl →
      (enc3 op h (fnW l2) 0 (.r x) b z0).src (Src.r x).field (Src.r x).tag = .r x → (enc3 op h (fnW l2) 0 (.r x) b z0).src b.field b.tag = b →
      (enc3 op h (fnW l2) 0 (.r x) b z0).src z0.field z0.tag = z0 → j = i) := by
        exact ⟨_, rfl, by intro hk ha hb hc; clear * - hk ha hb hc; simp_all [enc3_eq]⟩) : DecodesBack u i := by
  simp only [Bool.and_eq_true, Bool.or_eq_true, beq_iff_eq] at hw
  obtain ⟨⟨⟨hu, hh⟩, hx⟩, hb⟩ := hw
  have hm : memUnit u = true := by rcases hu with rfl | rfl <;> rfl
  have hc : [UnitId.cc, .eng .vl].contains u = true := by rcases hu with rfl | rfl <;> rfl
  rcases hop with rfl | rfl | rfl <;>
    exact decodesBack_enc3 (ctlFits_of_headOk hh) hf ⟨rfl, rfl, rfl, hc, hi⟩ (fits_mem hx) (fits_off hm hb) fits_un (oneWide_b ..)
      (by cases l2 <;> rfl) rfl (fun _ => rfl)

/-! ### The control instructions of engines (row 0x8_) -/

theorem onAny_iff : onAny u h = true ↔ (∃ e, u = .eng e) ∧ headOk u h = true := by
  cases u <;> simp [onAny]

theorem engUnit {e : Eid} : [UnitId.eng .vl, .eng .va, .eng .vs, .eng .mx, .eng .ax].contains (.eng e) = true := by cases e <;> rfl

theorem decodesBack_engBase {i : Instr} {op : Nat} (hw : onAny u h = true) (hf : toFields i = some (base op h))
    (hb : ∀ e, BuildsBack (.eng e) i h z0 z0 z0 (enc3 op h 0 0 z0 z0 z0))
    (hsh : ∀ e, (shape (.eng e) (BitVec.ofNat 8 op) 0 0) = { dst := none }) : DecodesBack u i := by
  obtain ⟨⟨e, rfl⟩, hh⟩ := onAny_iff.1 hw
  have hsh : shape (.eng e) (BitVec.ofNat 8 op) (0 : BitVec 4).toNat 0 = { dst := none } := hsh e
  exact decodesBack_base hh hf (hb e) (by rw [hsh]; exact ⟨rfl, rfl, rfl, rfl⟩) (by rw [hsh]; rfl)

@[simp] theorem ECond.ofCode_fnOf (c : ECond) : ECond.ofCode (fnOf c.code).toNat = c := by cases c <;> rfl

theorem decodesBack_etake (hw : onAny u h = true) : DecodesBack u (.etake h) :=
  decodesBack_engBase hw rfl (fun e => ⟨rfl, rfl, rfl, engUnit, _, rfl, by clear * -; intros; simp_all [enc3_eq]⟩) fun _ => rfl

theorem decodesBack_etok {n : BitVec 4}
    (hw : (onAny u h && (match h.ctl with | .va _ _ _ gi ta => gi != 0 || ta != 0 | .en gi ta => gi != 0 || ta != 0 | _ => false)) = true) :
    DecodesBack u (.etok h n) := by
  rw [Bool.and_eq_true, onAny_iff] at hw
  obtain ⟨⟨⟨e, rfl⟩, hh⟩, ht⟩ := hw
  refine decodesBack_base (fn := n) hh rfl ⟨rfl, rfl, ?_, engUnit, _, rfl, by clear * -; intros; simp_all [enc3_eq]⟩ ⟨rfl, rfl, rfl, rfl⟩ (contains_range n.isLt)
  show ((h.ctl.bits).extractLsb' 0 3 == 0 && (h.ctl.bits).extractLsb' 3 3 == 0) = false
  revert ht
  cases h.ctl with
  | cc n p => simp
  | slot n g => simp
  | va fz g sq gi ta => obtain ⟨-, -, -, h3, h0⟩ := bits_va fz g sq gi ta; rw [h3, h0]; simp; grind
  | en gi ta => obtain ⟨h3, h0, -⟩ := bits_en gi ta; rw [h3, h0]; simp; grind


@[simp] theorem fnW_ne_8 (w : Bool) : (fnW w).toNat ≠ 8 := by cases w <;> decide

theorem x8_narrow {e : Eid} (hs : a.x8 (.eng e) h = true) : a.wide = false := by
  cases a <;> cases e <;> simp_all [Src.x8, Src.wide]

theorem oneWide_of_narrow {x : BitVec 6} (ha : a.wide = false) (b : Src) : oneWide [a, b, .r x] = true := by
  rw [oneWide_ab]
  cases hb : b.wide <;> simp [oneWide, ha, hb]

theorem xOk_le {n : BitVec 6} (hn : xOk n = true) : n.toNat ≤ 21 := of_decide_eq_true hn

/-- An EBR whose two registers fit the slots of its condition (R354). -/
theorem decodesBack_ebr_of {e : Eid} {k : ECond} {off : BitVec 32} (hh : headOk (.eng e) h = true) (ho : ebrOff h off = true)
    (ha : a.wide = false) (hb : b.wide = false)
    (fa : Fits h (shape (.eng e) 0x81 (fnOf k.code).toNat (if h.len = .w3 then 0 else off.extractLsb' 0 8 : BitVec 8).toNat).a a)
    (fb : Fits h (shape (.eng e) 0x81 (fnOf k.code).toNat (if h.len = .w3 then 0 else off.extractLsb' 0 8 : BitVec 8).toNat).b b) :
    DecodesBack (.eng e) (.ebr h k a b off) := by
  have hn : [a, b, z0].filter Src.wide = [] := by simp [ha, hb, z0]
  simp only [ebrOff, Bool.and_eq_true, Bool.or_eq_true, bne_iff_ne, beq_iff_eq] at ho
  obtain ⟨hne, hlen⟩ := ho
  have hsx : h.len ≠ .w3 → (off.extractLsb' 0 8).signExtend 32 = off := fun h3 => by
    rcases hlen with h3' | ⟨-, hs⟩
    · exact absurd h3' h3
    · exact hs
  have h1 : h.len ≠ .w1 := by rcases hlen with h | ⟨h, -⟩ <;> simp [h]
  refine decodesBack_entry (op := 0x81) (im := if h.len = .w3 then 0 else off.extractLsb' 0 8) (lt := if h.len = .w3 then off else 0)
    (ctlFits_of_headOk hh) rfl ⟨?_, rfl, ?_, engUnit, ⟨_, rfl, fun hk ha hb hc => ?_⟩⟩ fa fb
    (by cases k <;> exact fits_un) (oneWide_of_narrow ha b)
    ⟨.inr ⟨by cases k <;> rfl, fun h => absurd h h1, hn⟩, .inr ⟨by cases k <;> rfl, fun h => if_neg h, hn⟩⟩ (by cases k <;> rfl)
    (by cases k <;> rfl) (fun _ => rfl)
  · show (h.len == .w3 && (if h.len = .w3 then 0 else off.extractLsb' 0 8 : BitVec 8) != 0) = false
    split <;> simp_all
  · show (match h.len with
      | .w1 => true
      | .w2 => (if h.len = .w3 then 0 else off.extractLsb' 0 8 : BitVec 8) == 0
      | .w3 => (if h.len = .w3 then off else 0) == 0) = false
    rcases hlen with h3 | ⟨h2, -⟩
    · simpa [h3] using hne
    · have h8 : off.extractLsb' 0 8 ≠ 0 := fun h0 => hne (by rw [← hsx (by simp [h2]), h0]; rfl)
      simpa [h2] using h8
  · obtain ⟨l, ctl⟩ := h
    by_cases h3 : l = .w3 <;> simp_all

theorem decodesBack_ebr {k : ECond} {off : BitVec 32}
    (hw : (onAny u h && ebrOff h off && (match k with
       | .last0 | .last1 | .al => a == .r 0 && b == .r 0
       | _ => a.x8 u h && b.x8 u h)) = true) : DecodesBack u (.ebr h k a b off) := by
  simp only [Bool.and_eq_true, onAny_iff] at hw
  obtain ⟨⟨⟨⟨e, rfl⟩, hh⟩, ho⟩, hk⟩ := hw
  have registers : (a.x8 (.eng e) h && b.x8 (.eng e) h) = true → k.code < 6 → DecodesBack (.eng e) (.ebr h k a b off) := by
    intro hab hc
    rw [Bool.and_eq_true] at hab
    refine decodesBack_ebr_of hh ho (x8_narrow hab.1) (x8_narrow hab.2) ?_ ?_ <;>
      (cases k <;> simp [ECond.code] at hc <;> first | exact fits_x8 hab.1 | exact fits_x8 hab.2)
  have none : (a == .r 0 && b == .r 0) = true → 6 ≤ k.code → DecodesBack (.eng e) (.ebr h k a b off) := by
    intro hab hc
    simp only [Bool.and_eq_true, beq_iff_eq] at hab
    obtain ⟨rfl, rfl⟩ := hab
    exact decodesBack_ebr_of hh ho rfl rfl (by cases k <;> simp [ECond.code] at hc <;> exact fits_un)
      (by cases k <;> simp [ECond.code] at hc <;> exact fits_un)
  cases k with
  | last0 => exact none hk (by decide)
  | last1 => exact none hk (by decide)
  | al => exact none hk (by decide)
  | _ => exact registers hk (by decide)

theorem decodesBack_eloop {k : Bool} {bl : BitVec 12} (hw : (onAny u h && a.x8l u h) = true) : DecodesBack u (.eloop h k a bl) := by
  rw [Bool.and_eq_true, onAny_iff] at hw
  obtain ⟨⟨⟨e, rfl⟩, hh⟩, ha⟩ := hw
  cases k <;> exact decodesBack_enc3 (ctlFits_of_headOk hh) rfl ⟨rfl, rfl, rfl, engUnit, _, rfl, by clear * -; intros; simp_all [enc3_eq]⟩ (fits_x8l ha) (fits_ctl _) fits_un (oneWide_a ..) rfl (toNat_le_63 _) (fun _ => rfl)

theorem decodesBack_eloopAdd (hw : (onAny u h && xOk d && a.x8 u h && b.x8cl u h) = true) : DecodesBack u (.eloopAdd h d a b) := by
  simp only [Bool.and_eq_true, onAny_iff] at hw
  obtain ⟨⟨⟨⟨⟨e, rfl⟩, hh⟩, hd⟩, ha⟩, hb⟩ := hw
  exact decodesBack_enc3 (ctlFits_of_headOk hh) rfl ⟨rfl, rfl, rfl, engUnit, _, rfl, by clear * -; intros; simp_all [enc3_eq]⟩ (fits_x8 ha) (fits_x8cl hb) fits_un (oneWide_of_narrow (x8_narrow ha) b) rfl (xOk_le hd) (fun _ => rfl)

theorem decodesBack_gput {g : BitVec 5} (hw : (onAny u h && a.x8cl u h) = true) : DecodesBack u (.gput h g a) := by
  rw [Bool.and_eq_true, onAny_iff] at hw
  obtain ⟨⟨⟨e, rfl⟩, hh⟩, ha⟩ := hw
  exact decodesBack_enc3 (ctlFits_of_headOk hh) rfl ⟨rfl, rfl, rfl, engUnit, _, rfl, by clear * -; intros; simp_all [enc3_eq]⟩ (fits_x8cl ha) fits_un fits_un (oneWide_a ..) rfl (r6_le g) (fun _ => rfl)

theorem decodesBack_eret (hw : (onAny u h && a.x8cl u h) = true) : DecodesBack u (.eret h a) := by
  rw [Bool.and_eq_true, onAny_iff] at hw
  obtain ⟨⟨⟨e, rfl⟩, hh⟩, ha⟩ := hw
  exact decodesBack_enc3 (ctlFits_of_headOk hh) rfl ⟨rfl, rfl, rfl, engUnit, _, rfl, by clear * -; intros; simp_all [enc3_eq]⟩ (fits_x8cl ha) fits_un fits_un (oneWide_a ..) rfl rfl (fun _ => rfl)

end
end Sys2Proof

/-! # Encodings of vector memory (row 0x9_) -/

namespace Sys2Proof

/-! ### Vector loads and stores (row 0x9_) -/

section
variable {u : UnitId} {i : Instr} {op : Nat} {h : Head} {fn nr : BitVec 4} {d x y z : BitVec 6} {a b c : Src} {e : Eid}

theorem onE_iff : onE e u h = true ↔ u = .eng e ∧ headOk (.eng e) h = true := by
  simp only [onE, Bool.and_eq_true, beq_iff_eq]
  constructor
  · rintro ⟨h, rfl⟩; exact ⟨rfl, h⟩
  · rintro ⟨rfl, h⟩; exact ⟨h, rfl⟩

theorem decodesBack_vld (hw : (onE .vl u h && xOk x && b.off u h) = true) : DecodesBack u (.vld h nr d x b) := by
  simp only [Bool.and_eq_true, onE_iff] at hw
  obtain ⟨⟨⟨rfl, hh⟩, hx⟩, hb⟩ := hw
  exact decodesBack_enc3 (ctlFits_of_headOk hh) rfl ⟨rfl, rfl, rfl, rfl, _, rfl, by clear * -; intros; simp_all [enc3_eq]⟩ (fits_reg (xOk_le hx)) (fits_off rfl hb) fits_un (oneWide_b ..) (contains_range nr.isLt)
    (toNat_le_63 d) (fun _ => rfl)

theorem decodesBack_vst (hw : (onE .vs u h && xOk x && b.off u h) = true) : DecodesBack u (.vst h nr d x b) := by
  simp only [Bool.and_eq_true, onE_iff] at hw
  obtain ⟨⟨⟨rfl, hh⟩, hx⟩, hb⟩ := hw
  exact decodesBack_enc3 (ctlFits_of_headOk hh) rfl ⟨rfl, rfl, rfl, rfl, _, rfl, by clear * -; intros; simp_all [enc3_eq]⟩ (fits_reg (xOk_le hx)) (fits_off rfl hb) fits_un (oneWide_b ..) (contains_range nr.isLt)
    (toNat_le_63 d) (fun _ => rfl)

theorem decodesBack_vldg (hw : (onE .vl u h && xOk x && xOk y && b.off u h && fit h (y == 0)) = true) : DecodesBack u (.vldg h nr d x b y) := by
  simp only [Bool.and_eq_true, onE_iff, fit_iff, beq_iff_eq] at hw
  obtain ⟨⟨⟨⟨⟨rfl, hh⟩, hx⟩, hy⟩, hb⟩, hl⟩ := hw
  exact decodesBack_enc3 (ctlFits_of_headOk hh) rfl ⟨rfl, rfl, rfl, rfl, _, rfl, by clear * -; intros; simp_all [enc3_eq]⟩ (fits_reg (xOk_le hx)) (fits_off rfl hb) (fits_reg (xOk_le hy)) (oneWide_b ..)
    (contains_range nr.isLt) (toNat_le_63 d) hl

theorem decodesBack_vsts (hw : (onE .vs u h && xOk x && xOk y && b.off u h && fit h (y == 0)) = true) : DecodesBack u (.vsts h nr d x b y) := by
  simp only [Bool.and_eq_true, onE_iff, fit_iff, beq_iff_eq] at hw
  obtain ⟨⟨⟨⟨⟨rfl, hh⟩, hx⟩, hy⟩, hb⟩, hl⟩ := hw
  exact decodesBack_enc3 (ctlFits_of_headOk hh) rfl ⟨rfl, rfl, rfl, rfl, _, rfl, by clear * -; intros; simp_all [enc3_eq]⟩ (fits_reg (xOk_le hx)) (fits_off rfl hb) (fits_reg (xOk_le hy)) (oneWide_b ..)
    (contains_range nr.isLt) (toNat_le_63 d) hl

theorem decodesBack_vldb {f : FOp} {fw : BitVec 32} (hw : (onE .vl u h && xOk x && xOk y && xOk z && h.len == .w3) = true) :
    DecodesBack u (.vldb h f d x y z fw) := by
  simp only [Bool.and_eq_true, onE_iff, beq_iff_eq] at hw
  obtain ⟨⟨⟨⟨⟨rfl, hh⟩, hx⟩, hy⟩, hz⟩, hl⟩ := hw
  exact decodesBack_entry (op := 0x92) (im := 0) (a := .r x) (b := .r y) (c := .r z) (ctlFits_of_headOk hh) rfl ⟨rfl, rfl, (congrArg (· != Len.w3) hl).trans rfl, rfl, _, rfl, by clear * -; intros; simp_all⟩
    (fits_reg (xOk_le hx)) (fits_reg (xOk_le hy)) (fits_reg (xOk_le hz)) rfl ⟨.inl rfl, .inr ⟨rfl, fun h => absurd hl h, rfl⟩⟩
    (contains_fnModes f) (toNat_le_63 d) fun h1 => by simp [hl] at h1

theorem decodesBack_vldm (hw : (onE .vl u h && xOk x && xOk y && c.off u h && fit h c.isZero) = true) : DecodesBack u (.vldm h x y c) := by
  simp only [Bool.and_eq_true, onE_iff, fit_iff] at hw
  obtain ⟨⟨⟨⟨⟨rfl, hh⟩, hx⟩, hy⟩, hc⟩, hl⟩ := hw
  exact decodesBack_enc3 (ctlFits_of_headOk hh) rfl ⟨rfl, rfl, rfl, rfl, _, rfl, by clear * -; intros; simp_all [enc3_eq]⟩ (fits_reg (xOk_le hx)) (fits_reg (xOk_le hy)) (fits_off rfl hc) (oneWide_c ..)
    rfl rfl fun h1 => Src.field_of_isZero (hl h1)

theorem decodesBack_vsta {o : RfOp} {lanes : BitVec 16}
    (hw : (onE .vs u h && xOk x && xOk y && xOk z && fit h (z == 0 && o == .fadd) && (h.len == .w3 || lanes == 0xFFFF)) = true) :
    DecodesBack u (.vsta h o nr d x y z lanes) := by
  simp only [Bool.and_eq_true, onE_iff, fit_iff, Bool.or_eq_true, beq_iff_eq] at hw
  obtain ⟨⟨⟨⟨⟨⟨rfl, hh⟩, hx⟩, hy⟩, hz⟩, hl⟩, hn⟩ := hw
  refine decodesBack_entry (op := 0x96) (im := BitVec.ofNat 8 o.code) (lt := if h.len = .w3 then lanes.setWidth 32 else 0) (a := .r x) (b := .r y)
    (c := .r z) (ctlFits_of_headOk hh) rfl ⟨rfl, rfl, ?_, rfl, ⟨_, rfl, fun hk ha hb hc => ?_⟩⟩ (fits_reg (xOk_le hx)) (fits_reg (xOk_le hy))
    (fits_reg (xOk_le hz)) rfl ⟨.inr ⟨rfl, fun h1 => by rw [(hl h1).2]; rfl, rfl⟩, .inr ⟨rfl, fun h3 => if_neg h3, rfl⟩⟩ (contains_range nr.isLt)
    (toNat_le_63 d) fun h1 => (hl h1).1
  · have hlit : (if h.len = .w3 then lanes.setWidth 32 else 0 : BitVec 32).extractLsb' 16 16 = 0 := by
      split
      · ext i hi; simp
      · rfl
    have hop : ((BitVec.ofNat 8 o.code).extractLsb' 0 2).toNat ≠ 3 ∧ (BitVec.ofNat 8 o.code).extractLsb' 2 6 = 0 := by cases o <;> decide
    show (((BitVec.ofNat 8 o.code).extractLsb' 0 2).toNat == 3 || (BitVec.ofNat 8 o.code).extractLsb' 2 6 != 0
      || (if h.len = .w3 then lanes.setWidth 32 else 0 : BitVec 32).extractLsb' 16 16 != 0) = false
    rw [hlit, hop.2, beq_false_of_ne hop.1]
    rfl
  · obtain ⟨l, ctl⟩ := h
    have hop : RfOp.ofCode ((BitVec.ofNat 8 o.code).extractLsb' 0 2).toNat = o := by cases o <;> rfl
    have hlanes : (lanes.setWidth 32).extractLsb' 0 16 = lanes := extract_setWidth lanes (by decide)
    by_cases h3 : l = .w3 <;> simp_all

theorem decodesBack_rput (hw : (onE .vs u h && xOk x && xOk y && xOk z && z != 15 && z != 21 && fit h (z == 0)) = true) :
    DecodesBack u (.rput h x y z) := by
  simp only [Bool.and_eq_true, onE_iff, fit_iff, beq_iff_eq, bne_iff_ne] at hw
  obtain ⟨⟨⟨⟨⟨⟨⟨rfl, hh⟩, hx⟩, hy⟩, hz⟩, h15⟩, h21⟩, hl⟩ := hw
  exact decodesBack_regs hh rfl ⟨rfl, rfl, Bool.or_eq_false_iff.2 ⟨beq_false_of_ne h15, beq_false_of_ne h21⟩, rfl, _, rfl, by clear * -; intros; simp_all [enc3_eq]⟩ (fits_reg (xOk_le hx))
    (fits_reg (xOk_le hy)) (fits_reg (xOk_le hz)) rfl rfl hl

end
end Sys2Proof

/-! # Encodings of vector arithmetic (row 0xA_) -/

namespace Sys2Proof

/-! ### The vector engine (rows 0xA_ to 0xC_) -/

@[simp] theorem SfuFn.ofCode_code (c : SfuFn) : SfuFn.ofCode (c.code % 64) = c := by cases c <;> rfl
@[simp] theorem bf_flag (b : Bool) : (FOp.ofFn (fnOf (if b then 8 else 0))).bf = b := by cases b <;> rfl
@[simp] theorem BcK.ofCode_append (b : Bool) (c : BcK) : BcK.ofCode ((BitVec.ofBool b ++ BitVec.ofNat 3 c.code).toNat % 8) = c := by
  cases b <;> cases c <;> rfl
@[simp] theorem bf_append_bc (bf : Bool) (c : BcK) : (FOp.ofFn (BitVec.ofBool bf ++ BitVec.ofNat 3 c.code)).bf = bf := by
  cases bf <;> cases c <;> rfl
@[simp] theorem IWid.ofCode_fnOf (c : IWid) : IWid.ofCode (fnOf c.code).toNat = c := by cases c <;> rfl
@[simp] theorem LogF.ofCode_fnOf (c : LogF) : LogF.ofCode (fnOf c.code).toNat = c := by cases c <;> rfl
@[simp] theorem ImmK.ofCode_fnOf (c : ImmK) : ImmK.ofCode (fnOf c.code).toNat = c := by cases c <;> rfl
@[simp] theorem KeyOrd.ofCode_fnOf (c : KeyOrd) : KeyOrd.ofCode (fnOf c.code).toNat = c := by cases c <;> rfl

section
variable {u : UnitId} {i : Instr} {op : Nat} {h : Head} {fn : BitVec 4} {d x y z : BitVec 6} {a b c : Src} {e : Eid}

/-- Two sources of any kind (Table 9-4). -/
theorem decodesBack_any2 (hw : (onE .va u h && a.any h && b.any h && oneWide [a, b]) = true)
    (hf : toFields i = some (enc3 op h fn d a b z0)) (hb : BuildsBack (.eng .va) i h a b z0 (enc3 op h fn d a b z0))
    (hfn : (shape (.eng .va) (BitVec.ofNat 8 op) fn.toNat (imm8Of [a, b, z0]).toNat).fns.contains fn.toNat = true)
    (hd : match (shape (.eng .va) (BitVec.ofNat 8 op) fn.toNat (imm8Of [a, b, z0]).toNat).dst with | some m => d.toNat ≤ m | none => d = 0)
    (hsh : (shape (.eng .va) (BitVec.ofNat 8 op) fn.toNat (imm8Of [a, b, z0]).toNat).a = .any
      ∧ (shape (.eng .va) (BitVec.ofNat 8 op) fn.toNat (imm8Of [a, b, z0]).toNat).b = .any
      ∧ (shape (.eng .va) (BitVec.ofNat 8 op) fn.toNat (imm8Of [a, b, z0]).toNat).c = .un) : DecodesBack u i := by
  simp only [Bool.and_eq_true, onE_iff] at hw
  obtain ⟨⟨⟨⟨rfl, hh⟩, ha⟩, hb'⟩, ho⟩ := hw
  obtain ⟨sa, sb, sc⟩ := hsh
  exact decodesBack_enc3 (ctlFits_of_headOk hh) hf hb (sa ▸ fits_any ha) (sb ▸ fits_any hb') (sc ▸ fits_un) ((oneWide_ab a b 0).trans ho) hfn hd (fun _ => rfl)

/-- One source of any kind, in field a. -/
theorem decodesBack_any1 (hw : (onE .va u h && a.any h) = true)
    (hf : toFields i = some (enc3 op h fn d a (.r x) z0)) (hb : BuildsBack (.eng .va) i h a (.r x) z0 (enc3 op h fn d a (.r x) z0))
    (hfn : (shape (.eng .va) (BitVec.ofNat 8 op) fn.toNat (imm8Of [a, .r x, z0]).toNat).fns.contains fn.toNat = true)
    (hd : match (shape (.eng .va) (BitVec.ofNat 8 op) fn.toNat (imm8Of [a, .r x, z0]).toNat).dst with | some m => d.toNat ≤ m | none => d = 0)
    (fb : Fits h (shape (.eng .va) (BitVec.ofNat 8 op) fn.toNat (imm8Of [a, .r x, z0]).toNat).b (.r x))
    (hsh : (shape (.eng .va) (BitVec.ofNat 8 op) fn.toNat (imm8Of [a, .r x, z0]).toNat).a = .any
      ∧ (shape (.eng .va) (BitVec.ofNat 8 op) fn.toNat (imm8Of [a, .r x, z0]).toNat).c = .un) : DecodesBack u i := by
  simp only [Bool.and_eq_true, onE_iff] at hw
  obtain ⟨⟨rfl, hh⟩, ha⟩ := hw
  obtain ⟨sa, sc⟩ := hsh
  exact decodesBack_enc3 (ctlFits_of_headOk hh) hf hb (sa ▸ fits_any ha) fb (sc ▸ fits_un) (oneWide_a a x 0) hfn hd (fun _ => rfl)

/-- A scalar source in field a. -/
theorem decodesBack_sc1 (hw : (onE .va u h && a.sc h) = true)
    (hf : toFields i = some (enc3 op h fn d a z0 z0)) (hb : BuildsBack (.eng .va) i h a z0 z0 (enc3 op h fn d a z0 z0))
    (hfn : (shape (.eng .va) (BitVec.ofNat 8 op) fn.toNat (imm8Of [a, z0, z0]).toNat).fns.contains fn.toNat = true)
    (hd : match (shape (.eng .va) (BitVec.ofNat 8 op) fn.toNat (imm8Of [a, z0, z0]).toNat).dst with | some m => d.toNat ≤ m | none => d = 0)
    (hsh : (shape (.eng .va) (BitVec.ofNat 8 op) fn.toNat (imm8Of [a, z0, z0]).toNat).a = .sc
      ∧ (shape (.eng .va) (BitVec.ofNat 8 op) fn.toNat (imm8Of [a, z0, z0]).toNat).b = .un
      ∧ (shape (.eng .va) (BitVec.ofNat 8 op) fn.toNat (imm8Of [a, z0, z0]).toNat).c = .un) : DecodesBack u i := by
  simp only [Bool.and_eq_true, onE_iff] at hw
  obtain ⟨⟨rfl, hh⟩, ha⟩ := hw
  obtain ⟨sa, sb, sc⟩ := hsh
  exact decodesBack_enc3 (ctlFits_of_headOk hh) hf hb (sa ▸ fits_sc ha) (sb ▸ fits_un) (sc ▸ fits_un) (oneWide_a a 0 0) hfn hd (fun _ => rfl)

/-- A register in field a, and a scalar source in field b. -/
theorem decodesBack_scb (hw : (onE .va u h && b.sc h) = true)
    (hf : toFields i = some (enc3 op h fn d (.r x) b z0)) (hb : BuildsBack (.eng .va) i h (.r x) b z0 (enc3 op h fn d (.r x) b z0))
    (hfn : (shape (.eng .va) (BitVec.ofNat 8 op) fn.toNat (imm8Of [.r x, b, z0]).toNat).fns.contains fn.toNat = true)
    (hd : match (shape (.eng .va) (BitVec.ofNat 8 op) fn.toNat (imm8Of [.r x, b, z0]).toNat).dst with | some m => d.toNat ≤ m | none => d = 0)
    (hsh : (shape (.eng .va) (BitVec.ofNat 8 op) fn.toNat (imm8Of [.r x, b, z0]).toNat).a = .reg 63
      ∧ (shape (.eng .va) (BitVec.ofNat 8 op) fn.toNat (imm8Of [.r x, b, z0]).toNat).b = .sc
      ∧ (shape (.eng .va) (BitVec.ofNat 8 op) fn.toNat (imm8Of [.r x, b, z0]).toNat).c = .un) : DecodesBack u i := by
  simp only [Bool.and_eq_true, onE_iff] at hw
  obtain ⟨⟨rfl, hh⟩, hb'⟩ := hw
  obtain ⟨sa, sb, sc⟩ := hsh
  exact decodesBack_enc3 (ctlFits_of_headOk hh) hf hb (sa ▸ fits_reg (toNat_le_63 x)) (sb ▸ fits_sc hb') (sc ▸ fits_un) (oneWide_b b x 0) hfn hd (fun _ => rfl)

theorem decodesBack_vfma {f : FOp} (hw : (onE .va u h && a.any h && b.any h && c.any h && oneWide [a, b, c] && fit h c.isZero) = true) :
    DecodesBack u (.vfma h f d a b c) := by
  simp only [Bool.and_eq_true, onE_iff, fit_iff] at hw
  obtain ⟨⟨⟨⟨⟨⟨rfl, hh⟩, ha⟩, hb⟩, hc⟩, ho⟩, hz⟩ := hw
  exact decodesBack_enc3 (ctlFits_of_headOk hh) rfl ⟨rfl, rfl, rfl, rfl, _, rfl, by clear * -; intros; simp_all [enc3_eq]⟩ (fits_any ha) (fits_any hb) (fits_any hc) ho (contains_fnModes f) (toNat_le_63 d)
    fun hl => Src.field_of_isZero (hz hl)

theorem decodesBack_vfms {f : FOp} (hw : (onE .va u h && a.any h && b.any h && c.any h && oneWide [a, b, c] && fit h c.isZero) = true) :
    DecodesBack u (.vfms h f d a b c) := by
  simp only [Bool.and_eq_true, onE_iff, fit_iff] at hw
  obtain ⟨⟨⟨⟨⟨⟨rfl, hh⟩, ha⟩, hb⟩, hc⟩, ho⟩, hz⟩ := hw
  exact decodesBack_enc3 (ctlFits_of_headOk hh) rfl ⟨rfl, rfl, rfl, rfl, _, rfl, by clear * -; intros; simp_all [enc3_eq]⟩ (fits_any ha) (fits_any hb) (fits_any hc) ho (contains_fnModes f) (toNat_le_63 d)
    fun hl => Src.field_of_isZero (hz hl)

theorem decodesBack_vsel {w16 : Bool} {m : BitVec 3} (hw : (onE .va u h && a.any h && b.any h && oneWide [a, b] && fit h (m == 0)) = true) :
    DecodesBack u (.vsel h w16 d a b m) := by
  simp only [Bool.and_eq_true, onE_iff, fit_iff] at hw
  obtain ⟨⟨⟨⟨⟨rfl, hh⟩, ha⟩, hb⟩, ho⟩, hm⟩ := hw
  exact decodesBack_enc3 (ctlFits_of_headOk hh) rfl ⟨rfl, rfl, rfl, rfl, _, rfl, by clear * -; intros; simp_all [enc3_eq]⟩ (fits_any ha) (fits_any hb) (fits_reg (r6_le m)) ((oneWide_ab a b _).trans ho)
    (by cases w16 <;> rfl) (toNat_le_63 d) fun hl => by simp_all [r6]

/-- The four operands that VCVT packs into LIT (R374). -/
theorem vcvt_fields (src dst : BitVec 8) (part : BitVec 2) (sat : Bool) : let l : BitVec 32 := (0 : BitVec 13) ++ BitVec.ofBool sat ++ part ++ dst ++ src
    l.extractLsb' 0 8 = src ∧ l.extractLsb' 8 8 = dst ∧ l.extractLsb' 16 2 = part ∧ l.getLsbD 18 = sat ∧ l.extractLsb' 19 13 = 0 := by
  refine ⟨?_, ?_, ?_, ?_, ?_⟩
  · ext i hi; simp; grind
  · ext i hi; simp; grind
  · ext i hi; simp; grind
  · rw [BitVec.getLsbD_append, BitVec.getLsbD_append, BitVec.getLsbD_append, BitVec.getLsbD_append]
    cases sat <;> rfl
  · ext i hi; simp; grind

theorem decodesBack_vcvt {md : RMode} {src dst : BitVec 8} {part : BitVec 2} {sat : Bool} (hw : (onE .va u h && h.len == .w3) = true) :
    DecodesBack u (.vcvt h md d x src dst part sat) := by
  simp only [Bool.and_eq_true, onE_iff, beq_iff_eq] at hw
  obtain ⟨⟨rfl, hh⟩, hl⟩ := hw
  obtain ⟨h0, h8, h16, h18, h19⟩ := vcvt_fields src dst part sat
  refine decodesBack_entry (op := 0xAB) (im := 0) (a := .r x) (b := z0) (c := z0)
    (lt := (0 : BitVec 13) ++ BitVec.ofBool sat ++ part ++ dst ++ src) (ctlFits_of_headOk hh) rfl
    ⟨(congrArg (· != 0) h19).trans rfl, rfl, (congrArg (· != Len.w3) hl).trans rfl, rfl, ⟨_, rfl, fun hk ha hb hc => ?_⟩⟩
    (fits_reg (toNat_le_63 x)) fits_un fits_un rfl ⟨.inl rfl, .inr ⟨rfl, fun h => absurd hl h, rfl⟩⟩ (by cases md <;> rfl) (toNat_le_63 d) (fun _ => rfl)
  simp only [entryFields_len, entryFields_xctl, entryFields_lit, entryFields_dst, entryFields_a, entryFields_fn, field_r, hk, h0, h8, h16, h18,
    RMode.ofCode_fnOf]

theorem decodesBack_vsfu {f : FOp} {k : SfuFn} (hw : (onE .va u h && a.any h) = true) : DecodesBack u (.vsfu h f k d a) :=
  decodesBack_any1 hw rfl ⟨rfl, rfl, by cases k <;> rfl, rfl, _, rfl, by clear * -; intros; simp_all [enc3_eq]⟩ (contains_fnModes f) (toNat_le_63 d) (fits_ctl _) ⟨rfl, rfl⟩

end
end Sys2Proof

/-! # Encodings of reductions, scans and sorts (row 0xB_) -/

namespace Sys2Proof

/- Declarations are checked one after another: side by side they would hold a thread each. -/
set_option Elab.async false

section
variable {u : UnitId} {i : Instr} {op : Nat} {h : Head} {fn : BitVec 4} {d x y z : BitVec 6} {a b c : Src} {e : Eid}

/-- An entry of VA whose registers fit its slots, and which fills IMM8 itself (Table 12-6). -/
theorem decodesBack_vaImm {im : BitVec 8} (hw : (onE .va u h && fit h (im == 0)) = true)
    (hf : toFields i = some (entryFields op h fn d (.r x) (.r y) z0 im 0))
    (hb : BuildsBack (.eng .va) i h (.r x) (.r y) z0 (entryFields op h fn d (.r x) (.r y) z0 im 0))
    (fb : Fits h (shape (.eng .va) (BitVec.ofNat 8 op) fn.toNat im.toNat).b (.r y))
    (hfn : (shape (.eng .va) (BitVec.ofNat 8 op) fn.toNat im.toNat).fns.contains fn.toNat = true)
    (hsh : (shape (.eng .va) (BitVec.ofNat 8 op) fn.toNat im.toNat).a = .reg 63 ∧ (shape (.eng .va) (BitVec.ofNat 8 op) fn.toNat im.toNat).c = .un
      ∧ (shape (.eng .va) (BitVec.ofNat 8 op) fn.toNat im.toNat).imm = true
      ∧ (shape (.eng .va) (BitVec.ofNat 8 op) fn.toNat im.toNat).dst = some 63) : DecodesBack u i := by
  simp only [Bool.and_eq_true, onE_iff, fit_iff, beq_iff_eq] at hw
  obtain ⟨⟨rfl, hh⟩, hl⟩ := hw
  obtain ⟨sa, sc, si, sd⟩ := hsh
  exact decodesBack_entry (ctlFits_of_headOk hh) hf hb (sa ▸ fits_reg (toNat_le_63 x)) fb (sc ▸ fits_un) rfl ⟨.inr ⟨si, hl, rfl⟩, .inl rfl⟩ hfn
    (sd ▸ toNat_le_63 d) (fun _ => rfl)

/-- IMM8 of a reduction or a scan, by its operator and direction (Table 12-6). -/
def redImm (o : RedOp) (dir : Dir) : BitVec 8 := BitVec.ofNat 8 (o.code + 4 * dir.code)

theorem redImm_fields (o : RedOp) (dir : Dir) : (redImm o dir).extractLsb' 0 2 = BitVec.ofNat 2 o.code
    ∧ ((redImm o dir).extractLsb' 0 2).toNat = o.code ∧ ((redImm o dir).extractLsb' 2 2).toNat = dir.code
    ∧ (redImm o dir).extractLsb' 4 4 = 0 ∧ (redImm o dir).toNat % 4 = o.code := by
  cases o <;> cases dir <;> decide

theorem FOp.fn_mode (f : FOp) : f.fn.extractLsb' 0 3 = BitVec.ofNat 3 f.mode.code := by
  obtain ⟨bf, md⟩ := f; cases bf <;> cases md <;> decide

theorem RedOp.ofCode_code (o : RedOp) : RedOp.ofCode o.code = o := by cases o <;> rfl
theorem Dir.ofCode_code (o : Dir) : Dir.ofCode o.code = o := by cases o <;> rfl

/-- A maximum or minimum takes no rounding mode (code 7). -/
theorem red_ok7 {f : FOp} {o : RedOp} (hm : (f.mode == .rne || o == .sum || o == .maxsum) = true) :
    ((BitVec.ofNat 2 o.code == 1 || BitVec.ofNat 2 o.code == 2) && f.fn.extractLsb' 0 3 != 0) = false := by
  rw [FOp.fn_mode]
  revert hm
  cases o <;> cases f.mode <;> decide

theorem redImm_zero {o : RedOp} {dir : Dir} (hl : fit h (o == .sum && dir == .row) = true) : fit h (redImm o dir == 0) = true := by
  rw [fit_iff] at hl ⊢
  intro h1
  have := hl h1
  revert this
  cases o <;> cases dir <;> decide

theorem decodesBack_vred {f : FOp} {o : RedOp} {dir : Dir}
    (hw : (onE .va u h && fit h (o == .sum && dir == .row) && (o == .maxsum || y == 0) && (o != .maxsum || pairOk d)
      && (f.mode == .rne || o == .sum || o == .maxsum)) = true) : DecodesBack u (.vred h f o dir d x y) := by
  simp only [Bool.and_eq_true] at hw
  obtain ⟨⟨⟨⟨hu, hl⟩, hy⟩, hd⟩, hm⟩ := hw
  obtain ⟨i2, i0, i1, i4, im⟩ := redImm_fields o dir
  refine decodesBack_vaImm (op := 0xB0) (im := redImm o dir) (by rw [hu, redImm_zero hl]; rfl) rfl
    ⟨rfl, ?_, ?_, rfl, ⟨_, rfl, fun hk ha hb hc => ?_⟩⟩ ?_ (contains_fnModes f) ⟨rfl, rfl, rfl, rfl⟩
  · show (((redImm o dir).extractLsb' 0 2 == 1 || (redImm o dir).extractLsb' 0 2 == 2) && f.fn.extractLsb' 0 3 != 0) = false
    rw [i2]
    exact red_ok7 hm
  · show ((redImm o dir).extractLsb' 4 4 != 0 || decide (((redImm o dir).extractLsb' 2 2).toNat = 3)
      || (decide (((redImm o dir).extractLsb' 0 2).toNat = 3) && !pairOk d)) = false
    rw [i0, i1, i4]
    revert hd
    cases o <;> cases dir <;> simp [RedOp.code, Dir.code]
  · simp only [entryFields_len, entryFields_xctl, entryFields_imm8, entryFields_dst, entryFields_a, entryFields_b, entryFields_fn, field_r, hk,
      i0, i1, FOp.ofFn_fn, RedOp.ofCode_code, Dir.ofCode_code]
  · show Fits h (if (redImm o dir).toNat % 4 = 3 then .reg 63 else .un) (.r y)
    rw [im]
    cases o with
    | maxsum => exact fits_reg (toNat_le_63 y)
    | _ => obtain rfl : y = 0 := by simpa using hy
           exact fits_un

theorem decodesBack_vscan {f : FOp} {o : RedOp} {dir : Dir}
    (hw : (onE .va u h && fit h (o == .sum && dir == .row) && o != .maxsum && (f.mode == .rne || o == .sum)) = true) :
    DecodesBack u (.vscan h f o dir d x) := by
  simp only [Bool.and_eq_true] at hw
  obtain ⟨⟨⟨hu, hl⟩, ho⟩, hm⟩ := hw
  obtain ⟨i2, i0, i1, i4, im⟩ := redImm_fields o dir
  refine decodesBack_vaImm (op := 0xB1) (im := redImm o dir) (by rw [hu, redImm_zero hl]; rfl) rfl
    ⟨rfl, ?_, ?_, rfl, ⟨_, rfl, fun hk ha hb hc => ?_⟩⟩ fits_un (contains_fnModes f) ⟨rfl, rfl, rfl, rfl⟩
  · show (((redImm o dir).extractLsb' 0 2 == 1 || (redImm o dir).extractLsb' 0 2 == 2) && f.fn.extractLsb' 0 3 != 0) = false
    rw [i2]
    exact red_ok7 (by rw [hm]; rfl)
  · show ((redImm o dir).extractLsb' 4 4 != 0 || decide (((redImm o dir).extractLsb' 2 2).toNat = 3)
      || decide (((redImm o dir).extractLsb' 0 2).toNat = 3)) = false
    rw [i0, i1, i4]
    revert ho
    cases o <;> cases dir <;> simp [RedOp.code, Dir.code]
  · simp only [entryFields_len, entryFields_xctl, entryFields_imm8, entryFields_dst, entryFields_a, entryFields_fn, field_r, hk,
      i0, i1, FOp.ofFn_fn, RedOp.ofCode_code, Dir.ofCode_code]

/-- IMM8 of VSORT, VSEGR and VPERM: the flag in bit 3 over two low bits (Table 12-6). -/
def allImm (all : Bool) (n : BitVec 2) : BitVec 8 := (0 : BitVec 4) ++ BitVec.ofBool all ++ (0 : BitVec 1) ++ n

theorem allImm_fields : ∀ (all : Bool) (n : BitVec 2), (allImm all n).extractLsb' 0 2 = n
    ∧ ((allImm all n).extractLsb' 2 2).toNat = (if all then 2 else 0) ∧ (allImm all n).extractLsb' 4 4 = 0 ∧ (allImm all n).getLsbD 3 = all
    ∧ (allImm all n).getLsbD 0 = n.getLsbD 0 ∧ ((!all && n == 0) = true → (allImm all n == 0) = true) := by
  decide

theorem fit_allImm {all : Bool} {n : BitVec 2} (hl : fit h (!all && n == 0) = true) : fit h (allImm all n == 0) = true :=
  fit_iff.2 fun h1 => (allImm_fields all n).2.2.2.2.2 (fit_iff.1 hl h1)

/-- IMM8 names a direction that VSORT, VSEGR and VPERM do not have (code 8). -/
def badDir (im : BitVec 8) : Bool :=
  im.extractLsb' 4 4 != 0 || decide ((im.extractLsb' 2 2).toNat = 1) || decide ((im.extractLsb' 2 2).toNat = 3)

theorem badDir_allImm : ∀ (all : Bool) (n : BitVec 2), badDir (allImm all n) = false := by decide

theorem decodesBack_vsort {k : KeyOrd} {desc all : Bool} (hw : (onE .va u h && fit h (!desc && !all) && pairOk d) = true) :
    DecodesBack u (.vsort h k desc all d x y) := by
  simp only [Bool.and_eq_true] at hw
  obtain ⟨⟨hu, hl⟩, hd⟩ := hw
  have him : (0 : BitVec 4) ++ BitVec.ofBool all ++ (0 : BitVec 2) ++ BitVec.ofBool desc = allImm all ((BitVec.ofBool desc).setWidth 2) := by
    cases all <;> cases desc <;> rfl
  obtain ⟨i0, -, -, i3, ib, -⟩ := allImm_fields all ((BitVec.ofBool desc).setWidth 2)
  refine decodesBack_vaImm (op := 0xB2) (im := allImm all ((BitVec.ofBool desc).setWidth 2)) ?_ (by rw [← him]; rfl)
    ⟨rfl, rfl, ?_, rfl, ⟨_, rfl, fun hk ha hb hc => ?_⟩⟩ (fits_reg (toNat_le_63 y)) (by cases k <;> rfl) ⟨rfl, rfl, rfl, rfl⟩
  · rw [hu, fit_allImm (by revert hl; cases all <;> cases desc <;> exact id)]; rfl
  · show (badDir (allImm all ((BitVec.ofBool desc).setWidth 2)) || decide (2 ≤ ((allImm all ((BitVec.ofBool desc).setWidth 2)).extractLsb' 0 2).toNat) || !pairOk d) = false
    rw [badDir_allImm, i0, hd]
    cases desc <;> rfl
  · simp only [entryFields_len, entryFields_xctl, entryFields_imm8, entryFields_dst, entryFields_a, entryFields_b, entryFields_fn, field_r, hk,
      i3, ib, KeyOrd.ofCode_fnOf]
    cases desc <;> rfl

theorem SegOp.ofCode_code (o : SegOp) : SegOp.ofCode (BitVec.ofNat 2 o.code).toNat = o := by cases o <;> rfl

theorem decodesBack_vsegr {md : RMode} {o : SegOp} {all : Bool} (hw : (onE .va u h && fit h (o == .sumf && !all) && pairOk d) = true) :
    DecodesBack u (.vsegr h md o all d x y) := by
  simp only [Bool.and_eq_true] at hw
  obtain ⟨⟨hu, hl⟩, hd⟩ := hw
  obtain ⟨i0, -, -, i3, -, -⟩ := allImm_fields all (BitVec.ofNat 2 o.code)
  refine decodesBack_vaImm (op := 0xB3) (im := allImm all (BitVec.ofNat 2 o.code)) ?_ rfl
    ⟨rfl, rfl, ?_, rfl, ⟨_, rfl, fun hk ha hb hc => ?_⟩⟩ (fits_reg (toNat_le_63 y)) (by cases md <;> rfl) ⟨rfl, rfl, rfl, rfl⟩
  · rw [hu, fit_allImm (by revert hl; cases all <;> cases o <;> exact id)]; rfl
  · show (badDir (allImm all (BitVec.ofNat 2 o.code)) || decide (((allImm all (BitVec.ofNat 2 o.code)).extractLsb' 0 2).toNat = 3) || !pairOk d) = false
    rw [badDir_allImm, i0, hd]
    cases o <;> rfl
  · simp only [entryFields_len, entryFields_xctl, entryFields_imm8, entryFields_dst, entryFields_a, entryFields_b, entryFields_fn, field_r, hk,
      i0, i3, RMode.ofCode_fnOf, SegOp.ofCode_code]

theorem decodesBack_vperm {all : Bool} (hw : (onE .va u h && fit h (!all)) = true) : DecodesBack u (.vperm h all d x y) := by
  simp only [Bool.and_eq_true] at hw
  obtain ⟨hu, hl⟩ := hw
  have him : (0 : BitVec 4) ++ BitVec.ofBool all ++ (0 : BitVec 3) = allImm all 0 := by cases all <;> rfl
  obtain ⟨i0, -, -, i3, -, -⟩ := allImm_fields all 0
  refine decodesBack_vaImm (op := 0xB4) (im := allImm all 0) ?_ (by rw [← him]; rfl)
    ⟨rfl, rfl, ?_, rfl, ⟨_, rfl, fun hk ha hb hc => ?_⟩⟩ (fits_reg (toNat_le_63 y)) rfl ⟨rfl, rfl, rfl, rfl⟩
  · rw [hu, fit_allImm (by revert hl; cases all <;> exact id)]; rfl
  · show (badDir (allImm all 0) || decide (((allImm all 0).extractLsb' 0 2).toNat ≠ 0)) = false
    rw [badDir_allImm, i0]
    rfl
  · simp only [entryFields_len, entryFields_xctl, entryFields_imm8, entryFields_dst, entryFields_a, entryFields_b, field_r, hk, i3]

end
end Sys2Proof

/-! # Encodings of vector integers, formats and tiles (rows 0xC_, 0xD_) -/

namespace Sys2Proof

@[simp] theorem ProgK.ofCode_fnOf (c : ProgK) : ProgK.ofCode (fnOf c.code).toNat = c := by cases c <;> rfl
@[simp] theorem TMode.ofCode_fnOf (c : TMode) : TMode.ofCode (fnOf c.code).toNat = c := by cases c <;> rfl

/-- FN of VIADD and VISUB (R381). -/
theorem iadd_fn (sat : Bool) (w : IWid) : let f : BitVec 4 := (0 : BitVec 1) ++ BitVec.ofBool sat ++ BitVec.ofNat 2 w.code
    IWid.ofCode (f.extractLsb' 0 2).toNat = w ∧ f.getLsbD 2 = sat := by
  cases sat <;> cases w <;> decide

theorem vish_fn (f : ShF) (w : IWid) : let x : BitVec 4 := BitVec.ofNat 2 w.code ++ BitVec.ofNat 2 f.code
    ShF.ofCode (x.extractLsb' 0 2).toNat = f ∧ IWid.ofCode (x.extractLsb' 2 2).toNat = w := by
  cases f <;> cases w <;> decide

theorem ackr_fn : ∀ (f : Bool) (ln : BitVec 2), let x : BitVec 4 := (0 : BitVec 1) ++ ln ++ BitVec.ofBool f
    x.getLsbD 0 = f ∧ x.extractLsb' 1 2 = ln ∧ x.toNat < 8 := by decide

section
variable {u : UnitId} {i : Instr} {op : Nat} {h : Head} {fn : BitVec 4} {d x y z : BitVec 6} {a b c : Src} {e : Eid}

theorem decodesBack_viadd {w : IWid} {sat : Bool} (hw : (onE .va u h && a.any h && b.any h && oneWide [a, b]) = true) :
    DecodesBack u (.viadd h w sat d a b) := by
  obtain ⟨hw', hs⟩ := iadd_fn sat w
  refine decodesBack_any2 hw rfl ⟨rfl, rfl, rfl, rfl, ⟨_, rfl, fun hk ha hb hc => ?_⟩⟩ (by cases sat <;> cases w <;> rfl) (toNat_le_63 d) ⟨rfl, rfl, rfl⟩
  simp only [enc3_eq, entryFields_len, entryFields_xctl, entryFields_dst, entryFields_a, entryFields_ka, entryFields_b, entryFields_kb,
    entryFields_fn, hk, hs, hw'] at *
  rw [ha, hb]

theorem decodesBack_visub {w : IWid} {sat : Bool} (hw : (onE .va u h && a.any h && b.any h && oneWide [a, b]) = true) :
    DecodesBack u (.visub h w sat d a b) := by
  obtain ⟨hw', hs⟩ := iadd_fn sat w
  refine decodesBack_any2 hw rfl ⟨rfl, rfl, rfl, rfl, ⟨_, rfl, fun hk ha hb hc => ?_⟩⟩ (by cases sat <;> cases w <;> rfl) (toNat_le_63 d) ⟨rfl, rfl, rfl⟩
  simp only [enc3_eq, entryFields_len, entryFields_xctl, entryFields_dst, entryFields_a, entryFields_ka, entryFields_b, entryFields_kb,
    entryFields_fn, hk, hs, hw'] at *
  rw [ha, hb]

theorem decodesBack_vish {f : ShF} {w : IWid} (hw : (onE .va u h && a.any h && b.any h && oneWide [a, b]) = true) :
    DecodesBack u (.vish h f w d a b) := by
  obtain ⟨hf, hw'⟩ := vish_fn f w
  refine decodesBack_any2 hw rfl ⟨rfl, rfl, rfl, rfl, ⟨_, rfl, fun hk ha hb hc => ?_⟩⟩ (by cases f <;> cases w <;> rfl) (toNat_le_63 d) ⟨rfl, rfl, rfl⟩
  simp only [enc3_eq, entryFields_len, entryFields_xctl, entryFields_dst, entryFields_a, entryFields_ka, entryFields_b, entryFields_kb,
    entryFields_fn, hk, hf, hw'] at *
  rw [ha, hb]

/-- A control of VA without a gate (R382). -/
theorem gate_of_head {n : BitVec 4} (hg : (match h.ctl with | .va _ g _ _ _ => g == n | _ => false) = true) : h.ctl.bits.extractLsb' 7 4 = n := by
  cases hc : h.ctl with
  | va fz g sq gi ta => rw [hc] at hg; rw [(bits_va fz g sq gi ta).2.1]; exact eq_of_beq hg
  | _ => rw [hc] at hg; cases hg

theorem decodesBack_vmask {f : VMaskF} (hw : (onE .va u h && noGate h && (match f with | .first _ a => a.sc h | _ => true)) = true) :
    DecodesBack u (.vmask h f) := by
  simp only [Bool.and_eq_true, onE_iff] at hw
  obtain ⟨⟨⟨rfl, hh⟩, hg⟩, hf⟩ := hw
  have h4 : (h.ctl.bits.extractLsb' 7 4 != 0) = false := by rw [gate_of_head hg]; rfl
  cases f with
  | logic f d a b =>
    cases f <;> exact decodesBack_regs hh rfl ⟨h4, rfl, rfl, rfl, _, rfl, by clear * -; intros; simp_all [enc3_eq]⟩ (fits_reg (r6_le a)) (fits_reg (r6_le b)) fits_un rfl (r6_le d) (fun _ => rfl)
  | not d a => exact decodesBack_regs hh rfl ⟨h4, rfl, rfl, rfl, _, rfl, by clear * -; intros; simp_all [enc3_eq]⟩ (fits_reg (r6_le a)) fits_un fits_un rfl (r6_le d) (fun _ => rfl)
  | first d a => exact decodesBack_enc3 (ctlFits_of_headOk hh) rfl ⟨h4, rfl, rfl, rfl, _, rfl, by clear * -; intros; simp_all [enc3_eq]⟩ (fits_sc hf) fits_un fits_un (oneWide_a ..) rfl (r6_le d) (fun _ => rfl)
  | fromv d a => exact decodesBack_regs hh rfl ⟨h4, rfl, rfl, rfl, _, rfl, by clear * -; intros; simp_all [enc3_eq]⟩ (fits_reg (toNat_le_63 a)) fits_un fits_un rfl (r6_le d) (fun _ => rfl)
  | tov d a => exact decodesBack_regs hh rfl ⟨h4, rfl, rfl, rfl, _, rfl, by clear * -; intros; simp_all [enc3_eq]⟩ (fits_reg (r6_le a)) fits_un fits_un rfl (toNat_le_63 d) (fun _ => rfl)

/-- FZ and GATE of a control without a gate are zero. -/
theorem vaDefault_fz_gate : ∀ gi ta : BitVec 3, (Ctl.va false 0 false gi ta).bits.extractLsb' 6 6 = 0 := by
  decide

/-- A gate that is m0 or a stage predicate passes the decoder's check of bit 3. -/
theorem stageGate_bit : ∀ g : BitVec 4, (g == 0 || decide (8 ≤ g.toNat)) = true → (g.getLsbD 3 == false && g != 0) = false := by
  decide

theorem decodesBack_vloopp {st : BitVec 3} {bl : BitVec 12}
    (hw : (onE .va u h && plainVa h && bl != 0 && a.sc h && (match a with | .cb _ => false | _ => true)) = true) : DecodesBack u (.vloopp h st a bl) := by
  simp only [Bool.and_eq_true, onE_iff, bne_iff_ne] at hw
  obtain ⟨⟨⟨⟨⟨rfl, hh⟩, hp⟩, hbl⟩, ha⟩, hcb⟩ := hw
  have h4 : (h.ctl.bits.extractLsb' 6 6 != 0) = false := by
    unfold plainVa at hp
    split at hp
    · next fz g sq gi ta hc =>
      simp only [Bool.and_eq_true, Bool.not_eq_true', beq_iff_eq] at hp
      obtain ⟨⟨rfl, rfl⟩, rfl⟩ := hp
      rw [hc, vaDefault_fz_gate gi ta]
      rfl
    · cases hp
  have h8 : (bl.extractLsb' 0 6 == 0 && bl.extractLsb' 6 6 == 0) = false := by
    rw [Bool.and_eq_false_iff]
    by_contra hn
    simp only [not_or, Bool.not_eq_false, beq_iff_eq] at hn
    exact hbl (by rw [← append_extract_12 bl, hn.1, hn.2]; rfl)
  have fa : Fits h (.src none true false true) a := by
    simp only [Src.sc, Bool.and_eq_true] at ha
    exact fits_src ha.1 (by cases a <;> simp at ha hcb ⊢)
  exact decodesBack_enc3 (ctlFits_of_headOk hh) rfl ⟨h4, rfl, h8, rfl, _, rfl, by clear * -; intros; simp_all [enc3_eq]⟩ fa (fits_ctl _) fits_un (oneWide_a ..) (contains_range (by simp; omega))
    (toNat_le_63 _) (fun _ => rfl)

/-- The gate of a training-format instruction is m0 or a stage predicate (R384 to R386). -/
theorem spGate_ok (hg : spGate h = true) : (h.ctl.bits.getLsbD 10 == false && h.ctl.bits.extractLsb' 7 4 != 0) = false := by
  unfold spGate at hg
  split at hg
  · next fz g sq gi ta hc =>
    obtain ⟨-, h7, -⟩ := bits_va fz g sq gi ta
    have h10 : (Ctl.va fz g sq gi ta).bits.getLsbD 10 = g.getLsbD 3 := by
      have := congrArg (·.getLsbD 3) h7
      simpa using this
    rw [hc, h7, h10]
    exact stageGate_bit g hg
  · cases hg

theorem decodesBack_vbexp {bf : Bool} (hw : (onE .va u h && spGate h) = true) : DecodesBack u (.vbexp h bf d x) := by
  simp only [Bool.and_eq_true, onE_iff] at hw
  obtain ⟨⟨rfl, hh⟩, hg⟩ := hw
  exact decodesBack_regs hh rfl ⟨rfl, rfl, spGate_ok hg, rfl, _, rfl, by clear * -; intros; simp_all [enc3_eq]⟩ (fits_reg (toNat_le_63 x)) fits_un fits_un (by cases bf <;> rfl) (toNat_le_63 d) (fun _ => rfl)

theorem decodesBack_vqnt (hw : (onE .va u h && spGate h) = true) : DecodesBack u (.vqnt h d x y) := by
  simp only [Bool.and_eq_true, onE_iff] at hw
  obtain ⟨⟨rfl, hh⟩, hg⟩ := hw
  exact decodesBack_regs hh rfl ⟨rfl, rfl, spGate_ok hg, rfl, _, rfl, by clear * -; intros; simp_all [enc3_eq]⟩ (fits_reg (toNat_le_63 x)) (fits_reg (toNat_le_63 y)) fits_un rfl (toNat_le_63 d) (fun _ => rfl)

theorem decodesBack_vdqnt {md : RMode} (hw : (onE .va u h && spGate h) = true) : DecodesBack u (.vdqnt h md d x y) := by
  simp only [Bool.and_eq_true, onE_iff] at hw
  obtain ⟨⟨rfl, hh⟩, hg⟩ := hw
  exact decodesBack_regs hh rfl ⟨rfl, rfl, spGate_ok hg, rfl, _, rfl, by clear * -; intros; simp_all [enc3_eq]⟩ (fits_reg (toNat_le_63 x)) (fits_reg (toNat_le_63 y)) fits_un (by cases md <;> rfl) (toNat_le_63 d) (fun _ => rfl)

theorem decodesBack_vmov (hw : onE .va u h = true) : DecodesBack u (.vmov h d x) := by
  obtain ⟨rfl, hh⟩ := onE_iff.1 hw
  exact decodesBack_regs hh rfl ⟨rfl, rfl, rfl, rfl, _, rfl, by clear * -; intros; simp_all [enc3_eq]⟩ (fits_reg (toNat_le_63 x)) fits_un fits_un rfl (toNat_le_63 d) (fun _ => rfl)

theorem decodesBack_vmovX (hw : (onE .va u h && xOk d && b.sc h) = true) : DecodesBack u (.vmovX h d x b) := by
  simp only [Bool.and_eq_true] at hw
  obtain ⟨⟨hu, hd⟩, hb⟩ := hw
  exact decodesBack_scb (by rw [hu, hb]; rfl) rfl ⟨rfl, rfl, rfl, rfl, _, rfl, by clear * -; intros; simp_all [enc3_eq]⟩ rfl (xOk_le hd) ⟨rfl, rfl, rfl⟩

/-! ### The array engine (row 0xD_) -/

theorem fits_tile {lit : Bool} (hs : a.x8c (.eng .ax) h = true) : Fits h (.src (some 21) false true lit) a := fits_x8c (u := .eng .ax) hs

/-- An entry of AX whose field a names a tile, with registers in b and c (R400). -/
theorem decodesBack_tile (hh : headOk (.eng .ax) h = true) (ha : a.x8c (.eng .ax) h = true)
    (hf : toFields i = some (enc3 op h fn d a (.r x) (.r y))) (hb : BuildsBack (.eng .ax) i h a (.r x) (.r y) (enc3 op h fn d a (.r x) (.r y)))
    (fb : Fits h (shape (.eng .ax) (BitVec.ofNat 8 op) fn.toNat (imm8Of [a, .r x, .r y]).toNat).b (.r x))
    (fc : Fits h (shape (.eng .ax) (BitVec.ofNat 8 op) fn.toNat (imm8Of [a, .r x, .r y]).toNat).c (.r y))
    (hfn : (shape (.eng .ax) (BitVec.ofNat 8 op) fn.toNat (imm8Of [a, .r x, .r y]).toNat).fns.contains fn.toNat = true)
    (hd : match (shape (.eng .ax) (BitVec.ofNat 8 op) fn.toNat (imm8Of [a, .r x, .r y]).toNat).dst with | some m => d.toNat ≤ m | none => d = 0)
    (hl : h.len = .w1 → y = 0)
    (hsh : (shape (.eng .ax) (BitVec.ofNat 8 op) fn.toNat (imm8Of [a, .r x, .r y]).toNat).a = .src (some 21) false true false) :
    DecodesBack (.eng .ax) i :=
  decodesBack_enc3 (ctlFits_of_headOk hh) hf hb (hsh ▸ fits_tile ha) fb fc (oneWide_a a x y) hfn hd hl

theorem decodesBack_afwd {f sc : Bool} (hw : (onE .ax u h && xOk d && a.x8c u h && xOk x && xOk y && fit h (y == 0)) = true) :
    DecodesBack u (.afwd h f sc d a x y) := by
  simp only [Bool.and_eq_true, onE_iff, fit_iff, beq_iff_eq] at hw
  obtain ⟨⟨⟨⟨⟨⟨rfl, hh⟩, hd⟩, ha⟩, hx⟩, hy⟩, hl⟩ := hw
  exact decodesBack_tile hh ha rfl ⟨rfl, rfl, rfl, rfl, _, rfl, by clear * -; intros; simp_all [enc3_eq]⟩ (fits_reg (xOk_le hx)) (fits_reg (xOk_le hy)) (by cases f <;> cases sc <;> rfl) (xOk_le hd) hl rfl

theorem decodesBack_abwd {f sc : Bool} (hw : (onE .ax u h && xOk d && a.x8c u h && xOk x && xOk y && fit h (y == 0)) = true) :
    DecodesBack u (.abwd h f sc d a x y) := by
  simp only [Bool.and_eq_true, onE_iff, fit_iff, beq_iff_eq] at hw
  obtain ⟨⟨⟨⟨⟨⟨rfl, hh⟩, hd⟩, ha⟩, hx⟩, hy⟩, hl⟩ := hw
  exact decodesBack_tile hh ha rfl ⟨rfl, rfl, rfl, rfl, _, rfl, by clear * -; intros; simp_all [enc3_eq]⟩ (fits_reg (xOk_le hx)) (fits_reg (xOk_le hy)) (by cases f <;> cases sc <;> rfl) (xOk_le hd) hl rfl

theorem decodesBack_aupd (hw : (onE .ax u h && xOk d && a.x8c u h && xOk x && xOk y && fit h (y == 0)) = true) : DecodesBack u (.aupd h d a x y) := by
  simp only [Bool.and_eq_true, onE_iff, fit_iff, beq_iff_eq] at hw
  obtain ⟨⟨⟨⟨⟨⟨rfl, hh⟩, hd⟩, ha⟩, hx⟩, hy⟩, hl⟩ := hw
  exact decodesBack_tile hh ha rfl ⟨rfl, rfl, rfl, rfl, _, rfl, by clear * -; intros; simp_all [enc3_eq]⟩ (fits_reg (xOk_le hx)) (fits_reg (xOk_le hy)) rfl (xOk_le hd) hl rfl

theorem decodesBack_axfer (hw : (onE .ax u h && xOk d && a.x8c u h) = true) : DecodesBack u (.axfer h d a) := by
  simp only [Bool.and_eq_true, onE_iff] at hw
  obtain ⟨⟨⟨rfl, hh⟩, hd⟩, ha⟩ := hw
  exact decodesBack_tile hh ha rfl ⟨rfl, rfl, rfl, rfl, _, rfl, by clear * -; intros; simp_all [enc3_eq]⟩ fits_un fits_un rfl (xOk_le hd) (fun _ => rfl) rfl

theorem decodesBack_ackr {f : Bool} {ln : BitVec 2} (hw : (onE .ax u h && a.x8c u h && xOk x) = true) : DecodesBack u (.ackr h f ln a x) := by
  simp only [Bool.and_eq_true, onE_iff] at hw
  obtain ⟨⟨⟨rfl, hh⟩, ha⟩, hx⟩ := hw
  obtain ⟨h0, h1, h8⟩ := ackr_fn f ln
  refine decodesBack_tile hh ha rfl ⟨rfl, rfl, rfl, rfl, ⟨_, rfl, fun hk ha hb hc => ?_⟩⟩ (fits_reg (xOk_le hx)) fits_un (contains_range h8) rfl (fun _ => rfl) rfl
  simp only [enc3_eq, entryFields_len, entryFields_xctl, entryFields_a, entryFields_ka, entryFields_b, entryFields_fn, field_r, hk, h0, h1] at *
  rw [ha]

theorem decodesBack_aprog {k : ProgK} (hw : (onE .ax u h && xOk d && a.x8c u h && xOk x && xOk y && fit h (y == 0) && (k != .fsym || x == 0)) = true) :
    DecodesBack u (.aprog h k d a x y) := by
  simp only [Bool.and_eq_true, onE_iff, fit_iff, beq_iff_eq] at hw
  obtain ⟨⟨⟨⟨⟨⟨⟨rfl, hh⟩, hd⟩, ha⟩, hx⟩, hy⟩, hl⟩, hk⟩ := hw
  cases k with
  | fsym =>
    obtain rfl : x = 0 := by simpa using hk
    exact decodesBack_tile hh ha rfl ⟨rfl, rfl, rfl, rfl, _, rfl, by clear * -; intros; simp_all [enc3_eq]⟩ fits_un (fits_reg (xOk_le hy)) rfl (xOk_le hd) hl rfl
  | _ => exact decodesBack_tile hh ha rfl ⟨rfl, rfl, rfl, rfl, _, rfl, by clear * -; intros; simp_all [enc3_eq]⟩ (fits_reg (xOk_le hx)) (fits_reg (xOk_le hy)) rfl (xOk_le hd) hl rfl

theorem decodesBack_acal (hw : (onE .ax u h && a.x8c u h && b.x8cl u h && oneWide [a, b]) = true) : DecodesBack u (.acal h a b) := by
  simp only [Bool.and_eq_true, onE_iff] at hw
  obtain ⟨⟨⟨⟨rfl, hh⟩, ha⟩, hb⟩, ho⟩ := hw
  exact decodesBack_enc3 (ctlFits_of_headOk hh) rfl ⟨rfl, rfl, rfl, rfl, _, rfl, by clear * -; intros; simp_all [enc3_eq]⟩ (fits_tile ha) (fits_x8cl hb) fits_un ((oneWide_ab ..).trans ho) rfl rfl (fun _ => rfl)

theorem decodesBack_aset {r : BitVec 3} (hw : (onE .ax u h && decide (r.toNat ≤ 5) && a.x8c u h && b.x8cl u h && oneWide [a, b]) = true) :
    DecodesBack u (.aset h r a b) := by
  simp only [Bool.and_eq_true, onE_iff, decide_eq_true_eq] at hw
  obtain ⟨⟨⟨⟨⟨rfl, hh⟩, hr⟩, ha⟩, hb⟩, ho⟩ := hw
  exact decodesBack_enc3 (ctlFits_of_headOk hh) rfl ⟨rfl, rfl, rfl, rfl, _, rfl, by clear * -; intros; simp_all [enc3_eq]⟩ (fits_tile ha) (fits_x8cl hb) fits_un ((oneWide_ab ..).trans ho)
    (contains_range (by simp; omega)) rfl (fun _ => rfl)

theorem decodesBack_asprLd (hw : (onE .ax u h && a.x8c u h && xOk x) = true) : DecodesBack u (.asprLd h a x) := by
  simp only [Bool.and_eq_true, onE_iff] at hw
  obtain ⟨⟨⟨rfl, hh⟩, ha⟩, hx⟩ := hw
  exact decodesBack_tile hh ha rfl ⟨rfl, rfl, rfl, rfl, _, rfl, by clear * -; intros; simp_all [enc3_eq]⟩ (fits_reg (xOk_le hx)) fits_un rfl rfl (fun _ => rfl) rfl

theorem decodesBack_asprSt (hw : (onE .ax u h && a.x8c u h && xOk x) = true) : DecodesBack u (.asprSt h a x) := by
  simp only [Bool.and_eq_true, onE_iff] at hw
  obtain ⟨⟨⟨rfl, hh⟩, ha⟩, hx⟩ := hw
  exact decodesBack_tile hh ha rfl ⟨rfl, rfl, rfl, rfl, _, rfl, by clear * -; intros; simp_all [enc3_eq]⟩ (fits_reg (xOk_le hx)) fits_un rfl rfl (fun _ => rfl) rfl

theorem decodesBack_aref (hw : (onE .ax u h && a.x8c u h && xOk x) = true) : DecodesBack u (.aref h a x) := by
  simp only [Bool.and_eq_true, onE_iff] at hw
  obtain ⟨⟨⟨rfl, hh⟩, ha⟩, hx⟩ := hw
  exact decodesBack_tile hh ha rfl ⟨rfl, rfl, rfl, rfl, _, rfl, by clear * -; intros; simp_all [enc3_eq]⟩ (fits_reg (xOk_le hx)) fits_un rfl rfl (fun _ => rfl) rfl

theorem decodesBack_amode {m : TMode} (hw : (onE .ax u h && a.x8c u h) = true) : DecodesBack u (.amode h m a) := by
  simp only [Bool.and_eq_true, onE_iff] at hw
  obtain ⟨⟨rfl, hh⟩, ha⟩ := hw
  exact decodesBack_tile hh ha rfl ⟨rfl, rfl, rfl, rfl, _, rfl, by clear * -; intros; simp_all [enc3_eq]⟩ fits_un fits_un (by cases m <;> rfl) rfl (fun _ => rfl) rfl

theorem decodesBack_astat {r : BitVec 4} (hw : (onE .ax u h && decide (r.toNat ≤ 10) && xOk d && a.x8c u h) = true) : DecodesBack u (.astat h r d a) := by
  simp only [Bool.and_eq_true, onE_iff, decide_eq_true_eq] at hw
  obtain ⟨⟨⟨⟨rfl, hh⟩, hr⟩, hd⟩, ha⟩ := hw
  exact decodesBack_tile hh ha rfl ⟨rfl, rfl, rfl, rfl, _, rfl, by clear * -; intros; simp_all [enc3_eq]⟩ fits_un fits_un (contains_range (by omega)) (xOk_le hd) (fun _ => rfl) rfl

end
end Sys2Proof

/-! # Every instruction of an array cluster decodes back -/

namespace Sys2Proof

section
variable {u : UnitId} {i : Instr} {op : Nat} {h : Head} {fn : BitVec 4} {d x y z : BitVec 6} {a b c : Src}

/-- Registers and numbers alone, on the control core. -/
theorem decodesBack_ccRegs (hw : onCC u h = true) (hf : toFields i = some (enc3 op h fn d (.r x) (.r y) (.r z)))
    (hb : BuildsBack .cc i h (.r x) (.r y) (.r z) (enc3 op h fn d (.r x) (.r y) (.r z)))
    (fa : Fits h (shape .cc (BitVec.ofNat 8 op) fn.toNat 0).a (.r x)) (fb : Fits h (shape .cc (BitVec.ofNat 8 op) fn.toNat 0).b (.r y))
    (fc : Fits h (shape .cc (BitVec.ofNat 8 op) fn.toNat 0).c (.r z))
    (hfn : (shape .cc (BitVec.ofNat 8 op) fn.toNat 0).fns.contains fn.toNat = true)
    (hd : match (shape .cc (BitVec.ofNat 8 op) fn.toNat 0).dst with | some m => d.toNat ≤ m | none => d = 0)
    (hs : h.len = .w1 → z = 0) : DecodesBack u i := by
  obtain ⟨rfl, hh⟩ := onCC_iff.1 hw
  exact decodesBack_regs hh hf hb fa fb fc hfn hd hs

/-- An entry of the control core that uses no field but FN and the control. -/
theorem decodesBack_ccBase (hw : onCC u h = true) (hf : toFields i = some { base op h with fn := fn })
    (hb : BuildsBack .cc i h z0 z0 z0 (enc3 op h fn 0 z0 z0 z0))
    (hsh : (shape .cc (BitVec.ofNat 8 op) fn.toNat 0).a = .un ∧ (shape .cc (BitVec.ofNat 8 op) fn.toNat 0).b = .un
      ∧ (shape .cc (BitVec.ofNat 8 op) fn.toNat 0).c = .un ∧ (shape .cc (BitVec.ofNat 8 op) fn.toNat 0).dst = none)
    (hfn : (shape .cc (BitVec.ofNat 8 op) fn.toNat 0).fns.contains fn.toNat = true) : DecodesBack u i := by
  obtain ⟨rfl, hh⟩ := onCC_iff.1 hw
  exact decodesBack_base hh hf hb hsh hfn

theorem fnW_le_1 (w : Bool) : [0, 1].contains (fnW w).toNat = true := by cases w <;> rfl

/-- A timeline number of three bits lies below 8 (R328). -/
theorem r6_not_8_le (n : BitVec 3) : decide (8 ≤ (r6 n).toNat) = false :=
  decide_eq_false (Nat.not_le.2 (Nat.lt_succ_of_le (r6_le n)))

theorem decodesBack_br {o : BitVec 22} (hw : onCC u h = true) : DecodesBack u (.br h o) :=
  decodesBack_ccRegs (fn := o.extractLsb' 18 4) (x := o.extractLsb' 6 6) (y := o.extractLsb' 12 6) (z := 0) hw rfl ⟨rfl, rfl, rfl, rfl, _, rfl, by clear * -; intros; simp_all [enc3_eq]⟩
    (fits_raw _) (fits_raw _) fits_un (contains_range (o.extractLsb' 18 4).isLt) (toNat_le_63 _) (fun _ => rfl)


/-- Every well-formed instruction of an array cluster decodes back from its words. -/
theorem decodesBack (hw : WellFormed u i = true) : DecodesBack u i := by
  cases i with
  | add h w d a b => exact decodesBack_sl2 hw rfl ⟨rfl, rfl, rfl, rfl, _, rfl, by clear * -; intros; simp_all [enc3_eq]⟩ (fnW_le_1 w) (toNat_le_63 d) ⟨rfl, rfl, rfl⟩
  | sub h w d a b => exact decodesBack_sl2 hw rfl ⟨rfl, rfl, rfl, rfl, _, rfl, by clear * -; intros; simp_all [enc3_eq]⟩ (fnW_le_1 w) (toNat_le_63 d) ⟨rfl, rfl, rfl⟩
  | mul h w d a b => exact decodesBack_sl2 hw rfl ⟨rfl, rfl, rfl, rfl, _, rfl, by clear * -; intros; simp_all [enc3_eq]⟩ (fnW_le_1 w) (toNat_le_63 d) ⟨rfl, rfl, rfl⟩
  | div h w d a b => exact decodesBack_sl2 hw rfl ⟨rfl, rfl, rfl, rfl, _, rfl, by clear * -; intros; simp_all [enc3_eq]⟩ (fnW_le_1 w) (toNat_le_63 d) ⟨rfl, rfl, rfl⟩
  | divu h w d a b => exact decodesBack_sl2 hw rfl ⟨rfl, rfl, rfl, rfl, _, rfl, by clear * -; intros; simp_all [enc3_eq]⟩ (fnW_le_1 w) (toNat_le_63 d) ⟨rfl, rfl, rfl⟩
  | rem h w d a b => exact decodesBack_sl2 hw rfl ⟨rfl, rfl, rfl, rfl, _, rfl, by clear * -; intros; simp_all [enc3_eq]⟩ (fnW_le_1 w) (toNat_le_63 d) ⟨rfl, rfl, rfl⟩
  | remu h w d a b => exact decodesBack_sl2 hw rfl ⟨rfl, rfl, rfl, rfl, _, rfl, by clear * -; intros; simp_all [enc3_eq]⟩ (fnW_le_1 w) (toNat_le_63 d) ⟨rfl, rfl, rfl⟩
  | shl h w d a b => exact decodesBack_sl2 hw rfl ⟨rfl, rfl, rfl, rfl, _, rfl, by clear * -; intros; simp_all [enc3_eq]⟩ (fnW_le_1 w) (toNat_le_63 d) ⟨rfl, rfl, rfl⟩
  | shr h w d a b => exact decodesBack_sl2 hw rfl ⟨rfl, rfl, rfl, rfl, _, rfl, by clear * -; intros; simp_all [enc3_eq]⟩ (fnW_le_1 w) (toNat_le_63 d) ⟨rfl, rfl, rfl⟩
  | sha h w d a b => exact decodesBack_sl2 hw rfl ⟨rfl, rfl, rfl, rfl, _, rfl, by clear * -; intros; simp_all [enc3_eq]⟩ (fnW_le_1 w) (toNat_le_63 d) ⟨rfl, rfl, rfl⟩
  | bfx h w d a b => exact decodesBack_sl2 hw rfl ⟨rfl, rfl, rfl, rfl, _, rfl, by clear * -; intros; simp_all [enc3_eq]⟩ (fnW_le_1 w) (toNat_le_63 d) ⟨rfl, rfl, rfl⟩
  | mulh h d a b => exact decodesBack_sl2 hw rfl ⟨rfl, rfl, rfl, rfl, _, rfl, by clear * -; intros; simp_all [enc3_eq]⟩ rfl (toNat_le_63 d) ⟨rfl, rfl, rfl⟩
  | mulhu h d a b => exact decodesBack_sl2 hw rfl ⟨rfl, rfl, rfl, rfl, _, rfl, by clear * -; intros; simp_all [enc3_eq]⟩ rfl (toNat_le_63 d) ⟨rfl, rfl, rfl⟩
  | and h d a b => exact decodesBack_sl2 hw rfl ⟨rfl, rfl, rfl, rfl, _, rfl, by clear * -; intros; simp_all [enc3_eq]⟩ rfl (toNat_le_63 d) ⟨rfl, rfl, rfl⟩
  | or h d a b => exact decodesBack_sl2 hw rfl ⟨rfl, rfl, rfl, rfl, _, rfl, by clear * -; intros; simp_all [enc3_eq]⟩ rfl (toNat_le_63 d) ⟨rfl, rfl, rfl⟩
  | xor h d a b => exact decodesBack_sl2 hw rfl ⟨rfl, rfl, rfl, rfl, _, rfl, by clear * -; intros; simp_all [enc3_eq]⟩ rfl (toNat_le_63 d) ⟨rfl, rfl, rfl⟩
  | andn h d a b => exact decodesBack_sl2 hw rfl ⟨rfl, rfl, rfl, rfl, _, rfl, by clear * -; intros; simp_all [enc3_eq]⟩ rfl (toNat_le_63 d) ⟨rfl, rfl, rfl⟩
  | rol h d a b => exact decodesBack_sl2 hw rfl ⟨rfl, rfl, rfl, rfl, _, rfl, by clear * -; intros; simp_all [enc3_eq]⟩ rfl (toNat_le_63 d) ⟨rfl, rfl, rfl⟩
  | min h d a b => exact decodesBack_sl2 hw rfl ⟨rfl, rfl, rfl, rfl, _, rfl, by clear * -; intros; simp_all [enc3_eq]⟩ rfl (toNat_le_63 d) ⟨rfl, rfl, rfl⟩
  | minu h d a b => exact decodesBack_sl2 hw rfl ⟨rfl, rfl, rfl, rfl, _, rfl, by clear * -; intros; simp_all [enc3_eq]⟩ rfl (toNat_le_63 d) ⟨rfl, rfl, rfl⟩
  | max h d a b => exact decodesBack_sl2 hw rfl ⟨rfl, rfl, rfl, rfl, _, rfl, by clear * -; intros; simp_all [enc3_eq]⟩ rfl (toNat_le_63 d) ⟨rfl, rfl, rfl⟩
  | maxu h d a b => exact decodesBack_sl2 hw rfl ⟨rfl, rfl, rfl, rfl, _, rfl, by clear * -; intros; simp_all [enc3_eq]⟩ rfl (toNat_le_63 d) ⟨rfl, rfl, rfl⟩
  | bfi h d a b => exact decodesBack_sl2 hw rfl ⟨rfl, rfl, rfl, rfl, _, rfl, by clear * -; intros; simp_all [enc3_eq]⟩ rfl (toNat_le_63 d) ⟨rfl, rfl, rfl⟩
  | fadd h f d a b => exact decodesBack_sl2 hw rfl ⟨rfl, rfl, rfl, rfl, _, rfl, by clear * -; intros; simp_all [enc3_eq]⟩ (contains_fnModes f) (toNat_le_63 d) ⟨rfl, rfl, rfl⟩
  | fsub h f d a b => exact decodesBack_sl2 hw rfl ⟨rfl, rfl, rfl, rfl, _, rfl, by clear * -; intros; simp_all [enc3_eq]⟩ (contains_fnModes f) (toNat_le_63 d) ⟨rfl, rfl, rfl⟩
  | fmul h f d a b => exact decodesBack_sl2 hw rfl ⟨rfl, rfl, rfl, rfl, _, rfl, by clear * -; intros; simp_all [enc3_eq]⟩ (contains_fnModes f) (toNat_le_63 d) ⟨rfl, rfl, rfl⟩
  | fdiv h f d a b => exact decodesBack_sl2 hw rfl ⟨rfl, rfl, rfl, rfl, _, rfl, by clear * -; intros; simp_all [enc3_eq]⟩ (contains_fnModes f) (toNat_le_63 d) ⟨rfl, rfl, rfl⟩
  | fsqrt h f d a => exact decodesBack_sl1 hw rfl ⟨rfl, rfl, rfl, rfl, _, rfl, by clear * -; intros; simp_all [enc3_eq]⟩ (contains_fnModes f) (toNat_le_63 d) fits_un ⟨rfl, rfl⟩
  | cmp h c p a b => exact decodesBack_sl2 hw rfl ⟨rfl, rfl, rfl, rfl, _, rfl, by clear * -; intros; simp_all [enc3_eq]⟩ (by cases c <;> rfl) (r6_le p) ⟨rfl, rfl, rfl⟩
  | fcmp h bf c p a b => exact decodesBack_sl2 hw rfl ⟨rfl, rfl, rfl, rfl, _, rfl, by clear * -; intros; simp_all [enc3_eq]⟩ (by cases bf <;> cases c <;> rfl) (r6_le p) ⟨rfl, rfl, rfl⟩
  | fminmax h bf mx d a b => exact decodesBack_sl2 hw rfl ⟨rfl, rfl, rfl, rfl, _, rfl, by clear * -; intros; simp_all [enc3_eq]⟩ (by cases bf <;> cases mx <;> rfl) (toNat_le_63 d) ⟨rfl, rfl, rfl⟩
  | clz h d a => exact decodesBack_sl1 hw rfl ⟨rfl, rfl, rfl, rfl, _, rfl, by clear * -; intros; simp_all [enc3_eq]⟩ rfl (toNat_le_63 d) fits_un ⟨rfl, rfl⟩
  | ctz h d a => exact decodesBack_sl1 hw rfl ⟨rfl, rfl, rfl, rfl, _, rfl, by clear * -; intros; simp_all [enc3_eq]⟩ rfl (toNat_le_63 d) fits_un ⟨rfl, rfl⟩
  | popc h d a => exact decodesBack_sl1 hw rfl ⟨rfl, rfl, rfl, rfl, _, rfl, by clear * -; intros; simp_all [enc3_eq]⟩ rfl (toNat_le_63 d) fits_un ⟨rfl, rfl⟩
  | li h d a => exact decodesBack_sl1 hw rfl ⟨rfl, rfl, rfl, rfl, _, rfl, by clear * -; intros; simp_all [enc3_eq]⟩ rfl (toNat_le_63 d) fits_un ⟨rfl, rfl⟩
  | lih h d a => exact decodesBack_sl1 hw rfl ⟨rfl, rfl, rfl, rfl, _, rfl, by clear * -; intros; simp_all [enc3_eq]⟩ rfl (toNat_le_63 d) fits_un ⟨rfl, rfl⟩
  | leaPc h d b => exact decodesBack_slb hw rfl ⟨rfl, rfl, rfl, rfl, _, rfl, by clear * -; intros; simp_all [enc3_eq]⟩ fits_un rfl (toNat_le_63 d) ⟨rfl, rfl⟩
  | lea h s d a b => exact decodesBack_lea hw
  | sel h d a b p => exact decodesBack_sel hw
  | ffma h f d a b c => exact decodesBack_ffma hw
  | fcvt h m k d a => exact decodesBack_fcvt hw
  | jmp h o => exact decodesBack_jmp hw
  | plog h f d a b => exact decodesBack_ccRegs hw rfl ⟨rfl, rfl, rfl, rfl, _, rfl, by clear * -; intros; simp_all [enc3_eq]⟩ (fits_reg (r6_le a)) (fits_reg (r6_le b)) fits_un (by cases f <;> rfl) (r6_le d) (fun _ => rfl)
  | pmovToPred h d a => exact decodesBack_sl1 hw rfl ⟨rfl, rfl, rfl, rfl, _, rfl, by clear * -; intros; simp_all [enc3_eq]⟩ rfl (r6_le d) fits_un ⟨rfl, rfl⟩
  | pmovToScalar h d a => exact decodesBack_ccRegs hw rfl ⟨rfl, rfl, rfl, rfl, _, rfl, by clear * -; intros; simp_all [enc3_eq]⟩ (fits_reg (r6_le a)) fits_un fits_un rfl (toNat_le_63 d) (fun _ => rfl)
  | pmovAll h d => exact decodesBack_ccRegs hw rfl ⟨rfl, rfl, rfl, rfl, _, rfl, by clear * -; intros; simp_all [enc3_eq]⟩ fits_un fits_un fits_un rfl (toNat_le_63 d) (fun _ => rfl)
  | pmovSet h a => exact decodesBack_sl1 hw rfl ⟨rfl, rfl, rfl, rfl, _, rfl, by clear * -; intros; simp_all [enc3_eq]⟩ rfl rfl fits_un ⟨rfl, rfl⟩
  | br h off => exact decodesBack_br hw
  | jmpr h a b => exact decodesBack_sl2 hw rfl ⟨rfl, rfl, rfl, rfl, _, rfl, by clear * -; intros; simp_all [enc3_eq]⟩ rfl rfl ⟨rfl, rfl, rfl⟩
  | call h d a => exact decodesBack_sl1 hw rfl ⟨rfl, rfl, rfl, rfl, _, rfl, by clear * -; intros; simp_all [enc3_eq]⟩ rfl (toNat_le_63 d) fits_un ⟨rfl, rfl⟩
  | ret h a => exact decodesBack_ccRegs hw rfl ⟨rfl, rfl, rfl, rfl, _, rfl, by clear * -; intros; simp_all [enc3_eq]⟩ (fits_reg (toNat_le_63 a)) fits_un fits_un rfl rfl (fun _ => rfl)
  | loop h k a bl => exact decodesBack_sl1 hw rfl ⟨rfl, rfl, rfl, rfl, _, rfl, by clear * -; intros; simp_all [enc3_eq]⟩ (fnW_le_1 k) (toNat_le_63 _) (fits_ctl _) ⟨rfl, rfl⟩
  | gset h g v =>
    cases v with
    | val a => exact decodesBack_sl1 hw rfl ⟨rfl, rfl, rfl, rfl, _, rfl, by clear * -; intros; simp_all [enc3_eq]⟩ rfl (r6_le g) fits_un ⟨rfl, rfl⟩
    | pred p => exact decodesBack_ccRegs hw rfl ⟨rfl, rfl, rfl, rfl, _, rfl, by clear * -; intros; simp_all [enc3_eq]⟩ (fits_reg (r6_le p)) fits_un fits_un rfl (r6_le g) (fun _ => rfl)
  | gclr h g => exact decodesBack_ccRegs hw rfl ⟨rfl, rfl, rfl, rfl, _, rfl, by clear * -; intros; simp_all [enc3_eq]⟩ fits_un fits_un fits_un rfl (r6_le g) (fun _ => rfl)
  | fork h a => exact decodesBack_sl1 hw rfl ⟨rfl, rfl, rfl, rfl, _, rfl, by clear * -; intros; simp_all [enc3_eq]⟩ rfl rfl fits_un ⟨rfl, rfl⟩
  | join h a => exact decodesBack_sl1 hw rfl ⟨rfl, rfl, rfl, rfl, _, rfl, by clear * -; intros; simp_all [enc3_eq]⟩ rfl rfl fits_un ⟨rfl, rfl⟩
  | trap h a => exact decodesBack_sl1 hw rfl ⟨rfl, rfl, rfl, rfl, _, rfl, by clear * -; intros; simp_all [enc3_eq]⟩ rfl rfl fits_un ⟨rfl, rfl⟩
  | brk h a => exact decodesBack_sl1 hw rfl ⟨rfl, rfl, rfl, rfl, _, rfl, by clear * -; intros; simp_all [enc3_eq]⟩ rfl rfl fits_un ⟨rfl, rfl⟩
  | pushc h e n k b => exact decodesBack_pushc hw
  | pushk h e n k => exact decodesBack_pushk hw
  | retq h d => exact decodesBack_ccRegs hw rfl ⟨rfl, rfl, rfl, rfl, _, rfl, by clear * -; intros; simp_all [enc3_eq]⟩ fits_un fits_un fits_un rfl (toNat_le_63 d) (fun _ => rfl)
  | launch h d a => exact decodesBack_sl1 hw rfl ⟨rfl, rfl, rfl, rfl, _, rfl, by clear * -; intros; simp_all [enc3_eq]⟩ rfl (toNat_le_63 d) fits_un ⟨rfl, rfl⟩
  | next h => exact decodesBack_ccBase hw rfl ⟨rfl, rfl, rfl, rfl, _, rfl, by clear * -; intros; simp_all [enc3_eq]⟩ ⟨rfl, rfl, rfl, rfl⟩ rfl
  | rft h => exact decodesBack_ccBase hw rfl ⟨rfl, rfl, rfl, rfl, _, rfl, by clear * -; intros; simp_all [enc3_eq]⟩ ⟨rfl, rfl, rfl, rfl⟩ rfl
  | wfe h => exact decodesBack_ccBase hw rfl ⟨rfl, rfl, rfl, rfl, _, rfl, by clear * -; intros; simp_all [enc3_eq]⟩ ⟨rfl, rfl, rfl, rfl⟩ rfl
  | halt h => exact decodesBack_ccBase hw rfl ⟨rfl, rfl, rfl, rfl, _, rfl, by clear * -; intros; simp_all [enc3_eq]⟩ ⟨rfl, rfl, rfl, rfl⟩ rfl
  | nop h => exact decodesBack_ccBase hw rfl ⟨rfl, rfl, rfl, rfl, _, rfl, by clear * -; intros; simp_all [enc3_eq]⟩ ⟨rfl, rfl, rfl, rfl⟩ rfl
  | coord h f d a => exact decodesBack_coord hw
  | suspend h a b c => exact decodesBack_suspend hw
  | yield h a b c => exact decodesBack_yield hw
  | sysw h n a => exact decodesBack_sysw hw
  | sev h s => exact decodesBack_sev hw
  | sysr h d n => exact decodesBack_ccRegs hw rfl ⟨rfl, rfl, rfl, rfl, _, rfl, by clear * -; intros; simp_all [enc3_eq]⟩ (fits_ctl _) (fits_ctl _) fits_un rfl (toNat_le_63 d) (fun _ => rfl)
  | pcarve h a => exact decodesBack_sl1 (d := 0) hw rfl ⟨rfl, rfl, rfl, rfl, _, rfl, by clear * -; intros; simp_all [enc3_eq]⟩ rfl (Nat.zero_le _) (fits_ctl _) ⟨rfl, rfl⟩
  | ld h w d a b => exact decodesBack_ld hw
  | st h w a b c => exact decodesBack_st hw
  | lds h w m d a b => exact decodesBack_lds hw
  | sts h w m a b c => exact decodesBack_sts hw
  | amo h op m d a b => exact decodesBack_amo hw
  | cas h m d a b => exact decodesBack_cas hw
  | phase h m => exact decodesBack_phase hw
  | fence h s => exact decodesBack_fence hw
  | clean h l2 a b => exact decodesBack_line hw rfl (.inl rfl)
  | inval h l2 a b => exact decodesBack_line hw rfl (.inr (.inl rfl))
  | pref h l2 a b => exact decodesBack_line hw rfl (.inr (.inr rfl))
  | tlwait h s ctx b => exact decodesBack_slb hw rfl ⟨rfl, rfl, r6_not_8_le ctx, rfl, _, rfl, by clear * -; intros; simp_all [enc3_eq]⟩ (fits_ctl _) (by cases s <;> rfl) rfl ⟨rfl, rfl⟩
  | tlread h iss d ctx => exact decodesBack_ccRegs hw rfl ⟨rfl, rfl, r6_not_8_le ctx, rfl, _, rfl, by clear * -; intros; simp_all [enc3_eq]⟩ (fits_ctl _) fits_un fits_un (fnW_le_1 iss) (toNat_le_63 d) (fun _ => rfl)
  | cpy h f d a => exact decodesBack_cpy hw
  | cpyt h f d a => exact decodesBack_cpyt hw
  | cpyw h f d a b c => exact decodesBack_cpyw hw
  | pour h f d a b c => exact decodesBack_pour hw
  | nmrun h d a b c => exact decodesBack_nmrun hw
  | rwait h d a => exact decodesBack_rwait hw
  | mxcfg h n a => exact decodesBack_mxcfg hw
  | pwait h f d a b => exact decodesBack_slb hw rfl ⟨rfl, rfl, rfl, rfl, _, rfl, by clear * -; intros; simp_all [enc3_eq]⟩ (fits_reg (toNat_le_63 a)) (by cases f <;> rfl) (toNat_le_63 d) ⟨rfl, rfl⟩
  | pjoin h d a b => exact decodesBack_slb hw rfl ⟨rfl, rfl, rfl, rfl, _, rfl, by clear * -; intros; simp_all [enc3_eq]⟩ (fits_reg (toNat_le_63 a)) rfl (toNat_le_63 d) ⟨rfl, rfl⟩
  | pleave h d a b => exact decodesBack_slb hw rfl ⟨rfl, rfl, rfl, rfl, _, rfl, by clear * -; intros; simp_all [enc3_eq]⟩ (fits_reg (toNat_le_63 a)) rfl (toNat_le_63 d) ⟨rfl, rfl⟩
  | pclose h d a => exact decodesBack_ccRegs hw rfl ⟨rfl, rfl, rfl, rfl, _, rfl, by clear * -; intros; simp_all [enc3_eq]⟩ (fits_reg (toNat_le_63 a)) fits_un fits_un rfl (toNat_le_63 d) (fun _ => rfl)
  | pcloseRetire h d a => exact decodesBack_ccRegs hw rfl ⟨rfl, rfl, rfl, rfl, _, rfl, by clear * -; intros; simp_all [enc3_eq]⟩ (fits_reg (toNat_le_63 a)) fits_un fits_un rfl (toNat_le_63 d) (fun _ => rfl)
  | nmfence h s => exact decodesBack_ccBase hw rfl ⟨rfl, rfl, rfl, rfl, _, rfl, by clear * -; intros; simp_all [enc3_eq]⟩ (hfn := by cases s <;> rfl) ⟨rfl, rfl, rfl, rfl⟩
  | rfree h a => exact decodesBack_ccRegs hw rfl ⟨rfl, rfl, rfl, rfl, _, rfl, by clear * -; intros; simp_all [enc3_eq]⟩ (fits_reg (toNat_le_63 a)) fits_un fits_un rfl rfl (fun _ => rfl)
  | mxsave h a => exact decodesBack_ccRegs hw rfl ⟨rfl, rfl, rfl, rfl, _, rfl, by clear * -; intros; simp_all [enc3_eq]⟩ (fits_reg (toNat_le_63 a)) fits_un fits_un rfl rfl (fun _ => rfl)
  | mxrest h a => exact decodesBack_ccRegs hw rfl ⟨rfl, rfl, rfl, rfl, _, rfl, by clear * -; intros; simp_all [enc3_eq]⟩ (fits_reg (toNat_le_63 a)) fits_un fits_un rfl rfl (fun _ => rfl)
  | mxgo h d a => exact decodesBack_sl1 hw rfl ⟨rfl, rfl, rfl, rfl, _, rfl, by clear * -; intros; simp_all [enc3_eq]⟩ rfl (toNat_le_63 d) fits_un ⟨rfl, rfl⟩
  | mxmode h d a => exact decodesBack_sl1 hw rfl ⟨rfl, rfl, rfl, rfl, _, rfl, by clear * -; intros; simp_all [enc3_eq]⟩ rfl (toNat_le_63 d) fits_un ⟨rfl, rfl⟩
  | mxzero h d a => exact decodesBack_sl1 hw rfl ⟨rfl, rfl, rfl, rfl, _, rfl, by clear * -; intros; simp_all [enc3_eq]⟩ rfl (toNat_le_63 d) fits_un ⟨rfl, rfl⟩
  | mxfmt h a => exact decodesBack_sl1 hw rfl ⟨rfl, rfl, rfl, rfl, _, rfl, by clear * -; intros; simp_all [enc3_eq]⟩ rfl rfl fits_un ⟨rfl, rfl⟩
  | mxdrain h t bf d a => exact decodesBack_sl1 hw rfl ⟨rfl, rfl, rfl, rfl, _, rfl, by clear * -; intros; simp_all [enc3_eq]⟩ (by cases t <;> cases bf <;> rfl) (toNat_le_63 d) fits_un ⟨rfl, rfl⟩
  | mxstat h n d => exact decodesBack_ccRegs hw rfl ⟨rfl, rfl, rfl, rfl, _, rfl, by clear * -; intros; simp_all [enc3_eq]⟩ fits_un fits_un fits_un (contains_range (toNat_setWidth_lt n (by decide))) (toNat_le_63 d) (fun _ => rfl)
  | etake h => exact decodesBack_etake hw
  | eend h => exact decodesBack_engBase hw rfl (fun _ => ⟨rfl, rfl, rfl, engUnit, _, rfl, by clear * -; intros; simp_all [enc3_eq]⟩) fun _ => rfl
  | enop h => exact decodesBack_engBase hw rfl (fun _ => ⟨rfl, rfl, rfl, engUnit, _, rfl, by clear * -; intros; simp_all [enc3_eq]⟩) fun _ => rfl
  | ebr h c a b off => exact decodesBack_ebr hw
  | eloop h k a bl => exact decodesBack_eloop hw
  | eloopAdd h d a b => exact decodesBack_eloopAdd hw
  | etok h n => exact decodesBack_etok hw
  | gput h g a => exact decodesBack_gput hw
  | eret h a => exact decodesBack_eret hw
  | vld h nr v a b => exact decodesBack_vld hw
  | vldg h nr v a b c => exact decodesBack_vldg hw
  | vldb h f v a b c fw => exact decodesBack_vldb hw
  | vldm h a b c => exact decodesBack_vldm hw
  | vst h nr v a b => exact decodesBack_vst hw
  | vsts h nr v a b c => exact decodesBack_vsts hw
  | vsta h op nr v a b c l => exact decodesBack_vsta hw
  | rput h a b c => exact decodesBack_rput hw
  | vadd h f d a b => exact decodesBack_any2 hw rfl ⟨rfl, rfl, rfl, rfl, _, rfl, by clear * -; intros; simp_all [enc3_eq]⟩ (contains_fnModes f) (toNat_le_63 d) ⟨rfl, rfl, rfl⟩
  | vsub h f d a b => exact decodesBack_any2 hw rfl ⟨rfl, rfl, rfl, rfl, _, rfl, by clear * -; intros; simp_all [enc3_eq]⟩ (contains_fnModes f) (toNat_le_63 d) ⟨rfl, rfl, rfl⟩
  | vmul h f d a b => exact decodesBack_any2 hw rfl ⟨rfl, rfl, rfl, rfl, _, rfl, by clear * -; intros; simp_all [enc3_eq]⟩ (contains_fnModes f) (toNat_le_63 d) ⟨rfl, rfl, rfl⟩
  | vfma h f d a b c => exact decodesBack_vfma hw
  | vfms h f d a b c => exact decodesBack_vfms hw
  | vmin h bf d a b => exact decodesBack_any2 hw rfl ⟨rfl, rfl, rfl, rfl, _, rfl, by clear * -; intros; simp_all [enc3_eq]⟩ (by cases bf <;> rfl) (toNat_le_63 d) ⟨rfl, rfl, rfl⟩
  | vmax h bf d a b => exact decodesBack_any2 hw rfl ⟨rfl, rfl, rfl, rfl, _, rfl, by clear * -; intros; simp_all [enc3_eq]⟩ (by cases bf <;> rfl) (toNat_le_63 d) ⟨rfl, rfl, rfl⟩
  | vabs h bf d a => exact decodesBack_any1 hw rfl ⟨rfl, rfl, rfl, rfl, _, rfl, by clear * -; intros; simp_all [enc3_eq]⟩ (by cases bf <;> rfl) (toNat_le_63 d) fits_un ⟨rfl, rfl⟩
  | vneg h bf d a => exact decodesBack_any1 hw rfl ⟨rfl, rfl, rfl, rfl, _, rfl, by clear * -; intros; simp_all [enc3_eq]⟩ (by cases bf <;> rfl) (toNat_le_63 d) fits_un ⟨rfl, rfl⟩
  | vcmp h bf c m a b => exact decodesBack_any2 hw rfl ⟨rfl, rfl, rfl, rfl, _, rfl, by clear * -; intros; simp_all [enc3_eq]⟩ (by cases bf <;> cases c <;> rfl) (r6_le m) ⟨rfl, rfl, rfl⟩
  | vsel h w d a b m => exact decodesBack_vsel hw
  | vcvt h md d a s t p q => exact decodesBack_vcvt hw
  | vsfu h f k d a => exact decodesBack_vsfu hw
  | vred h f o r d a b => exact decodesBack_vred hw
  | vscan h f o r d a => exact decodesBack_vscan hw
  | vsort h k e l d a b => exact decodesBack_vsort hw
  | vsegr h m o l d a b => exact decodesBack_vsegr hw
  | vperm h l d a b => exact decodesBack_vperm hw
  | vbcast h k w d a b => exact decodesBack_scb hw rfl ⟨rfl, rfl, rfl, rfl, _, rfl, by clear * -; intros; simp_all [enc3_eq]⟩ (by cases w <;> cases k <;> rfl) (toNat_le_63 d) ⟨rfl, rfl, rfl⟩
  | vmov h d a => exact decodesBack_vmov hw
  | vmovX h d a b => exact decodesBack_vmovX hw
  | viota h d a b => exact decodesBack_any2 hw rfl ⟨rfl, rfl, rfl, rfl, _, rfl, by clear * -; intros; simp_all [enc3_eq]⟩ rfl (toNat_le_63 d) ⟨rfl, rfl, rfl⟩
  | viadd h w s d a b => exact decodesBack_viadd hw
  | visub h w s d a b => exact decodesBack_visub hw
  | vimul h w d a b => exact decodesBack_any2 hw rfl ⟨rfl, rfl, rfl, rfl, _, rfl, by clear * -; intros; simp_all [enc3_eq]⟩ (by cases w <;> rfl) (toNat_le_63 d) ⟨rfl, rfl, rfl⟩
  | vilog h f d a b => exact decodesBack_any2 hw rfl ⟨rfl, rfl, rfl, rfl, _, rfl, by clear * -; intros; simp_all [enc3_eq]⟩ (by cases f <;> rfl) (toNat_le_63 d) ⟨rfl, rfl, rfl⟩
  | vish h f w d a b => exact decodesBack_vish hw
  | vimm h k d a => exact decodesBack_sc1 hw rfl ⟨rfl, rfl, rfl, rfl, _, rfl, by clear * -; intros; simp_all [enc3_eq]⟩ (by cases k <;> rfl) (toNat_le_63 d) ⟨rfl, rfl, rfl⟩
  | vmask h f => exact decodesBack_vmask hw
  | vshape h a => exact decodesBack_sc1 hw rfl ⟨rfl, rfl, rfl, rfl, _, rfl, by clear * -; intros; simp_all [enc3_eq]⟩ rfl rfl ⟨rfl, rfl, rfl⟩
  | vrot h a => exact decodesBack_sc1 hw rfl ⟨rfl, rfl, rfl, rfl, _, rfl, by clear * -; intros; simp_all [enc3_eq]⟩ rfl rfl ⟨rfl, rfl, rfl⟩
  | vloopp h s a bl => exact decodesBack_vloopp hw
  | vpcode h d a b => exact decodesBack_scb hw rfl ⟨rfl, rfl, rfl, rfl, _, rfl, by clear * -; intros; simp_all [enc3_eq]⟩ rfl (toNat_le_63 d) ⟨rfl, rfl, rfl⟩
  | vbexp h bf d a => exact decodesBack_vbexp hw
  | vqnt h d a b => exact decodesBack_vqnt hw
  | vdqnt h m d a b => exact decodesBack_vdqnt hw
  | afwd h f s d a b c => exact decodesBack_afwd hw
  | abwd h f s d a b c => exact decodesBack_abwd hw
  | aupd h d a b c => exact decodesBack_aupd hw
  | axfer h d a => exact decodesBack_axfer hw
  | ackr h f l a b => exact decodesBack_ackr hw
  | aprog h k d a b c => exact decodesBack_aprog hw
  | acal h a b => exact decodesBack_acal hw
  | asprLd h a b => exact decodesBack_asprLd hw
  | asprSt h a b => exact decodesBack_asprSt hw
  | aset h r a b => exact decodesBack_aset hw
  | amode h m a => exact decodesBack_amode hw
  | astat h r d a => exact decodesBack_astat hw
  | aref h a b => exact decodesBack_aref hw
  | _ => cases hw

end
end Sys2Proof

/-! # Encodings of kettles (R109, R110), and the round trip -/

namespace Sys2Proof

/- Declarations are checked one after another: side by side they would hold a thread each. -/
set_option Elab.async false

/-! ### Kettle instructions -/

/-- A kettle word holds its fields (Table 4-6). -/
theorem KFields.ofWord_toWord (f : KFields) : KFields.ofWord f.toWord = f := by
  obtain ⟨op, d, a, b, c, fn, ab, pi, lit, imm⟩ := f
  simp only [KFields.ofWord, KFields.toWord, KFields.mk.injEq]
  refine ⟨?_, ?_, ?_, ?_, ?_, ?_, ?_, ?_, ?_, ?_⟩
  case refine_2 =>
    iterate 8 rw [BitVec.extractLsb'_append_eq_of_le (by decide)]
    ext i hi; simp; grind
  case refine_3 =>
    iterate 7 rw [BitVec.extractLsb'_append_eq_of_le (by decide)]
    ext i hi; simp; grind
  case refine_7 =>
    iterate 4 rw [BitVec.getLsbD_append]
    cases ab <;> rfl
  case refine_8 =>
    iterate 3 rw [BitVec.getLsbD_append]
    cases pi <;> rfl
  case refine_9 =>
    iterate 2 rw [BitVec.getLsbD_append]
    cases lit <;> rfl
  all_goals ext i hi; simp; grind

@[simp] theorem j3_j5 (n : BitVec 3) : j3 (j5 n) = n := extract_setWidth n (by decide)
@[simp] theorem KUse.ok_un : KUse.un.ok 0#5 = true := rfl
@[simp] theorem KUse.ok_j5 (n : BitVec 3) : KUse.j.ok (j5 n) = true := by revert n; decide
theorem KUse.ok_k (n : BitVec 5) : KUse.k.ok n = kOk n := rfl


/-! The fields of a lane instruction. -/

section
variable {op fn : Nat} {d a c : BitVec 5} {b : KSrc} {cu : KUse} {i : Instr} {g : Bool} {f : KFields}

@[simp] theorem klane_op : (klane op fn d a b c).op = BitVec.ofNat 6 op := by cases b <;> rfl

theorem klane_laneOk (hd : kOk d = true) (ha : kOk a = true) (hb : b.ok = true) (hc : cu.ok c = true) : (klane op fn d a b c).laneOk cu = true := by
  cases b with
  | k n => simp [klane, kbase, KFields.laneOk, KFields.uses, KUse.ok_k, hd, ha, hc, show kOk n = true from hb]
  | imm v => simp [klane, kbase, KFields.laneOk, KFields.uses, KUse.ok_k, hd, ha, hc]

theorem kdecode_lane (ho : f.op = BitVec.ofNat 6 op) (h : 8 ≤ op % 64 ∧ op % 64 ≤ 22) : kdecode f.toWord = kLane f := by
  have h1 : f.op.toNat = op % 64 := by rw [ho]; rfl
  unfold kdecode
  rw [f.ofWord_toWord]
  dsimp only
  split
  any_goals omega
  rfl

/-- A word whose opcode belongs to a lane instruction decodes to it when the check of its fields passes. -/
theorem kdecode_lane_if (hk : kLane f = if g then some i else none) (ho : f.op = BitVec.ofNat 6 op) (h : 8 ≤ op % 64 ∧ op % 64 ≤ 22)
    (hg : g = true) : kdecode f.toWord = some i := by
  rw [kdecode_lane ho h, hk, hg]
  rfl

/-- A lane instruction with source b whose operands are legal decodes to what its opcode stands for. -/
theorem kdecode_klane (hd : kOk d = true) (ha : kOk a = true) (hb : b.ok = true) (hc : cu.ok c = true) (ho : 8 ≤ op % 64 ∧ op % 64 ≤ 22)
    (hk : kLane (klane op fn d a b c) = if (klane op fn d a b c).laneOk cu && g then some i else none) (hg : g = true) :
    kdecode (klane op fn d a b c).toWord = some i :=
  kdecode_lane_if hk klane_op ho (by rw [klane_laneOk hd ha hb hc, hg]; rfl)

/-- Any other word decodes to its instruction when the check of its fields passes. -/
theorem kdecode_if (hk : ∀ w, KFields.ofWord w = f → kdecode w = if g then some i else none) (hg : g = true) : kdecode f.toWord = some i := by
  rw [hk _ f.ofWord_toWord, hg]
  rfl

end

section
variable {pi : Bool} {a d : BitVec 3} {k : BitVec 5} {im : BitVec 32}

/-- Loads take a k register, a j register and a displacement (R113). -/
theorem kload_uses {fn : BitVec 3} {ab : Bool} (h : kOk k = true) :
    ({ kbase 1 with d := k, a := j5 a, fn := fn, ab := ab, pi := pi, imm := im } : KFields).uses .k .j .un .un true = true := by
  simp [kbase, KFields.uses, KUse.ok_k, h]

theorem kstore_uses {fn : BitVec 3} {ab : Bool} (h : kOk k = true) :
    ({ kbase 2 with a := j5 a, b := k, fn := fn, ab := ab, pi := pi, imm := im } : KFields).uses .un .j .k .un true = true := by
  simp [kbase, KFields.uses, KUse.ok_k, h]

/-- A check that passes leaves the rest of the decoder. -/
theorem kdecode_unless {w : W64} {f : KFields} {i : Instr} {bad : Bool} {r : Option Instr}
    (hk : KFields.ofWord w = f → kdecode w = if bad then none else r) (hw : KFields.ofWord w = f) (hb : bad = false) (hr : r = some i) :
    kdecode w = some i := by
  rw [hk hw, hb, hr]
  rfl

theorem kdecode_kld {f : KForm} (h : kOk k = true) : kdecode (kencode (.kld f pi k a im)) = some (.kld f pi k a im) := by
  conv_rhs => rw [← j3_j5 a]
  exact kdecode_unless (fun hw => by unfold kdecode; rw [hw]; rfl) (KFields.ofWord_toWord _)
    (by rw [kload_uses h]; rfl) (by cases f <;> rfl)

theorem kdecode_kldAbSum (h : kOk k = true) : kdecode (kencode (.kldAbSum pi k a im)) = some (.kldAbSum pi k a im) := by
  conv_rhs => rw [← j3_j5 a]
  exact kdecode_unless (fun hw => by unfold kdecode; rw [hw]; rfl) (KFields.ofWord_toWord _) (by rw [kload_uses h]; rfl) rfl

theorem kdecode_kldAbMax (h : kOk k = true) : kdecode (kencode (.kldAbMax pi k a im)) = some (.kldAbMax pi k a im) := by
  conv_rhs => rw [← j3_j5 a]
  exact kdecode_unless (fun hw => by unfold kdecode; rw [hw]; rfl) (KFields.ofWord_toWord _) (by rw [kload_uses h]; rfl) rfl

theorem kdecode_kst {f : KForm} (h : kOk k = true) : kdecode (kencode (.kst f pi a k im)) = some (.kst f pi a k im) := by
  conv_rhs => rw [← j3_j5 a]
  exact kdecode_unless (fun hw => by unfold kdecode; rw [hw]; rfl) (KFields.ofWord_toWord _)
    (by rw [kstore_uses h]; rfl) (by cases f <;> rfl)

theorem kdecode_kstAb (h : kOk k = true) : kdecode (kencode (.kstAb pi a k im)) = some (.kstAb pi a k im) := by
  conv_rhs => rw [← j3_j5 a]
  exact kdecode_unless (fun hw => by unfold kdecode; rw [hw]; rfl) (KFields.ofWord_toWord _) (by rw [kstore_uses h]; rfl) rfl

theorem kdecode_kflag {pkg : Bool} {b : BitVec 3} : kdecode (kencode (.kflag pkg a b im)) = some (.kflag pkg a b im) := by
  conv_rhs => rw [← j3_j5 a, ← j3_j5 b]
  cases pkg <;> exact kdecode_if (fun w hw => by unfold kdecode; rw [hw]; rfl) (by simp [kbase, KFields.plain, KFields.uses, kfn])

/-- The count of a shift and the number of a parameter fit IMM (R115). -/
theorem kag_imm (n : BitVec 6) (p : BitVec 3) : (n.setWidth 32).extractLsb' 0 6 = n ∧ (n.setWidth 32).toNat ≤ 63
    ∧ (p.setWidth 32).extractLsb' 0 3 = p ∧ (p.setWidth 32).toNat ≤ 7 := by
  refine ⟨extract_setWidth n (by decide), ?_, extract_setWidth p (by decide), ?_⟩ <;> simp <;> omega

theorem kdecode_kag {g : KagF} : kdecode (kencode (.kag d g)) = some (.kag d g) := by
  conv_rhs => rw [← j3_j5 d]
  cases g with
  | addi a im =>
    conv_rhs => rw [← j3_j5 a]
    exact kdecode_if (fun w hw => by unfold kdecode; rw [hw]; rfl) (by simp [kbase, KFields.uses])
  | addr a b =>
    conv_rhs => rw [← j3_j5 a, ← j3_j5 b]
    exact kdecode_if (fun w hw => by unfold kdecode; rw [hw]; rfl) (by simp [kbase, KFields.uses])
  | li im => exact kdecode_if (fun w hw => by unfold kdecode; rw [hw]; rfl) (by simp [kbase, KFields.uses])
  | shl a n =>
    obtain ⟨hn, hl, -⟩ := kag_imm n 0
    conv_rhs => rw [← j3_j5 a, ← hn]
    exact kdecode_if (fun w hw => by unfold kdecode; rw [hw]; rfl) (by simp [kbase, KFields.uses, -BitVec.toNat_setWidth, hl])
  | prm p =>
    obtain ⟨-, -, hp, hl⟩ := kag_imm 0 p
    conv_rhs => rw [← hp]
    exact kdecode_if (fun w hw => by unfold kdecode; rw [hw]; rfl) (by simp [kbase, KFields.uses, -BitVec.toNat_setWidth, hl])
  | mul a im =>
    conv_rhs => rw [← j3_j5 a]
    exact kdecode_if (fun w hw => by unfold kdecode; rw [hw]; rfl) (by simp [kbase, KFields.uses])

theorem kdecode_kcvt {g : KcvtF} (hi : KWellFormed (.kcvt k g) = true) : kdecode (kencode (.kcvt k g)) = some (.kcvt k g) := by
  simp only [KWellFormed, Bool.and_eq_true] at hi
  obtain ⟨hd, hg⟩ := hi
  cases g with
  | f32s32 a | s32f32 a => exact kdecode_lane_if rfl rfl (by decide) (by simp [kbase, KFields.uses, KUse.ok_k, hd, hg])
  | s64lo a b | s64hi a b =>
    conv_rhs => rw [← j3_j5 b]
    exact kdecode_lane_if rfl rfl (by decide) (by simp [kbase, KFields.uses, KUse.ok_k, hd, hg])
  | f32j a | b32j a =>
    conv_rhs => rw [← j3_j5 a]
    exact kdecode_lane_if rfl rfl (by decide) (by simp [kbase, KFields.uses, KUse.ok_k, hd])

theorem kdecode_kred {o : TreeOp} (hi : KWellFormed (.kred o k) = true) : kdecode (kencode (.kred o k)) = some (.kred o k) := by
  simp only [KWellFormed, Bool.and_eq_true] at hi
  obtain ⟨hd, ho⟩ := hi
  cases o with
  | sum | max => exact kdecode_if (fun w hw => by unfold kdecode; rw [hw]; rfl) (by simp [kbase, KFields.plain, KFields.uses, KUse.ok_k, hd, kfn, TreeOp.code])
  | maxsum =>
    have hk : k ≠ 23 := by simpa using ho
    exact kdecode_if (fun w hw => by unfold kdecode; rw [hw]; rfl) (by simpa [kbase, KFields.plain, KFields.uses, KUse.ok_k, hd, kfn, TreeOp.code] using hk)

theorem kdecode_krcv {o : TreeOp} (hi : KWellFormed (.krcv o k) = true) : kdecode (kencode (.krcv o k)) = some (.krcv o k) := by
  simp only [KWellFormed, Bool.and_eq_true] at hi
  obtain ⟨hd, ho⟩ := hi
  cases o with
  | sum | max => exact kdecode_if (fun w hw => by unfold kdecode; rw [hw]; rfl) (by simp [kbase, KFields.plain, KFields.uses, KUse.ok_k, hd, kfn, TreeOp.code])
  | maxsum =>
    have hk : k ≠ 23 := by simpa using ho
    exact kdecode_if (fun w hw => by unfold kdecode; rw [hw]; rfl) (by simpa [kbase, KFields.plain, KFields.uses, KUse.ok_k, hd, kfn, TreeOp.code] using hk)

theorem kdecode_kloop {n : KCount} : kdecode (kencode (.kloop n)) = some (.kloop n) := by
  cases n with
  | j a =>
    conv_rhs => rw [← j3_j5 a]
    exact kdecode_if (fun w hw => by unfold kdecode; rw [hw]; rfl) (by simp [kbase, KFields.uses])
  | imm v => exact kdecode_if (fun w hw => by unfold kdecode; rw [hw]; rfl) (by simp [kbase, KFields.uses])

end

/-- Every well-formed kettle instruction decodes back from its word. -/
theorem kdecode_kencode {i : Instr} (hi : KWellFormed i = true) : kdecode (kencode i) = some i := by
  cases i with
  | kadd d a b | ksub d a b | kmul d a b | kmin d a b | kmax d a b =>
    simp only [KWellFormed, Bool.and_eq_true] at hi
    obtain ⟨⟨hd, ha⟩, hb⟩ := hi
    exact kdecode_klane hd ha hb (cu := .un) rfl (by decide) (by cases b <;> rfl) rfl
  | kfma d a b c =>
    simp only [KWellFormed, Bool.and_eq_true] at hi
    obtain ⟨⟨⟨hd, ha⟩, hb⟩, hc⟩ := hi
    exact kdecode_klane hd ha hb (cu := .k) hc (by decide) (by cases b <;> rfl) rfl
  | kcmp k d a b =>
    simp only [KWellFormed, Bool.and_eq_true] at hi
    obtain ⟨⟨hd, ha⟩, hb⟩ := hi
    cases k <;> exact kdecode_klane hd ha hb (cu := .un) rfl (by decide) (by cases b <;> rfl) rfl
  | knop | katom | kend | khalt => unfold kdecode; exact rfl
  | kabs d a | kclip d a | knf d a =>
    simp only [KWellFormed, Bool.and_eq_true] at hi
    obtain ⟨hd, ha⟩ := hi
    exact kdecode_lane_if rfl rfl (by decide) (by simp [kbase, KFields.plain, KFields.uses, KUse.ok_k, hd, ha])
  | kqnt d a b =>
    simp only [KWellFormed, Bool.and_eq_true] at hi
    obtain ⟨hd, ha⟩ := hi
    rw [show some (Instr.kqnt d a b) = some (.kqnt d a (j3 (j5 b))) by rw [j3_j5]]
    exact kdecode_lane_if rfl rfl (by decide) (by simp [kbase, KFields.plain, KFields.uses, KUse.ok_k, hd, ha])
  | ksel d a b c =>
    simp only [KWellFormed, Bool.and_eq_true] at hi
    obtain ⟨⟨⟨hd, ha⟩, hb⟩, hc⟩ := hi
    exact kdecode_lane_if rfl rfl (by decide) (by simp [kbase, KFields.plain, KFields.uses, KUse.ok_k, hd, ha, hb, hc])
  | kiadd f d a b =>
    simp only [KWellFormed, Bool.and_eq_true] at hi
    obtain ⟨⟨hd, ha⟩, hb⟩ := hi
    cases f <;> exact kdecode_lane_if rfl rfl (by decide) (by simp [kbase, KFields.plain, KFields.uses, KUse.ok_k, hd, ha, hb, kfn])
  | kld f pi d a im => exact kdecode_kld hi
  | kst f pi a b im => exact kdecode_kst hi
  | kldAbSum pi d a im => exact kdecode_kldAbSum hi
  | kldAbMax pi d a im => exact kdecode_kldAbMax hi
  | kstAb pi a b im => exact kdecode_kstAb hi
  | kag d g => exact kdecode_kag
  | kflag pkg a b im => exact kdecode_kflag
  | kcvt d g => exact kdecode_kcvt hi
  | kred o a => exact kdecode_kred hi
  | krcv o d => exact kdecode_krcv hi
  | kloop n => exact kdecode_kloop
  | _ => cases hi

/-- Settles O59: an encoding's fields are read back one by one, by the slots and the immediates that its entry uses. -/
theorem encodeRoundTrip : Obligations.EncodeRoundTrip := by
  unfold Obligations.EncodeRoundTrip
  exact ⟨fun u i r hw => decodesBack hw r, fun i hi => kdecode_kencode hi⟩

end Sys2Proof

/-! # Words written out, the reset state, and what a step runs (R275, R490) -/

namespace Sys2Proof

open Machine

/- Declarations are checked one after another: side by side they would hold a thread each. -/
set_option Elab.async false

/-- Settles O58: the decoder is run on each word. -/
theorem decodeWords : Obligations.DecodeWords := by
  unfold Obligations.DecodeWords
  exact ⟨rfl, rfl, rfl, rfl, rfl, rfl, rfl, rfl, rfl, rfl, rfl, rfl, rfl, rfl, rfl, rfl⟩

/-! ### What reset leaves (R490) -/

/-- A register that nothing has written holds its reset value on every die (R490). -/
theorem reset_reg (d o : Nat) : State.reset.reg d o = regDefault o := rfl

theorem reset_ac (n : Nat) : State.reset.ac n = AC.reset := rfl
theorem reset_die (d : Nat) : State.reset.die d = Die.reset := rfl
theorem reset_sr (k : Nat) : AC.reset.cc.sr k = sysDefault k := rfl
theorem reset_tile (n i : Nat) : State.reset.tile n i = Tile.reset := rfl

theorem reset_eng (e : Eid) : AC.reset.eng e = Eng.reset := by cases e <;> rfl

/-- QMIN and QCAP of the six queues after reset (Table 14-7). -/
theorem sysDefault_queue : ∀ q, q < 6 → sysDefault (0x080 + q) = 32 ∧ sysDefault (0x088 + q) = 256 := by decide

/-- Settles O56: nothing is listed after reset, so every register reads its table's default. -/
theorem resetState : Obligations.ResetState := by
  unfold Obligations.ResetState
  refine ⟨fun n => ?_, fun d => ?_, rfl, rfl, rfl, fun i => rfl⟩
  · simp only [reset_ac, reset_eng, reset_sr, reset_tile]
    exact ⟨rfl, rfl, rfl, fun e => ⟨rfl, rfl⟩, rfl, sysDefault_queue, rfl, rfl, fun i => ⟨rfl, rfl, rfl, rfl, rfl⟩⟩
  · simp only [reset_reg, reset_die]
    exact ⟨rfl, rfl, fun _ => ⟨rfl, rfl⟩, rfl, rfl, rfl, rfl, rfl, rfl, rfl, rfl, rfl, rfl, rfl, rfl⟩

/-! ### Little-endian values (R9) -/

theorem leNat_lt (l : List Byte) : leNat l < 256 ^ l.length := by
  induction l with
  | nil => simp [leNat]
  | cons b r ih =>
    have hb : b.toNat < 256 := b.isLt
    rw [leNat, List.length_cons, Nat.pow_succ]
    omega

theorem leNat_append (l r : List Byte) : leNat (l ++ r) = leNat l + 256 ^ l.length * leNat r := by
  induction l with
  | nil => simp [leNat]
  | cons b l ih =>
    rw [List.cons_append, leNat, ih, leNat, List.length_cons, Nat.pow_succ]
    ring

/-- The bytes i to i + n - 1 of a value. -/
theorem leNat_slice (l : List Byte) (i n : Nat) (h : i + n ≤ l.length) :
    leNat l / 256 ^ i % 256 ^ n = leNat ((l.drop i).take n) := by
  have e : leNat l = leNat (l.take i) + 256 ^ i * leNat (l.drop i) := by
    conv_lhs => rw [← List.take_append_drop i l, leNat_append, List.length_take_of_le (by omega)]
  have h1 : leNat (l.take i) < 256 ^ i := by
    simpa [List.length_take_of_le (show i ≤ l.length by omega)] using leNat_lt (l.take i)
  rw [e, Nat.add_mul_div_left _ _ (Nat.pow_pos (by omega)), Nat.div_eq_of_lt h1, Nat.zero_add]
  conv_lhs => rw [← List.take_append_drop n (l.drop i), leNat_append, List.length_take_of_le (by rw [List.length_drop]; omega),
    Nat.add_mul_mod_self_left]
  refine Nat.mod_eq_of_lt ?_
  simpa [List.length_take_of_le (show n ≤ (l.drop i).length by rw [List.length_drop]; omega)] using leNat_lt ((l.drop i).take n)

/-! ### A turn of a unit (R275, R276, R278) -/

theorem step_of_agenda {s : State} {x : Actor} {rest : List Actor} (h : s.agenda = x :: rest) (hs : s.stopped = false) :
    step s = turn exec x { s with agenda := rest } ∧ ({ s with agenda := rest } : State).stopped = false := by
  have hn : nextActor s = (x, { s with agenda := rest }) := by simp only [nextActor, h]
  exact ⟨by simp only [step, hn], hs⟩

section
variable {s : State} (ex : Instr → State → Res) (hs : s.stopped = false)
include hs

theorem turn_cc {n : Nat} (hn : n < 256) : turn ex (.cc n) s = runFetched ex (ccTurn n s) := by
  simp [turn, hs, hn]

theorem turn_eng {n : Nat} (e : Eid) (hn : n < 256) : turn ex (.eng n e) s = runFetched ex (engTurn n e s) := by
  simp [turn, hs, hn]

theorem turn_kettle {q : Nat} (hq : q < 256) : turn ex (.kettle q) s = runFetched ex (kettleTurn q s) := by
  simp [turn, hs, hq]

theorem turn_event {i : Instr} (hi : unitOk i = true) : turn ex (.event i) s = ex i { s with cur := .disp 0 } := by
  simp [turn, hs, hi]

end

theorem decodeAt_of_decode {u : UnitId} {ws : List W32} {i : Instr} (h : ∃ l r, decode u ws = .ok (i, l, r)) : decodeAt u ws = .ok i := by
  obtain ⟨l, r, h⟩ := h
  rw [decodeAt, h]

theorem ccTurn_run {n : Nat} {s s1 : State} {ws : List W32} {i : Instr} (hb : boundaryTrap n s = none) (ht : (s.ac n).cc.task.isSome = true)
    (hs : (s.ac n).cc.saving = false) (ha : (s.ac n).cc.xlAbort = none) (hx : (s.ac n).cc.xl = none)
    (hw : fetchWords n (.ac n 0) (s.ac n).cc.pc.toNat s = .ok ws s1) (hd : ∃ l r, decode .cc ws = .ok (i, l, r)) :
    ccTurn n s = .run i { s1 with cur := .ac n 0 } := by
  have hn : ¬((s.ac n).cc.task.isNone = true ∨ (s.ac n).cc.saving = true) := by
    rw [hs, Option.isNone_eq_false_iff.2 ht]
    simp
  simp only [ccTurn, hb, if_neg hn, ha, hx, Option.isSome_none, Bool.false_eq_true, if_false]
  rw [ccFetchInstr]
  simp only [hw, decodeAt_of_decode hd]

/-- A command queue whose head has not completed retires nothing (R396). -/
theorem axRetire_of_busy {n : Nat} {s : State} (h : ∀ c ∈ (s.ac n).axq, c.done = false) (f : Nat) : axRetire n f s = s := by
  cases f with
  | zero => rfl
  | succ f =>
    rw [axRetire]
    split
    · next c r hq => rw [h c (by rw [hq]; exact List.mem_cons_self)]; rfl
    · rfl

theorem payOwed_of_zero {n : Nat} {e : Eid} {s : State} (h : ((s.ac n).eng e).giveN = 0) : payOwed n e s = s := by
  simp [payOwed, h]

theorem engTurn_run {n : Nat} {e : Eid} {s s1 : State} {ws : List W32} {i : Instr} (ht : (s.ac n).cc.task.isSome = true)
    (hs : (s.ac n).cc.saving = false) (he : (s.ac n).cc.entry = none) (hg : ((s.ac n).eng e).giveN = 0) (hx : ((s.ac n).eng e).xl = none)
    (h12 : ((s.ac n).eng e).st = 1 ∨ ((s.ac n).eng e).st = 2) (hst : ((s.ac n).eng e).startAt ≤ s.cycle)
    (hax : e = .ax → ∀ c ∈ (s.ac n).axq, c.done = false ∧ c.rows = [])
    (hva : e = .va → (s.ac n).vec.issued ≠ s.cycle + 1 ∧ (s.ac n).vec.owes s.cycle = false)
    (hw : fetchWords n (engAgent n e) ((s.ac n).eng e).upc.toNat s = .ok ws s1) (hd : ∃ l r, decode (.eng e) ws = .ok (i, l, r)) :
    engTurn n e s = .run i { s1 with cur := engAgent n e } := by
  have h1 : ¬((s.ac n).cc.task.isNone = true ∨ (s.ac n).cc.entry.isSome = true ∨ (s.ac n).cc.saving = true) := by
    rw [hs, he, Option.isNone_eq_false_iff.2 ht]
    simp
  have h2 : (if e = .ax then axRetire n ((s.ac n).axq.length + 1) s else s) = s := by
    split
    · next h => exact axRetire_of_busy (fun c hc => (hax h c hc).1) _
    · rfl
  have h3 : ¬(((s.ac n).eng e).giveN ≠ 0 ∨ ((s.ac n).eng e).xl.isSome = true ∨ ((s.ac n).eng e).st = 3 ∨ s.cycle < ((s.ac n).eng e).startAt) := by
    rw [hg, hx]
    rcases h12 with h | h <;> simp [h, hst]
  have h4 : ((s.ac n).eng e).st ≠ 0 := by rcases h12 with h | h <;> simp [h]
  have h5 : (e == .ax && ((match (s.ac n).axq with | c :: _ => c.done | [] => false) || (s.ac n).axq.any fun c => !c.done && !c.rows.isEmpty)) = false := by
    rw [Bool.and_eq_false_iff]
    by_cases h : e = .ax
    · right
      rw [Bool.or_eq_false_iff]
      refine ⟨?_, List.any_eq_false.2 fun c hc => by simp [(hax h c hc).2]⟩
      split
      · next c r hq => exact (hax h c (by rw [hq]; exact List.mem_cons_self)).1
      · rfl
    · left; simpa using h
  have h6 : ¬(e = .va ∧ ((s.ac n).vec.issued = s.cycle + 1 ∨ (s.ac n).vec.owes s.cycle = true)) := by
    rintro ⟨h, h'⟩
    rcases h' with h' | h'
    · exact (hva h).1 h'
    · rw [(hva h).2] at h'; cases h'
  rw [engTurn, if_neg h1]
  simp only [payOwed_of_zero hg, h2]
  rw [if_neg h3, if_neg h4]
  refine (if_neg (Bool.eq_false_iff.1 h5)).trans ?_
  rw [if_neg h6, engFetchInstr]
  simp only [hw, decodeAt_of_decode hd]

theorem kettleTurn_run {q : Nat} {s : State} {c : KCmd} {w : W64} {i : Instr} (hr : (s.kettle q).run = some c) (ha : (s.kettle q).abort = false)
    (hp : c.prog[(s.kettle q).kpc]? = some w) (hd : kdecode w = some i) : kettleTurn q s = .run i { s with cur := .kettle q } := by
  simp [kettleTurn, hr, ha, hp, hd]

/-- A granule of a line, as its home holds the line's bytes (R278). -/
theorem homeLine_granule (s : State) (k : Nat) (h : k % 4 = 0) :
    ((s.homeLine (k / 128)).extractLsb' (8 * (k % 128)) 32).toNat = leNat ((List.range 4).map fun i => s.homeByte (k + i)) := by
  have hl : ((List.range 128).map fun i => s.homeByte (128 * (k / 128) + i)).length = 128 := by simp
  have h0 : leNat ((List.range 128).map fun i => s.homeByte (128 * (k / 128) + i)) < 2 ^ 1024 := by
    refine (leNat_lt ((List.range 128).map fun i => s.homeByte (128 * (k / 128) + i))).trans_eq ?_
    exact (congrArg (256 ^ ·) hl).trans (Nat.pow_mul 2 8 128).symm
  have hs := leNat_slice ((List.range 128).map fun i => s.homeByte (128 * (k / 128) + i)) (k % 128) 4 (by rw [hl]; omega)
  rw [BitVec.extractLsb'_toNat, State.homeLine, BitVec.toNat_ofNat, Nat.mod_eq_of_lt h0, Nat.shiftRight_eq_div_pow,
    show (2 : Nat) ^ (8 * (k % 128)) = 256 ^ (k % 128) from by rw [Nat.pow_mul], show (2 : Nat) ^ 32 = 256 ^ 4 from Nat.pow_mul 2 8 4, hs]
  congr 1
  refine List.ext_getElem (by simp; omega) fun i h1 h2 => ?_
  simp only [List.length_map, List.length_range] at h2
  simp only [List.getElem_take, List.getElem_drop, List.getElem_map, List.getElem_range]
  congr 1
  omega

theorem fetchGranule_home {n u va pa : Nat} {at' : BitVec 2} {s s1 : State} (hv : va < 2 ^ 55) (hx : xlate (.ac n u) .fetch va s = .ok (pa, at') s1)
    (hc : checkAccess s1 (.ac n u) .fetch pa 4 = none) (hm : mmioOf (dieOf n) pa = none)
    (hi : smFind (s1.ac n).cc.icache (canonPa (dieOf n) pa / 128) = none) :
    fetchGranule n (.ac n u) va s = .ok ((s1.homeLine (canonPa (dieOf n) pa / 128)).extractLsb' (8 * (canonPa (dieOf n) pa % 128)) 32)
      (s1.modCC n fun c => { c with icache := smSet c.icache (canonPa (dieOf n) pa / 128) (s1.homeLine (canonPa (dieOf n) pa / 128)) }) := by
  have hr : addrRange (BitVec.ofNat 64 va) s = .ok () s := by
    rw [addrRange, BitVec.toNat_ofNat, Nat.mod_eq_of_lt (by omega), if_pos hv]
    rfl
  rw [fetchGranule, bindM_ok hr, bindM_ok hx]
  dsimp only
  rw [bindM_ok (show (get : M State) s1 = .ok s1 s1 from rfl)]
  simp only [hc, hm, State.codeLine, hi]
  rfl

/-- Settles O57: nothing being taken or held before, each unit's turn is to run what it fetched. -/
theorem stepRunsDecoded : Obligations.StepRunsDecoded := by
  unfold Obligations.StepRunsDecoded
  intro s x rest hag hst s0
  obtain ⟨hstep, hs0⟩ := step_of_agenda hag hst
  refine ⟨?_, ?_, ?_, ?_, ?_⟩
  · rintro n i ws s1 rfl hn hb ht hs ha hx hw hd
    rw [hstep, turn_cc exec hs0 hn, ccTurn_run hb ht hs ha hx hw hd, runFetched]
  · rintro n e i ws s1 rfl hn ht hs he hg hx h12 hst' hax hva hw hd
    rw [hstep, turn_eng exec hs0 e hn, engTurn_run (s := { s with agenda := rest }) ht hs he hg hx h12 hst' hax hva hw hd, runFetched]
  · rintro q c w i rfl hq hr ha hp hd
    rw [hstep, turn_kettle exec hs0 hq, kettleTurn_run (s := { s with agenda := rest }) hr ha hp hd, runFetched]
  · rintro i rfl hu
    rw [hstep, turn_event exec hs0 hu]
  · intro n va pa u at' s1 hv hx hc hm k hi hk
    exact ⟨_, _, fetchGranule_home hv hx hc hm hi, homeLine_granule s1 k hk, rfl, rfl⟩

end Sys2Proof

/-! # A predicate that is false (R270) -/

namespace Sys2Proof

open Machine

/- Declarations are checked one after another: side by side they would hold a thread each. -/
set_option Elab.async false

/-! ### Instructions whose predicate is false (R270) -/

section
variable {n : Nat} {h : Head} {s : State} {i : Instr}

/-- A control core at its turn, whose instruction's predicate is false. -/
def CcIdles (n : Nat) (h : Head) (s : State) : Prop := s.cur = .ac n 0 ∧ (s.ac n).cc.enabled h = false

theorem ccRun_idles (hi : CcIdles n h s) (f : Nat → M Flow) : ccRun h i f s = .next (ccDone n h s) :=
  ccRun_off h i f n s hi.1 (by rw [hi.2])

theorem exec_idles_of_ccRun {j : Instr} (hi : CcIdles n h s) (hx : ∃ f, exec i s = ccRun h j f s) : exec i s = .next (ccDone n h s) := by
  obtain ⟨f, hx⟩ := hx
  rw [hx, ccRun_idles hi]

theorem ccStep_idles (hi : CcIdles n h s) (g : CC → CC) (fl : CC → Flow) :
    s.modCC n (fun c => c.step h g fl) = ccDone n h s := by
  simp only [ccDone, State.modCC, State.modAc, CC.step, hi.2, Bool.false_eq_true, if_false]

theorem ccPure_idles (hi : CcIdles n h s) (g : CC → CC) : ccPure h g s = .next (ccDone n h s) := by
  rw [ccPure_eq h g n s hi.1, ccStep_idles hi]

theorem ccBranch_idles (hi : CcIdles n h s) (t : CC → W64) : ccBranch h t s = .next (ccDone n h s) := by
  simp only [ccBranch, hi.1, ccStep_idles hi]

theorem execLoop_idles {k : Bool} {a : Src} {bl : BitVec 12} (hi : CcIdles n h s) : execLoop h k a bl s = .next (ccDone n h s) := by
  simp only [execLoop, hi.1, ccStep_idles hi]

theorem execTrap_idles {a : Src} (hi : CcIdles n h s) : execTrap h a s = .next (ccDone n h s) := by
  simp only [execTrap, hi.1, hi.2, Bool.false_eq_true, if_false]
  rfl

theorem memRun_idles (hi : CcIdles n h s) (chk f : Nat → Nat → M Unit) :
    memRun h i chk f s = .next (ccDone n h s) := by
  simp only [memRun, hi.1, ccRun_idles hi]

theorem ccRunChecked_idles {ok : CC → Bool} (hi : CcIdles n h s) (hok : ok (s.ac n).cc = true) (f : Nat → M Flow) :
    ccRunChecked h i ok f s = .next (ccDone n h s) := by
  simp only [ccRunChecked, hi.1, hok, if_true, ccRun_idles hi]

theorem execMxcfg_idles {k : BitVec 6} {a : Src} (hi : CcIdles n h s) (hk : mxNumber k.toNat = true) : execMxcfg h k a s = .next (ccDone n h s) := by
  simp only [execMxcfg, hi.1, hk, if_true, mxRun, ccRun_idles hi]

/-- Each instruction runs in one of the forms above, and its own check has passed. -/
theorem exec_idles (hp : plainHead i = some h) (ho : ownCheck (s.ac n).cc i) (hi : CcIdles n h s) : exec i s = .next (ccDone n h s) := by
  cases i with
  | add | sub | mul | mulh | mulhu | div | divu | rem | remu | and | or | xor | andn | shl | shr | sha | rol | min | minu | max | maxu | clz | ctz
  | popc | bfx | bfi | sel | li | lih | lea | leaPc | cmp | plog | pmovToPred | pmovToScalar | pmovAll | pmovSet | fadd | fsub | fmul | ffma | fdiv
  | fsqrt | fcmp | fcvt | fminmax | nop => cases hp; exact ccPure_idles hi _
  | br | jmp => cases hp; exact ccBranch_idles hi _
  | loop => cases hp; exact execLoop_idles hi
  | trap => cases hp; exact execTrap_idles hi
  | ld | st | lds | sts | amo | cas | phase | fence | clean | inval | pref =>
    cases hp
    simp only [exec, execLd, execSt, execLds, execSts, execAmo, execCas, execPhase, execFence, execClean, execInval, execPref, cleanRange, memRun_idles hi]
  | pcarve => cases hp; exact ccRunChecked_idles hi (ok := fun c => decide ((c.src _).toNat % 16 ≤ 8)) (decide_eq_true ho) _
  | mxcfg => cases hp; exact execMxcfg_idles hi (decide_eq_true (show (_ : Nat) ≤ 12 ∨ _ from ho))
  | jmpr | call | ret | fork | join | pushc | pushk | retq | coord | wfe | halt | tlwait | cpy | cpyt | cpyw | pour
  | pwait | pjoin | pleave | pclose | pcloseRetire | nmrun | nmfence | rwait | rfree | mxgo | mxfmt | mxmode | mxzero | mxdrain =>
    cases hp; exact exec_idles_of_ccRun hi ⟨_, rfl⟩
  | gset | gclr | sev | brk | tlread | mxstat =>
    cases hp
    simp only [exec, execGset, execGclr, execSev, execBrk, execTlread, execMxstat, ccRun_idles hi]
  | _ => cases hp

/-- What a retirement alone leaves. -/
theorem ccDone_frame : CcFrame n [] [] [] s (ccDone n h s) := by
  have ht : ((ccDone n h s).ac n).cc = (s.ac n).cc.retire h .seq := by simp only [ccDone, State.modCC_ac, if_true]
  obtain ⟨hs, hp, hr, hsame⟩ := retire_regsBut (s.ac n).cc h
  rw [← ht] at hs hp hr hsame
  exact ⟨onlyCc_modCC .., hs, hp, hr, hsame⟩

theorem ccDone_cc : ((ccDone n h s).ac n).cc = (s.ac n).cc.retire h .seq := by simp only [ccDone, State.modCC_ac, if_true]

end

/-- Settles O5: whatever runs the instruction tests the predicate before anything else, but for the two checks. -/
theorem predicateFalse : Obligations.PredicateFalse := by
  unfold Obligations.PredicateFalse
  intro n s i h hp ho hc hen
  exact ⟨_, exec_idles hp ho ⟨hc, hen⟩, ccDone_frame, fun hl => by rw [ccDone_cc, retire_pc hl]⟩

end Sys2Proof

/-! # Branches, loops and the end-of-body test (R299 to R303) -/

namespace Sys2Proof

open Machine

/-! ### Branches (R299, R300, R277) -/

theorem modCC_modCC (s : State) (n : Nat) (f g : CC → CC) : (s.modCC n f).modCC n g = s.modCC n fun c => g (f c) := by
  simp only [State.modCC, State.modAc, setAc_setAc, State.setAc_ac, if_true]

section
variable {n : Nat} {h : Head} {s : State} {i : Instr}

theorem branchOffset {w : Nat} (off : BitVec w) : off.signExtend 64 * 4 = BitVec.ofInt 64 (4 * off.toInt) := by
  rw [BitVec.signExtend, show (4 : BitVec 64) = BitVec.ofInt 64 4 from rfl, ← BitVec.ofInt_mul, Int.mul_comm]

/-- The CC after a taken branch to v that has changed its registers by g. -/
def branched (g : CC → CC) (v : W64) (c : CC) : CC := { g c with wait := none, pc := v }

theorem branched_frame {ds : List (BitVec 6)} {g : CC → CC} {v : W64} (hx : exec i s = .next (s.modCC n (branched g v)))
    (hg : RegsBut ds [] [] (s.ac n).cc (g (s.ac n).cc)) (hsr : ∀ k, (g (s.ac n).cc).sr k = (s.ac n).cc.sr k)
    (hd : ∀ d, d ∈ ds → d ≠ 0 → (g (s.ac n).cc).s d = (s.ac n).cc.pc + Head.size h) :
    ∃ t, exec i s = .next t ∧ OnlyCc n s t ∧ (t.ac n).cc.pc = v
      ∧ SRegsBut ds (s.ac n).cc (t.ac n).cc ∧ PredsBut [] (s.ac n).cc (t.ac n).cc
      ∧ (∀ k, (t.ac n).cc.sr k = (s.ac n).cc.sr k) ∧ CcSame (s.ac n).cc (t.ac n).cc
      ∧ (∀ d, d ∈ ds → d ≠ 0 → (t.ac n).cc.s d = (s.ac n).cc.pc + Head.size h) := by
  have ht : ((s.modCC n (branched g v)).ac n).cc = branched g v (s.ac n).cc := by simp only [State.modCC_ac, if_true]
  obtain ⟨hs, hp, -, hsame⟩ := hg
  refine ⟨_, hx, onlyCc_modCC .., ?_⟩
  rw [ht]
  exact ⟨rfl, hs, hp, hsr, hsame, hd⟩

theorem exec_ccBranch {t : CC → W64} (ha : CcActs n h s) (hx : exec i s = ccBranch h t s) :
    exec i s = .next (s.modCC n (branched id (t (s.ac n).cc))) := by
  rw [hx]
  simp only [ccBranch, ha.1, State.modCC, State.modAc, CC.step, ha.2, if_true]
  rfl

/-- A branch to a register tests its alignment first (R277), and then changes registers by g and jumps. -/
def BranchesTo (n : Nat) (v : W64) (g : CC → CC) (f : Nat → M Flow) (s : State) : Prop :=
  ∃ k u, f n s = (aligned v >>= k) s ∧ k () s = .ok (.jump v) u
    ∧ ∀ h, (u.modCC n fun c => c.retire h (.jump v)) = s.modCC n (branched g v)

theorem exec_registerBranch {v : W64} {g : CC → CC} (ha : CcActs n h s)
    (hx : ∃ f, exec i s = ccRun h i f s ∧ BranchesTo n v g f s) (hv : v.toNat % 4 = 0) :
    exec i s = .next (s.modCC n (branched g v)) := by
  obtain ⟨f, hx, k, u, hf, hk, hu⟩ := hx
  have hal : aligned v s = .ok () s := need_true (by simp [hv])
  rw [hx, ccRun_ok h i f n s u _ ha.1 ha.2 (by rw [hf, bindM_ok hal, hk]), hu]

theorem exec_registerBranch_traps {v : W64} {g : CC → CC} (ha : CcActs n h s)
    (hx : ∃ f, exec i s = ccRun h i f s ∧ BranchesTo n v g f s) (hv : v.toNat % 4 ≠ 0) :
    exec i s = .next (syncTrap n 0x05 v 0 s) := by
  obtain ⟨f, hx, k, u, hf, -, -⟩ := hx
  rw [hx]
  exact ccRun_trap ha (hf.trans (bindM_error (need_false (by simp [hv]))))

theorem exec_jmpr_branches (n : Nat) (h : Head) (a b : Src) (s : State) : ∃ f, exec (.jmpr h a b) s = ccRun h (.jmpr h a b) f s
    ∧ BranchesTo n ((s.ac n).cc.src a + (s.ac n).cc.src b) id f s :=
  ⟨_, rfl, fun _ => pure (.jump _), s, rfl, rfl, fun _ => rfl⟩

theorem exec_ret_branches (n : Nat) (h : Head) (a : BitVec 6) (s : State) : ∃ f, exec (.ret h a) s = ccRun h (.ret h a) f s
    ∧ BranchesTo n ((s.ac n).cc.s a) id f s :=
  ⟨_, rfl, fun _ => pure (.jump _), s, rfl, rfl, fun _ => rfl⟩

theorem exec_call_branches (n : Nat) (h : Head) (d : BitVec 6) (a : Src) (s : State) : ∃ f, exec (.call h d a) s = ccRun h (.call h d a) f s
    ∧ BranchesTo n (callTarget (s.ac n).cc a) (fun c => c.setS d (c.pc + Head.size h)) f s :=
  ⟨_, rfl, fun _ => do act fun s => s.modCC n fun c => c.setS d (c.pc + Head.size h); pure (.jump _), _, rfl, rfl,
    fun _ => modCC_modCC ..⟩

end

theorem callTarget_eq {n : Nat} {s : State} {h h' : Head} {d : BitVec 6} {a : Src} {v : W64}
    (hv : branchTarget (s.ac n).cc (.call h d a) = some (h', v)) : h = h' ∧ callTarget (s.ac n).cc a = v := by
  cases a <;> cases hv <;> refine ⟨rfl, ?_⟩
  · rfl
  all_goals exact congrArg ((s.ac n).cc.pc + ·) (BitVec.mul_comm ..)

/-- R299, R300, R277. -/
theorem branchTaken : ruleBranchTaken := by
  intro n s i h v hv ha
  have frame_id {i : Instr} (hx : exec i s = .next (s.modCC n (branched id v))) :=
    branched_frame hx (regsBut_refl [] [] [] _) (fun _ => rfl) (h := h) (by simp)
  cases i with
  | br h' off | jmp h' off =>
    cases hv
    refine ⟨fun _ => frame_id ?_, False.elim⟩
    rw [exec_ccBranch (t := fun c => c.pc + off.signExtend 64 * 4) ha rfl, branchOffset]
  | jmpr h' a b =>
    cases hv
    have hx := exec_jmpr_branches n h a b s
    exact ⟨fun hc => frame_id (exec_registerBranch ha hx (not_not.mp hc)), exec_registerBranch_traps ha hx⟩
  | ret h' a =>
    cases hv
    have hx := exec_ret_branches n h a s
    exact ⟨fun hc => frame_id (exec_registerBranch ha hx (not_not.mp hc)), exec_registerBranch_traps ha hx⟩
  | call h' d a =>
    obtain ⟨rfl, rfl⟩ := callTarget_eq hv
    have hx := exec_call_branches n h' d a s
    refine ⟨fun hc => branched_frame (exec_registerBranch ha hx (not_not.mp hc)) (regsBut_setS ..) (fun _ => by simp [CC.sr]) fun r hr h0 => ?_,
      exec_registerBranch_traps ha hx⟩
    obtain rfl := List.mem_singleton.mp hr
    rw [CC.setS_s, if_pos rfl, if_neg h0]
  | _ => cases hv


/-! ### Loops and the end-of-body test (R302, R303) -/

/-- The levels of the CC, their counts and its PC, as `endTest` gives them. -/
def CC.loops (c : CC) : Bool × Bool × W64 × W64 × W64 := (c.la0, c.la1, c.sr 0x010, c.sr 0x013, c.pc)

theorem testLevel_one (c : CC) (f : W64) : c.testLevel 1 f =
    if c.la1 = true ∧ f = c.sr 0x01B then
      if 1 < (c.sr 0x013).toNat then (c.setSr 0x013 (c.sr 0x013 - 1), some (c.sr 0x01A)) else ({ c.setSr 0x013 0 with la1 := false }, none)
    else (c, none) := by
  simp only [CC.testLevel, if_true, Bool.and_eq_true, beq_iff_eq]

theorem testLevel_zero (c : CC) (f : W64) : c.testLevel 0 f =
    if c.la0 = true ∧ f = c.sr 0x019 then
      if 1 < (c.sr 0x010).toNat then (c.setSr 0x010 (c.sr 0x010 - 1), some (c.sr 0x018)) else ({ c.setSr 0x010 0 with la0 := false }, none)
    else (c, none) := by
  simp only [CC.testLevel, Bool.and_eq_true, beq_iff_eq]
  rfl

/-- Level 0 of the test, and the PC that it leaves. -/
def endLevel0 (c : CC) (f : W64) : CC :=
  match c.testLevel 0 f with
  | (c, some t) => { c with pc := t }
  | (c, none) => { c with pc := f }

theorem endLevel0_loops (c : CC) (f : W64) : CC.loops (endLevel0 c f) =
    if c.la0 = true ∧ f = c.sr 0x019 then
      if 1 < (c.sr 0x010).toNat then (true, c.la1, c.sr 0x010 - 1, c.sr 0x013, c.sr 0x018) else (false, c.la1, 0, c.sr 0x013, f)
    else (c.la0, c.la1, c.sr 0x010, c.sr 0x013, f) := by
  unfold endLevel0
  rw [testLevel_zero]
  by_cases h0 : c.la0 = true ∧ f = c.sr 0x019
  · by_cases hn : 1 < (c.sr 0x010).toNat
    · simp only [if_pos h0, if_pos hn]
      show (c.la0, c.la1, (c.setSr 0x010 _).sr 0x010, (c.setSr 0x010 _).sr 0x013, c.sr 0x018) = _
      simp [h0.1]
    · simp only [if_pos h0, if_neg hn]
      show (false, c.la1, (c.setSr 0x010 0).sr 0x010, (c.setSr 0x010 0).sr 0x013, f) = _
      simp
  · simp only [if_neg h0]
    rfl

theorem endBody_loops (c : CC) (f : W64) : CC.loops (c.endBody f) = endTest c f := by
  have hb : c.endBody f = match c.testLevel 1 f with | (c, some t) => { c with pc := t } | (c, none) => endLevel0 c f := rfl
  rw [hb, testLevel_one]
  by_cases h1 : c.la1 = true ∧ f = c.sr 0x01B
  · obtain ⟨hl, hf⟩ := h1
    by_cases hn : 1 < (c.sr 0x013).toNat
    · simp only [hl, ← hf, hn, and_self, if_true, endTest]
      show (c.la0, c.la1, (c.setSr 0x013 _).sr 0x010, (c.setSr 0x013 _).sr 0x013, c.sr 0x01A) = _
      simp [hl]
    · simp only [hl, ← hf, hn, and_self, if_true, and_false, if_false, endTest, endLevel0_loops]
      show (if c.la0 = true ∧ f = (c.setSr 0x013 0).sr 0x019 then
        if 1 < ((c.setSr 0x013 0).sr 0x010).toNat then (true, false, (c.setSr 0x013 0).sr 0x010 - 1, (c.setSr 0x013 0).sr 0x013, (c.setSr 0x013 0).sr 0x018)
        else (false, false, 0, (c.setSr 0x013 0).sr 0x013, f)
        else (c.la0, false, (c.setSr 0x013 0).sr 0x010, (c.setSr 0x013 0).sr 0x013, f)) = _
      simp
  · have hl : (c.la1 && f != c.sr 0x01B) = c.la1 := by
      cases hl : c.la1
      · rfl
      · simpa using fun he => h1 ⟨hl, he⟩
    have hn : ¬(c.la1 = true ∧ f = c.sr 0x01B ∧ 1 < (c.sr 0x013).toNat) := fun h => h1 ⟨h.1, h.2.1⟩
    simp only [endTest, if_neg h1, if_neg hn, hl, endLevel0_loops]

/-- The registers of a level of the CC: its count, its next body, its body (Table 9-5). -/
def loopRegs (k : Bool) : Nat × Nat × Nat × Nat × Nat :=
  if k then (0x013, 0x014, 0x015, 0x01A, 0x01B) else (0x010, 0x011, 0x012, 0x018, 0x019)

/-- What LOOP writes into the registers of its level, with f the address after it. -/
def loopSet (k : Bool) (cnt : W64) (blen : BitVec 12) (f : W64) (c : CC) : CC :=
  let (rc, rs, re, ls, le) := loopRegs k
  (if blen ≠ 0 then
    (((c.setSr rs (addr55 f)).setSr ls (addr55 f)).setSr re (addr55 (addr55 f + BitVec.ofNat 64 (4 * blen.toNat)))).setSr le
      (addr55 (addr55 f + BitVec.ofNat 64 (4 * blen.toNat)))
  else (c.setSr ls (c.sr rs &&& ~~~ 3)).setSr le (c.sr re &&& ~~~ 3)).setSr rc cnt

/-- LOOP writes no more than system registers there. -/
theorem loopSet_eq (k : Bool) (cnt : W64) (blen : BitVec 12) (f : W64) (c : CC) :
    loopSet k cnt blen f c = { c with sys := (loopSet k cnt blen f c).sys } := by
  unfold loopSet
  split
  split <;> rfl

/-- A level active or not. -/
def setLevel (k on : Bool) (c : CC) : CC := if k then { c with la1 := on } else { c with la0 := on }

@[simp] theorem setLevel_sr (k on : Bool) (c : CC) (r : Nat) : (setLevel k on c).sr r = c.sr r := by cases k <;> rfl

theorem setLevel_regsBut (k on : Bool) (c : CC) : RegsBut [] [] [] c (setLevel k on c) := by
  cases k <;> exact regsBut_levels ..

theorem setLevel_on (k on : Bool) (c : CC) : (if k then (setLevel k on c).la1 else (setLevel k on c).la0) = on := by cases k <;> rfl

/-- The CC after LOOP has set its level, before it goes on. -/
def loopOpened (k : Bool) (cnt : W64) (blen : BitVec 12) (f : W64) (c : CC) : CC := setLevel k (cnt != 0) (loopSet k cnt blen f c)

/-- Where the CC goes on with a level set. -/
def loopGo (t f : W64) (o : CC) : CC := if t = f then o.endBody f else { o with pc := t }

theorem loopOpened_pc (k : Bool) (cnt : W64) (blen : BitVec 12) (f : W64) (c : CC) : (loopOpened k cnt blen f c).pc = c.pc := by
  rw [loopOpened, loopSet_eq]
  cases k <;> rfl

theorem loopOpen_eq (h : Head) (k : Bool) (cnt : W64) (blen : BitVec 12) (c : CC) :
    loopOpen h k cnt blen c =
      let o := loopOpened k cnt blen (c.pc + Head.size h) c
      loopGo (if cnt = 0 then o.sr (if k then 0x01B else 0x019) else o.sr (if k then 0x01A else 0x018)) (c.pc + Head.size h) o := by
  have hopen : loopOpen h k cnt blen c =
      let o := loopOpened k cnt blen (c.pc + Head.size h) c
      loopGo (if cnt != 0 then o.sr (if k then 0x01A else 0x018) else o.sr (if k then 0x01B else 0x019)) (o.pc + Head.size h) o := by
    cases k <;> rfl
  rw [hopen]
  by_cases hc : cnt = 0 <;> simp only [loopOpened_pc, hc, bne_self_eq_false, Bool.false_eq_true, if_false, if_true, bne_iff_ne, ne_eq, not_false_iff]

theorem loopGo_regsBut (t f : W64) (o : CC) : RegsBut [] [] [] o (loopGo t f o) := by
  unfold loopGo
  split
  · exact endBody_regsBut ..
  · exact regsBut_pc ..

theorem loopGo_loops (t f : W64) (o : CC) :
    CC.loops (loopGo t f o) = if t = f then endTest o f else (o.la0, o.la1, o.sr 0x010, o.sr 0x013, t) := by
  unfold loopGo
  split
  · exact endBody_loops ..
  · rfl

theorem loopOpened_keeps (k : Bool) (cnt : W64) (blen : BitVec 12) (f : W64) (c : CC) :
    SRegsBut [] c (loopOpened k cnt blen f c) ∧ PredsBut [] c (loopOpened k cnt blen f c) ∧ CcSame c (loopOpened k cnt blen f c) := by
  obtain ⟨hs, hp, -, hsame⟩ := setLevel_regsBut k (cnt != 0) (loopSet k cnt blen f c)
  rw [loopSet_eq] at hs hp hsame
  rw [loopOpened, loopSet_eq]
  exact ⟨hs, hp, hsame⟩

theorem loopOpened_other (k : Bool) (cnt : W64) (blen : BitVec 12) (f : W64) (c : CC) :
    if k then (loopOpened k cnt blen f c).la0 = c.la0 else (loopOpened k cnt blen f c).la1 = c.la1 := by
  rw [loopOpened, loopSet_eq]
  cases k <;> rfl

/-- R302: the registers of the level. -/
theorem loopOpened_sr (k : Bool) (cnt : W64) (blen : BitVec 12) (f : W64) (c : CC) :
    let o := loopOpened k cnt blen f c
    let (rc, rs, re, ls, le) := loopRegs k
    (∀ j, j ∉ [rc, rs, re, ls, le] → o.sr j = c.sr j) ∧ o.sr rc = cnt
      ∧ (blen ≠ 0 → o.sr ls = addr55 f ∧ o.sr rs = o.sr ls
          ∧ o.sr le = addr55 (o.sr ls + BitVec.ofNat 64 (4 * blen.toNat)) ∧ o.sr re = o.sr le)
      ∧ (blen = 0 → o.sr rs = c.sr rs ∧ o.sr re = c.sr re ∧ o.sr ls = c.sr rs &&& ~~~ 3 ∧ o.sr le = c.sr re &&& ~~~ 3) := by
  cases k <;> by_cases hb : blen = 0#12 <;> simp +contextual [loopOpened, loopSet, loopRegs, hb]

/-- R302, R303. -/
theorem loopOpens : ruleLoopOpens := by
  intro n s h k a blen ha c rc rs re ls le f
  have hx : exec (.loop h k a blen) s = .next (s.modCC n fun c => { loopOpen h k (c.src a) blen c with wait := none }) := by
    show execLoop h k a blen s = _
    simp only [execLoop, ha.1, State.modCC, State.modAc, CC.step, ha.2, if_true]
    rfl
  have ht : ((s.modCC n fun c => { loopOpen h k (c.src a) blen c with wait := none }).ac n).cc
      = { loopOpen h k (c.src a) blen c with wait := none } := by simp only [State.modCC_ac, if_true]; rfl
  let o := loopOpened k (c.src a) blen f c
  obtain ⟨hso, hpo, hsameo⟩ := loopOpened_keeps k (c.src a) blen f c
  obtain ⟨hs, hp, hsys, hsame⟩ := loopGo_regsBut (if c.src a = 0 then o.sr le else o.sr ls) f o
  have hsame' : CcSame c (loopGo (if c.src a = 0 then o.sr le else o.sr ls) f o) := by
    simp only [CcSame] at hsameo hsame ⊢
    simp only [hsame, hsameo, and_self, o]
  obtain ⟨hj, hrc, hlit, hreg⟩ := loopOpened_sr k (c.src a) blen f c
  have hon := setLevel_on k (c.src a != 0) (loopSet k (c.src a) blen f c)
  have hother := loopOpened_other k (c.src a) blen f c
  have hloops := loopGo_loops (if c.src a = 0 then o.sr le else o.sr ls) f o
  refine ⟨_, o, hx, onlyCc_modCC .., ?_⟩
  rw [ht, loopOpen_eq]
  cases k <;> exact ⟨fun r hr => (hs r hr).trans (hso r hr), fun r hr => (hp r hr).trans (hpo r hr), hsame', hj, hrc, hlit, hreg, hon, hother,
    fun j h0 h1 => hsys j List.not_mem_nil h0 h1, hloops⟩

/-- R303, R321. -/
theorem endOfBody : ruleEndOfBody := by
  intro n s h hc c r
  have hx : exec (.nop h) s = .next (ccDone n h s) := by
    show ccPure h id s = _
    rw [ccPure_eq h id n s hc]
    simp only [ccDone, State.modCC, State.modAc, CC.step, id, ite_self]
  have hloops : CC.loops ((ccDone n h s).ac n).cc = r := by rw [ccDone_cc]; exact endBody_loops ..
  simp only [CC.loops, Prod.ext_iff] at hloops
  exact ⟨_, hx, ccDone_frame, hloops⟩

/-- Settles O6: branches jump or fault, LOOP opens its level, and both it and a NOP end in the end-of-body test. -/
theorem controlFlow : Obligations.ControlFlow := ⟨branchTaken, loopOpens, endOfBody⟩

end Sys2Proof

/-! # Guard slots and event flags (R305, R320) -/

namespace Sys2Proof

open Machine

/-! ### Guard slots (R305, R229) -/

section
variable {n : Nat} {h : Head} {s : State}

/-- The cluster after a guard write by its CC, which retires. -/
def guardWritten (h : Head) (g : Nat) (v : Option Bool) (a : AC) : AC :=
  { a.guardWrite 6 g v with cc := a.cc.retire h .seq }

theorem guardWritten_applied {g : Nat} {v : Option Bool} {a : AC} (hgw : a.ln.gw = []) : (guardWritten h g v a).applyGuards.cc.guard g = v := by
  cases v <;> simp [guardWritten, AC.guardWrite, AC.applyGuards, hgw, insGuard, CC.guard, smFind_smErase, smFind_smSet]

/-- What both forms leave. -/
theorem guardWritten_frame {i : Instr} {g : BitVec 5} {v : Option Bool} (hx : exec i s = .next (s.modAc n (guardWritten h g.toNat v))) :
    ∃ t, exec i s = .next t ∧ OnlyAc n s t ∧ t.ac n = { s.ac n with cc := (s.ac n).cc.retire h .seq, ln := (t.ac n).ln }
      ∧ (t.ac n).ln = { (s.ac n).ln with gw := insGuard (6, g.toNat, v) (s.ac n).ln.gw }
      ∧ ((s.ac n).ln.gw = [] → (t.ac n).applyGuards.cc.guard g.toNat = v) := by
  refine ⟨_, hx, onlyAc_setAc .., ?_⟩
  simp only [State.modAc_ac, if_true]
  exact ⟨rfl, rfl, guardWritten_applied⟩

theorem modAc_modCC (s : State) (n : Nat) (f : AC → AC) (g : CC → CC) :
    (s.modAc n f).modCC n g = s.modAc n fun a => { f a with cc := g (f a).cc } := by
  simp only [State.modCC, State.modAc, setAc_setAc, State.setAc_ac, if_true]

theorem exec_gset_eq (ha : CcActs n h s) (g : BitVec 5) (a : GSrc) :
    exec (.gset h g a) s = .next (s.modAc n (guardWritten h g.toNat (some (guardValue (s.ac n).cc a)))) := by
  show execGset h g a s = _
  refine (ccRun_ok h _ _ n s _ .seq ha.1 ha.2 rfl).trans ?_
  rw [modAc_modCC]
  have hv : (match a with | .val v => (s.ac n).cc.src v != 0 | .pred p => (s.ac n).cc.p p) = guardValue (s.ac n).cc a := by
    cases a with
    | val v => simp only [guardValue, bne, ne_eq, decide_not]; rfl
    | pred p => rfl
  simp only [State.modAc]
  rw [← hv]
  rfl

theorem exec_gclr_eq (ha : CcActs n h s) (g : BitVec 5) : exec (.gclr h g) s = .next (s.modAc n (guardWritten h g.toNat none)) := by
  show execGclr h g s = _
  refine (ccRun_ok h _ _ n s _ .seq ha.1 ha.2 rfl).trans ?_
  rw [modAc_modCC]
  rfl

end

theorem guardsWritten : ruleGuardWritten := by
  intro n s h g ha c
  exact ⟨fun a => guardWritten_frame (exec_gset_eq ha g a), guardWritten_frame (exec_gclr_eq ha g)⟩

/-! ### The event flag (R320) -/

section
variable {n : Nat} {h : Head} {s : State}

/-- Setting event flags changes nothing else. -/
theorem setEvts_ac (l : List Nat) (s : State) (m : Nat) : (l.foldl (fun s m => s.setEvt m) s).ac m
    = { s.ac m with cc := { (s.ac m).cc with evt := decide (m ∈ l) || (s.ac m).cc.evt } } := by
  induction l generalizing s with
  | nil => simp
  | cons k l ih =>
    rw [List.foldl_cons, ih, State.setEvt, State.modCC_ac]
    by_cases hm : m = k <;> simp [hm]

theorem setEvts_keep {β : Type} (p : State → β) (hp : ∀ s m, p (s.setEvt m) = p s) (l : List Nat) (s : State) :
    p (l.foldl (fun s m => s.setEvt m) s) = p s := by
  induction l generalizing s with
  | nil => rfl
  | cons k l ih => exact (ih _).trans (hp ..)

theorem mem_scopeAcs {sc : Scope} {m : Nat} (hsc : sc = .ac ∨ sc = .quad ∨ sc = .die) :
    m ∈ scopeAcs n sc ↔ (sc = .ac ∧ m = n) ∨ (sc = .quad ∧ m / 4 = n / 4) ∨ (sc = .die ∧ m / 64 = n / 64) := by
  rcases hsc with rfl | rfl | rfl
  · simp [scopeAcs]
  · simp only [scopeAcs, List.mem_map, List.mem_range, reduceCtorEq, false_and, true_and, false_or, or_false]
    exact ⟨fun ⟨i, hi, hm⟩ => by omega, fun hm => ⟨m % 4, by omega, by omega⟩⟩
  · simp only [scopeAcs, List.mem_map, List.mem_range, reduceCtorEq, false_and, true_and, false_or]
    exact ⟨fun ⟨i, hi, hm⟩ => by omega, fun hm => ⟨m % 64, by omega, by omega⟩⟩

theorem exec_sev_eq (ha : CcActs n h s) (sc : Scope) :
    exec (.sev h sc) s = .next (ccDone n h ((scopeAcs n sc).foldl (fun s m => s.setEvt m) s)) := by
  show execSev h sc s = _
  exact ccRun_ok h _ _ n s _ .seq ha.1 ha.2 rfl

/-- The end-of-body test asks for nothing of the event flag. -/
theorem testLevel_evt (c : CC) (k : Nat) (f : W64) (b : Bool) :
    ({ c with evt := b } : CC).testLevel k f = ({ (c.testLevel k f).1 with evt := b }, (c.testLevel k f).2) := by
  by_cases hk : k = 1
  · subst hk
    rw [testLevel_one, testLevel_one]
    show (if c.la1 = true ∧ f = c.sr 0x01B then if 1 < (c.sr 0x013).toNat then _ else _ else _) = _
    split
    · split <;> rfl
    · rfl
  · simp only [CC.testLevel, if_neg hk]
    show (if (c.la0 && f == c.sr 0x019) = true then if 1 < (c.sr 0x010).toNat then _ else _ else _) = _
    split
    · split <;> rfl
    · rfl

theorem endBody_evt (c : CC) (f : W64) (b : Bool) : ({ c with evt := b } : CC).endBody f = { c.endBody f with evt := b } := by
  unfold CC.endBody
  rw [testLevel_evt]
  rcases c.testLevel 1 f with ⟨d, _ | t⟩
  · simp only
    rw [testLevel_evt]
    rcases d.testLevel 0 f with ⟨e, _ | t⟩ <;> rfl
  · rfl

theorem retire_evt (c : CC) (h : Head) (b : Bool) : ({ c with evt := b } : CC).retire h .seq = { c.retire h .seq with evt := b } :=
  endBody_evt { c with wait := none } _ b

theorem exec_wfe_eq (h : Head) (s : State) : ∃ f, exec (.wfe h) s = ccRun h (.wfe h) f s
    ∧ f n s = (do
        if !(s.ac n).cc.evt then throw .wait
        act fun s => s.modCC n fun c => { c with evt := false }
        pure .seq : M Flow) s := ⟨_, rfl, rfl⟩

theorem exec_wfe_passes (ha : CcActs n h s) (he : (s.ac n).cc.evt = true) :
    exec (.wfe h) s = .next (s.modCC n fun c => { c.retire h .seq with evt := false }) := by
  obtain ⟨f, hx, hf⟩ := exec_wfe_eq (n := n) h s
  rw [hx, ccRun_ok h _ f n s _ .seq ha.1 ha.2 (by rw [hf, he]; rfl), modCC_modCC]
  simp only [retire_evt]

theorem exec_wfe_waits (ha : CcActs n h s) (he : (s.ac n).cc.evt = false) :
    ∃ t, exec (.wfe h) s = .next t ∧ CcWaits n (.wfe h) s t := by
  obtain ⟨f, hx, hf⟩ := exec_wfe_eq (n := n) h s
  rw [hx]
  exact ccRun_waits ha (by rw [hf, he]; rfl)

theorem wfeWake_reruns_wfe (n : Nat) (h : Head) : ∃ g, (∀ s0, exec (.wfeWake n) s0 = rerun n g s0) ∧ g (.wfe h) = some (exec (.wfe h)) :=
  ⟨_, fun s0 => (show exec (.wfeWake n) s0 = execWfeWake n s0 from rfl).trans rfl, rfl⟩

end

theorem eventFlags : ruleEventFlag := by
  intro n s h ha
  refine ⟨fun sc hsc => ?_, fun he => ?_, exec_wfe_waits ha⟩
  · have hself : n ∈ scopeAcs n sc := (mem_scopeAcs hsc).mpr (by rcases hsc with rfl | rfl | rfl <;> simp)
    have hac := setEvts_ac (scopeAcs n sc) s
    refine ⟨_, exec_sev_eq ha sc, fun m => ?_, fun m hm => ?_, ?_, ⟨?_, ?_, ?_⟩, ?_⟩
    · rw [ccDone, State.modCC_ac]
      split
      · next hm =>
        subst hm
        rw [if_pos ((mem_scopeAcs hsc).mp hself)]
        simp only [hac, hself, decide_true, Bool.true_or, retire_evt]
      · simp only [hac]
        by_cases hmem : m ∈ scopeAcs n sc
        · simp only [hmem, decide_true, Bool.true_or, if_pos ((mem_scopeAcs hsc).mp hmem)]
        · simp only [hmem, decide_false, Bool.false_or, if_neg (mt (mem_scopeAcs hsc).mpr hmem)]
    · simp only [ccDone, State.modCC_ac, if_neg hm, hac]
    · simp only [ccDone, State.modCC_ac, if_true, hac, hself, decide_true, Bool.true_or, retire_evt]
    · exact setEvts_keep State.mem (fun _ _ => rfl) ..
    · exact setEvts_keep State.hist (fun _ _ => rfl) ..
    · exact setEvts_keep State.agm (fun _ _ => rfl) ..
    · exact setEvts_keep State.dies (fun _ _ => rfl) ..
  · exact ⟨_, ccEnds_of_rerun (wfeWake_reruns_wfe n h) (exec_wfe_passes ha he), onlyCc_modCC .., by simp only [State.modCC_ac, if_true]⟩

/-- Settles O16: a guard write stands last among those of its cycle, and event flags are set by scope and cleared by the CC that waits for its own. -/
theorem guardsAndEvents : Obligations.GuardsAndEvents := ⟨guardsWritten, eventFlags⟩

end Sys2Proof

/-! # System registers and CARVE (R77, R78, R315) -/

namespace Sys2Proof

open Machine

/-! ### Running an effect -/

section
variable {α β : Type} {s : State}

theorem get_bindM (f : State → M β) : ((get : M State) >>= f) s = f s s := rfl

theorem act_bindM (g : State → State) (f : Unit → M β) : (act g >>= f) s = f () (g s) := rfl

theorem act_run (g : State → State) : act g s = .ok () (g s) := rfl

theorem pure_run (a : α) : (pure a : M α) s = .ok a s := rfl

theorem throw_run (st : Stop) : (throw st : M α) s = .error st s := rfl

theorem throw_bindM (st : Stop) (f : α → M β) : ((throw st : M α) >>= f) s = .error st s := rfl

theorem need_bindM (b : Bool) (cause : Nat) (i0 i1 : W64) (f : Unit → M β) :
    (need b cause i0 i1 >>= f) s = if b = true then f () s else .error (.trap cause i0 i1) s := by
  cases b <;> rfl

end

/-! ### Instructions that end by changing their CC -/

section
variable {n : Nat} {h : Head} {s : State} {i : Instr} {f : Nat → M Flow} {g : CC → CC}

/-- A change g of the CC that an instruction makes before it retires. -/
def ccSet (n : Nat) (h : Head) (g : CC → CC) (s : State) : State := s.modCC n fun c => (g c).retire h .seq

theorem ccRun_sets (ha : CcActs n h s) (hf : f n s = .ok .seq (s.modCC n g)) : ccRun h i f s = .next (ccSet n h g s) := by
  rw [ccRun_ok h i f n s _ .seq ha.1 ha.2 hf, modCC_modCC, ccSet]

theorem ccRun_done (ha : CcActs n h s) (hf : f n s = .ok .seq s) : ccRun h i f s = .next (ccDone n h s) :=
  ccRun_ok h i f n s _ .seq ha.1 ha.2 hf

theorem ccSet_cc (n : Nat) (h : Head) (g : CC → CC) (s : State) : ((ccSet n h g s).ac n).cc = (g (s.ac n).cc).retire h .seq := by
  simp only [ccSet, State.modCC_ac, if_true]

theorem ccSet_frame {ss : List (BitVec 6)} {ps : List (BitVec 4)} {rs : List Nat} (hg : RegsBut ss ps rs (s.ac n).cc (g (s.ac n).cc)) :
    CcFrame n ss ps rs s (ccSet n h g s) := by
  obtain ⟨hs, hp, hr, hsame⟩ := hg.trans (retire_regsBut _ h).of_nil
  rw [← ccSet_cc n h g s] at hs hp hr hsame
  exact ⟨onlyCc_modCC .., hs, hp, hr, hsame⟩

theorem regsBut_setSr (c : CC) (k : Nat) (v : W64) : RegsBut [] [] [k] c (c.setSr k v) :=
  ⟨fun _ _ => rfl, fun _ _ => rfl, fun m hm _ _ => by rw [CC.setSr_sr, if_neg (by simpa using hm)], by simp [CcSame]⟩

theorem ccRunChecked_ok {ok : CC → Bool} (hc : s.cur = .ac n 0) (hok : ok (s.ac n).cc = true) : ccRunChecked h i ok f s = ccRun h i f s := by
  simp only [ccRunChecked, hc, hok, if_true]

theorem ccRunChecked_illegal {ok : CC → Bool} (hc : s.cur = .ac n 0) (hok : ok (s.ac n).cc = false) :
    ccRunChecked h i ok f s = .next (syncTrap n 0x01 8 (word0 i) s) := by
  simp only [ccRunChecked, hc, hok, Bool.false_eq_true, if_false]
  rfl

theorem endBody_of_noLoopEnd {c : CC} {f : W64} (hl : NoLoopEnd c f) : c.endBody f = { c with pc := f } := by
  obtain ⟨h0, h1⟩ := hl
  simp only [CC.endBody, testLevel_one, if_neg h1, testLevel_zero, if_neg h0]

theorem retire_of_noLoopEnd {c : CC} (hl : NoLoopEnd c (c.pc + Head.size h)) :
    c.retire h .seq = { c with wait := none, pc := c.pc + Head.size h } :=
  endBody_of_noLoopEnd (c := { c with wait := none }) hl

end

/-! ### System registers (R315) -/

theorem exec_sysr_eq {n : Nat} {s : State} {h : Head} {d : BitVec 6} {k : BitVec 12} (hc : s.cur = .ac n 0) (hk : sysAssigned k.toNat = true) :
    ∃ f, exec (.sysr h d k) s = ccRun h (.sysr h d k) f s ∧ f n s = (do
      if sysWaits (s.ac n) k.toNat false then throw .wait
      act fun s' => s'.modCC n fun c => c.setS d (sysRead (s.ac n) n s'.cycle k.toNat)
      pure .seq : M Flow) s := by
  show ∃ f, execSysr h d k s = _ ∧ _
  exact ⟨_, ccRunChecked_ok (ok := fun _ => sysAssigned k.toNat) hc hk, rfl⟩

theorem systemRead : ruleSystemRead := by
  intro n s h d k hc
  refine ⟨fun hk => ?_, fun hk hen hw => ?_, fun hk hen hw => ?_⟩
  · show execSysr h d k s = _
    exact ccRunChecked_illegal (ok := fun _ => sysAssigned k.toNat) hc hk
  · obtain ⟨f, hx, hf⟩ := exec_sysr_eq (h := h) (d := d) hc hk
    refine ⟨_, hx.trans (ccRun_sets (g := fun c => c.setS d (sysRead (s.ac n) n s.cycle k.toNat)) ⟨hc, hen⟩ ?_), ccSet_frame (regsBut_setS ..), fun hd => ?_⟩
    · rw [hf, hw]; rfl
    · rw [ccSet_cc, (retire_regsBut ..).s_eq, CC.setS_s, if_pos rfl, if_neg hd]
  · obtain ⟨f, hx, hf⟩ := exec_sysr_eq (h := h) (d := d) hc hk
    rw [hx]
    exact ccRun_waits ⟨hc, hen⟩ (by rw [hf, hw]; rfl)

/-- The check that SYSW makes whatever its predicate (R273, R316, R78). -/
def syswOk (k : BitVec 12) (a : Src) (c : CC) : Bool :=
  sysAssigned k.toNat && (!sysClassH k.toNat || c.h) && (k != 0x0C0 || carveOk (c.src a))

theorem exec_sysw_eq {n : Nat} {s : State} {h : Head} {k : BitVec 12} {a : Src} (hc : s.cur = .ac n 0) (hok : syswOk k a (s.ac n).cc = true) :
    ∃ f, exec (.sysw h k a) s = ccRun h (.sysw h k a) f s
      ∧ f n s = (if k = 0x0C0 then carveWrite n ((s.ac n).cc.src a) else sysWrite n k.toNat ((s.ac n).cc.src a)) s := by
  show ∃ f, execSysw h k a s = _ ∧ _
  exact ⟨_, ccRunChecked_ok (ok := syswOk k a) hc hok, rfl⟩

theorem exec_sysw_illegal {n : Nat} {s : State} {h : Head} {k : BitVec 12} {a : Src} (hc : s.cur = .ac n 0)
    (hok : syswOk k a (s.ac n).cc = false) : exec (.sysw h k a) s = .next (syncTrap n 0x01 8 (word0 (.sysw h k a)) s) := by
  show execSysw h k a s = _
  exact ccRunChecked_illegal (ok := syswOk k a) hc hok


section
variable {n : Nat} {s : State} {h : Head} {v : W64}

theorem sysWrite_waits {r : Nat} (hw : sysWaits (s.ac n) r true = true) : sysWrite n r v s = .error .wait s := by
  simp only [sysWrite, get_bindM, hw, if_true, throw_bindM]

theorem sysWrite_status (hw : sysWaits (s.ac n) 0 true = false) :
    sysWrite n 0 v s = .ok .seq (s.modCC n fun c => if c.h then { c with ie := v.getLsbD 1 } else c) := by
  simp only [sysWrite, get_bindM, hw, Bool.false_eq_true, if_false, if_true, act_bindM, pure_run]

theorem sysWrite_pool {r : Nat} (hw : sysWaits (s.ac n) r true = false) (hr : 0x080 ≤ r ∧ r ≤ 0x08D) :
    sysWrite n r v s = if poolAfter (s.ac n).cc r (v.toNat % 1024) = true then .ok .seq (s.modCC n fun c => c.setSr r (BitVec.ofNat 64 (v.toNat % 1024)))
      else .error (.trap 0x02 v 0) s := by
  have h0 : r ≠ 0 := by omega
  simp only [sysWrite, get_bindM, hw, Bool.false_eq_true, if_false, if_neg h0, if_pos hr, need_bindM, act_bindM, pure_run]

theorem sysWrite_stored {r : Nat} (hw : sysWaits (s.ac n) r true = false) (h0 : r ≠ 0) (hr : r < 0x080 ∨ 0x08D < r) :
    sysWrite n r v s = if sysMask r = 0 then .ok .seq s else .ok .seq (s.modCC n fun c => c.setSr r (v &&& sysMask r)) := by
  have hr' : ¬(0x080 ≤ r ∧ r ≤ 0x08D) := by omega
  simp only [sysWrite, get_bindM, hw, Bool.false_eq_true, if_false, if_neg h0, if_neg hr']
  split <;> rfl

/-- A stored register is no bound of a loop that is active (Table 9-5). -/
theorem noLoopEnd_setSr {c : CC} {r : Nat} {f : W64} (hr : r ≠ 0x019 ∧ r ≠ 0x01B) : NoLoopEnd (c.setSr r v) f ↔ NoLoopEnd c f := by
  simp [NoLoopEnd, hr.1.symm, hr.2.symm]

/-- A system register that an instruction writes, past the end of no loop. -/
theorem ccSet_setSr {r : Nat} (hr : r ≠ 0x019 ∧ r ≠ 0x01B) (hl : NoLoopEnd (s.ac n).cc ((s.ac n).cc.pc + Head.size h)) :
    CcFrame n [] [] [r] s (ccSet n h (fun c => c.setSr r v) s) ∧ ((ccSet n h (fun c => c.setSr r v) s).ac n).cc.sr r = v := by
  refine ⟨ccSet_frame (regsBut_setSr ..), ?_⟩
  rw [ccSet_cc, retire_of_noLoopEnd (by rwa [noLoopEnd_setSr hr])]
  exact (CC.setSr_sr ..).trans (if_pos rfl)

theorem sysMask_bounds {r : Nat} (hm : sysMask r ≠ 0) : r ≠ 0x019 ∧ r ≠ 0x01B :=
  ⟨fun h => hm (by subst h; decide), fun h => hm (by subst h; decide)⟩

end

theorem systemWrite : ruleSystemWrite := by
  intro n s h k a hc c r v may
  have hmay : syswOk k a c = true ↔ may := by
    have hk : k = 0x0C0 ↔ r = 0x0C0 := ⟨fun he => by rw [show r = k.toNat from rfl, he]; rfl, fun he => BitVec.eq_of_toNat_eq he⟩
    simp only [syswOk, may, Bool.and_eq_true, Bool.or_eq_true, bne_iff_ne, ne_eq, hk, carveOk, decide_eq_true_eq, Bool.not_eq_true', r, v,
      imp_iff_not_or, Bool.not_eq_true, and_assoc]
  refine ⟨fun hno => exec_sysw_illegal hc (Bool.eq_false_iff.mpr (mt hmay.mp hno)), fun hm hen hk hw hl => ?_⟩
  have hk' : k ≠ 0x0C0 := fun he => hk (by rw [show r = k.toNat from rfl, he]; rfl)
  obtain ⟨f, hx, hf⟩ := exec_sysw_eq (h := h) hc (hmay.mpr hm)
  rw [if_neg hk'] at hf
  rw [hx]
  have ha : CcActs n h s := ⟨hc, hen⟩
  refine ⟨fun hms hr => ?_, fun hms h0 hr => ?_, fun h0 => ?_, fun hr hp => ?_, fun hr hp => ?_⟩
  · have h0 : r ≠ 0 := fun h0 => hms (by rw [h0]; decide)
    exact ⟨_, ccRun_sets ha (by rw [hf, sysWrite_stored hw h0 hr, if_neg hms]), ccSet_setSr (sysMask_bounds hms) hl⟩
  · exact ⟨_, ccRun_done ha (by rw [hf, sysWrite_stored hw h0 hr, if_pos hms]), ccDone_frame⟩
  · let g : CC → CC := fun c => if c.h then { c with ie := v.getLsbD 1 } else c
    have hg : RegsBut [] [] [] (g c) ((g c).retire h .seq) := retire_regsBut ..
    have hgs : g c = { c with ie := if c.h then v.getLsbD 1 else c.ie } := by simp only [g]; split <;> rfl
    refine ⟨_, ccRun_sets (g := g) ha (by rw [hf, show k.toNat = 0 from h0]; exact sysWrite_status (h0 ▸ hw)), onlyCc_modCC .., ?_⟩
    obtain ⟨hs, -, hsys, -, hh, hie, -⟩ := hg
    rw [ccSet_cc]
    rw [hgs] at hs hsys hh hie ⊢
    exact ⟨hie, hs, hsys, hh⟩
  · exact ⟨_, ccRun_sets ha (by rw [hf, sysWrite_pool hw hr, if_pos hp]), ccSet_setSr ⟨by omega, by omega⟩ hl⟩
  · exact ccRun_trap ha (by rw [hf, sysWrite_pool hw hr, if_neg (by rw [hp]; decide)])

/-- Settles O9: SYSR and SYSW check, wait, and then read or write one register. -/
theorem systemRegisters : Obligations.SystemRegisters := ⟨systemRead, systemWrite⟩

/-! ### CARVE (R77, R78, R79) -/

section
variable {n : Nat} {s : State} {v : W64}

theorem carveWrite_same (hc : (s.ac n).cc.carve = none) (hv : v.toNat % 16 = ((s.ac n).cc.sr 0x0C0).toNat % 16) :
    carveWrite n v s = .ok .seq s := by
  simp only [carveWrite, get_bindM, hc, Option.isSome_none, Bool.false_eq_true, if_false, hv, if_true, pure_run]

/-- No array command stands in the way where `carveClear` says so. -/
theorem carveBlocked_of_clear {old new : Nat} {a : AC} (hcl : carveClear n old new a) :
    (a.axq.any fun c => (c.writes ++ c.rows.map (·.resid)).any fun w => match scratchOff n w.pa with
        | some o => decide (o < max old new * 262144 ∧ min old new * 262144 < o + w.bytes.length)
        | none => false) = false := by
  rw [List.any_eq_false]
  intro c hc
  rw [Bool.not_eq_true, List.any_eq_false]
  intro w hw
  split
  · next o ho => simpa using hcl c hc w hw o ho
  · exact Bool.false_ne_true

theorem carveWrite_starts (hc : (s.ac n).cc.carve = none) (hv : v.toNat % 16 ≠ ((s.ac n).cc.sr 0x0C0).toNat % 16)
    (hcl : carveClear n (((s.ac n).cc.sr 0x0C0).toNat % 16) (v.toNat % 16) (s.ac n)) :
    carveWrite n v s = .ok .seq (s.modCC n fun c => c.startCarve (v.toNat % 16) s.cycle) := by
  simp only [carveWrite, get_bindM, hc, Option.isSome_none, Bool.false_eq_true, if_false, if_neg hv]
  split
  · next hb => exact absurd ((carveBlocked_of_clear hcl).symm.trans hb) Bool.false_ne_true
  · rfl

/-- Both instructions check SGRAN and then write CARVE. -/
theorem exec_carve_eq {h : Head} {a : Src} {i : Instr} (hi : i = .pcarve h a ∨ i = .sysw h 0x0C0 a) (hc : s.cur = .ac n 0) :
    (8 < ((s.ac n).cc.src a).toNat % 16 → exec i s = .next (syncTrap n 0x01 8 (word0 i) s))
      ∧ (((s.ac n).cc.src a).toNat % 16 ≤ 8 → ∃ f, exec i s = ccRun h i f s ∧ f n s = carveWrite n ((s.ac n).cc.src a) s) := by
  rcases hi with rfl | rfl
  · refine ⟨fun h8 => ?_, fun h8 => ?_⟩
    · show execPcarve h a s = _
      exact ccRunChecked_illegal (ok := fun c => carveOk (c.src a)) hc (decide_eq_false (by omega))
    · show ∃ f, execPcarve h a s = _ ∧ _
      exact ⟨_, ccRunChecked_ok (ok := fun c => carveOk (c.src a)) hc (decide_eq_true h8), rfl⟩
  · have hok : syswOk 0x0C0 a (s.ac n).cc = decide (((s.ac n).cc.src a).toNat % 16 ≤ 8) := by
      simp [syswOk, carveOk, show sysAssigned 192 = true from by decide, show sysClassH 192 = false from by decide]
    refine ⟨fun h8 => exec_sysw_illegal hc (hok.trans (decide_eq_false (by omega))), fun h8 => ?_⟩
    obtain ⟨f, hx, hf⟩ := exec_sysw_eq (h := h) hc (hok.trans (decide_eq_true h8))
    exact ⟨f, hx, hf.trans (by rw [if_pos rfl])⟩

end

/-- A carve that starts (R78, R79). -/
theorem startCarve_eq {c : CC} {new cycle : Nat} (hno : c.carve = none) (he : (c.sr 0x0C0).toNat % 16 ≠ new) :
    c.startCarve new cycle = { c.setSr 0x0C0 (BitVec.ofNat 64 ((c.sr 0x0C0).toNat % 16 + 16 * ((c.sr 0x0C0).toNat % 16))) with
      carve := some ⟨(c.sr 0x0C0).toNat % 16, new, cycle + 4096, none⟩ } := by
  have hp (o : Nat) : pack [(4, o), (0, o)] = BitVec.ofNat 64 (o + 16 * o) := by
    simp only [pack, List.foldl_cons, List.foldl_nil]
    exact congrArg _ (by omega)
  simp only [CC.startCarve, hno, if_neg he, hp]

/-- Settles O10: PCARVE and SYSW of CARVE start the same carve. -/
theorem carveStarts : Obligations.CarveStarts := by
  intro n s h a hc c new old i hi
  obtain ⟨hbad, hgood⟩ := exec_carve_eq hi hc
  refine ⟨hbad, fun h8 hen hno he => ?_, fun h8 hen hno he hcl => ?_⟩
  · obtain ⟨f, hx, hf⟩ := hgood h8
    rw [hx]
    exact ccRun_done ⟨hc, hen⟩ (hf.trans (carveWrite_same hno he))
  · obtain ⟨f, hx, hf⟩ := hgood h8
    obtain ⟨hs, hp, hsys, -, -, -, -, -, -, -, -, -, hcarve, -⟩ := retire_regsBut (c.startCarve new s.cycle) h
    refine ⟨_, hx.trans (ccRun_sets (g := fun c => c.startCarve new s.cycle) ⟨hc, hen⟩ (hf.trans (carveWrite_starts hno he hcl))), onlyCc_modCC .., ?_⟩
    have hset := regsBut_setSr c 0x0C0 (BitVec.ofNat 64 (old + 16 * old))
    rw [ccSet_cc]
    rw [startCarve_eq hno (Ne.symm he)] at hs hp hsys hcarve ⊢
    refine ⟨hcarve, ?_, hs, hp, fun k hk h0 h1 => (hsys k List.not_mem_nil h0 h1).trans (hset.sys k hk h0 h1)⟩
    exact (hsys 0x0C0 List.not_mem_nil (by decide) (by decide)).trans ((CC.setSr_sr ..).trans (if_pos rfl))

end Sys2Proof

/-! # The memory invariant and what keeps it (R139 to R150) -/

namespace Sys2Proof

open Machine

/-! ### What an operation on memory may change -/

/-- A state without what operations on memory change: free values, writes and what agents hold of them, firings, parked lines, the queues of
kettles, and the posted writes of ports. -/
def beyondMemory (s : State) : State :=
  { s with seq := 0, wid := 0, mem := [], hist := [], agm := [], fires := [], parked := [], hostDrop := [], kettles := [], posted := [] }

/-- A step of memory: nothing beyond memory changes, and the memory keeps its forms. -/
structure MemStep (s t : State) : Prop where
  beyond : beyondMemory t = beyondMemory s
  ok : MemoryOk s → MemoryOk t
  hist : smSorted 0 s.hist = true → smSorted 0 t.hist = true
  view : smSorted 0 s.hist = true → ∀ a : Agent, smSorted 0 (s.agent a).view = true → smSorted 0 (t.agent a).view = true

section
variable {s t u : State}

theorem MemStep.refl (s : State) : MemStep s s := ⟨rfl, id, id, fun _ _ => id⟩

theorem MemStep.trans (h : MemStep s t) (h' : MemStep t u) : MemStep s u :=
  ⟨h'.beyond.trans h.beyond, h'.ok ∘ h.ok, h'.hist ∘ h.hist, fun hs a => h'.view (h.hist hs) a ∘ h.view hs a⟩

theorem MemStep.inv (h : MemStep s t) (hs : MemoryInv s) : MemoryInv t :=
  ⟨h.ok hs.1, h.hist hs.2.1, fun a => h.view hs.2.1 a (hs.2.2 a)⟩

theorem MemStep.acs (h : MemStep s t) : t.acs = s.acs := congrArg (fun s => s.acs) h.beyond
theorem MemStep.dies (h : MemStep s t) : t.dies = s.dies := congrArg (fun s => s.dies) h.beyond
theorem MemStep.cycle (h : MemStep s t) : t.cycle = s.cycle := congrArg (fun s => s.cycle) h.beyond
theorem MemStep.cur (h : MemStep s t) : t.cur = s.cur := congrArg (fun s => s.cur) h.beyond
theorem MemStep.watch (h : MemStep s t) : t.watch = s.watch := congrArg (fun s => s.watch) h.beyond

theorem MemStep.ac (h : MemStep s t) (n : Nat) : t.ac n = s.ac n := by simp only [State.ac, h.acs]
theorem MemStep.die (h : MemStep s t) (d : Nat) : t.die d = s.die d := by simp only [State.die, h.dies]

/-- A change of what stands beside the bytes, their writes and their agents. -/
theorem MemStep.of_eq (hb : beyondMemory t = beyondMemory s) (hm : t.mem = s.mem) (hh : t.hist = s.hist) (ha : t.agm = s.agm) : MemStep s t :=
  ⟨hb, fun h => by simpa only [MemoryOk, hm] using h, fun h => by rwa [hh], fun _ a h => by simpa only [State.agent, ha] using h⟩

theorem memStep_foldl {α : Type} {f : State → α → State} (hf : ∀ s x, MemStep s (f s x)) (l : List α) (s : State) : MemStep s (l.foldl f s) := by
  induction l generalizing s with
  | nil => exact .refl s
  | cons x l ih => exact (hf s x).trans (ih _)

theorem memStep_ite {p : Prop} [Decidable p] (ht : MemStep s t) (hu : MemStep s u) : MemStep s (if p then t else u) := by
  split
  · exact ht
  · exact hu

end

section
variable (s : State)

theorem memStep_setView (a : Agent) {m : AgentMem}
    (hv : smSorted 0 s.hist = true → smSorted 0 (s.agent a).view = true → smSorted 0 m.view = true) : MemStep s (s.setAgent a m) := by
  refine ⟨rfl, id, id, fun hs b hb => ?_⟩
  rw [State.setAgent_agent]
  split
  · next hk => exact hv hs (by simpa only [State.agent, hk] using hb)
  · exact hb

theorem memStep_setAgent (a : Agent) {m : AgentMem} (hv : smSorted 0 (s.agent a).view = true → smSorted 0 m.view = true) :
    MemStep s (s.setAgent a m) := memStep_setView s a fun _ => hv

/-- Changes of the writes on record leave them at their keys. -/
theorem smSorted_of_keys {α β : Type} {m : SMap α} {m' : SMap β} (hk : m'.map (·.1) = m.map (·.1)) : ∀ lo, smSorted lo m = smSorted lo m' := by
  induction m generalizing m' with
  | nil => intro lo; cases m' with | nil => rfl | cons p r => simp at hk
  | cons p r ih =>
    intro lo
    cases m' with
    | nil => simp at hk
    | cons q r' =>
      simp only [List.map_cons, List.cons.injEq] at hk
      simp only [smSorted, hk.1, ih hk.2]

theorem memStep_hist {h : SMap (List Version)} (hk : h.map (·.1) = s.hist.map (·.1)) : MemStep s { s with hist := h } :=
  ⟨rfl, id, fun hs => smSorted_of_keys hk 0 ▸ hs, fun _ _ => id⟩

theorem memStep_post (pl : Place) (k : Nat) (b : List Byte) : MemStep s (Machine.post pl k b s) := by
  unfold Machine.post
  split
  · split
    · exact .refl s
    · exact .of_eq rfl rfl rfl rfl
  · exact .refl s

theorem memStep_fireWrite (cls k n : Nat) : MemStep s (fireWrite cls k n s) := by
  unfold fireWrite
  exact memStep_ite (.refl s) (.of_eq rfl rfl rfl rfl)

theorem memStep_enterWrite (a : Agent) (pls : List Place) (rels : List (Agent × Scope)) (strong : Bool) (tag : OpTag)
    (below : Nat → List Version → Nat) (k : Nat) (b : List Byte) : MemStep s (enterWrite a pls rels strong tag below k b s) := by
  have hv : smSorted 0 (s.agent a).view = true → smSorted 0 (smRun (fun _ _ => some (s.wid + 1)) (s.agent a).view k b) = true :=
    smSorted_smRunF _ _ _ _ _ _ (Nat.zero_le k)
  obtain ⟨hb, -, -, hview⟩ := memStep_setAgent s a (m := { s.agent a with view := smRun (fun _ _ => some (s.wid + 1)) (s.agent a).view k b }) hv
  exact ⟨hb, Memory.wf_write _ _ _, smSorted_smRunF _ _ _ _ _ _ (Nat.zero_le k), hview⟩

theorem memStep_performRaw (a : Agent) (pl : Place) (rels : List (Agent × Scope)) (strong : Bool) (tag : OpTag)
    (below : Nat → List Version → Nat) (k : Nat) (b : List Byte) : MemStep s (performRaw a pl rels strong tag below k b s) := by
  have hpost (t : State) : MemStep t (match a with | .host _ => t | _ => Machine.post pl k b t) := by
    split
    · exact .refl t
    · exact memStep_post ..
  have h := (memStep_enterWrite s a [pl] rels strong tag below k b).trans (hpost _)
  exact memStep_ite (h.trans (memStep_fireWrite _ _ _ _)) h

theorem memStep_seq (q : Nat) : MemStep s { s with seq := q } := .of_eq rfl rfl rfl rfl

theorem memStep_meeting (a : Agent) (pl : Place) (bound : Nat → Version → Bool) (k n : Nat) : MemStep s (meeting a pl bound k n s).2 := by
  unfold meeting
  split
  · exact memStep_seq ..
  · exact .refl s

theorem memStep_atomicRaw (a : Agent) (pl : Place) (sc : Scope) (below : Nat → List Version → Nat) (k n : Nat)
    (f : List Byte → Option (List Byte)) : MemStep s (atomicRaw a pl sc below k n f s).2 := by
  unfold atomicRaw
  simp only
  split
  · exact memStep_performRaw ..
  · exact memStep_ite (.refl s) (memStep_setAgent s a id)

/-! ### Writes that move -/

theorem memStep_fireMoved (moved : List (Version × Nat)) : MemStep s (fireMoved moved s) := .of_eq rfl rfl rfl rfl

theorem memStep_moveHist {h : SMap (List Version)} (hk : h.map (·.1) = s.hist.map (·.1)) : MemStep s (moveHist h s) := by
  unfold moveHist
  exact memStep_ite (memStep_hist s hk) ((memStep_hist s hk).trans (memStep_fireMoved ..))

theorem memStep_joinQueue (pa : Nat) (a : Agent) (id : Nat) (rels : List (Agent × Scope)) : MemStep s (joinQueue pa a id rels s) := by
  unfold joinQueue
  split
  · exact .refl s
  · exact .of_eq rfl rfl rfl rfl

/-- Two lists of writes at the same keys, side by side. -/
theorem keys_zip {α β : Type} {l : SMap α} {h : SMap β} (hk : h.map (·.1) = l.map (·.1)) : (l.zip h).map (fun x => x.1.1) = l.map (·.1) := by
  have hlen : l.length ≤ h.length := by simpa using (congrArg List.length hk).ge
  rw [show (fun x : (Nat × α) × (Nat × β) => x.1.1) = Prod.fst ∘ Prod.fst from rfl, ← List.map_map, List.map_fst_zip hlen]

theorem memStep_withHist {h : SMap (List Version)} (hk : h.map (·.1) = s.hist.map (·.1)) : MemStep s (withHist h s) := by
  unfold withHist
  refine memStep_ite (memStep_moveHist s hk) (.trans (memStep_moveHist s ?_) (memStep_foldl (fun _ _ => memStep_joinQueue ..) ..))
  rw [List.map_map]
  exact keys_zip hk

theorem memStep_performAt (a : Agent) (pl : Place) (rels : List (Agent × Scope)) (tag : OpTag) (k : Nat) (b : List Byte) :
    MemStep s (performAt a pl rels tag k b s) := by
  unfold performAt
  refine memStep_ite (memStep_foldl (fun _ _ => memStep_ite ?_ ?_) ..) (memStep_performRaw ..)
  · exact (memStep_enterWrite ..).trans (memStep_joinQueue ..)
  · exact memStep_performRaw ..

theorem memStep_performStore (a : Agent) (sc : Scope) (rels : List (Agent × Scope)) (w : PWrite) : MemStep s (performStore a sc rels s w) :=
  memStep_foldl (fun _ _ => memStep_performAt ..) ..

/-! ### Releases -/

theorem memStep_unpark : MemStep s (unpark s) := by
  unfold unpark
  exact memStep_ite (.refl s) (.of_eq rfl rfl rfl rfl)

/-- The writes that memory holds stand at its keys, whatever a view holds. -/
theorem keys_smJoin {α β : Type} (d : β) (l : SMap α) (m : SMap β) : (smJoin d l m).map (·.1) = l.map (·.1) := by
  induction l generalizing m with
  | nil => rfl
  | cons p r ih => simp only [smJoin, List.map_cons, ih]

theorem memStep_releaseSeen (a : Agent) (sc : Scope) (p : Version → Nat → Bool) : MemStep s (releaseSeen a sc p s) :=
  memStep_withHist s (by rw [← keys_smJoin 0 s.hist (s.agent a).view, List.map_map]; rfl)

theorem memStep_performSome (a : Agent) {f : State → PWrite → State} (hf : ∀ s w, MemStep s (f s w)) (hit : PWrite → Bool) :
    MemStep s (performSome a f hit s) := by
  unfold performSome
  refine memStep_ite ?_ (.refl s)
  refine .trans (.trans (memStep_setAgent s a (m := { s.agent a with pend := (takePend hit (s.agent a).pend).2 }) id) ?_) (memStep_unpark _)
  exact memStep_foldl (fun _ _ => memStep_ite (hf ..) (memStep_performStore ..)) ..

theorem memStep_releaseSome (a : Agent) (sc : Scope) (hit : PWrite → Bool) : MemStep s (releaseSome a sc hit s) :=
  memStep_performSome s a (fun _ _ => memStep_performStore ..) hit

theorem memStep_release (a : Agent) (sc : Scope) : MemStep s (release a sc s) := by
  have hpend : MemStep s (if (s.agent a).pend.isEmpty then s
      else (s.agent a).pend.foldl (performPend a sc) (s.setAgent a { s.agent a with pend := [] })) :=
    memStep_ite (.refl s) (.trans (memStep_setAgent s a (m := { s.agent a with pend := [] }) id) (memStep_foldl (fun _ _ => memStep_performStore ..) ..))
  exact (hpend.trans (memStep_releaseSeen ..)).trans (memStep_unpark _)

theorem memStep_mapHist (f : Nat × List Version → List Version) : MemStep s (withHist (s.hist.map fun x => (x.1, f x)) s) :=
  memStep_withHist s (by rw [List.map_map]; rfl)

theorem memStep_releaseRange (a : Agent) (sc : Scope) (k n : Nat) : MemStep s (releaseRange a sc k n s) := by
  have h := memStep_releaseSome s a sc fun w => decide (w.pa < k + n ∧ k < w.pa + w.bytes.length)
  unfold releaseRange
  exact memStep_ite h ((h.trans (memStep_mapHist _ _)).trans (memStep_unpark _))

theorem memStep_releaseOps (agents : List Agent) (sc : Scope) (p : OpTag → Bool) : MemStep s (releaseOps agents sc p s) := by
  unfold releaseOps
  exact .trans (.trans (memStep_foldl (fun _ _ => memStep_releaseSome ..) ..) (memStep_mapHist _ _)) (memStep_unpark _)

/-! ### Acquires -/

theorem memStep_mergeLine (owner line : Nat) : MemStep s (mergeLine owner line s) := by
  unfold mergeLine
  exact memStep_ite (memStep_mapHist _ _) (.refl s)

theorem memStep_writeBack (owner line : Nat) : MemStep s (s.writeBack owner line) :=
  .trans (memStep_mergeLine s owner line) (memStep_foldl (f := parkOne line) (fun _ _ => .of_eq rfl rfl rfl rfl) ..)

theorem memStep_hostLinesBack (a : Agent) (sc : Scope) : MemStep s (hostLinesBack a sc s) := by
  unfold hostLinesBack
  split
  · refine memStep_ite (MemStep.trans (memStep_foldl (fun _ _ => memStep_foldl (fun _ _ => memStep_writeBack ..) ..) ..) (.of_eq rfl rfl rfl rfl)) (.refl s)
  · exact .refl s

theorem memStep_fresh (a : Agent) : MemStep s (s.fresh a) := by
  unfold State.fresh
  exact memStep_ite (.refl s) (memStep_setAgent s a id)

/-! ### What a view takes in, in order -/

theorem smSorted_append {α : Type} {l m : SMap α} {lo k : Nat} (hl : smSorted lo l = true) (hlo : lo ≤ k) (hk : ∀ p ∈ l, p.1 < k)
    (hm : smSorted k m = true) : smSorted lo (l ++ m) = true := by
  induction l generalizing lo with
  | nil => exact smSorted_mono hlo m hm
  | cons p r ih =>
    simp only [smSorted, Bool.and_eq_true, decide_eq_true_eq] at hl
    simp only [List.cons_append, smSorted, Bool.and_eq_true, decide_eq_true_eq]
    exact ⟨hl.1, ih hl.2 (hk p (List.mem_cons_self ..)) fun q hq => hk q (List.mem_cons_of_mem _ hq)⟩

theorem smSorted_takeWhile {α : Type} (p : Nat × α → Bool) (m : SMap α) : ∀ lo, smSorted lo m = true → smSorted lo (m.takeWhile p) = true := by
  induction m with
  | nil => intro lo _; rfl
  | cons x r ih =>
    intro lo h
    simp only [smSorted, Bool.and_eq_true, decide_eq_true_eq] at h
    rw [List.takeWhile_cons]
    split
    · simp only [smSorted, Bool.and_eq_true, decide_eq_true_eq]; exact ⟨h.1, ih _ h.2⟩
    · rfl

/-- Entries that are behind those below a key, and behind the key, start after it. -/
theorem smSorted_behind {α : Type} (m : SMap α) (k : Nat) : ∀ lo, smSorted lo m = true →
    smSorted (k + 1) ((m.dropWhile fun p => decide (p.1 < k)).dropWhile fun p => p.1 == k) = true := by
  induction m with
  | nil => intro lo _; rfl
  | cons x r ih =>
    intro lo h
    simp only [smSorted, Bool.and_eq_true, decide_eq_true_eq] at h
    by_cases hx : x.1 < k
    · rw [List.dropWhile_cons_of_pos (by simpa using hx)]
      exact ih _ h.2
    · rw [List.dropWhile_cons_of_neg (by simpa using hx)]
      by_cases hk : x.1 = k
      · rw [List.dropWhile_cons_of_pos (by simpa using hk)]
        subst hk
        cases r with
        | nil => rfl
        | cons y r' =>
          have hy := h.2
          simp only [smSorted, Bool.and_eq_true, decide_eq_true_eq] at hy
          rw [List.dropWhile_cons_of_neg (by simp; omega)]
          exact h.2
      · rw [List.dropWhile_cons_of_neg (by simpa using hk)]
        simp only [smSorted, Bool.and_eq_true, decide_eq_true_eq]
        exact ⟨by omega, h.2⟩

theorem smSorted_smPutAll {α : Type} (l : SMap α) : ∀ (m : SMap α) (lo : Nat), smSorted lo l = true → smSorted lo m = true →
    smSorted lo (smPutAll l m) = true := by
  induction l with
  | nil => intro m lo _ hm; exact hm
  | cons p r ih =>
    intro m lo hl hm
    simp only [smSorted, Bool.and_eq_true, decide_eq_true_eq] at hl
    refine smSorted_append (k := p.1) (smSorted_takeWhile _ m lo hm) hl.1 (fun q hq => by simpa using List.mem_takeWhile_imp hq) ?_
    simp only [smSorted, Bool.and_eq_true, decide_eq_true_eq]
    exact ⟨Nat.le_refl _, ih _ _ hl.2 (smSorted_behind m p.1 lo hm)⟩

/-- Entries picked from a map in order are in order. -/
theorem smSorted_filterMap {α β : Type} (f : Nat × α → Option (Nat × β)) (hf : ∀ x y, f x = some y → y.1 = x.1) (m : SMap α) :
    ∀ lo, smSorted lo m = true → smSorted lo (m.filterMap f) = true := by
  induction m with
  | nil => intro lo _; rfl
  | cons x r ih =>
    intro lo h
    simp only [smSorted, Bool.and_eq_true, decide_eq_true_eq] at h
    rw [List.filterMap_cons]
    split
    · exact smSorted_mono (by omega) _ (ih _ h.2)
    · next y hy =>
      simp only [smSorted, Bool.and_eq_true, decide_eq_true_eq, hf x y hy]
      exact ⟨h.1, ih _ h.2⟩

/-- The writes that memory holds are in its order. -/
theorem smSorted_viewed (m : AgentMem) : smSorted 0 s.hist = true → smSorted 0 (s.viewed m) = true :=
  fun h => smSorted_of_keys (keys_smJoin 0 s.hist m.view).symm 0 ▸ h

theorem memStep_acquire (a : Agent) (sc : Scope) : MemStep s (acquire a sc s) := by
  have hback := memStep_hostLinesBack s a sc
  unfold acquire
  refine .trans hback (.trans (memStep_ite (.refl _) (memStep_setView _ a fun hs hv => ?_)) (memStep_fresh ..))
  refine smSorted_smPutAll _ _ 0 (smSorted_filterMap _ (fun x y hy => ?_) _ 0 (smSorted_viewed _ _ hs)) hv
  obtain ⟨v, -, rfl⟩ := Option.map_eq_some_iff.mp hy
  rfl

theorem memStep_fence (a : Agent) (sc : Scope) : MemStep s (fence a sc s) := (memStep_mapHist _ _).trans (memStep_fresh ..)

/-! ### Stores, strong accesses and loads -/

theorem memStep_plainStore (a : Agent) (l1 : Bool) (va k : Nat) (b : List Byte) : MemStep s (plainStore a l1 va k b s) :=
  memStep_setAgent s a id

theorem memStep_strongStore (a : Agent) (sc : Scope) (l1 : Bool) (k : Nat) (b : List Byte) : MemStep s (strongStore a sc l1 k b s) := by
  unfold strongStore
  exact .trans (memStep_releaseRange ..) (.trans (memStep_meeting ..) (memStep_performRaw ..))

theorem memStep_atomic (a : Agent) (sc : Scope) (l1 : Bool) (k n : Nat) (f : List Byte → Option (List Byte)) : MemStep s (atomic a sc l1 k n f s).2 := by
  unfold atomic
  exact .trans (memStep_releaseRange ..) (.trans (memStep_meeting ..) (memStep_atomicRaw ..))

theorem memStep_loadRange (a : Agent) (pt : Option (Place × Nat)) (k n u : Nat) : MemStep s (loadRange a pt k n u s).2 := by
  unfold loadRange
  have hseq (q : Nat) : MemStep s (if q = s.seq then s else { s with seq := q }) := memStep_ite (.refl s) (memStep_seq ..)
  refine memStep_ite (hseq _) (.trans (hseq _) (memStep_setAgent _ a ?_))
  split <;> exact id

theorem memStep_strongLoad (a : Agent) (sc : Scope) (l1 : Bool) (k n : Nat) : MemStep s (strongLoad a sc l1 k n s).2 :=
  (memStep_releaseRange ..).trans (memStep_loadRange ..)

end

theorem memoryInv_reset : MemoryInv State.reset :=
  ⟨Memory.wf_reset, rfl, fun _ => rfl⟩

/-- Settles O22: each operation is a step of memory. -/
theorem memoryKept : Obligations.MemoryKept := by
  refine ⟨memoryInv_reset, fun a sc s h => ⟨(memStep_release ..).inv h, (memStep_acquire ..).inv h, (memStep_fence ..).inv h, ?_, ?_, ?_, ?_⟩⟩
  · intro pl rels strong tag below k bytes
    exact (memStep_performRaw ..).inv h
  · intro l1 va k bytes
    exact ⟨(memStep_plainStore ..).inv h, (memStep_strongStore ..).inv h⟩
  · intro l1 k n f
    exact (memStep_atomic ..).inv h
  · intro pt k n u
    exact (memStep_loadRange ..).inv h

end Sys2Proof

/-! # Queues of the cluster (R307 to R309, R436) -/

namespace Sys2Proof

open Machine

/-! ### Room in a queue (R436) -/

theorem foldl_add_eq_sum {α : Type} (f : α → Nat) (l : List α) (z : Nat) : l.foldl (fun t x => t + f x) z = z + (l.map f).sum := by
  induction l generalizing z with
  | nil => rfl
  | cons x l ih => rw [List.foldl_cons, ih, List.map_cons, List.sum_cons]; omega

theorem foldl_skip_eq_sum {α : Type} [DecidableEq α] (f : α → Nat) (q : α) (l : List α) (z : Nat) :
    l.foldl (fun t x => if x = q then t else t + f x) z = z + ((l.filter (· ≠ q)).map f).sum := by
  induction l generalizing z with
  | nil => rfl
  | cons x l ih =>
    rw [List.foldl_cons, ih]
    by_cases hx : x = q
    · simp [hx]
    · simp [hx]; omega

/-- The pool entries in use. -/
def poolUsed (a : AC) : Nat := ((List.range 6).map a.used).sum

theorem hasRoom_iff {a : AC} {q k : Nat} (hu : 0 < k ∨ poolUsed a ≤ 512) : a.hasRoom q k = true ↔ QueueRoom a q k := by
  have hfree : a.qfree = 512 - poolUsed a := by
    rw [AC.qfree, foldl_add_eq_sum, Nat.zero_add]; rfl
  simp only [AC.hasRoom, QueueRoom, foldl_skip_eq_sum, hfree, decide_eq_true_eq, AC.qmin, AC.qcap, Nat.zero_add]
  rw [show ((List.range 6).map a.used).sum = poolUsed a from rfl]
  omega

theorem not_mem_before {l : Links} {who : Nat} {w : PushWait} (hw : w ∈ l.before who) :
    ∃ old new, l.pushWait = old ++ w :: new ∧ ∀ x ∈ old ++ [w], x.who ≠ who := by
  obtain ⟨old, mid, hs⟩ := List.append_of_mem hw
  refine ⟨old, mid ++ l.pushWait.dropWhile fun w => w.who != who, ?_, fun x hx => ?_⟩
  · rw [← List.cons_append, ← List.append_assoc, ← hs]
    exact (List.takeWhile_append_dropWhile ..).symm
  · have hm : x ∈ l.before who := by
      rw [hs]
      rcases List.mem_append.mp hx with hx | hx
      · exact List.mem_append_left _ hx
      · rw [List.mem_singleton.mp hx]; simp
    simpa using List.mem_takeWhile_imp hm

theorem mayPush_of_granted {a : AC} {u q k : Nat} (hk : 0 < k) (hg : PushGranted a u q k) : a.mayPush u q k = true := by
  obtain ⟨hroom, hold⟩ := hg
  have hu : poolUsed a ≤ 512 := by
    have h2 := hroom.2
    rw [show ((List.range 6).map a.used).sum = poolUsed a from rfl] at h2
    omega
  rw [AC.mayPush, (hasRoom_iff (.inl hk)).mpr hroom, Bool.true_and, List.all_eq_true]
  intro w hw
  obtain ⟨old, new, hs, hno⟩ := not_mem_before hw
  rw [Bool.not_eq_true', Bool.eq_false_iff, ne_eq, hasRoom_iff (.inr hu)]
  exact hold old w new hs hno

theorem not_mayPush {a : AC} {u q k : Nat} (hk : 0 < k) (hno : ¬QueueRoom a q k) : a.mayPush u q k = false := by
  rw [AC.mayPush, Bool.eq_false_iff.mpr (mt (hasRoom_iff (.inl hk)).mp hno), Bool.false_and]

/-! ### Pushes of the CC (R308) -/

theorem pool_pos (x : QEntry) : 0 < x.pool := by unfold QEntry.pool; split <;> decide

/-- The cluster after a push of unit u that has entered. -/
def pushEntered (u : Nat) (e : Eid) (x : QEntry) (a : AC) : AC := (a.endPush u).setEng e { a.eng e with q := (a.eng e).q ++ [x] }

theorem pushEntry_enters {n : Nat} {e : Eid} {x : QEntry} {s : State} (hm : (s.ac n).mayPush 0 (eidCode e - 1) x.pool = true) :
    pushEntry n e x s = .ok () ((release (.ac n 0) .ac s).modAc n (pushEntered 0 e x)) := by
  simp only [pushEntry, get_bindM, hm, Bool.not_true, Bool.false_eq_true, if_false]
  rfl

theorem pushEntry_waits {n : Nat} {e : Eid} {x : QEntry} {s : State} (hm : (s.ac n).mayPush 0 (eidCode e - 1) x.pool = false) :
    pushEntry n e x s = .error .wait (s.modAc n fun a => a.waitPush 0 (eidCode e - 1) x.pool) := by
  simp only [pushEntry, get_bindM, hm, Bool.not_false, if_true, act_bindM]
  rfl

section
variable {n : Nat} {h : Head} {s : State} {e : Eid} {k : BitVec 3} {blk : BitVec 6} {b : Src}

theorem pushed_eq (h : Head) (c : CC) (kind : Nat) (k : BitVec 3) (blk : BitVec 6) (off : BitVec 32) (num : Nat) :
    pushed h c kind k blk off num = ⟨kind, (Head.guard h).1, (Head.guard h).2.1, (Head.guard h).2.2, k.toNat, off, c.opnds blk k, num⟩ := by
  unfold pushed Head.guard
  cases h.ctl <;> rfl

theorem pushed_pool (h : Head) (c : CC) (kind : Nat) (k : BitVec 3) (blk : BitVec 6) (off : BitVec 32) (num : Nat) :
    (pushed h c kind k blk off num).pool = if k.toNat = 4 then 2 else 1 := rfl

theorem exec_pushc_eq (n : Nat) (h : Head) (s : State) (e : Eid) (k : BitVec 3) (blk : BitVec 6) (b : Src) :
    ∃ f, exec (.pushc h e k blk b) s = ccRun h (.pushc h e k blk b) f s ∧ f n s = (do
      need (decide (((s.ac n).cc.src b).toNat < 2 ^ 32) && ((s.ac n).cc.src b).toNat % 4 == 0) 0x02 ((s.ac n).cc.src b) 0
      pushEntry n e (pushed h (s.ac n).cc 0 k blk (((s.ac n).cc.src b).setWidth 32) ((s.ac n).ln.issueCount (eidCode e - 1) + 1))
      act fun s => (s.tlNumber n (eidCode e - 1)).2
      pure .seq : M Flow) s := by
  refine ⟨_, rfl, ?_⟩
  rw [pushed_eq]
  rfl

theorem exec_pushk_eq (n : Nat) (h : Head) (s : State) (e : Eid) (k : BitVec 3) (blk : BitVec 6) :
    ∃ f, exec (.pushk h e k blk) s = ccRun h (.pushk h e k blk) f s ∧ f n s = (do
      pushEntry n e (pushed h (s.ac n).cc 1 k blk 0 0)
      pure .seq : M Flow) s := by
  refine ⟨_, rfl, ?_⟩
  rw [pushed_eq]
  rfl

/-- What a push of the CC leaves, whatever else it does to the links of its cluster. -/
theorem pushEntered_cc (e : Eid) (x : QEntry) (a : AC) : (pushEntered 0 e x a).cc = a.cc := by simp [pushEntered, AC.endPush]

/-- The CC waits for room behind the pushes that wait. -/
theorem ccRun_pushWaits {i : Instr} {f : Nat → M Flow} {q k : Nat} (ha : CcActs n h s)
    (hf : f n s = .error .wait (s.modAc n fun a => a.waitPush 0 q k)) :
    ∃ t, ccRun h i f s = .next t ∧ (t.ac n).cc = { (s.ac n).cc with wait := (t.ac n).cc.wait } ∧ (t.ac n).cc.wait.map (·.instr) = some i
      ∧ (∀ x, (t.ac n).eng x = (s.ac n).eng x) ∧ ⟨0, q, k⟩ ∈ (t.ac n).ln.pushWait ∧ SameMemory s t := by
  have hcc : ((s.ac n).waitPush 0 q k).cc = (s.ac n).cc := by unfold AC.waitPush; split <;> rfl
  have heng (x : Eid) : ((s.ac n).waitPush 0 q k).eng x = (s.ac n).eng x := by unfold AC.waitPush; split <;> cases x <;> rfl
  have hmem : ⟨0, q, k⟩ ∈ ((s.ac n).waitPush 0 q k).ln.pushWait := by
    unfold AC.waitPush
    split
    · next hc => simpa using hc
    · simp
  refine ⟨_, ccRun_stop h i f n s _ _ ha.1 ha.2 hf, ?_⟩
  simp only [ccStop, State.ringed, modAc_modCC, State.modAc_ac, if_true, hcc]
  refine ⟨?_, ?_, heng, hmem, rfl, rfl, rfl⟩
  · split <;> rfl
  · split
    · next w _ => by_cases hw : w.instr = i <;> simp [hw]
    · rfl

/-- A push that has entered, is numbered or not, and retires. -/
theorem pushDone_frame (h : Head) (e : Eid) (x : QEntry) (g : AC → AC) (hcc : ∀ a, (g a).cc = a.cc) (heng : ∀ a f, (g a).eng f = a.eng f)
    (hvec : ∀ a, (g a).vec = a.vec) :
    let t := (((release (.ac n 0) .ac s).modAc n (pushEntered 0 e x)).modAc n g).modCC n fun c => c.retire h .seq
    t = (release (.ac n 0) .ac s).setAc n (t.ac n) ∧ (t.ac n).cc = (s.ac n).cc.retire h .seq
      ∧ ((t.ac n).eng e).q = ((s.ac n).eng e).q ++ [x] ∧ (∀ y, y ≠ e → (t.ac n).eng y = (s.ac n).eng y) ∧ (t.ac n).vec = (s.ac n).vec
      ∧ (t.ac n).ln = (g (pushEntered 0 e x (s.ac n))).ln := by
  have hac := (memStep_release s (.ac n 0) .ac).ac n
  have hend (y : Eid) : ((s.ac n).endPush 0).eng y = (s.ac n).eng y := by cases y <;> rfl
  intro t
  have ht : t = (release (.ac n 0) .ac s).setAc n (t.ac n) := by
    simp only [t, State.modCC, State.modAc, setAc_setAc, State.setAc_ac, if_true]
  have hA : t.ac n = { g (pushEntered 0 e x (s.ac n)) with cc := (s.ac n).cc.retire h .seq } := by
    simp only [t, State.modCC, State.modAc_ac, if_true, hac, hcc, pushEntered_cc]
  refine ⟨ht, by rw [hA], ?_, fun y hy => ?_, ?_, by rw [hA]⟩
  · rw [hA]
    show ((g _).eng e).q = _
    rw [heng, pushEntered, AC.setEng_eng, if_pos rfl]
  · rw [hA]
    show (g _).eng y = _
    rw [heng, pushEntered, AC.setEng_eng, if_neg hy, hend]
  · rw [hA]
    show (g _).vec = _
    rw [hvec, pushEntered, AC.setEng_vec]
    rfl

end

/-- A cluster that has numbered one more operation on a counter (R153). -/
def numbered (q : Nat) (a : AC) : AC := { a with ln := { a.ln with tlIssue := smSet a.ln.tlIssue q (a.ln.issueCount q + 1) } }

theorem numbered_issueCount (q x : Nat) (a : AC) : (numbered q a).ln.issueCount x = if x = q then a.ln.issueCount q + 1 else a.ln.issueCount x := by
  simp only [numbered, Links.issueCount, smGet_smSet]

theorem pushEntered_issueCount (e : Eid) (y : QEntry) (x : Nat) (a : AC) : (pushEntered 0 e y a).ln.issueCount x = a.ln.issueCount x := by
  rw [pushEntered, AC.setEng_ln]
  rfl

theorem pushesEnter : rulePushEnters := by
  intro n s h e k blk b ha c off q need m
  have hneed : 0 < need := by simp only [need]; split <;> decide
  have hbad : ¬(off.toNat < 2 ^ 32 ∧ off.toNat % 4 = 0) ↔ (decide (off.toNat < 2 ^ 32) && off.toNat % 4 == 0) = false := by simp
  refine ⟨fun hoff hg => ?_, fun hoff => ?_, fun hg => ?_, fun hno i hi => ?_⟩
  · obtain ⟨f, hx, hf⟩ := exec_pushc_eq n h s e k blk b
    have henter := pushEntry_enters (e := e) (x := pushed h c 0 k blk (off.setWidth 32) m) (mayPush_of_granted hneed hg)
    obtain ⟨ht, hcc, hq, he, hvec, hln⟩ := pushDone_frame (n := n) (s := s) h e (pushed h c 0 k blk (off.setWidth 32) m)
      (numbered q) (fun _ => rfl)
      (fun a f => by cases f <;> rfl) (fun _ => rfl)
    refine ⟨_, hx.trans (ccRun_ok _ _ _ _ _ _ .seq ha.1 ha.2 (hf.trans ?_)), ht, hcc, hq, he, ?_, fun x hxq => ?_, hvec⟩
    · rw [need_bindM, if_pos (by simpa using hoff), bindM_ok henter]
      rfl
    · rw [hln, numbered_issueCount, if_pos rfl, pushEntered_issueCount]
    · rw [hln, numbered_issueCount, if_neg hxq, pushEntered_issueCount]
  · obtain ⟨f, hx, hf⟩ := exec_pushc_eq n h s e k blk b
    rw [hx]
    exact ccRun_trap ha (hf.trans (bindM_error (need_false (hbad.mp hoff))))
  · obtain ⟨f, hx, hf⟩ := exec_pushk_eq n h s e k blk
    have henter := pushEntry_enters (e := e) (x := pushed h c 1 k blk 0 0) (mayPush_of_granted hneed hg)
    obtain ⟨ht, hcc, hq, he, hvec, hln⟩ := pushDone_frame (n := n) (s := s) h e (pushed h c 1 k blk 0 0) id (fun _ => rfl)
      (fun a f => rfl) (fun _ => rfl)
    have hid (u : State) : (u.modAc n id).modCC n (fun c => c.retire h .seq) = u.modCC n fun c => c.retire h .seq := by
      simp only [State.modCC, State.modAc, setAc_setAc, State.setAc_ac, if_true, id]
    rw [hid] at ht hcc hq he hvec hln
    refine ⟨_, hx.trans (ccRun_ok _ _ _ _ _ _ .seq ha.1 ha.2 (hf.trans (bindM_ok henter))), ht, hcc, hq, he, ?_, hvec⟩
    rw [hln, id, pushEntered, AC.setEng_ln]
    rfl
  · have hwait (x : QEntry) (hp : x.pool = need) := pushEntry_waits (e := e) (x := x) (hp ▸ not_mayPush hneed hno)
    rcases hi with rfl | ⟨rfl, hoff⟩
    · obtain ⟨f, hx, hf⟩ := exec_pushk_eq n h s e k blk
      rw [hx]
      exact ccRun_pushWaits ha (hf.trans (bindM_error (hwait _ rfl)))
    · obtain ⟨f, hx, hf⟩ := exec_pushc_eq n h s e k blk b
      rw [hx]
      refine ccRun_pushWaits ha (hf.trans ?_)
      rw [need_bindM, if_pos (by simpa using hoff)]
      exact bindM_error (hwait _ rfl)

/-! ### The return queue (R309) -/

section
variable {n : Nat} {h : Head} {s : State} {d : BitVec 6}

/-- The CC and the links after RETQ has popped its value. -/
def retqPopped (d : BitVec 6) (code : Nat) (v : W64) (rest : List (Nat × W64)) (stalled : Nat) (a : AC) : AC :=
  let cc := (a.cc.setS d v).setSr 0x0E7 (BitVec.ofNat 64 code)
  { a with cc := cc.setSr 0x0E0 (cc.sr 0x0E0 + BitVec.ofNat 64 stalled), ln := { a.ln with retq := rest } }

theorem exec_retq_pops (ha : CcActs n h s) {k : Nat} {v : W64} {r : List (Nat × W64)} (hq : (s.ac n).ln.retq = (k, v) :: r) :
    exec (.retq h d) s = .next (ccDone n h (acquire (.ac n 0) .ac (s.modAc n (retqPopped d k v r (s.waited n (.retq h d)))))) := by
  obtain ⟨f, hx, hf⟩ : ∃ f, exec (.retq h d) s = ccRun h (.retq h d) f s
      ∧ f n s = .ok .seq (acquire (.ac n 0) .ac (s.modAc n (retqPopped d k v r (s.waited n (.retq h d))))) := by
    refine ⟨_, rfl, (get_bindM _).trans ?_⟩
    simp only [hq]
    rfl
  rw [hx]
  exact ccRun_ok _ _ _ _ _ _ .seq ha.1 ha.2 hf

theorem exec_retq_waits (ha : CcActs n h s) (hq : (s.ac n).ln.retq = []) : ∃ t, exec (.retq h d) s = .next t ∧ CcWaits n (.retq h d) s t := by
  obtain ⟨f, hx, hf⟩ : ∃ f, exec (.retq h d) s = ccRun h (.retq h d) f s ∧ f n s = .error .wait s := by
    refine ⟨_, rfl, (get_bindM _).trans ?_⟩
    simp only [hq]
    rfl
  rw [hx]
  exact ccRun_waits ha hf

theorem retqArrive_reruns_retq (n : Nat) (h : Head) (d : BitVec 6) :
    ∃ g, (∀ s0, exec (.retqArrive n) s0 = rerun n g s0) ∧ g (.retq h d) = some (exec (.retq h d)) :=
  ⟨_, fun s0 => (show exec (.retqArrive n) s0 = execRetqArrive n s0 from rfl).trans rfl, rfl⟩

end

theorem fresh_setAc (s : State) (a : Agent) (m : Nat) (x : AC) : (s.setAc m x).fresh a = (s.fresh a).setAc m x := by
  show (if (s.agent a).since = s.wid then s.setAc m x else _) = _
  unfold State.fresh
  simp only
  split <;> rfl

/-- An acquire within a cluster asks for nothing of the clusters. -/
theorem acquire_setAc (s : State) (n u m : Nat) (x : AC) : acquire (.ac n u) .ac (s.setAc m x) = (acquire (.ac n u) .ac s).setAc m x := by
  have hback (t : State) : hostLinesBack (.ac n u) .ac t = t := rfl
  unfold acquire
  simp only [hback]
  rw [← fresh_setAc]
  refine congrArg (State.fresh · _) ?_
  generalize hg : List.filterMap _ _ = got
  have hg' := hg
  rw [show (s.setAc m x).viewed ((s.setAc m x).agent (.ac n u)) = s.viewed (s.agent (.ac n u)) from rfl] at hg'
  rw [hg']
  split <;> rfl

theorem returnQueue : ruleReturnQueue := by
  intro n s h d ha
  refine ⟨fun k v r hq => ?_, exec_retq_waits ha⟩
  let a1 := retqPopped d k v r (s.waited n (.retq h d)) (s.ac n)
  have hac : (acquire (.ac n 0) .ac (s.modAc n (retqPopped d k v r (s.waited n (.retq h d))))).ac n = a1 := by
    rw [(memStep_acquire ..).ac, State.modAc_ac, if_pos rfl]
  obtain ⟨t, ht⟩ : ∃ t, t = ccDone n h (acquire (.ac n 0) .ac (s.modAc n (retqPopped d k v r (s.waited n (.retq h d))))) := ⟨_, rfl⟩
  have htn : t.ac n = { a1 with cc := a1.cc.retire h .seq } := by rw [ht, ccDone, State.modCC_ac, if_pos rfl, hac]
  obtain ⟨hs, hp, hsys, hsame⟩ := retire_regsBut a1.cc h
  refine ⟨t, ccEnds_of_rerun (retqArrive_reruns_retq n h d) (ht ▸ exec_retq_pops ha hq), by rw [htn]; rfl, ?_⟩
  have hte : t = (acquire (.ac n 0) .ac s).setAc n (t.ac n) := by
    rw [ht, State.modAc, acquire_setAc]
    simp only [ccDone, State.modCC, State.modAc, setAc_setAc, State.setAc_ac, if_true]
  rw [htn] at hte ⊢
  have hset : RegsBut [d] [] [0x0E0, 0x0E7] (s.ac n).cc a1.cc :=
    ((regsBut_setS _ d v).mono (List.Subset.refl _) (List.nil_subset _) (List.nil_subset _)).trans
      (((regsBut_setSr _ 0x0E7 _).mono (List.nil_subset _) (List.nil_subset _) (by simp)).trans
        ((regsBut_setSr _ 0x0E0 _).mono (List.nil_subset _) (List.nil_subset _) (by simp)))
  obtain ⟨hs', hp', hsys', hsame'⟩ := hset.trans (retire_regsBut a1.cc h).of_nil
  refine ⟨hs', fun hd => ?_, hp', ?_, ?_, hsys', hsame', fun e => ?_, rfl, rfl, hte⟩
  · exact (hs d List.not_mem_nil).trans ((CC.setS_s ..).trans (by rw [if_pos rfl, if_neg hd]))
  · rw [hsys _ List.not_mem_nil (by decide) (by decide)]
    simp [a1, retqPopped]
  · rw [hsys _ List.not_mem_nil (by decide) (by decide)]
    simp only [a1, retqPopped, CC.setSr_sr, if_true, if_neg (show ¬(0x0E0 = 0x0E7) by decide)]
    exact congrArg (· + _) (by simp [CC.sr])
  · cases e <;> rfl

/-- Settles O8: a push enters the queue where it is granted, and a pop takes the oldest value. -/
theorem queuesOfTheCluster : Obligations.QueuesOfTheCluster := ⟨pushesEnter, returnQueue⟩

end Sys2Proof

/-! # LAUNCH and COORD (R310, R312) -/

namespace Sys2Proof

open Machine

/-! ### LAUNCH and COORD (R310, R312) -/

theorem addrRange_ok {v : W64} (hv : v.toNat < 2 ^ 55) (s : State) : addrRange v s = .ok () s := by
  simp only [addrRange, hv, if_true, pure_run]

theorem addrRange_trap {v : W64} (hv : ¬v.toNat < 2 ^ 55) (s : State) : addrRange v s = .error (.trap 0x03 v 0) s := by
  simp only [addrRange, if_neg hv]
  rfl

theorem relM_ok {a : Agent} {sc : Scope} {s : State} (hs : (release a sc s).settled sc (shares .quad a) = true) :
    relM a sc s = .ok () (release a sc s) := by
  simp only [relM, act_bindM, confirmed, get_bindM, hs, if_true, pure_run]

theorem launchAllowed_ok {n : Nat} {s : State} (hc : checkGranule s (.ac n 0) .issue (0x30000000000 + dieOf n * 0x1000000 + 0x20000) 8 = none) :
    launchAllowed n s = .ok () s := by
  unfold launchAllowed
  rw [get_bindM, hc]
  rfl

section
variable {n : Nat} {h : Head} {s : State}

/-- A launch joins the queue of its die. -/
def launchQueued (d : Nat) (v : W64) (num : Nat) (s : State) : State :=
  s.modDie d fun x => { x with launchQ := x.launchQ ++ [⟨v, num, 0⟩], lseq := x.lseq + 1 }

theorem exec_launch_eq {d : BitVec 6} {a : Src} (hc : s.cur = .ac n 0) (hh : (s.ac n).cc.h = false) :
    ∃ f, exec (.launch h d a) s = ccRun h (.launch h d a) f s ∧ f n s = (do
      addrRange ((s.ac n).cc.src a)
      need (((s.ac n).cc.src a).toNat % 256 == 0) 0x02 ((s.ac n).cc.src a) 0
      launchAllowed n
      if 64 ≤ (s.die (dieOf n)).launchQ.length then throw .wait
      relM (.ac n 0) .pkg
      act fun t => (launchQueued (dieOf n) ((s.ac n).cc.src a) (dieOf n * 2 ^ 30 + (s.die (dieOf n)).lseq % 2 ^ 30) t).modCC n fun c =>
        c.setS d (BitVec.ofNat 64 (dieOf n * 2 ^ 30 + (s.die (dieOf n)).lseq % 2 ^ 30))
      pure .seq : M Flow) s := by
  show ∃ f, execLaunch h d a s = _ ∧ _
  exact ⟨_, ccRunChecked_ok (ok := notInHandler) hc (by rw [notInHandler, hh]; rfl), rfl⟩

end

theorem launchQueues : ruleLaunchQueued := by
  intro n s s1 h d a hc v num
  refine ⟨fun hh => ?_, fun hh hen => ⟨fun hv hm => ?_, fun hv hm hck hq hs1 hset => ?_⟩⟩
  · show execLaunch h d a s = _
    exact ccRunChecked_illegal (ok := notInHandler) hc (by rw [notInHandler, hh]; rfl)
  · obtain ⟨f, hx, hf⟩ := exec_launch_eq (h := h) (d := d) (a := a) hc hh
    rw [hx]
    exact ccRun_trap ⟨hc, hen⟩ (hf.trans ((bindM_ok (addrRange_ok hv s)).trans (bindM_error (need_false (by simpa using hm)))))
  · obtain ⟨f, hx, hf⟩ := exec_launch_eq (h := h) (d := d) (a := a) hc hh
    rw [hx]
    subst hs1
    refine ccRun_ok _ _ _ _ _ _ .seq hc hen (hf.trans ?_)
    rw [bindM_ok (addrRange_ok hv s), bindM_ok (need_true (by simpa using hm)), bindM_ok (launchAllowed_ok hck), if_neg (by omega)]
    exact bindM_ok (relM_ok hset)

theorem exec_coord_eq {n : Nat} {h : Head} {s : State} {f : BitVec 3} {d : BitVec 6} {a : Src} {tk : Task} (htk : (s.ac n).cc.task = some tk) :
    ∃ g, exec (.coord h f d a) s = ccRun h (.coord h f d a) g s ∧ g n s = (do
      need (!((s.ac n).cc.resumed && (f == 0 || f == 4 || f == 5))) 0x02 ((s.ac n).cc.src a) 0
      need (decide (4 ≤ f.toNat) || decide (((s.ac n).cc.src a).toNat < lrNlev tk.lrec)) 0x02 ((s.ac n).cc.src a) 0
      act fun t => t.modCC n fun c => c.setS d (coordVal tk f ((s.ac n).cc.src a).toNat)
      pure .seq : M Flow) s := by
  refine ⟨_, rfl, (get_bindM _).trans ?_⟩
  simp only [htk]

theorem coordinates : ruleCoordinates := by
  intro n s h f d a tk ha htk v bad
  obtain ⟨g, hx, hg⟩ := exec_coord_eq (h := h) (f := f) (d := d) (a := a) htk
  have hres : ((s.ac n).cc.resumed = true ∧ (f = 0 ∨ f = 4 ∨ f = 5)) ↔ ((s.ac n).cc.resumed && (f == 0 || f == 4 || f == 5)) = true := by
    simp only [Bool.and_eq_true, Bool.or_eq_true, beq_iff_eq, or_assoc]
  have hlev : (f.toNat < 4 ∧ lrNlev tk.lrec ≤ v.toNat) ↔ (decide (4 ≤ f.toNat) || decide (v.toNat < lrNlev tk.lrec)) = false := by
    simp only [Bool.or_eq_false_iff, decide_eq_false_iff_not, Nat.not_le, Nat.not_lt]
  rw [need_bindM] at hg
  refine ⟨fun hb => ?_, fun hb => ?_⟩
  · rw [hx]
    refine ccRun_trap ha (hg.trans ?_)
    by_cases hr : ((s.ac n).cc.resumed && (f == 0 || f == 4 || f == 5)) = true
    · rw [hr]; rfl
    · rw [if_pos (by rw [Bool.not_eq_true] at hr; rw [hr]; rfl)]
      exact bindM_error (need_false (hlev.mp (hb.resolve_left (mt hres.mp hr))))
  · obtain ⟨hr, hl⟩ := not_or.mp hb
    rw [hres, Bool.not_eq_true] at hr
    rw [hlev, Bool.not_eq_false] at hl
    refine ⟨_, hx.trans (ccRun_sets (g := fun c => c.setS d (coordVal tk f v.toNat)) ha (hg.trans ?_)), ccSet_frame (regsBut_setS ..), fun hd => ?_⟩
    · rw [if_pos (by rw [hr]; rfl), need_bindM, if_pos hl]
      rfl
    · rw [ccSet_cc, (retire_regsBut ..).s_eq, CC.setS_s, if_pos rfl, if_neg hd]
      rfl

/-- Settles O14: LAUNCH checks, releases and queues; COORD checks and reads. -/
theorem launchAndCoord : Obligations.LaunchAndCoord := ⟨launchQueues, coordinates⟩

end Sys2Proof

/-! # Taking a trap, and traps that cannot be entered (R442, R450) -/

namespace Sys2Proof

open Machine

/-! ### Trap entry (R442) -/

/-- The cluster whose engine has told the fault that is taken. -/
def told (p : Pending) (a : AC) : AC :=
  match eidOf p.src with
  | some e => a.setEng e { a.eng e with untold := false }
  | none => a

theorem told_cc (p : Pending) (a : AC) : (told p a).cc = a.cc := by
  unfold told
  split
  · exact AC.setEng_cc ..
  · rfl

/-- The image's head depends on the control core alone. -/
theorem trapImage_eq (n : Nat) (p : Pending) (stop : Nat) (s : State) :
    trapImage n p stop s = wordBytes ((told p (s.ac n)).frame stop ((s.ac n).headWords p (s.ac n).estop)) := by
  have hh : (told p (s.ac n)).headWords p (s.ac n).estop = (s.ac n).headWords p (s.ac n).estop := by
    unfold AC.headWords
    rw [told_cc]
  rw [← hh]
  rfl

/-- The state that entering a trap leaves once the image has been written. -/
def entered (n : Nat) (p : Pending) (s s2 : State) : State :=
  s2.modAc n fun b => { (told p (s.ac n)).enter p (s.ac n).estop with disp := b.disp, tlb := b.tlb, utlb := b.utlb }

theorem enterTrap_untaken {n : Nat} {p : Pending} {stop : Nat} {s : State} (hv : (s.ac n).cc.sr 0x026 = 0) :
    enterTrap n p stop s = endFatal n 0x103 s := by
  unfold enterTrap
  rw [if_pos hv]

/-- What entering a trap does, by how the write of the image ends. -/
theorem enterTrap_eq {n : Nat} {p : Pending} {stop : Nat} {s : State} (hd : p.defer = false) (hv : (s.ac n).cc.sr 0x026 ≠ 0) :
    enterTrap n p stop s =
      match writeReleased (.ac n 0) .ac ((s.ac n).cc.sr 0x027) (trapImage n p stop s) s with
      | .ok _ s2 => entered n p s s2
      | .error (.xlate d cause k va lv epa ent) s2 =>
        (s2.addXlateWait (.ac n 0) d cause k va lv epa ent).2.modCC n fun c =>
          { c with entry := some (p, stop, true), xl := some (s2.addXlateWait (.ac n 0) d cause k va lv epa ent).1, wait := none }
      | .error st s2 =>
        match s2.ringed (.ac n 0) st with
        | .wait => s2.modCC n fun c => { c with entry := some (p, stop, true), wait := none }
        | .access w0 w1 va => endFatal n 0x103 (s2.addAccessRecord (.ac n 0) w0 w1 va)
        | _ => endFatal n 0x103 s2 := by
  rw [trapImage_eq]
  unfold enterTrap entered told
  cases eidOf p.src <;> simp only [hd, Bool.false_eq_true, if_false, hv] <;>
    (generalize writeReleased _ _ _ _ _ = r
     cases r with
     | ok => rfl
     | error st => cases st <;> rfl)

theorem stopAll_eng (a : AC) (e : Eid) : (allEng.foldl (fun a e => a.setEng e (a.eng e).stopped) a).eng e = (a.eng e).stopped := by
  cases e <;> simp [allEng]

theorem eng_withParts (a : AC) (l : Links) (v : Vec) (m : MX) (e : Eid) : { a with ln := l, vec := v, mxu := m }.eng e = a.eng e := by
  cases e <;> rfl

theorem eng_withCc (a : AC) (c : CC) (e : Eid) : { a with cc := c }.eng e = a.eng e := by
  cases e <;> rfl

/-- A control core with the trap registers written. -/
def trapRegs (p : Pending) (estop : W64) (c : CC) : CC :=
  ((((((c.setSr 0x020 (addr55 c.pc)).setSr 0x021 (causeWord p c.ie)).setSr 0x022 p.i0).setSr 0x023 p.i1).setSr 0x024 p.i2).setSr 0x025
    p.i3).setSr 0x02A estop

theorem trapRegs_sr (p : Pending) (estop : W64) (c : CC) (k : Nat) :
    (trapRegs p estop c).sr k = if k = 0x02A then estop else if k = 0x025 then p.i3 else if k = 0x024 then p.i2 else if k = 0x023 then p.i1
      else if k = 0x022 then p.i0 else if k = 0x021 then causeWord p c.ie else if k = 0x020 then addr55 c.pc else c.sr k := by
  simp only [trapRegs, CC.setSr_sr]

theorem trapRegs_keep (p : Pending) (estop : W64) (c : CC) :
    (trapRegs p estop c).sreg = c.sreg ∧ (trapRegs p estop c).preg = c.preg ∧ (trapRegs p estop c).greg = c.greg := by
  unfold trapRegs
  refine ⟨?_, ?_, ?_⟩
  · iterate 7 rw [CC.setSr_sreg]
  · iterate 7 rw [CC.setSr_preg]
  · iterate 7 rw [CC.setSr_greg]

/-- A control core in a handler, at a PC. -/
def inHandler (pc : W64) (c : CC) : CC :=
  { c with h := true, ie := false, la0 := false, la1 := false, pc := pc, wait := none, xl := none, xlAbort := none, entry := none }

theorem inHandler_sr (pc : W64) (c : CC) (k : Nat) : (inHandler pc c).sr k = c.sr k := rfl
theorem inHandler_s (pc : W64) (c : CC) (r : BitVec 6) : (inHandler pc c).s r = c.s r := rfl
theorem inHandler_p (pc : W64) (c : CC) (r : BitVec 4) : (inHandler pc c).p r = c.p r := rfl
theorem inHandler_greg (pc : W64) (c : CC) : (inHandler pc c).greg = c.greg := rfl

theorem enter_cc (a : AC) (p : Pending) (estop : W64) : (a.enter p estop).cc = inHandler (a.cc.sr 0x026) (trapRegs p estop a.cc) := by
  have hpc := trapRegs_sr p estop a.cc 0x026
  unfold trapRegs at hpc
  unfold AC.enter inHandler trapRegs
  simp only [allEng, List.foldl_cons, List.foldl_nil, AC.setEng_cc, hpc]
  rfl

/-- The trap registers that entry writes; every other keeps its value. -/
theorem enter_sr (a : AC) (p : Pending) (estop : W64) (k : Nat) :
    (a.enter p estop).cc.sr k = if k = 0x02A then estop else if k = 0x025 then p.i3 else if k = 0x024 then p.i2 else if k = 0x023 then p.i1
      else if k = 0x022 then p.i0 else if k = 0x021 then causeWord p a.cc.ie else if k = 0x020 then addr55 a.cc.pc else a.cc.sr k := by
  rw [enter_cc, inHandler_sr, trapRegs_sr]

theorem enter_eng (a : AC) (p : Pending) (estop : W64) (e : Eid) : (a.enter p estop).eng e = (a.eng e).stopped := by
  unfold AC.enter
  rw [eng_withParts, stopAll_eng, eng_withCc]

theorem enter_links (a : AC) (p : Pending) (estop : W64) : (a.enter p estop).ln.tok = [] ∧ (a.enter p estop).ln.retq = [] := by
  unfold AC.enter
  exact ⟨rfl, rfl⟩

theorem entered_ac (n : Nat) (p : Pending) (s s2 : State) :
    ((entered n p s s2).ac n).cc = ((s.ac n).enter p (s.ac n).estop).cc
      ∧ (∀ e, (((entered n p s s2).ac n).eng e).st = 0 ∧ (((entered n p s s2).ac n).eng e).q = [])
      ∧ ((entered n p s s2).ac n).ln.tok = [] ∧ ((entered n p s s2).ac n).ln.retq = [] := by
  have he : ∀ e, ((entered n p s s2).ac n).eng e = ((told p (s.ac n)).eng e).stopped := by
    intro e
    rw [← enter_eng (told p (s.ac n)) p (s.ac n).estop]
    simp only [entered, State.modAc_ac, if_true]
    cases e <;> rfl
  refine ⟨?_, fun e => by rw [he e]; exact ⟨rfl, rfl⟩, ?_, ?_⟩
  · simp only [entered, State.modAc_ac, if_true, enter_cc, told_cc]
  · simp only [entered, State.modAc_ac, if_true]; exact (enter_links ..).1
  · simp only [entered, State.modAc_ac, if_true]; exact (enter_links ..).2

theorem causeWord_toNat {p : Pending} (ie : Bool) (hc : p.cause < 256) (hs : p.src < 8) :
    ∃ k, k < 4 ∧ (causeWord p ie).toNat = k * 2 ^ 62 + ie.toNat * 2 ^ 61 + p.src * 2 ^ 52 + p.cause := by
  have hi := Bool.toNat_lt ie
  have hd := Bool.toNat_lt p.defer
  have hq : (if p.cause = 0x20 ∨ p.cause = 0x21 then 1 else 0) < 2 := by split <;> omega
  unfold causeWord pack
  simp only [List.foldl_cons, List.foldl_nil, BitVec.toNat_ofNat]
  generalize (if p.cause = 0x20 ∨ p.cause = 0x21 then 1 else 0) = q at hq ⊢
  exact ⟨2 * q + p.defer.toNat, by omega, by omega⟩

theorem causeWord_fields {p : Pending} (ie : Bool) (hc : p.cause < 256) (hs : p.src < 8) :
    bits (causeWord p ie) 0 8 = p.cause ∧ bits (causeWord p ie) 52 3 = p.src ∧ (causeWord p ie).getLsbD 61 = ie := by
  obtain ⟨k, hk, hw⟩ := causeWord_toNat ie hc hs
  have hi := Bool.toNat_lt ie
  refine ⟨?_, ?_, ?_⟩
  · unfold bits; omega
  · unfold bits; omega
  · rw [BitVec.getLsbD, hw, Nat.testBit_eq_decide_div_mod_eq]
    have : (k * 2 ^ 62 + ie.toNat * 2 ^ 61 + p.src * 2 ^ 52 + p.cause) / 2 ^ 61 % 2 = ie.toNat := by omega
    rw [this]
    cases ie <;> rfl

theorem modAc_eq_setAc (s : State) (n : Nat) (f : AC → AC) : s.modAc n f = s.setAc n ((s.modAc n f).ac n) := by
  rw [State.modAc_ac, if_pos rfl]
  rfl

theorem trapEntered_saved : ruleTrapEntered := by
  intro n p stop s s2 hd hc hs hv hw
  have ht : enterTrap n p stop s = entered n p s s2 := by rw [enterTrap_eq hd hv, hw]
  obtain ⟨hcc, hen, htok, hret⟩ := entered_ac n p s s2
  obtain ⟨hcause, hsrc, hie⟩ := causeWord_fields (p := p) (s.ac n).cc.ie hc hs
  have hsr := fun k => (congrArg (fun c : CC => c.sr k) hcc).trans (enter_sr (s.ac n) p (s.ac n).estop k)
  obtain ⟨hss, hps, hgs⟩ := trapRegs_keep p (s.ac n).estop (s.ac n).cc
  rw [ht]
  dsimp only
  refine ⟨?_, ?_, ?_, ?_, ?_, ?_, ?_, ?_, ?_, ?_, ?_, ?_, ?_, ?_, hen, htok, hret, ?_, ?_, ?_, fun k hk => ?_, modAc_eq_setAc ..⟩
  · rw [hsr]; simp
  · rw [hsr]; simpa using hcause
  · rw [hsr]; simpa using hsrc
  · rw [hsr]; simpa using hie
  · rw [hsr]; simp
  · rw [hsr]; simp
  · rw [hsr]; simp
  · rw [hsr]; simp
  · rw [hsr]; simp
  · rw [hcc, enter_cc]; rfl
  · rw [hcc, enter_cc]; rfl
  · rw [hcc, enter_cc]; rfl
  · rw [hcc, enter_cc]; rfl
  · rw [hcc, enter_cc]; rfl
  · rw [hcc, enter_cc]
    intro r _
    rw [inHandler_s, CC.s, CC.s, hss]
  · rw [hcc, enter_cc]
    intro r _
    rw [inHandler_p, CC.p, CC.p, hps]
  · rw [hcc, enter_cc, inHandler_greg, hgs]
  · simp only [List.mem_cons, List.not_mem_nil, or_false, not_or] at hk
    obtain ⟨h0, h1, h2, h3, h4, h5, h6⟩ := hk
    refine (hsr k).trans ?_
    simp only [h0, h1, h2, h3, h4, h5, h6, if_false]

theorem fatalTrap : ruleFatalTrap := by
  intro n p stop s hd
  refine ⟨enterTrap_untaken, fun w0 w1 va s2 hv hw => ⟨fun hr => ?_, fun hr => ?_⟩, fun d k kd va lv epa ent s2 hv hw => ?_,
    fun c i0 i1 => ⟨fun hp => ?_, fun hp hh h0 h1 => ?_, fun hp hh => ?_⟩⟩
  · simp [enterTrap_eq hd hv, hw, State.ringed, hr]
  · simp [enterTrap_eq hd hv, hw, State.ringed, hr, SameMemory]
  · simp [enterTrap_eq hd hv, hw, State.addXlateWait, State.addXlateTag]
  · rw [syncTrap, takeTrap, if_pos hp]; simp
  · rw [syncTrap, takeTrap, if_neg (Bool.eq_false_iff.mp hp), settledTrap, if_pos ⟨⟨rfl, h0, h1⟩, hh⟩]
  · rw [syncTrap, takeTrap, if_neg (Bool.eq_false_iff.mp hp), settledTrap, if_neg fun h => Bool.eq_false_iff.mp hh h.2]

/-- Settles O11: entering a trap by the parts of the cluster it leaves, and the ends of an entry that cannot be made. -/
theorem trapEntered : Obligations.TrapEntered := ⟨trapEntered_saved, fatalTrap⟩

end Sys2Proof

/-! # What translating and reading keep (R48 to R62) -/

namespace Sys2Proof

open Machine

/-! ### What a computation keeps, however it ends -/

/-- A computation relates the state it begins in to the one it ends in, whether it succeeds or stops. -/
structure Keeps {α : Type} (R : State → State → Prop) (f : M α) : Prop where
  run : ∀ s, match f s with | .ok _ t => R s t | .error _ t => R s t

/-- A relation of states that a sequence of computations inherits. -/
structure Chains (R : State → State → Prop) : Prop where
  refl : ∀ s, R s s
  trans : ∀ {s t u}, R s t → R t u → R s u

section
variable {R : State → State → Prop} {α β : Type} {f : M α} {s t : State}

theorem Keeps.ok (h : Keeps R f) {a : α} (he : f s = .ok a t) : R s t := by simpa only [he] using h.run s
theorem Keeps.error (h : Keeps R f) {e : Stop} (he : f s = .error e t) : R s t := by simpa only [he] using h.run s

theorem Keeps.mono {R' : State → State → Prop} (h : Keeps R f) (hR : ∀ s t, R s t → R' s t) : Keeps R' f := by
  refine ⟨fun s => ?_⟩
  have hs := h.run s
  cases hf : f s <;> simp only [hf] at hs ⊢ <;> exact hR _ _ hs

theorem keeps_bind (hR : Chains R) {g : α → M β} (hf : Keeps R f) (hg : ∀ a, Keeps R (g a)) : Keeps R (f >>= g) := by
  refine ⟨fun s => ?_⟩
  show match EStateM.bind f g s with | .ok _ t => R s t | .error _ t => R s t
  unfold EStateM.bind
  cases hfs : f s with
  | error e t => exact hf.error hfs
  | ok a t =>
    have ht := hf.ok hfs
    have hga := (hg a).run t
    simp only
    cases hgt : g a t <;> simp only [hgt] at hga ⊢ <;> exact hR.trans ht hga

theorem keeps_pure (hR : Chains R) (a : α) : Keeps R (pure a : M α) := ⟨hR.refl⟩
theorem keeps_throw (hR : Chains R) (e : Stop) : Keeps R (throw e : M α) := ⟨hR.refl⟩
theorem keeps_get (hR : Chains R) : Keeps R (get : M State) := ⟨hR.refl⟩
theorem keeps_act {g : State → State} (hg : ∀ s, R s (g s)) : Keeps R (act g) := ⟨hg⟩

/-- After reading the state, a computation may depend on it. -/
theorem keeps_get_bind {g : State → M β} (hg : ∀ s, match g s s with | .ok _ t => R s t | .error _ t => R s t) : Keeps R (get >>= g) := ⟨hg⟩

theorem keeps_ite {p : Prop} [Decidable p] {f g : M α} (hf : Keeps R f) (hg : Keeps R g) : Keeps R (if p then f else g) := by
  split
  · exact hf
  · exact hg

/-- A stop before what goes on. -/
theorem keeps_guard (hR : Chains R) {p : Prop} [Decidable p] {e : Stop} {g : PUnit → M β} (hg : Keeps R (g ⟨⟩)) :
    Keeps R (if p then throw e >>= g else g ⟨⟩) := keeps_ite ⟨hR.refl⟩ hg

theorem keeps_mapM (hR : Chains R) {g : α → M β} (hg : ∀ a, Keeps R (g a)) (l : List α) : Keeps R (l.mapM g) := by
  induction l with
  | nil => exact keeps_pure hR _
  | cons a l ih =>
    rw [List.mapM_cons]
    exact keeps_bind hR (hg a) fun _ => keeps_bind hR ih fun _ => keeps_pure hR _

theorem keeps_need (hR : Chains R) (b : Bool) (c : Nat) (i0 i1 : W64) : Keeps R (need b c i0 i1) :=
  keeps_ite (keeps_pure hR _) (keeps_throw hR _)

end

/-! ### Translation and reads -/

/-- A cluster without its translation caches. -/
def sansTlb (a : AC) : AC := { a with tlb := [], utlb := [] }

/-- A die without its translation caches, its registers, and what measuring them notes. -/
def sansRegs (d : Die) : Die := { d with tlb := [], wc := [], regs := [], sensedAt := 0 }

/-- What translating and reading may change: memory's records, translation caches, and the registers of sensors. -/
structure Reads (s t : State) : Prop where
  beyond : { beyondMemory t with acs := [], dies := [] } = { beyondMemory s with acs := [], dies := [] }
  ac : ∀ n, sansTlb (t.ac n) = sansTlb (s.ac n)
  die : ∀ d, sansRegs (t.die d) = sansRegs (s.die d)
  ok : MemoryOk s → MemoryOk t

theorem reads_chains : Chains Reads where
  refl _ := ⟨rfl, fun _ => rfl, fun _ => rfl, id⟩
  trans h h' := ⟨h'.beyond.trans h.beyond, fun n => (h'.ac n).trans (h.ac n), fun d => (h'.die d).trans (h.die d), h'.ok ∘ h.ok⟩

section
variable {s t : State}

theorem MemStep.reads (h : MemStep s t) : Reads s t :=
  ⟨by rw [h.beyond], fun n => by rw [h.ac], fun d => by rw [h.die], h.ok⟩

theorem Reads.cc (h : Reads s t) (n : Nat) : (t.ac n).cc = (s.ac n).cc := congrArg (fun a => a.cc) (h.ac n)

theorem reads_setTlb (c : TlbAt) (l : List TlbEntry) : Reads s (s.setTlb c l) := by
  cases c with
  | unit n u =>
    refine ⟨rfl, fun m => ?_, fun d => rfl, id⟩
    show sansTlb ((s.setAc n _).ac m) = _
    rw [State.setAc_ac]
    split
    · next h => subst h; rfl
    · rfl
  | ac n =>
    refine ⟨rfl, fun m => ?_, fun d => rfl, id⟩
    show sansTlb ((s.setAc n _).ac m) = _
    rw [State.setAc_ac]
    split
    · next h => subst h; rfl
    · rfl
  | die d =>
    refine ⟨rfl, fun m => rfl, fun e => ?_, id⟩
    show sansRegs ((s.modDie d _).die e) = _
    rw [State.modDie_die]
    split
    · next h => subst h; rfl
    · rfl

theorem reads_seq (q : Nat) : Reads s { s with seq := q } := ⟨rfl, fun _ => rfl, fun _ => rfl, id⟩

theorem reads_tlbFill (e : TlbEntry) (l : List TlbAt) (s : State) : Reads s (tlbFill e l s) := by
  induction l generalizing s with
  | nil => exact reads_chains.refl s
  | cons c r ih =>
    unfold tlbFill
    split
    · exact reads_chains.refl s
    · exact reads_chains.trans (reads_chains.trans (reads_setTlb c _) (reads_seq _)) (ih _)

theorem keeps_readEntry (d pa : Nat) : Keeps Reads (readEntry d pa) := by
  refine ⟨fun s => ?_⟩
  unfold readEntry
  cases checkAccess s (.disp d) .read pa 8 with
  | some x => exact reads_chains.refl s
  | none =>
    have h : Reads s (strongLoad (.disp d) .pkg false (canonPa d pa) 8 (s.fresh (.disp d))).2 :=
      ((memStep_fresh s _).trans (memStep_strongLoad (s.fresh (.disp d)) _ _ _ _ _)).reads
    simp only
    generalize strongLoad (.disp d) .pkg false (canonPa d pa) 8 (s.fresh (.disp d)) = r at h ⊢
    exact h

theorem keeps_chooseDiffering {α : Type} [DecidableEq α] (x : α) (l : List α) : Keeps Reads (chooseDiffering x l) := by
  refine ⟨fun s => ?_⟩
  unfold chooseDiffering
  simp only
  split
  · next a t h =>
    split at h
    · cases h; exact reads_chains.refl s
    · cases h; exact reads_seq _
  · next e t h => split at h <;> cases h

theorem reads_setDie {d : Nat} {x : Die} (hx : sansRegs x = sansRegs (s.die d)) : Reads s (s.setDie d x) := by
  refine ⟨rfl, fun m => rfl, fun e => ?_, id⟩
  rw [State.setDie_die]
  split
  · next h => subst h; exact hx
  · rfl

theorem reads_ite {p : Prop} [Decidable p] {u : State} (ht : Reads s t) (hu : Reads s u) : Reads s (if p then t else u) := by
  split
  · exact ht
  · exact hu

theorem reads_setWc (d q : Nat) (wc : List WcEntry) : Reads s { s.setDie d { s.die d with wc := wc } with seq := q } := by
  have h : Reads s (s.setDie d { s.die d with wc := wc }) := reads_setDie rfl
  exact reads_chains.trans h (reads_seq q)

theorem keeps_walkEntry (d level va epa : Nat) : Keeps Reads (walkEntry d level va epa) := by
  unfold walkEntry
  refine keeps_bind reads_chains (keeps_readEntry ..) fun w => keeps_bind reads_chains (keeps_get reads_chains) fun s =>
    keeps_bind reads_chains (keeps_chooseDiffering ..) fun w => ?_
  have hpure : Keeps Reads (pure w : M W64) := keeps_pure reads_chains _
  split
  · refine keeps_bind reads_chains ?_ fun _ => hpure
    exact ⟨fun s => reads_ite (reads_chains.refl s) (reads_setWc ..)⟩
  · refine keeps_bind reads_chains ?_ fun _ => hpure
    exact ⟨fun s => reads_ite (reads_chains.refl s) (reads_setWc ..)⟩
  · exact hpure

theorem keeps_walkFrom (d : Nat) (k : AKind) (va : Nat) : ∀ f level epa, Keeps Reads (walkFrom d k va f level epa) := by
  intro f
  induction f with
  | zero => intro level epa; exact keeps_throw reads_chains _
  | succ f ih =>
    intro level epa
    unfold walkFrom
    refine keeps_bind reads_chains (keeps_walkEntry ..) fun w => keeps_ite (keeps_throw reads_chains _) ?_
    split
    · exact keeps_throw reads_chains _
    · exact keeps_ite (keeps_throw reads_chains _) (ih ..)
    · exact keeps_ite (keeps_throw reads_chains _) (ih ..)
    · exact keeps_ite (keeps_pure reads_chains _) (keeps_throw reads_chains _)

theorem keeps_walk (d : Nat) (k : AKind) (va : Nat) : Keeps Reads (walk d k va) :=
  keeps_bind reads_chains (keeps_get reads_chains) fun _ =>
    keeps_ite (keeps_throw reads_chains _) (keeps_ite (keeps_throw reads_chains _) (keeps_walkFrom ..))

theorem keeps_xlate (a : Agent) (k : AKind) (va : Nat) : Keeps Reads (xlate a k va) := by
  refine ⟨fun s => ?_⟩
  unfold xlate
  cases hw : walk a.die k va s with
  | ok l t =>
    have ht := (keeps_walk a.die k va).ok hw
    simp only
    cases hc : chooseDiffering (l.pa, pteAttr l.ent) ((s.tlbHits a k va).map fun e => e.gives va) t with
    | ok r u =>
      have hu := reads_chains.trans ht ((keeps_chooseDiffering _ _).ok hc)
      simp only
      cases (if r = (l.pa, pteAttr l.ent) then some (l.entry va) else (s.tlbHits a k va).find? fun e => e.gives va == r) with
      | none => exact hu
      | some e => exact reads_chains.trans hu (reads_tlbFill ..)
    | error e u => exact reads_chains.trans ht ((keeps_chooseDiffering _ _).error hc)
  | error e t =>
    have ht := (keeps_walk a.die k va).error hw
    simp only
    cases s.tlbHits a k va with
    | nil => exact ht
    | cons h r =>
      simp only
      rcases Nat.mod_two_eq_zero_or_one (Config.tlbChoice t.seq) with hc | hc
      · rw [if_pos hc]
        exact reads_chains.trans ht (reads_chains.trans (reads_seq _) (reads_tlbFill ..))
      · rw [if_neg (by omega)]
        exact reads_chains.trans ht (reads_seq _)

theorem keeps_reachable (a : Agent) (k : AKind) (va len : Nat) : Keeps Reads (reachable a k va len) := by
  unfold reachable
  refine keeps_guard reads_chains (keeps_bind reads_chains (keeps_mapM reads_chains (fun _ => ?_) _) fun ps =>
    keeps_bind reads_chains (keeps_get reads_chains) fun s => ?_)
  · exact keeps_bind reads_chains (keeps_xlate ..) fun _ => keeps_pure reads_chains _
  · split
    · exact keeps_throw reads_chains _
    · exact keeps_pure reads_chains _

theorem keeps_reach (a : Agent) (k : AKind) (va len : Nat) : Keeps Reads (reach a k va len) := by
  unfold reach
  refine keeps_bind reads_chains (keeps_reachable ..) fun ps => keeps_bind reads_chains (keeps_get reads_chains) fun s =>
    keeps_guard reads_chains ?_
  split
  · exact keeps_throw reads_chains _
  · exact keeps_pure reads_chains _

theorem keeps_addrRange (va : W64) : Keeps Reads (addrRange va) := keeps_ite (keeps_pure reads_chains _) (keeps_throw reads_chains _)

theorem sensed_regs (d : Nat) (s : State) (v w : W64) (q c : Nat) : Reads s { ((s.setReg d 0x10028 v).setReg d 0x10030 w).modDie d fun x => { x with sensedAt := c } with seq := q } := by
  refine ⟨rfl, fun _ => rfl, fun e => ?_, id⟩
  show sansRegs ((((s.setReg d 0x10028 v).setReg d 0x10030 w).modDie d fun x => { x with sensedAt := c }).die e) = _
  simp only [State.setReg, State.modDie_die]
  by_cases he : e = d
  · subst he; simp [Die.setReg, sansRegs]
  · simp [he]

theorem reads_sense (d : Nat) (s : State) : Reads s (sense d s) := by
  unfold sense
  split
  · exact reads_chains.refl s
  · exact sensed_regs ..

/-- What goes on from a state that has been reached. -/
theorem reads_after {α : Type} {f : M α} (h : Reads s t) (hf : match f t with | .ok _ u => Reads t u | .error _ u => Reads t u) :
    match f t with | .ok _ u => Reads s u | .error _ u => Reads s u := by
  cases hft : f t <;> simp only [hft] at hf ⊢ <;> exact reads_chains.trans h hf

theorem reads_mmioLoad (d off n : Nat) (s : State) : Reads s (mmioLoad d off n s).2 := by
  show Reads s (if off / 8 * 8 = 0x10028 ∨ off / 8 * 8 = 0x10030 then sense d s else s)
  split
  · exact reads_sense ..
  · exact reads_chains.refl s

theorem keeps_readPieces (a : Agent) (u : Nat) (ps : List (Nat × Nat × BitVec 2)) : Keeps Reads (readPieces a u ps) := by
  induction ps with
  | nil => exact keeps_pure reads_chains _
  | cons p r ih =>
    obtain ⟨pa, n, at'⟩ := p
    unfold readPieces
    have hrest (b : List Byte) : Keeps Reads (readPieces a u r >>= fun rest => pure (b ++ rest)) :=
      keeps_bind reads_chains ih fun _ => keeps_pure reads_chains _
    refine keeps_get_bind fun s => ?_
    cases mmioOf a.die pa with
    | none =>
      have hs : Reads s (loadRange a none (canonPa a.die pa) n u s).2 := (memStep_loadRange ..).reads
      simp only
      generalize loadRange a none (canonPa a.die pa) n u s = q at hs ⊢
      exact reads_after (t := q.2) (f := readPieces a u r >>= fun rest => pure (q.1 ++ rest)) hs ((hrest q.1).run q.2)
    | some o =>
      have hs := reads_mmioLoad o.1 o.2 n s
      simp only
      generalize mmioLoad o.1 o.2 n s = q at hs ⊢
      exact reads_after (t := q.2) (f := readPieces a u r >>= fun rest => pure (q.1 ++ rest)) hs ((hrest q.1).run q.2)

theorem keeps_readRange (a : Agent) (va : W64) (n u : Nat) : Keeps Reads (readRange a va n u) :=
  keeps_bind reads_chains (keeps_addrRange _) fun _ => keeps_bind reads_chains (keeps_reach ..) fun _ => keeps_readPieces ..

theorem keeps_readAcquired (a : Agent) (sc : Scope) (va : W64) (n u : Nat) : Keeps Reads (readAcquired a sc va n u) :=
  keeps_bind reads_chains (keeps_addrRange _) fun _ => keeps_bind reads_chains (keeps_reach ..) fun _ =>
    keeps_bind reads_chains (keeps_act fun _ => (memStep_acquire ..).reads) fun _ => keeps_readPieces ..

end
end Sys2Proof

/-! # TRAP, BRK and RFT (R318, R319, R445, R446) -/

namespace Sys2Proof

open Machine

/-! ### What a frame restores of the control core (R445) -/

/-- The registers and flags of the control core that a frame's words give. -/
def restoredCore (w : List W64) (c : CC) : CC :=
  { c with
    sreg := (List.range 64).foldl (fun m i => if i = 0 then m else smPut 0 m i (w.getD i 0)) []
    preg := BitVec.ofNat 16 (bits (w.getD 71 0) 1 15 * 2)
    greg := frameGuards (w.getD 72 0)
    h := false
    ie := (w.getD 65 0).getLsbD 61
    evt := (w.getD 70 0).getLsbD 2
    la0 := (w.getD 70 0).getLsbD 3
    la1 := (w.getD 70 0).getLsbD 4
    resumed := (w.getD 70 0).getLsbD 5 }

/-- The writes of system registers that a frame's words make, in order: register and value. -/
def restoredSys (w : List W64) : List (Nat × W64) :=
  ((frameRegs.zip (sub w 96 30)).map fun x => (x.1, x.2 &&& frameRegMask x.1)) ++ ((List.range 5).map fun i => (0x021 + i, w.getD (65 + i) 0))
    ++ [(0x02A, w.getD 73 0 &&& 0x3FF), (0x040, (sub w 320 64).getD 0 0), (0x041, (sub w 320 64).getD 1 0 &&& 0x1F1F),
      (0x042, (sub w 320 64).getD 2 0), (0x043, (sub w 320 64).getD 3 0 &&& 0xFFF), (0x044, (sub w 320 64).getD 4 0 &&& 0xFFFFFFFF),
      (0x045, (sub w 320 64).getD 5 0 &&& 0xFFFFFFFF)]

/-- System registers written in order. -/
def setSrs (l : List (Nat × W64)) (c : CC) : CC := l.foldl (fun c x => c.setSr x.1 x.2) c

theorem setSrs_keep {β : Type} (p : CC → β) (hp : ∀ c k v, p (CC.setSr c k v) = p c) (l : List (Nat × W64)) (c : CC) : p (setSrs l c) = p c := by
  induction l generalizing c with
  | nil => rfl
  | cons x l ih => exact (ih _).trans (hp ..)

theorem setSrs_sr {l : List (Nat × W64)} {k : Nat} (hk : k ∉ l.map (·.1)) (c : CC) : (setSrs l c).sr k = c.sr k := by
  induction l generalizing c with
  | nil => rfl
  | cons x l ih =>
    simp only [List.map_cons, List.mem_cons, not_or] at hk
    exact (ih hk.2 _).trans (by rw [CC.setSr_sr, if_neg hk.1])

/-- The engine that a frame gives, with the entries of its queue. -/
def restoredEng (w : List W64) (e : Eid) (x : Eng) : Eng :=
  { x.ofBlock (sub w (128 + 32 * (eidCode e - 1)) 32) (sub w (512 + 256 * (eidCode e - 1)) 256) with
    q := entriesOf (eidCode e - 1) ((List.range 512).map fun i => slotOf (sub w (2048 + 8 * i) 8)) }

theorem restore_cc (a : AC) (w : List W64) (r : Nat) : (a.restore w r).cc = setSrs (restoredSys w) (restoredCore w a.cc) := by
  unfold AC.restore
  dsimp only
  refine (changeEngines_keep (fun a => a.cc) AC.setEng_cc (restoredEng w) allEng _).trans ?_
  unfold setSrs restoredSys restoredCore
  rw [List.foldl_append, List.foldl_append, List.foldl_map, List.foldl_map]
  rfl

theorem eng_withLinks (a : AC) (l : Links) (v : Vec) (e : Eid) : { a with ln := l, vec := v }.eng e = a.eng e := by
  cases e <;> rfl

theorem mem_allEng (e : Eid) : e ∈ allEng := by cases e <;> decide

theorem restore_eng (a : AC) (w : List W64) (r : Nat) (e : Eid) : (a.restore w r).eng e = restoredEng w e (a.eng e) := by
  unfold AC.restore
  dsimp only
  rw [eng_withLinks]
  refine (changeEngines_eng (restoredEng w) (by decide) _ e).trans ?_
  rw [if_pos (mem_allEng e), eng_withCc]

theorem sub_getD (w : List W64) (i k : Nat) (hk : 0 < k) : (sub w i k).getD 0 0 = w.getD i 0 := by
  unfold sub
  cases k with
  | zero => omega
  | succ k => simp [List.getD_eq_getElem?_getD]

theorem restoredEng_upc (w : List W64) (e : Eid) (x : Eng) :
    (restoredEng w e x).upc = BitVec.ofNat 64 (bits (w.getD (128 + 32 * (eidCode e - 1)) 0) 0 55)
      ∧ (restoredEng w e x).deferred = (w.getD (128 + 32 * (eidCode e - 1)) 0).getLsbD 61 := by
  rw [← sub_getD w (128 + 32 * (eidCode e - 1)) 32 (by omega)]
  exact ⟨rfl, rfl⟩

theorem smGet_foldl_smPut {d : W64} (f : Nat → W64) (l : List Nat) (m : SMap W64) (k : Nat) :
    smGet d (l.foldl (fun m i => if i = 0 then m else smPut d m i (f i)) m) k = if k ∈ l ∧ k ≠ 0 then f k else smGet d m k := by
  induction l generalizing m with
  | nil => simp
  | cons i l ih =>
    rw [List.foldl_cons, ih]
    by_cases hk : k = i
    · subst hk
      by_cases h0 : k = 0 <;> simp [h0]
    · have hget : smGet d (if i = 0 then m else smPut d m i (f i)) k = smGet d m k := by
        split
        · rfl
        · rw [smGet_smPut, if_neg hk]
      simp only [hget, List.mem_cons, hk, false_or]

theorem restoredCore_s (w : List W64) (c : CC) {r : BitVec 6} (hr : r ≠ 0) : (restoredCore w c).s r = w.getD r.toNat 0 := by
  have h0 : r.toNat ≠ 0 := fun h => hr (BitVec.eq_of_toNat_eq h)
  rw [CC.s, if_neg hr]
  show smGet 0 (List.foldl _ _ _) r.toNat = _
  rw [smGet_foldl_smPut, if_pos ⟨List.mem_range.mpr r.isLt, h0⟩]

theorem restoredCore_p (w : List W64) (c : CC) {r : BitVec 4} (hr : r ≠ 0) : (restoredCore w c).p r = (w.getD 71 0).getLsbD r.toNat := by
  have h0 : r.toNat ≠ 0 := fun h => hr (BitVec.eq_of_toNat_eq h)
  have hlt := r.isLt
  obtain ⟨i, hi⟩ := Nat.exists_eq_succ_of_ne_zero h0
  rw [CC.p, beq_false_of_ne hr, Bool.false_or]
  show (BitVec.ofNat 16 (bits (w.getD 71 0) 1 15 * 2)).getLsbD r.toNat = _
  rw [BitVec.getLsbD_ofNat, BitVec.getLsbD, hi, bits, Nat.testBit_succ, Nat.mul_div_cancel _ (by omega), Nat.testBit_mod_two_pow,
    Nat.testBit_succ, Nat.pow_one]
  have h1 : i + 1 < 16 := by omega
  have h2 : i < 15 := by omega
  rw [decide_eq_true h1, decide_eq_true h2, Bool.true_and, Bool.true_and]

/-! ### Completing numbers and numbering entries leave the core -/

/-- The control core of a cluster, where its engines stand, and memory are as they were. -/
structure SameCore (n : Nat) (s t : State) : Prop where
  cc : (t.ac n).cc = (s.ac n).cc
  eng : ∀ e, ((t.ac n).eng e).upc = ((s.ac n).eng e).upc ∧ ((t.ac n).eng e).deferred = ((s.ac n).eng e).deferred
  mem : t.mem = s.mem

section
variable {n : Nat} {s t u : State}

theorem SameCore.refl (n : Nat) (s : State) : SameCore n s s := ⟨rfl, fun _ => ⟨rfl, rfl⟩, rfl⟩

theorem SameCore.trans (h : SameCore n s t) (h' : SameCore n t u) : SameCore n s u :=
  ⟨h'.cc.trans h.cc, fun e => ⟨(h'.eng e).1.trans (h.eng e).1, (h'.eng e).2.trans (h.eng e).2⟩, h'.mem.trans h.mem⟩

theorem sameCore_foldl {α : Type} {f : State → α → State} (hf : ∀ s x, SameCore n s (f s x)) (l : List α) (s : State) :
    SameCore n s (l.foldl f s) := by
  induction l generalizing s with
  | nil => exact .refl n s
  | cons x l ih => exact (hf s x).trans (ih _)

theorem sameCore_tlComplete (n ctx k : Nat) (s : State) : SameCore n s (s.tlComplete n ctx k) := by
  unfold State.tlComplete
  split
  · exact .refl n s
  · refine ⟨?_, fun e => ?_, rfl⟩
    · rw [State.modAc_ac, if_pos rfl]
    · rw [State.modAc_ac, if_pos rfl]; cases e <;> exact ⟨rfl, rfl⟩

theorem sameCore_renumber (n : Nat) (s : State) (e : Eid) : SameCore n s (renumber n s e) := by
  unfold renumber
  refine ⟨?_, fun x => ?_, rfl⟩
  · rw [State.setAc_ac, if_pos rfl]
    exact AC.setEng_cc ..
  · rw [State.setAc_ac, if_pos rfl]
    cases e <;> cases x <;> exact ⟨rfl, rfl⟩

theorem sameCore_discardLeft (n : Nat) (s : State) : SameCore n s (discardLeft n s) :=
  sameCore_foldl (fun _ _ => sameCore_foldl (fun _ _ => sameCore_tlComplete ..) ..) ..

theorem restoreFrame_core (n : Nat) (w : List W64) (s : State) :
    SameCore n (s.setAc n ((s.ac n).restore w s.cycle)) (restoreFrame n w s) := by
  unfold restoreFrame
  exact .trans (sameCore_foldl (fun _ _ => sameCore_tlComplete ..) ..) (sameCore_foldl (fun _ _ => sameCore_renumber ..) ..)

/-- What a frame's words make of the control core of a cluster and where its engines stand. -/
structure Restored (n : Nat) (w : List W64) (s t : State) : Prop where
  cc : (t.ac n).cc = setSrs (restoredSys w) (restoredCore w (s.ac n).cc)
  upc : ∀ e, ((t.ac n).eng e).upc = BitVec.ofNat 64 (bits (w.getD (128 + 32 * (eidCode e - 1)) 0) 0 55)
  deferred : ∀ e, ((t.ac n).eng e).deferred = (w.getD (128 + 32 * (eidCode e - 1)) 0).getLsbD 61
  mem : t.mem = s.mem

theorem restoreFrame_restored (n : Nat) (w : List W64) (s : State) : Restored n w s (restoreFrame n w s) := by
  obtain ⟨hcc, heng, hmem⟩ := restoreFrame_core n w s
  refine ⟨?_, fun e => ?_, fun e => ?_, hmem⟩
  · rw [hcc, State.setAc_ac, if_pos rfl, restore_cc]
  · rw [(heng e).1, State.setAc_ac, if_pos rfl, restore_eng, (restoredEng_upc ..).1]
  · rw [(heng e).2, State.setAc_ac, if_pos rfl, restore_eng, (restoredEng_upc ..).2]

theorem Restored.after (h : SameCore n s t) (hr : Restored n w t u) : Restored n w s u :=
  ⟨h.cc ▸ hr.cc, hr.upc, hr.deferred, hr.mem.trans h.mem⟩

/-! ### Going on (R446) -/

theorem resume_upc (e : Eng) (r : Nat) : (e.resume r).upc = e.upc := by
  unfold Eng.resume
  dsimp only
  split
  · rfl
  · split <;> rfl

theorem firstDeferred_none {a : AC} (h : ∀ e, (a.eng e).deferred = false) : a.firstDeferred = none := by
  have : (allEng.filter fun e => (a.eng e).deferred) = [] := List.filter_eq_nil_iff.mpr fun e _ => by simp [h e]
  unfold AC.firstDeferred
  rw [this]

/-- Engines rewritten one after the other keep what each rewriting keeps. -/
theorem foldl_setEng_keep {β : Type} (p : Eng → β) {g : AC → Eid → Eng} (hg : ∀ a e, p (g a e) = p (a.eng e)) (l : List Eid) (a : AC) :
    (l.foldl (fun a e => a.setEng e (g a e)) a).cc = a.cc ∧ ∀ x, p ((l.foldl (fun a e => a.setEng e (g a e)) a).eng x) = p (a.eng x) := by
  induction l generalizing a with
  | nil => exact ⟨rfl, fun _ => rfl⟩
  | cons e l ih =>
    obtain ⟨hcc, hp⟩ := ih (a.setEng e (g a e))
    refine ⟨hcc.trans (AC.setEng_cc ..), fun x => (hp x).trans ?_⟩
    rw [AC.setEng_eng]
    split
    · next hx => subst hx; exact hg ..
    · rfl

theorem eng_withMx (a : AC) (c : CC) (m : MX) (e : Eid) : { a with cc := c, mxu := m }.eng e = a.eng e := by
  cases e <;> rfl

theorem goOn_resumes (h : ∀ e, ((s.ac n).eng e).deferred = false) :
    ((goOn n s).ac n).cc = (s.ac n).cc.setSr 0x02A 0 ∧ (∀ e, (((goOn n s).ac n).eng e).upc = ((s.ac n).eng e).upc)
      ∧ (goOn n s).mem = s.mem := by
  unfold goOn
  rw [firstDeferred_none h]
  dsimp only
  rw [State.modAc_ac, if_pos rfl]
  have hk := fun b => foldl_setEng_keep (fun x => x.upc) (g := fun a e =>
    if e = .mx ∧ (s.ac n).mxu.tstop ∧ a.mx.st = 3 ∧ !a.mx.untold then { a.mx.resume (s.cycle + 1) with st := 0 }
    else (a.eng e).resume (s.cycle + 1)) (fun a e => by
      split
      · next hm => rw [hm.1]; exact resume_upc ..
      · exact resume_upc ..) allEng b
  exact ⟨(hk _).1, fun e => ((hk _).2 e).trans (congrArg Eng.upc (eng_withMx ..)), rfl⟩

/-! ### RFT (R319) -/

/-- A control core at TRAPPC, with faults that are still to be taken. -/
def atTrapPc (late : List Pending) (c : CC) : CC := { c with pc := c.sr 0x020, pend := late ++ c.pend }

/-- The cluster once a frame has been restored: at TRAPPC, with the faults that handlers' routines stopped with still to be taken. -/
def returned (n : Nat) (w : List W64) (late : List Pending) (s : State) : State :=
  (restoreFrame n w (discardLeft n s)).modCC n (atTrapPc late)

theorem returnFromTrap_ok {b : List Byte} {s2 : State}
    (hread : readAcquired (.ac n 0) .ac ((s.ac n).cc.sr 0x027) 0x14000 8 s = .ok b s2) (himg : imageOk (s.ac n) (words64 b) = true) :
    returnFromTrap n s = .ok () (goOn n (returned n (words64 b) (keepFaults (s.ac n)) s2)) := by
  unfold returnFromTrap
  refine (bindM_ok (x := get) (s := s) rfl).trans ((bindM_ok hread).trans ((bindM_ok (need_true himg)).trans rfl))

theorem exec_rft_returns {h : Head} {b : List Byte} {s2 : State} (ha : CcActs n h s) (hh : (s.ac n).cc.h = true)
    (hd : (s.ac n).drained = true) (hread : readAcquired (.ac n 0) .ac ((s.ac n).cc.sr 0x027) 0x14000 8 s = .ok b s2)
    (himg : imageOk (s.ac n) (words64 b) = true) :
    exec (.rft h) s = .next ((goOn n (returned n (words64 b) (keepFaults (s.ac n)) s2)).modCC n fun c => c.retire h .stay) := by
  show execRft h s = _
  unfold execRft
  rw [ccRunChecked_ok ha.1 hh]
  refine ccRun_ok _ _ _ n s _ .stay ha.1 ha.2 ?_
  have hw : ((!(s.ac n).drained) = true) = False := by rw [hd]; exact eq_false Bool.false_ne_true
  refine (bindM_ok (x := get) (s := s) rfl).trans ?_
  simp only [hw, if_false]
  exact (bindM_ok (returnFromTrap_ok hread himg)).trans rfl

theorem setSrs_s (l : List (Nat × W64)) (c : CC) (r : BitVec 6) : (setSrs l c).s r = c.s r :=
  setSrs_keep (fun c => c.s r) (fun _ _ _ => rfl) l c

theorem setSrs_p (l : List (Nat × W64)) (c : CC) (r : BitVec 4) : (setSrs l c).p r = c.p r :=
  setSrs_keep (fun c => c.p r) (fun _ _ _ => rfl) l c

theorem restoredSys_keys (w : List W64) : 0x020 ∉ (restoredSys w).map (·.1) := by
  have hz : ∀ x ∈ (frameRegs.zip (sub w 96 30)).map (fun x : Nat × W64 => (x.1, x.2 &&& frameRegMask x.1)), x.1 ∈ frameRegs := by
    intro x hx
    obtain ⟨y, hy, rfl⟩ := List.mem_map.mp hx
    exact (List.of_mem_zip hy).1
  have hf : (0x020 : Nat) ∉ frameRegs := by decide
  intro h
  obtain ⟨x, hx, hk⟩ := List.mem_map.mp h
  simp only [restoredSys, List.mem_append] at hx
  rcases hx with (hx | hx) | hx
  · exact hf (hk ▸ hz x hx)
  · obtain ⟨i, -, rfl⟩ := List.mem_map.mp hx
    simp at hk
    omega
  · simp only [List.mem_cons, List.not_mem_nil, or_false] at hx
    rcases hx with rfl | rfl | rfl | rfl | rfl | rfl | rfl <;> simp at hk

theorem returned_ac (n : Nat) (w : List W64) (late : List Pending) (s : State) :
    ((returned n w late s).ac n).cc = atTrapPc late (setSrs (restoredSys w) (restoredCore w (s.ac n).cc))
      ∧ (∀ e, (((returned n w late s).ac n).eng e).upc = BitVec.ofNat 64 (bits (w.getD (128 + 32 * (eidCode e - 1)) 0) 0 55))
      ∧ (∀ e, (((returned n w late s).ac n).eng e).deferred = (w.getD (128 + 32 * (eidCode e - 1)) 0).getLsbD 61)
      ∧ (returned n w late s).mem = s.mem := by
  obtain ⟨hcc, hupc, hdef, hmem⟩ := (restoreFrame_restored n w (discardLeft n s)).after (sameCore_discardLeft n s)
  unfold returned
  rw [State.modCC_ac, if_pos rfl]
  refine ⟨?_, fun e => ?_, fun e => ?_, (State.modCC_mem ..).trans hmem⟩
  · exact congrArg (atTrapPc late) hcc
  · rw [eng_withCc]; exact hupc e
  · rw [eng_withCc]; exact hdef e

/-- The control core that RFT leaves: at TRAPPC, ESTOP zero, waiting no more. -/
def goneCore (late : List Pending) (c : CC) : CC := { (atTrapPc late c).setSr 0x02A 0 with wait := none }

theorem goneCore_keeps (late : List Pending) (c : CC) :
    (goneCore late c).h = c.h ∧ (goneCore late c).ie = c.ie ∧ (goneCore late c).pc = c.sr 0x020 ∧ (∀ r, (goneCore late c).s r = c.s r)
      ∧ (∀ r, (goneCore late c).p r = c.p r) ∧ (goneCore late c).greg = c.greg := ⟨rfl, rfl, rfl, fun _ => rfl, fun _ => rfl, rfl⟩

theorem setSrs_flags (l : List (Nat × W64)) (c : CC) :
    (setSrs l c).h = c.h ∧ (setSrs l c).ie = c.ie ∧ (setSrs l c).greg = c.greg :=
  ⟨setSrs_keep (fun c => c.h) (fun _ _ _ => rfl) l c, setSrs_keep (fun c => c.ie) (fun _ _ _ => rfl) l c,
    setSrs_keep (fun c => c.greg) (fun _ _ _ => rfl) l c⟩

theorem trapReturn : ruleTrapReturn := by
  intro n s h hc
  refine ⟨fun hh => ccRunChecked_illegal hc hh, fun hh he hd b s2 hread himg _ hdef => ?_⟩
  intro w
  refine ⟨_, exec_rft_returns ⟨hc, he⟩ hh hd hread himg, ?_⟩
  obtain ⟨hcc, hupc, hdf, hmem⟩ := returned_ac n w (keepFaults (s.ac n)) s2
  obtain ⟨hgcc, hgupc, hgmem⟩ := goOn_resumes fun e => (hdf e).trans (hdef e)
  have hcore : ((goOn n (returned n w (keepFaults (s.ac n)) s2)).ac n).cc
      = (atTrapPc (keepFaults (s.ac n)) (setSrs (restoredSys w) (restoredCore w (s.ac n).cc))).setSr 0x02A 0 := by
    rw [hgcc, hcc, ((keeps_readAcquired _ _ _ _ _).ok hread).cc n]
  generalize goOn n (returned n w (keepFaults (s.ac n)) s2) = t at hcore hgupc hgmem
  have hend : ((t.modCC n fun c => c.retire h .stay).ac n).cc = goneCore (keepFaults (s.ac n)) (setSrs (restoredSys w) (restoredCore w (s.ac n).cc)) := by
    rw [State.modCC_ac, if_pos rfl]
    exact (congrArg (fun c => CC.retire c h .stay) hcore).trans rfl
  obtain ⟨hH, hI, hpc, hs, hp, hG⟩ := goneCore_keeps (keepFaults (s.ac n)) (setSrs (restoredSys w) (restoredCore w (s.ac n).cc))
  obtain ⟨kH, kI, kG⟩ := setSrs_flags (restoredSys w) (restoredCore w (s.ac n).cc)
  rw [hend]
  refine ⟨hH.trans kH, hI.trans kI, hpc.trans (setSrs_sr (restoredSys_keys w) _), fun r hr => ?_, fun r hr => ?_, hG.trans kG, fun e => ?_,
    (State.modCC_mem ..).trans (hgmem.trans hmem)⟩
  · exact (hs r).trans ((setSrs_s ..).trans (restoredCore_s _ _ hr))
  · exact (hp r).trans ((setSrs_p ..).trans (restoredCore_p _ _ hr))
  · rw [State.modCC_ac, if_pos rfl, eng_withCc, hgupc, hupc]

theorem softwareTrap : ruleSoftwareTrap := by
  intro n s h a ha
  refine ⟨?_, ?_⟩
  · show execTrap h a s = _
    unfold execTrap
    rw [ha.1]
    simp only [ha.2, if_true]
    rfl
  · show execBrk h a s = _
    unfold execBrk
    exact ccRun_trap (cause := 0x19) (i0 := (s.ac n).cc.src a &&& 0xFF) (i1 := 0) ha rfl

/-- Settles O12: TRAP and BRK by their definitions, RFT by what a frame restores and what goes on from it. -/
theorem trapInstructions : Obligations.TrapInstructions := ⟨softwareTrap, trapReturn⟩

end

end Sys2Proof

/-! # HALT, NEXT, SUSPEND and YIELD (R248 to R252) -/

namespace Sys2Proof

open Machine

/-! ### The steps of a task's end (R248, R239) -/

section
variable {n : Nat} {s s1 : State} {h : Head} {tk : Task}

theorem endSteps_ok (hd : Drained n s) : endSteps n s = .ok () s := by
  obtain ⟨he, hp, hg⟩ := hd
  have hidle : allEng.all (fun e => ((s.ac n).eng e).idle) = true := List.all_eq_true.mpr fun e _ => (he e).1
  have hdr : (s.ac n).drained = true := by
    unfold AC.drained
    rw [hp]
    refine List.all_eq_true.mpr fun e _ => ?_
    simp only [(he e).1, (he e).2, Bool.and_true, Bool.or_true]
  have hh : (s.ac n).heldHeads = [] := List.filter_eq_nil_iff.mpr fun e _ => by simp only [(he e).2, Bool.false_eq_true, not_false_eq_true]
  unfold endSteps
  refine (bindM_ok (x := get) (s := s) rfl).trans ?_
  simp only [hidle, hdr, hg, hh, List.isEmpty_nil, Bool.and_true, Bool.not_true, Bool.false_eq_true, if_false]
  rfl

theorem endSteps_waits (hb : ∃ e, ((s.ac n).eng e).idle = false) : endSteps n s = .error .wait s := by
  obtain ⟨e, he⟩ := hb
  have hidle : allEng.all (fun e => ((s.ac n).eng e).idle) = false := List.all_eq_false.mpr ⟨e, mem_allEng e, by simp [he]⟩
  unfold endSteps
  refine (bindM_ok (x := get) (s := s) rfl).trans ?_
  simp only [hidle, Bool.false_and, Bool.not_false, if_true]
  rfl

theorem confirmed_ok {sc : Scope} (hs : Settled n sc s) : confirmed (.ac n 0) sc s = .ok () s := by
  unfold confirmed
  refine (bindM_ok (x := get) (s := s) rfl).trans ?_
  unfold Settled at hs
  rw [if_pos hs]
  rfl

theorem endRelease_ok (htk : (s.ac n).cc.task = some tk) (hr : Released n (lrEndScope tk.lrec) s s1) : endRelease n s = .ok () s1 := by
  obtain ⟨hs1, hset⟩ := hr
  have hact : act (releaseAll n (lrEndScope tk.lrec)) s = .ok () s1 := by rw [act_run, hs1]
  unfold endRelease
  refine (bindM_ok (x := get) (s := s) rfl).trans ?_
  simp only [htk]
  exact (bindM_ok hact).trans (confirmed_ok hset)

theorem memStep_releaseAll (n : Nat) (sc : Scope) (s : State) : MemStep s (releaseAll n sc s) := memStep_foldl (fun _ _ => memStep_release ..) ..

theorem Released.ac {sc : Scope} (hr : Released n sc s s1) (m : Nat) : s1.ac m = s.ac m := by
  rw [hr.1]
  exact (memStep_releaseAll ..).ac m

end

/-! ### A task that ends (R218, R242) -/

theorem smFind_map {α β : Type} (f : α → β) (m : SMap α) (k : Nat) : smFind (m.map fun x => (x.1, f x.2)) k = (smFind m k).map f := by
  induction m with
  | nil => rfl
  | cons p r ih =>
    obtain ⟨j, v⟩ := p
    rw [List.map_cons, smFind_cons, smFind_cons, ih]
    split
    · rfl
    · split <;> rfl

section
variable (s : State) (l : Nat)

/-- A die whose spent walkers of a launch have been freed. -/
def sansSpent (l : Nat) (x : Die) : Die := { x with walkers := x.walkers.filter fun w => !(w.2.launch == l && decide (w.2.stop ≤ w.2.next)) }

theorem freeSpent_die (k : Nat) : (s.freeSpent l).die k = sansSpent l (s.die k) := by
  show smGet Die.reset (s.dies.map fun x => (x.1, sansSpent l x.2)) k = _
  unfold smGet State.die smGet
  rw [smFind_map]
  cases smFind s.dies k <;> rfl

theorem freeSpent_walkers (k : Nat) : ∀ w ∈ ((s.freeSpent l).die k).walkers, w.2.launch = l → w.2.next < w.2.stop := by
  intro w hw hl
  rw [freeSpent_die] at hw
  have := (List.mem_filter.mp hw).2
  simp only [hl, beq_self_eq_true, Bool.true_and, Bool.not_eq_true', decide_eq_false_iff_not, not_le] at this
  exact this

theorem freeSpent_lent (d e : Nat) : (s.freeSpent l).lent d e = s.lent d e := by
  unfold State.lent
  rw [freeSpent_die]
  rfl

end

section
variable {n : Nat} {s s1 : State} {h : Head} {tk : Task}

theorem leave_ac (s : State) (n : Nat) :
    ((s.leave n).ac n).cc.task = none ∧ ((s.leave n).ac n).ln.tok = [] ∧ ((s.leave n).ac n).ln.retq = [] := by
  simp [State.leave]

theorem leave_lent (d e : Nat) : (s.leave n).lent d e = s.lent d e := rfl

theorem taskEnd_eq (htk : (s.ac n).cc.task = some tk) : s.taskEnd n = (s.leave n).countDone tk := by
  unfold State.taskEnd
  rw [htk]

/-- Counting an ended task changes dies alone. -/
theorem countDone_keeps (s : State) (tk : Task) : s.countDone tk = { s with dies := (s.countDone tk).dies } := by
  unfold State.countDone
  dsimp only
  split
  · split <;> rfl
  · rfl

theorem countDone_counts (hl : (s.lent tk.die tk.ent).launch = tk.launch) (hst : (s.lent tk.die tk.ent).st ≠ 0) :
    ((s.countDone tk).lent tk.die tk.ent).done = (s.lent tk.die tk.ent).done + 1
      ∧ (lrTasks (s.lent tk.die tk.ent).lrec ≤ (s.lent tk.die tk.ent).epDone + 1 →
          ∀ k, ∀ w ∈ ((s.countDone tk).die k).walkers, w.2.launch = tk.launch → w.2.next < w.2.stop) := by
  have hmod : ((s.modLent tk.die tk.ent fun e => { e with done := e.done + 1, epDone := e.epDone + 1 }).lent tk.die tk.ent).done
      = (s.lent tk.die tk.ent).done + 1 := by
    simp [State.lent, State.modLent]
  unfold State.countDone
  dsimp only
  rw [if_pos ⟨hl, hst⟩]
  refine ⟨?_, fun hep k => ?_⟩
  · split
    · rw [freeSpent_lent, hmod]
    · exact hmod
  · rw [if_pos hep]
    exact freeSpent_walkers _ _ k

/-- What the end of a task leaves, whether the CC then retires or not. -/
theorem taskEnd_leaves (htk : (s.ac n).cc.task = some tk) (f : CC → CC) (hf : ∀ c, (f c).task = c.task) :
    let t := (s.taskEnd n).modCC n f
    (t.ac n).cc.task = none ∧ (t.ac n).ln.tok = [] ∧ (t.ac n).ln.retq = [] ∧ t.mem = s.mem ∧ t.hist = s.hist
      ∧ ((s.lent tk.die tk.ent).launch = tk.launch → (s.lent tk.die tk.ent).st ≠ 0 →
          (t.lent tk.die tk.ent).done = (s.lent tk.die tk.ent).done + 1
          ∧ (lrTasks (s.lent tk.die tk.ent).lrec ≤ (s.lent tk.die tk.ent).epDone + 1 →
              ∀ k, ∀ w ∈ (t.die k).walkers, w.2.launch = tk.launch → w.2.next < w.2.stop)) := by
  have hk := countDone_keeps (s.leave n) tk
  have hac : ((s.taskEnd n).ac n) = (s.leave n).ac n := by rw [taskEnd_eq htk, hk]; rfl
  have hmem : (s.taskEnd n).mem = s.mem ∧ (s.taskEnd n).hist = s.hist := by rw [taskEnd_eq htk, hk]; exact ⟨rfl, rfl⟩
  intro t
  have htac : t.ac n = { (s.leave n).ac n with cc := f ((s.leave n).ac n).cc } := by
    show (State.modCC _ _ _).ac n = _
    rw [State.modCC_ac, if_pos rfl, hac]
  obtain ⟨h1, h2, h3⟩ := leave_ac s n
  refine ⟨by rw [htac]; exact (hf _).trans h1, by rw [htac]; exact h2, by rw [htac]; exact h3, (State.modCC_mem ..).trans hmem.1,
    (State.modCC_hist ..).trans hmem.2, fun hl hst => ?_⟩
  have hc := countDone_counts (s := s.leave n) hl hst
  rw [← taskEnd_eq htk] at hc
  exact hc

/-! ### HALT (R311) -/

/-- What HALT does of a drained task. -/
theorem exec_halt_ends (ha : CcActs n h s) (htk : (s.ac n).cc.task = some tk) (hd : Drained n s)
    (hr : Released n (lrEndScope tk.lrec) s s1) :
    exec (.halt h) s = .next ((if (s.ac n).cc.h then endFatal n 0x100 s1 else s1.taskEnd n).modCC n fun c => c.retire h .stay) := by
  show execHalt h s = _
  unfold execHalt
  refine ccRun_ok _ _ _ n s _ .stay ha.1 ha.2 ?_
  refine (bindM_ok (x := get) (s := s) rfl).trans ((bindM_ok (endSteps_ok hd)).trans ((bindM_ok (endRelease_ok htk hr)).trans ?_))
  rfl

theorem taskEnds_halt : ruleTaskEnds := by
  intro n s s1 h tk ha htk
  refine ⟨fun hd hr => ⟨fun hh => ?_, fun hh => ?_⟩, fun hb => ?_⟩
  · have htk1 : (s1.ac n).cc.task = some tk := by rw [hr.ac]; exact htk
    refine ⟨_, exec_halt_ends ha htk hd hr, ?_⟩
    rw [hh]
    exact taskEnd_leaves htk1 _ fun _ => rfl
  · refine ⟨_, exec_halt_ends ha htk hd hr, ?_⟩
    rw [hh]
    rfl
  · show ∃ t, execHalt h s = .next t ∧ _
    unfold execHalt
    refine ccRun_waits ha ?_
    exact (bindM_ok (x := get) (s := s) rfl).trans (bindM_error (endSteps_waits hb))

/-! ### NEXT (R311) -/

theorem exec_next_eq (hc : s.cur = .ac n 0) (hh : (s.ac n).cc.h = false) (he : (s.ac n).cc.enabled h = true) (htk : (s.ac n).cc.task = some tk)
    (hd : Drained n s) (hr : Released n (lrEndScope tk.lrec) s s1) :
    exec (.next h) s = match nextChoice n tk s1 with
      | some (lin, p, s2) => .next ((nextTask n tk lin p s2).modCC n fun c => c.retire h .seq)
      | none => .next ((s1.taskEnd n).modCC n fun c => c.retire h .stay) := by
  have htk1 : (s1.ac n).cc.task = some tk := by rw [hr.ac]; exact htk
  show execNext h s = _
  unfold execNext
  rw [ccRunChecked_ok hc (show notInHandler (s.ac n).cc = true by rw [notInHandler, hh]; rfl)]
  cases hn : nextChoice n tk s1 with
  | none =>
    refine ccRun_ok _ _ _ n s _ .stay hc he ?_
    refine (bindM_ok (endSteps_ok hd)).trans ((bindM_ok (endRelease_ok htk hr)).trans ((bindM_ok (x := get) (s := s1) rfl).trans ?_))
    simp only [htk1, hn]
    rfl
  | some x =>
    obtain ⟨lin, p, s2⟩ := x
    refine ccRun_ok _ _ _ n s _ .seq hc he ?_
    refine (bindM_ok (endSteps_ok hd)).trans ((bindM_ok (endRelease_ok htk hr)).trans ((bindM_ok (x := get) (s := s1) rfl).trans ?_))
    simp only [htk1, hn]
    rfl

theorem nextCoordinate : ruleNextCoordinate := by
  intro n s s1 h tk hc htk
  refine ⟨fun hh => ?_, fun hh he hd hr => ⟨fun hn => ?_, fun lin p s2 hn => ?_⟩⟩
  · show execNext h s = _
    unfold execNext
    exact ccRunChecked_illegal hc (show notInHandler (s.ac n).cc = false by rw [notInHandler, hh]; rfl)
  · rw [exec_next_eq hc hh he htk hd hr, hn]
    rfl
  · rw [exec_next_eq hc hh he htk hd hr, hn]
    rfl

/-- Settles O13: the steps of a task's end, and what counting it leaves. -/
theorem taskEnds : Obligations.TaskEnds := ⟨taskEnds_halt, nextCoordinate⟩

end

/-! ### SUSPEND and YIELD (R252, R313, R314) -/

/-- The state that a suspended task leaves behind its record. -/
def suspended (n : Nat) (k : Cont) (s : State) : State := (s.leave n).modDie (dieOf n) fun x => { x with conts := x.conts ++ [k] }

section
variable {n : Nat} {s s1 s2 s3 : State} {h : Head} {tk : Task} {ps : List (Nat × Nat × BitVec 2)}

/-- The continuation of a task. -/
def contOf (n : Nat) (tk : Task) (cycle : Nat) (va : W64) (dom wkind ctx : Nat) (waddr v0 v1 : W64) : Cont :=
  ⟨va, tk.launch, dom, n, lrPrio tk.lrec, wkind, ctx, waddr, v0, v1, decide (wkind = 0), cycle⟩

/-- The bytes of the record of a continuation of the task of a control core. -/
def contBytes (c : CC) (h : Head) (k : Cont) (wkind : Nat) (mask : W64) : List Byte :=
  wordBytes (contWords k (if wkind = 0 then 2 else 1) mask (addr55 (c.pc + Head.size h)) ((maskRegs mask).map fun i => c.s (BitVec.ofNat 6 i)))

theorem suspendWith_ok {va mask waddr v0 v1 : W64} {dom wkind ctx : Nat} (htk : (s.ac n).cc.task = some tk)
    (hm : (maskRegs mask).length ≤ 16) (hp : lrPersist tk.lrec = true → dom = 3) (hva : va.toNat < 2 ^ 55)
    (hr : reach (.ac n 0) .write va.toNat 256 s = .ok ps s1) (hd : Drained n s1) (hc : (s.die (dieOf n)).conts.length < 4096)
    (hrel : Released n (domainScope dom) s1 s2)
    (hw : writeReleased (.ac n 0) .pkg va (contBytes (s.ac n).cc h (contOf n tk s.cycle va dom wkind ctx waddr v0 v1) wkind mask) s2 = .ok () s3) :
    suspendWith n h va dom wkind ctx mask waddr v0 v1 s
      = .ok .stay (suspended n (contOf n tk s.cycle va dom wkind ctx waddr v0 v1) s3) := by
  obtain ⟨hs2, hset⟩ := hrel
  have hact : act (releaseAll n (domainScope dom)) s1 = .ok () s2 := by rw [act_run, hs2]
  have hdom : (!(lrPersist tk.lrec && dom != 3)) = true := by
    cases hl : lrPersist tk.lrec
    · rfl
    · rw [hp hl]; rfl
  unfold suspendWith
  refine (bindM_ok (x := get) (s := s) rfl).trans ?_
  simp only [htk]
  refine (bindM_ok (need_true (decide_eq_true hm))).trans ((bindM_ok (need_true hdom)).trans ((bindM_ok (addrRange_ok hva _)).trans
    ((bindM_ok hr).trans ((bindM_ok (endSteps_ok hd)).trans ?_))))
  simp only [Nat.not_le.mpr hc, if_false]
  exact (bindM_ok hact).trans ((bindM_ok (confirmed_ok hset)).trans ((bindM_ok hw).trans rfl))

theorem suspended_leaves (n : Nat) (k : Cont) (s : State) (h : Head) :
    let t := (suspended n k s).modCC n fun c => c.retire h .stay
    (t.ac n).cc.task = none ∧ (t.ac n).ln.tok = [] ∧ (t.ac n).ln.retq = []
      ∧ (t.die (dieOf n)).conts = (s.die (dieOf n)).conts ++ [k] ∧ t.mem = s.mem ∧ t.hist = s.hist := by
  intro t
  have hac : t.ac n = { (s.leave n).ac n with cc := CC.retire ((s.leave n).ac n).cc h .stay } := by
    show (State.modCC _ _ _).ac n = _
    rw [State.modCC_ac, if_pos rfl]
    rfl
  obtain ⟨h1, h2, h3⟩ := leave_ac s n
  rw [hac]
  refine ⟨h1, h2, h3, ?_, rfl, rfl⟩
  show ((suspended n k s).die (dieOf n)).conts = _
  rw [suspended, State.modDie_die, if_pos rfl]
  rfl

/-- Settles O15: SUSPEND and YIELD are one operation with their words checked. -/
theorem taskSuspends : Obligations.TaskSuspends := by
  intro n s s1 s2 s3 h a c b tk ps ha hh htk _ x va ctl mask hva hva' hm hc hp hr _ hd1 hrel yields
  have hok : notInHandler (s.ac n).cc = true := by rw [notInHandler, hh]; rfl
  cases yields with
  | true =>
    intro i wk cx k hctl hw
    have hdom : ctl.toNat = bits ctl 0 2 := by
      have : ctl.toNat < 4 := hctl
      unfold bits
      omega
    refine ⟨_, ?_, suspended_leaves n k s3 h⟩
    show execYield h a b c s = _
    unfold execYield
    rw [ccRunChecked_ok ha.1 hok]
    refine ccRun_ok _ _ _ n s _ .stay ha.1 ha.2 ?_
    refine (bindM_ok (x := get) (s := s) rfl).trans ((bindM_ok (need_true (beq_iff_eq.mpr hva))).trans
      ((bindM_ok (need_true (decide_eq_true hctl))).trans ?_))
    show suspendWith n h va ctl.toNat 0 0 mask 0 0 0 s = _
    rw [hdom]
    exact suspendWith_ok htk hm hp hva' hr hd1 hc hrel hw
  | false =>
    intro i wk cx k hctl hw
    obtain ⟨h1, h2, h3⟩ := hctl
    refine ⟨_, ?_, suspended_leaves n k s3 h⟩
    show execSuspend h a b c s = _
    unfold execSuspend
    rw [ccRunChecked_ok ha.1 hok]
    refine ccRun_ok _ _ _ n s _ .stay ha.1 ha.2 ?_
    refine (bindM_ok (x := get) (s := s) rfl).trans ((bindM_ok (need_true (beq_iff_eq.mpr hva))).trans
      ((bindM_ok (need_true ?_)).trans ?_))
    · simp only [Bool.and_eq_true, decide_eq_true_eq, bne_iff_ne]
      exact ⟨⟨h1, h2⟩, h3⟩
    · exact suspendWith_ok htk hm hp hva' hr hd1 hc hrel hw

end

end Sys2Proof

/-! # Loads, stores and atomics (R322 to R327) -/

namespace Sys2Proof

open Machine

/-! ### Instructions of row 0x5_ on the unit that acts (R322) -/

theorem eidOf_eidCode (e : Eid) : eidOf (eidCode e) = some e := by cases e <;> rfl

theorem eidCode_ne_zero (e : Eid) : eidCode e ≠ 0 := by cases e <;> decide

section
variable {n u : Nat} {h : Head} {i : Instr} {s s1 t : State} {e : Eid} {cause : Nat} {i0 i1 : W64}

theorem curEng_of_acts {k : Nat} (ha : EngActs n e h k s s1) : s.curEng = some (n, e) := by
  unfold State.curEng
  rw [ha.1]
  show (eidOf (eidCode e)).map _ = _
  rw [eidOf_eidCode]
  rfl

theorem noHold_of_giveFree (hg : GiveFree n e h s) (gv : Nat) : ¬(e = .ax ∧ gv ≠ 0 ∧ Head.give h ≠ 0 ∧ (!(s.ac n).axq.isEmpty) = true) := by
  rintro ⟨he, -, hgive, hq⟩
  rw [hg he hgive] at hq
  exact Bool.false_ne_true hq

/-- An engine's instruction, from its check on. -/
theorem engRunN_eq {k gv : Nat} {chk : Nat → Eid → M Unit} {f : Nat → Eid → M EFlow} (ha : EngActs n e h k s s1) (hg : GiveFree n e h s) :
    engRunN h i k gv chk f s = match chk n e s with
      | .error st s => .next (engStop n e i st s)
      | .ok _ s =>
        let r := if Head.take h = 0 then (s, true) else takeUpTo n e (Head.take h) k (k + 1) s
        if !r.2 then .next (engStop n e i .wait r.1)
        else match f n e r.1 with
          | .ok fl s => .next (engGive n e (Head.give h) gv (engRetire n e h fl s))
          | .error st s => .next (engStop n e i st s) := by
  unfold engRunN
  rw [curEng_of_acts ha]
  simp only [ha.2.1, Bool.false_eq_true, if_false, noHold_of_giveFree hg] <;> rfl

theorem taken_of_acts {k : Nat} (ha : EngActs n e h k s s1) :
    (if Head.take h = 0 then (s, true) else takeUpTo n e (Head.take h) k (k + 1) s) = (s1, true) := by
  obtain ⟨-, -, ht⟩ := ha
  split at ht
  · next h0 => rw [if_pos h0, ht]
  · next h0 => rw [if_neg h0, ht]

theorem engRunN_ok {k gv : Nat} {chk : Nat → Eid → M Unit} {f : Nat → Eid → M EFlow} {fl : EFlow} (ha : EngActs n e h k s s1)
    (hg : GiveFree n e h s) (hc : chk n e s = .ok () s) (hf : f n e s1 = .ok fl t) :
    engRunN h i k gv chk f s = .next (engGive n e (Head.give h) gv (engRetire n e h fl t)) := by
  rw [engRunN_eq ha hg, hc]
  simp only [taken_of_acts ha, hf]
  rfl

theorem engRunN_stop {k gv : Nat} {chk : Nat → Eid → M Unit} {f : Nat → Eid → M EFlow} {st : Stop} (ha : EngActs n e h k s s1)
    (hg : GiveFree n e h s) (hc : chk n e s = .ok () s) (hf : f n e s1 = .error st t) :
    engRunN h i k gv chk f s = .next (engStop n e i st t) := by
  rw [engRunN_eq ha hg, hc]
  simp only [taken_of_acts ha, hf]
  rfl

theorem engRunN_chk {k gv : Nat} {chk : Nat → Eid → M Unit} {f : Nat → Eid → M EFlow} {st : Stop} (ha : EngActs n e h k s s1)
    (hg : GiveFree n e h s) (hc : chk n e s = .error st t) : engRunN h i k gv chk f s = .next (engStop n e i st t) := by
  rw [engRunN_eq ha hg, hc]

theorem memRun_cc {chk f : Nat → Nat → M Unit} (ha : CcActs n h s) :
    memRun h i chk f s = ccRun h i (fun n => do chk n 0; f n 0; pure .seq) s := by
  simp only [memRun, ha.1]

theorem memRun_eng {chk f : Nat → Nat → M Unit} (ha : EngActs n e h 1 s s1) :
    memRun h i chk f s = engRun h i (fun n e => chk n (eidCode e)) (fun n e => do f n (eidCode e); pure .seq) s := by
  unfold memRun
  split
  · next m hc =>
    rw [ha.1] at hc
    exact absurd (Agent.ac.inj hc).2 (eidCode_ne_zero e)
  · rfl

theorem unitDone_eng (n : Nat) (e : Eid) (h : Head) (s : State) :
    unitDone n (eidCode e) h s = engGive n e (Head.give h) 1 (engRetire n e h .seq s) := by
  unfold unitDone
  rw [eidOf_eidCode]
  rfl

theorem unitFault_eng (n : Nat) (e : Eid) (s : State) : unitFault n (eidCode e) cause i0 i1 s = engFault n e cause i0 i1 s := by
  unfold unitFault
  rw [eidOf_eidCode]

theorem engStop_trap (n : Nat) (e : Eid) (i : Instr) (s : State) : engStop n e i (.trap cause i0 i1) s = engFault n e cause i0 i1 s := rfl

/-- An instruction of the unit that acts, whose checks pass and whose effect succeeds. -/
theorem memRun_ok {chk f : Nat → Nat → M Unit} (hu : UnitActs n u h s s1) (hc : chk n u s = .ok () s) (hf : f n u s1 = .ok () t) :
    memRun h i chk f s = .next (unitDone n u h t) := by
  rcases hu with ⟨rfl, ha, rfl⟩ | ⟨e, rfl, ha, hg⟩
  · rw [memRun_cc ha]
    exact ccRun_ok _ _ _ n _ _ .seq ha.1 ha.2 ((bindM_ok hc).trans ((bindM_ok hf).trans rfl))
  · rw [memRun_eng ha, unitDone_eng]
    exact engRunN_ok ha hg hc ((bindM_ok hf).trans rfl)

/-- One whose checks raise a fault. -/
theorem memRun_checkFault {chk f : Nat → Nat → M Unit} (hu : UnitActs n u h s s1) (hc : chk n u s = .error (.trap cause i0 i1) s) :
    memRun h i chk f s = .next (unitFault n u cause i0 i1 s) := by
  rcases hu with ⟨rfl, ha, rfl⟩ | ⟨e, rfl, ha, hg⟩
  · rw [memRun_cc ha]
    exact ccRun_trap ha (bindM_error hc)
  · rw [memRun_eng ha, unitFault_eng]
    exact (engRunN_chk (chk := fun n e => chk n (eidCode e)) ha hg hc).trans rfl

/-- One whose effect raises a fault before it has changed anything. -/
theorem memRun_fault {chk f : Nat → Nat → M Unit} (hu : UnitActs n u h s s1) (hc : chk n u s = .ok () s)
    (hf : f n u s1 = .error (.trap cause i0 i1) s1) : memRun h i chk f s = .next (unitFault n u cause i0 i1 s1) := by
  rcases hu with ⟨rfl, ha, rfl⟩ | ⟨e, rfl, ha, hg⟩
  · rw [memRun_cc ha]
    exact ccRun_trap ha ((bindM_ok hc).trans (bindM_error hf))
  · rw [memRun_eng ha, unitFault_eng]
    exact (engRunN_stop (chk := fun n e => chk n (eidCode e)) (f := fun n e => do f n (eidCode e); pure .seq) ha hg hc (bindM_error hf)).trans rfl

end

/-! ### The checks of a memory instruction (R323) -/

section
variable {s t : State} {va : W64}

theorem addrChecks_ok {al : Nat} (hva : va.toNat < 2 ^ 55) (hal : va.toNat % al = 0) : addrChecks va al s = .ok () s :=
  (bindM_ok (addrRange_ok hva s)).trans (need_true (beq_iff_eq.mpr hal))

theorem addrChecks_range {al : Nat} (hva : 2 ^ 55 ≤ va.toNat) : addrChecks va al s = .error (.trap 0x03 va 0) s :=
  bindM_error (addrRange_trap (Nat.not_lt.mpr hva) s)

theorem addrChecks_misaligned {al : Nat} (hva : va.toNat < 2 ^ 55) (hal : va.toNat % al ≠ 0) :
    addrChecks va al s = .error (.trap 0x04 va 0) s :=
  (bindM_ok (addrRange_ok hva s)).trans (need_false (beq_eq_false_iff_ne.mpr hal))

/-- A range that goes on beyond the addresses is refused before it translates (R16). -/
theorem reach_beyond (a : Agent) (k : AKind) {len : Nat} (h : 2 ^ 55 < va.toNat + len) :
    reach a k va.toNat len s = .error (.trap 0x03 va 0) s := by
  refine bindM_error ?_
  unfold reachable
  simp only [h, if_true]
  rw [BitVec.ofNat_toNat, BitVec.setWidth_eq]
  rfl

theorem readRange_ok {a : Agent} {n u : Nat} {ps : List (Nat × Nat × BitVec 2)} {b : List Byte} {s2 s3 : State} (hva : va.toNat < 2 ^ 55)
    (hr : reach a .read va.toNat n s = .ok ps s2) (hp : readPieces a u ps s2 = .ok b s3) : readRange a va n u s = .ok b s3 :=
  (bindM_ok (addrRange_ok hva s)).trans ((bindM_ok hr).trans hp)

theorem readRange_beyond {a : Agent} {n u : Nat} (hva : va.toNat < 2 ^ 55) (h : 2 ^ 55 < va.toNat + n) :
    readRange a va n u s = .error (.trap 0x03 va 0) s :=
  (bindM_ok (addrRange_ok hva s)).trans (bindM_error (reach_beyond a _ h))

theorem writeRange_ok {a : Agent} {b : List Byte} {ps : List (Nat × Nat × BitVec 2)} {s2 : State} (hva : va.toNat < 2 ^ 55)
    (hr : reach a .write va.toNat b.length s = .ok ps s2) : writeRange a va b s = .ok () (writePieces a va.toNat s2 ps b) :=
  (bindM_ok (addrRange_ok hva s)).trans ((bindM_ok hr).trans rfl)

theorem writeRange_beyond {a : Agent} {b : List Byte} (hva : va.toNat < 2 ^ 55) (h : 2 ^ 55 < va.toNat + b.length) :
    writeRange a va b s = .error (.trap 0x03 va 0) s :=
  (bindM_ok (addrRange_ok hva s)).trans (bindM_error (reach_beyond a _ h))

end

/-! ### LD (R325) -/

theorem extendW_eq (w : BitVec 3) {b : List Byte} {k : Nat} (hb : b.length = k) :
    extendW w b = if w.toNat < 4 then BitVec.ofInt 64 (BitVec.ofNat (8 * k) (leNat b)).toInt else BitVec.ofNat 64 (leNat b) := by
  have hw : w.getLsbD 2 = decide (¬w.toNat < 4) := by
    revert w; decide
  unfold extendW
  subst hb
  rw [hw]
  by_cases h : w.toNat < 4
  · simp only [h, not_true_eq_false, decide_false, if_true, if_false, Bool.false_eq_true]
    rfl
  · simp only [h, not_false_eq_true, decide_true, if_true, if_false]

/-- Settles O17: the checks, then the read of the range, then the register. -/
theorem loadResult : Obligations.LoadResult := by
  intro n u s s1 s2 s3 h w d a b ps bytes hu hea va k
  have hva1 : s1.ea n u a b = va := hea
  have hchk (hlt : va.toNat < 2 ^ 55) : addrChecks va 1 s = .ok () s := addrChecks_ok hlt (Nat.mod_one _)
  have hexec : exec (.ld h w d a b) s = execLd h w d a b s := rfl
  unfold execLd at hexec
  rw [hexec]
  refine ⟨fun hlt hr hp hb => ?_, fun hlt hbeyond => ?_, fun hge => ?_⟩
  · rw [← extendW_eq w hb]
    refine memRun_ok hu (hchk hlt) ((bindM_ok (x := get) (s := s1) rfl).trans ?_)
    rw [hva1]
    exact (bindM_ok (readRange_ok hlt hr hp)).trans rfl
  · refine memRun_fault hu (hchk hlt) ((bindM_ok (x := get) (s := s1) rfl).trans ?_)
    rw [hva1]
    exact bindM_error (readRange_beyond hlt hbeyond)
  · have hfault : addrChecks va 1 s = .error (.trap 0x03 va 0) s := addrChecks_range hge
    exact memRun_checkFault hu hfault

/-! ### ST (R325) -/

/-- Stores of an agent that join its unreleased ones, and nothing else. -/
structure StoresJoin (a : Agent) (l : List PWrite) (s t : State) : Prop where
  rest : t = { s with agm := t.agm }
  own : (t.agent a).pend = (s.agent a).pend ++ l
  others : ∀ x : Agent, x.key ≠ a.key → t.agent x = s.agent x

section
variable {s t u : State} {a : Agent} {l m : List PWrite}

theorem StoresJoin.trans (h : StoresJoin a l s t) (h' : StoresJoin a m t u) : StoresJoin a (l ++ m) s u := by
  refine ⟨?_, ?_, fun x hx => (h'.others x hx).trans (h.others x hx)⟩
  · rw [h'.rest, h.rest]
  · rw [h'.own, h.own, List.append_assoc]

theorem opTag_of_rest {g : SMap AgentMem} (s : State) (a : Agent) : { s with agm := g }.opTag a = s.opTag a := by
  cases a <;> rfl

theorem storesJoin_plainStore (a : Agent) (l1 : Bool) (va k : Nat) (b : List Byte) (s : State) :
    StoresJoin a [⟨k, b, l1, va, s.opTag a⟩] s (plainStore a l1 va k b s) := by
  refine ⟨rfl, ?_, fun x hx => ?_⟩
  · simp only [plainStore, addStore, State.setAgent_agent, if_true]
  · simp only [plainStore, addStore, State.setAgent_agent, hx, if_false]

/-- Pieces outside MMIO join the agent's unreleased stores in their order. -/
theorem writePieces_join (a : Agent) {ps : List (Nat × Nat × BitVec 2)} (hp : ∀ p ∈ ps, mmioOf a.die p.1 = none) :
    ∀ (va : Nat) (s : State) (b : List Byte), StoresJoin a (pieceWrites a.die (s.opTag a) va ps b) s (writePieces a va s ps b) := by
  induction ps with
  | nil => intro va s b; exact ⟨rfl, (List.append_nil _).symm, fun _ _ => rfl⟩
  | cons p r ih =>
    intro va s b
    obtain ⟨pa, n, at'⟩ := p
    have hm : mmioOf a.die pa = none := hp _ (List.mem_cons_self ..)
    have hone := storesJoin_plainStore a (cacheable a.die pa at') va (canonPa a.die pa) (b.take n) s
    have hrest := ih (fun q hq => hp q (List.mem_cons_of_mem _ hq)) (va + n)
      (plainStore a (cacheable a.die pa at') va (canonPa a.die pa) (b.take n) s) (b.drop n)
    have htag : (plainStore a (cacheable a.die pa at') va (canonPa a.die pa) (b.take n) s).opTag a = s.opTag a := by
      rw [hone.rest]
      exact opTag_of_rest s a
    rw [htag] at hrest
    simp only [writePieces, hm, pieceWrites]
    exact hone.trans hrest

end

/-- Settles O18: the checks, then the pieces of the range join the agent's stores. -/
theorem storeJoins : Obligations.StoreJoins := by
  intro n u s s1 s2 h w a b c ps hu hea va bytes own
  have hva1 : s1.ea n u a b = va := hea
  have hchk (hlt : va.toNat < 2 ^ 55) : addrChecks va 1 s = .ok () s := addrChecks_ok hlt (Nat.mod_one _)
  have hwidth : widthOf w.toNat = 2 ^ w.toNat := by rw [widthOf, Nat.mod_eq_of_lt w.isLt]
  have hexec : exec (.st h w a b c) s = execSt h w a b c s := rfl
  unfold execSt at hexec
  rw [hexec, hwidth]
  refine ⟨fun hlt hr hm => ?_, fun hlt hbeyond => ?_, fun hge => ?_⟩
  · obtain ⟨hrest, hown, hothers⟩ := writePieces_join (.ac n u) hm va.toNat s2 bytes
    refine ⟨writePieces (.ac n u) va.toNat s2 ps bytes, memRun_ok hu (hchk hlt) ((bindM_ok (x := get) (s := s1) rfl).trans ?_), ?_, ?_, ?_, ?_,
      hown, hothers⟩
    · rw [hva1]
      exact writeRange_ok hlt hr
    all_goals rw [hrest]
  · refine memRun_fault hu (hchk hlt) ((bindM_ok (x := get) (s := s1) rfl).trans ?_)
    rw [hva1]
    exact writeRange_beyond hlt hbeyond
  · have hfault : addrChecks va 1 s = .error (.trap 0x03 va 0) s := addrChecks_range hge
    exact memRun_checkFault hu hfault

/-! ### LDS and STS (R325, R147, R148) -/

section
variable {s s1 s2 s3 : State} {a : Agent} {pa k : Nat} {at' : BitVec 2} {r : List (Nat × Nat × BitVec 2)} {va : W64} {m : MCtl}

theorem reachOne_ok {kind : AKind} (hr : reach a kind va.toNat k s = .ok ((pa, k, at') :: r) s2) : reachOne a kind va k s = .ok (pa, at') s2 :=
  (bindM_ok hr).trans rfl

theorem strongRead_ok {sc : Scope} {v : List Byte} (hr : reach a .read va.toNat k s = .ok ((pa, k, at') :: r) s2) (hm : mmioOf a.die pa = none)
    (hl : strongLoad a sc (cacheable a.die pa at') (canonPa a.die pa) k s2 = (v, s3)) : strongRead a sc va k s = .ok v s3 := by
  refine (bindM_ok (reachOne_ok hr)).trans ((bindM_ok (x := get) (s := s2) rfl).trans ?_)
  simp only [hm, hl]
  rfl

theorem pre_ok (hd : PreDone m a s) : MCtl.pre m a s = .ok () (pre m a s) := by
  unfold MCtl.pre pre
  by_cases ho : m.ord.getLsbD 1 = true
  · rw [if_pos ho, if_pos ho]
    exact relM_ok (hd ho)
  · rw [if_neg ho, if_neg ho]
    rfl

theorem strongWrite_ok {sc : Scope} {b : List Byte} {before : M Unit} (hk : b.length = k)
    (hr : reach a .write va.toNat k s = .ok ((pa, k, at') :: r) s2) (hm : mmioOf a.die pa = none) (hb : before s2 = .ok () s3) :
    strongWrite a sc va b before s = .ok () (strongStore a sc (cacheable a.die pa at') (canonPa a.die pa) b s3) := by
  subst hk
  refine (bindM_ok (reachOne_ok hr)).trans ((bindM_ok hb).trans ?_)
  simp only [hm]
  rfl

end

theorem leBytes_length (n v : Nat) : (leBytes n v).length = n := by
  induction n generalizing v with
  | zero => rfl
  | succ n ih => simp [leBytes, ih]

/-- Settles O19: the checks, the one piece, the release before, the access, and the acquire after. -/
theorem strongAccess : Obligations.StrongAccess := by
  intro n u s s1 s2 h m d a b pa k at' r kind hu hea va ag hlt
  have hva1 : s1.ea n u a b = va := hea
  have hwidth (w : BitVec 2) : widthOf w.toNat = 2 ^ w.toNat := by rw [widthOf, Nat.mod_eq_of_lt w.isLt]
  refine ⟨fun w hal => ?_, fun w hal => ?_, fun hr hm hal => ⟨fun hk w hw => ?_, fun hk w hw hd => ?_⟩⟩
  · show execLds h w m d a b s = _
    unfold execLds
    exact memRun_checkFault hu (addrChecks_misaligned hlt hal)
  · show execSts h w m a b d s = _
    unfold execSts
    rw [hwidth]
    exact memRun_checkFault hu (addrChecks_misaligned hlt hal)
  · subst hk hw
    refine ⟨_, _, rfl, ?_⟩
    show execLds h w m d a b s = _
    unfold execLds
    refine memRun_ok hu (addrChecks_ok hlt hal) ((bindM_ok (x := get) (s := s1) rfl).trans ?_)
    rw [hva1]
    exact (bindM_ok (strongRead_ok hr hm rfl)).trans rfl
  · subst hk hw
    show execSts h w m a b d s = _
    unfold execSts
    rw [hwidth]
    refine memRun_ok hu (addrChecks_ok hlt hal) ((bindM_ok (x := get) (s := s1) rfl).trans ?_)
    rw [hva1]
    exact strongWrite_ok (leBytes_length ..) hr hm (pre_ok hd)

/-! ### AMO and CAS (R326, R327) -/

/-- An atomic hands its function as many bytes as it reads. -/
theorem atomic_congr {f g : List Byte → Option (List Byte)} {n : Nat} (hfg : ∀ o, o.length = n → f o = g o) (a : Agent) (sc : Scope) (l1 : Bool)
    (k : Nat) (s : State) : atomic a sc l1 k n f s = atomic a sc l1 k n g s := by
  unfold atomic atomicRaw
  dsimp only
  rw [hfg _ (by simp)]

section
variable {s s1 s2 s3 s4 : State} {a : Agent} {pa k : Nat} {at' : BitVec 2} {r : List (Nat × Nat × BitVec 2)} {va : W64}

theorem atomicAt_ok {sc : Scope} {before : M Unit} {f g : List Byte → Option (List Byte)} {old : List Byte} (hfg : ∀ o, o.length = k → f o = g o)
    (hr : reach a .atomic va.toNat k s = .ok ((pa, k, at') :: r) s2) (hm : mmioOf a.die pa = none) (hb : before s2 = .ok () s3)
    (ha : atomic a sc (cacheable a.die pa at') (canonPa a.die pa) k g s3 = (old, s4)) : atomicAt a sc va k before f s = .ok old s4 := by
  rw [← atomic_congr hfg] at ha
  refine (bindM_ok (reachOne_ok hr)).trans ((bindM_ok hb).trans ((bindM_ok (x := get) (s := s3) rfl).trans ?_))
  simp only [hm, ha]
  rfl

end

theorem amoVal_eq {w : Nat} (op : AmoOp) (old v : BitVec w) : amoVal op old v = amoResult op old v := by
  cases op with
  | add => exact BitVec.eq_of_toNat_eq (by simp [amoVal, amoResult])
  | and | or | xor | swap => rfl
  | min =>
    simp only [amoVal, amoResult, BitVec.slt, decide_eq_true_eq]
    split
    · next h => rw [Int.min_eq_right (by omega), BitVec.ofInt_toInt]
    · next h => rw [Int.min_eq_left (by omega), BitVec.ofInt_toInt]
  | max =>
    simp only [amoVal, amoResult, BitVec.slt, decide_eq_true_eq]
    split
    · next h => rw [Int.max_eq_right (by omega), BitVec.ofInt_toInt]
    · next h => rw [Int.max_eq_left (by omega), BitVec.ofInt_toInt]
  | minu =>
    simp only [amoVal, amoResult, BitVec.ult, decide_eq_true_eq]
    split
    · next h => rw [Nat.min_eq_right (by omega), BitVec.ofNat_toNat, BitVec.setWidth_eq]
    · next h => rw [Nat.min_eq_left (by omega), BitVec.ofNat_toNat, BitVec.setWidth_eq]
  | maxu =>
    simp only [amoVal, amoResult, BitVec.ult, decide_eq_true_eq]
    split
    · next h => rw [Nat.max_eq_right (by omega), BitVec.ofNat_toNat, BitVec.setWidth_eq]
    · next h => rw [Nat.max_eq_left (by omega), BitVec.ofNat_toNat, BitVec.setWidth_eq]

theorem amoBytes_eq {m : MCtl} (op : AmoOp) (v : W64) {o : List Byte} (ho : o.length = if m.wide then 8 else 4) :
    amoBytes op v o = if m.wide then leBytes 8 (amoResult op (BitVec.ofNat 64 (leNat o)) v).toNat
      else leBytes 4 (amoResult op (BitVec.ofNat 32 (leNat o)) (v.setWidth 32)).toNat := by
  unfold amoBytes
  rw [ho]
  by_cases hw : m.wide = true
  · rw [if_pos hw, if_pos hw, if_pos rfl, amoVal_eq]; rfl
  · rw [if_neg hw, if_neg hw, if_neg (by decide), amoVal_eq]

/-- Settles O20: the checks, the one piece, the release before, one read and write of it, and the acquire after. -/
theorem atomicResult : Obligations.AtomicResult := by
  intro n u s s1 s2 h m d a b pa at' r hu hea va k ag v cmp at1 hlt
  have hva1 : s1.ureg n u a = va := hea
  refine ⟨fun hal op => ⟨?_, ?_⟩, fun hal hr hm hd => ⟨fun op old s3 hat _ => ?_, fun old s3 hat _ => ?_⟩⟩
  · show execAmo h op m d a b s = _
    unfold execAmo
    exact memRun_checkFault hu (addrChecks_misaligned hlt hal)
  · show execCas h m d a b s = _
    unfold execCas
    exact memRun_checkFault hu (addrChecks_misaligned hlt hal)
  · show execAmo h op m d a b s = _
    unfold execAmo
    refine memRun_ok hu (addrChecks_ok hlt hal) ((bindM_ok (x := get) (s := s1) rfl).trans ?_)
    rw [hva1]
    exact (bindM_ok (atomicAt_ok (fun o ho => congrArg some (amoBytes_eq op v ho)) hr hm (pre_ok hd) hat)).trans rfl
  · show execCas h m d a b s = _
    unfold execCas
    refine memRun_ok hu (addrChecks_ok hlt hal) ((bindM_ok (x := get) (s := s1) rfl).trans ?_)
    rw [hva1]
    exact (bindM_ok (atomicAt_ok (fun o ho => by rw [casBytes, ho]) hr hm (pre_ok hd) hat)).trans rfl

end Sys2Proof

/-! # What a load may return, and a write that is performed (R139, R140) -/

namespace Sys2Proof

open Machine

/-! ### The writes that a load may return (R140, R152) -/

/-- What a load takes in of a list of writes begins with those before the first that stops it. -/
theorem mem_eligible {stop : Version → Bool} {l : List Version} {v : Version} (hv : v ∈ eligible stop l) :
    ∃ newer older, l = newer ++ v :: older ∧ ∀ w ∈ newer, stop w = false := by
  induction l with
  | nil => cases hv
  | cons x r ih =>
    unfold eligible at hv
    split at hv
    · rw [List.mem_singleton.mp hv]
      exact ⟨[], r, rfl, fun _ h => absurd h List.not_mem_nil⟩
    · next hx =>
      rcases List.mem_cons.mp hv with rfl | hv
      · exact ⟨[], r, rfl, fun _ h => absurd h List.not_mem_nil⟩
      · obtain ⟨newer, older, rfl, hn⟩ := ih hv
        refine ⟨x :: newer, older, rfl, fun w hw => ?_⟩
        rcases List.mem_cons.mp hw with rfl | hw
        · exact Bool.eq_false_iff.mpr hx
        · exact hn w hw

theorem eligible_ne_nil {stop : Version → Bool} {l : List Version} (hl : l ≠ []) : eligible stop l ≠ [] := by
  cases l with
  | nil => exact absurd rfl hl
  | cons x r =>
    unfold eligible
    split <;> exact List.cons_ne_nil _ _

/-- A write kept by a filter, with what is newer in the list and in what is kept. -/
theorem split_of_filter {p : Version → Bool} {l newer older : List Version} {v : Version} (h : l.filter p = newer ++ v :: older) :
    p v = true ∧ ∃ newer' older', l = newer' ++ v :: older' ∧ ∀ w ∈ newer', p w = true → w ∈ newer := by
  have hpv : p v = true := (List.mem_filter.mp (h ▸ List.mem_append_right _ (List.mem_cons_self ..))).2
  refine ⟨hpv, ?_⟩
  obtain ⟨l1, l2, rfl, h1, h2⟩ := List.filter_eq_append_iff.mp h
  obtain ⟨m1, m2, rfl, hm1, -, -⟩ := List.filter_eq_cons_iff.mp h2
  refine ⟨l1 ++ m1, m2, by rw [List.append_assoc], fun w hw hpw => ?_⟩
  rcases List.mem_append.mp hw with hw | hw
  · exact h1 ▸ List.mem_filter.mpr ⟨hw, hpw⟩
  · exact absurd hpw (hm1 w hw)

/-- The write at an instant is one of those that a load may return. -/
theorem atInstant_mem {t : Nat} {l : List Version} (hl : l ≠ []) : atInstant t l ∈ l := by
  unfold atInstant
  split
  · next v hv => exact List.mem_of_find?_eq_some hv
  · rw [List.getLastD_eq_getLast?, List.getLast?_eq_getLast_of_ne_nil hl]
    exact List.getLast_mem hl

/-- Every byte of the units is answered by the write of its location at an instant. -/
theorem pickUnits_spec (us : List (List ByteView)) : ∀ seq, (pickUnits seq us).2.map (·.1) = us.flatten
    ∧ ∀ p ∈ (pickUnits seq us).2, ∃ t, p.2 = atInstant t p.1.cands := by
  induction us with
  | nil => exact fun _ => ⟨rfl, fun _ h => absurd h List.not_mem_nil⟩
  | cons u r ih =>
    intro seq
    obtain ⟨h1, h2⟩ := ih (pickUnit seq u).1
    unfold pickUnits
    simp only [pickUnit]
    refine ⟨?_, fun p hp => ?_⟩
    · rw [List.map_append, List.flatten_cons, List.map_map]
      exact congrArg₂ _ (List.map_id _) h1
    · rcases List.mem_append.mp hp with hp | hp
      · obtain ⟨b, -, rfl⟩ := List.mem_map.mp hp
        exact ⟨_, rfl⟩
      · exact h2 p hp

section
variable (a : Agent) (pt : Option (Place × Nat)) (k n u : Nat) (s : State)

/-- The writes on record of a byte, as a load sees them. -/
def loadVersions (s : State) (k : Nat) : List Version :=
  if (smGet [] s.hist k).isEmpty then [initVersion (memByte s k)] else smGet [] s.hist k

/-- What an agent may read of one byte. -/
def byteView (k : Nat) : ByteView :=
  ⟨k, byteCands a [.home, s.place a .ac true k] (pt <|> s.dropped a k) (smGet 0 (s.agent a).view k) (smGet 0 (s.agent a).seen k) (loadVersions s k),
    pendByte (s.agent a).pend k, smGet 0 (s.agent a).view k, smGet 0 (s.agent a).seen k⟩

theorem byteViews_eq : s.byteViews a pt k n = (List.range n).map fun i => byteView a pt s (k + i) := by
  have z : ∀ {β γ : Type} (f : Nat → β) (g : Nat → γ), ((List.range n).map f).zip ((List.range n).map g) = (List.range n).map fun i => (f i, g i) := by
    intro β γ f g; rw [List.zip_map']
  have z0 : ∀ {β : Type} (f : Nat → β), (List.range n).zip ((List.range n).map f) = (List.range n).map fun i => (i, f i) := by
    intro β f
    conv => lhs; arg 1; rw [← List.map_id (List.range n)]
    rw [List.zip_map']; rfl
  simp only [State.byteViews, smSlice_eq, z, z0, List.map_map]
  rfl

/-- The answer of a load, byte by byte: the agent's own newest store, or the write at some instant among those it may return. -/
theorem loadRange_bytes (hu : 0 < u) : (loadRange a pt k n u s).1.length = n ∧ ∀ i, i < n → ∃ t, (loadRange a pt k n u s).1[i]?
    = some ((byteView a pt s (k + i)).pend.getD (atInstant t (byteView a pt s (k + i)).cands).byte) := by
  obtain ⟨h1, h2⟩ := pickUnits_spec (chunksOf (n + 1) u (s.byteViews a pt k n)) s.seq
  replace h1 := h1.trans ((chunksOf_flatten u hu _ _ (by simp [byteViews_eq])).trans (byteViews_eq a pt k n s))
  have hans : (loadRange a pt k n u s).1 = (pickUnits s.seq (chunksOf (n + 1) u (s.byteViews a pt k n))).2.map fun x => x.1.pend.getD x.2.byte := rfl
  rw [hans]
  generalize (pickUnits s.seq (chunksOf (n + 1) u (s.byteViews a pt k n))).2 = l at h1 h2 ⊢
  have hlen : l.length = n := by simpa using congrArg List.length h1
  refine ⟨by rw [List.length_map, hlen], fun i hi => ?_⟩
  have hil : i < l.length := by omega
  obtain ⟨t, ht⟩ := h2 l[i] (List.getElem_mem hil)
  have hfst : l[i].1 = byteView a pt s (k + i) := by
    have := congrArg (·[i]?) h1
    simpa [hil, hi] using this
  refine ⟨t, ?_⟩
  rw [List.getElem?_map, List.getElem?_eq_getElem hil, Option.map_some, ht, hfst]

end

theorem loadVersions_eq {s : State} {k : Nat} (h : s.versions k ≠ []) : loadVersions s k = s.versions k := by
  unfold loadVersions State.versions smGet at *
  cases hf : smFind s.hist k with
  | none => rfl
  | some l =>
    rw [hf] at h
    cases l with
    | nil => exact absurd rfl h
    | cons x r => rfl

/-- A write that binds an agent's loads: in its view, returned to it before, or before any on record. -/
def pins (a : Agent) (s : State) (k : Nat) (v : Version) : Bool :=
  v.id == smGet 0 (s.agent a).view k || v.id == smGet 0 (s.agent a).seen k || v.id == 0

/-- A write that a load of an agent may return. -/
def mayRead (a : Agent) (s : State) (k : Nat) (v : Version) : Bool :=
  pins a s k v || (v.reaches a && [Place.home, s.place a .ac true k].any v.present)

theorem pins_iff {a : Agent} {s : State} {k : Nat} {v : Version} :
    pins a s k v = true ↔ v.id = smGet 0 (s.agent a).view k ∨ v.id = smGet 0 (s.agent a).seen k ∨ v.id = 0 := by
  simp only [pins, Bool.or_eq_true, beq_iff_eq, or_assoc]

theorem mayRead_iff {a : Agent} {s : State} {k : Nat} {v : Version} :
    mayRead a s k v = true ↔ (v.id = smGet 0 (s.agent a).view k ∨ v.id = smGet 0 (s.agent a).seen k ∨ v.id = 0)
      ∨ ((v.rels ≠ [] ∨ v.by' = some a ∨ v.by' = none) ∧ (v.present .home = true ∨ v.present (s.place a .ac true k) = true)) := by
  simp only [mayRead, Bool.or_eq_true, Bool.and_eq_true, pins_iff, Version.reaches, Bool.not_eq_true', beq_iff_eq, Option.isNone_iff_eq_none,
    List.any_cons, List.any_nil, Bool.or_false, or_assoc, List.isEmpty_eq_false_iff, ne_eq]

/-- The write at an instant, among those that a load may return, may be returned, and none that binds the agent is newer. -/
theorem atInstant_byteView {a : Agent} {s : State} {k t : Nat} (h : ∃ v ∈ s.versions k, mayRead a s k v = true) :
    ∃ newer older, s.versions k = newer ++ atInstant t (byteView a none s k).cands :: older
      ∧ mayRead a s k (atInstant t (byteView a none s k).cands) = true ∧ ∀ w ∈ newer, pins a s k w = false := by
  obtain ⟨v0, hv0, hmay⟩ := h
  have hl := loadVersions_eq (List.ne_nil_of_mem hv0)
  let stop := fun v => pins a s k v || ((none : Option (Place × Nat)) <|> s.dropped a k).any fun x => v.presentAt x.1 x.2
  have hc : (byteView a none s k).cands = eligible stop ((s.versions k).filter (mayRead a s k)) := by
    rw [← hl]
    rfl
  have hne : (s.versions k).filter (mayRead a s k) ≠ [] := List.ne_nil_of_mem (List.mem_filter.mpr ⟨hv0, hmay⟩)
  rw [hc]
  obtain ⟨pre, post, hsplit, hstop⟩ := mem_eligible (atInstant_mem (t := t) (eligible_ne_nil (stop := stop) hne))
  obtain ⟨hp, newer, older, hv, hkept⟩ := split_of_filter hsplit
  refine ⟨newer, older, hv, hp, fun w hw => Bool.eq_false_iff.mpr fun hpin => ?_⟩
  have := hstop w (hkept w hw (by rw [mayRead, hpin]; rfl))
  simp only [stop, hpin, Bool.true_or, Bool.true_eq_false] at this

theorem loadEligible : ruleLoadEligible := by
  intro a k n u s hu
  obtain ⟨hlen, hbytes⟩ := loadRange_bytes a none k n u s hu
  refine ⟨hlen, fun i hi => ⟨fun b hb => ?_, fun hp => ?_⟩⟩
  · obtain ⟨t, ht⟩ := hbytes i hi
    rw [ht]
    show some ((pendByte (s.agent a).pend (k + i)).getD _) = _
    rw [hb]
    rfl
  · intro binds may hmay
    obtain ⟨t, ht⟩ := hbytes i hi
    obtain ⟨v0, hv0, hm0⟩ := hmay
    obtain ⟨newer, older, hv, hread, hn⟩ := atInstant_byteView (t := t) ⟨v0, hv0, mayRead_iff.mpr hm0⟩
    refine ⟨newer, _, older, hv, mayRead_iff.mp hread, fun w hw hb => ?_, ?_⟩
    · exact Bool.eq_false_iff.mp (hn w hw) (pins_iff.mpr hb)
    · rw [ht]
      show some ((pendByte (s.agent a).pend (k + i)).getD _) = _
      rw [hp]
      rfl

/-! ### A write that is performed (R139) -/

section
variable (a : Agent) (pls : List Place) (rels : List (Agent × Scope)) (strong : Bool) (tag : OpTag) (below : Nat → List Version → Nat) (k : Nat)
  (b : List Byte) (s : State)

/-- The bytes that a write enters, with their keys and what memory held. -/
def writeItems (k : Nat) (b : List Byte) (s : State) : List (Nat × Byte × Byte) :=
  (List.range b.length).zip (b.zip (smSlice 0 s.mem k b.length)) |>.map fun (i, b, o) => (k + i, b, o)

/-- The writes of a location once one more has been entered, `id` writes having been numbered. -/
def withWrite (id : Nat) (old : Option (List Version)) (it : Nat × Byte × Byte) : List Version :=
  putVersion (below it.1 (old.getD [initVersion it.2.2])) ⟨id + 1, it.2.1, some a, pls.map (·, id + 1), rels, strong, tag⟩
    (old.getD [initVersion it.2.2])

/-- The byte of the newest of the writes of a location. -/
def newestByte (l : List Version) : Byte := match l with | v :: _ => v.byte | [] => 0

theorem writeItems_getElem? {i : Nat} (hi : i < b.length) : (writeItems k b s)[i]? = some (k + i, b[i], memByte s (k + i)) := by
  have hs : (smSlice 0 s.mem k b.length)[i]? = some (memByte s (k + i)) := smSlice_getElem? 0 s.mem k b.length i hi
  have hz : (b.zip (smSlice 0 s.mem k b.length))[i]? = some (b[i], memByte s (k + i)) :=
    List.getElem?_zip_eq_some.mpr ⟨List.getElem?_eq_getElem hi, hs⟩
  have hr : ((List.range b.length).zip (b.zip (smSlice 0 s.mem k b.length)))[i]? = some (i, b[i], memByte s (k + i)) :=
    List.getElem?_zip_eq_some.mpr ⟨List.getElem?_range hi, hz⟩
  rw [writeItems, List.getElem?_map, hr, Option.map_some]

theorem writeItems_length : (writeItems k b s).length = b.length := by
  have : (smSlice 0 s.mem k b.length).length = b.length := by rw [smSlice_eq, List.length_map, List.length_range]
  rw [writeItems, List.length_map, List.length_zip, List.length_zip, this, List.length_range, Nat.min_self, Nat.min_self]

/-- The writes on record, and memory, once a write has been entered. -/
theorem enterWrite_hist : (enterWrite a pls rels strong tag below k b s).hist
    = smRun (fun o it => some (withWrite a pls rels strong tag below s.wid o it)) s.hist k (writeItems k b s) := rfl

theorem enterWrite_mem : (enterWrite a pls rels strong tag below k b s).mem
    = smRun (fun _ c => if c = 0 then none else some c) s.mem k
      ((smSlice [] (enterWrite a pls rels strong tag below k b s).hist k b.length).map newestByte) := rfl

theorem enterWrite_view : ((enterWrite a pls rels strong tag below k b s).agent a).view
    = smRun (fun _ _ => some (s.wid + 1)) (s.agent a).view k b := by
  refine (congrArg AgentMem.view (State.setAgent_agent s a a _)).trans ?_
  rw [if_pos rfl]

/-- The newest write of each byte of a write entered above all others is that write. -/
theorem enterWrite_newest {i : Nat} (hi : i < b.length) :
    newestByte (smGet [] (enterWrite a pls rels strong tag onTop k b s).hist (k + i)) = b[i] := by
  have hf : smFind (enterWrite a pls rels strong tag onTop k b s).hist (k + i)
      = some (withWrite a pls rels strong tag onTop s.wid (smFind s.hist (k + i)) (k + i, b[i], memByte s (k + i))) := by
    rw [enterWrite_hist, smFind_smRun, if_pos (Nat.le_add_right k i), Nat.add_sub_cancel_left, writeItems_getElem? k b s hi]
  rw [smGet, hf]
  rfl

/-- A byte of a write entered above all others reads as written. -/
theorem memByte_enterWrite {i : Nat} (hi : i < b.length) : memByte (enterWrite a pls rels strong tag onTop k b s) (k + i) = b[i] := by
  have ht : ((smSlice [] (enterWrite a pls rels strong tag onTop k b s).hist k b.length).map newestByte)[i]? = some b[i] := by
    rw [List.getElem?_map, smSlice_getElem? _ _ _ _ _ hi, Option.map_some, enterWrite_newest a pls rels strong tag k b s hi]
  rw [memByte, smGet, enterWrite_mem, smFind_smRun, if_pos (Nat.le_add_right k i), Nat.add_sub_cancel_left, ht]
  by_cases h0 : b[i] = 0
  · rw [h0]; rfl
  · simp only [h0, if_false, Option.getD_some]

/-- Outside its range a write leaves memory and the writes on record. -/
theorem enterWrite_outside {j : Nat} (hj : j < k ∨ k + b.length ≤ j) :
    memByte (enterWrite a pls rels strong tag below k b s) j = memByte s j
    ∧ smFind (enterWrite a pls rels strong tag below k b s).hist j = smFind s.hist j := by
  constructor
  · rw [memByte, smGet, enterWrite_mem, smFind_smRun_of_not_mem _ _ _ _ _ (by simpa [smSlice_eq] using hj)]
    rfl
  · rw [enterWrite_hist, smFind_smRun_of_not_mem _ _ _ _ _ (by rw [writeItems_length]; exact hj)]

end

theorem sameMemory_trans {s t u : State} (h : SameMemory s t) (g : SameMemory t u) : SameMemory s u :=
  ⟨g.1.trans h.1, g.2.1.trans h.2.1, g.2.2.trans h.2.2⟩

theorem sameMemory_post (pl : Place) (k : Nat) (b : List Byte) (s : State) : SameMemory s (Machine.post pl k b s) := by
  unfold Machine.post
  split
  · split <;> exact ⟨rfl, rfl, rfl⟩
  · exact ⟨rfl, rfl, rfl⟩

theorem sameMemory_fireWrite (c k n : Nat) (s : State) : SameMemory s (fireWrite c k n s) := by
  unfold fireWrite
  simp only
  split <;> exact ⟨rfl, rfl, rfl⟩

/-- What follows the entry of a write leaves memory, the writes on record and the agents. -/
theorem performRaw_keeps (a : Agent) (pl : Place) (rels : List (Agent × Scope)) (strong : Bool) (tag : OpTag) (below : Nat → List Version → Nat)
    (k : Nat) (b : List Byte) (s : State) :
    SameMemory (enterWrite a [pl] rels strong tag below k b s) (performRaw a pl rels strong tag below k b s) := by
  have hpost (t : State) : SameMemory t (match a with | .host _ => t | _ => Machine.post pl k b t) := by
    split
    · exact ⟨rfl, rfl, rfl⟩
    · exact sameMemory_post pl k b t
  have hfire (t : State) : SameMemory t (if pl = .home then fireWrite (classBit a) k b.length t else t) := by
    split
    · exact sameMemory_fireWrite _ _ _ t
    · exact ⟨rfl, rfl, rfl⟩
  exact sameMemory_trans (hpost _) (hfire _)

theorem writePerformed : ruleWritePerformed := by
  intro a pl rels strong tag k b s t
  obtain ⟨hm, hh, hg⟩ := performRaw_keeps a pl rels strong tag onTop k b s
  refine ⟨fun i hi => ⟨?_, ?_⟩, fun j hj => ?_, performRaw_wf _ _ _ _ _ _ _ _ _⟩
  · exact (congrArg (smGet 0 · (k + i)) hm).trans (memByte_enterWrite a [pl] rels strong tag k b s hi)
  · have hv : (t.agent a).view = _ := (congrArg (fun g => (smGet ⟨[], [], [], 0⟩ g a.key).view) hg).trans
      (enterWrite_view a [pl] rels strong tag onTop k b s)
    rw [hv, smGet, smFind_smRun, if_pos (Nat.le_add_right k i), Nat.add_sub_cancel_left, List.getElem?_eq_getElem hi]
    rfl
  · obtain ⟨h1, h2⟩ := enterWrite_outside a [pl] rels strong tag onTop k b s hj
    exact ⟨(congrArg (smGet 0 · j) hm).trans h1, (congrArg (smFind · j) hh).trans h2⟩

/-- Settles O21: a load's answer is the write at an instant among those that its agent may read, and a write that is performed is the newest of its bytes. -/
theorem memoryViews : Obligations.MemoryViews := ⟨loadEligible, writePerformed⟩

end Sys2Proof

/-! # Maps in the order of their keys -/

namespace Sys2Proof

open Machine

/-! ### Maps in the order of their keys -/

theorem smFind_mapKey {α β : Type} (f : Nat → α → β) (m : SMap α) (k : Nat) : smFind (m.map fun x => (x.1, f x.1 x.2)) k = (smFind m k).map (f k) := by
  induction m with
  | nil => rfl
  | cons p r ih =>
    obtain ⟨j, v⟩ := p
    simp only [List.map_cons, smFind_cons, ih]
    split
    · rfl
    · split
      · next h => rw [h]; rfl
      · rfl

theorem mem_of_smFind {α : Type} {m : SMap α} {k : Nat} {v : α} (h : smFind m k = some v) : (k, v) ∈ m := by
  induction m with
  | nil => cases h
  | cons p r ih =>
    obtain ⟨j, w⟩ := p
    rw [smFind_cons] at h
    split at h
    · cases h
    · split at h
      · next hk => cases h; exact hk ▸ List.mem_cons_self
      · exact List.mem_cons_of_mem _ (ih h)

/-- Every entry of a map in order stands at its key. -/
theorem le_of_smFind {α : Type} {m : SMap α} {k lo : Nat} {v : α} (hs : smSorted lo m = true) (h : smFind m k = some v) : lo ≤ k := by
  induction m generalizing lo with
  | nil => cases h
  | cons p r ih =>
    obtain ⟨j, w⟩ := p
    simp only [smSorted, Bool.and_eq_true, decide_eq_true_eq] at hs
    rw [smFind_cons] at h
    split at h
    · cases h
    · split at h
      · omega
      · have := ih hs.2 h; omega

/-- Entries picked from a map in order, at their keys. -/
theorem smFind_filterMap {α β : Type} (f : Nat → α → Option β) (m : SMap α) (k : Nat) {lo : Nat} (hs : smSorted lo m = true) :
    smFind (m.filterMap fun x => (f x.1 x.2).map fun y => (x.1, y)) k = (smFind m k).bind (f k) := by
  induction m generalizing lo with
  | nil => rfl
  | cons p r ih =>
    obtain ⟨j, v⟩ := p
    simp only [smSorted, Bool.and_eq_true, decide_eq_true_eq] at hs
    have hr := ih hs.2
    have hlow : k ≤ j → smFind r k = none := fun hk => by
      cases hf : smFind r k with
      | none => rfl
      | some w => have := le_of_smFind hs.2 hf; omega
    rw [List.filterMap_cons, smFind_cons]
    cases hv : f j v with
    | none =>
      simp only [Option.map_none, hr]
      grind
    | some y =>
      simp only [Option.map_some, smFind_cons, hr]
      grind

theorem smFind_append {α : Type} (l m : SMap α) (k : Nat) (hl : ∀ p ∈ l, p.1 ≤ k) : smFind (l ++ m) k = (smFind l k).or (smFind m k) := by
  induction l with
  | nil => rfl
  | cons p r ih =>
    obtain ⟨j, v⟩ := p
    have hj : ¬ k < j := Nat.not_lt.mpr (hl _ (List.mem_cons_self ..))
    rw [List.cons_append, smFind_cons, smFind_cons, if_neg hj, if_neg hj, ih fun p hp => hl p (List.mem_cons_of_mem _ hp)]
    split <;> rfl

/-- The part of a map below a key, and the part behind it. -/
theorem smFind_takeWhile {α : Type} (m : SMap α) (j k : Nat) : smFind (m.takeWhile fun p => decide (p.1 < j)) k = if k < j then smFind m k else none := by
  induction m with
  | nil => simp
  | cons p r ih =>
    obtain ⟨i, v⟩ := p
    rw [List.takeWhile_cons]
    by_cases hi : i < j
    · simp only [hi, decide_true, if_true, smFind_cons, ih]
      split
      · simp
      · split
        · next h => rw [if_pos (by omega)]
        · rfl
    · simp only [hi, decide_false, Bool.false_eq_true, if_false, smFind_nil, smFind_cons]
      split
      · rw [if_pos (by omega)]
      · rfl

theorem smFind_behind {α : Type} (m : SMap α) {lo : Nat} (hs : smSorted lo m = true) (j k : Nat) (h : j < k) :
    smFind ((m.dropWhile fun p => decide (p.1 < j)).dropWhile fun p => p.1 == j) k = smFind m k := by
  induction m generalizing lo with
  | nil => rfl
  | cons p r ih =>
    obtain ⟨i, v⟩ := p
    simp only [smSorted, Bool.and_eq_true, decide_eq_true_eq] at hs
    by_cases hi : i < j
    · rw [List.dropWhile_cons_of_pos (by simpa using hi), ih hs.2, smFind_cons, if_neg (by omega), if_neg (by omega)]
    · rw [List.dropWhile_cons_of_neg (by simpa using hi)]
      by_cases hk : i = j
      · subst hk
        rw [List.dropWhile_cons_of_pos (by simp), smFind_cons, if_neg (by omega), if_neg (by omega)]
        cases r with
        | nil => rfl
        | cons y r' =>
          have hy := hs.2
          simp only [smSorted, Bool.and_eq_true, decide_eq_true_eq] at hy
          rw [List.dropWhile_cons_of_neg (by simp; omega)]
      · rw [List.dropWhile_cons_of_neg (by simpa using hk)]

/-- A map whose entries at rising keys have been set. -/
theorem smFind_smPutAll {α : Type} (l : SMap α) : ∀ (m : SMap α) (lo : Nat), smSorted lo l = true → smSorted lo m = true → ∀ k,
    smFind (smPutAll l m) k = (smFind l k).or (smFind m k) := by
  induction l with
  | nil => intro m lo _ _ k; rfl
  | cons p r ih =>
    intro m lo hl hm k
    obtain ⟨j, a⟩ := p
    simp only [smSorted, Bool.and_eq_true, decide_eq_true_eq] at hl
    have hb := smSorted_behind m j lo hm
    have hput := ih ((m.dropWhile fun p => decide (p.1 < j)).dropWhile fun p => p.1 == j) (j + 1) hl.2 hb k
    unfold smPutAll
    by_cases hkj : k < j
    · have hlt : ∀ x : SMap α, smFind ((j, a) :: x) k = none := fun x => by rw [smFind_cons, if_pos hkj]
      rw [hlt, Option.none_or]
      have : smFind (m.takeWhile (fun p => decide (p.1 < j)) ++ (j, a) :: smPutAll r ((m.dropWhile fun p => decide (p.1 < j)).dropWhile fun p => p.1 == j)) k
          = smFind (m.takeWhile fun p => decide (p.1 < j)) k := by
        generalize (m.takeWhile fun p => decide (p.1 < j)) = t
        induction t with
        | nil => exact hlt _
        | cons q t iht => obtain ⟨i, v⟩ := q; simp only [List.cons_append, smFind_cons, iht]
      rw [this, smFind_takeWhile, if_pos hkj]
    · rw [smFind_append _ _ _ fun q hq => by have := List.mem_takeWhile_imp hq; simp only [decide_eq_true_eq] at this; omega]
      rw [smFind_takeWhile, if_neg hkj, Option.none_or, smFind_cons, smFind_cons, if_neg hkj, if_neg hkj]
      split
      · rfl
      · next hne => rw [hput, smFind_behind m hm j k (by omega)]

/-- The entries of a map, each with what another map in order holds at its key. -/
theorem smJoin_eq {α β : Type} (d : β) (l : SMap α) (m : SMap β) {lo lo' : Nat} (hl : smSorted lo l = true) (hm : smSorted lo' m = true) :
    smJoin d l m = l.map fun x => (x.1, x.2, smGet d m x.1) := by
  induction l generalizing m lo lo' with
  | nil => rfl
  | cons p r ih =>
    obtain ⟨k, a⟩ := p
    simp only [smSorted, Bool.and_eq_true, decide_eq_true_eq] at hl
    have hdrop : ∀ (m : SMap β) (lo' : Nat), smSorted lo' m = true → smSorted lo' (m.dropWhile fun p => decide (p.1 < k)) = true := by
      intro m
      induction m with
      | nil => exact fun _ h => h
      | cons q m ihm =>
        intro lo' h
        rw [List.dropWhile_cons]
        split
        · simp only [smSorted, Bool.and_eq_true, decide_eq_true_eq] at h
          exact ihm _ (smSorted_mono (by omega) _ h.2)
        · exact h
    unfold smJoin
    simp only [List.map_cons]
    refine congrArg₂ _ ?_ ?_
    · refine congrArg (Prod.mk k <| Prod.mk a ·) ?_
      rw [smGet, ← smFind_dropWhile_lt m k k (Nat.le_refl k)]
      cases hd : m.dropWhile fun p => decide (p.1 < k) with
      | nil => rfl
      | cons q t =>
        obtain ⟨j, b⟩ := q
        have hj : ¬ j < k := by
          have := List.head?_dropWhile_not (fun p : Nat × β => decide (p.1 < k)) m
          simpa [hd] using this
        rw [smFind_cons]
        simp only
        by_cases hjk : j = k
        · rw [if_pos hjk, if_neg (by omega), if_pos hjk.symm]; rfl
        · rw [if_neg hjk, if_pos (by omega)]; rfl
    · rw [ih _ hl.2 (hdrop m lo' hm)]
      refine List.map_congr_left fun x hx => ?_
      have hxk : k + 1 ≤ x.1 := by
        have : ∀ (r : SMap α) (lo : Nat), smSorted lo r = true → x ∈ r → lo ≤ x.1 := by
          intro r
          induction r with
          | nil => intro _ _ h; cases h
          | cons y r ihr =>
            intro lo h hx
            simp only [smSorted, Bool.and_eq_true, decide_eq_true_eq] at h
            rcases List.mem_cons.mp hx with rfl | hx
            · exact h.1
            · have := ihr _ h.2 hx; omega
        exact this r _ hl.2 hx
      rw [smGet, smGet, smFind_dropWhile_lt m k x.1 (by omega)]

end Sys2Proof

/-! # A release, and an acquire after it (R141, R142) -/

namespace Sys2Proof

open Machine

/-! ### What an agent's writes leave at one byte -/

/-- The byte that a write leaves at a key, if it covers it. -/
def byteAt (k0 : Nat) (b : List Byte) (k : Nat) : Option Byte := if k0 ≤ k then b[k - k0]? else none

/-- What happens at a key when an agent writes there above all others, or nobody writes there. -/
structure Wrote (a : Agent) (k : Nat) (o : Option Byte) (s t : State) : Prop where
  none : o = none → smFind t.hist k = smFind s.hist k ∧ smGet 0 (t.agent a).view k = smGet 0 (s.agent a).view k
  some : ∀ x, o = some x → ∃ v r, smFind t.hist k = some (v :: r) ∧ v.byte = x ∧ v.id ≠ 0 ∧ smGet 0 (t.agent a).view k = v.id

section
variable {a : Agent} {k : Nat} {s t u : State}

theorem wrote_refl : Wrote a k none s s := ⟨fun _ => ⟨rfl, rfl⟩, fun _ h => (nomatch h)⟩

theorem wrote_of_eq (hh : t.hist = s.hist) (hg : t.agm = s.agm) : Wrote a k none s t :=
  ⟨fun _ => ⟨by rw [hh], congrArg (fun g => smGet 0 (smGet ⟨[], [], [], 0⟩ g a.key).view k) hg⟩, fun _ h => nomatch h⟩

theorem Wrote.trans {o p : Option Byte} (h : Wrote a k o s t) (g : Wrote a k p t u) : Wrote a k (p.or o) s u := by
  cases p with
  | some y => exact ⟨fun h => (nomatch h), fun x hx => g.some x hx⟩
  | none =>
    obtain ⟨gh, gv⟩ := g.none rfl
    refine ⟨fun ho => ?_, fun x hx => ?_⟩
    · obtain ⟨hh, hv⟩ := h.none ho
      exact ⟨gh.trans hh, gv.trans hv⟩
    · obtain ⟨v, r, h1, h2, h3, h4⟩ := h.some x hx
      exact ⟨v, r, gh.trans h1, h2, h3, gv.trans h4⟩

theorem wrote_enterWrite (a : Agent) (pls : List Place) (rels : List (Agent × Scope)) (strong : Bool) (tag : OpTag) (k0 : Nat) (b : List Byte) (k : Nat)
    (s : State) : Wrote a k (byteAt k0 b k) s (enterWrite a pls rels strong tag onTop k0 b s) := by
  by_cases hk : k0 ≤ k ∧ k < k0 + b.length
  · obtain ⟨i, rfl⟩ := Nat.exists_eq_add_of_le hk.1
    have hi : i < b.length := by omega
    have hb : byteAt k0 b (k0 + i) = some b[i] := by
      rw [byteAt, if_pos (Nat.le_add_right ..), Nat.add_sub_cancel_left, List.getElem?_eq_getElem hi]
    rw [hb]
    refine ⟨fun h => (nomatch h), fun x hx => ?_⟩
    cases hx
    let v : Version := ⟨s.wid + 1, b[i], some a, pls.map (·, s.wid + 1), rels, strong, tag⟩
    refine ⟨v, (smFind s.hist (k0 + i)).getD [initVersion (memByte s (k0 + i))], ?_, rfl, Nat.succ_ne_zero s.wid, ?_⟩
    · rw [enterWrite_hist, smFind_smRun, if_pos hk.1, Nat.add_sub_cancel_left, writeItems_getElem? k0 b s hi]
      rfl
    · rw [enterWrite_view, smGet, smFind_smRun, if_pos hk.1, Nat.add_sub_cancel_left, List.getElem?_eq_getElem hi]
      rfl
  · have hout : k < k0 ∨ k0 + b.length ≤ k := by omega
    have hb : byteAt k0 b k = none := by
      unfold byteAt
      split
      · exact List.getElem?_eq_none (by omega)
      · rfl
    rw [hb]
    refine ⟨fun _ => ⟨(enterWrite_outside a pls rels strong tag onTop k0 b s hout).2, ?_⟩, fun _ h => nomatch h⟩
    rw [enterWrite_view, smGet, smFind_smRun_of_not_mem _ _ _ _ _ hout]
    rfl

theorem wrote_performRaw (a : Agent) (pl : Place) (rels : List (Agent × Scope)) (strong : Bool) (tag : OpTag) (k0 : Nat) (b : List Byte) (k : Nat)
    (s : State) : Wrote a k (byteAt k0 b k) s (performRaw a pl rels strong tag onTop k0 b s) := by
  obtain ⟨-, hh, hg⟩ := performRaw_keeps a pl rels strong tag onTop k0 b s
  exact (wrote_enterWrite a [pl] rels strong tag k0 b k s).trans (wrote_of_eq hh hg)

theorem joinQueue_keeps (pa : Nat) (a : Agent) (id : Nat) (rels : List (Agent × Scope)) (s : State) :
    (joinQueue pa a id rels s).hist = s.hist ∧ (joinQueue pa a id rels s).agm = s.agm := by
  unfold joinQueue
  split <;> exact ⟨rfl, rfl⟩

/-- Cutting bytes in pieces and writing each leaves at a key what writing all of them leaves, whatever it is that is said of the key. -/
theorem pieces_leave {R : Option Byte → State → State → Prop} (hR : ∀ {o p s t u}, R o s t → R p t u → R (p.or o) s u)
    {f : State → Nat × List Byte → State} (hf : ∀ s x, R (byteAt x.1 x.2 k) s (f s x)) {u : Nat} (hu : 0 < u) :
    ∀ (g k0 : Nat) (b : List Byte) (s : State), 1 ≤ g → b.length + k0 % u ≤ u * g → R (byteAt k0 b k) s ((piecesOf u g k0 b).foldl f s) := by
  intro g
  induction g with
  | zero => intro _ _ _ h; omega
  | succ g ih =>
    intro k0 b s _ hlen
    unfold piecesOf
    simp only
    split
    · exact hf s (k0, b)
    · next hb =>
      have hmod := Nat.mod_lt k0 hu
      have hnext : (k0 + (u - k0 % u)) % u = 0 := by
        have h1 := Nat.div_add_mod k0 u
        rw [show k0 + (u - k0 % u) = u * (k0 / u + 1) by rw [Nat.mul_add]; omega]
        exact Nat.mul_mod_right ..
      have hg : u * (g + 1) = u * g + u := Nat.mul_succ u g
      have hg1 : 1 ≤ g := by
        rcases Nat.eq_zero_or_pos g with rfl | h
        · omega
        · exact h
      have hrest := ih (k0 + (u - k0 % u)) (b.drop (u - k0 % u)) (f s (k0, b.take (u - k0 % u))) hg1 (by
        rw [hnext, List.length_drop]
        omega)
      have := hR (hf s (k0, b.take (u - k0 % u))) hrest
      rw [List.foldl_cons]
      convert this using 1
      unfold byteAt
      by_cases h1 : k0 ≤ k
      · rw [if_pos h1, if_pos h1]
        by_cases h2 : k0 + (u - k0 % u) ≤ k
        · rw [if_pos h2, List.getElem?_drop, show u - k0 % u + (k - (k0 + (u - k0 % u))) = k - k0 by omega,
            List.getElem?_take_eq_none (by omega), Option.or_none]
        · rw [if_neg h2, Option.none_or, List.getElem?_take_of_lt (by omega)]
      · rw [if_neg h1, if_neg h1, if_neg (by omega), Option.or_none]

theorem wrote_pieces {f : State → Nat × List Byte → State} (hf : ∀ s x, Wrote a k (byteAt x.1 x.2 k) s (f s x)) {u : Nat} (hu : 0 < u) :
    ∀ (g k0 : Nat) (b : List Byte) (s : State), 1 ≤ g → b.length + k0 % u ≤ u * g → Wrote a k (byteAt k0 b k) s ((piecesOf u g k0 b).foldl f s) :=
  pieces_leave Wrote.trans hf hu

theorem wrote_performAt (a : Agent) (pl : Place) (rels : List (Agent × Scope)) (tag : OpTag) (k0 : Nat) (b : List Byte) (k : Nat) (s : State) :
    Wrote a k (byteAt k0 b k) s (performAt a pl rels tag k0 b s) := by
  unfold performAt
  split
  · refine wrote_pieces (fun s x => ?_) (by omega) _ k0 b s (by omega) (by omega)
    split
    · obtain ⟨hh, hg⟩ := joinQueue_keeps (x.1 / 64 * 64) a (s.wid + 1) rels (enterWrite a [] [] false tag onTop x.1 x.2 s)
      exact (wrote_enterWrite a [] [] false tag x.1 x.2 k s).trans (wrote_of_eq hh hg)
    · exact wrote_performRaw ..
  · exact wrote_performRaw ..

theorem wrote_performStore (a : Agent) (sc : Scope) (rels : List (Agent × Scope)) (w : PWrite) (k : Nat) (s : State) :
    Wrote a k (byteAt w.pa w.bytes k) s (performStore a sc rels s w) := by
  unfold performStore
  split
  · exact wrote_pieces (fun s x => wrote_performAt ..) (by omega) _ _ _ _ (by omega) (by omega)
  · exact wrote_performAt ..

/-- The newest byte of one store more. -/
theorem pendByte_concat (l : List PWrite) (w : PWrite) (k : Nat) : pendByte (l ++ [w]) k = (byteAt w.pa w.bytes k).or (pendByte l k) := by
  rw [pendByte, List.foldl_append, List.foldl_cons, List.foldl_nil, byteAt]
  by_cases h : w.pa ≤ k ∧ k < w.pa + w.bytes.length
  · rw [if_pos h, if_pos h.1, List.getElem?_eq_getElem (by omega), Option.some_or]
  · rw [if_neg h]
    split
    · rw [List.getElem?_eq_none (by omega)]; rfl
    · rfl

/-- An agent's stores that are performed in program order leave the newest byte of each location. -/
theorem wrote_pend (sc : Scope) (l : List PWrite) : Wrote a k (pendByte l k) s (l.foldl (performPend a sc) s) := by
  induction l using List.reverseRecOn with
  | nil => exact wrote_refl
  | append_singleton l w ih =>
    rw [pendByte_concat, List.foldl_append]
    exact ih.trans (wrote_performStore ..)

end

/-! ### Writes that move (R82, R132) -/

theorem moveHist_hist (h : SMap (List Version)) (s : State) : (moveHist h s).hist = h := by
  unfold moveHist
  split <;> rfl

theorem moveHist_agm (h : SMap (List Version)) (s : State) : (moveHist h s).agm = s.agm := by
  unfold moveHist
  split <;> rfl

theorem foldl_keep {α β : Type} {f : State → α → State} (p : State → β) (hf : ∀ s x, p (f s x) = p s) (l : List α) (s : State) :
    p (l.foldl f s) = p s := by
  induction l generalizing s with
  | nil => rfl
  | cons x l ih => exact (ih (f s x)).trans (hf s x)

/-- No write joins a queue where no atomic stands in one. -/
theorem joins_of_noAtoms {s : State} (h : (s.kettles.all fun x => x.2.atomq.isEmpty) = true) (k : Nat) (v w : Version) : s.joins k v w = false := by
  have hheld : ∀ a, s.heldAt a k = false := by
    intro a
    unfold State.heldAt
    split
    · next q _ =>
      split
      · next x hx =>
        have := List.all_eq_true.mp h _ (mem_of_smFind hx)
        rw [List.isEmpty_iff.mp this, List.any_nil, Bool.and_false]
      · rw [Bool.and_false]
    · rfl
  unfold State.joins
  split
  · rw [hheld, Bool.and_false]
  · rw [Bool.and_false]

theorem withHist_agm (h : SMap (List Version)) (s : State) : (withHist h s).agm = s.agm := by
  unfold withHist
  split
  · exact moveHist_agm h s
  · exact (foldl_keep State.agm (fun s x => (joinQueue_keeps _ _ _ _ s).2) _ _).trans (moveHist_agm _ s)

/-- The writes of a location after each has moved as `g` says: those that join a queue stay as they were. -/
theorem withHist_find (g : Nat → Version → Version) (s : State) (k : Nat) :
    smFind (withHist (s.hist.map fun x => (x.1, x.2.map (g x.1))) s).hist k
      = (smFind s.hist k).map fun l => l.map fun v => if s.joins k v (g k v) then v else g k v := by
  have hzip : s.hist.zip (s.hist.map fun x => (x.1, x.2.map (g x.1))) = s.hist.map fun x => (x, x.1, x.2.map (g x.1)) := by
    conv => lhs; arg 1; rw [← List.map_id s.hist]
    rw [List.zip_map']
    rfl
  have hin : ∀ l : List Version, ∀ k, ((l.zip (l.map (g k))).map fun (v, w) => if s.joins k v w then v else w)
      = l.map fun v => if s.joins k v (g k v) then v else g k v := by
    intro l k
    conv => lhs; arg 2; arg 1; rw [← List.map_id l]
    rw [List.zip_map', List.map_map]
    rfl
  unfold withHist
  split
  · next h =>
    rw [moveHist_hist, smFind_mapKey (fun j l => List.map (g j) l)]
    simp only [joins_of_noAtoms h, Bool.false_eq_true, if_false]
  · rw [foldl_keep State.hist (fun s x => (joinQueue_keeps _ _ _ _ s).1), moveHist_hist]
    simp only [hzip, List.map_map, Function.comp_def, hin]
    exact smFind_mapKey (fun j l => List.map (fun v => if s.joins j v (g j v) then v else g j v) l) s.hist k

theorem withHist_newest (g : Nat → Version → Version) {s : State} {k : Nat} {v : Version} {r : List Version} (h : smFind s.hist k = some (v :: r)) :
    ∃ r', smFind (withHist (s.hist.map fun x => (x.1, x.2.map (g x.1))) s).hist k = some ((if s.joins k v (g k v) then v else g k v) :: r') :=
  ⟨_, by rw [withHist_find, h]; rfl⟩

/-! ### A store that waits for atomics is seen in a queue (R132) -/

theorem region_interleaved {k : Nat} (h : k < 0x8000000000) :
    region 0 k = if k % 0x2000000000 < 0x1800000000 then .hbm (k / 0x2000000000) (hashPc (k % 0x2000000000)).1 (hashPc (k % 0x2000000000)).2 else .none := by
  unfold region
  rw [if_pos h]

theorem region_linear {k : Nat} (h1 : 0x10000000000 ≤ k) (h2 : k < 0x18000000000) :
    region 0 k = if (k - 0x10000000000) % 0x40000000 < 0x30000000
      then .hbm ((k - 0x10000000000) / 0x2000000000) ((k - 0x10000000000) % 0x2000000000 / 0x40000000) ((k - 0x10000000000) % 0x40000000) else .none := by
  have h3 : ¬ k < 0x8000000000 := by omega
  have h4 : ¬ k < 0x10000000000 := by omega
  unfold region
  rw [if_neg h3, if_neg h4, if_pos h2]

theorem region_gap {k : Nat} (h1 : 0x8000000000 ≤ k) (h2 : k < 0x10000000000) : region 0 k = .none := by
  have h3 : ¬ k < 0x8000000000 := by omega
  unfold region
  rw [if_neg h3, if_pos h2]

/-- The pseudo-channel is that of the granule of 4,096 bytes. -/
theorem hashPc_word (o : Nat) : (hashPc (o / 64 * 64)).1 = (hashPc o).1 := by
  have : o / 64 * 64 / 4096 = o / 4096 := by omega
  simp only [hashPc, this]

/-- The kettle of a word of 64 bytes, in the linear view. -/
theorem linearWord (o : Nat) : o / 64 * 64 / 0x2000000000 = o / 0x2000000000
    ∧ o / 64 * 64 % 0x2000000000 / 0x40000000 = o % 0x2000000000 / 0x40000000 ∧ ((o / 64 * 64 % 0x40000000 < 0x30000000) ↔ o % 0x40000000 < 0x30000000) := by
  omega

/-- Above the linear view no address lies in HBM. -/
theorem homeKettle_beyond {k : Nat} (h : 0x18000000000 ≤ k) : homeKettle k = none := by
  have hr : ∀ d pc off, region 0 k ≠ .hbm d pc off := by
    intro d pc off
    have h1 : ¬ k < 0x8000000000 := by omega
    have h2 : ¬ k < 0x10000000000 := by omega
    have h3 : ¬ k < 0x18000000000 := by omega
    unfold region
    rw [if_neg h1, if_neg h2, if_neg h3]
    split_ifs <;> exact fun h => Region.noConfusion h
  unfold homeKettle
  split
  · next heq => exact absurd heq (hr _ _ _)
  · rfl

/-- A word of 64 bytes lies in one kettle's memory. -/
theorem homeKettle_word (k : Nat) : homeKettle (k / 64 * 64) = homeKettle k := by
  by_cases hk : 0x18000000000 ≤ k
  · rw [homeKettle_beyond hk, homeKettle_beyond (by omega)]
  · by_cases h1 : k < 0x8000000000
    · have hm : k / 64 * 64 % 0x2000000000 = k % 0x2000000000 / 64 * 64 := by omega
      have hd : k / 64 * 64 / 0x2000000000 = k / 0x2000000000 := by omega
      have ho : (k % 0x2000000000 / 64 * 64 < 0x1800000000) ↔ k % 0x2000000000 < 0x1800000000 := by omega
      rw [homeKettle, homeKettle, region_interleaved h1, region_interleaved (by omega), hm, hd]
      by_cases hin : k % 0x2000000000 < 0x1800000000
      · rw [if_pos hin, if_pos (ho.mpr hin)]
        exact congrArg (fun pc => some (64 * (k / 0x2000000000) + pc / 2)) (hashPc_word _)
      · rw [if_neg hin, if_neg fun h => hin (ho.mp h)]
    · by_cases h2 : k < 0x10000000000
      · rw [homeKettle, homeKettle, region_gap (by omega) h2, region_gap (by omega) (by omega)]
      · have ho : k / 64 * 64 - 0x10000000000 = (k - 0x10000000000) / 64 * 64 := by omega
        rw [homeKettle, homeKettle, region_linear (by omega) (by omega), region_linear (by omega) (by omega), ho]
        generalize k - 0x10000000000 = o
        obtain ⟨hd, hp, hin⟩ := linearWord o
        rw [hd, hp]
        by_cases ho : o % 0x40000000 < 0x30000000
        · rw [if_pos ho, if_pos (hin.mpr ho)]
        · rw [if_neg ho, if_neg fun h => ho (hin.mp h)]

theorem mem_smSet {α : Type} (m : SMap α) (k : Nat) (v : α) : (k, v) ∈ smSet m k v := mem_of_smFind (by rw [smFind_smSet, if_pos rfl])

/-- A plain store waits in the queue of a kettle. -/
def waits (s : State) : Prop := ∃ q x, (q, x) ∈ s.kettles ∧ ∃ y ∈ x.atomq, ∃ a id rels, y.what = .store a id rels

theorem queued_of_waits {s : State} (h : waits s) : s.queued (fun _ => true) = true := by
  obtain ⟨q, x, hx, y, hy, a, id, rels, hw⟩ := h
  refine List.any_eq_true.mpr ⟨_, hx, List.any_eq_true.mpr ⟨y, hy, ?_⟩⟩
  rw [hw]

theorem waits_joinQueue_self {pa : Nat} {a : Agent} {id : Nat} {rels : List (Agent × Scope)} {s : State} (h : homeKettle pa ≠ none) :
    waits (joinQueue pa a id rels s) := by
  unfold joinQueue
  split
  · next hn => exact absurd hn h
  · next q _ =>
    refine ⟨q, _, mem_smSet _ _ _, ?_⟩
    simp only
    split
    · next hany =>
      obtain ⟨y, hy, hsame⟩ := List.any_eq_true.mp hany
      refine ⟨_, List.mem_map_of_mem hy, ?_⟩
      obtain ⟨ypa, what⟩ := y
      cases what with
      | store b i r =>
        simp only at hsame ⊢
        split <;> exact ⟨_, _, _, rfl⟩
      | atom => cases hsame
    · exact ⟨_, List.mem_append_right _ (List.mem_singleton_self _), _, _, _, rfl⟩

theorem waits_joinQueue {pa : Nat} {a : Agent} {id : Nat} {rels : List (Agent × Scope)} {s : State} (h : waits s) : waits (joinQueue pa a id rels s) := by
  by_cases hn : homeKettle pa = none
  · unfold joinQueue
    rw [hn]
    exact h
  · exact waits_joinQueue_self hn

theorem waits_foldl_joinQueue {l : List (Nat × Agent × Nat × List (Agent × Scope))} {s : State} (h : waits s ∨ ∃ x ∈ l, homeKettle x.1 ≠ none) :
    waits (l.foldl (fun s x => joinQueue x.1 x.2.1 x.2.2.1 x.2.2.2 s) s) := by
  induction l generalizing s with
  | nil => exact h.elim id fun ⟨_, hx, _⟩ => absurd hx List.not_mem_nil
  | cons y l ih =>
    refine ih ?_
    rcases h with h | ⟨x, hx, hk⟩
    · exact .inl (waits_joinQueue h)
    · rcases List.mem_cons.mp hx with rfl | hx
      · exact .inl (waits_joinQueue_self hk)
      · exact .inr ⟨x, hx, hk⟩

/-- A write that joins a queue as writes move is seen to wait there. -/
theorem waits_withHist {g : Nat → Version → Version} {s : State} {k : Nat} {l : List Version} {v : Version} (hl : smFind s.hist k = some l) (hv : v ∈ l)
    (hj : s.joins k v (g k v) = true) : waits (withHist (s.hist.map fun x => (x.1, x.2.map (g x.1))) s) := by
  unfold withHist
  split
  · next h => rw [joins_of_noAtoms h] at hj; cases hj
  · have hby : ∃ a, v.by' = some a ∧ s.heldAt a k = true := by
      unfold State.joins at hj
      cases hb : v.by' with
      | none => rw [hb] at hj; simp at hj
      | some a => rw [hb] at hj; simp only [Bool.and_eq_true] at hj; exact ⟨a, rfl, hj.2⟩
    obtain ⟨a, hb, hheld⟩ := hby
    have hk : homeKettle (k / 64 * 64) ≠ none := by
      rw [homeKettle_word]
      intro hn
      rw [State.heldAt, hn] at hheld
      cases hheld
    refine waits_foldl_joinQueue (.inr ⟨(k / 64 * 64, a, v.id, (g k v).rels), ?_, hk⟩)
    refine List.mem_flatMap.mpr ⟨((k, l), (k, l.map (g k))), ?_, List.mem_filterMap.mpr ⟨(v, g k v), ?_, ?_⟩⟩
    · have hz : s.hist.zip (s.hist.map fun x => (x.1, x.2.map (g x.1))) = s.hist.map fun x => (x, x.1, x.2.map (g x.1)) := by
        conv => lhs; arg 1; rw [← List.map_id s.hist]
        rw [List.zip_map']
        rfl
      rw [hz]
      exact List.mem_map_of_mem (f := fun x : Nat × List Version => (x, x.1, x.2.map (g x.1))) (mem_of_smFind hl)
    · have hz : l.zip (l.map (g k)) = l.map fun v => (v, g k v) := by
        conv => lhs; arg 1; rw [← List.map_id l]
        rw [List.zip_map']
        rfl
      rw [hz]
      exact List.mem_map_of_mem (f := fun v => (v, g k v)) hv
    · simp only [hj, if_true, hb, Option.map_some]

/-! ### Releases and acquires (R141, R142) -/

theorem unpark_keeps (s : State) : (unpark s).hist = s.hist ∧ (unpark s).agm = s.agm ∧ (unpark s).kettles = s.kettles := by
  unfold unpark
  split <;> exact ⟨rfl, rfl, rfl⟩

/-- The newest write of a location has a number and a byte, and an agent has released it at a scope. -/
def NewestReleased (a : Agent) (sc : Scope) (k id : Nat) (x : Byte) (s : State) : Prop :=
  ∃ v r, smFind s.hist k = some (v :: r) ∧ v.id = id ∧ v.byte = x ∧ (a, sc) ∈ v.rels

/-- What a release makes of a write of a location, by the number of the write of it that is in the agent's view. -/
def releasedAs (a : Agent) (sc : Scope) (s : State) (k : Nat) (v : Version) : Version :=
  if smGet 0 (s.agent a).view k = 0 then v
  else if v.id == smGet 0 (s.agent a).view k || v.unreleased a then v.release s.wid a sc (s.pointOf a sc k v) else v

theorem releaseView_eq {a : Agent} {s : State} (sc : Scope) (h : MemoryInv s) :
    releaseView a sc s = withHist (s.hist.map fun x => (x.1, x.2.map (releasedAs a sc s x.1))) s := by
  obtain ⟨-, hh, hv⟩ := h
  unfold releaseView releaseSeen State.viewed
  rw [smJoin_eq 0 _ _ hh (hv a), List.map_map]
  refine congrArg (withHist · s) (List.map_congr_left fun x _ => congrArg (Prod.mk x.1) ?_)
  simp only
  split
  · next h0 =>
    rw [funext fun v => show releasedAs a sc s x.1 v = v from if_pos h0]
    exact (List.map_id' _).symm
  · next h0 => exact List.map_congr_left fun v _ => (if_neg h0).symm

theorem release_rels (t : Nat) (a : Agent) (sc : Scope) (pl : Place) (v : Version) :
    (v.release t a sc pl).id = v.id ∧ (v.release t a sc pl).byte = v.byte ∧ (a, sc) ∈ (v.release t a sc pl).rels := by
  have hp : (v.perform t pl).id = v.id ∧ (v.perform t pl).byte = v.byte := by
    unfold Version.perform
    split <;> exact ⟨rfl, rfl⟩
  refine ⟨hp.1, hp.2, ?_⟩
  unfold Version.release
  simp only
  split
  · next h => exact List.contains_iff_mem.mp h
  · exact List.mem_cons_self

/-- The newest write of a location, in an agent's view, is released by its release. -/
theorem released_releaseView {a : Agent} {sc : Scope} {s : State} {k : Nat} {v : Version} {r : List Version} (h : MemoryInv s)
    (hv : smFind s.hist k = some (v :: r)) (hid : v.id ≠ 0) (hview : smGet 0 (s.agent a).view k = v.id)
    (hq : (releaseView a sc s).queued (fun _ => true) = false) : NewestReleased a sc k v.id v.byte (releaseView a sc s) := by
  rw [releaseView_eq sc h] at hq ⊢
  have hrel : releasedAs a sc s k v = v.release s.wid a sc (s.pointOf a sc k v) := by
    unfold releasedAs
    rw [hview, if_neg hid, if_pos (by rw [beq_self_eq_true, Bool.true_or])]
  obtain ⟨h1, h2, h3⟩ := release_rels s.wid a sc (s.pointOf a sc k v) v
  have hj : s.joins k v (releasedAs a sc s k v) = false := by
    refine Bool.eq_false_iff.mpr fun hj => ?_
    have := queued_of_waits (waits_withHist (g := releasedAs a sc s) hv (List.mem_cons_self ..) hj)
    rw [hq] at this
    cases this
  obtain ⟨r', hr'⟩ := withHist_newest (releasedAs a sc s) hv
  refine ⟨releasedAs a sc s k v, r', ?_, ?_, ?_, ?_⟩
  · rw [hr', hj]
    rfl
  · rw [hrel, h1]
  · rw [hrel, h2]
  · rw [hrel]; exact h3

theorem released_of_eq {a : Agent} {sc : Scope} {k id : Nat} {x : Byte} {s t : State} (hh : t.hist = s.hist) (h : NewestReleased a sc k id x s) :
    NewestReleased a sc k id x t := by
  unfold NewestReleased
  rw [hh]
  exact h

/-- Writes that move keep their number, their byte and their releases. -/
theorem released_withHist {a : Agent} {sc : Scope} {k id : Nat} {x : Byte} {s : State} {g : Nat → Version → Version}
    (hg : ∀ k v, (g k v).id = v.id ∧ (g k v).byte = v.byte ∧ (g k v).rels = v.rels) (h : NewestReleased a sc k id x s) :
    NewestReleased a sc k id x (withHist (s.hist.map fun x => (x.1, x.2.map (g x.1))) s) := by
  obtain ⟨v, r, hf, h1, h2, h3⟩ := h
  obtain ⟨g1, g2, g3⟩ := hg k v
  obtain ⟨r', hr'⟩ := withHist_newest g hf
  refine ⟨_, r', hr', ?_⟩
  split
  · exact ⟨h1, h2, h3⟩
  · exact ⟨g1.trans h1, g2.trans h2, g3 ▸ h3⟩

theorem perform_keeps (t : Nat) (pl : Place) (v : Version) :
    (v.perform t pl).id = v.id ∧ (v.perform t pl).byte = v.byte ∧ (v.perform t pl).rels = v.rels := by
  unfold Version.perform
  split <;> exact ⟨rfl, rfl, rfl⟩

theorem released_mergeLine {a : Agent} {sc : Scope} {k id : Nat} {x : Byte} {s : State} (owner line : Nat) (h : NewestReleased a sc k id x s) :
    NewestReleased a sc k id x (mergeLine owner line s) := by
  unfold mergeLine
  simp only
  split
  · have hmap : (s.hist.map fun (k, l) => (k, if k / 128 = line then
          l.map fun v => if v.present (.l1 owner) && !v.present .home && !v.rels.isEmpty then v.perform s.wid .home else v else l))
        = s.hist.map fun x => (x.1, x.2.map fun v => if x.1 / 128 = line then
            (if v.present (.l1 owner) && !v.present .home && !v.rels.isEmpty then v.perform s.wid .home else v) else v) := by
      refine List.map_congr_left fun x _ => congrArg (Prod.mk x.1) ?_
      split
      · rfl
      · exact (List.map_id' _).symm
    rw [hmap]
    refine released_withHist (g := fun k v => if k / 128 = line then
        (if v.present (.l1 owner) && !v.present .home && !v.rels.isEmpty then v.perform s.wid .home else v) else v) (fun k v => ?_) h
    split
    · split
      · exact perform_keeps ..
      · exact ⟨rfl, rfl, rfl⟩
    · exact ⟨rfl, rfl, rfl⟩
  · exact h

theorem foldl_preserves {α : Type} {f : State → α → State} (P : State → Prop) (hf : ∀ s x, P s → P (f s x)) (l : List α) {s : State} (h : P s) : P (l.foldl f s) := by
  induction l generalizing s with
  | nil => exact h
  | cons x l ih => exact ih (hf s x h)

theorem released_hostLinesBack {a : Agent} {sc : Scope} {k id : Nat} {x : Byte} {s : State} (b : Agent) (sc' : Scope) (h : NewestReleased a sc k id x s) :
    NewestReleased a sc k id x (hostLinesBack b sc' s) := by
  have hwb : ∀ s o l, NewestReleased a sc k id x s → NewestReleased a sc k id x (s.writeBack o l) := fun s o l hs =>
    foldl_preserves (NewestReleased a sc k id x) (fun _ _ h => released_of_eq (by rfl) h) _ (released_mergeLine o l hs)
  unfold hostLinesBack
  split
  · split
    · refine released_of_eq rfl (foldl_preserves (NewestReleased a sc k id x) (fun s o hs => ?_) _ h)
      exact foldl_preserves (NewestReleased a sc k id x) (fun s l hs => hwb s o l hs) _ hs
    · exact h
  · exact h

theorem fresh_keeps (s : State) (a : Agent) : (s.fresh a).hist = s.hist ∧ ((s.fresh a).agent a).view = (s.agent a).view := by
  unfold State.fresh
  simp only
  split
  · exact ⟨rfl, rfl⟩
  · refine ⟨rfl, ?_⟩
    rw [State.setAgent_agent, if_pos rfl]

theorem shares_comm (sc : Scope) (a b : Agent) : shares sc a b = shares sc b a := by
  unfold shares
  cases sc with
  | ac => cases a <;> cases b <;> exact Bool.beq_comm
  | quad => cases a <;> cases b <;> exact Bool.beq_comm
  | die => cases a.die? <;> cases b.die? <;> exact Bool.beq_comm
  | pkg => rfl
  | fab => rfl

/-- What an acquire takes in of a location: the newest of its writes, down to the one in the view, that was released. -/
def acquired (b : Agent) (sc : Scope) (view : Nat) (l : List Version) : Option Nat :=
  ((eligible (fun v => v.id == view || v.id == 0) l).find? fun v => acquirable b sc v && !(v.id == view || v.id == 0)).map (·.id)

/-- The view of an agent that has acquired. -/
theorem acquire_view {b : Agent} {sc : Scope} {s : State} (hs : MemoryInv s) (k : Nat) :
    let t := hostLinesBack b sc s
    smGet 0 ((acquire b sc s).agent b).view k
      = ((smFind t.hist k).bind (acquired b sc (smGet 0 (t.agent b).view k))).getD (smGet 0 (t.agent b).view k) := by
  intro t
  obtain ⟨-, hh, hv⟩ : MemoryInv t := (memStep_hostLinesBack s b sc).inv hs
  let f := fun j l => acquired b sc (smGet 0 (t.agent b).view j) l
  let got := t.hist.filterMap fun x => (f x.1 x.2).map fun y => (x.1, y)
  have hgot : ((t.viewed (t.agent b)).filterMap fun (k, l, id) =>
      ((eligible (fun v => v.id == id || v.id == 0) l).find? fun v => acquirable b sc v && !(v.id == id || v.id == 0)).map fun v => (k, v.id)) = got := by
    rw [State.viewed, smJoin_eq 0 _ _ hh (hv b), List.filterMap_map]
    refine List.filterMap_congr fun x _ => ?_
    simp only [Function.comp_def, f, acquired, Option.map_map]
  have hsort : smSorted 0 got = true := smSorted_filterMap _ (fun x y hy => by
    obtain ⟨v, -, rfl⟩ := Option.map_eq_some_iff.mp hy
    rfl) _ 0 hh
  have hview : ((acquire b sc s).agent b).view = smPutAll got (t.agent b).view := by
    refine (fresh_keeps _ b).2.trans ?_
    rw [← hgot]
    split
    · next he => rw [List.isEmpty_iff.mp he]; rfl
    · rw [State.setAgent_agent, if_pos rfl]
  rw [hview, smGet, smFind_smPutAll _ _ 0 hsort (hv b), smFind_filterMap f _ k hh]
  cases (smFind t.hist k).bind (f k) <;> rfl

theorem acquire_hist (b : Agent) (sc : Scope) (s : State) : (acquire b sc s).hist = (hostLinesBack b sc s).hist := by
  unfold acquire
  refine (fresh_keeps _ b).1.trans ?_
  split <;> rfl

/-- The newest write of a location, released at a scope that the agent shares, is in its view once it has acquired. -/
theorem view_acquire {a b : Agent} {sc : Scope} {k id : Nat} {x : Byte} {s : State} (hs : MemoryInv s) (hab : shares sc a b = true) (hid : id ≠ 0)
    (h : NewestReleased a sc k id x s) :
    (∃ v r, smFind (acquire b sc s).hist k = some (v :: r) ∧ v.byte = x ∧ v.id = id) ∧ smGet 0 ((acquire b sc s).agent b).view k = id := by
  obtain ⟨v, r, hf, rfl, rfl, hrel⟩ := released_hostLinesBack b sc h
  refine ⟨⟨v, r, by rw [acquire_hist, hf], rfl, rfl⟩, ?_⟩
  rw [acquire_view hs, hf, Option.bind_some]
  have hacq : acquirable b sc v = true := List.any_eq_true.mpr ⟨_, hrel, by simp [shares_comm sc b a, hab]⟩
  unfold acquired eligible
  by_cases hview : v.id = smGet 0 ((hostLinesBack b sc s).agent b).view k
  · simp [← hview]
  · simp [hview, hid, hacq]

theorem release_eq (a : Agent) (sc : Scope) (s : State) (p : State)
    (hp : p = if (s.agent a).pend.isEmpty then s else (s.agent a).pend.foldl (performPend a sc) (s.setAgent a { s.agent a with pend := [] })) :
    release a sc s = unpark (releaseView a sc p) := hp ▸ rfl

/-- The newest write of a location, in the view of an agent once its stores have been performed, is in every view that acquires after its release. -/
theorem release_acquire {a b : Agent} {sc : Scope} {k : Nat} {s p : State} {v : Version} {r : List Version} (hp : MemoryInv p) (hab : shares sc a b = true)
    (hrel : release a sc s = unpark (releaseView a sc p)) (hq : (release a sc s).queued (fun _ => true) = false)
    (hv : smFind p.hist k = some (v :: r)) (hid : v.id ≠ 0) (hview : smGet 0 (p.agent a).view k = v.id) :
    (∃ w r, smFind (acquire b sc (release a sc s)).hist k = some (w :: r) ∧ w.byte = v.byte ∧ w.id = v.id)
      ∧ smGet 0 ((acquire b sc (release a sc s)).agent b).view k = v.id := by
  rw [hrel] at hq ⊢
  obtain ⟨hh, -, hk⟩ := unpark_keeps (releaseView a sc p)
  have hq' : (releaseView a sc p).queued (fun _ => true) = false := by
    unfold State.queued at hq ⊢
    rwa [hk] at hq
  have hnew := released_of_eq (t := unpark (releaseView a sc p)) hh (released_releaseView hp hv hid hview hq')
  exact view_acquire ((memStep_unpark _).inv ((memStep_releaseSeen ..).inv hp)) hab hid hnew

/-- Settles O23: a release marks the newest write of a location that the agent sees, and an acquire takes in the newest write so marked. -/
theorem releaseAcquire : Obligations.ReleaseAcquire := by
  intro a b sc k s hs hab hq t
  let p := if (s.agent a).pend.isEmpty then s else (s.agent a).pend.foldl (performPend a sc) (s.setAgent a { s.agent a with pend := [] })
  have hrel := release_eq a sc s p rfl
  have hstep : MemStep s p := memStep_ite (.refl s) (.trans (memStep_setAgent s a (m := { s.agent a with pend := [] }) id) (memStep_foldl (fun _ _ => memStep_performStore ..) ..))
  have hw : Wrote a k (pendByte (s.agent a).pend k) s p := by
    by_cases hpend : (s.agent a).pend.isEmpty
    · rw [List.isEmpty_iff.mp hpend]
      exact (if_pos hpend : p = s) ▸ wrote_refl
    · have hset : Wrote a k none s (s.setAgent a { s.agent a with pend := [] }) :=
        ⟨fun _ => ⟨rfl, by rw [State.setAgent_agent, if_pos rfl]⟩, fun _ h => (nomatch h)⟩
      rw [show p = _ from if_neg hpend, ← Option.or_none (o := pendByte (s.agent a).pend k)]
      exact hset.trans (wrote_pend sc _)
  refine ⟨fun v r hpend hf hid hview => ?_, fun x hx => ?_⟩
  · obtain ⟨hh, hv⟩ := hw.none hpend
    exact (release_acquire (hstep.inv hs) hab hrel hq (hh.trans hf) hid (hv.trans hview)).2
  · obtain ⟨v, r, hf, rfl, hid, hview⟩ := hw.some x hx
    obtain ⟨⟨w, r', h1, h2, h3⟩, h4⟩ := release_acquire (hstep.inv hs) hab hrel hq hf hid hview
    exact ⟨w, r', h1, h2, h4.trans h3.symm⟩

end Sys2Proof

/-! # CLEAN while a carve drains (R79, R329) -/

namespace Sys2Proof

open Machine

/- Declarations are checked one after another: side by side they would hold a thread each. -/
set_option Elab.async false

/-! ### CLEAN while a carve drains (R329, R79) -/

/-- A CLEAN of one byte of HBM, on the control core of cluster 0. -/
def cleanOne : Instr := .clean ⟨.w1, .cc false 0⟩ false 1 (.r 2)

/-- Cluster 0 runs a task, its control core acts, s1 holds an address of HBM and s2 a length of 1, and a carve drains. -/
def carvingState : State :=
  { (loadMap State.reset).modCC 0 (fun c => { ((c.setS 1 0x1000).setS 2 1) with task := some loadTask, carve := some ⟨0, 4, 5000, none⟩ }) with cur := .ac 0 0 }

/-- The CLEAN waits for the drain: the control core stays at it. -/
theorem cleanOne_waits : (match exec cleanOne carvingState with | .next t => ((t.ac 0).cc.pc, (t.ac 0).cc.wait.isSome) | _ => (1, false)) = (0, true) := by
  decide +kernel

theorem carvingState_acts : UnitActs 0 0 ⟨.w1, .cc false 0⟩ carvingState carvingState :=
  .inl ⟨rfl, ⟨rfl, by decide +kernel⟩, rfl⟩

/-- Refutes O24: a CLEAN of HBM does not complete while a carve of its cluster drains. -/
theorem not_maintenanceAndTimelines : ¬ Obligations.MaintenanceAndTimelines := by
  intro ⟨hm, _⟩
  obtain ⟨-, -, -, -, hclean⟩ := hm 0 0 carvingState carvingState _ carvingState_acts
  obtain ⟨hdone, -⟩ := hclean false 1 (.r 2) rfl rfl cleanOne (.inl rfl)
  obtain ⟨t, ht, -, -, hacs, -⟩ := hdone (by decide +kernel) (by decide +kernel) (fun m v _ _ w hw => by
    have : (carvingState.agent (.ac m v)).pend = [] := rfl
    rw [this] at hw
    cases hw) rfl (by decide)
  have hac : t.ac 0 = carvingState.ac 0 := congrArg (fun a => smGet AC.reset a 0) hacs
  have hpc := cleanOne_waits
  rw [ht] at hpc
  have hcc : ((unitDone 0 0 ⟨.w1, .cc false 0⟩ t).ac 0).cc = (carvingState.ac 0).cc.retire ⟨.w1, .cc false 0⟩ .seq :=
    (ccDone_cc (n := 0)).trans (by rw [hac])
  have hgone : ((carvingState.ac 0).cc.retire ⟨.w1, .cc false 0⟩ .seq).pc = 4 := by decide +kernel
  have hstay : ((unitDone 0 0 ⟨.w1, .cc false 0⟩ t).ac 0).cc.pc = 0 := congrArg Prod.fst hpc
  rw [hcc, hgone] at hstay
  exact absurd hstay (by decide)

end Sys2Proof

/-! # Temperatures and the reset of the part (R490, R494, R495) -/

namespace Sys2Proof

open Machine

/-! ### Registers of a die -/

theorem reg_setReg (s : State) (d o : Nat) (v : W64) (e p : Nat) : (s.setReg d o v).reg e p = if e = d ∧ p = o then v else s.reg e p := by
  unfold State.setReg State.reg
  rw [State.modDie_die]
  by_cases he : e = d
  · subst he
    rw [if_pos rfl, Die.setReg_reg]
    simp only [true_and]
  · simp only [he, if_false, false_and]

theorem reg_setReg_same (s : State) (d o : Nat) (v : W64) : (s.setReg d o v).reg d o = v := by rw [reg_setReg, if_pos ⟨rfl, rfl⟩]

theorem reg_setReg_of_ne {s : State} {d o : Nat} {v : W64} {e p : Nat} (h : e ≠ d ∨ p ≠ o) : (s.setReg d o v).reg e p = s.reg e p := by
  rw [reg_setReg, if_neg fun hp => h.elim (fun he => he hp.1) fun ho => ho hp.2]

/-! ### Temperatures (R494, R495) -/

section
variable (d : Nat) (temp : BitVec 16) (s : State)

/-- A die with a measured temperature in TEMP. -/
def warmed : State := s.setReg d 0x10018 (temp.setWidth 64)

theorem seeHot_keeps : (seeHot d s).mem = s.mem ∧ (seeHot d s).acs = s.acs ∧ (seeHot d s).stopped = s.stopped ∧ (seeHot d s).ttrip = s.ttrip := by
  unfold seeHot
  split <;> exact ⟨rfl, rfl, rfl, rfl⟩

theorem seeHot_reg {e o : Nat} (h : o ≠ 0x10010) : (seeHot d s).reg e o = s.reg e o := by
  unfold seeHot
  split
  · exact reg_setReg_of_ne (.inr h)
  · rfl

/-- HOT follows the measured temperature. -/
theorem warmed_hot : ((warmed d temp s).die d).hot = decide (((s.reg d 0x10020).setWidth 16).toInt ≤ temp.toInt) := by
  have ht : ((warmed d temp s).die d).reg 0x10018 = temp.setWidth 64 := reg_setReg_same ..
  have hw : ((warmed d temp s).die d).reg 0x10020 = s.reg d 0x10020 := reg_setReg_of_ne (.inr (by decide))
  rw [Die.hot, ht, hw, BitVec.setWidth_setWidth_of_le temp (by decide), BitVec.setWidth_eq, BitVec.slt]
  exact (decide_not ..).symm.trans (by simp only [Int.not_lt])

theorem seeHot_seen (h : ((warmed d temp s).die d).hot = true) : ((seeHot d (warmed d temp s)).reg d 0x10010).getLsbD 32 = true := by
  rw [seeHot, if_pos h, reg_setReg_same, BitVec.getLsbD_or, BitVec.getLsbD_twoPow]
  simp

theorem seeHot_cold (h : ((warmed d temp s).die d).hot = false) : seeHot d (warmed d temp s) = warmed d temp s :=
  if_neg (Bool.eq_false_iff.mp h)

/-- At 115 degrees the clocks stop and the host links go down; below, the temperature alone is seen. -/
theorem measure_of_shutdown (h : 920 ≤ temp.toInt) : measure d temp s
    = { ((seeHot d (warmed d temp s)).setReg 0 0x8008 0).setReg 2 0x8008 0 with stopped := true, ttrip := true } := if_pos h

theorem measure_of_running (h : temp.toInt < 920) : measure d temp s = seeHot d (warmed d temp s) := if_neg (Int.not_le.mpr h)

/-- Registers other than LINKUP's after a temperature has been measured. -/
theorem measure_reg {e o : Nat} (h : o ≠ 0x8008) : (measure d temp s).reg e o = (seeHot d (warmed d temp s)).reg e o := by
  unfold Machine.measure
  simp only
  split
  · exact (reg_setReg_of_ne (s := (seeHot d (warmed d temp s)).setReg 0 0x8008 0) (d := 2) (v := 0) (.inr h)).trans (reg_setReg_of_ne (.inr h))
  · rfl

theorem measure_keeps : (measure d temp s).mem = s.mem ∧ (measure d temp s).acs = s.acs := by
  obtain ⟨hm, ha, -, -⟩ := seeHot_keeps d (warmed d temp s)
  rcases Int.lt_or_le temp.toInt 920 with h | h
  · rw [measure_of_running d temp s h]
    exact ⟨hm, ha⟩
  · rw [measure_of_shutdown d temp s h]
    exact ⟨(State.setReg_mem ((seeHot d (warmed d temp s)).setReg 0 0x8008 0) 2 0x8008 0).trans hm,
      (State.setReg_acs ((seeHot d (warmed d temp s)).setReg 0 0x8008 0) 2 0x8008 0).trans ha⟩

end

/-! ### A reset of the part (R490) -/

/-- What a reset leaves before TTRIP is told. -/
def afterReset (s : State) : State :=
  { State.reset with
    agenda := s.agenda
    cur := s.cur
    seq := s.seq
    boot := s.boot + 1
    acs := s.acs.map fun x => (x.1, AC.keepCells x.2)
    mem := s.mem.filter fun c => decide (0x8000000000000 ≤ c.1) }

theorem partReset_eq (s : State) : exec .partReset s = .next ((afterReset s).setReg 0 0x0810 (if s.ttrip then 8 else 0)) := rfl

/-- A cluster after a reset: what a reset keeps of it, and nothing else. -/
theorem afterReset_ac (s : State) (n : Nat) : (afterReset s).ac n = AC.keepCells (s.ac n) := by
  have : smFind (s.acs.map fun x => (x.1, AC.keepCells x.2)) n = (smFind s.acs n).map AC.keepCells := smFind_map _ _ _
  unfold State.ac smGet
  rw [show (afterReset s).acs = s.acs.map fun x => (x.1, AC.keepCells x.2) from rfl, this]
  cases smFind s.acs n <;> rfl

theorem keepCells_tile (a : AC) (i : Nat) : (AC.keepCells a).tile i = { Tile.reset with plf := (a.tile i).plf, pls := (a.tile i).pls } := by
  have : smFind (a.tiles.map fun x => (x.1, ({ Tile.reset with plf := x.2.plf, pls := x.2.pls } : Tile))) i
      = (smFind a.tiles i).map fun x => { Tile.reset with plf := x.plf, pls := x.pls } :=
    smFind_map (fun x : Tile => { Tile.reset with plf := x.plf, pls := x.pls }) _ _
  unfold AC.tile smGet
  rw [show (AC.keepCells a).tiles = a.tiles.map fun x => (x.1, ({ Tile.reset with plf := x.2.plf, pls := x.2.pls } : Tile)) from rfl, this]
  cases smFind a.tiles i <;> rfl

/-- Entries from a key on. -/
theorem smFind_from {α : Type} (m : SMap α) (lo k : Nat) (h : k < lo) : smFind (m.filter fun c => decide (lo ≤ c.1)) k = none := by
  induction m with
  | nil => rfl
  | cons p r ih =>
    rw [List.filter_cons]
    split
    · next hp =>
      obtain ⟨j, v⟩ := p
      rw [smFind_cons, if_pos (by simp only [decide_eq_true_eq] at hp; omega)]
    · exact ih

theorem smFind_from_of_le {α : Type} (m : SMap α) (lo k : Nat) (h : lo ≤ k) {l : Nat} (hs : smSorted l m = true) :
    smFind (m.filter fun c => decide (lo ≤ c.1)) k = smFind m k := by
  induction m generalizing l with
  | nil => rfl
  | cons p r ih =>
    obtain ⟨j, v⟩ := p
    simp only [smSorted, Bool.and_eq_true, decide_eq_true_eq] at hs
    rw [List.filter_cons]
    split
    · rw [smFind_cons, smFind_cons, ih hs.2]
    · next hp =>
      simp only [decide_eq_true_eq] at hp
      rw [ih hs.2, smFind_cons, if_neg (by omega), if_neg (by omega)]

/-- Settles O55: what each event sets, register by register and part by part. -/
theorem powerEvents : Obligations.PowerEvents := by
  intro s
  refine ⟨fun d temp => ⟨measure d temp s, rfl, rfl, ?_, (measure_keeps ..).1, (measure_keeps ..).2, fun h => ?_, fun h => ?_, fun h => ?_, fun h => ?_⟩,
    ⟨_, partReset_eq s, rfl, rfl, rfl, rfl, rfl, fun n => ?_, reg_setReg_same .., fun d o h => reg_setReg_of_ne h, fun d => ?_, fun k hk => ?_, fun hs k hk => ?_⟩⟩
  · rw [measure_reg d temp s (by decide), seeHot_reg d _ (by decide)]
    exact reg_setReg_same ..
  · rw [measure_reg d temp s (by decide)]
    exact seeHot_seen d temp s ((warmed_hot d temp s).trans (decide_eq_true h))
  · rw [measure_reg d temp s (by decide), seeHot_cold d temp s ((warmed_hot d temp s).trans (decide_eq_false (Int.not_le.mpr h)))]
    exact reg_setReg_of_ne (.inr (by decide))
  · rw [measure_of_shutdown d temp s h]
    exact ⟨rfl, rfl, (reg_setReg_of_ne (s := (seeHot d (warmed d temp s)).setReg 0 0x8008 0) (d := 2) (v := 0) (.inl (by decide))).trans (reg_setReg_same ..),
      reg_setReg_same ..⟩
  · rw [measure_of_running d temp s h]
    obtain ⟨-, -, hst, htt⟩ := seeHot_keeps d (warmed d temp s)
    exact ⟨hst, htt, fun e => (seeHot_reg d _ (by decide)).trans (reg_setReg_of_ne (.inr (by decide)))⟩
  · have hac : ((afterReset s).setReg 0 0x0810 (if s.ttrip then 8 else 0)).ac n = AC.keepCells (s.ac n) := afterReset_ac s n
    refine ⟨by rw [hac]; rfl, by rw [hac]; rfl, by rw [hac]; rfl, by rw [hac]; rfl, fun e => by rw [hac]; cases e <;> rfl, fun i => ?_⟩
    have ht : ((afterReset s).setReg 0 0x0810 (if s.ttrip then 8 else 0)).tile n i
        = { Tile.reset with plf := (s.tile n i).plf, pls := (s.tile n i).pls } := (congrArg (AC.tile · i) hac).trans (keepCells_tile ..)
    rw [ht]
    exact ⟨rfl, rfl, rfl, rfl⟩
  · by_cases hd : d = 0
    · subst hd; exact ⟨rfl, rfl, rfl, rfl⟩
    · have : ((afterReset s).setReg 0 0x0810 (if s.ttrip then 8 else 0)).die d = State.reset.die d := by
        unfold State.setReg
        rw [State.modDie_die, if_neg hd]
        rfl
      rw [this]
      exact ⟨rfl, rfl, rfl, rfl⟩
  · exact congrArg (Option.getD · 0) (smFind_from s.mem _ k hk)
  · have hsort : smSorted 0 s.mem = true := (Bool.and_eq_true_iff.mp hs).1
    exact congrArg (Option.getD · 0) (smFind_from_of_le s.mem _ k hk hsort)

end Sys2Proof

/-! # Mailbox entries and bind records (R255, R256, R422) -/

namespace Sys2Proof

open Machine

/-! ### Counters in fields of a word -/

theorem bits_setBits_32_16 (w : W64) (v : Nat) : bits (setBits w 32 16 v) 32 16 = v % 2 ^ 16 := by
  have := w.isLt
  unfold setBits bits
  rw [BitVec.toNat_ofNat]
  omega

theorem bits_setBits_low (w : W64) (v : Nat) : bits (setBits w 0 32 v) 0 32 = v % 2 ^ 32 ∧ bits (setBits w 0 32 v) 32 32 = bits w 32 32 := by
  have := w.isLt
  unfold setBits bits
  rw [BitVec.toNat_ofNat]
  omega

theorem bits_setBits_high (w : W64) (v : Nat) : bits (setBits w 32 32 v) 32 32 = v % 2 ^ 32 := by
  have := w.isLt
  unfold setBits bits
  rw [BitVec.toNat_ofNat]
  omega

theorem bits_eq_extract (w : W64) (lo n : Nat) : bits w lo n = (w.extractLsb' lo n).toNat := by
  rw [bits, BitVec.extractLsb'_toNat, Nat.shiftRight_eq_div_pow]

/-! ### Mailbox entries (R255, R256) and bind records (R422) -/

/-- The granule of a mailbox entry is in the bits of word 0 that are kept. -/
theorem bits_mailboxWord (v : W64) : bits (v &&& 0x800FFFFFFFFFFFC0) 6 46 = bits v 6 46 := by
  have hones : (0x800FFFFFFFFFFFC0 : W64).extractLsb' 6 46 = BitVec.allOnes 46 := by decide
  rw [bits_eq_extract, bits_eq_extract, BitVec.extractLsb'_and, hones, BitVec.and_allOnes]

theorem valid_mailboxWord (v : W64) : (v &&& 0x800FFFFFFFFFFFC0).getLsbD 63 = v.getLsbD 63 := by
  have hone : (0x800FFFFFFFFFFFC0 : W64).getLsbD 63 = true := by decide
  rw [BitVec.getLsbD_and, hone, Bool.and_true]

section
variable {d i : Nat} {s : State}

/-- What a write of word 0 of a mailbox entry leaves: the register, and what the entry watches. -/
theorem mailboxWord0_eq (v : W64) :
    let x := v &&& 0x800FFFFFFFFFFFC0
    let ok := v.getLsbD 63 && inDieHbm d (bits v 6 46 * 64)
    let rest := s.watch.filter fun w => !(w.2.1 == d && w.2.2 == i)
    mailboxWord0 d i v s = { s.setReg d (0x40000 + 64 * i) (if ok = true ∨ v.getLsbD 63 = false then x else x &&& 0x7FFFFFFFFFFFFFFF) with
      watch := if ok then (canonPa d (bits v 6 46 * 64), d, i) :: rest else rest } := by
  intro x ok rest
  unfold mailboxWord0
  simp only [bits_mailboxWord, valid_mailboxWord]
  have hc : (if v.getLsbD 63 && !(v.getLsbD 63 && inDieHbm d (bits v 6 46 * 64)) then x &&& 0x7FFFFFFFFFFFFFFF else x)
      = if ok = true ∨ v.getLsbD 63 = false then x else x &&& 0x7FFFFFFFFFFFFFFF := by
    cases hv : v.getLsbD 63 <;> cases hi : inDieHbm d (bits v 6 46 * 64) <;> simp [ok, hv, hi]
  rw [← hc]
  rfl

/-- Entries that watch, but for one of them. -/
theorem mem_watch_rest {w : Nat × Nat × Nat} : w ∈ (s.watch.filter fun w => !(w.2.1 == d && w.2.2 == i)) ↔ w ∈ s.watch ∧ (w.2.1 ≠ d ∨ w.2.2 ≠ i) := by
  simp only [List.mem_filter, Bool.not_eq_true', Bool.and_eq_false_iff, beq_eq_false_iff_ne]

theorem mem_watch_self (ok : Bool) (g : Nat) (l : List (Nat × Nat × Nat)) :
    (g, d, i) ∈ (if ok then (g, d, i) :: l.filter fun w => !(w.2.1 == d && w.2.2 == i) else l.filter fun w => !(w.2.1 == d && w.2.2 == i)) ↔ ok = true := by
  cases ok with
  | true => exact ⟨fun _ => rfl, fun _ => List.mem_cons_self⟩
  | false =>
    refine ⟨fun h => ?_, fun h => absurd h Bool.false_ne_true⟩
    have := (List.mem_filter.mp h).2
    simp at this

theorem mem_watch_other (ok : Bool) (g : Nat) {l : List (Nat × Nat × Nat)} {w : Nat × Nat × Nat} (hw : w ∈ l) (h : w.2.1 ≠ d ∨ w.2.2 ≠ i) :
    w ∈ (if ok then (g, d, i) :: l.filter fun w => !(w.2.1 == d && w.2.2 == i) else l.filter fun w => !(w.2.1 == d && w.2.2 == i)) := by
  have hrest : w ∈ l.filter fun w => !(w.2.1 == d && w.2.2 == i) :=
    List.mem_filter.mpr ⟨hw, by simpa only [Bool.not_eq_true', Bool.and_eq_false_iff, beq_eq_false_iff_ne] using h⟩
  split
  · exact List.mem_cons_of_mem _ hrest
  · exact hrest

theorem mailboxEntryWrite_spec (v : W64) (hi : i < 256) :
    let x := v &&& 0x800FFFFFFFFFFFC0
    let g := bits v 6 46 * 64
    let ok := v.getLsbD 63 && inDieHbm d g
    ∃ t : State, exec (.mailboxEntryWrite d i v) s = .next t ∧ t.mem = s.mem ∧ t.acs = s.acs
      ∧ t.reg d (0x40000 + 64 * i) = (if ok = true ∨ v.getLsbD 63 = false then x else x &&& 0x7FFFFFFFFFFFFFFF)
      ∧ ((canonPa d g, d, i) ∈ t.watch ↔ ok = true) ∧ (∀ w ∈ s.watch, (w.2.1 ≠ d ∨ w.2.2 ≠ i) → w ∈ t.watch)
      ∧ ∀ e o, (e ≠ d ∨ o ≠ 0x40000 + 64 * i) → t.reg e o = s.reg e o := by
  intro x g ok
  let y := if ok = true ∨ v.getLsbD 63 = false then x else x &&& 0x7FFFFFFFFFFFFFFF
  have hx : exec (.mailboxEntryWrite d i v) s = .next (mailboxWord0 d i v s) := congrArg Host.Outcome.next (if_pos hi)
  refine ⟨_, hx, ?_⟩
  rw [mailboxWord0_eq]
  exact ⟨rfl, rfl, reg_setReg_same s d (0x40000 + 64 * i) y, mem_watch_self ok _ _, fun w hw h => mem_watch_other ok _ hw h,
    fun e o h => reg_setReg_of_ne (s := s) (v := y) h⟩

/-- Writes of its registers leave the rest of a die. -/
theorem die_setReg_self (s : State) (d o : Nat) (v : W64) : (s.setReg d o v).die d = (s.die d).setReg o v := by
  rw [State.setReg, State.modDie_die, if_pos rfl]

/-- The counters of an entry after a firing has been taken up: PEND and FIRED. -/
def firedOnce (d o : Nat) (s : State) : State :=
  (s.setReg d (o + 16) (setBits (s.reg d (o + 16)) 32 16 (bits (s.reg d (o + 16)) 32 16 + 1))).setReg d (o + 24)
    (setBits (s.reg d (o + 24)) 0 32 (bits (s.reg d (o + 24)) 0 32 + 1))

/-- A launch joins the launch queue of a die. -/
def queueLaunch (d i : Nat) (lrec : W64) (s : State) : State :=
  s.setDie d { s.die d with launchQ := (s.die d).launchQ ++ [⟨lrec, d * 2 ^ 30 + (s.die d).lseq % 2 ^ 30, i + 1⟩], lseq := (s.die d).lseq + 1 }

theorem reg_queueLaunch (lrec : W64) (e o : Nat) : (queueLaunch d i lrec s).reg e o = s.reg e o := by
  unfold queueLaunch State.reg
  rw [State.setDie_die]
  split
  · next h => subst h; rfl
  · rfl

theorem takeFiring_launch {lrec : W64} (hi : i < 256) (hp : bits (s.reg d (0x40000 + 64 * i + 16)) 32 16 ≠ 0xFFFF) :
    takeFiring d i lrec s = queueLaunch d i lrec (firedOnce d (0x40000 + 64 * i) s) := by
  unfold takeFiring
  rw [if_neg (Nat.not_le.mpr hi)]
  simp only
  generalize 0x40000 + 64 * i = o at *
  rw [if_neg hp]
  rfl

theorem takeFiring_dropped {lrec : W64} (hi : i < 256) (hp : bits (s.reg d (0x40000 + 64 * i + 16)) 32 16 = 0xFFFF) :
    takeFiring d i lrec s = (s.setReg d (0x40000 + 64 * i + 24) (setBits (s.reg d (0x40000 + 64 * i + 24)) 32 32
      (bits (s.reg d (0x40000 + 64 * i + 24)) 32 32 + 1))).addDispatchRecord d lrec (BitVec.ofNat 64 (bits (s.reg d (0x40000 + 64 * i)) 6 46 * 64)) 0x101 := by
  unfold takeFiring
  rw [if_neg (Nat.not_le.mpr hi)]
  simp only
  generalize 0x40000 + 64 * i = o at *
  rw [if_pos hp]

theorem firedOnce_reg (o : Nat) : (firedOnce d o s).reg d (o + 16) = setBits (s.reg d (o + 16)) 32 16 (bits (s.reg d (o + 16)) 32 16 + 1)
    ∧ (firedOnce d o s).reg d (o + 24) = setBits (s.reg d (o + 24)) 0 32 (bits (s.reg d (o + 24)) 0 32 + 1) := by
  have hne : o + 16 ≠ o + 24 := by omega
  unfold firedOnce
  rw [reg_setReg_of_ne (.inr hne), reg_setReg_same, reg_setReg_same]
  exact ⟨rfl, rfl⟩

theorem launchQ_setReg (s : State) (d o : Nat) (v : W64) :
    ((s.setReg d o v).die d).launchQ = (s.die d).launchQ ∧ ((s.setReg d o v).die d).lseq = (s.die d).lseq := by
  rw [die_setReg_self]
  exact ⟨rfl, rfl⟩

theorem firedOnce_die (o : Nat) : ((firedOnce d o s).die d).launchQ = (s.die d).launchQ ∧ ((firedOnce d o s).die d).lseq = (s.die d).lseq := by
  unfold firedOnce
  generalize hv : setBits (s.reg d (o + 16)) 32 16 (bits (s.reg d (o + 16)) 32 16 + 1) = v
  generalize hw : setBits (s.reg d (o + 24)) 0 32 (bits (s.reg d (o + 24)) 0 32 + 1) = w
  obtain ⟨h1, h2⟩ := launchQ_setReg (s.setReg d (o + 16) v) d (o + 24) w
  obtain ⟨h3, h4⟩ := launchQ_setReg s d (o + 16) v
  exact ⟨h1.trans h3, h2.trans h4⟩

theorem mailboxFire_spec {cls : Nat} {lrec : W64}
    (hf : (s.fires.find? fun f => f.1 == d && f.2.1 == i && f.2.2.1 == cls) = some (d, i, cls, lrec)) :
    exec (.mailboxFire d i cls) s = .next (takeFiring d i lrec { s with fires := s.fires.erase (d, i, cls, lrec) }) := by
  show Host.Outcome.next (match s.fires.find? fun f => f.1 == d && f.2.1 == i && f.2.2.1 == cls with | some f => _ | none => _) = _
  rw [hf]

/-- The two ends of a firing of an entry whose registers begin at an offset. -/
theorem firedOnce_ends (o : Nat) (lrec : W64) (hp : bits (s.reg d (o + 16)) 32 16 ≠ 0xFFFF) :
    let t := queueLaunch d i lrec (firedOnce d o s)
    (t.die d).launchQ = (s.die d).launchQ ++ [⟨lrec, d * 2 ^ 30 + (s.die d).lseq % 2 ^ 30, i + 1⟩]
      ∧ (t.die d).lseq = (s.die d).lseq + 1 ∧ bits (t.reg d (o + 16)) 32 16 = bits (s.reg d (o + 16)) 32 16 + 1
      ∧ bits (t.reg d (o + 24)) 0 32 = (bits (s.reg d (o + 24)) 0 32 + 1) % 2 ^ 32
      ∧ bits (t.reg d (o + 24)) 32 32 = bits (s.reg d (o + 24)) 32 32 ∧ t.fires = s.fires ∧ t.mem = s.mem ∧ t.acs = s.acs := by
  intro t
  obtain ⟨h16, h24⟩ := firedOnce_reg (d := d) (s := s) o
  obtain ⟨hq, hseq⟩ := firedOnce_die (d := d) (s := s) o
  obtain ⟨hlow, hhigh⟩ := bits_setBits_low (s.reg d (o + 24)) (bits (s.reg d (o + 24)) 0 32 + 1)
  have hlt : bits (s.reg d (o + 16)) 32 16 < 2 ^ 16 := Nat.mod_lt _ (by decide)
  have hdie : t.die d = { (firedOnce d o s).die d with
      launchQ := ((firedOnce d o s).die d).launchQ ++ [⟨lrec, d * 2 ^ 30 + ((firedOnce d o s).die d).lseq % 2 ^ 30, i + 1⟩]
      lseq := ((firedOnce d o s).die d).lseq + 1 } := (State.setDie_die ..).trans (if_pos rfl)
  rw [hdie, hq, hseq]
  refine ⟨rfl, rfl, ?_, ?_, ?_, rfl, rfl, rfl⟩
  · rw [reg_queueLaunch, h16, bits_setBits_32_16]
    exact Nat.mod_eq_of_lt (by omega)
  · rw [reg_queueLaunch, h24]
    exact hlow
  · rw [reg_queueLaunch, h24]
    exact hhigh

theorem addRecord_ends (d : Nat) (r : FRec) : ((s.addRecord d r).die d).launchQ = (s.die d).launchQ ∧ (∀ p, (s.addRecord d r).reg d p = s.reg d p)
    ∧ ((s.addRecord d r).die d).frSeq = (s.die d).frSeq + 1 ∧ (s.addRecord d r).mem = s.mem := by
  have hd : (s.addRecord d r).die d = { s.die d with frPend := (s.die d).frPend ++ [r], frSeq := (s.die d).frSeq + 1 } :=
    (State.modDie_die ..).trans (if_pos rfl)
  refine ⟨by rw [hd], fun p => ?_, by rw [hd], rfl⟩
  rw [State.reg, hd]
  rfl

theorem addDispatchRecord_eq (d : Nat) (va epa : W64) (entry : Nat) : ∃ r, s.addDispatchRecord d va epa entry = s.addRecord d r := ⟨_, rfl⟩

/-- A counter of an entry has been written and a dispatch record added. -/
theorem recorded_ends (o : Nat) (w lrec g : W64) (e : Nat) :
    let t := (s.setReg d (o + 24) w).addDispatchRecord d lrec g e
    (t.die d).launchQ = (s.die d).launchQ ∧ t.reg d (o + 24) = w ∧ t.reg d (o + 16) = s.reg d (o + 16)
      ∧ (t.die d).frSeq = (s.die d).frSeq + 1 ∧ t.mem = s.mem := by
  intro t
  have hne : o + 16 ≠ o + 24 := by omega
  obtain ⟨r, hr⟩ : ∃ r, t = (s.setReg d (o + 24) w).addRecord d r := addDispatchRecord_eq ..
  obtain ⟨hq, hreg, hseq, hmem⟩ := addRecord_ends (s := s.setReg d (o + 24) w) d r
  rw [hr, hq, hreg, hreg, hseq, hmem, reg_setReg_same, reg_setReg_of_ne (.inr hne), (launchQ_setReg s d (o + 24) w).1, die_setReg_self]
  exact ⟨rfl, rfl, rfl, rfl, rfl⟩

/-- The two ends of a firing of an entry that is full. -/
theorem dropped_ends (o : Nat) (lrec g : W64) :
    let t := (s.setReg d (o + 24) (setBits (s.reg d (o + 24)) 32 32 (bits (s.reg d (o + 24)) 32 32 + 1))).addDispatchRecord d lrec g 0x101
    (t.die d).launchQ = (s.die d).launchQ ∧ bits (t.reg d (o + 24)) 32 32 = (bits (s.reg d (o + 24)) 32 32 + 1) % 2 ^ 32
      ∧ t.reg d (o + 16) = s.reg d (o + 16) ∧ (t.die d).frSeq = (s.die d).frSeq + 1 ∧ t.mem = s.mem := by
  intro t
  obtain ⟨hq, h24, h16, hseq, hmem⟩ := recorded_ends (d := d) (s := s) o (setBits (s.reg d (o + 24)) 32 32 (bits (s.reg d (o + 24)) 32 32 + 1)) lrec g 0x101
  exact ⟨hq, (congrArg (bits · 32 32) h24).trans (bits_setBits_high ..), h16, hseq, hmem⟩

/-- A firing is the oldest of its entry and class. -/
theorem mailboxFires (cls : Nat) (lrec : W64) (hi : i < 256)
    (hf : (s.fires.find? fun f => f.1 == d && f.2.1 == i && f.2.2.1 == cls) = some (d, i, cls, lrec)) :
    let o := 0x40000 + 64 * i
    (bits (s.reg d (o + 16)) 32 16 ≠ 0xFFFF → ∃ t : State, exec (.mailboxFire d i cls) s = .next t
        ∧ (t.die d).launchQ = (s.die d).launchQ ++ [⟨lrec, d * 2 ^ 30 + (s.die d).lseq % 2 ^ 30, i + 1⟩]
        ∧ (t.die d).lseq = (s.die d).lseq + 1 ∧ bits (t.reg d (o + 16)) 32 16 = bits (s.reg d (o + 16)) 32 16 + 1
        ∧ bits (t.reg d (o + 24)) 0 32 = (bits (s.reg d (o + 24)) 0 32 + 1) % 2 ^ 32
        ∧ bits (t.reg d (o + 24)) 32 32 = bits (s.reg d (o + 24)) 32 32 ∧ t.fires = s.fires.erase (d, i, cls, lrec) ∧ t.mem = s.mem ∧ t.acs = s.acs)
      ∧ (bits (s.reg d (o + 16)) 32 16 = 0xFFFF → ∃ t : State, exec (.mailboxFire d i cls) s = .next t ∧ (t.die d).launchQ = (s.die d).launchQ
        ∧ bits (t.reg d (o + 24)) 32 32 = (bits (s.reg d (o + 24)) 32 32 + 1) % 2 ^ 32 ∧ t.reg d (o + 16) = s.reg d (o + 16)
        ∧ (t.die d).frSeq = (s.die d).frSeq + 1 ∧ t.mem = s.mem) := by
  intro o
  have hx := mailboxFire_spec hf
  obtain ⟨s', hs', hreg, hdie, hfires, hmem, hacs⟩ : ∃ s' : State, s' = { s with fires := s.fires.erase (d, i, cls, lrec) }
      ∧ (∀ p, s'.reg d p = s.reg d p) ∧ s'.die d = s.die d ∧ s'.fires = s.fires.erase (d, i, cls, lrec) ∧ s'.mem = s.mem ∧ s'.acs = s.acs :=
    ⟨_, rfl, fun _ => rfl, rfl, rfl, rfl, rfl⟩
  rw [← hs'] at hx
  rw [← hreg (o + 16), ← hreg (o + 24), ← hdie, ← hfires, ← hmem, ← hacs]
  exact ⟨fun hp => ⟨_, hx.trans (congrArg Host.Outcome.next (takeFiring_launch hi hp)), firedOnce_ends o lrec hp⟩,
    fun hp => ⟨_, hx.trans (congrArg Host.Outcome.next (takeFiring_dropped hi hp)), dropped_ends o lrec _⟩⟩

end

/-! ### Bind records (R422) -/

section
variable {d a i : Nat} {s : State}

theorem bindWrite_bad {v : W64} (h : v.getLsbD 63 = true ∧ (8 < bits v 40 4 ∨ bits v 44 19 ≠ 0)) :
    bindWrite d a i v s = s.setReg d 0x23008 (s.reg d 0x23008 ||| BitVec.twoPow 64 31) := if_pos h

theorem bindWrite_good {v : W64} (h : ¬(v.getLsbD 63 = true ∧ (8 < bits v 40 4 ∨ bits v 44 19 ≠ 0))) :
    bindWrite d a i v s = (s.setReg d (0x21000 + 64 * a + 8 * i) (v &&& 0x80000FFFFFFFFFFF)).modAc (64 * d + a) fun x =>
      { x with disp := { x.disp with pass := smPut 0 x.disp.pass i x.disp.vt, starve := smErase x.disp.starve i } } := if_neg h

end

/-- Settles O48: a write of word 0, a firing and a bind record, each by what it writes. -/
theorem mailboxEvents : Obligations.MailboxEvents := by
  intro d i s
  refine ⟨fun v hi => mailboxEntryWrite_spec v hi, fun cls lrec hi hf => mailboxFires cls lrec hi hf, fun a v ha hi => ⟨fun hbad => ?_, fun hgood => ?_⟩⟩
  all_goals have hx : exec (.bindRecordWrite d a i v) s = .next (bindWrite d a i v s) := congrArg Host.Outcome.next (if_pos ⟨ha, hi⟩)
  · refine ⟨_, hx, ?_⟩
    rw [bindWrite_bad hbad]
    refine ⟨?_, rfl, rfl, fun e o h => reg_setReg_of_ne h⟩
    rw [reg_setReg_same, BitVec.getLsbD_or, BitVec.getLsbD_twoPow]
    simp
  · refine ⟨_, hx, ?_⟩
    rw [bindWrite_good hgood]
    generalize 0x21000 + 64 * a + 8 * i = o
    refine ⟨reg_setReg_same .., ?_, rfl, fun n => ?_, fun e p h => reg_setReg_of_ne h⟩
    · rw [State.modAc_ac, if_pos rfl, smGet_smPut, if_pos rfl]
      rfl
    · rw [State.modAc_ac]
      split
      · next h => rw [h]; rfl
      · rfl

end Sys2Proof

/-! # A write-back of a line that holds unreleased bytes (R82) -/

namespace Sys2Proof

open Machine

/-! ### A write-back leaves unreleased bytes in the L1 (R66, R82) -/

/-- Cluster 0 has performed a write of byte 0 in its L1, and has not released it; its die may park 16 lines. -/
def unreleasedInL1 : State :=
  { State.reset.setReg 0 0x0418 4 with hist := [(0, [⟨1, 7, some (.ac 0 0), [(.l1 0, 1)], [], false, OpTag.none⟩])] }

/-- Refutes O50: a write-back merges released bytes alone, so the unreleased write stays present in the L1 and not at its home. -/
theorem not_cacheEvents : ¬ Obligations.CacheEvents := by
  intro h
  obtain ⟨-, -, -, hwb⟩ := h 0 unreleasedInL1
  obtain ⟨t, ht, hhome, -⟩ := (hwb 0 0).2 (by decide +kernel) (by decide +kernel)
  have hstay : (match exec (.cacheWriteback 0 0) unreleasedInL1 with | .next t => t.hist | _ => []) = unreleasedInL1.hist := by decide +kernel
  rw [ht] at hstay
  have hp : (0, [⟨1, 7, some (.ac 0 0), [(.l1 0, 1)], [], false, OpTag.none⟩]) ∈ t.hist := by
    rw [show t.hist = unreleasedInL1.hist from hstay]
    exact List.mem_singleton_self _
  exact absurd (hhome _ hp (by decide) _ (List.mem_singleton_self _) (by decide)) (by decide)

end Sys2Proof

/-! # Events that trap, stop an engine or are counted (R351, R441, R449, R456) -/

namespace Sys2Proof

open Machine

/-! ### Events at the boundary (R441, R449) -/

section
variable {n : Nat} {s : State} {p : Pending} {stop : Nat}

theorem boundaryTrap_of_running (ht : (s.ac n).cc.task.isSome = true) (hsv : (s.ac n).cc.saving = false) : boundaryTrap n s =
    match (s.ac n).cc.entry with
    | some (p, stop, false) => if (s.ac n).powerHeld then some s else some (settledTrap n p stop s)
    | some (p, stop, true) => if (s.ac n).cc.xl.isSome then some s else if (s.ac n).cc.xlAbort.isSome then some (endFatal n 0x103 s) else some (enterTrap n p stop s)
    | none => if s.passed n then none else match (s.ac n).event s.cycle with | some p => some (takeTrap n p s) | none => none := by
  have hno : ¬((s.ac n).cc.task.isNone = true ∨ (s.ac n).cc.saving = true) := by
    rw [hsv]
    cases h : (s.ac n).cc.task with
    | none => rw [h] at ht; cases ht
    | some t => simp
  unfold boundaryTrap
  simp only [hno, if_false] <;> rfl

theorem boundaryTrap_atBoundary (h : AtBoundary n s) : boundaryTrap n s = ((s.ac n).event s.cycle).map fun p => takeTrap n p s := by
  obtain ⟨ht, hsv, he, hp⟩ := h
  rw [boundaryTrap_of_running ht hsv, he]
  simp only [hp, Bool.false_eq_true, if_false]
  cases (s.ac n).event s.cycle <;> rfl

theorem trapEntry_event (h : AtBoundary n s) (he : (s.ac n).event s.cycle = some p) : exec (.trapEntry n) s = .next (takeTrap n p s) := by
  show Host.Outcome.next ((boundaryTrap n s).getD s) = _
  rw [boundaryTrap_atBoundary h, he, Option.map_some, Option.getD_some]

theorem trapEntry_none (h : AtBoundary n s) (he : (s.ac n).event s.cycle = none) : exec (.trapEntry n) s = .next s := by
  show Host.Outcome.next ((boundaryTrap n s).getD s) = _
  rw [boundaryTrap_atBoundary h, he, Option.map_none, Option.getD_none]

theorem trapEntry_goesOn (ht : (s.ac n).cc.task.isSome = true) (hsv : (s.ac n).cc.saving = false) (he : (s.ac n).cc.entry = some (p, stop, true))
    (hx : (s.ac n).cc.xl = none) (ha : (s.ac n).cc.xlAbort = none) : exec (.trapEntry n) s = .next (enterTrap n p stop s) := by
  show Host.Outcome.next ((boundaryTrap n s).getD s) = _
  rw [boundaryTrap_of_running ht hsv, he]
  simp only [hx, ha, Option.isSome_none, Bool.false_eq_true, if_false, Option.getD_some]

theorem trapEntry_settles (ht : (s.ac n).cc.task.isSome = true) (hsv : (s.ac n).cc.saving = false) (he : (s.ac n).cc.entry = some (p, stop, false)) :
    exec (.trapEntry n) s = .next (if (s.ac n).powerHeld then s else settledTrap n p stop s) := by
  show Host.Outcome.next ((boundaryTrap n s).getD s) = _
  rw [boundaryTrap_of_running ht hsv, he]
  simp only
  split <;> rfl

/-- What comes first where no fault may be taken: MGMT, then TIMER. -/
theorem event_of_interrupt (hie : (s.ac n).cc.ie = true) (hf : (s.ac n).cc.h = true ∨ (s.ac n).faultEvent = none) :
    (s.ac n).event s.cycle = (s.ac n).interrupt s.cycle := by
  have hnone : (if (s.ac n).cc.h then none else (s.ac n).faultEvent) = none := by
    rcases hf with h | h
    · rw [if_pos h]
    · rw [h]; split <;> rfl
  unfold AC.event
  rw [hnone]
  exact if_pos hie

theorem interrupt_of_timer (hm : (s.ac n).cc.mint = none) : (s.ac n).interrupt s.cycle =
    if (s.ac n).cc.sr 0x028 ≠ 0 ∧ ((s.ac n).cc.sr 0x028).toNat ≤ s.cycle then some ⟨0, 0x20, BitVec.ofNat 64 s.cycle, 0, 0, (s.ac n).cc.pc, false⟩ else none := by
  unfold AC.interrupt
  rw [hm]

/-- The timer of a cluster, where it comes first and is due, or is not. -/
theorem timerInterrupt_spec (h : AtBoundary n s) (hie : (s.ac n).cc.ie = true) (hm : (s.ac n).cc.mint = none)
    (hf : (s.ac n).cc.h = true ∨ (s.ac n).faultEvent = none) : exec (.timerInterrupt n) s =
      .next (if (s.ac n).cc.sr 0x028 ≠ 0 ∧ ((s.ac n).cc.sr 0x028).toNat ≤ s.cycle
        then takeTrap n ⟨0, 0x20, BitVec.ofNat 64 s.cycle, 0, 0, (s.ac n).cc.pc, false⟩ s else s) := by
  show Host.Outcome.next (match (s.ac n).event s.cycle with
    | some p => if p.cause = 0x20 then (boundaryTrap n s).getD s else s
    | none => s) = _
  rw [boundaryTrap_atBoundary h, event_of_interrupt hie hf, interrupt_of_timer hm]
  by_cases hdue : (s.ac n).cc.sr 0x028 ≠ 0 ∧ ((s.ac n).cc.sr 0x028).toNat ≤ s.cycle
  · rw [if_pos hdue, if_pos hdue, Option.map_some, Option.getD_some]
    simp only [if_true]
  · rw [if_neg hdue, if_neg hdue]

/-! ### Faults of engines (R351, R443) -/

section
variable {e : Eid} {c : Nat} {i0 i1 : W64}

theorem lateFault_running (hst : ((s.ac n).eng e).st = 1 ∨ ((s.ac n).eng e).st = 2) (ht : (s.ac n).cc.task.isSome = true)
    (hsv : (s.ac n).cc.saving = false) : lateFault n e c i0 i1 s = match (s.ac n).cc.entry with
    | some (_, stop, settled) =>
      if !settled ∧ (e = .vl ∨ e = .vs) ∧ !((s.ac n).eng e).deferred then
        s.modEng n e fun x => { x with deferred := true, fcause := c, finfo := i0, finfo1 := i1, fcycle := if x.st = 2 then x.fcycle else stop }
      else s
    | none => engFault n e c i0 i1 (match ((s.ac n).eng e).xl with | some t => s.dropToken (dieOf n) t | none => s) := by
  have hno : ¬((s.ac n).cc.task.isNone = true ∨ (s.ac n).cc.saving = true) := by
    rw [hsv]
    cases h : (s.ac n).cc.task with
    | none => rw [h] at ht; cases ht
    | some t => simp
  have h0 : ¬(e = .mx ∧ ((s.ac n).eng e).st = 0) := by omega
  have h12 : ¬(((s.ac n).eng e).st ≠ 1 ∧ ((s.ac n).eng e).st ≠ 2) := by omega
  unfold lateFault
  simp only [hno, h0, h12, if_false] <;> rfl

theorem lateFault_stopped (h : ((s.ac n).eng e).st = 3 ∨ ((s.ac n).eng e).st = 0 ∧ e ≠ .mx) : lateFault n e c i0 i1 s = s := by
  have h0 : ¬(e = .mx ∧ ((s.ac n).eng e).st = 0) := by
    rintro ⟨he, hz⟩
    rcases h with h | ⟨-, h⟩
    · omega
    · exact h he
  obtain ⟨h1, h2⟩ : ((s.ac n).eng e).st ≠ 1 ∧ ((s.ac n).eng e).st ≠ 2 := by omega
  unfold lateFault
  simp only [h0, h1, h2, ne_eq, not_false_eq_true, and_self, if_true, if_false, ite_self]

end

/-! ### Integrity (R456, R457) -/

theorem satAdd_one (v : W64) : satAdd v 1 = if v.toNat + 1 < 2 ^ 64 then v + 1 else v := by
  unfold satAdd
  split
  · rfl
  · exact BitVec.eq_of_toNat_eq (by rw [BitVec.toNat_allOnes]; have := v.isLt; omega)

/-- What an integrity event leaves: its counter, and where INTTRAP says so the event that the cluster is told. -/
theorem integrity_spec (d : Nat) {src : Nat} (info pc : W64) (hn : n < 256) (hsrc : src < 8) :
    let o := 0x600100 + 8 * src
    let t := s.integrity d src n info pc
    t.reg d o = (if (s.reg d o).toNat + 1 < 2 ^ 64 then s.reg d o + 1 else s.reg d o) ∧ t.mem = s.mem ∧ (∀ e p, (e ≠ d ∨ p ≠ o) → t.reg e p = s.reg e p)
      ∧ (t.ac n).cc = { (s.ac n).cc with pend :=
        if src ≠ 4 ∧ src ≠ 6 ∧ (s.reg d 0x600140).getLsbD src = true then (s.ac n).cc.pend ++ [⟨7, 0x30, BitVec.ofNat 64 src, info, 0, pc, false⟩]
        else (s.ac n).cc.pend } := by
  intro o t
  have ho : 0x600140 ≠ o := by omega
  have hmask : (s.setReg d o (satAdd (s.reg d o) 1)).reg d 0x600140 = s.reg d 0x600140 := reg_setReg_of_ne (.inr ho)
  have ht : t = if src ≠ 4 ∧ src ≠ 6 ∧ n < 256 ∧ ((s.setReg d o (satAdd (s.reg d o) 1)).reg d 0x600140).getLsbD src = true
      then (s.setReg d o (satAdd (s.reg d o) 1)).modCC n fun c => { c with pend := c.pend ++ [⟨7, 0x30, BitVec.ofNat 64 src, info, 0, pc, false⟩] }
      else s.setReg d o (satAdd (s.reg d o) 1) := rfl
  rw [hmask] at ht
  rw [← satAdd_one]
  generalize satAdd (s.reg d o) 1 = v at *
  by_cases htold : src ≠ 4 ∧ src ≠ 6 ∧ (s.reg d 0x600140).getLsbD src = true
  · rw [if_pos htold, ht, if_pos ⟨htold.1, htold.2.1, hn, htold.2.2⟩]
    refine ⟨reg_setReg_same s d o v, rfl, fun e p h => reg_setReg_of_ne (s := s) (v := v) h, ?_⟩
    rw [State.modCC_ac, if_pos rfl]
    rfl
  · rw [if_neg htold, ht, if_neg fun h => htold ⟨h.1, h.2.1, h.2.2.2⟩]
    exact ⟨reg_setReg_same s d o v, rfl, fun e p h => reg_setReg_of_ne h, rfl⟩

end

theorem integrity_event (d src : Nat) (info : W64) {n : Nat} (hn : n < 256) (s : State) :
    let pc := if src = 0 then (s.ac n).engInstr .ax else if src = 1 ∨ src = 2 then (s.ac n).engInstr .mx else (s.ac n).cc.pc
    exec (.integrityEvent d src n info) s = .next (if 8 ≤ src then s else if src = 5 ∨ src = 7
      then (if s.ccOpen n then syncTrap n 0x1A (BitVec.ofNat 64 src) info (s.integrity d src n info pc) else s.integrity d src n info pc)
      else s.integrity d src n info pc) := by
  intro pc
  have hc : concerned src n s = (n, pc) := if_pos hn
  have hu : ∀ u, uncorrected (s.ccOpen n) src n info u = if s.ccOpen n then syncTrap n 0x1A (BitVec.ofNat 64 src) info u else u := fun u => if_pos hn
  show execIntegrityEvent d src n info s = _
  unfold execIntegrityEvent
  simp only [hc, hu]

theorem integrityEvent_unnamed (d src n : Nat) (info : W64) (s : State) (h : 8 ≤ src) : exec (.integrityEvent d src n info) s = .next s := by
  show execIntegrityEvent d src n info s = _
  unfold execIntegrityEvent
  simp only [h, if_true]

theorem ccOpen_iff {n : Nat} {s : State} : s.ccOpen n = true ↔ (s.ac n).cc.task.isSome = true ∧ (s.ac n).cc.saving = false ∧ (s.ac n).cc.entry = none
    ∧ (s.ac n).event s.cycle = none := by
  simp only [State.ccOpen, Bool.and_eq_true, Bool.not_eq_true', Option.isNone_iff_eq_none, and_assoc]

/-- MINT notes the 58 bits of its word. -/
theorem mint_word (v : W64) : BitVec.ofNat 64 (bits v 0 58) = v &&& 0x3FFFFFFFFFFFFFF := by
  refine BitVec.eq_of_toNat_eq ?_
  rw [BitVec.toNat_and, show (0x3FFFFFFFFFFFFFF : W64).toNat = 2 ^ 58 - 1 from rfl, Nat.and_two_pow_sub_one_eq_mod, BitVec.toNat_ofNat, bits]
  have := v.isLt
  omega

/-- Settles O51: what the boundary takes, which engines stop, and what an integrity event counts and tells. -/
theorem eventTraps : Obligations.EventTraps := by
  intro n s
  refine ⟨fun hb => ⟨fun p => trapEntry_event hb, trapEntry_none hb⟩,
    fun p stop ht hsv => ⟨trapEntry_goesOn ht hsv, fun he => ⟨fun hh => ?_, fun hh => ?_⟩⟩,
    fun hb hie hm hf => ⟨fun h0 hle => ?_, fun h0 => ?_⟩, fun d v => ⟨_, rfl, ?_⟩,
    fun e c i0 i1 => ⟨fun hxl ht hsv hen hst => ?_, fun p stop ht hsv hen hst hu hd => ?_, fun hst => ?_⟩, ⟨_, rfl, rfl⟩, fun d src info => ⟨fun hs hn => ?_, fun hs hn => ?_, fun hs => ?_⟩⟩
  · rw [trapEntry_settles ht hsv he, if_pos hh]
  · rw [trapEntry_settles ht hsv he, if_neg (Bool.eq_false_iff.mp hh)]
  · rw [timerInterrupt_spec hb hie hm hf, if_pos ⟨h0, hle⟩]
  · rw [timerInterrupt_spec hb hie hm hf, if_neg (by rintro ⟨h1, h2⟩; exact h0.elim h1 fun h => absurd h2 (Nat.not_le.mpr h))]
  · show mintWrite d v s = _
    rw [← mint_word]
    rfl
  · refine ⟨engFault n e c.toNat i0 i1 s, congrArg Host.Outcome.next ?_, onlyAc_setAc .., ?_, ?_, ?_⟩
    · rw [lateFault_running hst ht hsv, hen]
      simp only [hxl]
    · rw [engFault, State.modEng_ac, if_pos rfl, AC.setEng_eng, if_pos rfl]
    · intro f hf
      rw [engFault, State.modEng_ac, if_pos rfl, AC.setEng_eng, if_neg hf]
    · rw [engFault, State.modEng_ac, if_pos rfl, AC.setEng_cc]
  · refine congrArg Host.Outcome.next ((lateFault_running hst ht hsv).trans ?_)
    rw [hen]
    exact if_pos ⟨rfl, hu, by rw [hd]; rfl⟩
  · exact congrArg Host.Outcome.next (lateFault_stopped hst)
  · refine ⟨_, ?_, integrity_spec d info _ hn (by omega)⟩
    rw [integrity_event d src info hn, if_neg (by omega), if_neg (by omega)]
  · obtain ⟨hr, hm, -, hcc⟩ := integrity_spec (s := s) d info
      (if src = 0 then (s.ac n).engInstr .ax else if src = 1 ∨ src = 2 then (s.ac n).engInstr .mx else (s.ac n).cc.pc) hn (show src < 8 by omega)
    refine ⟨_, hr, hm, hcc, fun ht hsv hen hev => ?_, fun hno => ?_⟩
    · rw [integrity_event d src info hn, if_neg (by omega), if_pos hs, if_pos (ccOpen_iff.mpr ⟨ht, hsv, hen, hev⟩)]
    · have hclosed : ¬s.ccOpen n = true := by
        rw [ccOpen_iff]
        rintro ⟨h1, h2, h3, h4⟩
        rcases hno with h | h | h | h
        · rw [h] at h1; cases h1
        · rw [h] at h2; cases h2
        · exact h h3
        · exact h h4
      rw [integrity_event d src info hn, if_neg (by omega), if_pos hs, if_neg hclosed]
  · exact integrityEvent_unnamed d src n info s hs

end Sys2Proof

/-! # A wait of no entries at an overfull pool (R436) -/

namespace Sys2Proof

open Machine

/- Declarations are checked one after another: side by side they would hold a thread each. -/
set_option Elab.async false

/-! ### A push of no entries into a pool that is overfull (R436) -/

/-- A PUSHK of one operand of VL. -/
def pushOne : Instr := .pushk ⟨.w1, .cc false 0⟩ .vl 1 0

/-- The return queue of cluster 0 holds 513 values, more than the pool has entries; no minimum is reserved, and the control core waits in a push for
which a wait of no entries at the return queue is noted. -/
def overfull : State :=
  { (State.reset.modCC 0 fun c => { c with
      wait := some ⟨pushOne, 0, [], false⟩
      sys := ((List.range 6).map fun q => (0x080 + q, 0)) ++ [(0x08D, 1023)] }).modAc 0 fun a =>
      { a with ln := { a.ln with retq := List.replicate 513 (1, 0), pushWait := [⟨0, 5, 0⟩] } } with cur := .disp 0 }

/-- By R436 nothing has room; the model takes the pool to have none free, and none is asked for. -/
theorem overfull_noRoom : ¬QueueRoom (overfull.ac 0) 5 0 := by
  unfold QueueRoom
  decide +kernel

/-- The push is looked at again all the same, and the control core acts. -/
theorem overfull_acts : (match exec (.queuePushGrant 0) overfull with | .next t => some t.cur | _ => none) = some (.ac 0 0) := by decide +kernel

/-- Refutes O45: a wait of no entries at an overfull pool has no room by R436, and the event runs the push again. -/
theorem not_waitEvents : ¬ Obligations.WaitEvents := by
  intro h
  obtain ⟨-, -, hidle, -⟩ := h 0 overfull
  have hnone := hidle fun w hw => by
    rw [List.mem_singleton.mp (show w ∈ [(⟨0, 5, 0⟩ : PushWait)] from hw)]
    exact overfull_noRoom
  have hacts := overfull_acts
  rw [hnone] at hacts
  cases hacts

end Sys2Proof

/-! # Cores, root firmware and the boot (R25, R167, R474 to R479, R491) -/

namespace Sys2Proof

open Machine

/-! ### Accesses of the cores (R167) -/

section
variable {core pa n : Nat} {s s1 : State}

/-- The agent of a core: 0 to 3 are the management cores, 4 the root core. -/
def coreAgent (core : Nat) : Agent := if core = 4 then Agent.root else .mcore core

theorem core_idles (hc : core < 4) (h : (s.reg 0 0x0810).getLsbD 1 = false) (op : McOp) :
    exec (.managementCoreAccess core op pa n) s = .next s :=
  congrArg Host.Outcome.next (if_pos (.inr ⟨hc, by rw [h]; rfl⟩))

theorem core_runs (hc : core = 4 ∨ core < 4 ∧ (s.reg 0 0x0810).getLsbD 1 = true) (op : McOp) :
    exec (.managementCoreAccess core op pa n) s
      = .next (State.coreGoes (match McOp.kind op with
        | none => coreDoes (coreAgent core) op pa n s
        | some k => if !McOp.sizeOk op pa n then s
          else match checkPhys s (coreAgent core) k pa n with
            | some st => physRefused (coreAgent core) k pa n st s
            | none => coreDoes (coreAgent core) op pa n s) (coreAgent core)) := by
  refine congrArg Host.Outcome.next (if_neg ?_)
  rintro (h | ⟨h, hr⟩)
  · omega
  · obtain rfl | ⟨_, hr'⟩ := hc
    · exact absurd h (by decide)
    · rw [hr'] at hr
      cases hr

/-- A range that its size divides, and that a granule's size is a multiple of, is one piece. -/
theorem granulePieces_aligned {f : Nat} (hn : n ∈ [1, 2, 4, 8]) (h : pa % n = 0) : granulePieces (f + 2) pa n = [(pa, n)] := by
  have hm : n ≤ 4096 - pa % 4096 := by
    simp only [List.mem_cons, List.not_mem_nil, or_false] at hn
    obtain rfl | rfl | rfl | rfl := hn <;> omega
  have h0 : n ≠ 0 := by rintro rfl; simp at hn
  simp only [granulePieces, h0, if_false, Nat.min_eq_left hm, Nat.sub_self, if_true]

theorem core_loads {b : List Byte} (hc : core = 4 ∨ core < 4 ∧ (s.reg 0 0x0810).getLsbD 1 = true) (hn : n ∈ [1, 2, 4, 8])
    (hp : checkPhys s (coreAgent core) .read pa n = none) (hm : mmioOf (coreAgent core).die pa = none)
    (hl : physLoad (coreAgent core) (granulePieces 4 pa n) s = (b, s1)) :
    exec (.managementCoreAccess core .load pa n) s = .next (State.coreGoes (s1.answer (coreAgent core) b) (coreAgent core)) := by
  have hsz : McOp.sizeOk .load pa n = true := List.contains_iff_mem.mpr hn
  have hd : coreDoes (coreAgent core) .load pa n s = s1.answer (coreAgent core) b := by
    simp only [coreDoes, hm, Option.isSome_none, Bool.false_eq_true, if_false, hl]
  rw [core_runs hc]
  simp only [McOp.kind, hsz, Bool.not_true, Bool.false_eq_true, if_false, hp, hd]

theorem core_stores {v : W64} (hc : core = 4 ∨ core < 4 ∧ (s.reg 0 0x0810).getLsbD 1 = true) (hn : n ∈ [1, 2, 4, 8]) (ha : pa % n = 0)
    (hp : checkPhys s (coreAgent core) .write pa n = none) (hm : mmioOf (coreAgent core).die pa = none) :
    exec (.managementCoreAccess core (.store v) pa n) s = .next (State.coreGoes
      (strongStore (coreAgent core) .pkg false (canonPa (coreAgent core).die pa) (leBytes n v.toNat) s) (coreAgent core)) := by
  have hsz : McOp.sizeOk (.store v) pa n = true := List.contains_iff_mem.mpr hn
  have hd : coreDoes (coreAgent core) (.store v) pa n s
      = strongStore (coreAgent core) .pkg false (canonPa (coreAgent core).die pa) (leBytes n v.toNat) s := by
    have hb : (leBytes n v.toNat).take n = leBytes n v.toNat := List.take_of_length_le (leBytes_length ..).le
    simp only [coreDoes, hm, Option.isSome_none, Bool.false_eq_true, if_false, granulePieces_aligned hn ha, physStore, hb]
  rw [core_runs hc]
  simp only [McOp.kind, hsz, Bool.not_true, Bool.false_eq_true, if_false, hp, hd]

end

/-! ### Registers with no action (R25) -/

/-- The registers of each die that a write keeps, and their bits. -/
def plainRegs : List (Nat × W64) :=
  [(0x0100, 0x800FFFFFFFFF0000), (0x0200, 0x7FFFFFFFFFF000), (0x0208, 0x3F), (0x0410, 0xFFFFFFFFF0000), (0x0418, 0x1F), (0x0608, 0xFFFFFFFFFF000),
    (0x0700, 0xFFFFFFFFFFFFFFFF), (0x0708, 0xFFFFFFFFFFFFFFFF), (0x23000, 1)]

section
variable {d off : Nat} {m v : W64} {s : State}

/-- The write of a register with no action. -/
def maskedWrite (d off : Nat) (m v : W64) (s : State) : State := s.setReg d off ((s.reg d off &&& ~~~ m) ||| (v &&& m))

theorem plainReg_written (h : (off, m) ∈ plainRegs) (hd : d < 4) :
    exec (.registerWrite d off v) s = .next (seeHot d (maskedWrite d off m v s)) := by
  simp only [plainRegs, List.mem_cons, Prod.mk.injEq, List.not_mem_nil, or_false] at h
  rcases h with ⟨rfl, rfl⟩ | ⟨rfl, rfl⟩ | ⟨rfl, rfl⟩ | ⟨rfl, rfl⟩ | ⟨rfl, rfl⟩ | ⟨rfl, rfl⟩ | ⟨rfl, rfl⟩ | ⟨rfl, rfl⟩ | ⟨rfl, rfl⟩ <;>
  · refine congrArg Host.Outcome.next ((if_pos ⟨hd, by simp [mmioTarget]⟩).trans ?_)
    simp [regWrite, w1cMask, rwMask, maskedWrite]

theorem plainReg_ne_hot (h : (off, m) ∈ plainRegs) : off ≠ 0x10010 := by
  simp only [plainRegs, List.mem_cons, Prod.mk.injEq, List.not_mem_nil, or_false] at h
  omega

theorem seeHot_otherDie {e o : Nat} (h : e ≠ d ∨ o ≠ 0x10010) : (seeHot d s).reg e o = s.reg e o := by
  unfold seeHot
  split
  · exact reg_setReg_of_ne h
  · rfl

end

/-! ### Measurements and the boot (R476, R477) -/

/-- The new value of a measurement register that is extended with a digest. -/
def extended (m : BitVec 512) (digest : List Byte) : BitVec 512 := BitVec.ofNat 512 (leNat (sha3 (leBytes 64 m.toNat ++ digest)))

theorem meas_congr {s t : State} (h : t.meas = s.meas) (i : Nat) : meas t i = meas s i := by rw [meas, meas, h]

theorem meas_extend (i j : Nat) (b : List Byte) (s : State) : meas (extend i b s) j = if j = i then extended (meas s i) b else meas s j := by
  unfold extended extend
  generalize BitVec.ofNat 512 _ = v
  exact smGet_smPut ..

theorem meas_extend_same (i : Nat) (b : List Byte) (s : State) : meas (extend i b s) i = extended (meas s i) b := by rw [meas_extend, if_pos rfl]

theorem meas_extend_of_ne {i j : Nat} (h : j ≠ i) (b : List Byte) (s : State) : meas (extend i b s) j = meas s j := by rw [meas_extend, if_neg h]

theorem extend_mem (i : Nat) (b : List Byte) (s : State) : (extend i b s).mem = s.mem := by unfold extend; rfl

theorem loadRange_mem (a : Agent) (pt : Option (Place × Nat)) (k n u : Nat) (s : State) : (loadRange a pt k n u s).2.mem = s.mem := by
  unfold loadRange
  dsimp only
  split <;> split <;> rfl

/-- What the root core reads changes no byte, no register and no measurement. -/
structure RootReads (s t : State) : Prop where
  mem : t.mem = s.mem
  dies : t.dies = s.dies
  meas : t.meas = s.meas

theorem RootReads.trans {s t u : State} (h : RootReads s t) (g : RootReads t u) : RootReads s u :=
  ⟨g.mem.trans h.mem, g.dies.trans h.dies, g.meas.trans h.meas⟩

theorem rootReads_of_memStep {s t : State} (hm : t.mem = s.mem) (h : MemStep s t) : RootReads s t :=
  ⟨hm, h.dies, congrArg (fun s => s.meas) h.beyond⟩

theorem fresh_mem (s : State) (a : Agent) : (s.fresh a).mem = s.mem := by
  unfold State.fresh
  dsimp only
  split <;> rfl

theorem acquire_root_mem (s : State) : (acquire .root .pkg s).mem = s.mem := by
  simp only [acquire, hostLinesBack, fresh_mem]
  split <;> rfl

theorem rootReads_foldl {α β : Type} {f : β × State → α → β × State} (hf : ∀ x a, RootReads x.2 (f x a).2) {x : β × State} (l : List α) :
    RootReads x.2 (l.foldl f x).2 := by
  induction l generalizing x with
  | nil => exact ⟨rfl, rfl, rfl⟩
  | cons a l ih => exact (hf x a).trans ih

theorem rootReads_rootBytes (pa len : Nat) (s : State) : RootReads s (rootBytes pa len s).2 := by
  have ha := rootReads_of_memStep (acquire_root_mem s) (memStep_acquire s .root .pkg)
  unfold rootBytes
  generalize granulePieces (len / 4096 + 2) pa len = l, acquire .root .pkg s = t at ha
  refine ha.trans (rootReads_foldl (x := ([], t)) (fun x p => ?_) l)
  obtain ⟨b, u⟩ := x
  obtain ⟨p, n⟩ := p
  have hl := rootReads_of_memStep (loadRange_mem .root none (canonPa 0 p) n 8 u) (memStep_loadRange u .root none (canonPa 0 p) n 8)
  dsimp only
  generalize loadRange .root none (canonPa 0 p) n 8 u = y at hl ⊢
  exact hl

theorem bootPatch_mem (base len : Nat) (s : State) : (bootPatch base len s).mem = s.mem := by
  unfold bootPatch
  split
  · dsimp only
    split
    · exact (extend_mem ..).trans (rootReads_rootBytes base len s).mem
    · exact (rootReads_rootBytes base len s).mem
  · rfl

theorem bootStep1_mem (s : State) : (bootStep1 s).mem = s.mem := by
  have hf : ∀ (l : List (Nat × Nat)) (t : State), (l.foldl (fun s x => bootPatch x.1 x.2 s) t).mem = t.mem := by
    intro l
    induction l with
    | nil => exact fun _ => rfl
    | cons x l ih => exact fun t => (ih _).trans (bootPatch_mem ..)
  unfold bootStep1
  rw [State.setReg_mem]
  dsimp only [State.coreGoes]
  rw [hf]
  dsimp only
  rw [extend_mem]

theorem bootStep1_rootOk (s : State) : ((bootStep1 s).reg 0 0x0810).getLsbD 0 = true := by
  unfold bootStep1
  rw [reg_setReg_same, BitVec.getLsbD_or]
  simp

/-- What withdrawing host A's grant keeps: the bytes and the other measurements. -/
theorem withdrawBoot_keeps (s : State) : (withdrawBoot s).mem = s.mem ∧ ∀ i, i ≠ 2 → meas (withdrawBoot s) i = meas s i := by
  unfold withdrawBoot
  generalize s.entries 18 = l
  induction l generalizing s with
  | nil => exact ⟨rfl, fun _ _ => rfl⟩
  | cons x l ih =>
    obtain ⟨hm, hi⟩ := ih (if x.2.classes.getLsbD 0 ∧ x.2.base ≤ 0x30000000 ∧ 0x30000000 ≤ x.2.limit then
      entryWord0 0 18 x.1 (s.reg 0 (0x800000 + 0x800 * 18 + 32 * x.1))
        (s.setReg 0 (0x800000 + 0x800 * 18 + 32 * x.1 + 16) (BitVec.ofNat 64 (x.2.classes.toNat / 2 * 2))) else s)
    refine ⟨hm.trans ?_, fun i h2 => (hi i h2).trans ?_⟩
    · split <;> rfl
    · split
      · exact meas_extend_of_ne h2 _ _
      · rfl

section
variable {s : State}

/-- The first byte and the length of the image that the boot registers name. -/
def stagedBase (s : State) : Nat := bits (s.reg 0 0x0800) 16 36 * 65536
def stagedLen (s : State) : Nat := bits (s.reg 0 0x0800) 0 16 * 65536
/-- The image in the staging range. -/
def staged (s : State) : List Byte := (rootBytes (stagedBase s) (stagedLen s) s).1

theorem bootStep4_idle (h : (s.reg 0 0x0810).getLsbD 0 = false ∨ (s.reg 0 0x0810).getLsbD 1 = true ∨ (s.reg 0 0x0810).getLsbD 2 = true) :
    bootStep4 s = s := by
  refine if_pos ?_
  obtain h | h | h := h <;> simp only [h, Bool.not_false, Bool.true_or, Bool.or_true]

/-- How step 4 of the boot ends when it begins. -/
theorem bootStep4_runs (h0 : (s.reg 0 0x0810).getLsbD 0 = true) (h1 : (s.reg 0 0x0810).getLsbD 1 = false)
    (h2 : (s.reg 0 0x0810).getLsbD 2 = false) :
    (bootStep4 s).mem = s.mem
      ∧ (stagingOk (stagedBase s) (stagedLen s) = true → imageAccepted (staged s) = true →
        (bootStep4 s).reg 0 0x0810 = s.reg 0 0x0810 ||| 2 ∧ meas (bootStep4 s) 1 = extended (meas s 1) (sha3 (Config.imageBody (staged s))))
      ∧ (stagingOk (stagedBase s) (stagedLen s) = false ∨ imageAccepted (staged s) = false →
        (bootStep4 s).reg 0 0x0810 = s.reg 0 0x0810 ||| 4 ∧ meas (bootStep4 s) 1 = meas s 1) := by
  have hr : RootReads s (rootBytes (stagedBase s) (stagedLen s) s).2 := rootReads_rootBytes ..
  have hmeas : ∀ i, meas (rootBytes (stagedBase s) (stagedLen s) s).2 i = meas s i := meas_congr hr.meas
  have hgo : bootStep4 s = if !stagingOk (stagedBase s) (stagedLen s) then s.setReg 0 0x0810 (s.reg 0 0x0810 ||| 4)
      else if imageAccepted (staged s) then
        State.setReg { withdrawBoot (extend 1 (sha3 (Config.imageBody (staged s))) (rootBytes (stagedBase s) (stagedLen s) s).2) with
          corePc := (List.range 4).foldl (fun m c => smPut 0 m (Agent.mcore c).key (Config.imageEntry (staged s)))
            (withdrawBoot (extend 1 (sha3 (Config.imageBody (staged s))) (rootBytes (stagedBase s) (stagedLen s) s).2)).corePc } 0 0x0810 (s.reg 0 0x0810 ||| 2)
      else State.setReg (rootBytes (stagedBase s) (stagedLen s) s).2 0 0x0810 (s.reg 0 0x0810 ||| 4) :=
    if_neg (by rw [h0, h1, h2]; decide)
  cases hst : stagingOk (stagedBase s) (stagedLen s) with
  | false =>
    have he : bootStep4 s = s.setReg 0 0x0810 (s.reg 0 0x0810 ||| 4) := by rw [hgo, hst]; rfl
    rw [he]
    exact ⟨rfl, fun h => absurd h (by decide), fun _ => ⟨reg_setReg_same .., rfl⟩⟩
  | true =>
    cases hi : imageAccepted (staged s) with
    | false =>
      have he : bootStep4 s = State.setReg (rootBytes (stagedBase s) (stagedLen s) s).2 0 0x0810 (s.reg 0 0x0810 ||| 4) := by rw [hgo, hst, hi]; rfl
      rw [he]
      exact ⟨hr.mem, fun _ h => absurd h (by decide), fun _ => ⟨reg_setReg_same .., hmeas 1⟩⟩
    | true =>
      obtain ⟨wm, wi⟩ := withdrawBoot_keeps (extend 1 (sha3 (Config.imageBody (staged s))) (rootBytes (stagedBase s) (stagedLen s) s).2)
      rw [hst, hi] at hgo
      simp only [Bool.not_true, Bool.false_eq_true, if_false, if_true] at hgo
      rw [hgo]
      refine ⟨wm.trans ((extend_mem ..).trans hr.mem), fun _ _ => ⟨reg_setReg_same .., ?_⟩, fun h => by simp at h⟩
      exact (wi 1 (by decide)).trans ((meas_extend_same ..).trans (by rw [hmeas]))

end

/-! ### Answers of root firmware (R478) -/

/-- A message of a port, sent or pending, changes nothing else. -/
theorem msiFlush_eq (port : Nat) (s : State) : ∃ m q, msiFlush port s = { s with msi := m, msiPend := q } := by
  unfold msiFlush
  dsimp only
  split
  · exact ⟨s.msi, s.msiPend, rfl⟩
  · exact ⟨_, _, rfl⟩

theorem raiseMsi_eq (port v : Nat) (s : State) : ∃ m q, raiseMsi port v s = { s with msi := m, msiPend := q } := by
  obtain ⟨m, q, h⟩ := msiFlush_eq port { s with msiPend := smPut 0 s.msiPend port (smGet 0 s.msiPend port ||| BitVec.twoPow 64 v) }
  exact ⟨m, q, h⟩

section
variable {s s1 : State} {blk cmd : Nat} {arg : List Byte}

theorem writePhys_meas (a : Agent) (pa : Nat) (b : List Byte) (s : State) : (writePhys a pa b s).meas = s.meas := by
  unfold writePhys
  split
  · split
    · next t ht =>
      revert ht
      unfold physDenied
      split
      · intro ht
        obtain rfl := Option.some.inj ht
        rfl
      · exact fun ht => nomatch ht
    · have hf : ∀ (l : List (Nat × Nat)) (x : State × List Byte), (l.foldl (fun (x : State × List Byte) (p, n) =>
          (plainStore a false noVa (canonPa a.die p) (x.2.take n) x.1, x.2.drop n)) x).1.meas = x.1.meas := by
        intro l
        induction l with
        | nil => exact fun _ => rfl
        | cons y l ih => exact fun x => (ih _).trans rfl
      exact hf _ _
  · rfl

/-- The bytes that an answer leaves. -/
def responded (blk : Nat) (b : List Byte) (s : State) : State := release .root .pkg (writePhys .root (blk + 0x100) b s)

theorem responded_meas (blk : Nat) (b : List Byte) (s : State) : (responded blk b s).meas = s.meas :=
  (congrArg (fun s => s.meas) (memStep_release _ .root .pkg).beyond).trans (writePhys_meas ..)

theorem notified_eq (src : Nat) (u : State) : ∃ m q, (if src < 2 then raiseMsi src 62 u else u) = { u with msi := m, msiPend := q } := by
  split
  · exact raiseMsi_eq src 62 u
  · exact ⟨u.msi, u.msiPend, rfl⟩

theorem rootAnswer_ends (blk : Nat) (b : List Byte) (s : State) :
    (rootAnswer blk b s).att = none ∧ (rootAnswer blk b s).mem = (responded blk b s).mem ∧ (rootAnswer blk b s).meas = s.meas := by
  have hm := responded_meas blk b s
  have he : rootAnswer blk b s = (fun u : State => if bits (u.reg 0 0xA010) 48 16 < 2 then raiseMsi (bits (u.reg 0 0xA010) 48 16) 62 u else u)
      { (responded blk b s).coreGoes .root with att := none } := rfl
  generalize responded blk b s = t at hm he
  obtain ⟨m, q, h⟩ := notified_eq (bits (State.reg { t.coreGoes .root with att := none } 0 0xA010) 48 16) { t.coreGoes .root with att := none }
  rw [he]
  dsimp only
  rw [h]
  exact ⟨rfl, rfl, hm⟩

theorem rootAnswer_counted (blk : Nat) (b : List Byte) (s : State) (q : Nat) : (rootAnswer blk b { s with seq := q }).meas = s.meas :=
  (rootAnswer_ends ..).2.2

theorem rootReport_answers (ha : s.att = some blk) (hr : rootRequest blk s = (1, arg, s1)) :
    exec .rootReport s = .next (rootAnswer blk (report arg s1) { s1 with seq := s1.seq + 1 }) := by
  refine congrArg Host.Outcome.next ?_
  simp only [ha, hr, if_true]

theorem rootCertChain_answers (ha : s.att = some blk) (hr : rootRequest blk s = (2, arg, s1)) :
    exec .rootCertChain s = .next (rootAnswer blk (certChain (meas s1 0).toNat) s1) := by
  refine congrArg Host.Outcome.next ?_
  simp only [ha, hr, if_true]

theorem rootExtend_extends (ha : s.att = some blk) (hr : rootRequest blk s = (3, arg, s1))
    (hs : 0x1000 ≤ bits (s1.reg 0 0xA010) 48 16 ∧ bits (s1.reg 0 0xA010) 48 16 < 0x1004) :
    ∃ b q, exec .rootExtend s = .next (rootAnswer blk b { extend (4 + (arg.getD 63 0).toNat % 4) arg s1 with seq := q }) := by
  refine ⟨(List.range 8).map (Config.answerByte (extend (4 + (arg.getD 63 0).toNat % 4) arg s1).seq), (extend (4 + (arg.getD 63 0).toNat % 4) arg s1).seq + 1,
    congrArg Host.Outcome.next ?_⟩
  simp only [ha, hr, ne_eq, not_true_eq_false, if_false, hs, and_self, if_true]

theorem rootExtend_refuses (ha : s.att = some blk) (hr : rootRequest blk s = (3, arg, s1))
    (hs : ¬ (0x1000 ≤ bits (s1.reg 0 0xA010) 48 16 ∧ bits (s1.reg 0 0xA010) 48 16 < 0x1004)) :
    exec .rootExtend s = .next (rootAnswer blk rootRefuses s1) := by
  refine congrArg Host.Outcome.next ?_
  simp only [ha, hr, ne_eq, not_true_eq_false, if_false, hs]

theorem rootExtend_boots (ha : s.att = none) (h : (s.reg 0 0x0810).getLsbD 0 = false) : exec .rootExtend s = .next (bootStep1 s) := by
  refine congrArg Host.Outcome.next ?_
  simp only [ha, h, Bool.false_eq_true, if_false]

theorem bootgo_refused {src : Nat} {v va : W64} {a : Agent} {st : Stop} (hm : masterOf src = some a)
    (hc : checkGranule s a .write 0x30000000808 8 = some st) : exec (.bootgo src ⟨v, va⟩) s = .next (deliverRefusal a .write va st s) := by
  refine congrArg Host.Outcome.next ?_
  simp only [hm, hc]

theorem bootgo_writes {src : Nat} {v va : W64} {a : Agent} (hm : masterOf src = some a)
    (hc : checkGranule s a .write 0x30000000808 8 = none) : exec (.bootgo src ⟨v, va⟩) s = .next (bootStep4 s) := by
  refine congrArg Host.Outcome.next ?_
  simp only [hm, hc]
  rfl

end

/-- Settles O54: each access of a core is the memory operation it names, a request of root firmware is responded once, and step 4 of the boot ends in a
release or in REJECT. -/
theorem rootEvents : Obligations.RootEvents := by
  intro s
  refine ⟨fun core pa n => ?_, fun d off m v hd hoff => ?_, fun blk cmd arg s1 ha hr => ?_, fun ha h => ?_, fun src v va a hm => ?_⟩
  · refine ⟨fun hc h op => core_idles hc h op, fun hc => ⟨fun b s1 hn hp hmm hl => ?_, fun v hn hal hp hmm => ?_, ?_, ?_, ?_⟩⟩
    · exact ⟨_, core_loads hc hn hp hmm hl, by
        simp only [State.coreGoes, State.answer, smFind_smSet]
        exact if_pos rfl, rfl⟩
    · exact core_stores hc hn hal hp hmm
    · exact core_runs hc .fenceRel
    · exact core_runs hc .fenceFull
    · exact core_runs hc .fenceAcq
  · have hk := seeHot_keeps d (maskedWrite d off m v s)
    refine ⟨_, plainReg_written hoff hd, ?_, hk.1, hk.2.1, fun e o he => ?_⟩
    · rw [seeHot_otherDie (.inr (plainReg_ne_hot hoff)), maskedWrite, reg_setReg_same]
    · rw [seeHot_otherDie (he.imp id And.right), maskedWrite, reg_setReg_of_ne (he.imp id And.left)]
  · refine ⟨?_, ?_, ?_⟩
    · rintro rfl
      obtain ⟨h1, h2, h3⟩ := rootAnswer_ends blk (report arg s1) { s1 with seq := s1.seq + 1 }
      exact ⟨_, rootReport_answers ha hr, h1, h2, h3⟩
    · rintro rfl
      obtain ⟨h1, h2, h3⟩ := rootAnswer_ends blk (certChain (meas s1 0).toNat) s1
      exact ⟨_, rootCertChain_answers ha hr, h1, h3, h2⟩
    · rintro rfl
      refine ⟨fun hl hh => ?_, fun hs => ?_⟩
      · obtain ⟨b, q, he⟩ := rootExtend_extends ha hr ⟨hl, hh⟩
        obtain ⟨h1, -, -⟩ := rootAnswer_ends blk b { extend (4 + (arg.getD 63 0).toNat % 4) arg s1 with seq := q }
        have hmeas : ∀ j, meas (rootAnswer blk b { extend (4 + (arg.getD 63 0).toNat % 4) arg s1 with seq := q }) j
            = meas (extend (4 + (arg.getD 63 0).toNat % 4) arg s1) j := meas_congr (rootAnswer_counted ..)
        exact ⟨_, he, h1, (hmeas _).trans (meas_extend_same ..), fun j hj => (hmeas j).trans (meas_extend_of_ne hj ..)⟩
      · obtain ⟨h1, -, h3⟩ := rootAnswer_ends blk rootRefuses s1
        exact ⟨_, rootExtend_refuses ha hr hs, h1, h3⟩
  · exact ⟨_, rootExtend_boots ha h, bootStep1_rootOk s, bootStep1_mem s⟩
  · refine ⟨fun hc => ⟨fun h => ?_, fun h0 h1 h2 => ?_⟩, fun st hc => bootgo_refused hm hc⟩
    · rw [bootgo_writes hm hc, bootStep4_idle h]
    · obtain ⟨hmem, hgo, hno⟩ := bootStep4_runs h0 h1 h2
      refine ⟨_, bootgo_writes hm hc, hmem, fun hst hi => ?_, fun hb => ?_⟩
      · obtain ⟨hreg, hme⟩ := hgo hst hi
        refine ⟨?_, ?_, hme⟩ <;> rw [hreg, BitVec.getLsbD_or]
        · simp
        · rw [h2]; decide
      · obtain ⟨hreg, hme⟩ := hno hb
        refine ⟨?_, ?_, hme⟩ <;> rw [hreg, BitVec.getLsbD_or]
        · simp
        · rw [h1]; decide

end Sys2Proof

/-! # Requests, trainings and vectors of the host ports (R458 to R466) -/

namespace Sys2Proof

open Machine

/-! ### Requests of the hosts (R458, R461, R166) -/

section
variable {port bar off pa len : Nat} {s s1 : State}

theorem unanswered_ends (s : State) (a : Agent) (how : Nat) : smGet 0 (s.unanswered a how).extEnd a.key = how
    ∧ s.unanswered a how = { s with extIn := (s.unanswered a how).extIn, extEnd := (s.unanswered a how).extEnd } := by
  refine ⟨?_, rfl⟩
  unfold State.unanswered
  rw [smGet_smPut, if_pos rfl]

theorem answer_ends (s : State) (a : Agent) (b : List Byte) :
    smGet 0 (s.answer a b).extEnd a.key = 0 ∧ smFind (s.answer a b).extIn a.key = some b := by
  unfold State.answer
  exact ⟨by rw [smGet_smPut, if_pos rfl], by rw [smFind_smSet, if_pos rfl]⟩

/-- Without a link a request is lost. -/
theorem host_unlinked (h : linkUp s port = false) (x : HostTarget) :
    (∀ len, exec (.hostRead port x off len) s = .next s) ∧ (∀ b, exec (.hostWrite port x off b) s = .next s)
      ∧ ∀ w o, exec (.hostAtomic port x off w o) s = .next s := by
  have hl : (!linkUp s port) = true := by rw [h]; rfl
  exact ⟨fun _ => congrArg Host.Outcome.next (if_pos hl), fun _ => congrArg Host.Outcome.next (if_pos hl),
    fun _ _ => congrArg Host.Outcome.next (if_pos hl)⟩

/-- A request that the port does not support completes so. -/
theorem host_unsupported (h : linkUp s port = true) {x : HostTarget} (hx : x.ext ≠ .plain) :
    (∀ len, exec (.hostRead port x off len) s = .next (s.unanswered (.host port) 1))
      ∧ (∀ b, exec (.hostWrite port x off b) s = .next (s.unanswered (.host port) 1))
      ∧ ∀ w o, exec (.hostAtomic port x off w o) s = .next (s.unanswered (.host port) 1) := by
  have hl : ¬ (!linkUp s port) = true := by rw [h]; decide
  exact ⟨fun _ => congrArg Host.Outcome.next ((if_neg hl).trans (if_pos hx)), fun _ => congrArg Host.Outcome.next ((if_neg hl).trans (if_pos hx)),
    fun _ _ => congrArg Host.Outcome.next ((if_neg hl).trans (if_pos hx))⟩

/-- No BAR but 0 and 2 yields an address. -/
theorem bar_of_barPa (h : barPa s port bar off = some pa) : bar ≠ 6 := by
  rintro rfl
  cases h

theorem host_reads {b : List Byte} (h : HostAt port bar off .read pa len s)
    (hl : physLoad (.host port) (hostPieces pa len) (s.fresh (.host port)) = (b, s1)) :
    exec (.hostRead port ⟨.plain, bar⟩ off len) s = .next (s1.answer (.host port) b) := by
  obtain ⟨hup, h4, hpa, hm, hc⟩ := h
  refine congrArg Host.Outcome.next ?_
  simp only [hup, Bool.not_true, Bool.false_eq_true, if_false, ne_eq, not_true_eq_false, h4, false_and, bar_of_barPa hpa, hpa, hc, hm,
    Option.isSome_none, hl]

/-- A request that stays in a granule of 64 bytes is one piece. -/
theorem hostPieces_one (h0 : len ≠ 0) (h : pa % 64 + len ≤ 64) : hostPieces pa len = [(pa, len)] := by
  have hm : min len (64 - pa % 64) = len := by omega
  unfold hostPieces
  simp only [granules64, h0, if_false, hm, Nat.sub_self, if_true]

theorem host_writes {b : List Byte} (h0 : b ≠ []) (hg : pa % 64 + b.length ≤ 64) (h : HostAt port bar off .write pa b.length s) :
    exec (.hostWrite port ⟨.plain, bar⟩ off b) s
      = .next (strongStore (.host port) .pkg false (canonPa (Agent.host port).die pa) b (release (.host port) .pkg s)) := by
  obtain ⟨hup, h4, hpa, hm, hc⟩ := h
  refine congrArg Host.Outcome.next ?_
  simp only [hup, Bool.not_true, Bool.false_eq_true, if_false, ne_eq, not_true_eq_false, h4, bar_of_barPa hpa, hpa, hc, hm,
    Option.isSome_none, hostPieces_one (mt List.length_eq_zero_iff.mp h0) hg, physStore, List.take_length]

theorem host_atomic {wide : Bool} {x : XAtom} {old : List Byte} (h : HostAt port bar off .atomic pa (if wide then 8 else 4) s)
    (ha : pa % (if wide then 8 else 4) = 0) (hx : XAtom.offered x = true)
    (hat : atomic (.host port) .pkg false (canonPa (Agent.host port).die pa) (if wide then 8 else 4) (XAtom.bytes x)
      (release (.host port) .pkg s) = (old, s1)) :
    exec (.hostAtomic port ⟨.plain, bar⟩ off wide x) s = .next (s1.answer (.host port) old) := by
  obtain ⟨hup, -, hpa, hm, hc⟩ := h
  refine congrArg Host.Outcome.next ?_
  simp only [hup, Bool.not_true, Bool.false_eq_true, if_false, ne_eq, not_true_eq_false, hpa, hx, hm, Option.isNone_none, ha, and_false, or_self,
    hc, physAtomic, hat]

theorem xatom_bytes_eq (x : XAtom) : (fun o => match x with | .amo op v => some (amoBytes op v o) | .cas c v => casBytes c v o) = XAtom.bytes x := by
  cases x <;> rfl

end

/-! ### Trainings of a port (R460, R462) -/

/-- What a port has negotiated. -/
def linkWord (sp wd : Nat) (cxl flit : Bool) : W64 := pack [(12, sp), (8, wd), (2, cxl.toNat), (1, flit.toNat), (0, 1)]

theorem linkWord_fields : ∀ (sp : Fin 7) (wd : Fin 9) (cxl flit : Bool), (linkWord sp wd cxl flit).getLsbD 0 = true
    ∧ (linkWord sp wd cxl flit).getLsbD 1 = flit ∧ (linkWord sp wd cxl flit).getLsbD 2 = cxl
    ∧ bits (linkWord sp wd cxl flit) 12 4 = sp ∧ bits (linkWord sp wd cxl flit) 8 4 = wd := by decide +kernel

theorem maxSpeed_bounds (w : W64) : 1 ≤ maxSpeed w ∧ maxSpeed w ≤ 6 ∧ (1 ≤ bits w 12 4 → bits w 12 4 ≤ 6 → maxSpeed w ≤ bits w 12 4) := by
  unfold maxSpeed
  dsimp only
  split <;> omega

/-- The speed that a training settles on. -/
def trainedSpeed (speed : BitVec 4) (w : W64) : Nat := if speed = 0 then maxSpeed w else min speed.toNat (maxSpeed w)

theorem trainedSpeed_bounds (speed : BitVec 4) (w : W64) : 1 ≤ trainedSpeed speed w ∧ trainedSpeed speed w ≤ maxSpeed w := by
  have hm := (maxSpeed_bounds w).1
  unfold trainedSpeed
  split
  · omega
  · next h =>
    have h0 : speed.toNat ≠ 0 := fun he => h (BitVec.eq_of_toNat_eq he)
    omega

/-- The width that a training settles on. -/
def trainedWidth (width : BitVec 4) : Nat := if [1, 2, 4, 8].contains width.toNat then width.toNat else 8

theorem trainedWidth_cases (width : BitVec 4) :
    trainedWidth width = 1 ∨ trainedWidth width = 2 ∨ trainedWidth width = 4 ∨ trainedWidth width = 8 := by
  unfold trainedWidth
  split
  · next h => simpa using h
  · exact .inr (.inr (.inr rfl))

section
variable {port : Nat} {up cxl : Bool} {speed width : BitVec 4} {s : State}

theorem training_down (hp : port < 2) (h : up = false ∨ (s.reg (2 * port) 0x8000).getLsbD 0 = false) :
    exec (.hostLinkTraining port up cxl speed width) s = .next (s.setReg (2 * port) 0x8008 0) := by
  refine congrArg Host.Outcome.next ((if_neg (by omega)).trans (if_pos ?_))
  obtain h | h := h
  · exact .inr (by rw [h]; rfl)
  · exact .inl (by rw [h]; rfl)

/-- Whether a training settles on flit mode. -/
def trainedFlit (speed : BitVec 4) (w : W64) (q : Nat) : Bool := decide (trainedSpeed speed w = 6) || Config.flitOffered q

theorem training_up (hp : port < 2) (hu : up = true) (h : (s.reg (2 * port) 0x8000).getLsbD 0 = true) :
    exec (.hostLinkTraining port up cxl speed width) s
      = .next (State.setReg { s with hcached := smSet s.hcached port ((s.reg (2 * port) 0x8000).getLsbD 3), seq := s.seq + 1 } (2 * port) 0x8008
        (linkWord (trainedSpeed speed (s.reg (2 * port) 0x8000)) (trainedWidth width) (cxl && (s.reg (2 * port) 0x8000).getLsbD 1)
          (trainedFlit speed (s.reg (2 * port) 0x8000) s.seq))) := by
  subst hu
  refine congrArg Host.Outcome.next ((if_neg (by omega)).trans ((if_neg ?_).trans rfl))
  rw [h]
  decide

end

/-! ### Vectors of a port (R466) -/

/-- The sum of the powers of two that a test selects. -/
def bitSum (p : Nat → Bool) (n : Nat) : Nat := (List.range n).foldl (fun a v => if p v then a + 2 ^ v else a) 0

theorem bitSum_succ (p : Nat → Bool) (n : Nat) : bitSum p (n + 1) = if p n then bitSum p n + 2 ^ n else bitSum p n := by
  rw [bitSum, List.range_succ, List.foldl_append]
  rfl

theorem bitSum_lt (p : Nat → Bool) (n : Nat) : bitSum p n < 2 ^ n := by
  induction n with
  | zero => exact Nat.one_pos
  | succ n ih =>
    rw [bitSum_succ, Nat.pow_succ]
    split <;> omega

theorem testBit_bitSum (p : Nat → Bool) {n i : Nat} (h : i < n) : (bitSum p n).testBit i = p i := by
  induction n with
  | zero => omega
  | succ n ih =>
    rw [bitSum_succ]
    obtain hi | rfl := Nat.lt_succ_iff_lt_or_eq.mp h
    · split
      · rw [Nat.add_comm, Nat.testBit_two_pow_add_gt hi, ih hi]
      · exact ih hi
    · have hz : (bitSum p i).testBit i = false := Nat.testBit_lt_two_pow (bitSum_lt p i)
      split
      · next hp => rw [Nat.add_comm, Nat.testBit_two_pow_add_eq, hz, hp]; rfl
      · next hp => rw [hz, Bool.eq_false_iff.mpr hp]

/-- Vectors of a port that are pending and not masked. -/
def sendable (s : State) (port v : Nat) : Bool := (smGet 0 s.msiPend port).getLsbD v && !msiMasked s port v

def sent (s : State) (port : Nat) : W64 := BitVec.ofNat 64 (bitSum (sendable s port) 64)

theorem sent_getLsbD {s : State} {port i : Nat} (h : i < 64) : (sent s port).getLsbD i = sendable s port i := by
  rw [sent, BitVec.getLsbD_ofNat, testBit_bitSum _ h, decide_eq_true h, Bool.true_and]

/-- Pending vectors that are not masked are sent. -/
theorem msiFlush_words (port : Nat) (s : State) : smGet 0 (msiFlush port s).msi port = smGet 0 s.msi port ||| sent s port
    ∧ smGet 0 (msiFlush port s).msiPend port = smGet 0 s.msiPend port &&& ~~~ sent s port := by
  have hf : msiFlush port s = if sent s port = 0 then s
      else { s with msi := smPut 0 s.msi port (smGet 0 s.msi port ||| sent s port), msiPend := smPut 0 s.msiPend port (smGet 0 s.msiPend port &&& ~~~ sent s port) } := rfl
  rw [hf]
  split
  · next h => rw [h]; exact ⟨BitVec.or_zero.symm, (BitVec.and_allOnes (x := smGet 0 s.msiPend port)).symm⟩
  · exact ⟨by rw [smGet_smPut, if_pos rfl], by rw [smGet_smPut, if_pos rfl]⟩

/-- A port with a vector pending. -/
def withVector (port k : Nat) (s : State) : State := { s with msiPend := smPut 0 s.msiPend port (smGet 0 s.msiPend port ||| BitVec.twoPow 64 k) }

theorem withVector_pend {port k i : Nat} {s : State} (h : i < 64) :
    (smGet 0 (withVector port k s).msiPend port).getLsbD i = ((smGet 0 s.msiPend port).getLsbD i || decide (i = k)) := by
  simp only [withVector, smGet_smPut, if_true, BitVec.getLsbD_or, BitVec.getLsbD_twoPow]
  congr 1
  rw [Bool.eq_iff_iff, Bool.and_eq_true, decide_eq_true_eq, decide_eq_true_eq, decide_eq_true_eq]
  omega

/-- What a vector that is raised leaves of each vector of its port. -/
theorem raiseMsi_bits {port k i : Nat} {s : State} (h : i < 64) :
    (smGet 0 (raiseMsi port k s).msi port).getLsbD i
        = ((smGet 0 s.msi port).getLsbD i || (((smGet 0 s.msiPend port).getLsbD i || decide (i = k)) && !msiMasked s port i))
      ∧ (smGet 0 (raiseMsi port k s).msiPend port).getLsbD i = (((smGet 0 s.msiPend port).getLsbD i || decide (i = k)) && msiMasked s port i) := by
  have hs : (sent (withVector port k s) port).getLsbD i = (((smGet 0 s.msiPend port).getLsbD i || decide (i = k)) && !msiMasked s port i) := by
    rw [sent_getLsbD h, sendable, withVector_pend h]
    rfl
  obtain ⟨hm, hp⟩ := msiFlush_words port (withVector port k s)
  change smGet 0 (raiseMsi port k s).msi port = _ at hm
  change smGet 0 (raiseMsi port k s).msiPend port = _ at hp
  rw [hm, hp, BitVec.getLsbD_or, BitVec.getLsbD_and, BitVec.getLsbD_not, hs, withVector_pend h, decide_eq_true h]
  refine ⟨rfl, ?_⟩
  cases (smGet 0 s.msiPend port).getLsbD i || decide (i = k) <;> cases msiMasked s port i <;> rfl

theorem bits_lt (w : W64) (lo n : Nat) : bits w lo n < 2 ^ n := Nat.mod_lt _ (Nat.two_pow_pos n)

/-- Settles O53: each request of a host is the strong access it stands for, and each event of a port changes the register it names. -/
theorem hostEvents : Obligations.HostEvents := by
  intro port bar off pa s
  refine ⟨fun h e => host_unlinked h _, fun h e he => ⟨_, (unanswered_ends s (.host port) 1).1, (unanswered_ends s (.host port) 1).2,
    host_unsupported h he⟩, fun len b s1 h hl => ?_, fun b h0 hg h => host_writes h0 hg h, fun wide x old s1 => ?_, fun a b => ⟨fun hp ha => ?_, fun hp => ?_⟩,
    fun hp up cxl speed width => ?_, fun hp v => ?_, ?_⟩
  · exact ⟨_, host_reads h hl, (answer_ends ..).1, (answer_ends ..).2, rfl, rfl⟩
  · intro n h ha hx hat
    have ho : XAtom.offered x = true := by
      obtain ⟨v, rfl⟩ | ⟨v, rfl⟩ | ⟨c, v, rfl⟩ := hx <;> rfl
    replace hat : atomic (.host port) .pkg false (canonPa (Agent.host port).die pa) n (XAtom.bytes x) (release (.host port) .pkg s) = (old, s1) := by
      rw [← hat, ← xatom_bytes_eq] <;> rfl
    exact ⟨_, host_atomic h ha ho hat, (answer_ends ..).2, rfl⟩
  · exact congrArg Host.Outcome.next (if_pos ⟨hp, ha⟩)
  · exact congrArg Host.Outcome.next (if_neg fun hh => by omega)
  · intro w
    by_cases h : up = false ∨ w.getLsbD 0 = false
    · refine ⟨_, training_down hp h, rfl, rfl, fun _ => reg_setReg_same .., fun hu hw => ?_⟩
      obtain h | h := h
      · rw [hu] at h; cases h
      · rw [hw] at h; cases h
    · have hu : up = true := Bool.eq_true_of_not_eq_false fun he => h (.inl he)
      have hw : w.getLsbD 0 = true := Bool.eq_true_of_not_eq_false fun he => h (.inr he)
      refine ⟨_, training_up hp hu hw, rfl, rfl, fun h' => absurd h' h, fun _ _ => ?_⟩
      obtain ⟨h1, hle⟩ := trainedSpeed_bounds speed w
      obtain ⟨-, h6, hmax⟩ := maxSpeed_bounds w
      have hwd := trainedWidth_cases width
      obtain ⟨f0, f1, f2, f12, f8⟩ := linkWord_fields ⟨trainedSpeed speed w, by omega⟩ ⟨trainedWidth width, by omega⟩ (cxl && w.getLsbD 1)
        (trainedFlit speed w s.seq)
      simp only [reg_setReg_same]
      refine ⟨f0, f2, by rw [f12]; exact h1, by rw [f12]; exact hle.trans h6, fun ha hb => by rw [f12]; exact hle.trans (hmax ha hb), fun h => ?_, ?_⟩
      · rw [f12] at h
        rw [f1, trainedFlit, decide_eq_true h, Bool.true_or]
      · rw [f8]
        exact hwd
  · intro k
    have hk : k < 64 := bits_lt v 0 6
    obtain ⟨m, q, he⟩ := raiseMsi_eq port k s
    refine ⟨raiseMsi port k s, congrArg Host.Outcome.next (if_pos hp), by rw [he], by rw [he], fun hm => ?_, fun hm => ?_, fun i hi h64 hor => ?_⟩
    · rw [(raiseMsi_bits hk).1, (raiseMsi_bits hk).2, hm]
      simp
    · rw [(raiseMsi_bits hk).1, (raiseMsi_bits hk).2, hm]
      simp
    · rw [(raiseMsi_bits h64).1, (raiseMsi_bits h64).2, decide_eq_false hi]
      obtain h | h := hor <;> simp only [h, Bool.or_false, Bool.false_and, Bool.and_false, Bool.not_true, Bool.and_true, and_self]
  · refine ⟨_, rfl, rfl, fun x => ?_⟩
    simp only [List.mem_filter, bne_iff_ne]

end Sys2Proof

/-! # The base of an access entry (R40, R46) -/

namespace Sys2Proof

open Machine

/-! ### The base of an access entry (R40, R46) -/

/-- Word 0 of a valid entry with bit 48 set, which is no bit of its BASE. -/
def wordWithBit48 : W64 := 0x8001000000000000

/-- The entry that stands after word 0 of entry 0 of target 0 of die 0 has been written with it. -/
theorem accessEntry_bit48 : (match exec (.accessEntryWrite 0 0 0 wordWithBit48) State.reset with
    | .next u => (smFind (u.die 0).acl 0).map (·.base)
    | _ => none) = some 0 := by decide +kernel

/-- Refutes O49: bits 51:48 of word 0 are reserved and kept as zero, so the entry's base is not bits 51:12 of the word as written. -/
theorem not_accessEvents : ¬ Obligations.AccessEvents := by
  intro h
  obtain ⟨hw, -⟩ := h 0 State.reset
  obtain ⟨u, hu, -, -, -, hentry, -⟩ := hw 0 0 wordWithBit48 (by decide) (by decide)
  have hbase := accessEntry_bit48
  rw [hu] at hbase
  have he : (smFind (u.die 0).acl 0).map (·.base) = some (bits wordWithBit48 12 40) := by
    rw [hentry (by decide)]
    rfl
  exact absurd (hbase.symm.trans he) (by decide)

end Sys2Proof

/-! # Requests for pots (R174, R336, R338) -/

namespace Sys2Proof

open Machine

/-! ### Retirement with a value in a register -/

theorem ac_of_acs {s t : State} (h : t.acs = s.acs) (n : Nat) : t.ac n = s.ac n := by rw [State.ac, State.ac, h]

theorem die_of_dies {s t : State} (h : t.dies = s.dies) (d : Nat) : t.die d = s.die d := by rw [State.die, State.die, h]

section
variable {n : Nat} {h : Head} {c : CC} {u : State} {d : BitVec 6} {v : W64}

/-- What a retirement leaves of a CC in which an instruction has put a value into sD. -/
theorem ccDone_of_setS (hcc : (u.ac n).cc = c.setS d v) :
    RegsBut [d] [] [] c ((ccDone n h u).ac n).cc ∧ (d ≠ 0 → ((ccDone n h u).ac n).cc.s d = v) := by
  have hd : ((ccDone n h u).ac n).cc = (c.setS d v).retire h .seq := by rw [ccDone_cc, hcc]
  rw [hd]
  refine ⟨(regsBut_setS c d v).trans (retire_regsBut ..).of_nil, fun h0 => ?_⟩
  rw [(retire_regsBut ..).s_eq, CC.setS_s, if_pos rfl, if_neg h0]

/-- A retirement changes the CC of its cluster alone. -/
theorem ccDone_ac (n : Nat) (h : Head) (u : State) (m : Nat) :
    (ccDone n h u).ac m = if m = n then { u.ac n with cc := (u.ac n).cc.retire h .seq } else u.ac m :=
  State.modAc_ac ..

/-- A retirement of an instruction that has run to its end. -/
theorem ccRun_retires {i : Instr} {f : Nat → M Flow} {s : State} (ha : CcActs n h s) (hf : f n s = .ok .seq u) :
    ccRun h i f s = .next (ccDone n h u) := ccRun_ok h i f n s u .seq ha.1 ha.2 hf

/-- A stall after accesses that change the state. -/
theorem ccRun_waits_after {i : Instr} {f : Nat → M Flow} {s : State} (ha : CcActs n h s) (hf : f n s = .error .wait u) :
    ∃ t, ccRun h i f s = .next t ∧ CcWaits n i u t := by
  refine ⟨_, ccRun_stop h i f n s u _ ha.1 ha.2 hf, ?_⟩
  simp only [ccStop, State.ringed]
  refine ⟨onlyCc_modCC .., ?_⟩
  simp only [State.modCC_ac, if_true]
  split
  · next w _ =>
    refine ⟨rfl, ?_⟩
    by_cases hw : w.instr = i <;> simp [hw]
  · exact ⟨rfl, rfl⟩

end

/-! ### Requests for pots (R336, R338) -/

section
variable {n : Nat} {h : Head} {s : State} {kind : PotKind} {desc src word : W64} {fab : Bool} {d : BitVec 6}

/-- The number that the next request of a cluster for a pot has. -/
def potNum (n : Nat) (s : State) : Nat := (s.ac n).ln.issueCount 7 + 1

/-- The launch of a cluster's task, or 0. -/
def launchOf (a : AC) : Nat := match a.cc.task with | some t => t.launch | none => 0

/-- The part of a cluster in a request for a pot. -/
def potPart (n : Nat) (word : W64) (s : State) : PotPart := ⟨n, potNum n s, launchOf (s.ac n), (s.ac n).cc.pc, word, [], 0, false⟩

def potReq (n : Nat) (kind : PotKind) (desc src word : W64) (fab : Bool) (s : State) : PotReq :=
  ⟨kind, desc, 0, none, src, fab, none, kind != .pour, false, [potPart n word s], 0⟩

/-- The cluster of a request that is queued. -/
def potNumbered (kind : PotKind) (d : BitVec 6) (k : Nat) (a : AC) : AC :=
  { a with
    ln := { a.ln with tlIssue := smSet a.ln.tlIssue 7 k }
    io := { a.io with pours := if kind = .pour then a.io.pours ++ [(k, launchOf a)] else a.io.pours }
    cc := a.cc.setS d (BitVec.ofNat 64 k) }

theorem queuePot_eq : queuePot n kind desc src word fab d s
    = (s.setAc n (potNumbered kind d (potNum n s) (s.ac n))).modDie (dieOf n) fun x => { x with potQ := x.potQ ++ [potReq n kind desc src word fab s] } := by
  simp only [queuePot, State.tlNumber, State.modAc, State.setAc_ac, if_true, setAc_setAc]
  rfl

theorem queuePot_ac (m : Nat) :
    (queuePot n kind desc src word fab d s).ac m = if m = n then potNumbered kind d (potNum n s) (s.ac n) else s.ac m := by
  rw [queuePot_eq, ac_of_acs (State.modDie_acs ..), State.setAc_ac]

theorem queuePot_die (e : Nat) : (queuePot n kind desc src word fab d s).die e
    = if e = dieOf n then { s.die (dieOf n) with potQ := (s.die (dieOf n)).potQ ++ [potReq n kind desc src word fab s] } else s.die e := by
  rw [queuePot_eq, State.modDie_die]
  simp only [die_of_dies (State.setAc_dies ..)]

/-- What a queued request leaves once its instruction has retired. -/
theorem potQueued_ends :
    ∃ t r x, t = ccDone n h (queuePot n kind desc src word fab d s) ∧ (t.die (dieOf n)).potQ = (s.die (dieOf n)).potQ ++ [r] ∧ r.kind = kind
      ∧ r.desc = desc ∧ r.src = src ∧ r.fab = fab ∧ r.parts = [x] ∧ x.ac = n ∧ x.num = potNum n s ∧ x.word = word ∧ x.pc = (s.ac n).cc.pc
      ∧ (t.ac n).ln.issueCount 7 = potNum n s ∧ (d ≠ 0 → (t.ac n).cc.s d = BitVec.ofNat 64 (potNum n s))
      ∧ SRegsBut [d] (s.ac n).cc (t.ac n).cc ∧ PredsBut [] (s.ac n).cc (t.ac n).cc ∧ SysBut [] (s.ac n).cc (t.ac n).cc
      ∧ t.mem = s.mem ∧ t.hist = s.hist ∧ (∀ m, m ≠ n → t.ac m = s.ac m) ∧ ∀ e, e ≠ dieOf n → t.die e = s.die e := by
  have hcc : ((queuePot n kind desc src word fab d s).ac n).cc = (s.ac n).cc.setS d (BitVec.ofNat 64 (potNum n s)) := by
    rw [queuePot_ac, if_pos rfl]
    rfl
  have hdies : (ccDone n h (queuePot n kind desc src word fab d s)).dies = (queuePot n kind desc src word fab d s).dies := State.modCC_dies ..
  obtain ⟨hr, hv⟩ := ccDone_of_setS (h := h) hcc
  refine ⟨_, potReq n kind desc src word fab s, potPart n word s, rfl, ?_, rfl, rfl, rfl, rfl, rfl, rfl, rfl, rfl, rfl, ?_, hv, hr.sregs, hr.preds, hr.sys,
    ?_, ?_, fun m hm => ?_, fun e he => ?_⟩
  · rw [die_of_dies hdies, queuePot_die, if_pos rfl]
  · rw [ccDone_ac, if_pos rfl, queuePot_ac, if_pos rfl]
    exact (smGet_smSet ..).trans (if_pos rfl)
  · rw [ccDone, State.modCC_mem, queuePot_eq, State.modDie_mem, State.setAc_mem]
  · rw [ccDone, State.modCC_hist, queuePot_eq, State.modDie_hist, State.setAc_hist]
  · rw [ccDone_ac, if_neg hm, queuePot_ac, if_neg hm]
  · rw [die_of_dies hdies, queuePot_die, if_neg he]

end

theorem descAddr_ok {v : W64} {s : State} (ha : v.toNat % 256 = 0) (hv : v.toNat < 2 ^ 55) : descAddr v s = .ok () s := by
  rw [descAddr, bindM_ok (need_true (by rw [beq_iff_eq]; exact ha))]
  exact addrRange_ok hv s

/-- What an instruction of legal operands does before it retires. -/
def potEffect (n : Nat) (s : State) (kind : PotKind) (fab : Bool) (d : BitVec 6) (desc src word : W64) : M Flow := do
  if kind = .pour then
    if 16 ≤ (s.ac n).io.pours.length then throw .wait
    relM (.ac n 0) (if fab then .fab else .pkg)
  act (queuePot n kind desc src word fab d)
  pure .seq

section
variable {n : Nat} {s : State} {i : Instr} {h : Head} {kind : PotKind} {fab : Bool} {d : BitVec 6} {desc src word : W64}

/-- An instruction of legal operands passes its checks. -/
theorem exec_pot_eq (ho : potOperands (s.ac n).cc i = some (h, kind, fab, d, desc, src, word)) :
    ∃ f, exec i s = ccRun h i f s ∧ f n s = potEffect n s kind fab d desc src word s := by
  cases i with
  | pour h' fab' d' a b x =>
    obtain ⟨⟨ha, hav, hb, hbv⟩, he⟩ := Option.ite_none_right_eq_some.mp ho
    cases he
    refine ⟨_, rfl, ?_⟩
    rw [get_bindM, bindM_ok (descAddr_ok ha hav), bindM_ok (need_true (by rw [beq_iff_eq]; exact hb)), bindM_ok (addrRange_ok hbv s)]
    rfl
  | pjoin h' d' a b =>
    obtain ⟨⟨ha, hav, hb⟩, he⟩ := Option.ite_none_right_eq_some.mp ho
    cases he
    refine ⟨_, rfl, ?_⟩
    rw [get_bindM, bindM_ok (descAddr_ok ha hav), bindM_ok (need_true (decide_eq_true hb))]
    rfl
  | pleave h' d' a b =>
    obtain ⟨⟨ha, hav, hb⟩, he⟩ := Option.ite_none_right_eq_some.mp ho
    cases he
    refine ⟨_, rfl, ?_⟩
    rw [get_bindM, bindM_ok (descAddr_ok ha hav), bindM_ok (need_true (decide_eq_true hb))]
    rfl
  | pclose h' d' a | pcloseRetire h' d' a =>
    obtain ⟨⟨ha, hav⟩, he⟩ := Option.ite_none_right_eq_some.mp ho
    cases he
    refine ⟨_, rfl, ?_⟩
    rw [get_bindM, bindM_ok (descAddr_ok ha hav)]
    rfl
  | _ => cases ho

end

/-- Settles O27: an instruction of legal operands numbers its request and queues it; a POUR releases first, and waits behind 16. -/
theorem potQueued : Obligations.PotQueued := by
  intro n s s1 i h kind fab d desc src word ho ha num sc
  obtain ⟨f, hx, hf⟩ := exec_pot_eq ho
  refine ⟨fun hk h16 => ?_, fun hq hs1 hset => ?_⟩
  · rw [hx]
    exact ccRun_waits ha (hf.trans (by rw [potEffect, if_pos hk, if_pos h16]; rfl))
  · have hrun : f n s = .ok .seq (queuePot n kind desc src word fab d s1) := by
      rw [hf, potEffect]
      by_cases hk : kind = .pour
      · rw [if_pos hk, if_neg (by have := hq.resolve_left (not_not_intro hk); omega)]
        rw [if_pos hk] at hs1
        subst hs1
        exact bindM_ok (relM_ok (hset hk))
      · rw [if_neg hk]
        rw [if_neg hk] at hs1
        subst hs1
        rfl
    have hcc : (s1.ac n).cc.pc = (s.ac n).cc.pc := by
      rw [hs1]
      split
      · rw [(memStep_release ..).ac]
      · rfl
    obtain ⟨t, r, x, ht, hends⟩ := potQueued_ends (n := n) (h := h) (s := s1) (kind := kind) (desc := desc) (src := src) (word := word) (fab := fab) (d := d)
    rw [hcc] at hends
    exact ⟨t, r, x, by rw [hx, ccRun_retires ha hrun, ht], hends⟩

end Sys2Proof

/-! # Waits on the records of copies and pots (R335, R337) -/

namespace Sys2Proof

open Machine

/-! ### Waits on a record (R335, R337) -/

/-- The tag of a record has been reached, as serial numbers of 32 bits go. -/
theorem tagReached_iff (w b : W64) :
    tagReached w b = true ↔ ((w.toNat / 2 ^ 32 : Int) - (b.toNat % 2 ^ 32 : Int)) % 2 ^ 32 < 2 ^ 31 := by
  have hw : (w.extractLsb' 32 32).toNat = w.toNat / 2 ^ 32 % 2 ^ 32 := by
    rw [BitVec.extractLsb'_toNat, Nat.shiftRight_eq_div_pow]
  have hb : (b.setWidth 32).toNat = b.toNat % 2 ^ 32 := BitVec.toNat_setWidth ..
  have hwl : w.toNat < 2 ^ 64 := w.isLt
  rw [tagReached, decide_eq_true_iff, BitVec.toNat_sub, hw, hb]
  generalize w.toNat = x at hwl ⊢
  generalize b.toNat = y
  norm_num
  omega

section
variable {n : Nat} {h : Head} {fab : Bool} {d a : BitVec 6} {b : Src} {s : State}

/-- The scope of an operation of a record. -/
def recordScope (fab : Bool) : Scope := if fab then .fab else .pkg

theorem exec_pwait_eq : ∃ f, exec (.pwait h fab d a b) s = ccRun h (.pwait h fab d a b) f s ∧ f n s = (do
    need (((s.ac n).cc.s a).toNat % 64 == 0) 0x02 ((s.ac n).cc.s a) 0
    addrRange ((s.ac n).cc.s a)
    let w ← strongRead (.ac n 0) (recordScope fab) ((s.ac n).cc.s a) 8
    if tagReached (le64 w) ((s.ac n).cc.src b) then
      act fun s => (acquire (.ac n 0) (recordScope fab) s).modCC n fun c => c.setS d (le64 w)
      pure .seq
    else throw .wait : M Flow) s := ⟨_, rfl, rfl⟩

theorem exec_pwait_read {w : List Byte} {s1 : State} (hal : ((s.ac n).cc.s a).toNat % 64 = 0) (hva : ((s.ac n).cc.s a).toNat < 2 ^ 55)
    (hr : strongRead (.ac n 0) (recordScope fab) ((s.ac n).cc.s a) 8 s = .ok w s1) :
    ∃ f, exec (.pwait h fab d a b) s = ccRun h (.pwait h fab d a b) f s
      ∧ (tagReached (le64 w) ((s.ac n).cc.src b) = true →
        f n s = .ok .seq ((acquire (.ac n 0) (recordScope fab) s1).modCC n fun c => c.setS d (le64 w)))
      ∧ (tagReached (le64 w) ((s.ac n).cc.src b) = false → f n s = .error .wait s1) := by
  obtain ⟨f, hx, hf⟩ := exec_pwait_eq (n := n) (h := h) (fab := fab) (d := d) (a := a) (b := b) (s := s)
  rw [bindM_ok (need_true (by rw [beq_iff_eq]; exact hal)), bindM_ok (addrRange_ok hva s), bindM_ok hr] at hf
  refine ⟨f, hx, fun ht => ?_, fun ht => ?_⟩
  · rw [hf, if_pos ht]; rfl
  · rw [hf, if_neg (by rw [ht]; decide)]; rfl

end

theorem pwaitDone_reruns (n : Nat) (h : Head) (fab : Bool) (d a : BitVec 6) (b : Src) :
    ∃ g, (∀ s0, exec (.pwaitDone n) s0 = rerun n g s0) ∧ g (.pwait h fab d a b) = some (exec (.pwait h fab d a b)) :=
  ⟨fun i => match i with | .pwait h f d a b => some (execPwait h f d a b) | _ => none, fun _ => rfl, rfl⟩

theorem potWait : rulePotWait := by
  intro n s s1 h fab d a b w ha sc va i
  refine ⟨fun hal => ?_, fun hal hva hr => ?_⟩
  · obtain ⟨f, hx, hf⟩ := exec_pwait_eq (n := n) (h := h) (fab := fab) (d := d) (a := a) (b := b) (s := s)
    rw [hx]
    exact ccRun_trap ha (hf.trans (bindM_error (need_false (by rw [beq_eq_false_iff_ne]; exact hal))))
  · obtain ⟨f, hx, hgo, hwait⟩ := exec_pwait_read (h := h) (d := d) (b := b) hal hva hr
    refine ⟨fun hreach => ?_, fun hreach => ?_⟩
    · refine ccEnds_of_rerun (pwaitDone_reruns ..) (hx.trans ?_)
      exact ccRun_retires ha (hgo ((tagReached_iff ..).mpr hreach))
    · obtain ⟨t, ht, hw⟩ := ccRun_waits_after ha (hwait (Bool.eq_false_iff.mpr (mt (tagReached_iff ..).mp hreach)))
      exact ⟨t, hx.trans ht, hw⟩

section
variable {n : Nat} {h : Head} {fab : Bool} {d a c : BitVec 6} {b : Src} {s s1 s2 : State} {bm st : List Byte}

/-- The chunk bits that CPYW awaits. -/
def awaited (n : Nat) (c : BitVec 6) (s : State) : Nat := ((s.ac n).cc.s c).toNat + ((s.ac n).cc.s (c + 1)).toNat * 2 ^ 64

theorem exec_cpyw_read (hva : ((s.ac n).cc.s a).toNat < 2 ^ 55) (hal : ((s.ac n).cc.s a).toNat % 16 = 0)
    (hb : strongRead (.ac n 0) (recordScope fab) ((s.ac n).cc.s a) 16 s = .ok bm s1)
    (ht : strongRead (.ac n 0) (recordScope fab) ((s.ac n).cc.s a + 16) 8 s1 = .ok st s2) :
    ∃ f, exec (.cpyw h fab d a b c) s = ccRun h (.cpyw h fab d a b c) f s ∧ f n s = (match cpywTest (awaited n c s) bm st with
      | some r => .ok .seq ((acquire (.ac n 0) (recordScope fab) s2).modCC n fun c => c.setS d (BitVec.ofNat 64 r))
      | none => if ((s.ac n).cc.src b).toNat ≤ s.waited n (.cpyw h fab d a b c) then .ok .seq (s2.modCC n fun c => c.setS d 0) else .error .wait s2) := by
  refine ⟨_, rfl, ?_⟩
  rw [get_bindM]
  refine (bindM_ok (x := addrChecks ((s.ac n).cc.s a) 16) (a := ()) (t := s) ?_).trans ((bindM_ok hb).trans ((bindM_ok ht).trans ?_))
  · rw [addrChecks, bindM_ok (addrRange_ok hva s)]
    exact need_true (by rw [beq_iff_eq]; exact hal)
  · change (match cpywTest (awaited n c s) bm st with
      | some r => (do act fun s => (acquire (.ac n 0) (recordScope fab) s).modCC n fun c => c.setS d (BitVec.ofNat 64 r); pure .seq : M Flow)
      | none => if decide (((s.ac n).cc.src b).toNat ≤ s.waited n (.cpyw h fab d a b c)) = true then (do act fun s => s.modCC n fun c => c.setS d 0; pure .seq)
        else throw Stop.wait) s2 = _
    cases cpywTest (awaited n c s) bm st with
    | some r => rfl
    | none =>
      by_cases hl : ((s.ac n).cc.src b).toNat ≤ s.waited n (.cpyw h fab d a b c)
      · rw [if_pos (decide_eq_true hl)]
        exact (act_bindM ..).trans (if_pos hl).symm
      · rw [if_neg (by rw [decide_eq_false hl]; decide)]
        exact (if_neg hl).symm

/-- What CPYW answers, as a number: 0 for a copy that is still to be waited for. -/
theorem cpywTest_getD (mask : Nat) (bm st : List Byte) : BitVec.ofNat 64 ((cpywTest mask bm st).getD 0)
    = if leNat bm &&& mask = mask then (1 : W64) else if leNat st / 2 ^ 60 = 2 then 2 else 0 := by
  unfold cpywTest
  split
  · rfl
  · split <;> rfl

/-- What CPYW leaves when it ends with a value. -/
theorem cpyw_retires {u : State} {v : W64} (hac : ∀ m, u.ac m = s2.ac m) :
    SRegsBut [d] (s2.ac n).cc ((ccDone n h (u.modCC n fun c => c.setS d v)).ac n).cc
      ∧ PredsBut [] (s2.ac n).cc ((ccDone n h (u.modCC n fun c => c.setS d v)).ac n).cc
      ∧ SysBut [] (s2.ac n).cc ((ccDone n h (u.modCC n fun c => c.setS d v)).ac n).cc
      ∧ (∀ m, m ≠ n → (ccDone n h (u.modCC n fun c => c.setS d v)).ac m = s2.ac m)
      ∧ (d ≠ 0 → ((ccDone n h (u.modCC n fun c => c.setS d v)).ac n).cc.s d = v) := by
  have hcc : ((u.modCC n fun c => c.setS d v).ac n).cc = (s2.ac n).cc.setS d v := by rw [State.modCC_ac, if_pos rfl, hac]
  obtain ⟨hr, hv⟩ := ccDone_of_setS (h := h) hcc
  exact ⟨hr.sregs, hr.preds, hr.sys, fun m hm => by rw [ccDone_ac, if_neg hm, State.modCC_ac, if_neg hm, hac], hv⟩

end

theorem cpywDone_reruns (n : Nat) (h : Head) (fab : Bool) (d a : BitVec 6) (b : Src) (c : BitVec 6) :
    ∃ g, (∀ s0, exec (.cpywDone n) s0 = rerun n g s0) ∧ g (.cpyw h fab d a b c) = some (exec (.cpyw h fab d a b c)) :=
  ⟨fun i => match i with | .cpyw h f d a b c => some (execCpyw h f d a b c) | _ => none, fun _ => rfl, rfl⟩

theorem cpywTimeout_reruns (n : Nat) (h : Head) (fab : Bool) (d a : BitVec 6) (b : Src) (c : BitVec 6) :
    ∃ g, (∀ s0, exec (.cpywTimeout n) s0 = rerun n g s0) ∧ g (.cpyw h fab d a b c) = some (exec (.cpyw h fab d a b c)) :=
  ⟨fun i => match i with | .cpyw h f d a b c => some (execCpyw h f d a b c) | _ => none, fun _ => rfl, rfl⟩

theorem copyWait : ruleCopyWait := by
  intro n s s1 s2 h fab d a b c bm st ha sc i va mask hva hal hb ht
  obtain ⟨f, hx, hf⟩ := exec_cpyw_read (h := h) (d := d) (b := b) (c := c) hva hal hb ht
  have hends : ∀ {t}, exec i s = .next t → CcEnds n i (.cpywDone n) s t ∧ CcEnds n i (.cpywTimeout n) s t := fun hx =>
    ⟨ccEnds_of_rerun (cpywDone_reruns ..) hx, ccEnds_of_rerun (cpywTimeout_reruns ..) hx⟩
  refine ⟨fun v hv hlate => ?_, fun hm hst hw => ?_⟩
  · change v = if leNat bm &&& awaited n c s = awaited n c s then 1 else if leNat st / 2 ^ 60 = 2 then 2 else 0 at hv
    rw [← cpywTest_getD] at hv
    cases htest : cpywTest (awaited n c s) bm st with
    | some r =>
      rw [htest] at hf hv
      obtain ⟨e1, e2⟩ := hends (hx.trans (ccRun_retires ha hf))
      obtain ⟨hs, hp, hr, hm, hd⟩ := cpyw_retires (n := n) (h := h) (d := d) (v := BitVec.ofNat 64 r) (memStep_acquire s2 (.ac n 0) sc).ac
      exact ⟨_, e1, e2, fun h0 => (hd h0).trans hv.symm, fun _ => (State.modCC_mem ..).trans (State.modCC_mem ..), hs, hp, hr, hm⟩
    | none =>
      rw [htest] at hf hv
      have h0 : ¬ v ≠ 0 := not_not_intro (by rw [hv]; rfl)
      have hr := hlate.resolve_left h0
      obtain ⟨e1, e2⟩ := hends (hx.trans (ccRun_retires ha (hf.trans (if_pos hr))))
      obtain ⟨hs, hp, hr, hm, hd⟩ := cpyw_retires (n := n) (h := h) (d := d) (v := (0 : W64)) (u := s2) fun _ => rfl
      exact ⟨_, e1, e2, fun hd0 => (hd hd0).trans hv.symm, fun hne => absurd hne h0, hs, hp, hr, hm⟩
  · have htest : cpywTest (awaited n c s) bm st = none := (if_neg hm).trans (if_neg hst)
    rw [htest] at hf
    obtain ⟨t, hgo, hwait⟩ := ccRun_waits_after (h := h) (i := i) ha (hf.trans (if_neg (by exact Nat.not_le.mpr hw)))
    exact ⟨t, hx.trans hgo, hwait⟩

/-- Settles O28: CPYW and PWAIT end with what their record answers, and wait before it answers. -/
theorem recordWaits : Obligations.RecordWaits := ⟨copyWait, potWait⟩

end Sys2Proof

/-! # The chunks of a copy (R160, R161, R334) -/

namespace Sys2Proof

open Machine

/-! ### Acquires change no byte -/

theorem foldl_mem {α : Type} {f : State → α → State} (hf : ∀ s x, (f s x).mem = s.mem) (l : List α) (s : State) : (l.foldl f s).mem = s.mem := by
  induction l generalizing s with
  | nil => rfl
  | cons x l ih => exact (ih _).trans (hf s x)

theorem moveHist_mem (h : SMap (List Version)) (s : State) : (moveHist h s).mem = s.mem := by
  unfold moveHist
  split <;> rfl

theorem joinQueue_mem (pa : Nat) (a : Agent) (id : Nat) (rels : List (Agent × Scope)) (s : State) : (joinQueue pa a id rels s).mem = s.mem := by
  unfold joinQueue
  split <;> rfl

theorem withHist_mem (h : SMap (List Version)) (s : State) : (withHist h s).mem = s.mem := by
  unfold withHist
  split
  · exact moveHist_mem h s
  · exact (foldl_mem (fun s (x : Nat × Agent × Nat × List (Agent × Scope)) => joinQueue_mem x.1 x.2.1 x.2.2.1 x.2.2.2 s) _ _).trans (moveHist_mem _ s)

theorem mergeLine_mem (owner line : Nat) (s : State) : (mergeLine owner line s).mem = s.mem := by
  unfold mergeLine
  dsimp only
  split
  · exact withHist_mem ..
  · rfl

theorem writeBack_mem (owner line : Nat) (s : State) : (s.writeBack owner line).mem = s.mem :=
  (foldl_mem (f := parkOne line) (fun _ _ => rfl) ((mergeLine owner line s).toPark owner line) _).trans (mergeLine_mem ..)

theorem hostLinesBack_mem (a : Agent) (sc : Scope) (s : State) : (hostLinesBack a sc s).mem = s.mem := by
  unfold hostLinesBack
  split
  · split
    · exact foldl_mem (fun s _ => foldl_mem (fun s _ => writeBack_mem ..) _ s) _ s
    · rfl
  · rfl

theorem acquire_mem (a : Agent) (sc : Scope) (s : State) : (acquire a sc s).mem = s.mem := by
  unfold acquire
  dsimp only
  rw [fresh_mem]
  split
  · exact hostLinesBack_mem a sc s
  · exact hostLinesBack_mem a sc s

/-! ### The chunks of a copy (R160, R161, R334) -/

section
variable {n k : Nat} {s : State} {c : Copy}

theorem setCopy_ac (m : Nat) : (s.setCopy n k c).ac m
    = if m = n then { s.ac n with io := { (s.ac n).io with copies := (s.ac n).io.copies.set k c } } else s.ac m := State.modAc_ac ..

/-- The state in which the bytes of a copy's next chunk have been released. -/
def chunkReleased (n : Nat) (c : Copy) (b : List Byte) (s : State) : State :=
  release (.ac n 6) .pkg ((pieceWrites (dieOf n) (c.tag n) noVa ((c.dstAt c.done).map fun p => (p.1, p.2, 3)) b).foldl (addStore (.ac n 6)) s)

theorem recordWord_memStep (n : Nat) (c : Copy) (i : Nat) (v : W64) (s : State) : MemStep s (recordWord n c i v s) := memStep_strongStore ..

theorem scope_pkg (h : c.fab = false) : c.scope = .pkg := by rw [Copy.scope, h]; rfl

/-- A chunk of this part that moves. -/
theorem copyChunk_moves {b : List Byte} {s1 : State} (hk : (s.ac n).io.copies[k]? = some c) (hc : c.cause = 0) (hfab : c.fab = false)
    (hdone : c.done < c.used) (hheld : copyHeld (dieOf n) ((s.ac n).io.copies.take k) c = false)
    (hsent : (s.fab.all fun x => x.item != .copy n c.num) = true) (hw : c.wrote = false) (hr : copyRefused s n c false = none)
    (hwr : copyRefused s n c true = none) (hb : copyRead n (c.srcAt c.done) s = (b, s1)) :
    exec (.copyChunkDone n k) s = .next (if !(chunkReleased n c b s1).settled .pkg (shares .quad (.ac n 6)) then
        (chunkReleased n c b s1).setCopy n k { c with wrote := true }
      else (recordWord n { c with done := c.done + 1 } (c.done / 64) (chunkWord (c.done + 1) (c.done / 64)) (chunkReleased n c b s1)).setCopy n k
        { c with done := c.done + 1 }) := by
  have hnone : (s.fab.filter fun x => x.item == .copy n c.num) = [] := by
    rw [List.filter_eq_nil_iff]
    intro x hx
    have := List.all_eq_true.mp hsent x hx
    rw [bne_iff_ne] at this
    rwa [beq_iff_eq]
  refine congrArg Host.Outcome.next ?_
  simp only [copyChunk, hk, hc, ne_eq, not_true_eq_false, Nat.not_le.mpr hdone, hheld, Bool.false_eq_true, or_self, if_false, hw, hnone,
    List.isEmpty_nil, Bool.not_true, hr, hfab, hwr, hb, chunkSet, scope_pkg hfab, Nat.add_sub_cancel]
  rfl

theorem chunkWord_next (d : Nat) : chunkWord (d + 1) (d / 64) = BitVec.ofNat 64 (2 ^ (d + 1 - 64 * (d / 64)) - 1) := by
  rw [chunkWord, Nat.min_eq_left (by omega)]

theorem dropSends_acs (s : State) (item : FabItem) : (s.dropSends item).acs = s.acs := rfl

theorem tlComplete_ac (s : State) (n ctx num : Nat) : ((s.tlComplete n ctx num).ac n).io = (s.ac n).io
    ∧ ((s.tlComplete n ctx num).ac n).cc = (s.ac n).cc ∧ (∀ m, m ≠ n → (s.tlComplete n ctx num).ac m = s.ac m)
    ∧ (num ≠ 0 → (ctx, num) ∈ ((s.tlComplete n ctx num).ac n).ln.tlDone) := by
  unfold State.tlComplete
  split
  · next h => exact ⟨rfl, rfl, fun _ _ => rfl, fun h0 => absurd h h0⟩
  · refine ⟨by rw [State.modAc_ac, if_pos rfl], by rw [State.modAc_ac, if_pos rfl], fun m hm => by rw [State.modAc_ac, if_neg hm], fun _ => ?_⟩
    rw [State.modAc_ac, if_pos rfl]
    dsimp only
    split
    · next h => exact List.contains_iff_mem.mp h
    · exact List.mem_append_right _ (List.mem_singleton_self _)

/-- What the completion of a copy writes into its record. -/
def copyRecorded (n : Nat) (c : Copy) (s : State) : State :=
  recordWord n c 2 (pack [(60, if c.cause = 0 then 1 else 2), (52, c.cause)]) (recordWord n c 3 (BitVec.ofNat 64 c.num)
    (if c.cause = 0 then recordWord n c 1 (BitVec.allOnes 64) (recordWord n c 0 (BitVec.allOnes 64) s)
      else recordWord n c 5 c.acc1 (recordWord n c 4 c.acc0 s)))

theorem copyRecorded_memStep (n : Nat) (c : Copy) (s : State) : MemStep s (copyRecorded n c s) :=
  .trans (memStep_ite (.trans (recordWord_memStep ..) (recordWord_memStep ..)) (.trans (recordWord_memStep ..) (recordWord_memStep ..)))
    (.trans (recordWord_memStep ..) (recordWord_memStep ..))

theorem copyFinish_ends (hk : (s.ac n).io.copies[k]? = some c) (he : c.cause ≠ 0 ∨ c.used ≤ c.done)
    (hs : (release (.ac n 6) c.scope s).settled c.scope (shares .quad (.ac n 6)) = true) :
    exec (.copyComplete n k) s = .next ((State.modAc ((copyRecorded n c (release (.ac n 6) c.scope s)).dropSends (.copy n c.num)) n fun a =>
      { a with io := { a.io with copies := a.io.copies.eraseIdx k } }).tlComplete n 5 c.num) := by
  refine congrArg Host.Outcome.next ?_
  have hgo : ¬ (c.cause = 0 ∧ c.done < c.used) := fun h => he.elim (fun hc => hc h.1) fun hd => absurd h.2 (Nat.not_lt.mpr hd)
  simp only [copyFinish, hk, hgo, if_false, hs, Bool.not_true, Bool.false_eq_true]
  rfl

end

/-- Settles O26: a chunk is written, released and then has its bit set; the last completes the copy. -/
theorem copyMoves : Obligations.CopyMoves := by
  intro n k s c hk
  refine ⟨?_, ?_⟩
  · intro hc hfab hdone hheld hsent hw hr hwr b s1 hb s2 w v sent
    have hx := copyChunk_moves hk hc hfab hdone hheld hsent hw hr hwr hb
    refine ⟨fun hs => ?_, fun hs => ?_⟩
    · rw [hx]
      exact congrArg Host.Outcome.next (if_pos (by change (!sent) = true; rw [hs]; rfl))
    · refine ⟨_, hx.trans (congrArg Host.Outcome.next (if_neg (by change ¬ (!sent) = true; rw [hs]; decide))), ?_, ?_, fun m hm => ?_⟩
      · rw [State.setCopy, State.modAc_mem, chunkWord_next, recordWord, scope_pkg (c := { c with done := c.done + 1 }) hfab]
        rfl
      · rw [setCopy_ac, if_pos rfl, (recordWord_memStep ..).ac]
        rfl
      · rw [setCopy_ac, if_neg hm, (recordWord_memStep ..).ac]
        rfl
  · intro he sc hset
    have hsc : sc = c.scope := rfl
    rw [hsc] at hset
    have hac : ∀ m, ((copyRecorded n c (release (.ac n 6) c.scope s)).dropSends (.copy n c.num)).ac m = s.ac m := fun m =>
      (ac_of_acs (dropSends_acs ..) m).trans (((memStep_release s (.ac n 6) c.scope).trans (copyRecorded_memStep ..)).ac m)
    obtain ⟨hio, hcc, hm, hdone⟩ := tlComplete_ac (State.modAc ((copyRecorded n c (release (.ac n 6) c.scope s)).dropSends (.copy n c.num)) n fun a =>
      { a with io := { a.io with copies := a.io.copies.eraseIdx k } }) n 5 c.num
    refine ⟨_, copyFinish_ends hk he hset, ?_, ?_, fun m hmn => ?_, hdone⟩
    · rw [hio, State.modAc_ac, if_pos rfl, hac]
    · rw [hcc, State.modAc_ac, if_pos rfl, hac]
    · rw [hm m hmn, State.modAc_ac, if_neg hmn, hac]

end Sys2Proof

/-! # The issue of a copy (R332, R333) -/

namespace Sys2Proof

open Machine

/-! ### The issue of a copy (R332, R333) -/

theorem forM_needs_ok {α : Type} {b : α → Bool} {cause : Nat} {i0 i1 : α → W64} {s : State} {l : List α} (h : ∀ x ∈ l, b x = true) :
    (l.forM fun x => need (b x) cause (i0 x) (i1 x)) s = .ok ⟨⟩ s := by
  induction l with
  | nil => rfl
  | cons x l ih =>
    refine (bindM_ok (need_true (h x List.mem_cons_self))).trans ?_
    exact ih fun y hy => h y (List.mem_cons_of_mem _ hy)

theorem rowsInRange_ok {base stride : W64} {rows len : Nat} {s : State}
    (h : ∀ j, j < rows → (rowVa base stride j).toNat + len ≤ 2 ^ 55) : rowsInRange base stride rows len s = .ok () s :=
  forM_needs_ok (i1 := fun _ => 0) fun j hj => decide_eq_true (h j (List.mem_range.mp hj))

section
variable (n : Nat) (fab : Bool) (d : BitVec 6) (x : CopyArgs) (ps : List (List (Nat × Nat))) (s : State)

/-- Addresses of the rows of a copy's source and destination. -/
def copySrcs : List Nat := (List.range x.rows).map fun j => (rowVa x.src x.srcr j).toNat
def copyDsts : List Nat := (List.range x.rows).map fun j => (rowVa x.dst x.dstr j).toNat

/-- Physical pieces of a copy's source, destination and record, from what its probe has found. -/
def copySrcPieces : List (Nat × Nat) := (ps.take x.rows).flatMap id
def copyDstPieces : List (Nat × Nat) :=
  if fab then (copyDsts x).map fun v => (v % 2 ^ 52, x.rowb) else ((ps.drop x.rows).take x.rows).flatMap id
def copyRecPa : Nat := canonPa (dieOf n) ((ps.getLastD []).headD (0, 64)).1

/-- The zeros of a completion record. -/
def recordZeroed : State :=
  strongStore (.ac n 6) (recordScope fab) false (copyRecPa n ps) (List.replicate 64 0) (release (.ac n 6) (recordScope fab) s)

/-- The copy that is issued under a number. -/
def newCopy (k launch : Nat) : Copy :=
  ⟨k, fab, x.rowb * x.rows, copySrcPieces x ps, copyDstPieces fab x ps,
    (copySrcs x).map (fun v => (v, x.rowb)) ++ (if fab then [] else (copyDsts x).map fun v => (v, x.rowb)) ++ [(x.recd.toNat, 64)], copyRecPa n ps, 0, false, 0, 0, 0,
    launch⟩

/-- A copy joins the queue of its cluster under a number. -/
def copyJoins (k : Nat) (c : Copy) : State :=
  s.modAc n fun m => { m with
    io := { m.io with copies := m.io.copies ++ [c] }
    ln := { m.ln with farCp := if fab then m.ln.farCp ++ [k] else m.ln.farCp }
    cc := m.cc.setS d (BitVec.ofNat 64 k) }

/-- The state in which a copy has been numbered, its record zeroed and its context has acquired. -/
def copyNumbered : State := acquire (.ac n 6) (recordScope fab) ((recordZeroed n fab ps s).tlNumber n 5).2

/-- A copy has been issued. -/
def copyIssued : State :=
  let (k, t) := (recordZeroed n fab ps s).tlNumber n 5
  copyJoins n fab d (acquire (.ac n 6) (recordScope fab) t) k (newCopy n fab x ps k (launchOf (t.ac n)))

end

section
variable {n : Nat} {fab : Bool} {d : BitVec 6} {x : CopyArgs} {ps : List (List (Nat × Nat))} {s s2 : State} {h : Head} {i : Instr}

theorem recordZeroed_memStep : MemStep s (recordZeroed n fab ps s) := (memStep_release ..).trans (memStep_strongStore ..)

theorem copyIssued_eq : copyIssued n fab d x ps s = copyJoins n fab d (copyNumbered n fab ps s) ((recordZeroed n fab ps s).tlNumber n 5).1
    (newCopy n fab x ps ((recordZeroed n fab ps s).tlNumber n 5).1 (launchOf (((recordZeroed n fab ps s).tlNumber n 5).2.ac n))) := rfl

theorem tlNumber_fst (s : State) (n ctx : Nat) : (s.tlNumber n ctx).1 = (s.ac n).ln.issueCount ctx + 1 := rfl

theorem tlNumber_ac (s : State) (n ctx m : Nat) : (s.tlNumber n ctx).2.ac m
    = if m = n then { s.ac n with ln := { (s.ac n).ln with tlIssue := smSet (s.ac n).ln.tlIssue ctx ((s.ac n).ln.issueCount ctx + 1) } } else s.ac m :=
  State.modAc_ac ..

theorem tlNumber_dies (s : State) (n ctx : Nat) : (s.tlNumber n ctx).2.dies = s.dies := rfl

theorem tlNumber_mem (s : State) (n ctx : Nat) : (s.tlNumber n ctx).2.mem = s.mem := rfl

theorem copyNumbered_ac (m : Nat) : (copyNumbered n fab ps s).ac m
    = if m = n then { s.ac n with ln := { (s.ac n).ln with tlIssue := smSet (s.ac n).ln.tlIssue 5 ((s.ac n).ln.issueCount 5 + 1) } } else s.ac m := by
  rw [copyNumbered, (memStep_acquire ..).ac, tlNumber_ac, recordZeroed_memStep.ac, recordZeroed_memStep.ac]

theorem copyNumbered_dies : (copyNumbered n fab ps s).dies = (recordZeroed n fab ps s).dies :=
  (memStep_acquire ..).dies.trans (tlNumber_dies ..)

theorem copyNumbered_mem : (copyNumbered n fab ps s).mem = (recordZeroed n fab ps s).mem :=
  (acquire_mem ..).trans (tlNumber_mem ..)

/-- The probe of a copy translates the ranges of its rows and of its record. -/
theorem copyRanges_eq : (copySrcs x).map (fun v => (AKind.read, v, x.rowb)) ++ (if fab then [] else (copyDsts x).map fun v => (AKind.write, v, x.rowb))
    ++ [(AKind.write, x.recd.toNat, 64)] = copyRanges fab x := by
  unfold copyRanges copySrcs copyDsts
  cases fab <;> simp only [List.map_map, Bool.false_eq_true, if_false, if_true] <;> rfl

/-- The rows of a copy stay within the addresses. -/
theorem copy_rows_fit (hr : ∀ r ∈ copyRanges fab x, r.2.1 + r.2.2 ≤ 2 ^ 55) :
    (∀ j, j < x.rows → (rowVa x.src x.srcr j).toNat + x.rowb ≤ 2 ^ 55)
      ∧ (fab = false → ∀ j, j < x.rows → (rowVa x.dst x.dstr j).toNat + x.rowb ≤ 2 ^ 55) := by
  refine ⟨fun j hj => ?_, fun hf j hj => ?_⟩
  · exact hr (.read, (rowVa x.src x.srcr j).toNat, x.rowb)
      (List.mem_append_left _ (List.mem_append_left _ (List.mem_map.mpr ⟨j, List.mem_range.mpr hj, rfl⟩)))
  · refine hr (.write, (rowVa x.dst x.dstr j).toNat, x.rowb) (List.mem_append_left _ (List.mem_append_right _ ?_))
    rw [hf, if_neg (by decide)]
    exact List.mem_map.mpr ⟨j, List.mem_range.mpr hj, rfl⟩

theorem probing_ok {α : Type} {a : α} {who : Agent} {m : M α} {t : State} (hm : m s = .ok a t) : probing n who m s = .ok a t := by
  simp only [probing, hm]

/-- A step that is done under a condition, with what follows it. -/
theorem bindM_ite {α : Type} {p : Prop} [Decidable p] {m : M Unit} {f : Unit → M α} {t : State} (h : (if p then m else pure ()) s = .ok () t) :
    (if p then m >>= f else f ()) s = f () t := by
  split
  · next hp => exact bindM_ok (by rwa [if_pos hp] at h)
  · next hp =>
    rw [if_neg hp] at h
    cases h
    rfl

theorem issueCopy_ok (hq : (s.ac n).io.copies.length < 16) (hset : Settled n (recordScope fab) (release (.ac n 0) (recordScope fab) s))
    (hrec : x.recd.toNat < 2 ^ 55) (hsrc : x.src.toNat < 2 ^ 55) (hdst : fab = false → x.dst.toNat < 2 ^ 55)
    (hr : ∀ r ∈ copyRanges fab x, r.2.1 + r.2.2 ≤ 2 ^ 55)
    (hp : probeRanges (.ac n 6) (copyRanges fab x) (release (.ac n 0) (recordScope fab) s) = .ok ps s2)
    (hov : fab = false → sharesStorage (dieOf n) ((ps.take x.rows).flatMap id) (((ps.drop x.rows).take x.rows).flatMap id) = false) :
    issueCopy n fab d x s = .ok () (copyIssued n fab d x ps s2) := by
  obtain ⟨hrs, hrd⟩ := copy_rows_fit hr
  rw [← copyRanges_eq] at hp
  have hneed : (fab || !sharesStorage (dieOf n) (copySrcPieces x ps) (copyDstPieces fab x ps)) = true := by
    cases fab with
    | false => exact congrArg not (hov rfl)
    | true => rfl
  unfold issueCopy
  refine (bindM_ok (addrRange_ok hsrc s)).trans ((bindM_ok (addrRange_ok hrec s)).trans ?_)
  have hdo : (if (!fab) = true then addrRange x.dst else pure ()) s = .ok () s := by
    cases fab with
    | false => exact addrRange_ok (hdst rfl) s
    | true => rfl
  have hdr : (if (!fab) = true then rowsInRange x.dst x.dstr x.rows x.rowb else pure ()) s = .ok () s := by
    cases fab with
    | false => exact rowsInRange_ok (hrd rfl)
    | true => rfl
  refine (bindM_ite hdo).trans ((bindM_ok (rowsInRange_ok hrs)).trans ((bindM_ite hdr).trans ((get_bindM _).trans ?_)))
  rw [if_neg (Nat.not_le.mpr hq)]
  refine (bindM_ok (relM_ok hset)).trans ((bindM_ok (probing_ok hp)).trans ((bindM_ok (need_true hneed)).trans ((act_run ..).trans ?_)))
  unfold copyIssued recordZeroed newCopy copyRecPa launchOf recordScope
  generalize strongStore _ _ _ _ _ _ = z
  generalize canonPa _ _ = p
  rfl

/-- A CPY or CPYT of legal operands passes its checks. -/
theorem exec_copy_eq (ho : copyOperands (s.ac n).cc i = some (h, fab, d, x)) :
    ∃ f, exec i s = ccRun h i f s ∧ f n s = (do issueCopy n fab d x; pure .seq : M Flow) s := by
  cases i with
  | cpy h' fab' d' a =>
    obtain ⟨⟨h0, h1, h2, h3, hlo, hhi⟩, he⟩ := Option.ite_none_right_eq_some.mp ho
    cases he
    refine ⟨_, rfl, (get_bindM _).trans ((bindM_ok (forM_needs_ok (i1 := fun _ => 0) fun v hv => ?_)).trans (bindM_ok (need_true ?_)))⟩
    · simp only [List.mem_cons, List.not_mem_nil, or_false] at hv
      obtain rfl | rfl | rfl := hv <;> simpa only [beq_iff_eq]
    · simp only [h3, beq_self_eq_true, hlo, hhi, and_self, decide_true, Bool.and_self]
  | cpyt h' fab' d' a =>
    obtain ⟨⟨h0, h1, h2, h4, h5, hr1, hr2, hb, hb1, hb2, hst⟩, he⟩ := Option.ite_none_right_eq_some.mp ho
    cases he
    refine ⟨_, rfl, (get_bindM _).trans ((bindM_ok (forM_needs_ok (i1 := fun _ => 0) fun v hv => ?_)).trans ((bindM_ok (need_true
      (decide_eq_true ⟨hr1, hr2, hb, hb1, hb2⟩))).trans ((bindM_ok (need_true ?_)).trans ((bindM_ok (need_true ?_)).trans (bindM_ok (need_true (decide_eq_true hst)))))))⟩
    · simp only [List.mem_cons, List.not_mem_nil, or_false] at hv
      obtain rfl | rfl | rfl := hv <;> simpa only [beq_iff_eq]
    · rw [beq_iff_eq]; exact h4
    · rw [beq_iff_eq]; exact h5
  | _ => cases ho

end

/-- Settles O25: past its checks and its probe, a copy zeroes its record, takes its number and joins the queue. -/
theorem copyStarts : Obligations.CopyStarts := by
  intro n s s2 i h fab d x ps ho ha hq sc hset hrec hsrc hdst hr hp hov num
  obtain ⟨f, hx, hf⟩ := exec_copy_eq ho
  have hrun : f n s = .ok .seq (copyIssued n fab d x ps s2) := hf.trans ((bindM_ok (issueCopy_ok hq hset hrec hsrc hdst hr hp hov)).trans rfl)
  have hz : (recordZeroed n fab ps s2).ac n = s2.ac n := recordZeroed_memStep.ac n
  have hnum : ((recordZeroed n fab ps s2).tlNumber n 5).1 = num := by rw [tlNumber_fst, hz]
  have hac : ∀ m, (copyIssued n fab d x ps s2).ac m = if m = n then
      { (copyNumbered n fab ps s2).ac n with
        io := { ((copyNumbered n fab ps s2).ac n).io with copies := ((copyNumbered n fab ps s2).ac n).io.copies
          ++ [newCopy n fab x ps ((recordZeroed n fab ps s2).tlNumber n 5).1 (launchOf (((recordZeroed n fab ps s2).tlNumber n 5).2.ac n))] }
        ln := { ((copyNumbered n fab ps s2).ac n).ln with farCp := if fab then ((copyNumbered n fab ps s2).ac n).ln.farCp
          ++ [((recordZeroed n fab ps s2).tlNumber n 5).1] else ((copyNumbered n fab ps s2).ac n).ln.farCp }
        cc := ((copyNumbered n fab ps s2).ac n).cc.setS d (BitVec.ofNat 64 ((recordZeroed n fab ps s2).tlNumber n 5).1) }
      else (copyNumbered n fab ps s2).ac m := fun m => State.modAc_ac ..
  have hcc : ((copyIssued n fab d x ps s2).ac n).cc = (s2.ac n).cc.setS d (BitVec.ofNat 64 num) := by
    rw [hac, if_pos rfl, hnum, copyNumbered_ac, if_pos rfl]
  obtain ⟨hregs, hv⟩ := ccDone_of_setS (h := h) hcc
  refine ⟨_, newCopy n fab x ps ((recordZeroed n fab ps s2).tlNumber n 5).1 (launchOf (((recordZeroed n fab ps s2).tlNumber n 5).2.ac n)),
    hx.trans (ccRun_retires ha hrun), ?_, hnum, rfl, rfl, rfl, rfl, rfl, ?_, hv, hregs.sregs, hregs.preds, fun m hm => ?_, ?_, ?_⟩
  · rw [ccDone_ac, if_pos rfl, hac, if_pos rfl, copyNumbered_ac, if_pos rfl]
  · rw [ccDone_ac, if_pos rfl, hac, if_pos rfl, copyNumbered_ac, if_pos rfl]
    exact (smGet_smSet ..).trans (if_pos rfl)
  · rw [ccDone_ac, if_neg hm, hac, if_neg hm, copyNumbered_ac, if_neg hm]
  · rw [ccDone, State.modCC_dies, copyIssued_eq, copyJoins, State.modAc_dies, copyNumbered_dies]
    rfl
  · rw [ccDone, State.modCC_mem, copyIssued_eq, copyJoins, State.modAc_mem, copyNumbered_mem]
    rfl

end Sys2Proof

/-! # The control instructions of engines (R271, R352 to R360) -/

namespace Sys2Proof

open Machine

/-! ### A stage predicate that is false (R271) -/

section
variable {n : Nat} {e : Eid} {h : Head} {i : Instr} {s : State}

theorem engRunN_off {k gv : Nat} {chk : Nat → Eid → M Unit} {f : Nat → Eid → M EFlow} (hc : s.cur = engAgent n e)
    (ho : stageOff h (s.ac n) = true) : engRunN h i k gv chk f s = .next (engRetire n e h .seq s) := by
  have hcur : s.curEng = some (n, e) := by
    unfold State.curEng
    rw [hc]
    show (eidOf (eidCode e)).map _ = _
    rw [eidOf_eidCode]
    rfl
  unfold engRunN
  rw [hcur]
  simp only [ho, if_true]

theorem memRun_off {chk f : Nat → Nat → M Unit} (hc : s.cur = engAgent n e) (ho : stageOff h (s.ac n) = true) :
    memRun h i chk f s = .next (engRetire n e h .seq s) := by
  unfold memRun
  split
  · next m hm =>
    rw [hc] at hm
    exact absurd (Agent.ac.inj hm).2 (eidCode_ne_zero e)
  · exact engRunN_off hc ho

end

/-- An instruction under a stage predicate runs by the rules of its engine, of a result of VA, or of the unit that accesses memory (R271). -/
theorem exec_staged {i : Instr} {h : Head} (s : State) (hi : stagedHead i = some h) :
    (∃ chk f, exec i s = memRun h i chk f s) ∨ (∃ chk f, exec i s = engRun h i chk f s) ∨ (∃ lat m chk f, exec i s = vaRun h i lat m chk f s)
      ∨ ∃ k, i = .etok h k := by
  cases i
  case ld | st | lds | sts | amo | cas | phase | fence =>
    cases hi; dsimp only [exec]; exact .inl ⟨_, _, rfl⟩
  case etake | ebr | eloop | eloopAdd | eend | enop | gput | eret | vshape | vrot | vloopp =>
    cases hi; dsimp only [exec]; exact .inr (.inl ⟨_, _, rfl⟩)
  case etok k => cases hi; exact .inr (.inr (.inr ⟨k, rfl⟩))
  case vadd | vsub | vmul | vfma | vfms | vmin | vmax | vabs | vneg | vcmp | vsel | vcvt | vsfu | vred | vscan | vsort | vsegr | vperm | vbcast | vmov
      | vmovX | viota | viadd | visub | vimul | vilog | vish | vimm | vmask | vpcode | vbexp | vqnt | vdqnt =>
    cases hi; dsimp only [exec, execVbcast, execVilog]; exact .inr (.inr (.inl ⟨_, _, _, _, rfl⟩))
  all_goals cases hi

theorem stageFalse : ruleStageFalse := by
  intro n s i h hi hc ho
  obtain ⟨chk, f, hx⟩ | ⟨chk, f, hx⟩ | ⟨lat, m, chk, f, hx⟩ | ⟨k, rfl⟩ := exec_staged s hi
  · rw [hx]; exact memRun_off hc ho
  · rw [hx]; exact engRunN_off hc ho
  · rw [hx]; exact engRunN_off hc ho
  · show execEtok h k s = _
    exact engRunN_off hc ho

/-! ### The control instructions of engines (R353 to R360) -/

section
variable {n : Nat} {e : Eid} {h : Head} {i : Instr} {s s1 t : State}

theorem engRun_done {f : Nat → Eid → M EFlow} {fl : EFlow} (ha : EngActs n e h 1 s s1) (hg : GiveFree n e h s) (hf : f n e s1 = .ok fl t) :
    engRun h i noCheck f s = .next (engGive n e (Head.give h) 1 (engRetire n e h fl t)) := engRunN_ok ha hg rfl hf

theorem engRun_stop {f : Nat → Eid → M EFlow} {st : Stop} (ha : EngActs n e h 1 s s1) (hg : GiveFree n e h s) (hf : f n e s1 = .error st t) :
    engRun h i noCheck f s = .next (engStop n e i st t) := engRunN_stop ha hg rfl hf

theorem engCond_eq (c : ECond) (x : Eng) (u v : W64) : engCond c x u v = ebrHolds c x u v := by
  cases c <;> simp only [engCond, ebrHolds] <;> grind [BitVec.slt, BitVec.ult, BitVec.toNat_inj]

theorem exec_ebr (ha : EngActs n e h 1 s s1) (hg : GiveFree n e h s) (c : ECond) (a b : Src) (off : BitVec 32) :
    exec (.ebr h c a b off) s = .next (if ebrHolds c ((s1.ac n).eng e) (((s1.ac n).eng e).src a) (((s1.ac n).eng e).src b)
      then engGive n e (Head.give h) 1 (engRetire n e h (.jump (((s1.ac n).eng e).upc + BitVec.ofInt 64 (4 * off.toInt))) (s1.modAc n (squash e s1.cycle)))
      else engDone n e h 1 s1) := by
  show execEbr h c a b off s = _
  have hoff : (off.signExtend 64 * 4 : W64) = BitVec.ofInt 64 (4 * off.toInt) := by
    rw [BitVec.signExtend, BitVec.ofInt_mul, mul_comm]; rfl
  rw [← engCond_eq, ← hoff, apply_ite Host.Outcome.next]
  split
  · next hc => exact engRun_done ha hg (by simp only [get_bindM, hc, if_true]; rfl)
  · next hc => exact engRun_done ha hg (by simp only [get_bindM, hc]; rfl)

/-- A loop on level 0 of VA while a VLOOPP holds it (R371). -/
def loopBusy (e : Eid) (k : Bool) (a : AC) : Prop := k = false ∧ e = .va ∧ bits (a.cc.sr 0x043) 8 4 ≠ 0

theorem loopFree_iff {a : AC} {k : Bool} : (k || !vloopActive e a) = true ↔ ¬loopBusy e k a := by
  cases k <;> cases e <;> simp [vloopActive, loopBusy]

theorem exec_eloop_busy (ha : EngActs n e h 1 s s1) (hg : GiveFree n e h s) (k : Bool) (a : Src) (blen : BitVec 12)
    (hb : loopBusy e k (s.ac n)) : exec (.eloop h k a blen) s = .next (engFault n e 0x02 (s.esrc n e a) 0 s) := by
  show execEloop h k a blen s = _
  unfold execEloop engRun
  refine (engRunN_chk (st := .trap 0x02 (s.esrc n e a) 0) (t := s) ha hg ?_).trans rfl
  have hk : (k || !vloopActive e (s.ac n)) = false := Bool.eq_false_iff.mpr fun hk => loopFree_iff.mp hk hb
  simp only [get_bindM, hk]
  rfl

theorem exec_eloop_free (ha : EngActs n e h 1 s s1) (hg : GiveFree n e h s) (k : Bool) (a : Src) (blen : BitVec 12)
    (hb : ¬loopBusy e k (s.ac n)) :
    let y := eloopOpen h k (s1.esrc n e a) blen ((s1.ac n).eng e)
    exec (.eloop h k a blen) s = .next (engGive n e (Head.give h) 1 (engRetire n e h (if y.2 = y.1.upc + Head.size h then .seq else .jump y.2)
      (s1.modEng n e fun _ => y.1))) := by
  show execEloop h k a blen s = _
  unfold execEloop engRun
  refine engRunN_ok ha hg ?_ rfl
  simp only [get_bindM, loopFree_iff.mpr hb]
  rfl

/-- Level k of an engine, opened with a count and the bounds of its body. -/
def openLevel (k : Bool) (cnt ls le : W64) (x : Eng) : Eng :=
  if k then { x.setX 19 cnt with act1 := cnt != 0, live1s := ls, live1e := le }
  else { x.setX 16 cnt with act0 := cnt != 0, live0s := ls, live0e := le }

theorem openLevel_spec (k : Bool) (cnt ls le : W64) (x : Eng) :
    let y := openLevel k cnt ls le x
    y.xr (if k then 19 else 16) = cnt ∧ (if k then y.act1 else y.act0) = (cnt != 0) ∧ (if k then y.live1s else y.live0s) = ls
      ∧ (if k then y.live1e else y.live0e) = le ∧ y.q = x.q ∧ y.st = x.st ∧ y.upc = x.upc ∧ ∀ r, r < 16 → y.xr r = x.xr r := by
  cases k
  · refine ⟨(Eng.setX_xr ..).trans (if_pos rfl), rfl, rfl, rfl, rfl, rfl, rfl, fun r hr => (Eng.setX_xr ..).trans (if_neg (by omega))⟩
  · refine ⟨(Eng.setX_xr ..).trans (if_pos rfl), rfl, rfl, rfl, rfl, rfl, rfl, fun r hr => (Eng.setX_xr ..).trans (if_neg (by omega))⟩

/-- The registers that an ELOOP with a body writes first (R302). -/
def setBody (k : Bool) (ls le : W64) (x : Eng) : Eng := (x.setX (if k then 20 else 17) ls).setX (if k then 21 else 18) le

theorem setBody_xr (k : Bool) (ls le : W64) (x : Eng) {r : Nat} (hr : r < 16) : (setBody k ls le x).xr r = x.xr r := by
  cases k
  · exact ((Eng.setX_xr ..).trans (if_neg (by simp; omega))).trans ((Eng.setX_xr ..).trans (if_neg (by simp; omega)))
  · exact ((Eng.setX_xr ..).trans (if_neg (by simp; omega))).trans ((Eng.setX_xr ..).trans (if_neg (by simp; omega)))

theorem eloopOpen_body (h : Head) (k : Bool) (cnt : W64) {blen : BitVec 12} (x : Eng) (hb : blen ≠ 0) :
    let ls := addr55 (x.upc + Head.size h)
    let le := addr55 (ls + BitVec.ofNat 64 (4 * blen.toNat))
    eloopOpen h k cnt blen x = (openLevel k cnt ls le (setBody k ls le x), if cnt != 0 then ls else le) := by
  cases k <;> simp only [eloopOpen, if_pos hb] <;> rfl

theorem eloopOpen_registers (h : Head) (k : Bool) (cnt : W64) (x : Eng) :
    let ls := addr55 (x.xr (if k then 20 else 17)) &&& ~~~ 3
    let le := addr55 (x.xr (if k then 21 else 18)) &&& ~~~ 3
    eloopOpen h k cnt 0 x = (openLevel k cnt ls le x, if cnt != 0 then ls else le) := by
  cases k <;> rfl

/-- The body and the count of the level that an ELOOP opens, and where the engine goes on (R355, R302). -/
theorem eloopOpen_spec (h : Head) (k : Bool) (cnt : W64) (blen : BitVec 12) (x : Eng) :
    let y := (eloopOpen h k cnt blen x).1
    y.xr (if k then 19 else 16) = cnt ∧ (if k then y.act1 else y.act0) = (cnt != 0)
      ∧ (blen ≠ 0 → (if k then y.live1s else y.live0s) = addr55 (x.upc + Head.size h)
        ∧ (if k then y.live1e else y.live0e) = addr55 (addr55 (x.upc + Head.size h) + BitVec.ofNat 64 (4 * blen.toNat)))
      ∧ (blen = 0 → (if k then y.live1s else y.live0s) = addr55 (x.xr (if k then 20 else 17)) &&& ~~~ 3
        ∧ (if k then y.live1e else y.live0e) = addr55 (x.xr (if k then 21 else 18)) &&& ~~~ 3)
      ∧ (eloopOpen h k cnt blen x).2 = (if cnt = 0 then (if k then y.live1e else y.live0e) else if k then y.live1s else y.live0s)
      ∧ y.q = x.q ∧ y.st = x.st ∧ y.upc = x.upc ∧ ∀ r, r < 16 → y.xr r = x.xr r := by
  have hgo (u v : W64) : (if (cnt != 0) = true then u else v) = if cnt = 0 then v else u := by
    by_cases hc : cnt = 0 <;> simp [hc]
  by_cases hb : blen = 0
  · subst hb
    rw [eloopOpen_registers]
    obtain ⟨hcnt, hact, hls, hle, hq, hst, hupc, hx⟩ := openLevel_spec k cnt (addr55 (x.xr (if k then 20 else 17)) &&& ~~~ 3)
      (addr55 (x.xr (if k then 21 else 18)) &&& ~~~ 3) x
    exact ⟨hcnt, hact, fun hn => absurd rfl hn, fun _ => ⟨hls, hle⟩, by rw [hls, hle]; exact hgo .., hq, hst, hupc, hx⟩
  · rw [eloopOpen_body h k cnt x hb]
    obtain ⟨hcnt, hact, hls, hle, hq, hst, hupc, hx⟩ := openLevel_spec k cnt (addr55 (x.upc + Head.size h))
      (addr55 (addr55 (x.upc + Head.size h) + BitVec.ofNat 64 (4 * blen.toNat))) (setBody k (addr55 (x.upc + Head.size h))
        (addr55 (addr55 (x.upc + Head.size h) + BitVec.ofNat 64 (4 * blen.toNat))) x)
    exact ⟨hcnt, hact, fun _ => ⟨hls, hle⟩, fun h0 => absurd h0 hb, by rw [hls, hle]; exact hgo .., hq, hst, hupc,
      fun r hr => (hx r hr).trans (setBody_xr _ _ _ _ hr)⟩

theorem modEng_modEng (s : State) (n : Nat) (e : Eid) (f g : Eng → Eng) : (s.modEng n e f).modEng n e g = s.modEng n e fun x => g (f x) := by
  have hac : ((s.modEng n e f).ac n).setEng e (g (((s.modEng n e f).ac n).eng e)) = (s.ac n).setEng e (g (f ((s.ac n).eng e))) := by
    rw [State.modEng_ac, if_pos rfl, AC.setEng_eng, if_pos rfl]
    cases e <;> rfl
  show (s.setAc n _).setAc n (((s.modEng n e f).ac n).setEng e (g (((s.modEng n e f).ac n).eng e))) = _
  rw [setAc_setAc, hac]
  rfl

theorem exec_etake (ha : EngActs n e h 1 s s1) (hg : GiveFree n e h s) {r : HeadRes} {s2 : State} (hh : headOf n e s1 = (r, s2)) :
    exec (.etake h) s = .next (match r with
      | .entry q => if q.kind = 0 then engFault n e 0x0E (BitVec.ofNat 64 (eidCode e)) 0 s2
          else engDone n e h 1 (s2.modEng n e fun x => loadOps { x with q := x.q.drop 1 } q)
      | _ => engStop n e (.etake h) .wait s2) := by
  show execEtake h s = _
  cases r with
  | empty => exact engRun_stop ha hg (by simp only [get_bindM, hh]; rfl)
  | held => exact engRun_stop ha hg (by simp only [get_bindM, hh]; rfl)
  | entry q =>
    by_cases hq : q.kind = 0
    · simp only [hq, if_true]
      refine (engRun_stop (st := .trap 0x0E (BitVec.ofNat 64 (eidCode e)) 0) ha hg ?_).trans rfl
      simp only [get_bindM, hh]
      show (need (q.kind != 0) 0x0E (BitVec.ofNat 64 (eidCode e)) 0 >>= fun _ => _) s2 = _
      simp only [hq]
      rfl
    · simp only [hq, if_false]
      refine engRun_done ha hg ?_
      simp only [get_bindM, hh]
      show (need (q.kind != 0) 0x0E (BitVec.ofNat 64 (eidCode e)) 0 >>= fun _ => _) s2 = _
      rw [bindM_ok (need_true (by simpa using hq))]
      exact congrArg _ (modEng_modEng s2 n e _ fun x => loadOps x q)

theorem exec_etok {k : BitVec 4} (ha : EngActs n e h (k.toNat + 1) s s1) (hg : GiveFree n e h s) :
    exec (.etok h k) s = .next (engDone n e h (k.toNat + 1) s1) := by
  show execEtok h k s = _
  exact engRunN_ok ha hg rfl rfl

theorem exec_enop (ha : EngActs n e h 1 s s1) (hg : GiveFree n e h s) : exec (.enop h) s = .next (engDone n e h 1 s1) := by
  show execEnop h s = _
  exact engRun_done ha hg rfl

theorem exec_eloopAdd (ha : EngActs n e h 1 s s1) (hg : GiveFree n e h s) (d : BitVec 6) (a b : Src) :
    exec (.eloopAdd h d a b) s = .next (engDone n e h 1 (s1.modEng n e fun x => x.setX d.toNat (x.src a + x.src b))) := by
  show execEloopAdd h d a b s = _
  exact engRun_done ha hg rfl

theorem axOrder_ok (hq : e = .ax → (s1.ac n).axq = []) : axOrder n e s1 = .ok () s1 := by
  unfold axOrder
  simp only [get_bindM]
  by_cases he : e = .ax
  · simp [hq he]; rfl
  · have : (e == Eid.ax) = false := beq_false_of_ne he
    simp [this]; rfl

theorem exec_gput (ha : EngActs n e h 1 s s1) (hg : GiveFree n e h s) (hq : e = .ax → (s1.ac n).axq = []) (g : BitVec 5) (a : Src) :
    exec (.gput h g a) s
      = .next (engDone n e h 1 (s1.modAc n fun y => y.guardWrite (eidCode e) g.toNat (some (((s1.ac n).eng e).src a != 0)))) := by
  show execGput h g a s = _
  refine engRun_done ha hg ?_
  rw [bindM_ok (axOrder_ok hq)]
  rfl

/-- The links of a cluster once unit u has returned a value. -/
def valueReturned (u : Nat) (v : W64) (a : AC) : AC := { a.endPush u with ln := { (a.endPush u).ln with retq := a.ln.retq ++ [(u, v)] } }

theorem exec_eret_enters (ha : EngActs n e h 1 s s1) (hg : GiveFree n e h s) (hq : e = .ax → (s1.ac n).axq = []) (a : Src)
    (hp : (s1.ac n).mayPush (eidCode e) 5 1 = true) :
    exec (.eret h a) s
      = .next (engDone n e h 1 (((release (engAgent n e) .ac s1).modAc n (valueReturned (eidCode e) (((s1.ac n).eng e).src a))).setEvt n)) := by
  show execEret h a s = _
  refine engRun_done ha hg ?_
  rw [bindM_ok (axOrder_ok hq)]
  simp only [get_bindM, hp]
  rfl

theorem exec_eret_waits (ha : EngActs n e h 1 s s1) (hg : GiveFree n e h s) (hq : e = .ax → (s1.ac n).axq = []) (a : Src)
    (hp : (s1.ac n).mayPush (eidCode e) 5 1 = false) :
    exec (.eret h a) s = .next (engStop n e (.eret h a) .wait (s1.modAc n fun x => x.waitPush (eidCode e) 5 1)) := by
  show execEret h a s = _
  refine engRun_stop ha hg ?_
  rw [bindM_ok (axOrder_ok hq)]
  simp only [get_bindM, hp]
  rfl

theorem waitPush_frame (a : AC) (u q k : Nat) :
    ⟨u, q, k⟩ ∈ (a.waitPush u q k).ln.pushWait ∧ (a.waitPush u q k).ln.retq = a.ln.retq := by
  unfold AC.waitPush
  split
  · next hc => exact ⟨by simpa using hc, rfl⟩
  · exact ⟨by simp, rfl⟩

/-- The cluster after an EEND whose engine owes no token (R358). -/
def engEnded (n : Nat) (e : Eid) (s1 : State) : State :=
  ((release (engAgent n e) .ac s1).tlComplete n (eidCode e - 1) (((release (engAgent n e) .ac s1).ac n).eng e).num).modAc n (endRoutine e)

theorem exec_eend (ha : EngActs n e h 1 s s1) (hg : GiveFree n e h s) (hq : e = .ax → (s1.ac n).axq = [])
    (hv : e = .va → (s1.ac n).vec.flight = []) :
    exec (.eend h) s = .next (engGive n e (Head.give h) 1 (engRetire n e h .stay (engEnded n e s1))) := by
  show execEend h s = _
  refine engRun_done ha hg ?_
  rw [bindM_ok (axOrder_ok hq)]
  have hb : (e == .va && (s1.ac n).vec.busy) = false := by
    by_cases he : e = .va
    · rw [Vec.busy, hv he]; simp
    · rw [beq_false_of_ne he, Bool.false_and]
  simp only [get_bindM, hb]
  rfl

theorem engGive_none (n : Nat) (e : Eid) (k : Nat) (s : State) : engGive n e 0 k s = s := if_pos (.inl rfl)

/-- What stays in the cluster when an engine gives tokens at the end of its routine. -/
theorem engGive_ended (n : Nat) (e : Eid) (g k : Nat) (s : State) (h0 : ((s.ac n).eng e).st = 0) :
    let y := (engGive n e g k s).ac n
    y.cc = (s.ac n).cc ∧ y.ln.tlDone = (s.ac n).ln.tlDone ∧ (y.eng e).st = 0 ∧ (y.eng e).num = ((s.ac n).eng e).num
      ∧ (y.eng e).act0 = ((s.ac n).eng e).act0 ∧ (y.eng e).act1 = ((s.ac n).eng e).act1 := by
  unfold engGive
  split
  · exact ⟨rfl, rfl, h0, rfl, rfl, rfl⟩
  · cases e with
    | va => simp only [State.modAc_ac, if_true]; exact ⟨trivial, trivial, h0, rfl, rfl, rfl⟩
    | _ =>
      dsimp only
      split
      · rw [State.modAc_ac, if_pos rfl, (memStep_release s _ .ac).ac n]
        exact ⟨rfl, rfl, h0, rfl, rfl, rfl⟩
      · rw [State.modEng_ac, if_pos rfl]
        refine ⟨rfl, rfl, if_pos h0, rfl, rfl, rfl⟩

/-- The links of a cluster where operation k of a counter has completed. -/
def completed (ctx k : Nat) (a : AC) : AC :=
  if k = 0 then a else { a with ln := { a.ln with tlDone := if a.ln.tlDone.contains (ctx, k) then a.ln.tlDone else a.ln.tlDone ++ [(ctx, k)] } }

theorem tlComplete_completed (s : State) (n ctx k : Nat) : (s.tlComplete n ctx k).ac n = completed ctx k (s.ac n) := by
  unfold State.tlComplete completed
  split
  · rfl
  · rw [State.modAc_ac, if_pos rfl]

theorem mem_completed {ctx k : Nat} (a : AC) (hk : k ≠ 0) : (ctx, k) ∈ (completed ctx k a).ln.tlDone := by
  unfold completed
  rw [if_neg hk]
  dsimp only
  split
  · next hc => simpa using hc
  · simp

theorem engEnded_ac (n : Nat) (e : Eid) (h : Head) (s1 : State) :
    ∃ c, (engRetire n e h .stay (engEnded n e s1)).ac n
      = vaIssued e c (AC.setEng (endRoutine e (completed (eidCode e - 1) ((s1.ac n).eng e).num (s1.ac n))) e
          { (endRoutine e (completed (eidCode e - 1) ((s1.ac n).eng e).num (s1.ac n))).eng e with etok := 0, wait := none }) := by
  refine ⟨(engEnded n e s1).cycle, ?_⟩
  have hac := (memStep_release s1 (engAgent n e) .ac).ac n
  have hz : (engEnded n e s1).ac n = endRoutine e (completed (eidCode e - 1) ((s1.ac n).eng e).num (s1.ac n)) := by
    rw [engEnded, State.modAc_ac, if_pos rfl, tlComplete_completed, hac]
  rw [engRetire, State.modAc_ac, if_pos rfl, hz]
  rfl

theorem engEnded_frame (n : Nat) (e : Eid) (h : Head) (s1 : State) :
    let y := (engRetire n e h .stay (engEnded n e s1)).ac n
    (y.eng e).st = 0 ∧ (y.eng e).num = 0 ∧ (y.eng e).act0 = false ∧ (y.eng e).act1 = false ∧ (e = .va → bits (y.cc.sr 0x043) 8 4 = 0)
      ∧ (((s1.ac n).eng e).num ≠ 0 → (eidCode e - 1, ((s1.ac n).eng e).num) ∈ y.ln.tlDone) := by
  obtain ⟨c, hy⟩ := engEnded_ac n e h s1
  rw [hy]
  have hm (hk : ((s1.ac n).eng e).num ≠ 0) := mem_completed (ctx := eidCode e - 1) (s1.ac n) hk
  generalize completed (eidCode e - 1) ((s1.ac n).eng e).num (s1.ac n) = a at hm ⊢
  cases e with
  | va =>
    refine ⟨rfl, rfl, rfl, rfl, fun _ => ?_, hm⟩
    show bits (((a.setEng .va _).cc.setSr 0x043 0).sr 0x043) 8 4 = 0
    rw [CC.setSr_sr, if_pos rfl]
    rfl
  | _ => exact ⟨rfl, rfl, rfl, rfl, fun he => absurd he (by decide), hm⟩

theorem engEnded_mem (n : Nat) (e : Eid) (h : Head) (s1 : State) :
    (engRetire n e h .stay (engEnded n e s1)).mem = (release (engAgent n e) .ac s1).mem := by
  have htl (s : State) (n ctx k : Nat) : (s.tlComplete n ctx k).mem = s.mem := by
    unfold State.tlComplete
    split <;> rfl
  exact (State.modAc_mem ..).trans ((State.modAc_mem ..).trans (htl ..))

end

theorem engineControlRule : ruleEngineControl := by
  intro n e s s1 h hg hsame
  obtain ⟨hcc, -, -, -, heng⟩ := hsame
  have hsrc (a : Src) : ((s1.ac n).eng e).src a = s.esrc n e a := by
    obtain ⟨hx, hcb⟩ := heng e
    cases a <;> simp only [Eng.src, Eng.xr, Eng.cbr, State.esrc, hx, hcb]
  refine ⟨fun k ha => exec_etok ha hg, ?_⟩
  intro ha x
  refine ⟨exec_enop ha hg, exec_ebr ha hg, exec_eloopAdd ha hg, ?_, ?_, ?_, ?_⟩
  · intro k a blen busy cnt
    refine ⟨fun hb => ?_, fun hb => ?_⟩
    · rw [exec_eloop_busy ha hg k a blen hb, ← hsrc]
    · obtain ⟨hcnt, hact, hbody, hregs, hgo, hq, hst, hupc, hx⟩ := eloopOpen_spec h k cnt blen x
      refine ⟨_, _, hcnt, hact, hbody, hregs, hgo, hq, hst, hx, ?_⟩
      rw [← hupc]
      exact exec_eloop_free ha hg k a blen hb
  · intro q s2 hh
    have hx := exec_etake ha hg hh
    exact ⟨fun h0 => hx.trans (congrArg Host.Outcome.next (if_pos h0)), fun h0 => hx.trans (congrArg Host.Outcome.next (if_neg h0))⟩
  · intro r s2 hh hne
    have hx := exec_etake ha hg hh
    cases r with
    | empty => exact hx
    | held => exact hx
    | entry q => exact absurd rfl (hne q)
  · intro hq
    refine ⟨exec_gput ha hg hq, fun a => ⟨fun hp => ?_, fun hp => ?_⟩, fun hv => ?_⟩
    · refine ⟨_, _, exec_eret_enters ha hg hq a (mayPush_of_granted Nat.one_pos hp), rfl, ?_, ?_, rfl⟩
      · rw [State.setEvt, State.modCC_ac, if_pos rfl, State.modAc_ac, if_pos rfl, (memStep_release s1 (engAgent n e) .ac).ac n]
        rfl
      · rw [State.setEvt, State.modCC_ac, if_pos rfl]
    · obtain ⟨hw, hr⟩ := waitPush_frame (s1.ac n) (eidCode e) 5 1
      refine ⟨_, exec_eret_waits ha hg hq a (not_mayPush Nat.one_pos hp), ?_, ?_, rfl, rfl, rfl⟩
      · rw [State.modAc_ac, if_pos rfl]; exact hw
      · rw [State.modAc_ac, if_pos rfl]; exact hr
    · obtain ⟨hst, hnum, ha0, ha1, hvl, htl⟩ := engEnded_frame n e h s1
      obtain ⟨hc, hd, gst, gnum, ga0, ga1⟩ := engGive_ended n e (Head.give h) 1 _ hst
      refine ⟨_, exec_eend ha hg hq hv, gst, gnum.trans hnum, ga0.trans ha0, ga1.trans ha1, ?_, ?_, fun hz => ?_⟩
      · rw [hc]; exact hvl
      · rw [hd]; exact htl
      · rw [hz, engGive_none]
        exact engEnded_mem n e h s1

/-- Settles O37: one equation for each control instruction of an engine; a false stage predicate is decided before anything else of the instruction. -/
theorem engineControl : Obligations.EngineControl := ⟨stageFalse, engineControlRule⟩

end Sys2Proof

/-! # Rounds of pots, and the operations that complete with them (R172 to R178) -/

namespace Sys2Proof

open Machine

/-! ### The entries of a die's pots -/

section
variable {d : Nat} {s : State}

theorem pot?_of_die {t : State} (h : t.die d = s.die d) (pa : Nat) : t.pot? d pa = s.pot? d pa := by unfold State.pot?; rw [h]

theorem pa_of_pot? {pa : Nat} {p : Pot} (h : s.pot? d pa = some p) : p.pa = pa := by
  have := List.find?_some h
  simpa using this

theorem modPot_pot? (pa : Nat) {f : Pot → Pot} (hf : ∀ p, (f p).pa = p.pa) : (s.modPot d pa f).pot? d pa = (s.pot? d pa).map f := by
  unfold State.pot? State.modPot
  rw [State.modDie_die, if_pos rfl]
  dsimp only
  induction (s.die d).pots with
  | nil => rfl
  | cons p l ih =>
    rw [List.map_cons, List.find?_cons, List.find?_cons]
    by_cases hp : p.pa = pa
    · simp only [hp, if_true, hf, beq_self_eq_true, Option.map_some]
    · simp only [hp, if_false, beq_false_of_ne hp, ih]

theorem modPot_some {pa : Nat} {f : Pot → Pot} {p : Pot} (hf : ∀ p, (f p).pa = p.pa) (h : s.pot? d pa = some p) :
    (s.modPot d pa f).pot? d pa = some (f p) := by rw [modPot_pot? pa hf, h]; rfl

/-- Nothing that waits ahead of its round: the pot is as it stands (R175). -/
theorem settlePot_rest {pa : Nat} {p : Pot} (h : s.pot? d pa = some p) (ha : p.ahead = []) (k : Nat) : settlePot d pa k s = s := by
  cases k with
  | zero => rfl
  | succ k => simp only [settlePot, h, ha, List.find?_nil]

theorem close_pa (p : Pot) (c w : Nat) : (p.close c w).pa = p.pa := rfl

theorem closeRound_pot? {pa : Nat} {p : Pot} (h : s.pot? d pa = some p) : (s.closeRound d pa).pot? d pa = some (p.close s.cycle s.wid) :=
  modPot_some (fun p => close_pa p _ _) h

/-- What closing a round leaves: a new round, empty, and the closed one behind those that are still written (Table 6-6). -/
theorem close_spec (p : Pot) (cy w : Nat) : ∃ c, (p.close cy w).closing = p.closing ++ [c] ∧ c.tag = p.round ∧ c.contrib = p.contrib
    ∧ c.short = decide (popMask (slotMask p.contrib false) < p.need) ∧ (p.close cy w).round = p.round + 1 ∧ (p.close cy w).closed = p.closed + 1
    ∧ (p.close cy w).contrib = [] ∧ (p.close cy w).ahead = p.ahead :=
  ⟨_, rfl, rfl, rfl, rfl, rfl, rfl, rfl, rfl⟩

theorem closeNow_rest {pa : Nat} {p : Pot} (h : s.pot? d pa = some p) (ha : p.ahead = []) : closeNow d pa s = s.closeRound d pa :=
  settlePot_rest (closeRound_pot? h) ha 65

/-! ### Deadlines (R177) -/

theorem potAt_of_find {desc : Nat} {p : Pot} (h : ((s.die d).pots.find? fun p => p.va.toNat == desc) = some p) : s.potAt d desc = p.pa := by
  unfold State.potAt; rw [h]

theorem deadline_closes {pa : Nat} {p : Pot} (h : s.pot? d pa = some p) (hf : p.flag 57 = true) (hr : p.retire = false) (ha : p.ahead = [])
    (hc : p.opened + bits (p.w 7) 0 32 ≤ s.cycle) : deadline d pa s = s.closeRound d pa := by
  unfold deadline
  simp only [h, hf, hr, hc, closeNow_rest h ha]
  rfl

theorem deadline_waits {pa : Nat} {p : Pot} (h : s.pot? d pa = some p) (hc : s.cycle < p.opened + bits (p.w 7) 0 32) : deadline d pa s = s := by
  unfold deadline
  simp only [h]
  exact if_neg fun hh => Nat.not_le.mpr hc hh.2.2

/-! ### The on-time pour that the home has taken (R178) -/

theorem potAccept_one {r : PotReq} {x : PotPart} (hn : (s.die d).potNow = some r) (hx : r.parts = [x]) :
    potAccept d s = treat d r.pa x (s.modDie d fun x => { x with potNow := none }) := by
  unfold potAccept
  rw [hn]
  simp only [hx, List.foldl_cons, List.foldl_nil]

/-- The contribution that a pour makes on time (R175). -/
def onTime (x : PotPart) : Contribution := ⟨x.slot, 0, x.data, x.word.getLsbD 31, bits x.word 16 15 + x.sat, x.ac, x.num⟩

theorem acceptPart_pot? {pa : Nat} {p : Pot} (x : PotPart) (h : s.pot? d pa = some p) :
    ∃ q, (acceptPart d p x 0 s).pot? d pa = some q ∧ q.contrib = p.contrib ++ [onTime x] ∧ q.round = p.round ∧ q.closing = p.closing
      ∧ q.closed = p.closed ∧ q.ahead = p.ahead := by
  have hp := pa_of_pot? h
  unfold acceptPart
  rw [hp]
  exact ⟨_, modPot_some (fun _ => rfl) h, rfl, rfl, rfl, rfl, rfl⟩

theorem applyPart_fill {pa : Nat} {p : Pot} {x : PotPart} (h : s.pot? d pa = some p) (hv : p.verdict x = .fill) :
    applyPart d pa x s = if p.need ≤ popMask (slotMask p.contrib false) + 1 then (acceptPart d p x 0 s).closeRound d pa else acceptPart d p x 0 s := by
  unfold applyPart
  simp only [h, hv]

theorem treat_fill {pa : Nat} {p : Pot} {x : PotPart} (h : s.pot? d pa = some p) (hv : p.verdict x = .fill) (ha : p.ahead = []) :
    treat d pa x s = applyPart d pa x s := by
  obtain ⟨q, hq, -, -, -, -, hqa⟩ := acceptPart_pot? x h
  unfold treat
  rw [applyPart_fill h hv]
  split
  · obtain ⟨c, -, -, -, -, -, -, -, hca⟩ := close_spec q (acceptPart d p x 0 s).cycle (acceptPart d p x 0 s).wid
    exact settlePot_rest (closeRound_pot? hq) (hca.trans (hqa.trans ha)) 65
  · exact settlePot_rest hq (hqa.trans ha) 65

theorem closeRound_potNow (pa : Nat) : ((s.closeRound d pa).die d).potNow = (s.die d).potNow := by
  unfold State.closeRound State.modPot
  rw [State.modDie_die, if_pos rfl]

theorem acceptPart_potNow (p : Pot) (x : PotPart) : ((acceptPart d p x 0 s).die d).potNow = (s.die d).potNow := by
  unfold acceptPart State.modPot
  rw [State.modDie_die, if_pos rfl]

theorem accept_fills {r : PotReq} {x : PotPart} {p : Pot} (hn : (s.die d).potNow = some r) (hx : r.parts = [x]) (hp : s.pot? d r.pa = some p)
    (hv : p.verdict x = .fill) (ha : p.ahead = []) :
    ∃ q, ((potAccept d s).die d).potNow = none ∧ (potAccept d s).pot? d r.pa = some q
      ∧ (popMask (slotMask p.contrib false) + 1 < p.need → q.round = p.round ∧ q.closing = p.closing ∧ q.contrib = p.contrib ++ [onTime x])
      ∧ (p.need ≤ popMask (slotMask p.contrib false) + 1 → q.round = p.round + 1 ∧ q.closed = p.closed + 1 ∧ q.contrib = []
        ∧ q.closing.length = p.closing.length + 1) := by
  rw [potAccept_one hn hx]
  have hp' : (s.modDie d fun x => { x with potNow := none }).pot? d r.pa = some p := by
    rw [← hp]
    unfold State.pot?
    rw [State.modDie_die, if_pos rfl]
  have hnow : ((s.modDie d fun x => { x with potNow := none }).die d).potNow = none := by rw [State.modDie_die, if_pos rfl]
  generalize (s.modDie d fun x => { x with potNow := none }) = s0 at hp' hnow
  rw [treat_fill hp' hv ha, applyPart_fill hp' hv]
  obtain ⟨q, hq, hqc, hqr, hqk, hqd, hqa⟩ := acceptPart_pot? x hp'
  split
  · next hc =>
    obtain ⟨c, hk, -, -, -, hr, hd, hco, -⟩ := close_spec q (acceptPart d p x 0 s0).cycle (acceptPart d p x 0 s0).wid
    refine ⟨_, (closeRound_potNow ..).trans ((acceptPart_potNow ..).trans hnow), closeRound_pot? hq, fun hlt => absurd hlt (Nat.not_lt.mpr hc), fun _ => ?_⟩
    exact ⟨by rw [hr, hqr], by rw [hd, hqd], hco, by rw [hk, hqk, List.length_append]; rfl⟩
  · next hc => exact ⟨q, (acceptPart_potNow ..).trans hnow, hq, fun _ => ⟨hqr, hqk, hqc⟩, fun hle => absurd hle hc⟩

end

/-! ### Completion of the operations of a round (R153, R190) -/

/-- Completions change no memory and no die, and take back no completion. -/
structure CompletesMore (s t : State) : Prop where
  mem : t.mem = s.mem
  dies : t.dies = s.dies
  done : ∀ m x, x ∈ (s.ac m).ln.tlDone → x ∈ (t.ac m).ln.tlDone

theorem CompletesMore.refl (s : State) : CompletesMore s s := ⟨rfl, rfl, fun _ _ => id⟩

theorem CompletesMore.trans {s t u : State} (h : CompletesMore s t) (k : CompletesMore t u) : CompletesMore s u :=
  ⟨k.mem.trans h.mem, k.dies.trans h.dies, fun m x hx => k.done m x (h.done m x hx)⟩

theorem subset_completed {ctx k : Nat} (a : AC) {x : Nat × Nat} (hx : x ∈ a.ln.tlDone) : x ∈ (completed ctx k a).ln.tlDone := by
  unfold completed
  split
  · exact hx
  · dsimp only
    split
    · exact hx
    · exact List.mem_append_left _ hx

theorem tlComplete_completes (s : State) (n ctx k : Nat) : CompletesMore s (s.tlComplete n ctx k) := by
  refine ⟨?_, ?_, fun m x hx => ?_⟩
  · unfold State.tlComplete; split <;> rfl
  · unfold State.tlComplete; split <;> rfl
  · by_cases hm : m = n
    · rw [hm, tlComplete_completed]; exact subset_completed _ (hm ▸ hx)
    · unfold State.tlComplete
      split
      · exact hx
      · rwa [State.modAc_ac, if_neg hm]

theorem potDone_completes (ac num : Nat) (s : State) : CompletesMore s (potDone ac num s) := by
  unfold potDone
  split
  · refine CompletesMore.trans (t := s.modAc ac _) ⟨rfl, rfl, fun m x hx => ?_⟩ (tlComplete_completes ..)
    rw [State.modAc_ac]
    split
    · next hm => exact hm ▸ hx
    · exact hx
  · exact ⟨rfl, rfl, fun _ _ => id⟩

theorem potDone_mem {m k : Nat} (s : State) (hm : m < 256) (hk : k ≠ 0) : (7, k) ∈ ((potDone m k s).ac m).ln.tlDone := by
  unfold potDone
  rw [if_pos hm, tlComplete_completed]
  exact mem_completed _ hk

theorem foldl_completes {α : Type} {f : State → α → State} (hf : ∀ s x, CompletesMore s (f s x)) (l : List α) (s : State) : CompletesMore s (l.foldl f s) := by
  induction l generalizing s with
  | nil => exact .refl s
  | cons x l ih => exact (hf s x).trans (ih _)

/-- Every operation of a list completes. -/
theorem allDone_mem {l : List (Nat × Nat)} {m k : Nat} (s : State) (hl : (m, k) ∈ l) (hm : m < 256) (hk : k ≠ 0) :
    (7, k) ∈ ((l.foldl (fun s x => potDone x.1 x.2 s) s).ac m).ln.tlDone := by
  induction l generalizing s with
  | nil => cases hl
  | cons x l ih =>
    rw [List.foldl_cons]
    rcases List.mem_cons.mp hl with rfl | hl
    · exact (foldl_completes (fun s (x : Nat × Nat) => potDone_completes x.1 x.2 s) l _).done m _ (potDone_mem s hm hk)
    · exact ih _ hl

section
variable {d : Nat} {s : State} {pa : Nat} {p : Pot} {c : Closing} {rest : List Closing}

theorem outcomeStage_ne {k : Nat} {go : Pot → Closing → State → State} (h : s.pot? d pa = some p) (hc : p.closing = c :: rest) (hk : c.stage ≠ k) :
    outcomeStage d pa k go s = s := by
  unfold outcomeStage
  simp only [h, hc]
  exact if_neg fun hh => hk hh.1

theorem outcomeStage_eq {k : Nat} {go : Pot → Closing → State → State} (h : s.pot? d pa = some p) (hc : p.closing = c :: rest) (hk : c.stage = k)
    (hf : s.fab = []) : outcomeStage d pa k go s = go p c s := by
  unfold outcomeStage
  simp only [h, hc]
  refine if_pos ⟨hk, ?_⟩
  unfold State.outAnswered State.outSends
  rw [hf]
  rfl

/-- A round whose outcomes have been written finishes once they have been performed (R172, R190). -/
theorem outcomeStep_finishes (h : s.pot? d pa = some p) (hc : p.closing = c :: rest) (hk : c.stage = 3) (hf : s.fab = [])
    (hs : s.settled .fab (· == .pot d) = true) : outcomeStep d pa s = finishClose d p c s := by
  unfold outcomeStep
  simp only [outcomeStage_ne h hc (show c.stage ≠ 0 by omega), outcomeStage_ne h hc (show c.stage ≠ 1 by omega),
    outcomeStage_ne h hc (show c.stage ≠ 2 by omega), outcomeStage_eq h hc hk hf, hs, if_true]

/-- The closed round leaves its pot. -/
def dropClosing (d : Nat) (p : Pot) (c : Closing) (s : State) : State :=
  (c.done.foldl (fun s x => potDone x.1 x.2 s) { s with fab := s.fab.filter fun x => !(s.outSends d p).contains x }).modPot d p.pa fun p =>
    { p with closing := p.closing.drop 1 }

theorem dropClosing_completes (d : Nat) (p : Pot) (c : Closing) (s : State) :
    (dropClosing d p c s).mem = s.mem ∧ ∀ m x, x ∈ (s.ac m).ln.tlDone → x ∈ ((dropClosing d p c s).ac m).ln.tlDone := by
  have hd := foldl_completes (fun s (x : Nat × Nat) => potDone_completes x.1 x.2 s) c.done { s with fab := s.fab.filter fun x => !(s.outSends d p).contains x }
  exact ⟨hd.mem, hd.done⟩

theorem dropClosing_pot? (h : s.pot? d p.pa = some p) (hc : p.closing = c :: rest) :
    (dropClosing d p c s).pot? d p.pa = some { p with closing := rest } := by
  have hd := foldl_completes (fun s (x : Nat × Nat) => potDone_completes x.1 x.2 s) c.done { s with fab := s.fab.filter fun x => !(s.outSends d p).contains x }
  unfold dropClosing
  rw [modPot_some (f := fun p => { p with closing := p.closing.drop 1 }) (fun _ => rfl) ((pot?_of_die (die_of_dies hd.dies d) _).trans h), hc]
  rfl

theorem finishClose_eq (h : s.pot? d p.pa = some p) (hc : p.closing = c :: rest) :
    finishClose d p c s = if p.retire = true ∧ rest.isEmpty = true then
        (p.contrib.foldl (fun s x => potDone x.ac x.num s) (dropClosing d p c s)).modDie d fun x => { x with pots := x.pots.filter fun e => e.pa != p.pa }
      else dropClosing d p c s := by
  have hq := dropClosing_pot? h hc
  unfold finishClose
  show (match (dropClosing d p c s).pot? d p.pa with
    | some q => _
    | none => dropClosing d p c s) = _
  rw [hq] <;> rfl

theorem finishClose_frame (h : s.pot? d p.pa = some p) (hc : p.closing = c :: rest) :
    (finishClose d p c s).mem = s.mem
      ∧ (p.retire = false → ∃ q, (finishClose d p c s).pot? d p.pa = some q ∧ q.closing = rest ∧ q.contrib = p.contrib)
      ∧ (p.retire = true → rest = [] → (finishClose d p c s).pot? d p.pa = none)
      ∧ ∀ m k, (m, k) ∈ c.done → m < 256 → k ≠ 0 → (7, k) ∈ ((finishClose d p c s).ac m).ln.tlDone := by
  obtain ⟨hmem, -⟩ := dropClosing_completes d p c s
  have hall (m k : Nat) (hmk : (m, k) ∈ c.done) (hm : m < 256) (hk : k ≠ 0) : (7, k) ∈ ((dropClosing d p c s).ac m).ln.tlDone := allDone_mem _ hmk hm hk
  rw [finishClose_eq h hc]
  split
  · next hr =>
    have hd := foldl_completes (fun s (x : Contribution) => potDone_completes x.ac x.num s) p.contrib (dropClosing d p c s)
    refine ⟨hd.mem.trans hmem, fun h0 => absurd hr.1 (by rw [h0]; decide), fun _ _ => ?_, fun m k hmk hm hk => hd.done m _ (hall m k hmk hm hk)⟩
    unfold State.pot?
    rw [State.modDie_die, if_pos rfl]
    refine List.find?_eq_none.mpr fun q hq => ?_
    have hne := (List.mem_filter.mp hq).2
    simpa using hne
  · next hr => exact ⟨hmem, fun _ => ⟨_, dropClosing_pot? h hc, rfl, rfl⟩, fun h1 h2 => absurd ⟨h1, by rw [h2]; rfl⟩ hr, hall⟩

/-! ### Operations that hold on a fault (Table 2-10) -/

theorem noWait_find {who : Agent} {tag e : Nat} (he : who.die = e) (hw : ∀ w ∈ (s.die e).waits, w.who ≠ who) :
    ((s.die who.die).waits.find? fun w => w.who == who && w.tag == tag) = none := by
  rw [he]
  exact List.find?_eq_none.mpr fun w hm => by simp [hw w hm]

theorem runHeld_ok {who : Agent} {tag e : Nat} {bad den : State → State} {f : M Unit} {t : State} (he : who.die = e)
    (hw : ∀ w ∈ (s.die e).waits, w.who ≠ who) (hf : f s = .ok () t) : s.runHeld who tag bad den f = t := by
  unfold State.runHeld
  simp only [noWait_find he hw, hf]

theorem runHeld_access {who : Agent} {tag e : Nat} {bad den : State → State} {f : M Unit} {w0 w1 va : W64} {t : State} (he : who.die = e)
    (hw : ∀ w ∈ (s.die e).waits, w.who ≠ who) (hf : f s = .error (.access w0 w1 va) t) :
    s.runHeld who tag bad den f = if s.ringFull (recordDie who w0) = true then s else den (s.addAccessRecord who w0 w1 va) := by
  unfold State.runHeld
  have hn := noWait_find (tag := tag) he hw
  dsimp only
  generalize ((s.die who.die).waits.find? fun w => w.who == who && w.tag == tag) = o at hn
  subst hn
  generalize f s = z at hf
  subst hf
  dsimp only [State.ringed]
  generalize s.ringFull (recordDie who w0) = b
  cases b <;> rfl

end

/-! ### Requests on their way to a pot (R174, R498) -/

section
variable {d : Nat} {s s1 : State} {r : PotReq} {q : List PotReq} {pa home pc off : Nat} {at' : BitVec 2}

/-- A request that has found its descriptor, at the die of it. -/
def admitted (d home pa : Nat) (r : PotReq) (s : State) : State :=
  (s.modDie d fun x => { x with potQ := x.potQ.drop 1 }).modDie home fun x =>
    { x with potIn := x.potIn ++ [{ r with pa := canonPa d pa, raw := some pa }] }

theorem potAdmit_goes (hq : (s.die d).potQ = r :: q) (hw : ∀ w ∈ (s.die d).waits, w.who ≠ .pot d)
    (hx : xlate (.pot d) .read r.desc.toNat s = .ok (pa, at') s1) (hr : region d pa = .hbm home pc off)
    (hc : checkAccess s1 (.pot d) .issue (0x30000000000 + home * 0x1000000 + 0x80000) 8 = none) : potAdmit d s = admitted d home pa r s1 := by
  unfold potAdmit
  obtain ⟨check, hcheck⟩ : ∃ f, f = checkAccess := ⟨_, rfl⟩
  obtain ⟨place, hplace⟩ : ∃ f, f = region := ⟨_, rfl⟩
  rw [← hcheck] at hc ⊢
  rw [← hplace] at hr ⊢
  simp only [hq]
  refine runHeld_ok rfl hw ((bindM_ok hx).trans ?_)
  simp only [hr, get_bindM, hc]
  rfl

theorem admitted_home (d pa : Nat) (r : PotReq) (s : State) :
    (admitted d d pa r s).die d = { s.die d with potQ := (s.die d).potQ.drop 1, potIn := (s.die d).potIn ++ [{ r with pa := canonPa d pa, raw := some pa }] } := by
  unfold admitted
  rw [State.modDie_die, if_pos rfl, State.modDie_die, if_pos rfl]

theorem admitted_away {d home : Nat} (pa : Nat) (r : PotReq) (s : State) (h : home ≠ d) :
    (admitted d home pa r s).die d = { s.die d with potQ := (s.die d).potQ.drop 1 } := by
  unfold admitted
  rw [State.modDie_die, if_neg (Ne.symm h), State.modDie_die, if_pos rfl]

theorem potTake_rests (h : (s.die d).potNow ≠ none ∨ (s.die d).potIn = []) : potTake d s = s := by
  unfold potTake
  split
  · rfl
  · next hn =>
    rcases h with h | h
    · exact absurd (Option.isSome_iff_ne_none.mpr h) hn
    · rw [h]; rfl

theorem potTake_one (hn : (s.die d).potNow = none) (hi : (s.die d).potIn = [r]) :
    (takeReq d r s).2 = .done → potTake d s = (takeReq d r s).1 := by
  intro hd
  unfold potTake
  rw [hn, hi]
  simp only [Option.isSome_none, Bool.false_eq_true, if_false, potScan, List.contains_nil]
  generalize takeReq d r s = x at hd
  obtain ⟨t, y⟩ := x
  obtain rfl : y = .done := hd
  rfl

theorem find_key (s : State) (h : (s.die d).potIn = [r]) {k : Nat × Nat} (hk : r.key = k) :
    ((s.die d).potIn.find? fun y => y.key == k) = some r := by
  rw [h, List.find?_cons, hk]
  simp

end

end Sys2Proof

/-! # The events of pots (R173 to R178, R187, R191, R193, R498) -/

namespace Sys2Proof

open Machine

/-! ### The home takes a request (R172 to R178) -/

section
variable {d : Nat} {s s2 : State} {r y : PotReq} {p : Pot}

theorem takeReq_judges (hpr : r.proxy = none) (hp : s.pot? d r.pa = some p) (hret : p.retire = false) (hbad : pourBad (p.flag 60) r = false)
    (hi : (s.die d).potIn = [r]) (hf : fetchSource d r (p.w 0) s = s2) (hi2 : (s2.die d).potIn = [y]) (hk : y.key = r.key) (hy : y.ready = true) :
    takeReq d r s = judge d p y s2 := by
  unfold takeReq
  simp only [hp, Option.isNone_some, Bool.and_false, Bool.false_eq_true, if_false, find_key s hi rfl, hpr, hret, hbad, hf, find_key s2 hi2 hk, hy, if_true]

theorem endReq_potIn (hi : (s.die d).potIn = [r]) : (s.endReq d r).die d = { s.die d with potIn := [] } := by
  unfold State.endReq State.modReq
  rw [State.modDie_die, if_pos rfl, hi]
  simp

theorem judge_join {x : PotPart} (hk : r.kind = .join) (hx : r.parts = [x]) (hn : x.word.toNat < p.n) :
    judge d p r s = ((s.endReq d r).modPot d r.pa fun p => { p with ops := p.ops ++ [(.join, x.word.toNat, x.ac, x.num)] }, .done) := by
  unfold judge
  simp only [hk, hx, if_neg (Nat.not_le.mpr hn)]

theorem judge_pour {z : PotPart} (hk : r.kind = .pour) (hl : r.lost = false) (hx : r.parts = [z])
    (hs : potSum p.op p.plen z.data % potM = r.sum % potM) (hv : p.verdict z = .fill) :
    judge d p r s = ((s.endReq d r).modDie d fun e => { e with potNow := some r }, .done) := by
  have hw : decide ((0 + potSum p.op p.plen z.data) % potM ≠ r.sum % potM) = false := by rw [Nat.zero_add, hs]; simp
  have hne : (Verdict.fill == .waits) = false := rfl
  unfold judge
  simp only [hk, hl, hx, List.foldl_cons, List.foldl_nil, List.any_cons, List.any_nil, hw, hv, hne, Bool.false_eq_true, if_false, if_true, Bool.or_false]

theorem fetchSource_ready (hr : r.ready = true) (w : W64) : fetchSource d r w s = s := by
  unfold fetchSource
  rw [if_pos hr]

theorem fetchSource_reads {e : Nat} (hr : r.ready = false) (he : dieOf r.key.1 = e) {w : W64} (hw : ∀ v ∈ (s.die e).waits, v.who ≠ .pot e)
    (hf : readSource d e r w s = .ok () s2) : fetchSource d r w s = s2 := by
  subst he
  unfold fetchSource
  rw [if_neg (by rw [hr]; exact Bool.false_ne_true)]
  exact runHeld_ok rfl hw hf

theorem fetchSource_refused {e : Nat} (hr : r.ready = false) (he : dieOf r.key.1 = e) {w w0 w1 va : W64} (hw : ∀ v ∈ (s.die e).waits, v.who ≠ .pot e)
    (hf : readSource d e r w s = .error (.access w0 w1 va) s2) :
    fetchSource d r w s = if s.ringFull (recordDie (.pot e) w0) = true then s else sourceLost d r (s.addAccessRecord (.pot e) w0 w1 va) := by
  subst he
  unfold fetchSource
  rw [if_neg (by rw [hr]; exact Bool.false_ne_true)]
  exact runHeld_access rfl hw hf

/-- The home takes a join for its pot. -/
theorem potTake_join {x : PotPart} (hnow : (s.die d).potNow = none) (hi : (s.die d).potIn = [r]) (hpr : r.proxy = none)
    (hp : s.pot? d r.pa = some p) (hret : p.retire = false) (hr : r.ready = true) (hk : r.kind = .join) (hx : r.parts = [x])
    (hn : x.word.toNat < p.n) :
    potTake d s = (s.endReq d r).modPot d r.pa fun p => { p with ops := p.ops ++ [(.join, x.word.toNat, x.ac, x.num)] } := by
  have ht : takeReq d r s = _ := (takeReq_judges hpr hp hret (by unfold pourBad; rw [hk]; rfl) hi (fetchSource_ready hr _) hi rfl hr).trans (judge_join hk hx hn)
  rw [potTake_one hnow hi (by rw [ht]), ht]

/-- The home takes a pour whose source has been read. -/
theorem potTake_pour {z : PotPart} (hnow : (s.die d).potNow = none) (hi : (s.die d).potIn = [r]) (hpr : r.proxy = none)
    (hp : s.pot? d r.pa = some p) (hret : p.retire = false) (hbad : pourBad (p.flag 60) r = false) (hf : fetchSource d r (p.w 0) s = s2)
    (hi2 : (s2.die d).potIn = [y]) (hkey : y.key = r.key) (hy : y.ready = true) (hk : y.kind = .pour) (hl : y.lost = false)
    (hx : y.parts = [z]) (hs : potSum p.op p.plen z.data % potM = y.sum % potM) (hv : p.verdict z = .fill) :
    potTake d s = (s2.endReq d y).modDie d fun e => { e with potNow := some y } := by
  have ht : takeReq d r s = _ := (takeReq_judges hpr hp hret hbad hi hf hi2 hkey hy).trans (judge_pour hk hl hx hs hv)
  rw [potTake_one hnow hi (by rw [ht]), ht]

end

/-! ### Requests of other parts (R173, R473) -/

section
variable {d : Nat} {s s1 : State} {f : FarPour} {pa home pc off : Nat} {at' : BitVec 2}

/-- The part of a member of another part in its request. -/
def farPart (f : FarPour) (s : State) : PotPart := ⟨256 + f.port, s.seq, 0, 0, f.word, f.data, f.sat, false⟩

/-- The request that a member of another part makes here. -/
def farPotReq (f : FarPour) (s : State) : PotReq := ⟨f.kind, f.desc, 0, none, 0, true, none, true, f.lost, [farPart f s], f.sum⟩

/-- A request that has found its descriptor, as it stands at its home. -/
def placed (e pa : Nat) (r : PotReq) : PotReq := { r with pa := canonPa e pa, raw := some pa }

/-- The state once it stands there. -/
def stood (home e pa : Nat) (r : PotReq) (s : State) : State := s.modDie home fun x => { x with potIn := x.potIn ++ [placed e pa r] }

theorem stood_rests {e : Nat} {r : PotReq} (h : (s.die d).potNow ≠ none) : potTake d (stood home e pa r s) = stood home e pa r s := by
  refine potTake_rests (.inl ?_)
  unfold stood
  rw [State.modDie_die]
  split
  · next hd => exact hd ▸ h
  · exact h

theorem stood_potIn (home e pa : Nat) (r : PotReq) (s : State) : ((stood home e pa r s).die home).potIn = (s.die home).potIn ++ [placed e pa r] := by
  unfold stood
  rw [State.modDie_die, if_pos rfl]

theorem homeReq_stands {port : Nat} {r : PotReq} (hx : xlate (.ingress port) .read r.desc.toNat s = .ok (pa, at') s1)
    (hr : region (Agent.ingress port).die pa = .hbm home pc off)
    (hc : checkAccess s1 (.ingress port) .issue (0x30000000000 + home * 0x1000000 + 0x80000) 8 = none) :
    homeReq port r s = (.ack, stood home (Agent.ingress port).die pa r s1) := by
  unfold homeReq
  obtain ⟨check, hcheck⟩ : ∃ f, f = checkAccess := ⟨_, rfl⟩
  obtain ⟨place, hplace⟩ : ∃ f, f = region := ⟨_, rfl⟩
  obtain ⟨translate, htranslate⟩ : ∃ f, f = xlate := ⟨_, rfl⟩
  rw [← hcheck] at hc ⊢
  rw [← hplace] at hr ⊢
  rw [← htranslate] at hx ⊢
  simp only [hx, hr, hc]
  rfl

theorem farReq_home (hn : f.node = 0xFFFF) {t : State} (hh : homeReq f.port (farPotReq f s) { s with seq := s.seq + 1 } = (.ack, t)) :
    farReq f s = t := by
  unfold farReq
  unfold farPotReq farPart at hh
  generalize homeReq = home at hh ⊢
  simp only [hn, ne_eq, not_true, if_false, hh]

/-- What sending to a node leaves (R468). -/
theorem sendTo_spec (s : State) (item : FabItem) (node a : Nat) (what : FabWhat) :
    ∃ y : FabSend, (s.sendTo item node a what).fab = s.fab ++ [y] ∧ y.node = node ∧ y.addr = a ∧ y.what = what ∧ y.acked = false
      ∧ (s.sendTo item node a what).acs = s.acs ∧ (s.sendTo item node a what).mem = s.mem ∧ (s.sendTo item node a what).dies = s.dies := by
  have hp : (s.flowPort (sender item) node).2.fab = s.fab ∧ (s.flowPort (sender item) node).2.acs = s.acs
      ∧ (s.flowPort (sender item) node).2.mem = s.mem ∧ (s.flowPort (sender item) node).2.dies = s.dies := by
    unfold State.flowPort
    split
    · exact ⟨rfl, rfl, rfl, rfl⟩
    · split <;> exact ⟨rfl, rfl, rfl, rfl⟩
  obtain ⟨hf, ha, hm, hd⟩ := hp
  exact ⟨⟨item, node, a, what, (s.flowPort (sender item) node).1, false⟩, congrArg (· ++ _) hf, rfl, rfl, rfl, rfl, ha, hm, hd⟩

theorem farReq_forwards (hn : f.node ≠ 0xFFFF) (hr : s.routeValid (Agent.ingress f.port).die f.node = true) :
    farReq f s = ({ s with seq := s.seq + 1 } : State).sendTo (.pour (256 + f.port) s.seq) f.node f.desc.toNat
      (.pour f.kind f.desc f.lost [farPart f s] f.sum f.sumi) := by
  unfold farReq
  rw [if_pos hn]
  exact if_pos hr

end

/-! ### Pours that a device combined, and step gates (R187, R191) -/

theorem combineHome_two {d : Nat} {s : State} {x y : PotReq} {p : Pot} (hi : (s.die d).potIn = [x, y]) (hp : s.pot? d x.pa = some p)
    (hc : canCombine p x y = true) :
    combineHome d 0 1 s = s.modDie d fun e =>
      { e with potIn := [{ x with parts := x.parts ++ y.parts, sum := (x.sum + y.sum) % potM }] } := by
  unfold combineHome
  simp only [hi, List.getElem?_cons_zero, List.getElem?_cons_succ, hp]
  rw [if_pos ⟨by decide, hc⟩]
  rfl

theorem gateWrite_spec (d g : Nat) (v : W64) (s : State) :
    (gateWrite d g v s).mem = s.mem ∧ (gateWrite d g v s).acs = s.acs
      ∧ (gateWrite d g v s).reg d (0x81000 + 8 * g)
        = (if bits v 0 2 = 3 then s.reg d (0x81000 + 8 * g) else v &&& 0xFFFFFFFF00000003)
      ∧ ∀ e off, (e ≠ d ∨ off ≠ 0x81000 + 8 * g) → (gateWrite d g v s).reg e off = s.reg e off := by
  unfold gateWrite
  generalize 0x81000 + 8 * g = o
  split
  · exact ⟨rfl, rfl, rfl, fun _ _ _ => rfl⟩
  · exact ⟨rfl, rfl, reg_setReg_same .., fun e off h => reg_setReg_of_ne h⟩

/-! ### The events of pots -/

section
variable {d : Nat} {s s1 : State}

/-- A request goes to its home, which takes it where it is this die. -/
theorem pourArrive_admits {r : PotReq} {q : List PotReq} {pa home pc off : Nat} {at' : BitVec 2} (hq : (s.die d).potQ = r :: q)
    (hw : ∀ w ∈ (s.die d).waits, w.who ≠ .pot d) (hx : xlate (.pot d) .read r.desc.toNat s = .ok (pa, at') s1)
    (hr : region d pa = .hbm home pc off)
    (hc : checkAccess s1 (.pot d) .issue (0x30000000000 + home * 0x1000000 + 0x80000) 8 = none) :
    exec (.pourArrive d none) s = .next (potTake d (admitted d home pa r s1)) := by
  rw [← potAdmit_goes hq hw hx hr hc]
  rfl

theorem admitted_rests {r : PotReq} {pa home : Nat} (h : (s1.die d).potNow ≠ none ∨ home ≠ d ∧ (s1.die d).potIn = []) :
    potTake d (admitted d home pa r s1) = admitted d home pa r s1 := by
  refine potTake_rests ?_
  by_cases hh : home = d
  · subst hh
    rw [admitted_home]
    exact .inl (h.resolve_right fun hn => hn.1 rfl)
  · rw [admitted_away pa r s1 hh]
    exact h.imp id And.right

theorem pot?_of_pots {t : State} {pa : Nat} (h : (t.die d).pots = (s.die d).pots) : t.pot? d pa = s.pot? d pa := by unfold State.pot?; rw [h]

theorem pot?_endReq {r : PotReq} {pa : Nat} (hi : (s.die d).potIn = [r]) : (s.endReq d r).pot? d pa = s.pot? d pa :=
  pot?_of_pots (by rw [endReq_potIn hi])

/-- The request of a die that is its own home. -/
theorem arrivesHere {r r' : PotReq} {pa : Nat} {u : State} (hin : (s1.die d).potIn = []) (hnow : (s1.die d).potNow = none)
    (hr' : r' = { r with pa := canonPa d pa, raw := some pa }) (hu : u = admitted d d pa r s1) :
    (u.die d).potIn = [r'] ∧ (u.die d).potNow = none ∧ (∀ a, u.pot? d a = s1.pot? d a) ∧ u.acs = s1.acs ∧ u.mem = s1.mem := by
  subst hu hr'
  refine ⟨by rw [admitted_home, hin]; rfl, by rw [admitted_home, hnow], fun a => pot?_of_pots (by rw [admitted_home]), rfl, rfl⟩

theorem joinTaken {r : PotReq} {p : Pot} {x : PotPart} {u : State} (hin : (u.die d).potIn = [r]) (hnow : (u.die d).potNow = none)
    (hpr : r.proxy = none) (hp : u.pot? d r.pa = some p) (hret : p.retire = false) (hr : r.ready = true) (hk : r.kind = .join)
    (hx : r.parts = [x]) (hn : x.word.toNat < p.n) :
    ∃ q, ((potTake d u).die d).potIn = [] ∧ (potTake d u).pot? d r.pa = some q ∧ q.ops = p.ops ++ [(.join, x.word.toNat, x.ac, x.num)]
      ∧ (potTake d u).acs = u.acs ∧ (potTake d u).mem = u.mem := by
  rw [potTake_join hnow hin hpr hp hret hr hk hx hn]
  refine ⟨_, ?_, modPot_some (fun _ => rfl) ((pot?_endReq hin).trans hp), rfl, rfl, rfl⟩
  unfold State.modPot
  rw [State.modDie_die, if_pos rfl, endReq_potIn hin]

theorem pourTaken {r y : PotReq} {p : Pot} {z : PotPart} {u u2 : State} (hin : (u.die d).potIn = [r]) (hnow : (u.die d).potNow = none)
    (hpr : r.proxy = none) (hp : u.pot? d r.pa = some p) (hret : p.retire = false) (hbad : pourBad (p.flag 60) r = false)
    (hf : fetchSource d r (p.w 0) u = u2) (hi2 : (u2.die d).potIn = [y]) (hkey : y.key = r.key) (hy : y.ready = true) (hk : y.kind = .pour)
    (hl : y.lost = false) (hx : y.parts = [z]) (hs : potSum p.op p.plen z.data % potM = y.sum % potM) (hv : p.verdict z = .fill) :
    ((potTake d u).die d).potIn = [] ∧ ((potTake d u).die d).potNow = some y ∧ (potTake d u).acs = u2.acs ∧ (potTake d u).mem = u2.mem := by
  rw [potTake_pour hnow hin hpr hp hret hbad hf hi2 hkey hy hk hl hx hs hv]
  refine ⟨?_, ?_, rfl, rfl⟩
  · rw [State.modDie_die, if_pos rfl, endReq_potIn hi2]
  · rw [State.modDie_die, if_pos rfl]

end

/-- Settles O29: each event of a pot is one step of the request, of the round or of the register that it names. -/
theorem potEvents : Obligations.PotEvents := by
  intro d s
  refine ⟨?_, ?_, ?_, ?_, ?_, ?_, ?_, ?_, ?_⟩
  · intro r q s1 pa at' home pc off hq hw hx hr hc r' u
    have harr : exec (.pourArrive d none) s = .next (potTake d u) := pourArrive_admits hq hw hx hr hc
    refine ⟨fun h => harr.trans (congrArg Host.Outcome.next (admitted_rests h)), ?_⟩
    rintro rfl hin hnow hwu hpr p x hp hret hparts hdie
    obtain ⟨hui, hun, hup, hua, hum⟩ := arrivesHere (r' := r') (u := u) hin hnow rfl rfl
    have hp' : u.pot? home r'.pa = some p := (hup _).trans hp
    refine ⟨fun hk hrd hn => ?_, fun hk hrd hl hb hfab u2 y z hrs hi2 hkey hyk hyr hyl hyp hypr hypa hs hv => ?_⟩
    · obtain ⟨q', h1, h2, h3, h4, h5⟩ := joinTaken (r := r') hui hun hpr hp' hret hrd hk hparts hn
      exact ⟨_, q', harr, h1, h2, h3, h4.trans hua, h5.trans hum⟩
    · have hbad : pourBad (p.flag 60) r' = false := by
        unfold pourBad
        show (r.kind == .pour && (r.parts.any (fun x => bits x.word 6 10 != 0) || r.fab != p.flag 60)) = false
        rw [hparts, hfab]
        simp [hb]
      have hkd : dieOf r'.key.1 = home := by
        show dieOf (match r.parts with | x :: _ => (x.ac, x.num) | [] => (0, 0)).1 = home
        rw [hparts]
        exact hdie
      exact ⟨_, harr, pourTaken (r := r') hui hun hpr hp' hret hbad (fetchSource_reads (r := r') hrd hkd hwu hrs) hi2 hkey hyr hyk hyl hyp hs hv⟩
  · intro f pa at' home pc off s1 e hn hx hr hc hnow
    have hreq : farReq f s = _ := farReq_home hn (homeReq_stands (r := farPotReq f s) hx hr hc)
    refine ⟨_, placed (Agent.ingress f.port).die pa (farPotReq f s), farPart f s, congrArg (fun z => Host.Outcome.next (potTake d z)) hreq, ?_⟩
    rw [stood_rests hnow]
    exact ⟨stood_potIn .., rfl, rfl, rfl, rfl, rfl, rfl, rfl, rfl, rfl, Nat.le_add_right .., rfl, rfl, rfl, rfl, rfl⟩
  · intro f hn hr hnow
    obtain ⟨y, hf, hyn, hya, hyw, hyk, hac, hmem, hdies⟩ := sendTo_spec { s with seq := s.seq + 1 } (.pour (256 + f.port) s.seq) f.node f.desc.toNat
      (.pour f.kind f.desc f.lost [farPart f s] f.sum f.sumi)
    refine ⟨_, y, farPart f s, congrArg (fun z => Host.Outcome.next (potTake d z)) (farReq_forwards hn hr), ?_⟩
    rw [potTake_rests (.inl (by rw [die_of_dies hdies]; exact hnow))]
    exact ⟨hf, hyn, hya, hyw, rfl, rfl, hyk, hac, hmem⟩
  · intro r x p hnow hx hp hv ha filled
    obtain ⟨q, h1, h2, h3, h4⟩ := accept_fills hnow hx hp hv ha
    exact ⟨_, q, rfl, h1, h2, h3, h4⟩
  · intro desc p hf hp h57 hr ha
    have hx : exec (.potDeadline d desc) s = .next (deadline d p.pa s) := by rw [← potAt_of_find hf]; rfl
    refine ⟨fun hc => ?_, fun hc => ?_⟩
    · obtain ⟨c, hk, htag, hcon, hsh, hrd, hcl, hco, -⟩ := close_spec p s.cycle s.wid
      exact ⟨_, _, c, hx.trans (congrArg Host.Outcome.next (deadline_closes hp h57 hr ha hc)), closeRound_pot? hp, hrd, hcl, hco, hk, htag, hcon, hsh, rfl, rfl⟩
    · rw [hx, deadline_waits hp hc]
  · intro desc p c rest hf hp hc hk hfab hset
    have hx : exec (.potOutcomeWrite d desc) s = .next (outcomeStep d p.pa s) := by rw [← potAt_of_find hf]; rfl
    exact ⟨_, hx.trans (congrArg Host.Outcome.next (outcomeStep_finishes hp hc hk hfab hset)), finishClose_frame hp hc⟩
  · intro r p w0 w1 va s1 hf hp e hw hrs
    have hrd : r.ready = false := by
      have := List.find?_some hf
      simp only [Bool.and_eq_true, Bool.not_eq_true'] at this
      exact this.2
    have hx : exec (.pourSourceDrop d) s = .next (fetchSource d r (p.w 0) s) := by
      show execPourSourceDrop d s = _
      unfold execPourSourceDrop
      simp only [hf, hp]
    rw [hx, fetchSource_refused hrd rfl hw hrs]
    exact ⟨fun h => by rw [if_neg (by rw [h]; exact Bool.false_ne_true)], fun h => by rw [if_pos h]⟩
  · intro x y p hi hp hc
    have hx : exec (.fabricCombine d 0 1) s = .next (combineHome d 0 1 s) := by
      show execFabricCombine d 0 1 s = _
      unfold execFabricCombine
      exact if_pos (by rw [hi]; exact Nat.zero_lt_succ _)
    refine ⟨_, hx.trans (congrArg Host.Outcome.next (combineHome_two hi hp hc)), ?_, rfl, rfl⟩
    rw [State.modDie_die, if_pos rfl]
    rfl
  · intro g v hg
    obtain ⟨hm, ha, hr, ho⟩ := gateWrite_spec d g v s
    exact ⟨_, congrArg Host.Outcome.next (if_pos hg), hm, ha, hr, ho⟩

end Sys2Proof

/-! # Loads of the vector registers (R341 to R344) -/

namespace Sys2Proof

open Machine

/-! ### Registers across the take of tokens -/

section
variable {n : Nat} {s s1 : State}

theorem SameRegs.ureg (h : SameRegs n s s1) (u : Nat) (a : BitVec 6) : s1.ureg n u a = s.ureg n u a := by
  obtain ⟨hcc, -, -, -, heng⟩ := h
  unfold State.ureg
  split
  · next e _ => simp only [Eng.xr, (heng e).1]
  · rw [hcc]

theorem eng_src_congr {x y : Eng} (hx : x.x = y.x) (hc : x.cb = y.cb) (b : Src) : x.src b = y.src b := by
  cases b <;> simp only [Eng.src, Eng.xr, Eng.cbr, hx, hc]

theorem SameRegs.usrc (h : SameRegs n s s1) (u : Nat) (b : Src) : s1.usrc n u b = s.usrc n u b := by
  obtain ⟨hcc, -, -, -, heng⟩ := h
  unfold State.usrc
  split
  · next e _ => exact eng_src_congr (heng e).1 (heng e).2 b
  · rw [hcc]

theorem giveFree_of_ne {e : Eid} {h : Head} (he : e ≠ .ax) : GiveFree n e h s := fun hx => absurd hx he

end

/-! ### Rows of vector accesses (R323, R342) -/

section
variable {s : State} {al : Nat} {l front rest : List W64} {va : W64}

theorem rowChecks_ok (h : ∀ va ∈ l, va.toNat < 2 ^ 55 ∧ va.toNat % al = 0) : rowChecks al l s = .ok ⟨⟩ s := by
  induction l with
  | nil => rfl
  | cons x l ih =>
    obtain ⟨hx, ha⟩ := h x List.mem_cons_self
    exact (bindM_ok (addrChecks_ok hx ha)).trans (ih fun y hy => h y (List.mem_cons_of_mem _ hy))

/-- The first row that fails its checks ends them. -/
theorem rowChecks_fault {st : Stop} (h : ∀ x ∈ front, x.toNat < 2 ^ 55 ∧ x.toNat % al = 0) (hf : addrChecks va al s = .error st s) :
    rowChecks al (front ++ va :: rest) s = .error st s := by
  induction front with
  | nil => exact bindM_error hf
  | cons x front ih =>
    obtain ⟨hx, ha⟩ := h x List.mem_cons_self
    exact (bindM_ok (addrChecks_ok hx ha)).trans (ih fun y hy => h y (List.mem_cons_of_mem _ hy))

theorem rowAddrs_eq (base step : W64) (idx : List W64) : rowAddrs base step idx = rowAt base step idx := rfl

theorem plainIdx_eq (nr : BitVec 4) : plainIdx (rowsOf nr) = firstRows nr := rfl

theorem firstRows_length (nr : BitVec 4) : (firstRows nr).length = rowsOf nr := by
  unfold firstRows rowsOf
  rw [List.length_map, List.length_range]

theorem indexList_ok {a : Agent} {k : Nat} {b : List Byte} {s2 : State} (h : readRange a va (4 * k) 4 s = .ok b s2) :
    indexList a va k s = .ok (indices b) s2 := (bindM_ok h).trans rfl

end

/-! ### Loads of v and m registers (R341, R342, R344) -/

section
variable {n : Nat} {s s1 s2 s3 s4 : State} {h : Head} {v a b c : BitVec 6}

theorem loadRows_ok {addrs : List W64} {ps : List (List (Nat × Nat × BitVec 2))} {rows : List (List Byte)}
    (hp : addrs.mapM (fun va => reach (.ac n 1) .read va.toNat 64) s1 = .ok ps s2) (hr : ps.mapM (readPieces (.ac n 1) 4) s2 = .ok rows s3) :
    loadRows n v addrs s1 = .ok () (putV n v rows s3) :=
  (bindM_ok hp).trans ((bindM_ok hr).trans rfl)

theorem exec_vld_loads {nr : BitVec 4} {b : Src} (ha : EngActs n .vl h 1 s s1) (hs : SameRegs n s s1)
    {ps : List (List (Nat × Nat × BitVec 2))} {rows : List (List Byte)}
    (hok : ∀ va ∈ rowAt (s.ureg n 1 a) (s.usrc n 1 b) (firstRows nr), va.toNat < 2 ^ 55 ∧ va.toNat % 4 = 0)
    (hp : (rowAt (s.ureg n 1 a) (s.usrc n 1 b) (firstRows nr)).mapM (fun va => reach (.ac n 1) .read va.toNat 64) s1 = .ok ps s2)
    (hr : ps.mapM (readPieces (.ac n 1) 4) s2 = .ok rows s3) :
    exec (.vld h nr v a b) s = .next (engDone n .vl h 1 (putV n v rows s3)) := by
  show execVld h nr v a b s = _
  refine engRunN_ok ha (giveFree_of_ne (by decide)) (rowChecks_ok hok) ?_
  rw [get_bindM]
  show (loadRows n v (rowAddrs (s1.ureg n 1 a) (s1.usrc n 1 b) (plainIdx (rowsOf nr))) >>= fun _ => pure EFlow.seq) s1 = _
  rw [hs.ureg, hs.usrc]
  exact (bindM_ok (loadRows_ok hp hr)).trans rfl

theorem exec_vld_faults {nr : BitVec 4} {b : Src} (ha : EngActs n .vl h 1 s s1) {front rest : List W64} {va : W64} {cause : Nat}
    (hl : rowAt (s.ureg n 1 a) (s.usrc n 1 b) (firstRows nr) = front ++ va :: rest)
    (hok : ∀ x ∈ front, x.toNat < 2 ^ 55 ∧ x.toNat % 4 = 0) (hf : addrChecks va 4 s = .error (.trap cause va 0) s) :
    exec (.vld h nr v a b) s = .next (engFault n .vl cause va 0 s) := by
  show execVld h nr v a b s = _
  refine (engRunN_chk ha (giveFree_of_ne (by decide)) (st := .trap cause va 0) (t := s) ?_).trans rfl
  show rowChecks 4 (rowAt (s.ureg n 1 a) (s.usrc n 1 b) (firstRows nr)) s = _
  rw [hl]
  exact rowChecks_fault hok hf

theorem exec_vldg_loads {nr : BitVec 4} {b : Src} (ha : EngActs n .vl h 1 s s1) (hs : SameRegs n s s1) (hs2 : SameRegs n s1 s2)
    {bytes : List Byte} {ps : List (List (Nat × Nat × BitVec 2))} {rows : List (List Byte)}
    (hc : (s.ureg n 1 c).toNat < 2 ^ 55) (hc4 : (s.ureg n 1 c).toNat % 4 = 0)
    (hi : readRange (.ac n 1) (s.ureg n 1 c) (4 * (firstRows nr).length) 4 s1 = .ok bytes s2)
    (hok : ∀ va ∈ rowAt (s2.ureg n 1 a) (s2.usrc n 1 b) (indices bytes), va.toNat < 2 ^ 55 ∧ va.toNat % 4 = 0)
    (hp : (rowAt (s2.ureg n 1 a) (s2.usrc n 1 b) (indices bytes)).mapM (fun va => reach (.ac n 1) .read va.toNat 64) s2 = .ok ps s3)
    (hr : ps.mapM (readPieces (.ac n 1) 4) s3 = .ok rows s4) :
    exec (.vldg h nr v a b c) s = .next (engDone n .vl h 1 (putV n v rows s4)) := by
  show execVldg h nr v a b c s = _
  refine engRunN_ok ha (giveFree_of_ne (by decide)) ((get_bindM _).trans (addrChecks_ok hc hc4)) ?_
  rw [firstRows_length] at hi
  rw [get_bindM, hs.ureg, bindM_ok (indexList_ok hi), ← hs2.ureg, ← hs2.usrc]
  exact (bindM_ok (rowChecks_ok hok)).trans ((bindM_ok (loadRows_ok hp hr)).trans rfl)

theorem exec_vldm_copies {c : Src} (ha : EngActs n .vl h 1 s s1) (hs : SameRegs n s s1) {ps pd : List (Nat × Nat × BitVec 2)} {bytes : List Byte}
    (h64 : (s.usrc n 1 c).toNat % 64 = 0) (hlo : 64 ≤ (s.usrc n 1 c).toNat) (hhi : (s.usrc n 1 c).toNat ≤ 65536)
    (hx64 : (s.ureg n 1 a).toNat % 64 = 0) (hy64 : (s.ureg n 1 b).toNat % 64 = 0) (hx : (s.ureg n 1 a).toNat < 2 ^ 55)
    (hy : (s.ureg n 1 b).toNat < 2 ^ 55) (hp : reach (.ac n 1) .read (s.ureg n 1 a).toNat (s.usrc n 1 c).toNat s1 = .ok ps s2)
    (hd : ownScratch (.ac n 1) n .write (s.ureg n 1 b) (s.usrc n 1 c).toNat s2 = .ok pd s3) (ho : overlap (dieOf n) ps pd = false)
    (hr : readPieces (.ac n 1) 64 ps s3 = .ok bytes s4) :
    exec (.vldm h a b c) s = .next (engDone n .vl h 1 (writePieces (.ac n 1) (s.ureg n 1 b).toNat s4 pd bytes)) := by
  show execVldm h a b c s = _
  refine engRunN_ok ha (giveFree_of_ne (by decide)) ?_ ?_
  · rw [get_bindM]
    refine (bindM_ok (need_true (by rw [h64]; simp [hlo, hhi]))).trans ?_
    refine (bindM_ok (need_true (by rw [hx64]; rfl))).trans ?_
    refine (bindM_ok (need_true (by rw [hy64]; rfl))).trans ?_
    exact (bindM_ok (addrRange_ok hx s)).trans (addrRange_ok hy s)
  · rw [get_bindM, hs.ureg, hs.ureg, hs.usrc]
    refine (bindM_ok hp).trans ((bindM_ok hd).trans ((bindM_ok (need_true ?_)).trans ((bindM_ok hr).trans rfl)))
    rw [ho]
    rfl

end

theorem vectorLoadsRule : ruleVectorLoads := by
  intro n s s1 h ha hs
  refine ⟨fun nr v a b => ?_, ?_, ?_⟩
  · intro addrs
    refine ⟨fun hok ps rows s2 s3 hp hr => exec_vld_loads ha hs hok hp hr, fun front va rest hl hok => ⟨fun hva => ?_, fun hva hal => ?_⟩⟩
    · exact exec_vld_faults ha hl hok (addrChecks_range hva)
    · exact exec_vld_faults ha hl hok (addrChecks_misaligned hva hal)
  · intro nr v a b c bytes s2 xc hc hc4 hi addrs hok ps rows s3 s4 hp hr hs2
    exact exec_vldg_loads ha hs hs2 hc hc4 hi hok hp hr
  · intro a b c ps pd bytes s2 s3 s4 x y len h64 hlo hhi hx64 hy64 hx hy hp hd ho hr
    exact exec_vldm_copies ha hs h64 hlo hhi hx64 hy64 hx hy hp hd ho hr

/-! ### Loads through a tensor descriptor (R343) -/

theorem keeps_reachOne (a : Agent) (k : AKind) (va : W64) (len : Nat) : Keeps Reads (reachOne a k va len) := by
  unfold reachOne
  refine keeps_bind reads_chains (keeps_reach ..) fun ps => ?_
  split <;> exact keeps_pure reads_chains _

theorem keeps_strongRead (a : Agent) (sc : Scope) (va : W64) (len : Nat) : Keeps Reads (strongRead a sc va len) := by
  unfold strongRead
  refine keeps_bind reads_chains (keeps_reachOne ..) fun x => ?_
  refine keeps_get_bind fun s => ?_
  cases mmioOf a.die x.1 with
  | none => exact (memStep_strongLoad ..).reads
  | some o => exact reads_mmioLoad o.1 o.2 len s

theorem keeps_readTdt (a : Agent) (base : W64) (i : Nat) : Keeps Reads (readTdt a base i) :=
  keeps_bind reads_chains (keeps_addrRange _) fun _ => keeps_bind reads_chains (keeps_reach ..) fun _ =>
    keeps_bind reads_chains (keeps_strongRead ..) fun _ => keeps_bind reads_chains (keeps_act fun _ => (memStep_acquire ..).reads) fun _ =>
      keeps_bind reads_chains (keeps_readRange ..) fun _ => keeps_pure reads_chains _

theorem keeps_useTdt (a : Agent) (base : W64) (i : Nat) : Keeps Reads (useTdt a base i) :=
  keeps_bind reads_chains (keeps_readTdt ..) fun _ => keeps_bind reads_chains (keeps_need reads_chains ..) fun _ => keeps_pure reads_chains _

theorem keeps_readUnits (a : Agent) : ∀ l got, Keeps Reads (readUnits a l got)
  | [], got => keeps_pure reads_chains _
  | (p, n) :: r, got => by
    unfold readUnits
    split
    · dsimp only
      split
      · exact keeps_bind reads_chains (keeps_pure reads_chains _) fun g => keeps_bind reads_chains (keeps_readUnits a r _) fun _ => keeps_pure reads_chains _
      · exact keeps_bind reads_chains (keeps_readPieces ..) fun g => keeps_bind reads_chains (keeps_readUnits a r _) fun _ => keeps_pure reads_chains _
    · exact keeps_bind reads_chains (keeps_readPieces ..) fun _ => keeps_bind reads_chains (keeps_readUnits a r _) fun _ => keeps_pure reads_chains _

theorem keeps_readMany (a : Agent) (l : List (W64 × Nat)) : Keeps Reads (readMany a l) :=
  keeps_bind reads_chains (keeps_bind reads_chains (keeps_mapM reads_chains (fun _ => keeps_bind reads_chains (keeps_addrRange _) fun _ =>
    keeps_bind reads_chains (keeps_reach ..) fun _ => keeps_pure reads_chains _) _) fun _ => keeps_readUnits ..) fun _ => keeps_pure reads_chains _

section
variable {n : Nat} {s s1 s2 s3 : State} {h : Head} {f : FOp} {v a b c : BitVec 6} {fw : BitVec 32} {t : Tdt} {raw : List (List Byte)}

/-- What a VLDB leaves: its lanes in vD, and the elements counted. -/
def vldbDone (n : Nat) (f : FOp) (v : BitVec 6) (r : List Nat × Nat) (s : State) : State :=
  s.modAc n fun a =>
    { a with
      vec := a.vec.setV (a.cc.phys v) (BitVec.ofNat 8192 (leNat (ofElems (if f.bf then 2 else 4) r.1)))
      cc := a.cc.satCount 0x044 r.2 }

/-- The base of the tensor descriptors of a task. -/
def tdtBase (a : AC) : W64 := match a.cc.task with | some t => t.word 5 | none => 0

theorem vldbDone_frame (n : Nat) (f : FOp) (v : BitVec 6) (r : List Nat × Nat) (s : State) :
    ((vldbDone n f v r s).ac n).vec = (s.ac n).vec.setV ((s.ac n).cc.phys v) (BitVec.ofNat 8192 (leNat (ofElems (if f.bf then 2 else 4) r.1)))
      ∧ (((vldbDone n f v r s).ac n).cc.sr 0x044).toNat = Min.min 0xFFFFFFFF (((s.ac n).cc.sr 0x044).toNat + r.2) := by
  unfold vldbDone
  rw [State.modAc_ac, if_pos rfl]
  refine ⟨rfl, ?_⟩
  show (((s.ac n).cc.satCount 0x044 r.2).sr 0x044).toNat = _
  rw [CC.satCount, CC.setSr_sr, if_pos rfl, BitVec.toNat_ofNat, Nat.min_comm]
  exact Nat.mod_eq_of_lt (by omega)

theorem exec_vldb_loads (ha : EngActs n .vl h 1 s s1) (hs : SameRegs n s s1) (hw : fmtWordOk (fw.setWidth 64) false = true)
    (hi : (s.ureg n 1 a).toNat < 4096) (ht : useTdt (.ac n 1) (tdtBase (s1.ac n)) (s.ureg n 1 a).toNat s1 = .ok t s2)
    (hfam : bits (t.fmt.setWidth 64) 4 4 = 0 ∨ bits (t.fmt.setWidth 64) 4 4 = 1 ∨ bits (t.fmt.setWidth 64) 4 4 = 6 ∨ bits (t.fmt.setWidth 64) 4 4 = 7)
    (hm : fmtMatch (fw.setWidth 64) 0 (s.ureg n 1 a).toNat t s2 = .ok () s2)
    {lanes : List (Nat × Nat × List (W64 × Nat))}
    (hl : lanes = vldbLanes t (if f.bf then 32 else 16) (bits (s.ureg n 1 b) 0 32) (bits (s.ureg n 1 c) 0 32) (bits (s.ureg n 1 c) 32 32) (bits (s.ureg n 1 b) 32 32))
    (hr : readMany (.ac n 1) (lanes.flatMap fun x => x.2.2) s2 = .ok raw s3) :
    exec (.vldb h f v a b c fw) s = .next (engDone n .vl h 1 (vldbDone n f v (vldbOut t f fw (((s3.ac n).cc.sr 0x0D0).setWidth 32) (bits (s.ureg n 1 b) 0 32)
      (bits (s.ureg n 1 c) 0 32) (bits (s.ureg n 1 c) 32 32) (bits (s.ureg n 1 b) 32 32) (dealReads lanes raw)) s3)) := by
  have hcc : (s3.ac n).cc = (s1.ac n).cc := (((keeps_readMany ..).ok hr).cc n).trans (((keeps_useTdt ..).ok ht).cc n)
  show execVldb h f v a b c fw s = _
  subst hl
  refine engRunN_ok ha (giveFree_of_ne (by decide)) ?_ ?_
  · rw [get_bindM]
    exact (bindM_ok (need_true hw)).trans (need_true (decide_eq_true hi))
  · rw [get_bindM, hs.ureg, hs.ureg, hs.ureg, hcc]
    refine (bindM_ok ht).trans ((bindM_ok (need_true ?_)).trans ((bindM_ok hm).trans ((bindM_ok hr).trans rfl)))
    rcases hfam with hf | hf | hf | hf <;> rw [hf] <;> rfl

end

theorem tensorLoadRule : ruleTensorLoad := by
  intro n s s1 s2 s3 h f v a b c fw t raw ha hs i xb xc base lanes hw hi ht hfam hm hr r
  exact ⟨_, exec_vldb_loads ha hs hw hi ht hfam hm rfl hr, (vldbDone_frame ..).1, (vldbDone_frame ..).2, rfl, rfl⟩

/-- Settles O30: the checks of the rows in their order, then the loads as one computation. -/
theorem vectorLoads : Obligations.VectorLoads := ⟨vectorLoadsRule, tensorLoadRule⟩

end Sys2Proof

/-! # Stores of the vector registers, and return-free atomics (R131, R132, R345, R346) -/

namespace Sys2Proof

open Machine

/-! ### The rows of a v register (R342, R345) -/

theorem leBytes_mod (k v m : Nat) (hm : 8 * k ≤ m) : leBytes k (v % 2 ^ m) = leBytes k v := by
  induction k generalizing v m with
  | zero => rfl
  | succ k ih =>
    obtain ⟨j, rfl⟩ : ∃ j, m = j + 8 := ⟨m - 8, by omega⟩
    have hhead : BitVec.ofNat 8 (v % 2 ^ (j + 8)) = BitVec.ofNat 8 v := by
      apply BitVec.eq_of_toNat_eq
      rw [BitVec.toNat_ofNat, BitVec.toNat_ofNat]
      exact Nat.mod_mod_of_dvd _ (Nat.pow_dvd_pow 2 (by omega))
    have htail : v % 2 ^ (j + 8) / 256 = v / 256 % 2 ^ j := by
      rw [Nat.pow_add, Nat.mul_comm]
      exact Nat.mod_mul_right_div_self v 256 (2 ^ j)
    show BitVec.ofNat 8 _ :: leBytes k _ = BitVec.ofNat 8 v :: leBytes k (v / 256)
    rw [hhead, htail, ih _ j (by omega)]

theorem rowBytes_eq (v : VWord) (i : Nat) : rowBytes v i = leBytes 64 (v.toNat / 2 ^ (512 * i)) := by
  unfold rowBytes
  rw [BitVec.extractLsb'_toNat, Nat.shiftRight_eq_div_pow]
  exact leBytes_mod 64 _ _ (Nat.le_refl _)

theorem vRows_eq (n : Nat) (v : BitVec 6) (nr : BitVec 4) (s : State) : s.vRows n v (rowsOf nr) = storedRows n v (firstRows nr).length s := by
  unfold State.vRows storedRows AC.vreg
  rw [firstRows_length]
  exact List.map_congr_left fun i _ => rowBytes_eq _ i

theorem storedRows_congr {n : Nat} {v : BitVec 6} {k : Nat} {s t : State} (h : SameRegs n s t) : storedRows n v k t = storedRows n v k s := by
  obtain ⟨hcc, hvec, -⟩ := h
  unfold storedRows AC.vreg
  rw [hcc, hvec]

/-! ### VST and VSTS (R345) -/

section
variable {n : Nat} {s s1 s2 s3 : State} {h : Head} {v a b c : BitVec 6}

theorem rows_join (a : Agent) {l : List (W64 × List (Nat × Nat × BitVec 2) × List Byte)} (hm : ∀ x ∈ l, ∀ q ∈ x.2.1, mmioOf a.die q.1 = none) (s : State) :
    StoresJoin a (l.flatMap fun x => pieceWrites a.die (s.opTag a) x.1.toNat x.2.1 x.2.2) s
      (l.foldl (fun s x => writePieces a x.1.toNat s x.2.1 x.2.2) s) := by
  induction l generalizing s with
  | nil => exact ⟨rfl, (List.append_nil _).symm, fun _ _ => rfl⟩
  | cons x l ih =>
    have hone := writePieces_join a (hm x List.mem_cons_self) x.1.toNat s x.2.2
    have hrest := ih (fun y hy => hm y (List.mem_cons_of_mem _ hy)) (writePieces a x.1.toNat s x.2.1 x.2.2)
    have htag : (writePieces a x.1.toNat s x.2.1 x.2.2).opTag a = s.opTag a := by
      rw [hone.rest]
      exact opTag_of_rest s a
    rw [htag] at hrest
    exact hone.trans hrest

/-- The state once rows have been stored at their addresses. -/
def rowsStored (n : Nat) (addrs : List W64) (ps : List (List (Nat × Nat × BitVec 2))) (rows : List (List Byte)) (s : State) : State :=
  (addrs.zip (ps.zip rows)).foldl (fun s x => writePieces (.ac n 3) x.1.toNat s x.2.1 x.2.2) s

theorem rowsStored_join {addrs : List W64} {ps : List (List (Nat × Nat × BitVec 2))} (rows : List (List Byte))
    (hm : ∀ p ∈ ps, ∀ q ∈ p, mmioOf (dieOf n) q.1 = none) (s : State) : RowsJoin n addrs ps rows s (rowsStored n addrs ps rows s) := by
  obtain ⟨hrest, hown, hothers⟩ := rows_join (.ac n 3) (l := addrs.zip (ps.zip rows)) (fun x hx =>
    hm x.2.1 (List.of_mem_zip (List.of_mem_zip hx).2).1) s
  exact ⟨(congrArg State.mem hrest :), (congrArg State.hist hrest :), (congrArg State.acs hrest :), (congrArg State.dies hrest :), hown, hothers⟩

theorem storeRows_ok {addrs : List W64} {ps : List (List (Nat × Nat × BitVec 2))} {rows : List (List Byte)}
    (hp : addrs.mapM (fun va => reach (.ac n 3) .write va.toNat 64) s1 = .ok ps s2) :
    storeRows n rows addrs s1 = .ok () (rowsStored n addrs ps rows s2) := (bindM_ok hp).trans rfl

theorem exec_vst_stores {nr : BitVec 4} {b : Src} (ha : EngActs n .vs h 1 s s1) (hs : SameRegs n s s1) {ps : List (List (Nat × Nat × BitVec 2))}
    (hok : ∀ va ∈ rowAt (s.ureg n 3 a) (s.usrc n 3 b) (firstRows nr), va.toNat < 2 ^ 55 ∧ va.toNat % 4 = 0)
    (hp : (rowAt (s.ureg n 3 a) (s.usrc n 3 b) (firstRows nr)).mapM (fun va => reach (.ac n 3) .write va.toNat 64) s1 = .ok ps s2) :
    exec (.vst h nr v a b) s = .next (engDone n .vs h 1
      (rowsStored n (rowAt (s.ureg n 3 a) (s.usrc n 3 b) (firstRows nr)) ps (storedRows n v (firstRows nr).length s1) s2)) := by
  show execVst h nr v a b s = _
  refine engRunN_ok ha (giveFree_of_ne (by decide)) (rowChecks_ok hok) ?_
  rw [get_bindM]
  show (storeRows n (s1.vRows n v (rowsOf nr)) (rowAddrs (s1.ureg n 3 a) (s1.usrc n 3 b) (plainIdx (rowsOf nr))) >>= fun _ => pure EFlow.seq) s1 = _
  rw [hs.ureg, hs.usrc, vRows_eq]
  exact (bindM_ok (storeRows_ok hp)).trans rfl

theorem exec_vsts_stores {nr : BitVec 4} {b : Src} (ha : EngActs n .vs h 1 s s1) (hs : SameRegs n s s1) {bytes : List Byte}
    {ps : List (List (Nat × Nat × BitVec 2))} (hc : (s.ureg n 3 c).toNat < 2 ^ 55) (hc4 : (s.ureg n 3 c).toNat % 4 = 0)
    (hi : readRange (.ac n 3) (s.ureg n 3 c) (4 * (firstRows nr).length) 4 s1 = .ok bytes s2)
    (hok : ∀ va ∈ rowAt (s.ureg n 3 a) (s.usrc n 3 b) (indices bytes), va.toNat < 2 ^ 55 ∧ va.toNat % 4 = 0)
    (hp : (rowAt (s.ureg n 3 a) (s.usrc n 3 b) (indices bytes)).mapM (fun va => reach (.ac n 3) .write va.toNat 64) s2 = .ok ps s3) :
    exec (.vsts h nr v a b c) s = .next (engDone n .vs h 1
      (rowsStored n (rowAt (s.ureg n 3 a) (s.usrc n 3 b) (indices bytes)) ps (storedRows n v (firstRows nr).length s1) s3)) := by
  show execVsts h nr v a b c s = _
  refine engRunN_ok ha (giveFree_of_ne (by decide)) ((get_bindM _).trans (addrChecks_ok hc hc4)) ?_
  rw [firstRows_length] at hi
  rw [get_bindM, hs.ureg, bindM_ok (indexList_ok hi), hs.ureg, hs.usrc, vRows_eq]
  exact (bindM_ok (rowChecks_ok hok)).trans ((bindM_ok (storeRows_ok hp)).trans rfl)

end

/-! ### Room for atomics (R132) -/

/-- Lines gathered once each. -/
def gather (p : Nat → Prop) [DecidablePred p] (acc l : List Nat) : List Nat := l.foldl (fun acc x => if acc.contains x ∨ p x then acc else x :: acc) acc

section
variable {p : Nat → Prop} [DecidablePred p]

theorem gather_nodup {acc : List Nat} (l : List Nat) (h : acc.Nodup) : (gather p acc l).Nodup := by
  induction l generalizing acc with
  | nil => exact h
  | cons x l ih =>
    refine ih ?_
    dsimp only
    split
    · exact h
    · next hx =>
      refine List.nodup_cons.mpr ⟨fun hm => hx (.inl (by simpa using hm)), h⟩

theorem mem_gather {acc : List Nat} {l : List Nat} {y : Nat} (hy : y ∈ gather p acc l) : y ∈ acc ∨ y ∈ l ∧ ¬p y := by
  induction l generalizing acc with
  | nil => exact .inl hy
  | cons x l ih =>
    rcases ih hy with hm | ⟨hm, hn⟩
    · dsimp only at hm
      split at hm
      · exact .inl hm
      · next hx =>
        rcases List.mem_cons.mp hm with rfl | hm
        · exact .inr ⟨List.mem_cons_self, fun hp => hx (.inr hp)⟩
        · exact .inl hm
    · exact .inr ⟨List.mem_cons_of_mem _ hm, hn⟩

end

section
variable {n : Nat} {s : State} {pas : List Nat}

/-- The queue of a kettle for atomics. -/
def atomQueue (s : State) (q : Nat) : List KAtom := (smGet Kettle.reset s.kettles q).atomq

theorem atomLines_eq (s : State) (sl : Option Nat) :
    s.atomLines sl = gather (fun l => sliceOf l ≠ sl) [] (s.kettles.flatMap fun k => k.2.atomq.map fun x => x.pa / 128) := rfl

theorem mem_atomLines {sl : Option Nat} {l : Nat} (h : l ∈ s.atomLines sl) : sliceOf l = sl ∧ ∃ k ∈ s.kettles, ∃ y ∈ k.2.atomq, y.pa / 128 = l := by
  rw [atomLines_eq] at h
  rcases mem_gather h with h | ⟨h, hs⟩
  · cases h
  · obtain ⟨k, hk, hl⟩ := List.mem_flatMap.mp h
    obtain ⟨y, hy, hy'⟩ := List.mem_map.mp hl
    exact ⟨not_not.mp hs, k, hk, y, hy, hy'⟩

/-- A slice holds no more lines than any list of distinct lines that it will hold may have. -/
theorem lines_fit {sl : Option Nat}
    (h : ∀ ls : List Nat, ls.Nodup → (∀ l ∈ ls, sliceOf l = sl ∧ (l ∈ pas.map (· / 128) ∨ ∃ k ∈ s.kettles, ∃ y ∈ k.2.atomq, y.pa / 128 = l)) →
      ls.length ≤ 1024) :
    (s.atomLines sl).length + (gather (fun l => (s.atomLines sl).contains l ∨ sliceOf l ≠ sl) [] (pas.map (· / 128))).length ≤ 1024 := by
  rw [← List.length_append]
  have hnew {l : Nat} (hl : l ∈ gather (fun l => (s.atomLines sl).contains l ∨ sliceOf l ≠ sl) [] (pas.map (· / 128))) :
      l ∈ pas.map (· / 128) ∧ l ∉ s.atomLines sl ∧ sliceOf l = sl := by
    rcases mem_gather hl with hl | ⟨hl, hn⟩
    · cases hl
    · exact ⟨hl, fun hm => hn (.inl (by simpa using hm)), not_not.mp fun hs => hn (.inr hs)⟩
  refine h _ (List.nodup_append.mpr ⟨?_, gather_nodup _ List.nodup_nil, fun x hx y hy hxy => (hnew hy).2.1 (hxy ▸ hx)⟩) fun l hl => ?_
  · rw [atomLines_eq]
    exact gather_nodup _ List.nodup_nil
  · rcases List.mem_append.mp hl with hl | hl
    · exact ⟨(mem_atomLines hl).1, .inr (mem_atomLines hl).2⟩
    · exact ⟨(hnew hl).2.2, .inl (hnew hl).1⟩

theorem atomRoom_true (hq : ∀ q, (∃ x ∈ pas, homeKettle x = some q) →
      (atomQueue s q).length + (pas.filter fun x => homeKettle x == some q).length ≤ 1024)
    (hl : ∀ (sl : Option Nat) (ls : List Nat), ls.Nodup →
      (∀ l ∈ ls, sliceOf l = sl ∧ (l ∈ pas.map (· / 128) ∨ ∃ k ∈ s.kettles, ∃ y ∈ k.2.atomq, y.pa / 128 = l)) → ls.length ≤ 1024) :
    s.atomRoom pas = true := by
  unfold State.atomRoom
  refine List.all_eq_true.mpr fun pa hpa => Bool.and_eq_true_iff.mpr ⟨?_, decide_eq_true (.inr (lines_fit (hl _)))⟩
  split
  · next q hk => exact decide_eq_true (hq q ⟨pa, hpa, hk⟩)
  · rfl

theorem atomRoom_false (hq : ∃ q, ∃ x ∈ pas, homeKettle x = some q
      ∧ 1024 < (atomQueue s q).length + (pas.filter fun x => homeKettle x == some q).length) : s.atomRoom pas = false := by
  obtain ⟨q, x, hx, hk, hlt⟩ := hq
  unfold State.atomRoom
  refine Bool.eq_false_iff.mpr fun hall => ?_
  have hone := (Bool.and_eq_true_iff.mp (List.all_eq_true.mp hall x hx)).1
  rw [hk] at hone
  exact absurd (of_decide_eq_true hone) (Nat.not_le.mpr hlt)

/-! ### Return-free atomics on their way (R131) -/

/-- What a queue entry names: its word, its operation, its lanes and the cluster that sent it. -/
def atomEntry (x : KAtom) : Option (Nat × RfOp × List W32 × BitVec 16 × Nat) :=
  match x.what with | .atom op l m ac _ => some (x.pa, op, l, m, ac) | .store .. => none

theorem sendAtoms_frame (n : Nat) (op : RfOp) (mask : BitVec 16) (l : List (Nat × List W32)) (s : State) :
    (sendAtoms n op mask l s).mem = s.mem ∧ (sendAtoms n op mask l s).hist = s.hist
      ∧ ∀ q, (atomQueue (sendAtoms n op mask l s) q).map atomEntry = (atomQueue s q).map atomEntry
        ++ (l.filter fun x => homeKettle x.1 == some q).map fun x => some (x.1, op, x.2, mask, n) := by
  induction l generalizing s with
  | nil => exact ⟨rfl, rfl, fun q => (List.append_nil _).symm⟩
  | cons x l ih =>
    obtain ⟨pa, lanes⟩ := x
    unfold sendAtoms at ih ⊢
    rw [List.foldl_cons]
    dsimp only
    cases hk : homeKettle pa with
    | none =>
      obtain ⟨hm, hh, hq⟩ := ih s
      refine ⟨hm, hh, fun q => ?_⟩
      rw [hq q, List.filter_cons_of_neg (by rw [hk]; simp)]
    | some q0 =>
      obtain ⟨hm, hh, hq⟩ := ih (({ s with kettles := smSet s.kettles q0 { smGet Kettle.reset s.kettles q0 with atomq := (smGet Kettle.reset s.kettles q0).atomq
        ++ [KAtom.mk pa (.atom op lanes mask n ((s.ac n).io.vsta + 1))] } } : State).modAc n fun a => { a with io := { a.io with vsta := (s.ac n).io.vsta + 1 } })
      refine ⟨hm, hh, fun q => ?_⟩
      rw [hq q]
      have hone : atomQueue (({ s with kettles := smSet s.kettles q0 { smGet Kettle.reset s.kettles q0 with atomq := (smGet Kettle.reset s.kettles q0).atomq
          ++ [KAtom.mk pa (.atom op lanes mask n ((s.ac n).io.vsta + 1))] } } : State).modAc n fun a => { a with io := { a.io with vsta := (s.ac n).io.vsta + 1 } }) q
          = if q = q0 then atomQueue s q ++ [KAtom.mk pa (.atom op lanes mask n ((s.ac n).io.vsta + 1))] else atomQueue s q := by
        show (smGet Kettle.reset (smSet s.kettles q0 _) q).atomq = _
        rw [smGet_smSet]
        split
        · next he => rw [he]; rfl
        · rfl
      rw [hone]
      by_cases he : q = q0
      · subst he
        rw [if_pos rfl, List.filter_cons_of_pos (by rw [hk]; simp), List.map_append, List.append_assoc]
        rfl
      · rw [if_neg he, List.filter_cons_of_neg (by rw [hk]; simpa using fun h => he h.symm)]

end

section
variable {n : Nat} {s s1 s2 s3 : State} {h : Head} {v a b c : BitVec 6} {op : RfOp} {nr : BitVec 4} {lanes : BitVec 16} {bytes : List Byte} {pas : List Nat}

/-- The atomics of rows of a register, each with the word it is sent to. -/
def rowAtoms (pas : List Nat) (rows : List (List Byte)) : List (Nat × List W32) :=
  (pas.zip rows).map fun x => (x.1, (elems 4 x.2).map (BitVec.ofNat 32 ·))

theorem exec_vsta_eq (ha : EngActs n .vs h 1 s s1) (hs : SameRegs n s s1) (hc : (s.ureg n 3 c).toNat < 2 ^ 55) (hc4 : (s.ureg n 3 c).toNat % 4 = 0)
    (hi : readRange (.ac n 3) (s.ureg n 3 c) (4 * (firstRows nr).length) 4 s1 = .ok bytes s2)
    (hok : ∀ va ∈ rowAt (s.ureg n 3 a) (s.ureg n 3 b) (indices bytes), va.toNat < 2 ^ 55 ∧ va.toNat % 64 = 0)
    (hw : atomicWords (.ac n 3) (rowAt (s.ureg n 3 a) (s.ureg n 3 b) (indices bytes)) s2 = .ok pas s3) :
    exec (.vsta h op nr v a b c lanes) s = if s3.atomRoom pas = true
      then .next (engDone n .vs h 1 (sendAtoms n op (if h.len = .w3 then lanes else 0xFFFF) (rowAtoms pas (storedRows n v (firstRows nr).length s1)) s3))
      else .next (engStop n .vs (.vsta h op nr v a b c lanes) .wait s3) := by
  show execVsta h op nr v a b c lanes s = _
  rw [firstRows_length] at hi
  split
  · next hr =>
    refine engRunN_ok ha (giveFree_of_ne (by decide)) ((get_bindM _).trans (addrChecks_ok hc hc4)) ?_
    rw [get_bindM, hs.ureg, bindM_ok (indexList_ok hi), hs.ureg, hs.ureg, vRows_eq]
    refine (bindM_ok (rowChecks_ok hok)).trans ((bindM_ok hw).trans ?_)
    rw [get_bindM, hr]
    rfl
  · next hr =>
    refine engRunN_stop ha (giveFree_of_ne (by decide)) ((get_bindM _).trans (addrChecks_ok hc hc4)) ?_
    rw [get_bindM, hs.ureg, bindM_ok (indexList_ok hi), hs.ureg, hs.ureg, vRows_eq]
    refine (bindM_ok (rowChecks_ok hok)).trans ((bindM_ok hw).trans ?_)
    rw [get_bindM, Bool.eq_false_iff.mpr hr]
    rfl

theorem rowAtoms_entries (pas : List Nat) (rows : List (List Byte)) (op : RfOp) (mask : BitVec 16) (n q : Nat) :
    ((rowAtoms pas rows).filter fun x => homeKettle x.1 == some q).map (fun x => some (x.1, op, x.2, mask, n))
      = ((pas.zip rows).filter fun x => homeKettle x.1 == some q).map fun x => some (x.1, op, (elems 4 x.2).map (BitVec.ofNat 32 ·), mask, n) := by
  unfold rowAtoms
  rw [List.filter_map, List.map_map]
  rfl

end

/-- Settles O31: the checks of the rows, then their stores in order; VSTA waits exactly where a queue or a slice has no room. -/
theorem vectorStores : Obligations.VectorStores := by
  intro n s s1 h ha hs
  refine ⟨?_, ?_, ?_, ?_⟩
  · intro nr v a b addrs hok ps s2 hp hm
    exact ⟨_, exec_vst_stores ha hs hok hp, rowsStored_join _ hm s2⟩
  · intro nr v a b c bytes s2 xc hc hc4 hi hs2 addrs hok ps s3 hp hm
    refine ⟨_, exec_vsts_stores ha hs hc hc4 hi hok hp, ?_⟩
    rw [storedRows_congr hs2]
    exact rowsStored_join _ hm s3
  · intro op nr v a b c lanes bytes s2 xc hc hc4 hi hs2 addrs hok pas s3 hw queue hq hl entry
    obtain ⟨hmem, hhist, hent⟩ := sendAtoms_frame n op (if h.len = .w3 then lanes else 0xFFFF) (rowAtoms pas (storedRows n v (firstRows nr).length s1)) s3
    refine ⟨_, (exec_vsta_eq ha hs hc hc4 hi hok hw).trans (if_pos (atomRoom_true hq hl)), hmem, hhist, fun q => ?_⟩
    rw [← rowAtoms_entries]
    exact hent q
  · intro op nr v a b c lanes bytes s2 xc hc hc4 hi hs2 addrs hok pas s3 hw hq i
    refine (exec_vsta_eq ha hs hc hc4 hi hok hw).trans (if_neg ?_)
    rw [atomRoom_false hq]
    exact Bool.false_ne_true

end Sys2Proof

/-! # RWAIT, and the second word of a header (R348, R92) -/

namespace Sys2Proof

open Machine

/- The evaluations below are checked one after another: side by side they would hold a thread each. -/
set_option Elab.async false

/-! ### RWAIT and a header word that an acquire brings (R348, R92) -/

/-- Whether an access passes, what it gives, and the state after it. -/
def passes {α : Type} (m : M α) (s : State) : Bool := match m s with | .ok _ _ => true | .error _ _ => false
def given {α : Type} [Inhabited α] (m : M α) (s : State) : α := match m s with | .ok r _ => r | .error _ _ => default
def afterwards {α : Type} (m : M α) (s : State) : State := match m s with | .ok _ t => t | .error _ t => t

theorem passes_eq {α : Type} [Inhabited α] {m : M α} {s : State} (h : passes m s = true) : m s = .ok (given m s) (afterwards m s) := by
  unfold passes at h
  unfold given afterwards
  split at h
  · rename_i hm
    rw [hm]
  · cases h

/-- RWAIT on the control core of cluster 0, of the ring that s1 names, into s4 and s5. -/
def waitRing : Instr := .rwait ⟨.w1, .cc false 0⟩ 4 1

/-- The words of a consumer copy of one slot of 128 bytes, which waits for the header with SEQ 0. -/
def oneSlot : List Byte := leBytes 16 0 ++ leBytes 8 (2 ^ 32 + 2 ^ 16)

/-- A strong store of cluster 1 to the second word of the slot's header, released at .fab. -/
def newHeader : Version := ⟨1, 7, some (.ac 1 0), [(.home, 1)], [(.ac 1 0, .fab)], true, OpTag.none⟩

/-- Cluster 0 has the copy in its scratch, at virtual address 0; it may read no older second word of the header, and has not acquired the new one. -/
def ringState : State :=
  let s := loadBytes 0x20000000000 oneSlot (loadMap State.reset)
  let s := loadBytes 0x10000010000 (bytes64 (pack [(0, 3 + 0x20000000000 + 7 * 2 ^ 53)])) s
  { (s.modCC 0 fun c => { (c.setSr 0x0C0 4) with task := some loadTask }) with
    cur := .ac 0 0, wid := 1, hist := smSet s.hist (0x20000000000 + 136) [newHeader, initVersion 0],
    agm := smSet s.agm (Agent.ac 0 0).key ⟨[], [], [], 1⟩ }

/-- The three accesses that RWAIT makes, and the states between them. -/
def ringCopy : M (Nat × List W64) := consumerCopy 0 .read 0
def headerWord (i : Nat) : M (List Byte) := strongRead (.ac 0 0) .ac (BitVec.ofNat 64 (128 + 8 * i)) 8
def ringRead : State := afterwards ringCopy ringState
def firstRead : State := afterwards (headerWord 0) ringRead
def secondRead : State := afterwards (headerWord 1) firstRead

theorem ringCopy_passes : passes ringCopy ringState = true := by decide +kernel
theorem firstWord_passes : passes (headerWord 0) ringRead = true := by decide +kernel
theorem secondWord_passes : passes (headerWord 1) firstRead = true := by decide +kernel

theorem ringCopy_words : ((given ringCopy ringState).2.getD 1 0, (given ringCopy ringState).2.getD 2 0) = (0, 0x100010000) := by decide +kernel
theorem firstWord_seq : bits (le64 (given (headerWord 0) ringRead)) 32 32 = 0 := by decide +kernel

/-- What control core 0 has read of writes that are not in its view. -/
def State.seenByCc (s : State) : SMap Nat := (s.agent (.ac 0 0)).seen

/-- The machine acquires before it reads the second word, which is in the view then. -/
theorem waitRing_seen : (match exec waitRing ringState with | .next t => State.seenByCc t | _ => [(0, 0)]) = [] := by decide +kernel

/-- Read before the acquire, the second word is a write that is not in the view. -/
theorem secondRead_seen :
    State.seenByCc (acquire (.ac 0 0) .fab (acquire (.ac 0 0) .pkg secondRead)) = [(0x20000000088, 1)] := by decide +kernel

theorem seenByCc_ccSet (n : Nat) (h : Head) (f : CC → CC) (s : State) : State.seenByCc (ccDone n h (s.modCC n f)) = State.seenByCc s := rfl

theorem ringCopy_ok : ringCopy ringState = .ok (given ringCopy ringState) ringRead := passes_eq ringCopy_passes
theorem firstWord_ok : headerWord 0 ringRead = .ok (given (headerWord 0) ringRead) firstRead := passes_eq firstWord_passes
theorem secondWord_ok : headerWord 1 firstRead = .ok (given (headerWord 1) firstRead) secondRead := passes_eq secondWord_passes

/-- What the statement says of a task's RWAIT of the slot 0 of the copy at virtual address 0, when the header is there. -/
theorem statement_rwait (hr : Obligations.Rings) {s s1 s2 s3 : State} {h : Head} {r : Nat × List W64} {b0 b1 : List Byte} (acts : CcActs 0 h s)
    (ha : (s.ac 0).cc.s 1 = 0) (hcopy : ringCopy s = .ok r s1) (hw : (r.2.getD 1 0, r.2.getD 2 0) = (0, 0x100010000))
    (h0 : headerWord 0 s1 = .ok b0 s2) (hseq : bits (le64 b0) 32 32 = 0) (h1 : headerWord 1 s2 = .ok b1 s3) :
    ∃ t, exec (.rwait h 4 1) s = .next t ∧ State.seenByCc t = State.seenByCc (acquire (.ac 0 0) .fab (acquire (.ac 0 0) .pkg s3)) := by
  obtain ⟨pa, w⟩ := r
  obtain ⟨-, hwait, -⟩ := hr 0 s s h 1
  obtain ⟨hw1, hw2⟩ := Prod.mk.inj hw
  have hhva : (s.ac 0).cc.s 1 + BitVec.ofNat 64 (128 + bits (w.getD 1 0) 0 6 * bits (w.getD 2 0) 32 16 * 128) = BitVec.ofNat 64 128 := by
    rw [ha, hw1, hw2]
    decide +kernel
  have hrule := hwait 4 pa w s1 b0 s2 acts (by rw [ha]; exact hcopy)
  simp only [hhva] at hrule
  obtain ⟨-, hgo⟩ := hrule (by decide) h0
  obtain ⟨hexec, -⟩ := hgo (by rw [hw1, hseq]; rfl) b1 s3 h1
  exact ⟨_, hexec, seenByCc_ccSet _ _ _ _⟩

theorem ringState_acts : CcActs 0 ⟨.w1, .cc false 0⟩ ringState := ⟨rfl, by decide +kernel⟩

/-- Refutes O32: RWAIT acquires once it has read the first word of the header, and reads the second word after that; the statement reads it before
the acquire, so that it counts as read outside the view. -/
theorem not_rings : ¬ Obligations.Rings := by
  intro hr
  obtain ⟨t, hexec, ht⟩ := statement_rwait hr ringState_acts (by decide +kernel) ringCopy_ok ringCopy_words firstWord_ok firstWord_seq secondWord_ok
  have hseen := waitRing_seen
  rw [waitRing, hexec] at hseen
  exact absurd ((secondRead_seen.symm.trans ht.symm).trans hseen) (by decide)

end Sys2Proof

/-! # ASTAT at the end of a loop body (R409, R303) -/

namespace Sys2Proof

open Machine

/- The evaluations below are checked one after another: side by side they would hold a thread each. -/
set_option Elab.async false

/-! ### ASTAT into the count of a loop level whose body ends (R409, R303) -/

/-- ASTAT of register 0 of a tile into x16, the count of loop level 0, in one word. -/
def astatCount : Instr := .astat ⟨.w1, .en 0 0⟩ 0 16 (.r 0)

/-- AX of cluster 0 stands at the last instruction of the body of its loop level 0. -/
def bodyEndAx : State :=
  { (State.reset.modEng 0 .ax fun x => { x with act0 := true, live0s := 0, live0e := 4 }) with cur := engAgent 0 .ax }

/-- The end-of-body test counts the value down that ASTAT has put there. -/
theorem astatCount_counted :
    (match exec astatCount bodyEndAx with | .next t => ((t.ac 0).ax.xr 16, (t.tile 0 0).r 0) | _ => (0, 0)) = (0x3F7F, 0x3F80) := by decide +kernel

theorem bodyEndAx_acts : EngActs 0 .ax ⟨.w1, .en 0 0⟩ 1 bodyEndAx bodyEndAx := ⟨rfl, by decide +kernel, rfl⟩

theorem bodyEndAx_free (ti : Nat) : TileFree 0 ti bodyEndAx := fun c hc => by
  have hq : (bodyEndAx.ac 0).axq = [] := by decide +kernel
  rw [hq] at hc
  cases hc

theorem sameRegs_self (n : Nat) (s : State) : SameRegs n s s := ⟨rfl, rfl, rfl, rfl, fun _ => ⟨rfl, rfl⟩⟩

/-- Refutes O41: ASTAT into the count of a loop level whose body ends there does not leave the tile's value in it: the end-of-body test counts it down. -/
theorem not_arrayRegisters : ¬ Obligations.ArrayRegisters := by
  intro h
  obtain ⟨-, -, hstat, -⟩ := h 0 bodyEndAx bodyEndAx _ bodyEndAx_acts (sameRegs_self 0 bodyEndAx)
  obtain ⟨t, ht, htiles, hx, -⟩ := hstat 0 16 (.r 0) (bodyEndAx_free _)
  have hr : (bodyEndAx.tile 0 (bits ((bodyEndAx.ac 0).ax.src (.r 0)) 40 4)).r 0 = 0x3F80 := by decide +kernel
  have hcount := astatCount_counted
  rw [astatCount, ht] at hcount
  have hgot : (t.ac 0).ax.xr 16 = 0x3F7F := congrArg Prod.fst hcount
  exact absurd ((hgot.symm.trans hx).trans hr) (by decide)

end Sys2Proof

/-! # AFWD at the end of a loop body (R401, R303) -/

namespace Sys2Proof

open Machine

/- The evaluations below are checked one after another: side by side they would hold a thread each. -/
set_option Elab.async false

/-! ### AFWD that computes its scale into the count of a loop level whose body ends (R401, R303) -/

/-- AFWD of the window that x2 names, from the address in x0 to that in x1, with its computed scale into x16, the count of loop level 0. -/
def afwdCount : Instr := .afwd ⟨.w1, .en 0 0⟩ false false 16 (.r 2) 0 1

/-- The window of one cell of tile 0. -/
def oneCell : Win := ⟨0, 0, 1, 0, 1⟩

/-- AX of cluster 0 stands at the last instruction of the body of its loop level 0; the cluster's scratch is mapped at virtual address 0, where
it holds a NaN. -/
def bodyEndRead : State :=
  let s := loadBytes 0x20000000000 [0xC0, 0x7F] (loadMap State.reset)
  let s := loadBytes 0x10000010000 (bytes64 (pack [(0, 3 + 0x20000000000 + 7 * 2 ^ 53)])) s
  { ((s.modCC 0 fun c => { (c.setSr 0x0C0 4) with task := some loadTask }).modEng 0 .ax fun x =>
      { (x.setX 1 64) with act0 := true, live0s := 0, live0e := 4 }) with cur := engAgent 0 .ax }

/-- The accesses that the AFWD makes, and the states between them. -/
def cellInput : M (List (Nat × Nat × BitVec 2)) := ownScratch (.ac 0 5) 0 .read 0 2
def cellOutput : M (List (Nat × Nat × BitVec 2)) := ownScratch (.ac 0 5) 0 .write 64 2
def inputState : State := afterwards cellInput bodyEndRead
def inputPieces : List (Nat × Nat × BitVec 2) := given cellInput bodyEndRead
def outputState : State := afterwards cellOutput inputState
def outputPieces : List (Nat × Nat × BitVec 2) := given cellOutput inputState
def inputRead : M (List Byte) := readPieces (.ac 0 5) 2 inputPieces
def inputBytes : List Byte := given inputRead outputState

theorem cellInput_ok : cellInput bodyEndRead = .ok inputPieces inputState :=
  passes_eq (by decide +kernel)
theorem cellOutput_ok : cellOutput inputState = .ok outputPieces outputState :=
  passes_eq (by decide +kernel)
theorem inputRead_ok : inputRead outputState = .ok inputBytes (afterwards inputRead outputState) :=
  passes_eq (by decide +kernel)
theorem bodyEndRead_axq : (outputState.ac 0).axq = [] := by decide +kernel

theorem axClear_none {n : Nat} {s : State} (h : (s.ac n).axq = []) (ps : List (Nat × Nat × BitVec 2)) : axClear n ps s = .ok () s := by
  unfold axClear
  rw [get_bindM, h]
  rfl

/-- What the statement says of the AFWD into x16. -/
theorem statement_afwd (ha : Obligations.ArrayCommands) {s s2 s3 s4 : State} {h : Head} {src dst : List (Nat × Nat × BitVec 2)} {bytes : List Byte}
    (acts : EngActs 0 .ax h 1 s s) (hw : winOf ((s.ac 0).ax.src (.r 2)) = some oneCell) (href : (s.tile 0 0).isRef = false) (hq : (s.ac 0).axq = [])
    (hb : (s.ac 0).ax.xr 0 = 0) (hc : (s.ac 0).ax.xr 1 = 64) (h1 : cellInput s = .ok src s2) (h2 : cellOutput s2 = .ok dst s3)
    (h3 : (s3.ac 0).axq = []) (h4 : readPieces (.ac 0 5) 2 src s3 = .ok bytes s4) :
    ∃ t, exec (.afwd h false false 16 (.r 2) 0 1) s = .next t
      ∧ (t.ac 0).ax.xr 16 = (readPlan ((elems 2 bytes).map fun v => b16 (BitVec.ofNat 16 v)) none).2.setWidth 64 := by
  obtain ⟨hread, -⟩ := ha 0 s s h (.r 2) oneCell acts (sameRegs_self 0 s) hw (fun hr => absurd (href.symm.trans hr) (by decide))
    (fun c hc' => by rw [hq] at hc'; cases hc')
  have hx := hread true false false 16 0 1
  rw [show ((0 : BitVec 6)).toNat = 0 from rfl, show ((1 : BitVec 6)).toNat = 1 from rfl, hb, hc] at hx
  obtain ⟨t, ht, -, -, hscale, -⟩ := hx (by decide) (by decide) (by decide) (by decide) src dst bytes s2 s3 s4 h1 h2 (axClear_none h3 _) h4
  exact ⟨t, ht, hscale rfl⟩

/-- The scale of a read of a NaN is the NaN. -/
theorem input_scale : (readPlan ((elems 2 inputBytes).map fun v => b16 (BitVec.ofNat 16 v)) none).2.setWidth 64 = (0x7FC00000 : W64) := by decide +kernel

/-- The end-of-body test counts it down. -/
theorem afwdCount_counted : (match exec afwdCount bodyEndRead with | .next t => (t.ac 0).ax.xr 16 | _ => 0) = 0x7FBFFFFF := by decide +kernel

theorem bodyEndRead_acts : EngActs 0 .ax ⟨.w1, .en 0 0⟩ 1 bodyEndRead bodyEndRead := ⟨rfl, by decide +kernel, rfl⟩

/-- Refutes O42: an AFWD that computes its scale into the count of a loop level whose body ends there does not leave it in the register: the end-of-body
test counts it down. -/
theorem not_arrayCommands : ¬ Obligations.ArrayCommands := by
  intro h
  obtain ⟨t, ht, hx⟩ := statement_afwd h bodyEndRead_acts (by decide +kernel) (by decide +kernel) (by decide +kernel) (by decide +kernel) (by decide +kernel)
    cellInput_ok cellOutput_ok bodyEndRead_axq inputRead_ok
  have hcount := afwdCount_counted
  rw [afwdCount, ht] at hcount
  exact absurd ((hcount.symm.trans hx).trans input_scale) (by decide)

end Sys2Proof

/-! # The instructions of the matrix engine (R411, R412, R416, R418 to R420) -/

namespace Sys2Proof

open Machine

/- Declarations are checked one after another: side by side they would hold a thread each. -/
set_option Elab.async false

/-! ### Maps that a list of entries has been put into -/

section
variable {α β : Type} [DecidableEq β] {d : β} {key : α → Nat} {val : α → β}

theorem smGet_foldl_of_ne {l : List α} {j : Nat} (h : ∀ x ∈ l, key x ≠ j) (m : SMap β) :
    smGet d (l.foldl (fun m x => smPut d m (key x) (val x)) m) j = smGet d m j := by
  induction l generalizing m with
  | nil => rfl
  | cons x l ih =>
    rw [List.foldl_cons, ih (fun y hy => h y (List.mem_cons_of_mem _ hy)), smGet_smPut, if_neg (Ne.symm (h x List.mem_cons_self))]

/-- The entry at a key at which something has been put, and always the same. -/
theorem smGet_foldl_put {l : List α} {j : Nat} {v : β} (hx : ∃ x ∈ l, key x = j) (hu : ∀ x ∈ l, key x = j → val x = v) (m : SMap β) :
    smGet d (l.foldl (fun m x => smPut d m (key x) (val x)) m) j = v := by
  induction l generalizing m with
  | nil => obtain ⟨x, hx, -⟩ := hx; cases hx
  | cons y l ih =>
    rw [List.foldl_cons]
    by_cases hl : ∃ x ∈ l, key x = j
    · exact ih hl (fun z hz => hu z (List.mem_cons_of_mem _ hz)) _
    · have hy : key y = j := by
        obtain ⟨x, hx, hk⟩ := hx
        rcases List.mem_cons.mp hx with rfl | hx
        · exact hk
        · exact absurd ⟨x, hx, hk⟩ hl
      rw [smGet_foldl_of_ne fun z hz hk => hl ⟨z, hz, hk⟩, smGet_smPut, if_pos hy.symm]
      exact hu y List.mem_cons_self hy

end

/-! ### Bytes and words of an image -/

theorem chunksOf_getElem? {α : Type} {u : Nat} (f k : Nat) (l : List α) (hf : k < f) (hl : u * k < l.length) :
    (chunksOf f u l)[k]? = some ((l.drop (u * k)).take u) := by
  induction f generalizing k l with
  | zero => omega
  | succ f ih =>
    have hne : l.isEmpty = false := by
      cases l with
      | nil => simp at hl
      | cons => rfl
    rw [chunksOf, hne, if_neg Bool.false_ne_true]
    cases k with
    | zero => rfl
    | succ k =>
      rw [List.getElem?_cons_succ, ih k (l.drop u) (by omega) (by rw [List.length_drop]; rw [Nat.mul_succ] at hl; omega), List.drop_drop,
        Nat.mul_succ, Nat.add_comm u]

theorem words64_getD (k : Nat) (l : List Byte) (hl : 8 * k + 8 ≤ l.length) : (words64 l).getD k 0 = le64 ((l.drop (8 * k)).take 8) := by
  induction k generalizing l with
  | zero =>
    match l, hl with
    | _ :: _ :: _ :: _ :: _ :: _ :: _ :: _ :: r, _ => rfl
  | succ k ih =>
    match l, hl with
    | _ :: _ :: _ :: _ :: _ :: _ :: _ :: _ :: r, hl =>
      rw [words64, List.getD_cons_succ, ih r (by simp only [List.length_cons] at hl; omega), Nat.mul_succ]
      rfl

/-! ### Instructions of row 0x7_ (R418, R419) -/

/-- An instruction of row 0x7_ may run: MX has been saved, or no handler runs (R419). -/
def mxMay (n : Nat) (s : State) : Prop := (s.ac n).cc.h = false ∨ (s.ac n).mxu.saved = true

section
variable {n : Nat} {h : Head} {i : Instr} {f : Nat → M Unit} {s u : State}

/-- What `mxRun` runs. -/
def mxBody (n : Nat) (i : Instr) (f : Nat → M Unit) : M Flow := do
  let s ← get
  need (!(s.ac n).cc.h || (s.ac n).mxu.saved) 0x13 (word0 i) 0
  f n
  pure .seq

theorem mxBody_may (hm : mxMay n s) : mxBody n i f s = (f n >>= fun _ => pure Flow.seq) s := by
  have hb : (!(s.ac n).cc.h || (s.ac n).mxu.saved) = true := by
    rcases hm with hm | hm <;> rw [hm]
    · rfl
    · exact Bool.or_true _
  exact bindM_ok (need_true hb)

theorem mxRun_retires (ha : CcActs n h s) (hm : mxMay n s) (hf : f n s = .ok () u) : mxRun h i f s = .next (ccDone n h u) :=
  ccRun_retires ha ((mxBody_may hm).trans (bindM_ok hf))

theorem mxRun_trap {c : Nat} {i0 i1 : W64} (ha : CcActs n h s) (hm : mxMay n s) (hf : f n s = .error (.trap c i0 i1) s) :
    mxRun h i f s = .next (syncTrap n c i0 i1 s) := ccRun_trap ha ((mxBody_may hm).trans (bindM_error hf))

theorem mxRun_waits (ha : CcActs n h s) (hm : mxMay n s) (hf : f n s = .error .wait s) : ∃ t, mxRun h i f s = .next t ∧ CcWaits n i s t :=
  ccRun_waits ha ((mxBody_may hm).trans (bindM_error hf))

theorem mxBody_handler (hh : (s.ac n).cc.h = true) (hv : (s.ac n).mxu.saved = false) : mxBody n i f s = .error (.trap 0x13 (word0 i) 0) s := by
  rw [mxBody, get_bindM, hh, hv]
  exact bindM_error (need_false rfl)

theorem mxRun_handler (ha : CcActs n h s) (hh : (s.ac n).cc.h = true) (hv : (s.ac n).mxu.saved = false) :
    mxRun h i f s = .next (syncTrap n 0x13 (word0 i) 0 s) :=
  ccRun_trap ha (mxBody_handler hh hv)

end

/-! ### Pushes onto the tile queue (R411) -/

/-- A cluster whose tile queue an entry has been pushed onto. -/
def tilePushed (d : BitVec 6) (q : TQEntry) (a : AC) : AC :=
  { a with
    ln := { a.ln with tlIssue := smSet a.ln.tlIssue 3 (a.ln.issueCount 3 + 1) }
    mxu := { a.mxu with tq := a.mxu.tq ++ [{ q with num := a.ln.issueCount 3 + 1 }], pcs := smPut 0 a.mxu.pcs (a.ln.issueCount 3 + 1) a.cc.pc }
    cc := a.cc.setS d (BitVec.ofNat 64 (a.ln.issueCount 3 + 1)) }

section
variable {n : Nat} {h : Head} {d : BitVec 6} {a : Src} {q : TQEntry} {s : State}

theorem mxPush_ok (ht : (s.ac n).mxu.tq.length < 8) : mxPush n d q s = .ok () (s.setAc n (tilePushed d q (s.ac n))) := by
  rw [mxPush, get_bindM, if_neg (by omega)]
  simp only [State.tlNumber, State.modMx, State.modCC, State.modAc, State.setAc_ac, if_true, setAc_setAc]
  rfl

theorem mxPush_waits (ht : (s.ac n).mxu.tq.length = 8) : mxPush n d q s = .error .wait s := by
  rw [mxPush, get_bindM, if_pos (by omega)]
  rfl

theorem onlyAc_ccDone {t : State} (ho : OnlyAc n s t) : OnlyAc n s (ccDone n h t) := by
  unfold OnlyAc at ho ⊢
  rw [ccDone_ac, if_pos rfl, ccDone, State.modCC, State.modAc]
  conv_lhs => rw [ho]
  rw [setAc_setAc, State.setAc_ac, if_pos rfl]

theorem tilePushed_ends : TilePushed n d q s (ccDone n h (s.setAc n (tilePushed d q (s.ac n)))) := by
  have hac : (s.setAc n (tilePushed d q (s.ac n))).ac n = tilePushed d q (s.ac n) := by rw [State.setAc_ac, if_pos rfl]
  have hcc : ((s.setAc n (tilePushed d q (s.ac n))).ac n).cc = (s.ac n).cc.setS d (BitVec.ofNat 64 ((s.ac n).ln.issueCount 3 + 1)) := by rw [hac]; rfl
  obtain ⟨hr, hv⟩ := ccDone_of_setS (h := h) hcc
  have hmx : ((ccDone n h (s.setAc n (tilePushed d q (s.ac n)))).ac n).mxu = (tilePushed d q (s.ac n)).mxu := by rw [ccDone_ac, if_pos rfl, hac]
  have hln : ((ccDone n h (s.setAc n (tilePushed d q (s.ac n)))).ac n).ln = (tilePushed d q (s.ac n)).ln := by rw [ccDone_ac, if_pos rfl, hac]
  refine ⟨by rw [hmx]; rfl, ?_, ?_, hv, hr.sregs, hr.preds, hr.sys, hr.same, onlyAc_ccDone (onlyAc_setAc ..)⟩
  · rw [hmx]
    exact (smGet_smPut ..).trans (if_pos rfl)
  · rw [hln]
    exact (smGet_smSet ..).trans (if_pos rfl)

theorem snapshot_get (m : MX) {l : List Nat} {j : Nat} (hj : j ∈ l) : smGet 0 (snapshot m l) j = smGet 0 m.sh j :=
  smGet_foldl_put (key := id) (val := fun i => smGet 0 m.sh i) ⟨j, hj, rfl⟩ (fun _ _ hk => congrArg (smGet 0 m.sh) hk) []

theorem accOf_ok {v : W64} (hv : v.toNat ≤ 3) : accOf v s = .ok v.toNat s := bindM_ok (need_true (decide_eq_true hv))

theorem accOf_bad {v : W64} (hv : 3 < v.toNat) : accOf v s = .error (.trap 0x02 v 0) s :=
  bindM_error (need_false (decide_eq_false (Nat.not_le.mpr hv)))

/-- A push of an entry whose checks pass. -/
theorem mxRun_pushes {i : Instr} {f : Nat → M Unit} (ha : CcActs n h s) (hm : mxMay n s) (ht : (s.ac n).mxu.tq.length < 8)
    (hf : f n s = mxPush n d q s) : ∃ t, mxRun h i f s = .next t ∧ TilePushed n d q s t :=
  ⟨_, mxRun_retires ha hm (hf.trans (mxPush_ok ht)), tilePushed_ends⟩

end

/-! ### The instructions (R411, R412, R416, R418) -/

section
variable {n : Nat} {h : Head} {s : State}

theorem mxNumber_iff (k : Nat) : mxNumber k = true ↔ k ≤ 12 ∨ (16 ≤ k ∧ k ≤ 33) := decide_eq_true_iff

/-- A change of MX alone, by an instruction that then retires. -/
theorem mxChange_ends (g : MX → MX) : OnlyAc n s (ccDone n h (s.modMx n g)) ∧ ((ccDone n h (s.modMx n g)).ac n).cc = (s.ac n).cc.retire h .seq
    ∧ ((ccDone n h (s.modMx n g)).ac n).mxu = g (s.ac n).mxu := by
  have hac : (s.modMx n g).ac n = { s.ac n with mxu := g (s.ac n).mxu } := by rw [State.modMx, State.modAc_ac, if_pos rfl]
  refine ⟨onlyAc_ccDone (onlyAc_setAc ..), ?_, ?_⟩
  · rw [ccDone_ac, if_pos rfl, hac]
  · rw [ccDone_ac, if_pos rfl, hac]

theorem mxcfg_ends (k : BitVec 6) (a : Src) (hk : k.toNat ≤ 12 ∨ (16 ≤ k.toNat ∧ k.toNat ≤ 33)) (ha : CcActs n h s) (hm : mxMay n s) :
    ∃ t : State, exec (.mxcfg h k a) s = .next t ∧ OnlyAc n s t ∧ (t.ac n).cc = (s.ac n).cc.retire h .seq
      ∧ smGet 0 (t.ac n).mxu.sh k.toNat = (s.ac n).cc.src a ∧ (∀ j, j ≠ k.toNat → smGet 0 (t.ac n).mxu.sh j = smGet 0 (s.ac n).mxu.sh j)
      ∧ (t.ac n).mxu = { (s.ac n).mxu with sh := (t.ac n).mxu.sh } := by
  let g : MX → MX := fun m => { m with sh := smPut 0 m.sh k.toNat ((s.ac n).cc.src a) }
  obtain ⟨honly, hcc, hmx⟩ := mxChange_ends (n := n) (h := h) (s := s) g
  have hx : exec (.mxcfg h k a) s = .next (ccDone n h (s.modMx n g)) := by
    show execMxcfg h k a s = _
    simp only [execMxcfg, ha.1, (mxNumber_iff _).mpr hk, if_true]
    exact mxRun_retires ha hm rfl
  exact ⟨_, hx, honly, hcc, by rw [hmx]; exact (smGet_smPut ..).trans (if_pos rfl),
    fun j hj => by rw [hmx]; exact (smGet_smPut ..).trans (if_neg hj), by rw [hmx]⟩

theorem mxcfg_illegal (k : BitVec 6) (a : Src) (hk : ¬(k.toNat ≤ 12 ∨ (16 ≤ k.toNat ∧ k.toNat ≤ 33))) (ha : CcActs n h s) :
    exec (.mxcfg h k a) s = .next (syncTrap n 0x01 8 (word0 (.mxcfg h k a)) s) := by
  show execMxcfg h k a s = _
  simp only [execMxcfg, ha.1, if_neg fun hn => hk ((mxNumber_iff _).mp hn)]
  rfl

theorem mxfmt_ends (a : Src) (ha : CcActs n h s) (hm : mxMay n s) :
    ((s.ac n).mxu.fq.length < 8 → ∃ t : State, exec (.mxfmt h a) s = .next t ∧ OnlyAc n s t
        ∧ (t.ac n).cc = (s.ac n).cc.retire h .seq ∧ (t.ac n).mxu = { (s.ac n).mxu with fq := (s.ac n).mxu.fq ++ [(s.ac n).cc.src a] })
      ∧ (8 ≤ (s.ac n).mxu.fq.length → ∃ t : State, exec (.mxfmt h a) s = .next t ∧ CcWaits n (.mxfmt h a) s t) := by
  refine ⟨fun hl => ?_, fun hl => mxRun_waits ha hm (congrFun (if_pos hl) s)⟩
  obtain ⟨honly, hcc, hmx⟩ := mxChange_ends (n := n) (h := h) (s := s) fun m => { m with fq := m.fq ++ [(s.ac n).cc.src a] }
  exact ⟨_, mxRun_retires ha hm (congrFun (if_neg (Nat.not_le.mpr hl)) s), honly, hcc, hmx⟩

theorem mxzero_ends (d : BitVec 6) (a : Src) (ha : CcActs n h s) (hm : mxMay n s) (hv : ((s.ac n).cc.src a).toNat ≤ 3) :
    ((s.ac n).mxu.tq.length < 8 → ∃ t : State, exec (.mxzero h d a) s = .next t
        ∧ TilePushed n d ⟨1, [], ((s.ac n).cc.src a).toNat, false, false, 0, 0⟩ s t)
      ∧ ((s.ac n).mxu.tq.length = 8 → ∃ t : State, exec (.mxzero h d a) s = .next t ∧ CcWaits n (.mxzero h d a) s t) :=
  ⟨fun ht => mxRun_pushes ha hm ht (bindM_ok (accOf_ok hv)),
    fun ht => mxRun_waits ha hm ((bindM_ok (accOf_ok hv)).trans (mxPush_waits ht))⟩

theorem mxmode_ends (d : BitVec 6) (a : Src) (ha : CcActs n h s) (hm : mxMay n s) (ht : (s.ac n).mxu.tq.length < 8)
    (hv : ((s.ac n).cc.src a).toNat ≤ 4) :
    ∃ t : State, exec (.mxmode h d a) s = .next t ∧ TilePushed n d ⟨3, [], 0, false, false, ((s.ac n).cc.src a).toNat, 0⟩ s t :=
  mxRun_pushes ha hm ht (bindM_ok (need_true (decide_eq_true hv)))

/-- MXDRAIN and MXGO check what they snapshot, and push it (R412, R418). -/
theorem mxdrain_ends (d : BitVec 6) (a : Src) (tr bf : Bool) (ha : CcActs n h s) (hm : mxMay n s) (ht : (s.ac n).mxu.tq.length < 8)
    (hv : ((s.ac n).cc.src a).toNat ≤ 3) {q : TQEntry} (hq : q = ⟨2, snapshot (s.ac n).mxu drainRegs, ((s.ac n).cc.src a).toNat, tr, bf, 0, 0⟩) :
    (drainBad q = none → ∃ t : State, exec (.mxdrain h tr bf d a) s = .next t ∧ TilePushed n d q s t)
      ∧ ∀ b, drainBad q = some b → exec (.mxdrain h tr bf d a) s = .next (syncTrap n 0x02 b 0 s) := by
  subst hq
  refine ⟨fun hb => mxRun_pushes ha hm ht ?_, fun b hb => mxRun_trap ha hm ?_⟩ <;> refine (bindM_ok (accOf_ok hv)).trans ?_ <;> rw [hb] <;> rfl

theorem mxgo_ends (d : BitVec 6) (a : Src) (ha : CcActs n h s) (hm : mxMay n s) (ht : (s.ac n).mxu.tq.length < 8)
    (hv : ((s.ac n).cc.src a).toNat ≤ 3) {q : TQEntry} (hq : q = ⟨0, snapshot (s.ac n).mxu tileRegs, ((s.ac n).cc.src a).toNat, false, false, 0, 0⟩) :
    (mxgoBad q = none → ∃ t : State, exec (.mxgo h d a) s = .next t ∧ TilePushed n d q s t)
      ∧ ∀ b, mxgoBad q = some b → exec (.mxgo h d a) s = .next (syncTrap n 0x02 b 0 s) := by
  subst hq
  refine ⟨fun hb => mxRun_pushes ha hm ht ?_, fun b hb => mxRun_trap ha hm ?_⟩ <;> refine (bindM_ok (accOf_ok hv)).trans ?_ <;> rw [hb] <;> rfl

theorem drainBad_names {q : TQEntry} {b : W64} (hb : drainBad q = some b) : b = q.s 4 ∨ b = q.s 10 := by
  unfold drainBad at hb
  split at hb
  · exact .inl (Option.some.inj hb).symm
  · split at hb
    · exact .inr (Option.some.inj hb).symm
    · cases hb

theorem stat_last (m : MX) : m.stat 7 = BitVec.ofNat 64 (m.nfops.toNat * 2 ^ 32 + m.saved.toNat) := by
  show pack [(32, m.nfops.toNat), (0, m.saved.toNat)] = _
  simp only [pack, List.foldl_cons, List.foldl_nil, Nat.zero_add, Nat.pow_zero, Nat.mul_one]

/-- The words of Table 13-14. -/
theorem stat_eq (m : MX) (k : BitVec 3) : m.stat k.toNat = match k.toNat with
    | 0 => BitVec.ofNat 64 (m.rowprog % 128)
    | 1 => BitVec.ofNat 64 m.mode
    | 2 => BitVec.ofNat 64 m.tq.length
    | 3 => BitVec.ofNat 64 m.fq.length
    | 4 => m.resev
    | 5 => m.dupev
    | 6 => m.chkrot.setWidth 64
    | _ => BitVec.ofNat 64 (m.nfops.toNat * 2 ^ 32 + m.saved.toNat) := by
  have hk : k = 0 ∨ k = 1 ∨ k = 2 ∨ k = 3 ∨ k = 4 ∨ k = 5 ∨ k = 6 ∨ k = 7 := by revert k; decide
  have h0 : m.stat 0 = BitVec.ofNat 64 (m.rowprog % 128) := rfl
  have h1 : m.stat 1 = BitVec.ofNat 64 m.mode := rfl
  have h2 : m.stat 2 = BitVec.ofNat 64 m.tq.length := rfl
  have h3 : m.stat 3 = BitVec.ofNat 64 m.fq.length := rfl
  have h4 : m.stat 4 = m.resev := rfl
  have h5 : m.stat 5 = m.dupev := rfl
  have h6 : m.stat 6 = m.chkrot.setWidth 64 := rfl
  rcases hk with rfl | rfl | rfl | rfl | rfl | rfl | rfl | rfl
  · exact h0
  · exact h1
  · exact h2
  · exact h3
  · exact h4
  · exact h5
  · exact h6
  · exact stat_last m

theorem mxstat_ends (k : BitVec 3) (d : BitVec 6) (ha : CcActs n h s) :
    ∃ t : State, exec (.mxstat h k d) s = .next t ∧ CcFrame n [d] [] [] s t ∧ (d ≠ 0 → (t.ac n).cc.s d = (s.ac n).mxu.stat k.toNat) :=
  have hx : exec (.mxstat h k d) s = .next (ccSet n h (fun c => c.setS d ((s.ac n).mxu.stat k.toNat)) s) := by
    show execMxstat h k d s = _
    exact ccRun_sets ha rfl
  ⟨_, hx, ccSet_frame (regsBut_setS ..), fun hd => by rw [ccSet_cc, (retire_regsBut ..).s_eq, CC.setS_s, if_pos rfl, if_neg hd]⟩

/-! ### The save image (R420) -/

/-- MX stops as it is, but for a wait for replay. -/
theorem mxHalt_frame (n : Nat) (s : State) : (mxHalt n s).mem = s.mem ∧ (mxHalt n s).hist = s.hist
    ∧ ((mxHalt n s).ac n).cc = (s.ac n).cc ∧ ((mxHalt n s).ac n).mxu.acc = (s.ac n).mxu.acc ∧ ((mxHalt n s).ac n).mxu.sh = (s.ac n).mxu.sh := by
  unfold mxHalt
  split
  · refine ⟨rfl, rfl, ?_⟩
    rw [State.modMx, State.modAc_ac, if_pos rfl]
    exact ⟨rfl, rfl, rfl⟩
  · exact ⟨rfl, rfl, rfl, rfl, rfl⟩

theorem modMx_mxu (n : Nat) (g : MX → MX) (s : State) : ((s.modMx n g).ac n).mxu = g (s.ac n).mxu := by
  rw [State.modMx, State.modAc_ac, if_pos rfl]

theorem ccDone_mxu (n : Nat) (h : Head) (u : State) : ((ccDone n h u).ac n).mxu = (u.ac n).mxu := by rw [ccDone_ac, if_pos rfl]

theorem mxsave_ends (a : BitVec 6) (s1 : State) (ha : CcActs n h s) (hva : ((s.ac n).cc.s a).toNat % 256 = 0) (hv : (s.ac n).mxu.saved = false)
    (hw : writeReleased (.ac n 0) .ac ((s.ac n).cc.s a) (s.ac n).mxu.image s = .ok () s1) :
    ∃ t : State, exec (.mxsave h a) s = .next t ∧ t.mem = s1.mem ∧ t.hist = s1.hist ∧ (t.ac n).mxu.tq = [] ∧ (t.ac n).mxu.fq = []
      ∧ (t.ac n).mxu.run = none ∧ (t.ac n).mxu.saved = true ∧ (t.ac n).mxu.acc = (s1.ac n).mxu.acc ∧ (t.ac n).mxu.sh = (s1.ac n).mxu.sh := by
  obtain ⟨hmem, hhist, -, hacc, hsh⟩ := mxHalt_frame n s1
  have hrun : exec (.mxsave h a) s = .next (ccDone n h ((mxHalt n s1).modMx n MX.emptied)) := by
    refine ccRun_retires ha ?_
    rw [get_bindM, bindM_ok (need_true (by rw [hva, hv]; rfl)), bindM_ok hw]
    rfl
  refine ⟨_, hrun, hmem, hhist, ?_⟩
  rw [ccDone_mxu, modMx_mxu]
  exact ⟨rfl, rfl, rfl, rfl, hacc, hsh⟩

theorem mem_zip_range {α : Type} {l : List α} {k m : Nat} {x : α} (hk : k < m) (hx : l[k]? = some x) : (x, k) ∈ l.zip (List.range m) :=
  List.mem_iff_getElem?.mpr ⟨k, by rw [List.getElem?_zip_eq_some]; exact ⟨hx, by rw [List.getElem?_range hk]⟩⟩

theorem of_mem_zip_range {α : Type} {l : List α} {m : Nat} {p : α × Nat} (hp : p ∈ l.zip (List.range m)) : l[p.2]? = some p.1 := by
  obtain ⟨i, hi⟩ := List.mem_iff_getElem?.mp hp
  obtain ⟨hx, hr⟩ := List.getElem?_zip_eq_some.mp hi
  have hp2 : p.2 = i := by
    obtain ⟨hlt, he⟩ := List.getElem?_eq_some_iff.mp hr
    rw [List.getElem_range] at he
    exact he.symm
  rw [hp2, hx]

/-- Element k of the accumulators of an image. -/
theorem ofImage_acc (m : MX) {b : List Byte} (hb : b.length = 69632) {k : Nat} (hk : k < 16384) :
    smGet 0 (m.ofImage b).acc k = BitVec.ofNat 32 (leNat ((b.drop (4 * k)).take 4)) := by
  have hchunk : (chunksOf 16385 4 (b.take 65536))[k]? = some ((b.drop (4 * k)).take 4) := by
    rw [chunksOf_getElem? _ _ _ (by omega) (by rw [List.length_take]; omega), List.drop_take, List.take_take, Nat.min_eq_left (by omega)]
  exact smGet_foldl_put (key := fun x : List Byte × Nat => x.2) (val := fun x => BitVec.ofNat 32 (leNat x.1)) ⟨_, mem_zip_range hk hchunk, rfl⟩
    (fun x hx hkey => by
      have := of_mem_zip_range hx
      rw [hkey, hchunk] at this
      rw [← Option.some.inj this]) []

/-- The mode of an image. -/
theorem ofImage_mode (m : MX) {b : List Byte} (hb : b.length = 69632) : (m.ofImage b).mode = leNat ((b.drop (65536 + 256 + 8)).take 8) % 8 := by
  have hword : ((words64 (b.drop 65536)).drop 32).getD 1 0 = le64 ((b.drop (65536 + 256 + 8)).take 8) := by
    rw [List.getD_eq_getElem?_getD, List.getElem?_drop, ← List.getD_eq_getElem?_getD, words64_getD _ _ (by rw [List.length_drop]; omega), List.drop_drop]
  show bits (((words64 (b.drop 65536)).drop 32).getD 1 0) 0 3 = _
  rw [hword, bits, le64, BitVec.toNat_ofNat]
  omega

theorem mxrest_ends (a : BitVec 6) (b : List Byte) (s1 : State) (ha : CcActs n h s) (hm : mxMay n s) (hva : ((s.ac n).cc.s a).toNat % 256 = 0)
    (hr : readAcquired (.ac n 0) .ac ((s.ac n).cc.s a) 69632 8 s = .ok b s1) (hb : b.length = 69632) :
    ∃ t : State, exec (.mxrest h a) s = .next t ∧ t.mem = s1.mem ∧ (t.ac n).mxu.saved = false
      ∧ (∀ k, k < 16384 → smGet 0 (t.ac n).mxu.acc k = BitVec.ofNat 32 (leNat ((b.drop (4 * k)).take 4)))
      ∧ ((t.ac n).mxu.mode = leNat ((b.drop (65536 + 256 + 8)).take 8) % 8) := by
  obtain ⟨hmem, -⟩ := mxHalt_frame n s1
  have hrun : exec (.mxrest h a) s = .next (ccDone n h ((mxHalt n s1).modMx n fun m => { m.ofImage b with hold := (s1.ac n).cc.h })) := by
    refine mxRun_retires ha hm ?_
    rw [get_bindM, bindM_ok (need_true (by rw [hva]; rfl)), bindM_ok hr]
    rfl
  refine ⟨_, hrun, hmem, ?_⟩
  rw [ccDone_mxu, modMx_mxu]
  exact ⟨rfl, fun k hk => ofImage_acc ((mxHalt n s1).ac n).mxu hb hk, ofImage_mode ((mxHalt n s1).ac n).mxu hb⟩

end

/-- Settles O43: each instruction's own rule above. -/
theorem matrixControl : Obligations.MatrixControl := by
  intro n s h ha m may v
  refine ⟨fun k a hk hm => mxcfg_ends k a hk ha hm, fun k a hk => mxcfg_illegal k a hk ha, fun a hm => mxfmt_ends a ha hm, fun d a hm ht => ?_,
    fun d a hm ht hv => (mxzero_ends d a ha hm hv).2 ht, fun k d => ?_, fun a s1 hva hv hw => mxsave_ends a s1 ha hva hv hw,
    fun a b s1 hm hva hr hb => mxrest_ends a b s1 ha hm hva hr hb, fun hh hv d a => ⟨mxRun_handler ha hh hv, mxRun_handler ha hh hv⟩⟩
  · refine ⟨fun hv => (mxzero_ends d a ha hm hv).1 ht, fun hv => mxmode_ends d a ha hm ht hv, fun hv tr bf q hk hacc htr hbf hmode hnum hsh => ?_,
      fun hv q hk hacc htr hbf hmode hnum hsh => ?_, fun hv => ⟨mxRun_trap ha hm ((get_bindM ..).trans (bindM_error (accOf_bad hv))),
        mxRun_trap ha hm ((get_bindM ..).trans (bindM_error (accOf_bad hv)))⟩⟩
    · have hq : q = ⟨2, snapshot m drainRegs, (v a).toNat, tr, bf, 0, 0⟩ := by
        cases q
        subst hk hacc htr hbf hmode hnum hsh
        rfl
      have hget : ∀ j ∈ [4, 10, 11, 12], q.s j = smGet 0 m.sh j := fun j hj => by rw [TQEntry.s, hsh]; exact snapshot_get m hj
      obtain ⟨hgood, hbad⟩ := mxdrain_ends d a tr bf ha hm ht hv hq
      refine ⟨fun hb => ?_, fun b hb => ⟨?_, hbad b hb⟩⟩
      · obtain ⟨t, hx, hp⟩ := hgood hb
        exact ⟨t, hx, hp, hget⟩
      · rw [← hget 4 (by decide), ← hget 10 (by decide)]
        exact drainBad_names hb
    · have hq : q = ⟨0, snapshot m tileRegs, (v a).toNat, false, false, 0, 0⟩ := by
        cases q
        subst hk hacc htr hbf hmode hnum hsh
        rfl
      obtain ⟨hgood, hbad⟩ := mxgo_ends d a ha hm ht hv hq
      refine ⟨fun hb => ?_, hbad⟩
      obtain ⟨t, hx, hp⟩ := hgood hb
      exact ⟨t, hx, hp, fun j hj => by rw [TQEntry.s, hsh]; exact snapshot_get m hj⟩
  · obtain ⟨t, hx, hf, hd⟩ := mxstat_ends k d ha
    exact ⟨t, hx, hf, fun h0 => (hd h0).trans (stat_eq m k)⟩

end Sys2Proof

/-! # The events of the fabric (R468 to R471, R498) -/

namespace Sys2Proof

open Machine

/-! ### What an agent's writes leave of memory at one byte -/

/-- A byte of memory reads as it has been written, or as before. -/
def LeavesByte (k : Nat) (o : Option Byte) (s t : State) : Prop := memByte t k = o.getD (memByte s k)

theorem LeavesByte.trans {k : Nat} {o p : Option Byte} {s t u : State} (h : LeavesByte k o s t) (g : LeavesByte k p t u) : LeavesByte k (p.or o) s u := by
  unfold LeavesByte at *
  cases p with
  | none => rw [Option.none_or, ← h]; exact g
  | some y => exact g

section
variable (a : Agent) (pl : Place) (rels : List (Agent × Scope)) (strong : Bool) (tag : OpTag) (k0 : Nat) (b : List Byte) (k : Nat) (s : State)

theorem leavesByte_enterWrite (pls : List Place) : LeavesByte k (byteAt k0 b k) s (enterWrite a pls rels strong tag onTop k0 b s) := by
  unfold LeavesByte byteAt
  by_cases hk : k0 ≤ k ∧ k < k0 + b.length
  · obtain ⟨i, rfl⟩ := Nat.exists_eq_add_of_le hk.1
    have hi : i < b.length := by omega
    rw [if_pos hk.1, Nat.add_sub_cancel_left, List.getElem?_eq_getElem hi]
    exact memByte_enterWrite a pls rels strong tag k0 b s hi
  · have hout : k < k0 ∨ k0 + b.length ≤ k := by omega
    have hb : (if k0 ≤ k then b[k - k0]? else none) = none := by
      split
      · exact List.getElem?_eq_none (by omega)
      · rfl
    rw [hb]
    exact (enterWrite_outside a pls rels strong tag onTop k0 b s hout).1

theorem leavesByte_performRaw : LeavesByte k (byteAt k0 b k) s (performRaw a pl rels strong tag onTop k0 b s) := by
  obtain ⟨hm, -⟩ := performRaw_keeps a pl rels strong tag onTop k0 b s
  exact (congrArg (smGet 0 · k) hm).trans (leavesByte_enterWrite a rels strong tag k0 b k s [pl])

theorem leavesByte_performAt : LeavesByte k (byteAt k0 b k) s (performAt a pl rels tag k0 b s) := by
  unfold performAt
  split
  · refine pieces_leave LeavesByte.trans (fun s x => ?_) (by omega) _ k0 b s (by omega) (by omega)
    split
    · have hm : (joinQueue (x.1 / 64 * 64) a (s.wid + 1) rels (enterWrite a [] [] false tag onTop x.1 x.2 s)).mem
          = (enterWrite a [] [] false tag onTop x.1 x.2 s).mem := by
        unfold joinQueue
        split <;> rfl
      exact (congrArg (smGet 0 · k) hm).trans (leavesByte_enterWrite a [] false tag x.1 x.2 k s [])
    · exact leavesByte_performRaw ..
  · exact leavesByte_performRaw ..

theorem memByte_performAt {i : Nat} (hi : i < b.length) : memByte (performAt a pl rels tag k0 b s) (k0 + i) = b[i] := by
  have h := leavesByte_performAt a pl rels tag k0 b (k0 + i) s
  rw [LeavesByte, byteAt, if_pos (Nat.le_add_right ..), Nat.add_sub_cancel_left, List.getElem?_eq_getElem hi] at h
  exact h

end

/-! ### Accesses through an ingress port (R469 to R471) -/

section
variable {s s1 : State} {port : Nat} {va v : W64} {exp : Bool} {len : Nat} {f : W64 → M Unit}

theorem ingressRun_ok {t : State} (hv : ingressVa s port va exp len = some v) (hf : f v s = .ok () t) : ingressRun port va exp len f s = (.ack, t) := by
  unfold ingressRun
  rw [hv]
  simp only [hf]

theorem ingressRun_wait {t : State} (hv : ingressVa s port va exp len = some v) (hf : f v s = .error .wait t) :
    ingressRun port va exp len f s = (.nack 0 0, t) := by
  unfold ingressRun
  rw [hv]
  simp only [hf]
  rfl

theorem ingressRun_refused (hv : ingressVa s port va exp len = none) :
    ∃ w0 w1, ingressRun port va exp len f s = (.nack w0 w1, s.addAccessRecord (.ingress port) w0 w1 0) := by
  refine ⟨(accRecord (.ingress port) 0xFFFF 0xFF .write va.toNat).1, (accRecord (.ingress port) 0xFFFF 0xFF .write va.toNat).2, ?_⟩
  unfold ingressRun
  rw [hv] <;> rfl

/-- A write that an ingress port performs, in one page of the part's memory. -/
def ingressPerformed (port pa : Nat) (data : List Byte) (s : State) : State :=
  performAt (.ingress port) .home [] OpTag.none (canonPa (Agent.ingress port).die pa) data s

theorem ingressPieces_one {pa : Nat} {at' : BitVec 2} {data : List Byte} (hm : mmioOf (Agent.ingress port).die pa = none) :
    ingressPieces (.ingress port) s [(pa, data.length, at')] data = ingressPerformed port pa data s := by
  simp only [ingressPieces, hm, List.take_length, ingressPerformed]

theorem ingressWrite_performs {pa : Nat} {at' : BitVec 2} {data : List Byte} (rel : Bool) (hv : ingressVa s port va exp data.length = some v)
    (hr : reach (.ingress port) .write v.toNat data.length s = .ok [(pa, data.length, at')] s1) (hm : mmioOf (Agent.ingress port).die pa = none) :
    ingressWrite port va exp rel data s
      = (.ack, if rel then release (.ingress port) .fab (ingressPerformed port pa data s1) else ingressPerformed port pa data s1) := by
  refine ingressRun_ok hv ((bindM_ok hr).trans ?_)
  rw [act_run, ingressPieces_one hm]

theorem ready_all {held : List IngWrite} : (held.all (·.port != port)) = true ↔ ∀ x ∈ held, x.port ≠ port := by
  simp only [List.all_eq_true, bne_iff_ne]

/-- A write that need not wait is performed, or refused, and answered. -/
theorem execIngressWrite_goes {rel : Bool} {data : List Byte} (hr : s.ingressReady port rel = true) (hh : ∀ x ∈ s.ingHeld, x.port ≠ port) :
    exec (.fabricIngressWrite port va exp rel data) s = .next (answered port (ingressWrite port va exp rel data s)) := by
  show execFabricIngressWrite port va exp rel data s = _
  rw [execFabricIngressWrite, hr, ready_all.mpr hh, Bool.true_and, if_pos rfl]

theorem execIngressWrite_waits {rel : Bool} {data : List Byte}
    (hw : (∃ x ∈ s.ingHeld, x.port = port) ∨ rel = true ∧ s.settled .fab (· == Agent.ingress port) = false) :
    exec (.fabricIngressWrite port va exp rel data) s = .next { s with ingHeld := s.ingHeld ++ [⟨port, va, exp, rel, data⟩] } := by
  have hno : ¬(s.ingressReady port rel && s.ingHeld.all (·.port != port)) = true := by
    rw [Bool.and_eq_true, ready_all]
    rintro ⟨hr, hh⟩
    rcases hw with ⟨x, hx, hp⟩ | ⟨rfl, hset⟩
    · exact hh x hx hp
    · rw [State.ingressReady, hset] at hr
      cases hr
  show execFabricIngressWrite port va exp rel data s = _
  rw [execFabricIngressWrite, if_neg hno]

theorem ingressReady_of {rel : Bool} (h : rel = true → s.settled .fab (· == Agent.ingress port) = true) : s.ingressReady port rel = true := by
  unfold State.ingressReady
  cases rel with
  | false => rfl
  | true => exact h rfl

end

theorem ringFree_clause {s s1 : State} {port exp off cidx slot pa : Nat} {v : W64} {at' : BitVec 2} {r : List (Nat × Nat × BitVec 2)}
    (hv : ingressVa s port (exportVa exp (off + 0x100 + 2 * slot)) true 2 = some v)
    (hr : reach (.ingress port) .atomic v.toNat 2 s = .ok ((pa, 2, at') :: r) s1) :
    let x := atomic (.ingress port) .pkg false (canonPa (Agent.ingress port).die pa) 2
      (fun o => if (leNat o).testBit cidx then some (leBytes 2 (leNat o - 2 ^ cidx)) else none) s1
    exec (.fabricRingFree port exp off cidx slot) s = .next (x.2.reply port 0 (if (leNat x.1).testBit cidx then .ack else .nack 0 0)) := by
  intro x
  show Host.Outcome.next (answered port (ingressClear port _ cidx s)) = _
  refine congrArg Host.Outcome.next ?_
  cases hb : (leNat x.1).testBit cidx with
  | true =>
    have hrun : ingressClear port (exportVa exp (off + 0x100 + 2 * slot)) cidx s = (.ack, x.2) := by
      refine ingressRun_ok hv ((bindM_ok hr).trans ?_)
      exact congrFun (if_pos hb) x.2
    rw [hrun]
    rfl
  | false =>
    have hrun : ingressClear port (exportVa exp (off + 0x100 + 2 * slot)) cidx s = (.nack 0 0, x.2) := by
      refine ingressRun_wait hv ((bindM_ok hr).trans ?_)
      exact congrFun (if_neg (ne_true_of_eq_false hb)) x.2
    rw [hrun]
    rfl

theorem ingressWrite_clause {s s1 : State} {port : Nat} {va v : W64} {exp : Bool} {data : List Byte} {pa : Nat} {at' : BitVec 2}
    (hv : ingressVa s port va exp data.length = some v)
    (hr : reach (.ingress port) .write v.toNat data.length s = .ok [(pa, data.length, at')] s1) (hm : mmioOf (Agent.ingress port).die pa = none)
    (hh : ∀ x ∈ s.ingHeld, x.port ≠ port) :
    ∃ t : State, exec (.fabricIngressWrite port va exp false data) s = .next (t.reply port 0 .ack) ∧ t.acs = s1.acs
      ∧ (∀ i (hi : i < data.length), memByte t (canonPa (Agent.ingress port).die pa + i) = data[i])
      ∧ (s.settled .fab (· == Agent.ingress port) = true →
        exec (.fabricIngressWrite port va exp true data) s = .next ((release (.ingress port) .fab t).reply port 0 .ack)) := by
  refine ⟨ingressPerformed port pa data s1, ?_, (memStep_performAt ..).acs, fun i hi => memByte_performAt _ _ _ _ _ _ _ hi, fun hset => ?_⟩
  · rw [execIngressWrite_goes (ingressReady_of fun h => absurd h (by decide)) hh, ingressWrite_performs false hv hr hm] <;> rfl
  · rw [execIngressWrite_goes (ingressReady_of fun _ => hset) hh, ingressWrite_performs true hv hr hm] <;> rfl

theorem ingressRefused_clause {s : State} {port : Nat} {va : W64} {exp rel : Bool} {data : List Byte}
    (hv : ingressVa s port va exp data.length = none) (hh : ∀ x ∈ s.ingHeld, x.port ≠ port)
    (hset : rel = true → s.settled .fab (· == Agent.ingress port) = true) :
    ∃ t w0 w1, exec (.fabricIngressWrite port va exp rel data) s = .next t ∧ SameMemory s t ∧ t.acs = s.acs
      ∧ t.fabOut = s.fabOut ++ [(port, 0, .nack w0 w1)] := by
  obtain ⟨w0, w1, hx⟩ := ingressRun_refused (f := fun v => do
    let ps ← reach (.ingress port) .write v.toNat data.length
    act fun s =>
      let s := ingressPieces (.ingress port) s ps data
      if rel then release (.ingress port) .fab s else s) hv
  have hw : ingressWrite port va exp rel data s = (.nack w0 w1, s.addAccessRecord (.ingress port) w0 w1 0) := hx
  refine ⟨_, w0, w1, execIngressWrite_goes (ingressReady_of hset) hh, ?_⟩
  rw [hw]
  exact ⟨⟨rfl, rfl, rfl⟩, rfl, rfl⟩

/-! ### Answers to requests that have left (R469, R470) -/

/-- An end of requests changes no memory, no die, takes back no completion, and sends no more than notices of lost pours. -/
structure EndsMore (s t : State) : Prop where
  completes : CompletesMore s t
  fab : ∀ y ∈ t.fab, y ∈ s.fab ∨ ∃ d, y.item = .notice d

theorem EndsMore.trans {s t u : State} (h : EndsMore s t) (g : EndsMore t u) : EndsMore s u :=
  ⟨h.completes.trans g.completes, fun y hy => (g.fab y hy).elim (h.fab y) .inr⟩

theorem endsMore_of {s t : State} (h : CompletesMore s t) (hf : t.fab = s.fab) : EndsMore s t := ⟨h, fun _ hy => .inl (hf ▸ hy)⟩

theorem endsMore_foldl {α : Type} {f : State → α → State} (hf : ∀ s x, EndsMore s (f s x)) (l : List α) (s : State) : EndsMore s (l.foldl f s) := by
  induction l generalizing s with
  | nil => exact endsMore_of (.refl s) rfl
  | cons x l ih => exact (hf s x).trans (ih _)

theorem potDone_fab (ac num : Nat) (s : State) : (potDone ac num s).fab = s.fab := by
  unfold potDone
  split
  · unfold State.tlComplete
    split <;> rfl
  · rfl

theorem endsMore_potDone (ac num : Nat) (s : State) : EndsMore s (potDone ac num s) := endsMore_of (potDone_completes ..) (potDone_fab ..)

theorem completesMore_modCC (n : Nat) (f : CC → CC) (s : State) : CompletesMore s (s.modCC n f) := by
  refine ⟨rfl, rfl, fun m x hx => ?_⟩
  rw [State.modCC_ac]
  split
  · next hm => rwa [← hm]
  · exact hx

theorem endsMore_reply (port num : Nat) (x : FabAns) (s : State) : EndsMore s (s.reply port num x) := endsMore_of ⟨rfl, rfl, fun _ _ => id⟩ rfl

theorem endsMore_dropPart (cause : Nat) (desc : W64) (x : PotPart) (s : State) : EndsMore s (dropPart cause desc x s) := by
  unfold dropPart
  split
  · exact (endsMore_potDone ..).trans (endsMore_of (completesMore_modCC ..) rfl)
  · exact endsMore_reply ..

theorem dropPart_done {cause : Nat} {desc : W64} {x : PotPart} (s : State) (hx : x.ac < 256) (hn : x.num ≠ 0) :
    (7, x.num) ∈ ((dropPart cause desc x s).ac x.ac).ln.tlDone := by
  unfold dropPart
  rw [if_pos hx]
  exact (completesMore_modCC ..).done _ _ (potDone_mem s hx hn)

/-- Each part of a list of parts, once it is done with, has completed. -/
theorem parts_done {f : State → PotPart → State} (hf : ∀ s x, EndsMore s (f s x))
    (hd : ∀ s x, x.ac < 256 → x.num ≠ 0 → (7, x.num) ∈ ((f s x).ac x.ac).ln.tlDone) {l : List PotPart} {z : PotPart} (hz : z ∈ l)
    (h256 : z.ac < 256) (hn : z.num ≠ 0) (s : State) : (7, z.num) ∈ ((l.foldl f s).ac z.ac).ln.tlDone := by
  induction l generalizing s with
  | nil => cases hz
  | cons x l ih =>
    rw [List.foldl_cons]
    rcases List.mem_cons.mp hz with rfl | hz
    · exact (endsMore_foldl hf l _).completes.done _ _ (hd s z h256 hn)
    · exact ih hz _

theorem flowPort_frame (s : State) (who : Agent) (node : Nat) :
    (s.flowPort who node).2.mem = s.mem ∧ (s.flowPort who node).2.dies = s.dies ∧ (s.flowPort who node).2.acs = s.acs
      ∧ (s.flowPort who node).2.fab = s.fab := by
  unfold State.flowPort
  split
  · exact ⟨rfl, rfl, rfl, rfl⟩
  · dsimp only
    split <;> exact ⟨rfl, rfl, rfl, rfl⟩

theorem endsMore_sendNotice (e node : Nat) (va desc : W64) (parts : List PotPart) (s : State) : EndsMore s (sendNotice e node va desc parts s) := by
  obtain ⟨hm, hd, ha, hf⟩ := flowPort_frame s (sender (.notice e)) node
  refine ⟨⟨hm, hd, fun m x hx => ?_⟩, fun y hy => ?_⟩
  · exact (ac_of_acs (t := sendNotice e node va desc parts s) ha m) ▸ hx
  · rcases List.mem_append.mp (show y ∈ (s.flowPort (sender (.notice e)) node).2.fab ++ _ from hy) with hy | hy
    · exact .inl (hf ▸ hy)
    · exact .inr ⟨e, by rw [List.mem_singleton.mp hy]⟩

theorem unrouted_ends (e node : Nat) (va desc : W64) (kind : PotKind) (lost : Bool) (parts : List PotPart) (s : State) :
    EndsMore s (unrouted e node va desc kind lost parts s)
      ∧ ∀ z ∈ parts, z.ac < 256 → z.num ≠ 0 → (7, z.num) ∈ ((unrouted e node va desc kind lost parts s).ac z.ac).ln.tlDone := by
  have hdone : EndsMore (parts.foldl (fun s x => potDone x.ac x.num s) s) (unrouted e node va desc kind lost parts s) := by
    unfold unrouted
    dsimp only
    split
    · exact endsMore_sendNotice ..
    · exact endsMore_of (.refl _) rfl
  refine ⟨(endsMore_foldl (fun s x => endsMore_potDone ..) parts s).trans hdone, fun z hz h256 hn => hdone.completes.done _ _ ?_⟩
  exact parts_done (fun s x => endsMore_potDone ..) (fun s x hx hn => potDone_mem s hx hn) hz h256 hn s

theorem nackPour_ends {x : FabSend} {kind : PotKind} {desc : W64} {lost : Bool} {l : List PotPart} {sum sumi : Nat} (w0 w1 : W64)
    (hw : x.what = .pour kind desc lost l sum sumi) (s : State) :
    EndsMore s (nackPour x w0 w1 s) ∧ ∀ z ∈ l, z.ac < 256 → z.num ≠ 0 → (7, z.num) ∈ ((nackPour x w0 w1 s).ac z.ac).ln.tlDone := by
  have hhere {z : PotPart} (hz : z ∈ l) (h256 : z.ac < 256) : z ∈ (l.partition fun z => decide (256 ≤ z.ac)).2 := by
    rw [List.partition_eq_filter_filter]
    exact List.mem_filter.mpr ⟨hz, by simp [h256]⟩
  let far := (l.partition fun z => decide (256 ≤ z.ac)).1
  let here := (l.partition fun z => decide (256 ≤ z.ac)).2
  let u : State := far.foldl (fun s z => s.reply (z.ac - 256) z.num (if w0 = 0 then .fault w1.toNat else .nack w0 w1)) s
  have hfar : EndsMore s u := endsMore_foldl (fun s x => endsMore_reply ..) far s
  unfold nackPour
  rw [hw]
  dsimp only
  split
  · have hu := unrouted_ends (sender x.item).die x.node (BitVec.ofNat 64 x.addr) desc kind (lost || here.isEmpty) here u
    exact ⟨hfar.trans hu.1, fun z hz h256 hn => hu.2 z (hhere hz h256) h256 hn⟩
  · exact ⟨hfar.trans (endsMore_foldl (fun s x => endsMore_dropPart ..) _ _), fun z hz h256 hn =>
      parts_done (fun s x => endsMore_dropPart ..) (fun s x hx hn => dropPart_done s hx hn) (hhere hz h256) h256 hn _⟩

/-- VS of a cluster that runs a task, does not enter a trap and waits for no replay. -/
structure PutStands (n : Nat) (s : State) : Prop where
  task : (s.ac n).cc.task ≠ none
  saving : (s.ac n).cc.saving = false
  entry : (s.ac n).cc.entry = none
  runs : (s.ac n).vs.st = 1 ∨ (s.ac n).vs.st = 2
  xl : (s.ac n).vs.xl = none

/-- VS of a cluster that runs a task, and does not enter a trap, stops with the fault of its put (R347). -/
theorem putRefused_stops {n : Nat} {s : State} (w0 w1 : W64) (h : PutStands n s) : putRefused n w0 w1 s = engFault n .vs 0x06 w0 w1 s := by
  obtain ⟨ht, hs, he, hst, hx⟩ := h
  have htask : (s.ac n).cc.task.isSome = true := Option.isSome_iff_ne_none.mpr ht
  have hlate := lateFault_running (n := n) (s := s) (e := .vs) (c := 0x06) (i0 := w0) (i1 := w1) hst htask hs
  have hx' : ((s.ac n).eng .vs).xl = none := hx
  rw [he, hx'] at hlate
  unfold putRefused
  have h3 : ¬(s.ac n).vs.st = 3 := by omega
  have h0 : ¬((s.ac n).vs.st = 0 ∨ (s.ac n).cc.saving = true) := by
    rw [hs]
    rintro (h | h)
    · omega
    · cases h
  have hn : ¬(s.ac n).cc.task.isNone = true := by rw [Option.isNone_iff_eq_none]; exact ht
  simp only [if_neg hn, if_neg h3, if_neg h0, he]
  exact hlate

theorem putStands_fab {n : Nat} {s : State} (l : List FabSend) (h : PutStands n s) : PutStands n { s with fab := l } := ⟨h.1, h.2, h.3, h.4, h.5⟩


theorem copyNacked_ends {n i : Nat} {c : Copy} (w0 w1 : W64) {s u : State} (hacs : u.acs = s.acs) (hm : u.mem = s.mem) (hd : u.dies = s.dies) :
    (copyNacked n i c w0 w1 u).mem = s.mem ∧ (copyNacked n i c w0 w1 u).dies = s.dies
      ∧ ((copyNacked n i c w0 w1 u).ac n).io.copies = (s.ac n).io.copies.set i { c with cause := 0x10, acc0 := w0, acc1 := w1 } := by
  refine ⟨hm, hd, ?_⟩
  have hac : (u.dropSends (.copy n c.num)).ac n = s.ac n := ac_of_acs hacs n
  rw [copyNacked, State.setCopy, State.modAc_ac, if_pos rfl, hac]

section
variable {s : State} {k : Nat} {x : FabSend}

theorem execNack_eq (w0 w1 : W64) (hk : s.fab[k]? = some x) (hp : x.port ≠ none) (ha : x.acked = false) :
    exec (.fabricNack k w0 w1) s = .next (nackSend k x w0 w1 s) := by
  show execFabricNack k w0 w1 s = _
  simp only [execFabricNack, hk, ha, Option.isSome_iff_ne_none.mpr hp, Bool.not_false, and_self, if_true]

theorem execAck_eq (hk : s.fab[k]? = some x) (hp : x.port ≠ none) (ha : x.acked = false) : exec (.fabricAck k) s = .next (ackSend x k s) := by
  show execFabricAck k s = _
  simp only [execFabricAck, hk, ha, Option.isSome_iff_ne_none.mpr hp, Bool.not_false, and_self, if_true]

/-- A put that is refused: its request is forgotten, or all its probes are, and VS stops. -/
theorem nackPut_stops {n : Nat} (w0 w1 : W64) (hi : x.item = .put n) (h : PutStands n s) :
    nackSend k x w0 w1 s = engFault n .vs 0x06 w0 w1 (if x.isProbe then dropProbes n s else { s with fab := s.fab.eraseIdx k }) := by
  simp only [nackSend, hi]
  refine putRefused_stops w0 w1 ?_
  split
  · exact putStands_fab _ h
  · exact putStands_fab _ h

/-- A write of the outcome of the oldest closed round of a pot is given up (R190). -/
theorem refusePart_gives_up {d slot part pa : Nat} {p : Pot} {c : Closing} {r : List Closing} (hpart : part < 2) (hslot : slot < 64)
    (hp : s.pot? d pa = some p) (hc : p.closing = c :: r) :
    ∃ q b, (refusePart d pa slot part s).pot? d pa = some q ∧ q.closing = b :: r ∧ (slot, part) ∈ b.skip ∧ b.integ.getLsbD slot = true := by
  have hne : part ≠ 2 := by omega
  rw [refusePart, if_neg hne, giveUp]
  refine ⟨_, { c with skip := c.skip ++ [(slot, part)], integ := c.integ ||| BitVec.twoPow 64 slot }, modPot_some ?_ hp, ?_, List.mem_append_right _ List.mem_cons_self, ?_⟩
  · exact fun _ => rfl
  · simp only [hc, List.modify_zero_cons, if_neg (Nat.not_le.mpr hpart)]
  · simp [hslot]

theorem refusePart_frame (d pa slot part : Nat) (s : State) : (refusePart d pa slot part s).mem = s.mem ∧ (refusePart d pa slot part s).acs = s.acs
    ∧ (refusePart d pa slot part s).fab = s.fab := by
  unfold refusePart
  split <;> exact ⟨rfl, rfl, rfl⟩

theorem ackSend_pour {n num : Nat} {kind : PotKind} {desc : W64} {lost : Bool} {l : List PotPart} {sum sumi : Nat} (hi : x.item = .pour n num)
    (hw : x.what = .pour kind desc lost l sum sumi) :
    ackSend x k s = l.foldl (fun s z => potDone z.ac z.num s) { s with fab := s.fab.eraseIdx k } := by
  simp only [ackSend, hi, hw] <;> rfl

theorem ackSend_copy {n num : Nat} (hi : x.item = .copy n num) : ackSend x k s = { s with fab := s.fab.set k { x with acked := true } } := by
  unfold ackSend
  rw [hi] <;> rfl

/-- An acknowledgement changes nothing but the requests that stand, unless it completes pours. -/
theorem ackSend_frame (hn : ∀ n num kind desc lost l sum sumi, x.item = .pour n num → x.what ≠ .pour kind desc lost l sum sumi) :
    ∃ l, ackSend x k s = { s with fab := l } := by
  unfold ackSend
  split
  · next n num hi =>
    split
    · next kind desc lost l sum sumi hw => exact absurd hw (hn n num kind desc lost l sum sumi hi)
    · exact ⟨_, rfl⟩
  · exact ⟨_, rfl⟩
  · exact ⟨_, rfl⟩
  · split <;> exact ⟨_, rfl⟩
  · exact ⟨_, rfl⟩

theorem ack_clause (hk : s.fab[k]? = some x) (hp : x.port ≠ none) (ha : x.acked = false) :
    ∃ t, exec (.fabricAck k) s = .next t ∧ t.mem = s.mem ∧ t.dies = s.dies
      ∧ (∀ n num, x.item = .copy n num → t.acs = s.acs ∧ t.fab = s.fab.set k { x with acked := true })
      ∧ (∀ n num kind desc lost l sum sumi, x.item = .pour n num → x.what = .pour kind desc lost l sum sumi →
        t.fab = s.fab.eraseIdx k ∧ ∀ z ∈ l, z.ac < 256 → z.num ≠ 0 → (7, z.num) ∈ (t.ac z.ac).ln.tlDone) := by
  have hfold (l : List PotPart) (u : State) : CompletesMore u (l.foldl (fun s z => potDone z.ac z.num s) u) :=
    foldl_completes (fun s (z : PotPart) => potDone_completes z.ac z.num s) l u
  have hfab (l : List PotPart) (u : State) : (l.foldl (fun s z => potDone z.ac z.num s) u).fab = u.fab := by
    induction l generalizing u with
    | nil => rfl
    | cons z l ih => exact (ih _).trans (potDone_fab ..)
  refine ⟨_, execAck_eq hk hp ha, ?_⟩
  by_cases hpour : ∃ n num kind desc lost l sum sumi, x.item = .pour n num ∧ x.what = .pour kind desc lost l sum sumi
  · obtain ⟨n, num, kind, desc, lost, l, sum, sumi, hi, hw⟩ := hpour
    rw [ackSend_pour hi hw]
    refine ⟨(hfold l _).mem, (hfold l _).dies, fun _ _ h => (nomatch hi.symm.trans h), fun _ _ _ _ _ l' _ _ _ hw' => ⟨hfab l _, fun z hz h256 hn => ?_⟩⟩
    cases hw.symm.trans hw'
    exact parts_done (f := fun s z => potDone z.ac z.num s) (fun s x => endsMore_potDone ..) (fun s x hx hn => potDone_mem s hx hn) hz h256 hn _
  · have hno n num kind desc lost l sum sumi (hi : x.item = .pour n num) : x.what ≠ .pour kind desc lost l sum sumi :=
      fun hw => hpour ⟨n, num, kind, desc, lost, l, sum, sumi, hi, hw⟩
    obtain ⟨l, hl⟩ := ackSend_frame (s := s) (k := k) hno
    refine ⟨hl ▸ rfl, hl ▸ rfl, fun n num hi => ?_, fun n num kind desc lost l sum sumi hi hw => absurd hw (hno _ _ _ _ _ _ _ _ hi)⟩
    rw [ackSend_copy hi]
    exact ⟨rfl, rfl⟩

theorem nackSend_outcome {d desc slot part : Nat} (w0 w1 : W64) (hi : x.item = .outcome d desc slot part) :
    nackSend k x w0 w1 s = refusePart d (s.potAt d desc) slot part { s with fab := s.fab.set k { x with acked := true } } := by
  unfold nackSend
  rw [hi] <;> rfl

theorem nack_clause (w0 w1 : W64) (hk : s.fab[k]? = some x) (hp : x.port ≠ none) (ha : x.acked = false) :
    let gone : State := { s with fab := s.fab.eraseIdx k }
    (∀ n, x.item = .put n → (s.ac n).cc.task ≠ none → (s.ac n).cc.saving = false → (s.ac n).cc.entry = none →
      ((s.ac n).vs.st = 1 ∨ (s.ac n).vs.st = 2) → (s.ac n).vs.xl = none →
      exec (.fabricNack k w0 w1) s = .next (engFault n .vs 0x06 w0 w1 (if x.isProbe then dropProbes n s else gone)))
    ∧ (∀ n num i c, x.item = .copy n num → ((s.ac n).io.copies.findIdx? fun c => c.num == num) = some i →
      (s.ac n).io.copies[i]? = some c → ∃ t, exec (.fabricNack k w0 w1) s = .next t ∧ t.mem = s.mem ∧ t.dies = s.dies
        ∧ (t.ac n).io.copies = (s.ac n).io.copies.set i { c with cause := 0x10, acc0 := w0, acc1 := w1 })
    ∧ (∀ n num kind desc lost l sum sumi, x.item = .pour n num → x.what = .pour kind desc lost l sum sumi →
      ∃ t, exec (.fabricNack k w0 w1) s = .next t ∧ (∀ y ∈ t.fab, y ∈ gone.fab ∨ ∃ d, y.item = .notice d)
      ∧ ∀ z ∈ l, z.ac < 256 → z.num ≠ 0 → (7, z.num) ∈ (t.ac z.ac).ln.tlDone)
    ∧ (∀ d desc slot part, x.item = .outcome d desc slot part →
      ∃ t, exec (.fabricNack k w0 w1) s = .next t ∧ t.fab = s.fab.set k { x with acked := true } ∧ t.mem = s.mem ∧ t.acs = s.acs
        ∧ (part < 2 → slot < 64 → ∀ p c r, s.pot? d (s.potAt d desc) = some p → p.closing = c :: r →
          ∃ q b, t.pot? d (s.potAt d desc) = some q ∧ q.closing = b :: r ∧ (slot, part) ∈ b.skip ∧ b.integ.getLsbD slot = true))
    ∧ (∀ d, x.item = .notice d → exec (.fabricNack k w0 w1) s = .next gone) := by
  intro gone
  have hx := execNack_eq w0 w1 hk hp ha
  refine ⟨fun n hi ht hs he hst hxl => ?_, fun n num i c hi hidx hc => ?_, fun n num kind desc lost l sum sumi hi hw => ?_,
    fun d desc slot part hi => ?_, fun d hi => ?_⟩
  · rw [hx, nackPut_stops w0 w1 hi ⟨ht, hs, he, hst, hxl⟩]
  · have hidx' : copyIndex s n num = some i := hidx
    have hsend : nackSend k x w0 w1 s = copyNacked n i c w0 w1 gone := by simp only [nackSend, hi, hidx', hc] <;> rfl
    obtain ⟨hm, hd, hcs⟩ := copyNacked_ends (n := n) (i := i) (c := c) w0 w1 (s := s) (u := gone) rfl rfl rfl
    exact ⟨_, hx.trans (congrArg Host.Outcome.next hsend), hm, hd, hcs⟩
  · have hsend : nackSend k x w0 w1 s = nackPour x w0 w1 gone := by simp only [nackSend, hi] <;> rfl
    obtain ⟨he, hd⟩ := nackPour_ends w0 w1 hw gone
    exact ⟨_, hx.trans (congrArg Host.Outcome.next hsend), he.fab, hd⟩
  · let u : State := { s with fab := s.fab.set k { x with acked := true } }
    have hsend : nackSend k x w0 w1 s = refusePart d (s.potAt d desc) slot part u := nackSend_outcome w0 w1 hi
    obtain ⟨hm, hacs, hf⟩ := refusePart_frame d (s.potAt d desc) slot part u
    exact ⟨_, hx.trans (congrArg Host.Outcome.next hsend), hf, hm, hacs, fun hpart hslot p c r hpot hc => refusePart_gives_up (s := u) hpart hslot hpot hc⟩
  · have hsend : nackSend k x w0 w1 s = gone := by simp only [nackSend, hi] <;> rfl
    exact hx.trans (congrArg Host.Outcome.next hsend)

end

/-! ### Links and routes (Table 16-3, R470) -/

theorem getLsbD_setBits_one (w : W64) (i j : Nat) (up : Bool) (hi : i < 64) :
    (setBits w i 1 up.toNat).getLsbD j = if j = i then up else w.getLsbD j := by
  rw [setBits_eq, BitVec.getLsbD_ofNat, Nat.testBit_two_pow_mul_add _ (Nat.mod_lt _ (by positivity)), Nat.testBit_two_pow_mul_add _ (Nat.mod_lt _ (by positivity)),
    Nat.testBit_mod_two_pow, Nat.testBit_mod_two_pow, Nat.testBit_div_two_pow, Nat.testBit_div_two_pow, BitVec.testBit_toNat]
  by_cases hj : j < i
  · rw [if_pos hj, if_neg (by omega), decide_eq_true hj, decide_eq_true (show j < 64 by omega), Bool.true_and, Bool.true_and]
  · rw [if_neg hj]
    by_cases he : j = i
    · subst he
      rw [if_pos (by omega), if_pos rfl, decide_eq_true hi, Nat.sub_self]
      cases up <;> rfl
    · rw [if_neg (by omega), if_neg he, show j - i - 1 + 1 + i = j by omega, BitVec.testBit_toNat]
      by_cases h64 : j < 64
      · rw [decide_eq_true h64, Bool.true_and]
      · rw [decide_eq_false h64, Bool.false_and, BitVec.getLsbD_of_ge _ _ (Nat.not_lt.mp h64)]

theorem linkChange_clause (s : State) (port : Nat) (up : Bool) (hp : port < 32) :
    ∃ t, exec (.fabricLinkChange port up) s = .next t ∧ t.mem = s.mem ∧ t.acs = s.acs
      ∧ (t.reg (port / 8) 0xB008).getLsbD (port % 8) = up
      ∧ ∀ i, i ≠ port % 8 → (t.reg (port / 8) 0xB008).getLsbD i = (s.reg (port / 8) 0xB008).getLsbD i := by
  refine ⟨_, if_pos hp, rfl, rfl, ?_, fun i hi => ?_⟩
  · rw [reg_setReg_same, getLsbD_setBits_one _ _ _ _ (by omega), if_pos rfl]
  · rw [reg_setReg_same, getLsbD_setBits_one _ _ _ _ (by omega), if_neg hi]

theorem routeInvalid_clause {s : State} {node n : Nat} {x : FabSend} (hf : s.fab = [x]) (hi : x.item = .put n) (ha : x.acked = false) (hp : x.port = none)
    (hn : x.node = node) (hr : s.routeValid (dieOf n) node = false) (h : PutStands n s) :
    exec (.nodeRouteInvalid node) s = .next (engFault n .vs 0x06 (accRecord (.ac n 3) 0xFFFF 0xFF .write x.addr).1
      (accRecord (.ac n 3) 0xFFFF 0xFF .write x.addr).2 { s with fab := [] }) := by
  have hdie : (sender x.item).die = dieOf n := by rw [hi]; rfl
  have hidx : s.fab.findIdx? (· == x) = some 0 := by
    rw [hf, List.findIdx?_cons]
    simp
  show execNodeRouteInvalid node s = _
  unfold execNodeRouteInvalid
  dsimp only
  rw [List.foldl_filter, hf, List.foldl_cons, List.foldl_nil, hdie, hr, State.waitsRoute, ha, hp, hn, hi]
  simp only [hidx]
  have hcond : (!false && !Option.any s.portUp none && node == node && !false && true) = true := by simp
  rw [if_pos hcond]
  refine congrArg Host.Outcome.next ((nackPut_stops _ _ hi h).trans (congrArg (engFault n .vs 0x06 _ _) ?_))
  split
  · next hprobe => rw [dropProbes, hf, List.filter_cons_of_neg (by simp [hi, hprobe]), List.filter_nil]
  · rw [hf]; rfl

/-- Settles O33: an event of the fabric runs the access, or ends the requests, that its clause names. -/
theorem fabricEvents : Obligations.FabricEvents := by
  intro s
  refine ⟨fun port va exp data v pa at' s1 hv hr hm hh => ingressWrite_clause hv hr hm hh, fun port va exp rel data hw => execIngressWrite_waits hw,
    fun port va exp rel data hv hh hset => ingressRefused_clause hv hh hset, fun port exp off len v ps s1 hv hr => ?_,
    fun port exp off cidx slot v pa at' r s1 hv hr => ?_, fun k x hk hp ha => ack_clause hk hp ha, fun k x w0 w1 hk hp ha => nack_clause w0 w1 hk hp ha,
    fun port up hp => linkChange_clause s port up hp, fun node n x hf hi ha hp hn hr ht hs he hst hxl => ?_⟩
  · have hrun : ingressProbe port (exportVa exp off) len s = (.ack, s1) := ingressRun_ok hv (bindM_ok hr)
    show execFabricRingProbe port exp off len s = _
    rw [execFabricRingProbe, hrun]
    rfl
  · exact ringFree_clause hv hr
  · exact routeInvalid_clause hf hi ha hp hn hr ⟨ht, hs, he, hst, hxl⟩

end Sys2Proof

/-! # The launch table (R239, R241, R250, R253, R425 to R430) -/

namespace Sys2Proof

open Machine

/-! ### The launch table entry by entry (Table 14-6) -/

section
variable (s : State) (d l : Nat)

theorem modLent_lent (f : LEntry → LEntry) (k m : Nat) : (s.modLent d l f).lent k m = if k = d ∧ m = l then f (s.lent d l) else s.lent k m := by
  rw [State.lent, State.modLent, State.modDie_die]
  by_cases hk : k = d
  · rw [if_pos hk, smGet_smSet]
    by_cases hm : m = l
    · rw [if_pos hm, if_pos ⟨hk, hm⟩]
    · rw [if_neg hm, if_neg fun h => hm h.2, State.lent, hk]
  · rw [if_neg hk, if_neg fun h => hk h.1, State.lent]

theorem modLent_lent_self (f : LEntry → LEntry) : (s.modLent d l f).lent d l = f (s.lent d l) := by rw [modLent_lent, if_pos ⟨rfl, rfl⟩]

theorem lent_of_ltab {s t : State} {d : Nat} (h : (t.die d).ltab = (s.die d).ltab) (l : Nat) : t.lent d l = s.lent d l := by rw [State.lent, State.lent, h]

theorem lent_of_dies {s t : State} (h : t.dies = s.dies) (d l : Nat) : t.lent d l = s.lent d l := lent_of_ltab (congrArg Die.ltab (die_of_dies h d)) l

/-- An access of a die's dispatch hardware on which nothing waits, and which succeeds. -/
theorem dispHeld_ok {d : Nat} {s t : State} {tag : Nat} {bad : State → State} {f : M Unit} (hw : DispFree d s) (hf : f s = .ok () t) :
    dispHeld d tag bad f s = t := runHeld_ok rfl hw hf

theorem dispFree_modDie {f : Die → Die} (hf : ∀ x, (f x).waits = x.waits) {e : Nat} {s : State} (h : DispFree e s) : DispFree e (s.modDie d f) := by
  intro w hw
  rw [State.modDie_die] at hw
  split at hw
  · next he => exact h w (by rwa [hf, ← he] at hw)
  · exact h w hw

theorem dispFree_modLent (f : LEntry → LEntry) {e : Nat} {s : State} (h : DispFree e s) : DispFree e (s.modLent d l f) := 
    dispFree_modDie d (f := fun x => { x with ltab := smSet x.ltab l (f (s.lent d l)) }) (fun _ => rfl) h

theorem addDispatchRecord_keeps (va epa : W64) (entry : Nat) : ∃ dies, s.addDispatchRecord d va epa entry = { s with dies := dies } := ⟨_, rfl⟩

/-- A dispatch record leaves each die but for its pending records. -/
theorem addDispatchRecord_die (va epa : W64) (entry k : Nat) : ∃ fr q, (s.addDispatchRecord d va epa entry).die k = { s.die k with frPend := fr, frSeq := q } := by
  rw [State.addDispatchRecord, State.addRecord, State.modDie_die]
  split
  · next hk => exact ⟨_, _, by rw [hk]⟩
  · exact ⟨_, _, rfl⟩

end

/-! ### The ranges of a launch are freed (R246, R430) -/

theorem foldl_modDie_die {f : Nat → Die → Die} {ds : List Nat} (hd : ds.Nodup) (s : State) (k : Nat) :
    (ds.foldl (fun s d => s.modDie d (f d)) s).die k = if k ∈ ds then f k (s.die k) else s.die k := by
  induction ds generalizing s with
  | nil => rfl
  | cons d ds ih =>
    obtain ⟨hnot, hds⟩ := List.nodup_cons.mp hd
    rw [List.foldl_cons, ih hds, State.modDie_die]
    by_cases hk : k = d
    · subst hk
      rw [if_neg hnot, if_pos rfl, if_pos List.mem_cons_self]
    · simp [hk]

theorem foldl_modDie_keeps {α : Type} (g : α → Nat) (f : α → Die → Die) (l : List α) (s : State) :
    l.foldl (fun s x => s.modDie (g x) (f x)) s = { s with dies := (l.foldl (fun s x => s.modDie (g x) (f x)) s).dies } := by
  induction l generalizing s with
  | nil => rfl
  | cons x l ih => exact ih _

/-- A die whose walkers, quad claims and, with `conts`, continuations of a launch have been freed. -/
def Die.freed (d launch : Nat) (conts : Bool) (x : Die) : Die :=
  { x with
    walkers := x.walkers.filter fun w => w.2.launch != launch
    qclaims := x.qclaims.filter fun c => c.2.1 != launch
    conts := if conts then x.conts.filter fun c => c.launch != launch else x.conts
    waits := if conts then x.waits.filter fun w => !(w.who == .disp d && x.conts.any fun c => c.launch == launch && w.tag == contTag c.va)
             else x.waits }

/-- A cluster whose claims of a launch have been freed. -/
def sansClaims (launch : Nat) (a : AC) : AC := { a with disp := { a.disp with claims := a.disp.claims.filter fun c => c.1 != launch } }

/-- The part of `freeRanges` that concerns the dies. -/
@[irreducible] def freeDies (s : State) (launch : Nat) (conts : Bool) : State :=
  (List.range 4).foldl (fun s d => s.modDie d (Die.freed d launch conts)) s

section
variable (s : State) (launch : Nat) (conts : Bool)

theorem freeRanges_eq : s.freeRanges launch conts
    = { freeDies s launch conts with acs := (freeDies s launch conts).acs.map fun x => (x.1, sansClaims launch x.2) } := by
  unfold freeDies
  rfl

theorem freeDies_die (k : Nat) : (freeDies s launch conts).die k = if k < 4 then Die.freed k launch conts (s.die k) else s.die k := by
  have h := foldl_modDie_die (f := fun d => Die.freed d launch conts) (List.nodup_range (n := 4)) s k
  simp only [List.mem_range] at h
  unfold freeDies
  exact h

theorem freeDies_keeps : freeDies s launch conts = { s with dies := (freeDies s launch conts).dies } := by
  unfold freeDies
  exact foldl_modDie_keeps (fun d => d) (fun d => Die.freed d launch conts) _ s

theorem freeRanges_die (k : Nat) : (s.freeRanges launch conts).die k = if k < 4 then Die.freed k launch conts (s.die k) else s.die k := by
  rw [freeRanges_eq]
  exact freeDies_die s launch conts k

theorem freeRanges_mem : (s.freeRanges launch conts).mem = s.mem := by
  have h := congrArg State.mem (freeDies_keeps s launch conts)
  rw [freeRanges_eq]
  exact h

theorem freeRanges_ac (n : Nat) : (s.freeRanges launch conts).ac n = sansClaims launch (s.ac n) := by
  have hacs := congrArg State.acs (freeDies_keeps s launch conts)
  rw [freeRanges_eq, hacs]
  show smGet AC.reset (s.acs.map fun x => (x.1, sansClaims launch x.2)) n = _
  unfold smGet State.ac smGet
  rw [smFind_map]
  cases smFind s.acs n <;> rfl

theorem freeRanges_lent (d l : Nat) : (s.freeRanges launch conts).lent d l = s.lent d l := by
  refine lent_of_ltab ?_ l
  rw [freeRanges_die]
  split <;> rfl

end

section
variable {d l : Nat} {s : State}

theorem freeEntry_leaves : smFind ((freeEntry d l s).die d).ltab l = none ∧ (freeEntry d l s).mem = s.mem := by
  have hd : (freeEntry d l s).die d = (fun x : Die => ({ x with ltab := smErase x.ltab l }).dropTag d (dispTag l))
      ((watchDep d l none (s.freeRanges (s.lent d l).launch true)).die d) := (State.modDie_die ..).trans (if_pos rfl)
  have hm : (freeEntry d l s).mem = (s.freeRanges (s.lent d l).launch true).mem := rfl
  refine ⟨?_, hm.trans (freeRanges_mem ..)⟩
  rw [hd]
  show smFind (smErase _ l) l = none
  rw [smFind_smErase, if_pos rfl]

/-- LAUNCH_CANCEL (R430): a launch that is not cancelled goes to DRAIN with no coordinates and no continuations left. -/
theorem cancelLaunch_leaves (code : Nat) (hst : (s.lent d l).st ≠ 0) (hc : (s.lent d l).cancelled = false) :
    ((s.cancelLaunch d l code).lent d l).st = 3 ∧ ((s.cancelLaunch d l code).lent d l).cancelled = true
      ∧ (∀ k, k < 4 → (∀ w ∈ ((s.cancelLaunch d l code).die k).walkers, w.2.launch ≠ (s.lent d l).launch)
        ∧ ∀ c ∈ ((s.cancelLaunch d l code).die k).conts, c.launch ≠ (s.lent d l).launch)
      ∧ (s.cancelLaunch d l code).mem = s.mem ∧ ∀ n, ((s.cancelLaunch d l code).ac n).cc = (s.ac n).cc := by
  generalize hf : s.freeRanges (s.lent d l).launch true = f
  let u := f.modLent d l fun e => { e with st := 3, cancelled := true }
  have hx : s.cancelLaunch d l code = u.addDispatchRecord d (s.lent d l).lrecVa 0 code := by
    unfold State.cancelLaunch
    dsimp only
    rw [if_neg (by simp [hst, hc]), hf]
  have hul : u.lent d l = { s.lent d l with st := 3, cancelled := true } := by rw [modLent_lent_self, ← hf, freeRanges_lent]
  have hlent : (s.cancelLaunch d l code).lent d l = u.lent d l := by
    obtain ⟨fr, q, h⟩ := addDispatchRecord_die u d (s.lent d l).lrecVa 0 code d
    have hltab := congrArg Die.ltab h
    rw [hx]
    exact lent_of_ltab hltab l
  have hmem := congrArg State.mem hx
  have hacs := congrArg State.acs hx
  replace hmem : (s.cancelLaunch d l code).mem = f.mem := hmem
  replace hacs : (s.cancelLaunch d l code).acs = f.acs := hacs
  rw [hlent, hul, hmem, ← hf]
  refine ⟨rfl, rfl, fun k hk => ?_, freeRanges_mem .., fun n => ?_⟩
  · obtain ⟨fr, q, h⟩ := addDispatchRecord_die u d (s.lent d l).lrecVa 0 code k
    have hw := congrArg Die.walkers h
    have hc := congrArg Die.conts h
    have hu : (u.die k).walkers = (f.die k).walkers ∧ (u.die k).conts = (f.die k).conts := by
      have hud := State.modDie_die f d k fun x => { x with ltab := smSet x.ltab l { f.lent d l with st := 3, cancelled := true } }
      replace hud : u.die k = _ := hud
      rw [hud]
      split
      · next hkd => rw [hkd]; exact ⟨rfl, rfl⟩
      · exact ⟨rfl, rfl⟩
    have hfd : f.die k = Die.freed k (s.lent d l).launch true (s.die k) := by rw [← hf, freeRanges_die, if_pos hk]
    rw [hx, hw, hc]
    show (∀ w ∈ (u.die k).walkers, _) ∧ ∀ c ∈ (u.die k).conts, _
    rw [hu.1, hu.2, hfd]
    exact ⟨fun w hw => bne_iff_ne.mp (List.mem_filter.mp hw).2, fun c hc => bne_iff_ne.mp (List.mem_filter.mp hc).2⟩
  · rw [ac_of_acs hacs, ← hf, freeRanges_ac]
    rfl

theorem launchCancel_clause (hst : (s.lent d l).st ≠ 0) (hc : (s.lent d l).cancelled = false) :
    ∃ t : State, exec (.launchCancel d l) s = .next t ∧ (t.lent d l).st = 3 ∧ (t.lent d l).cancelled = true
      ∧ (∀ k, k < 4 → (∀ w ∈ (t.die k).walkers, w.2.launch ≠ (s.lent d l).launch) ∧ ∀ c ∈ (t.die k).conts, c.launch ≠ (s.lent d l).launch)
      ∧ t.mem = s.mem ∧ ∀ n, (t.ac n).cc = (s.ac n).cc := ⟨_, rfl, cancelLaunch_leaves 0x102 hst hc⟩

/-! ### Admission (R425, R426, R164) -/

/-- A queue whose head has left, whatever the mailbox entry of the launch. -/
theorem popLaunch_eq (d : Nat) (q : LqEntry) (s : State) : popLaunch d q s = s.modDie d (fun x => { x with launchQ := x.launchQ.drop 1 })
    ∨ ∃ o w, popLaunch d q s = (s.modDie d (fun x => { x with launchQ := x.launchQ.drop 1 })).setReg d o w := by
  unfold popLaunch
  dsimp only
  split
  · exact .inl rfl
  · exact .inr ⟨_, _, rfl⟩

theorem popLaunch_launchQ (d : Nat) (q : LqEntry) (s : State) : ((popLaunch d q s).die d).launchQ = (s.die d).launchQ.drop 1
    ∧ ((popLaunch d q s).die d).ltab = (s.die d).ltab ∧ ((popLaunch d q s).die d).frSeq = (s.die d).frSeq := by
  rcases popLaunch_eq d q s with h | ⟨o, w, h⟩
  · rw [h, State.modDie_die, if_pos rfl]
    exact ⟨rfl, rfl, rfl⟩
  · rw [h, die_setReg_self, State.modDie_die, if_pos rfl]
    exact ⟨rfl, rfl, rfl⟩

theorem popLaunch_keeps (d : Nat) (q : LqEntry) (s : State) : (popLaunch d q s).mem = s.mem ∧ (popLaunch d q s).acs = s.acs := by
  rcases popLaunch_eq d q s with h | ⟨o, w, h⟩ <;> rw [h] <;> exact ⟨rfl, rfl⟩

/-- The launch table entry of a launch that has been admitted with a dependence. -/
def depEntry (q : LqEntry) (r : List W64) : LEntry := ⟨1, q.launch, q.lrec, r, 0, 0, 0, none, 0, false, false, false, [], []⟩

theorem admit_clause {q : LqEntry} {rest : List LqEntry} {b : List Byte} {s1 : State} (hfree : DispFree d s) (hq : (s.die d).launchQ = q :: rest)
    (hl : ((List.range 64).find? fun l => (smFind (s.die d).ltab l).isNone) = some l) (hr : readAcquired (.disp d) .pkg q.lrec 256 8 s = .ok b s1) :
    (∀ s2 s3 : State, rejectReason (words64 b) = none → rw (words64 b) 7 ≠ 0 → readHanded d (rw (words64 b) 5) s1 = .ok () s2 →
      readHanded d (rw (words64 b) 6) s2 = .ok () s3 →
      ∃ t : State, exec (.launchQueueAdmit d) s = .next t ∧ (t.die d).launchQ = (s3.die d).launchQ.drop 1
      ∧ (t.lent d l).st = 1 ∧ (t.lent d l).launch = q.launch ∧ (t.lent d l).lrecVa = q.lrec ∧ (t.lent d l).lrec = words64 b ∧ t.mem = s3.mem ∧ t.acs = s3.acs)
    ∧ (∀ k : Nat, rejectReason (words64 b) = some k → ∃ t : State, exec (.launchQueueAdmit d) s = .next t
      ∧ (t.die d).launchQ = (s1.die d).launchQ.drop 1 ∧ (t.die d).ltab = (s1.die d).ltab ∧ (t.die d).frSeq = (s1.die d).frSeq + 1
      ∧ t.mem = s1.mem) := by
  have hrun {t : State} (ht : (if (rejectReason (words64 b)).isNone then do
        readHanded d (rw (words64 b) 5)
        readHanded d (rw (words64 b) 6)
        act fun s =>
          let s := popLaunch d q s
          match rejectReason (words64 b) with
          | some k => s.addDispatchRecord d q.lrec 0 k
          | none =>
            let s := s.modDie d fun x => { x with ltab := smSet x.ltab l (depEntry q (words64 b)) }
            if rw (words64 b) 7 = 0 then applyCond d l s else s
      else act fun s =>
          let s := popLaunch d q s
          match rejectReason (words64 b) with
          | some k => s.addDispatchRecord d q.lrec 0 k
          | none =>
            let s := s.modDie d fun x => { x with ltab := smSet x.ltab l (depEntry q (words64 b)) }
            if rw (words64 b) 7 = 0 then applyCond d l s else s : M Unit) s1 = .ok () t) : admitLaunch d s = t := by
    unfold admitLaunch
    rw [hq, hl]
    refine dispHeld_ok hfree ((bindM_ok hr).trans ?_)
    exact ht
  refine ⟨fun s2 s3 hnone h7 h5 h6 => ?_, fun k hk => ?_⟩
  · let t := (popLaunch d q s3).modDie d fun x => { x with ltab := smSet x.ltab l (depEntry q (words64 b)) }
    have hlent : t.lent d l = depEntry q (words64 b) := by
      show smGet _ (t.die d).ltab l = _
      rw [State.modDie_die, if_pos rfl, smGet_smSet, if_pos rfl]
    refine ⟨t, congrArg Host.Outcome.next (hrun (t := t) ?_), ?_, ?_⟩
    · rw [if_pos (by rw [hnone]; rfl)]
      refine (bindM_ok h5).trans ((bindM_ok h6).trans ((act_run ..).trans ?_))
      simp only [hnone, if_neg h7] <;> rfl
    · rw [State.modDie_die, if_pos rfl]
      exact (popLaunch_launchQ d q s3).1
    · rw [hlent]
      exact ⟨rfl, rfl, rfl, rfl, (popLaunch_keeps d q s3).1, (popLaunch_keeps d q s3).2⟩
  · let t := (popLaunch d q s1).addDispatchRecord d q.lrec 0 k
    obtain ⟨hpq, hpl, hpf⟩ := popLaunch_launchQ d q s1
    have hend := addRecord_ends (s := popLaunch d q s1) d ⟨BitVec.ofNat 64 (masterId (.disp d) * 2 ^ 48 + 0x30 * 2 ^ 40 + 10 * 2 ^ 36), q.lrec, 0, BitVec.ofNat 64 k⟩
    have hlt : (t.die d).ltab = ((popLaunch d q s1).die d).ltab := by
      obtain ⟨fr, z, h⟩ := addDispatchRecord_die (popLaunch d q s1) d q.lrec 0 k d
      have hltab := congrArg Die.ltab h
      exact hltab
    refine ⟨t, congrArg Host.Outcome.next (hrun (t := t) ?_), ?_, ?_, ?_, (popLaunch_keeps d q s1).1⟩
    · rw [if_neg (by rw [hk]; simp)]
      refine (act_run ..).trans ?_
      simp only [hk] <;> rfl
    · exact hend.1.trans hpq
    · exact hlt.trans hpl
    · exact hend.2.2.1.trans (congrArg (· + 1) hpf)

/-! ### Epochs (R239, R241) -/

section
variable {α : Type} (g : α → Nat) (f : State → α → Die → Die) (xs : List α) (s : State)

theorem foldl_modDie_mem : (xs.foldl (fun s x => s.modDie (g x) (f s x)) s).mem = s.mem := by
  induction xs generalizing s with
  | nil => rfl
  | cons x xs ih => exact ih _

theorem foldl_modDie_lent (hf : ∀ s x y, (f s x y).ltab = y.ltab) (d l : Nat) : (xs.foldl (fun s x => s.modDie (g x) (f s x)) s).lent d l = s.lent d l := by
  induction xs generalizing s with
  | nil => rfl
  | cons x xs ih =>
    refine (ih _).trans (lent_of_ltab ?_ l)
    rw [State.modDie_die]
    split
    · next hd => rw [hf, hd]
    · rfl

end

/-- Placing an epoch keeps memory, and leaves the entry of its launch but for PLACED. -/
theorem placeEpoch_leaves (d l : Nat) (s : State) :
    (placeEpoch d l s).mem = s.mem ∧ ∃ p, (placeEpoch d l s).lent d l = { s.lent d l with placed := p } := by
  unfold placeEpoch
  dsimp only
  split
  · exact ⟨rfl, (s.lent d l).placed, rfl⟩
  · refine ⟨foldl_modDie_mem .., true, (modLent_lent_self ..).trans (congrArg (fun e : LEntry => { e with placed := true }) (foldl_modDie_lent _ _ _ _ ?_ ..))⟩
    intro s x y
    split <;> rfl

/-- The tasks of a launch that is not persistent are placed once its record can be read (R429). -/
theorem placeTasks_ok {v s2 : State} {ps : List (Nat × Nat × BitVec 2)} (hfree : DispFree d v) (hp : lrPersist (v.lent d l).lrec = false)
    (hr : reach (.disp d) .read (v.lent d l).lrecVa.toNat 256 v = .ok ps s2) : placeTasks d l v = placeEpoch d l s2 := by
  unfold placeTasks recordReadable
  dsimp only
  rw [if_neg (by rw [hp]; decide)]
  exact dispHeld_ok hfree (bindM_ok hr)

theorem epochStart_clause (hst : (s.lent d l).st = 2) (hc : (s.lent d l).cancelled = false) (hpa : (s.lent d l).paused = false)
    (hpl : (s.lent d l).placed = true) (hpe : lrPersist (s.lent d l).lrec = false) :
    ((s.lent d l).epDone < lrTasks (s.lent d l).lrec ∨ lrEpochs (s.lent d l).lrec ≤ (s.lent d l).epoch + 1 → exec (.epochStart d l) s = .next s)
    ∧ (lrTasks (s.lent d l).lrec ≤ (s.lent d l).epDone → (s.lent d l).epoch + 1 < lrEpochs (s.lent d l).lrec → ∀ u : State,
      u = releaseEpoch (s.lent d l).ran (s.lent d l).launch (transitionScope (s.lent d l).lrec (s.lent d l).epoch) s →
      u.settledAcs (transitionScope (s.lent d l).lrec (s.lent d l).epoch) (s.lent d l).ran = false → exec (.epochStart d l) s = .next u)
    ∧ (lrTasks (s.lent d l).lrec ≤ (s.lent d l).epDone → (s.lent d l).epoch + 1 < lrEpochs (s.lent d l).lrec →
      ∀ (u s1 : State) (ps : List (Nat × Nat × BitVec 2)),
      u = releaseEpoch (s.lent d l).ran (s.lent d l).launch (transitionScope (s.lent d l).lrec (s.lent d l).epoch) s → DispFree d u →
      u.settledAcs (transitionScope (s.lent d l).lrec (s.lent d l).epoch) (s.lent d l).ran = true →
      reach (.disp d) .read (s.lent d l).lrecVa.toNat 256
          (u.modLent d l fun e => { e with epoch := e.epoch + 1, epDone := 0, placed := false, ran := [] }) = .ok ps s1 →
      s1.lent d l = { u.lent d l with epoch := (s.lent d l).epoch + 1, epDone := 0, placed := false, ran := [] } →
      u.lent d l = s.lent d l →
      ∃ t : State, exec (.epochStart d l) s = .next t ∧ (t.lent d l).epoch = (s.lent d l).epoch + 1 ∧ (t.lent d l).epDone = 0 ∧ t.mem = s1.mem) := by
  have hrun : ¬((s.lent d l).st ≠ 2 ∨ (s.lent d l).cancelled = true ∨ (s.lent d l).paused = true) := by simp [hst, hc, hpa]
  have hplaced : ¬(!(s.lent d l).placed) = true := by simp [hpl]
  refine ⟨fun h => ?_, fun hd he u hu hset => ?_, fun hd he u s1 ps hu hfree hset hr hs1 hul => ?_⟩
  · show Host.Outcome.next (startEpoch d l s) = _
    unfold startEpoch
    dsimp only
    rw [if_neg hrun, if_neg hplaced, if_pos (.inr h)]
  all_goals
    have hnext : ¬(lrPersist (s.lent d l).lrec = true ∨ (s.lent d l).epDone < lrTasks (s.lent d l).lrec
        ∨ lrEpochs (s.lent d l).lrec ≤ (s.lent d l).epoch + 1) := by
      rw [hpe]
      rintro (h | h | h)
      · cases h
      · omega
      · omega
    subst hu
  · show Host.Outcome.next (startEpoch d l s) = _
    unfold startEpoch
    dsimp only
    rw [if_neg hrun, if_neg hplaced, if_neg hnext, hset, if_pos (by decide)]
  · generalize hu : releaseEpoch (s.lent d l).ran (s.lent d l).launch (transitionScope (s.lent d l).lrec (s.lent d l).epoch) s = u at *
    let v := u.modLent d l fun e => { e with epoch := e.epoch + 1, epDone := 0, placed := false, ran := [] }
    have hv : v.lent d l = { s.lent d l with epoch := (s.lent d l).epoch + 1, epDone := 0, placed := false, ran := [] } := by
      rw [modLent_lent_self, hul]
    have hx : startEpoch d l s = placeTasks d l v := by
      unfold startEpoch
      dsimp only
      rw [if_neg hrun, if_neg hplaced, if_neg hnext, hu, hset, if_neg (by decide)]
    have hp : placeTasks d l v = placeEpoch d l s1 := by
      refine placeTasks_ok (ps := ps) (dispFree_modLent d l _ hfree) (by rw [hv]; exact hpe) ?_
      rw [hv]
      exact hr
    obtain ⟨hm, p, hl⟩ := placeEpoch_leaves d l s1
    refine ⟨_, congrArg Host.Outcome.next (hx.trans hp), ?_, ?_, hm⟩ <;> rw [hl, hs1]

/-! ### Dependences (R427, R428) -/

theorem watchDep_lent (g : Option Nat) (s : State) (k m : Nat) : (watchDep d l g s).lent k m = s.lent k m := rfl

/-- Watching a granule and ceasing to watch it leaves the other watches. -/
theorem watchDep_watchDep (g : Option Nat) (s : State) :
    watchDep d l none (watchDep d l g s) = { s with watch := s.watch.filter fun w => w.2 != (d, 256 + l) } := by
  have hw : (watchDep d l g s).watch.filter (fun w => w.2 != (d, 256 + l)) = s.watch.filter fun w => w.2 != (d, 256 + l) := by
    unfold watchDep
    cases g with
    | none => simp
    | some k => simp
  unfold watchDep at hw ⊢
  dsimp only at hw ⊢
  rw [hw]

section
variable {ps : List (Nat × Nat × BitVec 2)} {b : List Byte} {s0 s1 : State}

/-- A dependence that has been read: the word and the cycle stand in the entry. -/
def depRead (d l : Nat) (b : List Byte) (s1 : State) : State :=
  (acquire (.disp d) .pkg s1).modLent d l fun e => { e with depseen := le64 b, depAt := some s1.cycle }

theorem readDep_reads (hfree : DispFree d s) (hst : (s.lent d l).st = 1) (hc : (s.lent d l).cancelled = false) (hpa : (s.lent d l).paused = false)
    (h7 : rw (s.lent d l).lrec 7 ≠ 0) (hd : (s.lent d l).depAt = none ∨ (s.lent d l).depseen.toNat < (rw (s.lent d l).lrec 8).toNat)
    (hr : reach (.disp d) .read (rw (s.lent d l).lrec 7).toNat 8 (s.modLent d l fun e => { e with depAt := none }) = .ok ps s0)
    (hb : strongRead (.disp d) .pkg (rw (s.lent d l).lrec 7) 8 s0 = .ok b s1) :
    ∃ g, (∀ x ∈ ps.head?, inHbm x.1 = true → g = some (canonPa d x.1)) ∧
      readDep d l s = if ((depRead d l b s1).lent d l).depMet then applyCond d l (watchDep d l g (depRead d l b s1)) else watchDep d l g (depRead d l b s1) := by
  have hmet : ¬(s.lent d l).depMet = true := by
    unfold LEntry.depMet
    rw [Bool.or_eq_true, not_or]
    refine ⟨fun h => h7 (eq_of_beq h), ?_⟩
    rcases hd with hd | hd
    · simp [hd]
    · simp [hd]
  refine ⟨(ps.head?.map (·.1)).bind fun pa => if inHbm pa then some (canonPa d pa) else none, fun x hx hi => ?_, ?_⟩
  · rw [Option.mem_def.mp hx]
    simp [hi]
  · unfold readDep
    dsimp only
    rw [if_neg (by simp [hst, hc, hpa]), if_neg hmet]
    refine dispHeld_ok (dispFree_modLent d l _ hfree) ((bindM_ok hr).trans ((bindM_ok hb).trans ?_))
    have hcyc : (acquire (.disp d) .pkg s1).cycle = s1.cycle := (memStep_acquire ..).cycle
    have hread : depRead d l b s1 = (acquire (.disp d) .pkg s1).modLent d l fun e =>
        { e with depseen := le64 b, depAt := some (acquire (.disp d) .pkg s1).cycle } := by rw [hcyc]; rfl
    refine (bindM_ok (act_run ..)).trans ((act_run ..).trans ?_)
    rw [hread]
    rfl

theorem depRead_lent (hs1 : s1.lent d l = { s.lent d l with depAt := none }) :
    (depRead d l b s1).lent d l = { s.lent d l with depseen := le64 b, depAt := some s1.cycle } := by
  rw [depRead, modLent_lent_self, lent_of_dies (memStep_acquire ..).dies, hs1]

theorem dependence_clause (hfree : DispFree d s) (hst : (s.lent d l).st = 1) (hc : (s.lent d l).cancelled = false) (hpa : (s.lent d l).paused = false)
    (h7 : rw (s.lent d l).lrec 7 ≠ 0) (hd : (s.lent d l).depAt = none ∨ (s.lent d l).depseen.toNat < (rw (s.lent d l).lrec 8).toNat)
    (hr : reach (.disp d) .read (rw (s.lent d l).lrec 7).toNat 8 (s.modLent d l fun e => { e with depAt := none }) = .ok ps s0)
    (hb : strongRead (.disp d) .pkg (rw (s.lent d l).lrec 7) 8 s0 = .ok b s1) (hs1 : s1.lent d l = { s.lent d l with depAt := none }) :
    ((le64 b).toNat < (rw (s.lent d l).lrec 8).toNat → ∃ t : State, exec (.dependenceRead d l) s = .next t
        ∧ t.lent d l = { s.lent d l with depseen := le64 b, depAt := some s1.cycle } ∧ t.mem = (depRead d l b s1).mem
        ∧ ∀ x ∈ ps.head?, inHbm x.1 = true → (canonPa d x.1 / 64 * 64, d, 256 + l) ∈ t.watch)
      ∧ ((rw (s.lent d l).lrec 8).toNat ≤ (le64 b).toNat → lrCond (s.lent d l).lrec = false → lrPersist (s.lent d l).lrec = false →
        lrEpochs (s.lent d l).lrec ≠ 0 → lrTasks (s.lent d l).lrec ≠ 0 → ∀ (v s2 : State) (qs : List (Nat × Nat × BitVec 2)),
        v = { depRead d l b s1 with watch := (depRead d l b s1).watch.filter fun w => w.2 != (d, 256 + l) }.modLent d l (fun e => { e with st := 2 }) →
        DispFree d v → reach (.disp d) .read (s.lent d l).lrecVa.toNat 256 v = .ok qs s2 → s2.lent d l = v.lent d l →
        ∃ t : State, exec (.dependenceRead d l) s = .next t ∧ (t.lent d l).st = 2 ∧ (t.lent d l).depseen = le64 b)
      ∧ ((rw (s.lent d l).lrec 8).toNat ≤ (le64 b).toNat → lrCond (s.lent d l).lrec = false →
        lrEpochs (s.lent d l).lrec = 0 ∨ lrTasks (s.lent d l).lrec = 0 →
        ∃ t : State, exec (.dependenceRead d l) s = .next t ∧ (t.lent d l).st = 3) := by
  obtain ⟨g, hg, hx⟩ := readDep_reads hfree hst hc hpa h7 hd hr hb
  have hlent := depRead_lent (b := b) hs1
  have hmet : ((depRead d l b s1).lent d l).depMet = true ↔ (rw (s.lent d l).lrec 8).toNat ≤ (le64 b).toNat := by
    have h0 : (rw (s.lent d l).lrec 7 == 0) = false := beq_eq_false_iff_ne.mpr h7
    rw [hlent, LEntry.depMet, h0]
    simp
  have happly (hle : (rw (s.lent d l).lrec 8).toNat ≤ (le64 b).toNat) (hcond : lrCond (s.lent d l).lrec = false) :
      exec (.dependenceRead d l) s = .next (enterRun d l true
        { depRead d l b s1 with watch := (depRead d l b s1).watch.filter fun w => w.2 != (d, 256 + l) }) := by
    refine congrArg Host.Outcome.next (hx.trans ?_)
    rw [if_pos (hmet.mpr hle)]
    unfold applyCond
    dsimp only
    rw [watchDep_lent, hlent, hcond, watchDep_watchDep, if_pos (by decide)]
  refine ⟨fun hlt => ⟨watchDep d l g (depRead d l b s1), ?_, hlent, rfl, fun x hxm hi => ?_⟩, fun hle hcond hpe hep hta v s2 qs hv hf2 hr2 hs2 => ?_,
    fun hle hcond hno => ?_⟩
  · refine congrArg Host.Outcome.next (hx.trans (if_neg fun h => ?_))
    have := hmet.mp h
    omega
  · rw [hg x hxm hi]
    exact List.mem_cons_self
  · rw [happly hle hcond]
    have hvl : v.lent d l = { s.lent d l with depseen := le64 b, depAt := some s1.cycle, st := 2 } := by
      rw [hv, modLent_lent_self]
      exact congrArg (fun e : LEntry => { e with st := 2 }) hlent
    have hrun : enterRun d l true { depRead d l b s1 with watch := (depRead d l b s1).watch.filter fun w => w.2 != (d, 256 + l) } = placeTasks d l v := by
      have hl' : State.lent { depRead d l b s1 with watch := (depRead d l b s1).watch.filter fun w => w.2 != (d, 256 + l) } d l
          = { s.lent d l with depseen := le64 b, depAt := some s1.cycle } := hlent
      unfold enterRun
      dsimp only
      rw [hl', if_neg (by simp [hep, hta]), hv]
    obtain ⟨-, p, hl⟩ := placeEpoch_leaves d l s2
    refine ⟨_, congrArg Host.Outcome.next (hrun.trans (placeTasks_ok hf2 (by rw [hvl]; exact hpe) (by rw [hvl]; exact hr2))), ?_, ?_⟩
    · rw [hl, hs2, hvl]
    · rw [hl, hs2, hvl]
  · rw [happly hle hcond]
    have hl' : State.lent { depRead d l b s1 with watch := (depRead d l b s1).watch.filter fun w => w.2 != (d, 256 + l) } d l
        = { s.lent d l with depseen := le64 b, depAt := some s1.cycle } := hlent
    refine ⟨_, rfl, ?_⟩
    unfold enterRun
    dsimp only
    rw [hl', if_pos (.inr hno.symm), modLent_lent_self]

end

/-! ### Continuations (R253) -/

theorem contHolds_of {c : Cont} {s1 : State} (h : ContHolds d c s s1) : contHolds d c s = .ok true s1 := by
  rcases h with ⟨hk, hle, rfl⟩ | ⟨hk, b, u, hr, ht, rfl⟩ | ⟨hk, ps, lo, hi, u, v, w, hr, hlo, hhi, h0, h1, rfl⟩
  · unfold contHolds
    simp only [hk]
    rw [get_bindM, pure_run, decide_eq_true hle]
  · unfold contHolds
    simp only [hk]
    refine (bindM_ok hr).trans ((bindM_ok (act_run ..)).trans ?_)
    rw [pure_run, (tagReached_iff ..).mpr ht]
  · unfold contHolds
    simp only [hk]
    refine (bindM_ok hr).trans ((bindM_ok hlo).trans ((bindM_ok hhi).trans ((bindM_ok (act_run ..)).trans ?_)))
    rw [pure_run, h0, h1, beq_self_eq_true, beq_self_eq_true]
    rfl

theorem continuation_clause {rec' : Nat} {c : Cont} (hfree : DispFree d s) (hc : ((s.die d).conts.find? fun c => c.va.toNat == rec') = some c)
    (hready : c.ready = false) :
    (c.wkind = 1 → (s.ac c.origin).ln.shown (5 + c.ctx) < c.wval0.toNat → exec (.continuationReady d rec') s = .next s)
    ∧ (∀ s1 s2 : State, ContHolds d c s s1 → contState d c 2 s1 = .ok () s2 → c ∈ (s2.die d).conts →
      ∃ t : State, exec (.continuationReady d rec') s = .next t ∧ { c with ready := true, readyAt := s2.cycle } ∈ (t.die d).conts ∧ t.mem = s2.mem) := by
  have hx : exec (.continuationReady d rec') s = .next (contReady d c s) := by
    show Host.Outcome.next (match (s.die d).conts.find? fun c => c.va.toNat == rec' with | some c => _ | none => _) = _
    rw [hc]
  have hnr : ¬c.ready = true := by rw [hready]; decide
  refine ⟨fun hk hlt => ?_, fun s1 s2 hh hs hm => ?_⟩
  · have hno : contHolds d c s = .ok false s := by
      unfold contHolds
      simp only [hk]
      rw [get_bindM, pure_run, decide_eq_false (Nat.not_le.mpr hlt)]
    rw [hx, contReady, if_neg hnr]
    refine congrArg Host.Outcome.next (dispHeld_ok hfree ((bindM_ok hno).trans ?_))
    rfl
  · let t := s2.modDie d fun x => { x with conts := x.conts.map fun y => if y = c then { y with ready := true, readyAt := s2.cycle } else y }
    refine ⟨t, ?_, ?_, rfl⟩
    · rw [hx, contReady, if_neg hnr]
      refine congrArg Host.Outcome.next (dispHeld_ok hfree ((bindM_ok (contHolds_of hh)).trans ?_))
      exact (bindM_ok hs).trans (act_run ..)
    · rw [State.modDie_die, if_pos rfl]
      exact List.mem_map.mpr ⟨c, hm, if_pos rfl⟩

/-! ### Completion (R250) -/

theorem complete_clause (hst : (s.lent d l).st = 3) (hpa : (s.lent d l).paused = false) (hrun : s.running (s.lent d l).launch = []) :
    ((s.lent d l).cancelled = true → ∃ t : State, exec (.launchComplete d l) s = .next t ∧ smFind (t.die d).ltab l = none ∧ t.mem = s.mem)
    ∧ ((s.lent d l).cancelled = false → (s.lent d l).allDone = true → s.ioIdle (s.lent d l).launch = true → ∀ u : State,
      u = releaseTasks (s.lent d l).ranAll (s.lent d l).launch .pkg s →
      (u.settledAcs .pkg (s.lent d l).ranAll = false → exec (.launchComplete d l) s = .next u)
      ∧ (u.settledAcs .pkg (s.lent d l).ranAll = true → DispFree d u →
      (∀ s1 : State, completion d l (s.lent d l).lrec u = .ok () s1 → ∃ t : State, exec (.launchComplete d l) s = .next t
        ∧ smFind (t.die d).ltab l = none ∧ t.mem = s1.mem)
      ∧ (bits (rw (s.lent d l).lrec 11) 62 2 = 0 → ∃ t : State, exec (.launchComplete d l) s = .next t ∧ smFind (t.die d).ltab l = none ∧ t.mem = u.mem)
      ∧ (∀ s1 : State, bits (rw (s.lent d l).lrec 11) 62 2 = 2 →
          strongWrite (.disp d) .pkg (addr55 (rw (s.lent d l).lrec 11)) (bytes64 (rw (s.lent d l).lrec 12)) (act (release (.disp d) .pkg)) u = .ok () s1 →
        ∃ t : State, exec (.launchComplete d l) s = .next t ∧ smFind (t.die d).ltab l = none ∧ t.mem = s1.mem))) := by
  have hgo : ¬((s.lent d l).st ≠ 3 ∨ (s.lent d l).paused = true ∨ (!(s.running (s.lent d l).launch).isEmpty) = true) := by simp [hst, hpa, hrun]
  refine ⟨fun hc => ⟨freeEntry d l s, ?_, freeEntry_leaves.1, freeEntry_leaves.2⟩, fun hc hall hio u hu => ?_⟩
  · refine congrArg Host.Outcome.next ?_
    unfold complete
    dsimp only
    rw [if_neg hgo, if_pos hc]
  · have hx : complete d l s = if (!u.settledAcs .pkg (s.lent d l).ranAll) = true then u else dispHeld d (dispTag l) (freeEntry d l) (do
        completion d l (s.lent d l).lrec
        act (freeEntry d l)) u := by
      unfold complete
      dsimp only
      rw [if_neg hgo, if_neg (by rw [hc]; decide), if_neg (by simp [hall, hio]), hu]
    refine ⟨fun hset => ?_, fun hset hfree => ?_⟩
    · refine congrArg Host.Outcome.next (hx.trans ?_)
      rw [hset, if_pos (by decide)]
    · have hdone (s1 : State) (h : completion d l (s.lent d l).lrec u = .ok () s1) : ∃ t : State, exec (.launchComplete d l) s = .next t
          ∧ smFind (t.die d).ltab l = none ∧ t.mem = s1.mem := by
        refine ⟨freeEntry d l s1, congrArg Host.Outcome.next (hx.trans ?_), freeEntry_leaves.1, freeEntry_leaves.2⟩
        rw [hset, if_neg (by decide)]
        exact dispHeld_ok hfree ((bindM_ok h).trans (act_run ..))
      refine ⟨hdone, fun h0 => hdone u ?_, fun s1 h2 hw => hdone s1 ?_⟩
      · unfold completion
        simp only [h0] <;> rfl
      · unfold completion
        simp only [h2]
        exact hw

end

/-- Settles O46: the accesses of each event of the launch table are run, and what they end in is read from the entry of the launch. -/
theorem launchEvents : Obligations.LaunchEvents := by
  intro d s hfree
  exact ⟨fun q rest l b s1 hq hl hr => admit_clause hfree hq hl hr,
    fun l ps b s0 s1 hst hc hpa h7 hd hr hb hs1 => dependence_clause hfree hst hc hpa h7 hd hr hb hs1,
    fun l hst hc hpa hpl hpe => epochStart_clause hst hc hpa hpl hpe,
    fun rec' c hc hready => continuation_clause hfree hc hready,
    fun l hst hpa hrun => complete_clause hst hpa hrun,
    fun l hst hc => launchCancel_clause hst hc⟩

end Sys2Proof

/-! # What stopping a cluster leaves (R442, R453) -/

namespace Sys2Proof

open Machine

/-! ### What stopping a cluster leaves (R442, R453) -/

/-- The command of a pre-emption, the registers of the dies, and which task each cluster runs and whether it is being saved, stand. -/
structure Quiet (s t : State) : Prop where
  preempt : t.preempt = s.preempt
  regs : ∀ d, (t.die d).regs = (s.die d).regs
  task : ∀ m, (t.ac m).cc.task = (s.ac m).cc.task
  saving : ∀ m, (t.ac m).cc.saving = (s.ac m).cc.saving

section
variable {s t u : State} {n : Nat}

theorem Quiet.refl (s : State) : Quiet s s := ⟨rfl, fun _ => rfl, fun _ => rfl, fun _ => rfl⟩

theorem Quiet.trans (h : Quiet s t) (g : Quiet t u) : Quiet s u :=
  ⟨g.preempt.trans h.preempt, fun d => (g.regs d).trans (h.regs d), fun m => (g.task m).trans (h.task m), fun m => (g.saving m).trans (h.saving m)⟩

theorem quiet_foldl {α : Type} {f : State → α → State} (hf : ∀ s x, Quiet s (f s x)) (l : List α) (s : State) : Quiet s (l.foldl f s) := by
  induction l generalizing s with
  | nil => exact .refl s
  | cons x l ih => exact (hf s x).trans (ih _)

theorem quiet_mem (h : MemStep s t) : Quiet s t := by
  refine ⟨congrArg (fun s => s.preempt) h.beyond, fun d => by rw [h.die], fun m => by rw [h.ac], fun m => by rw [h.ac]⟩

theorem quiet_modAc {f : AC → AC} (ht : (f (s.ac n)).cc.task = (s.ac n).cc.task) (hs : (f (s.ac n)).cc.saving = (s.ac n).cc.saving) :
    Quiet s (s.modAc n f) := by
  refine ⟨rfl, fun _ => rfl, fun m => ?_, fun m => ?_⟩ <;> rw [State.modAc_ac] <;> split
  · next h => rw [h, ht]
  · rfl
  · next h => rw [h, hs]
  · rfl

theorem quiet_setAc {a : AC} (ht : a.cc.task = (s.ac n).cc.task) (hs : a.cc.saving = (s.ac n).cc.saving) : Quiet s (s.setAc n a) :=
  quiet_modAc (f := fun _ => a) ht hs

theorem setEng_cc (a : AC) (e : Eid) (x : Eng) : (a.setEng e x).cc = a.cc := by cases e <;> rfl

theorem quiet_modEng (e : Eid) (f : Eng → Eng) (s : State) : Quiet s (s.modEng n e f) :=
  quiet_modAc (congrArg CC.task (setEng_cc ..)) (congrArg CC.saving (setEng_cc ..))

theorem quiet_modDie (d : Nat) {f : Die → Die} (hf : ∀ x, (f x).regs = x.regs) (s : State) : Quiet s (s.modDie d f) := by
  refine ⟨rfl, fun e => ?_, fun _ => rfl, fun _ => rfl⟩
  rw [State.modDie_die]
  split
  · next h => rw [hf, h]
  · rfl

theorem quiet_dropToken (d tok : Nat) (s : State) : Quiet s (s.dropToken d tok) := quiet_modDie d (by intro; rfl) s

theorem quiet_dropWaits (n : Nat) (s : State) : Quiet s (dropWaits n s) := by
  have hc : Quiet s (countStall n s) := by
    unfold countStall
    split
    · exact quiet_modAc (by rfl) (by rfl)
    · exact .refl s
  unfold dropWaits
  dsimp only
  split
  · exact hc.trans ((quiet_dropToken ..).trans (quiet_modAc (by rfl) (by rfl)))
  · exact hc.trans (quiet_modAc (by rfl) (by rfl))

theorem quiet_settleMem (n : Nat) (e : Eid) (s : State) : Quiet s (settleMem n e s) := by
  have hfab (l : List FabSend) : Quiet s { s with fab := l } := ⟨rfl, fun _ => rfl, fun _ => rfl, fun _ => rfl⟩
  unfold settleMem
  dsimp only
  split
  · exact (hfab _).trans (quiet_modEng ..)
  · exact (hfab _).trans ((quiet_modEng ..).trans (quiet_dropToken ..))

theorem quiet_settlePlain (n : Nat) (e : Eid) (s : State) : Quiet s (settlePlain n e s) := by
  unfold settlePlain
  dsimp only
  split
  · exact (quiet_modEng ..).trans (quiet_dropToken ..)
  · exact quiet_modEng ..

theorem writeFlight_cc (f : Flight) (a : AC) : (writeFlight f a).cc.task = a.cc.task ∧ (writeFlight f a).cc.saving = a.cc.saving := ⟨rfl, rfl⟩

theorem quiet_badFlight (n : Nat) (f : Flight) (src : Nat) (info : W64) (s : State) : Quiet s (badFlight n f src info s) :=
  (quiet_modEng ..).trans (quiet_modEng ..)

/-- Landing with the cluster as it has been written. -/
theorem landOne_eq (n : Nat) (s : State) (f : Flight) : landOne n s f = match f.bad with
    | some (src, info) => badFlight n f src info s
    | none => if f.give = 0 then s.setAc n (writeFlight f (s.ac n))
      else if (writeFlight f (s.ac n)).ln.tokens 2 f.give + f.gives ≤ 16 then
        release (.ac n 2) .ac (s.setAc n { writeFlight f (s.ac n) with
          ln := (writeFlight f (s.ac n)).ln.setTokens 2 f.give ((writeFlight f (s.ac n)).ln.tokens 2 f.give + f.gives) })
      else s.setAc n { writeFlight f (s.ac n) with vec := { (writeFlight f (s.ac n)).vec with
        flight := insFlight (if f.kind = 4 then f else f.owing) (writeFlight f (s.ac n)).vec.flight } } := rfl

theorem quiet_landOne (n : Nat) (s : State) (f : Flight) : Quiet s (landOne n s f) := by
  obtain ⟨ht, hs⟩ := writeFlight_cc f (s.ac n)
  rw [landOne_eq]
  generalize writeFlight f (s.ac n) = a at *
  have hset {b : AC} (hb : b.cc = a.cc) : Quiet s (s.setAc n b) := quiet_setAc ((congrArg CC.task hb).trans ht) ((congrArg CC.saving hb).trans hs)
  split
  · exact quiet_badFlight ..
  · split
    · exact hset rfl
    · split
      · exact Quiet.trans (hset (by rfl)) (quiet_mem (memStep_release ..))
      · exact hset (by rfl)

theorem quiet_landUpTo (n c : Nat) (s : State) : Quiet s (landUpTo n c s) := by
  unfold landUpTo
  dsimp only
  split
  · exact .refl s
  · exact (quiet_setAc (by rfl) (by rfl)).trans (quiet_foldl (quiet_landOne n) _ _)

theorem quiet_settleBad (n : Nat) (s : State) : Quiet s (settleBad n s) := by
  unfold settleBad
  dsimp only
  refine Quiet.trans ?_ (quiet_modAc (by rfl) (by rfl))
  split
  · split
    · exact quiet_badFlight ..
    · exact .refl s
  · exact .refl s

theorem quiet_settleOwed (n : Nat) (s : State) : Quiet s (settleOwed n s) := by
  unfold settleOwed
  dsimp only
  split
  · exact .refl s
  · exact quiet_setAc (by rfl) (by rfl)

theorem applyGuards_cc (a : AC) : a.applyGuards.cc.task = a.cc.task ∧ a.applyGuards.cc.saving = a.cc.saving := by
  unfold AC.applyGuards
  split <;> exact ⟨rfl, rfl⟩

theorem quiet_applyGuards (n : Nat) (s : State) :
    Quiet s (s.modAc n fun a => let a := a.applyGuards; { a with ln := { a.ln with pushWait := [] }, mxu := { a.mxu with xl := none } }) := by
  have h := applyGuards_cc (s.ac n)
  refine quiet_modAc ?_ ?_
  · exact h.1
  · exact h.2

theorem quiet_settleUnits (n stop : Nat) (s : State) : Quiet s (settleUnits n stop s) := by
  have hmem : Quiet s (landUpTo n stop (settleMem n .vs (settleMem n .vl s))) :=
    (quiet_settleMem ..).trans ((quiet_settleMem ..).trans (quiet_landUpTo ..))
  have hva : Quiet s (settleOwed n (settleBad n (landUpTo n stop (settleMem n .vs (settleMem n .vl s))))) :=
    hmem.trans ((quiet_settleBad ..).trans (quiet_settleOwed ..))
  have hall := hva.trans ((quiet_settlePlain n .ax _).trans ((quiet_settlePlain n .mx _).trans (quiet_settlePlain n .va _)))
  unfold settleUnits
  refine Quiet.trans ?_ (quiet_applyGuards ..)
  split
  · exact hall.trans (quiet_dropToken ..)
  · exact hall

theorem quiet_stopProg (n : Nat) (c : AxCmd) (s : State) : Quiet s (stopProg n c s) := by
  unfold stopProg
  exact quiet_modAc (by rfl) (by rfl)

theorem memStep_addStore (a : Agent) (w : PWrite) (s : State) : MemStep s (addStore a s w) := memStep_setAgent s a id

theorem quiet_axProgRow (n : Nat) (c : AxCmd) (s : State) : Quiet s (axProgRow n c s).2 := by
  unfold axProgRow
  split
  · have hset (t : Tile) (q : Nat) : Quiet s { s.setTile n c.tile t with seq := q } := (quiet_modAc (s := s) rfl rfl).trans (quiet_mem (memStep_seq ..))
    exact (hset _ _).trans (quiet_mem (memStep_addStore ..))
  · exact .refl s

theorem quiet_axWrites (n : Nat) (ws : List PWrite) (s : State) : Quiet s (axWrites n s ws) :=
  quiet_foldl (fun _ _ => quiet_mem (memStep_addStore ..)) ws s

theorem quiet_axAdvance (n : Nat) (c : AxCmd) (s : State) : Quiet s (axAdvance n c s).2 := by
  have hfin (ws : List PWrite) (s : State) : Quiet s ((axWrites n s ws).modDie (dieOf n) fun d => { d with pactive := d.pactive - 1 }) :=
    (quiet_axWrites ..).trans (quiet_modDie _ (by intro; rfl) _)
  unfold axAdvance
  dsimp only
  split
  · exact hfin ..
  · split
    · exact (quiet_axProgRow ..).trans ((quiet_modAc (by rfl) (by rfl)).trans (hfin ..))
    · exact quiet_axProgRow ..

theorem quiet_settleCmds (n : Nat) (l : List AxCmd) (acc : List AxCmd × State) : Quiet acc.2 (l.foldl (settleCmd n) acc).2 := by
  induction l generalizing acc with
  | nil => exact .refl _
  | cons c l ih =>
    refine Quiet.trans ?_ (ih _)
    unfold settleCmd
    dsimp only
    split
    · exact .refl _
    · split
      · exact quiet_stopProg ..
      · split
        · exact quiet_axAdvance ..
        · exact ((quiet_axAdvance ..).trans (quiet_stopProg ..)).trans (quiet_modDie _ (f := fun d => { d with pactive := d.pactive - 1 }) (by intro; rfl) _)

theorem quiet_settleGives (n : Nat) (l : List AxCmd) (s : State) : Quiet s (settleGives n l s).2 := by
  induction l generalizing s with
  | nil => exact .refl s
  | cons c l ih =>
    unfold settleGives
    dsimp only
    split
    · exact .refl s
    · split
      · exact ih s
      · split
        · exact (quiet_modEng ..).trans (ih _)
        · split
          · exact (quiet_mem (memStep_release ..)).trans ((quiet_modAc (by rfl) (by rfl)).trans (ih _))
          · exact .refl s

theorem quiet_settleAx (n : Nat) (s : State) : Quiet s (settleAx n s) := by
  let acc := (s.ac n).axq.foldl (settleCmd n) ([], s)
  let u := (acc.2.modDie (dieOf n) fun d => { d with pwait := d.pwait.filter fun w => w.ac != n }).modAc n fun a => { a with axq := [] }
  have hcmds : Quiet s acc.2 := quiet_settleCmds n (s.ac n).axq ([], s)
  have hu : Quiet s u := hcmds.trans ((quiet_modDie _ (by intro; rfl) _).trans (quiet_modAc (n := n) (by rfl) (by rfl)))
  have hg : Quiet s (settleGives n acc.1 u).2 := hu.trans (quiet_settleGives n acc.1 u)
  unfold settleAx
  dsimp only
  split
  · exact hg
  · exact hg.trans (quiet_modEng ..)

theorem quiet_mxHalt (n : Nat) (s : State) : Quiet s (mxHalt n s) := by
  unfold mxHalt
  split
  · exact (quiet_dropToken ..).trans (quiet_modAc (by rfl) (by rfl))
  · exact .refl s

/-- A cluster that stops is being saved; nothing else of what R453 counts changes. -/
theorem stopCluster_leaves (n : Nat) (s : State) :
    (stopCluster n s).preempt = s.preempt ∧ (∀ d, ((stopCluster n s).die d).regs = (s.die d).regs)
      ∧ (∀ m, ((stopCluster n s).ac m).cc.task = (s.ac m).cc.task)
      ∧ ∀ m, ((stopCluster n s).ac m).cc.saving = if m = n then true else (s.ac m).cc.saving := by
  unfold stopCluster
  dsimp only
  generalize hu : mxHalt n (settle n _ (dropWaits n s)) = u
  have hq : Quiet s u := by
    rw [← hu]
    exact (quiet_dropWaits ..).trans (((quiet_settleUnits ..).trans (quiet_settleAx ..)).trans (quiet_mxHalt ..))
  refine ⟨hq.preempt, hq.regs, fun m => ?_, fun m => ?_⟩ <;> rw [State.modAc_ac] <;> split
  · next h => rw [h]; exact hq.task n
  · exact hq.task m
  · rfl
  · exact hq.saving m

end

end Sys2Proof

/-! # Pre-emption (R452 to R454) -/

namespace Sys2Proof

open Machine

/-! ### Counters of the commands (Table 15-9) -/

/-- A die whose register of pre-emption commands has been written over. -/
def countedBy (f : W64 → W64) (x : Die) : Die := x.setReg 0x0610 (f (x.reg 0x0610))

theorem setReg_modDie (o : Nat) (f : W64 → W64) (s : State) (d : Nat) : s.setReg d o (f (s.reg d o)) = s.modDie d fun x => x.setReg o (f (x.reg o)) := rfl

theorem bits_setBits_16_16 (w : W64) (v : Nat) : bits (setBits w 16 16 v) 16 16 = v % 2 ^ 16 := by
  have := w.isLt
  unfold setBits bits
  rw [BitVec.toNat_ofNat]
  omega

/-- The registers of pre-emption commands of the four dies, written over. -/
@[irreducible] def countAll (f : W64 → W64) (s : State) : State := (List.range 4).foldl (fun s d => s.modDie d (countedBy f)) s

section
variable (f : W64 → W64) (s : State)

theorem countAll_keeps : countAll f s = { s with dies := (countAll f s).dies } := by
  unfold countAll
  exact foldl_modDie_keeps (fun d => d) (fun _ => countedBy f) _ s

theorem countAll_frame : (countAll f s).mem = s.mem ∧ (countAll f s).acs = s.acs ∧ (countAll f s).preempt = s.preempt := by
  have hm := congrArg State.mem (countAll_keeps f s)
  have ha := congrArg State.acs (countAll_keeps f s)
  have hp := congrArg State.preempt (countAll_keeps f s)
  exact ⟨hm, ha, hp⟩

theorem countAll_die (e : Nat) : (countAll f s).die e = if e < 4 then countedBy f (s.die e) else s.die e := by
  have h := foldl_modDie_die (f := fun _ => countedBy f) (List.nodup_range (n := 4)) s e
  simp only [List.mem_range] at h
  unfold countAll
  exact h

theorem countAll_reg {e : Nat} (he : e < 4) : (countAll f s).reg e 0x0610 = f (s.reg e 0x0610) := by
  rw [State.reg, countAll_die, if_pos he, countedBy, Die.reg, Die.setReg, smGet_smPut, if_pos rfl, State.reg]

theorem countAll_ltab (e : Nat) : ((countAll f s).die e).ltab = (s.die e).ltab := by
  rw [countAll_die]
  split <;> rfl

theorem countLate_eq (k : Nat) : countLate k s = countAll (fun w => setBits w 16 16 (min 0xFFFF (bits w 16 16 + k))) s := by
  unfold countLate countAll
  exact congrArg (fun g => (List.range 4).foldl g s) (funext fun s => funext fun d => setReg_modDie 0x0610 (fun w => setBits w 16 16 (min 0xFFFF (bits w 16 16 + k))) s d)

theorem preemptDone_eq : preemptDone s = countAll (fun w => setBits w 32 32 (bits w 32 32 + 1)) { s with preempt := none } := by
  unfold preemptDone countAll
  exact congrArg (fun g => (List.range 4).foldl g { s with preempt := none })
    (funext fun s => funext fun d => setReg_modDie 0x0610 (fun w => setBits w 32 32 (bits w 32 32 + 1)) s d)

theorem preemptDone_leaves : (preemptDone s).preempt = none ∧ (preemptDone s).mem = s.mem ∧ (preemptDone s).acs = s.acs
    ∧ (∀ e, ((preemptDone s).die e).ltab = (s.die e).ltab)
    ∧ ∀ e, e < 4 → bits ((preemptDone s).reg e 0x0610) 32 32 = (bits (s.reg e 0x0610) 32 32 + 1) % 2 ^ 32 := by
  let t : State := { s with preempt := none }
  obtain ⟨hm, ha, hp⟩ := countAll_frame (fun w => setBits w 32 32 (bits w 32 32 + 1)) t
  rw [preemptDone_eq]
  refine ⟨hp, hm, ha, fun e => countAll_ltab _ t e, fun e he => ?_⟩
  rw [countAll_reg _ t he, bits_setBits_high]
  rfl

end

/-! ### The command is written (R452, R453) -/

section
variable {d : Nat} {s : State} {v : W64}

theorem preempt_clause (h1 : bits v 62 2 = 1) (hp : s.preempt = none) :
    (∀ ld l : Nat, s.findLaunch (bits v 0 32) = some (ld, l) → ((s.lent ld l).st = 1 ∨ (s.lent ld l).st = 2) → (s.lent ld l).cancelled = false →
      ∃ t : State, exec (.preemptLaunch d v) s = .next t ∧ t.lent ld l = { s.lent ld l with paused := true } ∧ t.mem = s.mem ∧ t.acs = s.acs
        ∧ t.preempt = some ⟨1, d, bits v 0 32, bits (s.reg d 0x0608) 12 40 * 4096, s.cycle + 36000, s.running (bits v 0 32), []⟩)
    ∧ (s.findLaunch (bits v 0 32) = none ∨ (∃ ld l, s.findLaunch (bits v 0 32) = some (ld, l) ∧ (s.lent ld l).st = 3) →
      ∃ t : State, exec (.preemptLaunch d v) s = .next t ∧ t.preempt = none ∧ t.mem = s.mem ∧ t.acs = s.acs
        ∧ (∀ e, (t.die e).ltab = (s.die e).ltab) ∧ ∀ e, e < 4 → bits (t.reg e 0x0610) 32 32 = (bits (s.reg e 0x0610) 32 32 + 1) % 2 ^ 32) := by
  have hnone : ¬s.preempt.isSome = true := by rw [hp]; decide
  have h03 : ¬(bits v 62 2 = 0 ∨ bits v 62 2 = 3) := by omega
  have h2 : ¬bits v 62 2 = 2 := by omega
  refine ⟨fun ld l hf hst hc => ?_, fun h => ⟨preemptDone s, congrArg Host.Outcome.next ?_, preemptDone_leaves s⟩⟩
  · have hrun : precmd d v s = { s.modLent ld l (fun e => { e with paused := true }) with
        preempt := some ⟨1, d, bits v 0 32, bits (s.reg d 0x0608) 12 40 * 4096, s.cycle + 36000, s.running (bits v 0 32), []⟩ } := by
      unfold precmd
      dsimp only
      rw [if_neg hnone, if_neg h03, if_neg h2, hf]
      exact if_pos ⟨hst, by rw [hc]; rfl⟩
    have hlent := modLent_lent_self s ld l fun e => { e with paused := true }
    refine ⟨_, congrArg Host.Outcome.next hrun, ?_, rfl, rfl, rfl⟩
    exact hlent
  · unfold precmd
    dsimp only
    rw [if_neg hnone, if_neg h03, if_neg h2]
    rcases h with hf | ⟨ld, l, hf, h3⟩
    · rw [hf]
    · rw [hf]
      exact if_neg fun h => by omega

theorem lost_clause {p : Preempt} (hp : s.preempt = some p) :
    ∃ t : State, exec (.preemptLaunch d v) s = .next t ∧ t.preempt = some p ∧ (t.reg d 0x0610).getLsbD 1 = true := by
  have hrun : precmd d v s = s.setReg d 0x0610 (s.reg d 0x0610 ||| 2) := by
    unfold precmd
    dsimp only
    rw [if_pos (by rw [hp]; rfl)]
  refine ⟨_, congrArg Host.Outcome.next hrun, hp, ?_⟩
  rw [reg_setReg_same, BitVec.getLsbD_or]
  simp

end

/-! ### The mark, and the clusters that stop (R453) -/

section
variable {p : Preempt} {n : Nat} {s : State}

theorem foldl_stopCluster (l : List Nat) (s : State) :
    (l.foldl (fun s n => stopCluster n s) s).preempt = s.preempt ∧ (∀ d, ((l.foldl (fun s n => stopCluster n s) s).die d).regs = (s.die d).regs)
      ∧ ∀ m, ((l.foldl (fun s n => stopCluster n s) s).ac m).cc.saving = (decide (m ∈ l) || (s.ac m).cc.saving) := by
  induction l generalizing s with
  | nil => exact ⟨rfl, fun _ => rfl, fun m => by simp⟩
  | cons n l ih =>
    obtain ⟨hp, hr, -, hs⟩ := stopCluster_leaves n s
    obtain ⟨ip, ir, is⟩ := ih (stopCluster n s)
    rw [List.foldl_cons]
    refine ⟨ip.trans hp, fun d => (ir d).trans (hr d), fun m => ?_⟩
    rw [is, hs]
    by_cases hm : m = n <;> simp [hm]

theorem reg_of_regs {s t : State} {e : Nat} (h : (t.die e).regs = (s.die e).regs) (o : Nat) : t.reg e o = s.reg e o := by
  rw [State.reg, State.reg, Die.reg, Die.reg, h]

theorem deadline_clause (hp : s.preempt = some p) (h1 : p.op = 1) (hmark : p.mark ≠ 0) :
    (s.cycle < p.mark → exec .preemptDeadline s = .next s)
    ∧ (p.mark ≤ s.cycle → ∃ t : State, exec .preemptDeadline s = .next t ∧ t.preempt = some { p with mark := 0, todo := s.running p.launch }
      ∧ (∀ n ∈ s.running p.launch, (t.ac n).cc.saving = (mayStop n s || (s.ac n).cc.saving))
      ∧ ∀ e, e < 4 → bits (t.reg e 0x0610) 16 16 = bits (s.reg e 0x0610) 16 16) := by
  refine ⟨fun hlt => congrArg Host.Outcome.next ?_, fun hle => ?_⟩
  · unfold preDeadline
    rw [hp]
    exact if_neg fun h => by omega
  · let u : State := { s with preempt := some { p with mark := 0, todo := s.running p.launch } }
    have hrun : preDeadline s = ((s.running p.launch).filter fun n => mayStop n s).foldl (fun s n => stopCluster n s) u := by
      unfold preDeadline
      rw [hp]
      exact if_pos ⟨h1, hmark, hle⟩
    obtain ⟨hpre, hregs, hsav⟩ := foldl_stopCluster ((s.running p.launch).filter fun n => mayStop n s) u
    refine ⟨_, congrArg Host.Outcome.next hrun, hpre, fun n hn => ?_, fun e _ => congrArg (bits · 16 16) (reg_of_regs (hregs e) 0x0610)⟩
    rw [hsav]
    simp [hn]
    rfl

theorem mem_running {tk : Task} (ht : (s.ac n).cc.task = some tk) : n ∈ s.running tk.launch := by
  unfold State.ac smGet at ht
  cases hf : smFind s.acs n with
  | none =>
    rw [hf] at ht
    cases ht
  | some a =>
    rw [hf] at ht
    refine List.mem_filterMap.mpr ⟨(n, a), mem_of_smFind hf, ?_⟩
    have ht' : a.cc.task = some tk := ht
    simp [ht']

theorem preContext_runs (hp : s.preempt = some p) (htodo : p.todo ≠ []) (hr : s.running p.launch ≠ []) : preContext s = s := by
  unfold preContext
  rw [hp]
  exact if_neg fun h => h.2.elim (fun h => htodo (List.isEmpty_iff.mp h.2)) fun h => hr (List.isEmpty_iff.mp h)

theorem preFinish_waits (hp : s.preempt = some p) (h1 : p.op ≠ 3) : preFinish s = s := by
  unfold preFinish
  rw [hp]
  exact if_neg fun h => h1 h.1

theorem late_clause {tk : Task} (hp : s.preempt = some p) (h1 : p.op = 1) (hmark : p.mark = 0) (htodo : p.todo = [n]) (ht : (s.ac n).cc.task = some tk)
    (hl : tk.launch = p.launch) (hsav : (s.ac n).cc.saving = false) :
    (mayStop n s = true → ∃ t : State, exec .preemptComplete s = .next t ∧ t.preempt = some p ∧ (t.ac n).cc.saving = true
      ∧ ∀ e, e < 4 → bits (t.reg e 0x0610) 16 16 = Min.min 0xFFFF (bits (s.reg e 0x0610) 16 16 + 1))
    ∧ (mayStop n s = false → exec .preemptComplete s = .next s) := by
  have hne : p.todo ≠ [] := by rw [htodo]; exact List.cons_ne_nil n []
  have h3 : p.op ≠ 3 := by omega
  have hsaves : preSaves s = if mayStop n s then countLate 1 (stopCluster n s) else s := by
    unfold preSaves
    rw [hp]
    dsimp only
    rw [if_pos ⟨h1, hmark⟩, htodo, List.foldl_cons, List.foldl_nil]
    simp only [hp, ht, hl, hsav, beq_self_eq_true, Bool.not_true, Bool.false_eq_true, if_false]
  have hdone {t : State} (hs : preSaves s = t) (hpt : t.preempt = some p) (htask : (t.ac n).cc.task = some tk) : preComplete s = t := by
    have hr : t.running p.launch ≠ [] := List.ne_nil_of_mem (hl ▸ mem_running htask)
    unfold preComplete
    rw [hs, preContext_runs hpt hne hr, preFinish_waits hpt h3]
  refine ⟨fun hm => ?_, fun hm => congrArg Host.Outcome.next (hdone ?_ hp ht)⟩
  · obtain ⟨hpre, hregs, htask, hsaving⟩ := stopCluster_leaves n s
    obtain ⟨-, hacs, hpre'⟩ := countAll_frame (fun w => setBits w 16 16 (min 0xFFFF (bits w 16 16 + 1))) (stopCluster n s)
    have hac := ac_of_acs hacs n
    refine ⟨_, congrArg Host.Outcome.next (hdone ((hsaves.trans (if_pos hm)).trans (countLate_eq ..)) ((hpre'.trans hpre).trans hp)
      (by rw [hac, htask, ht])), (hpre'.trans hpre).trans hp, by rw [hac, hsaving, if_pos rfl], fun e he => ?_⟩
    rw [countAll_reg _ _ he, reg_of_regs (hregs e)]
    rw [bits_setBits_16_16]
    exact Nat.mod_eq_of_lt (by omega)
  · rw [hsaves, if_neg (by rw [hm]; decide)]

/-! ### The context of the launch, and the end of the command (R453 steps 4 and 5) -/

theorem writePhys_acs (a : Agent) (pa : Nat) (b : List Byte) (s : State) : (writePhys a pa b s).acs = s.acs := by
  have hfold (l : List (Nat × Nat)) (x : State × List Byte) :
      (l.foldl (fun (x : State × List Byte) (y : Nat × Nat) => (plainStore a false noVa (canonPa a.die y.1) (x.2.take y.2) x.1, x.2.drop y.2)) x).1.acs = x.1.acs := by
    induction l generalizing x with
    | nil => rfl
    | cons y l ih => exact (ih _).trans (memStep_plainStore x.1 a false noVa _ _).acs
  unfold writePhys
  split
  · split
    · next t ht =>
      unfold physDenied at ht
      split at ht
      · cases ht; rfl
      · cases ht
    · exact hfold _ _
  · rfl

theorem ioIdle_freeRanges (launch : Nat) (conts : Bool) (k : Nat) : (s.freeRanges launch conts).ioIdle k = s.ioIdle k := by
  have hacs := congrArg State.acs (freeDies_keeps s launch conts)
  unfold State.ioIdle
  rw [freeRanges_eq, hacs, List.all_map]
  rfl

theorem ioIdle_of_acs {s t : State} (h : t.acs = s.acs) (k : Nat) : t.ioIdle k = s.ioIdle k := by rw [State.ioIdle, State.ioIdle, h]

/-- The walkers and claims of a launch have gone to its context and are freed. -/
def contextFreed (p : Preempt) (e l : Nat) (s : State) : State :=
  { (release (.disp p.die) .pkg (writePhys (.disp p.die) p.ctx (contextBytes s p e l) s)).freeRanges p.launch false with preempt := some { p with op := 3 } }

theorem context_clause {e l : Nat} (hp : s.preempt = some p) (hf : s.findLaunch p.launch = some (e, l)) (h1 : p.op = 1)
    (hend : (p.mark = 0 ∧ p.todo = []) ∨ (p.mark ≠ 0 ∧ s.running p.launch = [])) (hio : s.ioIdle p.launch = false) :
    ∃ t : State, exec .preemptComplete s = .next t ∧ t.preempt = some { p with op := 3 }
      ∧ t.mem = (release (.disp p.die) .pkg (writePhys (.disp p.die) p.ctx (contextBytes s p e l) s)).mem
      ∧ (∀ k, k < 4 → ∀ w ∈ (t.die k).walkers, w.2.launch ≠ p.launch) := by
  have hsaves : preSaves s = s := by
    unfold preSaves
    rw [hp]
    rcases hend with ⟨hm, ht⟩ | ⟨hm, -⟩
    · dsimp only
      rw [if_pos ⟨h1, hm⟩, ht, List.foldl_nil]
    · exact if_neg fun h => hm h.2
  have hctx : preContext s = contextFreed p e l s := by
    have hcond : p.op = 1 ∧ (p.mark = 0 ∧ p.todo.isEmpty ∨ (s.running p.launch).isEmpty) :=
      ⟨h1, hend.imp (fun h => ⟨h.1, List.isEmpty_iff.mpr h.2⟩) fun h => List.isEmpty_iff.mpr h.2⟩
    unfold preContext
    rw [hp]
    dsimp only
    rw [if_pos hcond, hf]
    rfl
  generalize hu : release (.disp p.die) .pkg (writePhys (.disp p.die) p.ctx (contextBytes s p e l) s) = u
  have huacs : u.acs = s.acs := by rw [← hu, (memStep_release ..).acs, writePhys_acs]
  have hfreed : contextFreed p e l s = { u.freeRanges p.launch false with preempt := some { p with op := 3 } } := by rw [contextFreed, hu]
  have hpre : (contextFreed p e l s).preempt = some { p with op := 3 } := by rw [hfreed]
  have hacs : (contextFreed p e l s).acs = (u.freeRanges p.launch false).acs := by rw [hfreed]
  have hmem : (contextFreed p e l s).mem = (u.freeRanges p.launch false).mem := by rw [hfreed]
  have hdies : (contextFreed p e l s).dies = (u.freeRanges p.launch false).dies := by rw [hfreed]
  have hidle : (contextFreed p e l s).ioIdle p.launch = false := by
    rw [ioIdle_of_acs hacs, ioIdle_freeRanges, ioIdle_of_acs huacs, hio]
  have hfin : preFinish (contextFreed p e l s) = contextFreed p e l s := by
    unfold preFinish
    rw [hpre]
    exact if_neg fun h => by rw [hidle] at h; exact Bool.noConfusion h.2
  refine ⟨contextFreed p e l s, congrArg Host.Outcome.next ?_, hpre, ?_, fun k hk w hw => ?_⟩
  · rw [preComplete, hsaves, hctx, hfin]
  · rw [hmem, freeRanges_mem]
  · rw [die_of_dies hdies, freeRanges_die, if_pos hk] at hw
    exact bne_iff_ne.mp (List.mem_filter.mp hw).2

theorem finish_clause {e l : Nat} (hp : s.preempt = some p) (hf : s.findLaunch p.launch = some (e, l)) (h3 : p.op = 3) (hio : s.ioIdle p.launch = true) :
    ∃ t : State, exec .preemptComplete s = .next t ∧ t.preempt = none ∧ smFind (t.die e).ltab l = none
      ∧ t.mem = s.mem ∧ ∀ k, k < 4 → bits (t.reg k 0x0610) 32 32 = (bits (s.reg k 0x0610) 32 32 + 1) % 2 ^ 32 := by
  have hne : p.op ≠ 1 := by omega
  have hsaves : preSaves s = s := by
    unfold preSaves
    rw [hp]
    exact if_neg fun h => hne h.1
  have hctx : preContext s = s := by
    unfold preContext
    rw [hp]
    exact if_neg fun h => hne h.1
  let freed : State := watchDep e l none (s.modDie e fun x => ({ x with ltab := smErase x.ltab l }).dropTag e (dispTag l))
  let u : State := { freed with ranOf := smSet freed.ranOf p.launch ((s.lent e l).ran, (s.lent e l).ranAll) }
  have hfin : preFinish s = preemptDone u := by
    unfold preFinish
    rw [hp]
    dsimp only
    rw [if_pos ⟨h3, hio⟩, hf]
  have hdie (k : Nat) : u.die k = (s.modDie e fun x => ({ x with ltab := smErase x.ltab l }).dropTag e (dispTag l)).die k := rfl
  obtain ⟨hpre, hmem, -, hltab, hbits⟩ := preemptDone_leaves u
  refine ⟨_, congrArg Host.Outcome.next ((congrArg (fun t => preFinish (preContext t)) hsaves).trans ((congrArg preFinish hctx).trans hfin)), hpre, ?_, hmem,
    fun k hk => (hbits k hk).trans ?_⟩
  · rw [hltab, hdie, State.modDie_die, if_pos rfl]
    show smFind (smErase _ l) l = none
    rw [smFind_smErase, if_pos rfl]
  · rw [reg_of_regs (s := s) (t := u) (e := k) ?_]
    rw [hdie, State.modDie_die]
    split
    · next hk => rw [hk]; rfl
    · rfl

end

/-! ### The launch is resumed (R454) -/

section
variable {d l : Nat}

theorem checkDrain_leaves (X : State) {e : LEntry} (he : X.lent d l = e) :
    (X.checkDrain d l).mem = X.mem ∧ ∃ st, (X.checkDrain d l).lent d l = { e with st := st } ∧ (st = e.st ∨ st = 3) := by
  unfold State.checkDrain
  dsimp only
  split
  · exact ⟨rfl, 3, by rw [modLent_lent_self, he], .inr rfl⟩
  · exact ⟨rfl, e.st, he, .inl rfl⟩

/-- The last step of putting a launch back, on an entry that stands in RUN. -/
theorem putBack_ends (X : State) {e : LEntry} (he : X.lent d l = e) (hst : e.st = 2) :
    let t := preemptDone (X.checkDrain d l)
    t.preempt = none ∧ t.mem = X.mem ∧ ∃ st, t.lent d l = { e with st := st } ∧ (st = 2 ∨ st = 3) := by
  intro t
  obtain ⟨hm, st, hl, hor⟩ := checkDrain_leaves X he
  obtain ⟨hpre, hmem, -, hltab, -⟩ := preemptDone_leaves (X.checkDrain d l)
  exact ⟨hpre, hmem.trans hm, st, (lent_of_ltab (hltab d) l).trans hl, hst ▸ hor⟩

theorem foldl_modAc_dies {α : Type} (g : α → Nat) (f : α → AC → AC) (xs : List α) (s : State) :
    (xs.foldl (fun s x => s.modAc (g x) (f x)) s).dies = s.dies ∧ (xs.foldl (fun s x => s.modAc (g x) (f x)) s).mem = s.mem := by
  induction xs generalizing s with
  | nil => exact ⟨rfl, rfl⟩
  | cons x xs ih => exact ih _

/-- The entry that a resume puts into the launch table. -/
def resumedEntry (w r : List W64) (placed : Bool) (ran ranAll : List Nat) : LEntry :=
  ⟨2, bits (w.getD 0 0) 0 32, w.getD 1 0, r, bits (w.getD 2 0) 0 48, bits (w.getD 3 0) 0 32, 0, none,
    bits (w.getD 2 0) 0 48 - bits (w.getD 3 0) 0 32 * lrTasks r, placed, false, false, ran, ranAll⟩

theorem putBack_leaves (p : Preempt) (l : Nat) (w r : List W64) (s : State) :
    (putBack p l w r s).preempt = none ∧ (putBack p l w r s).mem = s.mem
      ∧ ∃ st placed ran ranAll, (putBack p l w r s).lent p.die l = { resumedEntry w r placed ran ranAll with st := st } ∧ (st = 2 ∨ st = 3) := by
  have key (X : State) (hl : ∃ placed ran ranAll, X.lent p.die l = resumedEntry w r placed ran ranAll) (hm : X.mem = s.mem) :
      (preemptDone (X.checkDrain p.die l)).preempt = none ∧ (preemptDone (X.checkDrain p.die l)).mem = s.mem
        ∧ ∃ st placed ran ranAll, (preemptDone (X.checkDrain p.die l)).lent p.die l = { resumedEntry w r placed ran ranAll with st := st } ∧ (st = 2 ∨ st = 3) := by
    obtain ⟨placed, ran, ranAll, hl⟩ := hl
    obtain ⟨hpre, hmem, st, hlent, hor⟩ := putBack_ends X hl rfl
    exact ⟨hpre, hmem.trans hm, st, placed, ran, ranAll, hlent, hor⟩
  have hran (X : State) (m : SMap (List Nat × List Nat)) : State.lent { X with ranOf := m } p.die l = X.lent p.die l := rfl
  unfold putBack
  dsimp only
  refine key _ ?_ ?_
  · rw [hran, foldl_modDie_lent, lent_of_dies (foldl_modAc_dies ..).1, foldl_modDie_lent, foldl_modDie_lent]
    · have hset (e : LEntry) : (s.modDie p.die fun x => { x with ltab := smSet x.ltab l e }).lent p.die l = e := by
        rw [State.lent, State.modDie_die, if_pos rfl, smGet_smSet, if_pos rfl]
      rw [hset]
      exact ⟨_, _, _, rfl⟩
    · intro s x y
      split <;> rfl
    · exact fun _ _ _ => rfl
    · exact fun _ _ _ => rfl
  · refine (foldl_modDie_mem ..).trans ((foldl_modAc_dies ..).2.trans ((foldl_modDie_mem ..).trans (foldl_modDie_mem ..)))

theorem resume_clause {p : Preempt} {s s1 s2 : State} {b rb : List Byte} (hp : s.preempt = some p) (h2 : p.op = 2) (hd : p.die = d)
    (hl : ((List.range 64).find? fun l => (smFind (s.die d).ltab l).isNone) = some l)
    (hr : readPhys (.disp d) p.ctx 0x8000 (acquire (.disp d) .pkg s) = (b, s1)) (hb : b ≠ []) (hslots : slotsFor s (contextWalkers (words64 b)) = true)
    (hfree : DispFree d s1) (hrb : readAcquired (.disp d) .pkg ((words64 b).getD 1 0) 256 8 s1 = .ok rb s2) :
    ∃ t : State, exec (.resumeLaunch d) s = .next t ∧ t.preempt = none ∧ t.mem = s2.mem ∧ (t.lent d l).launch = bits ((words64 b).getD 0 0) 0 32
      ∧ (t.lent d l).lrec = words64 rb ∧ (t.lent d l).epoch = bits ((words64 b).getD 3 0) 0 32 ∧ (t.lent d l).done = bits ((words64 b).getD 2 0) 0 48
      ∧ ((t.lent d l).st = 2 ∨ (t.lent d l).st = 3) ∧ (t.lent d l).cancelled = false ∧ (t.lent d l).paused = false := by
  subst hd
  have hrun : exec (.resumeLaunch p.die) s = .next (putBack p l (words64 b) (words64 rb) s2) := by
    show Host.Outcome.next (match s.preempt with | some q => if q.die = p.die then preResume s else s | none => s) = _
    rw [hp]
    dsimp only
    rw [if_pos rfl]
    refine congrArg Host.Outcome.next ?_
    unfold preResume
    rw [hp]
    dsimp only
    rw [if_neg (fun h => h h2), hl]
    dsimp only
    rw [hr]
    dsimp only
    rw [if_neg (fun h => hb (List.isEmpty_iff.mp h)), if_neg (by rw [hslots]; decide)]
    exact dispHeld_ok hfree ((bindM_ok hrb).trans (act_run ..))
  obtain ⟨hpre, hmem, st, placed, ran, ranAll, hlent, hst⟩ := putBack_leaves p l (words64 b) (words64 rb) s2
  refine ⟨_, hrun, hpre, hmem, ?_⟩
  rw [hlent]
  exact ⟨rfl, rfl, rfl, rfl, hst, rfl, rfl⟩

theorem resumeDenied_clause {p : Preempt} {s s1 : State} (hp : s.preempt = some p) (h2 : p.op = 2) (hd : p.die = d)
    (hl : ((List.range 64).find? fun l => (smFind (s.die d).ltab l).isNone) = some l)
    (hr : readPhys (.disp d) p.ctx 0x8000 (acquire (.disp d) .pkg s) = ([], s1)) :
    ∃ t : State, exec (.resumeLaunch d) s = .next t ∧ t.preempt = none ∧ (t.die d).ltab = (s1.die d).ltab ∧ t.mem = s1.mem := by
  subst hd
  have hrun : exec (.resumeLaunch p.die) s = .next (preemptDone (s1.addDispatchRecord p.die 0 0 10)) := by
    show Host.Outcome.next (match s.preempt with | some q => if q.die = p.die then preResume s else s | none => s) = _
    rw [hp]
    dsimp only
    rw [if_pos rfl]
    refine congrArg Host.Outcome.next ?_
    unfold preResume
    rw [hp]
    dsimp only
    rw [if_neg (fun h => h h2), hl]
    dsimp only
    rw [hr]
    exact if_pos rfl
  obtain ⟨hpre, hmem, -, hltab, -⟩ := preemptDone_leaves (s1.addDispatchRecord p.die 0 0 10)
  obtain ⟨fr, q, hdie⟩ := addDispatchRecord_die s1 p.die 0 0 10 p.die
  have hrec := congrArg Die.ltab hdie
  exact ⟨_, hrun, hpre, (hltab _).trans hrec, hmem⟩

end

/-- Settles O52: each step of the command of a pre-emption is read from the equation of the event that makes it. -/
theorem preemptEvents : Obligations.PreemptEvents := by
  intro d s
  exact ⟨fun v h1 hp => preempt_clause h1 hp, fun v p hp => lost_clause hp, fun p hp h1 hm => deadline_clause hp h1 hm,
    fun p n tk hp h1 hm htodo ht hl _ hsav => late_clause hp h1 hm htodo ht hl hsav,
    fun p e l hp hf => ⟨fun h1 hend hio => context_clause hp hf h1 hend hio, fun h3 hio => finish_clause hp hf h3 hio⟩,
    fun p l b rb s1 s2 hp h2 hd hl hr hb hslots hfree hrb => resume_clause hp h2 hd hl hr hb hslots hfree hrb,
    fun p l s1 hp h2 hd hl hr => resumeDenied_clause hp h2 hd hl hr⟩

end Sys2Proof

/-! # New tasks and continuations that resume (R219, R251, R254, R433) -/

namespace Sys2Proof

open Machine

/-! ### A cluster as its task starts (R219, R221) -/

/-- The core and engines of a cluster of which a task has just started. -/
structure Started (n : Nat) (tk : Task) (t : State) : Prop where
  task : (t.ac n).cc.task = some tk
  pc : (t.ac n).cc.pc = addr55 (tk.code + BitVec.ofNat 64 (tk.entry 0))
  h : (t.ac n).cc.h = false
  ie : (t.ac n).cc.ie = true
  evt : (t.ac n).cc.evt = false
  resumed : (t.ac n).cc.resumed = tk.resumed
  la : (t.ac n).cc.la0 = false ∧ (t.ac n).cc.la1 = false
  s : ∀ r : BitVec 6, (t.ac n).cc.s r = if r = 1 then tk.word 6 else if r = 2 then tk.word 5 else 0
  preg : (t.ac n).cc.preg = 0
  greg : (t.ac n).cc.greg = []
  eng : ∀ e, (t.ac n).eng e = Eng.atStart tk.code (tk.entry (eidCode e)) (lrAutofork tk.lrec && !tk.resumed)
  links : (t.ac n).ln.tok = [] ∧ (t.ac n).ln.retq = []

theorem Started.of_ac {n : Nat} {tk : Task} {s t : State} (h : Started n tk s) (ha : t.ac n = s.ac n) : Started n tk t := by
  obtain ⟨h1, h2, h3, h4, h5, h6, h7, h8, h9, h10, h11, h12⟩ := h
  constructor <;> rw [ha] <;> assumption

theorem startCarve_keeps (c : CC) (new cycle : Nat) : ∃ sys carve, c.startCarve new cycle = { c with sys := sys, carve := carve } := by
  unfold CC.startCarve
  dsimp only
  split
  · exact ⟨_, _, rfl⟩
  · split
    · exact ⟨_, _, rfl⟩
    · exact ⟨_, _, rfl⟩

theorem foldl_setSr_keeps (v : Nat → W64) (l : List Nat) (c : CC) : ∃ sys, l.foldl (fun c r => c.setSr r (v r)) c = { c with sys := sys } := by
  induction l generalizing c with
  | nil => exact ⟨_, rfl⟩
  | cons r l ih => exact ih _

/-- The engines of a cluster set one after another. -/
theorem foldl_setEng (X : Eid → Eng) (a : AC) :
    (allEng.foldl (fun a e => a.setEng e (X e)) a).cc = a.cc ∧ (allEng.foldl (fun a e => a.setEng e (X e)) a).ln = a.ln
      ∧ ∀ e, (allEng.foldl (fun a e => a.setEng e (X e)) a).eng e = X e :=
  ⟨rfl, rfl, fun e => by cases e <;> rfl⟩

/-- The core that `taskStart` leaves, but for its system registers. -/
def startedCore (s : State) (n : Nat) (t : Task) (sys : SMap W64) (carve : Option Carve) : CC :=
  { (s.ac n).cc with
    sreg := smPut 0 (smPut 0 [] 1 (t.word 6)) 2 (t.word 5), preg := 0, greg := [], pc := addr55 (t.code + BitVec.ofNat 64 (t.entry 0))
    h := false, ie := true, evt := false, la0 := false, la1 := false, resumed := t.resumed
    wait := none, xl := none, xlAbort := none, entry := none, task := some t, saving := false, icache := []
    pend := (s.ac n).cc.pend.filter (fun p => decide (6 ≤ p.src)), sys := sys, carve := carve }

/-- The cluster that `taskStart` leaves, from its core. -/
def startedAc (a : AC) (t : Task) (c : CC) : AC :=
  let a := allEng.foldl (fun a e => a.setEng e (Eng.atStart t.code (t.entry (eidCode e)) (lrAutofork t.lrec && !t.resumed))) { a with cc := c }
  { a with
    vec := { a.vec with v := [], m := [], flight := [] }
    mxu := { a.mxu with acc := [], tstop := false, hold := false }
    ln := { a.ln with tok := [], retq := [], pushWait := [], gw := [] } }

theorem startedAc_frame (a : AC) (t : Task) (c : CC) : (startedAc a t c).cc = c ∧ (startedAc a t c).ln.tok = [] ∧ (startedAc a t c).ln.retq = []
    ∧ ∀ e, (startedAc a t c).eng e = Eng.atStart t.code (t.entry (eidCode e)) (lrAutofork t.lrec && !t.resumed) := by
  obtain ⟨hcc, -, heng⟩ := foldl_setEng (fun e => Eng.atStart t.code (t.entry (eidCode e)) (lrAutofork t.lrec && !t.resumed)) { a with cc := c }
  exact ⟨hcc, rfl, rfl, fun e => (by cases e <;> rfl : (startedAc a t c).eng e = _).trans (heng e)⟩

theorem modLent_ac (s : State) (d l : Nat) (f : LEntry → LEntry) (n : Nat) : (s.modLent d l f).ac n = s.ac n := rfl

theorem modLent_die (s : State) (d l : Nat) (f : LEntry → LEntry) (k : Nat) : ∃ ltab, (s.modLent d l f).die k = { s.die k with ltab := ltab } := by
  rw [State.modLent, State.modDie_die]
  split
  · next h => rw [h]; exact ⟨_, rfl⟩
  · exact ⟨_, rfl⟩

/-- The core as `taskStart` writes it, before its carve. -/
def corePrepared (s : State) (n : Nat) (t : Task) : CC :=
  let c := taskRegs.foldl (fun c r => c.setSr r (sysDefault r)) (s.ac n).cc
  let c := (c.setSr 0x026 (addr55 (s.reg (dieOf n) 0x0700) &&& ~~~ 3)).setSr 0x027
    (addr55 (s.reg (dieOf n) 0x0708 + BitVec.ofNat 64 (0x24000 * (n % 64))) &&& ~~~ 0xFFF)
  { c with
    sreg := [], preg := 0, greg := [], pc := addr55 (t.code + BitVec.ofNat 64 (t.entry 0))
    h := false, ie := true, evt := false, la0 := false, la1 := false, resumed := t.resumed
    wait := none, xl := none, xlAbort := none, entry := none, task := some t, saving := false, icache := []
    pend := c.pend.filter fun p => decide (6 ≤ p.src) }

section
variable (s : State) (n : Nat) (t : Task)

theorem corePrepared_eq : ∃ sys, corePrepared s n t = { startedCore s n t sys (s.ac n).cc.carve with sreg := [] } := by
  obtain ⟨sys, hsys⟩ := foldl_setSr_keeps sysDefault taskRegs (s.ac n).cc
  unfold corePrepared
  rw [hsys]
  exact ⟨_, rfl⟩

theorem taskStart_eq_startedAc : (s.taskStart n t).ac n
    = startedAc (s.ac n) t ((((corePrepared s n t).setS 1 (t.word 6)).setS 2 (t.word 5)).startCarve (lrSgran t.lrec) s.cycle) := by
  unfold State.taskStart
  dsimp only
  rw [modLent_ac, State.modAc_ac, if_pos rfl]
  rfl

theorem taskStart_ac : ∃ sys carve, (s.taskStart n t).ac n = startedAc (s.ac n) t (startedCore s n t sys carve) := by
  obtain ⟨sys, hp⟩ := corePrepared_eq s n t
  obtain ⟨sys', carve, hc⟩ := startCarve_keeps (((corePrepared s n t).setS 1 (t.word 6)).setS 2 (t.word 5)) (lrSgran t.lrec) s.cycle
  refine ⟨sys', carve, (taskStart_eq_startedAc s n t).trans (congrArg (startedAc (s.ac n) t) (hc.trans ?_))⟩
  rw [hp]
  rfl

theorem started_taskStart : Started n t (s.taskStart n t) := by
  obtain ⟨sys, carve, ha⟩ := taskStart_ac s n t
  obtain ⟨hcc, htok, hretq, heng⟩ := startedAc_frame (s.ac n) t (startedCore s n t sys carve)
  rw [← ha] at hcc htok hretq heng
  have hs (r : BitVec 6) : ((s.taskStart n t).ac n).cc.s r = if r = 1 then t.word 6 else if r = 2 then t.word 5 else 0 := by
    rw [hcc, startedCore, CC.s, smGet_smPut, smGet_smPut]
    have h1 : r.toNat = 1 ↔ r = 1 := by rw [← BitVec.toNat_inj]; rfl
    have h2 : r.toNat = 2 ↔ r = 2 := by rw [← BitVec.toNat_inj]; rfl
    rcases eq_or_ne r 0 with rfl | h0
    · rfl
    · rw [if_neg h0]
      simp only [h1, h2]
      split
      · next h => subst h; rfl
      · rfl
  refine ⟨?_, ?_, ?_, ?_, ?_, ?_, ⟨?_, ?_⟩, hs, ?_, ?_, heng, htok, hretq⟩ <;> rw [hcc] <;> rfl

/-- What `taskStart` leaves outside the cluster: memory, and every die but for the entry of the launch. -/
theorem taskStart_frame : (s.taskStart n t).mem = s.mem ∧ (∀ m, m ≠ n → (s.taskStart n t).ac m = s.ac m)
    ∧ (∀ d, ∃ ltab, (s.taskStart n t).die d = { s.die d with ltab := ltab }) := by
  unfold State.taskStart
  dsimp only
  refine ⟨rfl, fun m hm => ?_, fun d => modLent_die ..⟩
  rw [modLent_ac, State.modAc_ac, if_neg hm]

end

theorem acquireAll_frame (n : Nat) (sc : Scope) (s : State) :
    (acquireAll n sc s).mem = s.mem ∧ (acquireAll n sc s).acs = s.acs ∧ (acquireAll n sc s).dies = s.dies := by
  have h : MemStep s (acquireAll n sc s) := memStep_foldl (fun _ _ => memStep_acquire ..) _ s
  exact ⟨foldl_mem (fun s a => acquire_mem a sc s) _ s, h.acs, h.dies⟩

theorem checkDrain_frame (s : State) (d l : Nat) : (s.checkDrain d l).mem = s.mem ∧ (s.checkDrain d l).acs = s.acs
    ∧ ∀ k, ∃ ltab, ((s.checkDrain d l).die k) = { s.die k with ltab := ltab } := by
  unfold State.checkDrain
  dsimp only
  split
  · exact ⟨rfl, rfl, fun k => modLent_die ..⟩
  · exact ⟨rfl, rfl, fun k => ⟨_, rfl⟩⟩

/-- A dispatch charges a record of its cluster: nothing but the cluster's dispatch state changes. -/
theorem charge_frame (s : State) (n j prio : Nat) (items : List Item) :
    (s.charge n j prio items).mem = s.mem ∧ (s.charge n j prio items).dies = s.dies ∧ (∀ m, m ≠ n → (s.charge n j prio items).ac m = s.ac m)
      ∧ ((s.charge n j prio items).ac n).disp.claims = (s.ac n).disp.claims := by
  unfold State.charge
  refine ⟨rfl, rfl, fun m hm => ?_, ?_⟩
  · rw [State.modAc_ac, if_neg hm]
  · rw [State.modAc_ac, if_pos rfl]

section
variable (s : State) (n d l lin i prio : Nat)

/-- The task of a coordinate of the launch in an entry. -/
def newTask (e : LEntry) (d l lin prio i : Nat) : Task := ⟨e.launch, d, l, e.lrec, lin, e.epoch, false, prio, i⟩

theorem startNew_started : Started n (newTask (s.lent d l) d l lin prio i) (s.startNew n d l lin i prio) := by
  refine (started_taskStart s n _).of_ac ?_
  obtain ⟨-, hacs, -⟩ := acquireAll_frame n .pkg (s.taskStart n (newTask (s.lent d l) d l lin prio i))
  obtain ⟨-, hdacs, -⟩ := checkDrain_frame (acquireAll n .pkg (s.taskStart n (newTask (s.lent d l) d l lin prio i))) d l
  exact ac_of_acs (hdacs.trans hacs) n

theorem startNew_frame : (s.startNew n d l lin i prio).mem = s.mem ∧ (∀ m, m ≠ n → (s.startNew n d l lin i prio).ac m = s.ac m)
    ∧ ((s.startNew n d l lin i prio).ac n).disp = (s.ac n).disp ∧ ∀ k, ∃ ltab, (s.startNew n d l lin i prio).die k = { s.die k with ltab := ltab } := by
  let tk := newTask (s.lent d l) d l lin prio i
  obtain ⟨hm, hac, hdie⟩ := taskStart_frame s n tk
  obtain ⟨sys, carve, ha⟩ := taskStart_ac s n tk
  obtain ⟨ham, haacs, hadies⟩ := acquireAll_frame n .pkg (s.taskStart n tk)
  obtain ⟨hdm, hdacs, hddie⟩ := checkDrain_frame (acquireAll n .pkg (s.taskStart n tk)) d l
  have hacs := ac_of_acs (hdacs.trans haacs)
  refine ⟨hdm.trans (ham.trans hm), fun m hne => (hacs m).trans (hac m hne), ?_, fun k => ?_⟩
  · rw [show (s.startNew n d l lin i prio).ac n = _ from hacs n, ha]
    rfl
  · obtain ⟨lt, h1⟩ := hddie k
    obtain ⟨lt', h2⟩ := hdie k
    rw [die_of_dies hadies, h2] at h1
    exact ⟨lt, h1⟩

end

/-! ### A new task (R219, R433) -/

section
variable {n : Nat} {s : State}

theorem decide_stays (h : (s.ac n).idle = false ∨ (s.reg (dieOf n) 0x23000).getLsbD 0 = false) : exec (.dispatchDecision n) s = .next s := by
  have hc : (!(s.ac n).idle) = true ∨ (!(s.reg (dieOf n) 0x23000).getLsbD 0) = true := by
    rcases h with h | h
    · exact .inl (by rw [h]; rfl)
    · exact .inr (by rw [h]; rfl)
  exact congrArg Host.Outcome.next (if_pos hc)

theorem decide_goes (hi : (s.ac n).idle = true) (he : (s.reg (dieOf n) 0x23000).getLsbD 0 = true) :
    decide' n s = match firstItem (s.items n) with
      | some x => (match x.cont with
        | some (cd, c) => if c.wkind = 9 then resumePre n cd c x (s.items n) s else resumeCont n cd c x (s.items n) s
        | none => s.dispatchNew n x (s.items n))
      | none => s.dispatchSplit n := by
  have hc : ¬((!(s.ac n).idle) = true ∨ (!(s.reg (dieOf n) 0x23000).getLsbD 0) = true) := by
    rw [hi, he]
    decide
  unfold decide'
  rw [if_neg hc] <;> rfl

theorem atStart_st (code : W64) (ent : Nat) (go : Bool) : (Eng.atStart code ent go).st = if go = true ∧ ent ≠ 0xFFFFFFFF then 1 else 0 := by
  unfold Eng.atStart
  cases go <;> by_cases h : ent = 0xFFFFFFFF <;> simp [h]

theorem newTask_clause {x : Item} {s2 : State} {lin : Nat} (hi : (s.ac n).idle = true) (he : (s.reg (dieOf n) 0x23000).getLsbD 0 = true)
    (hx : firstItem (s.items n) = some x) (hc : x.cont = none) (hw : s.takeWork n (s.lent x.d x.l) = some (lin, s2)) :
    ∃ (t : State) (tk : Task), exec (.dispatchDecision n) s = .next t ∧ (t.ac n).cc.task = some tk
      ∧ tk.lin = lin ∧ tk.die = x.d ∧ tk.ent = x.l ∧ tk.launch = (s2.lent x.d x.l).launch ∧ tk.lrec = (s2.lent x.d x.l).lrec
      ∧ tk.epoch = (s2.lent x.d x.l).epoch
      ∧ (t.ac n).cc.pc = addr55 (tk.code + BitVec.ofNat 64 (tk.entry 0)) ∧ (t.ac n).cc.h = false ∧ (t.ac n).cc.ie = true
      ∧ (t.ac n).cc.evt = false ∧ (t.ac n).cc.resumed = false ∧ (t.ac n).cc.la0 = false ∧ (t.ac n).cc.la1 = false
      ∧ (t.ac n).cc.s 1 = tk.word 6 ∧ (t.ac n).cc.s 2 = tk.word 5 ∧ (∀ r : BitVec 6, r ≠ 1 → r ≠ 2 → (t.ac n).cc.s r = 0)
      ∧ (∀ p : BitVec 4, (t.ac n).cc.p p = (p == 0)) ∧ (∀ g, (t.ac n).cc.guard g = none)
      ∧ (∀ e, ((t.ac n).eng e).q = [] ∧ ((t.ac n).eng e).st
        = if lrAutofork tk.lrec = true ∧ tk.entry (eidCode e) ≠ 0xFFFFFFFF then 1 else 0)
      ∧ (t.ac n).ln.tok = [] ∧ (t.ac n).ln.retq = [] ∧ t.mem = s2.mem := by
  let u := s2.charge n x.i x.prio (s.items n)
  obtain ⟨hcm, hcd, -, -⟩ := charge_frame s2 n x.i x.prio (s.items n)
  have hlent : u.lent x.d x.l = s2.lent x.d x.l := lent_of_dies hcd x.d x.l
  obtain ⟨htask, hpc, hh, hie, hevt, hres, ⟨hla0, hla1⟩, hs, hpreg, hgreg, heng, htok, hretq⟩ := startNew_started u n x.d x.l lin x.i x.prio
  obtain ⟨hm, -⟩ := startNew_frame u n x.d x.l lin x.i x.prio
  have hrun : exec (.dispatchDecision n) s = .next (u.startNew n x.d x.l lin x.i x.prio) := by
    refine congrArg Host.Outcome.next ((decide_goes hi he).trans ?_)
    rw [hx]
    dsimp only
    rw [hc]
    dsimp only
    unfold State.dispatchNew
    rw [hw]
  refine ⟨_, _, hrun, htask, rfl, rfl, rfl, congrArg LEntry.launch hlent, congrArg LEntry.lrec hlent, congrArg LEntry.epoch hlent, hpc, hh, hie, hevt, hres,
    hla0, hla1, (hs 1).trans (if_pos rfl), (hs 2).trans (by rw [if_neg (by decide), if_pos rfl]), fun r h1 h2 => (hs r).trans (by rw [if_neg h1, if_neg h2]),
    fun p => ?_, fun g => ?_, fun e => ?_, htok, hretq, hm.trans hcm⟩
  · rw [CC.p, hpreg]
    simp
  · rw [CC.guard, hgreg]
    rfl
  · rw [heng]
    refine ⟨rfl, (atStart_st ..).trans ?_⟩
    rw [show (newTask (u.lent x.d x.l) x.d x.l lin x.prio x.i).resumed = false from rfl, Bool.not_false, Bool.and_true]

theorem ruleNewTask_holds : ruleNewTask := fun _ _ => ⟨decide_stays, fun _ _ _ hi he hx hc hw => newTask_clause hi he hx hc hw⟩

end

/-! ### A continuation resumes (R251, R254) -/

/-- The registers of a mask, with their values. -/
def setRegs (l : List (Nat × W64)) (c : CC) : CC := l.foldl (fun c x => c.setS (BitVec.ofNat 6 x.1) x.2) c

theorem setRegs_keeps (l : List (Nat × W64)) (c : CC) : ∃ m, setRegs l c = { c with sreg := m } := by
  induction l generalizing c with
  | nil => exact ⟨_, rfl⟩
  | cons x l ih =>
    obtain ⟨m, hm⟩ := ih (c.setS (BitVec.ofNat 6 x.1) x.2)
    refine ⟨m, hm.trans ?_⟩
    unfold CC.setS
    split <;> rfl

theorem setRegs_other {l : List (Nat × W64)} {r : BitVec 6} (hl : ∀ x ∈ l, x.1 < 64 ∧ x.1 ≠ r.toNat) (c : CC) : (setRegs l c).s r = c.s r := by
  induction l generalizing c with
  | nil => rfl
  | cons x l ih =>
    obtain ⟨hx, hne⟩ := hl x List.mem_cons_self
    refine (ih (fun y hy => hl y (List.mem_cons_of_mem _ hy)) _).trans ?_
    rw [CC.setS_s, if_neg]
    rintro rfl
    rw [BitVec.toNat_ofNat, Nat.mod_eq_of_lt (by omega)] at hne
    exact hne rfl

theorem setRegs_mem {l : List (Nat × W64)} {i : Nat} {v : W64} (hl : ∀ x ∈ l, x.1 < 64) (hn : (l.map (·.1)).Nodup) (hi : (i, v) ∈ l) (h0 : i ≠ 0) (c : CC) :
    (setRegs l c).s (BitVec.ofNat 6 i) = v := by
  have hi64 : i < 64 := hl _ hi
  have hval : (BitVec.ofNat 6 i).toNat = i := by rw [BitVec.toNat_ofNat, Nat.mod_eq_of_lt (by omega)]
  have hne : BitVec.ofNat 6 i ≠ 0 := fun h => h0 (by rw [← hval, h]; rfl)
  induction l generalizing c with
  | nil => cases hi
  | cons x l ih =>
    obtain ⟨hnot, hl'⟩ := List.nodup_cons.mp (List.map_cons ▸ hn)
    rcases List.mem_cons.mp hi with rfl | hi
    · refine (setRegs_other (fun y hy => ⟨hl y (List.mem_cons_of_mem _ hy), fun h => hnot ?_⟩) _).trans ?_
      · exact List.mem_map.mpr ⟨y, hy, h.trans hval⟩
      · rw [CC.setS_s, if_pos rfl, if_neg hne]
    · exact ih (fun y hy => hl y (List.mem_cons_of_mem _ hy)) hl' hi _

theorem words64_length (k : Nat) : ∀ l : List Byte, l.length = 8 * k → (words64 l).length = k := by
  induction k with
  | zero =>
    intro l hl
    rw [List.length_eq_zero_iff.mp (by omega : l.length = 0)]
    rfl
  | succ k ih =>
    intro l hl
    match l, hl with
    | _ :: _ :: _ :: _ :: _ :: _ :: _ :: _ :: r, hl => rw [words64, List.length_cons, ih r (by simp only [List.length_cons] at hl; omega)]

theorem maskRegs_spec (m : W64) : (maskRegs m).Nodup ∧ ∀ i ∈ maskRegs m, i < 64 :=
  ⟨List.nodup_range.filter _, fun _ hi => List.mem_range.mp (List.mem_filter.mp hi).1⟩

section
variable {n cd : Nat} {s s1 s2 : State} {x : Item} {c : Cont} {ps : List (Nat × Nat × BitVec 2)} {b : List Byte}

/-- The task of a continuation that resumes. -/
def resumedTask (e : LEntry) (x : Item) : Task := ⟨e.launch, x.d, x.l, e.lrec, 0, e.epoch, true, x.prio, x.i⟩

/-- The PC and the registers of a continuation record. -/
def fromRecord (w : List W64) (cc : CC) : CC := { setRegs ((maskRegs (w.getD 1 0)).zip (w.drop 8)) cc with pc := addr55 (w.getD 2 0) }

/-- The state in which a continuation has resumed, before what it acquires. -/
def resumedState (n cd : Nat) (c : Cont) (x : Item) (e : LEntry) (items : List Item) (w : List W64) (s : State) : State :=
  (((s.dropCont cd c).charge n x.i x.prio items).taskStart n (resumedTask e x)).modCC n (fromRecord w)

/-- What a continuation that resumes acquires. -/
def resumeAcquires (n : Nat) (c : Cont) (w : List W64) (s : State) : State :=
  let r := c.reread w
  (domainScope r.domain :: r.doneScopes (s.ac r.origin).ln.farCp).foldl (fun s sc => acquireAll n sc s) s

theorem resumeAcquires_frame (n : Nat) (c : Cont) (w : List W64) (s : State) :
    (resumeAcquires n c w s).mem = s.mem ∧ (resumeAcquires n c w s).acs = s.acs ∧ (resumeAcquires n c w s).dies = s.dies := by
  have h (l : List Scope) (s : State) : (l.foldl (fun s sc => acquireAll n sc s) s).mem = s.mem ∧ (l.foldl (fun s sc => acquireAll n sc s) s).acs = s.acs
      ∧ (l.foldl (fun s sc => acquireAll n sc s) s).dies = s.dies := by
    induction l generalizing s with
    | nil => exact ⟨rfl, rfl, rfl⟩
    | cons sc l ih =>
      obtain ⟨hm, ha, hd⟩ := acquireAll_frame n sc s
      obtain ⟨im, ia, id⟩ := ih (acquireAll n sc s)
      exact ⟨im.trans hm, ia.trans ha, id.trans hd⟩
  exact h _ s

theorem resumeCont_reads (hfree : DispFree (dieOf n) s) (hr : reach (.disp (dieOf n)) .read (s.lent x.d x.l).lrecVa.toNat 256 s = .ok ps s1)
    (hb : readAcquired (.disp (dieOf n)) .pkg c.va 256 8 s1 = .ok b s2) {t : State}
    (ht : (if !contOk (words64 b) then act (fun s => s.cancelLaunch x.d x.l 0x100) else do
        contState (dieOf n) c 3
        act fun u => resumeAcquires n c (words64 b) (resumedState n cd c x (s.lent x.d x.l) (s.items n) (words64 b) u) : M Unit) s2 = .ok () t) :
    resumeCont n cd c x (s.items n) s = t := by
  unfold resumeCont
  exact dispHeld_ok hfree ((bindM_ok hr).trans ((bindM_ok hb).trans ht))

theorem decide_resumes (hi : (s.ac n).idle = true) (he : (s.reg (dieOf n) 0x23000).getLsbD 0 = true)
    (hx : firstItem (s.items n) = some x) (hc : x.cont = some (cd, c)) (hk : c.wkind ≠ 9) :
    exec (.dispatchDecision n) s = .next (resumeCont n cd c x (s.items n) s) := by
  refine congrArg Host.Outcome.next ((decide_goes hi he).trans ?_)
  rw [hx]
  dsimp only
  rw [hc]
  exact if_neg hk

/-- What has been restored from the record, where every mask bit names a register with a word. -/
theorem fromRecord_s {w : List W64} (hw : w.length = 32) (h0 : (w.getD 1 0).getLsbD 0 = false) (h16 : (maskRegs (w.getD 1 0)).length ≤ 16) (cc : CC) :
    (∀ k i, (maskRegs (w.getD 1 0))[k]? = some i → (fromRecord w cc).s (BitVec.ofNat 6 i) = w.getD (8 + k) 0)
      ∧ ∀ r : BitVec 6, r.toNat ∉ maskRegs (w.getD 1 0) → (fromRecord w cc).s r = cc.s r := by
  obtain ⟨hnodup, hlt⟩ := maskRegs_spec (w.getD 1 0)
  have hmem {y : Nat × W64} (hy : y ∈ (maskRegs (w.getD 1 0)).zip (w.drop 8)) : y.1 ∈ maskRegs (w.getD 1 0) := (List.of_mem_zip hy).1
  refine ⟨fun k i hk => ?_, fun r hr => ?_⟩
  · obtain ⟨hkl, hik⟩ := List.getElem?_eq_some_iff.mp hk
    have hk24 : k < (w.drop 8).length := by rw [List.length_drop]; omega
    have hpair : (i, w.getD (8 + k) 0) ∈ (maskRegs (w.getD 1 0)).zip (w.drop 8) := by
      refine List.mem_of_getElem? (i := k) ?_
      rw [List.getElem?_zip_eq_some]
      refine ⟨hk, ?_⟩
      rw [List.getElem?_drop, List.getElem?_eq_getElem (by omega), List.getD_eq_getElem _ _ (by omega)]
    have hne : i ≠ 0 := by
      rintro rfl
      have := (List.mem_filter.mp (hik ▸ List.getElem_mem hkl : 0 ∈ maskRegs (w.getD 1 0))).2
      rw [h0] at this
      cases this
    have hz : (((maskRegs (w.getD 1 0)).zip (w.drop 8)).map (·.1)).Nodup := by
      rw [List.map_fst_zip (by rw [List.length_drop]; omega)]
      exact hnodup
    exact setRegs_mem (fun y hy => hlt _ (hmem hy)) hz hpair hne cc
  · exact setRegs_other (fun y hy => ⟨hlt _ (hmem hy), fun h => hr (h ▸ hmem hy)⟩) cc

theorem contOk_mask {w : List W64} (h : contOk w = true) : (w.getD 1 0).getLsbD 0 = false ∧ (maskRegs (w.getD 1 0)).length ≤ 16 := by
  unfold contOk at h
  simp only [Bool.and_eq_true, Bool.not_eq_true', decide_eq_true_eq] at h
  tauto

theorem resume_continuation (hi : (s.ac n).idle = true) (he : (s.reg (dieOf n) 0x23000).getLsbD 0 = true) (hfree : DispFree (dieOf n) s)
    (hx : firstItem (s.items n) = some x) (hc : x.cont = some (cd, c)) (hk : c.wkind ≠ 9) (hlen : b.length = 256)
    (hr : reach (.disp (dieOf n)) .read (s.lent x.d x.l).lrecVa.toNat 256 s = .ok ps s1)
    (hb : readAcquired (.disp (dieOf n)) .pkg c.va 256 8 s1 = .ok b s2) :
    let e := s.lent x.d x.l
    let w := fun i : Nat => (words64 b).getD i 0
    let regs := maskRegs (w 1)
    (contOk (words64 b) = false → exec (.dispatchDecision n) s = .next (s2.cancelLaunch x.d x.l 0x100))
    ∧ (contOk (words64 b) = true → ∀ s3 : State, contState (dieOf n) c 3 s2 = .ok () s3 →
      ∃ (t : State) (tk : Task), exec (.dispatchDecision n) s = .next t ∧ (t.ac n).cc.task = some tk
        ∧ tk = ⟨e.launch, x.d, x.l, e.lrec, 0, e.epoch, true, x.prio, x.i⟩ ∧ (t.ac n).cc.resumed = true
        ∧ (t.ac n).cc.pc = addr55 (w 2) ∧ (t.ac n).cc.h = false ∧ (t.ac n).cc.ie = true
        ∧ (∀ k i, regs[k]? = some i → (t.ac n).cc.s (BitVec.ofNat 6 i) = w (8 + k))
        ∧ (∀ r : BitVec 6, r.toNat ∉ regs → (t.ac n).cc.s r = if r = 1 then tk.word 6 else if r = 2 then tk.word 5 else 0)
        ∧ (∀ p : BitVec 4, (t.ac n).cc.p p = (p == 0)) ∧ (∀ en, ((t.ac n).eng en).q = [] ∧ ((t.ac n).eng en).st = 0)
        ∧ c ∉ (t.die cd).conts ∧ (∀ c' ∈ (s3.die cd).conts, c' ≠ c → c' ∈ (t.die cd).conts) ∧ t.mem = s3.mem) := by
  intro e w regs
  refine ⟨fun hno => ?_, fun hok s3 hs3 => ?_⟩
  · refine (decide_resumes hi he hx hc hk).trans (congrArg Host.Outcome.next (resumeCont_reads hfree hr hb ?_))
    rw [hno]
    rfl
  · let u := (s3.dropCont cd c).charge n x.i x.prio (s.items n)
    let v := u.taskStart n (resumedTask e x)
    let z := v.modCC n (fromRecord (words64 b))
    let t := resumeAcquires n c (words64 b) z
    have hrun : exec (.dispatchDecision n) s = .next t := by
      refine (decide_resumes hi he hx hc hk).trans (congrArg Host.Outcome.next (resumeCont_reads hfree hr hb ?_))
      rw [hok, if_neg (by decide)]
      exact (bindM_ok hs3).trans (act_run ..)
    obtain ⟨htm, htacs, htdies⟩ := resumeAcquires_frame n c (words64 b) z
    obtain ⟨hvm, -, hvdie⟩ := taskStart_frame u n (resumedTask e x)
    obtain ⟨hum, hudies, -, -⟩ := charge_frame (s3.dropCont cd c) n x.i x.prio (s.items n)
    obtain ⟨htask, -, hh, hie, -, hres, -, hs, hpreg, -, heng, -⟩ := started_taskStart u n (resumedTask e x)
    have hz : t.ac n = { v.ac n with cc := fromRecord (words64 b) (v.ac n).cc } :=
      (ac_of_acs htacs n).trans ((State.modCC_ac ..).trans (if_pos rfl))
    obtain ⟨m, hm⟩ := setRegs_keeps ((maskRegs (w 1)).zip ((words64 b).drop 8)) (v.ac n).cc
    have hcc : (t.ac n).cc = { (v.ac n).cc with sreg := m, pc := addr55 (w 2) } := by
      rw [hz]
      show fromRecord (words64 b) (v.ac n).cc = _
      rw [fromRecord, hm]
    have hcs (r : BitVec 6) : (t.ac n).cc.s r = (fromRecord (words64 b) (v.ac n).cc).s r := by rw [hz]
    obtain ⟨h0, h16⟩ := contOk_mask hok
    obtain ⟨hin, hout⟩ := fromRecord_s (words64_length 32 b hlen) h0 h16 (v.ac n).cc
    have hconts : (t.die cd).conts = (s3.die cd).conts.filter (· != c) := by
      obtain ⟨ltab, hd⟩ := hvdie cd
      have hd' := congrArg Die.conts hd
      have hvc : (v.die cd).conts = (u.die cd).conts := hd'
      have huc : (u.die cd).conts = ((s3.dropCont cd c).die cd).conts := congrArg Die.conts (die_of_dies hudies cd)
      rw [die_of_dies htdies]
      show (v.die cd).conts = _
      rw [hvc, huc, State.dropCont, State.modDie_die, if_pos rfl]
    refine ⟨t, resumedTask e x, hrun, ?_, rfl, ?_, ?_, ?_, ?_, fun k i hki => (hcs _).trans (hin k i hki), fun r hr => (hcs r).trans ((hout r hr).trans (hs r)),
      fun p => ?_, fun en => ?_, ?_, fun c' hc' hne => ?_, htm.trans (hvm.trans hum)⟩
    · rw [hcc]; exact htask
    · rw [hcc]; exact hres
    · rw [hcc]
    · rw [hcc]; exact hh
    · rw [hcc]; exact hie
    · rw [CC.p, hcc]
      show (p == 0 || (v.ac n).cc.preg.getLsbD p.toNat) = _
      rw [hpreg]
      simp
    · have hen : (t.ac n).eng en = (v.ac n).eng en := by rw [hz]; cases en <;> rfl
      rw [hen, heng]
      exact ⟨rfl, (atStart_st ..).trans (if_neg fun h => by simp [resumedTask] at h)⟩
    · rw [hconts]
      simp
    · rw [hconts]
      exact List.mem_filter.mpr ⟨hc', bne_iff_ne.mpr hne⟩

theorem ruleContinuationResume_holds : ruleContinuationResume :=
  fun _ _ _ _ _ _ _ _ _ hi he hfree hx hc hk _ hlen hr hb => resume_continuation hi he hfree hx hc hk hlen hr hb

end

end Sys2Proof

/-! # A task of a split (R242, R243) -/

namespace Sys2Proof

open Machine

/- Declarations are checked one after another: side by side they would hold a thread each. -/
set_option Elab.async false

/-! ### The walker that a split chooses (R243) -/

/-- The best of a list by a strict order is kept, from where it first stands on. -/
theorem foldl_best {α : Type} {better : α → α → Bool} {m : α} (hm : better m m = false) (l1 l2 : List α) (h1 : ∀ y ∈ l1, y = m ∨ better m y = true)
    (h2 : ∀ y ∈ l2, better y m = false) {b : α} (hb : b = m ∨ better m b = true) :
    (l1 ++ m :: l2).foldl (fun b x => if better x b then x else b) b = m := by
  induction l1 generalizing b with
  | nil =>
    have hrest : ∀ l : List α, (∀ y ∈ l, better y m = false) → l.foldl (fun b x => if better x b then x else b) m = m := by
      intro l
      induction l with
      | nil => exact fun _ => rfl
      | cons y l ih =>
        intro h
        rw [List.foldl_cons, h y List.mem_cons_self, if_neg (by decide)]
        exact ih fun z hz => h z (List.mem_cons_of_mem _ hz)
    rw [List.nil_append, List.foldl_cons]
    rcases hb with rfl | hb
    · rw [hm, if_neg (by decide)]
      exact hrest l2 h2
    · rw [hb, if_pos rfl]
      exact hrest l2 h2
  | cons y l1 ih =>
    rw [List.cons_append, List.foldl_cons]
    refine ih (fun z hz => h1 z (List.mem_cons_of_mem _ hz)) ?_
    split
    · exact h1 y List.mem_cons_self
    · exact hb

section
variable {s : State} {n launch : Nat}

/-- The walkers of a launch with coordinates left, die by die. -/
def splitFrom (s : State) (launch : Nat) : List (Nat × Nat × Walker) :=
  (List.range 4).flatMap fun d => (s.die d).walkers.filterMap fun x =>
    if [launch].contains x.2.launch ∧ x.2.next < x.2.stop then some (d, x.1, x.2) else none

/-- A walker is to be split before another (R243). -/
def splitsBefore (n : Nat) (x y : Nat × Nat × Walker) : Bool :=
  decide (y.2.2.stop - y.2.2.next < x.2.2.stop - x.2.2.next)
    || (x.2.2.stop - x.2.2.next == y.2.2.stop - y.2.2.next && decide (hops (dieOf n) x.1 < hops (dieOf n) y.1))

theorem victim_eq : s.victim n [launch] = match splitFrom s launch with
    | [] => none
    | c :: r => some (r.foldl (fun b x => if splitsBefore n x b then x else b) c) := rfl

theorem mem_splitFrom {y : Nat × Nat × Walker} : y ∈ splitFrom s launch ↔
    y.1 < 4 ∧ (y.2.1, y.2.2) ∈ (s.die y.1).walkers ∧ y.2.2.launch = launch ∧ y.2.2.next < y.2.2.stop := by
  unfold splitFrom
  simp only [List.mem_flatMap, List.mem_range, List.mem_filterMap]
  constructor
  · rintro ⟨d, hd, x, hx, h⟩
    split at h
    · next hc =>
      cases h
      exact ⟨hd, hx, by simpa using hc.1, hc.2⟩
    · cases h
  · rintro ⟨hd, hx, hl, hlt⟩
    exact ⟨y.1, hd, (y.2.1, y.2.2), hx, if_pos ⟨by simp [hl], hlt⟩⟩

/-- The candidates stand in the order of their dies. -/
theorem splitFrom_sorted (s : State) (launch : Nat) : (splitFrom s launch).Pairwise fun x y => x.1 ≤ y.1 := by
  have hdie {d : Nat} {y : Nat × Nat × Walker} (hy : y ∈ (s.die d).walkers.filterMap fun x =>
      if [launch].contains x.2.launch ∧ x.2.next < x.2.stop then some (d, x.1, x.2) else none) : y.1 = d := by
    obtain ⟨x, -, h⟩ := List.mem_filterMap.mp hy
    split at h
    · cases h; rfl
    · cases h
  refine List.pairwise_flatMap.mpr ⟨fun d _ => List.pairwise_of_forall_mem_list fun x hx y hy => ?_, List.pairwise_lt_range.imp fun hlt x hx y hy => ?_⟩
  · rw [hdie hx, hdie hy]
  · rw [hdie hx, hdie hy]
    exact hlt.le

theorem victim_splits {vd slot : Nat} {w : Walker} (h : SplitsFrom n launch vd slot w s) : s.victim n [launch] = some (vd, slot, w) := by
  obtain ⟨hvd, hfind, hl, hlt, hbest⟩ := h
  have hmem : (vd, slot, w) ∈ splitFrom s launch := mem_splitFrom.mpr ⟨hvd, mem_of_smFind hfind, hl, hlt⟩
  obtain ⟨l1, l2, hsplit⟩ := List.append_of_mem hmem
  have hself : splitsBefore n (vd, slot, w) (vd, slot, w) = false := by simp [splitsBefore]
  have hsorted := splitFrom_sorted s launch
  rw [hsplit] at hsorted
  have h1 : ∀ y ∈ l1, y = (vd, slot, w) ∨ splitsBefore n (vd, slot, w) y = true := by
    intro y hy
    by_cases hne : y = (vd, slot, w)
    · exact .inl hne
    · obtain ⟨hd, hyw, hyl, -⟩ := mem_splitFrom.mp (hsplit ▸ List.mem_append_left _ hy)
      have hle : y.1 ≤ vd := (List.pairwise_append.mp hsorted).2.2 y hy _ List.mem_cons_self
      refine .inr ?_
      unfold splitsBefore
      rcases hbest y.1 y.2.1 y.2.2 hd hyw hyl hne with hrem | ⟨hrem, hhop | ⟨-, hdie⟩⟩
      · simp [hrem]
      · simp [hrem, hhop]
      · omega
  have h2 : ∀ y ∈ l2, splitsBefore n y (vd, slot, w) = false := by
    intro y hy
    by_cases hne : y = (vd, slot, w)
    · rw [hne]; exact hself
    · obtain ⟨hd, hyw, hyl, -⟩ := mem_splitFrom.mp (hsplit ▸ List.mem_append_right _ (List.mem_cons_of_mem _ hy))
      have hcase := hbest y.1 y.2.1 y.2.2 hd hyw hyl hne
      unfold splitsBefore
      simp only [Bool.or_eq_false_iff, Bool.and_eq_false_iff, decide_eq_false_iff_not, beq_eq_false_iff_ne]
      omega
  rw [victim_eq, hsplit]
  cases l1 with
  | nil => exact congrArg some (foldl_best hself [] l2 (by simp) h2 (.inl rfl) |> fun h => by simpa [hself] using h)
  | cons y l1 =>
    exact congrArg some (foldl_best hself l1 l2 (fun z hz => h1 z (List.mem_cons_of_mem _ hz)) h2 (h1 y List.mem_cons_self))

/-! ### A split (R243, R242) -/

/-- The coordinate from which a split takes the upper part, and the last granule (R243). -/
def splitAt (w : Walker) : Nat := Max.max 1 w.gran * ((w.next + w.stop + 2 * Max.max 1 w.gran - 1) / (2 * Max.max 1 w.gran))
def lastGranule (w : Walker) : Nat := Max.max 1 w.gran * ((w.stop - 1) / Max.max 1 w.gran)

/-- A split is counted. -/
def splitCounted (d : Nat) (s : State) : State := s.setReg d 0x23008 (setBits (s.reg d 0x23008) 16 8 (bits (s.reg d 0x23008) 16 8 + 1))

/-- The walker that is split ends before a coordinate. -/
def splitShort (vd slot : Nat) (w : Walker) (stop : Nat) (s : State) : State := s.modDie vd fun x => { x with walkers := smSet x.walkers slot { w with stop := stop } }

theorem split_eq {vd slot : Nat} {w : Walker} (h : SplitsFrom n launch vd slot w s) :
    s.split n [launch] = if splitAt w ≤ w.next ∨ w.stop ≤ splitAt w then none
      else match (s.die (dieOf n)).freeSlot with
      | some k =>
        let nw : Walker := ⟨w.launch, w.epoch, splitAt w, w.stop, w.gran, 1⟩
        some (w.launch, splitAt w, splitCounted (dieOf n) (((splitShort vd slot w (splitAt w) s).modDie (dieOf n) fun x => x.newWalker k nw).modDie (dieOf n)
          fun x => x.putWalker k { nw with next := splitAt w + 1 }))
      | none => if lastGranule w ≤ w.next ∨ s.hasClaim n then none
        else some (w.launch, lastGranule w, splitCounted (dieOf n) ((splitShort vd slot w (lastGranule w) s).modAc n fun a => { a with disp := { a.disp with
          claims := a.disp.claims ++ (if lastGranule w + 1 < w.stop then [(w.launch, lastGranule w + 1, w.stop)] else []) } })) := by
  unfold State.split
  rw [victim_splits h]
  rfl

end

theorem filterMap_eq_single {α β : Type} {f : α → Option β} {l : List α} {i : α} {y : β} (hn : l.Nodup) (hi : i ∈ l) (hy : f i = some y)
    (ho : ∀ j ∈ l, j ≠ i → f j = none) : l.filterMap f = [y] := by
  induction l with
  | nil => cases hi
  | cons x l ih =>
    obtain ⟨hnot, hn'⟩ := List.nodup_cons.mp hn
    rcases List.mem_cons.mp hi with rfl | hi
    · rw [List.filterMap_cons_some hy, List.filterMap_eq_nil_iff.mpr]
      exact fun j hj => ho j (List.mem_cons_of_mem _ hj) fun h => hnot (h ▸ hj)
    · rw [List.filterMap_cons_none (ho x List.mem_cons_self fun h => hnot (h ▸ hi))]
      exact ih hn' hi fun j hj => ho j (List.mem_cons_of_mem _ hj)

/-- A cluster that is idle on a die that dispatches, and finds no item, with one usable record, whose launch it may split. -/
structure MaySplit (n i d l : Nat) (s : State) : Prop where
  idle : (s.ac n).idle = true
  enabled : (s.reg (dieOf n) 0x23000).getLsbD 0 = true
  noItem : firstItem (s.items n) = none
  record : i < 8
  usable : s.usable n i = some (d, l)
  others : ∀ j, j < 8 → j ≠ i → s.usable n j = none
  eligible : s.eligible n (s.lent d l) = true
  splittable : splittable (s.lent d l) = true

section
variable {n i d l : Nat} {s : State}

/-- The usable records whose launches the cluster may split. -/
def splitRecords (n : Nat) (s : State) : List (Nat × Nat × Nat) := (List.range 8).filterMap fun i => match s.usable n i with
  | some (d, l) => if s.eligible n (s.lent d l) ∧ Machine.splittable (s.lent d l) then some (i, d, l) else none
  | none => none

theorem MaySplit.records (h : MaySplit n i d l s) : splitRecords n s = [(i, d, l)] := by
  refine filterMap_eq_single List.nodup_range (List.mem_range.mpr h.record) ?_ fun j hj hne => ?_
  · rw [h.usable]
    exact if_pos ⟨h.eligible, h.splittable⟩
  · rw [h.others j (List.mem_range.mp hj) hne]

/-- A cluster that finds no item holds no claim of the launch (R242). -/
theorem MaySplit.noClaim (h : MaySplit n i d l s) : (s.ac n).claimOf (s.lent d l).launch = none := by
  have hnil : s.items n = [] := by
    have hno := h.noItem
    cases hit : s.items n with
    | nil => rfl
    | cons x r =>
      rw [hit] at hno
      cases hno
  have hw : s.hasWork n (s.lent d l) = false := by
    have hi := List.flatMap_eq_nil_iff.mp hnil i (List.mem_range.mpr h.record)
    rw [h.usable] at hi
    dsimp only at hi
    rw [if_neg (by rw [h.eligible]; decide)] at hi
    cases hw : s.hasWork n (s.lent d l) with
    | false => rfl
    | true =>
      rw [hw, if_pos rfl] at hi
      exact absurd (List.append_eq_nil_iff.mp hi).2 (List.cons_ne_nil _ _)
  cases hc : (s.ac n).claimOf (s.lent d l).launch with
  | none => rfl
  | some c =>
    have hpers : lrPersist (s.lent d l).lrec = false := by
      have := h.splittable
      unfold Machine.splittable at this
      simp only [Bool.and_eq_true, Bool.not_eq_true'] at this
      exact this.2
    have hlev : lrHas (s.lent d l).lrec 2 = false := by
      have := h.splittable
      unfold Machine.splittable at this
      simp only [Bool.and_eq_true, Bool.not_eq_true'] at this
      exact this.1.2
    unfold State.hasWork at hw
    rw [hc, hpers, hlev] at hw
    cases hw

theorem decide_splits (h : MaySplit n i d l s) : decide' n s = match s.split n [(s.lent d l).launch] with
    | none => s
    | some (launch, lin, s') => if (s.lent d l).launch = launch then (s'.charge n i (s.eprio n i (s.lent d l)) []).startNew n d l lin i (s.eprio n i (s.lent d l)) else s := by
  rw [decide_goes h.idle h.enabled, h.noItem]
  dsimp only
  show (match s.split n ((splitRecords n s).map fun x : Nat × Nat × Nat => (s.lent x.2.1 x.2.2).launch) with
    | none => s
    | some (launch, lin, s') => match (splitRecords n s).find? fun x : Nat × Nat × Nat => (s.lent x.2.1 x.2.2).launch == launch with
      | some (i, d, l) => (s'.charge n i (s.eprio n i (s.lent d l)) []).startNew n d l lin i (s.eprio n i (s.lent d l))
      | none => s) = _
  rw [h.records]
  have key (o : Option (Nat × Nat × State)) : (match o with
      | none => s
      | some (launch, lin, s') => match [(i, d, l)].find? fun x : Nat × Nat × Nat => (s.lent x.2.1 x.2.2).launch == launch with
        | some (i, d, l) => (s'.charge n i (s.eprio n i (s.lent d l)) []).startNew n d l lin i (s.eprio n i (s.lent d l))
        | none => s) = match o with
      | none => s
      | some (launch, lin, s') => if (s.lent d l).launch = launch then
          (s'.charge n i (s.eprio n i (s.lent d l)) []).startNew n d l lin i (s.eprio n i (s.lent d l)) else s := by
    match o with
    | none => rfl
    | some (launch, lin, s') =>
      by_cases hl : (s.lent d l).launch = launch
      · dsimp only
        have hfind : [(i, d, l)].find? (fun x : Nat × Nat × Nat => (s.lent x.2.1 x.2.2).launch == launch) = some (i, d, l) :=
          List.find?_cons_of_pos (beq_iff_eq.mpr hl)
        rw [if_pos hl, hfind]
      · dsimp only
        have hfind : [(i, d, l)].find? (fun x : Nat × Nat × Nat => (s.lent x.2.1 x.2.2).launch == launch) = none :=
          List.find?_cons_of_neg fun hb => hl (beq_iff_eq.mp hb)
        rw [if_neg hl, hfind]
  exact key (s.split n [(s.lent d l).launch])

/-- What a split leaves for the start of its task. -/
structure SplitLeaves (n d l : Nat) (s s' : State) : Prop where
  mem : s'.mem = s.mem
  lent : s'.lent d l = s.lent d l
  ac : ∀ m, m ≠ n → s'.ac m = s.ac m

/-- The task that a split starts. -/
theorem split_starts {lin : Nat} {s' : State} (h : MaySplit n i d l s) (hs : s.split n [(s.lent d l).launch] = some ((s.lent d l).launch, lin, s'))
    (hk : SplitLeaves n d l s s') :
    ∃ t : State, (exec (.dispatchDecision n) s = .next t
      ∧ (t.ac n).cc.task = some ⟨(s.lent d l).launch, d, l, (s.lent d l).lrec, lin, (s.lent d l).epoch, false, s.eprio n i (s.lent d l), i⟩
      ∧ t.mem = s.mem ∧ ∀ m, m ≠ n → t.ac m = s.ac m)
      ∧ (∀ k, (t.die k).walkers = (s'.die k).walkers) ∧ (t.ac n).disp.claims = (s'.ac n).disp.claims := by
  let p := s.eprio n i (s.lent d l)
  let u := s'.charge n i p []
  have hrun : exec (.dispatchDecision n) s = .next (u.startNew n d l lin i p) := by
    refine congrArg Host.Outcome.next ((decide_splits h).trans ?_)
    rw [hs]
    exact if_pos rfl
  obtain ⟨hum, hud, hua, huc⟩ := charge_frame s' n i p []
  obtain ⟨htm, hta, htd, hdie⟩ := startNew_frame u n d l lin i p
  have hlent : u.lent d l = s.lent d l := (lent_of_dies hud d l).trans hk.lent
  have htask := (startNew_started u n d l lin i p).task
  rw [hlent] at htask
  refine ⟨_, ⟨hrun, htask, htm.trans (hum.trans hk.mem), fun m hm => (hta m hm).trans ((hua m hm).trans (hk.ac m hm))⟩, fun k => ?_, ?_⟩
  · obtain ⟨ltab, hd⟩ := hdie k
    have hd' := congrArg Die.walkers hd
    have hu := congrArg Die.walkers (die_of_dies hud k)
    exact hd'.trans hu
  · rw [htd, huc]

theorem split_stays (h : MaySplit n i d l s) (hs : s.split n [(s.lent d l).launch] = none) : exec (.dispatchDecision n) s = .next s := by
  refine congrArg Host.Outcome.next ((decide_splits h).trans ?_)
  rw [hs]

end

theorem smFind_filter_of {α : Type} {p : Nat × α → Bool} {m : SMap α} {k : Nat} {v : α} (h : smFind m k = some v) (hp : p (k, v) = true) :
    smFind (m.filter p) k = some v := by
  induction m with
  | nil => cases h
  | cons q r ih =>
    obtain ⟨j, y⟩ := q
    rw [smFind_cons] at h
    split at h
    · cases h
    · next hlt =>
      split at h
      · next hj =>
        cases h
        subst hj
        rw [List.filter_cons_of_pos hp, smFind_cons, if_neg hlt, if_pos rfl]
      · next hj =>
        rw [List.filter_cons]
        split
        · rw [smFind_cons, if_neg hlt, if_neg hj]
          exact ih h
        · exact ih h

/-- A die that has taken a new walker, of which a coordinate has been taken, in a free slot. -/
theorem newWalker_put (x : Die) {k slot : Nat} {w nw nw2 : Walker} (hne : slot ≠ k) (hw : smFind x.walkers slot = some w) (hlive : w.next < w.stop) :
    smFind ((x.newWalker k nw).putWalker k nw2).walkers slot = some w
      ∧ (nw2.next < nw2.stop → smFind ((x.newWalker k nw).putWalker k nw2).walkers k = some nw2) := by
  have hnew : smFind (x.newWalker k nw).walkers slot = some w := by
    show smFind (smSet _ k nw) slot = some w
    rw [smFind_smSet, if_neg hne]
    refine smFind_filter_of hw ?_
    simp [hlive]
  unfold Die.putWalker
  refine ⟨?_, fun hlt => ?_⟩
  · split
    · exact (smFind_smSet ..).trans ((if_neg hne).trans hnew)
    · exact (smFind_smErase ..).trans ((if_neg hne).trans hnew)
  · rw [if_pos (.inl hlt)]
    exact (smFind_smSet ..).trans (if_pos rfl)

theorem splitCounted_frame (e : Nat) (s : State) : (splitCounted e s).mem = s.mem ∧ (splitCounted e s).acs = s.acs
    ∧ ∀ k, ((splitCounted e s).die k).walkers = (s.die k).walkers ∧ ((splitCounted e s).die k).ltab = (s.die k).ltab := by
  unfold splitCounted
  generalize setBits (s.reg e 0x23008) 16 8 (bits (s.reg e 0x23008) 16 8 + 1) = v
  refine ⟨rfl, rfl, fun k => ?_⟩
  rw [State.setReg, State.modDie_die]
  split
  · next h => rw [h]; exact ⟨rfl, rfl⟩
  · exact ⟨rfl, rfl⟩

theorem splitShort_die (vd slot : Nat) (w : Walker) (stop : Nat) (s : State) :
    smFind ((splitShort vd slot w stop s).die vd).walkers slot = some { w with stop := stop }
      ∧ ∀ k, ((splitShort vd slot w stop s).die k).ltab = (s.die k).ltab := by
  unfold splitShort
  refine ⟨?_, fun k => ?_⟩
  · rw [State.modDie_die, if_pos rfl]
    exact (smFind_smSet ..).trans (if_pos rfl)
  · rw [State.modDie_die]
    split
    · next h => rw [h]
    · rfl

theorem newWalker_ltab (x : Die) (k : Nat) (w nw : Walker) : (x.newWalker k w).ltab = x.ltab ∧ (x.putWalker k nw).ltab = x.ltab := by
  refine ⟨rfl, ?_⟩
  unfold Die.putWalker
  split <;> rfl

section
variable {n i d l vd slot : Nat} {w : Walker} {s : State}

/-- A split that finds a free slot (R243). -/
theorem split_slot (h : MaySplit n i d l s) (hf : SplitsFrom n (s.lent d l).launch vd slot w s) (hlo : w.next < splitAt w) (hhi : splitAt w < w.stop) {k : Nat}
    (hk : (s.die (dieOf n)).freeSlot = some k) :
    ∃ t : State, (exec (.dispatchDecision n) s = .next t
      ∧ (t.ac n).cc.task = some ⟨(s.lent d l).launch, d, l, (s.lent d l).lrec, splitAt w, (s.lent d l).epoch, false, s.eprio n i (s.lent d l), i⟩
      ∧ t.mem = s.mem ∧ ∀ m, m ≠ n → t.ac m = s.ac m)
      ∧ smFind (t.die vd).walkers slot = some { w with stop := splitAt w }
      ∧ (splitAt w + 1 < w.stop → smFind (t.die (dieOf n)).walkers k = some ⟨w.launch, w.epoch, splitAt w + 1, w.stop, w.gran, 1⟩) := by
  let nw : Walker := ⟨w.launch, w.epoch, splitAt w, w.stop, w.gran, 1⟩
  let a := splitShort vd slot w (splitAt w) s
  let b := (a.modDie (dieOf n) fun x => x.newWalker k nw).modDie (dieOf n) fun x => x.putWalker k { nw with next := splitAt w + 1 }
  have hlaunch : w.launch = (s.lent d l).launch := hf.2.2.1
  have hs : s.split n [(s.lent d l).launch] = some ((s.lent d l).launch, splitAt w, splitCounted (dieOf n) b) := by
    rw [split_eq hf, if_neg (by omega), hk, ← hlaunch]
  obtain ⟨hcm, hca, hcd⟩ := splitCounted_frame (dieOf n) b
  obtain ⟨hshort, hltab⟩ := splitShort_die vd slot w (splitAt w) s
  have hb (e : Nat) : b.die e = if e = dieOf n then ((a.die (dieOf n)).newWalker k nw).putWalker k { nw with next := splitAt w + 1 } else a.die e := by
    rw [State.modDie_die]
    split
    · rw [State.modDie_die, if_pos rfl]
    · next hne => rw [State.modDie_die, if_neg hne]
  have hlent : (splitCounted (dieOf n) b).lent d l = s.lent d l := by
    refine lent_of_ltab ((hcd d).2.trans ?_) l
    rw [hb]
    split
    · next hd => rw [(newWalker_ltab _ _ nw _).2, (newWalker_ltab _ _ nw nw).1, hd]; exact hltab _
    · exact hltab d
  obtain ⟨t, hstart, hwalk, -⟩ := split_starts h hs ⟨hcm, hlent, fun m _ => ac_of_acs hca m⟩
  have hslot : smFind (s.die (dieOf n)).walkers k = none := by
    have := List.find?_some hk
    exact Option.isNone_iff_eq_none.mp this
  refine ⟨t, hstart, ?_, fun hlt => ?_⟩
  · rw [hwalk, (hcd vd).1, hb]
    split
    · next hvd =>
      have hne : slot ≠ k := by
        rintro rfl
        rw [← hvd, hf.2.1] at hslot
        cases hslot
      rw [← hvd]
      exact (newWalker_put _ hne hshort hlo).1
    · exact hshort
  · rw [hwalk, (hcd _).1, hb, if_pos rfl]
    unfold Die.putWalker
    rw [if_pos (.inl hlt)]
    exact (smFind_smSet ..).trans (if_pos rfl)

/-- A split with no free slot takes the last granule as a claim (R243). -/
theorem split_claim (h : MaySplit n i d l s) (hf : SplitsFrom n (s.lent d l).launch vd slot w s) (hlo : w.next < splitAt w) (hhi : splitAt w < w.stop)
    (hk : (s.die (dieOf n)).freeSlot = none) (hlow : w.next < lastGranule w) (hno : s.hasClaim n = false) :
    ∃ t : State, (exec (.dispatchDecision n) s = .next t
      ∧ (t.ac n).cc.task = some ⟨(s.lent d l).launch, d, l, (s.lent d l).lrec, lastGranule w, (s.lent d l).epoch, false, s.eprio n i (s.lent d l), i⟩
      ∧ t.mem = s.mem ∧ ∀ m, m ≠ n → t.ac m = s.ac m)
      ∧ smFind (t.die vd).walkers slot = some { w with stop := lastGranule w }
      ∧ (t.ac n).claimOf (s.lent d l).launch = if lastGranule w + 1 < w.stop then some ((s.lent d l).launch, lastGranule w + 1, w.stop) else none := by
  let rest := if lastGranule w + 1 < w.stop then [(w.launch, lastGranule w + 1, w.stop)] else []
  let a := splitShort vd slot w (lastGranule w) s
  let b := a.modAc n fun x => { x with disp := { x.disp with claims := x.disp.claims ++ rest } }
  have hlaunch : w.launch = (s.lent d l).launch := hf.2.2.1
  have hs : s.split n [(s.lent d l).launch] = some ((s.lent d l).launch, lastGranule w, splitCounted (dieOf n) b) := by
    rw [split_eq hf, if_neg (by omega), hk]
    dsimp only
    rw [if_neg (by rw [hno]; simp; omega), ← hlaunch]
  obtain ⟨hcm, hca, hcd⟩ := splitCounted_frame (dieOf n) b
  obtain ⟨hshort, hltab⟩ := splitShort_die vd slot w (lastGranule w) s
  have hlent : (splitCounted (dieOf n) b).lent d l = s.lent d l := lent_of_ltab ((hcd d).2.trans (hltab d)) l
  have hac (m : Nat) : (splitCounted (dieOf n) b).ac m = b.ac m := ac_of_acs hca m
  obtain ⟨t, hstart, hwalk, hclaims⟩ := split_starts h hs ⟨hcm, hlent, fun m hm => (hac m).trans ((State.modAc_ac ..).trans (if_neg hm))⟩
  have hcl : (t.ac n).disp.claims = (s.ac n).disp.claims ++ rest := by
    rw [hclaims, hac, State.modAc_ac, if_pos rfl]
    rfl
  refine ⟨t, hstart, ?_, ?_⟩
  · rw [hwalk, (hcd vd).1]
    exact hshort
  · have hold := h.noClaim
    unfold AC.claimOf at hold ⊢
    rw [hcl, List.find?_append, hold, Option.none_or]
    by_cases hlt : lastGranule w + 1 < w.stop
    · rw [if_pos hlt, show rest = [(w.launch, lastGranule w + 1, w.stop)] from if_pos hlt, List.find?_cons_of_pos (by simp [hlaunch, hlt]), hlaunch]
    · rw [if_neg hlt, show rest = [] from if_neg hlt, List.find?_nil]

theorem split_clause (h : MaySplit n i d l s) (hf : SplitsFrom n (s.lent d l).launch vd slot w s) :
    (splitAt w ≤ w.next ∨ w.stop ≤ splitAt w → exec (.dispatchDecision n) s = .next s)
    ∧ ((s.die (dieOf n)).freeSlot = none → lastGranule w ≤ w.next ∨ s.hasClaim n = true → exec (.dispatchDecision n) s = .next s) := by
  refine ⟨fun hno => split_stays h ?_, fun hk hno => split_stays h ?_⟩
  · rw [split_eq hf, if_pos hno]
  · rw [split_eq hf]
    by_cases hout : splitAt w ≤ w.next ∨ w.stop ≤ splitAt w
    · rw [if_pos hout]
    · rw [if_neg hout, hk]
      exact if_pos hno

end

theorem ruleSplit_holds : ruleSplit := by
  intro n s i d l vd slot w hi he hno h8 hu ho hel hsp hf e g sp low starts
  have h : MaySplit n i d l s := ⟨hi, he, hno, h8, hu, ho, hel, hsp⟩
  obtain ⟨hstay, hlast⟩ := split_clause h hf
  exact ⟨hstay, fun hlo hhi => ⟨fun k hk => split_slot h hf hlo hhi hk,
    fun hk => ⟨hlast hk, fun hlow hc => split_claim h hf hlo hhi hk hlow hc⟩⟩⟩

/-- Settles O47: the task that a decision starts stands as the rules name it, whether its coordinate comes from an item, a record or a split. -/
theorem taskStarts : Obligations.TaskStarts := ⟨ruleNewTask_holds, ruleContinuationResume_holds, ruleSplit_holds⟩

end Sys2Proof

/-! # Results of VA and their elements (R361 to R367) -/

namespace Sys2Proof

open Machine

/-! ### Digits of the folds that build a result (R361, R363) -/

/-- Digits of j bits, the first lowest. -/
def digits {α : Type} (j : Nat) (g : α → Nat) (l : List α) : Nat := l.foldr (fun o acc => acc * 2 ^ j + g o) 0

/-- Digit i of a fold of digits is that of its i-th item, and zero beyond them. -/
theorem digits_get {α : Type} {j : Nat} {g : α → Nat} (hg : ∀ o, g o < 2 ^ j) (l : List α) (i : Nat) :
    digits j g l / 2 ^ (j * i) % 2 ^ j = (l[i]?).elim 0 g := by
  induction l generalizing i with
  | nil => simp [digits]
  | cons o l ih =>
    show (digits j g l * 2 ^ j + g o) / 2 ^ (j * i) % 2 ^ j = _
    cases i with
    | zero => simp [Nat.mod_eq_of_lt (hg o)]
    | succ i =>
      have hstep : (digits j g l * 2 ^ j + g o) / 2 ^ j = digits j g l := by
        rw [Nat.add_div_of_dvd_right ⟨_, Nat.mul_comm _ _⟩, Nat.mul_div_cancel _ (Nat.two_pow_pos j), Nat.div_eq_of_lt (hg o), Nat.add_zero]
      rw [Nat.mul_succ, Nat.add_comm (j * i), Nat.pow_add, ← Nat.div_div_eq_div_mul, hstep, ih, List.getElem?_cons_succ]

theorem digits_lt {α : Type} {j : Nat} {g : α → Nat} (hg : ∀ o, g o < 2 ^ j) (l : List α) : digits j g l < 2 ^ (j * l.length) := by
  induction l with
  | nil => simp [digits]
  | cons o l ih =>
    show digits j g l * 2 ^ j + g o < 2 ^ (j * (l.length + 1))
    have := hg o
    rw [Nat.mul_succ, Nat.pow_add]
    calc digits j g l * 2 ^ j + g o < (digits j g l + 1) * 2 ^ j := by rw [Nat.succ_mul]; omega
      _ ≤ 2 ^ (j * l.length) * 2 ^ j := Nat.mul_le_mul_right _ ih

/-- Bit b of digit i. -/
theorem digits_testBit {α : Type} {j b : Nat} {g : α → Nat} (hg : ∀ o, g o < 2 ^ j) (l : List α) (i : Nat) (hb : b < j) :
    (digits j g l).testBit (j * i + b) = ((l[i]?).elim 0 g).testBit b := by
  rw [← digits_get hg l i, Nat.testBit_mod_two_pow, Nat.testBit_div_two_pow]
  simp [hb, Nat.add_comm]

/-- The widths of the elements of a register. -/
def ElemWidth (w : Nat) : Prop := w = 4 ∨ w = 2 ∨ w = 1

theorem elemWidth_prec (b : Bool) : ElemWidth (if b then 2 else 4) := by cases b <;> simp [ElemWidth]

theorem vData_elem (w : Nat) (l : List (Option Nat)) (i : Nat) :
    vData w l / 2 ^ (8 * w * i) % 2 ^ (8 * w) = (l[i]?).elim 0 fun o => o.getD 0 % 2 ^ (8 * w) :=
  digits_get (g := fun o : Option Nat => o.getD 0 % 2 ^ (8 * w)) (fun _ => Nat.mod_lt _ (Nat.two_pow_pos _)) l i

theorem isSome_lt (o : Option Nat) : o.isSome.toNat < 2 ^ 1 := Bool.toNat_lt _

theorem pair_lt (o : Option Nat) : (if o.isSome then 3 else 0) < 2 ^ 2 := by split <;> decide

/-- The pairs of a list of 1-byte elements: each is written with its first element. -/
def pairHeads : List (Option Nat) → List (Option Nat)
  | x :: _ :: r => x :: pairHeads r
  | _ => []

theorem pairWrites_eq : ∀ l : List (Option Nat), pairWrites l = digits 1 (fun o : Option Nat => o.isSome.toNat) (pairHeads l)
  | [] | [_] => rfl
  | x :: _ :: r => by
    show pairWrites r * 2 + x.isSome.toNat = digits 1 _ (pairHeads r) * 2 ^ 1 + x.isSome.toNat
    rw [pairWrites_eq r, Nat.pow_one]

theorem pairHeads_get : ∀ (l : List (Option Nat)) (i : Nat), 2 * i + 1 < l.length → (pairHeads l)[i]? = l[2 * i]?
  | [], i, h => by simp at h
  | [_], i, h => by simp at h
  | x :: _ :: r, 0, _ => rfl
  | x :: _ :: r, i + 1, h => pairHeads_get r i (by simp only [List.length_cons] at h; omega)

theorem pairHeads_length : ∀ l : List (Option Nat), (pairHeads l).length = l.length / 2
  | [] | [_] => by simp [pairHeads]
  | _ :: _ :: r => by simp only [pairHeads, List.length_cons, pairHeads_length r]; omega

theorem vWrites_four (l : List (Option Nat)) : vWrites 4 l = digits 2 (fun o : Option Nat => if o.isSome then 3 else 0) l := rfl

theorem vWrites_two (l : List (Option Nat)) : vWrites 2 l = digits 1 (fun o : Option Nat => o.isSome.toNat) l := rfl

theorem vWrites_one (l : List (Option Nat)) : vWrites 1 l = digits 1 (fun o : Option Nat => o.isSome.toNat) (pairHeads l) := pairWrites_eq l

/-- The bits of the byte pairs that a list of the elements of a register writes: those of 1-byte elements go with the first of their pair. -/
theorem vWrites_testBit {w i b : Nat} (hw : ElemWidth w) (f : Nat → Option Nat) (hi : i < 1024 / w) (hb : b < (w + 1) / 2) :
    (vWrites w ((elemsOf w).map f)).testBit (w * i / 2 + b) = (f (if w = 1 then 2 * (i / 2) else i)).isSome := by
  have hget : ∀ k, k < 1024 / w → ((elemsOf w).map f)[k]? = some (f k) := fun k hk => by simp [elemsOf, hk]
  obtain rfl | rfl | rfl := hw
  · rw [vWrites_four, show 4 * i / 2 + b = 2 * i + b by omega, digits_testBit pair_lt _ _ hb, hget i hi]
    obtain rfl | rfl : b = 0 ∨ b = 1 := by omega
    all_goals cases hf : f i <;> simp [hf, show Nat.testBit 3 1 = true from rfl]
  · obtain rfl : b = 0 := by omega
    rw [vWrites_two, show 2 * i / 2 + 0 = 1 * i + 0 by omega, digits_testBit isSome_lt _ _ (by omega), hget i hi]
    cases hf : f i <;> simp [hf]
  · obtain rfl : b = 0 := by omega
    rw [vWrites_one, show 1 * i / 2 + 0 = 1 * (i / 2) + 0 by omega, digits_testBit isSome_lt _ _ (by omega),
      pairHeads_get _ _ (by simp [elemsOf]; omega), hget (2 * (i / 2)) (by omega)]
    cases hf : f (2 * (i / 2)) <;> simp [hf]

/-- One register's elements write 512 byte pairs. -/
theorem vWrites_lt {w : Nat} (hw : ElemWidth w) (f : Nat → Option Nat) : vWrites w ((elemsOf w).map f) < 2 ^ 512 := by
  obtain rfl | rfl | rfl := hw
  · have hl : 2 * ((elemsOf 4).map f).length ≤ 512 := by simp [elemsOf]
    rw [vWrites_four]
    exact Nat.lt_of_lt_of_le (digits_lt pair_lt _) (Nat.pow_le_pow_right (by decide) hl)
  · exact (digits_lt isSome_lt _).trans_le (Nat.pow_le_pow_right (by decide) (by simp [elemsOf]))
  · rw [vWrites_one]
    exact (digits_lt isSome_lt _).trans_le (Nat.pow_le_pow_right (by decide) (by rw [pairHeads_length]; simp [elemsOf]))

theorem vData_of {w i v : Nat} {f : Nat → Option Nat} (hi : i < 1024 / w) (hf : f i = some v) :
    vData w ((elemsOf w).map f) / 2 ^ (8 * w * i) % 2 ^ (8 * w) = v % 2 ^ (8 * w) := by
  rw [vData_elem]
  simp [elemsOf, hi, hf]

/-! ### What results write (R361 to R365) -/

theorem writes_vOut {w p : Nat} (hw : ElemWidth w) (f : Nat → Option Nat) : Writes (vOut p w ((elemsOf w).map f)) 0 w f := fun i hi =>
  ⟨fun b hb => by
    rw [Nat.mul_zero, Nat.zero_add]
    exact vWrites_testBit hw f hi hb, fun _ hf => vData_of hi hf⟩

theorem oneReg_vOut {x : AC} {d : BitVec 6} {w : Nat} (hw : ElemWidth w) (f : Nat → Option Nat) :
    OneReg x d w f (vOut (x.cc.phys d) w ((elemsOf w).map f)) := ⟨rfl, rfl, rfl, rfl, writes_vOut hw f⟩

theorem twoRegs_vPair {x : AC} {d : BitVec 6} {w : Nat} (hw : ElemWidth w) (f g : Nat → Option Nat) :
    TwoRegs x d w f g (vPair (x.cc.phys d) w ((elemsOf w).map f) ((elemsOf w).map g)) := by
  have hbound : ∀ {i b}, i < 1024 / w → b < (w + 1) / 2 → w * i / 2 + b < 512 := by
    intro i b hi hb
    obtain rfl | rfl | rfl := hw <;> omega
  have hmask : ∀ k, (vPair (x.cc.phys d) w ((elemsOf w).map f) ((elemsOf w).map g)).wmask.testBit k
      = if k < 512 then (vWrites w ((elemsOf w).map f)).testBit k else (vWrites w ((elemsOf w).map g)).testBit (k - 512) := by
    intro k
    show (vWrites w ((elemsOf w).map f) + vWrites w ((elemsOf w).map g) * 2 ^ 512).testBit k = _
    rw [Nat.add_comm, Nat.mul_comm, Nat.testBit_two_pow_mul_add _ (vWrites_lt hw f)]
  refine ⟨rfl, rfl, rfl, rfl, fun i hi => ⟨fun b hb => ?_, fun _ hf => vData_of hi hf⟩, fun i hi => ⟨fun b hb => ?_, fun _ hg => vData_of hi hg⟩⟩
  · have := hbound hi hb
    rw [hmask, Nat.mul_zero, Nat.zero_add, if_pos this, vWrites_testBit hw f hi hb]
  · rw [hmask, if_neg (by omega), show 512 * 1 + w * i / 2 + b - 512 = w * i / 2 + b by omega, vWrites_testBit hw g hi hb]

theorem vElem_eq : vElem = elemAt := by
  funext v w i
  show (v.extractLsb' (8 * w * i) (8 * w)).toNat = v.toNat / 2 ^ (8 * w * i) % 2 ^ (8 * w)
  rw [BitVec.extractLsb'_toNat, Nat.shiftRight_eq_div_pow]

theorem live_eq (x : AC) (h : Head) (w : Nat) : x.live h w = written x h w := rfl

theorem vRound_eq (x : AC) (h : Head) (bf : Bool) (m : RMode) : x.vRound h bf m = rounded x h bf m := rfl

theorem oneReg_vMap {x : AC} {d : BitVec 6} {w : Nat} (hw : ElemWidth w) (h : Head) (g : Nat → Nat) :
    OneReg x d w (where' x h w g) (vMap x h d w g) := oneReg_vOut hw _

/-! ### Issue (R366, R369) -/

section
variable {n lat : Nat} {h : Head} {i : Instr} {m : RMode} {chk : AC → Option W64} {f : AC → VRes} {s s1 : State}

theorem giveFree_va : GiveFree n .va h s := fun h => nomatch h

theorem vaRun_issues (ha : EngActs n .va h 1 s s1) (hc : chk (s.ac n) = none) :
    vaRun h i lat m chk f s = .next (engRetire n .va h .seq (s1.modAc n fun a => vaIssue h lat m s1.cycle (f a) a)) := by
  have hg : ∀ t : State, engGive n .va (Head.give h) 0 t = t := fun t => if_pos (.inr rfl)
  exact (engRunN_ok ha giveFree_va (by simp only [get_bindM, hc]; rfl) rfl).trans (congrArg Host.Outcome.next (hg _))

theorem vaRun_illegal {v : W64} (ha : EngActs n .va h 1 s s1) (hc : chk (s.ac n) = some v) :
    vaRun h i lat m chk f s = .next (engFault n .va 0x02 v 0 s) :=
  (engRunN_chk ha giveFree_va (by simp only [get_bindM, hc]; rfl)).trans (congrArg Host.Outcome.next (engStop_trap n .va i s))

/-- A VA instruction whose operands are legal issues its result. -/
theorem issues_of {good : VRes → Prop} (ha : EngActs n .va h 1 s s1) (hx : exec i s = vaRun h i lat m chk f s) (hc : chk (s.ac n) = none)
    (hgood : good (f (s1.ac n))) : Issues n h i lat m s s1 good := by
  refine ⟨f (s1.ac n), hgood, hx.trans ((vaRun_issues ha hc).trans ?_)⟩
  rw [State.modAc, State.modAc]

theorem sameRegs_src (hr : SameRegs n s s1) (a : Src) : (s.ac n).va.src a = (s1.ac n).va.src a := by
  obtain ⟨-, -, -, -, hx⟩ := hr
  obtain ⟨hx, hcb⟩ := hx .va
  have hx : (s1.ac n).va.x = (s.ac n).va.x := hx
  have hcb : (s1.ac n).va.cb = (s.ac n).va.cb := hcb
  cases a <;> simp only [Eng.src, Eng.xr, Eng.cbr, hx, hcb]

end

end Sys2Proof

/-! # Floating-point instructions of VA (R372 to R375) -/

namespace Sys2Proof

open Machine

/-! ### Floating-point instructions of VA (R372 to R375) -/

section
variable {n : Nat} {s s1 : State} {h : Head}

/-- An arithmetic instruction rounds the exact value of every element that it writes. -/
theorem vArith_oneReg (x : AC) (h : Head) (f : FOp) (d : BitVec 6) (g : Nat → FVal) :
    OneReg x d (if f.bf then 2 else 4) (where' x h (if f.bf then 2 else 4) fun j => rounded x h f.bf f.mode j (g j)) (vArith h f d g x) :=
  oneReg_vMap (elemWidth_prec f.bf) h _

theorem vectorExact_issues (ha : EngActs n .va h 1 s s1) {i : Instr} {bf : Bool} {m : RMode} {lat : Nat} {d : BitVec 6} {f : Nat → FVal}
    (hi : vectorExact (s1.ac n) i = some (h, bf, m, lat, d, f)) :
    Issues n h i lat m s s1 (OneReg (s1.ac n) d (if bf then 2 else 4)
      (where' (s1.ac n) h (if bf then 2 else 4) fun j => rounded (s1.ac n) h bf m j (f j))) := by
  cases i
  case vadd | vsub | vmul | vfma | vfms =>
    cases hi
    apply issues_of ha
    · dsimp only [exec]; rfl
    · rfl
    · exact vArith_oneReg _ _ ⟨_, _⟩ _ _
  case vmin | vmax | vabs | vneg =>
    cases hi
    apply issues_of ha
    · dsimp only [exec]; rfl
    · rfl
    · exact vArith_oneReg _ _ ⟨_, _⟩ _ _
  all_goals exact nomatch hi

/-- A bit of a mask result is written with its element, and holds the test of that element (R373). -/
theorem vMaskRes_bits (x : AC) (h : Head) (m : BitVec 3) {w i k : Nat} (hw : w = 4 ∨ w = 2) (g : Nat → Bool) (hi : i < 1024 / w) (hk : k < w / 2) :
    (vMaskRes x h m w g).wmask.testBit (w * i / 2 + k) = written x h w i
      ∧ (written x h w i = true → ((vMaskRes x h m w g).data.getD 0 0).testBit (w * i / 2 + k) = g i) := by
  have hew : ElemWidth w := by obtain rfl | rfl := hw <;> simp [ElemWidth]
  have hb : k < (w + 1) / 2 := by omega
  have hone : w ≠ 1 := by omega
  refine ⟨?_, fun hl => ?_⟩
  · show (vWrites w ((elemsOf w).map _)).testBit _ = _
    rw [vWrites_testBit hew _ hi hb, if_neg hone, ← live_eq]
    cases x.live h w i <;> rfl
  · show (vWrites w (((elemsOf w).map _).map _)).testBit _ = _
    rw [List.map_map, vWrites_testBit hew _ hi hb, if_neg hone]
    simp only [Function.comp, live_eq, hl, if_true]
    cases g i <;> rfl

theorem vcmp_issues (ha : EngActs n .va h 1 s s1) (bf : Bool) (c : FCond) (m : BitVec 3) (a b : Src) :
    Issues n h (.vcmp h bf c m a b) 1 .rne s s1 fun r => r.kind = 2 ∧ r.dest = m.toNat ∧ r.dnf = 0 ∧ r.dcl = 0
      ∧ ∀ i, i < 1024 / (if bf then 2 else 4) → ∀ k, k < (if bf then 2 else 4) / 2 →
        r.wmask.testBit ((if bf then 2 else 4) * i / 2 + k) = written (s1.ac n) h (if bf then 2 else 4) i
          ∧ (written (s1.ac n) h (if bf then 2 else 4) i = true →
            (r.data.getD 0 0).testBit ((if bf then 2 else 4) * i / 2 + k) = fcond c ((s1.ac n).vfsrc bf a i) ((s1.ac n).vfsrc bf b i)) := by
  have hw : (if bf then 2 else 4) = 4 ∨ (if bf then 2 else 4) = 2 := by cases bf <;> simp
  apply issues_of ha
  · dsimp only [exec]; rfl
  · rfl
  · exact ⟨rfl, rfl, rfl, rfl, fun _ hi _ hk => vMaskRes_bits _ _ _ hw _ hi hk⟩

end

/-! ### VCVT (R374) -/

/-- The formats that VCVT converts have elements of 1, 2 or 4 bytes. -/
theorem cvtFmt_width {c : BitVec 8} {f : NumFmt} (hf : cvtFmt c = some f) : ElemWidth f.esize := by
  have hall : ∀ c : BitVec 8, ∀ f ∈ cvtFmt c, f.esize = 4 ∨ f.esize = 2 ∨ f.esize = 1 := by decide +kernel
  exact hall c f hf

/-- The source element of a destination element, by its row and column (R374). -/
theorem cvtFrom_eq {ws wd part : Nat} (hws : ElemWidth ws) (hwd : ElemWidth wd) (hpart : part < Max.max ws wd / Min.min ws wd) (i : Nat) :
    cvtFrom ws wd part i = if wd < ws then (if part * (64 / ws) ≤ i % (64 / wd) ∧ i % (64 / wd) < (part + 1) * (64 / ws)
        then some (i / (64 / wd) * (64 / ws) + (i % (64 / wd) - part * (64 / ws))) else none)
      else some (i / (64 / wd) * (64 / ws) + part * (64 / wd) + i % (64 / wd)) := by
  unfold cvtFrom
  rcases lt_trichotomy wd ws with hlt | rfl | hlt
  · simp only [if_pos hlt, Nat.succ_mul]
  · have hp : part = 0 := by
      rw [max_self, min_self, Nat.div_self (by obtain rfl | rfl | rfl := hwd <;> decide)] at hpart
      omega
    have hdm := Nat.div_add_mod i (64 / wd)
    simp only [lt_irrefl, if_false, hp, Nat.zero_mul, Nat.add_zero]
    rw [Nat.mul_comm, hdm]
  · simp only [if_neg (Nat.lt_asymm hlt), if_pos hlt]

theorem vcvt_issues {n : Nat} {s s1 : State} {h : Head} (ha : EngActs n .va h 1 s s1) (md : RMode) (d a : BitVec 6) {src dst : BitVec 8}
    {part : BitVec 2} (sat : Bool) {f g : NumFmt} (hf : cvtFmt src = some f) (hg : cvtFmt dst = some g)
    (hpart : part.toNat < Max.max f.esize g.esize / Min.min f.esize g.esize) :
    Issues n h (.vcvt h md d a src dst part sat) 2 md s s1 (OneReg (s1.ac n) d g.esize fun i => match cvtFrom f.esize g.esize part.toNat i with
      | some j => if written (s1.ac n) h g.esize i
        then some (cvtElem f g md ((s1.ac n).vHash md g.esize i) sat (Head.flush h) (elemAt ((s1.ac n).vreg a) f.esize j)) else none
      | none => none) := by
  have hok : cvtOk src dst part = true := by simp only [cvtOk, hf, hg, decide_eq_true_eq]; exact hpart
  apply issues_of ha
  · dsimp only [exec]; rfl
  · exact if_pos hok
  · simp only [hf, hg, vElem_eq]
    exact oneReg_vOut (cvtFmt_width hg) _

/-- Settles O38: every instruction issues one result, whose elements are those of its rule. -/
theorem vectorFloat : Obligations.VectorFloat := by
  intro n s s1 h ha _
  refine ⟨fun i bf m lat d f hi => vectorExact_issues ha hi, vcmp_issues ha, fun w16 d a b m => ?_,
    fun md d a src dst part sat f g hf hg hpart => ?_, fun f fn d a => ?_⟩
  · apply issues_of ha
    · dsimp only [exec]; rfl
    · rfl
    · exact oneReg_vMap (elemWidth_prec w16) h _
  · have hfrom := cvtFrom_eq (cvtFmt_width hf) (cvtFmt_width hg) hpart
    have hx := vcvt_issues ha md d a sat hf hg hpart
    simp only [hfrom] at hx
    exact hx
  · apply issues_of ha
    · dsimp only [exec]; rfl
    · rfl
    · exact oneReg_vMap (elemWidth_prec f.bf) h _

end Sys2Proof

/-! # Data movement and integers of VA (R380, R381) -/

namespace Sys2Proof

open Machine

/-! ### Integer elements (R365, R381) -/

theorem sInt_eq {w : Nat} (hw : 0 < w) (v : Nat) : sInt w v = (BitVec.ofNat (8 * w) v).toInt := by
  have hpow : 2 ^ (8 * w) = 2 * 2 ^ (8 * w - 1) := by rw [← Nat.pow_succ']; congr 1; omega
  rw [BitVec.toInt_eq_toNat_cond, BitVec.toNat_ofNat]
  unfold sInt
  split <;> split <;> omega

theorem sInt_visrc (x : AC) {w : Nat} (hw : 0 < w) (a : Src) (i : Nat) : sInt w (x.visrc w a i) = signedAt x w a i := sInt_eq hw _

theorem wrapInt_eq (w : Nat) (v : Int) : wrapInt w v = low w v := by
  unfold wrapInt low
  rw [Nat.cast_pow]
  rfl

theorem satW_eq (w : Nat) (v : Int) : satW w v = clamp w v := by
  unfold satW clamp satInt
  have : (0 : Int) < 2 ^ (8 * w - 1) := by positivity
  push_cast
  split
  · omega
  · split <;> omega

theorem visrc_lt (x : AC) (w : Nat) (a : Src) (i : Nat) : x.visrc w a i < 2 ^ (8 * w) := by
  cases a
  case r n =>
    show vElem (x.vreg n) w i < _
    rw [vElem_eq]
    exact Nat.mod_lt _ (Nat.two_pow_pos _)
  all_goals exact Nat.mod_lt _ (Nat.two_pow_pos _)

theorem andn_eq {k : Nat} (p q : BitVec k) : p &&& ~~~q = p ^^^ (p &&& q) := by
  apply BitVec.eq_of_getLsbD_eq
  intro i hi
  simp only [BitVec.getLsbD_and, BitVec.getLsbD_not, BitVec.getLsbD_xor, hi, decide_true, Bool.true_and]
  cases p.getLsbD i <;> cases q.getLsbD i <;> rfl

theorem logBits_eq (f : LogF) {k x y : Nat} (hx : x < 2 ^ k) (hy : y < 2 ^ k) : logBits f x y =
    (match f with
      | .and => BitVec.ofNat k x &&& BitVec.ofNat k y
      | .or => BitVec.ofNat k x ||| BitVec.ofNat k y
      | .xor => BitVec.ofNat k x ^^^ BitVec.ofNat k y
      | .andn => BitVec.ofNat k x &&& ~~~BitVec.ofNat k y).toNat := by
  cases f <;>
    simp only [logBits, andn_eq, BitVec.toNat_and, BitVec.toNat_or, BitVec.toNat_xor, BitVec.toNat_ofNat, Nat.mod_eq_of_lt hx, Nat.mod_eq_of_lt hy]

theorem bytes_width (w : IWid) : ElemWidth (IWid.bytes w) := by cases w <;> simp [ElemWidth, IWid.bytes]

theorem bytes_pos (w : IWid) : 0 < IWid.bytes w := by cases w <;> decide

/-- An integer instruction writes the low bits of its function of the signed elements, saturated first where it says so (R381). -/
theorem vInt_oneReg (x : AC) (h : Head) (wd : IWid) (sat : Bool) (d : BitVec 6) (a b : Src) (g : Int → Int → Int) :
    OneReg x d (IWid.bytes wd) (where' x h (IWid.bytes wd) fun i =>
      low (IWid.bytes wd) (if sat then clamp (IWid.bytes wd) (g (signedAt x (IWid.bytes wd) a i) (signedAt x (IWid.bytes wd) b i))
        else g (signedAt x (IWid.bytes wd) a i) (signedAt x (IWid.bytes wd) b i))) (vInt h wd sat d a b g x) := by
  unfold vInt
  simp only [sInt_visrc x (bytes_pos wd), wrapInt_eq, satW_eq]
  exact oneReg_vMap (bytes_width wd) h _

/-! ### The instructions (R365, R380, R381) -/

section
variable {n : Nat} {s s1 : State} {h : Head}

theorem vperm_issues (ha : EngActs n .va h 1 s s1) (all : Bool) (d a b : BitVec 6) :
    Issues n h (.vperm h all d a b) 1 .rne s s1 (OneReg (s1.ac n) d 4 (where' (s1.ac n) h 4 fun i =>
      let k := (BitVec.ofNat 32 (elemAt ((s1.ac n).vreg b) 4 i)).toInt
      if 0 ≤ k ∧ k < (if all then 256 else 16) then elemAt ((s1.ac n).vreg a) 4 ((if all then 0 else i / 16 * 16) + k.toNat) else 0)) := by
  apply issues_of ha
  · dsimp only [exec]; rfl
  · rfl
  · simp only [sInt_eq (w := 4) (by decide), vElem_eq]
    cases all <;> exact oneReg_vMap (.inl rfl) h _

/-- The element that VBCAST takes for element i: one, that of a row in its column, or that of a column in its row (R380). -/
def bcastFrom (k : BcK) (cols v i : Nat) : Nat :=
  match k with
  | .elem => v / 32 * cols + v % 32
  | .row => v % 16 * cols + i % cols
  | .col => i / cols * cols + v % 32

theorem vbcast_issues (ha : EngActs n .va h 1 s s1) (hr : SameRegs n s s1) (k : BcK) (w16 : Bool) (d a : BitVec 6) (b : Src)
    (hv : ((s1.ac n).va.src b).toNat < 512) (hk : k = .row ∨ ((s1.ac n).va.src b).toNat % 32 < 64 / (if w16 then 2 else 4)) :
    Issues n h (.vbcast h k w16 d a b) 1 .rne s s1 (OneReg (s1.ac n) d (if w16 then 2 else 4) (where' (s1.ac n) h (if w16 then 2 else 4) fun i =>
      elemAt ((s1.ac n).vreg a) (if w16 then 2 else 4) (bcastFrom k (64 / (if w16 then 2 else 4)) ((s1.ac n).va.src b).toNat i))) := by
  rw [← sameRegs_src hr] at hv hk
  apply issues_of ha
  · dsimp only [exec, execVbcast]
  · exact if_pos ⟨hv, hk⟩
  · simp only [vElem_eq]
    cases k <;> exact oneReg_vMap (elemWidth_prec w16) h _

theorem vbcast_illegal (ha : EngActs n .va h 1 s s1) (hr : SameRegs n s s1) (k : BcK) (w16 : Bool) (d a : BitVec 6) (b : Src)
    (hv : 512 ≤ ((s1.ac n).va.src b).toNat) : exec (.vbcast h k w16 d a b) s = .next (engFault n .va 0x02 ((s1.ac n).va.src b) 0 s) := by
  rw [← sameRegs_src hr] at hv ⊢
  dsimp only [exec, execVbcast]
  exact vaRun_illegal ha (if_neg fun hc => absurd hc.1 (Nat.not_lt.mpr hv))

theorem vmovX_issues (ha : EngActs n .va h 1 s s1) (hr : SameRegs n s s1) (d a : BitVec 6) (b : Src) (hv : ((s1.ac n).va.src b).toNat < 256) :
    Issues n h (.vmovX h d a b) 1 .rne s s1 fun r => r.kind = 3 ∧ r.dest = d.toNat ∧ r.dnf = 0 ∧ r.dcl = 0
      ∧ r.xval = BitVec.ofNat 64 (elemAt ((s1.ac n).vreg a) 4 ((s1.ac n).va.src b).toNat) := by
  rw [← sameRegs_src hr] at hv
  apply issues_of ha
  · dsimp only [exec]; rfl
  · exact if_pos hv
  · refine ⟨rfl, rfl, rfl, rfl, ?_⟩
    rw [← vElem_eq]

theorem vmovX_illegal (ha : EngActs n .va h 1 s s1) (hr : SameRegs n s s1) (d a : BitVec 6) (b : Src) (hv : 256 ≤ ((s1.ac n).va.src b).toNat) :
    exec (.vmovX h d a b) s = .next (engFault n .va 0x02 ((s1.ac n).va.src b) 0 s) := by
  rw [← sameRegs_src hr] at hv ⊢
  dsimp only [exec]
  exact vaRun_illegal ha (if_neg (Nat.not_lt.mpr hv))

/-- An immediate of any kind stands in every element that is written (R380). -/
theorem vimm_issues (ha : EngActs n .va h 1 s s1) (d : BitVec 6) (a : Src) :
    Issues n h (.vimm h .f32 d a) 1 .rne s s1 (OneReg (s1.ac n) d 4 (where' (s1.ac n) h 4 fun _ =>
        (narrow fp32 .rne 0 false (Head.flush h) ((s1.ac n).va.fsrc a)).1))
      ∧ Issues n h (.vimm h .bf16 d a) 1 .rne s s1 (OneReg (s1.ac n) d 2 (where' (s1.ac n) h 2 fun _ =>
        (narrow bf16 .rne 0 false (Head.flush h) ((s1.ac n).va.fsrc a)).1))
      ∧ Issues n h (.vimm h .s32 d a) 1 .rne s s1 (OneReg (s1.ac n) d 4 (where' (s1.ac n) h 4 fun _ => ((s1.ac n).va.src a).toNat))
      ∧ Issues n h (.vimm h .s16 d a) 1 .rne s s1 (OneReg (s1.ac n) d 2 (where' (s1.ac n) h 2 fun _ => ((s1.ac n).va.src a).toNat)) := by
  have hx : ∀ (k : ImmK) (good : VRes → Prop), good (let (w, v) := match k with
        | .f32 => (4, (narrow fp32 .rne 0 false (Head.flush h) ((s1.ac n).va.fsrc a)).1)
        | .s32 => (4, ((s1.ac n).va.src a).toNat)
        | .bf16 => (2, (narrow bf16 .rne 0 false (Head.flush h) ((s1.ac n).va.fsrc a)).1)
        | .s16 => (2, ((s1.ac n).va.src a).toNat)
      vMap (s1.ac n) h d w fun _ => v) → Issues n h (.vimm h k d a) 1 .rne s s1 good := by
    intro k good hg
    apply issues_of ha
    · dsimp only [exec]; rfl
    · rfl
    · exact hg
  exact ⟨hx .f32 _ (oneReg_vMap (.inl rfl) h _), hx .bf16 _ (oneReg_vMap (.inr (.inl rfl)) h _), hx .s32 _ (oneReg_vMap (.inl rfl) h _),
    hx .s16 _ (oneReg_vMap (.inr (.inl rfl)) h _)⟩

theorem vish_issues (ha : EngActs n .va h 1 s s1) (wd : IWid) (d : BitVec 6) (a b : Src) :
    Issues n h (.vish h .shl wd d a b) 1 .rne s s1 (OneReg (s1.ac n) d (IWid.bytes wd) (where' (s1.ac n) h (IWid.bytes wd) fun i =>
        (s1.ac n).visrc (IWid.bytes wd) a i * 2 ^ ((s1.ac n).visrc (IWid.bytes wd) b i % (8 * IWid.bytes wd))))
      ∧ Issues n h (.vish h .shr wd d a b) 1 .rne s s1 (OneReg (s1.ac n) d (IWid.bytes wd) (where' (s1.ac n) h (IWid.bytes wd) fun i =>
        (s1.ac n).visrc (IWid.bytes wd) a i / 2 ^ ((s1.ac n).visrc (IWid.bytes wd) b i % (8 * IWid.bytes wd))))
      ∧ Issues n h (.vish h .sha wd d a b) 1 .rne s s1 (OneReg (s1.ac n) d (IWid.bytes wd) (where' (s1.ac n) h (IWid.bytes wd) fun i =>
        low (IWid.bytes wd) (signedAt (s1.ac n) (IWid.bytes wd) a i / 2 ^ ((s1.ac n).visrc (IWid.bytes wd) b i % (8 * IWid.bytes wd))))) := by
  refine ⟨?_, ?_, ?_⟩ <;> apply issues_of ha
  case refine_1.hx | refine_2.hx | refine_3.hx => dsimp only [exec]; rfl
  case refine_1.hc | refine_2.hc | refine_3.hc => rfl
  case refine_1.hgood | refine_2.hgood => exact oneReg_vMap (bytes_width wd) h _
  case refine_3.hgood =>
    simp only [sInt_visrc _ (bytes_pos wd), wrapInt_eq, Nat.cast_pow, Nat.cast_ofNat]
    exact oneReg_vMap (bytes_width wd) h _

end

/-- Settles O39: every instruction issues one result, whose elements are those of its rule. -/
theorem vectorInteger : Obligations.VectorInteger := by
  intro n s s1 h ha hr
  refine ⟨vperm_issues ha, fun k w16 d a b => ⟨vbcast_issues ha hr k w16 d a b, vbcast_illegal ha hr k w16 d a b⟩, fun d a => ?_,
    fun d a b => ⟨vmovX_issues ha hr d a b, vmovX_illegal ha hr d a b⟩, fun d a b => ?_, vimm_issues ha, fun wd d a b => ?_, fun f d a b => ?_⟩
  · apply issues_of ha
    · dsimp only [exec]; rfl
    · rfl
    · simp only [vElem_eq]
      exact oneReg_vMap (.inr (.inl rfl)) h _
  · apply issues_of ha
    · dsimp only [exec]; rfl
    · rfl
    · exact oneReg_vMap (.inl rfl) h _
  · intro w
    have hw : w = IWid.bytes wd := by cases wd <;> rfl
    clear_value w
    subst hw
    refine ⟨fun sat => ⟨?_, ?_⟩, ?_, vish_issues ha wd d a b⟩ <;> apply issues_of ha
    case refine_1.hx | refine_2.hx | refine_3.hx => dsimp only [exec]; rfl
    case refine_1.hc | refine_2.hc | refine_3.hc => rfl
    case refine_1.hgood | refine_2.hgood | refine_3.hgood => exact vInt_oneReg _ h wd _ d a b _
  · intro w
    have hw : w = vilogWidth a b := by cases a <;> cases b <;> rfl
    have hew : ElemWidth (vilogWidth a b) := by cases a <;> cases b <;> simp [ElemWidth, vilogWidth]
    clear_value w
    subst hw
    apply issues_of ha
    · dsimp only [exec, execVilog]
    · rfl
    · simp only [logBits_eq f (visrc_lt _ _ _ _) (visrc_lt _ _ _ _)]
      exact oneReg_vMap hew h _

end Sys2Proof

/-! # Reductions and scans of VA (R376, R377) -/

namespace Sys2Proof

open Machine

/-! ### Elements chosen by index (R376 to R379) -/

/-- The value that a list of indices and values gives an index. -/
def entryOf {α : Type} (l : List (Nat × α)) (i : Nat) : Option α := (l.find? fun p => p.1 == i).map (·.2)

section
variable {α : Type}

theorem entryOf_cons (k : Nat) (v : α) (l : List (Nat × α)) (i : Nat) : entryOf ((k, v) :: l) i = if k = i then some v else entryOf l i := by
  unfold entryOf
  by_cases h : k = i <;> simp [h]

theorem entryOf_of_not_mem {l : List (Nat × α)} {i : Nat} (h : i ∉ l.map (·.1)) : entryOf l i = none := by
  unfold entryOf
  rw [Option.map_eq_none_iff, List.find?_eq_none]
  intro p hp hi
  exact h (List.mem_map.mpr ⟨p, hp, eq_of_beq hi⟩)

theorem entryOf_of_mem {l : List (Nat × α)} (hl : (l.map (·.1)).Nodup) {i : Nat} {v : α} (h : (i, v) ∈ l) : entryOf l i = some v := by
  induction l with
  | nil => simp at h
  | cons p l ih =>
    obtain ⟨k, u⟩ := p
    rw [List.map_cons, List.nodup_cons] at hl
    rw [entryOf_cons]
    obtain h | h := List.mem_cons.mp h
    · cases h; rw [if_pos rfl]
    · rw [if_neg (fun hk : k = i => hl.1 (hk ▸ List.mem_map.mpr ⟨_, h, rfl⟩)), ih hl.2 h]

theorem isSome_entryOf {l : List (Nat × α)} (i : Nat) : (entryOf l i).isSome = decide (i ∈ l.map (·.1)) := by
  by_cases h : i ∈ l.map (·.1)
  · obtain ⟨p, hp, rfl⟩ := List.mem_map.mp h
    unfold entryOf
    rw [Option.isSome_map, decide_eq_true h, List.find?_isSome]
    exact ⟨p, hp, beq_self_eq_true _⟩
  · rw [entryOf_of_not_mem h, decide_eq_false h]
    rfl

theorem entryOf_map {β : Type} (f : α → β) (l : List (Nat × α)) (i : Nat) : entryOf (l.map fun o => (o.1, f o.2)) i = (entryOf l i).map f := by
  induction l with
  | nil => rfl
  | cons p l ih =>
    obtain ⟨k, v⟩ := p
    rw [List.map_cons, entryOf_cons, entryOf_cons, ih]
    split <;> rfl

theorem smFind_foldl_smSet (l : List (Nat × α)) (hl : (l.map (·.1)).Nodup) (m : SMap α) (i : Nat) :
    smFind (l.foldl (fun m x => smSet m x.1 x.2) m) i = (entryOf l i).or (smFind m i) := by
  induction l generalizing m with
  | nil => rfl
  | cons p l ih =>
    obtain ⟨k, v⟩ := p
    rw [List.map_cons, List.nodup_cons] at hl
    rw [List.foldl_cons, ih hl.2, smFind_smSet, entryOf_cons]
    by_cases hk : k = i
    · subst hk
      rw [entryOf_of_not_mem hl.1, if_pos rfl, if_pos rfl]
      rfl
    · rw [if_neg hk, if_neg (Ne.symm hk)]

end

/-- The elements of a result that chooses each index once. -/
theorem vPut_eq (w : Nat) {l : List (Nat × Nat)} (hl : (l.map (·.1)).Nodup) : vPut w l = (elemsOf w).map (entryOf l) := by
  unfold vPut
  refine List.map_congr_left fun i _ => (smFind_foldl_smSet l hl [] i).trans ?_
  rw [smFind_nil, Option.or_none]

/-! ### The groups of a reduction (R376) -/

theorem vGroups_eq : vGroups = groupsOf := by
  funext w d
  cases d <;> rfl

/-- Rows of a grid of indices. -/
def grid (a b : Nat) (f : Nat → Nat → Nat) : List (List Nat) := (List.range a).map fun i => (List.range b).map (f i)

theorem grid_flatten (a b : Nat) (f : Nat → Nat → Nat) : (grid a b f).flatten = (List.range a ×ˢ List.range b).map fun p => f p.1 p.2 := by
  show ((List.range a).map _).flatten = ((List.range a).flatMap fun i => (List.range b).map (Prod.mk i)).map _
  rw [← List.flatMap_def, List.map_flatMap]
  refine List.flatMap_congr fun i _ => ?_
  rw [List.map_map]
  rfl

/-- A number has one quotient and one remainder. -/
theorem mul_add_inj {k q r q' r' : Nat} (hr : r < k) (hr' : r' < k) (he : q * k + r = q' * k + r') : q = q' ∧ r = r' := by
  have hk : 0 < k := Nat.zero_lt_of_lt hr
  have hq : ∀ {a b : Nat}, b < k → (a * k + b) / k = a ∧ (a * k + b) % k = b := fun {a b} hb => by
    rw [Nat.add_comm, Nat.add_mul_div_right _ _ hk, Nat.div_eq_of_lt hb, Nat.add_mul_mod_self_right, Nat.mod_eq_of_lt hb, Nat.zero_add]
    exact ⟨rfl, rfl⟩
  exact ⟨(hq hr).1.symm.trans ((congrArg (· / k) he).trans (hq hr').1), (hq hr).2.symm.trans ((congrArg (· % k) he).trans (hq hr').2)⟩

theorem nodup_grid {a b : Nat} {f : Nat → Nat → Nat} (hf : ∀ i j i' j', j < b → j' < b → i < a → i' < a → f i j = f i' j' → i = i' ∧ j = j') :
    (grid a b f).flatten.Nodup := by
  rw [grid_flatten]
  refine List.Nodup.map_on ?_ (List.nodup_range.product List.nodup_range)
  rintro ⟨i, j⟩ hp ⟨i', j'⟩ hp' he
  obtain ⟨hi, hj⟩ := List.pair_mem_product.mp hp
  obtain ⟨hi', hj'⟩ := List.pair_mem_product.mp hp'
  rw [List.mem_range] at hi hj hi' hj'
  obtain ⟨rfl, rfl⟩ := hf i j i' j' hj hj' hi hi' he
  rfl

theorem groups_nodup (w : Nat) (d : Dir) : (groupsOf w d).flatten.Nodup := by
  cases d
  case row => exact nodup_grid fun _ _ _ _ hj hj' _ _ he => mul_add_inj hj hj' he
  case col => exact nodup_grid fun _ _ _ _ _ _ hi hi' he => (mul_add_inj hi hi' he).symm
  case all => exact (List.flatten_singleton ..).symm ▸ List.nodup_range

theorem mem_groups (bf : Bool) (d : Dir) {i : Nat} (hi : i < 1024 / if bf then 2 else 4) : i ∈ (groupsOf (if bf then 2 else 4) d).flatten := by
  have hn : i / (64 / if bf then 2 else 4) < 16 ∧ i % (64 / if bf then 2 else 4) < 64 / (if bf then 2 else 4)
      ∧ i / (64 / if bf then 2 else 4) * (64 / if bf then 2 else 4) + i % (64 / if bf then 2 else 4) = i := by
    cases bf <;> simp only [Bool.false_eq_true, if_false, if_true] at hi ⊢ <;> omega
  obtain ⟨hr, hc, he⟩ := hn
  cases d
  case row =>
    refine List.mem_flatten.mpr ⟨_, List.mem_map.mpr ⟨_, List.mem_range.mpr hr, rfl⟩, List.mem_map.mpr ⟨_, List.mem_range.mpr hc, he⟩⟩
  case col =>
    refine List.mem_flatten.mpr ⟨_, List.mem_map.mpr ⟨_, List.mem_range.mpr hc, rfl⟩, List.mem_map.mpr ⟨_, List.mem_range.mpr hr, he⟩⟩
  case all =>
    refine List.mem_flatten.mpr ⟨_, List.mem_singleton.mpr rfl, List.mem_range.mpr ?_⟩
    cases bf <;> simp only [Bool.false_eq_true, if_false, if_true] at hi ⊢ <;> omega

theorem groups_ne_nil (bf : Bool) (d : Dir) : ∀ l ∈ groupsOf (if bf then 2 else 4) d, l ≠ [] := by
  cases d <;> cases bf <;> simp [groupsOf, List.mem_map]

/-- Disjoint groups have different first elements. -/
theorem heads_nodup {g : List (List Nat)} (hg : g.flatten.Nodup) (hne : ∀ l ∈ g, l ≠ []) : (g.map fun l => l.headD 0).Nodup := by
  have hhead : ∀ {l : List Nat}, l ≠ [] → l.headD 0 ∈ l := fun {l} h => by cases l <;> simp_all
  induction g with
  | nil => exact List.nodup_nil
  | cons l g ih =>
    rw [List.flatten_cons, List.nodup_append] at hg
    obtain ⟨-, hg, hdis⟩ := hg
    rw [List.map_cons, List.nodup_cons]
    refine ⟨fun hm => ?_, ih hg fun l hl => hne l (List.mem_cons_of_mem _ hl)⟩
    obtain ⟨k, hk, he⟩ := List.mem_map.mp hm
    exact hdis _ (hhead (hne l List.mem_cons_self)) _ (List.mem_flatten.mpr ⟨k, hk, hhead (hne k (List.mem_cons_of_mem _ hk))⟩) he.symm

/-- One result for each group, at its first element (R376). -/
theorem vPut_heads (w : Nat) {g : List (List Nat)} (hg : g.flatten.Nodup) (hne : ∀ l ∈ g, l ≠ []) (keep : List Nat → Bool) {val : List Nat → Nat}
    {at' : Nat → List Nat → Nat} (hval : ∀ l, val l = at' (l.headD 0) l) :
    vPut w ((g.filter keep).map fun l => (l.headD 0, val l))
      = (elemsOf w).map fun i => ((g.filter keep).find? fun l => l.headD 0 == i).map (at' i) := by
  have hn : (((g.filter keep).map fun l => (l.headD 0, val l)).map (·.1)).Nodup := by
    rw [List.map_map]
    exact (heads_nodup hg hne).sublist (List.filter_sublist.map _)
  rw [vPut_eq w hn]
  refine List.map_congr_left fun i _ => ?_
  unfold entryOf
  rw [List.find?_map, Option.map_map]
  refine Option.map_congr fun l hl => ?_
  have hi : l.headD 0 = i := eq_of_beq (List.find?_some (p := fun l : List Nat => l.headD 0 == i) hl)
  show val l = at' i l
  rw [hval, hi]

/-! ### VRED (R376, R128, R217) -/

section
variable {n : Nat} {s s1 : State} {h : Head}

theorem vred_issues (ha : EngActs n .va h 1 s s1) (f : FOp) (dir : Dir) (d a b : BitVec 6) (op : RedOp) (hop : op ≠ .maxsum) :
    Issues n h (.vred h f op dir d a b) 6 f.mode s s1 (OneReg (s1.ac n) d (if f.bf then 2 else 4) fun i =>
      (((groupsOf (if f.bf then 2 else 4) dir).filter fun l => (s1.ac n).inShape (if f.bf then 2 else 4) (l.headD 0)).find?
        fun l => l.headD 0 == i).map fun l =>
          (pairTree (redBits (if f.bf then bf16 else fp32) op f.mode (rounded (s1.ac n) h f.bf f.mode i)) 10
            (l.map fun j => if written (s1.ac n) h (if f.bf then 2 else 4) j then some (elemAt ((s1.ac n).vreg a) (if f.bf then 2 else 4) j)
              else none)).getD (redEmpty (if f.bf then bf16 else fp32) op)) := by
  apply issues_of ha
  · dsimp only [exec]; rfl
  · rfl
  · have hres := oneReg_vOut (x := s1.ac n) (d := d) (elemWidth_prec f.bf)
    cases op
    case maxsum => exact absurd rfl hop
    all_goals
      simp only [vredRes, vElem_eq, vGroups_eq]
      refine (congrArg (OneReg _ _ _ _) (congrArg (vOut _ _) ?_)).mpr (hres _)
      exact vPut_heads _ (groups_nodup _ dir) (groups_ne_nil f.bf dir) _ fun _ => rfl

theorem vredPair_issues (ha : EngActs n .va h 1 s s1) (f : FOp) (dir : Dir) (d a b : BitVec 6) :
    Issues n h (.vred h f .maxsum dir d a b) 6 f.mode s s1 (TwoRegs (s1.ac n) d (if f.bf then 2 else 4)
      (fun i => (((((groupsOf (if f.bf then 2 else 4) dir).filter fun l => (s1.ac n).inShape (if f.bf then 2 else 4) (l.headD 0)).find?
        fun l => l.headD 0 == i).map fun l =>
          (pairTree (redPair (if f.bf then bf16 else fp32) f.mode (rounded (s1.ac n) h f.bf f.mode i)) 10
            (l.map fun j => if written (s1.ac n) h (if f.bf then 2 else 4) j then some (elemAt ((s1.ac n).vreg a) (if f.bf then 2 else 4) j,
              elemAt ((s1.ac n).vreg b) (if f.bf then 2 else 4) j) else none)).getD ((if f.bf then bf16 else fp32).infinity true, 0)).map (·.1)))
      (fun i => (((((groupsOf (if f.bf then 2 else 4) dir).filter fun l => (s1.ac n).inShape (if f.bf then 2 else 4) (l.headD 0)).find?
        fun l => l.headD 0 == i).map fun l =>
          (pairTree (redPair (if f.bf then bf16 else fp32) f.mode (rounded (s1.ac n) h f.bf f.mode i)) 10
            (l.map fun j => if written (s1.ac n) h (if f.bf then 2 else 4) j then some (elemAt ((s1.ac n).vreg a) (if f.bf then 2 else 4) j,
              elemAt ((s1.ac n).vreg b) (if f.bf then 2 else 4) j) else none)).getD ((if f.bf then bf16 else fp32).infinity true, 0)).map (·.2)))) := by
  apply issues_of ha
  · dsimp only [exec]; rfl
  · rfl
  · have hres := twoRegs_vPair (x := s1.ac n) (d := d) (elemWidth_prec f.bf)
    simp only [vredRes, vElem_eq, vGroups_eq, List.map_map, Option.map_map]
    refine (congrArg (TwoRegs _ _ _ _ _) (congrArg₂ (vPair _ _) ?_ ?_)).mpr (hres _ _)
    all_goals exact vPut_heads _ (groups_nodup _ dir) (groups_ne_nil f.bf dir) _ fun _ => rfl

end

/-! ### VSCAN (R377) -/

/-- The prefixes of a list of elements, one after another, and the last of them. -/
def scanOf (comb : Nat → Nat → Nat → Nat) (elem : Nat → Nat) (l : List Nat) : List (Nat × Nat) × Option Nat :=
  l.foldl (fun acc i => let v := match acc.2 with | some q => comb i q (elem i) | none => elem i; (acc.1 ++ [(i, v)], some v)) ([], none)

section
variable {comb : Nat → Nat → Nat → Nat} {elem : Nat → Nat}

theorem scanGroup_eq (live : Nat → Bool) (l : List Nat) : scanGroup comb elem live l = (scanOf comb elem (l.filter live)).1 := by
  unfold scanGroup scanOf
  exact congrArg Prod.fst List.foldl_filter.symm

theorem scanOf_snoc (l : List Nat) (i : Nat) : ∃ v, scanOf comb elem (l ++ [i]) = ((scanOf comb elem l).1 ++ [(i, v)], some v)
    ∧ v = (match (scanOf comb elem l).2 with | some q => comb i q (elem i) | none => elem i) := by
  unfold scanOf
  rw [List.foldl_append]
  exact ⟨_, rfl, rfl⟩

theorem scanOf_keys (l : List Nat) : (scanOf comb elem l).1.map (·.1) = l := by
  induction l using List.reverseRecOn with
  | nil => rfl
  | append_singleton l i ih =>
    obtain ⟨v, hv, -⟩ := scanOf_snoc (comb := comb) (elem := elem) l i
    rw [hv, List.map_append, ih]
    rfl

/-- What has been scanned stays. -/
theorem scanOf_keeps (l back : List Nat) {p : Nat × Nat} (hp : p ∈ (scanOf comb elem l).1) : p ∈ (scanOf comb elem (l ++ back)).1 := by
  induction back using List.reverseRecOn with
  | nil => rwa [List.append_nil]
  | append_singleton back i ih =>
    obtain ⟨v, hv, -⟩ := scanOf_snoc (comb := comb) (elem := elem) (l ++ back) i
    rw [← List.append_assoc, hv]
    exact List.mem_append_left _ ih

theorem scanOf_head (i : Nat) (back : List Nat) : (i, elem i) ∈ (scanOf comb elem (i :: back)).1 :=
  scanOf_keeps [i] back (List.mem_singleton.mpr rfl)

theorem scanOf_step (front : List Nat) (j i : Nat) (back : List Nat) : ∃ v, (j, v) ∈ (scanOf comb elem (front ++ j :: i :: back)).1
    ∧ (i, comb i v (elem i)) ∈ (scanOf comb elem (front ++ j :: i :: back)).1 := by
  obtain ⟨v, hv, -⟩ := scanOf_snoc (comb := comb) (elem := elem) front j
  obtain ⟨u, hu, huv⟩ := scanOf_snoc (comb := comb) (elem := elem) (front ++ [j]) i
  rw [hv] at hu huv
  have hl : front ++ j :: i :: back = front ++ [j] ++ [i] ++ back := by simp
  rw [hl]
  refine ⟨v, scanOf_keeps _ _ ?_, scanOf_keeps _ _ ?_⟩
  · rw [hu]
    simp
  · rw [hu]
    exact List.mem_append_right _ (List.mem_singleton.mpr (by rw [huv]))

/-- The scans of groups of different elements choose each of their live elements once. -/
theorem scan_keys (live : Nat → Bool) (g : List (List Nat)) : (g.flatMap (scanGroup comb elem live)).map (·.1) = g.flatten.filter live := by
  rw [List.map_flatMap, List.filter_flatten, List.flatMap_def]
  congr 1
  exact List.map_congr_left fun l _ => by rw [scanGroup_eq, scanOf_keys]

theorem entryOf_scan {live : Nat → Bool} {g : List (List Nat)} (hg : g.flatten.Nodup) {l : List Nat} (hl : l ∈ g) {i v : Nat}
    (h : (i, v) ∈ (scanOf comb elem (l.filter live)).1) : entryOf (g.flatMap (scanGroup comb elem live)) i = some v := by
  refine entryOf_of_mem ?_ (List.mem_flatMap.mpr ⟨l, hl, scanGroup_eq live l ▸ h⟩)
  rw [scan_keys]
  exact hg.filter _

end

theorem vscan_issues {n : Nat} {s s1 : State} {h : Head} (ha : EngActs n .va h 1 s s1) (f : FOp) (dir : Dir) (d a : BitVec 6) (op : RedOp) :
    ∃ p, Issues n h (.vscan h f op dir d a) 6 f.mode s s1 (OneReg (s1.ac n) d (if f.bf then 2 else 4) p)
      ∧ (∀ i, i < 1024 / (if f.bf then 2 else 4) → (p i).isSome = written (s1.ac n) h (if f.bf then 2 else 4) i)
      ∧ ∀ l ∈ groupsOf (if f.bf then 2 else 4) dir, ∀ i,
        (∀ rest, l.filter (written (s1.ac n) h (if f.bf then 2 else 4)) = i :: rest → p i = some (elemAt ((s1.ac n).vreg a) (if f.bf then 2 else 4) i))
        ∧ ∀ front j back, l.filter (written (s1.ac n) h (if f.bf then 2 else 4)) = front ++ j :: i :: back → ∃ v, p j = some v
          ∧ p i = some (redBits (if f.bf then bf16 else fp32) op f.mode (rounded (s1.ac n) h f.bf f.mode i) v
            (elemAt ((s1.ac n).vreg a) (if f.bf then 2 else 4) i)) := by
  have hgroups := groups_nodup (if f.bf then 2 else 4) dir
  refine ⟨entryOf ((groupsOf (if f.bf then 2 else 4) dir).flatMap
    (scanGroup (fun i => redBits (if f.bf then bf16 else fp32) op f.mode (rounded (s1.ac n) h f.bf f.mode i))
      (elemAt ((s1.ac n).vreg a) (if f.bf then 2 else 4)) (written (s1.ac n) h (if f.bf then 2 else 4)))), ?_, fun i hi => ?_, fun l hl i => ⟨?_, ?_⟩⟩
  · apply issues_of ha
    · dsimp only [exec]; rfl
    · rfl
    · refine (congrArg (OneReg _ _ _ _) (congrArg (vOut _ _) ?_)).mpr (oneReg_vOut (elemWidth_prec f.bf) _)
      simp only [vElem_eq, vGroups_eq]
      exact vPut_eq _ (by rw [scan_keys]; exact hgroups.filter _)
  · rw [isSome_entryOf, scan_keys]
    simp only [List.mem_filter, mem_groups f.bf dir hi, true_and, Bool.decide_eq_true]
  · intro rest he
    exact entryOf_scan hgroups hl (he ▸ scanOf_head i rest)
  · intro front j back he
    obtain ⟨v, hv, hi⟩ := scanOf_step (comb := fun i => redBits (if f.bf then bf16 else fp32) op f.mode (rounded (s1.ac n) h f.bf f.mode i))
      (elem := elemAt ((s1.ac n).vreg a) (if f.bf then 2 else 4)) front j i back
    exact ⟨v, entryOf_scan hgroups hl (he ▸ hv), entryOf_scan hgroups hl (he ▸ hi)⟩

end Sys2Proof

/-! # Sorts and segmented reductions of VA (R378, R379) -/

namespace Sys2Proof

open Machine

/-! ### Stable sorting (R378) -/

section
variable {α : Type} {lt : α → α → Bool} {R : α → α → Prop}

theorem insertBy_perm (x : α) (l : List α) : (insertBy lt x l).Perm (x :: l) := by
  induction l with
  | nil => exact .refl _
  | cons y r ih =>
    unfold insertBy
    split
    · exact .refl _
    · exact (ih.cons y).trans (.swap x y r)

/-- An insertion keeps an order in which the new entry follows what it does not precede. -/
theorem insertBy_pairwise (hlt : ∀ x y, lt x y = true → R x y) (htrans : ∀ x y z, lt x y = true → R y z → R x z) {x : α} {l : List α}
    (hl : l.Pairwise R) (hx : ∀ y ∈ l, lt x y = false → R y x) : (insertBy lt x l).Pairwise R := by
  induction l with
  | nil => exact List.pairwise_singleton _ _
  | cons y r ih =>
    obtain ⟨hy, hr⟩ := List.pairwise_cons.mp hl
    unfold insertBy
    split
    · next hxy =>
      refine List.pairwise_cons.mpr ⟨fun z hz => ?_, hl⟩
      obtain rfl | hz := List.mem_cons.mp hz
      · exact hlt _ _ hxy
      · exact htrans _ _ _ hxy (hy z hz)
    · next hxy =>
      refine List.pairwise_cons.mpr ⟨fun z hz => ?_, ih hr fun z hz => hx z (List.mem_cons_of_mem _ hz)⟩
      obtain rfl | hz := List.mem_cons.mp ((insertBy_perm x r).mem_iff.mp hz)
      · exact hx y List.mem_cons_self (Bool.eq_false_of_not_eq_true hxy)
      · exact hy z hz

theorem sortBy_perm (l : List α) : (sortBy lt l).Perm l := by
  induction l using List.reverseRecOn with
  | nil => exact .refl _
  | append_singleton l x ih =>
    unfold sortBy at ih ⊢
    rw [List.foldl_append]
    exact (insertBy_perm x _).trans ((ih.cons x).trans (List.perm_append_singleton x l).symm)

theorem sortBy_pairwise (hlt : ∀ x y, lt x y = true → R x y) (htrans : ∀ x y z, lt x y = true → R y z → R x z) {l : List α}
    (hl : l.Pairwise fun y x => lt x y = false → R y x) : (sortBy lt l).Pairwise R := by
  induction l using List.reverseRecOn with
  | nil => exact List.Pairwise.nil
  | append_singleton l x ih =>
    obtain ⟨hl, -, hx⟩ := List.pairwise_append.mp hl
    have hsort := ih hl
    have hmem : ∀ y ∈ sortBy lt l, y ∈ l := fun y hy => (sortBy_perm l).mem_iff.mp hy
    unfold sortBy at hsort hmem ⊢
    rw [List.foldl_append]
    exact insertBy_pairwise hlt htrans hsort fun y hy => hx y (hmem y hy) x (List.mem_singleton.mpr rfl)

end

/-- The order of two keys with their indices: by key, up or down, and then by index (R378). -/
def ahead (desc : Bool) (p q : Int × Nat) : Prop := (if desc then q.1 ≤ p.1 else p.1 ≤ q.1) ∧ (p.1 = q.1 → p.2 < q.2)

/-- The test by which VSORT orders keys. -/
def keyLt (desc : Bool) (p q : Int × Nat) : Bool := if desc then decide (q.1 < p.1) else decide (p.1 < q.1)

theorem ahead_of_keyLt {desc : Bool} (p q : Int × Nat) (h : keyLt desc p q = true) : ahead desc p q := by
  cases desc <;> simp only [keyLt, Bool.false_eq_true, if_false, if_true, decide_eq_true_eq, ahead] at h ⊢ <;> omega

theorem ahead_of_keyLt_ahead {desc : Bool} (p q r : Int × Nat) (h : keyLt desc p q = true) (hqr : ahead desc q r) : ahead desc p r := by
  cases desc <;> simp only [keyLt, Bool.false_eq_true, if_false, if_true, decide_eq_true_eq, ahead] at h hqr ⊢ <;> omega

theorem ahead_of_not_keyLt {desc : Bool} {p q : Int × Nat} (hi : p.2 < q.2) (h : keyLt desc q p = false) : ahead desc p q := by
  cases desc <;> simp only [keyLt, Bool.false_eq_true, if_false, if_true, decide_eq_false_iff_not, ahead] at h ⊢ <;> omega

/-! ### VSORT (R378) -/

/-- The elements of a group in the order that VSORT gives them: the present ones by their keys, and then the absent ones. -/
def sortedOf (key : Nat → Int) (desc : Bool) (live : Nat → Bool) (pos : List Nat) : List Nat :=
  (sortBy (keyLt desc) ((pos.filter live).map fun i => (key i, i))).map (·.2) ++ pos.filter fun i => !live i

section
variable {key : Nat → Int} {desc : Bool} {live : Nat → Bool} {pos : List Nat}

theorem sortedOf_perm : (sortedOf key desc live pos).Perm pos := by
  have hsort := (sortBy_perm (lt := keyLt desc) ((pos.filter live).map fun i => (key i, i))).map (·.2)
  rw [List.map_map, show ((·.2) ∘ fun i => (key i, i)) = id from rfl, List.map_id] at hsort
  exact (hsort.append_right _).trans (List.filter_append_perm live pos)

/-- What holds of two elements one of which stands before the other. -/
def InOrder (key : Nat → Int) (desc : Bool) (live : Nat → Bool) (i j : Nat) : Prop :=
  (live j = true → live i = true ∧ (if desc then key j ≤ key i else key i ≤ key j) ∧ (key i = key j → i < j))
    ∧ (live j = false → live i = true ∨ i < j)

theorem sortedOf_inOrder (hpos : pos.Pairwise (· < ·)) : (sortedOf key desc live pos).Pairwise (InOrder key desc live) := by
  have hsorted : (sortBy (keyLt desc) ((pos.filter live).map fun i => (key i, i))).Pairwise (ahead desc) := by
    refine sortBy_pairwise ahead_of_keyLt ahead_of_keyLt_ahead ?_
    rw [List.pairwise_map]
    exact (hpos.filter live).imp fun hij => ahead_of_not_keyLt hij
  have hmem : ∀ p ∈ sortBy (keyLt desc) ((pos.filter live).map fun i => (key i, i)), p.1 = key p.2 ∧ live p.2 = true := by
    intro p hp
    obtain ⟨i, hi, rfl⟩ := List.mem_map.mp ((sortBy_perm _).mem_iff.mp hp)
    exact ⟨rfl, (List.mem_filter.mp hi).2⟩
  refine List.pairwise_append.mpr ⟨?_, ?_, ?_⟩
  · rw [List.pairwise_map]
    refine hsorted.imp_of_mem fun {p q} hp hq hpq => ?_
    obtain ⟨hpk, hpl⟩ := hmem p hp
    obtain ⟨hqk, hql⟩ := hmem q hq
    obtain ⟨hk, ht⟩ := hpq
    rw [hpk, hqk] at hk ht
    exact ⟨fun _ => ⟨hpl, hk, ht⟩, fun _ => .inl hpl⟩
  · refine (hpos.filter _).imp_of_mem fun {i j} _ hj hij => ⟨fun hl => ?_, fun _ => .inr hij⟩
    have hdead := (List.mem_filter.mp hj).2
    rw [hl] at hdead
    exact absurd hdead (by decide)
  · intro i hi j hj
    obtain ⟨p, hp, rfl⟩ := List.mem_map.mp hi
    have hdead := (List.mem_filter.mp hj).2
    refine ⟨fun hl => ?_, fun _ => .inl (hmem p hp).2⟩
    rw [hl] at hdead
    exact absurd hdead (by decide)

end

/-- Indices paired with those whose elements they take, group by group. -/
def sortPairs (key : Nat → Int) (desc : Bool) (live shape : Nat → Bool) (g : List (List Nat)) : List (Nat × Nat) :=
  g.flatMap fun l => (l.filter shape).zip (sortedOf key desc live (l.filter shape))

section
variable {key : Nat → Int} {desc : Bool} {live shape : Nat → Bool} {g : List (List Nat)}

theorem sortPairs_keys : (sortPairs key desc live shape g).map (·.1) = g.flatten.filter shape := by
  unfold sortPairs
  rw [List.map_flatMap, List.filter_flatten, List.flatMap_def]
  congr 1
  exact List.map_congr_left fun l _ => List.map_fst_zip (le_of_eq sortedOf_perm.length_eq.symm)

theorem sortPairs_nodup (hg : g.flatten.Nodup) : ((sortPairs key desc live shape g).map (·.1)).Nodup := by
  rw [sortPairs_keys]
  exact hg.filter _

/-- The element that VSORT puts at an index of a group (R378). -/
def sortedAt (key : Nat → Int) (desc : Bool) (live shape : Nat → Bool) (g : List (List Nat)) (i : Nat) : Nat :=
  (entryOf (sortPairs key desc live shape g) i).getD 0

theorem sortedAt_map (hg : g.flatten.Nodup) {l : List Nat} (hl : l ∈ g) :
    (l.filter shape).map (sortedAt key desc live shape g) = sortedOf key desc live (l.filter shape) := by
  have hlen : (l.filter shape).length = (sortedOf key desc live (l.filter shape)).length := sortedOf_perm.length_eq.symm
  have hzip : ∀ p ∈ (l.filter shape).zip (sortedOf key desc live (l.filter shape)), sortedAt key desc live shape g p.1 = p.2 := fun p hp => by
    unfold sortedAt
    rw [entryOf_of_mem (sortPairs_nodup hg) (List.mem_flatMap.mpr ⟨l, hl, hp⟩)]
    rfl
  calc (l.filter shape).map (sortedAt key desc live shape g)
      = (((l.filter shape).zip (sortedOf key desc live (l.filter shape))).map (·.1)).map (sortedAt key desc live shape g) := by
        rw [List.map_fst_zip (le_of_eq hlen)]
    _ = ((l.filter shape).zip (sortedOf key desc live (l.filter shape))).map (·.2) := by
        rw [List.map_map]
        exact List.map_congr_left hzip
    _ = _ := List.map_snd_zip (le_of_eq hlen.symm)

theorem sortedAt_inOrder (hg : g.flatten.Nodup) {l : List Nat} (hl : l ∈ g) (hinc : l.Pairwise (· < ·)) {i j : Nat} {front back : List Nat}
    (he : l.filter shape = front ++ i :: j :: back) :
    InOrder key desc live (sortedAt key desc live shape g i) (sortedAt key desc live shape g j) := by
  have hall := sortedOf_inOrder (key := key) (desc := desc) (live := live) (hinc.filter shape)
  rw [← sortedAt_map hg hl, he, List.map_append, List.pairwise_append] at hall
  obtain ⟨-, hall, -⟩ := hall
  exact (List.pairwise_cons.mp hall).1 _ List.mem_cons_self

/-- The values that VSORT takes through its order. -/
theorem vPut_sortPairs {w : Nat} (hg : g.flatten.Nodup) (hcov : ∀ i, i < 1024 / w → i ∈ g.flatten) (elem : Nat → Nat) :
    vPut w ((sortPairs key desc live shape g).map fun o => (o.1, elem o.2))
      = (elemsOf w).map fun i => if shape i then some (elem (sortedAt key desc live shape g i)) else none := by
  rw [vPut_eq w (by rw [List.map_map]; exact sortPairs_nodup hg)]
  refine List.map_congr_left fun i hi => ?_
  have hkey : i ∈ (sortPairs key desc live shape g).map (·.1) ↔ shape i = true := by
    rw [sortPairs_keys, List.mem_filter]
    exact and_iff_right (hcov i (List.mem_range.mp hi))
  rw [entryOf_map]
  split
  · next hs =>
    have hsome := isSome_entryOf (l := sortPairs key desc live shape g) i
    rw [decide_eq_true (hkey.mpr hs)] at hsome
    obtain ⟨v, hv⟩ := Option.isSome_iff_exists.mp hsome
    unfold sortedAt
    rw [hv]
    rfl
  · next hs =>
    rw [entryOf_of_not_mem fun hm => hs (hkey.mp hm)]
    rfl

end

theorem rowGroups_eq (all : Bool) : rowGroups all = groupsOf 4 (if all then .all else .row) := by
  unfold rowGroups
  rw [vGroups_eq]

theorem rowGroups_increasing (all : Bool) : ∀ l ∈ groupsOf 4 (if all then .all else .row), l.Pairwise (· < ·) := by
  intro l hl
  cases all
  · obtain ⟨r, -, rfl⟩ := List.mem_map.mp hl
    rw [List.pairwise_map]
    exact List.pairwise_lt_range.imp fun hij => Nat.add_lt_add_left hij _
  · obtain rfl := List.mem_singleton.mp hl
    exact List.pairwise_lt_range

theorem vsort_issues {n : Nat} {s s1 : State} {h : Head} (ha : EngActs n .va h 1 s s1) (key : KeyOrd) (desc all : Bool) (d a b : BitVec 6) :
    Issues n h (.vsort h key desc all d a b) 12 .rne s s1 (TwoRegs (s1.ac n) d 4
      (fun i => if (s1.ac n).inShape 4 i then some (elemAt ((s1.ac n).vreg a) 4 (sortedAt (fun i => keyVal key (elemAt ((s1.ac n).vreg a) 4 i)) desc
        (written (s1.ac n) h 4) ((s1.ac n).inShape 4) (groupsOf 4 (if all then .all else .row)) i)) else none)
      (fun i => if (s1.ac n).inShape 4 i then some (elemAt ((s1.ac n).vreg b) 4 (sortedAt (fun i => keyVal key (elemAt ((s1.ac n).vreg a) 4 i)) desc
        (written (s1.ac n) h 4) ((s1.ac n).inShape 4) (groupsOf 4 (if all then .all else .row)) i)) else none)) := by
  have hput := vPut_sortPairs (w := 4) (key := fun i => keyVal key (elemAt ((s1.ac n).vreg a) 4 i)) (desc := desc) (live := written (s1.ac n) h 4)
    (shape := (s1.ac n).inShape 4) (groups_nodup 4 (if all then .all else .row)) (fun i hi => mem_groups false _ hi)
  apply issues_of ha
  · dsimp only [exec]; rfl
  · rfl
  · simp only [vElem_eq, rowGroups_eq]
    refine (congrArg (TwoRegs _ _ _ _ _) (congrArg₂ (vPair _ _) ?_ ?_)).mpr (twoRegs_vPair (.inl rfl) _ _)
    · exact hput (elemAt ((s1.ac n).vreg a) 4)
    · exact hput (elemAt ((s1.ac n).vreg b) 4)

/-! ### VSEGR (R379) -/

/-- The runs of a group's present keys (R379). -/
def groupRuns (live : Nat → Bool) (keys vals : Nat → Nat) (l : List Nat) : List (Nat × List Nat) :=
  runsOf ((l.filter live).map fun i => (keys i, vals i))

/-- What stands at element i, the j-th of a group: the j-th run's key and its values reduced, or neither. -/
def runAt (red : Nat → List Nat → Nat) (runs : List (Nat × List Nat)) (i j : Nat) : Nat × Nat × Nat :=
  match runs[j]? with
  | some (k, vs) => (i, k, red i vs)
  | none => (i, 2 ^ 32 - 1, 0)

theorem runAt_fst (red : Nat → List Nat → Nat) (runs : List (Nat × List Nat)) (i j : Nat) : (runAt red runs i j).1 = i := by
  unfold runAt
  split <;> rfl

/-- The runs of all groups at their elements. -/
def runPairs (red : Nat → List Nat → Nat) (live shape : Nat → Bool) (keys vals : Nat → Nat) (g : List (List Nat)) : List (Nat × Nat × Nat) :=
  g.flatMap fun l => ((l.zip (List.range l.length)).filter fun p => shape p.1).map fun p => runAt red (groupRuns live keys vals l) p.1 p.2

section
variable {red : Nat → List Nat → Nat} {live shape : Nat → Bool} {keys vals : Nat → Nat} {g : List (List Nat)}

theorem runPairs_keys : (runPairs red live shape keys vals g).map (·.1) = g.flatten.filter shape := by
  unfold runPairs
  rw [List.map_flatMap, List.filter_flatten, List.flatMap_def]
  congr 1
  refine List.map_congr_left fun l _ => ?_
  have hfst : (l.zip (List.range l.length)).map (·.1) = l := List.map_fst_zip (by simp)
  calc (((l.zip (List.range l.length)).filter fun p => shape p.1).map fun p => runAt red (groupRuns live keys vals l) p.1 p.2).map (·.1)
      = ((l.zip (List.range l.length)).filter fun p => shape p.1).map (·.1) := by
        rw [List.map_map]
        exact List.map_congr_left fun p _ => runAt_fst _ _ _ _
    _ = ((l.zip (List.range l.length)).map (·.1)).filter shape := by rw [List.filter_map]; rfl
    _ = l.filter shape := by rw [hfst]

theorem runPairs_nodup (hg : g.flatten.Nodup) : ((runPairs red live shape keys vals g).map (·.1)).Nodup := by
  rw [runPairs_keys]
  exact hg.filter _

theorem entryOf_runPairs (hg : g.flatten.Nodup) {l : List Nat} (hl : l ∈ g) {i j : Nat} (hj : l[j]? = some i) :
    entryOf (runPairs red live shape keys vals g) i
      = if shape i then some (runAt red (groupRuns live keys vals l) i j).2 else none := by
  split
  · next hs =>
    refine entryOf_of_mem (runPairs_nodup hg) (List.mem_flatMap.mpr ⟨l, hl, List.mem_map.mpr ⟨(i, j), List.mem_filter.mpr ⟨?_, hs⟩, ?_⟩⟩)
    · obtain ⟨hlt, rfl⟩ := List.getElem?_eq_some_iff.mp hj
      exact List.mem_iff_getElem.mpr ⟨j, by simpa using hlt, by simp⟩
    · exact Prod.ext (runAt_fst _ _ _ _) rfl
  · next hs =>
    refine entryOf_of_not_mem fun hm => ?_
    rw [runPairs_keys, List.mem_filter] at hm
    exact hs hm.2

end

theorem vsegr_issues {n : Nat} {s s1 : State} {h : Head} (ha : EngActs n .va h 1 s s1) (md : RMode) (op : SegOp) (all : Bool) (d a b : BitVec 6) :
    ∃ p q, Issues n h (.vsegr h md op all d a b) 12 md s s1 (TwoRegs (s1.ac n) d 4 p q)
      ∧ ∀ l ∈ groupsOf 4 (if all then .all else .row), ∀ (i j : Nat), l[j]? = some i →
        (p i, q i) = if (s1.ac n).inShape 4 i then (match (runsOf ((l.filter (written (s1.ac n) h 4)).map fun k =>
            (elemAt ((s1.ac n).vreg a) 4 k, elemAt ((s1.ac n).vreg b) 4 k)))[j]? with
          | some (k, vs) => (some k, some (segReduce op md (rounded (s1.ac n) h false md i) vs))
          | none => (some 0xFFFFFFFF, some 0)) else (none, none) := by
  let pairs := runPairs (fun i => segReduce op md (rounded (s1.ac n) h false md i)) (written (s1.ac n) h 4) ((s1.ac n).inShape 4)
    (elemAt ((s1.ac n).vreg a) 4) (elemAt ((s1.ac n).vreg b) 4) (groupsOf 4 (if all then .all else .row))
  have hnodup : (pairs.map (·.1)).Nodup := runPairs_nodup (groups_nodup 4 _)
  have hput : ∀ f : Nat × Nat → Nat, vPut 4 (pairs.map fun o => (o.1, f o.2)) = (elemsOf 4).map fun i => (entryOf pairs i).map f := fun f => by
    rw [vPut_eq 4 (by rw [List.map_map]; exact hnodup)]
    exact List.map_congr_left fun i _ => entryOf_map f pairs i
  refine ⟨fun i => (entryOf pairs i).map (·.1), fun i => (entryOf pairs i).map (·.2), ?_, fun l hl i j hj => ?_⟩
  · apply issues_of ha
    · dsimp only [exec]; rfl
    · rfl
    · simp only [vElem_eq, rowGroups_eq]
      refine (congrArg (TwoRegs _ _ _ _ _) (congrArg₂ (vPair _ _) ?_ ?_)).mpr (twoRegs_vPair (.inl rfl) _ _)
      · exact hput (·.1)
      · exact hput (·.2)
  · show ((entryOf pairs i).map (·.1), (entryOf pairs i).map (·.2)) = _
    rw [entryOf_runPairs (groups_nodup 4 _) hl hj]
    split
    · unfold runAt groupRuns
      generalize (runsOf _)[j]? = run
      rcases run with _ | ⟨k, vs⟩ <;> rfl
    · rfl

end Sys2Proof

/-! # Masks and training formats of VA (R382, R384 to R387) -/

namespace Sys2Proof

open Machine

/-! ### Masks (R382) -/

theorem allMask_testBit {k : Nat} (hk : k < 512) : allMask.testBit k = true := by
  unfold allMask
  rw [Nat.testBit_two_pow_sub_one, decide_eq_true hk]

theorem logBits_testBit (g : LogF) (u v k : Nat) : (logBits g u v).testBit k = (match g with
    | .and => u.testBit k && v.testBit k
    | .or => u.testBit k || v.testBit k
    | .xor => u.testBit k != v.testBit k
    | .andn => u.testBit k && !v.testBit k) := by
  cases g <;> simp only [logBits, Nat.testBit_and, Nat.testBit_or, Nat.testBit_xor]
  all_goals cases u.testBit k <;> cases v.testBit k <;> rfl

theorem not_testBit (v : Nat) {k : Nat} (hk : k < 512) : (allMask ^^^ v).testBit k = !v.testBit k := by
  rw [Nat.testBit_xor, allMask_testBit hk]
  cases v.testBit k <;> rfl

theorem first_testBit (v : Nat) {k : Nat} (hk : k < 512) : (2 ^ min v 512 - 1).testBit k = decide (k < v) := by
  rw [Nat.testBit_two_pow_sub_one]
  exact decide_eq_decide.mpr (by omega)

/-- The mask of the elements that are not zero has both bits of each. -/
theorem fromv_testBit (v : VWord) {k : Nat} (hk : k < 512) :
    (vWrites 4 ((elemsOf 4).map fun i => if elemAt v 4 i ≠ 0 then some 0 else none)).testBit k = decide (elemAt v 4 (k / 2) ≠ 0) := by
  have hb := vWrites_testBit (.inl rfl) (fun i => if elemAt v 4 i ≠ 0 then some 0 else none) (i := k / 2) (b := k % 2) (by omega) (by omega)
  rw [show 4 * (k / 2) / 2 + k % 2 = k by omega, if_neg (show ¬(4 = 1) by decide)] at hb
  rw [hb]
  by_cases h0 : elemAt v 4 (k / 2) = 0 <;> simp [h0]

/-- What each form of VMASK writes (R382). -/
def MaskWritten (x : AC) (f : VMaskF) (r : VRes) : Prop :=
  r.dnf = 0 ∧ r.dcl = 0 ∧ match f with
    | .logic g d a b => r.kind = 2 ∧ r.dest = d.toNat ∧ ∀ k, k < 512 → r.wmask.testBit k = true ∧ (r.data.getD 0 0).testBit k =
        (let p := (x.vec.mr a.toNat).getLsbD k
         let q := (x.vec.mr b.toNat).getLsbD k
         match g with | .and => p && q | .or => p || q | .xor => p != q | .andn => p && !q)
    | .not d a => r.kind = 2 ∧ r.dest = d.toNat ∧ ∀ k, k < 512 → r.wmask.testBit k = true ∧ (r.data.getD 0 0).testBit k = !(x.vec.mr a.toNat).getLsbD k
    | .first d a => r.kind = 2 ∧ r.dest = d.toNat ∧ ∀ k, k < 512 → r.wmask.testBit k = true ∧ (r.data.getD 0 0).testBit k = decide (k < (x.va.src a).toNat)
    | .fromv d a => r.kind = 2 ∧ r.dest = d.toNat ∧ ∀ k, k < 512 → r.wmask.testBit k = true
        ∧ (r.data.getD 0 0).testBit k = decide (elemAt (x.vreg a) 4 (k / 2) ≠ 0)
    | .tov d a => r.kind = 0 ∧ r.dest = x.cc.phys d ∧ Writes r 0 4 fun i => some (if (x.vec.mr a.toNat).getLsbD (2 * i) then 0xFFFFFFFF else 0)

section
variable {n : Nat} {s s1 : State} {h : Head}

theorem vmask_issues (ha : EngActs n .va h 1 s s1) (f : VMaskF) : Issues n h (.vmask h f) 1 .rne s s1 (MaskWritten (s1.ac n) f) := by
  apply issues_of ha
  · dsimp only [exec]; rfl
  · rfl
  · simp only [vElem_eq]
    cases f
    case logic g d a b =>
      refine ⟨rfl, rfl, rfl, rfl, fun k hk => ⟨allMask_testBit hk, (logBits_testBit g _ _ k).trans ?_⟩⟩
      cases g <;> rfl
    case not d a => exact ⟨rfl, rfl, rfl, rfl, fun k hk => ⟨allMask_testBit hk, not_testBit _ hk⟩⟩
    case first d a => exact ⟨rfl, rfl, rfl, rfl, fun k hk => ⟨allMask_testBit hk, first_testBit _ hk⟩⟩
    case fromv d a => exact ⟨rfl, rfl, rfl, rfl, fun k hk => ⟨allMask_testBit hk, fromv_testBit _ hk⟩⟩
    case tov d a =>
      refine ⟨rfl, rfl, rfl, rfl, ?_⟩
      have hw := writes_vOut (p := (s1.ac n).cc.phys d) (.inl rfl) fun i => some (if maskAt ((s1.ac n).vec.mr a.toNat) 4 i then 2 ^ 32 - 1 else 0)
      have hbit : ∀ i, maskAt ((s1.ac n).vec.mr a.toNat) 4 i = ((s1.ac n).vec.mr a.toNat).getLsbD (2 * i) := fun i => by
        show ((s1.ac n).vec.mr a.toNat).getLsbD (4 * i / 2) = _
        rw [show 4 * i / 2 = 2 * i by omega]
      simp only [hbit] at hw ⊢
      exact hw

/-! ### Training formats (R384 to R387) -/

theorem pairHeads_get_none : ∀ (l : List (Option Nat)) (i : Nat), l.length ≤ 2 * i + 1 → (pairHeads l)[i]? = none := fun l i hl => by
  rw [List.getElem?_eq_none]
  rw [pairHeads_length]
  omega

/-- A result of the first k elements of one byte, all of them present, an even number. -/
theorem oneReg_bytes (x : AC) (d : BitVec 6) {k : Nat} (hk : k % 2 = 0) (f : Nat → Nat) :
    OneReg x d 1 (fun i => if i < k then some (f i) else none) (vOut (x.cc.phys d) 1 ((List.range k).map fun i => some (f i))) := by
  refine ⟨rfl, rfl, rfl, rfl, fun i _ => ⟨fun b hb => ?_, fun v hv => ?_⟩⟩
  · obtain rfl : b = 0 := by omega
    show (vWrites 1 _).testBit _ = _
    rw [vWrites_one, show 512 * 0 + 1 * i / 2 + 0 = 1 * (i / 2) + 0 by omega, digits_testBit isSome_lt _ _ (by omega), if_pos rfl]
    by_cases hi : 2 * (i / 2) < k
    · rw [pairHeads_get _ _ (by simp only [List.length_map, List.length_range]; omega)]
      simp [hi]
    · rw [pairHeads_get_none _ _ (by simp only [List.length_map, List.length_range]; omega)]
      simp [hi]
  · by_cases hi : i < k
    · obtain rfl : f i = v := Option.some.inj ((if_pos hi).symm.trans hv)
      exact (vData_elem 1 _ i).trans (by simp [hi])
    · exact nomatch (if_neg hi).symm.trans hv

theorem vbexp_issues (ha : EngActs n .va h 1 s s1) (bf : Bool) (d a : BitVec 6) :
    Issues n h (.vbexp h bf d a) 6 .rne s s1 (OneReg (s1.ac n) d 1 fun i => if i < (if bf then 8 else 4)
      then some (blockCode ((List.range 64).map fun k => decodeIeee (if bf then bf16 else fp32).p
        (elemAt ((s1.ac n).vreg a) (if bf then 2 else 4) (64 * i + k)))) else none) := by
  apply issues_of ha
  · dsimp only [exec]; rfl
  · rfl
  · simp only [vElem_eq, blockElems, List.map_map]
    exact oneReg_bytes (k := if bf then 8 else 4) _ d (by cases bf <;> rfl) _

theorem count_map {α : Type} (p : α → Bool) (f : Nat → α) (l : List Nat) : ((l.map f).filter p).length = (l.filter fun i => p (f i)).length := by
  rw [List.filter_map, List.length_map]
  rfl

/-- The code of an element under the block of its exponent code (R385). -/
def quantAt (x : AC) (a b : BitVec 6) (i : Nat) : Int × Bool × Bool :=
  if elemAt (x.vreg b) 1 (i / 64) = 0xFF then (0, false, true) else quantI24 (elemAt (x.vreg b) 1 (i / 64)) (decodeIeee 24 (elemAt (x.vreg a) 4 i))

theorem vqnt_issues (ha : EngActs n .va h 1 s s1) (d a b : BitVec 6) :
    Issues n h (.vqnt h d a b) 2 .rne s s1 fun r => r.kind = 0 ∧ r.dest = (s1.ac n).cc.phys d
      ∧ Writes r 0 4 (fun i => some (low 4 (quantAt (s1.ac n) a b i).1))
      ∧ r.dnf = ((List.range 256).filter fun i => (quantAt (s1.ac n) a b i).2.2).length
      ∧ r.dcl = ((List.range 256).filter fun i => (quantAt (s1.ac n) a b i).2.1).length := by
  apply issues_of ha
  · dsimp only [exec]; rfl
  · rfl
  · simp only [vElem_eq, wrapInt_eq, List.map_map]
    exact ⟨rfl, rfl, writes_vOut (p := (s1.ac n).cc.phys d) (.inl rfl) _, count_map _ _ _, count_map _ _ _⟩

theorem vdqnt_issues (ha : EngActs n .va h 1 s s1) (md : RMode) (d a b : BitVec 6) :
    Issues n h (.vdqnt h md d a b) 2 md s s1 fun r => r.kind = 0 ∧ r.dest = (s1.ac n).cc.phys d ∧ r.dnf = 0
      ∧ Writes r 0 4 (fun i => some (if elemAt ((s1.ac n).vreg b) 1 (i / 64) = 0xFF then fp32.nan
        else rounded (s1.ac n) h false md i (FVal.scaled (readI24 (BitVec.ofNat 32 (elemAt ((s1.ac n).vreg a) 4 i))).1
          ((elemAt ((s1.ac n).vreg b) 1 (i / 64) : Int) - 150))))
      ∧ r.dcl = ((List.range 256).filter fun i => (readI24 (BitVec.ofNat 32 (elemAt ((s1.ac n).vreg a) 4 i))).2).length := by
  apply issues_of ha
  · dsimp only [exec]; rfl
  · rfl
  · simp only [vElem_eq, List.map_map]
    exact ⟨rfl, rfl, rfl, writes_vOut (p := (s1.ac n).cc.phys d) (.inl rfl) _, count_map _ _ _⟩

theorem vpcode_issues (ha : EngActs n .va h 1 s s1) (d a : BitVec 6) (b : Src) :
    Issues n h (.vpcode h d a b) 2 .rne s s1 (OneReg (s1.ac n) d 4 (where' (s1.ac n) h 4 fun i =>
      pulseCode (decodeIeee 24 (elemAt ((s1.ac n).vreg a) 4 i)) ((s1.ac n).va.fsrc b))) := by
  apply issues_of ha
  · dsimp only [exec]; rfl
  · rfl
  · simp only [vElem_eq]
    exact oneReg_vMap (.inl rfl) h _

end

theorem vectorReduce_rule : ruleVectorReduce := by
  intro n s s1 h ha _
  refine ⟨fun f dir d a b op hop => vred_issues ha f dir d a b op hop, fun f dir d a b => vredPair_issues ha f dir d a b,
    fun f dir d a op => vscan_issues ha f dir d a op, fun key desc all d a b => ⟨_, vsort_issues ha key desc all d a b, fun l hl => ⟨?_, ?_⟩⟩,
    fun md op all d a b => vsegr_issues ha md op all d a b, fun f => vmask_issues ha f, fun bf d a => vbexp_issues ha bf d a,
    fun d a b => vqnt_issues ha d a b, fun md d a b => vdqnt_issues ha md d a b, fun d a b => vpcode_issues ha d a b⟩
  · rw [sortedAt_map (groups_nodup 4 _) hl]
    exact sortedOf_perm
  · intro i j front back he
    exact sortedAt_inOrder (groups_nodup 4 _) hl (rowGroups_increasing all l hl) he

end Sys2Proof

/-! # Shape, rotation and pipelined loops of VA (R365, R370, R383) -/

namespace Sys2Proof

open Machine

/-! ### VSHAPE, VROT and VLOOPP (R365, R370, R383) -/

section
variable {n : Nat} {h : Head} {s s1 : State}

theorem pack_pair_iff (v : W64) {r c : Nat} (hr : r < 32) (hc : c < 32) : v = pack [(8, c), (0, r)] ↔ v.toNat = c * 256 + r := by
  rw [show pack [(8, c), (0, r)] = BitVec.ofNat 64 (0 + c * 2 ^ 8 + r * 2 ^ 0) from rfl, BitVec.toNat_eq, BitVec.toNat_ofNat]
  omega

/-- A value that names a shape: its rows and columns are 1 to 16, and nothing else is set (R383). -/
theorem shape_legal (v : W64) : (1 ≤ bits v 0 5 ∧ bits v 0 5 ≤ 16 ∧ 1 ≤ bits v 8 5 ∧ bits v 8 5 ≤ 16 ∧ v = pack [(8, bits v 8 5), (0, bits v 0 5)])
    ↔ v.toNat % 256 ≤ 16 ∧ 1 ≤ v.toNat % 256 ∧ v.toNat / 256 ≤ 16 ∧ 1 ≤ v.toNat / 256 := by
  have hr : bits v 0 5 = v.toNat % 32 := by simp [bits]
  have hc : bits v 8 5 = v.toNat / 256 % 32 := rfl
  rw [pack_pair_iff v (by rw [hr]; omega) (by rw [hc]; omega), hr, hc]
  omega

theorem exec_vshape_legal (ha : EngActs n .va h 1 s s1) (hr : SameRegs n s s1) (a : Src)
    (hv : ((s1.ac n).va.src a).toNat % 256 ≤ 16 ∧ 1 ≤ ((s1.ac n).va.src a).toNat % 256 ∧ ((s1.ac n).va.src a).toNat / 256 ≤ 16
      ∧ 1 ≤ ((s1.ac n).va.src a).toNat / 256) :
    exec (.vshape h a) s = .next (engDone n .va h 1 (s1.modCC n fun c => c.setSr 0x041 ((s1.ac n).va.src a))) := by
  show execVshape h a s = _
  rw [← sameRegs_src hr] at hv
  unfold execVshape engRun
  exact engRunN_ok ha giveFree_va (by exact congrFun (if_pos (decide_eq_true ((shape_legal _).mpr hv))) s) (by rfl)

theorem exec_vshape_illegal (ha : EngActs n .va h 1 s s1) (hr : SameRegs n s s1) (a : Src)
    (hv : ¬(((s1.ac n).va.src a).toNat % 256 ≤ 16 ∧ 1 ≤ ((s1.ac n).va.src a).toNat % 256 ∧ ((s1.ac n).va.src a).toNat / 256 ≤ 16
      ∧ 1 ≤ ((s1.ac n).va.src a).toNat / 256)) : exec (.vshape h a) s = .next (engFault n .va 0x02 ((s1.ac n).va.src a) 0 s) := by
  show execVshape h a s = _
  rw [← sameRegs_src hr] at hv ⊢
  have hfalse := decide_eq_false fun hl => hv ((shape_legal _).mp hl)
  unfold execVshape engRun
  exact (engRunN_chk (st := .trap 0x02 ((s.ac n).va.src a) 0) (t := s) ha giveFree_va
    (by exact congrFun (if_neg (Bool.eq_false_iff.mp hfalse)) s)).trans (congrArg Host.Outcome.next (engStop_trap n .va _ s))

theorem exec_vrot (ha : EngActs n .va h 1 s s1) (a : Src) : exec (.vrot h a) s = .next (engDone n .va h 1 (s1.modCC n fun c =>
    c.setSr 0x040 (BitVec.ofNat 64 ((((s1.ac n).cc.sr 0x040).toNat + ((s1.ac n).va.src a).toNat) % 32)))) := by
  show execVrot h a s = _
  exact engRun_done ha giveFree_va rfl

theorem exec_vloopp_illegal (ha : EngActs n .va h 1 s s1) (hr : SameRegs n s s1) (st : BitVec 3) (a : Src) (blen : BitVec 12)
    (hv : 2 ^ 32 ≤ ((s1.ac n).va.src a).toNat ∨ bits ((s1.ac n).cc.sr 0x043) 8 4 ≠ 0) :
    exec (.vloopp h st a blen) s = .next (engFault n .va 0x02 ((s1.ac n).va.src a) 0 s) := by
  show execVloopp h st a blen s = _
  have hcc : (s1.ac n).cc = (s.ac n).cc := hr.1
  rw [← sameRegs_src hr] at hv ⊢
  rw [hcc] at hv
  refine (engRunN_chk (st := .trap 0x02 ((s.ac n).va.src a) 0) ha giveFree_va ?_).trans (congrArg Host.Outcome.next (engStop_trap n .va _ s))
  by_cases ht : ((s.ac n).va.src a).toNat < 2 ^ 32
  · have hbusy : ¬((bits ((s.ac n).cc.sr 0x043) 8 4 == 0) = true) := fun hb => (hv.resolve_left (Nat.not_le.mpr ht)) (eq_of_beq hb)
    exact (bindM_ok (congrFun (if_pos (decide_eq_true ht)) s)).trans (congrFun (if_neg hbusy) s)
  · have hlarge := decide_eq_false ht
    exact (get_bindM ..).trans (bindM_error (congrFun (if_neg (Bool.eq_false_iff.mp hlarge)) s))

theorem vloopp_check (hr : SameRegs n s s1) {a : Src} (ht : ((s1.ac n).va.src a).toNat < 2 ^ 32) (hb : bits ((s1.ac n).cc.sr 0x043) 8 4 = 0) :
    (need (decide ((s.esrc n .va a).toNat < 2 ^ 32)) 0x02 (s.esrc n .va a) 0 >>= fun _ =>
      need (bits ((s.ac n).cc.sr 0x043) 8 4 == 0) 0x02 (s.esrc n .va a) 0) s = .ok () s := by
  have hcc : (s1.ac n).cc = (s.ac n).cc := hr.1
  rw [← sameRegs_src hr] at ht
  rw [hcc] at hb
  exact (bindM_ok (congrFun (if_pos (decide_eq_true ht)) s)).trans (congrFun (if_pos (beq_iff_eq.mpr hb)) s)

/-- An engine whose level 0 is active with body b to f. -/
def openAt (b f : W64) (e : Eng) : Eng := { e with act0 := true, live0s := b, live0e := f }

/-- A cluster with the registers c of its CC and an engine VA v. -/
def withRegs (x : AC) (c : CC) (v : Eng) : AC := { x with cc := c, va := v }

theorem openAt_upc (b f : W64) (e : Eng) : (openAt b f e).upc = e.upc := rfl

theorem setX_upc (e : Eng) (r : Nat) (v : W64) : (e.setX r v).upc = e.upc := rfl

theorem withRegs_leaves (x : AC) (c : CC) (v : Eng) : (withRegs x c v).tiles = x.tiles ∧ (withRegs x c v).vec = x.vec ∧ (withRegs x c v).ln = x.ln :=
  ⟨rfl, rfl, rfl⟩

theorem modEng_modCC_va (s : State) (n : Nat) (g : CC → CC) (y : Eng → Eng) :
    (s.modCC n g).modEng n .va y = s.setAc n (withRegs (s.ac n) (g (s.ac n).cc) (y (s.ac n).va)) := by
  rw [State.modCC, State.modEng, State.modAc, State.modAc, setAc_setAc, State.setAc_ac, if_pos rfl]
  rfl

/-- The cluster once VLOOPP has opened its loop of t iterations of k stages with body b to f (R370). -/
def vlooppOpen (k t : Nat) (b f : W64) (x : AC) : AC :=
  withRegs x ((x.cc.setSr 0x042 (pack [(32, t)])).setSr 0x043 (pack [(8, k), (0, stageBits k 0 t)]))
    (openAt b f (((x.va.setX 16 (BitVec.ofNat 64 (t + k - 1))).setX 17 b).setX 18 f))

theorem exec_vloopp_none (ha : EngActs n .va h 1 s s1) (hr : SameRegs n s s1) (st : BitVec 3) {a : Src} (blen : BitVec 12)
    (ht : ((s1.ac n).va.src a).toNat = 0) (hb : bits ((s1.ac n).cc.sr 0x043) 8 4 = 0) :
    exec (.vloopp h st a blen) s = .next (engGive n .va (Head.give h) 1 (engRetire n .va h
      (.jump (addr55 (addr55 ((s1.ac n).va.upc + Head.size h) + BitVec.ofNat 64 (4 * blen.toNat)))) s1)) := by
  show execVloopp h st a blen s = _
  exact engRunN_ok ha giveFree_va (vloopp_check hr (by omega) hb) (congrFun (if_pos ht) s1)

theorem exec_vloopp_opens (ha : EngActs n .va h 1 s s1) (hr : SameRegs n s s1) (st : BitVec 3) {a : Src} (blen : BitVec 12)
    (ht : ((s1.ac n).va.src a).toNat < 2 ^ 32) (h0 : ((s1.ac n).va.src a).toNat ≠ 0) (hb : bits ((s1.ac n).cc.sr 0x043) 8 4 = 0) :
    exec (.vloopp h st a blen) s = .next (engDone n .va h 1 (s1.setAc n (vlooppOpen (st.toNat + 1) ((s1.ac n).va.src a).toNat
      (addr55 ((s1.ac n).va.upc + Head.size h))
      (addr55 (addr55 ((s1.ac n).va.upc + Head.size h) + BitVec.ofNat 64 (4 * blen.toNat))) (s1.ac n)))) := by
  show execVloopp h st a blen s = _
  refine engRunN_ok ha giveFree_va (vloopp_check hr ht hb) ((congrFun (if_neg h0) s1).trans ?_)
  exact congrArg (EStateM.Result.ok EFlow.seq) (modEng_modCC_va s1 n _ _)

/-- The stage predicates of the first iteration: that of stage 0 alone (R370). -/
theorem stageBits_first {k t : Nat} (hk : 0 < k) (ht : 0 < t) : stageBits k 0 t = 1 := by
  have hbits : ∀ j, (if j < k ∧ j ≤ 0 ∧ 0 - j < t then 1 else 0) = if j = 0 then 1 else 0 := fun j => by
    congr 1
    exact propext ⟨fun hj => by omega, fun hj => by omega⟩
  have hstep : ∀ b j : Nat, (if j < k ∧ j ≤ 0 ∧ 0 - j < t then b + 2 ^ j else b) = if j = 0 then b + 1 else b := fun b j => by
    by_cases hj : j = 0
    · subst hj
      rw [if_pos ⟨hk, Nat.le_refl 0, ht⟩, if_pos rfl]
      rfl
    · rw [if_neg (by omega), if_neg hj]
  unfold stageBits
  simp only [hstep]
  rfl

theorem pack_one (p v : Nat) : pack [(p, v)] = BitVec.ofNat 64 (v * 2 ^ p) := by simp only [pack, List.foldl_cons, List.foldl_nil, Nat.zero_add]

theorem bits_pack_count {t : Nat} (ht : t < 2 ^ 32) : bits (pack [(32, t)]) 32 32 = t ∧ bits (pack [(32, t)]) 0 32 = 0 := by
  have hp : (pack [(32, t)]).toNat = t * 2 ^ 32 := by
    rw [pack_one, BitVec.toNat_ofNat, Nat.mod_eq_of_lt]
    exact (Nat.mul_lt_mul_of_pos_right ht (Nat.two_pow_pos 32)).trans_eq (Nat.pow_add 2 32 32).symm
  unfold bits
  rw [hp]
  exact ⟨by rw [Nat.mul_div_cancel _ (Nat.two_pow_pos 32), Nat.mod_eq_of_lt ht], by rw [Nat.pow_zero, Nat.div_one, Nat.mul_mod_left]⟩

theorem bits_pack_stages {k : Nat} (hk : k < 16) : bits (pack [(8, k), (0, 1)]) 8 4 = k ∧ bits (pack [(8, k), (0, 1)]) 0 8 = 1 := by
  have hp : (pack [(8, k), (0, 1)]).toNat = k * 2 ^ 8 + 1 := by
    rw [show pack [(8, k), (0, 1)] = BitVec.ofNat 64 (0 + k * 2 ^ 8 + 1 * 2 ^ 0) from rfl, BitVec.toNat_ofNat]
    omega
  unfold bits
  rw [hp]
  omega

theorem vlooppOpen_xr (k t : Nat) (b f : W64) (x : AC) : (vlooppOpen k t b f x).va.xr 16 = BitVec.ofNat 64 (t + k - 1)
    ∧ (vlooppOpen k t b f x).va.xr 17 = b ∧ (vlooppOpen k t b f x).va.xr 18 = f := by
  have hxr : ∀ r, (vlooppOpen k t b f x).va.xr r = (((x.va.setX 16 (BitVec.ofNat 64 (t + k - 1))).setX 17 b).setX 18 f).xr r := fun _ => rfl
  simp only [hxr, Eng.setX_xr]
  exact ⟨rfl, rfl, rfl⟩

theorem vlooppOpen_leaves (k t : Nat) (b f : W64) (x : AC) : (vlooppOpen k t b f x).va.act0 = true ∧ (vlooppOpen k t b f x).va.live0s = b
    ∧ (vlooppOpen k t b f x).va.live0e = f ∧ (vlooppOpen k t b f x).va.upc = x.va.upc ∧ (vlooppOpen k t b f x).tiles = x.tiles
    ∧ (vlooppOpen k t b f x).vec = x.vec ∧ (vlooppOpen k t b f x).ln = x.ln := by
  obtain ⟨htiles, hvec, hln⟩ := withRegs_leaves x ((x.cc.setSr 0x042 (pack [(32, t)])).setSr 0x043 (pack [(8, k), (0, stageBits k 0 t)]))
    (openAt b f (((x.va.setX 16 (BitVec.ofNat 64 (t + k - 1))).setX 17 b).setX 18 f))
  refine ⟨rfl, rfl, rfl, ?_, htiles, hvec, hln⟩
  exact (openAt_upc b f _).trans ((setX_upc _ _ _).trans ((setX_upc _ _ _).trans (setX_upc _ _ _)))

theorem vlooppOpen_sr {k t : Nat} (b f : W64) (x : AC) (hk : k < 16) (hk0 : 0 < k) (ht : t < 2 ^ 32) (ht0 : 0 < t) :
    bits ((vlooppOpen k t b f x).cc.sr 0x042) 32 32 = t ∧ bits ((vlooppOpen k t b f x).cc.sr 0x042) 0 32 = 0
      ∧ bits ((vlooppOpen k t b f x).cc.sr 0x043) 8 4 = k ∧ bits ((vlooppOpen k t b f x).cc.sr 0x043) 0 8 = 1 := by
  have hsr : ∀ r, (vlooppOpen k t b f x).cc.sr r = ((x.cc.setSr 0x042 (pack [(32, t)])).setSr 0x043 (pack [(8, k), (0, stageBits k 0 t)])).sr r := fun _ => rfl
  have h42 : (vlooppOpen k t b f x).cc.sr 0x042 = pack [(32, t)] := by
    rw [hsr, CC.setSr_sr, if_neg (by decide), CC.setSr_sr, if_pos rfl]
  have h43 : (vlooppOpen k t b f x).cc.sr 0x043 = pack [(8, k), (0, 1)] := by
    rw [hsr, CC.setSr_sr, if_pos rfl, stageBits_first hk0 ht0]
  rw [h42, h43]
  exact ⟨(bits_pack_count ht).1, (bits_pack_count ht).2, bits_pack_stages hk⟩

theorem vloopp_rule (ha : EngActs n .va h 1 s s1) (hr : SameRegs n s s1) (st : BitVec 3) (a : Src) (blen : BitVec 12) :
    let x := s1.ac n
    let t := (x.va.src a).toNat
    let k := st.toNat + 1
    let b := addr55 (x.va.upc + Head.size h)
    let f := addr55 (b + BitVec.ofNat 64 (4 * blen.toNat))
    let i := Instr.vloopp h st a blen
    (2 ^ 32 ≤ t ∨ bits (x.cc.sr 0x043) 8 4 ≠ 0 → exec i s = .next (engFault n .va 0x02 (x.va.src a) 0 s))
    ∧ (t < 2 ^ 32 → bits (x.cc.sr 0x043) 8 4 = 0 →
      (t = 0 → exec i s = .next (engGive n .va (Head.give h) 1 (engRetire n .va h (.jump f) s1)))
      ∧ (t ≠ 0 → ∃ u : State, exec i s = .next (engDone n .va h 1 u) ∧ u = s1.setAc n (u.ac n)
        ∧ (u.ac n).va.xr 16 = BitVec.ofNat 64 (t + k - 1) ∧ (u.ac n).va.xr 17 = b ∧ (u.ac n).va.xr 18 = f ∧ (u.ac n).va.act0 = true
        ∧ (u.ac n).va.live0s = b ∧ (u.ac n).va.live0e = f ∧ (u.ac n).va.upc = x.va.upc
        ∧ bits ((u.ac n).cc.sr 0x042) 32 32 = t ∧ bits ((u.ac n).cc.sr 0x042) 0 32 = 0
        ∧ bits ((u.ac n).cc.sr 0x043) 8 4 = k ∧ bits ((u.ac n).cc.sr 0x043) 0 8 = 1
        ∧ (u.ac n).tiles = x.tiles ∧ (u.ac n).vec = x.vec ∧ (u.ac n).ln = x.ln)) := by
  intro x t k b f i
  refine ⟨exec_vloopp_illegal ha hr st a blen, fun ht hb => ⟨fun h0 => exec_vloopp_none ha hr st blen h0 hb, fun h0 => ?_⟩⟩
  refine ⟨_, exec_vloopp_opens ha hr st blen ht h0 hb, ?_⟩
  rw [State.setAc_ac, if_pos rfl]
  obtain ⟨h16, h17, h18⟩ := vlooppOpen_xr k t b f x
  obtain ⟨hcount, hiter, hstages, hpred⟩ := vlooppOpen_sr (k := k) (t := t) b f x (by omega) (Nat.succ_pos _) ht (Nat.pos_of_ne_zero h0)
  obtain ⟨hact, hstart, hend, hupc, htiles, hvec, hln⟩ := vlooppOpen_leaves k t b f x
  exact ⟨rfl, h16, h17, h18, hact, hstart, hend, hupc, hcount, hiter, hstages, hpred, htiles, hvec, hln⟩

end

end Sys2Proof

/-! # The landing of results (R366, R367) -/

namespace Sys2Proof

open Machine

/-! ### The landing of results (R366, R367) -/

section
variable {n : Nat} {s : State}

theorem smSet_found {α : Type} {m : SMap α} {k : Nat} {v : α} (h : smFind m k = some v) : smSet m k v = m := by
  induction m with
  | nil => exact nomatch h
  | cons p r ih =>
    obtain ⟨j, u⟩ := p
    rw [smFind_cons] at h
    unfold smSet
    split at h
    · exact nomatch h
    · next hlt =>
      split at h
      · next hk => rw [if_neg hlt, if_pos hk, hk, Option.some.inj h]
      · next hk => rw [if_neg hlt, if_neg hk, ih h]

/-- A cluster with a result in flight is listed. -/
theorem setAc_of_flight (hf : (s.ac n).vec.flight ≠ []) : s.setAc n (s.ac n) = s := by
  have hfind : smFind s.acs n = some (s.ac n) := by
    have hac : s.ac n = (smFind s.acs n).getD AC.reset := rfl
    cases hfound : smFind s.acs n with
    | some a => rw [hac, hfound]; rfl
    | none =>
      rw [hac, hfound] at hf
      exact absurd rfl hf
  show { s with acs := smSet s.acs n (s.ac n) } = s
  rw [smSet_found hfind]

/-- A good result that gives no token writes what it writes. -/
theorem landOne_writes (s : State) (n : Nat) {f : Flight} (hg : f.give = 0) (hb : f.bad = none) : landOne n s f = s.setAc n (writeFlight f (s.ac n)) := by
  unfold landOne
  rw [hb]
  exact if_pos hg

/-- The cluster with the results l in flight. -/
def inFlight (x : AC) (l : List Flight) : AC := { x with vec := { x.vec with flight := l } }

/-- Results that land by a cycle, all good and none with a token, write in their order; the others stay in flight. -/
theorem landUpTo_writes {c : Nat} (hgood : ∀ f ∈ (s.ac n).vec.flight, f.give = 0 ∧ f.bad = none) :
    landUpTo n c s = if ((s.ac n).vec.flight.filter fun f => decide (f.land ≤ c)) = [] then s
      else s.setAc n (((s.ac n).vec.flight.filter fun f => decide (f.land ≤ c)).foldl (fun x f => writeFlight f x)
        (inFlight (s.ac n) ((s.ac n).vec.flight.filter fun f => decide (c < f.land)))) := by
  have hfold : ∀ (l : List Flight) (x : AC), (∀ f ∈ l, f.give = 0 ∧ f.bad = none) →
      l.foldl (landOne n) (s.setAc n x) = s.setAc n (l.foldl (fun x f => writeFlight f x) x) := by
    intro l
    induction l with
    | nil => intro x _; rfl
    | cons f l ih =>
      intro x hl
      obtain ⟨hg, hb⟩ := hl f List.mem_cons_self
      rw [List.foldl_cons, landOne_writes _ _ hg hb, setAc_setAc, State.setAc_ac, if_pos rfl, ih _ fun f hf => hl f (List.mem_cons_of_mem _ hf)]
      rfl
  unfold landUpTo
  simp only [List.isEmpty_iff]
  split
  · rfl
  · exact hfold _ _ fun f hf => hgood f (List.mem_filter.mp hf).1

theorem landing_now (hi : (s.ac n).vec.issued = s.cycle + 1) :
    exec (.vaResultLanding n) s = .next (landUpTo n s.cycle s) ∧ exec (.latchLanding n) s = .next (landUpTo n s.cycle s) := by
  have h : execVaResultLanding n s = .next (landUpTo n s.cycle s) := congrArg Host.Outcome.next (if_pos hi)
  exact ⟨h, h⟩

theorem two_land {f g : Flight} (hf : (s.ac n).vec.flight = [f, g]) (hfg : f.give = 0) (hfb : f.bad = none) (hgg : g.give = 0) (hgb : g.bad = none)
    (hle : f.land ≤ g.land) : OnlyAc n s (landUpTo n s.cycle s)
      ∧ (g.land ≤ s.cycle → (landUpTo n s.cycle s).ac n = writeFlight g (writeFlight f (inFlight (s.ac n) [])))
      ∧ (f.land ≤ s.cycle → s.cycle < g.land → (landUpTo n s.cycle s).ac n = writeFlight f (inFlight (s.ac n) [g]))
      ∧ (s.cycle < f.land → (landUpTo n s.cycle s).ac n = s.ac n) := by
  have hland := landUpTo_writes (c := s.cycle) (n := n) (s := s) (by
    rw [hf]
    intro x hx
    simp only [List.mem_cons, List.not_mem_nil, or_false] at hx
    obtain rfl | rfl := hx
    exacts [⟨hfg, hfb⟩, ⟨hgg, hgb⟩])
  rw [hf] at hland
  by_cases h2 : g.land ≤ s.cycle
  · have h1 : f.land ≤ s.cycle := hle.trans h2
    simp only [List.filter_cons, List.filter_nil, decide_eq_true h1, decide_eq_true h2, Nat.not_lt.mpr h1, Nat.not_lt.mpr h2, decide_false, if_true,
      Bool.false_eq_true, if_false, reduceCtorEq, List.foldl_cons, List.foldl_nil] at hland
    rw [hland]
    exact ⟨onlyAc_setAc .., fun _ => (State.setAc_ac ..).trans (if_pos rfl), fun _ h => absurd h (Nat.not_lt.mpr h2), fun h => absurd h (Nat.not_lt.mpr h1)⟩
  · by_cases h1 : f.land ≤ s.cycle
    · simp only [List.filter_cons, List.filter_nil, decide_eq_true h1, decide_eq_false h2, Nat.not_lt.mpr h1, Nat.not_le.mp h2, decide_false, decide_true,
        if_true, Bool.false_eq_true, if_false, reduceCtorEq, List.foldl_cons, List.foldl_nil] at hland
      rw [hland]
      exact ⟨onlyAc_setAc .., fun h => absurd h h2, fun _ _ => (State.setAc_ac ..).trans (if_pos rfl), fun h => absurd h (Nat.not_lt.mpr h1)⟩
    · simp only [List.filter_cons, List.filter_nil, decide_eq_false h1, decide_eq_false h2, Bool.false_eq_true, if_false, if_true] at hland
      rw [hland]
      exact ⟨(setAc_of_flight (hf ▸ List.cons_ne_nil _ _)).symm, fun h => absurd h h2, fun h => absurd h h1, fun _ => rfl⟩

end

/-! ### What the mask of a result selects (R363, R366) -/

/-- The low n bits of a mask, each spread over 16 bits. -/
theorem spread16_testBit (m n : Nat) : spread16 m n < 2 ^ (16 * n) ∧ ∀ p, (spread16 m n).testBit p = (decide (p < 16 * n) && m.testBit (p / 16)) := by
  induction n with
  | zero => exact ⟨by simp [spread16], fun p => by simp [spread16]⟩
  | succ n ih =>
    obtain ⟨hlt, hbit⟩ := ih
    have hstep : spread16 m (n + 1) = if m.testBit n then 2 ^ (16 * n) * 0xFFFF + spread16 m n else spread16 m n := by
      unfold spread16
      rw [List.range_succ, List.foldl_append, List.foldl_cons, List.foldl_nil, Nat.mul_comm 0xFFFF, Nat.add_comm (2 ^ (16 * n) * 0xFFFF)]
    have hpow : 2 ^ (16 * (n + 1)) = 2 ^ (16 * n) * 2 ^ 16 := by rw [← Nat.pow_add]; rfl
    rw [hstep]
    by_cases hm : m.testBit n = true
    · rw [if_pos hm]
      refine ⟨by rw [hpow]; omega, fun p => ?_⟩
      rw [Nat.testBit_two_pow_mul_add _ hlt, hbit]
      by_cases hp : p < 16 * n
      · rw [if_pos hp, decide_eq_true hp, decide_eq_true (by omega)]
      · rw [if_neg hp, show (0xFFFF : Nat) = 2 ^ 16 - 1 from rfl, Nat.testBit_two_pow_sub_one]
        by_cases hp' : p < 16 * (n + 1)
        · rw [decide_eq_true hp', decide_eq_true (by omega), show p / 16 = n by omega, hm]
          rfl
        · rw [decide_eq_false hp', decide_eq_false (by omega)]
          rfl
    · rw [if_neg hm]
      refine ⟨hlt.trans_le (by rw [hpow]; omega), fun p => ?_⟩
      rw [hbit]
      by_cases hp : p < 16 * n
      · rw [decide_eq_true hp, decide_eq_true (by omega)]
      · by_cases hp' : p < 16 * (n + 1)
        · rw [decide_eq_true hp', decide_eq_false hp, show p / 16 = n by omega, Bool.eq_false_of_not_eq_true hm]
          rfl
        · rw [decide_eq_false hp', decide_eq_false hp]

theorem elemAt_testBit (v : VWord) (i j : Nat) : (elemAt v 2 i).testBit j = (decide (j < 16) && v.getLsbD (16 * i + j)) := by
  show (v.toNat / 2 ^ (8 * 2 * i) % 2 ^ (8 * 2)).testBit j = _
  rw [Nat.testBit_mod_two_pow, Nat.testBit_div_two_pow, Nat.add_comm j]
  rfl

/-- A pair of bytes of a merge is that of the new register where the mask selects it, and that of the old one elsewhere. -/
theorem elemAt_mergeV (old new : VWord) {m i : Nat} (hi : i < 512) : elemAt (mergeV old new m) 2 i = if m.testBit i then elemAt new 2 i else elemAt old 2 i := by
  apply Nat.eq_of_testBit_eq
  intro j
  rw [apply_ite fun k : Nat => k.testBit j]
  simp only [elemAt_testBit]
  by_cases hj : j < 16
  · have hk : (BitVec.ofNat 8192 (spread16 (m % 2 ^ 512) 512)).getLsbD (16 * i + j) = m.testBit i := by
      rw [BitVec.getLsbD_ofNat, (spread16_testBit _ _).2, decide_eq_true (by omega), show (16 * i + j) / 16 = i by omega,
        Nat.testBit_mod_two_pow, decide_eq_true hi]
      rfl
    unfold mergeV
    rw [BitVec.getLsbD_or, BitVec.getLsbD_and, BitVec.getLsbD_and, BitVec.getLsbD_not, hk, decide_eq_true (show 16 * i + j < 8192 by omega)]
    cases m.testBit i <;> simp
  · rw [decide_eq_false hj]
    simp

theorem writeFlight_elem {f : Flight} (hk : f.kind = 0) {d : VWord} (hd : f.data = [d]) (x : AC) {i : Nat} (hi : i < 512) :
    elemAt ((writeFlight f x).vec.vr f.dest) 2 i = if f.wmask.getLsbD i then elemAt d 2 i else elemAt (x.vec.vr f.dest) 2 i := by
  have hvec : (writeFlight f x).vec = x.vec.setV f.dest (mergeV (x.vec.vr f.dest) d f.wmask.toNat) := by
    unfold writeFlight
    simp only [hk, hd]
  have hvr : (x.vec.setV f.dest (mergeV (x.vec.vr f.dest) d f.wmask.toNat)).vr f.dest = mergeV (x.vec.vr f.dest) d f.wmask.toNat :=
    (smGet_smPut ..).trans (if_pos rfl)
  rw [hvec, hvr, elemAt_mergeV _ _ hi]
  rfl

theorem vectorLoops_rule : ruleVectorLoops := by
  intro n s
  refine ⟨fun h s1 ha _ hr => ⟨fun a => ⟨exec_vshape_legal ha hr a, exec_vshape_illegal ha hr a, exec_vrot ha a⟩, vloopp_rule ha hr⟩,
    fun f g hf hfg hfb hgg hgb hi hle => ?_, fun f hf hfg hfb hi hl => ?_⟩
  · obtain ⟨hva, hlatch⟩ := landing_now hi
    exact ⟨_, hva, hlatch, two_land hf hfg hfb hgg hgb hle⟩
  · obtain ⟨hva, hlatch⟩ := landing_now hi
    have hland := landUpTo_writes (c := s.cycle) (n := n) (s := s) (by
      rw [hf]
      intro x hx
      obtain rfl := List.mem_singleton.mp hx
      exact ⟨hfg, hfb⟩)
    rw [hf] at hland
    simp only [List.filter_cons, List.filter_nil, decide_eq_true hl, Nat.not_lt.mpr hl, decide_false, if_true, Bool.false_eq_true, if_false, reduceCtorEq,
      List.foldl_cons, List.foldl_nil] at hland
    have hac : (landUpTo n s.cycle s).ac n = writeFlight f (inFlight (s.ac n) []) := by
      rw [hland]
      exact (State.setAc_ac ..).trans (if_pos rfl)
    refine ⟨_, hva, hlatch, ?_, hac, fun hk d hd i hi => ?_⟩
    · rw [hland]
      exact onlyAc_setAc ..
    · rw [hac]
      exact writeFlight_elem hk hd _ hi

/-- Settles O40: the results of the reductions, of the loops' registers, and of the landing. -/
theorem vectorReduce : Obligations.VectorReduce := ⟨vectorReduce_rule, vectorLoops_rule⟩

end Sys2Proof

/-! # What operations on memory do to kettles (R132) -/

namespace Sys2Proof

open Machine

/-! ### What an operation on memory does to a kettle (R132) -/

/-- A step of memory changes nothing of a kettle but the plain stores in its queue, and puts none into a queue that holds no entry. -/
def KettleStep (q : Nat) (s t : State) : Prop :=
  ∃ l, t.kettle q = { s.kettle q with atomq := l } ∧ ((s.kettle q).atomq = [] → l = [])

section
variable {q : Nat} {s t u : State}

theorem KettleStep.of_kettles (h : t.kettles = s.kettles) : KettleStep q s t :=
  ⟨(s.kettle q).atomq, by rw [State.kettle, h]; rfl, id⟩

theorem KettleStep.refl (s : State) : KettleStep q s s := .of_kettles rfl

theorem KettleStep.trans (h : KettleStep q s t) (h' : KettleStep q t u) : KettleStep q s u := by
  obtain ⟨l, ht, hl⟩ := h
  obtain ⟨m, hu, hm⟩ := h'
  rw [ht] at hu hm
  exact ⟨m, hu, fun h => hm (hl h)⟩

theorem KettleStep.ite {p : Prop} [Decidable p] (ht : p → KettleStep q s t) (hu : ¬p → KettleStep q s u) : KettleStep q s (if p then t else u) := by
  by_cases hp : p
  · rw [if_pos hp]; exact ht hp
  · rw [if_neg hp]; exact hu hp

theorem kettleStep_foldl {α : Type} {f : State → α → State} (hf : ∀ s x, KettleStep q s (f s x)) (l : List α) (s : State) : KettleStep q s (l.foldl f s) := by
  induction l generalizing s with
  | nil => exact .refl s
  | cons x l ih => exact (hf s x).trans (ih _)

theorem KettleStep.run (h : KettleStep q s t) : (t.kettle q).run = (s.kettle q).run := by
  obtain ⟨l, ht, -⟩ := h
  rw [ht]

theorem KettleStep.atomq_nil (h : KettleStep q s t) (hs : (s.kettle q).atomq = []) : (t.kettle q).atomq = [] := by
  obtain ⟨l, ht, hl⟩ := h
  rw [ht]
  exact hl hs

/-- A plain store that joins a queue changes nothing but the queue of its kettle. -/
theorem joinQueue_kettle (q pa : Nat) (a : Agent) (num : Nat) (rels : List (Agent × Scope)) (s : State) :
    ∃ l, (joinQueue pa a num rels s).kettle q = { s.kettle q with atomq := l } ∧ (homeKettle pa ≠ some q → l = (s.kettle q).atomq) := by
  unfold joinQueue
  split
  · exact ⟨_, rfl, fun _ => rfl⟩
  · next p hp =>
    by_cases hq : q = p
    · subst hq
      exact ⟨_, (smGet_smSet ..).trans (if_pos rfl), fun hne => absurd hp hne⟩
    · exact ⟨_, (smGet_smSet ..).trans (if_neg hq), fun _ => rfl⟩

theorem kettleStep_joinQueue {pa : Nat} (a : Agent) (num : Nat) (rels : List (Agent × Scope)) (s : State)
    (h : homeKettle pa = some q → (s.kettle q).atomq ≠ []) : KettleStep q s (joinQueue pa a num rels s) := by
  obtain ⟨l, hl, hsame⟩ := joinQueue_kettle q pa a num rels s
  exact ⟨l, hl, fun hnil => (hsame fun hq => h hq hnil).trans hnil⟩

/-- The kettle of a line that atomics hold has an entry in its queue. -/
theorem atomq_of_heldAt {a : Agent} {k : Nat} (h : s.heldAt a k = true) (hq : homeKettle k = some q) : (s.kettle q).atomq ≠ [] := by
  unfold State.heldAt at h
  simp only [hq, Bool.and_eq_true] at h
  obtain ⟨-, h⟩ := h
  have hk : s.kettle q = (smFind s.kettles q).getD Kettle.reset := rfl
  cases hf : smFind s.kettles q with
  | none => rw [hf] at h; exact absurd h Bool.false_ne_true
  | some x =>
    rw [hf] at h
    rw [hk, hf]
    intro hnil
    obtain ⟨y, hy, -⟩ := List.any_eq_true.mp h
    rw [show x.atomq = [] from hnil] at hy
    exact absurd hy List.not_mem_nil

end

section
variable (q : Nat) (s : State)

theorem kettles_post (pl : Place) (k : Nat) (b : List Byte) : (Machine.post pl k b s).kettles = s.kettles := by
  unfold Machine.post
  split
  · split <;> rfl
  · rfl

theorem kettles_fireWrite (cls k n : Nat) : (fireWrite cls k n s).kettles = s.kettles := by
  unfold fireWrite
  simp only
  split <;> rfl

theorem kettles_performRaw (a : Agent) (pl : Place) (rels : List (Agent × Scope)) (strong : Bool) (tag : OpTag) (below : Nat → List Version → Nat)
    (k : Nat) (b : List Byte) : (performRaw a pl rels strong tag below k b s).kettles = s.kettles := by
  have hpost : ∀ t : State, (match a with | .host _ => t | _ => Machine.post pl k b t).kettles = t.kettles := fun t => by
    split
    · rfl
    · exact kettles_post ..
  unfold performRaw
  simp only
  split
  · rw [kettles_fireWrite]
    exact hpost _
  · exact hpost _

theorem kettles_meeting (a : Agent) (pl : Place) (bound : Nat → Version → Bool) (k n : Nat) : (meeting a pl bound k n s).2.kettles = s.kettles := by
  unfold meeting
  split <;> rfl

theorem kettles_moveHist (h : SMap (List Version)) : (moveHist h s).kettles = s.kettles := by
  unfold moveHist
  split <;> rfl

theorem kettles_unpark : (unpark s).kettles = s.kettles := by
  unfold unpark
  split <;> rfl

theorem kettleStep_withHist (h : SMap (List Version)) : KettleStep q s (withHist h s) := by
  unfold withHist
  refine .ite (fun _ => .of_kettles (kettles_moveHist s h)) fun _ => ?_
  simp only
  have hfold : ∀ (l : List (Nat × Agent × Nat × List (Agent × Scope))) (t : State), (∀ x ∈ l, homeKettle x.1 = some q → (s.kettle q).atomq ≠ []) →
      KettleStep q s t → KettleStep q s (l.foldl (fun s x => joinQueue x.1 x.2.1 x.2.2.1 x.2.2.2 s) t) := by
    intro l
    induction l with
    | nil => intro t _ ht; exact ht
    | cons x l ih =>
      intro t hl ht
      refine ih _ (fun y hy => hl y (List.mem_cons_of_mem _ hy)) ?_
      by_cases hne : (s.kettle q).atomq = []
      · exact ht.trans (kettleStep_joinQueue _ _ _ _ fun hq => absurd hne (hl x List.mem_cons_self hq))
      · obtain ⟨m, hm, -⟩ := ht
        obtain ⟨k, hk, -⟩ := joinQueue_kettle q x.1 x.2.1 x.2.2.1 x.2.2.2 t
        exact ⟨k, hk.trans (by rw [hm]), fun hnil => absurd hnil hne⟩
  refine hfold _ _ (fun x hx hq => ?_) (.of_kettles (kettles_moveHist s _))
  obtain ⟨⟨o, n⟩, -, hx⟩ := List.mem_flatMap.mp hx
  obtain ⟨⟨v, w⟩, -, hx⟩ := List.mem_filterMap.mp hx
  simp only at hx
  split at hx
  · next hj =>
    obtain ⟨a, ha, rfl⟩ := Option.map_eq_some_iff.mp hx
    simp only [State.joins, ha, Bool.and_eq_true] at hj
    rw [homeKettle_word] at hq
    exact atomq_of_heldAt hj.2 hq
  · exact nomatch hx

theorem kettleStep_performAt (a : Agent) (pl : Place) (rels : List (Agent × Scope)) (tag : OpTag) (k : Nat) (b : List Byte) :
    KettleStep q s (performAt a pl rels tag k b s) := by
  have hraw : ∀ t k b, KettleStep q t (performRaw a pl rels false tag onTop k b t) := fun t k b => .of_kettles (kettles_performRaw t ..)
  unfold performAt
  refine .ite (fun _ => kettleStep_foldl (fun t y => ?_) _ _) fun _ => hraw ..
  refine .ite (fun hheld => ?_) fun _ => hraw ..
  have henter : ∀ t : State, (enterWrite a [] [] false tag onTop y.1 y.2 t).kettles = t.kettles := fun _ => rfl
  refine .trans (.of_kettles (henter t)) (kettleStep_joinQueue _ _ _ _ fun hq => ?_)
  rw [homeKettle_word] at hq
  rw [State.kettle, henter]
  exact atomq_of_heldAt hheld hq

theorem kettleStep_performStore (a : Agent) (sc : Scope) (rels : List (Agent × Scope)) (w : PWrite) : KettleStep q s (performStore a sc rels s w) :=
  kettleStep_foldl (fun t _ => kettleStep_performAt q t ..) _ _

theorem kettleStep_setAgent (a : Agent) (m : AgentMem) : KettleStep q s (s.setAgent a m) := .of_kettles rfl

theorem kettleStep_unpark : KettleStep q s (unpark s) := .of_kettles (kettles_unpark s)

theorem kettleStep_performSome (a : Agent) {f : State → PWrite → State} (hf : ∀ s w, KettleStep q s (f s w)) (hit : PWrite → Bool) :
    KettleStep q s (performSome a f hit s) := by
  unfold performSome
  refine .ite (fun _ => ?_) fun _ => .refl s
  exact ((kettleStep_setAgent q s a _).trans (kettleStep_foldl (fun _ _ => .ite (fun _ => hf ..) fun _ => kettleStep_performStore ..) _ _)).trans
    (kettleStep_unpark q _)

theorem kettleStep_release (a : Agent) (sc : Scope) : KettleStep q s (release a sc s) := by
  have hpend : KettleStep q s (if (s.agent a).pend.isEmpty then s
      else (s.agent a).pend.foldl (performPend a sc) (s.setAgent a { s.agent a with pend := [] })) :=
    .ite (fun _ => .refl s) fun _ => (kettleStep_setAgent q s a _).trans (kettleStep_foldl (fun t w => kettleStep_performStore q t ..) _ _)
  exact (hpend.trans (kettleStep_withHist q _ _)).trans (kettleStep_unpark q _)

theorem kettleStep_releaseRange (a : Agent) (sc : Scope) (k n : Nat) : KettleStep q s (releaseRange a sc k n s) := by
  have hsome : KettleStep q s (releaseSome a sc (fun w => decide (w.pa < k + n ∧ k < w.pa + w.bytes.length)) s) :=
    kettleStep_performSome q s a (fun _ _ => kettleStep_performStore ..) _
  unfold releaseRange
  exact .ite (fun _ => hsome) fun _ => (hsome.trans (kettleStep_withHist q _ _)).trans (kettleStep_unpark q _)

theorem kettleStep_strongStore (a : Agent) (sc : Scope) (l1 : Bool) (k : Nat) (b : List Byte) : KettleStep q s (strongStore a sc l1 k b s) := by
  unfold strongStore
  exact (kettleStep_releaseRange q s ..).trans (.trans (.of_kettles (kettles_meeting ..)) (.of_kettles (kettles_performRaw ..)))

end

end Sys2Proof

/-! # Memory instructions of kettles (R113, R114, R123, R124) -/

namespace Sys2Proof

open Machine

/-! ### The kettle after a change (R95, R113) -/

section
variable (s : State) (q : Nat)

theorem modKettle_modKettle (f g : Kettle → Kettle) : (s.modKettle q f).modKettle q g = s.modKettle q fun k => g (f k) := by
  unfold State.modKettle
  rw [show (({ s with kettles := smSet s.kettles q (f (s.kettle q)) } : State).kettle q) = f (s.kettle q) from (smGet_smSet ..).trans (if_pos rfl),
    smSet_smSet]

theorem modKettle_congr {f g : Kettle → Kettle} (h : f (s.kettle q) = g (s.kettle q)) : s.modKettle q f = s.modKettle q g := by
  unfold State.modKettle
  rw [h]

theorem modKettle_self (f : Kettle → Kettle) : (s.modKettle q f).kettle q = f (s.kettle q) := (State.modKettle_kettle ..).trans (if_pos rfl)

/-- An access with PI moves its address register on. -/
theorem modKettle_postInc (pi : Bool) (a : BitVec 3) (n : Nat) (g : Kettle → Kettle) :
    (postInc q pi a n s).modKettle q g = s.modKettle q fun k => g (moved pi a n k) := by
  cases pi
  · rfl
  · show (s.modKettle q fun k => k.setJ a.toNat (k.jr a + BitVec.ofNat 64 n)).modKettle q g = _
    exact modKettle_modKettle s q _ g

theorem kettle_postInc (pi : Bool) (a : BitVec 3) (n : Nat) : (postInc q pi a n s).kettle q = moved pi a n (s.kettle q) := by
  cases pi
  · rfl
  · show (s.modKettle q fun k => k.setJ a.toNat (k.jr a + BitVec.ofNat 64 n)).kettle q = _
    exact modKettle_self s q _

end

/-- A kettle at another instruction. -/
def atKpc (n : Nat) (k : Kettle) : Kettle := { k with kpc := n }

theorem atKpc_kr (n : Nat) (k : Kettle) (r : BitVec 5) : (atKpc n k).kr r = k.kr r := rfl
theorem atKpc_kpc (n : Nat) (k : Kettle) : (atKpc n k).kpc = n := rfl
theorem atKpc_jr (n : Nat) (k : Kettle) (r : BitVec 3) : (atKpc n k).jr r = k.jr r := rfl

theorem setK_jr (k : Kettle) (d : Nat) (v : KWord) (r : BitVec 3) : (k.setK d v).jr r = k.jr r := by
  unfold Kettle.jr
  rw [Kettle.setK_j]

theorem moved_kpc (pi : Bool) (a : BitVec 3) (n : Nat) (k : Kettle) : (moved pi a n k).kpc = k.kpc := by cases pi <;> rfl

theorem moved_kr (pi : Bool) (a : BitVec 3) (n : Nat) (k : Kettle) (r : BitVec 5) : (moved pi a n k).kr r = k.kr r := by cases pi <;> rfl

theorem moved_jr (pi : Bool) (a : BitVec 3) (n : Nat) (k : Kettle) : (moved pi a n k).jr a = if pi then k.jr a + BitVec.ofNat 64 n else k.jr a := by
  cases pi
  · rfl
  · exact (Kettle.setJ_jr ..).trans (if_pos rfl)

/-- A kettle that has changed but for its KPC goes on at its next instruction. -/
theorem modKettle_next (t : State) (q : Nat) {f : Kettle → Kettle} (hf : ∀ k, (f k).kpc = k.kpc) :
    (t.modKettle q f).modKettle q (atKpc (((t.modKettle q f).kettle q).kpc + 1)) = t.modKettle q fun k => atKpc (k.kpc + 1) (f k) := by
  rw [modKettle_modKettle, modKettle_self, hf]
  exact modKettle_congr t q rfl

/-- The same with the address register of an access moved on. -/
theorem postInc_next (t : State) (q : Nat) (pi : Bool) (a : BitVec 3) (n : Nat) {f : Kettle → Kettle} (hf : ∀ k, (f k).kpc = k.kpc) :
    (postInc q pi a n (t.modKettle q f)).modKettle q (atKpc (((postInc q pi a n (t.modKettle q f)).kettle q).kpc + 1))
      = t.modKettle q fun k => atKpc (k.kpc + 1) (moved pi a n (f k)) := by
  rw [modKettle_postInc, modKettle_modKettle, kettle_postInc, modKettle_self, moved_kpc, hf]
  exact modKettle_congr t q rfl

theorem postInc_next' (t : State) (q : Nat) (pi : Bool) (a : BitVec 3) (n : Nat) :
    (postInc q pi a n t).modKettle q (atKpc (((postInc q pi a n t).kettle q).kpc + 1)) = t.modKettle q fun k => atKpc (k.kpc + 1) (moved pi a n k) := by
  rw [modKettle_postInc, kettle_postInc, moved_kpc]
  exact modKettle_congr t q rfl

/-- A kettle with another PROGRESS. -/
def withProgress (v : W32) (k : Kettle) : Kettle := { k with progress := v }

theorem withProgress_next (v : W32) (n : Nat) (k : Kettle) : atKpc n (withProgress v k) = { k with progress := v, kpc := n } := rfl

/-! ### Accesses of a kettle (R113, R123) -/

section
variable {q : Nat} {c : KCmd} {s s1 t : State} {a : BitVec 3} {imm : BitVec 32} {al len : Nat} {kinds : Nat → Bool}

/-- The conditions on an effective address. -/
def EaOk (c : KCmd) (ea al len : Nat) (kinds : Nat → Bool) : Prop :=
  ea % al = 0 ∧ offOk ea = true ∧ ea % 2 ^ 30 + len ≤ 0x30000000 ∧ inRange c.words kinds ea len = true

theorem eaTest_iff (ea : Nat) : (ea % al == 0 && offOk ea && decide (ea % 2 ^ 30 + len ≤ 0x30000000) && inRange c.words kinds ea len) = true
    ↔ EaOk c ea al len kinds := by
  simp only [Bool.and_eq_true, beq_iff_eq, decide_eq_true_eq, EaOk, and_assoc]

theorem kettleEa_ok (h : KettleActs q c s) (hok : EaOk c ((s.kettle q).jr a + imm.signExtend 64).toNat al len kinds) :
    kettleEa q a imm al len kinds s = .ok ((s.kettle q).jr a + imm.signExtend 64).toNat s :=
  (bindM_ok (runningCmd_ok h)).trans ((bindM_ok (x := get) (s := s) rfl).trans (bindM_ok (congrFun (if_pos ((eaTest_iff _).mpr hok)) s)))

theorem kettleEa_bad (h : KettleActs q c s) (hno : ¬EaOk c ((s.kettle q).jr a + imm.signExtend 64).toNat al len kinds) :
    kettleEa q a imm al len kinds s = .error (.trap 0x03 0 0) s :=
  (bindM_ok (runningCmd_ok h)).trans ((bindM_ok (x := get) (s := s) rfl).trans
    (bindM_error (congrFun (if_neg fun hb => hno ((eaTest_iff _).mp hb)) s)))

theorem kettleCheck_ok {k : AKind} {pa n : Nat} (h : checkAccess s (.kettle q) k pa n = none) : kettleCheck q k pa n s = .ok () s := by
  refine (bindM_ok (x := get) (s := s) rfl).trans ?_
  rw [h]
  rfl

theorem kettleLoad_ok {o n : Nat} {b : List Byte} (h : loadRange (.kettle q) none (kettlePa q o) n 64 s = (b, s1)) : kettleLoad q o n s = .ok b s1 := by
  refine (bindM_ok (x := get) (s := s) rfl).trans ?_
  rw [h]
  rfl

theorem kettleStore_ok (q o : Nat) (sc : Scope) (b : List Byte) (s : State) :
    kettleStore q o sc b s = .ok () (strongStore (.kettle q) sc false (kettlePa q o) b s) := rfl

/-- An instruction goes on at the next. -/
def nextKpc (q : Nat) : M Nat := do pure ((← get).kettle q).kpc.succ

theorem nextKpc_ok (q : Nat) (s : State) : nextKpc q s = .ok ((s.kettle q).kpc + 1) s := rfl

theorem act_nextKpc (q : Nat) (g : State → State) (s : State) : (act g >>= fun _ => nextKpc q) s = .ok (((g s).kettle q).kpc + 1) (g s) := rfl

/-- An access that is misaligned or out of range ends the command (R113). -/
theorem kRun_bad {f : Nat → M Nat} (h : KettleActs q c s) (hf : f q s = .error (.trap 0x03 0 0) s) :
    kRun f s = .next (kettleEnd q 3 3 (s.kettle q).kpc 0 0 s) := kRun_trap h hf

theorem exec_kld_bad (h : KettleActs q c s) (f : KForm) (pi : Bool) (d : BitVec 5)
    (hno : ¬EaOk c ((s.kettle q).jr a + imm.signExtend 64).toNat 64 (KForm.bytes f) canRead) :
    exec (.kld f pi d a imm) s = .next (kettleEnd q 3 3 (s.kettle q).kpc 0 0 s) := by
  show execKld f pi d a imm s = _
  exact kRun_bad h (bindM_error (kettleEa_bad h hno))

theorem exec_kst_bad (h : KettleActs q c s) (f : KForm) (pi : Bool) (b : BitVec 5)
    (hno : ¬EaOk c ((s.kettle q).jr a + imm.signExtend 64).toNat 64 (KForm.bytes f) canWrite) :
    exec (.kst f pi a b imm) s = .next (kettleEnd q 3 3 (s.kettle q).kpc 0 0 s) := by
  show execKst f pi a b imm s = _
  exact kRun_bad h (bindM_error (kettleEa_bad h hno))

theorem exec_kflag_bad (h : KettleActs q c s) (pkg : Bool) (b : BitVec 3)
    (hno : ¬EaOk c ((s.kettle q).jr a + imm.signExtend 64).toNat 8 8 canWrite) :
    exec (.kflag pkg a b imm) s = .next (kettleEnd q 3 3 (s.kettle q).kpc 0 0 s) := by
  show execKflag pkg a b imm s = _
  exact kRun_bad h (bindM_error (kettleEa_bad h hno))

theorem exec_kld (h : KettleActs q c s) {f : KForm} (pi : Bool) (d : BitVec 5) {b : List Byte}
    (hr : KettleReaches q c s a imm 64 (KForm.bytes f) canRead .read)
    (hl : loadRange (.kettle q) none (kettlePa q ((s.kettle q).jr a + imm.signExtend 64).toNat) (KForm.bytes f) 64 s = (b, s1)) :
    exec (.kld f pi d a imm) s = .next (s1.modKettle q fun k => atKpc (k.kpc + 1) (moved pi a (KForm.bytes f) (k.setK d.toNat (kldValue f b)))) := by
  show execKld f pi d a imm s = _
  obtain ⟨hal, hoff, hlen, hin, hacc⟩ := hr
  have hend := kRun_ok (f := fun q => do
    let ea ← kettleEa q a imm 64 (KForm.bytes f) canRead
    kettleCheck q .read (kettlePa q ea) (KForm.bytes f)
    let b ← kettleLoad q ea (KForm.bytes f)
    act fun s => postInc q pi a (KForm.bytes f) (s.modKettle q fun k => k.setK d.toNat (kldValue f b))
    nextKpc q) h ((bindM_ok (kettleEa_ok h ⟨hal, hoff, hlen, hin⟩)).trans ((bindM_ok (kettleCheck_ok hacc)).trans
      ((bindM_ok (kettleLoad_ok hl)).trans (act_nextKpc q _ s1))))
  exact hend.trans (congrArg Host.Outcome.next (postInc_next s1 q pi a _ fun k => Kettle.setK_kpc k _ _))

theorem exec_kst (h : KettleActs q c s) {f : KForm} (pi : Bool) (b : BitVec 5) (hr : KettleReaches q c s a imm 64 (KForm.bytes f) canWrite .write) :
    exec (.kst f pi a b imm) s = .next ((strongStore (.kettle q) .pkg false (kettlePa q ((s.kettle q).jr a + imm.signExtend 64).toNat)
      (kstBytes f ((s.kettle q).kr b)) s).modKettle q fun k => atKpc (k.kpc + 1) (moved pi a (KForm.bytes f) k)) := by
  show execKst f pi a b imm s = _
  obtain ⟨hal, hoff, hlen, hin, hacc⟩ := hr
  have hend := kRun_ok (f := fun q => do
    let ea ← kettleEa q a imm 64 (KForm.bytes f) canWrite
    kettleCheck q .write (kettlePa q ea) (KForm.bytes f)
    let s ← get
    kettleStore q ea .pkg (kstBytes f ((s.kettle q).kr b))
    act (postInc q pi a (KForm.bytes f))
    nextKpc q) h ((bindM_ok (kettleEa_ok h ⟨hal, hoff, hlen, hin⟩)).trans ((bindM_ok (kettleCheck_ok hacc)).trans ((get_bindM _).trans ((bindM_ok (kettleStore_ok q _ _ _ s)).trans (act_nextKpc q _ _)))))
  exact hend.trans (congrArg Host.Outcome.next (postInc_next' _ q pi a _))

/-- KFLAG performs its store after every earlier access of the kettle (R123). -/
theorem exec_kflag (h : KettleActs q c s) (pkg : Bool) (b : BitVec 3) (hr : KettleReaches q c s a imm 8 8 canWrite .write) :
    exec (.kflag pkg a b imm) s = .next ((strongStore (.kettle q) (if pkg then .pkg else .die) false
      (kettlePa q ((s.kettle q).jr a + imm.signExtend 64).toNat) (leBytes 8 ((s.kettle q).jr b).toNat)
      (release (.kettle q) (if pkg then .pkg else .die) s)).modKettle q fun k => atKpc (k.kpc + 1) (withProgress (((s.kettle q).jr b).setWidth 32) k)) := by
  show execKflag pkg a b imm s = _
  obtain ⟨hal, hoff, hlen, hin, hacc⟩ := hr
  have hend := kRun_ok (f := fun q => do
    let ea ← kettleEa q a imm 8 8 canWrite
    kettleCheck q .write (kettlePa q ea) 8
    let s ← get
    let v := (s.kettle q).jr b
    act (release (.kettle q) (if pkg then .pkg else .die))
    kettleStore q ea (if pkg then .pkg else .die) (bytes64 v)
    act fun s => s.modKettle q (withProgress (v.setWidth 32))
    nextKpc q) h ((bindM_ok (kettleEa_ok h ⟨hal, hoff, hlen, hin⟩)).trans ((bindM_ok (kettleCheck_ok hacc)).trans ((get_bindM _).trans ((act_bindM _ _).trans
      ((bindM_ok (kettleStore_ok q _ _ _ _)).trans (act_nextKpc q _ _))))))
  exact hend.trans (congrArg Host.Outcome.next (modKettle_next _ q fun _ => rfl))

/-! ### All-bank forms (R114, R135) -/

/-- The piece of a load of an all-bank form. -/
def bankLoad (q o : Nat) : M (List KWord) := do pure [BitVec.ofNat 2048 (leNat (← kettleLoad q o 256))]

/-- The piece of a store of an all-bank form. -/
def bankStore (q : Nat) (w : KWord) (o : Nat) : M (List KWord) := do kettleStore q o .pkg (leBytes 256 w.toNat); pure []

/-- The value of an all-bank load in each lane (R114). -/
def bankValue (g : List FVal → FVal) (l : List KWord) : KWord :=
  ofLanes ((List.range 64).map fun i => kf (g ((l.map lanesOf).map fun x => kv (x.getD i 0))))

theorem lane_bankValue (g : List FVal → FVal) (l : List KWord) {j : Nat} (hj : j < 64) :
    lane (bankValue g l) j = laneOf (g (l.map fun w => laneVal (lane w j))) := by
  have hrow : (l.map lanesOf).map (fun x => kv (x.getD j 0)) = l.map fun w => laneVal (lane w j) := by
    rw [List.map_map]
    refine List.map_congr_left fun w _ => ?_
    show kv ((lanesOf w).getD j 0) = _
    rw [List.getD_eq_getElem?_getD, lanesOf_getElem? _ hj]
    rfl
  have hval : ((List.range 64).map fun i => kf (g ((l.map lanesOf).map fun x => kv (x.getD i 0))))[j]? = some (laneOf (g (l.map fun w => laneVal (lane w j)))) := by
    rw [← hrow, List.getElem?_map, List.getElem?_range hj]
    rfl
  exact lane_ofLanes_of_lt hj hval (laneOf_lt _)

/-- The sum or the maximum of the pieces of an all-bank load (R114). -/
def bankSum (big : Bool) (l : List FVal) : FVal := if big then l.foldl maxX (.inf true) else sumExact .rne l

theorem exec_kldAb (big : Bool) (pi : Bool) (d : BitVec 5) (s : State) : exec (if big then Instr.kldAbMax pi d a imm else .kldAbSum pi d a imm) s
    = kldAllBank (bankSum big) pi d a imm s := by cases big <;> rfl

theorem kldAllBank_ok (h : KettleActs q c s) (g : List FVal → FVal) (pi : Bool) (d : BitVec 5) {l : List KWord}
    (hl : allBank q a imm .read canRead (bankLoad q) s = .ok l s1) :
    kldAllBank g pi d a imm s = .next (s1.modKettle q fun k => atKpc (k.kpc + 1) (moved pi a 256 (k.setK d.toNat (bankValue g l)))) := by
  have hend := kRun_ok (f := fun q => do
    let l ← allBank q a imm .read canRead (fun o => do pure [ofBytesK (← kettleLoad q o 256)])
    let ls := l.map lanesOf
    let v := ofLanes ((List.range 64).map fun i => kf (g (ls.map fun x => kv (x.getD i 0))))
    act fun s => postInc q pi a 256 (s.modKettle q fun k => k.setK d.toNat v)
    nextKpc q) h ((bindM_ok hl).trans (act_nextKpc q _ s1))
  exact hend.trans (congrArg Host.Outcome.next (postInc_next s1 q pi a _ fun k => Kettle.setK_kpc k _ _))

theorem kRun_wait {f : Nat → M Nat} (h : KettleActs q c s) (hf : f q s = .error .wait t) : kRun f s = .next t := by
  obtain ⟨hcur, hrun⟩ := h
  simp only [kRun, hcur, hrun, hf, State.ringed]

theorem kldAllBank_wait (h : KettleActs q c s) (g : List FVal → FVal) (pi : Bool) (d : BitVec 5)
    (hl : allBank q a imm .read canRead (bankLoad q) s = .error .wait s1) : kldAllBank g pi d a imm s = .next s1 :=
  kRun_wait h (bindM_error hl)

theorem bankWave_same (h : KettleActs q c s) (hw : (s.kettle q).wave ≠ none) (big pi : Bool) (d : BitVec 5)
    (hp : (c.prog[(s.kettle q).kpc]?).bind kdecode = some (if big then Instr.kldAbMax pi d a imm else .kldAbSum pi d a imm)) :
    exec (.kettleBankWave q) s = exec (if big then Instr.kldAbMax pi d a imm else .kldAbSum pi d a imm) s := by
  obtain ⟨hcur, hrun⟩ := h
  have hself : { s with cur := .kettle q } = s := by rw [← hcur]
  show execKettleBankWave q s = _
  unfold execKettleBankWave
  cases hwave : (s.kettle q).wave with
  | none => exact absurd hwave hw
  | some w =>
    simp only [hwave, hrun, hp, hself]
    cases big <;> rfl

theorem exec_kstAb (h : KettleActs q c s) (pi : Bool) (b : BitVec 5) {l : List KWord}
    (hl : allBank q a imm .write canWrite (bankStore q ((s.kettle q).kr b)) s = .ok l s1) :
    exec (.kstAb pi a b imm) s = .next (s1.modKettle q fun k => atKpc (k.kpc + 1) (moved pi a 256 k)) := by
  show execKstAb pi a b imm s = _
  have hend := kRun_ok (f := fun q => do
    let s ← get
    let v := bytesK ((s.kettle q).kr b)
    let _ ← allBank q a imm .write canWrite (fun o => do kettleStore q o .pkg v; pure [])
    act (postInc q pi a 256)
    nextKpc q) h ((get_bindM _).trans ((bindM_ok hl).trans (act_nextKpc q _ s1)))
  exact hend.trans (congrArg Host.Outcome.next (postInc_next' s1 q pi a _))

theorem exec_kstAb_wait (h : KettleActs q c s) (pi : Bool) (b : BitVec 5)
    (hl : allBank q a imm .write canWrite (bankStore q ((s.kettle q).kr b)) s = .error .wait s1) : exec (.kstAb pi a b imm) s = .next s1 := by
  show execKstAb pi a b imm s = _
  exact kRun_wait h ((get_bindM _).trans (bindM_error hl))

end

/-! ### Atomics of a kettle (R124, R125) -/

section
variable {q : Nat} {c : KCmd} {s : State}

theorem applyQueue_all (q : Nat) (l : List KAtom) (s : State) : (applyQueue q (fun _ => true) l s).1 = [] := by
  induction l generalizing s with
  | nil => rfl
  | cons x l ih => exact ih _

/-- A kettle that runs is listed. -/
theorem smFind_of_run (h : (s.kettle q).run = some c) : smFind s.kettles q = some (s.kettle q) := by
  have hk : s.kettle q = (smFind s.kettles q).getD Kettle.reset := rfl
  cases hf : smFind s.kettles q with
  | some k => rw [hk, hf]; rfl
  | none =>
    rw [hk, hf] at h
    exact nomatch h

/-- Applying every entry empties the queue and changes nothing else of the kettle. -/
theorem applyAtoms_all (h : (s.kettle q).run = some c) : (s.applyAtoms q fun _ => true).kettle q = { s.kettle q with atomq := [] } := by
  unfold State.applyAtoms
  rw [smFind_of_run h]
  simp only
  split
  · refine (smGet_smSet ..).trans ((if_pos rfl).trans ?_)
    rw [applyQueue_all]
  · next hno =>
    have hnil : (s.kettle q).atomq = [] := by
      cases hq : (s.kettle q).atomq with
      | nil => rfl
      | cons x l => exact absurd (by rw [hq]; rfl) hno
    rw [← hnil]

theorem exec_katom (h : KettleActs q c s) : ∃ t, exec .katom s = .next t ∧ (t.kettle q).atomq = [] ∧ (t.kettle q).kpc = (s.kettle q).kpc + 1 := by
  have hend := kRun_ok (f := fun q => do
    act fun s => s.applyAtoms q fun _ => true
    nextKpc q) h (act_nextKpc q _ s)
  refine ⟨_, hend, ?_, ?_⟩
  · rw [modKettle_self]
    show ((s.applyAtoms q fun _ => true).kettle q).atomq = []
    rw [applyAtoms_all h.2]
  · rw [modKettle_self]
    show ((s.applyAtoms q fun _ => true).kettle q).kpc + 1 = _
    rw [applyAtoms_all h.2]

end

theorem kettleMemory_rule : ruleKettleMemory := by
  intro q s c h
  refine ⟨fun f pi d a imm b s1 hr hl => exec_kld h pi d hr hl, fun f pi a b imm hr => exec_kst h pi b hr,
    fun f pi r a imm => ⟨exec_kld_bad h f pi r, exec_kst_bad h f pi r, fun hno pkg b => exec_kflag_bad h pkg b hno⟩,
    fun big pi d a imm => ⟨fun l s1 hl => ⟨_, (exec_kldAb big pi d s).trans (kldAllBank_ok h _ pi d hl), ?_⟩, fun s1 hl => ?_⟩,
    fun pi a b imm s1 => ⟨fun l hl => exec_kstAb h pi b hl, exec_kstAb_wait h pi b⟩, fun pkg a b imm hr => exec_kflag h pkg b hr, exec_katom h⟩
  · have hval := fun j hj => lane_bankValue (bankSum big) l (j := j) hj
    generalize bankValue (bankSum big) l = v at hval ⊢
    rw [modKettle_self, State.modKettle_mem]
    refine ⟨fun j hj => ?_, fun r hr => ?_, atKpc_kpc _ _, ?_, rfl⟩
    · refine Eq.trans ?_ (hval j hj)
      refine congrArg (fun w => lane w j) ((atKpc_kr _ _ d).trans ?_)
      rw [moved_kr, Kettle.setK_kr, if_pos rfl]
    · refine (atKpc_kr _ _ r).trans ?_
      rw [moved_kr, Kettle.setK_kr, if_neg fun he => hr (BitVec.eq_of_toNat_eq he)]
    · refine (atKpc_jr _ _ a).trans ?_
      rw [moved_jr, setK_jr]
      rfl
  · have hnext := (exec_kldAb big pi d s).trans (kldAllBank_wait h _ pi d hl)
    exact ⟨hnext, fun hw p hp he => (bankWave_same h hw big pi d (he ▸ hp)).trans hnext⟩

end Sys2Proof

/-! # Control and trees of kettle programs (R115, R122, R129, R130) -/

namespace Sys2Proof

open Machine

/-! ### Registers and loops of a kettle program (R115, R122) -/

section
variable {q : Nat} {c : KCmd} {s : State}

/-- What an instruction leaves that changes neither k registers nor what stands beside the kettle, and goes on at an index. -/
def GoesOn (q : Nat) (c : KCmd) (s t : State) (pc : Nat) : Prop :=
  OnlyKettle q s t ∧ (t.kettle q).kpc = pc ∧ (t.kettle q).k = (s.kettle q).k ∧ (t.kettle q).run = some c

/-- Kettle q changed by f, at another instruction. -/
def kettleAt (s : State) (q pc : Nat) (f : Kettle → Kettle) : State := (s.modKettle q f).modKettle q (atKpc pc)

theorem kettleAt_kettle (s : State) (q pc : Nat) (f : Kettle → Kettle) : (kettleAt s q pc f).kettle q = atKpc pc (f (s.kettle q)) := by
  unfold kettleAt
  rw [modKettle_self, modKettle_self]

theorem kettleAt_only (s : State) (q pc : Nat) (f : Kettle → Kettle) : OnlyKettle q s (kettleAt s q pc f) :=
  ⟨rfl, fun _ hp => ((State.modKettle_kettle ..).trans (if_neg hp)).trans ((State.modKettle_kettle ..).trans (if_neg hp))⟩

theorem kettleAt_goesOn (h : KettleActs q c s) (pc : Nat) {f : Kettle → Kettle} (hk : (f (s.kettle q)).k = (s.kettle q).k)
    (hr : (f (s.kettle q)).run = (s.kettle q).run) : GoesOn q c s (kettleAt s q pc f) pc := by
  refine ⟨kettleAt_only s q pc f, ?_⟩
  rw [kettleAt_kettle]
  exact ⟨rfl, hk, hr.trans h.2⟩

theorem modKettle_only (s : State) (q : Nat) (f : Kettle → Kettle) : OnlyKettle q s (s.modKettle q f) :=
  ⟨rfl, fun _ hp => (State.modKettle_kettle ..).trans (if_neg hp)⟩

theorem modKettle_goesOn (h : KettleActs q c s) (pc : Nat) : GoesOn q c s (s.modKettle q (atKpc pc)) pc := by
  refine ⟨modKettle_only s q _, ?_⟩
  rw [modKettle_self]
  exact ⟨rfl, rfl, h.2⟩

theorem kPure_eq (h : KettleActs q c s) (f : KCmd → Kettle → Kettle) : kPure f s = .next (kettleAt s q ((s.kettle q).kpc + 1) (f c)) := by
  obtain ⟨g, hg, hok⟩ := kPure_body f h
  exact hg.trans (kRun_ok h hok)

theorem exec_knop (h : KettleActs q c s) : ∃ t, exec .knop s = .next t ∧ GoesOn q c s t ((s.kettle q).kpc + 1)
    ∧ (t.kettle q).j = (s.kettle q).j ∧ (t.kettle q).loops = (s.kettle q).loops := by
  refine ⟨_, kPure_eq h fun _ k => k, kettleAt_goesOn h _ rfl rfl, ?_⟩
  rw [kettleAt_kettle]
  exact ⟨rfl, rfl⟩

/-- The value of KAG (R115). -/
def kagValue (c : KCmd) (k : Kettle) : KagF → W64
  | .addi a imm => k.jr a + imm.signExtend 64
  | .addr a b => k.jr a + k.jr b
  | .li imm => imm.signExtend 64
  | .shl a n => BitVec.ofNat 64 ((k.jr a).toNat * 2 ^ n.toNat)
  | .prm i => c.param.getD i.toNat 0
  | .mul a imm => BitVec.ofInt 64 ((k.jr a).toInt * imm.toInt)

theorem mul_signExtend (x : W64) (imm : BitVec 32) : x * imm.signExtend 64 = BitVec.ofInt 64 (x.toInt * imm.toInt) := by
  rw [BitVec.ofInt_mul, BitVec.ofInt_toInt]
  rfl

theorem exec_kag (h : KettleActs q c s) (d : BitVec 3) (f : KagF) :
    exec (.kag d f) s = .next (kettleAt s q ((s.kettle q).kpc + 1) fun k => k.setJ d.toNat (kagValue c k f)) := by
  show execKag d f s = _
  refine (kPure_eq h _).trans (congrArg (fun g => Host.Outcome.next (kettleAt s q ((s.kettle q).kpc + 1) g)) (funext fun k => congrArg (k.setJ d.toNat) ?_))
  cases f
  case shl a n => exact shiftLeft_eq_ofNat _ _
  case mul a imm => exact mul_signExtend _ _
  all_goals rfl

theorem kag_rule (h : KettleActs q c s) (d : BitVec 3) (f : KagF) : ∃ t, exec (.kag d f) s = .next t ∧ GoesOn q c s t ((s.kettle q).kpc + 1)
    ∧ (∀ r, r ≠ d → (t.kettle q).jr r = (s.kettle q).jr r) ∧ (t.kettle q).jr d = kagValue c (s.kettle q) f := by
  refine ⟨_, exec_kag h d f, kettleAt_goesOn h _ rfl rfl, fun r hr => ?_, ?_⟩
  · rw [kettleAt_kettle, atKpc_jr, Kettle.setJ_jr, if_neg fun he => hr (BitVec.eq_of_toNat_eq he)]
  · rw [kettleAt_kettle, atKpc_jr, Kettle.setJ_jr, if_pos rfl]

/-- How often a KLOOP runs its body (R122). -/
def loopCount (k : Kettle) : KCount → Nat
  | .j a => bits (k.jr a) 0 32
  | .imm v => v.toNat

/-- Where the body of a KLOOP ends. -/
def loopEnd (c : KCmd) (k : Kettle) : Nat := findEnd (c.prog.drop (k.kpc + 1)) (k.kpc + 1) 0

/-- A kettle with other open loops. -/
def withLoops (l : List (Nat × Nat × Nat)) (k : Kettle) : Kettle := { k with loops := l }

theorem exec_kloop (h : KettleActs q c s) (x : KCount) :
    exec (.kloop x) s = .next (if loopCount (s.kettle q) x = 0 then s.modKettle q (atKpc (loopEnd c (s.kettle q) + 1))
      else kettleAt s q ((s.kettle q).kpc + 1) (withLoops ((s.kettle q).loops ++ [((s.kettle q).kpc + 1, loopEnd c (s.kettle q), loopCount (s.kettle q) x)]))) := by
  show execKloop x s = _
  by_cases h0 : loopCount (s.kettle q) x = 0
  · rw [if_pos h0]
    refine kRun_ok h ((bindM_ok (runningCmd_ok h)).trans ((get_bindM _).trans ?_))
    cases x <;> exact congrFun (if_pos h0) s
  · rw [if_neg h0]
    refine kRun_ok h ((bindM_ok (runningCmd_ok h)).trans ((get_bindM _).trans ?_))
    cases x <;> exact congrFun (if_neg h0) s

theorem kloop_rule (h : KettleActs q c s) (x : KCount) : ∃ t, exec (.kloop x) s = .next t
    ∧ GoesOn q c s t (if loopCount (s.kettle q) x = 0 then loopEnd c (s.kettle q) + 1 else (s.kettle q).kpc + 1) ∧ (t.kettle q).j = (s.kettle q).j
    ∧ (t.kettle q).loops = if loopCount (s.kettle q) x = 0 then (s.kettle q).loops
      else (s.kettle q).loops ++ [((s.kettle q).kpc + 1, loopEnd c (s.kettle q), loopCount (s.kettle q) x)] := by
  refine ⟨_, exec_kloop h x, ?_⟩
  split
  · refine ⟨modKettle_goesOn h _, ?_⟩
    rw [modKettle_self]
    exact ⟨rfl, rfl⟩
  · refine ⟨kettleAt_goesOn h _ rfl rfl, ?_⟩
    rw [kettleAt_kettle]
    exact ⟨rfl, rfl⟩

theorem kend_rule (h : KettleActs q c s) {outer : List (Nat × Nat × Nat)} {b e n : Nat} (hl : (s.kettle q).loops = outer ++ [(b, e, n)]) :
    ∃ t, exec .kend s = .next t ∧ GoesOn q c s t (if 1 < n then b else (s.kettle q).kpc + 1) ∧ (t.kettle q).j = (s.kettle q).j
      ∧ (t.kettle q).loops = if 1 < n then outer ++ [(b, e, n - 1)] else outer := by
  have hlast : (s.kettle q).loops.getLast? = some (b, e, n) := by rw [hl, List.getLast?_concat]
  have houter : (s.kettle q).loops.take ((s.kettle q).loops.length - 1) = outer := by rw [hl]; simp
  have hend : exec .kend s = .next (kettleAt s q (if 1 < n then b else (s.kettle q).kpc + 1) (withLoops (if 1 < n then outer ++ [(b, e, n - 1)] else outer))) := by
    show execKend s = _
    refine kRun_ok h ((get_bindM _).trans ?_)
    simp only [hlast, houter]
    by_cases hn : 1 < n
    · simp only [if_pos hn]
      rfl
    · simp only [if_neg hn]
      rfl
  refine ⟨_, hend, kettleAt_goesOn h _ rfl rfl, ?_⟩
  rw [kettleAt_kettle]
  exact ⟨rfl, rfl⟩

end

/-! ### The end of a command (R103, R122, R125) -/

section
variable {q : Nat} {c : KCmd} {s : State}

theorem kettles_kettleDone (q ac num : Nat) (s : State) : (kettleDone q ac num s).kettles = s.kettles := by
  unfold kettleDone
  simp only
  split <;> rfl

theorem kettleStep_writeStatus (p q ac num : Nat) (pa : Option Nat) (w : List W64) (s : State) : KettleStep p s (writeStatus q ac num pa w s) := by
  unfold writeStatus
  cases pa with
  | none => exact .of_kettles (kettles_kettleDone ..)
  | some pa =>
    refine (kettleStep_release p s (.kettle q) .pkg).trans (.ite (fun _ => ?_) fun _ => .of_kettles rfl)
    exact (kettleStep_strongStore p _ _ _ _ _ _).trans (.of_kettles (kettles_kettleDone ..))

theorem kettles_endSession (serial q : Nat) (s : State) : (endSession serial q s).kettles = s.kettles := by
  unfold endSession
  split <;> rfl

/-- The kettle of a command that has ended is idle, and holds no entry. -/
theorem kettleEnd_idle (h : (s.kettle q).run = some c) (state cause kpc : Nat) (acc0 acc1 : W64) :
    ((kettleEnd q state cause kpc acc0 acc1 s).kettle q).run = none ∧ ((kettleEnd q state cause kpc acc0 acc1 s).kettle q).atomq = [] := by
  have hatoms := applyAtoms_all h
  have hidle : ∀ t : State, (t.kettle q).atomq = [] →
      (((endSession c.session q t).modKettle q fun k => { k with run := none, abort := false, wave := none }).kettle q).run = none
        ∧ (((endSession c.session q t).modKettle q fun k => { k with run := none, abort := false, wave := none }).kettle q).atomq = [] := fun t ht => by
    rw [modKettle_self]
    refine ⟨rfl, ?_⟩
    show ((endSession c.session q t).kettle q).atomq = []
    rw [State.kettle, kettles_endSession]
    exact ht
  obtain ⟨hrun, hnil⟩ := hidle (s.applyAtoms q fun _ => true) (by rw [hatoms])
  unfold kettleEnd
  rw [h]
  have hstep := kettleStep_writeStatus q q c.ac c.num c.statusPa
  exact ⟨(hstep _ _).run.trans hrun, (hstep _ _).atomq_nil hnil⟩

theorem khalt_rule (h : KettleActs q c s) : ∃ t, exec .khalt s = .next t ∧ (t.kettle q).run = none ∧ (t.kettle q).atomq = [] := by
  obtain ⟨hcur, hrun⟩ := h
  refine ⟨_, ?_, kettleEnd_idle hrun 1 0 (s.kettle q).kpc 0 0⟩
  show execKhalt s = _
  unfold execKhalt
  rw [hcur]
  simp only [hrun]

end

/-! ### The reduction tree (R129, R130) -/

section
variable {q : Nat} {c : KCmd} {s : State} {x : Session}

theorem session_serial {serial : Nat} (hx : s.session serial = some x) : x.serial = serial ∧ serial ≠ 0 := by
  have := List.find?_some hx
  simpa using this

/-- The contribution of a KRED (R129). -/
def contributes (serial : Nat) (y : Nat × Nat × TreeOp × List KWord) (x : Session) : Session :=
  if x.serial = serial then { x with contrib := x.contrib ++ [y] } else x

theorem session_contributes {serial : Nat} (hx : s.session serial = some x) (y : Nat × Nat × TreeOp × List KWord) :
    ({ s with sessions := s.sessions.map (contributes serial y) } : State).session serial = some { x with contrib := x.contrib ++ [y] } := by
  have hserial : ∀ z : Session, (contributes serial y z).serial = z.serial := fun z => by
    unfold contributes
    split <;> rfl
  have hfind : ({ s with sessions := s.sessions.map (contributes serial y) } : State).session serial = (s.session serial).map (contributes serial y) := by
    show (s.sessions.map _).find? _ = (s.sessions.find? _).map _
    rw [List.find?_map]
    refine congrArg (Option.map _) (congrArg (fun p => s.sessions.find? p) (funext fun z => ?_))
    show (_ == serial && _) = _
    rw [hserial]
  rw [hfind, hx]
  exact congrArg some (if_pos (session_serial hx).1)

/-- A kettle that has given one more contribution. -/
def contributed (k : Kettle) : Kettle := { k with contributed := k.contributed + 1 }

theorem kred_rule (h : KettleActs q c s) (o : TreeOp) (a : BitVec 5) (hx : s.session c.session = some x)
    (hroom : (s.kettle q).contributed < (s.kettle q).received + 2) :
    ∃ t, exec (.kred o a) s = .next t ∧ (t.kettle q).contributed = (s.kettle q).contributed + 1 ∧ (t.kettle q).kpc = (s.kettle q).kpc + 1
      ∧ t.session c.session = some { x with contrib := x.contrib ++ [((s.kettle q).contributed, q, o, (treeRegs o a).map fun r => smGet 0 (s.kettle q).k r)] }
      ∧ (t.kettle q).k = (s.kettle q).k ∧ t.mem = s.mem := by
  have hend : exec (.kred o a) s = .next (kettleAt { s with sessions := s.sessions.map (contributes c.session ((s.kettle q).contributed, q, o,
      (treeRegs o a).map fun r => smGet 0 (s.kettle q).k r)) } q ((s.kettle q).kpc + 1) contributed) := by
    show execKred o a s = _
    refine kRun_ok h ((bindM_ok (runningCmd_ok h)).trans ((get_bindM _).trans ((bindM_ok (congrFun (if_pos ?_) s)).trans rfl)))
    rw [hx, decide_eq_true hroom]
    rfl
  refine ⟨_, hend, ?_⟩
  rw [kettleAt_kettle]
  exact ⟨rfl, rfl, session_contributes hx _, rfl, rfl⟩

theorem krcv_waits (h : KettleActs q c s) (o : TreeOp) (d : BitVec 5) (hx : s.session c.session = some x)
    (hgave : (s.kettle q).received < (s.kettle q).contributed) (hgiven : (x.given (s.kettle q).received q).map (·.1) = some o)
    (hc : x.complete (s.kettle q).received = false) : exec (.krcv o d) s = .next s := by
  show execKrcv o d s = _
  refine kRun_wait h ((bindM_ok (runningCmd_ok h)).trans ((get_bindM _).trans ?_))
  simp only [hx]
  refine (bindM_ok (congrFun (if_pos ?_) s)).trans ?_
  · rw [decide_eq_true hgave, hgiven]
    simp
  · simp only [hc]
    rfl

/-- The registers that a KRCV writes (R129). -/
def received (o : TreeOp) (d : BitVec 5) (r : List KWord) (k : Kettle) : Kettle :=
  { ((treeRegs o d).zip r).foldl (fun k (i, v) => k.setK i v) k with received := k.received + 1 }

theorem krcv_receives (h : KettleActs q c s) (o : TreeOp) (d : BitVec 5) (hx : s.session c.session = some x)
    (hgave : (s.kettle q).received < (s.kettle q).contributed) (hgiven : (x.given (s.kettle q).received q).map (·.1) = some o)
    (hc : x.complete (s.kettle q).received = true) (hagree : x.agreed (s.kettle q).received = true) :
    exec (.krcv o d) s = .next (kettleAt s q ((s.kettle q).kpc + 1) (received o d (x.root o (s.kettle q).received))) := by
  show execKrcv o d s = _
  refine kRun_ok h ((bindM_ok (runningCmd_ok h)).trans ((get_bindM _).trans ?_))
  simp only [hx]
  refine (bindM_ok (congrFun (if_pos ?_) s)).trans ?_
  · rw [decide_eq_true hgave, hgiven]
    simp
  · simp only [hc, hagree]
    rfl

theorem received_kr {o : TreeOp} (ho : o ≠ .maxsum) (d : BitVec 5) (v : KWord) (rest : List KWord) (k : Kettle) (e : BitVec 5) :
    (received o d (v :: rest) k).kr e = if e = d then v else k.kr e := by
  have hregs : treeRegs o d = [d.toNat] := by
    cases o
    case maxsum => exact absurd rfl ho
    all_goals rfl
  have hkr : (received o d (v :: rest) k).kr e = (k.setK d.toNat v).kr e := by
    unfold received
    rw [hregs]
    rfl
  rw [hkr, Kettle.setK_kr]
  simp only [BitVec.toNat_inj]

end

theorem kettleControl_rule : ruleKettleControl := by
  intro q s c h
  refine ⟨exec_knop h, fun d f => ?_, fun x => ?_, fun outer b e n hl => kend_rule h hl, khalt_rule h, fun o a x hx hroom => ?_,
    fun o d x hx hgave hgiven => ⟨krcv_waits h o d hx hgave hgiven, fun hc hagree r rest hroot => ?_⟩⟩
  · obtain ⟨t, ht, hgo, hother, hd⟩ := kag_rule h d f
    refine ⟨t, ht, hgo, hother, hd.trans ?_⟩
    cases f <;> rfl
  · obtain ⟨t, ht, hgo, hj, hloops⟩ := kloop_rule h x
    have hlow : ∀ v : W64, bits v 0 32 = v.toNat % 2 ^ 32 := fun v => congrArg (· % 2 ^ 32) (Nat.div_one _)
    cases x
    · simp only [loopCount, hlow] at hgo hloops
      exact ⟨t, ht, hgo, hj, hloops⟩
    · exact ⟨t, ht, hgo, hj, hloops⟩
  · have hregs : treeRegs o a = if o = .maxsum then [a.toNat, a.toNat + 1] else [a.toNat] := by cases o <;> rfl
    have hred := kred_rule h o a hx hroom
    rw [hregs] at hred
    exact hred
  · refine ⟨_, krcv_receives h o d hx hgave hgiven hc hagree, ?_⟩
    rw [kettleAt_kettle, hroot]
    refine ⟨rfl, rfl, fun ho => ⟨?_, fun e he => ?_⟩, rfl⟩
    · rw [atKpc_kr, received_kr ho, if_pos rfl]
    · rw [atKpc_kr, received_kr ho, if_neg he]

/-- Settles O35: each instruction's run in the monad of kettles, and what the end of a command leaves of the queue of its kettle. -/
theorem kettleMemory : Obligations.KettleMemory := ⟨kettleMemory_rule, kettleControl_rule⟩

end Sys2Proof

/-! # NMRUN -/

namespace Sys2Proof

open Machine

/- Declarations are checked one after another: side by side they would hold a thread each. -/
set_option Elab.async false

/-! ### NMRUN (R339) -/

/-- The command that NMRUN puts into the issue path. -/
def nmCommand (n k die : Nat) (mask : W64) (bytes : List Byte) (prog param : List W64) (clip : Option W32) (st p7 : List (Nat × Nat)) : KIssue :=
  ⟨n, k, die, mask, words64 bytes, param, clip, prog,
    (List.range (setOf die mask).length).filterMap fun i => (pieceAt st (64 * i)).map (canonPa (dieOf n)), (pieceAt p7 0).map (canonPa (dieOf n)), 0, 0, []⟩

/-- The cluster of a command that has its number. -/
def nmJoins (d : BitVec 6) (k die : Nat) (mask : W64) (launch : Nat) (x : AC) : AC :=
  { x with io := { x.io with nm := x.io.nm ++ [(⟨k, setOf die mask, launch⟩ : NmCmd)] }, cc := x.cc.setS d (BitVec.ofNat 64 k) }

/-- What NMRUN does with the operands it has read: its command has a number, stands in the issue path, and is outstanding. -/
def nmIssue (n : Nat) (d : BitVec 6) (die : Nat) (mask : W64) (launch : Nat) (bytes : List Byte) (prog param : List W64) (clip : Option W32)
    (st p7 : List (Nat × Nat)) (s : State) : State :=
  let k := (s.tlNumber n 6).1
  let t := (s.tlNumber n 6).2
  { t with kissue := t.kissue ++ [nmCommand n k die mask bytes prog param clip st p7] }.modAc n (nmJoins d k die mask launch)

/-- The launch of a task, or 0. -/
def taskLaunch (task : Option Task) : Nat := match task with | some t => t.launch | none => 0

/-- The end of NMRUN: the issue permission on every port of the set, and the command. -/
def nmPorts (n : Nat) (d : BitVec 6) (die : Nat) (mask : W64) (task : Option Task) (bytes : List Byte) (prog param : List W64) (clip : Option W32)
    (st p7 : List (Nat × Nat)) : M Flow := do
  let s ← get
  match (setOf die mask).findSome? fun q => checkAccess s (.ac n 0) .issue (portPa q) 8 with
  | some x => throw x
  | none => pure ()
  act fun s =>
    let (k, s) := s.tlNumber n 6
    let launch := taskLaunch task
    let s := { s with kissue := s.kissue ++ [nmCommand n k die mask bytes prog param clip st p7] }
    s.modAc n (nmJoins d k die mask launch)
  pure .seq

/-- The reads of NMRUN: its command block, and what that names. -/
def nmReads (n : Nat) (d : BitVec 6) (va : W64) (die : Nat) (mask : W64) (task : Option Task) : M Flow := do
  let bytes ← readRange (.ac n 0) va 128 8
  let w := fun i => (words64 bytes).getD i 0
  let at' := fun i => addr55 (w i)
  let len := bits (w 3) 0 7
  let prog ← if 1 ≤ len ∧ len ≤ 96 then blockRead n (at' 0) (8 * len) else pure []
  let param ← blockRead n (at' 1) 64
  let clip ← if (w 3).getLsbD 28 then do
      let t ← useTdt (.ac n 0) (match task with | some t => t.word 5 | none => 0) (bits (w 3) 16 12)
      pure (some t.clip)
    else pure none
  need ((at' 0).toNat % 8 == 0) 0x02 (at' 0) 0
  need ((at' 1).toNat % 64 == 0) 0x02 (at' 1) 0
  need ((at' 2).toNat % 64 == 0) 0x02 (at' 2) 0
  let st ← writeTargets n (at' 2) (64 * (setOf die mask).length)
  let p7 ← if (w 3).getLsbD 30 then writeTargets n (at' 1 + 0x38) 8 else pure []
  nmPorts n d die mask task bytes prog param clip st p7

section
variable {n : Nat} {d : BitVec 6} {die : Nat} {mask : W64} {task : Option Task} {bytes : List Byte} {prog param : List W64} {clip : Option W32}
  {st p7 : List (Nat × Nat)} {s : State}

theorem nmPorts_ok (hp : ((setOf die mask).findSome? fun q => checkAccess s (.ac n 0) .issue (portPa q) 8) = none) :
    nmPorts n d die mask task bytes prog param clip st p7 s
      = .ok .seq (nmIssue n d die mask (taskLaunch task) bytes prog param clip st p7 s) := by
  unfold nmPorts
  refine (get_bindM _).trans ?_
  rw [hp]
  rfl

/-- What NMRUN leaves once it has retired. -/
theorem nmIssued_ends (h : Head) (launch : Nat) :
    let num := (s.ac n).ln.issueCount 6 + 1
    ∃ t e, t = ccDone n h (nmIssue n d die mask launch bytes prog param clip st p7 s) ∧ t.kissue = s.kissue ++ [e] ∧ e.ac = n ∧ e.num = num ∧ e.die = die
      ∧ e.mask = mask ∧ e.words = words64 bytes ∧ e.prog = prog ∧ e.param = param ∧ e.clip = clip ∧ e.stage = 0 ∧ (t.ac n).ln.issueCount 6 = num
      ∧ (d ≠ 0 → (t.ac n).cc.s d = BitVec.ofNat 64 num) ∧ SRegsBut [d] (s.ac n).cc (t.ac n).cc ∧ t.mem = s.mem ∧ t.kettles = s.kettles := by
  have hac : (nmIssue n d die mask launch bytes prog param clip st p7 s).ac n
      = nmJoins d ((s.ac n).ln.issueCount 6 + 1) die mask launch ((s.tlNumber n 6).2.ac n) := (State.modAc_ac ..).trans (if_pos rfl)
  rw [tlNumber_ac, if_pos rfl] at hac
  obtain ⟨hr, hv⟩ := ccDone_of_setS (h := h) (c := (s.ac n).cc) (d := d) (v := BitVec.ofNat 64 ((s.ac n).ln.issueCount 6 + 1)) (by rw [hac]; rfl)
  refine ⟨_, nmCommand n ((s.ac n).ln.issueCount 6 + 1) die mask bytes prog param clip st p7, rfl, rfl, rfl, rfl, rfl, rfl, rfl, rfl, rfl, rfl, rfl, ?_, hv, hr.sregs, rfl, rfl⟩
  rw [ccDone_ac, if_pos rfl, hac]
  exact (smGet_smSet ..).trans (if_pos rfl)

end

/-- The reads of NMRUN answer: its block, the program, its parameters, the CLIP of its descriptor, and the translations of what its kettles
will write. -/
structure NmRead (n : Nat) (va : W64) (die : Nat) (mask : W64) (task : Option Task) (bytes : List Byte) (prog param : List W64) (clip : Option W32)
    (st p7 : List (Nat × Nat)) (s s1 s2 s3 s4 s5 s6 : State) : Prop where
  block : readRange (.ac n 0) va 128 8 s = .ok bytes s1
  program : if 1 ≤ bits ((words64 bytes).getD 3 0) 0 7 ∧ bits ((words64 bytes).getD 3 0) 0 7 ≤ 96 then
      blockRead n (addr55 ((words64 bytes).getD 0 0)) (8 * bits ((words64 bytes).getD 3 0) 0 7) s1 = .ok prog s2
    else prog = [] ∧ s2 = s1
  params : blockRead n (addr55 ((words64 bytes).getD 1 0)) 64 s2 = .ok param s3
  clips : if ((words64 bytes).getD 3 0).getLsbD 28 then
      ∃ td, useTdt (.ac n 0) (match task with | some tk => tk.word 5 | none => 0) (bits ((words64 bytes).getD 3 0) 16 12) s3 = .ok td s4
        ∧ clip = some td.clip
    else clip = none ∧ s4 = s3
  align0 : (addr55 ((words64 bytes).getD 0 0)).toNat % 8 = 0
  align1 : (addr55 ((words64 bytes).getD 1 0)).toNat % 64 = 0
  align2 : (addr55 ((words64 bytes).getD 2 0)).toNat % 64 = 0
  status : writeTargets n (addr55 ((words64 bytes).getD 2 0)) (64 * (setOf die mask).length) s4 = .ok st s5
  step : if ((words64 bytes).getD 3 0).getLsbD 30 then writeTargets n (addr55 ((words64 bytes).getD 1 0) + 0x38) 8 s5 = .ok p7 s6
    else p7 = [] ∧ s6 = s5

/-- A read that is made under a condition answers, and what follows it goes on with the answer. -/
theorem bindM_opt {α β : Type} {p : Prop} [Decidable p] {m : M α} {x a : α} {f : α → M β} {s t : State}
    (h : if p then m s = .ok a t else a = x ∧ t = s) : (if p then m >>= f else pure x >>= f) s = f a t := by
  split
  · next hp => exact bindM_ok (by rwa [if_pos hp] at h)
  · next hp =>
    rw [if_neg hp] at h
    obtain ⟨rfl, rfl⟩ := h
    rfl

section
variable {n : Nat} {h : Head} {d a b : BitVec 6} {c : Src} {s : State}

theorem exec_nmrun_eq (hv : ((s.ac n).cc.s a).toNat < 2 ^ 55) : ∃ f, exec (.nmrun h d a b c) s = ccRun h (.nmrun h d a b c) f s ∧ f n s = (do
    need (((s.ac n).cc.s a).toNat % 128 == 0) 0x02 ((s.ac n).cc.s a) 0
    need ((s.ac n).cc.s b != 0) 0x02 ((s.ac n).cc.s b) 0
    need (decide (((s.ac n).cc.src c).toNat < 4)) 0x02 ((s.ac n).cc.src c) 0
    if 8 ≤ (s.ac n).io.nm.length ∨ s.deliveryWaits n then throw .wait
    nmReads n d ((s.ac n).cc.s a) ((s.ac n).cc.src c).toNat ((s.ac n).cc.s b) (s.ac n).cc.task : M Flow) s :=
  ⟨_, rfl, (get_bindM _).trans ((bindM_ok (addrRange_ok hv s)).trans rfl)⟩

theorem nmReads_ok {va : W64} {die : Nat} {mask : W64} {task : Option Task} {bytes : List Byte} {prog param : List W64} {clip : Option W32}
    {st p7 : List (Nat × Nat)} {s1 s2 s3 s4 s5 s6 : State} (hr : NmRead n va die mask task bytes prog param clip st p7 s s1 s2 s3 s4 s5 s6)
    (hp : ((setOf die mask).findSome? fun q => checkAccess s6 (.ac n 0) .issue (portPa q) 8) = none) :
    nmReads n d va die mask task s
      = .ok .seq (nmIssue n d die mask (taskLaunch task) bytes prog param clip st p7 s6) := by
  obtain ⟨hblock, hprog, hparam, hclip, hal0, hal1, hal2, hst, hp7⟩ := hr
  unfold nmReads
  refine (bindM_ok hblock).trans ?_
  refine (bindM_opt hprog).trans ((bindM_ok hparam).trans ?_)
  have htail : ∀ v : W64, ∀ {α : Type} {k : Nat} {f : Unit → M α} {t : State}, v.toNat % k = 0 → (need (v.toNat % k == 0) 0x02 v 0 >>= f) t = f () t :=
    fun v _ _ _ _ hv => bindM_ok (need_true (beq_iff_eq.mpr hv))
  split at hclip
  · next h28 =>
    obtain ⟨td, htd, rfl⟩ := hclip
    refine (congrFun (if_pos h28) s3).trans ((bindM_ok htd).trans ((htail _ hal0).trans ((htail _ hal1).trans ((htail _ hal2).trans ((bindM_ok hst).trans
      ((bindM_opt hp7).trans (nmPorts_ok hp)))))))
  · next h28 =>
    obtain ⟨rfl, rfl⟩ := hclip
    refine (congrFun (if_neg h28) s4).trans ((htail _ hal0).trans ((htail _ hal1).trans ((htail _ hal2).trans ((bindM_ok hst).trans
      ((bindM_opt hp7).trans (nmPorts_ok hp))))))

end

theorem deliveryWaits_iff (n : Nat) (s : State) : s.deliveryWaits n = true
    ↔ ¬∀ e ∈ s.kissue, e.ac = n → e.stage = 2 → ∀ q ∈ setOf e.die e.mask, (s.kettle q).queue.length + (s.kettle q).run.isSome.toNat < 4 := by
  simp only [State.deliveryWaits, State.kettleRoom, List.any_eq_true, Bool.and_eq_true, beq_iff_eq, Bool.not_eq_true', decide_eq_false_iff_not, not_forall]
  constructor
  · rintro ⟨e, he, ⟨ha, hst⟩, q, hq, hn⟩
    exact ⟨e, he, ha, hst, q, hq, hn⟩
  · rintro ⟨e, he, ha, hst, q, hq, hn⟩
    exact ⟨e, he, ⟨ha, hst⟩, q, hq, hn⟩

section
variable {n : Nat} {h : Head} {d a b : BitVec 6} {c : Src} {s : State}

theorem exec_nmrun_misaligned (ha : CcActs n h s) (hv : ((s.ac n).cc.s a).toNat < 2 ^ 55) (hal : ((s.ac n).cc.s a).toNat % 128 ≠ 0) :
    exec (.nmrun h d a b c) s = .next (syncTrap n 0x02 ((s.ac n).cc.s a) 0 s) := by
  obtain ⟨f, hx, hf⟩ := exec_nmrun_eq (h := h) (d := d) (b := b) (c := c) hv
  exact hx.trans (ccRun_trap ha (hf.trans (bindM_error (need_false (beq_eq_false_iff_ne.mpr hal)))))

theorem exec_nmrun_empty (ha : CcActs n h s) (hv : ((s.ac n).cc.s a).toNat < 2 ^ 55) (hal : ((s.ac n).cc.s a).toNat % 128 = 0) (hm : (s.ac n).cc.s b = 0) :
    exec (.nmrun h d a b c) s = .next (syncTrap n 0x02 ((s.ac n).cc.s b) 0 s) := by
  obtain ⟨f, hx, hf⟩ := exec_nmrun_eq (h := h) (d := d) (b := b) (c := c) hv
  exact hx.trans (ccRun_trap ha (hf.trans ((bindM_ok (need_true (beq_iff_eq.mpr hal))).trans
    (bindM_error (need_false (bne_eq_false_iff_eq.mpr hm))))))

/-- NMRUN of legal operands goes on to its wait, or to its reads. -/
theorem exec_nmrun_legal (hv : ((s.ac n).cc.s a).toNat < 2 ^ 55) (hal : ((s.ac n).cc.s a).toNat % 128 = 0) (hm : (s.ac n).cc.s b ≠ 0)
    (hd : ((s.ac n).cc.src c).toNat < 4) : ∃ f, exec (.nmrun h d a b c) s = ccRun h (.nmrun h d a b c) f s ∧ f n s = (do
      if 8 ≤ (s.ac n).io.nm.length ∨ s.deliveryWaits n then throw .wait
      nmReads n d ((s.ac n).cc.s a) ((s.ac n).cc.src c).toNat ((s.ac n).cc.s b) (s.ac n).cc.task : M Flow) s := by
  obtain ⟨f, hx, hf⟩ := exec_nmrun_eq (h := h) (d := d) (b := b) (c := c) hv
  exact ⟨f, hx, hf.trans ((bindM_ok (need_true (beq_iff_eq.mpr hal))).trans ((bindM_ok (need_true (bne_iff_ne.mpr hm))).trans
    (bindM_ok (need_true (decide_eq_true hd)))))⟩

theorem exec_nmrun_waits (ha : CcActs n h s) (hv : ((s.ac n).cc.s a).toNat < 2 ^ 55) (hal : ((s.ac n).cc.s a).toNat % 128 = 0) (hm : (s.ac n).cc.s b ≠ 0)
    (hd : ((s.ac n).cc.src c).toNat < 4) (h8 : 8 ≤ (s.ac n).io.nm.length) :
    ∃ t, exec (.nmrun h d a b c) s = .next t ∧ CcWaits n (.nmrun h d a b c) s t := by
  obtain ⟨f, hx, hf⟩ := exec_nmrun_legal (h := h) (d := d) hv hal hm hd
  obtain ⟨t, ht, hw⟩ := ccRun_waits (i := .nmrun h d a b c) ha (hf.trans (congrFun (if_pos (Or.inl h8)) s))
  exact ⟨t, hx.trans ht, hw⟩

theorem exec_nmrun_issues {bytes : List Byte} {prog param : List W64} {clip : Option W32} {st p7 : List (Nat × Nat)} {s1 s2 s3 s4 s5 s6 : State}
    (ha : CcActs n h s) (hv : ((s.ac n).cc.s a).toNat < 2 ^ 55) (hal : ((s.ac n).cc.s a).toNat % 128 = 0) (hm : (s.ac n).cc.s b ≠ 0)
    (hd : ((s.ac n).cc.src c).toNat < 4) (h8 : (s.ac n).io.nm.length < 8)
    (hroom : ∀ e ∈ s.kissue, e.ac = n → e.stage = 2 → ∀ q ∈ setOf e.die e.mask, (s.kettle q).queue.length + (s.kettle q).run.isSome.toNat < 4)
    (hr : NmRead n ((s.ac n).cc.s a) ((s.ac n).cc.src c).toNat ((s.ac n).cc.s b) (s.ac n).cc.task bytes prog param clip st p7 s s1 s2 s3 s4 s5 s6)
    (hp : ((setOf ((s.ac n).cc.src c).toNat ((s.ac n).cc.s b)).findSome? fun q => checkAccess s6 (.ac n 0) .issue (portPa q) 8) = none) :
    exec (.nmrun h d a b c) s = .next (ccDone n h (nmIssue n d ((s.ac n).cc.src c).toNat ((s.ac n).cc.s b)
      (taskLaunch (s.ac n).cc.task) bytes prog param clip st p7 s6)) := by
  obtain ⟨f, hx, hf⟩ := exec_nmrun_legal (h := h) (d := d) hv hal hm hd
  have hgo : ¬(8 ≤ (s.ac n).io.nm.length ∨ s.deliveryWaits n = true) := by
    rintro (h | h)
    · omega
    · exact (deliveryWaits_iff n s).mp h hroom
  exact hx.trans (ccRun_retires ha (hf.trans ((congrFun (if_neg hgo) s).trans (nmReads_ok hr hp))))

end

end Sys2Proof

/-! # NMFENCE -/

namespace Sys2Proof

open Machine

/- Declarations are checked one after another: side by side they would hold a thread each. -/
set_option Elab.async false

/-! ### NMFENCE (R340, R162) -/

section
variable {n : Nat} {h : Head} {sc : Scope} {s : State}

/-- What NMFENCE has noted, or the count of TL.VS when it issues. -/
def fenceNotes (n : Nat) (h : Head) (sc : Scope) (s : State) : List Nat := (s.noted n (.nmfence h sc)).getD [(s.ac n).ln.issueCount 2]

/-- The atomics of the cluster that NMFENCE waits for. -/
def fenceSent (n : Nat) (h : Head) (sc : Scope) (s : State) : Nat := (fenceNotes n h sc s).getD 1 (s.ac n).io.vsta

/-- The CC with new notes of the instruction it runs. -/
def noting (i : Instr) (l : List Nat) (cycle : Nat) (c : CC) : CC :=
  { c with wait := some ⟨i, match c.wait with | some w => if w.instr = i then w.t0 else cycle | none => cycle, l, false⟩ }

theorem note_eq (i : Instr) (l : List Nat) (s : State) : note n i l s = .ok () (s.modCC n (noting i l s.cycle)) := rfl

/-- The scope at which NMFENCE acquires: .fab acts as .pkg. -/
def fenceScope (sc : Scope) : Scope := match sc with | .fab => .pkg | sc => sc

/-- The last test of NMFENCE, against the atomics in the queues of the kettles, and its acquire. -/
def fenceEnds (n sent : Nat) (sc : Scope) (q : SMap Kettle) : M Flow := do
  if q.any fun k => k.2.atomq.any fun x => x.sentBy n sent then throw .wait
  act (acquire (.ac n 0) (fenceScope sc))
  pure .seq

/-- The CC of an NMFENCE that has found its count shown. -/
def fenceNoted (n : Nat) (h : Head) (sc : Scope) (s : State) : State :=
  (s.modCC n (noting (.nmfence h sc) (fenceNotes n h sc s) s.cycle)).modCC n
    (noting (.nmfence h sc) [(fenceNotes n h sc s).headD 0, fenceSent n h sc s] s.cycle)

theorem exec_nmfence_eq : ∃ f, exec (.nmfence h sc) s = ccRun h (.nmfence h sc) f s ∧ f n s = (do
    note n (.nmfence h sc) (fenceNotes n h sc s)
    if (s.ac n).ln.shown 2 < (fenceNotes n h sc s).headD 0 then throw .wait
    note n (.nmfence h sc) [(fenceNotes n h sc s).headD 0, fenceSent n h sc s]
    fenceEnds n (fenceSent n h sc s) sc s.kettles : M Flow) s := ⟨_, rfl, rfl⟩

/-- Notes of the instruction in which the CC waits are part of that wait. -/
theorem ccWaits_of_noting {i j : Instr} {l : List Nat} {k : Nat} {t : State} (hw : CcWaits n i (s.modCC n (noting j l k)) t) : CcWaits n i s t := by
  obtain ⟨ho, hc, hi⟩ := hw
  have hac : (s.modCC n (noting j l k)).ac n = { s.ac n with cc := noting j l k (s.ac n).cc } := (State.modAc_ac ..).trans (if_pos rfl)
  refine ⟨?_, by rw [hac] at hc; exact hc, hi⟩
  rw [OnlyCc, hac, State.modCC, State.modAc, setAc_setAc] at ho
  exact ho

/-- NMFENCE after its first test of TL.VS. -/
theorem exec_nmfence_shown (hs : (fenceNotes n h sc s).headD 0 ≤ (s.ac n).ln.shown 2) :
    ∃ f, exec (.nmfence h sc) s = ccRun h (.nmfence h sc) f s ∧ f n s = fenceEnds n (fenceSent n h sc s) sc s.kettles (fenceNoted n h sc s) := by
  obtain ⟨f, hx, hf⟩ := exec_nmfence_eq (n := n) (h := h) (sc := sc) (s := s)
  refine ⟨f, hx, hf.trans ((bindM_ok (note_eq ..)).trans ((congrFun (if_neg (Nat.not_lt.mpr hs)) _).trans (bindM_ok (note_eq ..))))⟩

theorem exec_nmfence_early (ha : CcActs n h s) (hs : (s.ac n).ln.shown 2 < (fenceNotes n h sc s).headD 0) :
    ∃ t, exec (.nmfence h sc) s = .next t ∧ CcWaits n (.nmfence h sc) s t := by
  obtain ⟨f, hx, hf⟩ := exec_nmfence_eq (n := n) (h := h) (sc := sc) (s := s)
  obtain ⟨t, ht, hw⟩ := ccRun_waits_after (i := .nmfence h sc) ha (hf.trans ((bindM_ok (note_eq ..)).trans (congrFun (if_pos hs) _)))
  exact ⟨t, hx.trans ht, ccWaits_of_noting hw⟩

theorem exec_nmfence_held (ha : CcActs n h s) (hs : (fenceNotes n h sc s).headD 0 ≤ (s.ac n).ln.shown 2)
    (hh : (s.kettles.any fun k => k.2.atomq.any fun x => x.sentBy n (fenceSent n h sc s)) = true) :
    ∃ t, exec (.nmfence h sc) s = .next t ∧ CcWaits n (.nmfence h sc) s t := by
  obtain ⟨f, hx, hf⟩ := exec_nmfence_shown hs
  obtain ⟨t, ht, hw⟩ := ccRun_waits_after (i := .nmfence h sc) ha (hf.trans (congrFun (if_pos hh) _))
  exact ⟨t, hx.trans ht, ccWaits_of_noting (ccWaits_of_noting hw)⟩

theorem nmfenceDone_reruns (n : Nat) (h : Head) (sc : Scope) :
    ∃ g, (∀ s0, exec (.nmfenceDone n) s0 = rerun n g s0) ∧ g (.nmfence h sc) = some (exec (.nmfence h sc)) :=
  ⟨fun i => match i with | .nmfence h sc => some (execNmfence h sc) | _ => none, fun _ => rfl, rfl⟩

theorem exec_nmfence_passes (ha : CcActs n h s) (hs : (fenceNotes n h sc s).headD 0 ≤ (s.ac n).ln.shown 2)
    (hh : (s.kettles.any fun k => k.2.atomq.any fun x => x.sentBy n (fenceSent n h sc s)) = false) :
    ∃ t u, CcEnds n (.nmfence h sc) (.nmfenceDone n) s t ∧ OnlyCc n s u ∧ (u.ac n).cc = { (s.ac n).cc with wait := (u.ac n).cc.wait }
      ∧ t = ccDone n h (acquire (.ac n 0) (fenceScope sc) u) := by
  obtain ⟨f, hx, hf⟩ := exec_nmfence_shown hs
  have hend : fenceEnds n (fenceSent n h sc s) sc s.kettles (fenceNoted n h sc s) = .ok .seq (acquire (.ac n 0) (fenceScope sc) (fenceNoted n h sc s)) :=
    (congrFun (if_neg (by rw [hh]; decide)) _).trans (act_bindM ..)
  refine ⟨_, _, ccEnds_of_rerun (nmfenceDone_reruns n h sc) (hx.trans (ccRun_retires ha (hf.trans hend))), ?_, ?_, rfl⟩
  · rw [fenceNoted, modCC_modCC]
    exact onlyCc_modCC ..
  · rw [fenceNoted, modCC_modCC, State.modCC_ac, if_pos rfl]
    rfl

end

end Sys2Proof

/-! # The issue path of kettle commands -/

namespace Sys2Proof

open Machine

/- Declarations are checked one after another: side by side they would hold a thread each. -/
set_option Elab.async false

/-! ### The issue path (R101) -/

theorem MemStep.kissue {s t : State} (h : MemStep s t) : t.kissue = s.kissue := congrArg (fun s => s.kissue) h.beyond

theorem kettleDone_kissue (q ac num : Nat) (s : State) : (kettleDone q ac num s).kissue = s.kissue := by
  unfold kettleDone
  dsimp only
  split <;> rfl

theorem statusPut_kissue (x : KStatus) (s : State) : (x.put s).kissue = s.kissue :=
  (kettleDone_kissue ..).trans (memStep_strongStore ..).kissue

theorem writeStatus_kissue (q ac num : Nat) (pa : Option Nat) (w : List W64) (s : State) : (writeStatus q ac num pa w s).kissue = s.kissue := by
  cases pa with
  | none => exact kettleDone_kissue ..
  | some pa =>
    simp only [writeStatus]
    split
    · exact (statusPut_kissue ..).trans (memStep_release ..).kissue
    · exact (memStep_release ..).kissue

theorem endSession_kissue (serial q : Nat) (s : State) : (endSession serial q s).kissue = s.kissue := by
  unfold endSession
  split <;> rfl

/-- A command that ends without running leaves the issue path, and no other does. -/
theorem issueEnds_kissue (i : Nat) (e : KIssue) (state cause : Nat) (s : State) : (issueEnds i e state cause s).kissue = s.kissue.eraseIdx i := by
  refine congrArg (List.eraseIdx · i) ?_
  generalize (setOf e.die e.mask).zip _ = l
  induction l generalizing s with
  | nil => rfl
  | cons x l ih => exact (ih _).trans ((writeStatus_kissue ..).trans (endSession_kissue ..))

section
variable {j : Nat} {e : KIssue} {s : State}

/-- A command that is no tree command goes on at its step gate once its checks have passed. -/
theorem issueGate_checked (he : s.kissue[j]? = some e) (h0 : e.stage = 0) (hb : blockOk4 e.words e.die e.mask = true) (hl : loadOk e.prog = true)
    (ht : (e.words.getD 4 0).getLsbD 63 = false) (hs : e.session = 0) :
    issueGate j s = if !(e.words.getD 3 0).getLsbD 29 then s.setIssue j { e with stage := 1 }
      else match s.readGate e.die ((e.words.getD 3 0).extractLsb' 32 32) with
        | (.pending, s) => s.setIssue j e
        | (.skip, s) => issueEnds j e 2 0 s
        | (.apply, s) =>
          if (e.words.getD 3 0).getLsbD 30 then
            let v := e.param.getD 7 0 + 1
            let s := match e.p7 with
              | some pa => strongStore (.ac e.ac 7) .pkg false pa (bytes64 v) s
              | none => s
            s.setIssue j { e with stage := 1, param := e.param.set 7 v }
          else s.setIssue j { e with stage := 1 } := by
  obtain ⟨ac, num, die, mask, words, param, clip, prog, status, p7, stage, session, passed⟩ := e
  dsimp only at h0 hb hl ht hs
  subst h0 hs
  simp only [issueGate, he, hb, hl, ht, joinSession, ne_eq, not_true_eq_false, Bool.not_true, Bool.not_false, Bool.false_eq_true, if_true, if_false] <;>
    rfl

theorem setIssue_self (he : s.kissue[j]? = some e) : s.setIssue j e = s := by
  have hset : s.kissue.set j e = s.kissue := by
    obtain ⟨hj, rfl⟩ := List.getElem?_eq_some_iff.mp he
    exact List.set_getElem_self hj
  rw [State.setIssue, hset]

/-- The gate of a step that its register holds. -/
theorem readGate_tagged {d : Nat} {step : W32} (hg : bits (s.reg d (0x81000 + 8 * (step.toNat % 256))) 32 32 = step.toNat) :
    s.readGate d step = (match bits (s.reg d (0x81000 + 8 * (step.toNat % 256))) 0 2 with | 1 => .apply | 2 => .skip | _ => .pending, s) := by
  have htag : (s.reg d (0x81000 + 8 * (step.toNat % 256))).extractLsb' 32 32 = step := by
    rw [bits_eq_extract] at hg
    exact BitVec.eq_of_toNat_eq hg
  rw [State.readGate]
  exact if_pos htag

section
variable (he : s.kissue[j]? = some e) (h0 : e.stage = 0) (hb : blockOk4 e.words e.die e.mask = true) (hl : loadOk e.prog = true)
  (ht : (e.words.getD 4 0).getLsbD 63 = false) (hs : e.session = 0)
include he h0 hb hl ht hs

theorem issueGate_ungated (hg : (e.words.getD 3 0).getLsbD 29 = false) : issueGate j s = s.setIssue j { e with stage := 1 } := by
  rw [issueGate_checked he h0 hb hl ht hs, hg]
  exact if_pos rfl

variable (hg : (e.words.getD 3 0).getLsbD 29 = true)
  (htag : bits (s.reg e.die (0x81000 + 8 * (bits (e.words.getD 3 0) 32 32 % 256))) 32 32 = bits (e.words.getD 3 0) 32 32)
include hg htag

theorem issueGate_skip (hv : bits (s.reg e.die (0x81000 + 8 * (bits (e.words.getD 3 0) 32 32 % 256))) 0 2 = 2) : issueGate j s = issueEnds j e 2 0 s := by
  rw [bits_eq_extract (e.words.getD 3 0)] at htag hv
  rw [issueGate_checked he h0 hb hl ht hs, hg, readGate_tagged htag, hv]
  rfl

theorem issueGate_pending (hv : bits (s.reg e.die (0x81000 + 8 * (bits (e.words.getD 3 0) 32 32 % 256))) 0 2 = 0) : issueGate j s = s := by
  rw [bits_eq_extract (e.words.getD 3 0)] at htag hv
  rw [issueGate_checked he h0 hb hl ht hs, hg, readGate_tagged htag, hv]
  exact setIssue_self he

variable (hv : bits (s.reg e.die (0x81000 + 8 * (bits (e.words.getD 3 0) 32 32 % 256))) 0 2 = 1)
include hv

theorem issueGate_apply (h30 : (e.words.getD 3 0).getLsbD 30 = false) : issueGate j s = s.setIssue j { e with stage := 1 } := by
  rw [bits_eq_extract (e.words.getD 3 0)] at htag hv
  rw [issueGate_checked he h0 hb hl ht hs, hg, readGate_tagged htag, hv, h30]
  rfl

theorem issueGate_counts {pa : Nat} (h30 : (e.words.getD 3 0).getLsbD 30 = true) (hp : e.p7 = some pa) : issueGate j s
    = (strongStore (.ac e.ac 7) .pkg false pa (bytes64 (e.param.getD 7 0 + 1)) s).setIssue j { e with stage := 1, param := e.param.set 7 (e.param.getD 7 0 + 1) } := by
  rw [bits_eq_extract (e.words.getD 3 0)] at htag hv
  rw [issueGate_checked he h0 hb hl ht hs, hg, readGate_tagged htag, hv, h30, hp]
  rfl

end

end

/-! ### The slice pass and the delivery (R102, R106) -/

section
variable {j : Nat} {e : KIssue} {s : State}

/-- The write ranges of a command, at each of its kettles. -/
def commandWrites (e : KIssue) : List (Nat × Nat × Nat × Nat) :=
  (List.range 4).flatMap fun j =>
    let (k, st, n) := rangeOf e.words j
    if canWrite k then (setOf e.die e.mask).map fun q => (e.ac, e.num, kettlePa q st, n) else []

/-- The writes that a slice pass brings to HBM. -/
def passedWrites (e : KIssue) (s : State) : SMap Nat :=
  s.hist.filterMap fun (k, l) =>
    if inRanges (setOf e.die e.mask) e.words k then
      (l.find? fun v => v.rels.any fun r => decide (2 ≤ Scope.rank r.2)).map fun v => (k, v.id)
    else none

theorem issuePass_eq (he : s.kissue[j]? = some e) (h1 : e.stage = 1) : issuePass j s
    = { s.setIssue j { e with stage := 2, passed := passedWrites e s } with bypass := s.bypass ++ commandWrites e } := by
  rw [issuePass, he]
  exact if_pos h1

theorem mem_commandWrites {r q : Nat} (hr : r < 4) (hq : q ∈ setOf e.die e.mask) (hw : 2 ≤ bits (e.words.getD (5 + r) 0) 62 2) :
    (e.ac, e.num, kettlePa q (bits (e.words.getD (5 + r) 0) 0 31), 64 * bits (e.words.getD (5 + r) 0) 32 24) ∈ commandWrites e := by
  refine List.mem_flatMap.mpr ⟨r, List.mem_range.mpr hr, ?_⟩
  have hk : canWrite (rangeOf e.words r).1 = true := by
    rw [bits_eq_extract] at hw
    change canWrite ((e.words.getD (5 + r) 0).extractLsb' 62 2).toNat = true
    have hlt := ((e.words.getD (5 + r) 0).extractLsb' 62 2).isLt
    generalize ((e.words.getD (5 + r) 0).extractLsb' 62 2).toNat = k at hw hlt ⊢
    rw [canWrite, Bool.or_eq_true, beq_iff_eq, beq_iff_eq]
    omega
  rw [bits_eq_extract, bits_eq_extract]
  dsimp only
  rw [if_pos hk]
  exact List.mem_map.mpr ⟨q, hq, rfl⟩

theorem mem_passedWrites {k id : Nat} (h : (k, id) ∈ passedWrites e s) :
    ∃ l v, (k, l) ∈ s.hist ∧ v ∈ l ∧ v.id = id ∧ ∃ r ∈ v.rels, 2 ≤ Scope.rank r.2 := by
  obtain ⟨⟨k', l⟩, hl, hx⟩ := List.mem_filterMap.mp h
  obtain ⟨-, hx⟩ := Option.ite_none_right_eq_some.mp hx
  obtain ⟨v, hv, hx⟩ := Option.map_eq_some_iff.mp hx
  cases hx
  have hrel := List.find?_some hv
  obtain ⟨r, hr, h2⟩ := List.any_eq_true.mp hrel
  exact ⟨l, v, hl, List.mem_of_find?_eq_some hv, rfl, r, hr, of_decide_eq_true h2⟩

theorem setOf_nodup (die : Nat) (mask : W64) : (setOf die mask).Nodup := by
  refine List.Nodup.filterMap (fun a b c ha hb => ?_) List.nodup_range
  obtain ⟨-, ha⟩ := Option.ite_none_right_eq_some.mp ha
  obtain ⟨-, hb⟩ := Option.ite_none_right_eq_some.mp hb
  cases ha
  have := Option.some.inj hb
  omega

/-- What the kettle of rank r of a set gets of a command. -/
def deliveredCommand (e : KIssue) (r : Nat) : KCmd := ⟨e.ac, e.num, r, e.words, e.param, e.clip, e.prog, e.status[r]?, e.session, e.passed⟩

/-- A kettle with one more command in its queue. -/
def queueing (c : KCmd) (k : Kettle) : Kettle := { k with queue := k.queue ++ [c] }

/-- The delivery of a command to a list of kettles with their ranks. -/
def deliverAll (e : KIssue) (l : List (Nat × Nat)) (s : State) : State := l.foldl (fun s x => s.modKettle x.1 (queueing (deliveredCommand e x.2))) s

theorem deliverAll_only (l : List (Nat × Nat)) (s : State) : deliverAll e l s = { s with kettles := (deliverAll e l s).kettles } := by
  induction l generalizing s with
  | nil => rfl
  | cons x l ih => exact (ih (s.modKettle x.1 (queueing (deliveredCommand e x.2)))).trans rfl

theorem deliverAll_other {q : Nat} {l : List (Nat × Nat)} (hq : q ∉ l.map (·.1)) (s : State) : (deliverAll e l s).kettle q = s.kettle q := by
  induction l generalizing s with
  | nil => rfl
  | cons x l ih =>
    rw [List.map_cons, List.mem_cons, not_or] at hq
    exact (ih hq.2 (s.modKettle x.1 (queueing (deliveredCommand e x.2)))).trans ((State.modKettle_kettle ..).trans (if_neg hq.1))

theorem deliverAll_mem {q r : Nat} {l : List (Nat × Nat)} (hl : (l.map (·.1)).Nodup) (hq : (q, r) ∈ l) (s : State) :
    (deliverAll e l s).kettle q = queueing (deliveredCommand e r) (s.kettle q) := by
  induction l generalizing s with
  | nil => cases hq
  | cons x l ih =>
    obtain ⟨hx, hl⟩ := List.nodup_cons.mp hl
    obtain rfl | hq := List.mem_cons.mp hq
    · exact (deliverAll_other hx (s.modKettle q (queueing (deliveredCommand e r)))).trans (modKettle_self ..)
    · have hne : q ≠ x.1 := fun h => hx (List.mem_map.mpr ⟨_, hq, h⟩)
      exact (ih hl hq (s.modKettle x.1 (queueing (deliveredCommand e x.2)))).trans
        (congrArg (queueing (deliveredCommand e r)) ((State.modKettle_kettle ..).trans (if_neg hne)))

theorem issueDeliver_eq (he : s.kissue[j]? = some e) (h2 : e.stage = 2) (hj : j = 0)
    (hroom : ∀ q ∈ setOf e.die e.mask, (s.kettle q).queue.length + (s.kettle q).run.isSome.toNat < 4) :
    issueDeliver j s = { deliverAll e ((setOf e.die e.mask).zip (List.range (setOf e.die e.mask).length)) s with kissue := s.kissue.eraseIdx j } := by
  subst hj
  have hall : (setOf e.die e.mask).all s.kettleRoom = true := List.all_eq_true.mpr fun q hq => decide_eq_true (hroom q hq)
  have hk : (deliverAll e ((setOf e.die e.mask).zip (List.range (setOf e.die e.mask).length)) s).kissue = s.kissue :=
    congrArg (fun s => s.kissue) (deliverAll_only _ s)
  rw [issueDeliver, he, ← hk]
  dsimp only
  rw [List.take_zero, List.any_nil, h2, hall]
  rfl

theorem exec_kettleDeliver (he : s.kissue[j]? = some e) (h2 : e.stage = 2) (hj : j = 0)
    (hroom : ∀ q ∈ setOf e.die e.mask, (s.kettle q).queue.length + (s.kettle q).run.isSome.toNat < 4) :
    ∃ t : State, exec (.kettleDeliver j) s = .next t ∧ t.kissue = s.kissue.eraseIdx j ∧ t.mem = s.mem ∧ t.acs = s.acs
      ∧ (∀ q, q ∉ setOf e.die e.mask → t.kettle q = s.kettle q)
      ∧ ∀ q ∈ setOf e.die e.mask, ∃ c : KCmd, t.kettle q = { s.kettle q with queue := (s.kettle q).queue ++ [c] } ∧ c.ac = e.ac ∧ c.num = e.num
        ∧ c.words = e.words ∧ c.prog = e.prog ∧ c.param = e.param := by
  have hzip : ((setOf e.die e.mask).zip (List.range (setOf e.die e.mask).length)).map (·.1) = setOf e.die e.mask :=
    List.map_fst_zip (by rw [List.length_range])
  have honly := deliverAll_only (e := e) ((setOf e.die e.mask).zip (List.range (setOf e.die e.mask).length)) s
  refine ⟨_, congrArg Host.Outcome.next (issueDeliver_eq he h2 hj hroom), rfl, congrArg (fun s => s.mem) honly, congrArg (fun s => s.acs) honly,
    fun q hq => deliverAll_other (by rwa [hzip]) s, fun q hq => ?_⟩
  rw [← hzip] at hq
  obtain ⟨⟨q, r⟩, hm, rfl⟩ := List.mem_map.mp hq
  exact ⟨deliveredCommand e r, deliverAll_mem (by rw [hzip]; exact setOf_nodup ..) hm s, rfl, rfl, rfl, rfl, rfl⟩

end

end Sys2Proof

/-! # Events of the kettles -/

namespace Sys2Proof

open Machine

/- Declarations are checked one after another: side by side they would hold a thread each. -/
set_option Elab.async false

/-! ### The events of the kettles (R95, R103, R104, R130, R134) -/

section
variable {q : Nat} {s : State}

theorem fresh_kettles (a : Agent) (s : State) : (s.fresh a).kettles = s.kettles := by
  unfold State.fresh
  dsimp only
  split <;> rfl

theorem acquire_kettles (sc : Scope) (s : State) : (acquire (.kettle q) sc s).kettles = s.kettles := by
  refine (fresh_kettles ..).trans ?_
  dsimp only [hostLinesBack]
  exact (apply_ite (fun t : State => t.kettles) ..).trans (ite_self _)

theorem seePassed_leaves (passed : SMap Nat) (s : State) :
    (seePassed q passed s).kettles = s.kettles ∧ (seePassed q passed s).mem = s.mem ∧ (seePassed q passed s).acs = s.acs := by
  unfold seePassed
  dsimp only
  split <;> exact ⟨rfl, rfl, rfl⟩

/-- A kettle at the start of a command. -/
def startedKettle (c : KCmd) (q given : Nat) (r : List KCmd) (atoms : List KAtom) : Kettle :=
  { Kettle.reset with
    j := smPut 0 (smPut 0 [] 6 (BitVec.ofNat 64 c.rank)) 7 (BitVec.ofNat 64 (q % 64))
    atomq := atoms, run := some c, queue := r, contributed := given, received := given }

theorem startedKettle_jr (c : KCmd) (q given : Nat) (r : List KCmd) (atoms : List KAtom) :
    (startedKettle c q given r atoms).jr 6 = BitVec.ofNat 64 c.rank ∧ (startedKettle c q given r atoms).jr 7 = BitVec.ofNat 64 (q % 64) := by
  constructor
  · refine (smGet_smPut ..).trans ((if_neg (by decide)).trans ((smGet_smPut ..).trans (if_pos rfl)))
  · exact (smGet_smPut ..).trans (if_pos rfl)

/-- The reductions of a command's session to which its kettle has contributed. -/
def givenBefore (c : KCmd) (q : Nat) (s : State) : Nat :=
  match s.sessions.find? fun x => x.serial == c.session && c.session != 0 with | some x => x.count q | none => 0

theorem kettleStart_eq {c : KCmd} {r : List KCmd} (hn : (s.kettle q).run = none) (hq : (s.kettle q).queue = c :: r) :
    kettleStart q s = seePassed q c.passed (acquire (.kettle q) .pkg (s.modKettle q fun k => startedKettle c q (givenBefore c q s) r k.atomq)) := by
  unfold kettleStart
  dsimp only
  rw [hn, hq]
  rfl

theorem exec_kettleCommandStart {c : KCmd} {r : List KCmd} (hn : (s.kettle q).run = none) (hq : (s.kettle q).queue = c :: r) :
    ∃ t : State, exec (.kettleCommandStart q) s = .next t
      ∧ (t.kettle q).run = some c ∧ (t.kettle q).queue = r ∧ (t.kettle q).k = [] ∧ (t.kettle q).kpc = 0 ∧ (t.kettle q).loops = []
      ∧ (t.kettle q).nfcnt = 0 ∧ (t.kettle q).clcnt = 0 ∧ (t.kettle q).atomq = (s.kettle q).atomq
      ∧ (t.kettle q).jr 6 = BitVec.ofNat 64 c.rank ∧ (t.kettle q).jr 7 = BitVec.ofNat 64 (q % 64) ∧ t.mem = s.mem ∧ t.acs = s.acs := by
  refine ⟨_, congrArg Host.Outcome.next (kettleStart_eq hn hq), ?_⟩
  generalize givenBefore c q s = given
  generalize hu : s.modKettle q (fun k => startedKettle c q given r k.atomq) = u
  obtain ⟨hsk, hsm, hsa⟩ := seePassed_leaves (q := q) c.passed (acquire (.kettle q) .pkg u)
  have hk : (seePassed q c.passed (acquire (.kettle q) .pkg u)).kettle q = startedKettle c q given r (s.kettle q).atomq := by
    rw [State.kettle, hsk, acquire_kettles, ← hu]
    exact modKettle_self ..
  obtain ⟨hj6, hj7⟩ := startedKettle_jr c q given r (s.kettle q).atomq
  rw [hk, hsm, hsa, acquire_mem, (memStep_acquire ..).acs, ← hu]
  exact ⟨rfl, rfl, rfl, rfl, rfl, rfl, rfl, rfl, hj6, hj7, rfl, rfl⟩

theorem exec_kettleAbort {c : KCmd} (hr : (s.kettle q).run = some c) :
    ∃ t : State, exec (.kettleAbort q) s = .next t ∧ OnlyKettle q s t ∧ t.kettle q = { s.kettle q with abort := true } := by
  have ht : kettleAbortWrite q 1 s = s.modKettle q fun k => { k with abort := true } := by
    unfold kettleAbortWrite
    exact if_pos ⟨by decide, by rw [← State.kettle, hr]; rfl⟩
  exact ⟨_, congrArg Host.Outcome.next ht, modKettle_only .., modKettle_self ..⟩

theorem kRun_next {f : Nat → M Nat} {c : KCmd} (hc : s.cur = .kettle q) (hr : (s.kettle q).run = some c) : ∃ t, kRun f s = .next t := by
  unfold kRun
  rw [hc]
  dsimp only
  rw [hr]
  dsimp only
  split <;> exact ⟨_, rfl⟩

theorem exec_kettleTreeResult {c : KCmd} {o : TreeOp} {d : BitVec 5} {x : Session} {serial : Nat} (hs : s.session serial = some x) (hp : x.parts = [q])
    (hr : (s.kettle q).run = some c) (hc : c.session = serial) (hi : (c.prog[(s.kettle q).kpc]?).bind kdecode = some (.krcv o d)) :
    ∃ t : State, exec (.kettleTreeResult serial) s = .next t ∧ exec (.krcv o d) { s with cur := .kettle q } = .next t := by
  obtain ⟨t, ht⟩ : ∃ t, execKrcv o d { s with cur := .kettle q } = .next t := kRun_next (q := q) (c := c) rfl hr
  refine ⟨t, ?_, ht⟩
  have hw : waitingKrcv s q = some (o, d) := by
    rw [waitingKrcv, hr]
    dsimp only
    rw [hi]
  show execKettleTreeResult serial s = _
  unfold execKettleTreeResult
  rw [hs]
  dsimp only
  rw [hp, List.foldl_cons, List.foldl_nil, hr, hw]
  dsimp only
  rw [if_pos hc, ht]

end

/-! ### Completion on TL.NM, and the arrival of atomics -/

section
variable {n : Nat}

theorem tlComplete_leaves (k : Nat) (s : State) :
    (s.tlComplete n 6 k).mem = s.mem ∧ (s.tlComplete n 6 k).kettles = s.kettles ∧ ((s.tlComplete n 6 k).ac n).io = (s.ac n).io := by
  unfold State.tlComplete
  split
  · exact ⟨rfl, rfl, rfl⟩
  · refine ⟨rfl, rfl, ?_⟩
    rw [State.modAc_ac, if_pos rfl]

/-- The completions of a cluster after one more: those before, and the new one. -/
theorem tlComplete_tlDone (k : Nat) (s : State) :
    (∀ x ∈ (s.ac n).ln.tlDone, x ∈ ((s.tlComplete n 6 k).ac n).ln.tlDone) ∧ (k ≠ 0 → (6, k) ∈ ((s.tlComplete n 6 k).ac n).ln.tlDone) := by
  unfold State.tlComplete
  split
  · next h0 => exact ⟨fun _ => id, fun h => absurd h0 h⟩
  · rw [State.modAc_ac, if_pos rfl]
    dsimp only
    split
    · next hc => exact ⟨fun _ => id, fun _ => List.contains_iff_mem.mp hc⟩
    · exact ⟨fun _ => List.mem_append_left _, fun _ => List.mem_append_right _ (List.mem_singleton_self _)⟩

/-- The operations of a list complete on TL.NM. -/
def completeAll (n : Nat) (l : List NmCmd) (s : State) : State := l.foldl (fun s c => s.tlComplete n 6 c.num) s

theorem completeAll_leaves (l : List NmCmd) (s : State) :
    (completeAll n l s).mem = s.mem ∧ (completeAll n l s).kettles = s.kettles ∧ ((completeAll n l s).ac n).io = (s.ac n).io := by
  induction l generalizing s with
  | nil => exact ⟨rfl, rfl, rfl⟩
  | cons c l ih =>
    obtain ⟨hm, hk, hi⟩ := ih (s.tlComplete n 6 c.num)
    obtain ⟨hm', hk', hi'⟩ := tlComplete_leaves (n := n) c.num s
    exact ⟨hm.trans hm', hk.trans hk', hi.trans hi'⟩

theorem completeAll_tlDone (l : List NmCmd) (s : State) :
    (∀ x ∈ (s.ac n).ln.tlDone, x ∈ ((completeAll n l s).ac n).ln.tlDone) ∧ ∀ c ∈ l, c.num ≠ 0 → (6, c.num) ∈ ((completeAll n l s).ac n).ln.tlDone := by
  induction l generalizing s with
  | nil => exact ⟨fun _ => id, fun _ h => nomatch h⟩
  | cons c l ih =>
    obtain ⟨hkeep, hnew⟩ := ih (s.tlComplete n 6 c.num)
    obtain ⟨hkeep', hnew'⟩ := tlComplete_tlDone (n := n) c.num s
    refine ⟨fun x hx => hkeep x (hkeep' x hx), fun x hx h0 => ?_⟩
    obtain rfl | hx := List.mem_cons.mp hx
    · exact hkeep _ (hnew' h0)
    · exact hnew x hx h0

/-- A cluster without its commands whose kettles have all ended. -/
def nmLeft (a : AC) : AC := { a with io := { a.io with nm := a.io.nm.filter fun c => !c.left.isEmpty } }

theorem exec_kettleCommandComplete (n : Nat) (s : State) : ∃ t : State, exec (.kettleCommandComplete n) s = .next t ∧ t.mem = s.mem ∧ t.kettles = s.kettles
    ∧ (t.ac n).io.nm = (s.ac n).io.nm.filter (fun c => !c.left.isEmpty)
    ∧ ∀ c ∈ (s.ac n).io.nm, c.left = [] → c.num ≠ 0 → (6, c.num) ∈ (t.ac n).ln.tlDone := by
  by_cases he : ((s.ac n).io.nm.filter fun c => c.left.isEmpty).isEmpty = true
  · have hnone := List.filter_eq_nil_iff.mp (List.isEmpty_iff.mp he)
    refine ⟨s, congrArg Host.Outcome.next (if_pos he), rfl, rfl, (List.filter_eq_self.mpr fun c hc => ?_).symm, fun c hc hl => ?_⟩
    · rw [Bool.eq_false_iff.mpr (hnone c hc)]; rfl
    · exact absurd (by rw [hl]; rfl) (hnone c hc)
  · have ht : nmComplete n s = completeAll n ((s.ac n).io.nm.filter fun c => c.left.isEmpty) (s.modAc n nmLeft) := if_neg he
    obtain ⟨hm, hk, hi⟩ := completeAll_leaves (n := n) ((s.ac n).io.nm.filter fun c => c.left.isEmpty) (s.modAc n nmLeft)
    refine ⟨_, congrArg Host.Outcome.next ht, hm, hk, ?_, fun c hc hl h0 => ?_⟩
    · rw [hi, State.modAc_ac, if_pos rfl]; rfl
    · exact (completeAll_tlDone _ _).2 c (List.mem_filter.mpr ⟨hc, by rw [hl]; rfl⟩) h0

end

theorem landStore_acs (pa id : Nat) (rels : List (Agent × Scope)) (s : State) : (landStore pa id rels s).acs = s.acs := by
  unfold landStore moveHist
  split <;> rfl

theorem foldl_acs {α : Type} {f : State → α → State} (hf : ∀ s x, (f s x).acs = s.acs) (l : List α) (s : State) : (l.foldl f s).acs = s.acs := by
  induction l generalizing s with
  | nil => rfl
  | cons x l ih => exact (ih _).trans (hf s x)

theorem applyAtom_acs (q : Nat) (later : List Nat) (x : KAtom) (s : State) : (applyAtom q later x s).acs = s.acs := by
  unfold applyAtom
  split
  · exact landStore_acs ..
  · refine (memStep_fireWrite ..).acs.trans (foldl_acs (fun s y => ?_) _ _)
    dsimp only
    split
    · exact (memStep_atomicRaw ..).acs.trans (memStep_meeting ..).acs
    · rfl

/-- The only entry of a kettle's queue is applied when its event names it. -/
theorem exec_atomicArrive {q : Nat} {s : State} {x : KAtom} (hq : (s.kettle q).atomq = [x]) (ht : touchesRun s q x.pa = false) :
    ∃ t : State, exec (.atomicArrive q) s = .next t ∧ (t.kettle q).atomq = [] ∧ t.acs = s.acs := by
  have hk : smFind s.kettles q = some (s.kettle q) := by
    have hd : s.kettle q = (smFind s.kettles q).getD Kettle.reset := rfl
    cases hf : smFind s.kettles q with
    | some k => rw [hd, hf]; rfl
    | none =>
      rw [hd, hf] at hq
      exact nomatch hq
  have happly : s.applyAtoms q (fun y => y == x) = { applyAtom q [] x s with
      kettles := smSet (applyAtom q [] x s).kettles q { s.kettle q with atomq := [] } } := by
    unfold State.applyAtoms
    rw [hk]
    dsimp only
    rw [hq]
    simp only [List.any_cons, BEq.rfl, Bool.true_or, if_true, applyQueue, List.filterMap_nil]
  refine ⟨s.applyAtoms q fun y => y == x, ?_, ?_, ?_⟩
  · show execAtomicArrive q s = _
    unfold execAtomicArrive
    rw [hq, List.find?_cons_of_pos (by rw [ht]; rfl)]
  · rw [happly]
    exact congrArg (fun k : Kettle => k.atomq) ((smGet_smSet ..).trans (if_pos rfl))
  · rw [happly]
    exact applyAtom_acs ..

end Sys2Proof

/-! # Near-memory commands -/

namespace Sys2Proof

open Machine

/- Declarations are checked one after another: side by side they would hold a thread each. -/
set_option Elab.async false

/-! ### NMRUN, NMFENCE and the events of the kettles -/

section
variable {j : Nat} {e : KIssue} {s : State}

theorem kettleGate_checked (he : s.kissue[j]? = some e) (h0 : e.stage = 0) (hb : blockOk4 e.words e.die e.mask = true) (hl : loadOk e.prog = true)
    (ht : (e.words.getD 4 0).getLsbD 63 = false) (hs : e.session = 0) :
    let step := bits (e.words.getD 3 0) 32 32
    let gate := s.reg e.die (0x81000 + 8 * (step % 256))
    ((e.words.getD 3 0).getLsbD 29 = false → exec (.kettleGateRead j) s = .next { s with kissue := s.kissue.set j { e with stage := 1 } })
    ∧ ((e.words.getD 3 0).getLsbD 29 = true → bits gate 32 32 = step →
      (bits gate 0 2 = 2 → exec (.kettleGateRead j) s = .next (issueEnds j e 2 0 s))
      ∧ (bits gate 0 2 = 0 → exec (.kettleGateRead j) s = .next s)
      ∧ (bits gate 0 2 = 1 → (e.words.getD 3 0).getLsbD 30 = false →
        exec (.kettleGateRead j) s = .next { s with kissue := s.kissue.set j { e with stage := 1 } })
      ∧ (bits gate 0 2 = 1 → (e.words.getD 3 0).getLsbD 30 = true → ∀ pa, e.p7 = some pa →
        let v := e.param.getD 7 0 + 1
        ∃ t : State, exec (.kettleGateRead j) s = .next t ∧ t.mem = (strongStore (.ac e.ac 7) .pkg false pa (leBytes 8 v.toNat) s).mem
          ∧ t.kissue = s.kissue.set j { e with stage := 1, param := e.param.set 7 v } ∧ t.acs = s.acs)) := by
  intro step gate
  refine ⟨fun hg => congrArg Host.Outcome.next (issueGate_ungated he h0 hb hl ht hs hg), fun hg htag => ⟨fun hv => ?_, fun hv => ?_, fun hv h30 => ?_,
    fun hv h30 pa hp => ?_⟩⟩
  · exact congrArg Host.Outcome.next (issueGate_skip he h0 hb hl ht hs hg htag hv)
  · exact congrArg Host.Outcome.next (issueGate_pending he h0 hb hl ht hs hg htag hv)
  · exact congrArg Host.Outcome.next (issueGate_apply he h0 hb hl ht hs hg htag hv h30)
  · have hcount := issueGate_counts he h0 hb hl ht hs hg htag hv h30 hp
    have hm := memStep_strongStore s (.ac e.ac 7) .pkg false pa (bytes64 (e.param.getD 7 0 + 1))
    rw [bytes64] at hm hcount
    dsimp only
    generalize strongStore _ _ _ _ _ _ = u at hm hcount ⊢
    refine ⟨_, congrArg Host.Outcome.next hcount, rfl, ?_, hm.acs⟩
    exact congrArg (fun l => l.set j { e with stage := 1, param := e.param.set 7 (e.param.getD 7 0 + 1) }) hm.kissue

theorem kettleGate_malformed (he : s.kissue[j]? = some e) (h0 : e.stage = 0) (hb : blockOk4 e.words e.die e.mask = false) :
    exec (.kettleGateRead j) s = .next (issueEnds j e 3 2 s) ∧ (issueEnds j e 3 2 s).kissue = s.kissue.eraseIdx j := by
  refine ⟨congrArg Host.Outcome.next ?_, issueEnds_kissue ..⟩
  rw [issueGate, he]
  dsimp only
  rw [if_neg (not_not_intro h0), hb]
  exact if_pos rfl

theorem exec_kettleSlicePass (he : s.kissue[j]? = some e) (h1 : e.stage = 1) : ∃ (t : State) (e' : KIssue), exec (.kettleSlicePass j) s = .next t
    ∧ t = { s with kissue := s.kissue.set j e', bypass := t.bypass } ∧ e' = { e with stage := 2, passed := e'.passed }
    ∧ (∀ x ∈ s.bypass, x ∈ t.bypass)
    ∧ (∀ r q, r < 4 → q ∈ setOf e.die e.mask → 2 ≤ bits (e.words.getD (5 + r) 0) 62 2 →
      (e.ac, e.num, kettlePa q (bits (e.words.getD (5 + r) 0) 0 31), 64 * bits (e.words.getD (5 + r) 0) 32 24) ∈ t.bypass)
    ∧ ∀ (k id : Nat), (k, id) ∈ e'.passed → ∃ (l : List Version) (v : Version), (k, l) ∈ s.hist ∧ v ∈ l ∧ v.id = id ∧ ∃ r ∈ v.rels, 2 ≤ Scope.rank r.2 :=
  ⟨_, { e with stage := 2, passed := passedWrites e s }, congrArg Host.Outcome.next (issuePass_eq he h1), rfl, rfl,
    fun _ => List.mem_append_left _, fun _ _ hr hq hw => List.mem_append_right _ (mem_commandWrites hr hq hw), fun _ _ => mem_passedWrites⟩

end

/-- Settles O36: NMRUN's checks, reads and number; NMFENCE's two waits; and the events of the issue path and of the kettles, each by its own lemma. -/
theorem nearMemory : Obligations.NearMemory := by
  intro s
  refine ⟨fun n h d a b c ha => ⟨exec_nmrun_misaligned ha, exec_nmrun_empty ha, exec_nmrun_waits ha, ?_⟩, fun n h sc ha => ?_,
    fun j e he => ⟨kettleGate_malformed he, kettleGate_checked he, exec_kettleSlicePass he, exec_kettleDeliver he⟩,
    fun q c r => exec_kettleCommandStart, fun n => exec_kettleCommandComplete n s, fun q x => exec_atomicArrive, fun q c => exec_kettleAbort,
    fun q c o d x serial => exec_kettleTreeResult⟩
  · intro hv hal hm hd h8 hroom bytes prog param clip st p7 s1 s2 s3 s4 s5 s6 hblock w va' len hprog hparam hclip hal0 hal1 hal2 hst hp7 hports num
    obtain ⟨t, e, ht, hends⟩ := nmIssued_ends (n := n) (d := d) (die := ((s.ac n).cc.src c).toNat) (mask := (s.ac n).cc.s b) (bytes := bytes) (prog := prog)
      (param := param) (clip := clip) (st := st) (p7 := p7) (s := s6) h (taskLaunch (s.ac n).cc.task)
    have hx := exec_nmrun_issues (d := d) ha hv hal hm hd h8 hroom ⟨hblock, hprog, hparam, hclip, hal0, hal1, hal2, hst, hp7⟩ hports
    exact ⟨t, e, hx.trans (congrArg Host.Outcome.next ht.symm), hends⟩
  · intro notes sent held wide
    have hheld : held = s.kettles.any fun k => k.2.atomq.any fun x => x.sentBy n (fenceSent n h sc s) := rfl
    by_cases hs : (fenceNotes n h sc s).headD 0 ≤ (s.ac n).ln.shown 2
    · exact ⟨fun _ hh => exec_nmfence_passes ha hs (hheld.symm.trans hh), exec_nmfence_early ha, fun hh => exec_nmfence_held ha hs (hheld.symm.trans hh)⟩
    · have hlate := exec_nmfence_early ha (Nat.lt_of_not_le hs)
      exact ⟨fun h => absurd h hs, fun _ => hlate, fun _ => hlate⟩

end Sys2Proof

/-! # Ends of matrix operations -/

namespace Sys2Proof

open Machine

/- Declarations are checked one after another: side by side they would hold a thread each. -/
set_option Elab.async false

/-! ### The tile queue: mode changes, zeroing and completion (R411, R415, R416) -/

section
variable {n : Nat} {s : State} {q : TQEntry} {rest : List TQEntry}

/-- What the end of an entry leaves of MX. -/
def mxDone (q : TQEntry) (m : MX) : MX := { m with tq := m.tq.drop 1, run := none, taken := false, pcs := smErase m.pcs q.num }

theorem mxEnd_eq {f : MX → MX} (hg : (q.kind = 0 ∨ q.kind = 2) → q.gives = 0) :
    mxEnd n q f s = ((release (.ac n 4) .ac s).modMx n fun m => f (mxDone q m)).tlComplete n 3 q.num := by
  have hno : ¬((q.kind = 0 ∨ q.kind = 2) ∧ q.gives ≠ 0) := fun h => h.2 (hg h.1)
  unfold mxEnd
  dsimp only
  rw [if_neg fun h => hno ⟨h.1, h.2.1⟩, if_neg hno]
  rfl

theorem tlComplete_mxu (k num : Nat) (s : State) : ((s.tlComplete n k num).ac n).mxu = (s.ac n).mxu := by
  unfold State.tlComplete
  split
  · rfl
  · rw [State.modAc_ac, if_pos rfl]

theorem tlComplete_done (k num : Nat) (s : State) (h0 : num ≠ 0) : (k, num) ∈ ((s.tlComplete n k num).ac n).ln.tlDone := by
  unfold State.tlComplete
  rw [if_neg h0, State.modAc_ac, if_pos rfl]
  dsimp only
  split
  · next hc => exact List.contains_iff_mem.mp hc
  · exact List.mem_append_right _ (List.mem_singleton_self _)

theorem tlComplete_mem (k num : Nat) (s : State) : (s.tlComplete n k num).mem = s.mem := by
  unfold State.tlComplete
  split <;> rfl

/-- What the end of an entry leaves: MX without it, its number among those completed, and memory as its release leaves it. -/
theorem mxEnd_leaves {f : MX → MX} (hg : (q.kind = 0 ∨ q.kind = 2) → q.gives = 0) :
    ((mxEnd n q f s).ac n).mxu = f (mxDone q (s.ac n).mxu) ∧ (q.num ≠ 0 → (3, q.num) ∈ ((mxEnd n q f s).ac n).ln.tlDone)
      ∧ (mxEnd n q f s).mem = (release (.ac n 4) .ac s).mem := by
  rw [mxEnd_eq hg]
  refine ⟨?_, tlComplete_done _ _ _, tlComplete_mem ..⟩
  rw [tlComplete_mxu, modMx_mxu, (memStep_release ..).ac]

theorem mxEvent_eq (hf : mxFree (s.ac n) = true) (f : State → State) : mxEvent n f s = .next (f s) := congrArg Host.Outcome.next (if_pos hf)

variable (hf : mxFree (s.ac n) = true) (ht : (s.ac n).mxu.tq = q :: rest)
include hf ht

theorem exec_mxModeChange (hk : q.kind = 3) : exec (.mxModeChange n) s = .next (mxEnd n q (fun m => { m with mode := q.mode }) s) := by
  refine (mxEvent_eq hf (modeChange n)).trans (congrArg Host.Outcome.next ?_)
  rw [modeChange, ht]
  exact if_pos hk

theorem exec_mxZero (hk : q.kind = 1) :
    exec (.mxZero n) s = .next (mxEnd n q (fun m => { m with acc := m.acc.filter fun (k, _) => k / 4096 != q.acc }) s) := by
  refine (mxEvent_eq hf (zeroAcc n)).trans (congrArg Host.Outcome.next ?_)
  rw [zeroAcc, ht]
  exact if_pos hk

theorem exec_mxTileComplete {r : TileRun} (hk : q.kind = 0) (hr : (s.ac n).mxu.run = some r) (hgo : r.go = true) (hrow : q.mt ≤ (s.ac n).mxu.rowprog) :
    exec (.mxTileComplete n) s = .next (mxEnd n q (fun m => { m with chkrot := m.chkrot + 1 }) s) := by
  refine (mxEvent_eq hf (tileEnd n)).trans (congrArg Host.Outcome.next ?_)
  unfold tileEnd
  dsimp only
  rw [ht, hr]
  exact if_pos ⟨hk, hgo, hrow⟩

end

/-- Entries that are kept by their keys, in a map in order. -/
theorem smFind_filter_keys {α : Type} (p : Nat → Bool) {m : SMap α} {lo : Nat} (hs : smSorted lo m = true) (k : Nat) :
    smFind (m.filter fun x => p x.1) k = if p k then smFind m k else none := by
  induction m generalizing lo with
  | nil => exact (ite_self _).symm
  | cons x r ih =>
    obtain ⟨j, v⟩ := x
    simp only [smSorted, Bool.and_eq_true, decide_eq_true_eq] at hs
    have hbelow : k < j + 1 → smFind r k = none := fun hlt => by
      cases r with
      | nil => rfl
      | cons y r =>
        obtain ⟨i, w⟩ := y
        have h := hs.2
        simp only [smSorted, Bool.and_eq_true, decide_eq_true_eq] at h
        rw [smFind_cons, if_pos (by omega)]
    rw [List.filter_cons, smFind_cons]
    by_cases hp : p j = true
    · rw [if_pos hp, smFind_cons, ih hs.2]
      by_cases hlt : k < j
      · rw [if_pos hlt, if_pos hlt, ite_self]
      · rw [if_neg hlt, if_neg hlt]
        by_cases heq : k = j
        · subst heq
          rw [if_pos rfl, if_pos rfl, if_pos hp]
        · rw [if_neg heq, if_neg heq]
    · rw [if_neg hp, ih hs.2]
      by_cases hlt : k < j
      · rw [if_pos hlt, hbelow (by omega)]
      · rw [if_neg hlt]
        by_cases heq : k = j
        · subst heq
          rw [if_neg hp, if_neg hp]
        · rw [if_neg heq]

/-- The accumulators once one of them has been zeroed. -/
theorem smGet_zeroed {acc : SMap W32} (hs : smSorted 0 acc = true) (a b : Nat) {i j : Nat} (hi : i < 64) (hj : j < 64) :
    smGet 0 (List.filter (fun x : Nat × W32 => x.1 / 4096 != a) acc) (4096 * b + 64 * i + j)
      = if b = a then 0 else smGet 0 acc (4096 * b + 64 * i + j) := by
  have hkey : (4096 * b + 64 * i + j) / 4096 = b := by omega
  rw [smGet, smFind_filter_keys (fun k => k / 4096 != a) hs, hkey]
  by_cases hb : b = a
  · rw [if_pos hb, if_neg (by rw [hb, bne_self_eq_false]; decide)]
    rfl
  · rw [if_neg hb, if_pos (bne_iff_ne.mpr hb)]
    rfl

/-! ### The start of a tile command (R414) -/

theorem Reads.mxu {s t : State} (h : Reads s t) (n : Nat) : (t.ac n).mxu = (s.ac n).mxu := congrArg (fun a => a.mxu) (h.ac n)

theorem keeps_fmtMatch (w : W64) (lo idx : Nat) (t : Tdt) : Keeps Reads (fmtMatch w lo idx t) :=
  keeps_bind reads_chains (keeps_need reads_chains ..) fun _ => keeps_need reads_chains ..

theorem keeps_mxChecks (n : Nat) (q : TQEntry) (w : W64) : Keeps Reads (mxChecks n q w) := by
  unfold mxChecks
  refine keeps_bind reads_chains (keeps_get reads_chains) fun s => keeps_bind reads_chains (keeps_need reads_chains ..) fun _ =>
    keeps_bind reads_chains (keeps_useTdt ..) fun ta => keeps_bind reads_chains (keeps_useTdt ..) fun tb =>
    keeps_bind reads_chains (keeps_fmtMatch ..) fun _ => keeps_bind reads_chains (keeps_fmtMatch ..) fun _ => ?_
  split
  · exact keeps_bind reads_chains (keeps_need reads_chains ..) fun _ => keeps_bind reads_chains (keeps_need reads_chains ..) fun _ => keeps_pure reads_chains _
  · exact keeps_throw reads_chains _

theorem mxTake_none {n : Nat} {q : TQEntry} (h : q.takes = 0) (s : State) : mxTake n q s = .ok () s :=
  (get_bindM _).trans (congrFun (if_neg fun h' => h'.1 h) s)

/-- The start of a tile command, once its format word is there and its checks have passed. -/
def tileStarted (n : Nat) (r : TileRun) (ta tb : Tdt) (s : State) : State :=
  let c := (s.ac n).cc
  let s := if (s.ac n).mxu.mode = 4 then s.modCC n fun c => c.setSr 0x0D3 (c.sr 0x0D3 + 1) else s
  s.modMx n fun m => { m with run := some { r with tdtA := ta.words, tdtB := tb.words, ctr := c.sr 0x0D3, go := true } }

/-- A command that takes the next word of the format queue. -/
def tileTaken (n : Nat) (fr : List W64) (r : TileRun) (s : State) : State :=
  acquire (.ac n 4) .ac (s.modMx n fun m => { m with fq := fr, run := some r, rowprog := 0 })

theorem tileTaken_mxu (n : Nat) (fr : List W64) (r : TileRun) (s : State) :
    ((tileTaken n fr r s).ac n).mxu = { (s.ac n).mxu with fq := fr, run := some r, rowprog := 0 } := by
  rw [tileTaken, (memStep_acquire ..).ac, modMx_mxu]

theorem tileStart_eq {n : Nat} {s s2 : State} {q : TQEntry} {rest : List TQEntry} {w : W64} {fr : List W64} {ta tb : Tdt}
    (ht : (s.ac n).mxu.tq = q :: rest) (hk : q.kind = 0) (h0 : q.takes = 0) (hr : (s.ac n).mxu.run = none) (hq : (s.ac n).mxu.fq = w :: fr)
    (hc : mxChecks n q w (tileTaken n fr ⟨w, [], [], 0, false, false, []⟩ s) = .ok (ta, tb) s2) :
    tileStart n s = tileStarted n ⟨w, [], [], 0, false, false, []⟩ ta tb s2 := by
  have hrun : ((tileTaken n fr ⟨w, [], [], 0, false, false, []⟩ s).ac n).mxu.run = some ⟨w, [], [], 0, false, false, []⟩ := by rw [tileTaken_mxu]
  have hdo : mxDo n (do
      mxTake n q
      let (ta, tb) ← mxChecks n q w
      act (tileStarted n ⟨w, [], [], 0, false, false, []⟩ ta tb)) (tileTaken n fr ⟨w, [], [], 0, false, false, []⟩ s)
      = tileStarted n ⟨w, [], [], 0, false, false, []⟩ ta tb s2 := by
    unfold mxDo
    rw [bindM_ok (mxTake_none h0 _), bindM_ok hc]
    rfl
  unfold tileStart
  dsimp only
  rw [ht]
  dsimp only
  rw [if_neg (not_not_intro hk), hr, hq]
  dsimp only
  change (match ((tileTaken n fr ⟨w, [], [], 0, false, false, []⟩ s).ac n).mxu.run with | some r => _ | none => _) = _
  rw [hrun]
  exact hdo

theorem tileStarted_leaves (n : Nat) (r : TileRun) (ta tb : Tdt) (s : State) :
    ((tileStarted n r ta tb s).ac n).mxu = { (s.ac n).mxu with
        run := some { r with tdtA := ta.words, tdtB := tb.words, ctr := (s.ac n).cc.sr 0x0D3, go := true } }
      ∧ ((tileStarted n r ta tb s).ac n).cc.sr 0x0D3 = (if (s.ac n).mxu.mode = 4 then (s.ac n).cc.sr 0x0D3 + 1 else (s.ac n).cc.sr 0x0D3)
      ∧ (tileStarted n r ta tb s).mem = s.mem := by
  unfold tileStarted
  dsimp only
  refine ⟨?_, ?_, ?_⟩
  · rw [modMx_mxu]
    split
    · rw [State.modCC_ac, if_pos rfl]
    · rfl
  · rw [State.modMx, State.modAc_ac, if_pos rfl]
    split
    · rw [State.modCC_ac, if_pos rfl]
      exact (CC.setSr_sr ..).trans (if_pos rfl)
    · rfl
  · split <;> rfl

end Sys2Proof

/-! # The product of a row -/

namespace Sys2Proof

open Machine

/- Declarations are checked one after another: side by side they would hold a thread each. -/
set_option Elab.async false

/-! ### A stream of products (R216, R413) -/

section
variable (md : RMode) (rand : Nat → W32) (before : W32) (ps : List (FVal × FVal))

/-- An accumulator element after so many K-groups of a stream of products. -/
def macAt : Nat → W32
  | 0 => before
  | g + 1 => toF32 md (rand g) false (sumExact md (f32 (macAt g) :: ((ps.drop (8 * g)).take 8).map fun p => mulX p.1 p.2))

/-- One K-group into an element, with the number of the group. -/
def macStep (x : W32 × Nat) (g : List FVal) : W32 × Nat := (toF32 md (rand x.2) false (sumExact md (f32 x.1 :: g)), x.2 + 1)

theorem macStep_groups (f g : Nat) (hf : (ps.drop (8 * g)).length ≤ f) :
    (chunksOf f 8 ((ps.drop (8 * g)).map fun p => mulX p.1 p.2)).foldl (macStep md rand) (macAt md rand before ps g, g)
      = (macAt md rand before ps (g + ((ps.drop (8 * g)).length + 7) / 8), g + ((ps.drop (8 * g)).length + 7) / 8) := by
  induction f generalizing g with
  | zero =>
    rw [Nat.le_zero.mp hf]
    rfl
  | succ f ih =>
    rw [chunksOf]
    cases hl : ps.drop (8 * g) with
    | nil => rfl
    | cons p r =>
      rw [if_neg (by simp), List.foldl_cons, ← hl]
      have hdrop : (ps.drop (8 * g)).drop 8 = ps.drop (8 * (g + 1)) := by rw [List.drop_drop, Nat.mul_add_one]
      have hstep : macStep md rand (macAt md rand before ps g, g) (((ps.drop (8 * g)).map fun p => mulX p.1 p.2).take 8)
          = (macAt md rand before ps (g + 1), g + 1) := by
        rw [← List.map_take]
        rfl
      have hlen : (ps.drop (8 * (g + 1))).length = (ps.drop (8 * g)).length - 8 := by rw [← hdrop, List.length_drop]
      have hpos : 0 < (ps.drop (8 * g)).length := by rw [hl]; exact Nat.succ_pos _
      rw [hstep, ← List.map_drop, hdrop, ih (g + 1) (by omega), hlen]
      generalize (ps.drop (8 * g)).length = k at hpos ⊢
      have hk : g + 1 + (k - 8 + 7) / 8 = g + (k + 7) / 8 := by omega
      rw [hk]

end

theorem macSum_macStream (md : RMode) (rand : Nat → W32) (before : W32) (a b : List FVal) :
    MacSum md rand (a.zip b) before (macStream md rand before a b) := by
  refine ⟨macAt md rand before (a.zip b), rfl, ?_, fun g _ => rfl⟩
  have h := macStep_groups md rand before (a.zip b) ((a.zip b).map fun p => mulX p.1 p.2).length 0 (by rw [List.length_map]; exact Nat.le_refl _)
  rw [Nat.zero_add] at h
  exact (congrArg Prod.fst h).symm

/-! ### The accumulators after a row (R413) -/

section
variable {α β : Type} [DecidableEq β] {d : β} {key : α → Nat} {val : α → β → β}

/-- Entries of a map, each changed by what is there. -/
theorem smGet_foldl_change_of_ne {l : List α} {j : Nat} (h : ∀ x ∈ l, key x ≠ j) (m : SMap β) :
    smGet d (l.foldl (fun m x => smPut d m (key x) (val x (smGet d m (key x)))) m) j = smGet d m j := by
  induction l generalizing m with
  | nil => rfl
  | cons x l ih =>
    rw [List.foldl_cons, ih (fun y hy => h y (List.mem_cons_of_mem _ hy)), smGet_smPut, if_neg (Ne.symm (h x List.mem_cons_self))]

theorem smGet_foldl_change {l : List α} (hl : (l.map key).Nodup) {x : α} (hx : x ∈ l) (m : SMap β) :
    smGet d (l.foldl (fun m x => smPut d m (key x) (val x (smGet d m (key x)))) m) (key x) = val x (smGet d m (key x)) := by
  induction l generalizing m with
  | nil => cases hx
  | cons y l ih =>
    obtain ⟨hy, hl⟩ := List.nodup_cons.mp hl
    rw [List.foldl_cons]
    rcases List.mem_cons.mp hx with rfl | hx
    · rw [smGet_foldl_change_of_ne fun z hz hk => hy (List.mem_map.mpr ⟨z, hz, hk⟩), smGet_smPut, if_pos rfl]
    · have hne : key x ≠ key y := fun h => hy (List.mem_map.mpr ⟨x, hx, h⟩)
      rw [ih hl hx, smGet_smPut, if_neg hne]

end

section
variable {m : MX} {q : TQEntry} {seed : W32} {ctr : W64} {i : Nat} {x : RowOperands}

/-- The key of an accumulator element of a row. -/
def rowKey (q : TQEntry) (i j : Nat) : Nat := 4096 * q.acc + 64 * i + j

/-- What an element of a row has become. -/
def rowValue (m : MX) (seed : W32) (ctr : W64) (i : Nat) (x : RowOperands) (p : (List FVal × Nat) × Nat) (v : W32) : W32 :=
  macStream (modeOf m.mode) (fun g => srHash seed ctr (BitVec.ofNat 32 (4096 * g + 64 * i + p.2))) v x.a.1 p.1.1

theorem rowAcc_element (hx : x.cols.length = q.nt) {j : Nat} {c : List FVal × Nat} (hj : x.cols[j]? = some c) :
    MacSum (modeOf m.mode) (fun g => srHash seed ctr (BitVec.ofNat 32 (4096 * g + 64 * i + j))) (x.a.1.zip c.1)
      (smGet 0 m.acc (rowKey q i j)) (smGet 0 (rowAcc m q seed ctr i x) (rowKey q i j)) := by
  have hlt : j < q.nt := hx ▸ (List.getElem?_eq_some_iff.mp hj).1
  have hnodup : ((x.cols.zip (List.range q.nt)).map fun p => rowKey q i p.2).Nodup := by
    have hz : (x.cols.zip (List.range q.nt)).map (·.2) = List.range q.nt := List.map_snd_zip (by rw [List.length_range, hx])
    rw [show (fun p : (List FVal × Nat) × Nat => rowKey q i p.2) = rowKey q i ∘ (·.2) from rfl, ← List.map_map, hz]
    exact List.nodup_range.map fun a b h => by simpa only [rowKey, Nat.add_left_cancel_iff] using h
  have hval := smGet_foldl_change (d := (0 : W32)) (key := fun p : (List FVal × Nat) × Nat => rowKey q i p.2)
    (val := rowValue m seed ctr i x)
    hnodup (mem_zip_range hlt hj) m.acc
  have hrow : smGet 0 (rowAcc m q seed ctr i x) (rowKey q i j) = _ := hval
  rw [hrow]
  exact macSum_macStream ..

theorem rowAcc_other {key : Nat} (hk : ∀ j, j < q.nt → key ≠ 4096 * q.acc + 64 * i + j) : smGet 0 (rowAcc m q seed ctr i x) key = smGet 0 m.acc key := by
  refine smGet_foldl_change_of_ne (d := (0 : W32)) (key := fun p : (List FVal × Nat) × Nat => rowKey q i p.2)
    (val := rowValue m seed ctr i x) (fun p hp h => ?_) m.acc
  exact hk p.2 (List.mem_range.mp (List.of_mem_zip hp).2) h.symm

end

end Sys2Proof

/-! # Rows of a tile operation -/

namespace Sys2Proof

open Machine

/- Declarations are checked one after another: side by side they would hold a thread each. -/
set_option Elab.async false

/-! ### The rows of a tile command (R413, R415, R417) -/

section
variable {n i : Nat} {q : TQEntry} {r : TileRun} {x : RowOperands} {s s1 : State}

theorem keeps_readWith (a : Agent) (l : List (W64 × Nat)) (got : SMap (List Byte)) : Keeps Reads (readWith a l got) :=
  keeps_bind reads_chains (keeps_mapM reads_chains (fun _ => keeps_bind reads_chains (keeps_addrRange _) fun _ =>
    keeps_bind reads_chains (keeps_reach ..) fun _ => keeps_pure reads_chains _) _) fun _ => keeps_readUnits ..

theorem keeps_rowRead (n : Nat) (q : TQEntry) (r : TileRun) (i : Nat) : Keeps Reads (rowRead n q r i) :=
  keeps_bind reads_chains (keeps_readWith ..) fun _ => keeps_pure reads_chains _

theorem rowRead_cols (h : rowRead n q r i s = .ok x s1) : x.cols.length = q.nt := by
  unfold rowRead at h
  dsimp only at h
  cases hr : readWith (.ac n 4) (streamAddrs q ⟨r.tdtA⟩ 0 i ++ ((List.range q.nt).map fun j => streamAddrs q ⟨r.tdtB⟩ 1 j).flatten) r.scales s with
  | error e t =>
    rw [bindM_error hr] at h
    exact nomatch h
  | ok b t =>
    rw [bindM_ok hr] at h
    cases h
    rw [List.length_map, List.length_range]

/-- MX after a row whose operands have been read, with its new accumulators. -/
def rowDone (r : TileRun) (i : Nat) (x : RowOperands) (acc : SMap W32) (m : MX) : MX :=
  { m with
    acc := acc, rowprog := i + 1, run := some { r with scales := x.scales }
    nfops := BitVec.ofNat 32 (min (m.nfops.toNat + (x.a.2 + (if i = 0 then x.cols.foldl (fun k c => k + c.2) 0 else 0))) 0xFFFFFFFF) }

/-- The accumulators after a row that begins in a state. -/
def rowAccAt (n : Nat) (q : TQEntry) (r : TileRun) (i : Nat) (x : RowOperands) (s : State) : SMap W32 :=
  rowAcc (s.ac n).mxu q (((s.ac n).cc.sr 0x0D2).setWidth 32) r.ctr i x

theorem rowStep_ok (h : rowRead n q r i s = .ok x s1) : rowStep n q r i s
    = .ok () (s1.modMx n (rowDone r i x (rowAccAt n q r i x s))) := by
  have hcc := ((keeps_rowRead n q r i).ok h).cc n
  have hm := ((keeps_rowRead n q r i).ok h).mxu n
  simp only [rowStep, bindM_ok h, act_run, rowAccAt, ← hcc, ← hm]
  rfl

theorem rowStep_error {st : Stop} (h : rowRead n q r i s = .error st s1) : rowStep n q r i s = .error st s1 := bindM_error h

/-- What a row leaves of MX. -/
theorem rowDone_mxu (h : rowRead n q r i s = .ok x s1) :
    ((s1.modMx n (rowDone r i x (rowAccAt n q r i x s))).ac n).mxu = rowDone r i x (rowAccAt n q r i x s) (s.ac n).mxu := by
  rw [modMx_mxu, ((keeps_rowRead n q r i).ok h).mxu]

/-- A row that has ended has read its operands. -/
theorem rowStep_inv (h : rowStep n q r i s = .ok () s1) : ∃ x u, rowRead n q r i s = .ok x u
    ∧ s1 = u.modMx n (rowDone r i x (rowAccAt n q r i x s)) := by
  cases hr : rowRead n q r i s with
  | ok x u =>
    rw [rowStep_ok hr] at h
    cases h
    exact ⟨x, u, rfl, rfl⟩
  | error e u =>
    rw [rowStep_error hr] at h
    exact nomatch h

end

section
variable {n : Nat} {s s1 : State} {q : TQEntry} {rest : List TQEntry} {r : TileRun}

/-- Mismatches that a row has, besides what it commits. -/
def rowChecked (n : Nat) (resBad dupBad : Bool) (q : TQEntry) (groups : Nat) (t : State) : State :=
  let t := if resBad then residueEvents n q groups t else t
  if dupBad then dupEvent n q t else t

variable (hf : mxFree (s.ac n) = true) (ht : (s.ac n).mxu.tq = q :: rest) (hk : q.kind = 0) (hr : (s.ac n).mxu.run = some r) (hgo : r.go = true)
  (hrow : (s.ac n).mxu.rowprog < q.mt)
include hf ht hk hr hgo hrow

theorem exec_mxRowCommit (resBad dupBad : Bool) : exec (.mxRowCommit n resBad dupBad) s = .next (match rowStep n q r (s.ac n).mxu.rowprog s with
    | .ok _ t => rowChecked n resBad dupBad q (checkedInRow n q r (s.ac n).mxu.rowprog s) t
    | .error st t => mxStop n st t) := by
  refine (mxEvent_eq hf (rowCommit n resBad dupBad)).trans (congrArg Host.Outcome.next ?_)
  unfold rowCommit
  dsimp only
  rw [ht, hr]
  exact if_pos ⟨hk, hgo, hrow⟩

theorem rowCommit_commits (resBad dupBad : Bool) (h : rowStep n q r (s.ac n).mxu.rowprog s = .ok () s1) : exec (.mxRowCommit n resBad dupBad) s
    = .next (rowChecked n resBad dupBad q (checkedInRow n q r (s.ac n).mxu.rowprog s) s1) := by
  rw [exec_mxRowCommit hf ht hk hr hgo hrow, h]

theorem rowCommit_faults {c : Nat} {i0 i1 : W64} (h : rowRead n q r (s.ac n).mxu.rowprog s = .error (.trap c i0 i1) s1) :
    exec (.mxRowCommit n false false) s = .next ((engFault n .mx c i0 i1 s1).modMx n fun m => { m with tstop := true }) := by
  rw [exec_mxRowCommit hf ht hk hr hgo hrow, rowStep_error h]
  rfl

theorem rowCommit_row {x : RowOperands} (h : rowRead n q r (s.ac n).mxu.rowprog s = .ok x s1) :
    let m := (s.ac n).mxu
    ∃ t : State, exec (.mxRowCommit n false false) s = .next t ∧ (t.ac n).mxu.rowprog = m.rowprog + 1 ∧ t.mem = s1.mem
      ∧ (t.ac n).mxu.run = some { r with scales := x.scales }
      ∧ (∀ j c, x.cols[j]? = some c → MacSum (modeOf m.mode)
          (fun g => srHash (((s.ac n).cc.sr 0x0D2).setWidth 32) r.ctr (BitVec.ofNat 32 (4096 * g + 64 * m.rowprog + j))) (x.a.1.zip c.1)
          (smGet 0 m.acc (4096 * q.acc + 64 * m.rowprog + j)) (smGet 0 (t.ac n).mxu.acc (4096 * q.acc + 64 * m.rowprog + j)))
      ∧ ∀ key, (∀ j, j < q.nt → key ≠ 4096 * q.acc + 64 * m.rowprog + j) → smGet 0 (t.ac n).mxu.acc key = smGet 0 m.acc key := by
  intro m
  have hm := rowDone_mxu h
  refine ⟨_, rowCommit_commits hf ht hk hr hgo hrow false false (rowStep_ok h), ?_⟩
  generalize hu : s1.modMx n (rowDone r (s.ac n).mxu.rowprog x (rowAccAt n q r (s.ac n).mxu.rowprog x s)) = u at hm ⊢
  have hmem : u.mem = s1.mem := by rw [← hu]; rfl
  dsimp only [rowChecked]
  rw [if_neg Bool.false_ne_true, if_neg Bool.false_ne_true, hm]
  exact ⟨rfl, hmem, rfl, fun j c hj => rowAcc_element (rowRead_cols h) hj, fun key hkey => rowAcc_other hkey⟩

end

/-! ### Mismatches (R417) -/

section
variable {n : Nat} {q : TQEntry}

theorem integrity_mxu (d src m : Nat) (info pc : W64) (s : State) : ((s.integrity d src m info pc).ac n).mxu = (s.ac n).mxu := by
  unfold State.integrity
  dsimp only
  split
  · rw [State.modCC_ac]
    split
    · next h => subst h; rfl
    · rfl
  · rfl

/-- One mismatch counts in its register of MX, and changes no more of MX. -/
theorem mxMismatch_mxu (dup : Bool) (s : State) : ((mxMismatch n q dup s).ac n).mxu
    = if dup then { (s.ac n).mxu with dupev := (s.ac n).mxu.dupev + 1 } else { (s.ac n).mxu with resev := (s.ac n).mxu.resev + 1 } := by
  rw [mxMismatch, integrity_mxu, modMx_mxu]

theorem residueEvents_mxu (groups : Nat) (s : State) : ((residueEvents n q groups s).ac n).mxu
    = { (s.ac n).mxu with resev := (s.ac n).mxu.resev + BitVec.ofNat 64 (mismatches groups s.seq) } := by
  have hfold : ∀ (l : List Nat) (u : State), ((l.foldl (fun s _ => mxMismatch n q false s) u).ac n).mxu
      = { (u.ac n).mxu with resev := (u.ac n).mxu.resev + BitVec.ofNat 64 l.length } := by
    intro l
    induction l with
    | nil =>
      intro u
      have h0 : (u.ac n).mxu.resev + BitVec.ofNat 64 0 = (u.ac n).mxu.resev := BitVec.add_zero _
      rw [List.foldl_nil, List.length_nil, h0]
    | cons y l ih =>
      intro u
      rw [List.foldl_cons, ih, mxMismatch_mxu, if_neg (by decide), List.length_cons, BitVec.add_assoc, Nat.add_comm l.length, BitVec.ofNat_add]
      rfl
  refine (hfold _ _).trans ?_
  rw [List.length_range]
  rfl

theorem mismatches_bounds (groups k : Nat) : if groups = 0 then mismatches groups k = 0 else 1 ≤ mismatches groups k ∧ mismatches groups k ≤ groups := by
  unfold mismatches
  split
  · rfl
  · next h0 =>
    have := Nat.mod_lt (Config.loadChoice k) (Nat.pos_of_ne_zero h0)
    omega

theorem dupEvent_mxu {r : TileRun} {s : State} (hr : (s.ac n).mxu.run = some r) :
    ((dupEvent n q s).ac n).mxu.acc = (s.ac n).mxu.acc ∧ ((dupEvent n q s).ac n).mxu.resev = (s.ac n).mxu.resev
      ∧ ((dupEvent n q s).ac n).mxu.dupev = (s.ac n).mxu.dupev + (if r.dup = false ∧ (s.ac n).mxu.chkrot.toNat < q.nt ∧ 0 < q.k then 1 else 0) := by
  unfold dupEvent
  dsimp only
  rw [hr]
  dsimp only
  by_cases hd : r.dup = false ∧ (s.ac n).mxu.chkrot.toNat < q.nt ∧ 0 < q.k
  · have hd' : (!r.dup) = true ∧ (s.ac n).mxu.chkrot.toNat < q.nt ∧ 0 < q.k := ⟨by rw [hd.1]; rfl, hd.2⟩
    rw [if_pos hd', if_pos hd, mxMismatch_mxu, modMx_mxu]
    exact ⟨rfl, rfl, rfl⟩
  · have hd' : ¬((!r.dup) = true ∧ (s.ac n).mxu.chkrot.toNat < q.nt ∧ 0 < q.k) := fun h => hd ⟨by simpa using h.1, h.2⟩
    rw [if_neg hd', if_neg hd]
    exact ⟨rfl, rfl, (BitVec.add_zero _).symm⟩

end

section
variable {n : Nat} {s s1 : State} {q : TQEntry} {rest : List TQEntry} {r : TileRun} (hf : mxFree (s.ac n) = true)
  (ht : (s.ac n).mxu.tq = q :: rest) (hk : q.kind = 0) (hr : (s.ac n).mxu.run = some r) (hgo : r.go = true) (hrow : (s.ac n).mxu.rowprog < q.mt)
include hf ht hk hr hgo hrow

theorem rowCommit_checks (h : rowStep n q r (s.ac n).mxu.rowprog s = .ok () s1) :
    let m := (s.ac n).mxu
    exec (.mxRowCommit n false false) s = .next s1 ∧ (s1.ac n).mxu.rowprog = m.rowprog + 1 ∧ (s1.ac n).mxu.tq = m.tq
      ∧ ∃ (t : State) (k : Nat), exec (.mxRowCommit n true true) s = .next t ∧ (t.ac n).mxu.acc = (s1.ac n).mxu.acc
        ∧ (t.ac n).mxu.resev = (s1.ac n).mxu.resev + BitVec.ofNat 64 k
        ∧ (let g := checkedInRow n q r m.rowprog s
          if g = 0 then k = 0 else 1 ≤ k ∧ k ≤ g)
        ∧ (t.ac n).mxu.dupev = (s1.ac n).mxu.dupev + (if r.dup = false ∧ m.chkrot.toNat < q.nt ∧ 0 < q.k then 1 else 0) := by
  intro m
  obtain ⟨x, u, hx, hs1⟩ := rowStep_inv h
  have hm : (s1.ac n).mxu = rowDone r m.rowprog x (rowAccAt n q r m.rowprog x s) m := by rw [hs1]; exact rowDone_mxu hx
  have hres := residueEvents_mxu (n := n) (q := q) (checkedInRow n q r m.rowprog s) s1
  have hrun : ((residueEvents n q (checkedInRow n q r m.rowprog s) s1).ac n).mxu.run = some { r with scales := x.scales } := by rw [hres, hm]; rfl
  obtain ⟨hacc, hresev, hdupev⟩ := dupEvent_mxu (q := q) hrun
  rw [hres] at hacc hresev hdupev
  have hchk : m.chkrot = (s1.ac n).mxu.chkrot := by rw [hm]; rfl
  refine ⟨rowCommit_commits hf ht hk hr hgo hrow false false h, by rw [hm]; rfl, by rw [hm]; rfl, dupEvent n q (residueEvents n q (checkedInRow n q r m.rowprog s) s1),
    mismatches (checkedInRow n q r m.rowprog s) s1.seq, ?_, hacc, hresev, mismatches_bounds .., ?_⟩
  · exact rowCommit_commits hf ht hk hr hgo hrow true true h
  · rw [hchk]
    exact hdupev

end

end Sys2Proof

/-! # What a release sees of the clusters -/

namespace Sys2Proof

open Machine

/- Declarations are checked one after another: side by side they would hold a thread each. -/
set_option Elab.async false

/-! ### Releases and the clusters' registers: of a cluster they see its scratch split alone -/

/-- A state with other clusters. -/
def withAcs (X : SMap AC) (s : State) : State := { s with acs := X }

/-- Clusters with the scratch splits of those of a state. -/
def SameGran (X : SMap AC) (s : State) : Prop := ∀ m, (withAcs X s).sgran m = s.sgran m

/-- A step that does not see the clusters of a state but for their scratch splits, and keeps them. -/
structure AcsFree (X : SMap AC) (f : State → State) : Prop where
  acs : ∀ s, (f s).acs = s.acs
  eq : ∀ s, SameGran X s → f (withAcs X s) = withAcs X (f s)

section
variable {X : SMap AC} {f g : State → State}

theorem SameGran.of_acs {s t : State} (h : SameGran X s) (ht : t.acs = s.acs) : SameGran X t := fun m => by
  have hs := h m
  unfold State.sgran State.sysOf at hs ⊢
  rw [ht]
  exact hs

theorem AcsFree.comp (hg : AcsFree X g) (hf : AcsFree X f) : AcsFree X fun s => g (f s) where
  acs s := (hg.acs _).trans (hf.acs s)
  eq s h := by rw [hf.eq s h, hg.eq _ (h.of_acs (hf.acs s))]

theorem AcsFree.foldl {α : Type} {f : State → α → State} (hf : ∀ x, AcsFree X fun s => f s x) (l : List α) : AcsFree X fun s => l.foldl f s := by
  induction l with
  | nil => exact ⟨fun _ => rfl, fun _ _ => rfl⟩
  | cons x l ih => exact ih.comp (hf x)

/-- A choice by what the clusters do not decide. -/
theorem AcsFree.ite {p : State → Prop} [∀ s, Decidable (p s)] (hp : ∀ s, SameGran X s → (p (withAcs X s) ↔ p s)) (hf : AcsFree X f) (hg : AcsFree X g) :
    AcsFree X fun s => if p s then f s else g s where
  acs s := by
    split
    · exact hf.acs s
    · exact hg.acs s
  eq s h := by
    by_cases hps : p s
    · rw [if_pos hps, if_pos ((hp s h).mpr hps), hf.eq s h]
    · rw [if_neg hps, if_neg (mt (hp s h).mp hps), hg.eq s h]

theorem AcsFree.id : AcsFree X fun s => s := ⟨fun _ => rfl, fun _ _ => rfl⟩

theorem acsFree_of_rfl (ha : ∀ s, (f s).acs = s.acs) (he : ∀ s, f (withAcs X s) = withAcs X (f s)) : AcsFree X f := ⟨ha, fun s _ => he s⟩

theorem place_withAcs {s : State} (h : SameGran X s) (a : Agent) (sc : Scope) (l1 : Bool) (k : Nat) : (withAcs X s).place a sc l1 k = s.place a sc l1 k := by
  have hgran : (fun m => (withAcs X s).sgran m == 8) = fun m => s.sgran m == 8 := funext fun m => by rw [h m]
  cases a with
  | ac n u =>
    unfold State.place
    dsimp only
    rw [hgran]
    rfl
  | _ => rfl

theorem storePlace_withAcs {s : State} (h : SameGran X s) (a : Agent) (sc : Scope) (l1 : Bool) (k : Nat) :
    (withAcs X s).storePlace a sc l1 k = s.storePlace a sc l1 k := by
  unfold State.storePlace
  rw [place_withAcs h]
  rfl

theorem pointOf_withAcs {s : State} (h : SameGran X s) (a : Agent) (sc : Scope) (k : Nat) (v : Version) :
    (withAcs X s).pointOf a sc k v = s.pointOf a sc k v := by
  unfold State.pointOf
  rw [storePlace_withAcs h]

theorem acsFree_fireWrite (cls k n : Nat) : AcsFree X (fireWrite cls k n) :=
  .ite (fun _ _ => Iff.rfl) .id ⟨fun _ => rfl, fun _ _ => rfl⟩

theorem acsFree_post (pl : Place) (k : Nat) (b : List Byte) : AcsFree X (Machine.post pl k b) := by
  unfold Machine.post
  split
  · exact .ite (fun _ _ => Iff.rfl) .id ⟨fun _ => rfl, fun _ _ => rfl⟩
  · exact .id

theorem acsFree_enterWrite (a : Agent) (pls : List Place) (rels : List (Agent × Scope)) (strong : Bool) (tag : OpTag) (below : Nat → List Version → Nat)
    (k : Nat) (b : List Byte) : AcsFree X (enterWrite a pls rels strong tag below k b) := ⟨fun _ => rfl, fun _ _ => rfl⟩

theorem acsFree_performRaw (a : Agent) (pl : Place) (rels : List (Agent × Scope)) (strong : Bool) (tag : OpTag) (below : Nat → List Version → Nat)
    (k : Nat) (b : List Byte) : AcsFree X (performRaw a pl rels strong tag below k b) := by
  have hpost : AcsFree X fun s => match a with | .host _ => s | _ => Machine.post pl k b s := by
    split
    · exact .id
    · exact acsFree_post ..
  have hfire : AcsFree X fun s => if pl = .home then fireWrite (classBit a) k b.length s else s := .ite (fun _ _ => Iff.rfl) (acsFree_fireWrite ..) .id
  exact hfire.comp (hpost.comp (acsFree_enterWrite ..))

theorem acsFree_joinQueue (pa : Nat) (a : Agent) (rels : List (Agent × Scope)) (id : State → Nat) (hid : ∀ s, id (withAcs X s) = id s) :
    AcsFree X fun s => joinQueue pa a (id s) rels s := by
  unfold joinQueue
  split
  · exact .id
  · exact ⟨fun _ => rfl, fun s _ => by dsimp only; rw [hid]; rfl⟩

theorem acsFree_performAt (a : Agent) (pl : Place) (rels : List (Agent × Scope)) (tag : OpTag) (k : Nat) (b : List Byte) :
    AcsFree X (performAt a pl rels tag k b) := by
  refine .ite (fun _ _ => Iff.rfl) (.foldl (fun x => .ite (fun _ _ => Iff.rfl) ⟨fun s => ?_, fun s h => ?_⟩ (acsFree_performRaw ..)) _) (acsFree_performRaw ..)
  · exact (acsFree_joinQueue (X := X) _ a rels (fun _ => s.wid + 1) fun _ => rfl).acs _
  · exact (acsFree_joinQueue _ a rels (fun _ => s.wid + 1) fun _ => rfl).eq (enterWrite a [] [] false tag onTop x.1 x.2 s) (h.of_acs rfl)

theorem acsFree_performStore (a : Agent) (sc : Scope) (rels : List (Agent × Scope)) (w : PWrite) : AcsFree X fun s => performStore a sc rels s w := by
  refine .foldl (fun x => ⟨fun s => (acsFree_performAt (X := X) ..).acs s, fun s h => ?_⟩) _
  rw [storePlace_withAcs h]
  exact (acsFree_performAt ..).eq s h

theorem acsFree_moveHist (h : State → SMap (List Version)) (hh : ∀ s, SameGran X s → h (withAcs X s) = h s) : AcsFree X fun s => moveHist (h s) s := by
  have hfix : ∀ l : SMap (List Version), AcsFree X fun s => moveHist l s := fun l =>
    .ite (fun _ _ => Iff.rfl) ⟨fun _ => rfl, fun _ _ => rfl⟩ ⟨fun _ => rfl, fun _ _ => rfl⟩
  refine ⟨fun s => (hfix (h s)).acs s, fun s hs => ?_⟩
  rw [hh s hs]
  exact (hfix (h s)).eq s hs

/-- The writes on record, but for those that join the queue of a kettle. -/
def keptHist (s : State) (h : SMap (List Version)) : SMap (List Version) :=
  (s.hist.zip h).map fun (o, n) => (o.1, (o.2.zip n.2).map fun (v, w) => if s.joins o.1 v w then v else w)

/-- The writes that join the queue of a kettle. -/
def heldHist (s : State) (h : SMap (List Version)) : List (Nat × Agent × Nat × List (Agent × Scope)) :=
  (s.hist.zip h).flatMap fun (o, n) => (o.2.zip n.2).filterMap fun (v, w) =>
    if s.joins o.1 v w then v.by'.map fun a => (o.1 / 64 * 64, a, v.id, w.rels) else none

theorem acsFree_withHist (h : State → SMap (List Version)) (hh : ∀ s, SameGran X s → h (withAcs X s) = h s) : AcsFree X fun s => withHist (h s) s := by
  have hmove : AcsFree X fun s => moveHist (keptHist s (h s)) s := acsFree_moveHist _ fun s hs => by rw [hh s hs]; rfl
  have hjoin : ∀ l : List (Nat × Agent × Nat × List (Agent × Scope)), AcsFree X fun s => l.foldl (fun s x => joinQueue x.1 x.2.1 x.2.2.1 x.2.2.2 s) s :=
    fun l => .foldl (fun x => acsFree_joinQueue _ _ _ _ fun _ => rfl) l
  refine .ite (fun _ _ => Iff.rfl) (acsFree_moveHist h hh) ⟨fun s => ((hjoin (heldHist s (h s))).acs _).trans (hmove.acs s), fun s hs => ?_⟩
  have hheld : heldHist (withAcs X s) (h (withAcs X s)) = heldHist s (h s) := by rw [hh s hs]; rfl
  have hrest := (hjoin (heldHist s (h s))).eq _ (hs.of_acs (hmove.acs s))
  rw [← hmove.eq s hs] at hrest
  refine Eq.trans ?_ hrest
  rw [← hheld]
  rfl

theorem acsFree_unpark : AcsFree X unpark := .ite (fun _ _ => Iff.rfl) .id ⟨fun _ => rfl, fun _ _ => rfl⟩

theorem acsFree_releaseView (a : Agent) (sc : Scope) : AcsFree X (releaseView a sc) := by
  refine acsFree_withHist (fun s => (s.viewed (s.agent a)).map fun (k, l, id) =>
    (k, if id = 0 then l else l.map fun v => if (fun v id => v.id == id || v.unreleased a) v id then v.release s.wid a sc (s.pointOf a sc k v) else v)) fun s hs => ?_
  have hp : (withAcs X s).pointOf a sc = s.pointOf a sc := funext fun k => funext fun v => pointOf_withAcs hs ..
  dsimp only
  rw [hp]
  rfl

theorem acsFree_release (a : Agent) (sc : Scope) : AcsFree X (release a sc) := by
  have hpend : AcsFree X fun s => if (s.agent a).pend.isEmpty then s else (s.agent a).pend.foldl (performPend a sc) (s.setAgent a { s.agent a with pend := [] }) := by
    refine .ite (fun _ _ => Iff.rfl) .id ⟨fun s => ?_, fun s h => ?_⟩
    · exact (AcsFree.foldl (X := X) (acsFree_performStore a sc _) (s.agent a).pend).acs (s.setAgent a { s.agent a with pend := [] })
    · exact (AcsFree.foldl (X := X) (acsFree_performStore a sc _) (s.agent a).pend).eq (s.setAgent a { s.agent a with pend := [] }) (h.of_acs rfl)
  exact acsFree_unpark.comp ((acsFree_releaseView a sc).comp hpend)

end

end Sys2Proof

/-! # Register writes and the tile queues -/

namespace Sys2Proof

open Machine

/-! ### Writes of registers leave memory and the tile queues -/

/-- Memory and the tile queue of every cluster are as they were. -/
structure LeavesTiles (s t : State) : Prop where
  mem : t.mem = s.mem
  tq : ∀ m, (t.ac m).mxu.tq = (s.ac m).mxu.tq

section
variable {s t u : State}

theorem LeavesTiles.refl (s : State) : LeavesTiles s s := ⟨rfl, fun _ => rfl⟩

theorem LeavesTiles.trans (h : LeavesTiles s t) (h' : LeavesTiles t u) : LeavesTiles s u := ⟨h'.mem.trans h.mem, fun m => (h'.tq m).trans (h.tq m)⟩

theorem LeavesTiles.of_acs (hm : t.mem = s.mem) (ha : t.acs = s.acs) : LeavesTiles s t := ⟨hm, fun m => by rw [ac_of_acs ha]⟩

theorem leavesTiles_foldl {α : Type} {f : State → α → State} (hf : ∀ s x, LeavesTiles s (f s x)) (l : List α) (s : State) : LeavesTiles s (l.foldl f s) := by
  induction l generalizing s with
  | nil => exact .refl s
  | cons x l ih => exact (hf s x).trans (ih _)

theorem leavesTiles_ite {p : Prop} [Decidable p] (ht : LeavesTiles s t) (hu : LeavesTiles s u) : LeavesTiles s (if p then t else u) := by
  split
  · exact ht
  · exact hu

theorem leavesTiles_modAc {n : Nat} {f : AC → AC} (hf : ∀ a, (f a).mxu.tq = a.mxu.tq) (s : State) : LeavesTiles s (s.modAc n f) := by
  refine ⟨rfl, fun m => ?_⟩
  rw [State.modAc_ac]
  split
  · next h => rw [h]; exact hf _
  · rfl

theorem leavesTiles_modCC (n : Nat) (f : CC → CC) (s : State) : LeavesTiles s (s.modCC n f) :=
  leavesTiles_modAc (f := fun a => { a with cc := f a.cc }) (fun _ => rfl) s

theorem leavesTiles_modDie (d : Nat) (f : Die → Die) (s : State) : LeavesTiles s (s.modDie d f) := .of_acs rfl rfl

theorem leavesTiles_setReg (d o : Nat) (v : W64) (s : State) : LeavesTiles s (s.setReg d o v) := leavesTiles_modDie ..

end

section
variable (s : State)

theorem leavesTiles_extend (i : Nat) (b : List Byte) : LeavesTiles s (extend i b s) := by
  unfold extend
  generalize BitVec.ofNat 512 _ = v
  exact .of_acs rfl rfl

theorem leavesTiles_addRecord (d : Nat) (r : FRec) : LeavesTiles s (s.addRecord d r) := leavesTiles_modDie ..

/-- A cluster without its claims on a launch. -/
def claimless (launch : Nat) (a : AC) : AC := { a with disp := { a.disp with claims := a.disp.claims.filter fun c => c.1 != launch } }

theorem leavesTiles_claimless (launch : Nat) : LeavesTiles s { s with acs := s.acs.map fun x => (x.1, claimless launch x.2) } := by
  refine ⟨rfl, fun m => ?_⟩
  refine (congrArg (fun o : Option AC => (o.getD AC.reset).mxu.tq) (smFind_map (claimless launch) s.acs m)).trans ?_
  rw [State.ac, smGet]
  cases smFind s.acs m <;> rfl

theorem leavesTiles_freeRanges (launch : Nat) (conts : Bool) : LeavesTiles s (s.freeRanges launch conts) := by
  refine LeavesTiles.trans ?_ (leavesTiles_claimless _ launch)
  exact leavesTiles_foldl (fun t d => leavesTiles_modDie ..) _ _

theorem leavesTiles_cancelLaunch (d l code : Nat) : LeavesTiles s (s.cancelLaunch d l code) := by
  unfold State.cancelLaunch
  dsimp only
  exact leavesTiles_ite (.refl s) (((leavesTiles_freeRanges s ..).trans (leavesTiles_modDie ..)).trans (leavesTiles_addRecord ..))

theorem leavesTiles_tlbCommand (d : Nat) (v : W64) : LeavesTiles s (tlbCommand d v s) := by
  unfold tlbCommand
  dsimp only
  exact leavesTiles_ite (leavesTiles_setReg ..) (.of_acs rfl rfl)

theorem leavesTiles_qfuse (d : Nat) (v : W64) : LeavesTiles s (qfuse d v s) := by
  unfold qfuse
  dsimp only
  refine .trans ?_ (leavesTiles_setReg ..)
  exact .of_acs rfl rfl

theorem leavesTiles_preemptDone : LeavesTiles s (preemptDone s) := by
  have h0 : LeavesTiles s { s with preempt := none } := .of_acs rfl rfl
  refine h0.trans ?_
  unfold preemptDone
  exact leavesTiles_foldl (fun t d => leavesTiles_setReg ..) _ _

theorem leavesTiles_precmd (d : Nat) (v : W64) : LeavesTiles s (precmd d v s) := by
  unfold precmd
  dsimp only
  refine leavesTiles_ite (leavesTiles_setReg ..) (leavesTiles_ite (.refl s) (leavesTiles_ite (.of_acs rfl rfl) ?_))
  split
  · exact leavesTiles_ite (.of_acs rfl rfl) (leavesTiles_preemptDone s)
  · exact leavesTiles_preemptDone s

theorem leavesTiles_entryWord0 (d t e : Nat) (v : W64) : LeavesTiles s (entryWord0 d t e v s) := by
  unfold entryWord0
  dsimp only
  exact (leavesTiles_setReg ..).trans ((leavesTiles_modDie ..).trans (leavesTiles_extend ..))

theorem leavesTiles_withdrawBoot : LeavesTiles s (withdrawBoot s) := by
  unfold withdrawBoot
  refine leavesTiles_foldl (fun t x => ?_) _ _
  dsimp only
  exact leavesTiles_ite ((leavesTiles_setReg ..).trans (leavesTiles_entryWord0 ..)) (.refl t)

theorem rootBytes_acs (pa len : Nat) : (rootBytes pa len s).2.acs = s.acs := by
  unfold rootBytes
  refine .trans ?_ (memStep_acquire s .root .pkg).acs
  generalize granulePieces (len / 4096 + 2) pa len = l, acquire .root .pkg s = t
  have hf : ∀ (l : List (Nat × Nat)) (x : List Byte × State), (l.foldl (fun (b, s) (p, n) =>
      let (c, s) := loadRange .root none (canonPa 0 p) n 8 s
      (b ++ c, s)) x).2.acs = x.2.acs := by
    intro l
    induction l with
    | nil => exact fun _ => rfl
    | cons y l ih => exact fun x => (ih _).trans (memStep_loadRange ..).acs
  exact hf l ([], t)

theorem leavesTiles_rootBytes (pa len : Nat) : LeavesTiles s (rootBytes pa len s).2 := .of_acs (rootReads_rootBytes pa len s).mem (rootBytes_acs s pa len)

theorem leavesTiles_bootStep4 : LeavesTiles s (bootStep4 s) := by
  unfold bootStep4
  dsimp only
  have hr := leavesTiles_rootBytes s (bits (s.reg 0 0x0800) 16 36 * 65536) (bits (s.reg 0 0x0800) 0 16 * 65536)
  refine leavesTiles_ite (.refl s) (leavesTiles_ite (leavesTiles_setReg ..) (leavesTiles_ite ?_ (hr.trans (leavesTiles_setReg ..))))
  have hw := (hr.trans (leavesTiles_extend _ 1 (sha3 (Config.imageBody (rootBytes (bits (s.reg 0 0x0800) 16 36 * 65536) (bits (s.reg 0 0x0800) 0 16 * 65536) s).1)))).trans (leavesTiles_withdrawBoot _)
  generalize withdrawBoot _ = w at hw ⊢
  generalize List.foldl _ _ _ = pcs
  have hp : LeavesTiles w { w with corePc := pcs } := .of_acs rfl rfl
  exact hw.trans (hp.trans (leavesTiles_setReg _ _ _ _))

theorem leavesTiles_portWrite (d off : Nat) (v : W64) : LeavesTiles s (portWrite d off v s) := by
  unfold portWrite
  dsimp only
  have h1 : LeavesTiles s (if off = 0x8000 ∧ 2 ≤ bits v 1 2 then s else if rwMask d off = 0 then s else s.setReg d off (v &&& rwMask d off)) :=
    leavesTiles_ite (.refl s) (leavesTiles_ite (.refl s) (leavesTiles_setReg ..))
  generalize (if off = 0x8000 ∧ 2 ≤ bits v 1 2 then s else _) = t at h1 ⊢
  have h2 : LeavesTiles t (if off = 0x8000 ∧ bits v 1 2 < 2 ∧ (!v.getLsbD 0) = true then t.setReg d 0x8008 0 else t) :=
    leavesTiles_ite (leavesTiles_setReg ..) (.refl t)
  exact leavesTiles_ite ((h1.trans h2).trans (leavesTiles_extend ..)) (h1.trans h2)

theorem leavesTiles_raiseMsi (port v : Nat) : LeavesTiles s (raiseMsi port v s) := by
  unfold raiseMsi msiFlush
  dsimp only
  exact leavesTiles_ite (.of_acs rfl rfl) (.of_acs rfl rfl)

theorem leavesTiles_attGo (who : Agent) : LeavesTiles s (attGo who s) := by
  unfold attGo
  exact leavesTiles_ite (leavesTiles_setReg ..) (.of_acs rfl rfl)

theorem leavesTiles_bindWrite (d a i : Nat) (v : W64) : LeavesTiles s (bindWrite d a i v s) := by
  unfold bindWrite
  dsimp only
  refine leavesTiles_ite (leavesTiles_setReg ..) (.trans ?_ (leavesTiles_modAc (fun x => ?_) _))
  · exact leavesTiles_setReg ..
  · rfl

theorem leavesTiles_mailboxWord0 (d i : Nat) (v : W64) : LeavesTiles s (mailboxWord0 d i v s) := .of_acs rfl rfl

theorem leavesTiles_kettleAbortWrite (q : Nat) (v : W64) : LeavesTiles s (kettleAbortWrite q v s) := leavesTiles_ite (.of_acs rfl rfl) (.refl s)

theorem leavesTiles_aclWrite (d o : Nat) (v : W64) : LeavesTiles s (aclWrite d o v s) := by
  unfold aclWrite
  split
  · exact leavesTiles_entryWord0 ..
  · exact leavesTiles_setReg ..
  · exact leavesTiles_setReg ..
  · exact .refl s

theorem setEng_mxu (a : AC) (e : Eid) (x : Eng) : (a.setEng e x).mxu = a.mxu := by cases e <;> rfl

theorem leavesTiles_unwait (w : XWait) : LeavesTiles s (s.unwait w) := by
  unfold State.unwait
  split
  · split
    · next e _ =>
      refine leavesTiles_modAc (fun a => ?_) s
      dsimp only
      have h1 : ∀ x : Eng, (if (a.eng e).xl = some w.token then a.setEng e x else a).mxu.tq = a.mxu.tq := fun x => by
        split
        · rw [setEng_mxu]
        · rfl
      generalize (if (a.eng e).xl = some w.token then a.setEng e _ else a) = b, h1 _ = hb
      split
      · exact hb
      · exact hb
    · exact leavesTiles_modCC ..
  · exact .refl s

theorem leavesTiles_engFault (n : Nat) (e : Eid) (c : Nat) (i0 i1 : W64) : LeavesTiles s (engFault n e c i0 i1 s) :=
  leavesTiles_modAc (fun a => congrArg (fun m : MX => m.tq) (setEng_mxu a e _)) s

theorem leavesTiles_abortWait (d : Nat) (w : XWait) : LeavesTiles s (s.abortWait d w) := by
  unfold State.abortWait
  split
  · split
    · dsimp only
      refine ((leavesTiles_unwait s w).trans (leavesTiles_engFault ..)).trans (leavesTiles_modAc (fun a => ?_) _)
      split <;> rfl
    · split
      · exact (leavesTiles_unwait s w).trans (leavesTiles_modCC ..)
      · exact leavesTiles_modDie ..
  · exact leavesTiles_modDie ..

theorem leavesTiles_replayWrite (d : Nat) (v : W64) : LeavesTiles s (replayWrite d v s) := by
  unfold replayWrite
  dsimp only
  refine leavesTiles_ite (.refl s) ?_
  split
  · exact leavesTiles_setReg ..
  · exact .trans (leavesTiles_modDie ..) (leavesTiles_ite (leavesTiles_unwait ..) (leavesTiles_abortWait ..))

theorem leavesTiles_mintWrite (d : Nat) (v : W64) : LeavesTiles s (mintWrite d v s) := leavesTiles_modCC ..

theorem leavesTiles_seeHot (d : Nat) : LeavesTiles s (seeHot d s) := leavesTiles_ite (leavesTiles_setReg ..) (.refl s)

theorem leavesTiles_regWrite (who : Agent) (d off : Nat) (v : W64) : LeavesTiles s (regWrite who d off v s) := by
  unfold regWrite
  refine leavesTiles_ite (leavesTiles_tlbCommand ..) (leavesTiles_ite (leavesTiles_qfuse ..) (leavesTiles_ite (leavesTiles_precmd ..)
    (leavesTiles_ite (leavesTiles_mintWrite ..) (leavesTiles_ite (leavesTiles_bootStep4 s) (leavesTiles_ite (leavesTiles_portWrite ..)
    (leavesTiles_ite (leavesTiles_raiseMsi ..) (leavesTiles_ite (leavesTiles_attGo ..) (leavesTiles_ite (leavesTiles_ite
    (leavesTiles_ite (leavesTiles_cancelLaunch ..) (.refl s)) (.refl s)) (leavesTiles_ite (leavesTiles_bindWrite ..) (leavesTiles_ite (leavesTiles_mailboxWord0 ..)
    (leavesTiles_ite (leavesTiles_ite (.refl s) (leavesTiles_setReg ..)) (leavesTiles_ite (leavesTiles_ite (leavesTiles_kettleAbortWrite ..) (.refl s))
    (leavesTiles_ite (leavesTiles_replayWrite ..) (leavesTiles_ite (leavesTiles_aclWrite ..) (leavesTiles_ite (leavesTiles_setReg ..)
    (leavesTiles_ite (.refl s) ?_))))))))))))))))
  exact (leavesTiles_setReg ..).trans (leavesTiles_seeHot ..)

theorem leavesTiles_mmioStore (who : Agent) (d off : Nat) (b : List Byte) : LeavesTiles s (mmioStore who d off b s) :=
  leavesTiles_ite (leavesTiles_regWrite ..) (leavesTiles_regWrite ..)

end

theorem leavesTiles_plainStore (a : Agent) (l1 : Bool) (va k : Nat) (b : List Byte) (s : State) : LeavesTiles s (plainStore a l1 va k b s) := .of_acs rfl rfl

theorem leavesTiles_writePieces (a : Agent) (ps : List (Nat × Nat × BitVec 2)) : ∀ (va : Nat) (s : State) (b : List Byte), LeavesTiles s (writePieces a va s ps b) := by
  induction ps with
  | nil => exact fun _ s _ => .refl s
  | cons p r ih =>
    intro va s b
    obtain ⟨pa, n, at'⟩ := p
    refine .trans ?_ (ih (va + n) _ (b.drop n))
    split
    · exact leavesTiles_mmioStore ..
    · exact leavesTiles_plainStore ..

end Sys2Proof

/-! # Drains -/

namespace Sys2Proof

open Machine

/- Declarations are checked one after another: side by side they would hold a thread each. -/
set_option Elab.async false

/-! ### Drains (R416) -/

/-- The tile queue of every cluster is as it was. -/
def SameQueues (s t : State) : Prop := ∀ m, (t.ac m).mxu.tq = (s.ac m).mxu.tq

theorem sameQueues_chains : Chains SameQueues := ⟨fun _ _ => rfl, fun h h' m => (h' m).trans (h m)⟩

theorem Keeps.queues {α : Type} {f : M α} (h : Keeps Reads f) : Keeps SameQueues f := h.mono fun _ _ h m => congrArg (fun x => x.tq) (h.mxu m)

theorem keeps_writeRange (a : Agent) (va : W64) (b : List Byte) : Keeps SameQueues (writeRange a va b) :=
  keeps_bind sameQueues_chains (keeps_addrRange va).queues fun _ => keeps_bind sameQueues_chains (keeps_reach ..).queues fun ps =>
    keeps_act fun s => (leavesTiles_writePieces a ps va.toNat s b).tq

theorem keeps_forM {R : State → State → Prop} (hR : Chains R) {α : Type} {f : α → M Unit} (hf : ∀ x, Keeps R (f x)) (l : List α) :
    Keeps R (l.forM f) := by
  induction l with
  | nil => exact keeps_pure hR _
  | cons x l ih => exact keeps_bind hR (hf x) fun _ => ih

/-- The scratch split of a cluster, whether or not its registers have been written. -/
theorem sgran_eq (s : State) (m : Nat) : s.sgran m = (smGet 0 (s.ac m).cc.sys 0x0C0).toNat % 16 := by
  unfold State.sgran State.sysOf State.ac
  rw [smGet.eq_def AC.reset]
  cases smFind s.acs m <;> rfl

/-- A release performs of memory the same whatever MX holds. -/
theorem release_modMx_mem (n : Nat) (f : MX → MX) (a : Agent) (sc : Scope) (s : State) : (release a sc (s.modMx n f)).mem = (release a sc s).mem := by
  have hg : SameGran (s.modMx n f).acs s := fun m => by
    have hac : ((s.modMx n f).ac m).cc = (s.ac m).cc := by
      rw [State.modMx, State.modAc_ac]
      split
      · next h => rw [h]
      · rfl
    have h := (sgran_eq (s.modMx n f) m).trans (congrArg (fun c : CC => (smGet 0 c.sys 0x0C0).toNat % 16) hac)
    exact h.trans (sgran_eq s m).symm
  have h := (acsFree_release (X := (s.modMx n f).acs) a sc).eq s hg
  exact (congrArg (fun t : State => t.mem) h :)

/-- A drain whose elements are written ends its entry. -/
theorem exec_mxDrain {n : Nat} {s s1 : State} {q : TQEntry} {rest : List TQEntry} {r : TileRun} (hf : mxFree (s.ac n) = true) (ht : (s.ac n).mxu.tq = q :: rest)
    (hk : q.kind = 2) (hr : (s.ac n).mxu.run = some r) (hgo : r.go = false) (h0 : q.takes = 0)
    (hw : ((drainWrites (s.ac n).mxu q).forM fun (x : W64 × List Byte) => writeRange (.ac n 4) x.1 x.2) s = .ok () s1) :
    exec (.mxDrain n) s = .next (mxEnd n q id (s1.modMx n fun m => { m with run := some { r with go := true } })) := by
  refine (mxEvent_eq hf (drain n)).trans (congrArg Host.Outcome.next ?_)
  have hdo : mxDo n (do
      mxTake n q
      (drainWrites (s.ac n).mxu q).forM fun (va, b) => writeRange (.ac n 4) va b
      act fun s => s.modMx n fun m => { m with run := some { r with go := true } }) s = s1.modMx n fun m => { m with run := some { r with go := true } } := by
    unfold mxDo
    rw [bindM_ok (mxTake_none h0 _), bindM_ok hw]
    rfl
  unfold drain
  dsimp only
  rw [ht]
  dsimp only
  have hnone : ¬((s.ac n).mxu.run.isNone = true) := by
    rw [hr]
    exact Bool.false_ne_true
  rw [if_neg (not_not_intro hk), if_neg hnone, hr]
  dsimp only
  rw [hgo, if_neg Bool.false_ne_true, hdo, modMx_mxu]
  exact if_pos rfl

theorem mxDrain_ends {n : Nat} {s s1 : State} {q : TQEntry} {rest : List TQEntry} {r : TileRun} (hf : mxFree (s.ac n) = true) (ht : (s.ac n).mxu.tq = q :: rest)
    (hk : q.kind = 2) (hr : (s.ac n).mxu.run = some r) (hgo : r.go = false) (h0 : q.takes = 0) (hg : q.gives = 0)
    (hw : ((drainWrites (s.ac n).mxu q).forM fun (x : W64 × List Byte) => writeRange (.ac n 4) x.1 x.2) s = .ok () s1) :
    ∃ t : State, exec (.mxDrain n) s = .next t ∧ t.mem = (release (.ac n 4) .ac s1).mem ∧ (t.ac n).mxu.tq = rest
      ∧ (t.ac n).mxu.acc = (s1.ac n).mxu.acc ∧ (q.num ≠ 0 → (3, q.num) ∈ (t.ac n).ln.tlDone) := by
  have htq : (s1.ac n).mxu.tq = (s.ac n).mxu.tq := ((keeps_forM sameQueues_chains (fun x => keeps_writeRange _ _ _) _).ok hw) n
  obtain ⟨hmx, hdone, hmem⟩ := mxEnd_leaves (n := n) (s := s1.modMx n fun m => { m with run := some { r with go := true } }) (f := id) (fun _ => hg)
  rw [modMx_mxu] at hmx
  refine ⟨_, exec_mxDrain hf ht hk hr hgo h0 hw, hmem.trans (release_modMx_mem ..), ?_, ?_, hdone⟩
  · rw [hmx]
    change (s1.ac n).mxu.tq.drop 1 = rest
    rw [htq, ht]
    rfl
  · rw [hmx]
    rfl

end Sys2Proof

/-! # Array commands in flight -/

namespace Sys2Proof

open Machine

/- Declarations are checked one after another: side by side they would hold a thread each. -/
set_option Elab.async false

/-! ### Array commands in flight (R396, R397, R407, R410, R494) -/

theorem setTile_tile (n i j : Nat) (x : Tile) (s : State) : (s.setTile n i x).tile n j = if j = i then x else s.tile n j := by
  unfold State.tile State.setTile AC.tile
  rw [State.modAc_ac, if_pos rfl]
  exact smGet_smSet ..

theorem setTile_axq (n i : Nat) (x : Tile) (s : State) : ((s.setTile n i x).ac n).axq = (s.ac n).axq := by rw [State.setTile, State.modAc_ac, if_pos rfl]

theorem modDie_pactive (d : Nat) (f : Die → Die) (s : State) : ((s.modDie d f).die d).pactive = (f (s.die d)).pactive := by rw [State.modDie_die, if_pos rfl]

/-! #### The scratch writes of a command -/

theorem addStore_pend (a : Agent) (s : State) (w : PWrite) : ((addStore a s w).agent a).pend = (s.agent a).pend ++ [w] := by
  unfold addStore
  rw [State.setAgent_agent, if_pos rfl]

theorem axWrites_pend (n : Nat) (ws : List PWrite) (s : State) : ((axWrites n s ws).agent (.ac n 5)).pend = (s.agent (.ac n 5)).pend ++ ws := by
  unfold axWrites
  induction ws generalizing s with
  | nil => exact (List.append_nil _).symm
  | cons w ws ih => rw [List.foldl_cons, ih, addStore_pend, List.append_assoc, List.singleton_append]

theorem axWrites_leaves (n : Nat) (ws : List PWrite) (s : State) :
    (axWrites n s ws).mem = s.mem ∧ (axWrites n s ws).acs = s.acs ∧ (axWrites n s ws).dies = s.dies := by
  unfold axWrites
  induction ws generalizing s with
  | nil => exact ⟨rfl, rfl, rfl⟩
  | cons w ws ih => exact ih _

/-! #### A command that completes -/

/-- A command that has performed its scratch writes and holds its tile no longer. -/
def axFinished (n : Nat) (c : AxCmd) (s : State) : State := (axWrites n s c.writes).modDie (dieOf n) fun d => { d with pactive := d.pactive - 1 }

/-- The cluster of a command without it. -/
def sansCmds (n : Nat) (s : State) : State := s.modAc n fun a => { a with axq := [] }

theorem axRetire_done {n : Nat} {s : State} {c : AxCmd} (hq : (s.ac n).axq = [c]) (hd : c.done = true) (hg : c.give = 0) :
    axRetire n ((s.ac n).axq.length + 1) s = sansCmds n s := by
  have h2 : (sansCmds n s).ac n = { s.ac n with axq := [] } := by rw [sansCmds, State.modAc_ac, if_pos rfl]
  rw [hq]
  change axRetire n (1 + 1) s = _
  rw [axRetire, hq]
  dsimp only
  rw [hd, Bool.not_true, if_neg Bool.false_ne_true, if_pos hg]
  change axRetire n (0 + 1) (sansCmds n s) = _
  rw [axRetire, h2]

theorem axTurn_one {n : Nat} {s : State} {c : AxCmd} (hq : (s.ac n).axq = [c]) (hd : c.done = false) (hw : c.waiting = false) :
    axTurn n s = axRetire n ((((axAdvance n c s).2.modAc n fun a => { a with axq := updFirst (fun c => !c.done && !c.waiting) (axAdvance n c s).1 a.axq }).ac n).axq.length + 1)
      ((axAdvance n c s).2.modAc n fun a => { a with axq := updFirst (fun c => !c.done && !c.waiting) (axAdvance n c s).1 a.axq }) := by
  have hf : (s.ac n).axq.find? (fun c => !c.done && !c.waiting) = some c := by
    rw [hq, List.find?_cons_of_pos]
    rw [hd, hw]
    rfl
  unfold axTurn
  dsimp only
  rw [hf]

theorem updFirst_one {c c' : AxCmd} (hd : c.done = false) (hw : c.waiting = false) : updFirst (fun c : AxCmd => !c.done && !c.waiting) c' [c] = [c'] := by
  rw [updFirst, if_pos]
  rw [hd, hw]
  rfl

theorem arrayCommand_ends {n : Nat} {s : State} {c : AxCmd} (hq : (s.ac n).axq = [c]) (hd : c.done = false) (hw : c.waiting = false) (hg : c.give = 0) (hr : c.rows = []) :
    ∃ t : State, exec (.arrayCommandComplete n) s = .next t ∧ (t.ac n).axq = [] ∧ t.mem = s.mem ∧ (t.ac n).tiles = (s.ac n).tiles
      ∧ (t.agent (.ac n 5)).pend = (s.agent (.ac n 5)).pend ++ c.writes ∧ (t.die (dieOf n)).pactive = (s.die (dieOf n)).pactive - 1 := by
  have hadv : axAdvance n c s = ({ c with done := true, writes := [] }, axFinished n c s) := by
    unfold axAdvance
    dsimp only
    rw [hr]
    exact if_pos rfl
  obtain ⟨hmem, hacs, hdies⟩ := axWrites_leaves n c.writes s
  have hac : (axFinished n c s).ac n = s.ac n := ac_of_acs hacs n
  have hstep : (axFinished n c s).modAc n (fun a => { a with axq := updFirst (fun c => !c.done && !c.waiting) { c with done := true, writes := [] } a.axq })
      = (axFinished n c s).modAc n fun a => { a with axq := [{ c with done := true, writes := [] }] } := by
    rw [State.modAc, State.modAc, hac, hq, updFirst_one hd hw]
  have hq' : (((axFinished n c s).modAc n fun a => { a with axq := [{ c with done := true, writes := [] }] }).ac n).axq = [{ c with done := true, writes := [] }] := by
    rw [State.modAc_ac, if_pos rfl]
  refine ⟨_, congrArg Host.Outcome.next (axTurn_one hq hd hw), ?_⟩
  rw [hadv]
  dsimp only
  rw [hstep, axRetire_done hq' rfl hg]
  refine ⟨?_, hmem, ?_, axWrites_pend n c.writes s, ?_⟩
  · rw [sansCmds, State.modAc_ac, if_pos rfl]
  · rw [sansCmds, State.modAc_ac, if_pos rfl, State.modAc_ac, if_pos rfl, hac]
  · change ((axFinished n c s).die (dieOf n)).pactive = _
    rw [axFinished, modDie_pactive, die_of_dies hdies]

/-! #### A row of a program command -/

theorem isRef_of_reg {t u : Tile} (h : t.reg = u.reg) : t.isRef = u.isRef := by
  unfold Tile.isRef Tile.mode Tile.r
  rw [h]

theorem setFast_reg (t : Tile) (k : Nat) (v : Int) : (t.setFast k v).reg = t.reg := by
  unfold Tile.setFast
  split <;> rfl

theorem setSlow_reg (t : Tile) (k : Nat) (v : Int) : (t.setSlow k v).reg = t.reg := by
  unfold Tile.setSlow
  split <;> rfl

theorem setFast_lf {t : Tile} (h : t.isRef = true) (k : Nat) (v : Int) : (t.setFast k v).lf = smPut 0 t.lf k v := by
  rw [Tile.setFast, if_pos h]

/-- One column of a row of APROG. -/
def progCell (n : Nat) (w : Win) (form : Nat) (p : ProgRow) (acc : TileS × Nat × Int) (j : Nat) : TileS × Nat × Int :=
  let lim : Int := if form = 0 then 2047 else 255
  let ((t, q), slack, worst) := acc
  let c := w.col0 + j
  let (goal, q) := if form = 2 then (let (v, q) := t.sym n w.tile p.row c q; (roundInt .rne 0 (.scaled v (-4)), q)) else (p.targets.getD j 0, q)
  let target := satInt goal (-lim) lim
  let (got, q) := if t.isRef then (target, q) else (satInt (Config.physSample q) (-lim) lim, q + 1)
  let near := decide ((got - target).natAbs ≤ 1)
  let got := if near ∨ 0 < slack then got else satInt (satInt got (target - 1) (target + 1)) (-lim) lim
  let slack := if near then slack else slack - 1
  let t := if form = 0 then t.setSlow (cell p.row c) got else t.setFast (cell p.row c) got
  ((t, q), slack, if worst.natAbs < (got - target).natAbs then got - target else worst)

theorem progRow_eq (n : Nat) (w : Win) (form : Nat) (p : ProgRow) (slack : Nat) (x : TileS) :
    progRow n w form p slack x = (List.range w.cols).foldl (progCell n w form p) (x, slack, 0) := rfl

theorem progCell_reg (n : Nat) (w : Win) (form : Nat) (p : ProgRow) (acc : TileS × Nat × Int) (j : Nat) : (progCell n w form p acc j).1.1.reg = acc.1.1.reg := by
  unfold progCell
  dsimp only
  split
  · exact setSlow_reg ..
  · exact setFast_reg ..

/-- On the REF state a fast level takes its target (R407). -/
theorem progCell_lf (n : Nat) (w : Win) (p : ProgRow) {acc : TileS × Nat × Int} (h : acc.1.1.isRef = true) (j : Nat) :
    (progCell n w 1 p acc j).1.1.lf = smPut 0 acc.1.1.lf (cell p.row (w.col0 + j)) (satInt (p.targets.getD j 0) (-255) 255) := by
  unfold progCell
  dsimp only
  simp only [if_pos h, Nat.one_ne_zero, OfNat.one_ne_ofNat, if_false]
  rw [setFast_lf h, Int.sub_self, if_pos (.inl (by decide))]

theorem progRow_leaves (n : Nat) (w : Win) (p : ProgRow) (form slack : Nat) (x : TileS) :
    (progRow n w form p slack x).1.1.reg = x.1.reg
      ∧ (x.1.isRef = true → form = 1 → ∀ j, j < w.cols → smGet 0 (progRow n w form p slack x).1.1.lf (cell p.row (w.col0 + j)) = satInt (p.targets.getD j 0) (-255) 255) := by
  rw [progRow_eq]
  have hk : ∀ k, ((List.range k).foldl (progCell n w form p) (x, slack, 0)).1.1.reg = x.1.reg
      ∧ (x.1.isRef = true → form = 1 → ∀ j, j < k → smGet 0 ((List.range k).foldl (progCell n w form p) (x, slack, 0)).1.1.lf (cell p.row (w.col0 + j))
        = satInt (p.targets.getD j 0) (-255) 255) := by
    intro k
    induction k with
    | zero => exact ⟨rfl, fun _ _ j hj => absurd hj (Nat.not_lt_zero j)⟩
    | succ k ih =>
      obtain ⟨hreg, hlev⟩ := ih
      rw [List.range_succ, List.foldl_append]
      refine ⟨(progCell_reg ..).trans hreg, fun href hf j hj => ?_⟩
      have href' := (isRef_of_reg hreg).trans href
      subst hf
      rw [List.foldl_cons, List.foldl_nil, progCell_lf n w p href' k, smGet_smPut]
      split
      · next he =>
        have hjk : j = k := by
          unfold cell at he
          omega
        rw [hjk]
      · next he =>
        refine hlev href rfl j ?_
        have hjk : j ≠ k := fun h => he (by rw [h])
        omega
  exact hk w.cols

theorem satInt_eq {lo hi : Int} (h : lo ≤ hi) (x : Int) : satInt x lo hi = max lo (min hi x) := by
  unfold satInt
  split
  · omega
  · split <;> omega

theorem setR_r_ne {i k : Nat} (h : k ≠ i) (v : W64) (t : Tile) : (t.setR i v).r k = t.r k := by
  have hf : smFind (smPut (tileDefault i) t.reg i v) k = smFind t.reg k := by
    unfold smPut
    split
    · rw [smFind_smErase, if_neg h]
    · rw [smFind_smSet, if_neg h]
  exact congrArg (fun o : Option W64 => o.getD (tileDefault k)) hf

/-- A program command with rows behind its next one. -/
theorem axAdvance_row {n : Nat} {s : State} {c : AxCmd} {p : ProgRow} {rest : List ProgRow} {w : Win} (hr : c.rows = p :: rest) (hne : rest ≠ []) (hw : winOf c.win = some w) :
    axAdvance n c s = axProgRow n c s := by
  have h1 : (axProgRow n c s).1.rows = rest := by
    unfold axProgRow
    rw [hr, hw]
  unfold axAdvance
  dsimp only
  rw [h1, hr, if_neg (by simp), if_neg (by simpa using hne)]

theorem axProgRow_leaves {n : Nat} {s : State} {c : AxCmd} {p : ProgRow} {rest : List ProgRow} {w : Win} (hr : c.rows = p :: rest) (hw : winOf c.win = some w) :
    ∃ (k : Nat) (t : Tile), (axProgRow n c s).1 = { c with rows := rest, slack := k } ∧ (axProgRow n c s).2.mem = s.mem ∧ (axProgRow n c s).2.acs = (s.setTile n c.tile t).acs
      ∧ t.r 8 = BitVec.ofNat 64 ((p.row + 1) % 1024)
      ∧ ((s.tile n c.tile).isRef = true → c.form = 1 → ∀ j, j < w.cols → t.fast (1024 * p.row + (w.col0 + j)) = max (-255) (min 255 (p.targets.getD j 0))) := by
  obtain ⟨hreg, hlev⟩ := progRow_leaves n w p c.form c.slack ({ s.tile n c.tile with now := s.cycle }, s.seq)
  have hdef : axProgRow n c s = (let ((t, q), slack, res) := progRow n w c.form p c.slack ({ s.tile n c.tile with now := s.cycle }, s.seq)
      ({ c with rows := rest, slack := slack }, addStore (.ac n 5) { s.setTile n c.tile (t.setR 8 (BitVec.ofNat 64 ((p.row + 1) % 1024))) with seq := q } { p.resid with bytes := ofInts 2 [res] })) := by
    unfold axProgRow
    rw [hr, hw]
  rw [hdef]
  generalize progRow n w c.form p c.slack ({ s.tile n c.tile with now := s.cycle }, s.seq) = y at hreg hlev
  obtain ⟨⟨t, q⟩, k, res⟩ := y
  refine ⟨k, t.setR 8 (BitVec.ofNat 64 ((p.row + 1) % 1024)), rfl, rfl, rfl, ?_, fun href hf j hj => ?_⟩
  · exact (smGet_smPut ..).trans (if_pos rfl)
  · have h6 : (t.setR 8 (BitVec.ofNat 64 ((p.row + 1) % 1024))).isRef = true := by
      have hr6 : (t.setR 8 (BitVec.ofNat 64 ((p.row + 1) % 1024))).r 6 = (s.tile n c.tile).r 6 := by
        refine (setR_r_ne (show (6 : Nat) ≠ 8 by decide) _ t).trans ?_
        exact congrArg (fun m : SMap W64 => smGet (tileDefault 6) m 6) hreg
      unfold Tile.isRef Tile.mode at href ⊢
      rw [hr6]
      exact href
    rw [Tile.fast, if_pos h6, ← satInt_eq (by decide)]
    exact hlev href hf j hj

theorem arrayCommand_programs {n : Nat} {s : State} {c : AxCmd} {p : ProgRow} {rest : List ProgRow} {w : Win} (hq : (s.ac n).axq = [c]) (hd : c.done = false)
    (hwt : c.waiting = false) (hr : c.rows = p :: rest) (hne : rest ≠ []) (hw : winOf c.win = some w) :
    ∃ t : State, exec (.arrayCommandComplete n) s = .next t ∧ (t.ac n).axq = [{ c with rows := rest, slack := (((t.ac n).axq.map (·.slack))[0]?).getD 0 }]
      ∧ t.mem = s.mem ∧ TilesBut n c.tile s t
      ∧ (t.tile n c.tile).r 8 = BitVec.ofNat 64 ((p.row + 1) % 1024)
      ∧ ((s.tile n c.tile).isRef = true → c.form = 1 → ∀ j, j < w.cols →
        (t.tile n c.tile).fast (1024 * p.row + (w.col0 + j)) = Max.max (-255) (Min.min 255 (p.targets.getD j 0))) := by
  obtain ⟨k, x, hc, hmem, hacs, h8, hlev⟩ := axProgRow_leaves (s := s) (n := n) hr hw
  have hq1 : ((axProgRow n c s).2.ac n).axq = [c] := by rw [ac_of_acs hacs, setTile_axq, hq]
  have hstep : (axProgRow n c s).2.modAc n (fun a => { a with axq := updFirst (fun c => !c.done && !c.waiting) (axProgRow n c s).1 a.axq })
      = (axProgRow n c s).2.modAc n fun a => { a with axq := [(axProgRow n c s).1] } := by
    rw [State.modAc, State.modAc, hq1, updFirst_one hd hwt]
  have htile : ∀ j, ((axProgRow n c s).2.modAc n fun a => { a with axq := [(axProgRow n c s).1] }).tile n j = if j = c.tile then x else s.tile n j := fun j => by
    rw [← setTile_tile n c.tile j x s, State.tile, State.modAc_ac, if_pos rfl, State.tile, ← ac_of_acs hacs]
    rfl
  have hq2 : (((axProgRow n c s).2.modAc n fun a => { a with axq := [(axProgRow n c s).1] }).ac n).axq = [(axProgRow n c s).1] := by
    rw [State.modAc_ac, if_pos rfl]
  have hturn : axTurn n s = (axProgRow n c s).2.modAc n fun a => { a with axq := [(axProgRow n c s).1] } := by
    rw [axTurn_one hq hd hwt, axAdvance_row hr hne hw, hstep]
    refine axRetire_of_busy (fun c' hc' => ?_) _
    rw [hq2, List.mem_singleton] at hc'
    rw [hc', hc]
    exact hd
  refine ⟨_, congrArg Host.Outcome.next hturn, ?_, hmem, fun j hj => ?_, ?_, fun href hf j hj => ?_⟩
  · rw [hq2, hc]
    rfl
  · rw [htile, if_neg hj]
  · rw [htile, if_pos rfl, h8]
  · rw [htile, if_pos rfl]
    exact hlev href hf j hj

/-! #### The step gate of a command -/

/-- An instruction of AX is never refused at AX. -/
theorem axRun_runs (h : Head) (i : Instr) (chk f : Nat → M Unit) {n : Nat} {s : State} (hc : s.cur = engAgent n .ax) : ∃ t, axRun h i chk f s = .next t := by
  have he : s.curEng = some (n, .ax) := by
    unfold State.curEng
    rw [hc]
    rfl
  unfold axRun
  rw [he]
  dsimp only
  unfold engRunN
  rw [he]
  dsimp only
  split
  · exact ⟨_, rfl⟩
  · split
    · exact ⟨_, rfl⟩
    · split
      · exact ⟨_, rfl⟩
      · generalize (if Head.take h = 0 then _ else _) = y
        obtain ⟨u, got⟩ := y
        cases got with
        | false => exact ⟨_, rfl⟩
        | true =>
          dsimp only
          rw [Bool.not_true, if_neg Bool.false_ne_true]
          split <;> exact ⟨_, rfl⟩

theorem axGateRead_runs {n : Nat} {s : State} {i : Instr} (hw : (s.ac n).ax.wait = some i) (hx : (s.ac n).ax.xl = none) (hg : (s.ac n).ax.giveN = 0) (he : (s.ac n).cc.entry = none)
    (hi : (∃ h d a b c, i = .aupd h d a b c) ∨ (∃ h d a, i = .axfer h d a) ∨ ∃ h k d a b c, i = .aprog h k d a b c) :
    ∃ t : State, exec (.axGateRead n) s = .next t ∧ exec i { s with cur := engAgent n .ax } = .next t := by
  have hno : ¬((((s.ac n).eng .ax).xl.isSome = true) ∨ ((s.ac n).eng .ax).giveN ≠ 0 ∨ (s.ac n).cc.entry.isSome = true) := by
    change ¬((s.ac n).ax.xl.isSome = true ∨ (s.ac n).ax.giveN ≠ 0 ∨ (s.ac n).cc.entry.isSome = true)
    rw [hx, he, hg]
    decide
  have hrun : ∀ g : Instr → Option (State → Res), rerunEng n .ax g s = (match g i with | some g => g { s with cur := engAgent n .ax } | none => .next s) := fun g => by
    unfold rerunEng
    dsimp only
    rw [if_neg hno]
    change (match (s.ac n).ax.wait with | some i => _ | none => _) = _
    rw [hw] <;> rfl
  rcases hi with ⟨h, d, a, b, c, rfl⟩ | ⟨h, d, a, rfl⟩ | ⟨h, k, d, a, b, c, rfl⟩
  · obtain ⟨t, ht⟩ : ∃ t, execAupd h d a b c { s with cur := engAgent n .ax } = .next t := axRun_runs _ _ _ _ rfl
    exact ⟨t, (hrun _).trans ht, ht⟩
  · obtain ⟨t, ht⟩ : ∃ t, execAxfer h d a { s with cur := engAgent n .ax } = .next t := axRun_runs _ _ _ _ rfl
    exact ⟨t, (hrun _).trans ht, ht⟩
  · obtain ⟨t, ht⟩ : ∃ t, execAprog h k d a b c { s with cur := engAgent n .ax } = .next t := by
      unfold execAprog
      exact axRun_runs _ _ _ _ rfl
    exact ⟨t, (hrun _).trans ht, ht⟩

/-! #### Admission under the power cap -/

theorem mem_updFirst {α : Type} {p : α → Bool} {l : List α} {c : α} (h : l.find? p = some c) (x : α) : x ∈ updFirst p x l := by
  induction l with
  | nil => cases h
  | cons y l ih =>
    rw [updFirst]
    split
    · exact List.mem_cons_self
    · next hp =>
      rw [List.find?_cons_of_neg hp] at h
      exact List.mem_cons_of_mem _ (ih h)

theorem length_updFirst {α : Type} (p : α → Bool) (x : α) (l : List α) : (updFirst p x l).length = l.length := by
  induction l with
  | nil => rfl
  | cons y l ih =>
    rw [updFirst]
    split
    · rfl
    · rw [List.length_cons, ih, List.length_cons]

theorem powerAdmit_admits {d : Nat} {s : State} {w : PowerWait} {rest : List PowerWait} {c : AxCmd} (hp : (s.die d).pwait = w :: rest) (hcap : (s.die d).pactive < actCap (s.die d))
    (hc : ((s.ac w.ac).axq.find? fun c => c.waiting && c.tile == w.tile) = some c) :
    ∃ t : State, exec (.powerAdmit d) s = .next t ∧ (t.die d).pwait = rest ∧ (t.die d).pactive = (s.die d).pactive + 1 ∧ t.mem = s.mem
      ∧ ({ c with waiting := false } : AxCmd) ∈ (t.ac w.ac).axq ∧ (t.ac w.ac).axq.length = (s.ac w.ac).axq.length := by
  have hadm : admitTile d s = (s.setDie d { s.die d with pwait := rest, pactive := (s.die d).pactive + 1 }).modAc w.ac fun a =>
      match a.axq.find? fun c => c.waiting && c.tile == w.tile with
      | some c => { a with axq := updFirst (fun c => c.waiting && c.tile == w.tile) { c with waiting := false } a.axq }
      | none => a := by
    unfold admitTile
    dsimp only
    rw [hp]
    exact if_pos hcap
  have hd : (admitTile d s).die d = { s.die d with pwait := rest, pactive := (s.die d).pactive + 1 } := by
    rw [hadm]
    change (s.setDie d _).die d = _
    rw [State.setDie_die, if_pos rfl]
  have hac : ((admitTile d s).ac w.ac).axq = updFirst (fun c => c.waiting && c.tile == w.tile) { c with waiting := false } (s.ac w.ac).axq := by
    rw [hadm, State.modAc_ac, if_pos rfl]
    change (match (s.ac w.ac).axq.find? _ with | some c => _ | none => _ : AC).axq = _
    rw [hc]
    rfl
  refine ⟨_, rfl, ?_, ?_, ?_, ?_, ?_⟩
  · rw [hd]
  · rw [hd]
  · rw [hadm]
    rfl
  · rw [hac]
    exact mem_updFirst hc _
  · rw [hac, length_updFirst]

/-! #### Drift of physical cells -/

/-- What the drift of physical cells leaves of a tile: the REF state, the symmetry points and the registers. -/
structure Drifted (t u : Tile) : Prop where
  lf : u.lf = t.lf
  ls : u.ls = t.ls
  sc : u.sc = t.sc
  spr : u.spr = t.spr
  reg : u.reg = t.reg

theorem driftCell_drifted (n tile cycle k : Nat) (x : TileS) : Drifted x.1 (driftCell n tile cycle k x).1 := by
  unfold driftCell
  dsimp only
  split <;> exact ⟨rfl, rfl, rfl, rfl, rfl⟩

theorem foldl_drifted (n tile cycle : Nat) (l : List Nat) (x : TileS) : Drifted x.1 (l.foldl (fun x k => driftCell n tile cycle k x) x).1 := by
  induction l generalizing x with
  | nil => exact ⟨rfl, rfl, rfl, rfl, rfl⟩
  | cons k l ih =>
    obtain ⟨hlf, hls, hsc, hspr, hreg⟩ := ih (driftCell n tile cycle k x)
    obtain ⟨hlf', hls', hsc', hspr', hreg'⟩ := driftCell_drifted n tile cycle k x
    exact ⟨hlf.trans hlf', hls.trans hls', hsc.trans hsc', hspr.trans hspr', hreg.trans hreg'⟩

theorem onTile_leaves (n ti : Nat) (f : TileS → TileS) (s : State) :
    TilesBut n ti s (s.onTile n ti f) ∧ (s.onTile n ti f).mem = s.mem ∧ (s.onTile n ti f).dies = s.dies
      ∧ (s.onTile n ti f).tile n ti = (f ({ s.tile n ti with now := s.cycle }, s.seq)).1 := by
  unfold State.onTile
  obtain ⟨t, q⟩ := f ({ s.tile n ti with now := s.cycle }, s.seq)
  refine ⟨fun j hj => ?_, rfl, rfl, ?_⟩
  · exact (setTile_tile ..).trans (if_neg hj)
  · exact (setTile_tile ..).trans (if_pos rfl)

/-- The drift of some cells of a tile. -/
def driftOver (n tile cycle : Nat) (l : List Nat) (x : TileS) : TileS := l.foldl (fun x k => driftCell n tile cycle k x) x

theorem execCellDrift_eq (n tile : Nat) (s : State) :
    ∃ l, execCellDrift n tile s = if s.cycle < hour then .next s else .next (s.onTile n tile (driftOver n tile s.cycle l)) := ⟨List.range 1048576, rfl⟩

theorem cellDrift_leaves (n tile : Nat) (s : State) : ∃ t : State, exec (.cellDrift n tile) s = .next t ∧ TilesBut n tile s t ∧ t.mem = s.mem ∧ t.dies = s.dies
    ∧ (t.tile n tile).lf = (s.tile n tile).lf ∧ (t.tile n tile).ls = (s.tile n tile).ls ∧ (t.tile n tile).sc = (s.tile n tile).sc
    ∧ (t.tile n tile).spr = (s.tile n tile).spr ∧ (t.tile n tile).reg = (s.tile n tile).reg := by
  obtain ⟨l, hl⟩ := execCellDrift_eq n tile s
  have hx : exec (.cellDrift n tile) s = execCellDrift n tile s := rfl
  rw [hx, hl]
  by_cases hc : s.cycle < hour
  · rw [if_pos hc]
    exact ⟨s, rfl, fun _ _ => rfl, rfl, rfl, rfl, rfl, rfl, rfl, rfl⟩
  · rw [if_neg hc]
    obtain ⟨hbut, hmem, hdies, htile⟩ := onTile_leaves n tile (driftOver n tile s.cycle l) s
    obtain ⟨hlf, hls, hsc, hspr, hreg⟩ := foldl_drifted n tile s.cycle l ({ s.tile n tile with now := s.cycle }, s.seq)
    refine ⟨_, rfl, hbut, hmem, hdies, ?_⟩
    rw [htile]
    exact ⟨hlf, hls, hsc, hspr, hreg⟩

end Sys2Proof

/-! # Events of AX and MX -/

namespace Sys2Proof

open Machine

/- Declarations are checked one after another: side by side they would hold a thread each. -/
set_option Elab.async false

/-! ### The events of AX and MX -/

section
variable {n : Nat} {s : State} {q : TQEntry} {rest : List TQEntry} (hf : mxFree (s.ac n) = true) (ht : (s.ac n).mxu.tq = q :: rest)
include ht

/-- The end of an entry that gives no token. -/
theorem mxEnd_ends {f : MX → MX} (hg : (q.kind = 0 ∨ q.kind = 2) → q.gives = 0) :
    ((mxEnd n q f s).ac n).mxu = f { (s.ac n).mxu with tq := rest, run := none, taken := false, pcs := smErase (s.ac n).mxu.pcs q.num }
      ∧ (q.num ≠ 0 → (3, q.num) ∈ ((mxEnd n q f s).ac n).ln.tlDone) := by
  obtain ⟨hmx, hdone, -⟩ := mxEnd_leaves (n := n) (s := s) (f := f) hg
  refine ⟨hmx.trans (congrArg f ?_), hdone⟩
  unfold mxDone
  rw [ht]
  rfl

include hf

theorem mxModeChange_ends (hk : q.kind = 3) : ∃ t : State, exec (.mxModeChange n) s = .next t
    ∧ (t.ac n).mxu = { (s.ac n).mxu with mode := q.mode, tq := rest, run := none, taken := false, pcs := smErase (s.ac n).mxu.pcs q.num }
    ∧ (q.num ≠ 0 → (3, q.num) ∈ (t.ac n).ln.tlDone) := by
  obtain ⟨hmx, hdone⟩ := mxEnd_ends ht (f := fun m => { m with mode := q.mode }) fun h => by omega
  exact ⟨_, exec_mxModeChange hf ht hk, hmx, hdone⟩

theorem mxZero_ends (hk : q.kind = 1) : ∃ t : State, exec (.mxZero n) s = .next t ∧ (t.ac n).mxu.tq = rest ∧ (q.num ≠ 0 → (3, q.num) ∈ (t.ac n).ln.tlDone)
    ∧ ∀ b i j, i < 64 → j < 64 → (smSorted 0 (s.ac n).mxu.acc = true) →
      smGet 0 (t.ac n).mxu.acc (4096 * b + 64 * i + j) = if b = q.acc then 0 else smGet 0 (s.ac n).mxu.acc (4096 * b + 64 * i + j) := by
  obtain ⟨hmx, hdone⟩ := mxEnd_ends ht (f := fun m => { m with acc := m.acc.filter fun (k, _) => k / 4096 != q.acc }) fun h => by omega
  refine ⟨_, exec_mxZero hf ht hk, congrArg (fun m : MX => m.tq) hmx, hdone, fun b i j hi hj hs => ?_⟩
  rw [hmx]
  exact smGet_zeroed hs q.acc b hi hj

theorem mxTileComplete_ends {r : TileRun} (hk : q.kind = 0) (hr : (s.ac n).mxu.run = some r) (hgo : r.go = true) (hrow : q.mt ≤ (s.ac n).mxu.rowprog) (hg : q.gives = 0) :
    ∃ t : State, exec (.mxTileComplete n) s = .next t ∧ (t.ac n).mxu.tq = rest ∧ (t.ac n).mxu.run = none
      ∧ (t.ac n).mxu.chkrot = (s.ac n).mxu.chkrot + 1 ∧ (q.num ≠ 0 → (3, q.num) ∈ (t.ac n).ln.tlDone) ∧ (t.ac n).mxu.acc = (s.ac n).mxu.acc := by
  obtain ⟨hmx, hdone⟩ := mxEnd_ends ht (f := fun m => { m with chkrot := m.chkrot + 1 }) fun _ => hg
  refine ⟨_, exec_mxTileComplete hf ht hk hr hgo hrow, ?_⟩
  rw [hmx]
  exact ⟨rfl, rfl, rfl, hdone, rfl⟩

theorem mxTileStart_starts {w : W64} {fr : List W64} {ta tb : Tdt} {s2 : State} (hk : q.kind = 0) (h0 : q.takes = 0) (hr : (s.ac n).mxu.run = none) (hq : (s.ac n).mxu.fq = w :: fr)
    (hc : mxChecks n q w (tileTaken n fr ⟨w, [], [], 0, false, false, []⟩ s) = .ok (ta, tb) s2) : ∃ t : State, exec (.mxTileStart n) s = .next t
      ∧ (t.ac n).mxu.run = some ⟨w, ta.words, tb.words, (s2.ac n).cc.sr 0x0D3, true, false, []⟩
      ∧ (t.ac n).mxu.fq = fr ∧ (t.ac n).mxu.rowprog = 0 ∧ (t.ac n).mxu.tq = q :: rest
      ∧ (t.ac n).cc.sr 0x0D3 = (if (s2.ac n).mxu.mode = 4 then (s2.ac n).cc.sr 0x0D3 + 1 else (s2.ac n).cc.sr 0x0D3) ∧ t.mem = s2.mem := by
  have hm : (s2.ac n).mxu = { (s.ac n).mxu with fq := fr, run := some ⟨w, [], [], 0, false, false, []⟩, rowprog := 0 } :=
    (((keeps_mxChecks n q w).ok hc).mxu n).trans (tileTaken_mxu ..)
  obtain ⟨hmx, hctr, hmem⟩ := tileStarted_leaves n ⟨w, [], [], 0, false, false, []⟩ ta tb s2
  have hx : exec (.mxTileStart n) s = .next (tileStarted n ⟨w, [], [], 0, false, false, []⟩ ta tb s2) :=
    (mxEvent_eq hf (tileStart n)).trans (congrArg Host.Outcome.next (tileStart_eq ht hk h0 hr hq hc))
  refine ⟨_, hx, ?_⟩
  rw [hmx]
  refine ⟨rfl, ?_, ?_, ?_, hctr, hmem⟩
  · rw [hm]
  · rw [hm]
  · rw [hm]
    exact ht

end

/-- Settles O44: the events of AX read the queue of array commands, and those of MX the head of the tile queue; a drain may write registers of devices, which no tile queue sees,
and its release performs the same writes whatever MX holds. -/
theorem arrayMatrixEvents : Obligations.ArrayMatrixEvents := by
  unfold Obligations.ArrayMatrixEvents
  intro n s
  refine ⟨fun c hq hd hw hg hr => arrayCommand_ends hq hd hw hg hr, fun c p rest w hq hd hwt hr hne hw => arrayCommand_programs hq hd hwt hr hne hw,
    fun i hw hx hg he hi => axGateRead_runs hw hx hg he hi, fun d w rest c hp hcap hc => powerAdmit_admits hp hcap hc, fun tile => cellDrift_leaves n tile s, ?_⟩
  intro q rest hf ht m
  refine ⟨fun hk => mxModeChange_ends hf ht hk, fun hk => mxZero_ends hf ht hk, fun w fr ta tb s2 hk h0 hr hq => ?_, fun r hk hr hgo => ⟨?_, ?_, ?_, ?_⟩, ?_⟩
  · intro r s1 hc
    exact mxTileStart_starts hf ht hk h0 hr hq hc
  · intro hrow _ x s1 h
    exact rowCommit_row hf ht hk hr hgo hrow h
  · intro hrow c i0 i1 s1 h
    exact rowCommit_faults hf ht hk hr hgo hrow h
  · intro hrow s1 h
    exact rowCommit_checks hf ht hk hr hgo hrow h
  · intro hrow hg
    exact mxTileComplete_ends hf ht hk hr hgo hrow hg
  · intro r hk hr hgo h0 hg s1 hw
    exact mxDrain_ends hf ht hk hr hgo h0 hg hw

end Sys2Proof
